-- ==== Sys2Proof/Word.lean ====
section
/-!
DEFINITION. The words of the device (R9, R15, R18, R198, R303): 16-bit native words, bytes, 64-byte lines, 80-bit row
planes, 43-bit device physical addresses, 16-bit places.
-/
namespace Sys2Proof

/-- The device's native word: a slice, a register's data, a row check (R9, R378). -/
abbrev Word := BitVec 16

/-- One byte of device memory. -/
abbrev Byte := BitVec 8

/-- A 32-bit register access word: write mask in bits [31:16], data in bits [15:0] (R378). -/
abbrev Word32 := BitVec 32

/-- Eight bytes: near data, a counter, an atomic's word; byte i is bits [8i+7:8i] (R18). -/
abbrev Word64 := BitVec 64

/-- One plane (data or mask) of a row: slice j is bits [16j+15:16j] (R52). -/
abbrev Plane := BitVec 80

/-- A search key of up to 40 pieces: piece p is bits [16p+15:16p], each piece as R17 holds it. -/
abbrev Key := BitVec 640

/-- A 64-byte line: byte i is bits [8i+7:8i]. -/
abbrev Line := BitVec 512

/-- A device physical address (R198). -/
abbrev Dpa := BitVec 43

/-- The place of a logical device (R303). -/
abbrev Place := BitVec 16

end Sys2Proof
end

