-- ==== Sys2Proof/Syntax.lean ====
section
/-!
DEFINITION. The commands of the block: one constructor of Instr per row of spec/opcode_table.json, in the table's order,
with the operands the rule of the row gives it. Rows that act on what the device already holds (the front submission of
a ring, the request in a seat's mailbox buffer) name only where it stands. Rows that are guarded writes carry the
complement word that makes them take effect (R390). What the outside finds (an error, a measurement, a test result) is
an operand.
-/
namespace Sys2Proof

/-- What a command's read met: in DRAM (R276, R277), in the page map (R280), in the line's directory or snoop-filter entry
(R263). -/
inductive Ecc where
  | good | corrected | uncorrectable | mapLost | dirBad | filtBad
deriving DecidableEq, Repr

/-- A fault inside a frond that a local search meets (Table 2.11, R268). -/
inductive LocalFault where
  | none
  /-- encoder parity error of bed b (BED_FAULT, R298) -/
  | bed (b : BitVec 4)
  /-- a line or encoder fault of pan p reports row r as a match (PAN_FAULT, R74) -/
  | pan (p : BitVec 9) (r : BitVec 13)
  /-- priority-column parity failure of the entry at logical row r (R268) -/
  | prio (r : BitVec 22)
deriving DecidableEq, Repr

/-- Where a fabric-manager command comes from (R196). -/
inductive FmSource where
  | sideband | switch
deriving DecidableEq, Repr

/-- One extent of an add request: the attributes of Table 5.3. -/
structure ExtentReq where
  /-- 256 MiB block number: the DPA of its first byte is base times 2^28 -/
  base : BitVec 15
  /-- the seats and, for each, whether its right is read-write -/
  seats : List (BitVec 6 × Bool)
  /-- true HDM-DB, false HDM-H -/
  db : Bool
  /-- key slot, or none -/
  key : Option (BitVec 7)
  /-- tier policy: 0 normal, 1 never compress, 2 pin uncompressed -/
  policy : BitVec 2
deriving DecidableEq, Repr

/-- A CXL fabric-manager command as the steward tunnels it (R196). -/
inductive FmCmd where
  | add (exts : List ExtentReq)
  /-- forced, or asked of the seat's host (R207, R208) -/
  | release (seat : BitVec 6) (bases : List (BitVec 15)) (forced : Bool)
  | bind (ld : Place)
  | unbind (ld : Place)
deriving DecidableEq, Repr

/-- The settings of one HDM decoder (R199). -/
structure HdmSetting where
  base : BitVec 64
  size : BitVec 64
  /-- interleave ways: 1, 2, 3, 4, 6, 8, 12 or 16 -/
  ways : BitVec 5
  /-- interleave granularity in bytes, 256 to 16,384 -/
  gran : BitVec 15
  /-- bytes of DPA skipped before this decoder's range -/
  skip : BitVec 64
  /-- back-invalidate enabled (R201) -/
  bi : Bool
deriving DecidableEq, Repr

/-- One 32-bit word's worth of an access: its byte enables (Table 10.3), or the whole access when it is 64-bit. -/
inductive AccWidth where
  /-- within one 32-bit word, with these byte enables -/
  | one (be : BitVec 4)
  /-- 64-bit and 8-byte aligned, with the byte enables of the low and the high word -/
  | two (lo hi : BitVec 4)
  /-- unaligned, partial 64-bit, or longer than 8 bytes -/
  | bad
deriving DecidableEq, Repr

/-- A BAR0 access: address, width and byte enables, and the data of a write (low word in bits [31:0]). -/
structure Access where
  addr : BitVec 26
  width : AccWidth
  data : BitVec 64
deriving DecidableEq, Repr

/-- What the patrol scrub reads (R294): a line of a page, or one of the reserved regions of R210. -/
inductive PatrolTarget where
  | line (l : BitVec 37)
  | pageMap (page : BitVec 31)
  | shadow (die : BitVec 3) (row : BitVec 22)
  | harvest
deriving DecidableEq, Repr

/-- The straps sampled at stage 0x01 (R458, Table 13.4). -/
structure Straps where
  rmaEn : Bool
  sbMode : Bool
  sbAddr : BitVec 3
  xtalBypass : Bool
  testMode : BitVec 2
deriving DecidableEq, Repr

/-- The DRAM population a hub finds at training (R209): equal on every populated channel, or broken. -/
structure DramPop where
  /-- populated channels: 3 (0, 2 and 4) or 6 -/
  channels : BitVec 3
  /-- GB per DIMM -/
  gbPerDimm : BitVec 9
  /-- DIMMs per channel, 1 or 2 -/
  dimms : BitVec 2
  /-- ranks per DIMM: 1, 2 or 4 -/
  ranks : BitVec 3
  /-- every other condition of R209 holds and every channel trained -/
  ok : Bool
deriving DecidableEq, Repr

/-- A firmware image as PLDM writes it (R440, R441). -/
structure FwImage where
  version : BitVec 32
  security : BitVec 32
  /-- its ECDSA P-384 signature verifies under the Steuno firmware key -/
  signed : Bool
deriving DecidableEq, Repr

/-- What a host link finds of its partner as it trains (Table 5.1, R194, R197). -/
structure Partner where
  /-- an MLD-capable switch, otherwise a host's root port -/
  sw : Bool
  /-- it takes 256-byte flits below 64 GT/s too -/
  flit256 : Bool
  /-- the port ID this head has behind it, where it is a port-based-routing fabric -/
  pid : Option (BitVec 12)
deriving DecidableEq, Repr

/-- Where a CXL.mem request is addressed: a logical device and, behind a port-based-routing fabric, a port ID (R197). -/
structure MemDest where
  place : Place
  pid : Option (BitVec 12)
deriving DecidableEq, Repr

/-- The keys of one IDE stream of a link (Table 5.2, R193). -/
structure IdeStream where
  /-- AES-GCM key -/
  key : BitVec 256
  /-- CXL.mem in skid mode, otherwise in containment mode -/
  skid : Bool
deriving DecidableEq, Repr

/-- What MRAM recovery finds at stage 0x05 (R420, R447). -/
structure MramFound where
  /-- for each hub, the SEQ of an open record and whether its CRC passes -/
  open0 : Option (BitVec 48 × Bool)
  open1 : Option (BitVec 48 × Bool)
  /-- both copies of the configuration store fail their checks -/
  storeLost : Bool
deriving DecidableEq, Repr

/-- What one die's self-test or fill finds (R290, R447): a failed checker and its pattern, or the pans that fail. -/
structure SelftestOut where
  /-- the dies with a failed checker: die, checker, pattern -/
  failed : List (BitVec 3 × Word × Word)
deriving DecidableEq, Repr

/-- What the fill's read-back finds (R288, R447): physical pans (ledger index of Table 11.1) with the failing test,
and fronds whose fill ran over its limit. -/
structure FillOut where
  badPans : List (BitVec 12 × Word)
  late : List (BitVec 3)
deriving DecidableEq, Repr

/-- The measurements a tally epoch begins with (R339, R340, R352). -/
structure EpochIn where
  /-- hottest junction of each die 0 to 7, in units of 0.25 °C, two's complement -/
  tj : List Word
  /-- predicted slot demand of each frond 0 to 5, in M slots/s (R352) -/
  demand : List (BitVec 16)
  /-- fetch and completion times the hub measures, in ns (R352) -/
  overheadNs : BitVec 16
  /-- measured 99.99th-percentile latencies over the last 100 ms: covenant ID, ns (R325) -/
  measured : List (BitVec 8 × BitVec 32)
  /-- energy asked by pressure work (claim 4 of Table 9.1), in nJ -/
  pressure : BitVec 40
  /-- background work asks for slack in this epoch (R349): rakes, migration, compression, patrol, in nJ -/
  background : List (BitVec 40)
  /-- fronds the tally asks to take deeper, with the state: 1 Doze, 2 Moss, 3 Spore (R356) -/
  sleep : List (BitVec 3 × BitVec 2)
  /-- for each such die, the block that refuses: step and reason code (R362), or a wake trigger (reason 0x20, R363) -/
  refusals : List (BitVec 3 × BitVec 4 × BitVec 8)
  /-- hub levels asked by dispatcher demand and memory traffic, 0 to 3 (R354) -/
  hubLevel : List (BitVec 2)
  /-- idle host links asked into a power state: port, link, 0 L0, 1 L0p, 2 L1 (R190) -/
  links : List (BitVec 3 × BitVec 2 × BitVec 2)
deriving DecidableEq, Repr

/-- The channel an SPDM request arrives on (R324, R470). -/
inductive SpdmChan where
  | doe (p : Place)
  | mctp
deriving DecidableEq, Repr

/-- A PLDM sensor (R470). -/
inductive PldmSensor where
  | junction (die : BitVec 3)
  | railMv (rail : BitVec 4)
  | railMa (rail : BitVec 4)
  | packagePower
deriving DecidableEq, Repr

/-- An MCTP control message (R470). -/
inductive MctpCmd where
  | setEid (eid : BitVec 8)
  | getEid
  | getVersion
  | getTypes
  | getVendor
  | other (code : BitVec 8)
deriving DecidableEq, Repr

/-- A BIST result (R296). -/
inductive BistOut where
  | pass
  | fail (test : Word)
deriving DecidableEq, Repr

/-- One command of the block: one constructor per row of spec/opcode_table.json. -/
inductive Instr where
  | submissionFetch (ring : BitVec 10)
  | searchShort (ring : BitVec 10)
  | searchLong (ring : BitVec 10)
  | fetchAdd (ring : BitVec 10)
  | swap (ring : BitVec 10)
  | cmpSwap (ring : BitVec 10)
  | localResult (id : BitVec 32) (die : BitVec 3) (fault : LocalFault)
  | farDataPrefetchFill (id : BitVec 32) (k : BitVec 2)
  | nearDataRead (id : BitVec 32) (die : BitVec 3)
  | cascadeResolution (id : BitVec 32)
  | cascadeTimeout (id : BitVec 32)
  | hitCounterIncrement (die : BitVec 3)
  | crozierWake (die : BitVec 3) (pan : BitVec 9)
  | tagRestore (die : BitVec 3) (pan : BitVec 9)
  | rowRepairRecord (die : BitVec 3) (row : BitVec 22)
  | ringEnable (ld : Place) (ring : BitVec 10) (w : Word32)
  | ringReady (ring : BitVec 10)
  | ringDisable (ld : Place) (ring : BitVec 10) (w : Word32)
  | ringIdle (ring : BitVec 10)
  | sqTailWrite (ld : Place) (ring : BitVec 10) (be : BitVec 4) (v : Word32)
  | cqHeadWrite (ld : Place) (ring : BitVec 10) (be : BitVec 4) (v : Word32)
  | irqArmWrite (ld : Place) (ring : BitVec 10) (be : BitVec 4) (v : Word32)
  | tableCreate (ring : BitVec 10)
  | tableDestroy (ring : BitVec 10)
  | tableDestroyDone (table : BitVec 10)
  | tableRange (ring : BitVec 10)
  | entryInvalidate (ring : BitVec 10)
  | entryWrite (ring : BitVec 10)
  | entryValidate (ring : BitVec 10)
  | nearWrite (ring : BitVec 10)
  | entrySet (ring : BitVec 10)
  | entryRead (ring : BitVec 10)
  | sluiceSet (ring : BitVec 10)
  | rakeMove (ring : BitVec 10)
  | rakeMoveStart (die : BitVec 3)
  | rakeEntryStep (die : BitVec 3)
  | rakeQuery (ring : BitVec 10)
  | rakeCancel (ring : BitVec 10)
  | bulkLoad (ring : BitVec 10)
  | bulkLoadStep (id : BitVec 32)
  | snapshot (ring : BitVec 10)
  | stats (ring : BitVec 10)
  | counterRead (ring : BitVec 10)
  | counterClear (ring : BitVec 10)
  | hostLinkTraining (port : BitVec 3) (link : BitVec 2) (rate : BitVec 3) (width : BitVec 5) (cxl : Bool) (partner : Partner)
  | hostLinkDown (port : BitVec 3) (link : BitVec 2)
  | ideCheckFail (port : BitVec 3) (link : BitVec 2)
  | ideKeyManagement (ld : Place) (stream : BitVec 3) (key : IdeStream)
  | mldPortBind (src : FmSource) (ld : Place)
  | mldPortUnbind (src : FmSource) (ld : Place)
  | hdmDecoderCommit (ld : Place) (idx : BitVec 3) (set : HdmSetting)
  | cxlMemEnableSet (ld : Place)
  | cxlMemEnableClear (ld : Place)
  | addDynamicCapacity (src : FmSource) (exts : List ExtentReq)
  | releaseDynamicCapacity (ld : Place) (bases : List (BitVec 15))
  | forcedRelease (src : FmSource) (seat : BitVec 6) (bases : List (BitVec 15))
  | cxlMemReadShared (ld : MemDest) (hpa : BitVec 64) (ecc : Ecc)
  | cxlMemReadAny (ld : MemDest) (hpa : BitVec 64) (ecc : Ecc)
  | cxlMemFullWrite (ld : MemDest) (hpa : BitVec 64) (data : Line) (poison : Bool)
  | cxlMemPartialWrite (ld : MemDest) (hpa : BitVec 64) (data : Line) (be : BitVec 64) (poison : Bool)
  | cxlMemCleanEvict (ld : MemDest) (hpa : BitVec 64)
  | tierWindow (hub : BitVec 1)
  | pageColdAge (hub : BitVec 1) (page : BitVec 31)
  | pageMigrationSwitch (hub : BitVec 1) (page : BitVec 31)
  | pageCompression (hub : BitVec 1) (page : BitVec 31) (size : BitVec 13)
  | mediaWaitExpire (hub : BitVec 1)
  | keysZeroSlot (ld : Place) (w : Word32)
  | keysZeroAll (ld : Place) (w : Word32)
  | rds (agent : BitVec 5) (line : BitVec 37) (ecc : Ecc)
  | rdown (agent : BitVec 5) (line : BitVec 37) (ecc : Ecc)
  | upg (agent : BitVec 5) (line : BitVec 37)
  | wbdata (agent : BitVec 5) (line : BitVec 37)
  | evictclean (agent : BitVec 5) (line : BitVec 37)
  | fwds (agent : BitVec 5) (line : BitVec 37)
  | fwdown (agent : BitVec 5) (line : BitVec 37)
  | inv (agent : BitVec 5) (line : BitVec 37)
  | cohTransactionDone (hub : BitVec 1) (line : BitVec 37)
  | bisnpResponse (seat : BitVec 6) (line : BitVec 37) (dirty : Option Line)
  | cohBiTimeout (seat : BitVec 6) (line : BitVec 37)
  | cohRetryLong (hub : BitVec 1) (line : BitVec 37) (wait100 : BitVec 16)
  | injRowData (ld : Place) (die : BitVec 3) (w : Word32)
  | injRowMask (ld : Place) (die : BitVec 3) (w : Word32)
  | injRowValid (ld : Place) (die : BitVec 3) (w : Word32)
  | injRowCheck (ld : Place) (die : BitVec 3) (w : Word32)
  | injNearData (ld : Place) (die : BitVec 3) (w : Word32)
  | injSluiceTag (ld : Place) (die : BitVec 3) (w : Word32)
  | injSramLine (ld : Place) (die : BitVec 3) (w : Word32)
  | injDirtyTwins (ld : Place) (die : BitVec 3) (w : Word32)
  | injDirectory (ld : Place) (die : BitVec 3) (w : Word32)
  | injDramOneDevice (ld : Place) (die : BitVec 3) (w : Word32)
  | injDramTwoDevices (ld : Place) (die : BitVec 3) (w : Word32)
  | injPoison (ld : Place) (die : BitVec 3) (w : Word32)
  | injShadowRecord (ld : Place) (die : BitVec 3) (w : Word32)
  | scrubSlot (die : BitVec 3)
  | patrolScrub (hub : BitVec 1) (target : PatrolTarget) (ecc : Ecc) (coord : BitVec 48)
  | repairFence (ld : Place) (die : BitVec 3) (w : Word32)
  | repairRetire (ld : Place) (die : BitVec 3) (w : Word32)
  | repairRetireNoSpare (ld : Place) (die : BitVec 3) (w : Word32)
  | panSpareSwitch (die : BitVec 3)
  | panBistDone (die : BitVec 3) (res : BistOut)
  | memretGo (ld : Place) (die : BitVec 3) (w : Word32)
  | dramRowRetired (hub : BitVec 1) (frames : BitVec 8)
  | dramChannelLost (hub : BitVec 1) (channel : BitVec 3)
  | sessChallenge (seat : BitVec 6)
  | sessOpen (seat : BitVec 6)
  | sessClose (seat : BitVec 6)
  | sessNonceExpire (seat : BitVec 6)
  | sessIdleExpire (seat : BitVec 6)
  | sessLockoutEnd (ld : Place)
  | secretSet (seat : BitVec 6)
  | seatsSecretClr (ld : Place) (w : Word32)
  | stewardClaim (ld : Place) (secret : BitVec 256)
  | stewardTake (seat : BitVec 6)
  | stewardHandover (seat : BitVec 6)
  | grant (seat : BitVec 6)
  | revoke (seat : BitVec 6)
  | seatDetach (seat : BitVec 6)
  | seatLinkGraceExpire (seat : BitVec 6)
  | detachDrainDone (seat : BitVec 6)
  | detachFinish (seat : BitVec 6)
  | covenantSet (seat : BitVec 6)
  | covenantClear (seat : BitVec 6)
  | covenantQuery (seat : BitVec 6)
  | keyLoad (seat : BitVec 6)
  | fmTunnel (seat : BitVec 6) (cmd : FmCmd)
  | tableOwner (seat : BitVec 6)
  | getDigests (ch : SpdmChan)
  | getCertificate (ch : SpdmChan) (offset length : Word)
  | challenge (ch : SpdmChan) (nonce : BitVec 256)
  | getMeasurements (ch : SpdmChan) (index : BitVec 8)
  | keyExchange (ch : SpdmChan) (random : BitVec 256)
  | finish (ch : SpdmChan) (verified : Bool)
  | tallyEpoch (e : EpochIn)
  | covBreachEnd (id : BitVec 8)
  | frondRelockDone (die : BitVec 3) (pausedNs : BitVec 32)
  | dieSleepDone (die : BitVec 3)
  | dieWakeDone (die : BitVec 3) (stoppedNs : BitVec 64)
  | frondScrubDue (die : BitVec 3)
  | panRetentionEntry (die : BitVec 3) (pan : BitVec 9)
  | tallyLend
  | costRecalibrate (rail : BitVec 4) (measuredNj : BitVec 48)
  | thermTrip (die : BitVec 3) (tj : Word)
  | hpwrPadrel (ld : Place) (die : BitVec 3) (w : Word32)
  | clkXtalFail (deviation : Word32)
  | clkXtalOk
  | clkRefLost
  | timeCalWrite (ld : Place) (w : Word32)
  | registerWrite (ld : Place) (a : Access)
  | unimplementedAccess (ld : Place) (write : Bool) (a : Access)
  | rcRegisterRead (ld : Place) (a : Access)
  | multiwordW0Read (ld : Place) (a : Access)
  | stageCommit (ld : Place) (addr : BitVec 26) (w : Word32)
  | stageCommitApply (page : BitVec 26)
  | guardedWrite (ld : Place) (addr : BitVec 26) (w : Word32)
  | guardedWriteTimeout (ld : Place) (addr : BitVec 26)
  | cfgRefWrite (ld : Place) (addr : BitVec 26) (w : Word32)
  | cfgSigPass (page : BitVec 26)
  | cfgRestore (page : BitVec 26)
  | cfgVoteFix (addr : BitVec 26) (c0 c1 c2 : Word)
  | arrReadArray (ld : Place) (die : BitVec 3) (w : Word32)
  | arrWriteSlice (ld : Place) (die : BitVec 3) (w : Word32)
  | arrReadShadow (ld : Place) (die : BitVec 3) (w : Word32)
  | arrClear (ld : Place) (die : BitVec 3) (w : Word32)
  | pkgModeSel (ld : Place) (w : Word32)
  | pkgReinit (ld : Place) (w : Word32)
  | halfTakeOut (ld : Place) (w : Word32)
  | halfReturn (ld : Place) (w : Word32)
  | halfMakePrimary (ld : Place) (w : Word32)
  | pairResyncDone (half : BitVec 1) (ms : BitVec 32)
  | hportBif (ld : Place) (port : BitVec 3) (w : Word32)
  | hportDown (ld : Place) (port : BitVec 3) (w : Word32)
  | portDownDrainEnd (port : BitVec 3)
  | hportUp (ld : Place) (port : BitVec 3) (w : Word32)
  | ddrRate (ld : Place) (hub : BitVec 1) (channel : BitVec 3) (w : Word32)
  | mramEraseConfig (ld : Place) (hub : BitVec 1) (w : Word32)
  | mramEraseLog (ld : Place) (hub : BitVec 1) (w : Word32)
  | ledgerSync (ld : Place) (w : Word32)
  | ledgerSelWrite (ld : Place) (w : Word32)
  | ledgerHourly
  | lifeAccumulate
  | railExcursionBegin (rail : BitVec 4) (mv : Word)
  | railExcursion (rail : BitVec 4) (extreme : Word) (durationUs : BitVec 32)
  | logSecondBoundary
  | mramSectorRefresh (hub : BitVec 1) (sector : BitVec 11)
  | logSelWrite (ld : Place) (w : Word32)
  | logRecordLoaded
  | harvestDumpDone (hub : BitVec 1) (partly : Bool)
  | harvestTake (ld : Place) (w : Word32)
  | harvestRelease (ld : Place) (w : Word32)
  | harvestOfsWrite (ld : Place) (w : Word32)
  | fwFault (hub : BitVec 1) (core : BitVec 2) (code : Word)
  | frondSvcOut (ld : Place) (die : BitVec 3) (w : Word32)
  | frondSvcIn (ld : Place) (die : BitVec 3) (w : Word32)
  | watripoEnable (ld : Place) (w : Word32)
  | wSearch (ld : Place) (addr : BitVec 16) (w : Word32)
  | wWriteSlice (ld : Place) (addr : BitVec 16) (w : Word32)
  | wReadSlice (ld : Place) (addr : BitVec 16) (w : Word32)
  | wValidate (ld : Place) (addr : BitVec 16) (w : Word32)
  | wInvalidate (ld : Place) (addr : BitVec 16) (w : Word32)
  | linkDown (link : BitVec 8)
  | linkUp (link : BitVec 8)
  | frondLost (die : BitVec 3)
  | hubLost (hub : BitVec 1)
  | porstNRelease (straps : Straps) (tj : Word) (mramOk xtalEdge : Bool) (badSlots : List (BitVec 4))
  | porstNAssert
  | pgHub (hub : BitVec 1)
  | pllLock (hub : BitVec 1)
  | firmwareVerified (hub : BitVec 1)
  | mramRecoveryDone (hub : BitVec 1) (found : MramFound)
  | pgFr (frond : BitVec 3)
  | selftestDone (hub : BitVec 1) (out : SelftestOut)
  | arrayFillDone (hub : BitVec 1) (out : FillOut)
  | dramTrainingDone (hub : BitVec 1) (pop : DramPop)
  | dramFillDone (hub : BitVec 1) (startMs : BitVec 32)
  | stageLimitExpire (die : BitVec 3)
  | fwWatchdog (hub : BitVec 1)
  | pgFall (input : BitVec 4)
  | avsStepTimeout (rail : BitVec 4) (mv : Word)
  | hostPerst (port : BitVec 3) (level : Bool)
  | orderlyPd
  | emergencyPd (confirm : BitVec 8)
  | epdN
  | restart
  | stageQuery
  | health
  | ledgerRead (id : Word)
  | logRead (seq : BitVec 48)
  | pldmFirmwareUpdate (hub : BitVec 1) (image : FwImage)
  | pldmPlatformMonitoring (sensor : PldmSensor)
  | mctpControl (cmd : MctpCmd)
  | bypass
  | idcode
  | samplePreload (preload : List (BitVec 13 × Bool))
  | extest
  | extestPulse
  | extestTrain
  | pgIo (hub : BitVec 1)
  | writeBackDone (hub : BitVec 1)
  | addDynamicCapacityResponse (ld : Place) (base : BitVec 15) (accept : Bool)
  | clearEventRecords (ld : Place) (log : BitVec 2) (n : BitVec 7)
  | avsStepDone (rail : BitVec 4)
  | highTemperatureHoldEnd (tj : Word)
  | halfOutDrainEnd (half : BitVec 1)
  | frondSvcInDone (die : BitVec 3) (out : SelftestOut)
  | snapshotStep (id : BitVec 32)
  | statsStep (id : BitVec 32)
deriving DecidableEq, Repr

end Sys2Proof
end

