-- ==== Sys2Proof/Config.lean ====
section
/-!
DEFINITION. What an implementation fixes and what the spec leaves open: opaque constants, with no body, so that no proof
can see a value of them. Each is named in the assumption log.
-/
namespace Sys2Proof

/-- Random bits of the hub's random source: the device nonce Nd (R313) and SPDM nonces (R324). Free (log 10). -/
opaque freeNonce : Nat → BitVec 256

/-- Bytes of SPDM answers whose content the standard and the part's keys fix: digests, certificates, signatures,
measurements (R324). Free (log 10). -/
opaque freeSpdm : Nat → BitVec 64

/-- Bytes of a harvest dump whose place inside its section the spec does not lay down (R428). Free (log 17). -/
opaque freeDump : Nat → Nat → BitVec 8

/-- The plaintext a PACKED image of one key gives under another key (R225, R230): the image's format is internal
(R218). Free (log 11). -/
opaque freePacked : Nat → BitVec 512

/-- The directory set of a line: 32,768 sets (R257). The index function is not stated. Free (log 12). -/
opaque dirSet : Nat → BitVec 15

/-- The directory bank of a line (R255): neither the number of banks nor the index function is stated. Free (log 13). -/
opaque dirBank : Nat → Nat

/-- The snoop-filter set of a line: 1,048,576 sets (R248). The index function is not stated. Free (log 12). -/
opaque filtSet : Nat → BitVec 20

/-- The sample of every boundary-scan cell that a pin drives from outside (R476). Free (log 18). -/
opaque freePin : Nat → Bool

/-- The DRAM coordinates (Table 7.8) of a line's media on a hub: the interleave within a channel is not stated (R210).
Free (log 18). -/
opaque dramCoord : Nat → Nat → BitVec 48

/-- The current a rail monitor reads, in mA (R463, R470): a measurement of the board. Free (log 18). -/
opaque freeCurrent : Nat → BitVec 32

/-- What a rail stands at, in mV, when its power-good input falls (R463, R467): a measurement of the board. Free (log 18). -/
opaque freeRail : Nat → BitVec 16

/-- The average wait of a seat's requests over the last 10 µs, in ns, at each response (R232): a measurement. Free (log 1). -/
opaque freeWait : Nat → BitVec 32

/-- How busy the channels of a home hub were over the last 10 µs, in percent, at each response (R232). Free (log 1). -/
opaque freeBusy : Nat → BitVec 8

/-- A seat's traffic was above its reserved memory bandwidth over the last 10 µs, at each response (R232). Free (log 1). -/
opaque freeAbove : Nat → Bool

/-- What COST.VALUE and COST.DEFAULT read for a COST.SEL value that names no entry (Table 10.19 states nothing; log 25). -/
opaque freeCost : Nat → BitVec 32

/-- A bandwidth figure of CDAT, in GB/s; 0 names the one that every dynamic capacity region reports: R204 takes it from Table 5.5, which
gives no bandwidth. Free (log 18). -/
opaque freeBandwidth : Nat → Nat

/-- The standing charge of a frond in Doze below P0, pJ per epoch (R342): Table 9.7 gives it at P0 alone. Free (log 15). -/
opaque freeDoze : Nat → BitVec 32

/-- Bytes 2 to 61, the SEQ aside, of the log record that a power loss left open with a good CRC (R420): its event was raised as the power
went. Free (log 48). -/
opaque freeRecord : Nat → BitVec 432

/-- The VALID bit of a snapshot's record whose shadow cannot be read, of a frond that is lost: R154 takes it from the array, which is
gone (R49). Free (log 27). -/
opaque freeValid : Nat → Nat → Bool

end Sys2Proof
end

