-- ==== Sys2Proof/Machine/State.lean ====
section
/-!
DEFINITION. The state of the block: every register, counter, mode, buffer, ring, table, log and pin the spec gives it, as
plain data, and the queue of waiting commands; the faults and refusals; the state after reset.
Each field's docstring names the rule of the spec and the reset value. "log n" is notes/assumptions/n.md.
-/
namespace Sys2Proof.Machine

/-- Why the block stops. Raised by step's idle tick only. -/
inductive Fault where
  /-- The 64-bit timebase (R368) would pass its last value, 17.8 million years after its start; the spec says that it never
  repeats a value and gives nothing further. Safe. -/
  | timebaseExhausted
deriving DecidableEq, Repr

/-- Why a command is refused by the model. -/
inductive Refusal where
  /-- The command has no meaning yet. Safe. -/
  | notModelled (mnemonic : String)
deriving DecidableEq, Repr

/-- A finite map: pairs of a key and a value, keys strictly rising. -/
abbrev SMap (α : Type) := List (Nat × α)

/-- The parts of Table 0.1. -/
inductive Part where
  | ls2 | ls4 | ls8
deriving DecidableEq, Repr

/-- What the part is; never changed by a command. -/
structure Chip where
  /-- the part. R3, R5. Reset: LS-8 (DESIGN CHOICE, log 4) -/
  part : Part
  /-- speed grade -15 (true) or -12. R5, R6. Reset: -15 (DESIGN CHOICE, log 4) -/
  fast : Bool
  /-- serial number, 64 bits. R400. Reset: DESIGN CHOICE 0 (log 4) -/
  serial : BitVec 64
  /-- die revision of IDCODE, 4 bits. R475. Reset: DESIGN CHOICE 0 (log 4) -/
  revision : BitVec 4
  /-- manufacturer code of IDCODE, 11 bits. R475. Reset: DESIGN CHOICE 0 (log 4) -/
  maker : BitVec 11
  /-- minimum security version fused into the hub, 32 bits. R440. Reset: DESIGN CHOICE 0 (log 4) -/
  fusedMin : BitVec 32
deriving DecidableEq, Repr

/-- Balls and what holds them. Lists are indexed by port (6), hub (2), frond (6). -/
structure Pins where
  /-- PORST_N input, 1 bit. R437. Reset: low -/
  porstN : Bool
  /-- HPp_PERST_N inputs, 6 bits. R443. Reset: DESIGN CHOICE low (log 5) -/
  perst : List Bool
  /-- PG_HUB0, PG_HUB1 inputs. R436. Reset: low (DESIGN CHOICE, log 5) -/
  pgHub : List Bool
  /-- PG_FR[5:0] inputs. R436. Reset: low (DESIGN CHOICE, log 5) -/
  pgFr : List Bool
  /-- PG_IO0, PG_IO1 inputs. R436. Reset: low (DESIGN CHOICE, log 5) -/
  pgIo : List Bool
  /-- PWREN_HUB0, PWREN_HUB1 outputs. R437. Reset: low -/
  enHub : List Bool
  /-- PWREN_FR[5:0] outputs. R437. Reset: low -/
  enFr : List Bool
  /-- PWREN_IO0, PWREN_IO1 outputs. R437. Reset: low -/
  enIo : List Bool
  /-- FAULT_N asserted (driven low), 1 bit. R437, R473. Reset: not asserted -/
  fault : Bool
  /-- the sampled straps. R458. Reset: the pulls' values, all 0 -/
  straps : Straps
  /-- DDR control balls of each hub held: none, or RESET_N's held level. R364, Table 9.11. Reset: none -/
  heldDdr : List (Option Bool)
  /-- host-port balls of each port held. R364, Table 9.11. Reset: none -/
  heldPort : List Bool
  /-- board sideband balls held, with the held SB_GPIO value and FAULT_N assertion. R364, Table 9.11. Reset: none -/
  heldSb : Option (BitVec 8 × Bool)
deriving DecidableEq, Repr

/-- The JTAG instructions of R476. -/
inductive JtagIr where
  | bypass | idcode | samplePreload | extest | extestPulse | extestTrain
deriving DecidableEq, Repr

/-- The boundary-scan port. -/
structure Jtag where
  /-- instruction register. R475, R476; IEEE 1149.1. Reset: IDCODE (PRESUMED from IEEE 1149.1, log 18) -/
  ir : JtagIr
  /-- preloaded cells: cell number to value. R476. Reset: empty (DESIGN CHOICE, log 18) -/
  cells : SMap Bool
  /-- cells the tester drives at stage 0x7D. R476. Reset: none -/
  driven : SMap Bool
deriving DecidableEq, Repr

/-- One firmware image slot of a hub's SPI NOR (R440, R441). -/
structure FwSlot where
  /-- the image, if any. R440. Reset: version 1, security 0, signed, in slot 0 of each hub (DESIGN CHOICE, log 4) -/
  image : Option FwImage
  /-- marked pending. R441. Reset: no -/
  pending : Bool
deriving DecidableEq, Repr

/-- Firmware of one hub. -/
structure Fw where
  /-- the two slots. R440. Reset: see FwSlot -/
  slots : List FwSlot
  /-- the slot last activated, 0 or 1. R440. Reset: 0 (DESIGN CHOICE, log 4) -/
  lastActive : Nat
  /-- the slot this start-up loaded, if any. R440. Reset: none -/
  loaded : Option Nat
  /-- it was loaded as a pending image. R441. Reset: no -/
  asPending : Bool
  /-- running version, 32 bits. R400 PKG.FW_VER. Reset: DESIGN CHOICE 0 (log 5) -/
  running : BitVec 32
deriving DecidableEq, Repr

/-- One event to be recorded: what the lichen log and the CXL event logs receive (R419, R477). -/
structure EvRec where
  /-- event code, 16 bits. R429 -/
  code : BitVec 16
  /-- record number, 48 bits; 0 while held or when not recorded. R419 -/
  seq : BitVec 48
  /-- timebase at the event, 64 bits. R368 -/
  tb : BitVec 64
  /-- calendar seconds, 48 bits. R370 -/
  cal : BitVec 48
  /-- die index or 0xFF. R419 -/
  die : BitVec 8
  /-- seat concerned or 0xFF. R419 -/
  seat : BitVec 8
  /-- FLAGS, 16 bits. R419 -/
  flags : BitVec 16
  /-- suppressed repeats represented, 16 bits. R419 -/
  count : BitVec 16
  /-- DETAIL, 32 bytes: byte i is bits [8i+7:8i]. R477 -/
  detail : BitVec 256
deriving DecidableEq, Repr

/-- Start-up. -/
structure Boot where
  /-- stage code, 8 bits. R446, Table 12.2. Reset: 0x00 -/
  stage : BitVec 8
  /-- each hub has ended the stage. R438. Reset: no -/
  hubDone : List Bool
  /-- STARTUP.STAT.FAILED. Table 12.4. Reset: 0 -/
  failed : Bool
  /-- STARTUP.STAT.HALF_A_OUT and HALF_B_OUT. Table 12.4. Reset: 0 -/
  halfOut : List Bool
  /-- STARTUP.STAT.FALLBACK. Table 12.4. Reset: 0 -/
  fallback : Bool
  /-- held at stage 0x01: MRAM unreadable or junction above 100 °C after a trip. R447. Reset: no -/
  hold : Bool
  /-- the last power-down was a thermal trip. R450. Reset: no -/
  tripped : Bool
  /-- a crystal edge was seen. R447. Reset: no -/
  xtalSeen : Bool
  /-- mode of this start-up, read at stage 0x01: 0 whole, 1 pair-compare, 2 pair-standby. R440. Reset: 0 -/
  mode : BitVec 2
  /-- minimum security version of this start-up, 32 bits. R440. Reset: 0 -/
  minSec : BitVec 32
  /-- events raised before the log scan, newest first, up to 256. R446. Reset: none -/
  early : List EvRec
  /-- early events beyond 256, counted per class (16). R446. Reset: zeros -/
  earlyShed : List Nat
  /-- timebase when stage 0x01 began, for POWER_UP's start-up time. R413. Reset: 0 -/
  startTb : Nat
  /-- a half's return is running: the half and the hub's stage code. R451. Reset: none -/
  returning : Option (Nat × BitVec 8)
  /-- fronds whose self-test or fill passed in this start-up wait for group 3: enables asserted so far. R436. Reset: 0 -/
  frondEn : Nat
  /-- this start-up followed a power loss without an orderly power-down. R413, R419. Reset: no -/
  unorderly : Bool
deriving DecidableEq, Repr

/-- One secret slot (R309). -/
structure Secret where
  /-- 256-bit secret. R309 -/
  secret : BitVec 256
  /-- the place. R303 -/
  place : Place
  /-- STEWARD flag. R309 -/
  steward : Bool
deriving DecidableEq, Repr

/-- The configuration store: what persists in MRAM beside the log and the ledger. -/
structure Store where
  /-- secret slots 0 to 63. R309. Reset: all empty (factory; DESIGN CHOICE, log 5) -/
  secrets : SMap Secret
  /-- mode last in force. R34. Reset: whole -/
  mode : BitVec 2
  /-- pending PKG.MODE.SEL. R34, R440. Reset: none -/
  sel : Option (BitVec 2)
  /-- HPORT.BIF.MODE per port (6). R187. Reset: x16 on every port -/
  bifMode : List (BitVec 2)
  /-- DDR.RATE per channel (12: 6 per hub). R406. Reset: 0 -/
  rate : List (BitVec 2)
  /-- stored minimum security version, 32 bits. R441. Reset: DESIGN CHOICE 0 (log 4) -/
  minSec : BitVec 32
  /-- a configuration-store erase is pending. R423. Reset: no -/
  erase : Bool
  /-- retired DRAM rows of each hub: MEMRET.ROW value and frames retired. R300. Reset: none -/
  retired : List (List (BitVec 48 × Nat))
  /-- scratch sector in use by a rewrite: hub and sector. R422. Reset: none -/
  scratch : Option (Nat × Nat)
  /-- last recorded timebase, 64 bits. R368. Reset: DESIGN CHOICE 0 (log 5) -/
  tb : Nat
  /-- that record marks an orderly power-down. R368. Reset: yes (DESIGN CHOICE, log 5) -/
  orderly : Bool
  /-- stored calendar, 48 bits. R370. Reset: DESIGN CHOICE 0 (log 5) -/
  cal : BitVec 48
deriving DecidableEq, Repr

/-- The state of one half (R43, R432, R433). -/
inductive HalfState where
  | serving | draining | out | returning | resync
deriving DecidableEq, Repr

/-- Package modes, halves and links. -/
structure Pkg where
  /-- mode in force: 0 whole, 1 pair-compare, 2 pair-standby. R34. Reset: 0 -/
  mode : BitVec 2
  /-- active sub-mode standby (PKG.MODE_NOW bit 4). R42, R400. Reset: 0 -/
  standby : Bool
  /-- primary half is B. R38. Reset: half A -/
  primaryB : Bool
  /-- the two halves. R43. Reset: out (not yet started) -/
  half : List HalfState
  /-- dies present and in service, bit d. R400 PKG.DIES. Reset: 0 before start-up -/
  dies : BitVec 8
  /-- rhizoid links down, by the codes of Table 11.9. R28. Reset: none -/
  linksDown : List Nat
  /-- hubs frozen: harvest dump, reference lost or media exhausted. R426, R367. Reset: no -/
  frozen : List Bool
  /-- Memory_Active of each hub's logical devices. R444. Reset: 0 -/
  memActive : List Bool
  /-- DRAM trained: Memory_Info_Valid. Table 12.3. Reset: 0 -/
  memInfo : Bool
  /-- the hub that holds the package roles. R24. Reset: hub0 -/
  roleHub : Nat
  /-- a pair resynchronisation copies to this half; the half's updates are mirrored. R44. Reset: none -/
  resync : Option Nat
  /-- code of the last failure or fatal event, for HEALTH. Table 13.9. Reset: 0 (DESIGN CHOICE, log 5) -/
  lastFail : BitVec 16
deriving DecidableEq, Repr

/-- Time. -/
structure Clock where
  /-- lifetime timebase, 64 bits. R368. Reset: DESIGN CHOICE 0 (log 5) -/
  tb : Nat
  /-- FINE: 10 ns steps since the last tick. R369. Reset: 0 -/
  fine : Nat
  /-- calendar, 48 bits. R370. Reset: stored value -/
  cal : BitVec 48
  /-- ticks since the calendar's last second, below 32,768. R370. Reset: 0 (DESIGN CHOICE, log 5) -/
  calTick : Nat
  /-- TIME.STAT.CAL_STALE. R370. Reset: set at every power-up; 0 before (DESIGN CHOICE, log 5) -/
  stale : Bool
  /-- TIME.STAT.RC. R366, R446. Reset: 1 -/
  rc : Bool
  /-- TIME.STAT.XTAL_OK. Table 9.12. Reset: 0 (DESIGN CHOICE, log 5) -/
  xtalOk : Bool
  /-- the reference is lost. R367. Reset: no -/
  refLost : Bool
deriving DecidableEq, Repr

/-- Link power states (R190). -/
inductive LinkPwr where
  | l0 | l0p | l1
deriving DecidableEq, Repr

/-- One host link: one head (R194). -/
structure Link where
  /-- up. Table 10.18 HPORT.LINK bit 0. Reset: 0 -/
  up : Bool
  /-- rate code, 3 bits. HPORT.LINK [15:13]. Reset: 0 -/
  rate : BitVec 3
  /-- width in lanes, 5 bits. HPORT.LINK [12:8]. Reset: 0 -/
  width : BitVec 5
  /-- CXL mode. HPORT.LINK bit 1. Reset: 0 -/
  cxl : Bool
  /-- the partner is an MLD-capable switch. R194. Reset: no (DESIGN CHOICE, log 5) -/
  sw : Bool
  /-- power state. R190. Reset: L0 (DESIGN CHOICE, log 5) -/
  pwr : LinkPwr
  /-- timebase when it last went down. R305. Reset: 0 (DESIGN CHOICE, log 5) -/
  downTb : Nat
  /-- 256-byte flits, otherwise 68-byte flits. Table 5.1. Reset: no (DESIGN CHOICE, log 5) -/
  flit256 : Bool
  /-- port ID of the head behind a port-based-routing fabric, 12 bits. R197. Reset: none -/
  pid : Option (BitVec 12)
  /-- IDE keys by stream, 0 the link's and 1 to 4 selective: a 256-bit key, and skid or containment mode. R193, Table 5.2. Reset: none -/
  ide : SMap IdeStream
deriving DecidableEq, Repr

/-- How far a port is (R431). -/
inductive PortState where
  | up | draining | down
deriving DecidableEq, Repr

/-- One host port. -/
structure Port where
  /-- split in force. R187. Reset: x16 -/
  bifMode : BitVec 2
  /-- up, draining or taken down alone. R431. Reset: up -/
  st : PortState
  /-- links a to d. R187. Reset: down -/
  links : List Link
deriving DecidableEq, Repr

/-- One HDM decoder (R199). -/
structure Decoder where
  /-- committed settings. R199. Reset: none -/
  set : Option HdmSetting
  /-- the CXL error indication of a failed commit. R199. Reset: 0 -/
  err : Bool
deriving DecidableEq, Repr

/-- The SPDM connection of one channel (R324). -/
structure Spdm where
  /-- a KEY_EXCHANGE waits for its FINISH. R324. Reset: no -/
  exchanging : Bool
  /-- a secure session is open. R324. Reset: no -/
  secure : Bool
deriving DecidableEq, Repr

/-- The sideband MCTP endpoint (R470). -/
structure Mctp where
  /-- endpoint ID. R470; DSP0236. Reset: 0, none assigned (PRESUMED from DSP0236, log 18) -/
  eid : BitVec 8
  /-- SPDM over MCTP. R324, R470. Reset: none open -/
  spdm : Spdm
deriving DecidableEq, Repr

/-- A dynamic capacity region as a logical device reports it, with its CDAT figure (R204). -/
structure DcRegion where
  /-- first DPA. R204 -/
  base : Nat
  /-- length in bytes. R204 -/
  size : Nat
  /-- block size in bytes. R204 -/
  block : Nat
  /-- read latency in CDAT, ns. R204, Table 5.5 -/
  latency : Nat
  /-- bandwidth entry in CDAT: the number of the figure it gives, which Config.freeBandwidth holds. R192, R204 -/
  bandwidth : Nat
deriving DecidableEq, Repr

/-- What a logical device reports of itself to its host: values of its configuration space and of CDAT, which no command changes. -/
structure LdInfo where
  /-- Memory_Active_Timeout of the CXL DVSEC, seconds. R439. Reset: 64 -/
  activeTimeout : Nat
  /-- static volatile capacity, bytes. Table 5.2. Reset: 0 -/
  staticCap : Nat
  /-- media operations that a host may request: sanitize, secure erase, repair, sparing. Table 5.2. Reset: none -/
  mediaOps : Bool
  /-- the 8 dynamic capacity regions. R204. Reset: as R204 states -/
  regions : List DcRegion
deriving DecidableEq, Repr

/-- One logical device (R194, R303). -/
structure Ld where
  /-- bound. R302. Reset: no -/
  bound : Bool
  /-- CXL.mem enable. R302. Reset: 0 -/
  memEn : Bool
  /-- its seat number, if attached. R302. Reset: none -/
  seat : Option Nat
  /-- the 8 HDM decoders. R199. Reset: nothing committed -/
  decoders : List Decoder
  /-- the four CXL event logs, oldest first, up to 64 records each. R233. Reset: empty -/
  logs : List (List EvRec)
  /-- overflow indication of each log. R233. Reset: 0 -/
  overflow : List Bool
  /-- AER: Unsupported Request logged. R377. Reset: 0 -/
  aer : Bool
  /-- AER header log: the address of the first one logged. R377. Reset: 0 -/
  aerAddr : BitVec 26
  /-- SPDM over DOE. R324. Reset: none open -/
  spdm : Spdm
  /-- what it reports of itself. R192, R204, R439. Reset: as the rules state -/
  info : LdInfo
deriving DecidableEq, Repr

/-- A seat session (R314). -/
structure Session where
  /-- handle, 32 bits. R314 -/
  handle : BitVec 32
  /-- MAC key Km, 256 bits. R313 -/
  km : BitVec 256
  /-- key-wrapping key Kw, 256 bits. R313 -/
  kw : BitVec 256
  /-- timebase of the last accepted request or command. R316 -/
  last : Nat
  /-- timestamp when it was opened, ns. R428 -/
  opened : Nat
deriving DecidableEq, Repr

/-- How far a detach is (R306). -/
inductive DetachStep where
  | none | draining | snooping | finishing
deriving DecidableEq, Repr

/-- One attached seat. -/
structure Seat where
  /-- place. R303 -/
  place : Place
  /-- detaching: how far. R306 -/
  detach : DetachStep
  /-- cause of the detach, Table 11.9. R306 -/
  cause : BitVec 8
  /-- ended by a surprise link loss: step 3 follows R191. R306 -/
  surprise : Bool
  /-- slots left unanswered: ring and count. R136 -/
  left : List (Nat × Nat)
  /-- session, if open. R314 -/
  session : Option Session
  /-- live nonce and the timestamp of its challenge, ns. R313 -/
  nonce : Option (BitVec 256 × Nat)
  /-- energy charged since attach, nJ in pJ units. Table 9.13 -/
  spentTotal : Nat
  /-- energy spent this epoch against the guarantee, pJ. R347 -/
  spent : Nat
  /-- guarantee g of this epoch, pJ. R346 -/
  g : Nat
  /-- near-data speculation and prefetch off. R348 -/
  specOff : Bool
  /-- MEM_ACCESS_DENIED last raised (ns + 1, 0 never) and repeats suppressed. R203 -/
  denied : Nat × Nat
  /-- MEM_POISON_WRITE last raised (ns + 1, 0 never) and repeats suppressed. R285 -/
  poisoned : Nat × Nat
deriving DecidableEq, Repr

/-- Steward role, sessions and lockouts. -/
structure Steward where
  /-- the seat that holds the role. R308. Reset: none -/
  holder : Option Nat
  /-- timestamp since which the holder has had no open session, ns. R311. Reset: 0 -/
  idleFrom : Nat
  /-- per-seat count of opens. R314. Reset: 0 opens, so that the first handle carries 1 -/
  opens : SMap Nat
  /-- refused proofs of a place: timestamps, ns, newest first. R317. Reset: none -/
  fails : SMap (List Nat)
  /-- places locked out. R317. Reset: none -/
  locked : List Nat
deriving DecidableEq, Repr

/-- A seat's part of an extent (R200, R205). -/
structure ExtSeat where
  /-- seat -/
  seat : Nat
  /-- read-write -/
  rw : Bool
  /-- its host has accepted the extent. R205 -/
  accepted : Bool
deriving DecidableEq, Repr

/-- One extent, keyed by its 256 MiB block (R200). -/
structure Extent where
  /-- its seats. Table 5.3 -/
  seats : List ExtSeat
  /-- HDM-DB (true) or HDM-H. Table 5.3 -/
  db : Bool
  /-- key slot. Table 5.3 -/
  key : Option Nat
  /-- tier policy. Table 5.3 -/
  policy : BitVec 2
  /-- KEY_ABSENT already raised. R230 -/
  keyLost : Bool
  /-- added by the steward or at boot, so that only the steward may take it back by force. R196, R445 -/
  granted : Bool
deriving DecidableEq, Repr

/-- One key slot that holds a key (R227). BOUND is: some extent names it. -/
structure KeySlot where
  /-- the 512-bit XTS key: data key in bits [511:256], tweak key in bits [255:0]. R227, R228 -/
  key : BitVec 512
  /-- owner seat; none while ownerless. R306 -/
  owner : Option Nat
deriving DecidableEq, Repr

/-- Page states (R212). -/
inductive PageState where
  | zero | plain
  /-- size class in 512-byte steps, 1 to 7. R218 -/
  | packed (cls : Nat)
deriving DecidableEq, Repr

/-- Page moves (R214, R215). -/
inductive MoveKind where
  | promote | demote | unpack | compress
deriving DecidableEq, Repr

/-- One page-map entry (R212, R214). -/
structure Page where
  /-- state. R212 -/
  st : PageState
  /-- in the hot tier. R212 -/
  hot : Bool
  /-- 8-bit saturating access count. R214 -/
  count : BitVec 8
  /-- reads in the present window. R214 -/
  reads : Nat
  /-- timebase of the last access. R214 -/
  last : Nat
  /-- move under way or asked for. R215 -/
  move : Option MoveKind
  /-- candidate for compression. R214 -/
  cold : Bool
  /-- not tried again before this timebase. R218 -/
  retryTb : Nat
deriving DecidableEq, Repr

/-- A write held for lack of media (R224). -/
structure HeldWrite where
  /-- the place whose host made it; none for a write the device makes itself. R223 -/
  place : Option Place
  /-- line -/
  line : Nat
  /-- data and byte enables -/
  data : Line
  be : BitVec 64
  /-- it carries poison -/
  poison : Bool
deriving DecidableEq, Repr

/-- The error that a DRAM line's media carry (R276, R277, R291). -/
structure MediaErr where
  /-- x4 devices whose injected error takes effect at the next write of the line. R291 -/
  armed : BitVec 10
  /-- x4 devices that fail as the line stands. R291 -/
  present : BitVec 10
  /-- the line is stored as poisoned while the package holds a newer or an equal copy. R277 -/
  lost : Bool
deriving DecidableEq, Repr

/-- Device memory. Contents are one coherent value per byte (log 7). -/
structure Mem where
  /-- bytes by DPA, unlisted reads 0. R198, R205, R289. Reset: nothing listed -/
  bytes : List Host.Cell
  /-- lines poisoned at their home: key 2 × line + hub; true where an injection did it. R281, R292. Reset: none -/
  poison : SMap Bool
  /-- key each encrypted line was last written under: key 2 × line + hub. R225. Reset: none -/
  encBy : SMap (BitVec 512)
  /-- page map: key 2 × page + hub; unlisted is ZERO. R212. Reset: every page ZERO -/
  pages : SMap Page
  /-- lines whose DRAM error awaits the next write or read: key 2 × line + hub. R276, R277, R291. Reset: none -/
  damage : SMap MediaErr
  /-- page-map entries that fail their check: key 2 × page + hub. R280. Reset: none -/
  badMap : SMap Unit
  /-- P of each hub, 4 KiB pages. R210. Reset: 0 before training (DESIGN CHOICE, log 5) -/
  phys : List Nat
  /-- installed bytes of each hub. R209. Reset: 0 before training (DESIGN CHOICE, log 5) -/
  installed : List Nat
  /-- DRAM population of each hub. R209. Reset: none (DESIGN CHOICE, log 5) -/
  pop : List (Option DramPop)
  /-- page-map blocks of each hub. R210. Reset: 0 -/
  blocks : Nat
  /-- CAP_LOW condition holds; CAP_CRITICAL holds; CAP_OVER_PROMISE holds. R221, R222. Reset: no -/
  low : Bool
  critical : Bool
  overPromise : Bool
  /-- writes held for lack of media, per hub, oldest first. R224. Reset: none -/
  held : List (List HeldWrite)
  /-- DRAM_CE last raised per rank (ns + 1) and corrections not yet reported. R276. Reset: none -/
  ceRate : SMap (Nat × Nat)
  /-- row retirements running: hub and coordinates. R300. Reset: none -/
  retiring : List (Option (BitVec 48))
  /-- times a row retirement has moved a page to another frame: key 2 × page + hub. R300. Reset: none -/
  moved : SMap Nat
  /-- DSCRUB.PERIOD of each hub, hours, 1 to 168. R294. Reset: 24 -/
  dscrub : List Nat
  /-- patrol sweep of each hub: the time it began, ns, and the lines it has read. R294. Reset: 0, 0 (DESIGN CHOICE, log 5) -/
  patrol : List (Nat × Nat)
  /-- DDR.RATE in force on each channel since this start-up (12: 6 per hub). R406. Reset: 0 -/
  rate : List (BitVec 2)
deriving DecidableEq, Repr

/-- State of an on-package copy (Table 6.2). -/
inductive CopySt where
  | m | o | e | s
deriving DecidableEq, Repr

/-- Directory states (Table 6.3); I is no entry. -/
inductive DirSt where
  | s | x | o | wb
deriving DecidableEq, Repr

/-- One directory entry (R243). -/
structure DirEnt where
  /-- state. R243 -/
  st : DirSt
  /-- owner's agent ID. R243 -/
  owner : Nat
  /-- sharer vector, agents 0 to 21. R243 -/
  sharers : BitVec 22
  /-- use stamp for least recently used. R257 -/
  used : Nat
  /-- fails its check. R263 -/
  bad : Bool
  /-- bits of the 16-byte entry that injections have flipped. Table 7.4a -/
  flips : List Nat
deriving DecidableEq, Repr

/-- One snoop-filter entry (R248). -/
structure FiltEnt where
  /-- host state: true A, false S. R248 -/
  a : Bool
  /-- named seats, at most two. R248 -/
  seats : List Nat
  /-- every seat of the extent is a possible holder. R248 -/
  all : Bool
  /-- seats that an entry naming every seat names no more: they have answered or departed. R191, R251 -/
  left : List Nat
  /-- use stamp. R257 -/
  used : Nat
  /-- fails its check. R263 -/
  bad : Bool
deriving DecidableEq, Repr

/-- What waits for a back-invalidate or for an entry (R250, R255, R258). -/
inductive CohReq where
  /-- an agent's RdS, RdOwn or Upg, and what its DRAM read meets -/
  | agent (agent : Nat) (own upg : Bool) (ecc : Ecc)
  /-- a host read: shared or any, and what its DRAM read meets -/
  | hostRead (place : Place) (any : Bool) (hpa : BitVec 64) (ecc : Ecc)
  /-- the home's own request for exclusive ownership, into its line buffer. R252 -/
  | home
  /-- a host write: data, byte enables, poison -/
  | hostWrite (place : Place) (data : Line) (be : BitVec 64) (poison : Bool) (full : Bool)
  /-- a device need (R250): the command is sent again -/
  | device
  /-- an agent's WbData or EvictClean. R255 -/
  | evict (agent : Nat)
  /-- a write that the other half's home mirrors here takes the line's turn. R261 -/
  | mirror
deriving DecidableEq, Repr

/-- Commands of the home to an agent (R244). -/
inductive CohCmd where
  | fwdS | fwdOwn | inv
deriving DecidableEq, Repr

/-- A transaction in progress on a line (R255, R258). -/
structure Txn where
  /-- the request -/
  req : CohReq
  /-- commands to agents not yet carried out. R245 -/
  cmds : List (Nat × CohCmd)
  /-- data and grant are delivered; the transaction ends. R255 -/
  ready : Bool
  /-- seats whose answer is outstanding. R251 -/
  wait : List Nat
  /-- timestamp when the back-invalidates were sent, ns. R251 -/
  sent : Nat
  /-- requests for the line that wait, in order. R255 -/
  queue : List CohReq
  /-- the answer must return modified data and the host may keep S: BISnpData. R250 -/
  data : Bool
  /-- the supply is settled: an agent's answer or home storage gives the data, or none is needed. R245, R247 -/
  fed : Bool
  /-- an agent has handed over dirty data for the requester. R244 -/
  dirty : Bool
  /-- its back-invalidates go to the hosts of both halves: its write is mirrored. R261 -/
  mirror : Bool
  /-- the mirrored write has yet to take its turn at the other half's home. R261 -/
  lock : Bool
deriving DecidableEq, Repr

/-- Coherence (per line maps are keyed 2 × line + hub). -/
structure Coh where
  /-- copies: key 32 × (2 × line + hub) + agent. R241. Reset: none -/
  copies : SMap CopySt
  /-- directory. R243. Reset: empty -/
  dir : SMap DirEnt
  /-- host snoop filter. R248. Reset: empty -/
  filt : SMap FiltEnt
  /-- transactions in progress. R255. Reset: none -/
  txns : SMap Txn
  /-- write-back buffer slots, oldest first: key 2 × line + hub. R246, R256. Reset: none -/
  wb : List Nat
  /-- home line buffer lines: true when it differs from media. R252. Reset: none -/
  buf : SMap Bool
  /-- lines in the speculation area with their seat mark; one whose mark is cleared is an ordinary hot-tier line. R88, R89.
  Reset: none -/
  spec : SMap (Option Nat)
  /-- dirty copies, each held twice, least recently written first: keys as copies (agent 0 or 1 for home storage). R270.
  Reset: none -/
  twin : List Nat
  /-- retry queue of each hub: line, request, timestamp. R258. Reset: empty -/
  retry : List (List (Nat × CohReq × Nat))
  /-- rotating pointers of the directory's banks, 0 to 21: key 2 × bank + hub, absent 0. R255. Reset: DESIGN CHOICE 0 (log 13) -/
  ptr : SMap Nat
  /-- damaged SRAM copies: key as copies (agent 0 or 1 for home storage); the bits flipped in the copy and in its twin. R271, Table
  7.4a. Reset: none -/
  damage : SMap (List Nat × List Nat)
  /-- use stamp of directory and filter. R257. Reset: 0 -/
  stamp : Nat
  /-- DIR_EVICT, SF_EVICT counters of each hub, 64 bits. R265. Reset: 0 -/
  evict : List (BitVec 64 × BitVec 64)
deriving DecidableEq, Repr

/-- One row of the array (Table 2.2, R155, R69). -/
structure Row where
  /-- data plane, slice j at bits [16j+15:16j]. R52 -/
  data : Plane
  /-- mask plane. R52 -/
  mask : Plane
  /-- valid bit. R56 -/
  valid : Bool
  /-- stored row check. R267 -/
  check : Word
  /-- near data, byte i at bits [8i+7:8i]. R26 -/
  near : Word64
  /-- stored near-data check. R267 -/
  nchk : Word
  /-- priority column value. R69 -/
  prio : Word
  /-- its parity is good. R268 -/
  ppar : Bool
  /-- poison mark of the entry, held at its first row. R274 -/
  poison : Bool
  /-- row written since the mark was set. R275 -/
  rewritten : Bool
  /-- the row had failed when the mark was set: its cells cannot stand in for its record. R154, R274 -/
  failed : Bool
deriving DecidableEq, Repr

/-- One row record of the golden shadow (Table 4.3). -/
structure Shadow where
  /-- DATA -/
  data : Plane
  /-- MASK -/
  mask : Plane
  /-- NEAR -/
  near : Word64
  /-- RCRC. R153 -/
  rcrc : Word
  /-- FLAGS.VALID. R154 -/
  valid : Bool
  /-- reads with an uncorrectable error. R274, kind 0xD of R291 -/
  lost : Bool
  /-- the error was injected. R292 -/
  injected : Bool
deriving DecidableEq, Repr

/-- Power state of a pan that is not in Retention (Table 9.8). -/
structure PanUse where
  /-- epoch of the last lighting or write. R358 -/
  epoch : Nat
  /-- waking: the crozier wake is under way. R359 -/
  waking : Bool
deriving DecidableEq, Repr

/-- A rake move (R168 to R170). -/
structure Move where
  /-- ring and tag of its submission; none once its ring is gone. R306 -/
  ring : Option Nat
  /-- identity of its submission -/
  sub : Nat
  /-- table -/
  table : Nat
  /-- toward lower positions. R168 -/
  down : Bool
  /-- first position of the block. R168 -/
  start : Nat
  /-- entries in the block. R168 -/
  count : Nat
  /-- entries moved. R141 -/
  moved : Nat
  /-- seat -/
  seat : Nat
deriving DecidableEq, Repr

/-- A pan operation of the REPAIR page (R295, R296). -/
structure PanOp where
  /-- 1 fence, 2 retire. R295 -/
  op : Nat
  /-- logical pan -/
  pan : Nat
  /-- physical pan replaced -/
  old : Nat
  /-- spare -/
  spare : Nat
  /-- the spare has taken over; BIST runs. R296 -/
  switched : Bool
deriving DecidableEq, Repr

/-- A sleep or wake under way (R361). -/
structure SleepOp where
  /-- target state 0 to 3 -/
  target : Nat
deriving DecidableEq, Repr

/-- One frond: what its array holds. -/
structure FrondArray where
  /-- rows by logical row index; unlisted rows hold the fill. R52, R288. Reset: filled (DESIGN CHOICE, log 5) -/
  rows : SMap Row
  /-- golden shadow records by logical row index; unlisted records are the fill record. R156, R289. Reset: fill -/
  shadow : SMap Shadow
  /-- physical pan of a logical pan (ledger order 34 × bed + k); unlisted is 34 × bed + pan mod 32. R58. Reset: identity -/
  phys : SMap Nat
  /-- spare pans left, physical numbers. R295. Reset: pans 32 and 33 of every bed -/
  spares : List Nat
  /-- dead logical pans. R297. Reset: none -/
  dead : List Nat
  /-- pans not in Retention, by logical pan. R358. Reset: none -/
  awake : SMap PanUse
  /-- tags whose parity fails: key 2 × pan, 2 × pan + 1 for the mask word; injected. R269. Reset: none -/
  tagBad : SMap Bool
  /-- tag bits flipped by injection: key 2 × pan + word, the flip. R291. Reset: none -/
  tagFlip : SMap Word
  /-- repairs of physical pans: timestamps, ns, newest first. R295. Reset: none -/
  repairs : SMap (List Nat)
  /-- rows and near data carrying an injected error. R292. Reset: none -/
  injected : SMap Unit
  /-- rows handed to the scrubber at once. R87. Reset: none -/
  scrubReq : List Nat
  /-- consecutive BED_FAULT searches of each bed. R298. Reset: 0 -/
  bedFaults : SMap Nat
  /-- dead beds. R298. Reset: none -/
  bedDead : List Nat
  /-- entry under repair: first row, and its rows' valid bits as they stood before step 1. R272. Reset: none -/
  repairing : SMap (List Bool)
deriving DecidableEq, Repr

/-- One frond: its engines, power and counters. -/
structure Frond where
  /-- array. R25 -/
  arr : FrondArray
  /-- level P0 to P5. R351. Reset: 4, the fill's level (DESIGN CHOICE, log 5) -/
  level : Nat
  /-- level asked for while the rail ramps or the PLL relocks. R353. Reset: none -/
  levelTo : Option Nat
  /-- stopped for a relock. R353. Reset: no -/
  relock : Bool
  /-- die state D0 to D3. R355. Reset: 3, rail off (DESIGN CHOICE, log 5) -/
  dstate : Nat
  /-- sleep in progress. R361. Reset: none -/
  sleeping : Option SleepOp
  /-- wake in progress. R357. Reset: no -/
  waking : Bool
  /-- restored level after the wake. R357. Reset: 4 -/
  wakeLevel : Nat
  /-- FPERF.CYCLES, 64 bits. Table 10.18. Reset: 0 -/
  cycles : BitVec 64
  /-- FPERF.SEARCHES, 64 bits. Reset: 0 -/
  searches : BitVec 64
  /-- FPERF.LIT, 64 bits. Reset: 0 -/
  lit : BitVec 64
  /-- hit-counter engine queue: table and counter index. R177. Reset: empty -/
  hce : List (Nat × Nat)
  /-- rake: running move. R169. Reset: none -/
  move : Option Move
  /-- rake: queued moves, oldest first, up to 8. R169. Reset: none -/
  moves : List Move
  /-- rake paused for lack of slack. R173. Reset: no -/
  paused : Bool
  /-- physical row the scrub sweep has reached. R406. Reset: 0 -/
  scrubPos : Nat
  /-- timestamp when the sweep began, ns. R293. Reset: 0 -/
  scrubFrom : Nat
  /-- SCRUB_LATE raised for this sweep. R293. Reset: no -/
  scrubLate : Bool
  /-- pan operation. R295. Reset: none -/
  panOp : Option PanOp
  /-- taken out through FROND.SVC, or its return under way. R435. Reset: no -/
  svcOut : Bool
  svcReturn : Bool
  /-- failed or held out. R48, R447. Reset: no -/
  lost : Bool
  /-- timestamp when a sleep stopped its clocks, ns. R371, R394. Reset: 0 (DESIGN CHOICE, log 5) -/
  stopNs : Nat
  /-- timestamp when its stopped clocks last started again, ns. R372. Reset: none -/
  bridged : Option Nat
  /-- stopped time of this epoch that CYCLES already counts, ns. R371. Reset: 0 -/
  bridgedNs : Nat
deriving DecidableEq, Repr

/-- A frond slot of a table's descriptor (Table 4.2). -/
structure FrondSlot where
  /-- die index -/
  die : Nat
  /-- cascade rank. R68 -/
  rank : Nat
  /-- first logical pan -/
  first : Nat
  /-- pans in the range -/
  pans : Nat
deriving DecidableEq, Repr

/-- Statistics of a table in one frond (R182). -/
structure TStat where
  /-- searches counted -/
  searches : Nat
  /-- nine buckets -/
  hist : List Nat
  /-- searches that lit each pan -/
  lit : SMap Nat
deriving DecidableEq, Repr

/-- One table (R144). -/
structure Table where
  /-- rows per entry -/
  rows : Nat
  /-- ranked mode. R69 -/
  ranked : Bool
  /-- hit counters on. R144 -/
  cnt : Bool
  /-- far-data locator present. R144 -/
  far : Bool
  /-- owner seat; none while ownerless. R307 -/
  owner : Option Nat
  /-- sluice offset. R61 -/
  ofs : Nat
  /-- frond slots -/
  fronds : List FrondSlot
  /-- COUNTER_BASE, FAR_BASE -/
  cbase : Nat
  fbase : Nat
  /-- FAR_LIMIT, FAR_LINES -/
  flimit : Nat
  flines : Nat
  /-- closing: TABLE_DESTROY under way, for the submission of this ring and id. R151 -/
  closing : Option (Nat × Nat)
  /-- rights by seat: search, update. R143, R321 -/
  rights : SMap (Bool × Bool)
  /-- TABLE_REGION_LOST raised. R149 -/
  lost : Bool
  /-- charges of the previous searches, pJ, newest first, up to 1,024. R347 -/
  hist : List Nat
  /-- statistics by die. R182 -/
  stats : SMap TStat
deriving DecidableEq, Repr

/-- A fetched submission not yet completed (R101, R112). -/
structure Sub where
  /-- identity, never reused -/
  id : Nat
  /-- opcode byte -/
  op : Nat
  /-- its bytes, byte i at bits [8i+7:8i] (96 bytes; 32 used by one-slot forms) -/
  bytes : BitVec 768
  /-- TAG. R102 -/
  tag : Word
  /-- a poisoned slot. R286 -/
  poison : Bool
  /-- entries reserved. R121 -/
  reserve : Nat
  /-- started by the dispatcher. R124 -/
  started : Bool
  /-- final completions still to come: members. R122 -/
  members : Nat
  /-- timestamp of its fetch, ns. R325 -/
  fetched : Nat
  /-- RING.CTL.EARLY as its entries were reserved. R100, R121 -/
  early : Bool
  /-- an atomic whose line is asked for has started. R136 -/
  asked : Bool
deriving DecidableEq, Repr

/-- A completion entry ready to be written (Table 3.8; PHASE is added as it is written). -/
structure Comp where
  /-- TAG -/
  tag : Word
  /-- STATUS -/
  status : BitVec 8
  /-- FLAGS without PHASE -/
  flags : BitVec 8
  /-- POS -/
  pos : BitVec 32
  /-- DATA -/
  data : Word64
deriving DecidableEq, Repr

/-- One ring (R96). RING.CTL, DEPTH and the bases stand in the register file. -/
structure Ring where
  /-- holder seat. R402. Reset: none -/
  holder : Option Nat
  /-- index within its seat, 0 to 15. R402. Reset: 0 -/
  index : Nat
  /-- doorbell counters, 32 bits. Table 3.7. Reset: 0 -/
  sqTail : BitVec 32
  cqHead : BitVec 32
  sqHead : BitVec 32
  cqTail : BitVec 32
  /-- the interrupt is armed. R115. Reset: no -/
  armed : Bool
  /-- stopped by overrun. R111. Reset: no -/
  overrun : Bool
  /-- detaching. R136. Reset: no -/
  detaching : Bool
  /-- stopped by a poisoned completion line, and completions not written. R287. Reset: none -/
  stopped : Option Nat
  /-- must be disabled and enabled again (HALF_LOST). R138. Reset: no -/
  lost : Bool
  /-- EN is clearing: started and fetched submissions complete. R100. Reset: no -/
  closing : Bool
  /-- the completion ring (base, CQ_LOG2) that the submissions fetched before EN was cleared still complete into. R100, R114.
  Reset: none -/
  old : Option (Nat × Nat)
  /-- fetched submissions, oldest first. R112. Reset: none -/
  subs : List Sub
  /-- completions ready, oldest first: their submission, and the entries to be written in one step. R119, R122. Reset: none -/
  owed : List (Nat × List Comp)
  /-- REVOKE waiting for IDLE: the requesting seat. R323. Reset: none -/
  revoke : Option Nat
deriving DecidableEq, Repr

/-- One hit a frond found (R74, R162). -/
structure Hit where
  /-- die, logical row index of the entry's first row -/
  die : Nat
  row : Nat
  /-- near data at the match cycle. R162 -/
  near : Word64
  /-- priority value at the match cycle -/
  prio : Word
  /-- poisoned entry. R72 -/
  poison : Bool
  /-- the rows as they stood at the match cycle. R162 -/
  rows : List Row
  /-- another matching entry has its priority. R70 -/
  tie : Bool
deriving DecidableEq, Repr

/-- What one frond has reported for a search. -/
structure FRes where
  /-- die -/
  die : Nat
  /-- cascade rank -/
  rank : Nat
  /-- logical pans lit. R66, R73 -/
  lit : List Nat
  /-- local result reported. R73 -/
  done : Bool
  /-- hits in local order, up to N. R71 -/
  hits : List Hit
  /-- all matching priority values in this frond, for TIE. R70 -/
  prios : List Word
  /-- fault status met: ROW_CHECK, BED_FAULT (0 none). R95, R268 -/
  fault : BitVec 8
  /-- near-data read done and winner check passed: none before. R74 -/
  near : Option (BitVec 8)
  /-- a wake is under way. R75 -/
  wake : Bool
deriving DecidableEq, Repr

/-- A search, or one member of a group, in flight. -/
structure Search where
  /-- ring, submission id, member. R104 -/
  ring : Nat
  sub : Nat
  member : Nat
  /-- tag, seat -/
  tag : Word
  seat : Nat
  /-- table number -/
  table : Nat
  /-- key padded to the table's width. R54 -/
  key : Key
  /-- hit count N. R71 -/
  hits : Nat
  /-- eligible for early answers. R128 -/
  early : Bool
  /-- near-data speculation on for its seat when dispatched. R86 -/
  spec : Bool
  /-- TABLE_MOVING. R171 -/
  moving : Bool
  /-- fronds of the set -/
  res : List FRes
  /-- provisional winner written, if any. R92 -/
  prov : Option Hit
  /-- prefetch predicted: die, row, lines. R88 -/
  pred : Option (Nat × Nat × List Nat)
  /-- predicted cost and whether it was charged to the guarantee, pJ. R347 -/
  cost : Nat
  fromG : Bool
  /-- actual charge so far, pJ. R80 -/
  charge : Nat
  /-- from the Watripo window. R411 -/
  window : Bool
  /-- the search runs in both halves. R39 -/
  compare : Bool
  /-- timestamp of its submission's fetch, ns. R325 -/
  fetched : Nat
  /-- lines its prefetch has filled. R88, R89 -/
  fills : List Nat
  /-- it has ended early, and only fronds whose reports it did not wait for still run. R85, R91 -/
  ended : Bool
deriving DecidableEq, Repr

/-- A bulk load, snapshot or STATS running (R180 to R182). -/
inductive JobKind where
  | load | snapshot | stats
deriving DecidableEq, Repr

/-- One running bulk operation. -/
structure Job where
  /-- kind -/
  kind : JobKind
  /-- ring and submission -/
  ring : Nat
  sub : Nat
  /-- seat -/
  seat : Nat
  /-- table, die, first position, entries -/
  table : Nat
  die : Nat
  start : Nat
  count : Nat
  /-- entries done -/
  done : Nat
  /-- DPA of BUF -/
  buf : Nat
  /-- snapshot or statistics moment. R181, R182 -/
  moment : Nat
  /-- bytes still to write: address and value (SNAPSHOT, STATS), as they stood at the moment -/
  image : List (Nat × BitVec 256)
  /-- first pass done. R180 -/
  checked : Bool
  /-- entries validated. R166, R180 -/
  valids : Nat
  /-- predicted cost and whether it was charged to the guarantee, pJ. R347 -/
  cost : Nat
  fromG : Bool
deriving DecidableEq, Repr

/-- Lookup side counters of one hub's dispatcher (R83, Table 10.18). -/
structure Disp where
  /-- SPEC_ND_SQUASH, 64 bits. Reset: 0 -/
  ndSquash : BitVec 64
  /-- SPEC_PF_SQUASH, 64 bits. Reset: 0 -/
  pfSquash : BitVec 64
  /-- PROV_CONFIRM, 64 bits. Reset: 0 -/
  confirm : BitVec 64
  /-- PROV_RETRACT, 64 bits. Reset: 0 -/
  retract : BitVec 64
  /-- SUBMITS, 64 bits. Reset: 0 -/
  submits : BitVec 64
deriving DecidableEq, Repr

/-- One covenant (R325). -/
structure Cov where
  /-- kind 1 to 6 -/
  kind : Nat
  /-- seat -/
  seat : Nat
  /-- priority 0 to 15 -/
  prio : Nat
  /-- table or hub -/
  object : Nat
  /-- amount -/
  amount : Nat
  /-- amount given; for kind 5 the measured latency. R332 -/
  given : Nat
  /-- in breach -/
  breach : Bool
  /-- REASON. Table 8.8 -/
  reason : BitVec 8
  /-- START, ns -/
  start : Nat
  /-- WORST -/
  worst : Nat
  /-- the breach is, or last was, for want of energy; of slots of a frond. R327 -/
  lackE : Bool
  lackS : Bool
  /-- full amount given again since, ns. R332 -/
  okFrom : Option Nat
  /-- keep cost of a ceiling in this epoch, pJ. R345 -/
  keep : Nat
deriving DecidableEq, Repr

/-- The tally and the cost book. -/
structure Tally where
  /-- epochs since start-up. R337. Reset: 0 -/
  epoch : Nat
  /-- B, base, G, Q of this epoch, pJ. R338, R339. Reset: 0 (DESIGN CHOICE, log 5) -/
  b : Nat
  base : Nat
  g : Nat
  q : Nat
  /-- pool left, pJ. R347. Reset: 0 -/
  qLeft : Nat
  /-- overdraw of the pool taken from the next epoch, pJ. R347. Reset: 0 -/
  overdraw : Nat
  /-- Q spend of the previous epochs, pJ, newest first, up to 8. R349. Reset: none -/
  qHist : List Nat
  /-- Q spent in this epoch, pJ. R349. Reset: 0 -/
  qSpent : Nat
  /-- repairs charged in this epoch, pJ. Table 9.1. Reset: 0 -/
  repairs : Nat
  /-- what the pressure work of this epoch needs, pJ. Table 9.1. Reset: 0 -/
  pressure : Nat
  /-- DERATE in force and of the next epoch, mW. R340. Reset: 0 -/
  derate : Nat
  derateNext : Nat
  /-- Tj, units of 0.25 °C, two's complement. Table 9.13. Reset: 0 (DESIGN CHOICE, log 5) -/
  tj : Word
  /-- hottest junction of each die 0 to 7 at the last reading, units of 0.25 °C, two's complement. R340, R414. Reset: 0 (DESIGN CHOICE,
  log 5) -/
  junctions : List Word
  /-- timebase since which Tj has stood at 120 °C or more. R340. Reset: none -/
  hotFrom : Option Nat
  /-- ENVELOPE_UNMET condition holds. R341. Reset: no -/
  unmet : Bool
  /-- unspent guarantees have joined Q. R346. Reset: no -/
  lent : Bool
  /-- predicted slack left to rake moves in this epoch, pJ. R173, R349. Reset: 0 -/
  slack : Nat
  /-- predicted slack left to hot-tier migration in this epoch, pJ. R215, R349. Reset: 0 -/
  slackMove : Nat
  /-- predicted slack left to compression in this epoch, pJ. R222, R349. Reset: 0 -/
  slackPack : Nat
  /-- predicted slack left to the patrol scrub in this epoch, pJ. R294, R349. Reset: 0 -/
  slackScrub : Nat
  /-- what each hub's tally has of the package's budget for its half, pJ. R337. Reset: 0 (DESIGN CHOICE, log 5) -/
  share : List Nat
  /-- timestamp when the epoch began, ns. R337. Reset: 0 (DESIGN CHOICE, log 5) -/
  epochNs : Nat
  /-- BG_NJ in pJ. Table 9.13. Reset: 0 -/
  bg : Nat
  /-- REFUSED, 32 bits. Table 9.13. Reset: 0 -/
  refused : BitVec 32
  /-- charges that differ from their defaults, by COST.SEL value, pJ. R343. Reset: none -/
  book : SMap Nat
  /-- charges booked to each rail this second: operation and standing, pJ. R343. Reset: none -/
  booked : SMap (Nat × Nat)
  /-- entries held at their limit, by COST.SEL value. R343. Reset: none -/
  atLimit : List Nat
  /-- budgets of the last 16 epochs, pJ, newest first. Table 11.6a. Reset: none -/
  budgets : List Nat
  /-- hub level H0 to H3 and state D0 or D1 of each hub. R354, R355. Reset: H3, D0 (DESIGN CHOICE, log 5) -/
  hubLevel : List Nat
  hubDoze : List Bool
  /-- faster level that a hub takes once its rail has risen. R354. Reset: none -/
  hubTo : List (Option Nat)
  /-- SLEEP_REFUSED last raised per die and reason, ns + 1. R362. Reset: none -/
  refusedAt : SMap Nat
  /-- level cap broken thermal state: 0 none, 1 derate, 2 hot, 3 critical. R340. Reset: 0 -/
  therm : Nat
  /-- slot demand of each frond, M slots/s, and the fetch and completion times, ns, that the present epoch began with. R352.
  Reset: 0 -/
  demand : List Nat
  overhead : Nat
  /-- die state the tally asks for each frond in this epoch, with no ceiling (entries 0 to 5), and for each hub (6 and 7: 1 asked
  for Doze, 2 waking with its DDR PHY still off). R345, R355, R356. Reset: 0 -/
  want : List Nat
deriving DecidableEq, Repr

/-- The ledger's counts (Table 11.1). -/
structure Ledger where
  /-- POWER_ON_S. Reset: DESIGN CHOICE 0 (log 5) -/
  powerOn : BitVec 64
  /-- POWER_CYCLES. Reset: DESIGN CHOICE 0 (log 5) -/
  cycles : BitVec 32
  /-- UNORDERLY. Reset: DESIGN CHOICE 0 (log 5) -/
  unorderly : BitVec 32
  /-- THERMAL_CYCLES. Reset: DESIGN CHOICE 0 (log 5) -/
  thermal : BitVec 32
  /-- TJ_MAX, 0.25 °C, two's complement. Reset: DESIGN CHOICE 0 (log 5) -/
  tjMax : Word
  /-- LIFE, Q16.16. R414. Reset: DESIGN CHOICE 0 (log 5) -/
  life : BitVec 32
  /-- HARVESTS. Reset: DESIGN CHOICE 0 (log 5) -/
  harvests : BitVec 32
  /-- FW_ACTIVATIONS. Reset: DESIGN CHOICE 0 (log 5) -/
  fwAct : BitVec 32
  /-- WEIGHTED_H of dies 0 to 7, in 2^-32 of 1/1,024 hour. R414. Reset: DESIGN CHOICE 0 (log 5) -/
  weighted : List Nat
  /-- RAIL_EXC of rails 0 to 15. R415. Reset: DESIGN CHOICE 0 (log 5) -/
  railExc : List (BitVec 32)
  /-- MRAM_WR: key 2,048 × hub + sector. R422. Reset: DESIGN CHOICE 0 (log 5) -/
  mramWr : SMap (BitVec 32)
  /-- DRAM_CE by rank index. R276. Reset: DESIGN CHOICE 0 (log 5) -/
  dramCe : SMap (BitVec 32)
  /-- PAN_REPAIRS by physical pan index. R272. Reset: DESIGN CHOICE 0 (log 5) -/
  panRepairs : SMap (BitVec 32)
  /-- PAN_STATE where it differs from the factory's (0, and 1 for pans 32 and 33). R412. Reset: none -/
  panState : SMap Word
deriving DecidableEq, Repr

/-- Ledger, its last written copy and marks. -/
structure Life where
  /-- current counts. R412. Reset: see Ledger -/
  now : Ledger
  /-- the 16 slots: GEN and the counts as written; unlisted slots hold nothing good. R413, R416. Reset: none (DESIGN CHOICE, log 5) -/
  slots : SMap (BitVec 64 × Ledger)
  /-- GEN of the last slot written, 64 bits. R416. Reset: DESIGN CHOICE 0 (log 5) -/
  gen : BitVec 64
  /-- slot the next update writes, 0 to 15. R416. Reset: DESIGN CHOICE 0 (log 5) -/
  slot : Nat
  /-- thermal-cycle marks: low, high, and whether the 40 °C rise is reached. R415. Reset: none -/
  lowMark : Option Int
  highMark : Option Int
  /-- rail excursions under way: rail to first extreme, mV. R415. Reset: none -/
  excursions : SMap Word
  /-- timebase of the last write of each sector, where written in service. R422. Reset: none -/
  sectorTb : SMap Nat
  /-- sectors for which MRAM_WEAR is raised. R422. Reset: none -/
  worn : List Nat
deriving DecidableEq, Repr

/-- The lichen log of the package; each hub's copy holds the same records (R421). -/
structure Log where
  /-- history area, oldest first, 16 to 64 records. R418. Reset: 16 BIRTH records (detail DESIGN CHOICE 0, log 5) -/
  hist : List EvRec
  /-- circular area, newest first, up to 65,472 records. R418. Reset: empty -/
  circ : List EvRec
  /-- SEQ of the next record, 48 bits. R418. Reset: 16 -/
  next : Nat
  /-- records written in this second. R421. Reset: 0 -/
  used : Nat
  /-- events shed per class (16). R421. Reset: zeros -/
  shed : List Nat
  /-- SEQ of the records that were found open with a bad CRC and made void. R420. Reset: none -/
  void : List Nat
  /-- records hub 0 and hub 1 lack (the half was out when they were written): first SEQ lacking. R421. Reset: none -/
  lack : List (Option Nat)
  /-- scan of stage 0x05 has ended. R446. Reset: no -/
  scanned : Bool
  /-- SEQ of every record of warning severity or worse, or of STEWARD_CHANGED, that LOG_READ has not read: SB_ALERT_N. R471.
  Reset: none -/
  unread : List Nat
  /-- SEQ being loaded by the LOG window. R424. Reset: none -/
  loading : Option Nat
  /-- the record loaded: bytes, byte i at bits [8i+7:8i]. R424. Reset: none -/
  record : Option (BitVec 512)
deriving DecidableEq, Repr

/-- One hub's harvest dump (R425 to R428). -/
structure Harvest where
  /-- HELD. Reset: 0 -/
  held : Bool
  /-- VALID. Reset: 0 -/
  valid : Bool
  /-- PARTIAL. Reset: 0 -/
  partly : Bool
  /-- BUSY. Reset: 0 -/
  busy : Bool
  /-- CAUSE. Reset: 0 -/
  cause : BitVec 16
  /-- free-value stamp of its bytes (the model's own; DESIGN CHOICE 0, log 17) -/
  stamp : Nat
  /-- timestamp of the dump, ns. R428. Reset: 0 -/
  ns : Nat
deriving DecidableEq, Repr

/-- A pending guarded write (R390). -/
structure Guard where
  /-- BAR0 address of the register (page base + X) -/
  addr : Nat
  /-- mask and data as first written -/
  word : Word32
deriving DecidableEq, Repr

/-- A register write that has been accepted and waits: for its frond to be back in D0, or, taken, a guarded command that has taken
effect and waits for a coverage check (R65, R394). -/
structure Late where
  /-- the logical device that wrote -/
  place : Place
  /-- BAR0 address written -/
  addr : Nat
  /-- mask and data -/
  word : Word32
  /-- its complement has been taken: only its work is left -/
  taken : Bool
deriving DecidableEq, Repr

/-- A command of the Watripo window with BUSY set (R411). -/
structure WinCmd where
  /-- W.CMD's code of a command that has yet to run; 0 for a SEARCH that runs -/
  code : Nat
  /-- the bound seat -/
  seat : Nat
  /-- the bound table -/
  table : Nat
deriving DecidableEq, Repr

/-- The register file. Keys are BAR0 addresses; a MGMT page of seat n stands at 0x0400_0000 + 0x1000 × n. -/
structure Regs where
  /-- stored values that differ from their reset value, or have been written. R378. Reset: none, every register reads its
  reset value of Tables 10.5 to 10.20 -/
  file : SMap Word
  /-- staged halves of RWS fields that have been written and not committed. R387. Reset: none -/
  staged : SMap Word
  /-- pending guarded writes: key 2^32 × place + page base. R390. Reset: none -/
  guards : SMap Guard
  /-- read latches: key 2^32 × place + W0 address; higher words. R392. Reset: hold nothing -/
  latch : SMap (BitVec 48)
  /-- write holdings: key 2^32 × place + address of Wk. R392. Reset: equal to the registers' higher words -/
  hold : SMap Word
  /-- pages whose commit is pending: page base to 1 for a register commit. R388. Reset: none -/
  commit : SMap Nat
  /-- pages whose CFG_SIG comparison is armed. R396. Reset: none -/
  armed : List Nat
  /-- management copy of covered registers, as last accepted. R397. Reset: none differ -/
  mgmt : SMap Word
  /-- pages with a restore under way: CFG_REF found different. R397. Reset: none -/
  restore : List Nat
  /-- CFG_SIG of the last completed pass, by page. R396. Reset: unlisted is the signature of the reset values -/
  sig : SMap Word
  /-- writes that wait for a frond to wake or for a coverage check, oldest first. R65, R394. Reset: none -/
  late : List Late
  /-- the command of the Watripo window that BUSY stands for. R411. Reset: none -/
  wcmd : Option WinCmd
  /-- the window's bound seat has detached since WATRIPO.CTL.EN was set. R408. Reset: no -/
  wshut : Bool
deriving DecidableEq, Repr

/-- What the block has sent out of itself. -/
inductive Out where
  /-- BAR0 read data: place, address, data, or none for Unsupported Request (R377) -/
  | regRead (p : Place) (addr : Nat) (data : Option (BitVec 64))
  /-- BAR0 bus error of a write (R377) -/
  | busError (p : Place) (addr : Nat)
  /-- MSI-X vector (R115, R383) -/
  | msix (p : Place) (vector : Nat)
  /-- CXL.mem read response: data, poison, DevLoad (R232) -/
  | memData (p : Place) (hpa : BitVec 64) (data : Line) (poison : Bool) (load : BitVec 2)
  /-- CXL.mem write completion with its DevLoad (R203, R232) -/
  | memDone (p : Place) (line : Nat) (load : BitVec 2)
  /-- back-invalidate: BISnpInv, or BISnpData when data is set (R250) -/
  | biSnp (seat : Nat) (line : Nat) (data : Bool)
  /-- dynamic-capacity event: 0 add offered, 1 release asked, 2 forced release (R205, R207) -/
  | dcEvent (seat : Nat) (kind : Nat) (block : Nat)
  /-- fabric-manager answer: success or unsupported (R196) -/
  | fmAnswer (ok : Bool)
  /-- SPDM answer: request code, error or payload (R324, R444) -/
  | spdm (ch : SpdmChan) (request : Nat) (error : Nat) (payload : List (BitVec 64))
  /-- sideband answer: command code, status 0 OK, 1 not ready, 2 refused; payload words (Table 13.9) -/
  | sideband (command : Nat) (status : Nat) (payload : List (BitVec 64))
  /-- a 64-byte record (LOG_READ) -/
  | record (r : BitVec 512)
  /-- PLDM or MCTP answer -/
  | mctp (code : Nat) (payload : List (BitVec 64))
  /-- coherence message to an agent: 0 grant, 1 FwdS, 2 FwdOwn, 3 Inv; state granted (Table 6.5) -/
  | cohMsg (agent : Nat) (line : Nat) (kind : Nat)
  /-- boundary scan shifted out (R475, R476) -/
  | tdo (bits : List Bool)
  /-- an AVS set point: rail, mV (R462) -/
  | avs (rail : Nat) (mv : Nat)
deriving DecidableEq, Repr

/-- The state of the block. -/
structure State where
  /-- the part. R5. Reset: an LS8-15X (DESIGN CHOICE, log 4) -/
  chip : Chip
  /-- balls. R437. Reset: PORST_N low -/
  pins : Pins
  /-- boundary scan. R475. Reset: IDCODE -/
  jtag : Jtag
  /-- firmware of each hub. R440. Reset: see Fw -/
  fw : List Fw
  /-- start-up. R438. Reset: stage 0x00 -/
  boot : Boot
  /-- configuration store. R309, R418. Reset: factory -/
  store : Store
  /-- modes and halves. R34. Reset: whole, not serving -/
  pkg : Pkg
  /-- time. R368. Reset: see Clock -/
  clock : Clock
  /-- host ports 0 to 5. R187. Reset: links down -/
  ports : List Port
  /-- logical devices by place. R303. Reset: none bound -/
  lds : SMap Ld
  /-- sideband MCTP endpoint. R470. Reset: see Mctp -/
  mctp : Mctp
  /-- attached seats by number. R302. Reset: none -/
  seats : SMap Seat
  /-- steward role. R308. Reset: none -/
  steward : Steward
  /-- extents by 256 MiB block. R200. Reset: none -/
  extents : SMap Extent
  /-- key slots that hold a key. R227. Reset: all EMPTY -/
  keys : SMap KeySlot
  /-- device memory. R198. Reset: see Mem -/
  mem : Mem
  /-- coherence. R236. Reset: no copies -/
  coh : Coh
  /-- fronds 0 to 5 (dies 2 to 7). R25. Reset: see Frond -/
  fronds : List Frond
  /-- tables by number. R144. Reset: none -/
  tables : SMap Table
  /-- rings by number, where held or once used. R96. Reset: none held -/
  rings : SMap Ring
  /-- searches in flight by identity. R73. Reset: none -/
  searches : SMap Search
  /-- bulk operations by identity. R180. Reset: none -/
  jobs : SMap Job
  /-- next identity of searches, submissions and jobs (the model's own; DESIGN CHOICE 0, log 5) -/
  nextId : Nat
  /-- dispatcher counters of each hub. R83. Reset: 0 -/
  disp : List Disp
  /-- covenants by ID. R326. Reset: none -/
  covs : SMap Cov
  /-- tally. R337. Reset: see Tally -/
  tally : Tally
  /-- ledger. R412. Reset: see Life -/
  life : Life
  /-- lichen log. R418. Reset: see Log -/
  log : Log
  /-- harvest dumps of each hub. R425. Reset: none held -/
  harvest : List Harvest
  /-- register file. R373. Reset: see Regs -/
  regs : Regs
  /-- everything sent out, newest first (the model's own record). Reset: nothing -/
  wire : List Out
  /-- free-value counter (the model's own; DESIGN CHOICE 0, log 10) -/
  freeCtr : Nat
  /-- commands waiting, front first (the model's own). Reset: empty -/
  pending : List Instr
deriving DecidableEq, Repr

/-- The BIRTH record of number n (R418); its test data is Steuno's, and its DETAIL 0 here (log 5). -/
def birth (n : Nat) : EvRec :=
  ⟨0xA001, BitVec.ofNat 48 n, 0, 0, 0xFF, 0xFF, 0, 0, 0⟩

/-- A link that is down. -/
def linkReset : Link := ⟨false, 0, 0, false, false, .l0, 0, false, none, []⟩

/-- Physical numbers of the spare pans of a filled frond: pans 32 and 33 of each bed. -/
def sparesReset : List Nat := (List.range 16).flatMap fun b => [34 * b + 32, 34 * b + 33]

/-- An array after the fill (R288). -/
def arrayReset : FrondArray :=
  { rows := [], shadow := [], phys := [], spares := sparesReset, dead := [], awake := [], tagBad := [], tagFlip := [],
    repairs := [], injected := [], scrubReq := [], bedFaults := [], bedDead := [], repairing := [] }

/-- A frond before start-up. -/
def frondReset : Frond :=
  { arr := arrayReset, level := 4, levelTo := none, relock := false, dstate := 3, sleeping := none, waking := false,
    wakeLevel := 4, cycles := 0, searches := 0, lit := 0, hce := [], move := none, moves := [], paused := false,
    scrubPos := 0, scrubFrom := 0, scrubLate := false, panOp := none, svcOut := false, svcReturn := false, lost := false,
    stopNs := 0, bridged := none, bridgedNs := 0 }

/-- The factory ledger. -/
def ledgerReset : Ledger :=
  { powerOn := 0, cycles := 0, unorderly := 0, thermal := 0, tjMax := 0, life := 0, harvests := 0, fwAct := 0,
    weighted := List.replicate 8 0, railExc := List.replicate 16 0, mramWr := [], dramCe := [], panRepairs := [],
    panState := [] }

/-- Memory before start-up: nothing installed yet. -/
def memReset : Mem :=
  { bytes := [], poison := [], encBy := [], pages := [], damage := [], badMap := [], phys := [0, 0],
    installed := [0, 0], pop := [none, none], blocks := 0, low := false, critical := false, overPromise := false,
    held := [[], []], ceRate := [], retiring := [none, none], moved := [], dscrub := [24, 24], patrol := [(0, 0), (0, 0)],
    rate := List.replicate 12 0 }

/-- Coherence with no copy anywhere. -/
def cohReset : Coh :=
  { copies := [], dir := [], filt := [], txns := [], wb := [], buf := [], spec := [], twin := [], retry := [[], []], ptr := [],
    damage := [], stamp := 0, evict := [(0, 0), (0, 0)] }

/-- The tally before its first epoch. -/
def tallyReset : Tally :=
  { epoch := 0, b := 0, base := 0, g := 0, q := 0, qLeft := 0, overdraw := 0, qHist := [], qSpent := 0, repairs := 0, pressure := 0,
    derate := 0, derateNext := 0, tj := 0, junctions := List.replicate 8 0, hotFrom := none, unmet := false, lent := false, slack := 0, slackMove := 0,
    slackPack := 0, slackScrub := 0, share := [0, 0], epochNs := 0,
    bg := 0, refused := 0, book := [], booked := [], atLimit := [], budgets := [], hubLevel := [3, 3], hubDoze := [false, false],
    hubTo := [none, none], refusedAt := [], therm := 0, demand := List.replicate 6 0, overhead := 0, want := List.replicate 8 0 }

/-- The register file at reset. -/
def regsReset : Regs :=
  { file := [], staged := [], guards := [], latch := [], hold := [], commit := [], armed := [], mgmt := [],
    restore := [], sig := [], late := [], wcmd := none, wshut := false }

/-- Firmware of a hub from the factory: one good image in slot 0 (log 4). -/
def fwReset : Fw :=
  { slots := [⟨some ⟨1, 0, true⟩, false⟩, ⟨none, false⟩], lastActive := 0, loaded := none, asPending := false,
    running := 0 }

/-- The block right after reset: PORST_N low at its first power-up in service. -/
def State.reset : State :=
  { chip := { part := .ls8, fast := true, serial := 0, revision := 0, maker := 0, fusedMin := 0 }
    pins := { porstN := false, perst := List.replicate 6 false, pgHub := [false, false],
              pgFr := List.replicate 6 false, pgIo := [false, false], enHub := [false, false],
              enFr := List.replicate 6 false, enIo := [false, false], fault := false,
              straps := ⟨false, false, 0, false, 0⟩, heldDdr := [none, none], heldPort := List.replicate 6 false,
              heldSb := none }
    jtag := ⟨.idcode, [], []⟩
    fw := [fwReset, fwReset]
    boot := { stage := 0, hubDone := [false, false], failed := false, halfOut := [false, false], fallback := false,
              hold := false, tripped := false, xtalSeen := false, mode := 0, minSec := 0, early := [],
              earlyShed := List.replicate 16 0, startTb := 0, returning := none, frondEn := 0, unorderly := false }
    store := { secrets := [], mode := 0, sel := none, bifMode := List.replicate 6 0, rate := List.replicate 12 0,
               minSec := 0, erase := false, retired := [[], []], scratch := none, tb := 0, orderly := true, cal := 0 }
    pkg := { mode := 0, standby := false, primaryB := false, half := [.out, .out], dies := 0, linksDown := [],
             frozen := [false, false], memActive := [false, false], memInfo := false, roleHub := 0, resync := none,
             lastFail := 0 }
    clock := { tb := 0, fine := 0, cal := 0, calTick := 0, stale := false, rc := true, xtalOk := false,
               refLost := false }
    ports := List.replicate 6 ⟨0, .up, List.replicate 4 linkReset⟩
    lds := []
    mctp := ⟨0, ⟨false, false⟩⟩
    seats := []
    steward := { holder := none, idleFrom := 0, opens := [], fails := [], locked := [] }
    extents := []
    keys := []
    mem := memReset
    coh := cohReset
    fronds := List.replicate 6 frondReset
    tables := []
    rings := []
    searches := []
    jobs := []
    nextId := 0
    disp := [⟨0, 0, 0, 0, 0⟩, ⟨0, 0, 0, 0, 0⟩]
    covs := []
    tally := tallyReset
    life := { now := ledgerReset, slots := [], gen := 0, slot := 0, lowMark := none, highMark := none,
              excursions := [], sectorTb := [], worn := [] }
    log := { hist := (List.range 16).map birth, circ := [], next := 16, used := 0, shed := List.replicate 16 0,
             void := [], lack := [none, none], scanned := false, unread := [], loading := none, record := none }
    harvest := [⟨false, false, false, false, 0, 0, 0⟩, ⟨false, false, false, false, 0, 0, 0⟩]
    regs := regsReset
    wire := []
    freeCtr := 0
    pending := [] }

end Sys2Proof.Machine
end

