-- ==== Sys2Proof/Machine/Ops.lean ====
section
/-!
DEFINITION. Shared operations: finite maps, the package's topology, time, events and their records.
-/
namespace Sys2Proof.Machine

/-- The value at a key of a finite map. -/
def mget {α : Type} : SMap α → Nat → Option α
  | [], _ => none
  | (k, v) :: t, n => if n = k then some v else if n < k then none else mget t n

/-- Store a value at a key, keeping the keys strictly rising. -/
def mput {α : Type} : SMap α → Nat → α → SMap α
  | [], n, x => [(n, x)]
  | (k, v) :: t, n, x => if n = k then (n, x) :: t else if n < k then (n, x) :: (k, v) :: t else (k, v) :: mput t n x

/-- Remove a key. -/
def mdel {α : Type} : SMap α → Nat → SMap α
  | [], _ => []
  | (k, v) :: t, n => if n = k then t else if n < k then (k, v) :: t else (k, v) :: mdel t n

/-- Store or remove. -/
def mset {α : Type} (m : SMap α) (n : Nat) : Option α → SMap α
  | none => mdel m n
  | some x => mput m n x

/-- Change the value at a key, where there is one. -/
def mmod {α : Type} (m : SMap α) (n : Nat) (f : α → α) : SMap α :=
  match mget m n with
  | some v => mput m n (f v)
  | none => m

/-- Whether a key is listed. -/
def mhas {α : Type} (m : SMap α) (n : Nat) : Bool := (mget m n).isSome

/-- A state as the outcome of a command. -/
abbrev Res := Host.Outcome State Fault Refusal

/-- The bytes of a little-endian field of n bytes at byte o of a bit string. -/
def field {w : Nat} (b : BitVec w) (o n : Nat) : Nat := (b >>> (8 * o)).toNat % 256 ^ n

/-- Join bytes (item width in bytes, value) from byte 0 on; items that pass the end are cut (R477). -/
def packItems : List (Nat × Nat) → Nat
  | [] => 0
  | (n, v) :: t => v % 256 ^ n + 256 ^ n * packItems t

/-- DETAIL of an event from its items (R477). -/
def detail (items : List (Nat × Nat)) : BitVec 256 := BitVec.ofNat 256 (packItems items)

/-- A count held to a width (Table 11.9). -/
def sat (n bits : Nat) : Nat := min n (2 ^ bits - 1)

/-! Topology (R4, R22, R45) -/

/-- The die exists on this part (Table 1.6). -/
def present (s : State) (die : Nat) : Bool :=
  match s.chip.part with
  | .ls2 => die == 0 || die == 2
  | .ls4 => die == 0 || die == 2 || die == 3 || die == 4
  | .ls8 => die < 8

/-- Hubs of this part. -/
def hubs (s : State) : List Nat := if s.chip.part = .ls8 then [0, 1] else [0]

/-- Frond dies of this part. -/
def frondDies (s : State) : List Nat := (List.range 6).map (· + 2) |>.filter (present s)

/-- The half of a die: 0 for half A, 1 for half B (R22). -/
def halfOf (die : Nat) : Nat := if die = 0 then 0 else if die = 1 then 1 else if die < 5 then 0 else 1

/-- Pair mode is in force (R36). -/
def inPair (s : State) : Bool := s.pkg.mode == 1 || s.pkg.mode == 2

/-- Pair-compare is in force: pair mode with the compare sub-mode and both halves serving (R39, R42, R43). -/
def inCompare (s : State) : Bool :=
  inPair s && !s.pkg.standby && s.pkg.half.all (· == .serving)

/-- The half serves: it does so until its drain has ended, when it is being taken out (R432). -/
def serving (s : State) (half : Nat) : Bool :=
  s.pkg.half.getD half .out == .serving || s.pkg.half.getD half .out == .draining

/-- A hub's blocks stand still: a harvest dump or a lost reference has frozen its half (R367, R426). -/
def halted (s : State) (hub : Nat) : Bool := s.pkg.frozen.getD hub true

/-- Both cross links are down (Table 1.7). -/
def crossCut (s : State) : Bool := s.pkg.linksDown.contains 0x10 && s.pkg.linksDown.contains 0x11

/-- The half applies updates: it serves, or a resynchronisation is copying to it (R44). -/
def mirrored (s : State) (half : Nat) : Bool := serving s half || s.pkg.resync == some half

/-- The primary half (R38). -/
def primary (s : State) : Nat := if s.pkg.primaryB then 1 else 0

/-- The die is present and in service (PKG.DIES). -/
def dieIn (s : State) (die : Nat) : Bool := s.pkg.dies.getLsbD die

/-- A frond by die index. -/
def frond (s : State) (die : Nat) : Frond := s.fronds.getD (die - 2) frondReset

/-- Change a frond by die index. -/
def modFrond (s : State) (die : Nat) (f : Frond → Frond) : State :=
  if 2 ≤ die then { s with fronds := s.fronds.modify (die - 2) f } else s

/-- Change a frond's array. -/
def modArr (s : State) (die : Nat) (f : FrondArray → FrondArray) : State :=
  modFrond s die fun x => { x with arr := f x.arr }

/-- The host port of a place (R303). -/
def portOf (p : Place) : Nat := (p >>> 13).toNat

/-- The link of a place (R303). -/
def linkOf (p : Place) : Nat := (p >>> 11).toNat % 4

/-- The hub whose port carries a place. -/
def placeHub (p : Place) : Nat := if portOf p < 3 then 0 else 1

/-- A place names a port of this part, and its zero bits are zero (R303). -/
def placeOk (s : State) (p : Place) : Bool :=
  portOf p < (if s.chip.part = .ls8 then 6 else 3) && (p >>> 4).toNat % 128 == 0

/-- The 8 dynamic capacity regions: region k covers DPA k × 1 TiB on, in blocks of 256 MiB, with the latency of PLAIN pages (R204,
Table 5.5) and one bandwidth, figure 0. -/
def dcRegions : List DcRegion :=
  (List.range 8).map fun k => { base := k * 2 ^ 40, size := 2 ^ 40, block := 2 ^ 28, latency := 85, bandwidth := 0 }

/-- The bandwidth that a region's CDAT entry gives, GB/s: Table 5.5 does not state the figure, so it is free (log 18). -/
def cdatBandwidth (r : DcRegion) : Nat := freeBandwidth r.bandwidth

/-- What a logical device reports of itself (Table 5.2, R204, R439). -/
def ldInfo : LdInfo := { activeTimeout := 64, staticCap := 0, mediaOps := false, regions := dcRegions }

/-- A logical device, unbound where nothing is known of it. -/
def ldReset : Ld :=
  { bound := false, memEn := false, seat := none, decoders := List.replicate 8 ⟨none, false⟩,
    logs := List.replicate 4 [], overflow := List.replicate 4 false, aer := false, aerAddr := 0,
    spdm := ⟨false, false⟩, info := ldInfo }

/-- A logical device by place. -/
def ld (s : State) (p : Place) : Ld := (mget s.lds p.toNat).getD ldReset

/-- Change a logical device. -/
def modLd (s : State) (p : Place) (f : Ld → Ld) : State := { s with lds := mput s.lds p.toNat (f (ld s p)) }

/-- The seat of a logical device. -/
def seatOf (s : State) (p : Place) : Option Nat := (ld s p).seat

/-- Change an attached seat. -/
def modSeat (s : State) (n : Nat) (f : Seat → Seat) : State := { s with seats := mmod s.seats n f }

/-- The place of an attached seat. -/
def seatPlace (s : State) (n : Nat) : Option Place := (mget s.seats n).map (·.place)

/-- A link's record. -/
def link (s : State) (port l : Nat) : Link :=
  match s.ports[port]? with
  | some p => p.links.getD l linkReset
  | none => linkReset

/-- Change a link. -/
def modLink (s : State) (port l : Nat) (f : Link → Link) : State :=
  { s with ports := s.ports.modify port fun p => { p with links := p.links.modify l f } }

/-- The link of a place is up, in CXL mode or not. -/
def wireUp (s : State) (p : Place) : Bool := (link s (portOf p) (linkOf p)).up

/-- The link of a place is up in CXL mode: one that came up as a PCIe endpoint offers no CXL.mem, no BAR0 and no seats (R189). -/
def placeUp (s : State) (p : Place) : Bool := wireUp s p && (link s (portOf p) (linkOf p)).cxl

/-- The home hub of a line, seen from hub h: interleaved in 4 KiB units in whole mode on an LS-8 (R32), the half's own hub
in pair mode (R36), hub0 on the smaller parts. -/
def homeHub (s : State) (h line : Nat) : Nat :=
  if s.chip.part = .ls8 then (if inPair s then h else (line / 64) % 2) else 0

/-- Every hub that keeps a copy of a line: its home, or both homes in pair mode while both apply updates (R36). -/
def homes (s : State) (line : Nat) : List Nat :=
  if inPair s then [0, 1].filter (mirrored s) else [homeHub s 0 line]

/-- The hub whose copy the device itself reads: the home, or the primary half's (R38). -/
def devHub (s : State) (line : Nat) : Nat := homeHub s (primary s) line

/-- Key of a per-home map of lines or pages. -/
def hkey (n hub : Nat) : Nat := 2 * n + hub

/-- Send something out. -/
def send (s : State) (o : Out) : State := { s with wire := o :: s.wire }

/-- Take a fresh stamp of the free-value counter. -/
def fresh (s : State) : State := { s with freeCtr := s.freeCtr + 1 }

/-- Off-hold and a start-up not finished serve nothing; stage 0x0B has been reached. -/
def started (s : State) : Bool := s.boot.stage == 0x0B

/-! Time -/

/-- The nanosecond timestamp (R369): the base of the tick plus FINE in 10 ns steps, held below the next tick's base. -/
def nowNs (s : State) : Nat :=
  min (s.clock.tb * 1000000000 / 32768 + 10 * s.clock.fine) ((s.clock.tb + 1) * 1000000000 / 32768 - 1)

/-! Registers: raw storage -/

/-- The page base of an address: BAR0 address with its low 12 bits cleared. -/
def pageBase (a : Nat) : Nat := a / 4096 * 4096

/-- Base of page n of die d (R374). -/
def diePage (d n : Nat) : Nat := 0x00400000 * d + 0x1000 * n

/-- Base of global page n (R374). -/
def globalPage (n : Nat) : Nat := 0x02000000 + 0x1000 * n

/-- Base of the model's own copy of seat n's MGMT page. -/
def mgmtPage (n : Nat) : Nat := 0x04000000 + 0x1000 * n

/-- Base of the RING page of a ring. -/
def ringPage (n : Nat) : Nat := 0x02400000 + 0x1000 * n

/-- The stored word of a register, or its reset value v. -/
def rawReg (s : State) (a : Nat) (v : Word) : Word := (mget s.regs.file a).getD v

/-- Store a register's word. -/
def setReg (s : State) (a : Nat) (v : Word) : State := { s with regs := { s.regs with file := mput s.regs.file a v } }

/-- Set bits of a stored register whose reset value is 0. -/
def orReg (s : State) (a : Nat) (v : Word) : State := setReg s a (rawReg s a 0 ||| v)

/-- Clear bits of a stored register whose reset value is 0. -/
def clrReg (s : State) (a : Nat) (v : Word) : State := setReg s a (rawReg s a 0 &&& ~~~v)

/-- The logical device that MSI-X vector 16 of a page goes to (R383): the MGMT page's own seat, a RING page's holder,
otherwise the steward's. -/
def pageLd (s : State) (base : Nat) : Option Place :=
  if 0x04000000 ≤ base then seatPlace s ((base - 0x04000000) / 0x1000)
  else if 0x02400000 ≤ base then (mget s.rings ((base - 0x02400000) / 0x1000)).bind fun r => r.holder.bind (seatPlace s)
  else s.steward.holder.bind (seatPlace s)

/-- Set one EVT bit of a page; when it becomes 1 while enabled, raise MSI-X vector 16 (R383). -/
def setEvt (s : State) (base bit : Nat) : State :=
  let old := rawReg s (base + 0x10) 0
  let s' := setReg s (base + 0x10) (old ||| BitVec.ofNat 16 (2 ^ bit))
  if !old.getLsbD bit && (rawReg s (base + 0x14) 0).getLsbD bit then
    match pageLd s base with
    | some p => send s' (.msix p 16)
    | none => s'
  else s'

/-- Set REJECT bits on a page; REJECT_OFS follows only while REJECT reads zero, and EVT.REJ is set when REJECT becomes
non-zero (Tables 10.7 to 10.9). -/
def reject (s : State) (base bit ofs : Nat) : State :=
  let old := rawReg s (base + 0x18) 0
  let s := setReg s (base + 0x18) (old ||| BitVec.ofNat 16 (2 ^ bit))
  if old = 0 then setEvt (setReg s (base + 0x1C) (BitVec.ofNat 16 ofs)) base 14 else s

/-! Events (R418 to R421, R429, R477, R233) -/

/-- Seats whose CXL event logs receive an event (Table 5.11). -/
inductive Recip where
  /-- row 1: every attached seat -/
  | everySeat
  /-- rows 3 and 7: the steward only -/
  | steward
  /-- row 4: that seat and the steward -/
  | seat (n : Nat)
  /-- row 5: every seat whose extents cover the DPA, and the steward -/
  | dpa (a : Nat)
  /-- row 6: the table's owner and the steward -/
  | owner (o : Option Nat)
deriving DecidableEq, Repr

/-- The seats of a recipient set, without repeats. -/
def recipSeats (s : State) (r : Recip) : List Nat :=
  let st := s.steward.holder.toList
  (match r with
   | .everySeat => s.seats.map (fun x : Nat × Seat => x.1)
   | .steward => st
   | .seat n => n :: st
   | .dpa a => ((mget s.extents (a / 2 ^ 28)).map fun e : Extent => e.seats.map (fun x : ExtSeat => x.seat)).getD [] ++ st
   | .owner o => o.toList ++ st).eraseDups

/-- Add a record to a CXL event log of a logical device: 64 records, then the overflow indication (R233). -/
def ldRecord (sev : Nat) (r : EvRec) (l : Ld) : Ld :=
  if (l.logs.getD sev []).length < 64 then { l with logs := l.logs.modify sev (· ++ [r]) }
  else { l with overflow := l.overflow.modify sev fun _ => true }

/-- Deliver an event to the CXL event logs of its recipients. -/
def deliver (s : State) (sev : Nat) (r : EvRec) (dst : Recip) : State :=
  (recipSeats s dst).foldl (fun s n =>
    match seatPlace s n with
    | some p => modLd s p (ldRecord sev r)
    | none => s) s

/-- History kinds (R418). -/
def historyKind (code : Nat) : Bool :=
  code == 0x900B || code == 0x900C || code == 0x6004 || code == 0x300E || code == 0x1008 || code == 0xA00C

/-- A hub keeps its MRAM up to date: in pair mode only while its half serves, and during start-up while its half takes part
(R412, R421). -/
def mramHub (s : State) (h : Nat) : Bool :=
  if !inPair s then true else if started s then serving s h else !s.boot.halfOut.getD h false

/-- Count n writes of an MRAM sector on every hub that writes (R412, R421). -/
def mramWrite (s : State) (sector n : Nat) : State :=
  let one (s : State) (h : Nat) : State :=
    if !mramHub s h then s
    else
      let k := 2048 * h + sector
      let l := s.life.now
      let v := ((mget l.mramWr k).getD 0).toNat + n
      { s with life := { s.life with
          now := { l with mramWr := mput l.mramWr k (BitVec.ofNat 32 (sat v 32)) }
          sectorTb := mput s.life.sectorTb k s.clock.tb } }
  (hubs s).foldl one s

/-- The MRAM sector of the circular-area record with a SEQ: the log's 4 MiB stand first (log 19). -/
def circSector (seq : Nat) : Nat := (64 + (seq - 16) % 65472) / 64

/-- Write one record with the next SEQ: into the circular area, and into the history area where it is a history kind and
there is room (R418, R420); a record that asserts SB_ALERT_N is unread (R471). The out half lacks it (R421). -/
def appendRecord (s : State) (r : EvRec) : State :=
  let r := { r with seq := BitVec.ofNat 48 s.log.next }
  let lack := (List.range 2).map fun h =>
    match s.log.lack.getD h none with
    | some x => some x
    | none => if mramHub s h then none else some s.log.next
  let s' := { s with log := { s.log with
      circ := (r :: s.log.circ).take 65472
      hist := if historyKind r.code.toNat && s.log.hist.length < 64 then s.log.hist ++ [r] else s.log.hist
      next := s.log.next + 1
      used := s.log.used + 1
      unread := if decide (16384 ≤ r.flags.toNat) || r.code == 0x6004 then s.log.unread ++ [s.log.next] else s.log.unread
      lack := lack } }
  let s' := if s'.log.hist.length = s.log.hist.length then s' else mramWrite s' 0 3
  mramWrite s' (circSector s.log.next) 3

/-- The configuration store is written: its first sector stands for it (log 19). -/
def storeWrite (s : State) : State := mramWrite s 1024 1

/-- The sectors past 10^9 writes not yet reported (R422), by map key. -/
def newlyWorn (s : State) (keys : List Nat) : List Nat :=
  keys.filter fun k => 1000000000 < ((mget s.life.now.mramWr k).getD 0).toNat && !s.life.worn.contains k

/-- FLAGS bits of an event at this moment: severity, RC, CAL_STALE (R419). -/
def eventFlags (s : State) (sev : Nat) (extra : Nat) : BitVec 16 :=
  BitVec.ofNat 16 (16384 * sev + (if s.clock.rc then 8 else 0) + (if s.clock.stale then 4 else 0)) |||
    BitVec.ofNat 16 extra

/-- FLAGS bit numbers as values: HALF_B, UNORDERLY, DETACHED, CLEARED, SUMMARY, BRIDGED, INJECTED (R419). -/
def flagHalfB : Nat := 256
def flagUnorderly : Nat := 128
def flagDetached : Nat := 64
def flagCleared : Nat := 32
def flagSummary : Nat := 16
def flagBridged : Nat := 2
def flagInjected : Nat := 1

/-- Record an event in the lichen log: held before the log scan, up to 256 (R446); counted by class once the second's 1,000
records are used (R421); otherwise written. -/
def logRecord (s : State) (r : EvRec) : State :=
  let cls := r.code.toNat / 4096
  if !s.log.scanned then
    if s.boot.early.length < 256 then { s with boot := { s.boot with early := r :: s.boot.early } }
    else { s with boot := { s.boot with earlyShed := s.boot.earlyShed.modify cls (· + 1) } }
  else if 1000 ≤ s.log.used then { s with log := { s.log with shed := s.log.shed.modify cls (· + 1) } }
  else
    let sec := circSector s.log.next
    let s := appendRecord s r
    match newlyWorn s [sec, 2048 + sec] with
    | [] => s
    | ks =>
      let s := { s with life := { s.life with worn := ks ++ s.life.worn } }
      ks.foldl (fun s k =>
        let w : EvRec :=
          { code := 0xA00A, seq := BitVec.ofNat 48 s.log.next, tb := BitVec.ofNat 64 s.clock.tb, cal := s.clock.cal, die := 0xFF,
            seat := 0xFF, flags := eventFlags s 1 0, count := 0,
            detail := detail [(1, k / 2048), (2, k % 2048), (4, ((mget s.life.now.mramWr k).getD 0).toNat)] }
        let s := if 1000 ≤ s.log.used then { s with log := { s.log with shed := s.log.shed.modify 10 (· + 1) } }
          else appendRecord s w
        deliver s 1 w .steward) s

/-- An event of a timebase: code, severity (0 informational to 3 fatal), die, seat, extra flags, suppressed count, DETAIL items and
recipients. It enters the lichen log and the CXL event logs (R429, R233), and failures are kept for HEALTH (Table 13.9). -/
def raiseAt (s : State) (tb code sev die seat extra count : Nat) (items : List (Nat × Nat)) (dst : Recip) : State :=
  let r : EvRec :=
    { code := BitVec.ofNat 16 code, seq := BitVec.ofNat 48 s.log.next, tb := BitVec.ofNat 64 tb,
      cal := s.clock.cal, die := BitVec.ofNat 8 die, seat := BitVec.ofNat 8 seat, flags := eventFlags s sev extra,
      count := BitVec.ofNat 16 (sat count 16), detail := detail items }
  let s := deliver (logRecord s r) sev r dst
  if 2 ≤ sev then { s with pkg := { s.pkg with lastFail := BitVec.ofNat 16 code } } else s

/-- An event of this moment. -/
def raiseFull (s : State) (code sev die seat extra count : Nat) (items : List (Nat × Nat)) (dst : Recip) : State :=
  raiseAt s s.clock.tb code sev die seat extra count items dst

/-- The timebase in whose tick a nanosecond timestamp lies (R369). -/
def tickOf (ns : Nat) : Nat := ((ns + 1) * 32768 - 1) / 1000000000

/-- An event without extra flags or count. -/
def event (s : State) (code sev die seat : Nat) (items : List (Nat × Nat)) (dst : Recip) : State :=
  raiseFull s code sev die seat 0 0 items dst

/-- Extra flag of an event about a half (R419): HALF_B for half B. -/
def halfFlag (half : Nat) : Nat := if half = 1 then flagHalfB else 0

/-- Assert FAULT_N (R473). -/
def assertFault (s : State) : State := { s with pins := { s.pins with fault := true } }

/-! Ledger (R412, R413, R416) -/

/-- Write the ledger into its next slot with a new GEN; the record of the timebase goes with it (R368, R416). -/
def ledgerWrite (s : State) (orderly : Bool) : State :=
  let s := (List.range 16).foldl (fun s i => mramWrite s (1792 + 16 * s.life.slot + i) 1) s
  { s with
    life := { s.life with
      slots := mput s.life.slots s.life.slot (s.life.gen + 1, s.life.now), gen := s.life.gen + 1,
      slot := (s.life.slot + 1) % 16 }
    store := { s.store with tb := s.clock.tb, orderly := orderly, cal := s.clock.cal } }

/-- Change the ledger's current counts. -/
def modLedger (s : State) (f : Ledger → Ledger) : State :=
  { s with life := { s.life with now := f s.life.now } }

/-- A 32-bit ledger counter plus 1, held at its greatest value. -/
def inc32 (v : BitVec 32) : BitVec 32 := if v = 0xFFFFFFFF then v else v + 1

/-- Raise a counter of a map by n. -/
def bump (m : SMap (BitVec 32)) (k n : Nat) : SMap (BitVec 32) :=
  mput m k (BitVec.ofNat 32 (sat (((mget m k).getD 0).toNat + n) 32))

/-! Idle time (R366 to R371) -/

/-- Advance the timebase by one tick; the calendar follows, a second every 32,768 ticks (R368, R370). -/
def tick (s : State) : State :=
  let c := s.clock
  let last := c.calTick = 32767
  { s with clock := { c with tb := c.tb + 1, fine := 0, calTick := if last then 0 else c.calTick + 1,
                             cal := if last then c.cal + 1 else c.cal } }

/-- FINE steps of 10 ns in the present tick: those that keep the timestamp below the next tick's base (R369). -/
def tickSteps (tb : Nat) : Nat := ((tb + 1) * 1000000000 / 32768 - tb * 1000000000 / 32768 + 9) / 10

/-- The idle step: one 10 ns step of the reference; the timebase ticks when the steps reach the next tick's base. Nothing
runs while PORST_N is low before the first start-up. Without the reference FINE holds, and the step is a whole tick of the
timebase (R367, R369; log 2). -/
def idleTick (s : State) : Res :=
  if s.boot.stage = 0 then .next s
  else if !s.clock.refLost && s.clock.fine + 1 < tickSteps s.clock.tb then
    .next { s with clock := { s.clock with fine := s.clock.fine + 1 } }
  else if s.clock.tb + 1 < 2 ^ 64 then .next (tick s)
  else .fault .timebaseExhausted

end Sys2Proof.Machine
end

