-- ==== Sys2Proof/Machine/Crypto.lean ====
section
/-!
DEFINITION. The checks and ciphers the spec names: CRC-16 with polynomial 0x8BB7 (R153, R266), SHA-256 and HMAC-SHA-256
(R313, R315), AES-256, AES key wrap of NIST SP 800-38F (R228, R312), AES-256-XTS of IEEE 1619 (R225). Bytes are Nat
below 256.
-/
namespace Sys2Proof.Machine

/-! CRC-16 -/

/-- One bit of the CRC, most significant bit first. -/
def crcBit (c : Word) (b : Bool) : Word :=
  let top := c.msb != b
  if top then (c <<< 1) ^^^ 0x8BB7 else c <<< 1

/-- One 16-bit word of the CRC. -/
def crcWord (c : Word) (w : Word) : Word :=
  (List.range 16).foldl (fun c k => crcBit c (w.getLsbD (15 - k))) c

/-- One byte of the CRC. -/
def crcByte (c : Word) (w : Nat) : Word :=
  (List.range 8).foldl (fun c k => crcBit c (w.testBit (7 - k))) c

/-- CRC over words. -/
def crcWords (init : Word) (ws : List Word) : Word := ws.foldl crcWord init

/-- CRC over bytes. -/
def crcBytes (init : Word) (bs : List Nat) : Word := bs.foldl crcByte init

/-- Bytes of a number, lowest first. -/
def bytesOf (n : Nat) (v : Nat) : List Nat := (List.range n).map fun i => v / 256 ^ i % 256

/-- A number from bytes, lowest first. -/
def ofBytes : List Nat → Nat
  | [] => 0
  | b :: t => b % 256 + 256 * ofBytes t

/-- A number from bytes, highest first. -/
def ofBytesBE (bs : List Nat) : Nat := bs.foldl (fun v b => 256 * v + b % 256) 0

/-- Bytes of a number, highest first. -/
def bytesBE (n v : Nat) : List Nat := (bytesOf n v).reverse

/-! SHA-256 -/

/-- The first 32 bits of the fractional part of the root of degree d (2 or 3) of p, by bisection on integers. -/
def fracRoot (d p : Nat) : Nat :=
  (List.range 36).foldl (fun r k =>
    let c := r + 2 ^ (35 - k)
    if c ^ d ≤ p * 2 ^ (32 * d) then c else r) 0 % 2 ^ 32

/-- The first 64 primes. -/
def primes64 : List Nat :=
  ((List.range 312).filter fun n => 2 ≤ n && (List.range 16).all fun k => k + 2 ≥ n || n % (k + 2) != 0)

/-- Round constants. -/
def shaK : List (BitVec 32) := primes64.map fun p => BitVec.ofNat 32 (fracRoot 3 p)

/-- Initial hash value. -/
def shaH0 : List (BitVec 32) := (primes64.take 8).map fun p => BitVec.ofNat 32 (fracRoot 2 p)

/-- Extend the message schedule, newest word first. -/
def shaSchedule (w : List (BitVec 32)) : Nat → List (BitVec 32)
  | 0 => w
  | n + 1 =>
    let a := w.getD 14 0
    let b := w.getD 1 0
    let s0 := a.rotateRight 7 ^^^ a.rotateRight 18 ^^^ a >>> 3
    let s1 := b.rotateRight 17 ^^^ b.rotateRight 19 ^^^ b >>> 10
    shaSchedule ((w.getD 15 0 + s0 + w.getD 6 0 + s1) :: w) n

/-- One round on the eight working words. -/
def shaRound (v : List (BitVec 32)) (kw : BitVec 32 × BitVec 32) : List (BitVec 32) :=
  match v with
  | [a, b, c, d, e, f, g, h] =>
    let t1 := h + (e.rotateRight 6 ^^^ e.rotateRight 11 ^^^ e.rotateRight 25) + ((e &&& f) ^^^ (~~~e &&& g)) + kw.1 + kw.2
    let t2 := (a.rotateRight 2 ^^^ a.rotateRight 13 ^^^ a.rotateRight 22) + ((a &&& b) ^^^ (a &&& c) ^^^ (b &&& c))
    [t1 + t2, a, b, c, d + t1, e, f, g]
  | _ => v

/-- One 64-byte block. -/
def shaBlock (h : List (BitVec 32)) (block : List Nat) : List (BitVec 32) :=
  let w := (List.range 16).map fun i => BitVec.ofNat 32 (ofBytesBE ((block.drop (4 * i)).take 4))
  let ws := (shaSchedule w.reverse 48).reverse
  List.zipWith (· + ·) h ((shaK.zip ws).foldl shaRound h)

/-- The padded message cut into n blocks. -/
def shaBlocks (h : List (BitVec 32)) (m : List Nat) : Nat → List (BitVec 32)
  | 0 => h
  | n + 1 => shaBlocks (shaBlock h (m.take 64)) (m.drop 64) n

/-- SHA-256 of a byte string. -/
def sha256 (m : List Nat) : List Nat :=
  let pad := (119 - m.length % 64) % 64
  let p := m ++ [0x80] ++ List.replicate pad 0 ++ bytesBE 8 (8 * m.length)
  (shaBlocks shaH0 p (p.length / 64)).flatMap fun w => bytesBE 4 w.toNat

/-- HMAC-SHA-256 with a 32-byte key, as bytes. -/
def hmac (key m : List Nat) : List Nat :=
  let k := key ++ List.replicate 32 0
  sha256 (k.map (· ^^^ 0x5C) ++ sha256 (k.map (· ^^^ 0x36) ++ m))

/-- A 256-bit value as 32 bytes, first byte at bits [7:0]. -/
def key32 (v : BitVec 256) : List Nat := bytesOf 32 v.toNat

/-- 32 bytes as a 256-bit value. -/
def ofKey32 (b : List Nat) : BitVec 256 := BitVec.ofNat 256 (ofBytes (b.take 32))

/-! AES-256 -/

/-- Multiply by x in GF(2^8). -/
def xtime (a : Nat) : Nat := if a < 128 then 2 * a else (2 * a - 256) ^^^ 0x1B

/-- The S-box of FIPS 197, one number per row of its table: the entry of column j at bits [8j+7:8j]. -/
def sboxRows : List Nat :=
  [0x76ABD7FE2B670130C56F6BF27B777C63, 0xC072A49CAFA2D4ADF04759FA7DC982CA, 0x1531D871F1E5A534CCF73F362693FDB7,
   0x75B227EBE28012079A059618C323C704, 0x842FE329B3D63B52A05A6E1B1A2C8309, 0xCF584C4A39BECB6A5BB1FC20ED00D153,
   0xA89F3C507F02F94585334D43FBAAEFD0, 0xD2F3FF1021DAB6BCF5389D928F40A351, 0x73195D643D7EA7C41744975FEC130CCD,
   0xDB0B5EDE14B8EE4688902A22DC4F8160, 0x79E4959162ACD3C25C2406490A3A32E0, 0x08AE7A65EAF4566CA94ED58D6D37C8E7,
   0x8A8BBD4B1F74DDE8C6B4A61C2E2578BA, 0x9E1DC186B95735610EF6034866B53E70, 0xDF2855CEE9871E9B948ED9691198F8E1,
   0x16BB54B00F2D99416842E6BF0D89A18C]

/-- The inverse S-box of FIPS 197. -/
def invSboxRows : List Nat :=
  [0xFBD7F3819EA340BF38A53630D56A0952, 0xCBE9DEC444438E3487FF2F9B8239E37C, 0x4EC3FA420B954CEE3D23C2A632947B54,
   0x25D18B6D49A25B76B224D92866A12E08, 0x92B6655DCC5CA4D41698688664F6F872, 0x849D8DA75746155EDAB9EDFD5048706C,
   0x0645B3B80558E4F70AD3BC8C00ABD890, 0x6B8A130103BDAFC1020F3FCA8F1E2CD0, 0x73E6B4F0CECFF297EADC674F4111913A,
   0x6EDF751CE837F9E28535ADE72274AC96, 0x1BBE18AA0E62B76F89C5291D711AF147, 0xF45ACD78FEC0DB9A2079D2C64B3E56FC,
   0x5FEC8027591012B131C7078833A8DD1F, 0xEF9CC9939F7AE52D0D4AB519A97F5160, 0x619953833CBBEBC8B0F52AAE4D3BE0A0,
   0x7D0C2155631469E126D677BA7E042B17]

/-- The S-box. -/
def subByte (a : Nat) : Nat := sboxRows.getD (a / 16) 0 / 256 ^ (a % 16) % 256

/-- The inverse S-box. -/
def invSubByte (a : Nat) : Nat := invSboxRows.getD (a / 16) 0 / 256 ^ (a % 16) % 256

/-- Xor of byte lists. -/
def xorBytes (a b : List Nat) : List Nat := List.zipWith (· ^^^ ·) a b

/-- Extend the key schedule of AES-256: words of 4 bytes, newest first, i the next word's index, n words to go. -/
def aesExpand (w : List (List Nat)) (i : Nat) : Nat → List (List Nat)
  | 0 => w
  | n + 1 =>
    let t := w.getD 0 []
    let rcon := (List.range (i / 8 - 1)).foldl (fun r _ => xtime r) 1
    let t' := if i % 8 = 0 then xorBytes ((t.drop 1 ++ t.take 1).map subByte) [rcon, 0, 0, 0]
      else if i % 8 = 4 then t.map subByte else t
    aesExpand (xorBytes (w.getD 7 []) t' :: w) (i + 1) n

/-- The 15 round keys of 16 bytes. -/
def aesKeys (key : List Nat) : List (List Nat) :=
  let w0 := (List.range 8).map fun i => (key.drop (4 * i)).take 4
  let ws := (aesExpand w0.reverse 8 52).reverse
  (List.range 15).map fun r => ((ws.drop (4 * r)).take 4).flatten

/-- ShiftRows: byte at column c, row r comes from column c + r. -/
def shiftRows (b : List Nat) : List Nat := (List.range 16).map fun i => b.getD ((i + 4 * (i % 4)) % 16) 0

/-- Inverse ShiftRows. -/
def invShiftRows (b : List Nat) : List Nat := (List.range 16).map fun i => b.getD ((i + 12 * (i % 4)) % 16) 0

/-- MixColumns on one column: byte k becomes {02}k ⊕ {03}(k+1) ⊕ (k+2) ⊕ (k+3), which is k ⊕ {02}(k ⊕ (k+1)) ⊕ the column's sum. -/
def mixColumn (k : List Nat) : List Nat :=
  match k with
  | [a, b, c, d] =>
    let t := a ^^^ b ^^^ c ^^^ d
    [a ^^^ t ^^^ xtime (a ^^^ b), b ^^^ t ^^^ xtime (b ^^^ c), c ^^^ t ^^^ xtime (c ^^^ d), d ^^^ t ^^^ xtime (d ^^^ a)]
  | _ => k

/-- Inverse MixColumns on one column: MixColumns after adding {04}(a ⊕ c) to bytes a and c and {04}(b ⊕ d) to b and d. -/
def invMixColumn (k : List Nat) : List Nat :=
  match k with
  | [a, b, c, d] =>
    let u := xtime (xtime (a ^^^ c))
    let v := xtime (xtime (b ^^^ d))
    mixColumn [a ^^^ u, b ^^^ v, c ^^^ u, d ^^^ v]
  | _ => k

/-- A function of a column on each of a block's four. -/
def onColumns (f : List Nat → List Nat) (b : List Nat) : List Nat :=
  f (b.take 4) ++ f ((b.drop 4).take 4) ++ f ((b.drop 8).take 4) ++ f ((b.drop 12).take 4)

/-- AES-256 encryption of a 16-byte block. -/
def aesEnc (key block : List Nat) : List Nat :=
  let ks := aesKeys key
  let mid := ((ks.drop 1).take 13).foldl
    (fun b k => xorBytes (onColumns mixColumn (shiftRows (b.map subByte))) k) (xorBytes block (ks.getD 0 []))
  xorBytes (shiftRows (mid.map subByte)) (ks.getD 14 [])

/-- AES-256 decryption of a 16-byte block. -/
def aesDec (key block : List Nat) : List Nat :=
  let ks := aesKeys key
  let mid := ((ks.drop 1).take 13).reverse.foldl
    (fun b k => onColumns invMixColumn (xorBytes ((invShiftRows b).map invSubByte) k)) (xorBytes block (ks.getD 14 []))
  xorBytes ((invShiftRows mid).map invSubByte) (ks.getD 0 [])

/-! AES key wrap (NIST SP 800-38F KW) -/

/-- One unwrap step at counter t on the register A and semiblocks R. -/
def unwrapStep (key : List Nat) (st : List Nat × List (List Nat)) (t : Nat) : List Nat × List (List Nat) :=
  let n := st.2.length
  let i := (t - 1) % n
  let b := aesDec key (xorBytes st.1 (bytesBE 8 t) ++ st.2.getD i [])
  (b.take 8, st.2.set i (b.drop 8))

/-- Unwrap: the plaintext, or none where the integrity check fails. -/
def keyUnwrap (key c : List Nat) : Option (List Nat) :=
  let n := c.length / 8 - 1
  let r := (List.range n).map fun i => (c.drop (8 * (i + 1))).take 8
  let out := (List.range (6 * n)).foldl (fun st k => unwrapStep key st (6 * n - k)) (c.take 8, r)
  if out.1 = List.replicate 8 0xA6 then some out.2.flatten else none

/-! AES-256-XTS on a 64-byte unit (IEEE 1619) -/

/-- Multiply the tweak, a little-endian 128-bit number, by the primitive element. -/
def xtsNext (t : Nat) : Nat := if t < 2 ^ 127 then 2 * t else (2 * t - 2 ^ 128) ^^^ 0x87

/-- The four tweaks of a 64-byte unit. -/
def xtsTweaks (tweakKey : List Nat) (tweak : Nat) : List (List Nat) :=
  let t0 := ofBytes (aesEnc tweakKey (bytesOf 16 tweak))
  [bytesOf 16 t0, bytesOf 16 (xtsNext t0), bytesOf 16 (xtsNext (xtsNext t0)),
   bytesOf 16 (xtsNext (xtsNext (xtsNext t0)))]

/-- Run one direction of the cipher over the four blocks. -/
def xtsUnit (f : List Nat → List Nat) (tweaks : List (List Nat)) (unit : List Nat) : List Nat :=
  (List.range 4).flatMap fun j =>
    let t := tweaks.getD j []
    xorBytes (f (xorBytes ((unit.drop (16 * j)).take 16) t)) t

/-- Data key (first 32 bytes) and tweak key of a 512-bit XTS key held most significant half first. -/
def xtsKeys (k : BitVec 512) : List Nat × List Nat := (bytesOf 32 (k.toNat / 2 ^ 256), bytesOf 32 (k.toNat % 2 ^ 256))

/-- What plaintext p, stored under key k1, reads as under key k2, at tweak t (R225, R230). -/
def rekey (k1 k2 : BitVec 512) (t : Nat) (p : Line) : Line :=
  let (d1, w1) := xtsKeys k1
  let (d2, w2) := xtsKeys k2
  let c := xtsUnit (aesEnc d1) (xtsTweaks w1 t) (bytesOf 64 p.toNat)
  BitVec.ofNat 512 (ofBytes (xtsUnit (aesDec d2) (xtsTweaks w2 t) c))

end Sys2Proof.Machine
end

