-- ==== Sys2Proof/Machine/RegMap.lean ====
section
/-!
DEFINITION. The register map as data: pages (Tables 10.13, 10.14), their registers with the writable bits of each access
code and the reset values (Tables 10.5 to 10.19, 11.2, 11.4, 11.7), and the raw access to active and staged halves.
-/
namespace Sys2Proof.Machine

/-- The blocks that own pages (Tables 10.13 and 10.14). -/
inductive PageTy where
  | hub | hport | ddr | disp | coh | tier | hpwr | memret | inj | mram
  | frond | sluice | rake | scrub | repair | fpwr | fperf | arr | casc | hce
  | pkg | tally | cost | seats | cap | keys | time | ledger | log | harvest | watripo | mgmt | ring
deriving DecidableEq, Repr

/-- A page: block, die (0xFF for a global page), page number and instance. -/
structure PageId where
  ty : PageTy
  die : Nat
  num : Nat
  inst : Nat
deriving DecidableEq, Repr

/-- Block type code of PAGE_ID (Tables 10.13, 10.14). -/
def PageTy.code : PageTy → Nat
  | .hub => 0x01 | .hport => 0x02 | .ddr => 0x03 | .disp => 0x04 | .coh => 0x05 | .tier => 0x06 | .hpwr => 0x07
  | .memret => 0x08 | .inj => 0x09 | .mram => 0x0A | .frond => 0x20 | .sluice => 0x21 | .rake => 0x22 | .scrub => 0x23
  | .repair => 0x24 | .fpwr => 0x25 | .fperf => 0x26 | .arr => 0x27 | .casc => 0x28 | .hce => 0x29 | .pkg => 0x40
  | .tally => 0x41 | .cost => 0x42 | .seats => 0x43 | .cap => 0x45 | .keys => 0x46 | .time => 0x47 | .ledger => 0x48
  | .log => 0x49 | .harvest => 0x4A | .watripo => 0x4B | .mgmt => 0x4C | .ring => 0x50

/-- Page n of a hub die (Table 10.13). -/
def hubPage (d n : Nat) : Option PageId :=
  if n = 0 then some ⟨.hub, d, n, d⟩
  else if n ≤ 3 then some ⟨.hport, d, n, 3 * d + n - 1⟩
  else if 8 ≤ n && n ≤ 0xD then some ⟨.ddr, d, n, n - 8⟩
  else match n with
    | 0x10 => some ⟨.disp, d, n, d⟩ | 0x11 => some ⟨.coh, d, n, d⟩ | 0x12 => some ⟨.tier, d, n, d⟩
    | 0x13 => some ⟨.hpwr, d, n, d⟩ | 0x14 => some ⟨.memret, d, n, d⟩ | 0x15 => some ⟨.inj, d, n, d⟩
    | 0x16 => some ⟨.mram, d, n, d⟩ | _ => none

/-- Page n of a frond die (Table 10.13). -/
def frondPage (d n : Nat) : Option PageId :=
  if n = 0 then some ⟨.frond, d, n, d⟩
  else if 0x10 ≤ n && n ≤ 0x1F then some ⟨.sluice, d, n, n - 0x10⟩
  else match n with
    | 0x20 => some ⟨.rake, d, n, d⟩ | 0x21 => some ⟨.scrub, d, n, d⟩ | 0x22 => some ⟨.repair, d, n, d⟩
    | 0x23 => some ⟨.fpwr, d, n, d⟩ | 0x24 => some ⟨.fperf, d, n, d⟩ | 0x25 => some ⟨.inj, d, n, d⟩
    | 0x26 => some ⟨.arr, d, n, d⟩ | 0x27 => some ⟨.casc, d, n, d⟩ | 0x28 => some ⟨.hce, d, n, d⟩ | _ => none

/-- Global page n (Table 10.14). -/
def globalPageId (n : Nat) : Option PageId :=
  if 0x400 ≤ n && n ≤ 0x7FF then some ⟨.ring, 0xFF, n, (n - 0x400) % 256⟩
  else match n with
    | 0 => some ⟨.pkg, 0xFF, n, 0⟩ | 1 => some ⟨.tally, 0xFF, n, 0⟩ | 2 => some ⟨.cost, 0xFF, n, 0⟩
    | 3 => some ⟨.seats, 0xFF, n, 0⟩ | 5 => some ⟨.cap, 0xFF, n, 0⟩ | 6 => some ⟨.keys, 0xFF, n, 0⟩
    | 7 => some ⟨.time, 0xFF, n, 0⟩ | 8 => some ⟨.ledger, 0xFF, n, 0⟩ | 9 => some ⟨.log, 0xFF, n, 0⟩
    | 0xA => some ⟨.harvest, 0xFF, n, 0⟩ | 0xB => some ⟨.watripo, 0xFF, n, 0⟩ | _ => none

/-- The page at an address, as Tables 10.1, 10.13 and 10.14 lay it out; a MGMT instance stands at its own base. -/
def pageAt (a : Nat) : Option PageId :=
  if a < 0x02000000 then
    let d := a / 0x400000
    let n := a % 0x400000 / 0x1000
    if d < 2 then hubPage d n else frondPage d n
  else if a < 0x03000000 then globalPageId ((a - 0x02000000) / 0x1000)
  else if 0x04000000 ≤ a && a < 0x04040000 then some ⟨.mgmt, 0xFF, 0x10, (a - 0x04000000) / 0x1000⟩
  else none

/-- One register: offset, the writable bits by access code, whether its RW bits are operating fields (Table 10.11), and its
reset value; a value wider than 16 bits has words words, of which this is word idx (R392). -/
structure RegSpec where
  off : Nat
  rw : Word := 0
  rws : Word := 0
  rc : Word := 0
  wo : Word := 0
  oper : Bool := false
  reset : Word := 0
  words : Nat := 1
  idx : Nat := 0
deriving DecidableEq, Repr

/-- A value over consecutive registers. -/
def wideSpec (off words : Nat) (f : Nat → RegSpec) : List RegSpec :=
  (List.range words).map fun k => { f k with off := off + 4 * k, words := words, idx := k }

/-- Read-only words. -/
def roWide (off words : Nat) : List RegSpec := wideSpec off words fun _ => { off := 0 }

/-- One read-only register. -/
def ro1 (off : Nat) (reset : Word := 0) : RegSpec := { off := off, reset := reset }

/-- Read-only registers at consecutive offsets, each a value of its own. -/
def roList (off n : Nat) : List RegSpec := (List.range n).map fun k => ro1 (off + 4 * k)

/-- A 43-bit DPA register over four words, RW. -/
def dpaSpec (off : Nat) (oper : Bool) : List RegSpec :=
  wideSpec off 4 fun k => { off := 0, rw := if k < 2 then 0xFFFF else if k = 2 then 0x07FF else 0, oper := oper }

/-- CTL of a page: only RING, TIER and WATRIPO have a writable EN (R382). -/
def ctlSpec : PageTy → RegSpec
  | .ring => { off := 8, rw := 7 }
  | .watripo => { off := 8, rw := 1 }
  | .tier => { off := 8, rw := 1, rws := 0xE, reset := 7 }
  | .coh => { off := 8, rws := 6, reset := 7 }
  | .hpwr => { off := 8, rws := 6, reset := 5 }
  | .cap => { off := 8, rws := 0x3E, reset := 0x21 }
  | .tally => { off := 8, rws := 0xE, reset := 0xD }
  | .fpwr => { off := 8, rws := 0x0FF8, reset := 0x0169 }
  | _ => { off := 8, reset := 1 }

/-- RC bits of STAT. -/
def statRc : PageTy → Word
  | .mgmt => 0x0200 | .ring => 2 | .arr => 0xE | .frond => 1 | .pkg => 1 | .inj => 3 | .hpwr => 1 | .ledger => 2
  | .log => 4 | .mram => 1 | .watripo => 2 | .fpwr => 0x8000 | .fperf => 0x8000 | _ => 0

/-- The common header (Table 10.5). -/
def headerSpecs (ty : PageTy) : List RegSpec :=
  [ro1 0, ro1 4 0x0100, ctlSpec ty, { off := 0xC, rc := statRc ty }, { off := 0x10, rc := 0xFFFF },
   { off := 0x14, rw := 0xFFFF, oper := true }, { off := 0x18, rc := 0x1F }, ro1 0x1C, ro1 0x20,
   { off := 0x24, rw := 0xFFFF, oper := true }, { off := 0x28, wo := 1 }]

/-- The block registers of a page, 0x040 to 0x3FF (Tables 10.15 to 10.19, 11.2, 11.4, 11.7, R401 to R408). -/
def blockSpecs : PageTy → List RegSpec
  | .hport => roList 0x40 4
  | .disp => roWide 0x40 4 ++ roWide 0x50 4 ++ roWide 0x60 4 ++ roWide 0x70 4 ++ roWide 0x80 4
  | .coh => roWide 0x40 4 ++ roWide 0x50 4 ++
      [{ off := 0x60, rc := 0xFFFF }, ro1 0x64, { off := 0x68, rc := 0xFFFF }, { off := 0x6C, rc := 0xFFFF }]
  | .tier => [{ off := 0x40, rws := 0xFFFF, reset := 10 }, { off := 0x44, rws := 0xFFFF, reset := 32 },
      { off := 0x48, rws := 0xFFFF, reset := 4 }, { off := 0x4C, rws := 0xFFFF, reset := 30 }]
  | .hpwr => [ro1 0x40, { off := 0x44, rc := 0xFFFF }]
  | .memret => wideSpec 0x40 3 fun k => { off := 0, rw := if k = 0 then 0xFFFF else if k = 1 then 0xF003 else 0x00FF, oper := true }
  | .inj => wideSpec 0x40 3 fun k => { off := 0, rw := if k = 2 then 0x07FF else 0xFFFF, oper := true }
  | .sluice => (List.range 32).flatMap fun i =>
      [{ off := 0x40 + 8 * i, rws := 0xFFFF, reset := 0xFFFF }, { off := 0x44 + 8 * i, rws := 0xFFFF }]
  | .rake => roWide 0x40 2
  | .scrub => { off := 0x40, rws := 0x03FF, reset := 10 } :: roWide 0x44 2
  | .repair => [ro1 0x40, ro1 0x44]
  | .fpwr => [{ off := 0x40, rws := 0xFFFF, reset := 20 }, { off := 0x44, rws := 0xFFFF, reset := 48 },
      { off := 0x48, rc := 0xFFFF }]
  | .fperf => roWide 0x40 4 ++ roWide 0x50 4 ++ roWide 0x60 4
  | .arr => (wideSpec 0x40 2 fun k => { off := 0, rw := if k = 1 then 0x3F else 0xFFFF, oper := true }) ++
      [{ off := 0x48, rw := 7, oper := true }, { off := 0x4C, rw := 0xFFFF, oper := true },
       { off := 0x50, rw := 0xFFFF, oper := true }] ++ roList 0x60 5 ++ roList 0x80 5 ++ [ro1 0xA0, ro1 0xA4]
  | .casc => [{ off := 0x40, rc := 0xFFFF }]
  | .hce => [ro1 0x40]
  | .pkg => [ro1 0x40, ro1 0x44, ro1 0x48, ro1 0x4C] ++ roWide 0x50 4 ++ roWide 0x60 2
  | .tally => [{ off := 0x40, rws := 0xFFFF, reset := 200 }] ++ roList 0x44 6 ++ [{ off := 0x5C, rw := 0x3F, oper := true }] ++
      roWide 0x60 4 ++ roWide 0x70 4 ++ (wideSpec 0x80 2 fun _ => { off := 0, rc := 0xFFFF })
  | .cost => { off := 0x40, rw := 0x079F, oper := true } :: (roWide 0x44 2 ++ roWide 0x4C 2 ++ [ro1 0x54])
  | .seats => [{ off := 0x40, rws := 0xFFFF, reset := 300 }, { off := 0x44, rws := 0xFFFF, reset := 30 },
      { off := 0x48, rws := 0xFFFF, reset := 2 }, { off := 0x4C, rws := 1 }] ++ roList 0x50 4 ++ roList 0x60 4
  | .cap => roWide 0x40 2 ++ roWide 0x48 2 ++ roWide 0x50 2 ++ roWide 0x58 2 ++
      (wideSpec 0x60 2 fun _ => { off := 0, rws := 0xFFFF }) ++ (wideSpec 0x68 2 fun _ => { off := 0, rws := 0xFFFF })
  | .keys => roList 0x40 16
  | .time => roWide 0x40 4 ++ roWide 0x50 4 ++ (wideSpec 0x60 3 fun _ => { off := 0, rw := 0xFFFF, oper := true })
  | .ledger => { off := 0x40, rw := 0xFFFF, oper := true } :: (roWide 0x44 4 ++ roWide 0x54 4)
  | .log => roWide 0x40 3 ++ roWide 0x50 3 ++ [ro1 0x60] ++
      (wideSpec 0x70 3 fun _ => { off := 0, rw := 0xFFFF, oper := true }) ++ roList 0x80 32
  | .harvest => { off := 0x40, rw := 1, oper := true } ::
      ((wideSpec 0x44 2 fun k => { off := 0, rw := if k = 0 then 0xFFC0 else 0x0FFF, oper := true }) ++ [ro1 0x4C] ++
       roList 0x80 32)
  | .watripo => [{ off := 0x40, rw := 0x803F }, { off := 0x44, rw := 0x03FF }]
  | .mgmt => [ro1 0x40, ro1 0x44, ro1 0x48] ++ dpaSpec 0x50 true ++ [{ off := 0x60, wo := 1 }]
  | .ring => [{ off := 0x40, rw := 0x1F1F }, ro1 0x44, ro1 0x48] ++ dpaSpec 0x50 false ++ dpaSpec 0x60 false ++
      dpaSpec 0x70 false
  | _ => []

/-- Every register of a page below 0x400. -/
def regSpecs (ty : PageTy) : List RegSpec := headerSpecs ty ++ blockSpecs ty

/-- A guarded register: offset, RWG bits, RWS bits (Tables 10.15 to 10.19). -/
structure GuardSpec where
  off : Nat
  rwg : Word
  rws : Word := 0
deriving DecidableEq, Repr

/-- The guarded registers of a page. -/
def guardSpecs : PageTy → List GuardSpec
  | .pkg => [⟨0x800, 3, 0x10⟩, ⟨0x804, 1, 0⟩, ⟨0x808, 0x0301, 0⟩]
  | .seats => [⟨0x800, 0x3F, 0⟩]
  | .keys => [⟨0x800, 0x80FF, 0⟩]
  | .hport => [⟨0x800, 3, 0⟩, ⟨0x804, 1, 0⟩]
  | .ddr => [⟨0x800, 3, 0⟩]
  | .hpwr => [⟨0x800, 7, 0⟩]
  | .memret => [⟨0x800, 1, 0⟩]
  | .inj => [⟨0x800, 0xFFFF, 0⟩]
  | .mram => [⟨0x800, 0x8003, 0⟩]
  | .repair => [⟨0x800, 0xC3FF, 0⟩]
  | .arr => [⟨0x800, 3, 0⟩, ⟨0x804, 0x81FF, 0⟩]
  | .frond => [⟨0x800, 1, 0⟩]
  | .ledger => [⟨0x800, 1, 0⟩]
  | .harvest => [⟨0x800, 1, 0⟩, ⟨0x804, 1, 0⟩]
  | _ => []

/-- The register of a page at an offset below 0x400. -/
def specAt (ty : PageTy) (off : Nat) : Option RegSpec := (regSpecs ty).find? (·.off == off)

/-- The guarded register of a page at an offset. -/
def guardAt (ty : PageTy) (off : Nat) : Option GuardSpec := (guardSpecs ty).find? (·.off == off)

/-- The reset value of the register at an address. -/
def resetOf (a : Nat) : Word :=
  match pageAt a with
  | some p => ((specAt p.ty (a % 4096)).map (·.reset)).getD 0
  | none => 0

/-- The active value of a stored register. -/
def reg (s : State) (a : Nat) : Word :=
  match mget s.regs.file a with
  | some v => v
  | none => resetOf a

/-- The staged half of a register: what was last staged, or the active value (R387). -/
def stagedReg (s : State) (a : Nat) : Word := (mget s.regs.staged a).getD (reg s a)

/-- Store a staged half. -/
def setStaged (s : State) (a : Nat) (v : Word) : State :=
  { s with regs := { s.regs with staged := mput s.regs.staged a v } }

/-- A value over words at consecutive registers. -/
def regWide (s : State) (a words : Nat) : Nat :=
  (List.range words).foldl (fun v k => v + (reg s (a + 4 * k)).toNat * 2 ^ (16 * k)) 0

/-- The staged value over words at consecutive registers. -/
def stagedWide (s : State) (a words : Nat) : Nat :=
  (List.range words).foldl (fun v k => v + (stagedReg s (a + 4 * k)).toNat * 2 ^ (16 * k)) 0

/-- Store a value over words at consecutive registers. -/
def setRegWide (s : State) (a words v : Nat) : State :=
  (List.range words).foldl (fun s k => setReg s (a + 4 * k) (BitVec.ofNat 16 (v / 2 ^ (16 * k)))) s

/-- Bits hi to lo of a word. -/
def bits (v : Word) (hi lo : Nat) : Nat := v.toNat / 2 ^ lo % 2 ^ (hi + 1 - lo)

/-- Data of a masked write: mask in bits [31:16], data in bits [15:0] (R378). -/
def maskedWrite (w : Word32) (writable old : Word) : Word :=
  let m := (w >>> 16).setWidth 16 &&& writable
  (old &&& ~~~m) ||| (w.setWidth 16 &&& m)

/-- The mask of a write. -/
def maskOf (w : Word32) : Word := (w >>> 16).setWidth 16

/-- The data of a write. -/
def dataOf (w : Word32) : Word := w.setWidth 16

/-! Named settings -/

/-- SLUICE.TAG_DATA and TAG_MASK addresses of a logical pan (R403). -/
def tagAddr (die pan : Nat) : Nat := diePage die (0x10 + pan / 32) + 0x40 + 8 * (pan % 32)

/-- A pan's active sluice tag: data and mask words, with any injected flip (R60, R291). -/
def tagOf (s : State) (die pan : Nat) : Word × Word :=
  let f := (frond s die).arr.tagFlip
  let a := tagAddr die pan
  (reg s a ^^^ (mget f (2 * pan)).getD 0, reg s (a + 4) ^^^ (mget f (2 * pan + 1)).getD 0)

/-- FPWR.CTL of a frond (Table 9.6). -/
def fpwrCtl (s : State) (die : Nat) : Word := reg s (diePage die 0x23 + 8)

/-- TIER registers of a hub (Table 10.18). -/
def tierReg (s : State) (hub off : Nat) : Nat := (reg s (diePage hub 0x12 + off)).toNat

/-- TALLY.CTL. -/
def tallyCtl (s : State) : Word := reg s (globalPage 1 + 8)

end Sys2Proof.Machine
end

