-- ==== Sys2Proof/Machine/Energy.lean ====
section
/-!
DEFINITION. The cost book and the charging of work (R342, R345 to R347). Energies are pJ; 1 nJ is 1,000 pJ.
-/
namespace Sys2Proof.Machine

/-- Core voltage of a frond level, mV (Table 9.4). -/
def frondMv (l : Nat) : Nat := 800 - 50 * l

/-- Core voltage of a hub level, mV (Table 9.5). -/
def hubMv (l : Nat) : Nat := 850 - 50 * l

/-- Search clock of a frond level, MHz (Table 9.4). -/
def frondMhz (l : Nat) : Nat := if l = 0 then 1500 else if l = 1 then 1250 else 1000 - 250 * (l - 2)

/-- Quotient rounded to nearest. -/
def divRound (a b : Nat) : Nat := (2 * a + b) / (2 * b)

/-- Default operation charges at P0 and H0, pJ, in the row order of Table 9.3. -/
def opDefaults : List Nat := [400, 110, 50, 200, 60, 4800, 10, 300, 300, 1600, 250, 500, 30000, 18000]

/-- Entry numbers of the operations (Table 9.3). -/
def opDispatch : Nat := 0
def opLit : Nat := 1
def opNear : Nat := 2
def opRowWrite : Nat := 3
def opValidate : Nat := 4
def opWake : Nat := 5
def opScrub : Nat := 6
def opCount : Nat := 7
def opHot : Nat := 8
def opDram : Nat := 9
def opCross : Nat := 10
def opAtomic : Nat := 11
def opCompress : Nat := 12
def opDecompress : Nat := 13

/-- Frond operations are entries 1 to 7 (Table 9.3). -/
def frondEntry (e : Nat) : Bool := 1 ≤ e && e ≤ 7

/-- Default of an operation entry at a level: a frond's scales with the square of the level's voltage (R342), to the
nearest pJ (log 14). -/
def opDefault (e level : Nat) : Nat :=
  let d := opDefaults.getD e 0
  if frondEntry e then divRound (d * frondMv level ^ 2) (800 ^ 2) else d

/-- Standing charges per epoch, pJ: 0 frond in D0 at a level, 1 Doze, 2 Moss, 3 Spore, 4 pan Idle, 5 pan in Retention
(Tables 9.4, 9.7, 9.8; Doze below P0 is not stated, log 15), 6 hub in D0 at a level, 7 hub in Doze, 8 a hub's links, DDR, rhizoid and always-on part
(Table 1.8; log 15). -/
def standingDefault (e level : Nat) : Nat :=
  match e with
  | 0 => [395, 300, 220, 160, 110, 70].getD level 70 * 1000000
  | 1 => if level = 0 then 35200000 else (freeDoze level).toNat
  | 2 => 90000000
  | 4 => 400000
  | 5 => 40000
  | 6 => divRound (2305000000 * hubMv level ^ 2) (850 ^ 2)
  | 7 => 630000000
  | 8 => 4150000000
  | _ => 0

/-- COST.SEL value of an entry (Table 10.19): level in [10:8], standing in [7], entry in [4:0]; hub operations are held
once. -/
def costSel (standing : Bool) (e level : Nat) : Nat :=
  (if standing || frondEntry e then 256 * level else 0) + (if standing then 128 else 0) + e

/-- Default of the entry a COST.SEL value names, pJ. -/
def costDefault (sel : Nat) : Nat :=
  if sel / 128 % 2 = 1 then standingDefault (sel % 32) (sel / 256 % 8) else opDefault (sel % 32) (sel / 256 % 8)

/-- The charge of the entry a COST.SEL value names, pJ. -/
def costValue (s : State) (sel : Nat) : Nat := (mget s.tally.book sel).getD (costDefault sel)

/-- The charge of an operation at a level. -/
def opCost (s : State) (e level : Nat) : Nat := costValue s (costSel false e level)

/-- The standing charge of a block state at a level. -/
def standing (s : State) (e level : Nat) : Nat := costValue s (costSel true e level)

/-- The rails of a class of entries: hub core 2 and 3, SRAM 4 and 5, frond core 6 to 11, DDR VDDQ 14 and 15, SerDes 12 and
13 (Tables 9.3, 13.5). -/
def entryRails (sel : Nat) : List Nat :=
  let e := sel % 32
  if sel / 128 % 2 = 1 then (if e < 6 then [6, 7, 8, 9, 10, 11] else if e < 8 then [2, 3] else [12, 13])
  else if frondEntry e then [6, 7, 8, 9, 10, 11] else if e = 8 then [4, 5] else if e = 9 then [14, 15] else [2, 3]

/-- Every COST.SEL value that names an entry. -/
def allSels : List Nat :=
  (List.range 14).flatMap (fun e => if frondEntry e then (List.range 6).map (costSel false e) else [costSel false e 0]) ++
  (List.range 6).map (costSel true 0) ++ (List.range 6).map (costSel true 1) ++ [costSel true 2 0, costSel true 3 0, costSel true 4 0,
    costSel true 5 0] ++ (List.range 4).map (costSel true 6) ++ [costSel true 7 0, costSel true 8 0]

/-- Core rail of a die. -/
def coreRail (die : Nat) : Nat := if die < 2 then 2 + die else 4 + die

/-- Change the tally. -/
def modTally (s : State) (f : Tally → Tally) : State := { s with tally := f s.tally }

/-- Book an operation's charge to a rail (R343). -/
def bookOp (s : State) (rail pj : Nat) : State :=
  modTally s fun t =>
    let (o, st) := (mget t.booked rail).getD (0, 0)
    { t with booked := mput t.booked rail (o + pj, st) }

/-- Charge a seat's total (Table 9.13). -/
def chargeSeat (s : State) (seat pj : Nat) : State := modSeat s seat fun x => { x with spentTotal := x.spentTotal + pj }

/-- Charge background work: to no seat (R345). -/
def chargeBg (s : State) (pj : Nat) : State := modTally s fun t => { t with bg := t.bg + pj }

/-- An operation of a frond charged to a seat, or to the background: the charge and the state. -/
def frondOp (s : State) (die e n : Nat) (seat : Option Nat) : State :=
  let c := n * opCost s e (frond s die).level
  let s := bookOp s (coreRail die) c
  match seat with
  | some k => chargeSeat s k c
  | none => chargeBg s c

/-- Count a refused submission (TALLY.REFUSED). -/
def countRefused (s : State) : State := modTally s fun t => { t with refused := t.refused + 1 }

/-- Near-data speculation and prefetch turn off for every seat that has spent seven-eighths of its guarantee while less than
one-eighth of the pool is left (R348). -/
def specMark (s : State) : State :=
  if 8 * s.tally.qLeft < s.tally.q then
    { s with seats := s.seats.map fun e => (e.1, if 7 * e.2.g ≤ 8 * e.2.spent then { e.2 with specOff := true } else e.2) }
  else s

/-- The admission test of R347: against the guarantee, then the pool; none is OVER_BUDGET. The flag says that the guarantee
was charged; a guarantee that has been lent is spent from the pool (R346). -/
def admitWork (s : State) (seat c : Nat) : Option (State × Bool) :=
  match mget s.seats seat with
  | none => none
  | some x =>
    if !s.tally.lent && x.spent + c ≤ x.g then
      some (specMark (modSeat s seat fun x => { x with spent := x.spent + c }), true)
    else if c ≤ s.tally.qLeft then
      some (specMark (modTally s fun t => { t with qLeft := t.qLeft - c, qSpent := t.qSpent + c }), false)
    else none

/-- Settle the difference between the actual charge and the predicted cost against the amount it was charged to; an
overdraw of the pool falls to the next epoch (R347). The actual charge is the seat's. -/
def settle (s : State) (seat c actual : Nat) (fromG : Bool) : State :=
  let s := chargeSeat s seat actual
  specMark (if fromG then modSeat s seat fun x => { x with spent := x.spent + actual - c }
  else modTally s fun t =>
    if actual ≤ c then { t with qLeft := t.qLeft + (c - actual), qSpent := t.qSpent - (c - actual) }
    else
      let more := actual - c
      { t with qLeft := t.qLeft - more, qSpent := t.qSpent + more, overdraw := t.overdraw + (more - t.qLeft) })

/-- Admit foreground work of a known cost, as a command is (R166): charged at once. -/
def admitKnown (s : State) (seat c : Nat) : Option State :=
  match admitWork s seat c with
  | some (s, g) => some (settle s seat c c g)
  | none => none

end Sys2Proof.Machine
end

