-- ==== Sys2Proof/Machine/Memory.lean ====
section
/-!
DEFINITION. Device memory: bytes, extents and rights, poison, keys, pages and capacity, and the back-invalidates that a device
need waits for (R198 to R235, R250, R281).
-/
namespace Sys2Proof.Machine

/-! Bytes -/

/-- Change device memory. -/
def modMem (s : State) (f : Mem → Mem) : State := { s with mem := f s.mem }

/-- Memory is in its canonical form: addresses strictly rising from lo on, and no byte equal to 0, which an unlisted
address reads as. -/
def wfFrom (lo : Nat) : List Host.Cell → Bool
  | [] => true
  | (a, b) :: t => decide (lo ≤ a) && b != 0 && wfFrom (a + 1) t

/-- The canonical form of memory. -/
def Memory.wf (m : List Host.Cell) : Bool := wfFrom 0 m

/-- The byte at an address: unlisted addresses read 0 (log 6). -/
def readMem (m : List Host.Cell) (a : Nat) : BitVec 8 := (mget m a).getD 0

/-- Store a byte: storing 0 removes the entry, so that the form stays canonical. -/
def writeMem (m : List Host.Cell) (a : Nat) (b : BitVec 8) : List Host.Cell := if b = 0 then mdel m a else mput m a b

/-- A little-endian number of n bytes. -/
def readNat (s : State) (a : Nat) : Nat → Nat
  | 0 => 0
  | n + 1 => (readMem s.mem.bytes a).toNat + 256 * readNat s (a + 1) n

/-- Store n bytes of a little-endian number. -/
def writeNatMem (m : List Host.Cell) (a v : Nat) : Nat → List Host.Cell
  | 0 => m
  | n + 1 => writeNatMem (writeMem m a (BitVec.ofNat 8 v)) (a + 1) (v / 256) n

/-- Store the bytes of a line whose enables are set. -/
def writeLineMem (m : List Host.Cell) (a v be : Nat) : Nat → List Host.Cell
  | 0 => m
  | n + 1 => writeLineMem (if be % 2 = 1 then writeMem m a (BitVec.ofNat 8 v) else m) (a + 1) (v / 256) (be / 2) n

/-- The line of an address. -/
def lineOf (a : Nat) : Nat := a / 64

/-- The 4 KiB page of a line. -/
def pageOfLine (line : Nat) : Nat := line / 64

/-! Rings in memory -/

/-- RING.CTL.EN. -/
def ringEn (s : State) (n : Nat) : Bool := (reg s (ringPage n + 8)).getLsbD 0

/-- A base register of a ring: 0x50 submission ring, 0x60 completion ring, 0x70 doorbell line (R402). -/
def ringBase (s : State) (n off : Nat) : Nat := regWide s (ringPage n + off) 4

/-- SQ_LOG2 and CQ_LOG2 (Table 3.2). -/
def sqLog (s : State) (n : Nat) : Nat := bits (reg s (ringPage n + 0x40)) 4 0
def cqLog (s : State) (n : Nat) : Nat := bits (reg s (ringPage n + 0x40)) 12 8

/-- The three regions of a ring: address and size (R97). -/
def ringRegions (s : State) (n : Nat) : List (Nat × Nat) :=
  [(ringBase s n 0x50, 32 * 2 ^ sqLog s n), (ringBase s n 0x60, 16 * 2 ^ cqLog s n), (ringBase s n 0x70, 64)]

/-- Two regions overlap. -/
def overlap (a b : Nat × Nat) : Bool := decide (a.1 < b.1 + b.2) && decide (b.1 < a.1 + a.2)

/-- The completion ring that entries are written into: base and CQ_LOG2. Submissions fetched before EN was cleared complete into the
ring as it stood then, whatever is written to CQ_BASE and DEPTH meanwhile (R100, R114; DESIGN CHOICE, log 26). -/
def compRing (s : State) (n : Nat) : Nat × Nat :=
  ((mget s.rings n).bind fun r => r.old).getD (ringBase s n 0x60, cqLog s n)

/-- The regions a ring uses: all three while it is enabled, and the completion ring that submissions fetched before EN was cleared
still complete into (R100). -/
def ringUses (s : State) (r : Nat × Ring) : List (Nat × Nat) :=
  (if ringEn s r.1 then ringRegions s r.1 else []) ++
    match r.2.old with
    | some g => if r.2.subs.isEmpty && r.2.owed.isEmpty then [] else [(g.1, 16 * 2 ^ g.2)]
    | none => []

/-- A region overlaps a ring or doorbell line of a ring that uses its memory. -/
def overlapsRing (s : State) (a n : Nat) : Bool := s.rings.any fun r => (ringUses s r).any (overlap (a, n))

/-- The enabled ring whose doorbell line this is (R109). -/
def doorbellAt (s : State) (line : Nat) : Option Nat :=
  (s.rings.find? fun r => ringEn s r.1 && ringBase s r.1 0x70 / 64 == line).map (·.1)

/-! Extents (R200 to R203) -/

/-- The extent that covers a DPA. -/
def extentAt (s : State) (a : Nat) : Option Extent := mget s.extents (a / 2 ^ 28)

/-- A seat's accepted part of the extent that covers a DPA. -/
def extSeat (s : State) (seat a : Nat) : Option (Extent × ExtSeat) :=
  (extentAt s a).bind fun e => (e.seats.find? fun x => x.seat == seat && x.accepted).map fun x => (e, x)

/-- A seat reaches a DPA: with the read-write right where asked, in an HDM-DB extent where asked. -/
def reaches (s : State) (seat a : Nat) (rw db : Bool) : Bool :=
  match extSeat s seat a with
  | some (e, x) => (x.rw || !rw) && (e.db || !db)
  | none => false

/-- A seat reaches every byte of a region with HDM-DB coherence (R202). -/
def regionOk (s : State) (seat a n : Nat) (rw : Bool) : Bool :=
  decide (a + n ≤ 2 ^ 43) && (List.range ((a + n - 1) / 2 ^ 28 + 1 - a / 2 ^ 28)).all fun k =>
    reaches s seat ((a / 2 ^ 28 + k) * 2 ^ 28) rw true

/-! Poison (R281) -/

/-- The line is poisoned at a home. -/
def poisonedAt (s : State) (line hub : Nat) : Bool := mhas s.mem.poison (hkey line hub)

/-- Poison a line at a home; a mark of injection stays. -/
def setPoison (s : State) (line hub : Nat) : State :=
  modMem s fun m => { m with poison := mput m.poison (hkey line hub) ((mget m.poison (hkey line hub)).getD false) }

/-- The INJECTED flag of an event about a poisoned line, where an injection poisoned it (R292). -/
def poisonFlag (s : State) (line hub : Nat) : Nat :=
  if (mget s.mem.poison (hkey line hub)).getD false then flagInjected else 0

/-- Clear a line's poison at its homes. -/
def clearPoison (s : State) (line : Nat) : State :=
  (homes s line).foldl (fun s h => modMem s fun m => { m with poison := mdel m.poison (hkey line h) }) s

/-- Poison a line at every home. -/
def setPoisonAll (s : State) (line : Nat) : State := (homes s line).foldl (fun s h => setPoison s line h) s

/-! Keys (R225 to R230) -/

/-- The key slot of the extent at a DPA is named and no longer loaded. -/
def keyAbsent (s : State) (a : Nat) : Bool :=
  match (extentAt s a).bind (·.key) with
  | some k => !mhas s.keys k
  | none => false

/-- The line is poisoned as the device reads it; an absent key makes it so (R230). -/
def devPoison (s : State) (line : Nat) : Bool := poisonedAt s line (devHub s line) || keyAbsent s (64 * line)

/-- Some line of a region is poisoned. -/
def regionPoison (s : State) (a n : Nat) : Bool :=
  (List.range ((a + n + 63) / 64 - a / 64)).any fun k => devPoison s (a / 64 + k)

/-- The key an encrypted DPA is written under. -/
def keyOf (s : State) (a : Nat) : Option (BitVec 512) :=
  ((extentAt s a).bind (·.key)).bind fun k => (mget s.keys k).map (·.key)

/-- Raise KEY_ABSENT once for the extent (R230). -/
def raiseKeyAbsent (s : State) (a : Nat) : State :=
  match extentAt s a with
  | some e =>
    if e.keyLost then s
    else
      let s := { s with extents := mput s.extents (a / 2 ^ 28) { e with keyLost := true } }
      event s 0x3008 1 0xFF 0xFF [(1, e.key.getD 0), (8, a / 2 ^ 28 * 2 ^ 28)] (.dpa a)
  | none => s

/-! Pages and capacity (R212 to R224) -/

/-- A page nobody has touched. -/
def pageReset : Page :=
  { st := .zero, hot := false, count := 0, reads := 0, last := 0, move := none, cold := false, retryTb := 0 }

/-- The page-map entry of a page at a hub. -/
def pageAtHub (s : State) (page hub : Nat) : Page := (mget s.mem.pages (hkey page hub)).getD pageReset

/-- Store a page-map entry. -/
def setPage (s : State) (page hub : Nat) (p : Page) : State :=
  modMem s fun m => { m with pages := mput m.pages (hkey page hub) p }

/-- Media of a page in eighths of 4 KiB (R218, R220). -/
def mediaOf (p : Page) : Nat :=
  match p.st with
  | .zero => 0
  | .plain => 8
  | .packed c => c

/-- Media held by a hub's pages, in eighths. -/
def consumedHub (s : State) (hub : Nat) : Nat :=
  (s.mem.pages.filter fun e => e.1 % 2 == hub).foldl (fun n e => n + mediaOf e.2) 0

/-- P that a hub's pages draw on, in 4 KiB pages: both hubs' in whole mode, the half's own in pair mode (R210, R211). -/
def capPAt (s : State) (hub : Nat) : Nat :=
  if inPair s then s.mem.phys.getD hub 0 else s.mem.phys.foldl (· + ·) 0

/-- U that stands against it, in eighths of a page (R211, R220). -/
def capU8At (s : State) (hub : Nat) : Nat :=
  if inPair s then consumedHub s hub else consumedHub s 0 + consumedHub s 1

/-- F that a hub's pages draw on, in pages (R211, Table 5.6). -/
def capFAt (s : State) (hub : Nat) : Nat := capPAt s hub - (capU8At s hub + 7) / 8

/-- No media is left for a need of so many eighths of a page (R224). -/
def mediaShort (s : State) (hub need : Nat) : Bool := need != 0 && decide (8 * capPAt s hub < capU8At s hub + need)

/-- P as the CAP page reports it; in pair mode that of the primary half, of which there is one (R210; log 27). -/
def capP (s : State) : Nat := capPAt s (primary s)

/-- U in eighths of a page (R220). -/
def capU8 (s : State) : Nat := capU8At s (primary s)

/-- U in pages. -/
def capU (s : State) : Nat := (capU8 s + 7) / 8

/-- F in pages (Table 5.6). -/
def capF (s : State) : Nat := capP s - capU s

/-- C in pages (Table 5.6). -/
def capC (s : State) : Nat := 65536 * s.extents.length

/-- W and E in pages (Table 5.6). -/
def capW (s : State) : Nat := regWide s (globalPage 5 + 0x60) 2
def capE (s : State) : Nat := regWide s (globalPage 5 + 0x68) 2

/-- CAP.CTL.RATIO, in sixteenths. -/
def capRatio (s : State) : Nat := bits (reg s (globalPage 5 + 8)) 5 1

/-- Raise CAP_LOW and CAP_CRITICAL once per crossing (R222). -/
def capEvents (s : State) : State :=
  let f := capF s
  let low := f ≤ capW s
  let crit := f ≤ capE s
  let s1 := if low && !s.mem.low then
    event s 0x3005 1 0xFF 0xFF [(4, sat f 32), (4, sat (capW s) 32)] .steward else s
  let s2 := if crit && !s.mem.critical then
    event s1 0x3006 2 0xFF 0xFF [(4, sat f 32), (4, sat (capE s) 32)] .steward else s1
  modMem s2 fun m => { m with low := low, critical := crit }

/-- Count an access of a page: the 8-bit saturating count, and the moves its thresholds start (R214). -/
def countAccess (s : State) (page hub : Nat) (read : Bool) : State :=
  let p := pageAtHub s page hub
  let ctl := reg s (diePage hub 0x12 + 8)
  let c := if p.count = 255 then p.count else p.count + 1
  let r := if read then p.reads + 1 else p.reads
  let packed := match p.st with | .packed _ => true | _ => false
  let mv : Option MoveKind :=
    if p.move.isSome then p.move
    else if !ctl.getLsbD 0 then none
    else if packed && tierReg s hub 0x48 ≤ r then some .unpack
    else if ctl.getLsbD 1 && !p.hot && p.st != .zero && tierReg s hub 0x44 ≤ c.toNat then some .promote
    else none
  setPage s page hub { p with count := c, reads := r, last := s.clock.tb, cold := false, move := mv }

/-- The seats of the extent that covers a line. -/
def extentSeatsAt (s : State) (line : Nat) : List Nat := ((extentAt s (64 * line)).map fun x => x.seats.map (·.seat)).getD []

/-- The seats a filter entry names: those named, or every seat of the extent (R248) but those that have left it (R191, R251). -/
def holders (s : State) (line hub : Nat) : List Nat :=
  match mget s.coh.filt (hkey line hub) with
  | some e => if e.all then (extentSeatsAt s line).filter fun n => !e.left.contains n else e.seats
  | none => []

/-- A filter entry's line is held in A. -/
def heldA (s : State) (line hub : Nat) : Bool := ((mget s.coh.filt (hkey line hub)).map (·.a)).getD false

/-- A seat's host can be asked: it is attached and its link is up (R137, R191). -/
def seatUp (s : State) (n : Nat) : Bool := ((seatPlace s n).map (placeUp s)).getD false

/-- The possible holders of a line that a back-invalidate reaches. -/
def liveHolders (s : State) (line hub : Nat) : List Nat := (holders s line hub).filter (seatUp s)

/-- The line stands in the hot tier: its page is hot, and no host holds the line in A (R213, R242). -/
def hotHere (s : State) (line hub : Nat) : Bool := (pageAtHub s (pageOfLine line) hub).hot && !heldA s line hub

/-- A prefetched line whose mark is cleared: an ordinary hot-tier line of its home (R89). -/
def keptSpec (s : State) (line hub : Nat) : Bool := mget s.coh.spec line == some none && devHub s line == hub

/-- The package holds the line as plaintext above its media: in a cache, a buffer or the hot tier (R226). -/
def onPackage (s : State) (line hub : Nat) : Bool :=
  hotHere s line hub || keptSpec s line hub || s.coh.copies.any (fun e => e.1 / 32 == hkey line hub) || mhas s.coh.buf (hkey line hub) ||
    s.coh.wb.contains (hkey line hub)

/-- The line as its home reads it: lines written under another key than the slot now holds decrypt to what XTS gives
(R225); what the package holds is plaintext (R226). -/
def lineAt (s : State) (line hub : Nat) : Line :=
  let v : Line := BitVec.ofNat 512 (readNat s (64 * line) 64)
  let p := pageAtHub s (pageOfLine line) hub
  match keyOf s (64 * line), mget s.mem.encBy (hkey line hub) with
  | some k2, some k1 =>
    if k1 = k2 || onPackage s line hub then v
    else match p.st with
      | .zero => v
      | .plain => rekey k1 k2 (64 * line) v
      | .packed _ => freePacked line
  | _, _ => v

/-- A line written under another key is written anew under the key its slot now holds: what the device reads it as becomes its
content (R225; one content for both homes, log 7). -/
def rekeyLine (s : State) (line hub : Nat) : State :=
  match keyOf s (64 * line), mget s.mem.encBy (hkey line hub) with
  | some k, some k1 =>
    if k1 = k then s
    else
      let v := lineAt s line (devHub s line)
      modMem s fun m => { m with
        bytes := writeLineMem m.bytes (64 * line) v.toNat (2 ^ 64 - 1) 64
        encBy := (hub :: devHub s line :: homes s line).foldl (fun e h => mput e (hkey line h) k) m.encBy }
  | _, _ => s

/-- A page is written anew under the key its slot now holds (R216, R219). -/
def rewriteKeys (s : State) (page hub : Nat) : State :=
  (List.range 64).foldl (fun s i => rekeyLine s (64 * page + i) hub) s

/-- The page becomes PLAIN for a write: its other lines are zero, stored under its key (R219); a compression under way is
discarded (R216). -/
def makePlain (s : State) (page hub : Nat) : State :=
  let p := pageAtHub s page hub
  let s := match keyOf s (page * 4096), p.st with
    | some k, .zero => modMem s fun m =>
        { m with encBy := (List.range 64).foldl (fun e i => mput e (hkey (64 * page + i) hub) k) m.encBy }
    | some _, .packed _ => rewriteKeys s page hub
    | _, _ => s
  setPage s page hub { p with st := .plain, move := if p.move = some .compress || p.move = some .unpack then none else p.move }

/-- The write of a line changes its page's state: a whole line of zeros leaves a ZERO page ZERO (R219). -/
def pageWrite (s : State) (line hub : Nat) (zeros : Bool) : State :=
  let page := pageOfLine line
  let p := pageAtHub s page hub
  match p.st with
  | .zero => if zeros then s else makePlain s page hub
  | .plain => if p.move = some .compress then setPage s page hub { p with move := none } else s
  | .packed _ => makePlain s page hub

/-- A line is written under the key its slot holds; what a partial write leaves was read first (R225). -/
def markKey (s : State) (line hub : Nat) : State :=
  match keyOf s (line * 64) with
  | some k => modMem (rekeyLine s line hub) fun m => { m with encBy := mput m.encBy (hkey line hub) k }
  | none => s

/-- A line's armed error takes effect at the next write of its media; a written line carries no earlier error (R283, R291). -/
def writeDamage (s : State) (line hub : Nat) : State :=
  match mget s.mem.damage (hkey line hub) with
  | some e => modMem s fun m => { m with
      damage := if e.armed = 0 then mdel m.damage (hkey line hub)
        else mput m.damage (hkey line hub) { armed := 0, present := e.armed, lost := false } }
  | none => s

/-- Store the bytes of a line at its homes: page state and key; copies in the speculation area are dropped (R254). -/
def storeBytes (s : State) (line v be : Nat) : State :=
  let full := be % 2 ^ 64 = 2 ^ 64 - 1
  let zeros := full && v % 2 ^ 512 = 0
  let s := (homes s line).foldl (fun s h => markKey (pageWrite s line h zeros) line h) s
  let s := modMem s fun m => { m with bytes := writeLineMem m.bytes (64 * line) v be 64 }
  { s with coh := { s.coh with spec := mdel s.coh.spec line } }

/-! Hosts and back-invalidates (R248 to R251) -/

/-- Change coherence. -/
def modCoh (s : State) (f : Coh → Coh) : State := { s with coh := f s.coh }

/-- Send back-invalidates to the given seats and open the transaction that waits for them (R250, R251, R258). -/
def openTxn (s : State) (line hub : Nat) (req : CohReq) (wait : List Nat) (data : Bool) : State :=
  let s := modCoh s fun c => { c with
    txns := mput c.txns (hkey line hub)
      { req := req, cmds := [], ready := false, wait := wait, sent := nowNs s, queue := [], data := data, fed := false,
        dirty := false, mirror := false, lock := false } }
  wait.foldl (fun s n => send s (.biSnp n line data)) s

/-- The way of a line's entry in its set: the entries of the set that stand before it. -/
def entryWay {α : Type} (m : SMap α) (line hub : Nat) (same : Nat → Bool) : Nat :=
  (m.filter fun x => x.1 % 2 == hub && decide (x.1 < hkey line hub) && same (x.1 / 2)).length

/-- A snoop-filter entry that fails its check names every seat with access to the line's extent: they are back-invalidated, the
entry is rebuilt empty as they answer, and COH_ENTRY_CHECK is raised (R263). -/
def filtCheck (s : State) (line hub : Nat) : State :=
  match mget s.coh.filt (hkey line hub) with
  | some e =>
    if mhas s.coh.txns (hkey line hub) then s
    else
      let way := entryWay s.coh.filt line hub fun l => filtSet l == filtSet line
      let s := raiseFull s 0x4004 1 hub 0xFF 0 0 [(1, 1), (4, (filtSet line).toNat), (1, way)] .steward
      let s := modCoh s fun c => { c with filt := mput c.filt (hkey line hub) { e with all := true, left := [], bad := false } }
      match liveHolders s line hub with
      | [] => modCoh s fun c => { c with filt := mdel c.filt (hkey line hub) }
      | w => openTxn s line hub .device w false
  | none => s

/-- The snoop-filter entry of a line fails its check. -/
def filtBad (s : State) (line hub : Nat) : Bool := ((mget s.coh.filt (hkey line hub)).map fun e : FiltEnt => e.bad).getD false

/-- What a device need meets at one home (Table 6.9): the state with the back-invalidates sent, or none where nothing is
held. For a read (sOk) an S copy may stay. An entry that fails its check is rebuilt first (R263). -/
def needAt (s : State) (line hub : Nat) (sOk : Bool) : Option State :=
  if mhas s.coh.txns (hkey line hub) then some s
  else if filtBad s line hub then some (filtCheck s line hub)
  else if mhas s.coh.filt (hkey line hub) && (!sOk || heldA s line hub) then
    match liveHolders s line hub with
    | [] => none
    | w => some (openTxn s line hub .device w sOk)
  else none

/-- A device need of a line at every home: some state where it must wait and be sent again, none where it may go on. -/
def needLine (s : State) (line : Nat) (sOk : Bool) : Option State :=
  (homes s line).foldl (fun r h => match needAt (r.getD s) line h sOk with | some s' => some s' | none => r) none

/-- A device need of every line of a region: nothing is met where no host holds a line and no transaction is open. -/
def needRegion (s : State) (a n : Nat) (sOk : Bool) : Option State :=
  if s.coh.filt.isEmpty && s.coh.txns.isEmpty || n == 0 then none
  else (List.range ((a + n + 63) / 64 - a / 64)).foldl
    (fun r k => match needLine (r.getD s) (a / 64 + k) sOk with | some s' => some s' | none => r) none

/-- Both cross links are down and the line is homed on the hub of the other half: a hub stops serving it (Table 1.7). -/
def homeCut (s : State) (hub line : Nat) : Bool := crossCut s && homeHub s hub line != hub

/-- Set the pages of a region that lie wholly inside it to ZERO, discarding their poison (R99, R205, R207). -/
def zeroPage (s : State) (page : Nat) : State :=
  let hs := if inPair s then [0, 1] else [homeHub s 0 (64 * page)]
  let s := hs.foldl (fun s h => modMem s fun m => { m with
    pages := mdel m.pages (hkey page h)
    poison := m.poison.filter fun e => !(e.1 % 2 == h && e.1 / 128 == page)
    encBy := m.encBy.filter fun e => !(e.1 % 2 == h && e.1 / 128 == page)
    damage := m.damage.filter fun e => !(e.1 % 2 == h && e.1 / 128 == page) }) s
  modMem s fun m => { m with bytes := m.bytes.filter fun e => e.1 / 4096 != page }

/-! HDM decoders (R199, log 11) -/

/-- The DPA a host physical address decodes to through one committed decoder: the interleave bits are taken
out, and the DPA follows the decoder's skip and the decoders before it. -/
def decodeOne (d : HdmSetting) (dpaBase hpa : Nat) : Option Nat :=
  let b := d.base.toNat
  let ways := d.ways.toNat
  let gran := d.gran.toNat
  if b ≤ hpa && hpa < b + d.size.toNat && 0 < gran && 0 < ways then
    let o := hpa - b
    some (dpaBase + d.skip.toNat + o / (gran * ways) * gran + o % gran)
  else none

/-- Walk the decoders in order, accumulating skips and sizes (CXL decoder rules; log 11). -/
def decodeFrom : List Decoder → Nat → Nat → Option Nat
  | [], _, _ => none
  | d :: t, base, hpa =>
    match d.set with
    | none => decodeFrom t base hpa
    | some x =>
      match decodeOne x base hpa with
      | some a => some a
      | none => decodeFrom t (base + x.skip.toNat + x.size.toNat / x.ways.toNat) hpa

/-- The DPA of a host physical address at a logical device. -/
def hpaToDpa (s : State) (p : Place) (hpa : Nat) : Option Nat :=
  (decodeFrom (ld s p).decoders 0 hpa).bind fun a => if a < 2 ^ 43 then some a else none

end Sys2Proof.Machine
end

