-- ==== Sys2Proof/Machine/Capacity.lean ====
section
/-!
DEFINITION. The record of a covenant's breach, and the covenants on memory capacity, which follow every change of F (R222, R326,
R329, R332).
-/
namespace Sys2Proof.Machine

/-! Covenants: the record of a breach (R332) -/

/-- Change a covenant. -/
def modCov (s : State) (id : Nat) (f : Cov → Cov) : State := { s with covs := mmod s.covs id f }

/-- A covenant gives less than its amount: the breach begins, or goes on with a new shortfall and the
reason now in force (R332, R340). -/
def covShort (s : State) (id given shortfall : Nat) (reason : Nat) : State :=
  match mget s.covs id with
  | none => s
  | some c =>
    if c.breach then modCov s id fun c =>
      { c with given := given, worst := max c.worst shortfall, reason := BitVec.ofNat 8 reason, okFrom := none }
    else
      let s := modCov s id fun c =>
        { c with given := given, breach := true, reason := BitVec.ofNat 8 reason, start := nowNs s, worst := shortfall,
                 okFrom := none }
      event s 0x6006 1 0xFF c.seat [(1, id), (1, reason), (4, sat given 32)] (.seat c.seat)

/-- A covenant is given its full amount (R332): a breach has ended once 10 ms pass so. -/
def covFull (s : State) (id given : Nat) : State :=
  modCov s id fun c =>
    { c with given := given, okFrom := if c.breach && c.okFrom.isNone then some (nowNs s) else c.okFrom }

/-- A breach ends: COV_BREACH_END with its start and worst shortfall, and an extra flag (R332, R333). The end time is the first moment of
the 10 ms; a breach that a clear, a replacement or a detach ends ends at that moment. -/
def covEnd (s : State) (id extra : Nat) : State :=
  match mget s.covs id with
  | some c =>
    if c.breach then
      let t := match c.okFrom with
        | some ns => if extra = 0 then tickOf ns else s.clock.tb
        | none => s.clock.tb
      raiseAt (modCov s id fun c => { c with breach := false, okFrom := none }) t 0x6007 0 0xFF c.seat extra 0
        [(1, id), (8, c.start), (4, sat c.worst 32)] (.seat c.seat)
    else s
  | none => s

/-! Memory capacity (R222, R326, R329) -/

/-- A seat holds an extent. -/
def holdsExtent (s : State) (seat : Nat) : Bool :=
  s.extents.any fun e => e.2.seats.any fun x : ExtSeat => x.seat == seat && x.accepted

/-- Seats that hold extents. -/
def extentSeats (s : State) : List Nat := (s.seats.map fun x : Nat × Seat => x.1).filter (holdsExtent s)

/-- Priority of a seat's memory capacity covenant: 0 until the steward sets it (R326). -/
def capPrio (s : State) (seat : Nat) : Nat := ((mget s.covs (192 + seat)).map fun c : Cov => c.prio).getD 0

/-- Number of a seat's group: the priorities present that are lower (R329). -/
def capGroup (s : State) (seat : Nat) : Nat :=
  ((((extentSeats s).map (capPrio s)).filter fun p => p < capPrio s seat).eraseDups).length

/-- A seat's group is breached: F at or below E × (16 − j) ÷ 16 (R329). -/
def capBreached (s : State) (seat : Nat) : Bool :=
  holdsExtent s seat && decide (16 * capF s ≤ capE s * (16 - capGroup s seat))

/-- A memory capacity covenant as it first exists. -/
def capCov (seat : Nat) : Cov :=
  { kind := 1, seat := seat, prio := 0, object := 0, amount := 0, given := 0, breach := false, reason := 0, start := 0,
    worst := 0, lackE := false, lackS := false, okFrom := none, keep := 0 }

/-- Resolve the memory capacity covenants against F (R329); one whose seat holds no extent any more is gone, and its breach ends
(R326, R333). -/
def capResolve (s : State) : State :=
  let s := s.covs.foldl (fun s (e : Nat × Cov) =>
    if e.2.kind = 1 && e.2.breach && !holdsExtent s e.2.seat then
      covEnd s e.1 (if ((mget s.seats e.2.seat).map fun x : Seat => x.detach != .none).getD true then flagDetached
        else flagCleared)
    else s) s
  (extentSeats s).foldl (fun s n =>
    let s := if mhas s.covs (192 + n) then s else { s with covs := mput s.covs (192 + n) (capCov n) }
    let f := capF s
    if capBreached s n then covShort s (192 + n) f (capE s * (16 - capGroup s n) / 16 - f) 3 else covFull s (192 + n) f) s

/-- What follows every change of F: CAP_LOW, CAP_CRITICAL and the capacity covenants (R222, R329). -/
def capCheck (s : State) : State := capResolve (capEvents s)

/-- CAP_OVER_PROMISE where C exceeds ratio × P, once until the two agree again (R221). -/
def overPromise (s : State) : State :=
  let o := capRatio s * capP s < 16 * capC s
  let s := if o && !s.mem.overPromise then
    event s 0x3007 1 0xFF 0xFF [(4, sat (capC s) 32), (4, sat (capP s) 32)] .steward else s
  modMem s fun m => { m with overPromise := o }

end Sys2Proof.Machine
end

