-- ==== Sys2Proof/Machine/Lines.lean ====
section
/-!
DEFINITION. Lines inside the package: agents' copies and the directory, home storage with its line buffer and write queue, the
twins of dirty copies, DRAM errors, and what the device itself reads and writes (R236 to R256, R270, R271, R276 to R283).
-/
namespace Sys2Proof.Machine

/-! Agents and copies (Tables 6.1 to 6.3) -/

/-- The hub that an agent stands on or behind. -/
def agentHub (a : Nat) : Nat :=
  if a < 2 then a else if a < 8 then halfOf a else if a < 12 then 0 else if a < 16 then 1 else (a - 16) / 3

/-- The die of an agent. -/
def agentDie (a : Nat) : Nat := if a < 8 then a else agentHub a

/-- Home of a line for an agent (R237, R261). -/
def agentHome (s : State) (a line : Nat) : Nat := homeHub s (agentHub a) line

/-- Hops of the data path between two dies (Table 6.6). -/
def hops (d e : Nat) : Nat :=
  if d = e then 0
  else
    let cross := if halfOf d = halfOf e then 0 else 1
    (if d < 2 then 0 else 1) + (if e < 2 then 0 else 1) + cross

/-- Key of a copy. -/
def copyKey (line hub a : Nat) : Nat := 32 * hkey line hub + a

/-- An agent's copy of a line of a home. -/
def copyOf (s : State) (line hub a : Nat) : Option CopySt := mget s.coh.copies (copyKey line hub a)

/-- Agents that hold a copy, ascending. -/
def sharersOf (s : State) (line hub : Nat) : List Nat :=
  ((List.range 14).map (· + 2)).filter fun a => (copyOf s line hub a).isSome

/-- A copy is dirty. -/
def dirtySt (c : Option CopySt) : Bool := c == some .m || c == some .o

/-- Some on-package copy is dirty. -/
def anyDirty (s : State) (line hub : Nat) : Bool := (sharersOf s line hub).any fun a => dirtySt (copyOf s line hub a)

/-- Set or remove an agent's copy; a dirty copy is held twice (R270). What was wrong with a copy goes with it. -/
def setCopy (s : State) (line hub a : Nat) (c : Option CopySt) : State :=
  let k := copyKey line hub a
  modCoh s fun x => { x with
    copies := mset x.copies k c
    damage := if c.isNone then mdel x.damage k else x.damage
    twin := if dirtySt c then (if x.twin.contains k then x.twin else x.twin ++ [k]) else x.twin.filter (· != k) }

/-- Sharer vector of a list of agents. -/
def vec (l : List Nat) : BitVec 22 := BitVec.ofNat 22 (l.foldl (fun n a => n + 2 ^ a) 0)

/-- Store a directory entry in agreement with the copies: I (no entry) where nobody holds the line and no write-back waits
(Table 6.3). -/
def setDir (s : State) (line hub : Nat) : State :=
  let sh := sharersOf s line hub
  let k := hkey line hub
  let owner := sh.find? fun a => copyOf s line hub a != some .s
  let st : Option DirSt := match owner with
    | some a => if copyOf s line hub a = some .o then some .o else some .x
    | none => if !sh.isEmpty then some .s
      else if s.coh.wb.contains k && mhas s.coh.dir k then some .wb else none
  modCoh s fun c =>
    let d := st.map fun v : DirSt => DirEnt.mk v (owner.getD 0) (vec sh) (c.stamp + 1) false []
    { c with dir := mset c.dir k d, stamp := c.stamp + 1 }

/-- A prefetched copy falls with any request that would make the line X, O or WB, and with any write (R254). -/
def dropSpec (s : State) (line : Nat) : State := modCoh s fun c => { c with spec := mdel c.spec line }

/-- Drop every agent's copy of a line at a home, and the directory entry (R249). A write-back already queued stays queued
(R246). -/
def dropCopies (s : State) (line hub : Nat) : State :=
  modCoh s fun c => { c with
    copies := c.copies.filter fun e => e.1 / 32 != hkey line hub
    dir := mdel c.dir (hkey line hub)
    damage := c.damage.filter fun e => e.1 / 32 != hkey line hub || decide (e.1 % 32 < 2)
    twin := c.twin.filter fun k => k / 32 != hkey line hub || decide (k % 32 < 2) }

/-- The home tells agents to invalidate a line. -/
def sendInv (s : State) (line : Nat) (agents : List Nat) : State := agents.foldl (fun s a => send s (.cohMsg a line 3)) s

/-! Home storage: checks, the write queue and twins (R246, R270, R271) -/

/-- A dirty line takes the last slot of the write-back buffer, the home's write queue (R246). -/
def queueWb (s : State) (line hub : Nat) : State := modCoh s fun c => { c with wb := c.wb ++ [hkey line hub] }

/-- A copy about to be used is checked (R271): damaged clean lines are refetched, dirty ones rewritten from the twin; where both
twins are bad the line is poisoned at its home and SRAM_LINE_LOST raised. Damage comes from injection (R292). -/
def checkCopy (s : State) (line hub a : Nat) (dirty : Bool) : State :=
  let k := copyKey line hub a
  match mget s.coh.damage k with
  | none => s
  | some (one, two) =>
    let s := modCoh s fun c => { c with damage := mdel c.damage k }
    if !one.isEmpty && !two.isEmpty && dirty then
      raiseFull (setPoison s line hub) 0x5005 2 (agentDie a) 0xFF flagInjected 0 [(1, a), (8, 64 * line)] (.dpa (64 * line))
    else s

/-- The home's own copy of a line differs from its media: in the line buffer, in a hot page, or in the write-back buffer
(R270). -/
def homeDirty (s : State) (line hub : Nat) : Bool :=
  s.coh.twin.contains (copyKey line hub hub) || s.coh.wb.contains (hkey line hub)

/-- Check every copy of a line, the home's own among them, before they are used. -/
def checkLine (s : State) (line hub : Nat) : State :=
  let s := checkCopy s line hub hub (homeDirty s line hub)
  (sharersOf s line hub).foldl (fun s a => checkCopy s line hub a (dirtySt (copyOf s line hub a))) s

/-- Data of the home's own copy reaches the line's media, under the key its slot holds (R225, R291). -/
def mediaWrite (s : State) (line hub : Nat) : State :=
  let s := writeDamage s line hub
  match keyOf s (64 * line) with
  | some k => modMem s fun m => { m with encBy := mput m.encBy (hkey line hub) k }
  | none => s

/-- The home's own dirty copy is written back and stays, clean (R270): to its media, behind a write of the line that the write queue
still holds (R246). -/
def cleanHome (s : State) (line hub : Nat) : State :=
  let k := copyKey line hub hub
  let s := checkCopy s line hub hub true
  let s := if s.coh.wb.contains (hkey line hub) then queueWb s line hub else mediaWrite s line hub
  modCoh s fun c => { c with twin := c.twin.filter (· != k), buf := mmod c.buf (hkey line hub) fun _ => false }

/-- Capacity of an agent's twin store, in lines (R270). -/
def twinCap (a : Nat) : Nat := if a < 2 then 131072 else 8192

/-- Lines in an agent's twin store; a hub's holds its write-back slots too. -/
def twinUse (s : State) (a : Nat) : Nat :=
  (s.coh.twin.filter fun k => k % 32 == a).length + (if a < 2 then (s.coh.wb.filter fun k => k % 2 == a).length else 0)

/-- Room in a hub's twin store: a full one first writes back its least recently written dirty line (R270). -/
def hubRoom (s : State) (hub : Nat) : State :=
  if twinUse s hub < twinCap hub then s
  else match s.coh.twin.find? fun x => x % 32 == hub && !s.coh.wb.contains (x / 32) with
    | some x => cleanHome s (x / 64) hub
    | none => s

/-- A dirty line goes into the write-back buffer, whose lines are held twice too (R246, R270). -/
def toWb (s : State) (line hub : Nat) : State := queueWb (hubRoom s hub) line hub

/-- A dirty copy is written back and stays, clean (R270): an agent's into the write-back buffer, the home's own to its media. -/
def cleanCopy (s : State) (k : Nat) : State :=
  let line := k / 64
  let hub := k / 32 % 2
  let a := k % 32
  if a < 2 then cleanHome s line hub
  else
    let s := checkCopy s line hub a true
    setDir (setCopy (toWb s line hub) line hub a (some (if copyOf s line hub a = some .m then .e else .s))) line hub

/-- Room in the twin store before a line is dirtied: a full store's agent first writes back its least recently written dirty
line (R270). -/
def twinRoom (s : State) (k : Nat) : State :=
  if s.coh.twin.contains k || decide (twinUse s (k % 32) < twinCap (k % 32)) then s
  else if k % 32 < 2 then hubRoom s (k % 32)
  else match s.coh.twin.find? fun x => x % 32 == k % 32 with
    | some x => cleanCopy s x
    | none => s

/-- A copy is written: it is dirty, and the most recently written of its agent. -/
def dirtied (s : State) (k : Nat) : State :=
  modCoh (twinRoom s k) fun c => { c with twin := c.twin.filter (· != k) ++ [k] }

/-- The home's line buffer gives up a line: a dirty one is checked and queued for its media (R242, R246, R271). -/
def bufDrop (s : State) (line hub : Nat) : State :=
  let k := hkey line hub
  match mget s.coh.buf k with
  | none => s
  | some dirty =>
    let s := checkCopy s line hub hub dirty
    let s := modCoh s fun c => { c with buf := mdel c.buf k, twin := c.twin.filter (· != copyKey line hub hub) }
    if dirty then toWb s line hub else s

/-- The home line buffer takes a line: 512 lines (Table 6.1); a full buffer gives up a clean line first, whose choice the spec
leaves open (log 13). -/
def bufPut (s : State) (line hub : Nat) (dirty : Bool) : State :=
  let k := hkey line hub
  let mine := s.coh.buf.filter fun e => e.1 % 2 == hub
  let s :=
    if mine.length < 512 || mhas s.coh.buf k then s
    else match mine.find? fun e => !e.2, mine.head? with
      | some e, _ => bufDrop s (e.1 / 2) hub
      | none, some e => bufDrop s (e.1 / 2) hub
      | none, none => s
  let d := dirty || (mget s.coh.buf k).getD false
  let s := modCoh s fun c => { c with buf := mput c.buf k d }
  if dirty then dirtied s (copyKey line hub hub) else s

/-- Before a host is granted a line in A, the home's own copies leave: one that differs from the media is queued for its write
to media first (R242). -/
def homeDrop (s : State) (line hub : Nat) : State :=
  let k := copyKey line hub hub
  let s := bufDrop s line hub
  if s.coh.twin.contains k then
    toWb (modCoh (checkCopy s line hub hub true) fun c => { c with twin := c.twin.filter (· != k) }) line hub
  else s

/-- An agent's copy leaves: the directory follows. -/
def leave (s : State) (line hub a : Nat) : State := setDir (setCopy s line hub a none) line hub

/-- The lines of a page leave the buffers of a hub's compression engines (R239). -/
def dropEnginePage (s : State) (page hub : Nat) : State :=
  (s.coh.copies.filter fun e => decide (8 ≤ e.1 % 32) && e.1 / 32 % 2 == hub && e.1 / 4096 == page).foldl
    (fun s (e : Nat × CopySt) => leave s (e.1 / 64) hub (e.1 % 32)) s

/-! DRAM errors (R276 to R280) -/

/-- The ledger's rank index of coordinates (Table 11.1). -/
def rankIndex (hub : Nat) (coord : BitVec 48) : Nat :=
  let c := coord.toNat
  8 * (6 * hub + c / 2 ^ 37 % 8) + 4 * (c / 2 ^ 36 % 2) + c / 2 ^ 34 % 4

/-- The coordinates of a line's media on a hub (Table 7.8): the units of 256 bytes of its page go round the populated channels (R209,
R210), and DIMM and rank are ones that are there. Which frame, row and bank is not stated: free (log 18), and free anew each time a row
retirement moves the page (R300). -/
def lineCoord (s : State) (line hub : Nat) : BitVec 48 :=
  let ofs := 2 ^ 37 * (mget s.mem.moved (hkey (pageOfLine line) hub)).getD 0
  match s.mem.pop.getD hub none with
  | none => dramCoord hub (line + ofs)
  | some p =>
    let c := (dramCoord hub (line + ofs)).toNat
    let k := ((dramCoord hub (64 * pageOfLine line + ofs)).toNat / 2 ^ 37 + line % 64 / 4) % max 1 p.channels.toNat
    BitVec.ofNat 48 (2 ^ 37 * (if p.channels = 3 then 2 * k else k) + 2 ^ 36 * (c / 2 ^ 36 % 2 % max 1 p.dimms.toNat) +
      2 ^ 34 * (c / 2 ^ 34 % 4 % max 1 p.ranks.toNat) + 2 ^ 28 * (c / 2 ^ 28 % 64) + c % 2 ^ 18)

/-- A corrected error at a DPA: counted in the ledger unless injected, and recorded at most once per rank per second with the
count of the corrections it stands for (R276, R292). -/
def dramCeAt (s : State) (hub dpa : Nat) (dst : Recip) (coord : BitVec 48) (injected : Bool) : State :=
  let k := rankIndex hub coord
  let s := if injected then s else modLedger s fun l => { l with dramCe := bump l.dramCe k 1 }
  let (at_, n) := (mget s.mem.ceRate k).getD (0, 0)
  if at_ = 0 || at_ + 1000000000 ≤ nowNs s + 1 then
    let s := modMem s fun m => { m with ceRate := mput m.ceRate k (nowNs s + 1, 0) }
    raiseFull s 0x3009 0 hub 0xFF (if injected then flagInjected else 0) n [(8, coord.toNat), (8, dpa)] dst
  else modMem s fun m => { m with ceRate := mput m.ceRate k (at_, n + 1) }

/-- A corrected error of a line. -/
def dramCe (s : State) (hub line : Nat) (coord : BitVec 48) (injected : Bool) : State :=
  dramCeAt s hub (64 * line) (.dpa (64 * line)) coord injected

/-- Poison every line of a page at a hub and make it PLAIN (R279, R280); an image is discarded, and its lines leave the engine's
buffer (R239). -/
def poisonPage (s : State) (page hub : Nat) : State :=
  let s := (List.range 64).foldl (fun s i => setPoison s (64 * page + i) hub) s
  dropEnginePage (makePlain s page hub) page hub

/-- Where a line's DRAM error stands: a PACKED page has one image, so an error of any of its lines is the image's (R279). -/
def damageKey (s : State) (line hub : Nat) : Nat :=
  match (pageAtHub s (pageOfLine line) hub).st with
  | .packed _ =>
    ((s.mem.damage.find? fun e => e.1 % 2 == hub && e.1 / 128 == pageOfLine line && (e.2.lost || e.2.present != 0)).map
      fun e => e.1).getD (hkey line hub)
  | _ => hkey line hub

/-- The error a DRAM read of the line meets by injection: 0 none, 1 one device, 2 more, or a line stored as poisoned. -/
def mediaError (s : State) (line hub : Nat) : Nat :=
  match mget s.mem.damage (damageKey s line hub) with
  | some e => if e.lost then 2 else min 2 ((List.range 10).filter fun i => e.present.getLsbD i).length
  | none => 0

/-- The lines whose media an uncorrectable error takes: the line, or every line of its PACKED page (R277, R279). -/
def errorLines (s : State) (line hub : Nat) : List Nat :=
  match (pageAtHub s (pageOfLine line) hub).st with
  | .packed _ => (List.range 64).map (64 * pageOfLine line + ·)
  | _ => [line]

/-- Poison the line, or every line of its PACKED page (R277, R279). -/
def poisonMedia (s : State) (line hub : Nat) : State :=
  match (pageAtHub s (pageOfLine line) hub).st with
  | .packed _ => poisonPage s (pageOfLine line) hub
  | _ => setPoison s line hub

/-- In pair mode the other half holds a good copy of what an uncorrectable error takes (R278, R279). -/
def otherGood (s : State) (hub line : Nat) : Bool :=
  inPair s && serving s (1 - hub) &&
    (errorLines s line hub).all fun l => !poisonedAt s l (1 - hub) && decide (mediaError s l (1 - hub) < 2)

/-- An uncorrectable error of a line's media: the other half's good copy repairs it in pair mode, page by page where the page is
PACKED (R278, R279); otherwise the line, or every line of a PACKED page, is poisoned and DRAM_UE raised once for the line
(R277). -/
def dramUe (s : State) (hub line : Nat) (coord : BitVec 48) (injected : Bool) : State :=
  let fl := if injected then flagInjected else 0
  if otherGood s hub line then
    raiseFull s 0x300B 1 hub 0xFF fl 0 [(8, coord.toNat), (8, 64 * line)] (.dpa (64 * line))
  else if (errorLines s line hub).all fun l => poisonedAt s l hub then s
  else
    let s := raiseFull s 0x300A 2 hub 0xFF fl 0 [(8, coord.toNat), (8, 64 * line)] (.dpa (64 * line))
    poisonMedia s line hub

/-- The media of a line carry an error as they stand. -/
def mediaBad (s : State) (line hub : Nat) : Bool := mediaError s line hub != 0

/-- The media of a line were stored as poisoned by an earlier read (R277). -/
def mediaLost (s : State) (line hub : Nat) : Bool :=
  ((mget s.mem.damage (damageKey s line hub)).map fun e : MediaErr => e.lost).getD false

/-- The image of a line's error is written again, corrected or as poison (R276, R277). -/
def rewriteMedia (s : State) (line hub : Nat) : State :=
  let k := damageKey s line hub
  modMem s fun m => { m with damage := match mget m.damage k with
    | some e => if e.armed = 0 then mdel m.damage k else mput m.damage k { armed := 0, present := e.armed, lost := false }
    | none => m.damage }

/-- A DRAM read of a line: what the read met, or what an injected error makes it meet. A corrected line is written back
(R276); one that was stored as poisoned reads as poison, with no second event (R277). -/
def dramRead (s : State) (line hub : Nat) (ecc : Ecc) (coord : BitVec 48) : State :=
  let inj := mediaError s line hub
  let lost := mediaLost s line hub
  let s := if inj = 0 then s else rewriteMedia s line hub
  if lost then poisonMedia s line hub
  else if inj = 2 || ecc = .uncorrectable then dramUe s hub line coord (inj = 2)
  else if inj = 1 || ecc = .corrected then dramCe s hub line coord (inj = 1)
  else s

/-- The page-map entry of a page cannot be read any more (R280). -/
def loseMap (s : State) (page hub : Nat) : State := modMem s fun m => { m with badMap := mput m.badMap (hkey page hub) () }

/-- The page-map entry of a page fails its check uncorrectably: every line is poisoned and PAGEMAP_LOST raised (R280). -/
def pageMapLost (s : State) (page hub : Nat) : State :=
  let s := modMem s fun m => { m with badMap := mdel m.badMap (hkey page hub) }
  event (poisonPage s page hub) 0x300C 2 hub 0xFF [(8, 4096 * page)] (.dpa (4096 * page))

/-! Supply from home storage (R247) -/

/-- The home holds the line on the package: in its hot tier, line buffer or write-back buffer, or as a confirmed prefetch. A
marked line of the speculation area is absent (R88, R254). -/
def homeHolds (s : State) (line hub : Nat) : Bool :=
  hotHere s line hub || mhas s.coh.buf (hkey line hub) || s.coh.wb.contains (hkey line hub) ||
    keptSpec s line hub

/-- Home storage supplies a line: from DRAM, with what the read meets, where the package does not hold it; a clean copy that
fails its check is fetched from DRAM too (R271). -/
def homeSupply (s : State) (line hub : Nat) (ecc : Ecc) : State :=
  let refetch := mhas s.coh.damage (copyKey line hub hub) && !homeDirty s line hub
  let s := checkCopy s line hub hub (homeDirty s line hub)
  let page := pageOfLine line
  let s := if ecc = .mapLost then loseMap s page hub else s
  if mhas s.mem.badMap (hkey page hub) then pageMapLost s page hub
  else if (pageAtHub s page hub).st != .zero && (refetch || !homeHolds s line hub) then
    dramRead s line hub ecc (lineCoord s line hub)
  else s

/-- Whether the next read of the line goes to DRAM: a PLAIN or PACKED page that is not hot, no copy on the package and none
in the home's line or write-back buffer (R247, R256). -/
def fromDram (s : State) (line hub : Nat) : Bool :=
  let p := pageAtHub s (pageOfLine line) hub
  p.st != .zero && !p.hot && !mhas s.coh.dir (hkey line hub) && !mhas s.coh.buf (hkey line hub) &&
    !s.coh.wb.contains (hkey line hub)

/-! The device's own reads (R202, R271, R276, R277) -/

/-- The address of a COH register of a hub. -/
def cohReg (hub off : Nat) : Nat := diePage hub 0x11 + off

/-- The nearer of two agents to a die; the lower ID where they are equally near. -/
def nearer (die : Nat) (x y : Nat) : Nat := if hops (agentDie y) die < hops (agentDie x) die then y else x

/-- The agent other than a that supplies a line to a die, or none where home storage does (R247). An M, E or O copy always
supplies; among S copies the nearest does, unless COH.CTL.NSUP is 0 or the home holds the line as near (R264). -/
def supplier (s : State) (line hub die a : Nat) : Option Nat :=
  let others := (sharersOf s line hub).filter (· != a)
  match others.find? fun x => copyOf s line hub x != some .s, others with
  | some x, _ => some x
  | none, [] => none
  | none, x :: t =>
    let n := t.foldl (nearer die) x
    if !(reg s (cohReg hub 8)).getLsbD 1 then none
    else if homeHolds s line hub && hops hub die ≤ hops (agentDie n) die then none
    else some n

/-- The device reads a line at a home: the nearest agent's copy is checked, or home storage supplies (R247, R264). -/
def supplyLine (s : State) (line hub : Nat) : State :=
  match supplier s line hub hub 64 with
  | some x => checkCopy s line hub x (dirtySt (copyOf s line hub x))
  | none => homeSupply s line hub .good

/-- An access for a seat treats a line that was prefetched for another seat as absent, and drops it (R88). -/
def dropOthers (s : State) (line who : Nat) : State :=
  match mget s.coh.spec line with
  | some (some n) => if n = who then s else dropSpec s line
  | _ => s

/-- The device reads n bytes for a seat: what the reads of their lines meet. Nothing is met where no error stands anywhere and no line
is prefetched. -/
def readIn (s : State) (who a n : Nat) : State :=
  if n = 0 || s.coh.damage.isEmpty && s.mem.damage.isEmpty && s.mem.badMap.isEmpty && s.coh.spec.isEmpty then s
  else (List.range ((a + n + 63) / 64 - a / 64)).foldl
    (fun s k => supplyLine (dropOthers s (a / 64 + k) who) (a / 64 + k) (devHub s (a / 64 + k))) s

/-- KEY_ABSENT for every extent of a region whose key is absent (R230). -/
def meetKeys (s : State) (a n : Nat) : State :=
  (List.range ((a + n - 1) / 2 ^ 28 + 1 - a / 2 ^ 28)).foldl (fun s k =>
    let b := (a / 2 ^ 28 + k) * 2 ^ 28
    if keyAbsent s b then raiseKeyAbsent s b else s) s

/-- Memory of a command or a ring is met as the device reads it for a seat: its lines are fetched and checked (R271, R276, R277, R280), with
KEY_ABSENT where their key is absent (R230). -/
def meetRegion (s : State) (who a n : Nat) : State := meetKeys (readIn s who a n) a n

/-- Every line of a page is read from its media, as a move of the page does (R215, R276). -/
def readPage (s : State) (page hub : Nat) : State :=
  if s.coh.damage.isEmpty && s.mem.damage.isEmpty && s.mem.badMap.isEmpty then s
  else (List.range 64).foldl (fun s i => homeSupply s (64 * page + i) hub .good) s

/-- A device read of n bytes: the value as the home reads each line. -/
def devRead (s : State) (a n : Nat) : Nat :=
  if n = 0 then 0
  else
    let l0 := a / 64
    let cnt := (a + n + 63) / 64 - l0
    let v := (List.range cnt).foldl (fun v k => v + (lineAt s (l0 + k) (devHub s (l0 + k))).toNat * 2 ^ (512 * k)) 0
    v / 256 ^ (a - 64 * l0) % 256 ^ n

/-! The device's own writes (R202, R223, R224, R252) -/

/-- Eighths of a page that a write of a line takes from the free media (R219, R220). -/
def mediaNeed (s : State) (line hub : Nat) (zeros : Bool) : Nat :=
  match (pageAtHub s (pageOfLine line) hub).st with
  | .zero => if zeros then 0 else 8
  | .plain => 0
  | .packed c => 8 - c

/-- A write of a line finds no media at one of its homes (R224). -/
def writeShort (s : State) (line : Nat) (zeros : Bool) : Bool :=
  (homes s line).any fun h => mediaShort s h (mediaNeed s line h zeros)

/-- A write reaches a page that is being compressed, whose image is discarded, or a PACKED page, which becomes PLAIN: its image is
read first, with the error it carries, and its lines leave the engine (R216, R219, R239, R279). -/
def discardImage (s : State) (page hub : Nat) : State :=
  let p := pageAtHub s page hub
  let packed := match p.st with
    | .packed _ => true
    | _ => false
  let s := if p.move = some .compress then setPage s page hub { p with move := none } else s
  let s := if packed && mediaError s (64 * page) hub != 0 then
    dramRead s (64 * page) hub .good (lineCoord s (64 * page) hub) else s
  if packed || p.move = some .compress then dropEnginePage s page hub else s

/-- The bytes of a write reach memory; an image of the page under way is discarded. -/
def storeLine (s : State) (line v be : Nat) : State :=
  storeBytes ((homes s line).foldl (fun s h => discardImage s (pageOfLine line) h) s) line v be

/-- A line that is written whole carries no earlier error in the home's own copy (R283). -/
def clearDamage (s : State) (line hub be : Nat) : State :=
  if be % 2 ^ 64 = 2 ^ 64 - 1 then modCoh s fun c => { c with damage := mdel c.damage (copyKey line hub hub) } else s

/-- A line that is written whole carries no poison any more (R283). -/
def wholeClear (s : State) (line be : Nat) : State := if be % 2 ^ 64 = 2 ^ 64 - 1 then clearPoison s line else s

/-- COH_ENTRY_CHECK of a directory entry, and Inv to every agent that may hold lines of its home and is not known to hold this one
(R263). -/
def dirEvent (s : State) (line hub extra : Nat) : State :=
  let way := entryWay s.coh.dir line hub fun l => dirSet l == dirSet line
  let agents := ((List.range 14).map (· + 2)).filter fun a => present s (agentDie a) && agentHome s a line == hub
  let s := sendInv s line (agents.filter fun a => !(sharersOf s line hub).contains a)
  raiseFull s 0x4004 1 hub 0xFF extra 0 [(1, 0), (4, (dirSet line).toNat), (1, way)] .steward

/-- The home writes a line: an entry that fails its check is rebuilt, and every agent's copy is invalidated (R252, R263). -/
def homeInv (s : State) (line hub : Nat) : State :=
  let s := if ((mget s.coh.dir (hkey line hub)).map fun e : DirEnt => e.bad).getD false then dirEvent s line hub flagInjected else s
  dropCopies (sendInv s line (sharersOf s line hub)) line hub

/-- A write the home itself makes into its line buffer, at every home (R252, R261): copies fall, the buffer holds the line
dirty, and a whole line clears the poison there (R283). The caller has seen to the hosts. -/
def homeStore (s : State) (line v be : Nat) : State :=
  let s := (homes s line).foldl (fun s h =>
    bufPut (clearDamage (homeInv (rekeyLine s line h) line h) line h be) line h true) s
  wholeClear (storeLine s line v be) line be

/-- The device writes a line; it holds the write while no media is left for it (R224). -/
def homeWrite (s : State) (line v be : Nat) : State :=
  if writeShort s line (decide (be % 2 ^ 64 = 2 ^ 64 - 1) && v % 2 ^ 512 == 0) then
    modMem s fun m => { m with
      held := m.held.modify (devHub s line) (· ++ [⟨none, line, BitVec.ofNat 512 v, BitVec.ofNat 64 be, false⟩]) }
  else homeStore s line v be

/-- A device write of one line's bytes for a seat: discarded where the extent's key is absent (R230). A part is merged into what is read
first, and a line that reads as poison refuses the part (R282). -/
def writeDevLine (s : State) (who line v be : Nat) : State :=
  if keyAbsent s (64 * line) then raiseKeyAbsent s (64 * line)
  else if be % 2 ^ 64 = 2 ^ 64 - 1 then homeWrite s line v be
  else
    let s := readIn s who (64 * line) 64
    if poisonedAt s line (devHub s line) then s else homeWrite s line v be

/-- A device write of n bytes at an address for a seat, line by line (R202). F may fall (R222). -/
def devWrite (s : State) (who a v : Nat) (n : Nat) : State :=
  capCheck ((List.range ((a + n + 63) / 64 - a / 64)).foldl (fun s k =>
    let line := a / 64 + k
    let lo := max a (64 * line)
    let hi := min (a + n) (64 * line + 64)
    let be := (2 ^ (hi - lo) - 1) * 2 ^ (lo - 64 * line)
    let part := v / 256 ^ (lo - a) * 256 ^ (lo - 64 * line)
    writeDevLine s who line part be) s)

end Sys2Proof.Machine
end

