-- ==== Sys2Proof/Machine/Access.lean ====
section
/-!
DEFINITION. Register access: who reaches which page, bus errors, configuration and staged writes, guarded writes, multi-word
writes (R373 to R398).
-/
namespace Sys2Proof.Machine

/-- Change the register file. -/
def modRegs (s : State) (f : Regs → Regs) : State := { s with regs := f s.regs }

/-- The steward seat while its session is open (Table 10.2). -/
def stewardSession (s : State) : Option (Nat × Session) :=
  s.steward.holder.bind fun n => (mget s.seats n).bind fun x => x.session.map fun ss => (n, ss)

/-- A seat's pages are cut to those a held dump leaves: in whole mode a freeze stops the package, in pair mode the half of the
hub that carries the seat (R425, R426). -/
def cutOff (s : State) (seat : Nat) : Bool :=
  if inPair s then ((seatPlace s seat).map fun p => halted s (placeHub p)).getD false else s.pkg.frozen.any id

/-- The pages that stay reachable while a dump is held (R426). -/
def frozenReach : PageTy → Bool
  | .mgmt | .ledger | .log | .harvest => true
  | _ => false

/-- The half is out of service: out, or on its way back (R395). -/
def halfGone : HalfState → Bool
  | .out | .returning | .resync => true
  | _ => false

/-- The page exists on this part now: its die is present, and its half is in service (R374, R395). -/
def pageExists (s : State) (p : PageId) : Bool :=
  if p.die = 0xFF then true
  else present s p.die && !(inPair s && halfGone (s.pkg.half.getD (halfOf p.die) .out))

/-- How an access to a page stands: reached for reading, and for writing too. -/
inductive Reach where
  | none | read | write
deriving DecidableEq, Repr

/-- The reach of a logical device to a page (Table 10.2). The HARVEST page of a held dump needs a session opened after it
(R428). -/
def pageReach (s : State) (seat : Nat) (p : PageId) : Reach :=
  let st := stewardSession s
  let mine := (st.map (·.1)) == some seat
  if !pageExists s p || (cutOff s seat && !frozenReach p.ty) then .none
  else match p.ty with
  | .mgmt => .write
  | .ring =>
    if ((mget s.rings (p.num - 0x400)).bind (·.holder)) = some seat then .write else if mine then .read else .none
  | .harvest =>
    match st with
    | some (n, ss) =>
      if n = seat && s.harvest.all (fun h => !h.held || decide (h.ns ≤ ss.opened)) then .write else .none
    | none => .none
  | _ => if mine then .write else .none

/-- The page a logical device's BAR0 address names, as the register file keys it, and the reach: a logical device that is no
seat, has no link or comes before stage 0x0B reaches nothing (R375, Table 12.3). -/
def lookup (s : State) (p : Place) (a : Nat) : Option (Nat × PageId × Reach) :=
  if !started s || s.clock.refLost || !placeUp s p then none
  else match seatOf s p with
  | none => none
  | some n =>
    let a' := if pageBase a = globalPage 0x10 then mgmtPage n + a % 4096 else a
    if 0x04000000 ≤ a then none
    else (pageAt a').bind fun pg =>
      match pageReach s n pg with
      | .none => none
      | r => some (a', pg, r)

/-- Record an Unsupported Request under AER (R377). -/
def aerError (s : State) (p : Place) (a : Nat) : State :=
  modLd s p fun l => { l with aer := true, aerAddr := if l.aer then l.aerAddr else BitVec.ofNat 26 a }

/-- A bus error of a read or a write: the answer and the AER record (R377). -/
def busError (s : State) (p : Place) (a : Nat) (read : Bool) : State :=
  let s := aerError s p a
  if read then send s (.regRead p a none) else send s (.busError p a)

/-- A refused width (bit 2) or an unimplemented offset (bit 3) on a page reached for this kind of access: recorded on the
page as well (R377). -/
def pageError (s : State) (p : Place) (a a' : Nat) (read : Bool) (bit : Nat) : State :=
  reject (busError s p a read) (pageBase a') bit (a' % 4096)

/-- What stands at an offset of a page (Table 10.4). -/
inductive Slot where
  | plain (r : RegSpec)
  | staged (r : RegSpec)
  | guarded (g : GuardSpec)
  | complement (g : GuardSpec)
  | hole
deriving DecidableEq, Repr

/-- The slot at an offset. -/
def slotAt (ty : PageTy) (off : Nat) : Slot :=
  if off < 0x400 then match specAt ty off with
    | some r => .plain r
    | none => .hole
  else if off < 0x800 then match specAt ty (off - 0x400) with
    | some r => if r.rws = 0 then .hole else .staged r
    | none => .hole
  else if off < 0xC00 then match guardAt ty off with
    | some g => .guarded g
    | none => .hole
  else match guardAt ty (off - 0x400) with
    | some g => .complement g
    | none => .hole

/-- EN of a page. -/
def pageEn (s : State) (base : Nat) : Bool := (reg s (base + 8)).getLsbD 0

/-- The bits of a register that CFG_SIG covers: configuration fields, active halves of RWS fields and the RWG setting fields
(R396). -/
def coveredMask (ty : PageTy) (off : Nat) : Word :=
  match specAt ty off with
  | some r => if off = 8 then (r.rw &&& 0xFFFE) ||| r.rws else (if r.oper then 0 else r.rw) ||| r.rws
  | none =>
    match ty, off with
    | .pkg, 0x800 => 0x0013
    | .hport, 0x800 => 3
    | .ddr, 0x800 => 3
    | _, _ => 0

/-- The offsets of a page whose registers CFG_SIG takes, ascending (R396). -/
def coveredOffsets (ty : PageTy) : List Nat :=
  ((regSpecs ty).map (·.off) ++ (guardSpecs ty).map (·.off)).filter fun o => coveredMask ty o != 0

/-- CFG_SIG of a page: CRC-16 with initial value 0xFFFF over the covered words (R396). -/
def cfgSig (s : State) (ty : PageTy) (base : Nat) : Word :=
  crcWords 0xFFFF ((coveredOffsets ty).map fun o => reg s (base + o) &&& coveredMask ty o)

/-- An accepted change to covered fields: the management copy follows, and the comparison is disarmed (R396, R397). -/
def covered (s : State) (a : Nat) : State :=
  modRegs s fun r => { r with mgmt := mput r.mgmt a (reg s a), armed := r.armed.filter (· != pageBase a) }

/-- The key of a per-logical-device map. -/
def ldKey (p : Place) (a : Nat) : Nat := 2 ^ 32 * p.toNat + a

/-- Any write of non-zero mask discards the logical device's pending guarded write on the page, with REJECT.COMPL (R391). -/
def dropGuard (s : State) (p : Place) (base : Nat) : State :=
  match mget s.regs.guards (ldKey p base) with
  | some g => reject (modRegs s fun r => { r with guards := mdel r.guards (ldKey p base) }) base 1 (g.addr % 4096)
  | none => s

/-- The first write of a guarded register: it becomes the pending guarded write (R390), in place of an earlier one (R391). -/
def guardFirst (s : State) (p : Place) (a : Nat) (w : Word32) : State :=
  if maskOf w = 0 then s
  else
    let s := dropGuard s p (pageBase a)
    modRegs s fun r => { r with guards := mput r.guards (ldKey p (pageBase a)) ⟨a, w⟩ }

/-- The complement of a guarded register at a arrives: when it matches the pending write, that write's mask and data, with
the write no longer pending; otherwise the discard and REJECT.COMPL (R390, R391). -/
def guardSecond (s : State) (p : Place) (a : Nat) (w : Word32) : State × Option Word32 :=
  if maskOf w = 0 then (s, none)
  else
    let k := ldKey p (pageBase a)
    match mget s.regs.guards k with
    | some g =>
      if g.addr = a then
        let s := modRegs s fun r => { r with guards := mdel r.guards k }
        if maskOf w = maskOf g.word && dataOf w = ~~~(dataOf g.word) then (s, some g.word)
        else (reject s (pageBase a) 1 (a % 4096), none)
      else (reject (dropGuard s p (pageBase a)) (pageBase a) 1 (a % 4096), none)
    | none => (reject s (pageBase a) 1 (a % 4096), none)

/-- The reach check and the complement of a guarded register together: the write that takes effect, or what else happens
(R376, R377, R390, R391). -/
def guardEffect (s : State) (p : Place) (a : Nat) (w : Word32) : State × Option Word32 :=
  match lookup s p a with
  | some (a', pg, .write) =>
    match guardAt pg.ty (a' % 4096) with
    | some _ => guardSecond s p a' w
    | none => (pageError s p a a' false 3, none)
  | _ => (busError s p a false, none)

/-- A commit on a page is pending. -/
def committing (s : State) (base : Nat) : Bool := mhas s.regs.commit base

/-- The data of a guarded write that took effect, over the register's stored value: RWG fields change, and RWS fields in
their staged half (R390). The new register value is answered. -/
def guardStore (s : State) (a : Nat) (g : GuardSpec) (w : Word32) : State × Word :=
  let v := maskedWrite w g.rwg (reg s a)
  let s := setReg s a v
  let s := if maskOf w &&& g.rws = 0 then s
    else if committing s (pageBase a) then reject s (pageBase a) 4 (a % 4096)
    else setStaged s a (maskedWrite w g.rws (stagedReg s a))
  (s, v)

/-- The writable bits of a plain write at a register, as EN stands: operating fields always, configuration fields only while
EN is 0 (R384); of CTL, EN is the operating bit. -/
def plainWritable (s : State) (ty : PageTy) (base : Nat) (r : RegSpec) : Word :=
  let _ := ty
  if pageEn s base then (if r.off = 8 then r.rw &&& 1 else if r.oper then r.rw else 0) else r.rw

/-- The configuration bits of a register. -/
def configBits (r : RegSpec) : Word := if r.off = 8 then r.rw &&& 0xFFFE else if r.oper then 0 else r.rw

/-- Write the RW and RWS fields of one register that is a single word, or word 0 of a value (R384, R387). Where the write
touches configuration fields while EN is 1, REJECT.WWE is set; where a staged field is written while a commit is pending,
REJECT.STAGE (R389). -/
def writeWord (s : State) (ty : PageTy) (a : Nat) (r : RegSpec) (w : Word32) : State :=
  let base := pageBase a
  let m := maskOf w
  let ok := plainWritable s ty base r
  let wwe := pageEn s base && m &&& configBits r != 0
  let v := maskedWrite w ok (reg s a)
  let changed := m &&& ok &&& configBits r != 0
  let s1 := if m &&& ok = 0 then s else setReg s a v
  let s2 := if changed then covered s1 a else s1
  let s3 := if wwe then reject s2 base 0 (a % 4096) else s2
  if m &&& r.rws = 0 then s3
  else if committing s base then reject s3 base 4 (a % 4096)
  else setStaged s3 a (maskedWrite w r.rws (stagedReg s3 a))

/-- A word of TIME.CAL as the calendar runs (R392). -/
def calWord (s : State) (a : Nat) : Word := BitVec.ofNat 16 (s.clock.cal.toNat / 2 ^ (4 * (a % 4096 - 0x60)))

/-- The holding words of a register equal it again, for every logical device (R392). -/
def dropHolding (s : State) (a : Nat) : State :=
  modRegs s fun g => { g with hold := g.hold.filter fun e => e.1 % 2 ^ 32 != a }

/-- The holding word of a higher word of a multi-word register: what was last written there, or the register's own (R392). -/
def holding (s : State) (p : Place) (a : Nat) (staged : Bool) : Word :=
  (mget s.regs.hold (ldKey p a)).getD (if staged then stagedReg s a else if pageBase a = globalPage 7 then calWord s a else reg s a)

/-- A write of word k > 0 of a multi-word register updates the holding word under its mask (R392). -/
def writeHolding (s : State) (p : Place) (a : Nat) (r : RegSpec) (w : Word32) : State :=
  let wr := r.rw ||| r.rws
  modRegs s fun g => { g with hold := mput g.hold (ldKey p a) (maskedWrite w wr (holding s p a (r.rws != 0))) }

/-- A write of W0 of a multi-word register commits the value formed from it and the holding words, in one step (R392). An
ignored write under R384 commits nothing. -/
def writeW0 (s : State) (p : Place) (ty : PageTy) (a : Nat) (r : RegSpec) (w : Word32) : State :=
  let base := pageBase a
  let staged := r.rws != 0
  if staged && committing s base then reject s base 4 (a % 4096)
  else if !staged && plainWritable s ty base r = 0 then reject s base 0 (a % 4096)
  else
    let low := maskedWrite w (r.rw ||| r.rws) (if staged then stagedReg s a else reg s a)
    let put (s : State) (x : Nat) (v : Word) : State := if staged then setStaged s x v else setReg s x v
    let s1 := (List.range (r.words - 1)).foldl (fun t k => put t (a + 4 * (k + 1)) (holding s p (a + 4 * (k + 1)) staged))
      (put s a low)
    let s2 := (List.range (r.words - 1)).foldl (fun t k => dropHolding t (a + 4 * (k + 1))) s1
    if !staged && configBits r != 0 then
      (List.range r.words).foldl (fun t k => covered t (a + 4 * k)) s2
    else s2

/-- Reset every read latch and write holding of a page (R402). -/
def resetLatches (s : State) (base : Nat) : State :=
  modRegs s fun g => { g with
    latch := g.latch.filter fun e => pageBase (e.1 % 2 ^ 32) != base
    hold := g.hold.filter fun e => pageBase (e.1 % 2 ^ 32) != base }

/-- Stage every RWS register of a page back to its active half, by dropping the staged halves. -/
def dropStaged (s : State) (base : Nat) : State :=
  modRegs s fun g => { g with staged := g.staged.filter fun e => pageBase e.1 != base }

/-- The staged registers of a page: addresses and staged words. -/
def pageStaged (s : State) (base : Nat) : List (Nat × Word) := s.regs.staged.filter fun e => pageBase e.1 == base

/-- The RWS bits of the register at an address: only they have a staged half (R387). -/
def rwsAt (a : Nat) : Word :=
  match pageAt a with
  | some p =>
    match specAt p.ty (a % 4096) with
    | some r => r.rws
    | none => ((guardAt p.ty (a % 4096)).map fun g => g.rws).getD 0
  | none => 0

/-- Some staged half of a page differs from its active half. -/
def stagedDiffers (s : State) (base : Nat) : Bool :=
  (pageStaged s base).any fun e => (e.2 ^^^ reg s e.1) &&& rwsAt e.1 != 0

/-- The value lies in a range. -/
def within (lo hi v : Nat) : Bool := decide (lo ≤ v) && decide (v ≤ hi)

/-- Make every staged half of a page active in one step; the management copy follows (R388). -/
def activate (s : State) (base : Nat) : State :=
  let l := pageStaged s base
  let s := l.foldl (fun s e => covered (setReg s e.1 ((reg s e.1 &&& ~~~rwsAt e.1) ||| (e.2 &&& rwsAt e.1))) e.1) s
  dropStaged s base

/-- STAGE_COMMIT.RESULT: 1 committed, 2 refused; PENDING is 0 again. -/
def commitEnd (s : State) (base result : Nat) : State :=
  let s := setReg (modRegs s fun g => { g with commit := mdel g.commit base }) (base + 0x28) (BitVec.ofNat 16 (4 * result))
  if result = 2 then reject s base 4 0x28 else s

end Sys2Proof.Machine
end

