-- ==== Sys2Proof/Machine/Flags.lean ====
section
/-!
DEFINITION. Status codes of completions (Tables 3.12, 4.12), results of mailbox requests (Table 8.3) and the FLAGS and POS of
completion entries (Tables 3.9, 3.10).
-/
namespace Sys2Proof.Machine

def stHit : BitVec 8 := 0x00
def stMiss : BitVec 8 := 0x01
def stMulti : BitVec 8 := 0x02
def stAtomicDone : BitVec 8 := 0x03
def stCmpFail : BitVec 8 := 0x04
def stCmdDone : BitVec 8 := 0x05
def stProvHit : BitVec 8 := 0x10
def stConfirm : BitVec 8 := 0x11
def stRetractHit : BitVec 8 := 0x12
def stRetractMiss : BitVec 8 := 0x13
def stRetractStatus : BitVec 8 := 0x14
def stBadOpcode : BitVec 8 := 0x80
def stBadForm : BitVec 8 := 0x81
def stBadTable : BitVec 8 := 0x82
def stNoRight : BitVec 8 := 0x83
def stZeroLength : BitVec 8 := 0x84
def stBadCount : BitVec 8 := 0x85
def stKeyTooLong : BitVec 8 := 0x86
def stPoisoned : BitVec 8 := 0x87
def stOverBudget : BitVec 8 := 0x88
def stSeatDetaching : BitVec 8 := 0x89
def stBadAddress : BitVec 8 := 0x8A
def stBadAlign : BitVec 8 := 0x8B
def stSluiceConflict : BitVec 8 := 0x8C
def stBadDescriptor : BitVec 8 := 0x90
def stRankDup : BitVec 8 := 0x91
def stPanBusy : BitVec 8 := 0x92
def stTableExists : BitVec 8 := 0x93
def stBadPosition : BitVec 8 := 0x94
def stEntryValid : BitVec 8 := 0x95
def stRakeBusy : BitVec 8 := 0x96
def stNoFreeSlot : BitVec 8 := 0x97
def stRangeNotEmpty : BitVec 8 := 0x98
def stBadBuffer : BitVec 8 := 0x99
def stRecordCheck : BitVec 8 := 0x9A
def stTableBusy : BitVec 8 := 0x9B
def stSessionBad : BitVec 8 := 0x9C
def stRowCheck : BitVec 8 := 0xC0
def stPanFault : BitVec 8 := 0xC1
def stBedFault : BitVec 8 := 0xC2
def stCascadeTimeout : BitVec 8 := 0xC3
def stPairMismatch : BitVec 8 := 0xC4
def stFrondLost : BitVec 8 := 0xC5
def stCascadeBroken : BitVec 8 := 0xC6
def stHubUnreachable : BitVec 8 := 0xC7
def stHalfLost : BitVec 8 := 0xC8
def stInternal : BitVec 8 := 0xC9

/-- Completion FLAGS (Table 3.10). -/
def flPhase : BitVec 8 := 0x80
def flTie : BitVec 8 := 0x40
def flMoving : BitVec 8 := 0x20
def flLast : BitVec 8 := 0x10
def flEarly : BitVec 8 := 0x08

/-- A flag, or none. -/
def flagIf (b : Bool) (f : BitVec 8) : BitVec 8 := if b then f else 0

/-- MEMBER and HITIDX of a POS word (Table 3.9). -/
def posMember (member hit : Nat) : Nat := 268435456 * (member % 4) + 33554432 * (hit % 8)

/-- An ordinary final completion: tag, status, row fields and data of a member. -/
def finalComp (tag : Word) (st : BitVec 8) (member pos : Nat) (data : Word64) : Comp :=
  { tag := tag, status := st, flags := flLast, pos := BitVec.ofNat 32 (posMember member 0 + pos), data := data }

/-- The 16 bytes of a completion entry (Table 3.8) with its PHASE. -/
def compNat (c : Comp) (phase : Bool) : Nat :=
  c.tag.toNat + 2 ^ 16 * c.status.toNat + 2 ^ 24 * (c.flags ||| flagIf phase flPhase).toNat + 2 ^ 32 * c.pos.toNat +
    2 ^ 64 * c.data.toNat

end Sys2Proof.Machine
end

