-- ==== Sys2Proof/Machine/Operands.lean ====
section
/-!
DEFINITION. Operand forms: keys and cells (R15 to R18, R50 to R64), checks of rows and records (R153, R267), POS words
(R117), the fields of submissions (R101 to R107, R141 to R182).
-/
namespace Sys2Proof.Machine

/-! Keys, cells and tags -/

/-- Bits of a plane that do not match the key: care cells that differ, and never cells (Table 2.1). -/
def mismatch {w : Nat} (data mask key : BitVec w) : BitVec w := (mask &&& (data ^^^ key)) ||| (~~~mask &&& data)

/-- Some cell is in the never state (R51). -/
def hasNever {w : Nat} (data mask : BitVec w) : Bool := ~~~mask &&& data != 0

/-- The 80 bits of a key that row offset r of an entry compares with (R53). -/
def keyRow (k : Key) (r : Nat) : Plane := (k >>> (80 * r)).setWidth 80

/-- Join row planes into entry bits, row 0 lowest. -/
def entryBits : List Plane → Key
  | [] => 0
  | p :: t => p.setWidth 640 ||| (entryBits t <<< 80)

/-- The 16 bits of a key, or of an entry's plane, that start at key bit o: bit o + k stands at bit 15 − k (R17, R61). -/
def field16 (k : Key) (o : Nat) : Word :=
  let a := (k >>> (16 * (o / 16))).setWidth 16
  let b := (k >>> (16 * (o / 16 + 1))).setWidth 16
  (((a ++ b) >>> (16 - o % 16)).setWidth 16 : BitVec 16)

/-- The key of a submission: its first 2 × n bytes in transmission order, piece p from bytes 2p and 2p + 1 with the first
byte in bits [15:8]; the rest is the zero pieces the dispatcher appends (R54, R105). -/
def keyOfBytes {w : Nat} (b : BitVec w) (ofs : Nat) : Nat → Key
  | 0 => 0
  | n + 1 =>
    BitVec.ofNat 640 (256 * field b ofs 1 + field b (ofs + 1) 1) ||| (keyOfBytes b (ofs + 2) n <<< 16)

/-- A tag is dark: it has a never cell (R63). -/
def tagDark (t : Word × Word) : Bool := hasNever t.1 t.2

/-- A tag matches the sluice field (R62). -/
def tagMatch (t : Word × Word) (f : Word) : Bool := mismatch t.1 t.2 f == 0

/-- At every cell of the tag data t.1 that cares by t.2, the entry's cell for that key bit cares and has the same data bit
(R64). -/
def tagFits (t : Word × Word) (data mask : Key) (ofs : Nat) : Bool :=
  t.2 &&& ~~~(field16 mask ofs) == 0 && t.2 &&& (t.1 ^^^ field16 data ofs) == 0

/-- A tag covers an entry given its planes' bits (R64). -/
def covers (t : Word × Word) (data mask : Key) (ofs : Nat) (never : Bool) : Bool :=
  tagDark t || never || tagFits t data mask ofs

/-- All ones over the rows first to first + n − 1 of an entry. -/
def rowsMask (first n : Nat) : Key := ((BitVec.allOnes 640 >>> (640 - 80 * n)) <<< (80 * first))

/-- A tag covers the write of the rows first on: it is dark, a written row holds a never cell, or it fits at the tag cells whose
key bits fall in those rows (R160). -/
def coversRows (t : Word × Word) (rows : List (Plane × Plane)) (first ofs : Nat) : Bool :=
  let d := entryBits (rows.map fun x => x.1) <<< (80 * first)
  let m := entryBits (rows.map fun x => x.2) <<< (80 * first)
  let w := field16 (rowsMask first rows.length) ofs
  tagDark t || rows.any (fun x => hasNever x.1 x.2) || tagFits (t.1, t.2 &&& w) d m ofs

/-! Row checks and records -/

/-- The five words of a plane, slice 0 first. -/
def sliceWords (p : Plane) : List Word := (List.range 5).map fun j => (p >>> (16 * j)).setWidth 16

/-- Word A of R267. -/
def wordA (valid : Bool) (die row : Nat) : Word :=
  BitVec.ofNat 16 ((if valid then 32768 else 0) + 4096 * (die % 8) + row / 65536 % 64)

/-- The row check of R267. -/
def rowCheck (die row : Nat) (data mask : Plane) (valid : Bool) : Word :=
  crcWords 0xFFFF (sliceWords data ++ sliceWords mask ++ [wordA valid die row, BitVec.ofNat 16 row])

/-- The words of near data, byte 2i in bits [15:8] (R267). -/
def nearWords (n : Word64) : List Word :=
  (List.range 4).map fun i => BitVec.ofNat 16 (256 * field n (2 * i) 1 + field n (2 * i + 1) 1)

/-- The near-data check of R267. -/
def nearCheck (die row : Nat) (n : Word64) : Word :=
  crcWords 0xFFFF (nearWords n ++ [wordA false die row, BitVec.ofNat 16 row])

/-- Priority value: bytes 6 and 7 of near data (R69). -/
def prioOf (n : Word64) : Word := (n >>> 48).setWidth 16

/-- RCRC over bytes 0 to 27 of a record (R153). -/
def recordCrc (data mask : Plane) (near : Word64) : Word :=
  crcBytes 0 (bytesOf 10 data.toNat ++ bytesOf 10 mask.toNat ++ bytesOf 8 near.toNat)

/-- The 32 bytes of a record as a number (Table 4.3). -/
def recordNat (data mask : Plane) (near : Word64) (rcrc : Word) (valid poison : Bool) : Nat :=
  packItems [(10, data.toNat), (10, mask.toNat), (8, near.toNat), (2, rcrc.toNat),
    (2, (if valid then 1 else 0) + (if poison then 2 else 0))]

/-- A record read from memory. -/
def recordOf (b : BitVec 256) : Shadow :=
  { data := BitVec.ofNat 80 (field b 0 10), mask := BitVec.ofNat 80 (field b 10 10), near := BitVec.ofNat 64 (field b 20 8),
    rcrc := BitVec.ofNat 16 (field b 28 2), valid := field b 30 1 % 2 == 1, lost := false, injected := false }

/-- A record reads good: no uncorrectable error and a right RCRC (R153). -/
def recordGood (r : Shadow) : Bool := !r.lost && r.rcrc == recordCrc r.data r.mask r.near

/-- Every cell in the never state: data 1, mask 0 (R51, R288). -/
def neverPlane : Plane := BitVec.allOnes 80

/-- A row as the fill leaves it (R288). -/
def fillRow (die row : Nat) : Row :=
  { data := neverPlane, mask := 0, valid := false, check := rowCheck die row neverPlane 0 false, near := 0,
    nchk := nearCheck die row 0, prio := 0, ppar := true, poison := false, rewritten := false,
    failed := false }

/-- The fill record (R289). -/
def fillRecord : Shadow :=
  { data := neverPlane, mask := 0, near := 0, rcrc := recordCrc neverPlane 0 0, valid := false, lost := false,
    injected := false }

/-- A row passes its row check. -/
def rowGood (die row : Nat) (r : Row) : Bool := r.check == rowCheck die row r.data r.mask r.valid

/-- A row's near data passes its check. -/
def nearGood (die row : Nat) (r : Row) : Bool := r.nchk == nearCheck die row r.near

/-! Positions (R117, Table 3.9) -/

/-- Logical row index of a pan and row. -/
def rowIndex (pan row : Nat) : Nat := 8192 * pan + row

/-- The POS word's row fields. -/
def posOf (die row : Nat) : Nat := 4194304 * die + row

/-- A POS word: die, logical row index. -/
def posDie (p : Nat) : Nat := p / 4194304 % 8
def posRow (p : Nat) : Nat := p % 4194304

/-- Bits [31:25] of a POS field are zero (Table 4.11 step 2). -/
def posClean (p : Nat) : Bool := p / 33554432 == 0

/-! Submissions -/

/-- Slots of a submission by its opcode (Table 3.3). -/
def slotsOf (op : Nat) : Nat := if op = 0x02 || (0x40 ≤ op && op ≤ 0x7F) then 3 else 1

/-- Header fields (Table 3.4). -/
def subFlags (u : Sub) : Nat := field u.bytes 1 1
def subTable (u : Sub) : Nat := field u.bytes 4 2
def subKeylen (u : Sub) : Nat := field u.bytes 6 1
def subHits (u : Sub) : Nat := field u.bytes 7 1
def subGroup (u : Sub) : Nat := field u.bytes 14 1
def noEarly (u : Sub) : Bool := subFlags u % 2 == 1
def fenced (u : Sub) : Bool := subFlags u / 2 % 2 == 1

/-- Completion entries a submission reserves (Table 3.11). -/
def reservation (op : Nat) (bytes : BitVec 768) (early : Bool) : Nat :=
  let hits := field bytes 7 1
  let one := if 2 ≤ hits then min hits 8 else if early && field bytes 1 1 % 2 == 0 then 2 else 1
  if op = 0x01 then one
  else if op = 0x02 then
    let g := field bytes 14 1
    if g = 0 then 1 else min g 4 * one
  else 1

end Sys2Proof.Machine
end

