-- ==== Sys2Proof/Machine/Array.lean ====
section
/-!
DEFINITION. The search array and its golden shadow: rows, entries, row writes with their shadow records, repairs and poison
(R52 to R60, R152 to R164, R266 to R275, R284).
-/
namespace Sys2Proof.Machine

/-! Tables and pans -/

/-- The half-A number of a frond die in pair mode; the die itself otherwise (R36). -/
def baseDie (s : State) (die : Nat) : Nat := if inPair s && 5 ≤ die then die - 3 else die

/-- Every die that applies an update named for a frond (R36, R158): both halves' in pair mode, while they serve. An update made during a
resynchronisation reaches the returning half with the copy, which ends only when no update is outstanding (R44). -/
def copies (s : State) (die : Nat) : List Nat :=
  if inPair s then [die, die + 3].filter fun d => serving s (halfOf d) else [die]

/-- The die that serves searches named for a frond (R38, R41). -/
def serveDie (s : State) (die : Nat) : Nat := if inPair s && primary s == 1 then die + 3 else die

/-- The slot of a frond in a table's set. -/
def slotOfDie (t : Table) (die : Nat) : Option FrondSlot := t.fronds.find? fun f => f.die == die

/-- A pan lies in a table's range in a frond. -/
def inRange (t : Table) (die pan : Nat) : Bool :=
  match slotOfDie t die with
  | some f => f.first ≤ pan && pan < f.first + f.pans
  | none => false

/-- The table that holds a pan of a frond (R57). -/
def panOwner (s : State) (die pan : Nat) : Option (Nat × Table) :=
  s.tables.find? fun e => inRange e.2 (baseDie s die) pan

/-- Rows per entry at a row: the table's, or 1 in a free pan. -/
def rowsAt (s : State) (die row : Nat) : Nat :=
  match panOwner s die (row / 8192) with
  | some (_, t) => t.rows
  | none => 1

/-- First row of the entry that a row belongs to (R55). -/
def firstRow (s : State) (die row : Nat) : Nat := row / rowsAt s die row * rowsAt s die row

/-- The rows of an entry. -/
def entryRows (first n : Nat) : List Nat := (List.range n).map (first + ·)

/-- The physical pan that stands for a logical pan (R58). -/
def physPan (s : State) (die pan : Nat) : Nat := (mget (frond s die).arr.phys pan).getD (34 * (pan / 32) + pan % 32)

/-- A logical pan is dead (R297). -/
def panDead (s : State) (die pan : Nat) : Bool := (frond s die).arr.dead.contains pan

/-- Ledger index of a physical pan (Table 11.1). -/
def panIndex (die phys : Nat) : Nat := 544 * (die - 2) + phys

/-- The owner of a table, as the recipient of its events (Table 5.11 row 6). -/
def ownerRecip (s : State) (table : Nat) : Recip := .owner ((mget s.tables table).bind fun t => t.owner)

/-! Rows and records -/

/-- A row as the array holds it. -/
def rowAt (s : State) (die row : Nat) : Row := (mget (frond s die).arr.rows row).getD (fillRow die row)

/-- Store a row. -/
def putRow (s : State) (die row : Nat) (r : Row) : State := modArr s die fun a => { a with rows := mput a.rows row r }

/-- A row's golden shadow record. -/
def shadowAt (s : State) (die row : Nat) : Shadow := (mget (frond s die).arr.shadow row).getD fillRecord

/-- Store a record. -/
def putShadow (s : State) (die row : Nat) (r : Shadow) : State :=
  modArr s die fun a => { a with shadow := mput a.shadow row r }

/-- The poison mark of the entry of a row, held at its first row (R274). -/
def entryPoison (s : State) (die row : Nat) : Bool := (rowAt s die (firstRow s die row)).poison

/-- An entry stays poisoned: not every row has been written since the mark was set (R275). -/
def poisonStands (s : State) (die first n : Nat) : Bool :=
  (rowAt s die first).poison && (entryRows first n).any fun r => !(rowAt s die r).rewritten

/-- A row and its near data pass their checks. -/
def rowWhole (s : State) (die row : Nat) : Bool :=
  rowGood die row (rowAt s die row) && nearGood die row (rowAt s die row)

/-- A row can stand in for its shadow record: it and its near data pass their checks, and it had not failed when its entry was
poisoned (R154, R274). Near data that cannot be repaired poisons its entry as a row does (R72). -/
def arrayGood (s : State) (die row : Nat) : Bool := rowWhole s die row && !(rowAt s die row).failed

/-- An entry's valid state: every valid bit set (R56), or, during a repair, what it was before step 1 of R272. -/
def entryValid (s : State) (die first n : Nat) : Bool :=
  match mget (frond s die).arr.repairing first with
  | some bits => bits.all id
  | none => (entryRows first n).all fun r => (rowAt s die r).valid

/-- A row's own valid bit, as it stood before a repair under way (R272, R274). -/
def rowValid (s : State) (die first row : Nat) : Bool :=
  ((mget (frond s die).arr.repairing first).bind fun bits => bits[row - first]?).getD (rowAt s die row).valid

/-- The entry matches as valid in the array now. -/
def entryLive (s : State) (die first n : Nat) : Bool := (entryRows first n).all fun r => (rowAt s die r).valid

/-- An entry is under repair (R273). -/
def underRepair (s : State) (die first : Nat) : Bool := mhas (frond s die).arr.repairing first

/-- The INJECTED flag of a row's error, and the state with the mark consumed (R292). -/
def takeInjected (s : State) (die row : Nat) : State × Nat :=
  if mhas (frond s die).arr.injected row then
    (modArr s die fun a => { a with injected := mdel a.injected row }, flagInjected)
  else (s, 0)

/-- Poison an entry (R274): cells kept, checks recomputed, the mark set, valid bits restored, ROW_POISONED raised; the rows that
had failed are marked. An entry poisoned already, with no row that fails now, stays as it is. -/
def poisonEntry (s : State) (die row : Nat) : State :=
  let n := rowsAt s die row
  let first := firstRow s die row
  if (rowAt s die first).poison && !underRepair s die first && (entryRows first n).all (rowWhole s die) then s
  else
    let inj := if (entryRows first n).any fun r => mhas (frond s die).arr.injected r then flagInjected else 0
    let s := (entryRows first n).foldl (fun s i =>
      let r := rowAt s die i
      let v := rowValid s die first i
      putRow s die i { r with valid := v, check := rowCheck die i r.data r.mask v, nchk := nearCheck die i r.near,
                              poison := i == first, rewritten := false, failed := r.failed || !rowWhole s die i }) s
    let s := modArr s die fun a => { a with repairing := mdel a.repairing first }
    let tbl := ((panOwner s die (row / 8192)).map fun x => x.1).getD 0xFFFF
    raiseFull s 0x5004 2 die 0xFF inj 0 [(4, row), (2, tbl)] (ownerRecip s tbl)

/-- The VALID of a record made from its array row: for the first row that row's own bit, as before a repair; for the others what
the first record says, where it can be read, and the entry's state otherwise (R154, R272). -/
def validFromRow (s : State) (die row : Nat) : Bool :=
  let first := firstRow s die row
  if row = first then rowValid s die first row
  else if recordGood (shadowAt s die first) then (shadowAt s die first).valid
  else entryValid s die first (rowsAt s die row)

/-- A record made from its array row. -/
def recordFromRow (s : State) (die row : Nat) : Shadow :=
  let r := rowAt s die row
  { data := r.data, mask := r.mask, near := r.near, rcrc := recordCrc r.data r.mask r.near, valid := validFromRow s die row,
    lost := false, injected := false }

/-- One bad record is rebuilt from its array row, with SHADOW_REPAIRED; when the row fails as well, the entry is poisoned
(R274). -/
def rebuildOne (s : State) (die row : Nat) : State :=
  if recordGood (shadowAt s die row) then s
  else if arrayGood s die row then
    let inj := if (shadowAt s die row).injected then flagInjected else 0
    raiseFull (putShadow s die row (recordFromRow s die row)) 0x5003 0 die 0xFF inj 0 [(4, row)] .steward
  else poisonEntry s die row

/-- The row whose record shares a record's 64-byte line (R157). -/
def lineMate (row : Nat) : Nat := if row % 2 = 0 then row + 1 else row - 1

/-- A bad record is rebuilt, and with it the other record of its line, which is written whole (R157, R274). -/
def rebuildRecord (s : State) (die row : Nat) : State :=
  if recordGood (shadowAt s die row) then s else rebuildOne (rebuildOne s die row) die (lineMate row)

/-- The record a step builds on: the shadow's, rebuilt where it can be, otherwise the array row as it stands (R157). -/
def readRecord (s : State) (die row : Nat) : State × Shadow :=
  let s := rebuildRecord s die row
  if recordGood (shadowAt s die row) then (s, shadowAt s die row) else (s, recordFromRow s die row)

/-- Write a record whole, with its RCRC; the line's other record is rebuilt where it cannot be read (R157). -/
def putRecord (s : State) (die row : Nat) (data mask : Plane) (near : Word64) (valid : Bool) : State :=
  let s := putShadow s die row
    { data := data, mask := mask, near := near, rcrc := recordCrc data mask near, valid := valid, lost := false,
      injected := false }
  rebuildOne s die (lineMate row)

/-- Clear the poison mark once every row of the entry has been written since it was set and the shadow holds good records
(R275). -/
def settlePoison (s : State) (die row : Nat) : State :=
  let n := rowsAt s die row
  let first := firstRow s die row
  let f := rowAt s die first
  if f.poison && (entryRows first n).all fun r => (rowAt s die r).rewritten && recordGood (shadowAt s die r) then
    putRow s die first { f with poison := false }
  else s

/-- Write a row's planes, and its near data where given, with the valid bit 0 (R157, R159, R284). -/
def writeRow (s : State) (die row : Nat) (data mask : Plane) (near : Option Word64) : State :=
  let (s, rec0) := match near with
    | some _ => (s, shadowAt s die row)
    | none => readRecord s die row
  let r := rowAt s die row
  let r1 : Row := match near with
    | some v => { r with near := v, nchk := nearCheck die row v, prio := prioOf v, ppar := true }
    | none => r
  let s := putRow s die row
    { r1 with data := data, mask := mask, valid := false, check := rowCheck die row data mask false, rewritten := true,
              failed := false }
  let s := modArr s die fun a => { a with injected := mdel a.injected row }
  settlePoison (putRecord s die row data mask (near.getD rec0.near) false) die row

/-- Write the near data of a row (R164): priority in the same cycle. -/
def writeNear (s : State) (die row : Nat) (v : Word64) : State :=
  let (s, rec0) := readRecord s die row
  let r := rowAt s die row
  let s := putRow s die row { r with near := v, nchk := nearCheck die row v, prio := prioOf v, ppar := true }
  putRecord s die row rec0.data rec0.mask v rec0.valid

/-- Set or clear every valid bit of an entry in one array cycle (R56, R157); the records it writes may settle a poison mark
(R275). -/
def setValid (s : State) (die first n : Nat) (v : Bool) : State :=
  settlePoison ((entryRows first n).foldl (fun s i =>
    let (s, rec0) := readRecord s die i
    let r := rowAt s die i
    let s := putRow s die i { r with valid := v, check := rowCheck die i r.data r.mask v }
    putRecord s die i rec0.data rec0.mask rec0.near v) s) die first

/-- The invalidate step of an entry, which never refuses (R284): unreadable records are rebuilt first, and an entry with a row
and record that both fail is poisoned (R157, R274); a row that failed is rewritten from its record, or filled with the never
state where that is bad too. -/
def invalidateEntry (s : State) (die first n : Nat) : State :=
  let bad := (entryRows first n).filter fun i => !rowGood die i (rowAt s die i)
  let s := (entryRows first n).foldl (fun s i => rebuildRecord s die i) s
  (entryRows first n).foldl (fun s i =>
    let r := rowAt s die i
    let g := shadowAt s die i
    let (d, m) := if !bad.contains i then (r.data, r.mask)
      else if recordGood g then (g.data, g.mask) else (neverPlane, 0)
    let near := if recordGood g then g.near else r.near
    let s := putRow s die i { r with data := d, mask := m, valid := false, check := rowCheck die i d m false,
                                     failed := r.failed && !bad.contains i }
    putRecord s die i d m near false) s

/-! Pan power (R358, R359) -/

/-- A pan is in Retention. -/
def retained (s : State) (die pan : Nat) : Bool := !mhas (frond s die).arr.awake pan

/-- A use of a pan: it stands Idle from now on. -/
def usePan (s : State) (die pan : Nat) : State :=
  modArr s die fun a => { a with awake := mput a.awake pan ⟨s.tally.epoch, false⟩ }

/-- A write reaches a pan: woken from Retention at a charge, and used (R359). -/
def writePan (s : State) (die pan : Nat) (seat : Option Nat) : State :=
  let s := if retained s die pan then frondOp s die opWake 1 seat else s
  usePan s die pan

/-! Repairs (R272 to R274, R295) -/

/-- The charge of array operations on dies: row writes, and validates or invalidates (Table 9.3). -/
def arrayCost (s : State) (dies : List Nat) (writes valids : Nat) : Nat :=
  dies.foldl (fun c d =>
    let l := (frond s d).level
    c + writes * opCost s opRowWrite l + valids * opCost s opValidate l) 0

/-- Charge a repair of so many row writes and validates: claim 1 of Table 9.1, to no seat, out of what the pool still holds. -/
def chargeRepair (s : State) (die rows valids : Nat) : State :=
  let c := arrayCost s [die] rows valids
  modTally (bookOp s (coreRail die) c) fun t =>
    { t with repairs := t.repairs + c, bg := t.bg + c, qLeft := t.qLeft - c, overdraw := t.overdraw + (c - t.qLeft) }

/-- Count a repair of a row's pan: the ledger, unless injected, and PAN_ERR_RATE at 4 within 24 hours, with the flag of the fourth
(R292, R295). -/
def countRepair (s : State) (die row inj : Nat) : State :=
  let pan := row / 8192
  let phys := physPan s die pan
  let s := if inj = 0 then modLedger s fun l => { l with panRepairs := bump l.panRepairs (panIndex die phys) 1 } else s
  let now := nowNs s
  let old := ((mget (frond s die).arr.repairs phys).getD []).filter fun t => now < t + 86400000000000
  let s := modArr s die fun a => { a with repairs := mput a.repairs phys (now :: old) }
  if old.length + 1 = 4 then raiseFull s 0x1006 1 die 0xFF inj 0 [(2, pan), (4, 4)] .steward else s

/-- Step 1 of R272: every valid bit of the entry is cleared and the records are asked for. A row that fails its check goes on
failing it: its check changes as the valid bit does. -/
def startRepair (s : State) (die row : Nat) : State :=
  let n := rowsAt s die row
  let first := firstRow s die row
  if underRepair s die first then s
  else
    let bits := (entryRows first n).map fun i => (rowAt s die i).valid
    let s := (entryRows first n).foldl (fun s i =>
      let r := rowAt s die i
      putRow s die i { r with valid := false,
                              check := rowCheck die i r.data r.mask false ^^^ (r.check ^^^ rowCheck die i r.data r.mask r.valid) }) s
    modArr s die fun a => { a with repairing := mput a.repairing first bits }

/-- A row stands in the array as its record holds it, near data and priority with it; a failed row is whole again. Bad near
data raises ND_REPAIRED (R272). -/
def rowFromRecord (s : State) (die row : Nat) (v : Bool) : State :=
  let g := shadowAt s die row
  let r := rowAt s die row
  let bad := !nearGood die row r
  let s := putRow s die row
    { r with data := g.data, mask := g.mask, valid := v, check := rowCheck die row g.data g.mask v, near := g.near,
             nchk := nearCheck die row g.near, prio := prioOf g.near, ppar := true, failed := false }
  let (s, inj) := takeInjected s die row
  if bad then countRepair (raiseFull s 0x5002 0 die 0xFF inj 0 [(4, row)] .steward) die row inj else s

/-- Steps 2 to 4 of R272, once the records have arrived. -/
def finishRepair (s : State) (die first n : Nat) : State :=
  let s := (entryRows first n).foldl (fun s i => rebuildRecord s die i) s
  if !underRepair s die first then s
  else
    let v := (shadowAt s die first).valid
    let inj := if (entryRows first n).any fun i => mhas (frond s die).arr.injected i then flagInjected else 0
    let s := (entryRows first n).foldl (fun s i => rowFromRecord s die i v) (usePan s die (first / 8192))
    let s := modArr s die fun a => { a with repairing := mdel a.repairing first }
    let s := chargeRepair s die n 1
    let s := raiseFull s 0x5001 0 die 0xFF inj 0 [(4, first)] .steward
    countRepair s die first inj

/-- A near-data check failure: the 8 bytes are rewritten from the shadow in one array cycle and the entry stays valid (R272);
where the record is bad too, the entry is poisoned (R72, R274). -/
def repairNear (s : State) (die row : Nat) : State :=
  let g := shadowAt s die row
  if recordGood g then
    let (s, inj) := takeInjected s die row
    let r := rowAt s die row
    let s := putRow s die row { r with near := g.near, nchk := nearCheck die row g.near, prio := prioOf g.near, ppar := true }
    let s := chargeRepair (usePan s die (row / 8192)) die 1 0
    countRepair (raiseFull s 0x5002 0 die 0xFF inj 0 [(4, row)] .steward) die row inj
  else poisonEntry s die row

/-- A row is checked, as the scrubber and the winner check do: a bad row starts the repair of its entry, bad near data is
repaired at once (R272). -/
def checkRow (s : State) (die row : Nat) : State :=
  let r := rowAt s die row
  if !rowGood die row r then startRepair s die row
  else if !nearGood die row r then repairNear s die row
  else s

/-- A repair of an entry, run to its end before a partial write of it: unreadable records are rebuilt first, which poisons the entry
where a row fails as well; a poisoned entry stays as it is (R157, R272, R274, R284). -/
def repairNow (s : State) (die first n : Nat) : State :=
  let s := if poisonStands s die first n then s else (entryRows first n).foldl (fun s r => rebuildRecord s die r) s
  if underRepair s die first || (entryRows first n).any fun r => !rowGood die r (rowAt s die r) then
    finishRepair (startRepair s die first) die first n
  else s

/-- What a write takes an entry's valid state to be: its valid bits, or, where a row fails its check, the word of its first row's
record, so that a flipped valid bit refuses no write (R56, R154, R284). -/
def heldValid (s : State) (die first n : Nat) : Bool :=
  if !underRepair s die first && (entryRows first n).any (fun r => !rowGood die r (rowAt s die r)) &&
      recordGood (shadowAt s die first) then
    (shadowAt s die first).valid
  else entryValid s die first n

/-! Coverage (R64, R65, R160) -/

/-- The planes' bits of an entry. -/
def entryData (s : State) (die first n : Nat) : Key := entryBits ((entryRows first n).map fun r => (rowAt s die r).data)
def entryMask (s : State) (die first n : Nat) : Key := entryBits ((entryRows first n).map fun r => (rowAt s die r).mask)

/-- Some row of an entry holds a never cell. -/
def entryNever (s : State) (die first n : Nat) : Bool :=
  (entryRows first n).any fun r => hasNever (rowAt s die r).data (rowAt s die r).mask

/-- A tag covers an entry as the array holds it (R64). -/
def coversEntry (s : State) (t : Word × Word) (die first n ofs : Nat) : Bool :=
  covers t (entryData s die first n) (entryMask s die first n) ofs (entryNever s die first n)

/-- The active tag of a pan, which entries must be covered by: a bit that an error has flipped in the array is no part of it (R64, R66,
R269); a dead pan is always dark (R297). -/
def panTag (s : State) (die pan : Nat) : Word × Word :=
  if panDead s die pan then (0xFFFF, 0) else (reg s (tagAddr die pan), reg s (tagAddr die pan + 4))

/-- First rows of the valid entries of a pan, ascending: only listed rows can be valid. -/
def validEntries (s : State) (die pan n : Nat) : List Nat :=
  ((frond s die).arr.rows.filterMap fun e =>
    if e.1 / 8192 = pan && e.1 % n = 0 && entryValid s die e.1 n then some e.1 else none)

/-- The first valid entry of a pan that a tag would not cover (R65). -/
def uncovered (s : State) (t : Word × Word) (die pan n ofs : Nat) : Option Nat :=
  (validEntries s die pan n).find? fun f => !coversEntry s t die f n ofs

/-- A pan's shadow records are cleared (R151). -/
def clearShadow (s : State) (die pan : Nat) : State :=
  modArr s die fun a => { a with shadow := a.shadow.filter fun e => e.1 / 8192 != pan }

/-- Return a pan to the free state: fill rows, fill records, dark tag, no repair (R145, R150, R288). -/
def freePan (s : State) (die pan : Nat) : State :=
  let s := modArr s die fun a => { a with
    rows := a.rows.filter fun e => e.1 / 8192 != pan
    shadow := a.shadow.filter fun e => e.1 / 8192 != pan
    injected := a.injected.filter fun e => e.1 / 8192 != pan
    repairing := a.repairing.filter fun e => e.1 / 8192 != pan
    tagBad := mdel (mdel a.tagBad (2 * pan)) (2 * pan + 1)
    tagFlip := mdel (mdel a.tagFlip (2 * pan)) (2 * pan + 1)
    awake := mdel a.awake pan }
  let t := tagAddr die pan
  let s := covered (setReg s t 0xFFFF) t
  let s := covered (setReg s (t + 4) 0) (t + 4)
  modRegs s fun g => { g with staged := mdel (mdel g.staged t) (t + 4) }

end Sys2Proof.Machine
end

