-- ==== Sys2Proof/Machine/Rings.lean ====
section
/-!
DEFINITION. Lookup rings: enabling and disabling, doorbells, fetching, completions, their back-invalidates and interrupts
(R96 to R122, R136 to R138, R286, R287).
-/
namespace Sys2Proof.Machine

/-- Change a ring. -/
def modRing (s : State) (n : Nat) (f : Ring → Ring) : State := { s with rings := mmod s.rings n f }

/-- RING.STAT bits (R402). -/
def rstOverrun : Word := 1
def rstCfgErr : Word := 2
def rstReady : Word := 4
def rstIdle : Word := 8
def rstPoison : Word := 16

/-- RING.STAT of a ring. -/
def ringStat (s : State) (n : Nat) : Word := reg s (ringPage n + 0xC)

/-- READY (R99). -/
def ringReadyBit (s : State) (n : Nat) : Bool := (ringStat s n).getLsbD 2

/-- RING.CTL.EARLY and IRQ. -/
def ringEarly (s : State) (n : Nat) : Bool := (reg s (ringPage n + 8)).getLsbD 1
def ringIrq (s : State) (n : Nat) : Bool := (reg s (ringPage n + 8)).getLsbD 2

/-- The hub that serves a ring: the one whose port carries its seat (R96). -/
def ringHub (s : State) (n : Nat) : Nat :=
  match (mget s.rings n).bind fun r => r.holder.bind (seatPlace s) with
  | some p => placeHub p
  | none => 0

/-- The half that serves a ring is out, in pair mode. -/
def ringHalfOut (s : State) (n : Nat) : Bool := inPair s && !serving s (ringHub s n)

/-- The hub that writes a ring's completions: its own, or the serving half's once its own is out (R138). -/
def compHub (s : State) (n : Nat) : Nat := if ringHalfOut s n then primary s else ringHub s n

/-- Address of PWR.SLEEP_RES of a die. -/
def sleepResAddr (die : Nat) : Nat := if die < 2 then diePage die 0x13 + 0x44 else diePage die 0x23 + 0x48

/-- Store PWR.SLEEP_RES (Table 9.11a). -/
def setSleepRes (s : State) (die outcome step target reason : Nat) : State :=
  setReg s (sleepResAddr die) (BitVec.ofNat 16 (16384 * outcome + 1024 * step + 256 * target + reason))

/-- Wake a hub from Doze, or roll its sleep attempt back (R357, R363). A hub whose DDR PHY was off has its memory back only at
DIE_WAKE_DONE (Table 9.7): want 2 until then. -/
def wakeHub (s : State) (h : Nat) : State :=
  let w := s.tally.want.getD (6 + h) 0
  let s := if w = 1 then setSleepRes s h 3 0 1 0x20 else s
  let phy := s.tally.hubDoze.getD h false && s.pins.heldDdr.getD h none == some true
  modTally s fun t => { t with
    hubDoze := t.hubDoze.set h false, want := t.want.set (6 + h) (if phy || w == 2 then 2 else 0) }

/-- A request from the sideband wakes every hub that dozes (R357). -/
def sideWake (s : State) : State := (hubs s).foldl wakeHub s

/-- A hub serves its rings and memory: not frozen, its half in service. -/
def hubServes (s : State) (h : Nat) : Bool := !halted s h && serving s h

/-! Completions (R115, R119, R120, R287) -/

/-- The seat a ring's memory is used for. -/
def ringSeat (s : State) (n : Nat) : Nat := ((mget s.rings n).bind fun r => r.holder).getD 0xFF

/-- Address of a completion entry by its free-running count. -/
def compAddr (s : State) (n k : Nat) : Nat := (compRing s n).1 + 16 * (k % 2 ^ (compRing s n).2)

/-- PHASE of the entry with count k (R119). -/
def phaseOf (s : State) (n k : Nat) : Bool := k / 2 ^ (compRing s n).2 % 2 == 0

/-- Raise the ring's vector when it is armed and a completion becomes visible (R115). While the link of the holder is down the ring
is disarmed and no vector can be sent: the spec does not say whether it waits for the link (DESIGN CHOICE, log 26). -/
def ringVector (s : State) (n : Nat) : State :=
  match mget s.rings n with
  | some r =>
    if r.armed && ringIrq s n then
      let s := modRing s n fun r => { r with armed := false }
      match r.holder.bind (seatPlace s) with
      | some p => if placeUp s p then send s (.msix p r.index) else s
      | none => s
    else s
  | none => s

/-- Write one completion entry whole at CQ_TAIL (R119). -/
def writeComp (s : State) (n : Nat) (c : Comp) : State :=
  match mget s.rings n with
  | some r =>
    let k := r.cqTail.toNat
    let s := devWrite s (ringSeat s n) (compAddr s n k) (compNat c (phaseOf s n k)) 16
    ringVector (modRing s n fun r => { r with cqTail := r.cqTail + 1 }) n
  | none => s

/-- The ring stops as on overrun: a completion line is poisoned (R287). The entry is passed over, and the count of completions not
written rises. -/
def stopPoisoned (s : State) (n : Nat) : State :=
  setReg (modRing s n fun r => { r with stopped := some (r.stopped.getD 0 + 1), cqTail := r.cqTail + 1 }) (ringPage n + 0xC)
    (ringStat s n ||| rstPoison)

/-- The line of the ring's next completion entry but k. -/
def compLine (s : State) (n k : Nat) : Nat :=
  lineOf (compAddr s n (((mget s.rings n).map fun r => r.cqTail.toNat).getD 0 + k))

/-- A completion line waits: a host holds it in A, its back-invalidate is outstanding (R250), its home is cut off (Table 1.7), or no
media is left for it (R224). -/
def compWaits (s : State) (n line : Nat) : Bool :=
  homeCut s (compHub s n) line || writeShort s line false ||
    (homes s line).any fun x => heldA s line x || mhas s.coh.txns (hkey line x)

/-- A completion line is poisoned as its hub reads it (R287). -/
def compPoison (s : State) (n line : Nat) : Bool := poisonedAt s line (homeHub s (compHub s n) line)

/-- Write the entries of one step, each at CQ_TAIL; an entry whose line is poisoned stops the ring and is counted (R287). Answers the
lines written too. -/
def writeComps (n : Nat) : List Comp → State → List Nat → State × List Nat
  | [], s, ls => (s, ls)
  | c :: t, s, ls =>
    let line := compLine s n 0
    if compPoison s n line then writeComps n t (stopPoisoned s n) ls else writeComps n t (writeComp s n c) (line :: ls)

/-- The lines that the entries of one step are written into, read as they must be for a part of a line (R276). -/
def stepLines (s : State) (n k : Nat) : List Nat := ((List.range k).map (compLine s n)).eraseDups

/-- Write the completions that are ready, oldest first, the entries of a MULTI list in a single step (R122): a step of which some line
waits stays owed, with every later one. Answers the lines written and what is still owed. -/
def flushList (n : Nat) : List (Nat × List Comp) → State → List Nat → State × List Nat × List (Nat × List Comp)
  | [], s, ls => (s, ls, [])
  | c :: t, s, ls =>
    if halted s (compHub s n) then (s, ls, c :: t)
    else
      let lines := stepLines s n c.2.length
      let s := lines.foldl (fun s l => readIn s (ringSeat s n) (64 * l) 64) s
      match (lines.filter fun l => !compPoison s n l).filter (compWaits s n) with
      | [] =>
        let (s, ls) := writeComps n c.2 s ls
        flushList n t s ls
      | w => (w.foldl (fun s l => (needLine s l false).getD s) s, ls, c :: t)

/-- A submission whose final completions have all been written is gone, and its unused entries are free (R106, R121). -/
def reap (s : State) (n : Nat) : State :=
  modRing s n fun r => { r with subs := r.subs.filter fun u => u.members != 0 || r.owed.any fun e => e.1 == u.id }

/-- The INJECTED flag of RING_POISONED: an injection has poisoned a line of the ring (R292). -/
def ringPoisonFlag (s : State) (n : Nat) : Nat :=
  if s.mem.poison.any fun e => e.2 && (ringRegions s n).any fun r => overlap r (64 * (e.1 / 2), 64) then flagInjected else 0

/-- RING_POISONED, once the last fetched submission of a ring stopped by poison has gone (R287). -/
def poisonedEvent (s : State) (n : Nat) : State :=
  match mget s.rings n with
  | some r =>
    match r.stopped, r.subs, r.owed with
    | some (k + 1), [], [] =>
      let s := modRing s n fun r => { r with stopped := some 0 }
      raiseFull s 0x2003 2 0xFF (r.holder.getD 0xFF) (ringPoisonFlag s n) 0 [(2, n), (4, k + 1)] (.seat (r.holder.getD 0xFF))
    | _, _, _ => s
  | none => s

/-- Write what a ring owes, then back-invalidate the hosts that hold the lines written (R119, R120). -/
def flush (s : State) (n : Nat) : State :=
  match mget s.rings n with
  | some r =>
    let (s, ls, rest) := flushList n r.owed s []
    let s := modRing s n fun r => { r with owed := rest }
    let s := ls.eraseDups.foldl (fun s l => (needLine s l false).getD s) s
    poisonedEvent (reap s n) n
  | none => s

/-- Write what every ring owes. -/
def flushAll (s : State) : State := (s.rings.map fun e : Nat × Ring => e.1).foldl flush s

/-- Completions of a submission are ready, to be written in one step: they take entries reserved. -/
def pushComps (s : State) (n id : Nat) (cs : List Comp) : State :=
  modRing s n fun r => { r with
    owed := r.owed ++ [(id, cs)]
    subs := r.subs.map fun u => if u.id = id then { u with reserve := u.reserve - cs.length } else u }

/-- One completion of a submission is ready. -/
def pushComp (s : State) (n id : Nat) (c : Comp) : State := pushComps s n id [c]

/-- A member of a submission has its last completion ready (R122). -/
def endMember (s : State) (n id : Nat) : State :=
  modRing s n fun r => { r with subs := r.subs.map fun u => if u.id = id then { u with members := u.members - 1 } else u }

/-- The last completion of a submission or member. -/
def complete (s : State) (n id : Nat) (c : Comp) : State := flush (endMember (pushComp s n id c) n id) n

/-- A one-completion submission ends with a status and DATA (R117, R122). -/
def finish (s : State) (n : Nat) (u : Sub) (st : BitVec 8) (data : Word64) : State :=
  complete s n u.id (finalComp u.tag st 0 0 data)

/-- Mark a submission started, with the number of members that will complete. -/
def startSub (s : State) (n id members : Nat) : State :=
  modRing s n fun r => { r with
    subs := r.subs.map fun u => if u.id = id then { u with started := true, members := members } else u }

/-- An atomic has started: the line of its word is asked for (R136). -/
def askedSub (s : State) (n id : Nat) : State :=
  modRing s n fun r => { r with subs := r.subs.map fun u => if u.id = id then { u with asked := true } else u }

/-- A submission waits to be started. -/
def unstarted (u : Sub) : Bool := !u.started && u.members != 0

/-- A submission is a search. -/
def isSearch (op : Nat) : Bool := op == 0x01 || op == 0x02

/-- A table command that has not started holds no later search back, which only a FENCE of its own can hold behind it (R161). -/
def lets (u : Sub) : Bool := decide (0x40 ≤ u.op)

/-- The submission that the dispatcher starts next of those a row names: the oldest not started, unless a FENCE holds it behind an
earlier one (R106, R124); a search passes commands that wait (R161). -/
def frontSub (s : State) (n : Nat) (search : Bool) : Option Sub :=
  (mget s.rings n).bind fun r =>
    match r.subs.find? fun u => unstarted u && !(search && lets u) with
    | some u => if fenced u && (r.subs.head?.map fun x => x.id) != some u.id then none else some u
    | none => none

/-- The next submission of a ring where its opcode is op, with the seat that holds the ring. -/
def nextSub (s : State) (n op : Nat) : Option (Sub × Nat) :=
  (frontSub s n (isSearch op)).bind fun u =>
    if u.op = op then ((mget s.rings n).bind fun r => r.holder).map fun seat => (u, seat) else none

/-! Fetching (R101, R112, R121, R286) -/

/-- Free completion entries less those reserved and those already owed (R121). -/
def freeEntries (s : State) (r : Ring) (n : Nat) : Nat :=
  let written := (r.cqTail - r.cqHead).toNat
  2 ^ cqLog s n - written - (r.subs.foldl (fun x u => x + u.reserve) 0) - (r.owed.foldl (fun x e => x + e.2.length) 0)

/-- The address of a submission slot by its free-running count. -/
def slotAddr (s : State) (n k : Nat) : Nat := ringBase s n 0x50 + 32 * (k % 2 ^ sqLog s n)

/-- The ring may fetch: enabled, ready, not stopped, closing, lost or detaching; its hub serves and its port is up (R100,
R111, R136 to R138, R287, R431). -/
def mayFetch (s : State) (n : Nat) (r : Ring) : Bool :=
  ringEn s n && ringReadyBit s n && !r.closing && !r.overrun && r.stopped.isNone && !r.lost && !r.detaching &&
    hubServes s (ringHub s n) &&
    (match r.holder.bind (seatPlace s) with
     | some p => placeUp s p && ((s.ports[portOf p]?).map fun x => x.st) == some .up
     | none => false)

/-- Take a submission of k slots from the ring: SQ_HEAD moves past it, DISP.SUBMITS counts it. -/
def takeSub (s : State) (n k : Nat) (u : Sub) : State :=
  let s := modRing s n fun r => { r with sqHead := r.sqHead + BitVec.ofNat 32 k, subs := r.subs ++ [u] }
  { s with nextId := s.nextId + 1
           disp := s.disp.modify (ringHub s n) fun d => { d with submits := d.submits + 1 } }

/-- A known opcode (Tables 3.3, 4.1). -/
def knownOp (op : Nat) : Bool :=
  [0x01, 0x02, 0x21, 0x22, 0x23, 0x40, 0x41, 0x42, 0x48, 0x49, 0x4A, 0x4B, 0x4C, 0x4D, 0x50, 0x54, 0x55, 0x56, 0x58, 0x59,
   0x5A, 0x5C, 0x5D].contains op

/-- A slot is poisoned as its ring's hub reads it, or its extent's key is absent (R230, R286). -/
def slotPoison (s : State) (n k : Nat) : Bool :=
  let line := lineOf (slotAddr s n k)
  poisonedAt s line (homeHub s (ringHub s n) line) || keyAbsent s (64 * line)

/-- The home of a slot is cut off from its ring's hub (Table 1.7). -/
def slotCut (s : State) (n k : Nat) : Bool := homeCut s (ringHub s n) (lineOf (slotAddr s n k))

/-- The bytes of a submission of k slots from count head on, slot 0 lowest (R112). -/
def subBytes (s : State) (n head k : Nat) : BitVec 768 :=
  let word (i : Nat) : Nat := devRead s (slotAddr s n (head + i)) 32
  BitVec.ofNat 768 (if k = 3 then word 0 + 2 ^ 256 * word 1 + 2 ^ 512 * word 2 else word 0)

/-- The record of a submission being fetched. -/
def newSub (s : State) (n op res : Nat) (tag : Word) (b : BitVec 768) (poison : Bool) : Sub :=
  { id := s.nextId, op := op, bytes := b, tag := tag, poison := poison, reserve := res, started := false, members := 1,
    fetched := nowNs s, early := ringEarly s n, asked := false }

/-- Take the poisoned slots i of the k slots of a submission: each is a submission of its own that ends POISONED with the slot's count
as TAG (R286). SQ_HEAD passes every slot of a long form that one of them has broken: what becomes of its other slots is not
stated (DESIGN CHOICE, log 26). -/
def takePoisoned (s : State) (n head k : Nat) (bad : List Nat) : State :=
  (bad.foldl (fun (x : State × Nat) i =>
    let u := newSub x.1 n 0 1 (BitVec.ofNat 16 (head + i)) 0 true
    (finish (takeSub x.1 n x.2 u) n u stPoisoned 0, 0)) (s, k)).1

/-- What the slots after the first of a submission of k slots meet (R112, R250): it has one or three. -/
def needTail (s : State) (n head k : Nat) : Option State :=
  if k = 3 then (needRegion s (slotAddr s n (head + 1)) 32 false).or (needRegion s (slotAddr s n (head + 2)) 32 false)
  else none

/-- Submissions of a ring are outstanding. -/
def ringBusy (s : State) (n : Nat) : Bool := ((mget s.rings n).map fun r : Ring => !r.subs.isEmpty).getD false

/-- Take a submission whose slots no host holds: poisoned slots end it (R286); otherwise it needs its completion entries
free, and an unknown opcode ends it BAD_OPCODE (R112, R121), which with FENCE waits for every earlier submission (R106). -/
def fetchSlots (s : State) (n head op k free : Nat) : State :=
  let s := (List.range k).foldl (fun s i => meetRegion s (ringSeat s n) (slotAddr s n (head + i)) 32) s
  match (List.range k).filter fun i => slotPoison s n (head + i) with
  | i :: t => if free < t.length + 1 then s else takePoisoned s n head k (i :: t)
  | [] =>
    let bytes := subBytes s n head k
    let res := reservation op bytes (ringEarly s n)
    let u := newSub s n op res (BitVec.ofNat 16 (field bytes 2 2)) bytes false
    if free < res || !knownOp op && fenced u && ringBusy s n then s
    else
      let s := takeSub s n k u
      if knownOp op then s else finish s n u stBadOpcode 0

/-- Fetch the next submission of a ring that may fetch (R112). -/
def fetchNext (s : State) (n : Nat) (r : Ring) : State :=
  let head := r.sqHead.toNat
  let avail := (r.sqTail - r.sqHead).toNat
  let free := freeEntries s r n
  if avail = 0 || slotCut s n head then s
  else match needRegion s (slotAddr s n head) 32 false with
  | some s' => s'
  | none =>
    let s := meetRegion s (ringSeat s n) (slotAddr s n head) 32
    if slotPoison s n head then
      if free = 0 then s else takePoisoned s n head 1 [0]
    else
      let op := devRead s (slotAddr s n head) 1
      let k := slotsOf op
      if avail < k || (List.range k).any (fun i => slotCut s n (head + i)) then s
      else match needTail s n head k with
      | some s' => s'
      | none => fetchSlots s n head op k free

/-- SUBMISSION_FETCH (R112). -/
def execSubmissionFetch (ring : BitVec 10) (s : State) : Res :=
  .next (match mget s.rings ring.toNat with
    | some r => if mayFetch s ring.toNat r then fetchNext s ring.toNat r else s
    | none => s)

/-! Enabling and disabling (R97 to R100, R385) -/

/-- The configuration checks of R98. -/
def ringCfgOk (s : State) (n : Nat) : Bool :=
  match (mget s.rings n).bind fun r => r.holder with
  | none => false
  | some seat =>
    let sq := sqLog s n
    let cq := cqLog s n
    let sb := ringBase s n 0x50
    let cb := ringBase s n 0x60
    let db := ringBase s n 0x70
    let inR (x : Nat) : Bool := 6 ≤ x && x ≤ 16
    let rs := ringRegions s n
    inR sq && inR cq && sb % max (32 * 2 ^ sq) 4096 == 0 && cb % max (16 * 2 ^ cq) 4096 == 0 && db % 64 == 0 &&
      rs.all (fun x => regionOk s seat x.1 x.2 true) &&
      !overlap (sb, 32 * 2 ^ sq) (cb, 16 * 2 ^ cq) && !overlap (sb, 32 * 2 ^ sq) (db, 64) &&
      !overlap (cb, 16 * 2 ^ cq) (db, 64) &&
      !(s.rings.any fun e => e.1 != n && (ringUses s e).any fun x => rs.any (overlap x))

/-- Far-data caches hold no line of a ring: what they hold of a ring that is enabled leaves them, dirty data written back (R238). -/
def clearCaches (s : State) (n : Nat) : State :=
  let mine (line : Nat) : Bool := (ringRegions s n).any (overlap (64 * line, 64))
  (s.coh.copies.filter fun e => decide (e.1 % 32 < 8) && mine (e.1 / 64)).foldl (fun s (e : Nat × CopySt) =>
    let line := e.1 / 64
    let h := e.1 / 32 % 2
    let a := e.1 % 32
    let s := checkCopy s line h a (dirtySt (copyOf s line h a))
    leave (if dirtySt (copyOf s line h a) then toWb s line h else s) line h a) s

/-- EN is written from 0 to 1 (R98, R99, R402): the status bits are cleared; then the enable is refused with CFG_ERR, or the ring is
enabled and every host copy of the completion ring asked back. -/
def enableRing (s : State) (n : Nat) : State :=
  let st := ringPage n + 0xC
  let s := modRing (setReg s st (ringStat s n &&& rstCfgErr)) n fun r => { r with overrun := false }
  if !ringCfgOk s n then setReg s st (ringStat s n ||| rstCfgErr)
  else
    let s := setReg s (ringPage n + 8) (reg s (ringPage n + 8) ||| 1)
    let s := clearCaches (modRing s n fun r => { r with stopped := none, lost := false, closing := false }) n
    (needRegion s (ringBase s n 0x60) (16 * 2 ^ cqLog s n) false).getD s

/-- EN goes from 1 to 0: fetching ends, and what was fetched completes into the completion ring as it stands now (R100). A ring that is
armed stays so: only its vector disarms it (R115). -/
def disableRing (s : State) (n : Nat) : State :=
  let a := ringPage n + 8
  let g := compRing s n
  let s := setReg s a (reg s a &&& 0xFFFE)
  modRing s n fun r => { r with closing := true, old := some g }

/-- A masked write of RING.CTL, judged against the EN held before it (R384, R385). -/
def ringCtlWrite (s : State) (n : Nat) (w : Word32) : State :=
  let a := ringPage n + 8
  let m := maskOf w
  let old := reg s a
  let en1 := if m.getLsbD 0 then (dataOf w).getLsbD 0 else old.getLsbD 0
  if old.getLsbD 0 then
    let s := if en1 then s else disableRing s n
    if m &&& 6 = 0 then s else reject s (ringPage n) 0 8
  else
    let s := if m &&& 6 = 0 then s else covered (setReg s a (maskedWrite w 6 old)) a
    if en1 then enableRing s n else s

/-- A 32-bit write of a RING page register by a logical device: the reach check, and the discard of its pending guarded
write (R377, R391). -/
def ringCtlAccess (p : Place) (ring : BitVec 10) (w : Word32) (s : State) : State :=
  let a := ringPage ring.toNat + 8
  match lookup s p a with
  | some (_, _, .write) =>
    if maskOf w = 0 then s else ringCtlWrite (dropGuard s p (pageBase a)) ring.toNat w
  | _ => busError s p a false

/-- RING_ENABLE (R98): a write of RING.CTL. -/
def execRingEnable (p : Place) (ring : BitVec 10) (w : Word32) (s : State) : Res := .next (ringCtlAccess p ring w s)

/-- RING_DISABLE (R100): a write of RING.CTL. -/
def execRingDisable (p : Place) (ring : BitVec 10) (w : Word32) (s : State) : Res := .next (ringCtlAccess p ring w s)

/-- What the package holds of pages p0 to p1 that become ZERO leaves it. -/
def dropPages (s : State) (p0 p1 : Nat) : State :=
  let keep (line : Nat) : Bool := !(decide (p0 ≤ pageOfLine line) && decide (pageOfLine line < p1))
  modCoh s fun c => { c with
    copies := c.copies.filter fun e => keep (e.1 / 64)
    dir := c.dir.filter fun e => keep (e.1 / 2)
    buf := c.buf.filter fun e => keep (e.1 / 2)
    wb := c.wb.filter fun k => keep (k / 2)
    spec := c.spec.filter fun e => keep e.1
    twin := c.twin.filter fun k => keep (k / 64)
    damage := c.damage.filter fun e => keep (e.1 / 64) }

/-- Zero a region of a seat: whole pages become ZERO, other lines are written whole with zeros (R99). -/
def zeroRegion (s : State) (who a n : Nat) : State :=
  let p0 := (a + 4095) / 4096
  let p1 := (a + n) / 4096
  let s := (List.range (p1 - p0)).foldl (fun s k => zeroPage s (p0 + k)) (dropPages s p0 p1)
  (List.range ((a + n + 63) / 64 - a / 64)).foldl (fun s k =>
    let line := a / 64 + k
    if p0 ≤ line / 64 && line / 64 < p1 then s else devWrite s who (64 * line) 0 64) s

/-- Some line of a region is homed on a hub that both cross links cut off from this one (Table 1.7). -/
def regionCut (s : State) (hub a n : Nat) : Bool :=
  crossCut s && (List.range ((a + n + 4095) / 4096 - a / 4096)).any fun k => homeCut s hub (64 * (a / 4096 + k))

/-- RING_READY (R99): the zeroing and back-invalidation are done; counters 0, READY set. Before every host has answered, while
submissions fetched before the enable are outstanding, and while a line of the ring is cut off from its hub (Table 1.7), nothing
happens yet. -/
def execRingReady (ring : BitVec 10) (s : State) : Res :=
  let n := ring.toNat
  .next (match mget s.rings n with
    | some r =>
      if !ringEn s n || ringReadyBit s n || !r.subs.isEmpty || !r.owed.isEmpty ||
        regionCut s (ringHub s n) (ringBase s n 0x60) (16 * 2 ^ cqLog s n) then s
      else match needRegion s (ringBase s n 0x60) (16 * 2 ^ cqLog s n) false with
        | some s' => s'
        | none =>
          let s := zeroRegion s (ringSeat s n) (ringBase s n 0x60) (16 * 2 ^ cqLog s n)
          let s := modRing s n fun r => { r with sqTail := 0, cqHead := 0, sqHead := 0, cqTail := 0, old := none }
          setReg s (ringPage n + 0xC) (ringStat s n ||| rstReady)
    | none => s)

/-! Doorbells (R109 to R115) -/

/-- Merge the enabled bytes of a 32-bit write. -/
def mergeBytes (old v : Word32) (be : BitVec 4) : Word32 :=
  let m : Word32 := BitVec.ofNat 32 ((List.range 4).foldl (fun x i => x + if be.getLsbD i then 255 * 256 ^ i else 0) 0)
  (old &&& ~~~m) ||| (v &&& m)

/-- A write reaches SQ_TAIL (R111): a difference of 0 changes nothing (R19). A value between SQ_HEAD and the old SQ_TAIL is taken, which
withdraws the slots above it that were not fetched (DESIGN CHOICE, log 26). -/
def sqTailWrite (s : State) (n : Nat) (v : Word32) : State :=
  match mget s.rings n with
  | some r =>
    let d := (v - r.sqHead).toNat
    if d = 0 then s
    else if d ≤ 2 ^ sqLog s n then modRing s n fun r => { r with sqTail := v }
    else
      let s := modRing s n fun r => { r with overrun := true }
      let s := setReg s (ringPage n + 0xC) (ringStat s n ||| rstOverrun)
      event s 0x2001 1 0xFF (r.holder.getD 0xFF) [(2, n), (4, r.sqHead.toNat), (4, v.toNat)] (.seat (r.holder.getD 0xFF))
  | none => s

/-- A write reaches CQ_HEAD (R114). -/
def cqHeadWrite (s : State) (n : Nat) (v : Word32) : State :=
  match mget s.rings n with
  | some r =>
    if (v - r.cqHead).toNat ≤ (r.cqTail - r.cqHead).toNat then modRing s n fun r => { r with cqHead := v }
    else event s 0x2002 1 0xFF (r.holder.getD 0xFF) [(2, n), (4, v.toNat), (4, r.cqTail.toNat)]
      (.seat (r.holder.getD 0xFF))
  | none => s

/-- A write reaches IRQ_ARM: 1 arms (R115). -/
def irqArmWrite (s : State) (n : Nat) (v : Word32) : State :=
  if v = 1 then modRing s n fun r => { r with armed := true } else s

/-- A doorbell line takes writes: its ring is enabled and ready (R99). -/
def doorbellOpen (s : State) (n : Nat) : Bool := ringEn s n && ringReadyBit s n

/-- Which counter of a doorbell line a write names. -/
inductive Bell where
  | sqTail | cqHead | irqArm
deriving DecidableEq, Repr

/-- Write the enabled bytes of one field of a doorbell line (R110). IRQ_ARM keeps no value: bytes of it that are not enabled count as 0,
so that byte 0 alone can arm (DESIGN CHOICE, log 26). -/
def bellWrite (s : State) (n : Nat) (b : Bell) (be : BitVec 4) (v : Word32) : State :=
  if be = 0 || !doorbellOpen s n then s
  else
    let s := wakeHub s (ringHub s n)
    match mget s.rings n with
    | some r =>
      match b with
      | .sqTail => sqTailWrite s n (mergeBytes r.sqTail v be)
      | .cqHead => cqHeadWrite s n (mergeBytes r.cqHead v be)
      | .irqArm => irqArmWrite s n (mergeBytes 0 v be)
    | none => s

/-- A host's doorbell write: its seat must reach the line with the read-write right (R203). -/
def hostBell (p : Place) (ring : BitVec 10) (b : Bell) (be : BitVec 4) (v : Word32) (s : State) : State :=
  match seatOf s p with
  | some seat =>
    if placeUp s p && reaches s seat (ringBase s ring.toNat 0x70) true false then bellWrite s ring.toNat b be v else s
  | none => s

/-- SQ_TAIL_WRITE (R111). -/
def execSqTailWrite (p : Place) (ring : BitVec 10) (be : BitVec 4) (v : Word32) (s : State) : Res :=
  .next (hostBell p ring .sqTail be v s)

/-- CQ_HEAD_WRITE (R114). -/
def execCqHeadWrite (p : Place) (ring : BitVec 10) (be : BitVec 4) (v : Word32) (s : State) : Res :=
  .next (hostBell p ring .cqHead be v s)

/-- IRQ_ARM_WRITE (R115). -/
def execIrqArmWrite (p : Place) (ring : BitVec 10) (be : BitVec 4) (v : Word32) (s : State) : Res :=
  .next (hostBell p ring .irqArm be v s)

/-- The 64 bytes a doorbell line reads as (Table 3.7). -/
def doorbellRead (s : State) (n : Nat) : Line :=
  match mget s.rings n with
  | some r =>
    let st := (if ringEn s n then 1 else 0) + (if ringReadyBit s n then 2 else 0) + (if r.detaching then 4 else 0) +
      (if r.overrun then 8 else 0)
    BitVec.ofNat 512 (packItems [(4, r.sqTail.toNat), (4, r.cqHead.toNat), (8, 0), (4, r.sqHead.toNat), (4, r.cqTail.toNat),
      (4, st)])
  | none => 0

end Sys2Proof.Machine
end

