-- ==== Sys2Proof/Machine/Power.lean ====
section
/-!
DEFINITION. Waking dies, and the covenants on table room, which follow every change of what they draw on (R330, R355 to R363).
-/
namespace Sys2Proof.Machine

/-! Sleep and wake (R357, R361 to R363) -/

/-- The frond is present, in service and not lost. -/
def frondServes (s : State) (die : Nat) : Bool :=
  let f := frond s die
  2 ≤ die && present s die && dieIn s die && !f.lost && !f.svcOut

/-- A wake trigger of a frond (R357, R363): a sleep under way is rolled back; a sleeping frond starts its wake: its rail comes back from
Spore, or rises from the retention voltage of Moss (R462). -/
def wakeDie (s : State) (die : Nat) : State :=
  let f := frond s die
  let s := match f.sleeping with
    | some o => setSleepRes (modFrond s die fun f => { f with sleeping := none }) die 3 0 o.target 0x20
    | none => s
  if f.dstate = 0 || f.waking || halted s (halfOf die) || !frondServes s die then s
  else
    let s := modFrond (wakeHub s (halfOf die)) die fun f => { f with waking := true }
    match f.dstate with
    | 2 => send s (.avs (coreRail die) (frondMv f.wakeLevel))
    | 3 => { s with pins := { s.pins with enFr := s.pins.enFr.set (die - 2) true } }
    | _ => s

/-- A register write to a page of a sleeping die wakes the die (R394). -/
def wakePage (s : State) (a : Nat) : State :=
  let d := a / 0x00400000
  if 8 ≤ d then s else if d < 2 then wakeHub s d else wakeDie s d

/-- An address names a page of a frond that sleeps in Moss or Spore (R394). -/
def sleepsAt (s : State) (a : Nat) : Bool :=
  let d := a / 0x00400000
  d < 8 && frondServes s d && decide (2 ≤ (frond s d).dstate)

/-- A write of the logical device to a page of the same die waits: later accesses of the device wait behind it (R394). -/
def lateFor (s : State) (p : Place) (a : Nat) : Bool :=
  s.regs.late.any fun e => !e.taken && e.place == p && e.addr / 0x00400000 == a / 0x00400000

/-- A write that reaches its page has to wait for the page's frond (R394). -/
def writeWaits (s : State) (p : Place) (a : Nat) : Bool :=
  (sleepsAt s a || lateFor s p a) && (match lookup s p a with
    | some (_, _, .write) => true
    | _ => false)

/-- Keep a write until its frond is in D0, and wake the frond (R394). -/
def queueWrite (s : State) (p : Place) (a : Nat) (w : Word32) : State :=
  modRegs (wakePage s a) fun g => { g with late := g.late ++ [⟨p, a, w, false⟩] }

/-- The frond's engines run: D0, no sleep, wake or relock under way, and its half not frozen. -/
def awake (s : State) (die : Nat) : Bool :=
  let f := frond s die
  f.dstate == 0 && f.sleeping.isNone && !f.waking && !f.relock && !halted s (halfOf die)

/-- The frond's engines finish what they have started: it is in D0 and not waking, though it may be stopping for a sleep or a relock
(R353, R361). -/
def working (s : State) (die : Nat) : Bool :=
  let f := frond s die
  f.dstate == 0 && !f.waking && !halted s (halfOf die)

/-- The fronds a command needs: none where all are awake, otherwise the state with their wakes begun. -/
def needFronds (s : State) (dies : List Nat) : Option State :=
  if dies.all (awake s) then none else some (dies.foldl wakeDie s)

/-! Table room (R325, R330) -/

/-- A table's room: entries its ranges hold, dead pans left out (R297, R325); in pair mode a pan that is dead in either half takes no
entry (R36). A lost frond's ranges hold none (R49). -/
def tableRoom (s : State) (t : Table) : Nat :=
  t.fronds.foldl (fun n f =>
    let live := (List.range f.pans).filter fun k =>
      !panDead s f.die (f.first + k) && !(inPair s && panDead s (f.die + 3) (f.first + k))
    if !frondServes s f.die && !inPair s then n else n + 8192 * live.length / t.rows) 0

/-- Resolve the table room covenants, with the reason of a new breach or of room lost now; a running one keeps its reason otherwise
(R330, R332). -/
def roomResolve (s : State) (reason : Nat) : State :=
  s.covs.foldl (fun s (e : Nat × Cov) =>
    if e.2.kind = 2 then
      match mget s.tables e.2.object with
      | some t =>
        let r := tableRoom s t
        if r < e.2.amount then
          covShort s e.1 r (e.2.amount - r) (if e.2.breach && decide (e.2.given ≤ r) then e.2.reason.toNat else reason)
        else covFull s e.1 e.2.amount
      | none => s
    else s) s

end Sys2Proof.Machine
end

