-- ==== Sys2Proof/Machine/Coherence.lean ====
section
/-!
DEFINITION. Coherence: the home directory and snoop filter, agents' requests, host requests against on-package copies,
transactions, victims and the retry queue (R236 to R265).
-/
namespace Sys2Proof.Machine

/-! Agents (Table 6.1) -/

/-- A line lies in an enabled ring or is its doorbell line. -/
def ringLine (s : State) (line : Nat) : Bool := overlapsRing s (64 * line) 64

/-- The lines an agent holds. -/
def agentLines (s : State) (a : Nat) : List Nat := (s.coh.copies.filter fun e => e.1 % 32 == a).map fun e => e.1 / 64

/-- A request of this agent. -/
def fromAgent (a : Nat) : CohReq → Bool
  | .agent b _ _ _ => a == b
  | _ => false

/-- The lines that an agent's requests in progress or waiting ask for. -/
def agentAsks (s : State) (a : Nat) : List Nat :=
  (s.coh.txns.filter fun e : Nat × Txn => fromAgent a e.2.req && !e.2.ready || e.2.queue.any (fromAgent a)).map (fun e => e.1 / 2) ++
    (s.coh.retry.flatten.filter fun e => fromAgent a e.2.1).map fun e => e.1

/-- An agent has room for a line beside those it holds and has asked for (Table 6.1): 65,536 lines in a far-data cache, 8 pages in a
compression engine's buffer. A full cache evicts before it asks. -/
def agentRoom (s : State) (a line : Nat) : Bool :=
  if a < 8 then decide ((agentLines s a).length + (agentAsks s a).length < 65536)
  else
    let pages := ((agentLines s a ++ agentAsks s a).map pageOfLine).eraseDups
    pages.contains (pageOfLine line) || decide (pages.length < 8)

/-- An agent is in service and may hold a line: far-data caches no ring or HDM-H line (R236, R238, R240), compression engines
lines of their own hub; none holds a line whose home both cross links down cut off (Table 1.7). -/
def agentMayHold (s : State) (a line : Nat) : Bool :=
  2 ≤ a && a < 16 && present s (agentDie a) && !homeCut s (agentHub a) line &&
  (match extentAt s (64 * line) with
   | some e =>
     if a < 8 then frondServes s a && e.db && !ringLine s line
     else dieIn s (agentDie a) && agentHome s a line == agentHub a
   | none => false)

/-- A coherence request names the fronds that hold a line: sleeping ones wake (R357). -/
def wakeHolders (s : State) (line hub : Nat) : State :=
  ((sharersOf s line hub).filter (· < 8)).foldl wakeDie s

/-- Inv to every on-package holder of a line; dirty data goes to the write-back buffer where it is kept (R257, R263). -/
def invAll (s : State) (line hub : Nat) (keep : Bool) : State :=
  let s := checkLine (wakeHolders s line hub) line hub
  let d := anyDirty s line hub
  let s := dropCopies (sendInv s line (sharersOf s line hub)) line hub
  if keep && d then toWb s line hub else s

/-- A directory entry that fails its check names every possible holder: Inv to every agent that may hold lines of the home, with
dirty data written back, the entry rebuilt empty and COH_ENTRY_CHECK raised (R263). -/
def dirCheck (s : State) (line hub extra : Nat) : State := invAll (dirEvent s line hub extra) line hub true

/-- A directory entry is checked as it is used; one that was injected with an error fails (R263, R292). -/
def settleDir (s : State) (line hub : Nat) : State :=
  match mget s.coh.dir (hkey line hub) with
  | some e => if e.bad then dirCheck s line hub flagInjected else s
  | none => s

/-- A snoop-filter entry is checked as it is used; while a transaction runs on its line, the failed one waits (R263). -/
def settleFilt (s : State) (line hub : Nat) : State :=
  if filtBad s line hub then filtCheck s line hub else s

/-- What a request's look into the directory and the snoop filter meets. -/
def meetEntry (s : State) (line hub : Nat) (ecc : Ecc) : State :=
  match ecc with
  | .dirBad => if mhas s.coh.dir (hkey line hub) then dirCheck s line hub 0 else s
  | .filtBad => settleFilt (modCoh s fun c => { c with filt := mmod c.filt (hkey line hub) fun e => { e with bad := true } }) line hub
  | _ => settleFilt s line hub

/-! Sets, victims and the retry queue (R257 to R260) -/

/-- What a request for a new entry of a set finds. -/
inductive Room where
  | ready
  /-- this line is the victim -/
  | victim (line : Nat)
  | full
deriving DecidableEq, Repr

/-- The better victim of two ways (line, shared, use stamp): shared first, least recently used second (R257). -/
def betterWay (a b : Nat × Bool × Nat) : Bool :=
  if a.2.1 != b.2.1 then a.2.1 else decide (a.2.2 ≤ b.2.2)

/-- The victim among unpinned ways. -/
def pickWay (l : List (Nat × Bool × Nat)) : Option Nat :=
  (l.foldl (fun (r : Option (Nat × Bool × Nat)) w =>
    match r with
    | some x => if betterWay x w then some x else some w
    | none => some w) none).map fun x => x.1

/-- Room in a set of 16 ways, given the ways in use. A line with a transaction is pinned (R258). -/
def roomOf (s : State) (hub : Nat) (ways : List (Nat × Bool × Nat)) : Room :=
  if ways.length < 16 then .ready
  else match pickWay (ways.filter fun w => !mhas s.coh.txns (hkey w.1 hub)) with
    | some v => .victim v
    | none => .full

/-- The directory ways of a line's set; with fewer than 16 entries in all no set is full. -/
def dirWays (s : State) (hub line : Nat) : List (Nat × Bool × Nat) :=
  let all := s.coh.dir.filter fun e => e.1 % 2 == hub
  if all.length < 16 then []
  else (all.filter fun e => dirSet (e.1 / 2) == dirSet line).map fun e => (e.1 / 2, e.2.st == .s, e.2.used)

/-- The snoop-filter ways of a line's set. -/
def filtWays (s : State) (hub line : Nat) : List (Nat × Bool × Nat) :=
  let all := s.coh.filt.filter fun e => e.1 % 2 == hub
  if all.length < 16 then []
  else (all.filter fun e => filtSet (e.1 / 2) == filtSet line).map fun e => (e.1 / 2, !e.2.a, e.2.used)

/-- A request that waits for a snoop-filter entry; the others wait for a directory entry. -/
def wantsFilt : CohReq → Bool
  | .hostRead _ _ _ _ => true
  | _ => false

/-- A waiting request waits for an entry of the set that a line falls in (R259). -/
def waitsFor (line : Nat) (l : Nat) (r : CohReq) : Bool :=
  if wantsFilt r then filtSet l == filtSet line else dirSet l == dirSet line

/-- Requests wait for an entry of the set that this request needs one of (R259). -/
def setWaiters (s : State) (hub line : Nat) (r : CohReq) : Bool :=
  (s.coh.retry.getD hub []).any fun e => wantsFilt e.2.1 == wantsFilt r && waitsFor line e.1 e.2.1

/-- How a request comes to be served: as it arrives, from the list of its line, or from the retry queue. -/
inductive Via where
  | source | list | retry
deriving DecidableEq, Repr

/-- A request enters the retry queue of 64 places (R258). With the queue full, the credit of a new one is withheld and it waits at
its source, to be sent again; one already accepted waits at the head of its line's list (R260). One that is in the queue keeps
its place. -/
def enterRetry (s : State) (hub line : Nat) (r : CohReq) (via : Via) : State :=
  let q := s.coh.retry.getD hub []
  if via = .retry then s
  else if q.length < 64 then
    let s := modCoh s fun c => { c with retry := c.retry.set hub (q ++ [(line, r, nowNs s)]) }
    setReg s (cohReg hub 0x68) (BitVec.ofNat 16 (max (reg s (cohReg hub 0x68)).toNat (q.length + 1)))
  else if via = .source then s
  else modCoh s fun c => { c with
    txns := mput c.txns (hkey line hub)
      { req := .device, cmds := [], ready := true, wait := [], sent := nowNs s, queue := [r], data := false, fed := false,
        dirty := false, mirror := false, lock := false } }

/-- A directory entry is at hand for a line, recalling a victim where the set is full (R257); otherwise the request waits. -/
def dirEntry (s : State) (hub line : Nat) (r : CohReq) (via : Via) : State × Bool :=
  if mhas s.coh.dir (hkey line hub) then (s, true)
  else if via != .retry && setWaiters s hub line r then (enterRetry s hub line r via, false)
  else match roomOf s hub (dirWays s hub line) with
    | .ready => (s, true)
    | .victim v =>
      let s := invAll s v hub true
      (modCoh s fun c => { c with evict := c.evict.modify hub fun x => (x.1 + 1, x.2) }, true)
    | .full => (enterRetry s hub line r via, false)

/-- A snoop-filter entry is at hand; a victim's hosts are back-invalidated first and the request waits for them. -/
def filtEntry (s : State) (hub line : Nat) (r : CohReq) (via : Via) : State × Bool :=
  if mhas s.coh.filt (hkey line hub) then (s, true)
  else if via != .retry && setWaiters s hub line r then (enterRetry s hub line r via, false)
  else match roomOf s hub (filtWays s hub line) with
    | .ready => (s, true)
    | .victim v =>
      let s := modCoh s fun c => { c with evict := c.evict.modify hub fun x => (x.1, x.2 + 1) }
      (match liveHolders s v hub with
       | [] => (modCoh s fun c => { c with filt := mdel c.filt (hkey v hub) }, true)
       | w => (enterRetry (openTxn s v hub .device w false) hub line r via, false))
    | .full => (enterRetry s hub line r via, false)

/-- Room for a directory entry of a line that needs no request of its own: a victim is recalled, and none is found where every way
is pinned or kept for waiters (R259). -/
def makeRoom (s : State) (line hub : Nat) : Option State :=
  if mhas s.coh.dir (hkey line hub) then some s
  else if setWaiters s hub line .home then none
  else match roomOf s hub (dirWays s hub line) with
    | .ready => some s
    | .victim v => some (modCoh (invAll s v hub true) fun c => { c with evict := c.evict.modify hub fun x => (x.1 + 1, x.2) })
    | .full => none

/-- The engine of a hub whose buffer takes a page: the first with room; otherwise one that holds the page of a read gives it up,
its buffer being reused (R239). Which engine takes a page is not stated (log 16). -/
def engineFor (s : State) (page hub : Nat) : Option (State × Nat) :=
  let engines := (List.range 4).map (8 + 4 * hub + ·)
  match engines.find? fun a => agentRoom s a (64 * page) with
  | some a => some (s, a)
  | none =>
    match s.coh.copies.find? fun e => engines.contains (e.1 % 32) && e.2 == .e with
    | some e => some (dropEnginePage s (e.1 / 4096) hub, e.1 % 32)
    | none => none

/-- After an engine has decompressed a PACKED page for a read, it holds the page's other lines in E: those that no agent and no
host holds and that no transaction is open for (R239). -/
def bufferPage (s : State) (line hub : Nat) : State :=
  let page := pageOfLine line
  match engineFor s page hub with
  | none => s
  | some (s, a) =>
    ((List.range 64).map (64 * page + ·)).foldl (fun s l =>
      let k := hkey l hub
      if l = line || mhas s.coh.dir k || mhas s.coh.filt k || mhas s.coh.txns k || homeHolds s l hub then s
      else match makeRoom s l hub with
        | some s => setDir (setCopy (dropSpec s l) l hub a (some .e)) l hub
        | none => s) s

/-- Home storage supplies a line to a requester; reading a PACKED page leaves the rest of the page in an engine's buffer
(Table 5.5, R239). -/
def supply (s : State) (line hub : Nat) (ecc : Ecc) : State :=
  let packed (s : State) : Bool := match (pageAtHub s (pageOfLine line) hub).st with
    | .packed _ => true
    | _ => false
  let unpacks := packed s && !homeHolds s line hub
  let s := homeSupply s line hub ecc
  if unpacks && packed s then bufferPage s line hub else s

/-! Agents' requests (R244, R245) -/

/-- The home grants a line to an agent: the copy, the directory and the message. An agent that takes the line exclusively takes
it out of the home's line buffer (R252). -/
def grant (s : State) (line hub a : Nat) (st : CopySt) : State :=
  let s := if st = .m then twinRoom s (copyKey line hub a) else s
  let s := setDir (setCopy s line hub a (some st)) line hub
  let s := if st = .s then s else bufDrop (dropSpec s line) line hub
  send s (.cohMsg a line 0)

/-- Commands that an agent's request needs carried out before the grant, by the directory state (Table 6.5). For RdOwn the
supplier is told to hand the line over, and every other holder to invalidate it. -/
def cmdsFor (s : State) (line hub a : Nat) (own upg : Bool) : List (Nat × CohCmd) :=
  let others := (sharersOf s line hub).filter (· != a)
  if !own then
    (others.filter fun x => copyOf s line hub x == some .m || copyOf s line hub x == some .e).map fun x => (x, .fwdS)
  else
    let from_ := if upg then others.find? fun x => copyOf s line hub x != some .s else supplier s line hub (agentDie a) a
    others.map fun x => (x, if from_ = some x then .fwdOwn else .inv)

/-- A command of the home goes to an agent. -/
def sendCmd (s : State) (line : Nat) (x : Nat × CohCmd) : State :=
  send s (.cohMsg x.1 line (match x.2 with | .fwdS => 1 | .fwdOwn => 2 | .inv => 3))

/-- Open a transaction that waits for agents' commands, and send them. -/
def openCmds (s : State) (line hub : Nat) (req : CohReq) (cmds : List (Nat × CohCmd)) : State :=
  let s := modCoh s fun c => { c with
    txns := mput c.txns (hkey line hub)
      { req := req, cmds := cmds, ready := false, wait := [], sent := nowNs s, queue := [], data := false, fed := true,
        dirty := false, mirror := false, lock := false } }
  cmds.foldl (fun s x => wakeIf (sendCmd s line x) x.1) s
where
  /-- A command wakes a sleeping frond. -/
  wakeIf (s : State) (a : Nat) : State := if a < 8 then wakeDie s a else s

/-- The data of an agent's read, where no command to another agent brings it: an agent that keeps its copy, the write-back
buffer, or home storage (R247, R256). -/
def feed (s : State) (line hub a : Nat) (ecc : Ecc) : State :=
  match supplier s line hub (agentDie a) a with
  | some x => send (checkCopy s line hub x (dirtySt (copyOf s line hub x))) (.cohMsg x line 1)
  | none => supply s line hub ecc

/-- The last part of an agent's request: the line is granted (Table 6.5), in E where no other agent and no host holds it
(R244, R256). A fill counts as an access of the page, an upgrade does not (R214). -/
def agentGrant (s : State) (line hub a : Nat) (own upg : Bool) : State :=
  let alone := (sharersOf s line hub).all (· == a)
  let st : CopySt := if own then .m else if alone && !mhas s.coh.filt (hkey line hub) then .e else .s
  let s := grant s line hub a st
  if upg then s else countAccess s (pageOfLine line) hub (!own)

/-- A line's dirty data waits in the write-back buffer and no agent holds it (Table 6.3). -/
def inWb (s : State) (line hub : Nat) : Bool :=
  ((mget s.coh.dir (hkey line hub)).map fun e : DirEnt => e.st == .wb).getD false

/-- The hosts an on-package request waits for: every holder before E, X or O is granted, an exclusive one before S (R245,
Table 6.9). -/
def hostsFor (s : State) (line hub : Nat) (own : Bool) : List Nat :=
  if own || inWb s line hub || heldA s line hub then liveHolders s line hub else []

/-- With every host that can answer asked back, an entry that still names one is dropped. -/
def dropHosts (s : State) (line hub : Nat) (own : Bool) : State :=
  if own || inWb s line hub || heldA s line hub then modCoh s fun c => { c with filt := mdel c.filt (hkey line hub) } else s

/-- What an agent's request still needs, in order: hosts asked back (Table 6.9), a directory entry, other agents' answers; then
the data and the grant. A line that the agent may no longer hold is not granted (R238), nor one whose extent's key is absent, which
reads as poison (R230). -/
def agentServe (s : State) (line hub a : Nat) (own upg : Bool) (ecc : Ecc) (via : Via) : State :=
  let r : CohReq := .agent a own upg ecc
  let s := settleDir s line hub
  if !agentMayHold s a line then s
  else if keyAbsent s (64 * line) then raiseKeyAbsent s (64 * line)
  else
    let w := hostsFor s line hub own
    if !w.isEmpty then openTxn s line hub r w (!own && !inWb s line hub)
    else
      let (s, ok) := dirEntry (dropHosts s line hub own) hub line r via
      if !ok then s
      else match cmdsFor s line hub a own upg with
        | [] => agentGrant (if upg then s else feed s line hub a ecc) line hub a own upg
        | cmds =>
          let home := own && !upg && cmds.all fun x => x.2 != .fwdOwn
          openCmds (if home then supply s line hub ecc else s) line hub r cmds

/-! The home's own ownership (R252) -/

/-- The home owns a line in its line buffer: no agent and no host holds it, and no transaction is open but the one that brought
it there. -/
def homeOwns (s : State) (line hub : Nat) : Bool :=
  mhas s.coh.buf (hkey line hub) && (sharersOf s line hub).isEmpty && !mhas s.coh.filt (hkey line hub) &&
    ((mget s.coh.txns (hkey line hub)).map fun t : Txn => t.req == .home && t.ready).getD true

/-- The home takes a line into its line buffer, as an RdOwn of its own (Table 6.10): every host is asked back, the supplier hands the line
over, every other agent's copy is invalidated, and dirty responsibility passes to the buffer (R245, R252, Table 6.9). -/
def homeServe (s : State) (line hub : Nat) : State :=
  let s := settleDir s line hub
  match liveHolders s line hub with
  | [] =>
    let s := dropHosts s line hub true
    let cmds := cmdsFor s line hub hub true false
    let s := if cmds.all fun x => x.2 != .fwdOwn then supply s line hub .good else s
    let s := checkLine (wakeHolders s line hub) line hub
    let d := anyDirty s line hub
    let s := dropCopies (cmds.foldl (fun s x => sendCmd s line x) (dropSpec s line)) line hub
    countAccess (bufPut s line hub d) (pageOfLine line) hub true
  | w => openTxn s line hub .home w false

/-! Host requests (R249) -/

/-- Record a host's copy in the snoop filter: S, or A alone (R248, Table 6.8). -/
def filtRecord (s : State) (line hub seat : Nat) (a : Bool) : State :=
  modCoh s fun c =>
    let k := hkey line hub
    let e : FiltEnt :=
      if a then { a := true, seats := [seat], all := false, left := [], used := c.stamp + 1, bad := false }
      else match mget c.filt k with
        | none => { a := false, seats := [seat], all := false, left := [], used := c.stamp + 1, bad := false }
        | some e =>
          let e := { e with a := false, left := e.left.filter (· != seat), used := c.stamp + 1 }
          if e.all || e.seats.contains seat then e
          else if e.seats.length < 2 then { e with seats := e.seats ++ [seat] } else { e with all := true }
    { c with filt := mput c.filt k e, stamp := c.stamp + 1 }

/-- Remove a host's copy from the filter: an entry that names every seat of the extent names that one no more. -/
def filtRemove (s : State) (line hub seat : Nat) : State :=
  modCoh s fun c =>
    let k := hkey line hub
    match mget c.filt k with
    | some e =>
      let e := if e.all then { e with left := seat :: e.left.filter (· != seat) } else { e with seats := e.seats.filter (· != seat) }
      let names := if e.all then (extentSeatsAt s line).filter fun n => !e.left.contains n else e.seats
      { c with filt := if names.isEmpty then mdel c.filt k else mput c.filt k e }
    | none => c

/-- On-package copies under a host's shared read: M becomes O, E becomes S (Table 6.8). -/
def hostShare (s : State) (line hub : Nat) : State :=
  let s := checkLine (wakeHolders s line hub) line hub
  match sharersOf s line hub with
  | [] => s
  | l =>
    let s := l.foldl (fun s a =>
      match copyOf s line hub a with
      | some .m => setCopy s line hub a (some .o)
      | some .e => setCopy s line hub a (some .s)
      | _ => s) s
    setDir s line hub

/-- A line is supplied to a host by the copy nearest the hub that received its read: an agent, or home storage, where a line that
was prefetched for its own seat is at hand (R88, R247). -/
def hostData (s : State) (line hub recv : Nat) (seat : Option Nat) (ecc : Ecc) : State :=
  match supplier s line hub recv 64 with
  | some x => send (checkCopy s line hub x (dirtySt (copyOf s line hub x))) (.cohMsg x line 1)
  | none => if seat.isSome && mget s.coh.spec line == some seat then s else supply s line hub ecc

/-- DevLoad of response k to a place at a home (R232, Table 5.9): 0 light, 1 optimal, 2 moderate overload, 3 severe. A seat with
no reserved memory bandwidth on the hub counts as above its reservation. What the home measured is free (log 1). -/
def devLoad (s : State) (p : Place) (hub k : Nat) : BitVec 2 :=
  let busy := (freeBusy k).toNat
  let reserved := s.covs.any fun c => c.2.kind == 4 && c.2.object == hub && seatOf s p == some c.2.seat
  if 2000 < (freeWait k).toNat then 3
  else if 85 < busy && (!reserved || freeAbove k) then 2
  else if 60 ≤ busy then 1
  else 0

/-- A read response leaves, with the DevLoad of its home. -/
def sendData (s : State) (p : Place) (hpa : BitVec 64) (data : Line) (poison : Bool) (hub : Nat) : State :=
  send s (.memData p hpa data poison (devLoad s p hub s.wire.length))

/-- A write completion leaves, with the DevLoad of its home. -/
def sendDone (s : State) (p : Place) (line hub : Nat) : State := send s (.memDone p line (devLoad s p hub s.wire.length))

/-- A host read completes: a prefetched line of another seat's search is absent to it and is dropped (R88); then data, copies, filter
and answer. Before A is granted every agent's copy is invalidated, dirty data being written to home storage, and the home's own
copies leave for the media (Table 6.8, R242). A host whose link fell meanwhile takes no copy (R191). -/
def hostReadDone (s : State) (line hub : Nat) (p : Place) (any : Bool) (hpa : BitVec 64) (ecc : Ecc) : State :=
  let db := ((extentAt s (64 * line)).map fun e : Extent => e.db).getD false
  let seat := seatOf s p
  let s := settleDir s line hub
  let s := dropOthers s line (seat.getD 64)
  let s := hostData s line hub (placeHub p) seat ecc
  let data := lineAt s line hub
  let s := if any && db then homeDrop (invAll (dropSpec s line) line hub true) line hub else hostShare s line hub
  let s := match seat with
    | some n => if db && placeUp s p then filtRecord s line hub n any else s
    | none => s
  let s := countAccess s (pageOfLine line) hub true
  if placeUp s p then sendData s p hpa data (poisonedAt s line hub) hub else s

/-- A host read at its home: other hosts first, then a filter entry, then the answer (Table 6.8). HDM-H lines are not tracked
(R240). A key that has gone meanwhile makes it poison (R230). -/
def hostReadServe (s : State) (line hub : Nat) (p : Place) (any : Bool) (hpa : BitVec 64) (ecc : Ecc) (via : Via) :
    State :=
  let r : CohReq := .hostRead p any hpa ecc
  let me := (seatOf s p).getD 64
  let db := ((extentAt s (64 * line)).map fun e : Extent => e.db).getD false
  if keyAbsent s (64 * line) then
    let s := countAccess (raiseKeyAbsent s (64 * line)) (pageOfLine line) hub true
    if placeUp s p then sendData s p hpa 0 true hub else s
  else if !db then hostReadDone s line hub p any hpa ecc
  else
    let w := if any || heldA s line hub then (liveHolders s line hub).filter (· != me) else []
    if !w.isEmpty then openTxn s line hub r w (!any)
    else
      let (s, ok) := filtEntry s hub line r via
      if ok then hostReadDone s line hub p any hpa ecc else s

/-- A record of the CXL General Media Event kind, which has no device event code: for the seat and the steward only (R223, Table 5.11).
Its severity, which is not stated, is warning (DESIGN CHOICE, log 18). -/
def mediaEvent (s : State) (seat dpa : Nat) : State :=
  let r : EvRec :=
    { code := 0, seq := 0, tb := BitVec.ofNat 64 s.clock.tb, cal := s.clock.cal, die := 0xFF, seat := BitVec.ofNat 8 seat,
      flags := eventFlags s 1 0, count := 0, detail := detail [(8, dpa)] }
  deliver s 1 r (.seat seat)

/-- An event of a seat that is raised at most once per millisecond, with the count of those it stands for (R203, R285). -/
def seatEvent (s : State) (code seat dpa : Nat) (get : Seat → Nat × Nat) (put : Seat → Nat × Nat → Seat) : State :=
  match mget s.seats seat with
  | some x =>
    let (at_, n) := get x
    if at_ = 0 || at_ + 1000000 ≤ nowNs s + 1 then
      let s := modSeat s seat fun x => put x (nowNs s + 1, 0)
      raiseFull s code 1 0xFF seat 0 n [(8, dpa)] (.seat seat)
    else modSeat s seat fun x => put x (at_, n + 1)
  | none => s

/-- MEM_ACCESS_DENIED (R203). -/
def accessDenied (s : State) (seat dpa : Nat) : State :=
  seatEvent s 0x3003 seat dpa (fun x => x.denied) fun x v => { x with denied := v }

/-- MEM_POISON_WRITE (R285). -/
def poisonWrite (s : State) (seat dpa : Nat) : State :=
  seatEvent s 0x3004 seat dpa (fun x => x.poisoned) fun x v => { x with poisoned := v }

/-- The home's own copy of a line that a host has written whole: the write replaces what the line buffer held; a hot page keeps
the line dirty, otherwise it reaches the media, behind a write-back of the line that is queued (R213, R246, R249). -/
def wholeWrite (s : State) (line hub : Nat) : State :=
  let k := copyKey line hub hub
  let s := modCoh s fun c => { c with
    buf := mdel c.buf (hkey line hub), twin := c.twin.filter (· != k), damage := mdel c.damage k }
  if hotHere s line hub then dirtied s k
  else if s.coh.wb.contains (hkey line hub) then toWb s line hub
  else mediaWrite s line hub

/-- The bytes of a host write reach every home: copies fall, poison is set or cleared, memory changes (Table 6.8, R282). A part of
a line, and a line that the other half mirrors, enter the home's line buffer (R252). -/
def hostStore (s : State) (line hub : Nat) (data : Line) (be : BitVec 64) (poison full : Bool) : State :=
  let s := (homes s line).foldl (fun s h =>
    let s := settleDir s line h
    let s := invAll (rekeyLine s line h) line h false
    let s := modCoh s fun c => { c with filt := mdel c.filt (hkey line h) }
    if full && h = hub then s else bufPut (clearDamage s line h be.toNat) line h true) s
  let s := storeLine s line data.toNat be.toNat
  let s := if full then clearPoison (wholeWrite s line hub) line else s
  let s := if poison then setPoisonAll s line else s
  let s := (homes s line).foldl (fun s h => countAccess s (pageOfLine line) h false) s
  capCheck s

/-- A host write that nothing holds back any more: discarded where the key has gone (R230), refused under a capacity breach (R223),
discarded over poison (R285), held for lack of media (R224), or made. A write that is discarded is an access too (R214). The answer
says that it completed. -/
def hostWriteNow (s : State) (line hub : Nat) (p : Place) (data : Line) (be : BitVec 64) (poison full : Bool) :
    State × Bool :=
  let seat := (seatOf s p).getD 0xFF
  let zeros := full && data == 0 && !poison
  let need := mediaNeed s line hub zeros
  let zeroPage := (pageAtHub s (pageOfLine line) hub).st == .zero
  let gone (s : State) : State × Bool := (countAccess s (pageOfLine line) hub false, true)
  if keyAbsent s (64 * line) then gone (raiseKeyAbsent s (64 * line))
  else
  let s := if full then s else hostData s line hub hub none .good
  if zeroPage && need != 0 && capBreached s seat then gone (mediaEvent (setPoisonAll s line) seat (64 * line))
  else if !full && poisonedAt s line hub then gone (poisonWrite s seat (64 * line))
  else if writeShort s line zeros then
    (modMem s fun m => { m with held := m.held.modify hub (· ++ [⟨some p, line, data, be, poison⟩]) }, false)
  else (hostStore s line hub data be poison full, true)

/-- A host write completes. -/
def hostWriteDone (s : State) (line hub : Nat) (p : Place) (data : Line) (be : BitVec 64) (poison full : Bool) : State :=
  let (s, done) := hostWriteNow s line hub p data be poison full
  if done && placeUp s p then sendDone s p line hub else s

/-- The homes that mirror a home's writes of a line (R261). -/
def mirrorHomes (s : State) (line hub : Nat) : List Nat := (homes s line).filter (· != hub)

/-- A line's transaction at a home stands for a write that the other half's home mirrors there. -/
def mirrorAt (s : State) (line hub : Nat) : Bool :=
  ((mget s.coh.txns (hkey line hub)).map fun t : Txn => t.req == .mirror).getD false

/-- The line is in use at a home that mirrors a write: the write waits for its turn there (R255, R261). -/
def mirrorBusy (s : State) (line hub : Nat) : Bool := mhas s.coh.txns (hkey line hub) && !mirrorAt s line hub

/-- The line is held at a home for a write it mirrors, until the write is complete. -/
def mirrorHold (s : State) (line hub : Nat) : State :=
  if mhas s.coh.txns (hkey line hub) then s else openTxn s line hub .mirror [] false

/-- A mirrored write takes the next turn of the line at a home where it is in use. -/
def mirrorAsk (s : State) (line hub : Nat) : State :=
  modCoh s fun c => { c with txns := mmod c.txns (hkey line hub) fun t => { t with queue := .mirror :: t.queue } }

/-- Change the transaction of a line. -/
def modTxn (s : State) (line hub : Nat) (f : Txn → Txn) : State :=
  modCoh s fun c => { c with txns := mmod c.txns (hkey line hub) f }

/-- The other half's copies of a line that is being written give way: its agents' are invalidated, the line buffer holds the line, and its
hosts are back-invalidated, whose answers the write waits for (R261). -/
def mirrorData (s : State) (line hub own : Nat) : State :=
  let s := bufPut (clearDamage (invAll (settleDir s line hub) line hub false) line hub (2 ^ 64 - 1)) line hub true
  match liveHolders s line hub with
  | [] => modCoh s fun c => { c with filt := mdel c.filt (hkey line hub) }
  | w => w.foldl (fun s n => send s (.biSnp n line false)) (modTxn s line own fun t => { t with wait := t.wait ++ w, mirror := true })

/-- The line's turn has come at a home for a write of the other half: it is held there; what a host has returned is mirrored at once, and
a host's write is judged again (R261). -/
def mirrorTurn (s : State) (line hub : Nat) : State :=
  let own := 1 - hub
  match mget s.coh.txns (hkey line own) with
  | some t =>
    if t.lock then
      let s := modTxn (mirrorHold s line hub) line own fun t => { t with lock := false }
      match t.req with
      | .hostWrite _ _ _ _ _ => s
      | _ => mirrorData s line hub own
    else s
  | none => s

/-- A host write at its home: where it is mirrored, the line must be free at the other half's home too; every other holder, in either
half's filter, is back-invalidated first (Table 6.8, R258, R261). -/
def hostWriteServe (s : State) (line hub : Nat) (p : Place) (data : Line) (be : BitVec 64) (poison full : Bool) : State :=
  let me := (seatOf s p).getD 64
  let r : CohReq := .hostWrite p data be poison full
  match (mirrorHomes s line hub).find? (mirrorBusy s line) with
  | some h => mirrorAsk (modTxn (openTxn s line hub r [] false) line hub fun t => { t with lock := true }) line h
  | none =>
    let w := ((homes s line).flatMap fun h => liveHolders s line h).eraseDups.filter (· != me)
    if w.isEmpty then hostWriteDone s line hub p data be poison full
    else (mirrorHomes s line hub).foldl (fun s h => mirrorHold s line h)
      (modTxn (openTxn s line hub r w false) line hub fun t => { t with mirror := true })

/-! Evictions (Table 6.5) -/

/-- An agent's WbData or EvictClean is taken: dirty data goes into the write-back buffer, and the agent leaves the entry. -/
def evictServe (s : State) (line hub a : Nat) : State :=
  let s := settleDir s line hub
  if dirtySt (copyOf s line hub a) then dropSpec (leave (toWb (checkCopy s line hub a true) line hub) line hub a) line
  else if (copyOf s line hub a).isSome then leave s line hub a
  else s

/-! Transactions (R255) -/

/-- Serve one request of a line at its home. -/
def serveReq (s : State) (line hub : Nat) (r : CohReq) (via : Via) : State :=
  match r with
  | .agent a own upg ecc => agentServe s line hub a own (upg && (copyOf s line hub a).isSome) ecc via
  | .hostRead p any hpa ecc => hostReadServe s line hub p any hpa ecc via
  | .hostWrite p data be poison full => hostWriteServe s line hub p data be poison full
  | .home => homeServe s line hub
  | .device => s
  | .evict a => evictServe s line hub a
  | .mirror => mirrorTurn s line hub

/-- The agent ID of a request in arbitration (Table 6.1). -/
def reqAgent (hub : Nat) : CohReq → Nat
  | .agent a _ _ _ => a
  | .hostRead p _ _ _ => 16 + portOf p
  | .hostWrite p _ _ _ _ => 16 + portOf p
  | .home => hub
  | .device => hub
  | .evict a => a
  | .mirror => hub

/-- A request has won its directory cycle: the line's filter entry is checked (R263), and the request waits in the line's list while a
transaction is in progress (R255). -/
def take (s : State) (line hub : Nat) (r : CohReq) (via : Via) : State :=
  let s := settleFilt s line hub
  match mget s.coh.txns (hkey line hub) with
  | some t => modCoh s fun c => { c with txns := mput c.txns (hkey line hub) { t with queue := t.queue ++ [r] } }
  | none => serveReq s line hub r via

/-- A request arrives at a home and wins its directory cycle: the pointer of its bank moves past it (R255; log 13). -/
def arrive (s : State) (line hub : Nat) (r : CohReq) : State :=
  take (modCoh s fun c => { c with ptr := mput c.ptr (hkey (dirBank line) hub) ((reqAgent hub r + 1) % 22) }) line hub r .source

/-- Serve the waiting requests of a line in order; once one opens a transaction again, the others wait in its list. -/
def runQueue (line hub : Nat) : List CohReq → State → State
  | [], s => s
  | r :: t, s => runQueue line hub t (take s line hub r .list)

/-- One waiter of the retry queue is served, unless an older one of its set must wait on: the way it was given is used, or its victim is
being recalled, and it keeps its place (R259). One whose line is in use goes on in the line's list. -/
def serveWaiter (hub : Nat) (x : State × Bool) (e : Nat × CohReq × Nat) : State × Bool :=
  let (s, go) := x
  let (l, r, t) := e
  if !go then x
  else
    let entry (s : State) : Bool := if wantsFilt r then mhas s.coh.filt (hkey l hub) else mhas s.coh.dir (hkey l hub)
    let gone := match r with
      | .agent a _ _ _ => !agentMayHold s a l || keyAbsent s (64 * l)
      | .hostRead p _ _ _ => !placeUp s p || keyAbsent s (64 * l)
      | _ => false
    let s := take s l hub r .retry
    if !gone && !entry s && !mhas s.coh.txns (hkey l hub) then (s, false)
    else
      let s := modCoh s fun c => { c with retry := c.retry.modify hub fun x => x.erase (l, r, t) }
      let w := (nowNs s - t) / 100
      (setReg s (cohReg hub 0x6C) (BitVec.ofNat 16 (max (reg s (cohReg hub 0x6C)).toNat (sat w 16))), true)

/-- The waiters of the retry queue for an entry of the line's directory set, and those for one of its filter set, are served oldest first
while ways of the set are free (R259). -/
def serveRetry (s : State) (line hub : Nat) : State :=
  [false, true].foldl (fun s k =>
    (((s.coh.retry.getD hub []).filter fun e => wantsFilt e.2.1 == k && waitsFor line e.1 e.2.1).foldl (serveWaiter hub)
      (s, true)).1) s

/-- A line's transaction is over: the requests of its list follow; when none opens a transaction again its entry unpins, and
waiters of its set are served (R255, R258, R259). -/
def unpin (s : State) (line hub : Nat) (queue : List CohReq) : State :=
  let s := runQueue line hub queue s
  flushAll (if mhas s.coh.txns (hkey line hub) then s else serveRetry s line hub)

/-- The other half's home holds the line no longer for a write that it has mirrored (R261). -/
def mirrorFree (s : State) (line hub : Nat) : State :=
  let h := 1 - hub
  match mget s.coh.txns (hkey line h) with
  | some t => if t.req == .mirror then unpin (modCoh s fun c => { c with txns := mdel c.txns (hkey line h) }) line h t.queue else s
  | none => s

/-- A transaction ends. -/
def closeTxn (s : State) (line hub : Nat) : State :=
  match mget s.coh.txns (hkey line hub) with
  | some t => unpin (mirrorFree (modCoh s fun c => { c with txns := mdel c.txns (hkey line hub) }) line hub) line hub t.queue
  | none => s

/-- The request that an agent's answers were for is granted, where its agent may still hold the line; otherwise the dirty data that was
handed over goes back to the home (R238, R262). -/
def fedGrant (s : State) (line hub a : Nat) (own upg dirty : Bool) : State :=
  if agentMayHold s a line && !keyAbsent s (64 * line) then agentGrant s line hub a own upg
  else setDir (if dirty then toWb s line hub else s) line hub

/-- The request of a transaction whose answers are all in proceeds: data and grant are delivered; a device need ends, and its
command is sent again (log 8). A further answer may still be needed: the transaction then goes on. -/
def proceed (s : State) (line hub : Nat) : State :=
  match mget s.coh.txns (hkey line hub) with
  | some t =>
    if t.ready || !t.wait.isEmpty || !t.cmds.isEmpty || t.lock && !(mirrorHomes s line hub).isEmpty then s
    else
      let s := modCoh s fun c => { c with txns := mdel c.txns (hkey line hub) }
      match t.req with
      | .device => unpin (mirrorFree s line hub) line hub t.queue
      | .mirror => modCoh s fun c => { c with txns := mput c.txns (hkey line hub) t }
      | r =>
        let n := (s.coh.retry.getD hub []).length
        let s := match t.fed, r with
          | true, .agent a own upg _ => fedGrant s line hub a own (upg && (copyOf s line hub a).isSome) t.dirty
          | _, _ => serveReq s line hub r .list
        match mget s.coh.txns (hkey line hub) with
        | some t2 => modCoh s fun c => { c with txns := mput c.txns (hkey line hub) { t2 with queue := t2.queue ++ t.queue } }
        | none =>
          if n < (s.coh.retry.getD hub []).length then unpin s line hub t.queue
          else modCoh s fun c => { c with txns := mput c.txns (hkey line hub) { t with ready := true } }
  | none => s

/-- An agent has carried out a command of the home. -/
def cmdDone (s : State) (line hub a : Nat) (cmd : CohCmd) : State :=
  let s := modCoh s fun c => { c with
    txns := mmod c.txns (hkey line hub) fun t => { t with cmds := t.cmds.erase (a, cmd) } }
  proceed s line hub

/-- A command of the home to this agent is outstanding. -/
def cmdWaits (s : State) (line hub a : Nat) (cmd : CohCmd) : Bool :=
  match mget s.coh.txns (hkey line hub) with
  | some t => t.cmds.contains (a, cmd) && !halted s hub
  | none => false

/-- An agent's request for a line is in progress or waits. -/
def asked (s : State) (line hub a : Nat) : Bool :=
  ((mget s.coh.txns (hkey line hub)).map fun t : Txn => fromAgent a t.req && !t.ready || t.queue.any (fromAgent a)).getD false ||
    (s.coh.retry.getD hub []).any fun e => e.1 == line && fromAgent a e.2.1

/-! The rows -/

/-- RDS (R245). -/
def execRds (agent : BitVec 5) (line : BitVec 37) (ecc : Ecc) (s : State) : Res :=
  let a := agent.toNat
  let l := line.toNat
  let h := agentHome s a l
  .next (if agentMayHold s a l && agentRoom s a l && hubServes s h && (copyOf s l h a).isNone && !asked s l h a then
    arrive (meetEntry (wakeHub s h) l h ecc) l h (.agent a false false ecc) else s)

/-- RDOWN (R245). -/
def execRdown (agent : BitVec 5) (line : BitVec 37) (ecc : Ecc) (s : State) : Res :=
  let a := agent.toNat
  let l := line.toNat
  let h := agentHome s a l
  .next (if agentMayHold s a l && agentRoom s a l && hubServes s h && (copyOf s l h a).isNone && !asked s l h a then
    arrive (meetEntry (wakeHub s h) l h ecc) l h (.agent a true false ecc) else s)

/-- UPG (R245). -/
def execUpg (agent : BitVec 5) (line : BitVec 37) (s : State) : Res :=
  let a := agent.toNat
  let l := line.toNat
  let h := agentHome s a l
  .next (if agentMayHold s a l && hubServes s h && (copyOf s l h a == some .s || copyOf s l h a == some .o) && !asked s l h a then
    arrive (wakeHub s h) l h (.agent a true true .good) else s)

/-- An eviction arrives; while a transaction is in progress on the line it waits in the line's list (R255). -/
def evictArrive (s : State) (line hub a : Nat) : State :=
  if ((mget s.coh.txns (hkey line hub)).map fun t : Txn => t.queue.contains (.evict a)).getD false then s
  else take s line hub (.evict a) .source

/-- WBDATA (Table 6.5). -/
def execWbdata (agent : BitVec 5) (line : BitVec 37) (s : State) : Res :=
  let a := agent.toNat
  let l := line.toNat
  let h := agentHome s a l
  .next (if dirtySt (copyOf s l h a) && !halted s h then evictArrive s l h a else s)

/-- EVICTCLEAN (Table 6.5). -/
def execEvictclean (agent : BitVec 5) (line : BitVec 37) (s : State) : Res :=
  let a := agent.toNat
  let l := line.toNat
  let h := agentHome s a l
  .next (if (copyOf s l h a == some .e || copyOf s l h a == some .s) && !halted s h then evictArrive s l h a else s)

/-- FWDS (Table 6.4): the agent supplies data and keeps a copy. -/
def execFwds (agent : BitVec 5) (line : BitVec 37) (s : State) : Res :=
  let a := agent.toNat
  let l := line.toNat
  let h := agentHome s a l
  .next (if cmdWaits s l h a .fwdS then
    let s := checkCopy s l h a (dirtySt (copyOf s l h a))
    let s := match copyOf s l h a with
      | some .m => setCopy s l h a (some .o)
      | some .e => setCopy s l h a (some .s)
      | _ => s
    cmdDone (setDir s l h) l h a .fwdS
  else s)

/-- The request of a line's transaction still wants the line: its agent may hold it (R262). -/
def wanted (s : State) (line hub : Nat) : Bool :=
  match (mget s.coh.txns (hkey line hub)).map fun t : Txn => t.req with
  | some (.agent a _ _ _) => agentMayHold s a line
  | _ => false

/-- FWDOWN (Table 6.4): the agent supplies data and invalidates its copy; nothing is written back, unless the requester is gone, when
dirty data goes to the home (R262). -/
def execFwdown (agent : BitVec 5) (line : BitVec 37) (s : State) : Res :=
  let a := agent.toNat
  let l := line.toNat
  let h := agentHome s a l
  .next (if cmdWaits s l h a .fwdOwn then
    let d := dirtySt (copyOf s l h a)
    let s := setCopy (checkCopy s l h a d) l h a none
    let s := if wanted s l h then modTxn s l h fun t => { t with dirty := t.dirty || d }
      else setDir (if d then toWb s l h else s) l h
    cmdDone s l h a .fwdOwn
  else s)

/-- INV (Table 6.4): the agent invalidates its copy; dirty data goes to the write-back buffer. -/
def execInv (agent : BitVec 5) (line : BitVec 37) (s : State) : Res :=
  let a := agent.toNat
  let l := line.toNat
  let h := agentHome s a l
  .next (if cmdWaits s l h a .inv then
    let d := dirtySt (copyOf s l h a)
    let s := checkCopy s l h a d
    let s := setCopy s l h a none
    cmdDone (if d then toWb s l h else s) l h a .inv
  else s)

/-- COH_TRANSACTION_DONE (R255): the entry unpins and the next waiting request follows; a request whose turn at the other half's home has
come goes on (R261). -/
def execCohTransactionDone (hub : BitVec 1) (line : BitVec 37) (s : State) : Res :=
  .next (match mget s.coh.txns (hkey line.toNat hub.toNat) with
    | some t =>
      if halted s hub.toNat then s
      else if t.ready then closeTxn s line.toNat hub.toNat
      else proceed s line.toNat hub.toNat
    | none => s)

/-- WRITE_BACK_DONE (R246): the hub's oldest write-back slot, checked (R271), reaches home storage once and is freed; a line of
the hot tier is dirty there, and a PACKED page becomes PLAIN (R213, R219), for which it waits while no media is left (R224). -/
def execWriteBackDone (hub : BitVec 1) (s : State) : Res :=
  let h := hub.toNat
  .next (match s.coh.wb.find? fun k => k % 2 == h && !halted s h with
    | some k =>
      let line := k / 2
      let packed := match (pageAtHub s (pageOfLine line) h).st with
        | .packed _ => true
        | _ => false
      if packed && mediaShort s h (mediaNeed s line h false) then s
      else
      let s := checkCopy s line h h true
      let s := modCoh s fun c => { c with wb := c.wb.erase k }
      let s := if hotHere s line h then dirtied s (copyKey line h h) else mediaWrite s line h
      let old := poisonedAt s line h
      let s := if packed then pageWrite (discardImage s (pageOfLine line) h) line h false else s
      let s := if old then s else modMem s fun m => { m with poison := mdel m.poison k }
      let s := match mget s.coh.dir k with
        | some e => if e.st = .wb && !s.coh.wb.contains k then modCoh s fun c => { c with dir := mdel c.dir k } else s
        | none => s
      capCheck s
    | none => s)

/-- The homes whose filters a transaction's back-invalidates concern: a write that is mirrored waits for the holders of both halves
(R261). -/
def txnHomes (s : State) (line hub : Nat) : List Nat :=
  match mget s.coh.txns (hkey line hub) with
  | some t => if t.mirror then homes s line else [hub]
  | none => []

/-- One home's part of a host's answer, or of its absence: after BISnpData the holder keeps S, after BISnpInv the seat leaves
the entry; once every seat has answered the request proceeds (R250, R251). -/
def answerAt (s : State) (line hub seat : Nat) : State :=
  match mget s.coh.txns (hkey line hub) with
  | some t =>
    if t.wait.contains seat then
      let w := t.wait.filter (· != seat)
      let hs := txnHomes s line hub
      let s := modCoh s fun c => { c with txns := mput c.txns (hkey line hub) { t with wait := w } }
      let s := hs.foldl (fun s h =>
        if t.data && h == hub then modCoh s fun c => { c with filt := mmod c.filt (hkey line h) fun e => { e with a := false } }
        else
          let s := filtRemove s line h seat
          if w.isEmpty && ((mget s.coh.filt (hkey line h)).map fun e : FiltEnt => e.all).getD false then
            modCoh s fun c => { c with filt := mdel c.filt (hkey line h) }
          else s) s
      if w.isEmpty then proceed s line hub else s
    else s
  | none => s

/-- A seat's host is gone for a line: a shared copy is dropped, an exclusive or modified one dropped and the line poisoned at
its home (R191, R208); an answer it owed is waited for no longer. -/
def departLine (s : State) (line hub seat : Nat) : State :=
  let s := if heldA s line hub && (holders s line hub).contains seat then setPoison s line hub else s
  let s := [hub, 1 - hub].foldl (fun s h => match mget s.coh.txns (hkey line h) with
    | some t => if t.wait.contains seat && (h == hub || t.mirror) then
        answerAt (modCoh s fun c => { c with txns := mput c.txns (hkey line h) { t with data := false } }) line h seat else s
    | none => s) s
  filtRemove s line hub seat

/-- A seat's host is gone for every line it may hold that passes a test (R191, R208). -/
def departSeat (s : State) (seat : Nat) (test : Nat → Bool) : State :=
  s.coh.filt.foldl (fun s (e : Nat × FiltEnt) =>
    let line := e.1 / 2
    let hub := e.1 % 2
    if test line && (holders s line hub).contains seat then departLine s line hub seat else s) s

/-- A seat's answer is outstanding for a line at a home. -/
def awaits (s : State) (line hub seat : Nat) : Bool :=
  match mget s.coh.txns (hkey line hub) with
  | some t => t.wait.contains seat
  | none => false

/-- The homes of a transaction at which this seat's host may hold the line in A. -/
def ownedAt (s : State) (line hub seat : Nat) : List Nat :=
  (txnHomes s line hub).filter fun h => heldA s line h && (holders s line h).contains seat

/-- Modified data that a host returns in answer to a transaction of a home is written to the home storage it came from (R250); the other
half takes it as a mirrored write, in its turn there, its own agents' copies and hosts giving way before the transaction goes on
(R261). A line returned whole carries no poison (R283). -/
def returnData (s : State) (line hub : Nat) (d : Line) (from_ : List Nat) : State :=
  let s := (homes s line).foldl (fun s h =>
    if from_.contains h then s
    else if h = hub then bufPut (clearDamage (invAll s line h false) line h (2 ^ 64 - 1)) line h true
    else if mirrorBusy s line h then mirrorAsk (modTxn s line hub fun t => { t with lock := true }) line h
    else mirrorData (mirrorHold s line h) line h hub) s
  let s := clearPoison (storeLine s line d.toNat (2 ^ 64 - 1)) line
  capCheck (from_.foldl (fun s h => wholeWrite s line h) s)

/-- BISNP_RESPONSE (R250). -/
def execBisnpResponse (seat : BitVec 6) (line : BitVec 37) (dirty : Option Line) (s : State) : Res :=
  let l := line.toNat
  let n := seat.toNat
  .next ((List.range 2).foldl (fun s h =>
    if awaits s l h n && !halted s h then
      let s := match dirty, ownedAt s l h n with
        | some d, x :: t => returnData s l h d (x :: t)
        | _, _ => s
      answerAt s l h n
    else s) s)

/-- COH_BI_TIMEOUT (R251). -/
def execCohBiTimeout (seat : BitVec 6) (line : BitVec 37) (s : State) : Res :=
  let l := line.toNat
  let n := seat.toNat
  .next ((List.range 2).foldl (fun s h =>
    if awaits s l h n && !halted s h then
      let a := ownedAt s l h n
      let s := setReg s (cohReg h 0x60) (BitVec.ofNat 16 (sat ((reg s (cohReg h 0x60)).toNat + 1) 16))
      let s := a.foldl (fun s x => setPoison s l x) s
      let s := modCoh s fun c => { c with
        txns := mmod c.txns (hkey l h) fun t => { t with data := t.data && a.isEmpty } }
      let s := event s 0x4001 1 0xFF n [(8, 64 * l)] (.seat n)
      answerAt s l h n
    else s) s)

/-- COH_RETRY_LONG (R260). -/
def execCohRetryLong (hub : BitVec 1) (line : BitVec 37) (wait100 : BitVec 16) (s : State) : Res :=
  let h := hub.toNat
  let l := line.toNat
  .next (match (s.coh.retry.getD h []).find? fun e => e.1 == l with
    | some (_, r, _) =>
      let set := if wantsFilt r then (filtSet l).toNat else (dirSet l).toNat
      let s := setReg s (cohReg h 0x6C) (BitVec.ofNat 16 (max (reg s (cohReg h 0x6C)).toNat wait100.toNat))
      event s 0x4002 1 h 0xFF [(4, set), (4, wait100.toNat)] .steward
    | none => s)

end Sys2Proof.Machine
end

