-- ==== Sys2Proof/Machine/HostMem.lean ====
section
/-!
DEFINITION. What hosts and fabric managers ask of memory: CXL.mem requests, HDM decoders, dynamic capacity, and the pages'
tiers, compression and keys (R198 to R235).
-/
namespace Sys2Proof.Machine

/-! CXL.mem requests (R203, R249) -/

/-- How a CXL.mem request stands. -/
inductive HostAcc where
  /-- no request can reach the device: link down, not in CXL mode, or CXL.mem not enabled -/
  | gone
  /-- answered as outside every extent, with no event (Table 12.3, R304, R426) -/
  | quiet
  /-- outside the seat's extents, or a write without the right (R203) -/
  | denied (seat dpa : Nat)
  /-- the extent's key is absent, at this home (R230) -/
  | keyless (dpa hub : Nat)
  /-- the doorbell line of an enabled ring (R109) -/
  | bell (ring : Nat)
  /-- served by this home -/
  | ok (line hub seat : Nat)
deriving DecidableEq, Repr

/-- Judge a request of a logical device at a host physical address. It reaches the device where it is addressed to the port ID of its
head (R197). A request for a line whose home the two cross links down, or a frozen half, cut off is answered as one outside every
extent is, with no event: Table 1.7 says only that the hub stops serving the line (log 31). -/
def hostAccess (s : State) (p : Place) (pid : Option (BitVec 12)) (hpa : Nat) (write : Bool) : HostAcc :=
  let l := ld s p
  let k := link s (portOf p) (linkOf p)
  if !(k.up && k.cxl && k.pid == pid && l.bound && l.memEn) then .gone
  else if !started s || !hubServes s (placeHub p) then .quiet
  else match l.seat, hpaToDpa s p hpa with
    | some seat, some a =>
      if !reaches s seat a write false then .denied seat a
      else match doorbellAt s (lineOf a) with
        | some n => .bell n
        | none =>
          let h := homeHub s (placeHub p) (lineOf a)
          if !hubServes s h || (h != placeHub p && crossCut s) then .quiet
          else if keyAbsent s a then .keyless a h
          else .ok (lineOf a) h seat
    | _, _ => .quiet

/-- Book a charge of memory work to a rail and to a seat (R345). -/
def memOp (s : State) (rail pj seat : Nat) : State := chargeSeat (bookOp s rail pj) seat pj

/-- The charges of a CXL.mem access: hot tier, a confirmed prefetch among it (R89), DRAM, decompression, cross link (Table 9.3,
R345). -/
def memCharge (s : State) (seat line hub recv : Nat) (read : Bool) : State :=
  let p := pageAtHub s (pageOfLine line) hub
  let s := if hub = recv then s else memOp s (2 + hub) (opCost s opCross 0) seat
  if p.hot || keptSpec s line hub then memOp s (4 + hub) (opCost s opHot 0) seat
  else match p.st with
    | .zero => if read then s else memOp s (14 + hub) (opCost s opDram 0) seat
    | .plain => memOp s (14 + hub) (opCost s opDram 0) seat
    | .packed _ => memOp (memOp s (14 + hub) (opCost s opDram 0) seat) (2 + hub) (opCost s opDecompress 0) seat

/-- A host read of either class. It wakes the hub it comes in on and the line's home (R357). A read that no extent of the seat covers, and
one of a doorbell line, reach no home (R217): the DevLoad of their answer is then the receiving hub's, which R232 does not say
(DESIGN CHOICE, log 31). -/
def hostRead (p : Place) (pid : Option (BitVec 12)) (hpa : BitVec 64) (any : Bool) (ecc : Ecc) (s : State) : State :=
  match hostAccess s p pid hpa.toNat false with
  | .gone => s
  | .quiet => sendData s p hpa 0 true (placeHub p)
  | .denied seat a => sendData (accessDenied (wakeHub s (placeHub p)) seat a) p hpa 0 true (placeHub p)
  | .keyless a h =>
    sendData (countAccess (raiseKeyAbsent (wakeHub (wakeHub s (placeHub p)) h) a) (a / 4096) h true) p hpa 0 true h
  | .bell n => sendData (wakeHub s (placeHub p)) p hpa (doorbellRead s n) false (placeHub p)
  | .ok line hub seat =>
    let s := memCharge (wakeHub (wakeHub s (placeHub p)) hub) seat line hub (placeHub p) true
    arrive (meetEntry s line hub ecc) line hub (.hostRead p any hpa ecc)

/-- The writes of a doorbell line: each counter takes its enabled bytes, lowest offset first (R110). -/
def bellLine (s : State) (n : Nat) (data : Line) (be : BitVec 64) : State :=
  let one (s : State) (b : Bell) (o : Nat) : State :=
    bellWrite s n b (BitVec.ofNat 4 (be.toNat / 2 ^ o)) (BitVec.ofNat 32 (field data o 4))
  one (one (one s .sqTail 0) .cqHead 4) .irqArm 8

/-- A host write, whole or partial. A write of a doorbell line that carries poison has no data to act on. -/
def hostWrite (p : Place) (pid : Option (BitVec 12)) (hpa : BitVec 64) (data : Line) (be : BitVec 64) (poison full : Bool)
    (s : State) : State :=
  match hostAccess s p pid hpa.toNat true with
  | .gone => s
  | .quiet => sendDone s p (hpa.toNat / 64) (placeHub p)
  | .denied seat a => sendDone (accessDenied (wakeHub s (placeHub p)) seat a) p (lineOf a) (placeHub p)
  | .keyless a h =>
    sendDone (countAccess (raiseKeyAbsent (wakeHub (wakeHub s (placeHub p)) h) a) (a / 4096) h false) p (lineOf a) h
  | .bell n =>
    let s := wakeHub s (placeHub p)
    sendDone (if poison then s else bellLine s n data be) p (ringBase s n 0x70 / 64) (placeHub p)
  | .ok line hub seat =>
    let s := memCharge (wakeHub (wakeHub s (placeHub p)) hub) seat line hub (placeHub p) false
    arrive s line hub (.hostWrite p data be poison full)

/-- CXL_MEM_READ_SHARED (R249). -/
def execCxlMemReadShared (d : MemDest) (hpa : BitVec 64) (ecc : Ecc) (s : State) : Res :=
  .next (hostRead d.place d.pid hpa false ecc s)

/-- CXL_MEM_READ_ANY (R249). -/
def execCxlMemReadAny (d : MemDest) (hpa : BitVec 64) (ecc : Ecc) (s : State) : Res :=
  .next (hostRead d.place d.pid hpa true ecc s)

/-- CXL_MEM_FULL_WRITE (R249). -/
def execCxlMemFullWrite (d : MemDest) (hpa : BitVec 64) (data : Line) (poison : Bool) (s : State) : Res :=
  .next (hostWrite d.place d.pid hpa data (BitVec.allOnes 64) poison true s)

/-- CXL_MEM_PARTIAL_WRITE (R249). -/
def execCxlMemPartialWrite (d : MemDest) (hpa : BitVec 64) (data : Line) (be : BitVec 64) (poison : Bool) (s : State) : Res :=
  .next (hostWrite d.place d.pid hpa data be poison false s)

/-- CXL_MEM_CLEAN_EVICT (R249): the seat is removed from the filter entry. -/
def execCxlMemCleanEvict (d : MemDest) (hpa : BitVec 64) (s : State) : Res :=
  .next (match hostAccess s d.place d.pid hpa.toNat false with
    | .ok line hub seat => filtRemove (wakeHub (wakeHub s (placeHub d.place)) hub) line hub seat
    | _ => s)

/-- A held write goes on (R223, R224): a host's, which is judged again, hosts that took the line meanwhile being asked back (R249), or
the device's own. -/
def heldGoesOn (s : State) (hub : Nat) (w : HeldWrite) : State :=
  match w.place with
  | some p => take s w.line hub (.hostWrite p w.data w.be w.poison (w.be == BitVec.allOnes 64)) .list
  | none => if keyAbsent s (64 * w.line) then raiseKeyAbsent s (64 * w.line) else homeStore s w.line w.data.toNat w.be.toNat

/-- What a held write meets before it goes on: a device write waits for the hosts that hold its line (R250). -/
def heldNeeds (s : State) (w : HeldWrite) : Option State :=
  match w.place with
  | some _ => none
  | none => needLine s w.line false

/-- Writes held for lack of media go on, oldest first, while media is found (R224). -/
def retryHub (hub : Nat) : Nat → State → State
  | 0, s => s
  | n + 1, s =>
    match s.mem.held.getD hub [] with
    | [] => s
    | w :: t =>
      if writeShort s w.line (w.be == BitVec.allOnes 64 && w.data == 0 && !w.poison) then s
      else if (heldNeeds s w).isSome then (heldNeeds s w).getD s
      else retryHub hub n (heldGoesOn (modMem s fun m => { m with held := m.held.set hub t }) hub w)

/-- Held writes of both hubs. -/
def retryHeld (s : State) : State :=
  [0, 1].foldl (fun s h => retryHub h (s.mem.held.getD h []).length s) s

/-- What follows when media is freed. -/
def mediaFreed (s : State) : State := overPromise (capCheck (flushAll (retryHeld s)))

/-! HDM decoders (R199) -/

/-- Committed ranges stand in rising order of host addresses, from a bound on. -/
def decodersRise : List (Option HdmSetting) → Nat → Bool
  | [], _ => true
  | none :: t, n => decodersRise t n
  | some x :: t, n => decide (n ≤ x.base.toNat) && decodersRise t (x.base.toNat + x.size.toNat)

/-- DPA reach of the committed decoders. -/
def decodersDpa (l : List (Option HdmSetting)) : Nat :=
  l.foldl (fun n d => match d with
    | some x => n + x.skip.toNat + x.size.toNat / x.ways.toNat
    | none => n) 0

/-- The device can honour a decoder's settings beside those committed below and above it (R199, log 11). -/
def hdmOk (s : State) (p : Place) (idx : Nat) (x : HdmSetting) : Bool :=
  let old := (ld s p).decoders.map fun d : Decoder => d.set
  let ds := old.set idx (some x)
  [1, 2, 3, 4, 6, 8, 12, 16].contains x.ways.toNat && [256, 512, 1024, 2048, 4096, 8192, 16384].contains x.gran.toNat &&
    x.size.toNat % (2 ^ 28 * x.ways.toNat) == 0 && x.base.toNat % 2 ^ 28 == 0 &&
    (old.take idx).all (fun d => d.isSome) && decodersRise ds 0 && decide (decodersDpa ds ≤ 2 ^ 43)

/-- HDM_DECODER_COMMIT (R199). -/
def execHdmDecoderCommit (p : Place) (idx : BitVec 3) (set : HdmSetting) (s : State) : Res :=
  .next (if (ld s p).bound && placeUp s p && (link s (portOf p) (linkOf p)).cxl then
    let ok := hdmOk s p idx.toNat set
    modLd s p fun l => { l with decoders := l.decoders.set idx.toNat (if ok then ⟨some set, false⟩ else ⟨none, true⟩) }
  else s)

/-! Dynamic capacity (R204 to R208) -/

/-- SEATS.FMCTL.DELEGATE (R196). -/
def delegated (s : State) : Bool := (reg s (globalPage 3 + 0x4C)).getLsbD 0

/-- Source code of FM_REFUSED (Table 11.9). -/
def fmCode : FmSource → Nat
  | .sideband => 0
  | .switch => 1

/-- A fabric-manager command is refused: the CXL code for an unsupported command, and FM_REFUSED (R196). -/
def fmRefuse (s : State) (src : FmSource) (opcode : Nat) : State :=
  send (event s 0x3002 1 0xFF 0xFF [(1, fmCode src), (2, opcode)] .steward) (.fmAnswer false)

/-- One extent of a request may be added (R201, R206, R229); the boot extents' range takes none (R445). A request that names a
seat twice is refused, which R206 does not list (DESIGN CHOICE, log 11). -/
def extentOk (s : State) (e : ExtentReq) : Bool :=
  let seats := e.seats.map fun x => x.1.toNat
  decide (e.base.toNat < 0x7FC0) && !mhas s.extents e.base.toNat && !seats.isEmpty && seats.eraseDups.length == seats.length &&
    seats.all (mhas s.seats) && (e.db || (seats.length == 1 && e.seats.all fun x => x.2)) &&
    (match e.key with
     | none => true
     | some k =>
       match mget s.keys k.toNat with
       | some ks => (ks.owner.map fun o => seats.contains o).getD false
       | none => false)

/-- The whole request may be added: no overlap within it, blocks free, and the promise within ratio × P (R206, R221). -/
def addOk (s : State) (exts : List ExtentReq) : Bool :=
  let bases := exts.map fun e => e.base.toNat
  let n := s.extents.length + exts.length
  exts.all (extentOk s) && bases.eraseDups.length == bases.length && decide (n ≤ s.mem.blocks) &&
    decide (16 * (65536 * n) ≤ capRatio s * capP s) && decide (n ≤ 32768)

/-- Every page of a block returns to ZERO: contents, poison, keys, copies and moves go (R205, R207). -/
def zeroBlock (s : State) (base : Nat) : State :=
  let line (k : Nat) : Bool := k / 2 / 2 ^ 22 != base
  let s := modMem s fun m => { m with
    bytes := m.bytes.filter fun e => e.1 / 2 ^ 28 != base
    pages := m.pages.filter fun e => e.1 / 2 / 2 ^ 16 != base
    poison := m.poison.filter fun e => line e.1
    encBy := m.encBy.filter fun e => line e.1
    damage := m.damage.filter fun e => line e.1
    badMap := m.badMap.filter fun e => e.1 / 2 / 2 ^ 16 != base
    held := m.held.map fun l => l.filter fun x => x.line / 2 ^ 22 != base }
  modCoh s fun c => { c with
    copies := c.copies.filter fun e => line (e.1 / 32)
    dir := c.dir.filter fun e => line e.1
    filt := c.filt.filter fun e => line e.1
    buf := c.buf.filter fun e => line e.1
    wb := c.wb.filter line
    spec := c.spec.filter fun e => e.1 / 2 ^ 22 != base
    twin := c.twin.filter fun k => line (k / 32)
    damage := c.damage.filter fun e => line (e.1 / 32) }

/-- A CXL Dynamic Capacity Event to the seats of an extent, as the standard requires, and to the steward (Table 5.11): the event,
and a record of it, which has no device event code; its severity, which is not stated, is informational (DESIGN CHOICE, log 18). -/
def capacityEvent (s : State) (seats : List Nat) (kind base : Nat) : State :=
  let seats := (seats ++ s.steward.holder.toList).eraseDups
  let r : EvRec :=
    { code := 0, seq := 0, tb := BitVec.ofNat 64 s.clock.tb, cal := s.clock.cal, die := 0xFF, seat := 0xFF,
      flags := eventFlags s 0 0, count := 0, detail := detail [(1, kind), (8, 2 ^ 28 * base)] }
  seats.foldl (fun s n => send (match seatPlace s n with
    | some p => modLd s p (ldRecord 0 r)
    | none => s) (.dcEvent n kind base)) s

/-- Add extents and offer each to its seats; the steward is told too (R205, Table 5.11). -/
def addExtents (s : State) (exts : List ExtentReq) (granted : Bool) : State :=
  exts.foldl (fun s e =>
    let seats := e.seats.map fun x => ExtSeat.mk x.1.toNat x.2 false
    let s := zeroBlock s e.base.toNat
    let x : Extent := { seats := seats, db := e.db, key := e.key.map fun k => k.toNat, policy := e.policy, keyLost := false,
                        granted := granted }
    capacityEvent { s with extents := mput s.extents e.base.toNat x } (seats.map fun x => x.seat) 0 e.base.toNat) s

/-- An add request from a fabric manager or the steward: all of it or none (R205, R206). -/
def addRequest (s : State) (exts : List ExtentReq) (granted : Bool) : State × Bool :=
  if exts.isEmpty then (s, true)
  else if addOk s exts then (addExtents s exts granted, true) else (s, false)

/-- The steward granted an extent of this block (R196). -/
def grantedAt (s : State) (base : BitVec 15) : Bool := ((mget s.extents base.toNat).map fun e : Extent => e.granted).getD false

/-- ADD_DYNAMIC_CAPACITY (R205) from an external fabric manager: one that lays claim to a block the steward granted is refused
(R196). -/
def execAddDynamicCapacity (src : FmSource) (exts : List ExtentReq) (s : State) : Res :=
  .next (if !delegated s || exts.any (fun e => grantedAt s e.base) then fmRefuse s src 0x5604
    else
      let (s, ok) := addRequest s exts false
      send s (.fmAnswer ok))

/-- A seat's part of an extent ends; with its last seat the extent's pages return to ZERO (R207). The capacity covenants follow (R329). -/
def dropExtent (s : State) (seat base : Nat) : State :=
  match mget s.extents base with
  | some e =>
    if e.seats.any fun x => x.seat == seat then
      match e.seats.filter fun x => x.seat != seat with
      | [] => mediaFreed (zeroBlock { s with extents := mdel s.extents base } base)
      | l => capCheck { s with extents := mput s.extents base { e with seats := l } }
    else s
  | none => s

/-- ADD_DYNAMIC_CAPACITY_RESPONSE (R205): the extent becomes usable by the seat; an offer not accepted is withdrawn. -/
def execAddDynamicCapacityResponse (p : Place) (base : BitVec 15) (accept : Bool) (s : State) : Res :=
  .next (match seatOf s p, mget s.extents base.toNat with
    | some n, some e =>
      if e.seats.any fun x => x.seat == n && !x.accepted then
        if accept then
          let e' := { e with seats := e.seats.map fun x => if x.seat = n then { x with accepted := true } else x }
          capCheck { s with extents := mput s.extents base.toNat e' }
        else dropExtent s n base.toNat
      else s
    | _, _ => s)

/-- Lines of a block that a seat's host may hold: line and home. -/
def heldLines (s : State) (seat base : Nat) : List (Nat × Nat) :=
  s.coh.filt.filterMap fun e =>
    if e.1 / 2 / 2 ^ 22 = base && (holders s (e.1 / 2) (e.1 % 2)).contains seat then some (e.1 / 2, e.1 % 2) else none

/-- The back-invalidates of a release: to the seat, or to every possible holder where the entry does not name it exactly. -/
def releaseSnoop (s : State) (seat base : Nat) : Option State :=
  match heldLines s seat base with
  | [] => none
  | l => some (l.foldl (fun s x =>
      if mhas s.coh.txns (hkey x.1 x.2) then s
      else
        let all := ((mget s.coh.filt (hkey x.1 x.2)).map fun e : FiltEnt => e.all).getD false
        openTxn s x.1 x.2 .device (if all then liveHolders s x.1 x.2 else [seat]) false) s)

/-- RELEASE_DYNAMIC_CAPACITY (R207): the seat's lines are back-invalidated, and the row sent again once they are answered; then
the extent leaves the seat. -/
def execReleaseDynamicCapacity (p : Place) (bases : List (BitVec 15)) (s : State) : Res :=
  .next (match seatOf s p with
    | some n =>
      bases.foldl (fun s b =>
        match releaseSnoop s n b.toNat with
        | some s' => s'
        | none => dropExtent s n b.toNat) s
    | none => s)

/-- A seat has a part of an extent. -/
def hasPart (s : State) (seat base : Nat) : Bool :=
  ((mget s.extents base).map fun e : Extent => e.seats.any fun x => x.seat == seat).getD false

/-- A forced release: the host is not waited for (R208). -/
def forceRelease (s : State) (seat base : Nat) : State :=
  if hasPart s seat base then
    capacityEvent (dropExtent (departSeat s seat fun l => l / 2 ^ 22 == base) seat base) [seat] 2 base
  else s

/-- A release is asked of the seat's host, which answers with RELEASE_DYNAMIC_CAPACITY (R207). -/
def askRelease (s : State) (seat base : Nat) : State :=
  if hasPart s seat base then capacityEvent s [seat] 1 base else s

/-- FORCED_RELEASE (R208) from an external fabric manager: one that would take back what the steward granted is refused
(R196). -/
def execForcedRelease (src : FmSource) (seat : BitVec 6) (bases : List (BitVec 15)) (s : State) : Res :=
  .next (if !delegated s || bases.any (grantedAt s) then fmRefuse s src 0x5605
    else send (bases.foldl (fun s b => forceRelease s seat.toNat b.toNat) s) (.fmAnswer true))

/-! Tiers and compression (R212 to R224) -/

/-- TIER.CTL.EN: migration on. -/
def tierEn (s : State) (hub : Nat) : Bool := (reg s (diePage hub 0x12 + 8)).getLsbD 0

/-- TIER.CTL.CMODE. -/
def cmode (s : State) (hub : Nat) : Nat := bits (reg s (diePage hub 0x12 + 8)) 3 2

/-- Policy of the extent of a page, where there is one. -/
def pagePolicy (s : State) (page : Nat) : Option Nat := (extentAt s (4096 * page)).map fun e => e.policy.toNat

/-- A page may be compressed (R214, R216): normal policy, PLAIN, no line held in A by a host or in M or O by an agent, no poison,
and outside every ring. -/
def mayPack (s : State) (page hub : Nat) : Bool :=
  pagePolicy s page == some 0 && (pageAtHub s page hub).st == .plain && !overlapsRing s (4096 * page) 4096 &&
    (List.range 64).all fun i =>
      let l := 64 * page + i
      !heldA s l hub && !anyDirty s l hub && !poisonedAt s l hub

/-- Compression is called for: pressure (F at or below W), every cold page, or cold pages while F is below P ÷ 4 (Table 5.7,
R222). -/
def packWanted (s : State) (hub : Nat) : Bool :=
  decide (capFAt s hub ≤ capW s) || cmode s hub == 2 || (cmode s hub == 1 && decide (4 * capFAt s hub < capPAt s hub))

/-- Background work on a hub's pages is admitted: within the slack of its class, migration or compression, or beyond it under
capacity pressure (R215, R222, R349), but not while a junction is critical (Table 9.2). Work that finds no slack waits. -/
def pageAdmit (s : State) (hub : Nat) (pack : Bool) (cost : Nat) : Bool :=
  (decide (capFAt s hub ≤ capW s) && decide (s.tally.therm < 3)) || decide (cost ≤ if pack then s.tally.slackPack else s.tally.slackMove)

/-- Background work on pages is booked, charged to no seat, and taken from the slack of its class (R345, R349). -/
def payPage (s : State) (pack : Bool) (rail cost : Nat) : State :=
  modTally (chargeBg (bookOp s rail cost) cost) fun t =>
    if pack then { t with slackPack := t.slackPack - cost } else { t with slackMove := t.slackMove - cost }

/-- A compression engine takes a line in S; another agent's E copy becomes S (R239). A line with a transaction in progress, or whose
directory set has no way for it, cannot be taken. -/
def engineTake (s : State) (line hub a : Nat) : Option State :=
  if mhas s.coh.txns (hkey line hub) then none
  else (makeRoom s line hub).map fun s => setDir (setCopy (hostShare (dropSpec s line) line hub) line hub a (some .s)) line hub

/-- The snapshot of a page: its lines are read, each from the copy nearest its home (R247), into the buffer of an engine that has room,
and the work is charged, kept even if the image is discarded (R216, R239). A read that poisons a line ends it, and so does a line
that cannot be taken. -/
def takeSnapshot (s : State) (page hub : Nat) : State :=
  match engineFor s page hub with
  | none => s
  | some (s, a) =>
    let s := payPage s true (2 + hub) (opCost s opCompress 0)
    let s := (List.range 64).foldl (fun s i => supplyLine s (64 * page + i) hub) s
    if mayPack s page hub then
      match (List.range 64).foldl (fun o i => o.bind fun s => engineTake s (64 * page + i) hub a) (some s) with
      | some s => setPage s page hub { pageAtHub s page hub with move := some .compress }
      | none => s
    else s

/-- A snapshot may be taken now: the page is not moving, nothing excludes it, and four COLD_AGEs have passed since an image of it was
too large (R216, R218). -/
def snapshotDue (s : State) (page hub : Nat) : Bool :=
  let p := pageAtHub s page hub
  p.move.isNone && decide (p.retryTb ≤ s.clock.tb) && mayPack s page hub

/-- A candidate's snapshot is taken where compression is called for and the tally admits the work. -/
def packNow (s : State) (page hub : Nat) : Bool :=
  snapshotDue s page hub && packWanted s hub && pageAdmit s hub true (opCost s opCompress 0)

/-- A page becomes a candidate for compression (R214). -/
def coldPage (s : State) (page hub : Nat) : State :=
  let s := setPage s page hub { pageAtHub s page hub with cold := true }
  if packNow s page hub then takeSnapshot s page hub else s

/-- TIER_WINDOW (R214): every count is halved; with F at or below E, pages unaccessed for the window are compressed (R222). -/
def execTierWindow (hub : BitVec 1) (s : State) : Res :=
  let h := hub.toNat
  let s1 := modMem s fun m => { m with
    pages := m.pages.map fun e => if e.1 % 2 = h then (e.1, { e.2 with count := e.2.count >>> 1, reads := 0 }) else e }
  let w := tierReg s h 0x40 * 32768 / 1000
  let s1 := wakeHub s1 h
  .next (if halted s h then s else if capFAt s h ≤ capE s && tierEn s h then
    s1.mem.pages.foldl (fun s (e : Nat × Page) =>
      if e.1 % 2 = h && e.2.st == .plain && e.2.last + w ≤ s.clock.tb then coldPage s (e.1 / 2) h else s) s1
  else s1)

/-- PAGE_COLD_AGE (R214): a PLAIN page becomes a candidate for compression. -/
def execPageColdAge (hub : BitVec 1) (page : BitVec 31) (s : State) : Res :=
  let h := hub.toNat
  let n := page.toNat
  let p := pageAtHub s n h
  .next (if !halted s h && tierEn s h && p.st == .plain && pagePolicy s n == some 0 && decide (p.retryTb ≤ s.clock.tb) then
      coldPage (wakeHub s h) n h
    else s)

/-- Hot pages of a hub. -/
def hotPages (s : State) (hub : Nat) : List (Nat × Page) := s.mem.pages.filter fun e => e.1 % 2 == hub && e.2.hot

/-- The hot page with the lowest count. -/
def coldestHot (s : State) (hub : Nat) : Option (Nat × Page) :=
  (hotPages s hub).foldl (fun r e =>
    match r with
    | some x => if e.2.count < x.2.count then some e else some x
    | none => some e) none

/-- The dirty lines of a page that its home itself holds: keys as copies. -/
def pageTwins (s : State) (page hub : Nat) : List Nat :=
  s.coh.twin.filter fun k => k % 64 == 33 * hub && k / 4096 == page

/-- Accesses of 64 bytes to the hot tier and to DRAM that a page move makes are booked (R345). -/
def payMove (s : State) (hub n : Nat) : State :=
  payPage (payPage s false (4 + hub) (n * opCost s opHot 0)) false (14 + hub) (n * opCost s opDram 0)

/-- What a move of n lines between the hot tier and media costs. -/
def moveCost (s : State) (n : Nat) : Nat := n * opCost s opHot 0 + n * opCost s opDram 0

/-- A page leaves the hot tier: its dirty lines are checked and written to its media first (R213, R271). -/
def demote (s : State) (page hub : Nat) : State :=
  let l := pageTwins s page hub
  let s := l.foldl cleanCopy (payMove s hub l.length)
  setPage s page hub { pageAtHub s page hub with hot := false, move := none }

/-- A page enters the hot tier, read from its media under the key its slot holds; with the tier full, the hot page with the
lowest count makes room unless it is at the threshold too (R213, R214, R226). -/
def promote (s : State) (page hub : Nat) : State :=
  let put (s : State) : State :=
    let s := rewriteKeys (readPage (payMove s hub 64) page hub) page hub
    setPage s page hub { pageAtHub s page hub with hot := true, move := none }
  if (hotPages s hub).length < 32256 then put s
  else match coldestHot s hub with
    | some e =>
      if tierReg s hub 0x44 ≤ e.2.count.toNat then setPage s page hub { pageAtHub s page hub with move := none }
      else put (demote s (e.1 / 2) hub)
    | none => put s

/-- A PACKED page becomes PLAIN (R214): it is read, and stored as PLAIN under its key; its lines leave an engine's buffer (R239). -/
def unpack (s : State) (page hub : Nat) : State :=
  let p := pageAtHub s page hub
  let need := match p.st with
    | .packed c => 8 - c
    | _ => 0
  if mediaShort s hub need then setPage s page hub { p with move := none }
  else
    let s := readPage (payPage s false (2 + hub) (opCost s opDecompress 0)) page hub
    let s := dropEnginePage (rewriteKeys s page hub) page hub
    let p := pageAtHub s page hub
    capCheck (setPage s page hub { p with st := if p.st == .zero then .zero else .plain, move := none })

/-- What a page move takes from the slack. -/
def switchCost (s : State) : MoveKind → Nat
  | .promote => moveCost s 64
  | .unpack => opCost s opDecompress 0
  | _ => 0

/-- PAGE_MIGRATION_SWITCH (R215): the entry switches to the destination in one step; a move the tally does not admit waits. -/
def execPageMigrationSwitch (hub : BitVec 1) (page : BitVec 31) (s : State) : Res :=
  let h := hub.toNat
  let n := page.toNat
  .next (match (pageAtHub s n h).move with
    | some k =>
      if halted s h || !pageAdmit s h false (switchCost s k) then s
      else match k with
        | .promote => promote s n h
        | .demote => demote s n h
        | .unpack => unpack s n h
        | .compress => s
    | none => s)

/-- An image is stored PACKED: the page's media is written under its key, and holds what the home holds (R218, R225). Its lines have
left the engine. -/
def storeImage (s : State) (page hub size : Nat) : State :=
  let s := (List.range 64).foldl (fun s i => writeDamage s (64 * page + i) hub) (rewriteKeys s page hub)
  let s := (pageTwins s page hub).foldl (fun s k =>
    modCoh s fun c => { c with twin := c.twin.filter (· != k), buf := mmod c.buf (hkey (k / 64) hub) fun _ => false }) s
  mediaFreed (setPage s page hub
    { pageAtHub s page hub with st := .packed (max 1 ((size + 511) / 512)), move := none, cold := false, reads := 0 })

/-- PAGE_COMPRESSION (R216, R218): the image of a snapshot is stored PACKED in the smallest class that holds it, or the page stays
PLAIN. A candidate that waited for slack, or with no media free any page that is not hot and that nothing excludes, has its snapshot
taken first (R224, R349). Background work stands still while a junction is critical (Table 9.2). -/
def execPageCompression (hub : BitVec 1) (page : BitVec 31) (size : BitVec 13) (s : State) : Res :=
  let h := hub.toNat
  let n := page.toNat
  let p := pageAtHub s n h
  let stop := halted s h || decide (3 ≤ s.tally.therm)
  let late := snapshotDue s n h && (decide (capFAt s h = 0) && !p.hot || p.cold && packNow s n h)
  let s := if !stop && late then takeSnapshot s n h else s
  let p := pageAtHub s n h
  .next (if stop || p.move != some .compress then s
  else
    let s := dropEnginePage s n h
    if 3584 < size.toNat || p.st != .plain then
      setPage s n h { p with move := none, cold := false, retryTb := s.clock.tb + 4 * tierReg s h 0x4C * 32768 }
    else storeImage s n h size.toNat)

/-! Keys (R230) -/

/-- A write of KEYS.ZERO that took effect: ALL empties every slot, GO the one named. -/
def zeroWrite (s : State) (w : Word32) : State :=
  let a := globalPage 6 + 0x800
  let v := maskedWrite w 0x80FF (reg s a)
  let s := setReg s a (v &&& 0x7F)
  if v.getLsbD 15 then { s with keys := [] }
  else if v.getLsbD 7 then { s with keys := mdel s.keys (bits v 6 0) }
  else s

/-- The complement of KEYS.ZERO arrives. -/
def keysZero (p : Place) (w : Word32) (s : State) : State :=
  match guardEffect s p (globalPage 6 + 0x800) w with
  | (s, some w) => zeroWrite s w
  | (s, none) => s

/-- KEYS_ZERO_SLOT (R230). -/
def execKeysZeroSlot (p : Place) (w : Word32) (s : State) : Res := .next (keysZero p w s)

/-- KEYS_ZERO_ALL (R230). -/
def execKeysZeroAll (p : Place) (w : Word32) (s : State) : Res := .next (keysZero p w s)

/-! CXL event logs (R233) -/

/-- CLEAR_EVENT_RECORDS (R233): the oldest n records of one log leave it, none for a count of 0 (R19); an emptied log's overflow
resets. -/
def execClearEventRecords (p : Place) (log : BitVec 2) (n : BitVec 7) (s : State) : Res :=
  .next (if (ld s p).bound && placeUp s p && n != 0 then
    modLd s p fun l =>
      let k := log.toNat
      let rest := (l.logs.getD k []).drop n.toNat
      { l with logs := l.logs.set k rest
               overflow := if rest.isEmpty then l.overflow.set k false else l.overflow }
  else s)

end Sys2Proof.Machine
end

