-- ==== Sys2Proof/Machine/Search.lean ====
section
/-!
DEFINITION. Searches: dispatch and its checks, local results, near-data reads, provisional and early answers, the cascade, and
what a final result does (R50 to R95, R128 to R135, R176 to R179, R253). Where a search ends among its rows is log 20.
-/
namespace Sys2Proof.Machine

/-! Where a search runs -/

/-- A table in service: it exists and is not closing. -/
def tableIn (s : State) (n : Nat) : Option Table :=
  if n < 1024 then (mget s.tables n).bind fun t => if t.closing.isSome then none else some t else none

/-- A seat holds a right to a table: the owner both, other seats what they were granted (R143, R321). -/
def holdsRight (s : State) (seat n : Nat) (update : Bool) : Bool :=
  decide (n < 1024) &&
    match mget s.tables n with
    | some t =>
      t.owner == some seat ||
        (match mget t.rights seat with
         | some r => if update then r.2 else r.1
         | none => false)
    | none => false

/-- The fronds a search of a table runs on: die and rank; in pair-compare both halves' (R39, R41). -/
def searchDies (s : State) (t : Table) (compare : Bool) : List (Nat × FrondSlot) :=
  if compare then t.fronds.map (fun f => (f.die, f)) ++ t.fronds.map (fun f => (f.die + 3, f))
  else t.fronds.map fun f => (serveDie s f.die, f)

/-- Issue slots of a search in each frond (Table 2.7). -/
def slotsOfSearch (t : Table) (hits : Nat) : Nat := hits + if t.ranked then 1 else 0

/-- Predicted cost: the mean charge of the table's previous searches; with no history, every pan of its ranges lit (R347). -/
def searchCost (s : State) (t : Table) (hits : Nat) : Nat :=
  if t.hist.isEmpty then
    opCost s opDispatch 0 + t.fronds.foldl (fun n f =>
      n + f.pans * slotsOfSearch t hits * opCost s opLit (frond s (serveDie s f.die)).level) 0
  else t.hist.foldl (· + ·) 0 / t.hist.length

/-- The logical pans of a range that a sluice field lights: tags that match, and tags whose parity fails (R62, R269); a dead pan
is dark (R297). -/
def litPans (s : State) (die : Nat) (f : FrondSlot) (fieldBits : Word) : List Nat :=
  let bad := (frond s die).arr.tagBad
  ((List.range f.pans).map (f.first + ·)).filter fun p =>
    !panDead s die p && (mhas bad (2 * p) || mhas bad (2 * p + 1) || tagMatch (tagOf s die p) fieldBits)

/-- Fronds on the cascade ring (Table 1.6, R46). -/
def ringSize (s : State) : Nat := (frondDies s).length

/-- Hops of a walk from frond a to frond b along the ring of n. -/
def arcSpan (n a : Nat) (set : List Nat) : Nat := set.foldl (fun m b => max m ((b + n - a) % n)) 0

/-- The walk of a set of fronds (numbers 0 to 5): its first frond and its hops; in pair mode from the lowest to the highest member
(R77). Of two equally short arcs that start at the same frond, one rising and one falling, the rising one is walked (DESIGN CHOICE,
log 20). -/
def arcOf (s : State) (set : List Nat) : Nat × Nat :=
  match set with
  | [] => (0, 0)
  | x :: t =>
    let lo := t.foldl min x
    let hi := t.foldl max x
    if inPair s then (lo, hi - lo)
    else
      let n := ringSize s
      ((List.range 6).filter set.contains).foldl (fun r a => if arcSpan n a set < r.2 then (a, arcSpan n a set) else r)
        (lo, arcSpan n lo set)

/-- A hop of a set's walk is down: hop f leaves frond f, and stands in the link codes at 0x20 + f (Table 11.9). -/
def arcBroken (s : State) (set : List Nat) : Bool :=
  let a := arcOf s set
  (List.range a.2).any fun k => s.pkg.linksDown.contains (0x20 + (a.1 + k) % (if inPair s then 6 else max 1 (ringSize s)))

/-- Both cross links are down and some of the dies stand in the other half than a hub (Table 3.12). -/
def farHubCut (s : State) (hub : Nat) (dies : List Nat) : Bool :=
  crossCut s && dies.any fun d => halfOf d != hub

/-- The fault a started search meets at once, if any. -/
def reachFault (s : State) (hub : Nat) (dies : List Nat) : Option (BitVec 8) :=
  if dies.any fun d => !frondServes s d then some stFrondLost
  else if arcBroken s ((dies.filter fun d => halfOf d = halfOf (dies.headD 2) || !inPair s).map (· - 2)) then
    some stCascadeBroken
  else if farHubCut s hub dies then some stHubUnreachable
  else none

/-! Checks (Table 3.13) -/

/-- A seat is detaching. -/
def detaching (s : State) (seat : Nat) : Bool :=
  match mget s.seats seat with
  | some x => x.detach != .none
  | none => true

/-- Step 8: the key is longer than the table's width. -/
def keyTooLong (s : State) (n keylen : Nat) : Bool :=
  match mget s.tables n with
  | some t => 5 * t.rows < keylen
  | none => false

/-- Steps 2 to 8 of a single search. -/
def singleCheck (s : State) (seat n keylen hits limit : Nat) : Option (BitVec 8) :=
  if limit < keylen then some stBadForm
  else if detaching s seat then some stSeatDetaching
  else if !holdsRight s seat n false then some stNoRight
  else if (tableIn s n).isNone then some stBadTable
  else if keylen = 0 || hits = 0 then some stZeroLength
  else if 8 < hits then some stBadCount
  else if keyTooLong s n keylen then some stKeyTooLong
  else none

/-- Steps 2, 3, 6 and 7 of a group as a whole. -/
def groupCheck (s : State) (seat keylen hits group : Nat) : Option (BitVec 8) :=
  if 40 < keylen then some stBadForm
  else if detaching s seat then some stSeatDetaching
  else if keylen = 0 || hits = 0 || group = 0 then some stZeroLength
  else if 8 < hits || 4 < group then some stBadCount
  else none

/-- Steps 4, 5 and 8 of a member. -/
def memberCheck (s : State) (seat n keylen : Nat) : Option (BitVec 8) :=
  if !holdsRight s seat n false then some stNoRight
  else if (tableIn s n).isNone then some stBadTable
  else if keyTooLong s n keylen then some stKeyTooLong
  else none

/-! Dispatch (R76, R79, R81) -/

/-- What a search asks. -/
structure Ask where
  ring : Nat
  sub : Nat
  member : Nat
  tag : Word
  seat : Nat
  table : Nat
  key : Key
  hits : Nat
  early : Bool
  window : Bool
  fetched : Nat
deriving DecidableEq, Repr

/-- A move that a frond still queues has started in the other half, or is done there (R168, R172). -/
def halfMoved (s : State) (die : Nat) (m : Move) : Bool :=
  inPair s && (copies s (baseDie s die)).length == 2 &&
    !((frond s (if die < 5 then die + 3 else die - 3)).moves.any fun x => x.sub == m.sub)

/-- The rake is moving entries of a table on some frond, of either half (R171); in pair mode a move that one half has begun or finished
and the other still queues is under way too. -/
def tableMoving (s : State) (n : Nat) : Bool :=
  (List.range 6).any fun k =>
    let f := frond s (k + 2)
    (f.move.map fun m : Move => m.table == n).getD false || f.moves.any fun m => m.table == n && halfMoved s (k + 2) m

/-- Near-data speculation is on for a seat (R86, R348). -/
def specOn (s : State) (seat : Nat) : Bool :=
  (tallyCtl s).getLsbD 3 && !((mget s.seats seat).map fun x : Seat => x.specOff).getD true

/-- Start a search that passed its checks: admission, then the lit sets and their charges; OVER_BUDGET and the faults of R95 and
Table 1.7 are answered at once. The sub-mode in force now is the search's: a dispatcher accepts it here, where it starts (R42; DESIGN
CHOICE, log 20). -/
def launch (s : State) (t : Table) (a : Ask) : State × Option (BitVec 8) :=
  let compare := inCompare s
  let dies := searchDies s t compare
  let c := searchCost s t a.hits
  let hub := match seatPlace s a.seat with
    | some p => placeHub p
    | none => 0
  match admitWork s a.seat c with
  | none => (countRefused s, some stOverBudget)
  | some (s, fromG) =>
    let d := opCost s opDispatch 0
    let s := bookOp s (2 + hub) d
    match reachFault s hub (dies.map fun x => x.1) with
    | some st => (settle s a.seat c d fromG, some st)
    | none =>
      let fb := field16 a.key t.ofs
      let n := slotsOfSearch t a.hits
      let lits := dies.map fun x => (x.1, x.2, litPans s x.1 x.2 fb)
      let cost := lits.foldl (fun e x => e + x.2.2.length * n * opCost s opLit (frond s x.1).level) d
      let s := lits.foldl (fun s x =>
        let s := bookOp s (coreRail x.1) (x.2.2.length * n * opCost s opLit (frond s x.1).level)
        modFrond s x.1 fun f => { f with searches := f.searches + 1, lit := f.lit + BitVec.ofNat 64 (x.2.2.length * n) }) s
      let spec := specOn s a.seat
      let q : Search :=
        { ring := a.ring, sub := a.sub, member := a.member, tag := a.tag, seat := a.seat, table := a.table, key := a.key,
          hits := a.hits, early := a.early && spec && a.hits == 1 && !t.ranked && !compare && decide (2 ≤ dies.length),
          spec := spec, moving := tableMoving s a.table,
          res := lits.map fun x =>
            { die := x.1, rank := x.2.1.rank, lit := x.2.2, done := false, hits := [], prios := [], fault := 0,
              near := none, wake := false },
          prov := none, pred := none, cost := c, fromG := fromG, charge := cost, window := a.window, compare := compare,
          fetched := a.fetched, fills := [], ended := false }
      ({ s with searches := mput s.searches s.nextId q, nextId := s.nextId + 1 }, none)

/-- The fronds that tables need awake before a search of them starts, those in service only. -/
def tableDies (s : State) (ns : List Nat) : List Nat :=
  (ns.flatMap fun n => ((tableIn s n).map fun t => (searchDies s t (inCompare s)).map fun x => x.1).getD []).filter
    (frondServes s)

/-- Refuse one member of a submission. -/
def memberDone (s : State) (n : Nat) (u : Sub) (member : Nat) (st : BitVec 8) : State :=
  complete s n u.id (finalComp u.tag st member 0 0)

/-- A member that started ends at once with a fault: TABLE_MOVING tells whether its table was being moved (Table 3.10). -/
def memberFault (s : State) (n : Nat) (u : Sub) (member table : Nat) (st : BitVec 8) : State :=
  complete s n u.id { finalComp u.tag st member 0 0 with flags := flLast ||| flagIf (tableMoving s table) flMoving }

/-- Start one member, or answer it at once. -/
def startMember (s : State) (n : Nat) (u : Sub) (seat member table : Nat) (key : Key) (pre : Option (BitVec 8)) : State :=
  match pre with
  | some st => memberDone s n u member st
  | none =>
    match tableIn s table with
    | none => memberDone s n u member stBadTable
    | some t =>
      let (s, r) := launch s t
        { ring := n, sub := u.id, member := member, tag := u.tag, seat := seat, table := table, key := key,
          hits := subHits u, early := u.early && !noEarly u, window := false, fetched := u.fetched }
      match r with
      | some st => if st = stOverBudget then memberDone s n u member st else memberFault s n u member table st
      | none => s

/-- The ring's dispatcher runs: its hub, or the half that serves for it, is in service. -/
def dispatches (s : State) (n : Nat) : Bool := hubServes s (compHub s n)

/-- Start a single search of a submission (R135). -/
def startSingle (s : State) (n : Nat) (u : Sub) (seat ofs limit : Nat) : State :=
  let tb := subTable u
  let k := subKeylen u
  match singleCheck s seat tb k (subHits u) limit with
  | some st => finish (startSub s n u.id 1) n u st 0
  | none =>
    match needFronds s (tableDies s [tb]) with
    | some s' => s'
    | none => startMember (startSub s n u.id 1) n u seat 0 tb (keyOfBytes u.bytes ofs k) none

/-- SEARCH_SHORT (R103). -/
def execSearchShort (ring : BitVec 10) (s : State) : Res :=
  let n := ring.toNat
  .next (match nextSub s n 0x01 with
    | some (u, seat) => if dispatches s n then startSingle s n u seat 8 10 else s
    | none => s)

/-- The tables of a long form, members 0 to 3 (Table 3.5). -/
def groupTables (u : Sub) : List Nat := [subTable u, field u.bytes 8 2, field u.bytes 10 2, field u.bytes 12 2]

/-- SEARCH_LONG (R104): a single search, or a group of up to four. -/
def execSearchLong (ring : BitVec 10) (s : State) : Res :=
  let n := ring.toNat
  .next (match nextSub s n 0x02 with
    | some (u, seat) =>
      if !dispatches s n then s
      else
        let g := subGroup u
        let k := subKeylen u
        if g = 1 then startSingle s n u seat 16 40
        else match groupCheck s seat k (subHits u) g with
          | some st => finish (startSub s n u.id 1) n u st 0
          | none =>
            let tbs := (groupTables u).take g
            let pre := tbs.map fun tb => memberCheck s seat tb k
            match needFronds s (tableDies s ((tbs.zip pre).filterMap fun x => if x.2.isNone then some x.1 else none)) with
            | some s' => s'
            | none =>
              let key := keyOfBytes u.bytes 16 k
              (List.range g).foldl (fun s i =>
                startMember s n u seat i (tbs.getD i 0) key (pre.getD i none)) (startSub s n u.id g)
    | none => s)

/-! Inside a frond -/

/-- An entry's rows, as they stand. -/
def rowsOf (s : State) (die first n : Nat) : List Row := (entryRows first n).map (rowAt s die)

/-- Every cell of the rows matches the key (R50, R53), and every valid bit is set (R56). -/
def rowsMatch (key : Key) (rows : List Row) : Bool :=
  rows.all (fun r => r.valid) &&
    (List.range rows.length).all fun i =>
      match rows[i]? with
      | some r => mismatch r.data r.mask (keyRow key i) == 0
      | none => true

/-- First rows of the entries in the lit pans that match, ascending. Only listed rows can be valid. -/
def matches_ (s : State) (die n : Nat) (lit : List Nat) (key : Key) : List Nat :=
  (frond s die).arr.rows.filterMap fun e =>
    if lit.contains (e.1 / 8192) && e.1 % n = 0 && rowsMatch key (rowsOf s die e.1 n) then some e.1 else none

/-- What a frond captures of an entry at the match cycle (R162). -/
def capture (s : State) (die first n : Nat) : Hit :=
  let r := rowAt s die first
  { die := die, row := first, near := r.near, prio := r.prio, poison := r.poison, rows := rowsOf s die first n, tie := false }

/-- Order of two hits of one frond: by priority value and row, or by row (R67, R69). -/
def hitBefore (ranked : Bool) (a b : Hit) : Bool :=
  if ranked && a.prio != b.prio then decide (a.prio.toNat < b.prio.toNat) else decide (a.row < b.row)

/-- Insert a hit in order. -/
def hitInsert (ranked : Bool) (h : Hit) : List Hit → List Hit
  | [] => [h]
  | x :: t => if hitBefore ranked h x then h :: x :: t else x :: hitInsert ranked h t

/-- The winner check of R74 on the captured rows: the row checks, the near-data check, then the cells again. -/
def winnerCheck (key : Key) (h : Hit) (n : Nat) : BitVec 8 :=
  if (List.range n).any (fun i => match h.rows[i]? with
      | some r => !rowGood h.die (h.row + i) r
      | none => true) then stRowCheck
  else match h.rows.head? with
    | some r =>
      if !nearGood h.die h.row r then stRowCheck
      else if rowsMatch key h.rows then 0 else stPanFault
    | none => stRowCheck

/-- Store a search. -/
def putSearch (s : State) (id : Nat) (q : Search) : State := { s with searches := mput s.searches id q }

/-- Change one frond's part of a search. -/
def modRes (q : Search) (die : Nat) (f : FRes → FRes) : Search :=
  { q with res := q.res.map fun r => if r.die = die then f r else r }

/-- Charge an operation of a search: booked to the frond's rail, and counted for its settlement. -/
def chargeSearch (s : State) (q : Search) (die e n : Nat) : State × Search :=
  let c := n * opCost s e (frond s die).level
  (bookOp s (coreRail die) c, { q with charge := q.charge + c })

/-- Bed faults of this search (R298): a fault counts, the sixteenth in a row kills the bed; beds lit without one start again. -/
def bedCount (s : State) (die : Nat) (lit : List Nat) (bad : Option Nat) : State :=
  let beds := (lit.map (· / 32)).eraseDups
  beds.foldl (fun s b =>
    if (frond s die).arr.bedDead.contains b then s
    else if bad = some b then
      let n := (mget (frond s die).arr.bedFaults b).getD 0 + 1
      let s := modArr s die fun a => { a with bedFaults := mput a.bedFaults b n }
      if 16 ≤ n then
        event (modArr s die fun a => { a with bedDead := b :: a.bedDead }) 0x1009 2 die 0xFF [(1, b)] .steward
      else s
    else modArr s die fun a => { a with bedFaults := mdel a.bedFaults b }) s

/-- Rewrite priority values of entries from bytes 6 and 7 of their near data (R268). -/
def fixPrio (s : State) (die : Nat) (rows : List Nat) : State :=
  rows.foldl (fun s f =>
    let r := rowAt s die f
    putRow s die f { r with prio := prioOf r.near, ppar := true }) s

/-! Far data (R88, R89, R148, R149, R253) -/

/-- The far-data lines of an entry by its near data; none where the handle is out of range (R148). -/
def farLines (t : Table) (near : Word64) : List Nat :=
  let h := near.toNat % 2 ^ 32
  if !t.far || t.flimit ≤ h then []
  else (List.range t.flines).map fun k => t.fbase / 64 + h * t.flines + k

/-- TABLE_REGION_LOST, once for the table (R149). -/
def regionLost (s : State) (n dpa : Nat) : State :=
  match mget s.tables n with
  | some t =>
    if t.lost then s
    else
      event { s with tables := mput s.tables n { t with lost := true } } 0x1002 1 0xFF 0xFF [(2, n), (8, dpa)]
        (.owner t.owner)
  | none => s

/-- A line lies in the owner's HDM-DB extents, with the right asked. -/
def ownerReaches (s : State) (t : Table) (a : Nat) (rw : Bool) : Bool :=
  match t.owner with
  | some o => reaches s o a rw true
  | none => false

/-- A line may be prefetched (R88, R254): no host holds it, its directory state is I or S, it is not poisoned, and a read of it meets
no error, since a speculative read raises no event (R82). A line the home holds already needs no prefetch. -/
def mayPrefetch (s : State) (line hub : Nat) : Bool :=
  !mhas s.coh.filt (hkey line hub) && !mhas s.coh.txns (hkey line hub) && !homeHolds s line hub &&
    !poisonedAt s line hub && !keyAbsent s (64 * line) && mediaError s line hub == 0 &&
    !mhas s.mem.badMap (hkey (pageOfLine line) hub) &&
    (match mget s.coh.dir (hkey line hub) with
     | some e => e.st == .s && !e.bad
     | none => true)

/-- Prefetched lines that a search filled are discarded (R89). -/
def dropFills (s : State) (q : Search) : State :=
  q.fills.foldl (fun s l => if mget s.coh.spec l = some (some q.seat) then dropSpec s l else s) s

/-- Change the dispatcher counters of a hub. -/
def modDisp (s : State) (hub : Nat) (f : Disp → Disp) : State := { s with disp := s.disp.modify hub f }

/-- The hub whose dispatcher a seat uses. -/
def dispHub (s : State) (seat : Nat) : Nat := ((seatPlace s seat).map placeHub).getD (primary s)

/-- A prediction is wrong: the lines filled for it are discarded and counted (R89). -/
def squashFills (s : State) (q : Search) : State :=
  modDisp (dropFills s q) (dispHub s q.seat) fun d => { d with pfSquash := d.pfSquash + BitVec.ofNat 64 q.fills.length }

/-- The cascade rank of a frond of a search. -/
def rankIn (q : Search) (die : Nat) : Nat := ((q.res.find? fun r => r.die == die).map fun r => r.rank).getD 0

/-- The global winner is predicted: the first local hit from the highest-ranked reporting frond; a later hit of a higher-ranked frond
takes the prediction over (R88; DEDUCED, log 20). Lines that have left the owner's extents are not predicted; nothing is raised while
the prediction may yet be squashed (R82). A poisoned hit has no far data to return and predicts nothing (DESIGN CHOICE, log
20). -/
def predict (s : State) (q : Search) (t : Table) (h : Hit) : State × Search :=
  let better := match q.pred with
    | some p => decide (rankIn q h.die < rankIn q p.1)
    | none => true
  if q.spec && better && !h.poison then
    match farLines t h.near with
    | [] => (s, q)
    | l =>
      let s := if q.fills.isEmpty then s else squashFills s q
      (s, { q with pred := some (h.die, h.row, l.filter fun x => ownerReaches s t (64 * x) false), fills := [] })
  else (s, q)

/-- Room for a line in a hub's speculation area of 2 MiB, 32,768 lines: a full area gives up a line of its own whose mark is cleared
(R88, R213). -/
def specRoom (s : State) (hub : Nat) : Option State :=
  let mine := s.coh.spec.filter fun e => devHub s e.1 == hub
  if mine.length < 32768 then some s
  else (mine.find? fun e => e.2 == none).map fun e => dropSpec s e.1

/-- FAR_DATA_PREFETCH_FILL (R88): line k of the prediction arrives in its home's speculation area, from DRAM or from a frond that
shares it, and bears the mark of the search's seat; a line marked for another seat is as absent. -/
def execFarDataPrefetchFill (id : BitVec 32) (k : BitVec 2) (s : State) : Res :=
  .next (match mget s.searches id.toNat with
    | some q =>
      match q.pred.bind fun p => p.2.2[k.toNat]? with
      | some line =>
        let h := devHub s line
        if !q.ended && mayPrefetch s line h && mget s.coh.spec line != some (some q.seat) && hubServes s h &&
            !homeCut s (dispHub s q.seat) line then
          match specRoom (dropSpec s line) h with
          | some s =>
            let c := opCost s opDram 0
            let s := putSearch s id.toNat { q with charge := q.charge + c, fills := q.fills ++ [line] }
            let s := match supplier s line h h 64 with
              | some x => send s (.cohMsg x line 1)
              | none => bookOp s (14 + h) c
            modCoh s fun x => { x with spec := mput x.spec line (some q.seat) }
          | none => s
        else s
      | none => s
    | none => s)

/-- After a final hit the winning frond fills the winner's far-data lines into its cache in S, where COH.CTL.FILL is set, its cache has
room and no entry must be recalled (R253). A line prefetched for another seat is as absent and is dropped (R88). A line that the read
finds poisoned is not kept (R282). -/
def farFill (s : State) (who : Nat) (t : Table) (h : Hit) : State :=
  (farLines t h.near).foldl (fun s line =>
    let hub := agentHome s h.die line
    if (reg s (cohReg hub 8)).getLsbD 2 && agentMayHold s h.die line && agentRoom s h.die line &&
        ownerReaches s t (64 * line) false && hubServes s hub && !heldA s line hub && !mhas s.coh.txns (hkey line hub) &&
        !keyAbsent s (64 * line) && !s.coh.wb.contains (hkey line hub) && (copyOf s line hub h.die).isNone &&
        (match mget s.coh.dir (hkey line hub) with
         | some e => e.st == .s && !e.bad
         | none => (match roomOf s hub (dirWays s hub line) with | .ready => true | _ => false)) then
      let s := dropOthers s line who
      let s := if poisonedAt s line hub then s else feed s line hub h.die .good
      if poisonedAt s line hub then s
      else countAccess (grant s line hub h.die .s) (pageOfLine line) hub true
    else s) s

/-! The verdict -/

/-- What a search, or one half of it, comes to: HIT, MULTI, MISS, POISONED or a fault; the hits returned; the poisoned entry that
ends the list, or the winner that failed its check. -/
structure Verdict where
  st : BitVec 8
  hits : List Hit
  bad : Option Hit
deriving DecidableEq, Repr

/-- Order of two fronds' hits in the table's order (R67 to R69): rank, then the lower die where ranks are equal. -/
def globalBefore (ranked : Bool) (a b : Nat × Hit) : Bool :=
  if ranked && a.2.prio != b.2.prio then decide (a.2.prio.toNat < b.2.prio.toNat)
  else if a.1 != b.1 then decide (a.1 < b.1)
  else if a.2.die != b.2.die then decide (a.2.die < b.2.die)
  else decide (a.2.row < b.2.row)

/-- Insert a hit of a frond of a rank in the table's order. -/
def globalInsert (ranked : Bool) (h : Nat × Hit) : List (Nat × Hit) → List (Nat × Hit)
  | [] => [h]
  | x :: t => if globalBefore ranked h x then h :: x :: t else x :: globalInsert ranked h t

/-- The first N hits of a set of fronds, each with its TIE flag judged against every match (R70, R71). -/
def merged (ranked : Bool) (n : Nat) (res : List FRes) : List Hit :=
  let all := res.flatMap fun r => r.hits.map fun h => (r.rank, h)
  let prios := res.flatMap fun r => r.prios
  ((all.foldl (fun l h => globalInsert ranked h l) []).take n).map fun x =>
    { x.2 with tie := ranked && decide (2 ≤ (prios.filter (· == x.2.prio)).length) }

/-- Read and check the near data of the hits that are returned, in order, up to the first poisoned one: the state with the reads
charged, the fault of the first that fails, if any. -/
def readHits (s : State) (id : Nat) (key : Key) (n : Nat) (res : List FRes) : List Hit → State × Option (Hit × BitVec 8)
  | [] => (s, none)
  | h :: t =>
    if h.poison then (s, none)
    else
      let early := (res.find? fun r => r.die == h.die).bind fun r =>
        if (r.hits.head?.map fun x : Hit => x.row) = some h.row then r.near else none
      let (s, st) := match early with
        | some st => (s, st)
        | none =>
          match mget s.searches id with
          | some q =>
            let (s, q) := chargeSearch s q h.die opNear 1
            (putSearch s id q, winnerCheck key h n)
          | none => (s, winnerCheck key h n)
      if st != 0 then (s, some (h, st)) else readHits s id key n res t

/-- The verdict on a set of fronds that have all reported. A fault of any frond is the search's; the entry that fails its winner
check is named (R117) and repaired (R95, R272). -/
def judge (s : State) (id : Nat) (q : Search) (t : Table) (res : List FRes) : State × Verdict :=
  match (res.find? fun r => r.fault != 0).map fun r => r.fault with
  | some f => (s, ⟨f, [], none⟩)
  | none =>
    let l := merged t.ranked q.hits res
    if l.isEmpty then (s, ⟨stMiss, [], none⟩)
    else
      let (s, bad) := readHits s id q.key t.rows res l
      match bad with
      | some (h, st) =>
        let s := if st = stRowCheck then (entryRows h.row t.rows).foldl (fun s r => checkRow s h.die r) s else s
        (s, ⟨st, [], some { h with tie := false }⟩)
      | none =>
        let good := l.takeWhile fun h => !h.poison
        let p := l.find? fun h => h.poison
        (s, ⟨if good.isEmpty then stPoisoned else if q.hits = 1 then stHit else stMulti, good, p⟩)

/-! Final results (R84, R122, R130, R176) -/

/-- A completion of a hit. -/
def hitComp (q : Search) (st fl : BitVec 8) (idx : Nat) (h : Hit) (data : Word64) : Comp :=
  { tag := q.tag, status := st, flags := fl ||| flagIf h.tie flTie ||| flagIf q.moving flMoving,
    pos := BitVec.ofNat 32 (posMember q.member idx + posOf h.die h.row), data := data }

/-- A completion with zero row fields. -/
def plainComp (q : Search) (st : BitVec 8) (data : Word64) : Comp :=
  { tag := q.tag, status := st, flags := flLast ||| flagIf q.moving flMoving,
    pos := BitVec.ofNat 32 (posMember q.member 0), data := data }

/-- The completions of a verdict (R122), or the follow-up of a provisional answer (Table 3.11a). A winner that failed its check is no
refusal: its completion carries its row fields (R117). -/
def verdictComps (q : Search) (v : Verdict) (early : Bool) : List Comp :=
  match q.prov with
  | some p =>
    match v.hits, v.bad with
    | h :: _, _ =>
      [hitComp q (if h.die = p.die && h.row = p.row then stConfirm else stRetractHit) flLast 0 h h.near]
    | [], some b => [hitComp q stRetractStatus flLast 0 b (BitVec.ofNat 64 v.st.toNat)]
    | [], none =>
      if v.st = stMiss then [plainComp q stRetractMiss 0]
      else [plainComp q stRetractStatus (BitVec.ofNat 64 v.st.toNat)]
  | none =>
    let n := v.hits.length + if v.bad.isSome then 1 else 0
    let goods := v.hits.zipIdx.map fun x =>
      hitComp q v.st (flagIf (decide (x.2 + 1 = n)) flLast ||| flagIf early flEarly) x.2 x.1 x.1.near
    let bads := match v.bad with
      | some b => [hitComp q (if v.hits.isEmpty then v.st else stPoisoned) flLast v.hits.length b 0]
      | none => []
    if n = 0 then [plainComp q v.st 0] else goods ++ bads

/-- The counter index of an entry (R147). -/
def counterIndex (t : Table) (rank row : Nat) : Nat := rank * (4194304 / t.rows) + row / t.rows

/-- The bucket of HIST for a number of lit pans (Table 4.9). -/
def histBucket (n : Nat) : Nat :=
  if n ≤ 2 then n else if n ≤ 4 then 3 else if n ≤ 8 then 4 else if n ≤ 16 then 5 else if n ≤ 32 then 6
  else if n ≤ 64 then 7 else 8

/-- Statistics of a frond that have not been counted yet. -/
def statReset : TStat := { searches := 0, hist := List.replicate 9 0, lit := [] }

/-- Count a final result in the statistics of the fronds its key reached, whatever its outcome (R182); a pair-compare, whose key
reached both halves, counts once. -/
def countStats (s : State) (q : Search) : State :=
  match mget s.tables q.table with
  | some t =>
    let res := q.res.filter fun r => !q.compare || halfOf r.die == 0
    let stats := res.foldl (fun m r =>
      let k := baseDie s r.die
      let x := (mget m k).getD statReset
      mput m k
        { searches := x.searches + 1
          hist := x.hist.modify (histBucket r.lit.length) (· + 1)
          lit := r.lit.foldl (fun l p => mput l p ((mget l p).getD 0 + 1)) x.lit }) t.stats
    { s with tables := mput s.tables q.table { t with stats := stats, hist := (q.charge :: t.hist).take 1024 } }
  | none => s

/-- Queue the hit-counter increments of a final result: the primary half's engine alone counts (R176). -/
def queueCounts (s : State) (q : Search) (t : Table) (hits : List Hit) : State :=
  if !t.cnt then s
  else hits.foldl (fun s h =>
    let rank := ((t.fronds.find? fun f => f.die == baseDie s h.die).map fun f => f.rank).getD 0
    modFrond s (serveDie s (baseDie s h.die)) fun f => { f with hce := f.hce ++ [(q.table, counterIndex t rank h.row)] }) s

/-- A squashed near-data read is counted; where its winner check failed, the rows of the entry are handed to the scrubber (R85,
R87). -/
def squashRead (s : State) (seat : Nat) (h : Hit) (st : BitVec 8) : State :=
  let s := modDisp s (dispHub s seat) fun d => { d with ndSquash := d.ndSquash + 1 }
  if st = 0 then s
  else modArr s h.die fun a => { a with scrubReq := a.scrubReq ++ (List.range h.rows.length).map (h.row + ·) }

/-- The near-data reads of local winners that did not become global (in either half of a compare), those still under way among them, each
of which is then done (R85). -/
def squashReads (s : State) (q : Search) (used : List Hit) : State × Search :=
  q.res.foldl (fun (x : State × Search) r =>
    match r.hits with
    | h :: _ =>
      if used.any fun u => baseDie x.1 u.die == baseDie x.1 h.die && u.row == h.row then x
      else match r.near with
        | some st => (squashRead x.1 q.seat h st, x.2)
        | none =>
          if r.done && q.spec && frondServes x.1 r.die then
            let (s, q) := chargeSearch x.1 x.2 r.die opNear 1
            let st := winnerCheck q.key h h.rows.length
            (squashRead s q.seat h st, modRes q r.die fun r => { r with near := some st })
          else x
    | [] => x) (s, q)

/-- The prediction's end (R89): right, its lines lose their mark and are ordinary hot-tier lines, counted as fills of their pages (R214),
and a line that has left the owner's extents is reported (R82, R149); wrong, they are discarded and counted. -/
def settlePred (s : State) (q : Search) (winner : Option Hit) : State :=
  match q.pred with
  | none => s
  | some (die, row, _) =>
    if (winner.map fun h => h.die == die && h.row == row).getD false then
      let s := match winner, mget s.tables q.table with
        | some h, some t =>
          (match (farLines t h.near).find? fun x => !ownerReaches s t (64 * x) false with
           | some x => regionLost s q.table (64 * x)
           | none => s)
        | _, _ => s
      q.fills.foldl (fun s l =>
        if mget s.coh.spec l = some (some q.seat) then
          countAccess (modCoh s fun c => { c with spec := mput c.spec l none }) (pageOfLine l) (devHub s l) true
        else s) s
    else squashFills s q

/-- The Watripo window's registers (Table 10.20). -/
def winAddr (off : Nat) : Nat := 0x03000000 + off

/-- A command of the window ends: BUSY clears and STATUS is filled (R411). -/
def winStatus (s : State) (st : BitVec 8) (hit : Bool) : State :=
  let s := modRegs s fun r => { r with wcmd := none }
  setReg s (winAddr 4)
    (BitVec.ofNat 16 ((if hit then 16384 else 0) + (if 0x80 ≤ st.toNat then 8192 else 0) + st.toNat))

/-- A search of the window ends (R411). -/
def winResult (s : State) (t : Table) (v : Verdict) : State :=
  let s := winStatus s v.st (v.st == stHit)
  match v.hits with
  | h :: _ =>
    let rank := ((t.fronds.find? fun f => f.die == baseDie s h.die).map fun f => f.rank).getD 0
    let s := setRegWide s (winAddr 0x80) 2 (counterIndex t rank h.row)
    setRegWide s (winAddr 0x88) 4 h.near.toNat
  | [] => s

/-- The local winners that became global (R85): the hits returned and a poisoned one; where a winner failed its check, the winners
it stands among. -/
def globalWinners (s : State) (q : Search) (v : Verdict) : List Hit :=
  match v.bad, mget s.tables q.table with
  | some b, some t =>
    if 0xC0 ≤ v.st.toNat then
      merged t.ranked q.hits (q.res.filter fun r => !q.compare || halfOf r.die == halfOf b.die)
    else v.hits ++ [b]
  | some b, none => v.hits ++ [b]
  | none, _ => v.hits

/-- A search that ended early is done with: what it was charged since is its seat's (R80). -/
def dropOver (s : State) (id : Nat) (q : Search) : State :=
  settle { s with searches := mdel s.searches id } q.seat 0 q.charge q.fromG

/-- A search has ended: it is gone, or, ended early, it goes on in the fronds whose reports it did not wait for (R85, R91). -/
def retire (s : State) (id : Nat) (q : Search) (fault : Bool) : State :=
  if q.early && !fault && q.res.any (fun r => !r.done) then
    putSearch s id { q with ended := true, early := false, prov := none, pred := none, fills := [], charge := 0, cost := 0 }
  else { s with searches := mdel s.searches id }

/-- A search ends with a verdict: its completions, and the effects of a final result (R84). The submission's member is over. -/
def finalise (s : State) (id : Nat) (v : Verdict) (early : Bool) : State :=
  match mget s.searches id with
  | none => s
  | some q =>
    if q.ended then dropOver s id q
    else
    let hub := dispHub s q.seat
    let fault := decide (0xC0 ≤ v.st.toNat)
    let winners := globalWinners s q v
    let (s, q) := squashReads s q winners
    let s := settlePred (retire s id q fault) q winners.head?
    let s := match q.prov with
      | some p =>
        if (v.hits.head?.map fun h => h.die == p.die && h.row == p.row).getD false then
          modDisp s hub fun d => { d with confirm := d.confirm + 1 }
        else modDisp s hub fun d => { d with retract := d.retract + 1 }
      | none => s
    let s := settle s q.seat q.cost q.charge q.fromG
    let s := countStats s q
    let s := match mget s.tables q.table with
      | some t =>
        let s := if fault then s else queueCounts s q t v.hits
        let s := match v.hits with
          | h :: _ => farFill s q.seat t h
          | [] => s
        if q.window then winResult s t v else s
      | none => if q.window then winStatus s stBadTable false else s
    if q.window then s
    else
      flush (endMember (pushComps s q.ring q.sub (verdictComps q v early)) q.ring q.sub) q.ring

/-- A fault of a frond or link that keeps a pending frond from reporting after a provisional answer is what R94 names: CASCADE_TIMEOUT.
A frond or link lost that is not a pending frond's own leaves its status of Table 3.12, on which R94 is silent (DESIGN CHOICE,
log 20). -/
def pendingFault (s : State) (q : Search) (st : BitVec 8) : BitVec 8 :=
  if q.prov.isSome && [stFrondLost, stCascadeBroken, stHubUnreachable].contains st && q.res.any (fun r =>
      !r.done && (st == stCascadeBroken || !frondServes s r.die || farHubCut s (dispHub s q.seat) [r.die])) then
    stCascadeTimeout
  else st

/-- A search ends with a device fault. -/
def failSearch (s : State) (id : Nat) (st : BitVec 8) : State :=
  finalise s id ⟨((mget s.searches id).map fun q => pendingFault s q st).getD st, [], none⟩ false

/-- A search that ended early has nothing left to run. -/
def overCheck (s : State) (id : Nat) : State :=
  match mget s.searches id with
  | some q =>
    if q.ended && q.res.all fun r => r.done && (r.hits.isEmpty || r.near.isSome || !q.spec) then dropOver s id q else s
  | none => s

/-! Early answers (R90 to R93) -/

/-- Search-clock period of a level, ps; a -12 part carries P0 out as P1 (R6). -/
def periodPs (s : State) (level : Nat) : Nat :=
  1000000 / frondMhz (if s.chip.fast then level else max level 1)

/-- A frond's remaining wake, ps: 48 ns while a lit pan wakes or would have to. -/
def wakePs (s : State) (r : FRes) : Nat :=
  if r.wake || r.lit.any fun p => match mget (frond s r.die).arr.awake p with
    | some u => u.waking
    | none => true then 48000 else 0

/-- The hub's bound on a follow-up falls within R93: pending fronds' local results, the walk and the hand-off, against the moment the
provisional answer is ready plus 120 ns (-15) or 144 ns (-12). -/
def provInBound (s : State) (q : Search) (r : FRes) : Bool :=
  let lv (d : Nat) := (frond s d).level
  let due := q.res.foldl (fun m p => if p.done then m else max m (54 * periodPs s (lv p.die) + wakePs s p)) 0
  let slow := q.res.foldl (fun m p => max m (lv p.die)) 0
  let hop := 2500 * periodPs s slow / 667
  let walk := (arcOf s (q.res.map fun p => p.die - 2)).2 * hop + 5500
  decide (due + walk ≤ 66 * periodPs s (lv r.die) + (if r.wake then 48000 else 0) + (if s.chip.fast then 120000 else 144000))

/-- A frond has no hit and no fault that could outrank: it lit no pan, or reported a miss. -/
def clearRes (r : FRes) : Bool := r.lit.isEmpty || (r.done && r.hits.isEmpty && r.fault == 0)

/-- What an eligible search may release now: an early final or a CONFIRM, or a provisional answer (R91, R92). R92 lets the hub release
one; the model's does at the first moment it may. A final hit stands although a lower-ranked frond has met a bed fault, since R91 makes
it final (DESIGN CHOICE, log 20). -/
def earlyCheck (s : State) (id : Nat) : State :=
  match mget s.searches id with
  | none => s
  | some q =>
    if !q.early then s
    else match q.res.find? fun r => r.done && !r.hits.isEmpty && r.near == some 0 &&
        (q.res.all fun x => x.rank ≥ r.rank || clearRes x || !x.done) with
    | none => s
    | some r =>
      match r.hits with
      | [] => s
      | h :: _ =>
        if h.poison || r.fault != 0 then s
        else
          let higher := q.res.filter fun x => decide (x.rank < r.rank)
          if higher.all clearRes then finalise s id ⟨stHit, [h], none⟩ q.prov.isNone
          else if q.prov.isNone && provInBound s q r then
            let s := putSearch s id { q with prov := some h }
            flush (pushComp s q.ring q.sub (hitComp q stProvHit 0 0 h h.near)) q.ring
          else s

/-! The rows of a search -/

/-- A frond's pans that must wake before the match cycle: some state with the wakes begun or awaited (R75, R359). -/
def wakeLit (s : State) (id : Nat) (q : Search) (r : FRes) : Option State :=
  let ret := r.lit.filter (retained s r.die)
  if !ret.isEmpty then
    let s := ret.foldl (fun s p => modArr s r.die fun a => { a with awake := mput a.awake p ⟨s.tally.epoch, true⟩ }) s
    let (s, q) := chargeSearch s (modRes q r.die fun r => { r with wake := true }) r.die opWake ret.length
    some (putSearch s id q)
  else if r.lit.any fun p => ((mget (frond s r.die).arr.awake p).map fun u : PanUse => u.waking).getD false then some s
  else none

/-- The sluice compares its tags: a tag whose parity fails is reported (R269, R403), to the steward (Table 5.11 row 7). -/
def tagChecks (s : State) (die : Nat) (lit : List Nat) : State :=
  lit.foldl (fun s p =>
    let bad := (frond s die).arr.tagBad
    if mhas bad (2 * p) || mhas bad (2 * p + 1) then
      let inj := (mget bad (2 * p)).getD false || (mget bad (2 * p + 1)).getD false
      raiseFull (setEvt s (diePage die (0x10 + p / 32)) 0) 0x1005 1 die 0xFF (if inj then flagInjected else 0) 0 [(2, p)]
        .steward
    else s) s

/-- A frond's local search: lit pans used, matches, faults, capture, prediction (R56, R59, R71, R73). -/
def localSearch (s : State) (id : Nat) (q : Search) (r : FRes) (t : Table) (fault : LocalFault) : State :=
  let die := r.die
  let s := tagChecks s die r.lit
  let s := r.lit.foldl (fun s p => usePan s die p) s
  let bedBad := match fault with
    | .bed b => if r.lit.any fun p => p / 32 == b.toNat then some b.toNat else none
    | _ => none
  let deadBed := r.lit.any fun p => (frond s die).arr.bedDead.contains (p / 32)
  let s := bedCount s die r.lit bedBad
  let ms := matches_ s die t.rows r.lit q.key
  let extra := match fault with
    | .pan p x =>
      let f := rowIndex p.toNat x.toNat / t.rows * t.rows
      if r.lit.contains p.toNat && !ms.contains f then [f] else []
    | _ => []
  let all := ((ms ++ extra).map fun f => capture s die f t.rows).foldl (fun l h => hitInsert t.ranked h l) []
  let badPrio := if t.ranked then ms.filter fun f =>
      !(rowAt s die f).ppar || (match fault with | .prio x => x.toNat / t.rows * t.rows == f | _ => false) else []
  let s := fixPrio s die badPrio
  let st : BitVec 8 := if bedBad.isSome || deadBed then stBedFault else if !badPrio.isEmpty then stRowCheck else 0
  let hits := if st = 0 then all.take q.hits else []
  let q := modRes q die fun r => { r with done := true, hits := hits, prios := all.map fun h => h.prio, fault := st }
  let (s, q) := match hits with
    | h :: _ => if q.ended then (s, q) else predict s q t h
    | [] => (s, q)
  let s := putSearch s id q
  if q.ended then overCheck s id
  else if q.res.length = 1 && hits.isEmpty then finalise s id ⟨if st = 0 then stMiss else st, [], none⟩ false
  else earlyCheck s id

/-- A frond reports its local result; it waits for lit pans that wake. A search that has started completes before a sleep or a relock
(R353, R361). -/
def localResult (s : State) (id die : Nat) (fault : LocalFault) : State :=
  match mget s.searches id with
  | some q =>
    match q.res.find? fun r => r.die == die, mget s.tables q.table with
    | some r, some t =>
      if r.done || !working s r.die then s
      else match wakeLit s id q r with
        | some s' => s'
        | none => localSearch s id q r t fault
    | _, _ => s
  | none => s

/-- LOCAL_RESULT (R73). The row is sent again while lit pans wake. -/
def execLocalResult (id : BitVec 32) (die : BitVec 3) (fault : LocalFault) (s : State) : Res :=
  .next (localResult s id.toNat die.toNat fault)

/-- A local winner's near data is read and the winner checked; a search of one frond ends with it. -/
def nearDataRead (s : State) (i die : Nat) : State :=
  match mget s.searches i with
  | some q =>
    match q.res.find? fun r => r.die == die, mget s.tables q.table with
    | some r, some t =>
      match r.hits with
      | h :: _ =>
        if !r.done || halted s (halfOf r.die) || r.near.isSome || (!q.spec && q.res.length != 1) then s
        else
          let (s, q) := chargeSearch s q r.die opNear 1
          let st := winnerCheck q.key h t.rows
          let q := modRes q r.die fun r => { r with near := some st }
          let s := putSearch s i q
          if q.ended then overCheck (squashRead s q.seat h st) i
          else if q.res.length = 1 then
            let (s, v) := judge s i q t q.res
            finalise s i v false
          else earlyCheck s i
      | [] => s
    | _, _ => s
  | none => s

/-- NEAR_DATA_READ (R74, R85): a local winner's near data is read and the winner checked. A table on one frond ends here. -/
def execNearDataRead (id : BitVec 32) (die : BitVec 3) (s : State) : Res := .next (nearDataRead s id.toNat die.toNat)

/-- Two fronds of a set share a rank: the dies. -/
def rankDup (res : List FRes) : Option (Nat × Nat) :=
  res.findSome? fun a => (res.find? fun b => decide (a.die < b.die) && a.rank == b.rank).map fun b => (a.die, b.die)

/-- CASCADE_RANK_DUP (R68, R404). -/
def rankDupEvent (s : State) (q : Search) (res : List FRes) : State :=
  match rankDup res with
  | some (a, b) =>
    let s := setReg s (diePage a 0x27 + 0x40) (BitVec.ofNat 16 (sat ((reg s (diePage a 0x27 + 0x40)).toNat + 1) 16))
    event s 0x1001 1 a 0xFF [(2, q.table), (1, a), (1, b)] (ownerRecip s q.table)
  | none => s

/-- What one half reports in PAIR_MISMATCH: POS, status, near data. -/
def halfItems (q : Search) (v : Verdict) : List (Nat × Nat) :=
  let c := ((verdictComps { q with prov := none } v false).head?.map fun c : Comp => (c.pos.toNat, c.data.toNat)).getD (0, 0)
  [(4, c.1), (1, v.st.toNat), (8, c.2)]

/-- The parts of two verdicts that must agree: status, die-relative positions, near data (R39). -/
def verdictKey (s : State) (v : Verdict) : BitVec 8 × List (Nat × Nat × Word64) × Option (Nat × Nat) :=
  (v.st, v.hits.map fun h => (baseDie s h.die, h.row, h.near), v.bad.map fun h => (baseDie s h.die, h.row))

/-- The poisoned winner of a verdict, if its winner is poisoned. -/
def poisonOf (v : Verdict) : Option Hit := if v.st = stPoisoned then v.bad else none

/-- Judge the two halves' verdicts (R39): POISONED first, then a difference, then the receiving half's own. -/
def compareHalves (s : State) (q : Search) (t : Table) (a b : Verdict) : State × Verdict :=
  let same := verdictKey s a == verdictKey s b
  let s := if same then s
    else event s 0x1004 2 0xFF 0xFF ([(2, q.ring), (2, q.tag.toNat)] ++ halfItems q a ++ halfItems q b) .steward
  let own := match seatPlace s q.seat with
    | some p => placeHub p
    | none => primary s
  let mine := if own = 1 then b else a
  if same then (s, mine)
  else match a.hits, poisonOf a, b.hits, poisonOf b with
    | [], some x, [], some y =>
      let rank (h : Hit) := ((t.fronds.find? fun f => f.die == baseDie s h.die).map fun f => f.rank).getD 0
      (s, if globalBefore t.ranked (rank x, { x with die := baseDie s x.die }) (rank y, { y with die := baseDie s y.die })
          then a else b)
    | [], some _, _, _ => (s, a)
    | _, _, [], some _ => (s, b)
    | _, _, _, _ => (s, ⟨stPairMismatch, [], none⟩)

/-- The walk names the winners once every frond has reported, and pair-compare judges the halves. -/
def cascadeResolution (s : State) (i : Nat) : State :=
  match mget s.searches i with
  | some q =>
    match mget s.tables q.table with
    | some t =>
      if q.ended || q.res.length < 2 || !(q.res.all fun r => r.done && !halted s (halfOf r.die)) then s
      else if q.compare then
        let ra := q.res.filter fun r => halfOf r.die == 0
        let rb := q.res.filter fun r => halfOf r.die == 1
        let (s, a) := judge (rankDupEvent s q ra) i q t ra
        let (s, b) := judge s i ((mget s.searches i).getD q) t rb
        let (s, v) := compareHalves s q t a b
        finalise s i v false
      else
        let (s, v) := judge (rankDupEvent s q q.res) i q t q.res
        finalise s i v false
    | none => s
  | none => s

/-- CASCADE_RESOLUTION (R77): every frond has reported; the walk names the winners, and pair-compare judges the halves. -/
def execCascadeResolution (id : BitVec 32) (s : State) : Res := .next (cascadeResolution s id.toNat)

/-- CASCADE_TIMEOUT (R94): a pending frond has not reported in time. R94's bound runs from a provisional answer; a search that has given
none ends in the same way when this row comes (DESIGN CHOICE, log 20). -/
def execCascadeTimeout (id : BitVec 32) (s : State) : Res :=
  .next (match mget s.searches id.toNat with
    | some q => if q.res.all fun r => r.done || halted s (halfOf r.die) then s else failSearch s id.toNat stCascadeTimeout
    | none => s)

/-- A pan's wake is done. -/
def panWoken (s : State) (die pan : Nat) : State :=
  match mget (frond s die).arr.awake pan with
  | some u =>
    if u.waking && !halted s (halfOf die) then modArr s die fun a => { a with awake := mput a.awake pan { u with waking := false } }
    else s
  | none => s

/-- CROZIER_WAKE (R359): the pan's wake is done. -/
def execCrozierWake (die : BitVec 3) (pan : BitVec 9) (s : State) : Res := .next (panWoken s die.toNat pan.toNat)

/-- A frond's part of a search runs to its end: its lit pans wake, it reports, its near data is read. -/
def runFrond (s : State) (id : Nat) (r : FRes) : State :=
  let s := localResult s id r.die .none
  let s := r.lit.foldl (fun s p => panWoken s r.die p) s
  nearDataRead (localResult s id r.die .none) id r.die

/-- A started search runs to its end, its follow-up included; one whose frond cannot report ends with CASCADE_TIMEOUT (R94, R452). -/
def runOut (s : State) (id : Nat) : State :=
  match mget s.searches id with
  | some q =>
    let s := cascadeResolution (q.res.foldl (fun s r => runFrond s id r) s) id
    failSearch s id stCascadeTimeout
  | none => s

/-- TAG_RESTORE (R269): the tag is restored from the hub's copy, the active half of the registers. -/
def execTagRestore (die : BitVec 3) (pan : BitVec 9) (s : State) : Res :=
  let p := pan.toNat
  .next (modArr s die.toNat fun a =>
    if !halted s (halfOf die.toNat) && (mhas a.tagBad (2 * p) || mhas a.tagBad (2 * p + 1)) then
      { a with tagBad := mdel (mdel a.tagBad (2 * p)) (2 * p + 1)
               tagFlip := mdel (mdel a.tagFlip (2 * p)) (2 * p + 1) }
    else a)

/-- ROW_REPAIR_RECORD (R272): the row records of an entry under repair have arrived. -/
def execRowRepairRecord (die : BitVec 3) (row : BitVec 22) (s : State) : Res :=
  let d := die.toNat
  .next (match mget (frond s d).arr.repairing row.toNat with
    | some bits => if halted s (halfOf d) then s else finishRepair s d row.toNat bits.length
    | none => s)

/-! Hit counters (R176 to R179) -/

/-- The other homes of a line, which follow a write of this one (R38). -/
def otherHomes (s : State) (line hub : Nat) : List Nat := (homes s line).filter (· != hub)

/-- A host holds the line at one of the other homes: it is asked for the line there first. -/
def needOthers (s : State) (line hub : Nat) : Option State :=
  (otherHomes s line hub).foldl (fun r h => match needAt (r.getD s) line h false with | some s' => some s' | none => r) none

/-- An engine asks the home for a line in M, once: an Upg where it shares the line (R177, R255). -/
def askOwn (s : State) (line hub a : Nat) : State :=
  if asked s line hub a || !hubServes s hub then s
  else if (copyOf s line hub a).isSome then arrive s line hub (.agent a true true .good)
  else if agentMayHold s a line && agentRoom s a line then arrive s line hub (.agent a true false .good)
  else s

/-- An engine's frond comes to hold a line in M: E becomes M unasked (R242), otherwise the home grants it. The flag says that it holds
the line now. -/
def ownLine (s : State) (line hub a : Nat) : State × Bool :=
  match copyOf s line hub a with
  | some .m => (s, true)
  | some .e => (setCopy s line hub a (some .m), true)
  | _ =>
    let s := askOwn s line hub a
    (s, copyOf s line hub a == some .m)

/-- The increment of a counter in its frond's far-data cache (R177); the other half's home takes the result as a mirrored write (R38,
R261). -/
def countUp (s : State) (line hub die word : Nat) : State :=
  let v := devRead s word 8
  let s := (otherHomes s line hub).foldl (fun s h => bufPut (invAll s line h false) line h true) s
  let s := dirtied s (copyKey line hub die)
  capCheck (storeLine s line ((v + 1) % 2 ^ 64 * 256 ^ (word % 64)) (255 * 2 ^ (word % 64)))

/-- The counts that a frond's engine has yet to make pass to its counterpart: the primary half alone counts (R38). -/
def handCounts (s : State) (die : Nat) : State :=
  let l := (frond s die).hce
  let heir := serveDie s (baseDie s die)
  if heir = die then s
  else modFrond (modFrond s die fun f => { f with hce := [] }) heir fun f => { f with hce := f.hce ++ l }

/-- HIT_COUNTER_INCREMENT (R176): the oldest increment of a frond's engine. Where the line must be fetched first, or waits for a host, for
media or for a home that both cross links down cut off, the row is sent again. A counter that reads as poison is not incremented
(R179, R230). -/
def execHitCounterIncrement (die : BitVec 3) (s : State) : Res :=
  let d := die.toNat
  .next (match (frond s d).hce with
    | [] => s
    | (n, idx) :: rest =>
      let pop (s : State) : State := modFrond s d fun f => { f with hce := rest }
      if serveDie s (baseDie s d) != d then handCounts s d
      else if !working s d then wakeDie s d
      else match mget s.tables n with
        | none => pop s
        | some t =>
          let word := t.cbase + 8 * idx
          let line := word / 64
          let hub := agentHome s d line
          let spoilt (s : State) : State := pop (raiseFull s 0x1003 1 d 0xFF (poisonFlag s line hub) 0 [(2, n), (4, idx)] (.owner t.owner))
          if !ownerReaches s t word true then pop (regionLost s n word)
          else if keyAbsent s word then spoilt (raiseKeyAbsent s word)
          else match needOthers s line hub with
            | some s' => s'
            | none =>
              let (s, mine) := ownLine s line hub d
              if !mine then s
              else
                let s := checkCopy s line hub d true
                if devPoison s line then spoilt s
                else if writeShort s line false then s
                else frondOp (pop (countUp s line hub d word)) d opCount 1 none)

/-! Memory atomics (R107, R108, R127) -/

/-- The extent and right checks of an atomic's word: its DPA, or the refusal (R108). -/
def atomicTarget (s : State) (seat addr : Nat) : Nat × Option (BitVec 8) :=
  if addr % 8 != 0 then (0, some stBadAlign)
  else match (seatPlace s seat).bind fun p => hpaToDpa s p addr with
    | none => (0, some stBadAddress)
    | some a =>
      if !reaches s seat a false true || overlapsRing s (lineOf a * 64) 64 then (a, some stBadAddress)
      else if !reaches s seat a true true then (a, some stNoRight)
      else (a, none)

/-- New value of an atomic: none where a CMP_SWAP does not write. -/
def atomicNew (op old opnd cmpv : Nat) : Option Nat :=
  if op = 0x21 then some ((old + opnd) % 2 ^ 64)
  else if op = 0x22 then some opnd
  else if old = cmpv then some opnd else none

/-- The home's own request for a line is in progress or waits. -/
def homeAsked (s : State) (line hub : Nat) : Bool :=
  ((mget s.coh.txns (hkey line hub)).map fun t : Txn => t.req == .home && !t.ready || t.queue.contains .home).getD false

/-- The home takes a line into its line buffer for an atomic (R252), asking once; the flag says that it owns the line now. -/
def homeTakes (s : State) (line hub : Nat) : State × Bool :=
  let s := if homeOwns s line hub || homeAsked s line hub then s else arrive s line hub .home
  (s, homeOwns s line hub)

/-- The operation of an atomic on a word its home owns, whose copy is checked first (R271), and its completion; a write that finds no media waits (R224). -/
def atomicNow (s : State) (n : Nat) (u : Sub) (seat a hub : Nat) : State :=
  let s := checkLine s (lineOf a) hub
  let c := opCost s opAtomic 0 + opCost s opDispatch 0
  let s1 := startSub s n u.id 1
  if devPoison s (lineOf a) then finish s1 n u stPoisoned 0
  else
    let old := devRead s a 8
    let new := atomicNew u.op old (field u.bytes 16 8) (field u.bytes 24 8)
    if new.isSome && writeShort s (lineOf a) false then s
    else match admitKnown s1 seat c with
      | none => finish (countRefused s1) n u stOverBudget 0
      | some s2 =>
        let s2 := countAccess (bookOp s2 (2 + hub) c) (pageOfLine (lineOf a)) hub false
        match new with
        | some v => finish (devWrite s2 seat a v 8) n u stAtomicDone (BitVec.ofNat 64 old)
        | none => finish s2 n u stCmpFail (BitVec.ofNat 64 old)

/-- Run one memory atomic (R108): checks, then exclusive ownership of the word's line in its home's line buffer, the home being the
primary half's (R38, R252), admission, the operation, and the completion. A word whose home both cross links down cut off ends with
INTERNAL, which stands for every fault that Table 3.12 does not name; LINK_DOWN has named it. -/
def atomic (s : State) (n : Nat) (u : Sub) (seat : Nat) : State :=
  let s0 := startSub s n u.id 1
  if detaching s seat && !u.asked then finish s0 n u stSeatDetaching 0
  else
    let addr := field u.bytes 8 8
    match atomicTarget s seat addr with
    | (_, some st) => finish s0 n u st 0
    | (a, none) =>
      let line := lineOf a
      let hub := devHub s line
      if keyAbsent s a then finish (raiseKeyAbsent s0 a) n u stPoisoned 0
      else if homeCut s (compHub s n) line then finish s0 n u stInternal 0
      else if !hubServes s hub then s
      else match needOthers s line hub with
        | some s' => askedSub s' n u.id
        | none =>
          let (s1, mine) := homeTakes s line hub
          if mine then atomicNow s1 n u seat a hub else askedSub s1 n u.id

/-- Run the next submission of a ring as an atomic of this opcode. -/
def runAtomic (s : State) (n op : Nat) : State :=
  match nextSub s n op with
  | some (u, seat) => if dispatches s n then atomic s n u seat else s
  | none => s

/-- FETCH_ADD (R108). -/
def execFetchAdd (ring : BitVec 10) (s : State) : Res := .next (runAtomic s ring.toNat 0x21)

/-- SWAP (R108). -/
def execSwap (ring : BitVec 10) (s : State) : Res := .next (runAtomic s ring.toNat 0x22)

/-- CMP_SWAP (R108). -/
def execCmpSwap (ring : BitVec 10) (s : State) : Res := .next (runAtomic s ring.toNat 0x23)

end Sys2Proof.Machine
end

