-- ==== Sys2Proof/Machine/Tables.lean ====
section
/-!
DEFINITION. Table commands: their checks in the order of Table 4.11, creating, changing and destroying tables, entry commands and
sluice tags (R141 to R167, R184 to R186).
-/
namespace Sys2Proof.Machine

/-! The frame of a command -/

/-- Run the next submission of a ring, where it has this opcode and its dispatcher runs. -/
def runCmd (s : State) (n op : Nat) (f : State → Sub → Nat → State) : State :=
  match nextSub s n op with
  | some (u, seat) => if dispatches s n then f s u seat else s
  | none => s

/-- A command is refused before admission: nothing is charged. -/
def refuse (s : State) (n : Nat) (u : Sub) (st : BitVec 8) : State := finish (startSub s n u.id 1) n u st 0

/-- Steps 2 to 6 for a command other than TABLE_CREATE: form, detach, right, table in service. -/
def cmdCheck (s : State) (u : Sub) (seat : Nat) (update form : Bool) : Option (BitVec 8) :=
  if !form then some stBadForm
  else if detaching s seat then some stSeatDetaching
  else if !holdsRight s seat (subTable u) update then some stNoRight
  else if (tableIn s (subTable u)).isNone then some stBadTable
  else none

/-- The first status of a list of checks that applies. -/
def firstOf : List (Bool × BitVec 8) → Option (BitVec 8)
  | [] => none
  | (b, st) :: t => if b then some st else firstOf t

/-- Admit a command of predicted cost c, start it and run it: its work answers the actual charge beyond dispatch, a status and
DATA; the difference is settled (R347). A refusal or fault after dispatch keeps the dispatch charge (R134). -/
def pay (s : State) (n : Nat) (u : Sub) (seat c : Nat) (work : State → State × Nat × BitVec 8 × Word64) : State :=
  let d := opCost s opDispatch 0
  match admitWork s seat (d + c) with
  | none => finish (countRefused (startSub s n u.id 1)) n u stOverBudget 0
  | some (s, g) =>
    let (s, actual, st, data) := work (bookOp (startSub s n u.id 1) (2 + ringHub s n) d)
    finish (settle s seat (d + c) (d + actual) g) n u st data

/-- Book the charge of array operations to the fronds' rails. -/
def bookArray (s : State) (dies : List Nat) (writes valids : Nat) : State :=
  dies.foldl (fun s d => bookOp s (coreRail d) (arrayCost s [d] writes valids)) s

/-- Run a command's array work on the dies named: the dies in service, awake, and charged as performed. The work answers its state,
and either the row writes and validates it made with DATA, or the status and DATA of a refusal. -/
def payArray (s : State) (n : Nat) (u : Sub) (seat : Nat) (dies : List Nat) (writes valids : Nat)
    (work : State → State × Except (BitVec 8 × Word64) (Nat × Nat × Word64)) : State :=
  if dies.isEmpty || dies.any (fun d => !frondServes s d) then
    pay s n u seat (arrayCost s dies writes valids) fun s => (s, 0, stFrondLost, 0)
  else match needFronds s dies with
    | some s' => s'
    | none =>
      pay s n u seat (arrayCost s dies writes valids) fun s =>
        match work s with
        | (s', .ok (w, v, data)) => (bookArray s' dies w v, arrayCost s dies w v, stCmdDone, data)
        | (s', .error (st, data)) => (s', 0, st, data)

/-! Buffers (R183, R202, Table 7.3) -/

/-- Bytes 16 to 23 of a command: the device physical address of BUF. -/
def subBuf (u : Sub) : Nat := field u.bytes 16 8

/-- A buffer of n bytes is valid for a seat. -/
def bufOk (s : State) (seat a n : Nat) (write : Bool) : Bool :=
  a % 64 == 0 && regionOk s seat a n write && !overlapsRing s a n

/-- The partly covered last line of a buffer about to be written is read (R283). -/
def meetPart (s : State) (who a n : Nat) : State := if n % 64 = 0 then s else meetRegion s who ((a + n) / 64 * 64) 64

/-- A partly covered line of a buffer is poisoned (Table 7.3). -/
def partPoison (s : State) (a n : Nat) : Bool := n % 64 != 0 && devPoison s ((a + n) / 64)

/-- The buffer of a ring's command has a line whose home is cut off from the ring's hub (Table 1.7): the command ends with INTERNAL,
which stands for every fault that Table 3.12 does not name; LINK_DOWN has named it. -/
def bufCut (s : State) (n a len : Nat) : Bool := regionCut s (ringHub s n) a len

/-- Some line of a region would need media that the hub has not: the command waits (R224). -/
def regionShort (s : State) (a len : Nat) : Bool :=
  (List.range ((a + len + 63) / 64 - a / 64)).any fun k => writeShort s (a / 64 + k) false

/-! Positions, moves and loads -/

/-- The POS word at byte o. -/
def subPos (u : Sub) (o : Nat) : Nat := field u.bytes o 4

/-- The position number of a row: a range's pans are contiguous, so the positions of R168 run through its rows in order; they are
counted here from pan 0, so that a change of range moves none. -/
def posIndex (t : Table) (row : Nat) : Nat := row / t.rows

/-- The first row of a position. -/
def posRowOf (t : Table) (q : Nat) : Nat := q * t.rows

/-- First and last position of a frond's range. -/
def posRange (t : Table) (f : FrondSlot) : Nat × Nat :=
  (8192 * f.first / t.rows, 8192 * (f.first + f.pans) / t.rows - 1)

/-- The slot a POS word names, where its position is valid (R158) and not in a dead pan (R297). -/
def posSlot (s : State) (t : Table) (p : Nat) (dead : Bool) : Option FrondSlot :=
  match slotOfDie t (posDie p) with
  | some f =>
    let pan := posRow p / 8192
    if f.first ≤ pan && pan < f.first + f.pans && posRow p % t.rows == 0 &&
        (dead || !((copies s (posDie p)).any fun d => panDead s d pan)) then some f else none
  | none => none

/-- First and last position a move touches: its block and its target slot. -/
def moveSpan (m : Move) : Nat × Nat := if m.down then (m.start - 1, m.start + m.count - 1) else (m.start, m.start + m.count)

/-- Positions lo to hi of a table in a frond meet a running move (R172). In pair mode a move that one half has ended and the other
still keeps waiting meets nothing: R172 does not speak of it, and only a running move counts (DESIGN CHOICE, log 28). -/
def moveMeets (s : State) (die table lo hi : Nat) : Bool :=
  (copies s die).any fun d =>
    match (frond s d).move with
    | some m => m.table == table && decide ((moveSpan m).1 ≤ hi) && decide (lo ≤ (moveSpan m).2)
    | none => false

/-- Positions lo to hi meet a running job of a kind (R180, R181). -/
def jobMeets (s : State) (k : JobKind) (die table lo hi : Nat) : Bool :=
  s.jobs.any fun e =>
    e.2.kind == k && e.2.table == table && e.2.die == die && decide (e.2.start ≤ hi) &&
      decide (lo ≤ e.2.start + e.2.count - 1)

/-- A logical pan is touched by a running move of its table. -/
def movePan (s : State) (die pan : Nat) : Bool :=
  (copies s die).any fun d =>
    match (frond s d).move with
    | some m =>
      match mget s.tables m.table with
      | some t => decide (posRowOf t (moveSpan m).1 / 8192 ≤ pan) && decide (pan ≤ posRowOf t (moveSpan m).2 / 8192)
      | none => false
    | none => false

/-! Management commands (R142, R145) -/

/-- The first 8 bytes of HMAC-SHA-256 under a session's key (R315). -/
def truncMac (km : BitVec 256) (m : List Nat) : Nat := ofBytes ((hmac (key32 km) m).take 8)

/-- The steward's session authorises a management command: the ring is the steward's, the handle its session's, the MAC right
(R142, R315). -/
def sessionOk (s : State) (seat : Nat) (u : Sub) : Bool :=
  s.steward.holder == some seat &&
    match (mget s.seats seat).bind fun x => x.session with
    | some ss =>
      let b := bytesOf 96 u.bytes.toNat
      ss.handle.toNat == field u.bytes 8 4 && truncMac ss.km (b.take 12 ++ b.drop 20) == field u.bytes 12 8
    | none => false

/-- An accepted request or command restarts the session's idle time (R316). -/
def touchSession (s : State) (seat : Nat) : State :=
  modSeat s seat fun x => { x with session := x.session.map fun ss => { ss with last := s.clock.tb } }

/-- Frond slot i of TABLE_CREATE (Table 4.2). -/
def createSlot (u : Sub) (i : Nat) : FrondSlot :=
  let o := 26 + 6 * i
  { die := field u.bytes o 1, rank := field u.bytes (o + 1) 1, first := field u.bytes (o + 2) 2,
    pans := field u.bytes (o + 4) 2 }

/-- The table a TABLE_CREATE describes. -/
def createTable (u : Sub) : Table :=
  let mode := field u.bytes 7 1
  { rows := field u.bytes 6 1, ranked := mode % 2 == 1, cnt := mode / 2 % 2 == 1, far := mode / 4 % 2 == 1,
    owner := some (field u.bytes 20 2), ofs := field u.bytes 22 2,
    fronds := (List.range (min (field u.bytes 24 1) 6)).map (createSlot u),
    cbase := field u.bytes 64 8 % 2 ^ 43, fbase := field u.bytes 72 8 % 2 ^ 43, flimit := field u.bytes 80 4,
    flines := field u.bytes 84 1, closing := none, rights := [], lost := false, hist := [], stats := [] }

/-- The counter region of a table: address and size (R147). -/
def counterRegion (t : Table) : Nat × Nat := (t.cbase, t.fronds.length * (4194304 / t.rows) * 8)

/-- The far-data region of a table (R148). -/
def farRegion (t : Table) : Nat × Nat := (t.fbase, t.flimit * t.flines * 64)

/-- The enabled regions of a table are valid for an owner (R145, R202). -/
def regionsOk (s : State) (t : Table) (owner : Nat) (cnt far : Bool) : Bool :=
  (!cnt || bufOk s owner (counterRegion t).1 (counterRegion t).2 true) &&
    (!far || bufOk s owner (farRegion t).1 (farRegion t).2 false)

/-- A pan is free: of no table, and alive, in each half (R145, R297). -/
def panFree (s : State) (die pan : Nat) : Bool :=
  (copies s die).all fun d => (panOwner s d pan).isNone && !panDead s d pan

/-- Steps 7 to 12 of TABLE_CREATE. -/
def createCheck (s : State) (u : Sub) (t : Table) : Option (BitVec 8) :=
  let nf := field u.bytes 24 1
  let dies := t.fronds.map fun f => f.die
  let owner := field u.bytes 20 2
  firstOf [
    (t.rows = 0 || nf = 0 || t.fronds.any (fun f => f.pans == 0) || t.far && (t.flimit = 0 || t.flines = 0), stZeroLength),
    (decide ((if inPair s then 3 else 6) < nf) || t.far && decide (4 < t.flines), stBadCount),
    (!([1, 2, 4, 8].contains t.rows) || !mhas s.seats owner || dies.eraseDups.length != dies.length ||
      dies.any (fun d => !(decide (2 ≤ d) && present s d) || (frond s d).svcOut || inPair s && decide (4 < d)) ||
      t.fronds.any (fun f => decide (512 < f.first + f.pans)) || decide (80 * t.rows < t.ofs + 16), stBadDescriptor),
    (!((List.range nf).all fun r => t.fronds.any fun f => f.rank == r), stRankDup),
    (!regionsOk s t owner t.cnt t.far, stBadBuffer)]

/-- TABLE_CREATE (R144 to R146). -/
def tableCreate (s : State) (n : Nat) (u : Sub) (seat : Nat) : State :=
  let tb := subTable u
  let t := createTable u
  let pre :=
    if detaching s seat then some stSeatDetaching
    else if !sessionOk s seat u then some stSessionBad
    else if 1024 ≤ tb then some stBadDescriptor
    else if mhas s.tables tb then some stTableExists
    else createCheck s u t
  match pre with
  | some st => refuse s n u st
  | none =>
    let dies := (t.fronds.flatMap fun f => copies s f.die)
    payArray s n u seat dies 0 0 fun s =>
      if t.fronds.any fun f => (List.range f.pans).any fun k => !panFree s f.die (f.first + k) then (s, .error (stPanBusy, 0))
      else ({ touchSession s seat with tables := mput s.tables tb t }, .ok (0, 0, 0))

/-- TABLE_CREATE (R144). -/
def execTableCreate (ring : BitVec 10) (s : State) : Res :=
  .next (runCmd s ring.toNat 0x40 fun s u seat => tableCreate s ring.toNat u seat)

/-- Steps 3 to 6 of the other management commands. -/
def manageCheck (s : State) (u : Sub) (seat : Nat) : Option (BitVec 8) :=
  if detaching s seat then some stSeatDetaching
  else if !sessionOk s seat u then some stSessionBad
  else if (tableIn s (subTable u)).isNone then some stBadTable
  else none

/-- Put a table back. -/
def putTable (s : State) (n : Nat) (t : Table) : State := { s with tables := mput s.tables n t }

/-- TABLE_RANGE (R150). -/
def tableRange (s : State) (n : Nat) (u : Sub) (seat : Nat) : State :=
  let tb := subTable u
  let die := field u.bytes 20 1
  let first := field u.bytes 22 2
  let pans := field u.bytes 24 2
  match manageCheck s u seat, mget s.tables tb with
  | some st, _ => refuse s n u st
  | none, none => refuse s n u stBadTable
  | none, some t =>
    if pans = 0 then refuse s n u stZeroLength
    else match slotOfDie t die with
      | none => refuse s n u stBadDescriptor
      | some f =>
        if 512 < first + pans then refuse s n u stBadDescriptor
        else
          let old := (List.range f.pans).map (f.first + ·)
          let new := (List.range pans).map (first + ·)
          let enter := new.filter fun p => !old.contains p
          let leave := old.filter fun p => !new.contains p
          let dies := copies s die
          let span (p : Nat) : Nat × Nat := (posIndex t (8192 * p), posIndex t (8192 * p) + 8192 / t.rows - 1)
          if leave.any fun p => jobMeets s .snapshot die tb (span p).1 (span p).2 then s
          else payArray s n u seat dies 0 0 fun s =>
            if enter.any fun p => !panFree s die p then (s, .error (stPanBusy, 0))
            else if leave.any fun p => dies.any fun d => !(validEntries s d p t.rows).isEmpty then (s, .error (stRangeNotEmpty, 0))
            else if leave.any fun p => movePan s die p then (s, .error (stRakeBusy, 0))
            else if leave.any fun p => jobMeets s .load die tb (span p).1 (span p).2 then (s, .error (stTableBusy, 0))
            else
              let s := dies.foldl (fun s d => leave.foldl (fun s p => if panDead s d p then s else freePan s d p) s) s
              let t' := { t with fronds := t.fronds.map fun x => if x.die = die then { x with first := first, pans := pans } else x }
              (roomResolve (touchSession (putTable s tb t') seat) 3, .ok (0, 0, 0))

/-- TABLE_RANGE (R150). -/
def execTableRange (ring : BitVec 10) (s : State) : Res :=
  .next (runCmd s ring.toNat 0x42 fun s u seat => tableRange s ring.toNat u seat)

/-! Stopping work on a table (R151) -/

/-- A submission that has not completed. -/
def openSub (s : State) (ring id : Nat) : Option Sub :=
  (mget s.rings ring).bind fun x => x.subs.find? fun u => u.id == id && u.members != 0

/-- A move is over: its submission completes once no other half's rake still holds it (R175). A move whose ring is gone ends
quietly. -/
def moveOver (s : State) (m : Move) (st : BitVec 8) (data : Nat) : State :=
  let still := s.fronds.any fun f => (f.move.toList ++ f.moves).any fun x => x.sub == m.sub
  if still then s
  else match m.ring with
    | some r =>
      match openSub s r m.sub with
      | some u => finish s r u st (BitVec.ofNat 64 data)
      | none => s
    | none => s

/-- Stop every move of a table on the given dies: queued ones and the running one, each completed with a status and its DATA. In pair
mode each half's rake stops where it stands, so the halves may be left at different entries, and DATA is what the first die named
has moved (DESIGN CHOICE, log 28). -/
def stopMoves (s : State) (dies : List Nat) (table : Nat) (st : BitVec 8) (mark : Nat) : State :=
  let here := dies.flatMap fun d => ((frond s d).move.toList ++ (frond s d).moves).filter fun m => m.table == table
  let s := dies.foldl (fun s d => modFrond s d fun f =>
    { f with move := if (f.move.map fun m => m.table) = some table then none else f.move
             moves := f.moves.filter fun m => m.table != table
             paused := if (f.move.map fun m => m.table) = some table then false else f.paused }) s
  here.foldl (fun s m => moveOver s m st (m.moved + mark)) s

/-- A job ends with a status and DATA; its charge is settled against what it did. -/
def jobOver (s : State) (id : Nat) (j : Job) (st : BitVec 8) (data actual : Nat) : State :=
  let s := settle { s with jobs := mdel s.jobs id } j.seat j.cost actual j.fromG
  match openSub s j.ring j.sub with
  | some u => finish s j.ring u st (BitVec.ofNat 64 data)
  | none => s

/-- What a job has cost so far: dispatch, and the row writes, invalidates and validates of its entries (R166). -/
def jobCost (s : State) (j : Job) : Nat :=
  opCost s opDispatch 0 +
    match j.kind, mget s.tables j.table with
    | .load, some t => arrayCost s (copies s j.die) (j.done * t.rows) (j.done + j.valids)
    | _, _ => 0

/-- DATA of a job as it stands (Table 4.1, R151). -/
def jobData (j : Job) : Nat := match j.kind with
  | .load => j.done
  | _ => j.moment

/-- TABLE_DESTROY (R151): out of service at once; moves, loads, snapshots and statistics of the table stop with BAD_TABLE. -/
def tableDestroy (s : State) (n : Nat) (u : Sub) (seat : Nat) : State :=
  let tb := subTable u
  match manageCheck s u seat, mget s.tables tb with
  | some st, _ => refuse s n u st
  | none, none => refuse s n u stBadTable
  | none, some t =>
    let d := opCost s opDispatch 0
    match admitKnown s seat d with
    | none => finish (countRefused (startSub s n u.id 1)) n u stOverBudget 0
    | some s =>
      let s := touchSession (bookOp (startSub s n u.id 1) (2 + ringHub s n) d) seat
      let s := putTable s tb { t with closing := some (n, u.id) }
      let s := stopMoves s ((List.range 6).map (· + 2)) tb stBadTable 0
      (s.jobs.filter fun e => e.2.table == tb).foldl (fun s e =>
        jobOver s e.1 e.2 stBadTable (jobData e.2) (jobCost s e.2)) s

/-- TABLE_DESTROY (R151). -/
def execTableDestroy (ring : BitVec 10) (s : State) : Res :=
  .next (runCmd s ring.toNat 0x41 fun s u seat => tableDestroy s ring.toNat u seat)

/-- TABLE_DESTROY_DONE (R151): once the searches already started have completed and their counts are made, every pan returns to the
free state, rights and shadow go, and the command completes. A dead pan stays as it is (R297), but for its shadow. One that has
started when its seat begins to detach ends in the same way, which R136 and R306 leave open (DESIGN CHOICE, log 27). -/
def execTableDestroyDone (table : BitVec 10) (s : State) : Res :=
  let tb := table.toNat
  .next (match mget s.tables tb with
    | some t =>
      match t.closing with
      | some (r, id) =>
        if s.searches.any (fun e => e.2.table == tb && !e.2.ended) || s.fronds.any (fun f => f.hce.any fun c => c.1 == tb) then s
        else
          let s := t.fronds.foldl (fun s f => (copies s f.die).foldl (fun s d =>
            (List.range f.pans).foldl (fun s k =>
              if panDead s d (f.first + k) then clearShadow s d (f.first + k) else freePan s d (f.first + k)) s) s) s
          let s := { s with tables := mdel s.tables tb, searches := s.searches.filter fun e => e.2.table != tb }
          match openSub s r id with
          | some u => finish s r u stCmdDone 0
          | none => s
      | none => s
    | none => s)

/-! Entry commands (R158 to R166) -/

/-- State checks that every entry command meets first (R172, R180). -/
def entryBusy (s : State) (die table q : Nat) : Option (BitVec 8) :=
  if moveMeets s die table q q then some stRakeBusy
  else if jobMeets s .load die table q q then some stTableBusy
  else none

/-- The tag of a pan is being changed by a commit of its sluice page, which writes to its entries wait for (R65). -/
def tagChecking (s : State) (die pan : Nat) : Bool :=
  let a := tagAddr die pan
  committing s (pageBase a) && (stagedReg s a != reg s a || stagedReg s (a + 4) != reg s (a + 4))

/-- The tag of a row's pan is being changed; in pair mode commits stand on half A's pages (R65, R403). -/
def tagsMoving (s : State) (die row : Nat) : Bool := tagChecking s (baseDie s die) (row / 8192)

/-- An entry command names its entry: the frame of Table 4.11 around its work. A change waits for a snapshot of the range (R181)
for a repair of the entry (R273) and for a coverage check of the pan (R65); a valid entry, where the command needs an invalid one,
and a busy one are refused. -/
def entryCmd (s : State) (n : Nat) (u : Sub) (seat : Nat) (form : Bool) (counts : Table → Option (BitVec 8))
    (changes needFree : Bool) (buf : Table → Option (Nat × Bool)) (writes valids : Table → Nat)
    (work : Table → Nat → Nat → State → State × Except (BitVec 8 × Word64) (Nat × Nat × Word64)) : State :=
  let p := subPos u 8
  let tb := subTable u
  match cmdCheck s u seat true (form && posClean p), mget s.tables tb with
  | some st, _ => refuse s n u st
  | none, none => refuse s n u stBadTable
  | none, some t =>
    match counts t, posSlot s t p false with
    | some st, _ => refuse s n u st
    | none, none => refuse s n u stBadPosition
    | none, some _ =>
      let die := posDie p
      let q := posIndex t (posRow p)
      match buf t with
      | some (len, w) =>
        if !bufOk s seat (subBuf u) len w then refuse s n u stBadBuffer
        else match needRegion s (subBuf u) len (!w) with
          | some s' => s'
          | none => if w && regionShort s (subBuf u) len then s else run t die q (posRow p)
      | none => run t die q (posRow p)
where
  /-- The part of an entry command that may wait, then admission and the work. -/
  run (t : Table) (die q row : Nat) : State :=
    let tb := subTable u
    if changes && (jobMeets s .snapshot die tb q q || tagsMoving s die row) then s
    else if (copies s die).any fun d => underRepair s d row then s
    else payArray s n u seat (copies s die) (writes t) (valids t) fun s =>
      if needFree && (copies s die).any fun d => heldValid s d row t.rows then (s, .error (stEntryValid, 0))
      else match entryBusy s die tb q with
      | some st => (s, .error (st, 0))
      | none =>
        if ((buf t).map fun b => bufCut s n (subBuf u) b.1).getD false then (s, .error (stInternal, 0)) else work t die row s

/-- Apply an array step to every copy of an entry, its pan woken and used. -/
def onCopies (s : State) (die pan seat : Nat) (f : State → Nat → State) : State :=
  (copies s die).foldl (fun s d => f (writePan s d pan (some seat)) d) s

/-- The timestamp as DATA. -/
def stamp (s : State) : Word64 := BitVec.ofNat 64 (nowNs s)

/-- ENTRY_INVALIDATE (R159, R284). It is charged one array operation where the entry is invalid already, too: R166 does not say
whether a command that changes nothing is (DESIGN CHOICE, log 27). -/
def execEntryInvalidate (ring : BitVec 10) (s : State) : Res :=
  .next (runCmd s ring.toNat 0x48 fun s u seat =>
    entryCmd s ring.toNat u seat true (fun _ => none) true false (fun _ => none) (fun _ => 0) (fun _ => 1)
      fun t die row s =>
        (onCopies s die (row / 8192) seat fun s d =>
          if (entryRows row t.rows).any fun r => (rowAt s d r).valid || !rowGood d r (rowAt s d r) then
            invalidateEntry s d row t.rows else s, .ok (0, 1, stamp s)))

/-- Row image j of an ENTRY_WRITE (R158). -/
def rowImage (u : Sub) (j : Nat) : Plane × Plane :=
  (BitVec.ofNat 80 (field u.bytes (16 + 20 * j) 10), BitVec.ofNat 80 (field u.bytes (26 + 20 * j) 10))

/-- The pan's tag, as every copy holds it, covers a write of rows of an entry (R160). -/
def rowsCovered (s : State) (die pan : Nat) (rows : List (Plane × Plane)) (first ofs : Nat) : Bool :=
  (copies s die).all fun d => coversRows (panTag s d pan) rows first ofs

/-- ENTRY_WRITE (R159, R160). -/
def execEntryWrite (ring : BitVec 10) (s : State) : Res :=
  .next (runCmd s ring.toNat 0x49 fun s u seat =>
    let first := field u.bytes 6 1
    let count := field u.bytes 7 1
    entryCmd s ring.toNat u seat (decide (first ≤ 7))
      (fun t => if count = 0 then some stZeroLength else if 4 < count then some stBadCount
        else if t.rows < first + count then some stBadPosition else none)
      true true (fun _ => none) (fun _ => count) (fun _ => 0)
      fun t die row s =>
        let imgs := (List.range count).map (rowImage u)
        if !rowsCovered s die (row / 8192) imgs first t.ofs then (s, .error (stSluiceConflict, 0))
        else (onCopies s die (row / 8192) seat fun s d =>
          imgs.zipIdx.foldl (fun s x => writeRow s d (row + first + x.2) x.1.1 x.1.2 none) s, .ok (count, 0, 0)))

/-- The pan's tag covers an entry as each copy holds it (R64). -/
def entryCovered (s : State) (t : Table) (die row : Nat) : Bool :=
  (copies s die).all fun d => coversEntry s (panTag s d (row / 8192)) d row t.rows t.ofs

/-- Some row of an entry fails its check, or its record cannot be read, in some copy. -/
def badRows (s : State) (t : Table) (die row : Nat) : Bool :=
  (copies s die).any fun d => (entryRows row t.rows).any fun r => !rowGood d r (rowAt s d r) || !recordGood (shadowAt s d r)

/-- An entry stays poisoned in some copy (R275). -/
def poisonAny (s : State) (t : Table) (die row : Nat) : Bool := (copies s die).any fun d => poisonStands s d row t.rows

/-- Validate or refuse: coverage, then poison (R160, R275). -/
def validateStep (s : State) (t : Table) (die row seat : Nat) : Except (BitVec 8) State :=
  if (copies s die).all fun d => entryValid s d row t.rows then .ok s
  else if !entryCovered s t die row then .error stSluiceConflict
  else if poisonAny s t die row then .error stPoisoned
  else .ok (onCopies s die (row / 8192) seat fun s d => setValid s d row t.rows true)

/-- ENTRY_VALIDATE (R157, R159, R160, R284): a partial write of the rows; an unreadable record is rebuilt and a bad row repaired
first, and the row sent again. Of a valid entry it is charged as of an invalid one (DESIGN CHOICE, log 27). -/
def execEntryValidate (ring : BitVec 10) (s : State) : Res :=
  .next (runCmd s ring.toNat 0x4A fun s u seat =>
    let p := subPos u 8
    match cmdCheck s u seat true (posClean p), (mget s.tables (subTable u)) with
    | none, some t =>
      if (posSlot s t p false).isSome && badRows s t (posDie p) (posRow p) &&
          !poisonAny s t (posDie p) (posRow p) && (copies s (posDie p)).all (awake s) then
        (copies s (posDie p)).foldl (fun s d =>
          (entryRows (posRow p) t.rows).foldl (fun s r => checkRow (rebuildRecord s d r) d r) s) s
      else go s u seat
    | _, _ => go s u seat)
where
  /-- The command itself. -/
  go (s : State) (u : Sub) (seat : Nat) : State :=
    entryCmd s ring.toNat u seat true (fun _ => none) true false (fun _ => none) (fun _ => 0) (fun _ => 1)
      fun t die row s =>
        match validateStep s t die row seat with
        | .ok s' => (s', .ok (0, 1, stamp s))
        | .error st => (s, .error (st, 0))

/-- NEAR_WRITE (R164): DATA is the previous 8 bytes, from the shadow where the array's fail their check. -/
def execNearWrite (ring : BitVec 10) (s : State) : Res :=
  .next (runCmd s ring.toNat 0x4B fun s u seat =>
    let ofs := field u.bytes 6 1
    entryCmd s ring.toNat u seat (decide (ofs ≤ 7)) (fun t => if t.rows ≤ ofs then some stBadPosition else none) true
      false (fun _ => none) (fun _ => 1) (fun _ => 0)
      fun _ die row s =>
        let d0 := serveDie s die
        let r := row + ofs
        let old := if nearGood d0 r (rowAt s d0 r) || !recordGood (shadowAt s d0 r) then (rowAt s d0 r).near
          else (shadowAt s d0 r).near
        (onCopies s die (row / 8192) seat fun s d => writeNear s d r (BitVec.ofNat 64 (field u.bytes 16 8)), .ok (1, 0, old)))

/-- Records read from a buffer: n of them. -/
def readRecords (s : State) (a n : Nat) : List Shadow :=
  (List.range n).map fun i => recordOf (BitVec.ofNat 256 (devRead s (a + 32 * i) 32))

/-- Records are covered, as one entry, by a pan's tag as each copy holds it (R64). -/
def recordsCovered (s : State) (t : Table) (die pan : Nat) (rs : List Shadow) : Bool :=
  (copies s die).all fun d =>
    covers (panTag s d pan) (entryBits (rs.map fun r => r.data)) (entryBits (rs.map fun r => r.mask)) t.ofs
      (rs.any fun r => hasNever r.data r.mask)

/-- The judgement of one entry's records against a pan's tag, in the order of R165: the status of a refusal. -/
def judgeRecords (s : State) (t : Table) (die pan a : Nat) : Option (BitVec 8) :=
  let rs := readRecords s a t.rows
  if regionPoison s a (32 * t.rows) then some stPoisoned
  else if rs.any fun r => !recordGood r then some stRecordCheck
  else if !recordsCovered s t die pan rs then some stSluiceConflict
  else none

/-- The three steps of R165 for one entry and its records: the state, and whether it was validated. -/
def storeEntry (s : State) (t : Table) (die row : Nat) (rs : List Shadow) (seat : Nat) : State × Bool :=
  let v := (rs.head?.map fun r => r.valid).getD false
  (onCopies s die (row / 8192) seat fun s d =>
    let s := invalidateEntry s d row t.rows
    let s := rs.zipIdx.foldl (fun s x => writeRow s d (row + x.2) x.1.data x.1.mask (some x.1.near)) s
    if v then setValid s d row t.rows true else s, v)

/-- ENTRY_SET (R165). -/
def execEntrySet (ring : BitVec 10) (s : State) : Res :=
  .next (runCmd s ring.toNat 0x4C fun s u seat =>
    entryCmd s ring.toNat u seat true (fun _ => none) true false (fun t => some (32 * t.rows, false)) (fun t => t.rows)
      (fun _ => 2)
      fun t die row s =>
        let s := meetRegion s seat (subBuf u) (32 * t.rows)
        match judgeRecords s t die (row / 8192) (subBuf u) with
        | some st => (s, .error (st, 0))
        | none =>
          let (s', v) := storeEntry s t die row (readRecords s (subBuf u) t.rows) seat
          (s', .ok (t.rows, if v then 2 else 1, if v then stamp s else 0)))

/-- The record of a row as the device writes it out (R154): POISONED, with zeros, where neither the shadow nor the array can give
it; VALID is the entry's. Of a lost frond the array's word is gone, and it is a free value (DESIGN CHOICE, log 27). -/
def outRecord (s : State) (t : Table) (die first row : Nat) : BitVec 256 :=
  let g := shadowAt s die row
  let v := if recordGood (shadowAt s die first) then (shadowAt s die first).valid
    else if frondServes s die then entryValid s die first t.rows else freeValid die first
  BitVec.ofNat 256 (if recordGood g then recordNat g.data g.mask g.near (recordCrc g.data g.mask g.near) v false
    else recordNat 0 0 0 (recordCrc 0 0 0) v true)

/-- Rebuild what can be rebuilt of an entry's records, then give them out; a lost frond has no array to rebuild them from (R49). -/
def outEntry (s : State) (t : Table) (die first : Nat) : State × List (BitVec 256) :=
  let s := if frondServes s die then (entryRows first t.rows).foldl (fun s r => rebuildRecord s die r) s else s
  (s, (entryRows first t.rows).map (outRecord s t die first))

/-- ENTRY_READ (R165). -/
def execEntryRead (ring : BitVec 10) (s : State) : Res :=
  .next (runCmd s ring.toNat 0x4D fun s u seat =>
    entryCmd s ring.toNat u seat true (fun _ => none) false false (fun t => some (32 * t.rows, true)) (fun _ => 0) (fun _ => 0)
      fun t die row s =>
        let s := meetPart s seat (subBuf u) (32 * t.rows)
        if partPoison s (subBuf u) (32 * t.rows) then (s, .error (stPoisoned, 0))
        else
          let (s, rs) := outEntry s t (serveDie s die) row
          (devWrite s seat (subBuf u) (packItems (rs.map fun r => (32, r.toNat))) (32 * t.rows), .ok (0, 0, 0)))

/-! Sluice tags (R65, R167, R403) -/

/-- The first pan of a list of new tags that a commit refuses, and the row of the entry found uncovered (0xFFFF for the pan
itself): a pan of no table, dead, touched by a move, or with a valid entry that the tag does not cover. Only changed tags are
judged. -/
def tagRefusal (s : State) (die : Nat) : List (Nat × Word × Word) → Option (Nat × Nat)
  | [] => none
  | (pan, d, m) :: l =>
    if reg s (tagAddr die pan) = d && reg s (tagAddr die pan + 4) = m then tagRefusal s die l
    else match panOwner s die pan with
      | none => some (pan, 0xFFFF)
      | some (_, t) =>
        if panDead s die pan || movePan s (baseDie s die) pan then some (pan, 0xFFFF)
        else match uncovered s (d, m) die pan t.rows t.ofs with
          | some f => some (pan, f % 8192)
          | none => tagRefusal s die l

/-- Make new tags active on a frond; an injected flip of a rewritten tag goes (R269). -/
def setTags (s : State) (die : Nat) (tags : List (Nat × Word × Word)) : State :=
  tags.foldl (fun s x =>
    let a := tagAddr die x.1
    let s := covered (setReg (covered (setReg s a x.2.1) a) (a + 4) x.2.2) (a + 4)
    let s := modRegs s fun g => { g with staged := mdel (mdel g.staged a) (a + 4) }
    modArr s die fun f => { f with
      tagBad := mdel (mdel f.tagBad (2 * x.1)) (2 * x.1 + 1)
      tagFlip := mdel (mdel f.tagFlip (2 * x.1)) (2 * x.1 + 1) }) s

/-- A sluice page blocks a SLUICE_SET: its staged halves differ from the active ones, or its commit is pending. -/
def sluiceBlocked (s : State) (base : Nat) : Bool :=
  committing s base || (pageStaged s base).any fun e => e.2 != reg s e.1

/-- The sluice pages of a command's pans read the end of its commit: RESULT 1, or 2 with REJECT.STAGE (R167, R388). -/
def sluiceEnd (s : State) (die : Nat) (pans : List Nat) (result : Nat) : State :=
  ((pans.map fun p => pageBase (tagAddr die p)).eraseDups).foldl (fun s b => commitEnd s b result) s

/-- SLUICE_SET (R167). -/
def execSluiceSet (ring : BitVec 10) (s : State) : Res :=
  let n := ring.toNat
  .next (runCmd s n 0x50 fun s u seat =>
    let count := field u.bytes 6 1
    let die := field u.bytes 7 1
    let first := field u.bytes 8 2
    match cmdCheck s u seat true true, mget s.tables (subTable u) with
    | some st, _ => refuse s n u st
    | none, none => refuse s n u stBadTable
    | none, some t =>
      if count = 0 then refuse s n u stZeroLength
      else if 20 < count then refuse s n u stBadCount
      else
        let pans := (List.range count).map (first + ·)
        if !pans.all fun p => inRange t die p then refuse s n u stBadPosition
        else
          let tags := (List.range count).map fun i =>
            (first + i, BitVec.ofNat 16 (field u.bytes (16 + 4 * i) 2), BitVec.ofNat 16 (field u.bytes (18 + 4 * i) 2))
          let dies := copies s die
          payArray s n u seat dies 0 0 fun s =>
            match pans.find? fun p => movePan s die p with
            | some p => (s, .error (stRakeBusy, BitVec.ofNat 64 (p + 65536 * 0xFFFF)))
            | none =>
              if dies.any fun d => pans.any fun p => sluiceBlocked s (pageBase (tagAddr d p)) then (s, .error (stTableBusy, 0))
              else match dies.findSome? fun d => tagRefusal s d tags with
                | some (p, r) => (sluiceEnd s die pans 2, .error (stSluiceConflict, BitVec.ofNat 64 (p + 65536 * r)))
                | none => (sluiceEnd (dies.foldl (fun s d => setTags s d tags) s) die pans 1, .ok (0, 0, 0)))

end Sys2Proof.Machine
end

