-- ==== Sys2Proof/Machine/Rake.lean ====
section
/-!
DEFINITION. The rake, bulk loads, snapshots, statistics and counter commands (R168 to R182).
-/
namespace Sys2Proof.Machine

/-! The rake (R168 to R175) -/

/-- A move's block and target slot lie in the table's range in a frond, clear of dead pans (R168, R169). -/
def moveFits (s : State) (t : Table) (die : Nat) (m : Move) : Bool :=
  match slotOfDie t die with
  | some f =>
    let lo := (posRange t f).1
    let hi := (posRange t f).2
    decide (lo ≤ m.start) && (!m.down || decide (lo < m.start)) && decide ((moveSpan m).2 ≤ hi) &&
      (List.range (posRowOf t (moveSpan m).2 / 8192 + 1 - posRowOf t (moveSpan m).1 / 8192)).all fun k =>
        !((copies s die).any fun d => panDead s d (posRowOf t (moveSpan m).1 / 8192 + k))
  | none => false

/-- RAKE_MOVE (R168, R169): the move joins its frond's queue; its submission completes when the move is over. -/
def rakeMove (s : State) (n : Nat) (u : Sub) (seat : Nat) : State :=
  let tb := subTable u
  let p := subPos u 8
  let dir := field u.bytes 6 1
  let count := field u.bytes 12 4
  match cmdCheck s u seat true (decide (dir ≤ 1) && posClean p), mget s.tables tb with
  | some st, _ => refuse s n u st
  | none, none => refuse s n u stBadTable
  | none, some t =>
    if count = 0 then refuse s n u stZeroLength
    else if 65536 < count then refuse s n u stBadCount
    else
      let die := posDie p
      let m : Move := { ring := some n, sub := u.id, table := tb, down := dir == 1, start := posIndex t (posRow p),
                        count := count, moved := 0, seat := seat }
      if (posSlot s t p true).isNone || !moveFits s t die m then refuse s n u stBadPosition
      else if jobMeets s .snapshot die tb (moveSpan m).1 (moveSpan m).2 then s
      else
        let d := opCost s opDispatch 0
        match admitKnown s seat d with
        | none => finish (countRefused (startSub s n u.id 1)) n u stOverBudget 0
        | some s =>
          let s := bookOp (startSub s n u.id 1) (2 + ringHub s n) d
          let dies := copies s die
          if dies.isEmpty || dies.any fun d => !frondServes s d then finish s n u stFrondLost 0
          else if dies.any fun d => 8 ≤ (frond s d).moves.length then
            finish s n u stRakeBusy 0
          else if jobMeets s .load die tb (moveSpan m).1 (moveSpan m).2 then finish s n u stTableBusy 0
          else dies.foldl (fun s d => modFrond s d fun f => { f with moves := f.moves ++ [m] }) s

/-- RAKE_MOVE (R168). -/
def execRakeMove (ring : BitVec 10) (s : State) : Res :=
  .next (runCmd s ring.toNat 0x54 fun s u seat => rakeMove s ring.toNat u seat)

/-- Source and destination position of entry k of a move (R170). -/
def moveStep (m : Move) (k : Nat) : Nat × Nat :=
  if m.down then (m.start + k, m.start + k - 1) else (m.start + m.count - 1 - k, m.start + m.count - k)

/-- Some entry of a move would land in another pan whose tag does not cover it (R169). -/
def moveUncovered (s : State) (t : Table) (die : Nat) (m : Move) : Bool :=
  (List.range m.count).any fun k =>
    let a := posRowOf t (moveStep m k).1
    let b := posRowOf t (moveStep m k).2
    a / 8192 != b / 8192 && !coversEntry s (panTag s die (b / 8192)) die a t.rows t.ofs

/-- The target slot of a move. -/
def moveTarget (m : Move) : Nat := if m.down then m.start - 1 else m.start + m.count

/-- RAKE_MOVE_START (R169): the oldest queued move leaves the queue, is checked against the table as it stands, and starts; one that
fails a check ends with its status. A move whose block or target slot a TABLE_RANGE has left outside the table's range ends with
BAD_POSITION, which R169's start checks do not list (DESIGN CHOICE, log 28). A snapshot of its range is waited for (R181). -/
def execRakeMoveStart (die : BitVec 3) (s : State) : Res :=
  let d := die.toNat
  let f := frond s d
  .next (match f.move, f.moves with
    | none, m :: rest =>
      if !frondServes s d then s
      else if !awake s d then wakeDie s d
      else
        let pop (s : State) : State := modFrond s d fun f => { f with moves := rest }
        match tableIn s m.table with
        | none => moveOver (pop s) m stBadTable 0
        | some t =>
          let b := baseDie s d
          if jobMeets s .snapshot b m.table (moveSpan m).1 (moveSpan m).2 then s
          else if !moveFits s t b m then moveOver (pop s) m stBadPosition 0
          else if jobMeets s .load b m.table (moveSpan m).1 (moveSpan m).2 then moveOver (pop s) m stTableBusy 0
          else if entryValid s d (posRowOf t (moveTarget m)) t.rows then moveOver (pop s) m stNoFreeSlot 0
          else if moveUncovered s t d m then moveOver (pop s) m stSluiceConflict 0
          else modFrond (pop s) d fun f => { f with move := some m, paused := false }
    | _, _ => s)

/-- The counter word of a row of a table (R147). -/
def counterWord (s : State) (t : Table) (die row : Nat) : Nat :=
  let rank := ((slotOfDie t (baseDie s die)).map fun f => f.rank).getD 0
  t.cbase + 8 * counterIndex t rank row

/-- Copy an entry's rows, near data and poison mark into another slot, which stays invalid (R170 step 1, R274). A mark that the
slot itself still bears stays, since only ENTRY_WRITE, ENTRY_SET and BULK_LOAD clear one (R275; DEDUCED, log 28). -/
def copyEntry (s : State) (die a b n : Nat) : State :=
  let p := (rowAt s die a).poison || (rowAt s die b).poison
  let s := (List.range n).foldl (fun s k =>
    let r := rowAt s die (a + k)
    let s := writeRow s die (b + k) r.data r.mask (some r.near)
    putRow s die (b + k) { rowAt s die (b + k) with rewritten := false, failed := r.failed }) s
  putRow s die b { rowAt s die b with poison := p }

/-- The source of a moved entry, which is invalid now: its mark has moved with the entry (R274), and its records hold its rows as
they stand (R157). -/
def leaveSlot (s : State) (die a n : Nat) : State :=
  (entryRows a n).foldl (fun s r => putRow s die r { rowAt s die r with poison := false, failed := false }) s

/-- Step 4 of R170: the source's counter joins the destination's, or neither is touched. Some state where a host is asked back
first, where media is short (R224) or where both cross links cut a counter's home off (Table 1.7): the merge waits. -/
def mergeCounters (s : State) (t : Table) (table die a b : Nat) : State × Bool :=
  let wa := counterWord s t die a
  let wb := counterWord s t die b
  match [wa, wb].find? fun w => !ownerReaches s t w true with
  | some w => (regionLost s table w, true)
  | none =>
    match [wa, wb].findSome? fun w => needLine s (lineOf w) false with
    | some s' => (s', false)
    | none =>
      if [wa, wb].any fun w => homeCut s (halfOf die) (lineOf w) || writeShort s (lineOf w) false then (s, false)
      else
        let s := meetRegion (meetRegion s 0xFF wa 8) 0xFF wb 8
        match [wa, wb].find? fun w => devPoison s (lineOf w) with
        | some w => (raiseFull s 0x1003 1 die 0xFF (poisonFlag s (lineOf w) (devHub s (lineOf w))) 0 [(2, table), (4, (w - t.cbase) / 8)] (.owner t.owner), true)
        | none =>
          let v := (devRead s wa 8 + devRead s wb 8) % 2 ^ 64
          (devWrite (devWrite s 0xFF wb v 8) 0xFF wa 0 8, true)

/-- The four steps of R170 for one entry, on rows that are good and not under repair. -/
def moveEntry (s : State) (t : Table) (die : Nat) (m : Move) (a b : Nat) : State :=
  let v := entryValid s die a t.rows
  let s := writePan (writePan s die (a / 8192) none) die (b / 8192) none
  let s := copyEntry s die a b t.rows
  let s := if v then setValid s die b t.rows true else s
  let s := leaveSlot (setValid s die a t.rows false) die a t.rows
  let c := arrayCost s [die] t.rows (if v then 2 else 1)
  let s := modTally (chargeBg (bookOp s (coreRail die) c) c) fun t => { t with slack := t.slack - c }
  modFrond s die fun f => { f with paused := false, move := some { m with moved := m.moved + 1 } }

/-- RAKE_ENTRY_STEP (R170, R173): one entry of the running move. It pauses without slack, waits for repairs, for
checks of a tag (R65), for counters still queued and for hosts that hold a counter line, repairs what it reads bad (R272), and
completes the move after its last entry. -/
def execRakeEntryStep (die : BitVec 3) (s : State) : Res :=
  let d := die.toNat
  .next (match (frond s d).move with
    | none => s
    | some m =>
      if !frondServes s d then s
      else if !awake s d then wakeDie s d
      else match mget s.tables m.table with
        | none => s
        | some t =>
          let a := posRowOf t (moveStep m m.moved).1
          let b := posRowOf t (moveStep m m.moved).2
          let bad := (entryRows a t.rows).find? fun r => !rowWhole s d r
          if s.tally.slack < arrayCost s [d] t.rows 2 then modFrond s d fun f => { f with paused := true }
          else if underRepair s d a || underRepair s d b || tagsMoving s d a || tagsMoving s d b then s
          else match bad with
            | some r => checkRow s d r
            | none =>
              let counts := t.cnt && entryValid s d a t.rows && serveDie s (baseDie s d) == d
              let idx := (counterWord s t d a - t.cbase) / 8
              if counts && (s.fronds.any fun f => f.hce.contains (m.table, idx)) then s
              else
                let (s, ok) := if counts then mergeCounters s t m.table d a b else (s, true)
                if !ok then s
                else
                  let s := moveEntry s t d m a b
                  if m.moved + 1 < m.count then s
                  else moveOver (modFrond s d fun f => { f with move := none }) m stCmdDone m.count)

/-- A rake command that names a frond by DIE in byte 7 (R174). -/
def rakeDie (s : State) (n : Nat) (u : Sub) (seat : Nat) (update : Bool) (f : State → Nat → State × Nat) : State :=
  match cmdCheck s u seat update true, mget s.tables (subTable u) with
  | some st, _ => refuse s n u st
  | none, none => refuse s n u stBadTable
  | none, some t =>
    let die := field u.bytes 7 1
    if (slotOfDie t die).isNone then refuse s n u stBadPosition
    else pay s n u seat 0 fun s =>
      let (s, data) := f s die
      (s, 0, stCmdDone, BitVec.ofNat 64 data)

/-- RAKE_QUERY (Table 4.8). -/
def execRakeQuery (ring : BitVec 10) (s : State) : Res :=
  .next (runCmd s ring.toNat 0x55 fun s u seat => rakeDie s ring.toNat u seat false fun s die =>
    let f := frond s (serveDie s die)
    let tb := subTable u
    let run := match f.move with
      | some m => if m.table = tb then some (m.count - m.moved) else none
      | none => none
    (s, packItems [(4, run.getD 0), (1, (f.moves.filter fun m => m.table == tb).length),
      (1, if run.isSome then (if f.paused then 3 else 1) else 0)]))

/-- RAKE_CANCEL (R174): each stopped or removed move writes its own completion, marked in byte 4. -/
def execRakeCancel (ring : BitVec 10) (s : State) : Res :=
  .next (runCmd s ring.toNat 0x56 fun s u seat => rakeDie s ring.toNat u seat true fun s die =>
    let tb := subTable u
    let moved := match (frond s (serveDie s die)).move with
      | some m => if m.table = tb then m.moved else 0
      | none => 0
    (stopMoves s (copies s die) tb stCmdDone (2 ^ 32), moved))

/-! Bulk load, snapshot and statistics (R180 to R183) -/

/-- The checks of a command over a block of positions, with FROM in bytes 8 to 11 and COUNT in bytes 12 to 15: its table, frond and
first position, or the refusal. -/
def blockCheck (s : State) (u : Sub) (seat : Nat) (update : Bool) (limit : Option Nat) (dead : Bool) :
    Except (BitVec 8) (Table × Nat × Nat) :=
  let p := subPos u 8
  let count := field u.bytes 12 4
  match cmdCheck s u seat update (posClean p), mget s.tables (subTable u) with
  | some st, _ => .error st
  | none, none => .error stBadTable
  | none, some t =>
    if count = 0 then .error stZeroLength
    else if (limit.map fun l => decide (l < count)).getD false then .error stBadCount
    else match posSlot s t p true with
      | none => .error stBadPosition
      | some f =>
        let q := posIndex t (posRow p)
        if (posRange t f).2 + 1 < q + count then .error stBadPosition
        else if !dead && (List.range (posRowOf t (q + count - 1) / 8192 + 1 - posRow p / 8192)).any fun k =>
            (copies s (posDie p)).any fun d => panDead s d (posRow p / 8192 + k) then .error stBadPosition
        else .ok (t, posDie p, q)

/-- Open a job of a submission. -/
def openJob (s : State) (k : JobKind) (n : Nat) (u : Sub) (seat die start count buf cost : Nat) (fromG : Bool)
    (image : List (Nat × BitVec 256)) : State :=
  let j : Job := { kind := k, ring := n, sub := u.id, seat := seat, table := subTable u, die := die, start := start,
                   count := count, done := 0, buf := buf, moment := nowNs s, image := image, checked := false, valids := 0, cost := cost,
                   fromG := fromG }
  { s with jobs := mput s.jobs s.nextId j, nextId := s.nextId + 1 }

/-- BULK_LOAD (R180): checked and admitted; its steps follow. -/
def execBulkLoad (ring : BitVec 10) (s : State) : Res :=
  let n := ring.toNat
  .next (runCmd s n 0x58 fun s u seat =>
    let count := field u.bytes 12 4
    match blockCheck s u seat true none false with
    | .error st => refuse s n u st
    | .ok (t, die, q) =>
      if !bufOk s seat (subBuf u) (32 * t.rows * count) false then refuse s n u stBadBuffer
      else if jobMeets s .snapshot die (subTable u) q (q + count - 1) then s
      else
        let d := opCost s opDispatch 0
        let dies := copies s die
        let c := d + arrayCost s dies (count * t.rows) (2 * count)
        match admitWork s seat c with
        | none => finish (countRefused (startSub s n u.id 1)) n u stOverBudget 0
        | some (s, g) =>
          let s := bookOp (startSub s n u.id 1) (2 + ringHub s n) d
          let stop (st : BitVec 8) : State := finish (settle s seat c d g) n u st 0
          if dies.isEmpty || dies.any fun d => !frondServes s d then stop stFrondLost
          else if moveMeets s die (subTable u) q (q + count - 1) || jobMeets s .load die (subTable u) q (q + count - 1) then
            stop stTableBusy
          else openJob s .load n u seat die q count (subBuf u) c g [])

/-- The records of a bulk load's buffer, read whole by its first pass, a record to a place. -/
def loadImage (s : State) (t : Table) (j : Job) : List (Nat × BitVec 256) :=
  (List.range (t.rows * j.count)).map fun i => (j.buf + 32 * i, BitVec.ofNat 256 (devRead s (j.buf + 32 * i) 32))

/-- The first pass of a bulk load: the first entry that is refused, with its status (R180). -/
def loadFault (s : State) (t : Table) (j : Job) : Option (Nat × BitVec 8) :=
  (List.range j.count).findSome? fun i =>
    (judgeRecords s t j.die (posRowOf t (j.start + i) / 8192) (j.buf + 32 * t.rows * i)).map fun st => (i, st)

/-- BULK_LOAD_STEP (R180): the first pass over every record, then one entry a step, stored from the records that the first pass has
read and judged, so that no refusal follows a stored entry (R134). An entry that the pan's tag, changed since then, no longer covers
is not stored (R64): the load ends with INTERNAL, the entries before it written (DESIGN CHOICE, log 29). -/
def execBulkLoadStep (id : BitVec 32) (s : State) : Res :=
  let i := id.toNat
  .next (match mget s.jobs i with
    | some j =>
      match j.kind, mget s.tables j.table with
      | .load, some t =>
        let dies := copies s j.die
        let row := posRowOf t (j.start + j.done)
        let len := 32 * t.rows * j.count
        if dies.any fun d => !frondServes s d || halted s (halfOf d) then s
        else match needFronds s dies with
          | some s' => s'
          | none =>
            if !j.checked then
              match needRegion s j.buf len true with
              | some s' => s'
              | none =>
                if bufCut s j.ring j.buf len then jobOver s i j stInternal j.done (jobCost s j)
                else
                  let s := meetRegion s j.seat j.buf len
                  match loadFault s t j with
                  | some (k, st) => jobOver s i j st k (jobCost s j)
                  | none => { s with jobs := mput s.jobs i { j with checked := true, image := loadImage s t j } }
            else if tagsMoving s j.die row || dies.any fun d => underRepair s d row then s
            else
              let rs := (j.image.take t.rows).map fun x => recordOf x.2
              if !recordsCovered s t j.die (row / 8192) rs then jobOver s i j stInternal j.done (jobCost s j)
              else
                let (s, v) := storeEntry s t j.die row rs j.seat
                let s := bookArray s dies t.rows (if v then 2 else 1)
                let j' := { j with done := j.done + 1, valids := j.valids + (if v then 1 else 0), image := j.image.drop t.rows }
                if j'.done < j.count then { s with jobs := mput s.jobs i j' }
                else jobOver s i j' stCmdDone j'.count (jobCost s j')
      | _, _ => s
    | none => s)

/-- Cut a byte string into 32-byte pieces at an address. -/
def pieces (a v n : Nat) : List (Nat × BitVec 256) :=
  (List.range ((n + 31) / 32)).map fun i => (a + 32 * i, BitVec.ofNat 256 (v / 256 ^ (32 * i)))

/-- A frond that serves is needed awake; nothing is asked of one that does not. -/
def needServing (s : State) (die : Nat) : Option State := if frondServes s die then needFronds s [die] else none

/-- SNAPSHOT (R181): the records of the range as they stand now, to be written by its steps. The shadow lies in hub DRAM, so a lost
frond is read as well (R434). -/
def execSnapshot (ring : BitVec 10) (s : State) : Res :=
  let n := ring.toNat
  .next (runCmd s n 0x59 fun s u seat =>
    let count := field u.bytes 12 4
    match blockCheck s u seat true none true with
    | .error st => refuse s n u st
    | .ok (t, die, q) =>
      let len := 32 * t.rows * count
      if !bufOk s seat (subBuf u) len true then refuse s n u stBadBuffer
      else match needServing s (serveDie s die) with
        | some s' => s'
        | none =>
          let d := opCost s opDispatch 0
          match admitWork s seat d with
          | none => finish (countRefused (startSub s n u.id 1)) n u stOverBudget 0
          | some (s, g) =>
            let s := bookOp (startSub s n u.id 1) (2 + ringHub s n) d
            let stop (st : BitVec 8) : State := finish (settle s seat d d g) n u st 0
            if moveMeets s die (subTable u) q (q + count - 1) || jobMeets s .load die (subTable u) q (q + count - 1) then
              stop stTableBusy
            else if bufCut s n (subBuf u) len then stop stInternal
            else
              let s := meetPart s seat (subBuf u) len
              if partPoison s (subBuf u) len then finish (settle s seat d d g) n u stPoisoned 0
              else
              let (s, rs) := (List.range count).foldl (fun (x : State × List (BitVec 256)) i =>
                let (s, l) := outEntry x.1 t (serveDie s die) (posRowOf t (q + i))
                (s, x.2 ++ l)) (s, [])
              openJob s .snapshot n u seat die q count (subBuf u) d g (rs.zipIdx.map fun x => (subBuf u + 32 * x.2, x.1)))

/-- Write the next line of a job's image (up to two 32-byte pieces); hosts that hold it are asked back first. After the last line
the job completes with its moment. -/
def imageStep (s : State) (id : Nat) (j : Job) (len : Nat) : State :=
  match j.image with
  | [] => jobOver s id j stCmdDone j.moment (jobCost s j)
  | (a, v) :: rest =>
    let hi := if a % 64 = 0 then rest.head? else none
    let size := min (if hi.isSome then 64 else 32) (j.buf + len - a)
    match needRegion s a size false with
    | some s' => s'
    | none => if bufCut s j.ring a size || regionShort s a size then s else
      let s := devWrite s j.seat a (v.toNat + 2 ^ 256 * (hi.map fun x : Nat × BitVec 256 => x.2.toNat).getD 0) size
      let j' := { j with image := if hi.isSome then rest.drop 1 else rest, done := j.done + 1 }
      if j'.image.isEmpty then jobOver s id j' stCmdDone j.moment (jobCost s j')
      else { s with jobs := mput s.jobs id j' }

/-- SNAPSHOT_STEP (R181). -/
def execSnapshotStep (id : BitVec 32) (s : State) : Res :=
  .next (match mget s.jobs id.toNat with
    | some j => if halted s (primary s) then s else match j.kind, mget s.tables j.table with
      | .snapshot, some t => imageStep s id.toNat j (32 * t.rows * j.count)
      | _, _ => s
    | none => s)

/-- Table 4.9 and Table 4.10 for a table's range in a frond, as bytes. -/
def statBytes (s : State) (t : Table) (f : FrondSlot) (x : TStat) : Nat :=
  let d := serveDie s f.die
  let pans := (List.range f.pans).map (f.first + ·)
  let tag (p : Nat) : Word × Word := panTag s d p
  let cnt (g : Word × Word → Bool) : Nat := (pans.filter fun p => g (tag p)).length
  packItems ([(8, x.searches), (2, f.pans), (2, cnt fun g => g.2 == 0xFFFF),
      (2, cnt fun g => g.2 != 0xFFFF && !tagDark g && g.2 != 0), (2, cnt fun g => g.2 == 0 && !tagDark g), (2, cnt tagDark),
      (6, 0)] ++ (List.range 9).map (fun i => (8, x.hist.getD i 0)) ++
    pans.flatMap fun p => [(2, p), (2, (validEntries s d p t.rows).length), (2, (tag p).1.toNat), (2, (tag p).2.toNat),
      (8, (mget x.lit p).getD 0)])

/-- STATS (R182): the records as they stand at the statistics moment; CLEAR zeroes the counts then. A DIE outside the table's frond
set is BAD_POSITION, as R174 states for the rake's commands: R182 names no status for it (DESIGN CHOICE, log 29). -/
def execStats (ring : BitVec 10) (s : State) : Res :=
  let n := ring.toNat
  .next (runCmd s n 0x5A fun s u seat =>
    let opts := field u.bytes 6 1
    let die := field u.bytes 7 1
    let tb := subTable u
    match cmdCheck s u seat false (decide (opts < 2)), mget s.tables tb with
    | some st, _ => refuse s n u st
    | none, none => refuse s n u stBadTable
    | none, some t =>
      match slotOfDie t die with
      | none => refuse s n u stBadPosition
      | some f =>
        let len := 96 + 16 * f.pans
        if !bufOk s seat (subBuf u) len true then refuse s n u stBadBuffer
        else if !frondServes s (serveDie s die) then pay s n u seat 0 fun s => (s, 0, stFrondLost, 0)
        else
          let d := opCost s opDispatch 0
          match admitWork s seat d with
          | none => finish (countRefused (startSub s n u.id 1)) n u stOverBudget 0
          | some (s, g) =>
            let s := bookOp (startSub s n u.id 1) (2 + ringHub s n) d
            let s := meetPart s seat (subBuf u) len
            if bufCut s n (subBuf u) len then finish (settle s seat d d g) n u stInternal 0
            else if partPoison s (subBuf u) len then finish (settle s seat d d g) n u stPoisoned 0
            else
              let x := (mget t.stats die).getD statReset
              let s' := openJob s .stats n u seat die 0 f.pans (subBuf u) d g (pieces (subBuf u) (statBytes s t f x) len)
              if opts = 1 then putTable s' tb { t with stats := mdel t.stats die } else s')

/-- STATS_STEP (R182). -/
def execStatsStep (id : BitVec 32) (s : State) : Res :=
  .next (match mget s.jobs id.toNat with
    | some j => if j.kind = .stats && !halted s (primary s) then imageStep s id.toNat j (96 + 16 * j.count) else s
    | none => s)

/-! Counters (R178, R179) -/

/-- Some counter line of a block lies outside the owner's HDM-DB extents with the read-write right. -/
def countersOut (s : State) (t : Table) (a n : Nat) : Bool :=
  match t.owner with
  | some o => !regionOk s o a n true
  | none => true

/-- COUNTER_READ (R178): waits until every increment of the table that is queued has been made. A counter that reads as poison
refuses the command with POISONED: R178 states nothing for it, and poison does not spread to the lines of BUF (R281; DESIGN CHOICE,
log 29). -/
def execCounterRead (ring : BitVec 10) (s : State) : Res :=
  let n := ring.toNat
  .next (runCmd s n 0x5C fun s u seat =>
    let count := field u.bytes 12 4
    match blockCheck s u seat false (some 65536) true with
    | .error st => refuse s n u st
    | .ok (t, die, q) =>
      let a := counterWord s t die (posRowOf t q)
      let buf := subBuf u
      if !bufOk s seat buf (8 * count) true || !t.cnt || countersOut s t a (8 * count) then refuse s n u stBadBuffer
      else if s.fronds.any fun f => f.hce.any fun c => c.1 == subTable u then s
      else match needRegion s a (8 * count) true with
        | some s' => s'
        | none => match needRegion s buf (8 * count) false with
          | some s' => s'
          | none => if regionShort s buf (8 * count) then s else pay s n u seat 0 fun s =>
            if bufCut s n a (8 * count) || bufCut s n buf (8 * count) then (s, 0, stInternal, 0)
            else
              let s := meetPart (meetRegion s seat a (8 * count)) seat buf (8 * count)
              if regionPoison s a (8 * count) || partPoison s buf (8 * count) then (s, 0, stPoisoned, 0)
              else (devWrite s seat buf (devRead s a (8 * count)) (8 * count), 0, stCmdDone, 0))

/-- A line is covered only in part by a region. -/
def partOf (a len line : Nat) : Bool := decide (64 * line < a) || decide (a + len < 64 * line + 64)

/-- COUNTER_CLEAR (R179). -/
def execCounterClear (ring : BitVec 10) (s : State) : Res :=
  let n := ring.toNat
  .next (runCmd s n 0x5D fun s u seat =>
    let count := field u.bytes 12 4
    match blockCheck s u seat true (some 65536) true with
    | .error st => refuse s n u st
    | .ok (t, die, q) =>
      let a := counterWord s t die (posRowOf t q)
      if !t.cnt || countersOut s t a (8 * count) then refuse s n u stBadBuffer
      else match needRegion s a (8 * count) false with
        | some s' => s'
        | none => if regionShort s a (8 * count) then s else pay s n u seat 0 fun s =>
          let parts := ((List.range ((a + 8 * count + 63) / 64 - a / 64)).map (a / 64 + ·)).filter (partOf a (8 * count))
          let s := parts.foldl (fun s l => meetRegion s seat (64 * l) 64) s
          if bufCut s n a (8 * count) then (s, 0, stInternal, 0)
          else if parts.any (devPoison s) then (s, 0, stPoisoned, 0)
          else (devWrite s seat a 0 (8 * count), 0, stCmdDone, 0))

end Sys2Proof.Machine
end

