-- ==== Sys2Proof/Machine/Covenant.lean ====
section
/-!
DEFINITION. Covenants: admission, the resolution of shortfalls, and what they draw on: frond levels, standing charges, keep costs and
the foreground budget (R325 to R336, R339 to R346, R352).
-/
namespace Sys2Proof.Machine

/-! Frond levels (R350 to R352, Table 9.2) -/

/-- Fastest level that FPWR.CTL.LFAST and Table 9.2 allow a frond. -/
def fastLevel (s : State) (die : Nat) : Nat :=
  let lf := bits (fpwrCtl s die) 11 9
  if 3 ≤ s.tally.therm then 5 else if s.tally.therm = 2 then max lf 3 else lf

/-- Slowest level allowed. -/
def slowLevel (s : State) (die : Nat) : Nat := max (bits (fpwrCtl s die) 8 6) (fastLevel s die)

/-- A level as the part carries it out (R6). -/
def carried (s : State) (l : Nat) : Nat := if s.chip.fast then l else max l 1

/-- Slot rate of a level, M slots/s. -/
def slotRate (s : State) (l : Nat) : Nat := frondMhz (carried s l)

/-- Dispatch time of a hub level, ps (Table 9.5). -/
def dispatchPs (l : Nat) : Nat := [12000, 15000, 20000, 30000].getD l 30000

/-- In-package time of a search of a table with its fronds at a level, ps: the hub's measured fetch and completion times, and
Table 1.5 scaled by R8. -/
def tablePs (s : State) (t : Table) (l : Nat) : Nat :=
  let mhz := slotRate s l
  let hub := (hubs s).foldl (fun m h => max m (s.tally.hubLevel.getD h 3)) 0
  let set := t.fronds.map fun f => f.die - 2
  let walk := if set.length ≤ 1 then 0 else (arcOf s set).2 * (2500 * 1500 / mhz) + 5500
  1000 * s.tally.overhead + dispatchPs hub + 66 * 1000000 / mhz + walk

/-- A ceiling is met at a level with a 10 % margin (R352). -/
def ceilingMet (s : State) (t : Table) (ns l : Nat) : Bool := decide (11 * tablePs s t l ≤ 10 * (1000 * ns))

/-- Covenants of a kind on tables in service, with their tables. -/
def tableCovs (s : State) (kind : Nat) : List (Nat × Cov × Table) :=
  s.covs.filterMap fun e => if e.2.kind = kind then (tableIn s e.2.object).map fun t => (e.1, e.2, t) else none

/-- A table runs on a frond, in either half. -/
def tableOn (s : State) (t : Table) (die : Nat) : Bool := (slotOfDie t (baseDie s die)).isSome

/-- Slots per second that rate covenants reserve of a frond, M slots/s, at the amounts that f gives. -/
def reservedSlots (s : State) (die : Nat) (f : Cov → Nat) : Nat :=
  (tableCovs s 3).foldl (fun n c => if tableOn s c.2.2 die then n + f c.2.1 * slotsOfSearch c.2.2 1 else n) 0

/-- The slowest level that meets every condition of R352 under the given ceilings, otherwise the fastest allowed. -/
def chooseLevel (s : State) (die : Nat) (ceilings : List (Nat × Table)) : Nat :=
  let lo := fastLevel s die
  let hi := slowLevel s die
  let ok (l : Nat) : Bool :=
    decide (10 * s.tally.demand.getD (die - 2) 0 ≤ 8 * slotRate s l) &&
    decide (10 * reservedSlots s die (fun c => c.given) ≤ 9 * slotRate s l) &&
    ceilings.all fun c => ceilingMet s c.2 c.1 l
  carried s ((((List.range (hi + 1 - lo)).map fun k => hi - k).find? ok).getD lo)

/-! Standing charges (R339, R342, R345) -/

/-- A frond that draws power: present, not lost, its rail not taken off for service. -/
def powered (s : State) (die : Nat) : Bool := present s die && !(frond s die).lost && !(frond s die).svcOut

/-- A repair, a fence or a retire is using a pan (R358). -/
def panBusy (s : State) (die pan : Nat) : Bool :=
  (frond s die).arr.repairing.any (fun e => e.1 / 8192 == pan) || ((frond s die).panOp.map fun o : PanOp => o.pan) == some pan

/-- A pan's age has run out: it would rest in Retention (R358). -/
def panAged (s : State) (die pan : Nat) (u : PanUse) : Bool :=
  (fpwrCtl s die).getLsbD 3 && decide (u.epoch + (reg s (diePage die 0x23 + 0x40)).toNat ≤ s.tally.epoch) && !u.waking &&
    !panBusy s die pan

/-- Standing charge of a frond at a level and a state with a number of pans Idle; free, spare and dead pans rest in Retention. -/
def frondStanding (s : State) (level state idle : Nat) : Nat :=
  let pans := idle * standing s 4 0 + (544 - idle) * standing s 5 0
  match state with
  | 0 => standing s 0 level + pans
  | 1 => standing s 1 level + pans
  | 2 => standing s 2 0
  | _ => standing s 3 0

/-- State that the tally would choose for a frond with no ceiling (R345, R356). -/
def freeState (s : State) (die : Nat) : Nat := s.tally.want.getD (die - 2) 0

/-- The kept ceilings, with their tables. -/
def keptCeilings (s : State) : List (Nat × Cov × Table) := (tableCovs s 5).filter fun c => !c.2.1.breach

/-- A ceiling alone would hold a frond faster, or in a shallower state, than the tally's choice without ceilings. -/
def needsFrond (s : State) (die : Nat) (c : Nat × Cov × Table) : Bool :=
  tableOn s c.2.2 die &&
    (decide (chooseLevel s die [(c.2.1.amount, c.2.2)] < chooseLevel s die []) || decide (0 < freeState s die))

/-- Pans of a frond that a ceiling's table holds Idle, where they would rest in Retention without it: their age has run out, or the
tally would have the frond in Moss or Spore, whose pans are in retention (R345, R358). -/
def heldPansAt (s : State) (die : Nat) (ts : List Table) : Nat :=
  ((frond s die).arr.awake.filter fun e : Nat × PanUse =>
    (ts.any fun t => inRange t (baseDie s die) e.1) && (panAged s die e.1 e.2 || decide (2 ≤ freeState s die))).length

/-- Standing charge, without pans held Idle, of the level and state that a frond holds. -/
def heldStanding (s : State) (die : Nat) : Nat := frondStanding s (frond s die).level (frond s die).dstate 0

/-- Standing charge, without pans held Idle, of the level and state that the tally would choose for a frond with no ceiling. -/
def freeStanding (s : State) (die : Nat) : Nat := frondStanding s (chooseLevel s die []) (freeState s die) 0

/-- A frond's part of the base charge: the level, the state and the Idle pans that it holds in this epoch, less what the kept
ceilings cause (R339, R345). -/
def frondBase (s : State) (die : Nat) : Nat :=
  let f := frond s die
  let cs := keptCeilings s
  let pans := f.arr.awake.length - heldPansAt s die (cs.map fun c => c.2.2)
  let part := if cs.any (needsFrond s die) then heldStanding s die - freeStanding s die else 0
  frondStanding s f.level f.dstate pans - part

/-- A hub's part of the base charge: the state and level it holds. -/
def hubBase (s : State) (h : Nat) : Nat :=
  standing s 8 0 + (if s.tally.hubDoze.getD h false then standing s 7 0 else standing s 6 (s.tally.hubLevel.getD h 0))

/-- The base charge of an epoch, without what ceilings cause (R339). -/
def baseCharge (s : State) : Nat :=
  ((frondDies s).filter (powered s)).foldl (fun n d => n + frondBase s d) 0 + (hubs s).foldl (fun n h => n + hubBase s h) 0

/-- The row scrubber's charge for an epoch (R293): its rows, and a wake for each pan in Retention, spread over the period. -/
def scrubCharge (s : State) : Nat :=
  ((frondDies s).filter (powered s)).foldl (fun n d =>
    let l := (frond s d).level
    let period := max 1 (reg s (diePage d 0x21 + 0x40)).toNat
    n + (4456448 * opCost s opScrub l + (544 - (frond s d).arr.awake.length) * opCost s opWake l) / (10000 * period)) 0

/-- Envelope less derating, as energy of an epoch, pJ (R338). -/
def epochBudget (s : State) (derateMw : Nat) : Nat :=
  ((reg s (globalPage 1 + 0x40)).toNat * 1000 - derateMw) * 100000

/-- Foreground budget at a derating (R339). -/
def foreground (s : State) (derateMw : Nat) : Nat := epochBudget s derateMw - s.tally.base - scrubCharge s

/-! Keep costs (R345) -/

/-- What a set of ceilings needs of one frond: the standing charge of the level they need, in D0. -/
def ceilingStanding (s : State) (cs : List (Nat × Cov × Table)) (die : Nat) : Nat :=
  frondStanding s (chooseLevel s die ((cs.filter fun c => tableOn s c.2.2 die).map fun c => (c.2.1.amount, c.2.2))) 0 0

/-- Pans of a table's ranges that its ceilings hold Idle. -/
def heldPans (s : State) (t : Table) : Nat :=
  t.fronds.foldl (fun n f => (copies s f.die).foldl (fun n d => n + heldPansAt s d [t]) n) 0

/-- Keep cost of one ceiling among a set of ceilings that hold each frond at a standing charge, pJ per epoch (R345). -/
def keepCost (s : State) (under : Nat → Nat) (cs : List (Nat × Cov × Table)) (c : Nat × Cov × Table) : Nat :=
  let same := (cs.filter fun x => x.2.1.object == c.2.1.object).length
  heldPans s c.2.2 * (standing s 4 0 - standing s 5 0) / max same 1 +
    ((frondDies s).filter (powered s)).foldl (fun n d =>
      if needsFrond s d c then n + (under d - freeStanding s d) / max (cs.filter (needsFrond s d)).length 1 else n) 0

/-! Energy of covenants (R325, R346) -/

/-- Energy of a rate per epoch: M searches/s for 100 µs at the table's predicted search cost. -/
def rateEnergy (s : State) (t : Table) (rate : Nat) : Nat := rate * 100 * searchCost s t 1

/-- One claim on a resource: covenant, order of giving (Table 9.1: 0 rates, 1 ceilings, 2 pressure work, 3 shares), priority,
amount wanted and given. -/
structure Claim where
  id : Nat
  order : Nat
  prio : Nat
  want : Nat
  given : Nat
deriving DecidableEq, Repr

/-- A claim of a covenant, as yet given in full. -/
def claim (id order prio want : Nat) : Claim := ⟨id, order, prio, want, want⟩

/-- The claims on the foreground budget, rate covenants at the rates that f gives. Pressure work takes its place without a covenant
(ID 256). -/
def energyClaimsAt (s : State) (pressure : Nat) (f : Cov → Nat) : List Claim :=
  let cs := tableCovs s 5
  (tableCovs s 3).map (fun c => claim c.1 0 c.2.1.prio (rateEnergy s c.2.2 (f c.2.1))) ++
  cs.map (fun c => claim c.1 1 c.2.1.prio (keepCost s (ceilingStanding s cs) cs c)) ++
  [claim 256 2 0 pressure] ++
  (s.covs.filter fun e : Nat × Cov => e.2.kind == 6).map fun e => claim e.1 3 e.2.prio (e.2.amount * 1000000)

/-- The claims of a resolution, which starts from the full amounts (R334). -/
def energyClaims (s : State) (pressure : Nat) : List Claim := energyClaimsAt s pressure fun c => c.amount

/-! Resolution (R328) -/

/-- The claims of one order and priority. -/
def inGroup (o p : Nat) (c : Claim) : Bool := c.order == o && c.prio == p

/-- Total given. -/
def givenSum (cs : List Claim) : Nat := cs.foldl (fun n c => n + c.given) 0

/-- A group gives up an amount, pro rata. -/
def cutGroup (cs : List Claim) (o p take : Nat) : List Claim :=
  let tot := givenSum (cs.filter (inGroup o p))
  cs.map fun c => if inGroup o p c then { c with given := c.given - (take * c.given + tot - 1) / tot } else c

/-- Shortfall taken from the groups in breach order: highest order first, lowest priority first. -/
def cutGroups (cs : List Claim) (short : Nat) : List (Nat × Nat) → List Claim
  | [] => cs
  | (o, p) :: t =>
    let take := min short (givenSum (cs.filter (inGroup o p)))
    if take = 0 then cutGroups cs short t else cutGroups (cutGroup cs o p take) (short - take) t

/-- Resolve claims against a supply. -/
def resolveClaims (supply : Nat) (cs : List Claim) : List Claim :=
  cutGroups cs (givenSum cs - supply) ([3, 2, 1, 0].flatMap fun o => (List.range 16).map fun p => (o, p))

/-- What a resolution gives a covenant: amount given and wanted. -/
def givenOf (cs : List Claim) (id : Nat) : Nat × Nat :=
  ((cs.find? fun c => c.id == id).map fun c => (c.given, c.want)).getD (0, 0)

/-- 60 % of a hub's DDR5 peak, MB/s (R325): each populated channel at its rate in force. -/
def bwLimit (s : State) (hub : Nat) : Nat :=
  match s.mem.pop.getD hub none with
  | some p =>
    let full := if p.dimms.toNat = 2 then 5600 else 6400
    let chans := if p.channels.toNat = 3 then [0, 2, 4] else [0, 1, 2, 3, 4, 5]
    chans.foldl (fun n c => n + (if s.mem.rate.getD (6 * hub + c) 0 = 1 then 4800 else full) * 8) 0 * 6 / 10
  | none => 0

/-- Rates that a frond's slots allow, as claims in M slots/s resolved at the fastest level allowed. -/
def frondRates (s : State) (die : Nat) : List Claim :=
  let cs := ((tableCovs s 3).filter fun c => tableOn s c.2.2 die).map fun c =>
    claim c.1 0 c.2.1.prio (c.2.1.amount * slotsOfSearch c.2.2 1)
  resolveClaims (if frondServes s die then 9 * slotRate s (fastLevel s die) / 10 else 0) cs

/-- The dies a table is served on. -/
def servingDies (s : State) (t : Table) : List Nat := t.fronds.map fun f => serveDie s f.die

/-- The rate of a covenant that its table's fronds allow, M searches/s. -/
def slotRateGiven (s : State) (id : Nat) (c : Cov) (t : Table) : Nat :=
  (servingDies s t).foldl (fun n d => min n ((givenOf (frondRates s d) id).1 / slotsOfSearch t 1)) c.amount

/-- Reason of a shortfall of slots: a lost frond, the thermal caps, otherwise the settings. -/
def slotReason (s : State) (t : Table) : Nat :=
  if (servingDies s t).any fun d => !frondServes s d then 6 else if 2 ≤ s.tally.therm then 2 else 1

/-- Reason of an energy breach (R340): 2 when the shortfall would not exist with DERATE at 0. -/
def energyReason (s : State) (wanted : Nat) : Nat :=
  if 0 < s.tally.derate && wanted ≤ foreground s 0 - s.tally.repairs then 2 else 1

/-- What the resolution of the foreground budget gives. -/
def energyGiven (s : State) : List Claim :=
  resolveClaims (s.tally.g - s.tally.repairs) (energyClaims s s.tally.pressure)

/-- What a covenant in breach is short of, for R327: energy, or slots of a frond. -/
def lacks (s : State) (id : Nat) (energy slots : Bool) : State := modCov s id fun c => { c with lackE := energy, lackS := slots }

/-- A covenant is given an amount in its kind's unit (R332). -/
def settleCov (s : State) (id : Nat) (c : Cov) (given reason : Nat) : State :=
  if given < c.amount then covShort s id given (c.amount - given) reason else covFull s id c.amount

/-- The fronds of a table run, or will, at a level that meets a ceiling. -/
def ceilingHeld (s : State) (c : Cov) (t : Table) : Bool :=
  t.fronds.all fun f => ceilingMet s t c.amount (chooseLevel s (serveDie s f.die) [(c.amount, t)]) &&
    frondServes s (serveDie s f.die)

/-- Resolve one covenant of kinds 3 to 6 against what the foreground budget gives. -/
def resolveCov (s : State) (cs : List Claim) (reason : Nat) (id : Nat) (c : Cov) : State :=
  let (g, w) := givenOf cs id
  match c.kind with
  | 3 =>
    match tableIn s c.object with
    | some t =>
      let byEnergy := if w = 0 then c.amount else c.amount * g / w
      let bySlots := slotRateGiven s id c t
      let s := if min byEnergy bySlots < c.amount then lacks s id (decide (byEnergy < c.amount)) (decide (bySlots < c.amount)) else s
      settleCov s id c (min byEnergy bySlots) (if bySlots < byEnergy then slotReason s t else reason)
    | none => s
  | 4 =>
    let bw := resolveClaims (if serving s c.object then bwLimit s c.object else 0)
      ((s.covs.filter fun e : Nat × Cov => e.2.kind == 4 && e.2.object == c.object).map fun e => claim e.1 0 e.2.prio e.2.amount)
    settleCov s id c (givenOf bw id).1 6
  | 5 =>
    match tableIn s c.object with
    | some t =>
      if g < w then covShort (lacks s id true false) id c.given (c.given - c.amount) reason
      else if c.amount < c.given || !ceilingHeld s c t then
        covShort (lacks s id false false) id c.given (c.given - c.amount) (slotReason s t)
      else covFull s id c.given
    | none => s
  | 6 => settleCov (if g / 1000000 < c.amount then lacks s id true false else s) id c (g / 1000000) reason
  | _ => s

/-- Resolve every covenant on energy, rates, bandwidth and ceilings (R328, R334): each run starts from the full amounts, so that
what is freed returns in the reverse of the breach order. -/
def covResolve (s : State) : State :=
  let cs := energyGiven s
  let reason := energyReason s (cs.foldl (fun n c => n + c.want) 0)
  s.covs.foldl (fun s (e : Nat × Cov) => resolveCov s cs reason e.1 e.2) s

/-- Resolve every covenant after a change of what they draw on. -/
def resolveAll (s : State) (reason : Nat) : State := covResolve (roomResolve s reason)

/-- Guarantee of a seat for an epoch, pJ (R346): its shares as given, and the energy of its rate covenants at their given rates. -/
def guarantee (s : State) (seat : Nat) : Nat :=
  s.covs.foldl (fun n (e : Nat × Cov) =>
    if e.2.seat = seat then
      (match e.2.kind with
       | 3 => match tableIn s e.2.object with
         | some t => n + rateEnergy s t e.2.given
         | none => n
       | 6 => n + e.2.given * 1000000
       | _ => n)
    else n) 0

/-! Admission (R325, R327) -/

/-- What the energy covenants need together: shares and keep costs whole, rate covenants at their given rates (R325, R346). -/
def energyDemand (s : State) : Nat := (energyClaimsAt s 0 fun c => c.given).foldl (fun n c => n + c.want) 0

/-- The amount lies within the admission limit of Table 8.6, in the state where the covenant is already entered. -/
def covAdmits (s : State) (c : Cov) : Bool :=
  match c.kind with
  | 2 => match tableIn s c.object with
    | some t => decide (c.amount ≤ tableRoom s t)
    | none => false
  | 3 => match tableIn s c.object with
    | some t => (servingDies s t).all fun d =>
        decide (10 * reservedSlots s d (fun x => x.amount) ≤ 9 * slotRate s (bits (fpwrCtl s d) 11 9))
    | none => false
  | 4 => decide ((s.covs.filter fun e : Nat × Cov => e.2.kind == 4 && e.2.object == c.object).foldl
      (fun n e => n + e.2.amount) 0 ≤ bwLimit s c.object)
  | _ => decide (energyDemand s ≤ s.tally.g)

/-- Two tables in service share a frond. -/
def shareFrond (s : State) (a b : Nat) : Bool :=
  match tableIn s a, tableIn s b with
  | some t, some u => t.fronds.any fun f => (slotOfDie u f.die).isSome
  | _, _ => false

/-- A covenant draws on the resource that a covenant in breach is short of: energy, which kinds 3, 5 and 6 draw on, slots of a frond,
which rate covenants of its tables draw on, a table's room, a hub's bandwidth (R327). -/
def sameResource (s : State) (a b : Cov) : Bool :=
  a.lackE && (b.kind == 3 || b.kind == 5 || b.kind == 6) ||
    a.kind == 3 && b.kind == 3 && a.lackS && shareFrond s a.object b.object ||
    (a.kind == 2 || a.kind == 4) && a.kind == b.kind && a.object == b.object

/-- A new covenant, or an increased amount, draws on a resource on which a breach is in progress. -/
def drawsBreach (s : State) (id : Nat) (c : Cov) : Bool :=
  let more := match mget s.covs id with
    | some o => !(o.kind == c.kind && o.object == c.object && decide (c.amount ≤ o.amount))
    | none => true
  more && s.covs.any fun e : Nat × Cov => e.2.breach && sameResource s e.2 c

/-- A covenant leaves: a breach in progress ends with a flag (R333). -/
def dropCov (s : State) (id flag : Nat) : State :=
  let s := covEnd s id flag
  { s with covs := mdel s.covs id }

end Sys2Proof.Machine
end

