-- ==== Sys2Proof/Machine/Seats.lean ====
section
/-!
DEFINITION. Host links, logical devices and seats: training and loss, binding, attaching, sessions' ends, the steward role, and
detaching (R187 to R196, R302 to R311, R443 to R445).
-/
namespace Sys2Proof.Machine

/-! Sessions and the steward role (R308, R311, R316) -/

/-- A seat's session ends (R316). -/
def endSession (s : State) (n : Nat) : State :=
  match (mget s.seats n).bind fun x => x.session with
  | some _ =>
    let s := modSeat s n fun x => { x with session := none }
    if s.steward.holder = some n then { s with steward := { s.steward with idleFrom := nowNs s } } else s
  | none => s

/-- Every session ends (R426, R432). -/
def endSessions (s : State) : State := (s.seats.map fun e : Nat × Seat => e.1).foldl endSession s

/-- Ownerless tables and keys pass to the steward (R306, R307). -/
def adoptOwnerless (s : State) : State :=
  match s.steward.holder with
  | some n =>
    { s with
      tables := s.tables.map fun e : Nat × Table => if e.2.owner.isNone then (e.1, { e.2 with owner := some n }) else e
      keys := s.keys.map fun e : Nat × KeySlot => if e.2.owner.isNone then (e.1, { e.2 with owner := some n }) else e }
  | none => s

/-- The steward role passes to a seat: 0 by claim, 1 by take, 2 by handover; STEWARD_CHANGED goes to every seat and to the
sideband (R311). -/
def setSteward (s : State) (n how : Nat) : State :=
  let old := s.steward.holder.getD 0xFF
  let s := { s with steward := { s.steward with holder := some n, idleFrom := nowNs s } }
  event (adoptOwnerless s) 0x6004 0 0xFF n [(1, old), (1, n), (1, how)] .everySeat

/-- The loaded secret slot of a place (R309). -/
def secretSlot (s : State) (p : Place) : Option (Nat × Secret) := s.store.secrets.find? fun e => e.2.place == p

/-- A seat is eligible for the steward role: the slot of its place carries the flag (R309). -/
def eligible (s : State) (n : Nat) : Bool :=
  match (seatPlace s n).bind (secretSlot s) with
  | some (k, x) => x.steward || k == 0
  | none => false

/-! Attaching (R302 to R304, R444, R445) -/

/-- The boot extent of a secret slot for a seat; not made where R221 would refuse it. -/
def bootExtent (s : State) (slot seat : Nat) : State :=
  let base := 0x7FFF - slot
  let n := s.extents.length + 1
  if mhas s.extents base || decide (s.mem.blocks < n) || decide (capRatio s * capP s < 16 * (65536 * n)) then s
  else
    addExtents s
      [{ base := BitVec.ofNat 15 base, seats := [(BitVec.ofNat 6 seat, true)], db := true, key := none, policy := 0 }] true

/-- The boot extents that a seat at a place gets. -/
def bootExtents (s : State) (p : Place) (seat : Nat) : State :=
  s.store.secrets.foldl (fun s (e : Nat × Secret) =>
    if e.2.place = p && (e.2.steward || e.1 == 0) then bootExtent s e.1 seat else s) s

/-- Return a page's registers to their reset values. -/
def resetPage (s : State) (base : Nat) : State :=
  let s := resetLatches (dropStaged s base) base
  modRegs s fun g => { g with
    file := g.file.filter fun e => pageBase e.1 != base
    guards := g.guards.filter fun e => pageBase (e.1 % 2 ^ 32) != base
    mgmt := g.mgmt.filter fun e => pageBase e.1 != base
    sig := mdel g.sig base
    armed := g.armed.filter (· != base) }

/-- A seat that has just attached. -/
def seatNew (p : Place) : Seat :=
  { place := p, detach := .none, cause := 0, surprise := false, left := [], session := none, nonce := none, spentTotal := 0,
    spent := 0, g := 0, specOff := false, denied := (0, 0), poisoned := (0, 0) }

/-- A bound logical device with CXL.mem enabled becomes a seat, where a number is free (R302, R304); before stage 0x0B it waits
(R444). -/
def attachIf (s : State) (p : Place) : State :=
  let l := ld s p
  if !(started s && l.bound && l.memEn && placeUp s p && (link s (portOf p) (linkOf p)).cxl) || l.seat.isSome then s
  else match (List.range 64).find? fun n => !mhas s.seats n with
    | none => event s 0x6002 1 0xFF 0xFF [(2, p.toNat)] .steward
    | some n =>
      let s := resetPage { s with seats := mput s.seats n (seatNew p) } (mgmtPage n)
      let s := modLd s p fun l => { l with seat := some n }
      bootExtents (event s 0x6001 0 0xFF n [(2, p.toNat)] .steward) p n

/-! Detaching (R305, R306, R336) -/

/-- The rings a seat holds. -/
def seatRings (s : State) (n : Nat) : List Nat :=
  (s.rings.filter fun e : Nat × Ring => e.2.holder == some n).map fun e => e.1

/-- A submission carries a rake move that runs or waits. -/
def isMove (s : State) (u : Sub) : Bool :=
  s.fronds.any fun f => (f.move.toList ++ f.moves).any fun m => m.sub == u.id

/-- Complete the fetched submissions of a ring that have not started with SEAT_DETACHING (R136): an atomic whose line is asked for has
started, and so has a TABLE_DESTROY under way, which ends with CMD_DONE (DESIGN CHOICE, log 27). -/
def dropFetched (s : State) (r : Nat) : State :=
  (((mget s.rings r).map fun x : Ring => x.subs).getD []).foldl (fun s u =>
    if unstarted u && !u.asked then finish s r u stSeatDetaching 0 else s) s

/-- Take the next submission of a detaching ring, whose slots no host holds, and complete it with SEAT_DETACHING, or POISONED for a
poisoned slot (R136, R286): the state and whether one was taken. -/
def takeRefused (s : State) (n head avail : Nat) : State × Bool :=
  let s := meetRegion s (ringSeat s n) (slotAddr s n head) 32
  let bad := slotPoison s n head
  let k := if bad then 1 else slotsOf (devRead s (slotAddr s n head) 1)
  if avail < k then (s, false)
  else
    let u := newSub s n 0 1 (BitVec.ofNat 16 (if bad then head else devRead s (slotAddr s n head + 2) 2)) 0 bad
    (finish (takeSub s n k u) n u (if bad then stPoisoned else stSeatDetaching) 0, true)

/-- A detaching ring has a slot that it would still fetch and a free entry for it: it is enabled, and neither stopped nor lost (R100,
R111, R136, R138, R287). -/
def drainable (s : State) (n : Nat) (r : Ring) : Bool :=
  ringEn s n && ringReadyBit s n && !r.closing && !r.overrun && r.stopped.isNone && !r.lost && r.sqTail != r.sqHead &&
    freeEntries s r n != 0 && !slotCut s n r.sqHead.toNat

/-- What the next slot of a detaching ring meets in the hosts. -/
def drainNeed (s : State) (n : Nat) (r : Ring) : Option State := needRegion s (slotAddr s n r.sqHead.toNat) 32 true

/-- Fetch the next submission of a detaching ring and complete it, in a free entry (R136): the state and whether one was taken. -/
def takeDetaching (s : State) (n : Nat) (r : Ring) : State × Bool :=
  if !drainable s n r then (s, false)
  else match drainNeed s n r with
    | some s' => (s', false)
    | none => takeRefused s n r.sqHead.toNat (r.sqTail - r.sqHead).toNat

/-- A detaching ring waits for a host before it can fetch its next slot. -/
def drainWaits (s : State) (n : Nat) : Bool :=
  ((mget s.rings n).map fun r => drainable s n r && (drainNeed s n r).isSome).getD false

/-- Drain the unfetched slots of a detaching ring, at most k submissions. -/
def drainRing (n : Nat) : Nat → State → State
  | 0, s => s
  | k + 1, s =>
    match mget s.rings n with
    | some r =>
      let (s, go) := takeDetaching s n r
      if go then drainRing n k s else s
    | none => s

/-- Drain a detaching ring as far as its entries allow. -/
def drainAll (s : State) (n : Nat) : State :=
  match mget s.rings n with
  | some r => drainRing n (r.sqTail - r.sqHead).toNat s
  | none => s

/-- Stop a detaching seat's bulk loads, snapshots and statistics, each completing with SEAT_DETACHING (R306). -/
def stopJobs (s : State) (n : Nat) : State :=
  (s.jobs.filter fun e : Nat × Job => e.2.seat == n).foldl (fun s e =>
    jobOver s e.1 e.2 stSeatDetaching (match e.2.kind with | .load => e.2.done | _ => 0)
      (jobCost s e.2)) s

/-- The queued moves of some rings, which no half runs yet: a move starts when it leaves the queue (R169). -/
def queuedMoves (s : State) (rs : List Nat) : List Move :=
  (s.fronds.flatMap fun f => f.moves).filter fun m =>
    ((m.ring.map rs.contains).getD false) && !(s.fronds.any fun f => (f.move.map fun x => x.sub) == some m.sub)

/-- The queued moves of a detaching seat's rings have not started: they leave the queue and complete with SEAT_DETACHING (R136,
R169). -/
def dropQueued (s : State) (rs : List Nat) : State :=
  let out := queuedMoves s rs
  let s := { s with fronds := s.fronds.map fun f => { f with moves := f.moves.filter fun m => !(out.any fun x => x.sub == m.sub) } }
  out.foldl (fun s m => moveOver s m stSeatDetaching 0) s

/-- A seat begins to detach, with the cause of Table 11.9: marked, its session ended, its waiting work refused (R306 steps 1
and 2). -/
def beginDetach (s : State) (n cause : Nat) : State :=
  match mget s.seats n with
  | some x =>
    if x.detach != .none then s
    else
      let up := placeUp s x.place
      let s := endSession s n
      let s := modSeat s n fun x =>
        { x with detach := .draining, cause := BitVec.ofNat 8 cause, surprise := !up, nonce := none }
      let rs := seatRings s n
      let s := rs.foldl (fun s r => modRing s r fun q => { q with detaching := true }) s
      let s := stopJobs (dropQueued (rs.foldl dropFetched s) rs) n
      rs.foldl drainAll s
  | none => s

/-- A ring of a detaching seat has nothing left to complete but its rake moves. -/
def ringDrained (s : State) (r : Nat) : Bool :=
  match mget s.rings r with
  | some x => x.subs.all (isMove s) && x.owed.isEmpty
  | none => true

/-- Every line a seat's host may hold: line and home. -/
def seatLines (s : State) (n : Nat) : List (Nat × Nat) :=
  s.coh.filt.filterMap fun e =>
    if (holders s (e.1 / 2) (e.1 % 2)).contains n then some (e.1 / 2, e.1 % 2) else none

/-- Back-invalidate every line a seat's host may hold (R306 step 3); where the entry does not name it exactly, every possible
holder is asked. No back-invalidate reaches a host whose link is down (R137). -/
def snoopSeat (s : State) (n : Nat) : State :=
  (seatLines s n).foldl (fun s x =>
    let all := ((mget s.coh.filt (hkey x.1 x.2)).map fun e : FiltEnt => e.all).getD false
    let asked := if all then liveHolders s x.1 x.2 else [n].filter (seatUp s)
    if mhas s.coh.txns (hkey x.1 x.2) || asked.isEmpty then s else openTxn s x.1 x.2 .device asked false) s

/-- Some answer of a seat's host is outstanding. -/
def seatOwes (s : State) (n : Nat) : Bool := s.coh.txns.any fun e : Nat × Txn => e.2.wait.contains n

/-- A seat's host is gone or has handed everything back: a link that is down is not waited for (R191). -/
def seatClean (s : State) (n : Nat) : Bool := (seatLines s n).isEmpty && !seatOwes s n

/-- MGMT.STAT of a seat. -/
def mailStat (n : Nat) : Nat := mgmtPage n + 0xC

/-- MGMT.STAT.BUSY. -/
def mailBusy (s : State) (n : Nat) : Bool := (reg s (mailStat n)).getLsbD 8

/-- Drain the rings of a detaching seat as far as their entries allow, slots that SQ_TAIL has passed since among them, and count what stays
unanswered (R136): the state, and whether everything that can be completed is. -/
def drainSeat (s : State) (n : Nat) : State × Bool :=
  let rs := seatRings s n
  let s := rs.foldl (fun s r => flush (drainAll s r) r) s
  let left := rs.map fun r => (r, ((mget s.rings r).map fun q : Ring => (q.sqTail - q.sqHead).toNat).getD 0)
  (modSeat s n fun x => { x with left := left.filter fun e => e.2 != 0 }, rs.all fun r => ringDrained s r && !drainWaits s r)

/-- DETACH_DRAIN_DONE (R306): the started work is complete and its completions written, and a mailbox
request accepted before is answered; then the lines of the seat's host are back-invalidated, or treated as R191 says after a
surprise link loss. -/
def execDetachDrainDone (seat : BitVec 6) (s : State) : Res :=
  let n := seat.toNat
  .next (match mget s.seats n with
    | some x =>
      if x.detach != .draining || mailBusy s n then s
      else
        let (s, ok) := drainSeat s n
        if ok && !(s.searches.any fun e : Nat × Search => e.2.seat == n && !e.2.ended) then
          let s := modSeat s n fun x => { x with detach := .snooping }
          if x.surprise || !placeUp s x.place then departSeat s n fun _ => true else snoopSeat s n
        else s
    | none => s)

/-- A ring returns to the free state: disabled, its submissions gone, its holder none; moves it started run on without it (R306,
R323, R402). -/
def freeRing (s : State) (r : Nat) : State :=
  let ids := ((mget s.rings r).map fun x : Ring => x.subs.map fun u => u.id).getD []
  let cut (m : Move) : Move := if ids.contains m.sub then { m with ring := none } else m
  let s := { s with fronds := s.fronds.map fun f => { f with move := f.move.map cut, moves := f.moves.map cut } }
  let a := ringPage r + 8
  let s := setReg s a (reg s a &&& 0xFFFE)
  let s := modRing s r fun x => { x with
    holder := none, armed := false, detaching := false, closing := false, subs := [], owed := [], revoke := none }
  resetLatches s (ringPage r)

/-- SEAT_DETACHED, in records of up to seven rings (R477). -/
def detachedEvents (s : State) (n : Nat) (x : Seat) : State :=
  let head : List (Nat × Nat) := [(2, x.place.toNat), (1, x.cause.toNat), (1, x.left.length)]
  let recs := (List.range (max 1 ((x.left.length + 6) / 7))).map fun i => (x.left.drop (7 * i)).take 7
  recs.foldl (fun s l =>
    event s 0x6003 0 0xFF n (head ++ l.flatMap fun e => [(2, e.1), (2, sat e.2 16)]) .steward) s

/-- Steps 4 to 7 of R306. -/
def finishDetach (s : State) (n : Nat) : State :=
  match mget s.seats n with
  | none => s
  | some x =>
  let exts := (s.extents.filter fun e : Nat × Extent => e.2.seats.any fun y => y.seat == n).map fun e => e.1
  let s := exts.foldl (fun s b => forceRelease s n b) s
  let s := (seatRings s n).foldl freeRing s
  let s := { s with tables := s.tables.map fun e : Nat × Table => (e.1, { e.2 with rights := mdel e.2.rights n }) }
  let s := if s.steward.holder = some n then { s with steward := { s.steward with holder := none } } else s
  let bound (k : Nat) : Bool := s.extents.any fun e : Nat × Extent => e.2.key == some k
  let s := { s with
    keys := (s.keys.filter fun e : Nat × KeySlot => e.2.owner != some n || bound e.1).map fun e : Nat × KeySlot =>
      if e.2.owner = some n then (e.1, { e.2 with owner := s.steward.holder }) else e
    tables := s.tables.map fun e : Nat × Table =>
      if e.2.owner = some n then (e.1, { e.2 with owner := s.steward.holder }) else e }
  let s := s.covs.foldl (fun s (e : Nat × Cov) => if e.2.seat = n then dropCov s e.1 flagDetached else s) s
  let s := detachedEvents s n x
  let s := if bits (reg s (globalPage 0xB + 0x40)) 5 0 = n then modRegs s fun g => { g with wshut := true } else s
  let s := modLd { s with seats := mdel s.seats n } x.place fun l =>
    { l with seat := none, memEn := if x.cause = 3 then false else l.memEn }
  resolveAll s 5

/-- DETACH_FINISH (R306): the back-invalidates are answered; extents, rings, rights, the role, keys, tables and covenants go, and the
number is free. -/
def execDetachFinish (seat : BitVec 6) (s : State) : Res :=
  let n := seat.toNat
  .next (match mget s.seats n with
    | some x =>
      if x.detach == .snooping && !(s.rings.any fun e : Nat × Ring => e.2.revoke == some n) then
        let (s, ok) := drainSeat s n
        if !ok then s
        else if seatClean s n then finishDetach s n
        else if placeUp s x.place then snoopSeat s n
        else
          let s := departSeat s n fun _ => true
          if seatClean s n then finishDetach s n else s
      else s
    | none => s)

/-- SEAT_LINK_GRACE_EXPIRE (R305): the seat's link has stayed down for SEATS.LINK_GRACE. -/
def execSeatLinkGraceExpire (seat : BitVec 6) (s : State) : Res :=
  .next (match seatPlace s seat.toNat with
    | some p => if placeUp s p then s else beginDetach s seat.toNat 3
    | none => s)

/-! Links (R187 to R195, R443) -/

/-- Place of a logical device of a link. -/
def placeOf (port l n : Nat) : Place := BitVec.ofNat 16 (8192 * port + 2048 * l + n)

/-- Lanes of each link of a split: the number of links and their width (R187). -/
def splitOf (m : BitVec 2) : Nat × Nat := if m = 0 then (1, 16) else if m = 1 then (2, 8) else (4, 4)

/-- The hub of a port. -/
def portHub (port : Nat) : Nat := port / 3

/-- The port exists on this part. -/
def portHere (s : State) (port : Nat) : Bool := decide (port < 6) && present s (portHub port)

/-- A host port may train (R443): group 4 is enabled for its hub and its supplies good, PERST_N is high, its balls are released, and
it is up. A start-up that has stopped shows the host what stage 0x07 does (Table 12.3). -/
def portTrains (s : State) (port : Nat) : Bool :=
  let h := portHub port
  portHere s port && (decide (0x07 ≤ s.boot.stage.toNat) && decide (s.boot.stage.toNat ≤ 0x0B) || s.boot.stage == 0x7E) &&
    s.pins.enIo.getD h false && s.pins.pgIo.getD h false && s.pins.perst.getD port false &&
    !s.pins.heldPort.getD port true && ((s.ports[port]?).map fun x => x.st) == some .up &&
    !(inPair s && started s && s.pkg.half.getD h .out == .out) && !s.clock.refLost && s.pins.straps.testMode != 1

/-- Logical devices of a port that are bound (R194). -/
def portBound (s : State) (port : Nat) : Nat :=
  (s.lds.filter fun e : Nat × Ld => e.2.bound && e.1 / 8192 == port).length

/-- A logical device is unbound: its seat begins to detach (R305). -/
def dropLd (s : State) (p : Place) : State :=
  let s := modLd s p fun l => { l with bound := false, memEn := false }
  match seatOf s p with
  | some n => beginDetach s n 1
  | none => s

/-- A link attached directly to a host carries LD 0 alone: others that were bound are not any more, and LD 0 is bound where its port
has fewer than 16 (R194, R302). -/
def directLd (s : State) (port l : Nat) : State :=
  let s := (List.range 15).foldl (fun s k =>
    if (ld s (placeOf port l (k + 1))).bound then dropLd s (placeOf port l (k + 1)) else s) s
  let p := placeOf port l 0
  if (ld s p).bound || decide (portBound s port < 16) then modLd s p fun x => { x with bound := true } else s

/-- HOST_LINK_TRAINING (R188, R189, R194, R302): the link comes up at a rate and width of Table 5.1 within its split, with 256-byte flits
at 64 GT/s and elsewhere where the partner supports them; a partner that does not agree to CXL leaves a PCIe endpoint and raises
HPORT_NOT_CXL. Behind a port-based-routing fabric the head has a port ID (R197). -/
def execHostLinkTraining (port : BitVec 3) (l : BitVec 2) (rate : BitVec 3) (width : BitVec 5) (cxl : Bool)
    (partner : Partner) (s : State) : Res :=
  let p := port.toNat
  let split := splitOf (((s.ports[p]?).map fun x => x.bifMode).getD 0)
  .next (if portTrains s p && decide (l.toNat < split.1) && [1, 2, 4, 8, 16].contains width.toNat &&
      decide (width.toNat ≤ split.2) && decide (2 ≤ rate.toNat) && decide (rate.toNat ≤ 5) && !(link s p l.toNat).up then
    let s := modLink s p l.toNat fun x => { x with
      up := true, rate := rate, width := width, cxl := cxl, sw := partner.sw, pwr := .l0,
      flit256 := partner.flit256 || rate == 5, pid := partner.pid }
    if !cxl then event s 0x3001 1 0xFF 0xFF [(2, (placeOf p l.toNat 0).toNat)] .steward
    else if partner.sw then s else directLd s p l.toNat
  else s)

/-- The seats whose place lies on a link. -/
def linkSeats (s : State) (port l : Nat) : List Nat :=
  (s.seats.filter fun e : Nat × Seat => portOf e.2.place == port && linkOf e.2.place == l).map fun e => e.1

/-- A link goes down: what its seats' hosts held in S falls, what they held in A is poisoned at its home; requests already delivered
complete inside (R191). -/
def linkLoss (s : State) (port l : Nat) : State :=
  if (link s port l).up then
    let s := modLink s port l fun x => { x with up := false, downTb := s.clock.tb }
    (linkSeats s port l).foldl (fun s n => departSeat s n fun _ => true) s
  else s

/-- HOST_LINK_DOWN (R191). -/
def execHostLinkDown (port : BitVec 3) (l : BitVec 2) (s : State) : Res := .next (linkLoss s port.toNat l.toNat)

/-- IDE_CHECK_FAIL (R193): treated as a link that has gone down. -/
def execIdeCheckFail (port : BitVec 3) (l : BitVec 2) (s : State) : Res := .next (linkLoss s port.toNat l.toNat)

/-- IDE_KEY_MANAGEMENT (R193): a key of the link's stream or of one of its four selective streams, in containment or skid mode, inside an
SPDM secure session. -/
def execIdeKeyManagement (p : Place) (stream : BitVec 3) (key : IdeStream) (s : State) : Res :=
  .next (if wireUp s p && (ld s p).spdm.secure && decide (stream.toNat ≤ 4) then
    modLink s (portOf p) (linkOf p) fun l => { l with ide := mput l.ide stream.toNat key }
  else s)

/-- Bind a logical device behind a switch: refused beyond 16 on its port or 64 seats (R194, R195). -/
def bindLd (s : State) (p : Place) : State × Bool :=
  let k := link s (portOf p) (linkOf p)
  if placeOk s p && k.up && k.cxl && k.sw && !(ld s p).bound && decide (portBound s (portOf p) < 16) &&
      decide (s.seats.length < 64) then
    (attachIf (modLd s p fun l => { l with bound := true }) p, true)
  else (s, false)

/-- Unbind a logical device behind a switch (R196, R305). -/
def unbindLd (s : State) (p : Place) : State × Bool :=
  if (ld s p).bound && (link s (portOf p) (linkOf p)).sw then (dropLd s p, true) else (s, false)

/-- The steward has granted a seat something that an unbind would end: an extent, a ring, a right to a table, or a covenant (R196, R321, R326). -/
def grantedTo (s : State) (n : Nat) : Bool :=
  s.extents.any (fun e => e.2.granted && e.2.seats.any fun x => x.seat == n) ||
    s.rings.any (fun e => e.2.holder == some n) || s.tables.any (fun e => mhas e.2.rights n) || s.covs.any fun e => e.2.seat == n && e.2.kind != 1

/-- A command of an external fabric manager: refused unless delegated (R196), otherwise done and answered. -/
def fmDo (s : State) (src : FmSource) (opcode : Nat) (f : State → State × Bool) : State :=
  if !delegated s then fmRefuse s src opcode
  else
    let (s, ok) := f s
    send s (.fmAnswer ok)

/-- MLD_PORT_BIND (R196). The opcodes are CXL's (PRESUMED, log 18). -/
def execMldPortBind (src : FmSource) (p : Place) (s : State) : Res := .next (fmDo s src 0x5201 fun s => bindLd s p)

/-- MLD_PORT_UNBIND (R196, R305) from an external fabric manager: one that would end what the steward granted is refused. -/
def execMldPortUnbind (src : FmSource) (p : Place) (s : State) : Res :=
  .next (if ((seatOf s p).map (grantedTo s)).getD false then fmRefuse s src 0x5202 else fmDo s src 0x5202 fun s => unbindLd s p)

/-- CXL_MEM_ENABLE_SET (R302). -/
def execCxlMemEnableSet (p : Place) (s : State) : Res :=
  .next (if placeUp s p && (link s (portOf p) (linkOf p)).cxl && (ld s p).bound then
    attachIf (modLd s p fun l => { l with memEn := true }) p
  else s)

/-- CXL_MEM_ENABLE_CLEAR (R305). -/
def execCxlMemEnableClear (p : Place) (s : State) : Res :=
  .next (if placeUp s p && (ld s p).memEn then
    let s := modLd s p fun l => { l with memEn := false }
    match seatOf s p with
    | some n => beginDetach s n 0
    | none => s
  else s)

end Sys2Proof.Machine
end

