-- ==== Sys2Proof/Machine/Mailbox.lean ====
section
/-!
DEFINITION. The management mailbox: requests and responses (R318, R319), sessions, secrets and the steward role, grants, covenants, keys
and table owners; SPDM (R310 to R336).
-/
namespace Sys2Proof.Machine

/-! The frame of a request (R318, R319) -/

/-- Results of Table 8.3. -/
def mOk : Nat := 0x00
def mAuthFail : Nat := 0x01
def mSessionBad : Nat := 0x02
def mNotSteward : Nat := 0x03
def mBadRequest : Nat := 0x04
def mZeroLength : Nat := 0x05
def mLimit : Nat := 0x06
def mBusy : Nat := 0x07
def mNotAttached : Nat := 0x08
def mStewardHeld : Nat := 0x09
def mLocked : Nat := 0x0A
def mCovRefused : Nat := 0x0B
def mCovInBreach : Nat := 0x0C
def mUnwrapFail : Nat := 0x0D
def mBadBuffer : Nat := 0x0E
def mSeatDetaching : Nat := 0x0F

/-- A request code of Table 8.4: least and greatest BODYLEN, session needed, steward needed. -/
def mailCode (code : Nat) : Option (Nat × Nat × Bool × Bool) :=
  match code with
  | 0x01 => some (4, 4, false, false) | 0x02 => some (64, 64, false, false) | 0x03 => some (4, 4, true, false)
  | 0x10 => some (48, 48, true, true) | 0x18 => some (4, 4, true, false) | 0x19 => some (4, 4, true, true)
  | 0x20 => some (8, 8, true, true) | 0x21 => some (8, 8, true, true) | 0x28 => some (4, 4, true, true)
  | 0x30 => some (12, 12, true, true) | 0x31 => some (4, 4, true, true) | 0x32 => some (4, 4, true, false)
  | 0x38 => some (80, 80, true, true) | 0x40 => some (8, 224, true, true) | 0x48 => some (24, 24, true, true)
  | _ => none

/-- MGMT.BUF of a seat. -/
def mailBuf (s : State) (n : Nat) : Nat := regWide s (mgmtPage n + 0x50) 4

/-- The buffer of a seat meets the conditions of R318. -/
def mailBufOk (s : State) (n : Nat) : Bool :=
  mailBuf s n % 512 == 0 && regionOk s n (mailBuf s n) 512 true

/-- Set MGMT.STAT: BUSY and RESULT; OVERRUN stands. -/
def setMailStat (s : State) (n : Nat) (busy : Bool) (result : Nat) : State :=
  setReg s (mailStat n) ((reg s (mailStat n) &&& 0x0200) ||| BitVec.ofNat 16 ((if busy then 256 else 0) + result % 256))

/-- The 256 bytes of a request. -/
def mailReq (s : State) (n : Nat) : List Nat := bytesOf 256 (devRead s (mailBuf s n) 256)

/-- A little-endian field of a byte list. -/
def byteField (b : List Nat) (o n : Nat) : Nat := ofBytes ((b.drop o).take n)

/-- Write a response (Table 8.2): CODE echoed, RESULT, BODYLEN and body; then BUSY clears and EVT.DONE is set (R318, R401). -/
def respond (s : State) (n code result : Nat) (body : List Nat) : State :=
  let b := bytesOf 2 code ++ [result, 0] ++ bytesOf 4 body.length ++ List.replicate 24 0 ++ body
  let s := devWrite s n (mailBuf s n + 256) (ofBytes b) 256
  setEvt (setMailStat s n false result) (mgmtPage n) 0

/-- A seat's buffer is homed on a hub that both cross links cut off from the management complex (Table 1.7): its requests end as for
a buffer that fails R318, with BAD_BUFFER and no response (DESIGN CHOICE, log 43). -/
def mailCut (s : State) (n : Nat) : Bool := regionCut s s.pkg.roleHub (mailBuf s n) 512

/-- The session and the MAC of a request are right (R315). -/
def mailMac (s : State) (n : Nat) (b : List Nat) : Bool :=
  match (mget s.seats n).bind fun x => x.session with
  | some ss =>
    ss.handle.toNat == byteField b 4 4 &&
      truncMac ss.km (b.take 8 ++ (b.drop 16).take (16 + byteField b 2 2)) == byteField b 8 8
  | none => false

/-- Steps 1 to 4 of R319: the first check that fails. -/
def mailCheck (s : State) (n code : Nat) (b : List Nat) : Option Nat :=
  match mailCode code with
  | some (lo, hi, sess, stew) =>
    let len := byteField b 2 2
    if len = 0 then some mZeroLength
    else if len < lo || hi < len then some mBadRequest
    else if detaching s n then some mSeatDetaching
    else if sess && !mailMac s n b then some mSessionBad
    else if stew && s.steward.holder != some n then some mNotSteward
    else none
  | none => some mBadRequest

/-- The answer of a request: its result and body, or none while it is not yet written. -/
abbrev Answer := State × Option (Nat × List Nat)

/-- A refusal: nothing changes. -/
def deny (s : State) (result : Nat) : Answer := (s, some (result, []))

/-- OK without a body. -/
def okay (s : State) : Answer := (s, some (mOk, []))

/-- Run the request of a code that waits in a seat's buffer: hosts that hold its lines are asked first, and what the device's read
of the request meets, it meets (R276); a buffer that no longer meets R318 gives BAD_BUFFER and no response; a request that reads as poison, or of an unknown code, is refused with BAD_REQUEST (ZERO_LENGTH without a body, R319). After the response, a second
part may follow. -/
def runMail (s : State) (n code : Nat) (f : State → List Nat → Answer) (after : State → List Nat → State) : State :=
  if !(mhas s.seats n && mailBusy s n) then s
  else if !mailBufOk s n || mailCut s n then setMailStat s n false mBadBuffer
  else if (s.rings.any fun e : Nat × Ring => e.2.revoke == some n) then s
  else match needRegion s (mailBuf s n) 256 true with
  | some s' => s'
  | none =>
    match needRegion s (mailBuf s n + 256) 256 false with
    | some s' => s'
    | none =>
      let s := meetRegion s n (mailBuf s n) 256
      let b := mailReq s n
      if regionPoison s (mailBuf s n) 256 then respond s n code mBadRequest []
      else if (mailCode (byteField b 0 2)).isNone then
        respond s n (byteField b 0 2) (if byteField b 2 2 = 0 then mZeroLength else mBadRequest) []
      else if byteField b 0 2 != code then s
      else match mailCheck s n code b with
        | some r => respond s n code r []
        | none =>
          let body := (b.drop 32).take (byteField b 2 2)
          match f s body with
          | (s, some (r, out)) =>
            if r = mOk then
              let s := if ((mailCode code).map fun c => c.2.2.1).getD false then touchSession s n else s
              after (respond s n code r out) body
            else respond s n code r out
          | (s, none) => touchSession s n

/-- Nothing follows the response. -/
def noAfter (s : State) (_ : List Nat) : State := s

/-! Sessions (R313 to R317) -/

/-- ASCII bytes of a label. -/
def label (s : String) : List Nat := s.toList.map fun c => c.toNat

/-- The place of a seat is locked out (R317). -/
def lockedOut (s : State) (p : Place) : Bool := s.steward.locked.contains p.toNat

/-- SESS_CHALLENGE (R313). -/
def sessChallenge (n : Nat) (s : State) (b : List Nat) : Answer :=
  match mget s.seats n with
  | some x =>
    if byteField b 0 1 != 1 then deny s mBadRequest
    else if lockedOut s x.place then deny s mLocked
    else
      let nd := freeNonce s.freeCtr
      (modSeat (fresh s) n fun x => { x with nonce := some (nd, nowNs s) }, some (mOk, key32 nd))
  | none => deny s mBadRequest

/-- SESS_CHALLENGE. -/
def execSessChallenge (seat : BitVec 6) (s : State) : Res :=
  .next (runMail s seat.toNat 0x01 (sessChallenge seat.toNat) noAfter)

/-- A refused proof: the eighth within 1 s locks the place out for 10 s and raises SESS_AUTH_FAIL (R317). -/
def failedProof (s : State) (n : Nat) (p : Place) : State :=
  let now := nowNs s
  let l := now :: ((mget s.steward.fails p.toNat).getD []).filter fun t => now < t + 1000000000
  if 8 ≤ l.length then
    let s := { s with steward := { s.steward with
      fails := mdel s.steward.fails p.toNat, locked := p.toNat :: s.steward.locked } }
    event s 0x6005 1 0xFF n [(2, p.toNat)] .steward
  else { s with steward := { s.steward with fails := mput s.steward.fails p.toNat l } }

/-- SESS_OPEN (R313, R314): it consumes the live nonce, whatever comes of it; the proof is verified and the session's handle and keys
made. -/
def sessOpen (n : Nat) (s : State) (b : List Nat) : Answer :=
  match mget s.seats n with
  | none => deny s mBadRequest
  | some x =>
    let s := modSeat s n fun x => { x with nonce := none }
    if lockedOut s x.place then deny s mLocked
    else match secretSlot s x.place with
      | none => deny s mAuthFail
      | some (_, sec) =>
        let nh := b.take 32
        let live := x.nonce.filter fun c => nowNs s ≤ c.2 + 1000000000
        let key := key32 sec.secret
        match live with
        | none => deny (failedProof s n x.place) mAuthFail
        | some (nd, _) =>
          let m := key32 nd ++ nh
          if hmac key (label "LLNO" ++ m ++ [n] ++ bytesOf 2 x.place.toNat) != b.drop 32 then
            deny (failedProof s n x.place) mAuthFail
          else
            let c := ((mget s.steward.opens n).getD 0 + 1) % 67108864
            let c := if n = 0 && c = 0 then 1 else c
            let h := (67108864 * n + c) % 2 ^ 32
            let s := endSession s n
            let ss : Session :=
              { handle := BitVec.ofNat 32 h, km := ofKey32 (hmac key (label "LLNM" ++ m)),
                kw := ofKey32 (hmac key (label "LLNW" ++ m)), last := s.clock.tb, opened := nowNs s }
            let s := modSeat s n fun x => { x with session := some ss }
            let s := { s with steward := { s.steward with opens := mput s.steward.opens n c } }
            (s, some (mOk, bytesOf 4 h ++ hmac key (label "LLND" ++ m ++ bytesOf 4 h)))

/-- SESS_OPEN. -/
def execSessOpen (seat : BitVec 6) (s : State) : Res := .next (runMail s seat.toNat 0x02 (sessOpen seat.toNat) noAfter)

/-- SESS_CLOSE: the body names the session's own handle. -/
def sessClose (n : Nat) (s : State) (b : List Nat) : Answer :=
  match mget s.seats n with
  | some x =>
    if lockedOut s x.place then deny s mLocked
    else if (x.session.map fun ss => ss.handle.toNat) != some (byteField b 0 4) then deny s mBadRequest
    else okay (endSession s n)
  | none => deny s mBadRequest

/-- SESS_CLOSE (R316). -/
def execSessClose (seat : BitVec 6) (s : State) : Res := .next (runMail s seat.toNat 0x03 (sessClose seat.toNat) noAfter)

/-- SESS_NONCE_EXPIRE (R313). -/
def execSessNonceExpire (seat : BitVec 6) (s : State) : Res :=
  .next (modSeat s seat.toNat fun x => { x with nonce := none })

/-- SESS_IDLE_EXPIRE (R316). -/
def execSessIdleExpire (seat : BitVec 6) (s : State) : Res := .next (endSession s seat.toNat)

/-- SESS_LOCKOUT_END (R317). -/
def execSessLockoutEnd (p : Place) (s : State) : Res :=
  .next { s with steward := { s.steward with locked := s.steward.locked.filter (· != p.toNat) } }

/-! Secrets and the steward role (R308 to R312) -/

/-- Unwrap a field of a request under the session's key-wrapping key. -/
def unwrap (s : State) (n : Nat) (c : List Nat) : Option (List Nat) :=
  (mget s.seats n).bind fun x => x.session.bind fun ss => keyUnwrap (key32 ss.kw) c

/-- SECRET_SET (Table 8.1). -/
def secretSet (n : Nat) (s : State) (b : List Nat) : Answer :=
  let slot := byteField b 0 1
  let flags := byteField b 1 1
  let p : Place := BitVec.ofNat 16 (byteField b 2 2)
  if 63 < slot || 1 < flags || byteField b 44 4 != 0 || !placeOk s p then deny s mBadRequest
  else match unwrap s n ((b.drop 4).take 40) with
    | none => deny s mUnwrapFail
    | some k =>
      if (s.store.secrets.any fun e : Nat × Secret => e.1 != slot && e.2.place == p) then deny s mBadRequest
      else
        let x : Secret := { secret := ofKey32 k, place := p, steward := flags % 2 == 1 || slot == 0 }
        okay (storeWrite { s with store := { s.store with secrets := mput s.store.secrets slot x } })

/-- SECRET_SET (R312). -/
def execSecretSet (seat : BitVec 6) (s : State) : Res := .next (runMail s seat.toNat 0x10 (secretSet seat.toNat) noAfter)

/-- A slot is emptied; slot 0 only while another loaded slot carries the flag (R312). -/
def clearSecret (s : State) (slot : Nat) : State :=
  if slot = 0 && !(s.store.secrets.any fun e : Nat × Secret => e.1 != 0 && e.2.steward) then s
  else storeWrite { s with store := { s.store with secrets := mdel s.store.secrets slot } }

/-- A write of SEATS.SECRET_CLR that took effect. -/
def secretClrWrite (s : State) (w : Word32) : State :=
  let (s, v) := guardStore s (globalPage 3 + 0x800) ⟨0x800, 0x3F, 0⟩ w
  clearSecret s (bits v 5 0)

/-- SEATS_SECRET_CLR (R312): the guarded field takes effect. -/
def execSeatsSecretClr (p : Place) (w : Word32) (s : State) : Res :=
  .next (match guardEffect s p (globalPage 3 + 0x800) w with
    | (s, some w) => secretClrWrite s w
    | (s, none) => s)

/-- STEWARD_CLAIM (R310, R444): inside an SPDM secure session of the claiming logical device. The SPDM error codes are DSP0274's
(PRESUMED, log 18): 0x42 ResponseNotReady, 0x01 InvalidRequest. -/
def execStewardClaim (p : Place) (secret : BitVec 256) (s : State) : Res :=
  let answer (s : State) (e : Nat) : State := send s (.spdm (.doe p) 0xFE e [])
  .next (if !(wireUp s p && (ld s p).spdm.secure) then s
  else if !started s then answer s 0x42
  else match seatOf s p with
    | none => answer s 0x01
    | some n =>
      if mhas s.store.secrets 0 || (secretSlot s p).isSome || s.steward.holder.isSome || detaching s n then answer s 0x01
      else
        let s := storeWrite { s with store := { s.store with secrets := mput s.store.secrets 0 ⟨secret, p, true⟩ } }
        answer (bootExtent (setSteward s n 0) 0 n) 0)

/-- STEWARD_TAKE (R311): the seat named matches the holder, and there is none or it has had no session for the grace. -/
def stewardTake (n : Nat) (s : State) (b : List Nat) : Answer :=
  let named := byteField b 0 1
  if !eligible s n then deny s mNotSteward
  else match s.steward.holder with
    | none => if named = 0xFF then okay (setSteward s n 1) else deny s mStewardHeld
    | some h =>
      let open_ := ((mget s.seats h).bind fun x => x.session).isSome
      let grace := (reg s (globalPage 3 + 0x44)).toNat * 1000000000
      if named != h || open_ || decide (nowNs s < s.steward.idleFrom + grace) then deny s mStewardHeld
      else okay (setSteward s n 1)

/-- STEWARD_TAKE. -/
def execStewardTake (seat : BitVec 6) (s : State) : Res := .next (runMail s seat.toNat 0x18 (stewardTake seat.toNat) noAfter)

/-- STEWARD_HANDOVER (R311): to an attached seat whose slot carries the flag. -/
def stewardHandover (s : State) (b : List Nat) : Answer :=
  let t := byteField b 0 1
  if 63 < t then deny s mBadRequest
  else if !mhas s.seats t then deny s mNotAttached
  else if !eligible s t || detaching s t then deny s mBadRequest
  else okay (setSteward s t 2)

/-- STEWARD_HANDOVER. -/
def execStewardHandover (seat : BitVec 6) (s : State) : Res := .next (runMail s seat.toNat 0x19 stewardHandover noAfter)

/-! Grants and revocations (R321 to R323) -/

/-- The field checks that GRANT and REVOKE share (R322). A ring number that the block has not is refused a grant like a table's (DEDUCED,
log 43); a REVOKE of it changes nothing. -/
def grantCheck (s : State) (b : List Nat) (revoke : Bool) : Option Nat :=
  let seat := byteField b 0 1
  let kind := byteField b 1 1
  let obj := byteField b 2 2
  let right := byteField b 4 1
  if !(kind == 1 || kind == 2) || 63 < seat || (1023 < obj && !(revoke && kind == 2)) || byteField b 5 3 != 0 || (kind == 1 && 3 < right) ||
      (kind == 2 && 15 < right) then some mBadRequest
  else if kind = 1 && right = 0 then some mZeroLength
  else if !mhas s.seats seat then some mNotAttached
  else none

/-- A ring given to a seat, disabled and free. -/
def ringNew (seat index : Nat) : Ring :=
  { holder := some seat, index := index, sqTail := 0, cqHead := 0, sqHead := 0, cqTail := 0, armed := false, overrun := false,
    detaching := false, stopped := none, lost := false, closing := false, subs := [], owed := [], revoke := none,
    old := none }

/-- GRANT (R321, R322). -/
def grantReq (s : State) (b : List Nat) : Answer :=
  let seat := byteField b 0 1
  let obj := byteField b 2 2
  let right := byteField b 4 1
  match grantCheck s b false with
  | some r => deny s r
  | none =>
    if byteField b 1 1 = 1 then
      match tableIn s obj with
      | none => deny s mBadRequest
      | some t =>
        let old := (mget t.rights seat).getD (false, false)
        okay (putTable s obj { t with rights := mput t.rights seat (old.1 || right % 2 == 1, old.2 || right / 2 % 2 == 1) })
    else
      let held := ((mget s.rings obj).bind fun r => r.holder).isSome
      let used := (seatRings s seat).any fun r => ((mget s.rings r).map fun x : Ring => x.index) == some right
      if held then deny s mBusy
      else if 16 ≤ (seatRings s seat).length then deny s mLimit
      else if used then deny s mBusy
      else okay (resetLatches { s with rings := mput s.rings obj (ringNew seat right) } (ringPage obj))

/-- GRANT. -/
def execGrant (seat : BitVec 6) (s : State) : Res := .next (runMail s seat.toNat 0x20 grantReq noAfter)

/-- REVOKE (R322, R323): rights go after the response; a ring is disabled first, and OK follows its IDLE. -/
def revokeReq (n : Nat) (s : State) (b : List Nat) : Answer :=
  let seat := byteField b 0 1
  let obj := byteField b 2 2
  match grantCheck s b true with
  | some r => deny s r
  | none =>
    if byteField b 1 1 = 1 then okay s
    else match mget s.rings obj with
      | some r =>
        if r.holder != some seat then okay s
        else
          let s := if ringEn s obj then disableRing s obj else s
          if ((mget s.rings obj).map fun x : Ring => x.closing || !x.subs.isEmpty || !x.owed.isEmpty).getD false then
            (modRing s obj fun x => { x with revoke := some n }, none)
          else okay (freeRing s obj)
      | none => okay s

/-- Table rights leave a seat, once the response is written; the owner's cannot (R323). -/
def revokeRights (s : State) (b : List Nat) : State :=
  let right := byteField b 4 1
  if byteField b 1 1 = 1 then
    { s with tables := mmod s.tables (byteField b 2 2) fun t =>
        match mget t.rights (byteField b 0 1) with
        | some r =>
          let r := (r.1 && right % 2 == 0, r.2 && right / 2 % 2 == 0)
          { t with rights := if r.1 || r.2 then mput t.rights (byteField b 0 1) r else mdel t.rights (byteField b 0 1) }
        | none => t }
  else s

/-- REVOKE. -/
def execRevoke (seat : BitVec 6) (s : State) : Res := .next (runMail s seat.toNat 0x21 (revokeReq seat.toNat) revokeRights)

/-- The revocation of a ring that seat q's request waits for is answered, once no host holds the response's lines (R323). -/
def revokeAnswer (s : State) (n q : Nat) : State :=
  match needRegion s (mailBuf s q + 256) 256 false with
  | some s' => modRing s' n fun x => { x with closing := true }
  | none =>
    if !mhas s.seats q then freeRing s n
    else if mailCut s q then setMailStat (freeRing s n) q false mBadBuffer
    else respond (freeRing s n) q 0x21 mOk []

/-- RING_IDLE (R100): every fetched submission of a disabled ring has completed; a revocation that waited for it is answered
(R323). -/
def execRingIdle (ring : BitVec 10) (s : State) : Res :=
  let n := ring.toNat
  .next (match mget s.rings n with
    | some r =>
      if r.closing && r.subs.isEmpty && r.owed.isEmpty then
        let s := setReg (modRing s n fun x => { x with closing := false }) (ringPage n + 0xC) (ringStat s n ||| rstIdle)
        match r.revoke with
        | some q => revokeAnswer s n q
        | none => s
      else s
    | none => s)

/-- SEAT_DETACH (R305): the response first, then the detach. -/
def detachReq (s : State) (b : List Nat) : Answer :=
  let t := byteField b 0 1
  if 63 < t then deny s mBadRequest else if !mhas s.seats t then deny s mNotAttached else okay s

/-- SEAT_DETACH. -/
def execSeatDetach (seat : BitVec 6) (s : State) : Res :=
  .next (runMail s seat.toNat 0x28 detachReq fun s b => beginDetach s (byteField b 0 1) 2)

/-! Covenants (R325 to R336) -/

/-- The covenant a COVENANT_SET body describes (Table 8.7). -/
def covOf (b : List Nat) : Cov :=
  let kind := byteField b 1 1
  { kind := kind, seat := byteField b 2 1, prio := byteField b 3 1, object := byteField b 4 2, amount := byteField b 8 4,
    given := if kind = 5 then 0 else byteField b 8 4, breach := false, reason := 0, start := 0, worst := 0, okFrom := none,
    keep := 0, lackE := false, lackS := false }

/-- Steps 1 to 5 of R327. -/
def covFields (s : State) (id : Nat) (c : Cov) (spare : Nat) : Option Nat :=
  let agree := if 192 ≤ id then c.kind == 1 && c.seat == id - 192 else c.kind != 1
  let zeroObj := !(c.kind == 1 || c.kind == 6) || c.object == 0
  let range := (c.kind != 5 || decide (150 ≤ c.amount)) && (c.kind != 6 || decide (c.amount ≤ 24000)) &&
    (!(c.kind == 2 || c.kind == 3 || c.kind == 5) || decide (c.object < 1024)) &&
    (c.kind != 4 || (decide (c.object < 2) && present s c.object))
  if !(decide (1 ≤ c.kind) && decide (c.kind ≤ 6)) || 15 < c.prio || spare != 0 || (c.kind == 1 && c.amount != 0) ||
      !zeroObj then some mBadRequest
  else if !agree then some mBadRequest
  else if c.kind != 1 && c.amount = 0 then some mZeroLength
  else if !range then some mBadRequest
  else if !mhas s.seats c.seat then some mNotAttached
  else none

/-- COVENANT_SET (R327): only a new priority, or a new or replaced covenant. -/
def covenantSet (s : State) (b : List Nat) : Answer :=
  let id := byteField b 0 1
  let c := covOf b
  match covFields s id c (byteField b 6 2) with
  | some r => deny s r
  | none =>
    let same := match mget s.covs id with
      | some o => o.kind == c.kind && o.seat == c.seat && o.object == c.object && o.amount == c.amount
      | none => false
    if c.kind = 1 then
      let o := (mget s.covs id).getD (capCov c.seat)
      okay (capCheck { s with covs := mput s.covs id { o with prio := c.prio } })
    else if same then okay (modCov s id fun o => { o with prio := c.prio })
    else if (c.kind == 2 || c.kind == 3 || c.kind == 5) && (tableIn s c.object).isNone then deny s mBadRequest
    else if drawsBreach s id c then deny s mCovInBreach
    else
      let s1 := { s with covs := mput s.covs id c }
      if !covAdmits s1 c then deny s mCovRefused
      else
        let s2 := dropCov s id flagCleared
        okay (resolveAll { s2 with covs := mput s2.covs id c } 1)

/-- COVENANT_SET. -/
def execCovenantSet (seat : BitVec 6) (s : State) : Res := .next (runMail s seat.toNat 0x30 covenantSet noAfter)

/-- COVENANT_CLEAR (R327, R333). Its body of 4 bytes is read as one number, and one above 255 is BAD_REQUEST (DESIGN CHOICE, log 43: Table 8.4
names the ID alone). -/
def covenantClear (s : State) (b : List Nat) : Answer :=
  let id := byteField b 0 4
  if 255 < id then deny s mBadRequest
  else if 192 ≤ id then okay (capCheck (modCov s id fun c => { c with prio := 0 }))
  else if mhas s.covs id then okay (resolveAll (dropCov s id flagCleared) 1)
  else okay s

/-- COVENANT_CLEAR. -/
def execCovenantClear (seat : BitVec 6) (s : State) : Res := .next (runMail s seat.toNat 0x31 covenantClear noAfter)

/-- The 36 bytes of COVENANT_QUERY: Tables 8.7 and 8.8. While the covenant is kept, REASON is 0 (DESIGN CHOICE, log 43: Table 8.8 says only
what START and WORST then hold). -/
def covBytes (s : State) (id : Nat) (c : Cov) : List Nat :=
  let given := if c.kind = 1 then capF s else c.given
  [id, c.kind, c.seat, c.prio] ++ bytesOf 2 c.object ++ [0, 0] ++ bytesOf 4 c.amount ++
    [if c.breach then 1 else 0, if c.breach then c.reason.toNat else 0, 0, 0] ++ bytesOf 4 (sat given 32) ++ bytesOf 8 c.start ++
    bytesOf 8 c.worst

/-- COVENANT_QUERY (R327, R332): a seat without the role learns only of its own. Its body of 4 bytes is read as one number (DESIGN CHOICE,
log 43). -/
def covenantQuery (n : Nat) (s : State) (b : List Nat) : Answer :=
  let id := byteField b 0 4
  let used := (mget s.covs id).filter fun c => c.kind != 1 || holdsExtent s c.seat
  let mine := (used.map fun c => c.seat) == some n || id == 192 + n
  if s.steward.holder != some n && !mine then deny s mNotSteward
  else match used with
    | some c => (s, some (mOk, covBytes s id c))
    | none => deny s mBadRequest

/-- COVENANT_QUERY. -/
def execCovenantQuery (seat : BitVec 6) (s : State) : Res :=
  .next (runMail s seat.toNat 0x32 (covenantQuery seat.toNat) noAfter)

/-! Keys, tunnelled commands, table owners (R196, R228, R229, R320) -/

/-- A key slot is BOUND: LOADED and named by an extent (R227). -/
def slotBound (s : State) (slot : Nat) : Bool :=
  mhas s.keys slot && s.extents.any fun e : Nat × Extent => e.2.key == some slot

/-- KEY_LOAD (R228, R229, Table 5.8). -/
def keyLoad (n : Nat) (s : State) (b : List Nat) : Answer :=
  let slot := byteField b 0 2
  let owner := byteField b 2 2
  if 127 < slot || 63 < owner || byteField b 76 4 != 0 then deny s mBadRequest
  else if !mhas s.seats owner then deny s mNotAttached
  else match unwrap s n ((b.drop 4).take 72) with
    | none => deny s mUnwrapFail
    | some k =>
      if k.take 32 = k.drop 32 then deny s mBadRequest
      else if slotBound s slot then deny s mBusy
      else
        let v : BitVec 512 := BitVec.ofNat 512 (ofBytes (k.take 32) * 2 ^ 256 + ofBytes (k.drop 32))
        okay { s with keys := mput s.keys slot ⟨v, some owner⟩ }

/-- KEY_LOAD (R228, R229). -/
def execKeyLoad (seat : BitVec 6) (s : State) : Res := .next (runMail s seat.toNat 0x38 (keyLoad seat.toNat) noAfter)

/-- A fabric-manager command of the steward (R196): what it adds is a steward grant. -/
def fmSteward (s : State) : FmCmd → State × Bool
  | .add exts => addRequest s exts true
  | .release seat bases forced =>
    (bases.foldl (fun s b => if forced then forceRelease s seat.toNat b.toNat else askRelease s seat.toNat b.toNat) s, true)
  | .bind p => bindLd s p
  | .unbind p => unbindLd s p

/-- FM_TUNNEL (R196): the command's own answer goes out as its CXL return code. -/
def execFmTunnel (seat : BitVec 6) (cmd : FmCmd) (s : State) : Res :=
  .next (runMail s seat.toNat 0x40 (fun s _ => okay s) fun s _ =>
    let (s, ok) := fmSteward s cmd
    send s (.fmAnswer ok))

/-- TABLE_OWNER (R320, Table 8.4a). -/
def tableOwner (s : State) (b : List Nat) : Answer :=
  let tb := byteField b 0 2
  let owner := byteField b 2 1
  let flags := byteField b 3 1
  let newc := flags % 2 == 1
  let newf := flags / 2 % 2 == 1
  match tableIn s tb with
  | none => deny s mBadRequest
  | some t =>
    let t1 : Table := { t with cbase := if newc then byteField b 4 8 % 2 ^ 43 else t.cbase,
                               fbase := if newf then byteField b 12 8 % 2 ^ 43 else t.fbase }
    if 3 < flags || byteField b 20 4 != 0 || (newc && !t.cnt) || (newf && !t.far) || 63 < owner then deny s mBadRequest
    else if !mhas s.seats owner then deny s mNotAttached
    else if !regionsOk s t1 owner newc newf then deny s mBadRequest
    else
      let rights := match t.owner with
        | some o => if o = owner then t.rights else mput t.rights o (true, true)
        | none => t.rights
      okay (putTable s tb { t1 with owner := some owner, rights := rights })

/-- TABLE_OWNER. -/
def execTableOwner (seat : BitVec 6) (s : State) : Res := .next (runMail s seat.toNat 0x48 tableOwner noAfter)

/-- COV_BREACH_END (R332): the full amount has been given again for 10 ms. -/
def execCovBreachEnd (id : BitVec 8) (s : State) : Res :=
  .next (match mget s.covs id.toNat with
    | some c => if c.okFrom.isSome then covEnd s id.toNat 0 else s
    | none => s)

/-! SPDM (R324, R470) -/

/-- An SPDM channel answers: the logical device's link is up, or the sideband from stage 0x05 on. -/
def spdmUp (s : State) : SpdmChan → Bool
  | .doe p => wireUp s p
  | .mctp => decide (0x05 ≤ s.boot.stage.toNat) && decide (s.boot.stage.toNat < 0x7F)

/-- The connection of a channel. -/
def spdmOf (s : State) : SpdmChan → Spdm
  | .doe p => (ld s p).spdm
  | .mctp => s.mctp.spdm

/-- Change the connection of a channel. -/
def modSpdm (s : State) (ch : SpdmChan) (f : Spdm → Spdm) : State :=
  match ch with
  | .doe p => modLd s p fun l => { l with spdm := f l.spdm }
  | .mctp => { s with mctp := { s.mctp with spdm := f s.mctp.spdm } }

/-- n words whose content the part's keys and the standard fix: free (log 10). -/
def spdmWords (s : State) (n : Nat) : List (BitVec 64) := (List.range n).map fun i => freeSpdm (65536 * s.freeCtr + i)

/-- An SPDM request of the sideband is a sideband request (R357). -/
def chanWake (s : State) (ch : SpdmChan) : State :=
  match ch with
  | .doe _ => s
  | .mctp => sideWake s

/-- Answer an SPDM request with its code and words. -/
def spdmAnswer (s : State) (ch : SpdmChan) (request : Nat) (words : List (BitVec 64)) : State :=
  if spdmUp s ch then send (fresh (chanWake s ch)) (.spdm ch request 0 words) else s

/-- GET_DIGESTS: the SHA-384 digest of the certificate chain. -/
def execGetDigests (ch : SpdmChan) (s : State) : Res := .next (spdmAnswer s ch 0x81 (spdmWords s 6))

/-- GET_CERTIFICATE: bytes of the chain rooted in the Steuno device root. -/
def execGetCertificate (ch : SpdmChan) (_offset length : Word) (s : State) : Res :=
  .next (spdmAnswer s ch 0x82 (spdmWords s ((length.toNat + 7) / 8)))

/-- CHALLENGE: an ECDSA P-384 signature over the nonce. -/
def execChallenge (ch : SpdmChan) (_nonce : BitVec 256) (s : State) : Res := .next (spdmAnswer s ch 0x83 (spdmWords s 12))

/-- GET_MEASUREMENTS: firmware image, firmware version and the digest of the configuration store. The version is the running one. -/
def execGetMeasurements (ch : SpdmChan) (index : BitVec 8) (s : State) : Res :=
  let v := ((s.fw[s.pkg.roleHub]?).map fun f => f.running).getD 0
  .next (spdmAnswer s ch 0xE0 (if index = 2 then [v.setWidth 64] else spdmWords s 6))

/-- KEY_EXCHANGE: a secure session is begun; it opens at its FINISH. -/
def execKeyExchange (ch : SpdmChan) (_random : BitVec 256) (s : State) : Res :=
  .next (if spdmUp s ch then spdmAnswer (modSpdm s ch fun x => { x with exchanging := true }) ch 0xE4 (spdmWords s 18) else s)

/-- FINISH: the exchange is verified and the secure session open, or it fails (DSP0274's DecryptError, PRESUMED, log 18). -/
def execFinish (ch : SpdmChan) (verified : Bool) (s : State) : Res :=
  .next (if spdmUp s ch && (spdmOf s ch).exchanging then
    let s := modSpdm s ch fun x => { exchanging := false, secure := x.secure || verified }
    send (chanWake s ch) (.spdm ch 0xE5 (if verified then 0 else 0x06) [])
  else s)

end Sys2Proof.Machine
end

