-- ==== Sys2Proof/Machine/Service.lean ====
section
/-!
DEFINITION. Service and failure: package modes, halves, ports, fronds, rhizoid links, lost dies and harvest dumps (R24, R28, R34 to R49,
R138, R262, R425 to R435).
-/
namespace Sys2Proof.Machine

/-- A guarded register's complement arrives: what takes effect once it matches (R390), or the write kept for a frond that sleeps
(R394). -/
def onGuard (s : State) (p : Place) (a : Nat) (w : Word32) (f : State → Word32 → State) : State :=
  if maskOf w != 0 && writeWaits s p a then queueWrite s p (a + 0x400) w
  else match guardEffect s p a w with
  | (s, some w) => f (wakePage s a) w
  | (s, none) => s

/-! Lost agents (R262) -/

/-- A request is an agent's own: for a line, or to give one up. -/
def ofAgent (a : Nat) (r : CohReq) : Bool := fromAgent a r || r == .evict a

/-- The lines of one home whose request in progress is an agent's. -/
def linesAsked (s : State) (a hub : Nat) : SMap Txn :=
  s.coh.txns.filter fun e : Nat × Txn => e.1 % 2 == hub && fromAgent a e.2.req && !e.2.ready

/-- What an agent asked of one home is forgotten: its request in progress grants nothing, and those that wait go. Dirty data that a
former owner had handed to it is lost with it, and its line poisoned and counted. -/
def forgetAgent (s : State) (a hub : Nat) : State × Nat :=
  let mine := linesAsked s a hub
  let lost := mine.filter fun e : Nat × Txn => e.2.dirty
  let s := lost.foldl (fun s (e : Nat × Txn) => setPoison s (e.1 / 2) hub) s
  let s := modCoh s fun c => { c with
    txns := c.txns.map fun e : Nat × Txn =>
      if e.1 % 2 = hub then
        (e.1, { e.2 with req := if fromAgent a e.2.req then .device else e.2.req, dirty := e.2.dirty && !fromAgent a e.2.req,
                         queue := e.2.queue.filter fun r => !ofAgent a r })
      else e
    retry := c.retry.modify hub fun l => l.filter fun e => !ofAgent a e.2.1 }
  (mine.foldl (fun s (e : Nat × Txn) => if e.2.fed then setDir s (e.1 / 2) hub else s) s, lost.length)

/-- An agent's copies at one home fall; what it held dirty is poisoned there and counted. Commands that wait for it are over, and so
are its own requests. -/
def loseAgentAt (a hub : Nat) (x : State × Nat) : State × Nat :=
  let x := (x.1.coh.copies.filter fun e : Nat × CopySt => e.1 % 32 == a && e.1 / 32 % 2 == hub).foldl
    (fun (x : State × Nat) (e : Nat × CopySt) =>
      let line := e.1 / 64
      let s := leave x.1 line hub a
      if dirtySt (some e.2) then (setPoison s line hub, x.2 + 1) else (s, x.2)) x
  let (s, k) := forgetAgent x.1 a hub
  let x := (s, x.2 + k)
  (x.1.coh.txns.foldl (fun s (e : Nat × Txn) =>
    if e.1 % 2 = hub then
      (e.2.cmds.filter fun c : Nat × CohCmd => c.1 == a).foldl (fun s c => cmdDone s (e.1 / 2) hub a c.2) s
    else s) x.1, x.2)

/-- An agent is lost to a set of homes: COH_AGENT_LOST with the lines poisoned. -/
def loseAgent (s : State) (a : Nat) (homes : List Nat) : State :=
  let (s, n) := homes.foldl (fun x h => loseAgentAt a h x) (s, 0)
  event s 0x4003 2 (agentDie a) 0xFF [(1, a), (4, n)] .steward

/-- A cache is emptied: dirty lines go to the write-back buffer, clean ones leave (R246, R361). -/
def emptyCache (s : State) (a : Nat) : State :=
  (s.coh.copies.filter fun e : Nat × CopySt => e.1 % 32 == a).foldl (fun s (e : Nat × CopySt) =>
    let line := e.1 / 64
    let hub := e.1 / 32 % 2
    let s := checkCopy s line hub a (dirtySt (some e.2))
    leave (if dirtySt (some e.2) then toWb s line hub else s) line hub a) s

/-! Work that a lost die ends -/

/-- Searches that meet a test end with a device fault. -/
def failSearches (s : State) (test : Search → Bool) (st : BitVec 8) : State :=
  (s.searches.filter fun e : Nat × Search => test e.2).foldl (fun s e => failSearch s e.1 st) s

/-- Every rake move of the given fronds ends with a status. -/
def dropMoves (s : State) (dies : List Nat) (st : BitVec 8) : State :=
  let here := dies.flatMap fun d => (frond s d).move.toList ++ (frond s d).moves
  let s := dies.foldl (fun s d => modFrond s d fun f => { f with move := none, moves := [], paused := false }) s
  here.foldl (fun s m => moveOver s m st m.moved) s

/-- Set or clear a die's bit of PKG.DIES. -/
def setDie (s : State) (die : Nat) (on : Bool) : State :=
  let m := BitVec.ofNat 8 (2 ^ die)
  { s with pkg := { s.pkg with dies := if on then s.pkg.dies ||| m else s.pkg.dies &&& ~~~m } }

/-- A frond leaves service in whole mode: its searches, moves and bulk operations fault, its cache is lost, its queued counts go
(Table 1.7, R49, R262). -/
def frondGone (s : State) (die cause : Nat) : State :=
  let s := setDie s die false
  let s := failSearches s (fun q => q.res.any fun r => r.die == die) stFrondLost
  let s := dropMoves s [die] stFrondLost
  let s := (s.jobs.filter fun e : Nat × Job => e.2.die == die).foldl (fun s e =>
    jobOver s e.1 e.2 stFrondLost (jobData e.2) (jobCost s e.2)) s
  let s := modFrond (loseAgent s die (hubs s)) die fun f => { f with hce := [] }
  resolveAll (event s 0x9008 2 die 0xFF [(1, die), (1, cause)] .steward) 6

/-! Ports (R187, R431) -/

/-- The host ports of a hub. -/
def hubPorts (h : Nat) : List Nat := [3 * h, 3 * h + 1, 3 * h + 2]

/-- Change a port. -/
def modPort (s : State) (port : Nat) (f : Port → Port) : State := { s with ports := s.ports.modify port f }

/-- A port's links go down and its balls are held (Table 9.11); PORT_DOWN, 0 orderly or 1 lost. -/
def cutPort (s : State) (port how : Nat) : State :=
  if ((s.ports[port]?).map fun x => x.st) == some .down then s
  else
    let s := (List.range 4).foldl (fun s l => linkLoss s port l) s
    let s := modPort s port fun x => { x with st := .down }
    let s := { s with pins := { s.pins with heldPort := s.pins.heldPort.set port true } }
    event s 0x9003 0 (portHub port) 0xFF [(1, port), (1, how)] .steward

/-- The seats of a port. -/
def portSeats (s : State) (port : Nat) : List Nat :=
  (s.seats.filter fun e : Nat × Seat => portOf e.2.place == port).map fun e => e.1

/-- Completions of a port's rings are written; the lines its hosts hold are asked back (R431 step 2). The flag says that none is
held any more. -/
def drainPort (s : State) (port : Nat) : State × Bool :=
  let ns := portSeats s port
  let s := ns.foldl (fun s n => (seatRings s n).foldl flush s) s
  if ns.all (seatClean s) then (s, true) else (ns.foldl snoopSeat s, false)

/-- Page base of a port. -/
def portPage (port : Nat) : Nat := diePage (portHub port) (1 + port % 3)

/-- A write of HPORT.BIF that took effect (R187): kept in the configuration store for the next time the port is brought up; 3 keeps
the split. -/
def bifWrite (port : Nat) (s : State) (w : Word32) : State :=
  let a := portPage port + 0x800
  let old := reg s a
  let (s, v) := guardStore s a ⟨0x800, 3, 0⟩ w
  if v &&& 3 = 3 then setReg s a old
  else
    let s := { s with store := { s.store with bifMode := s.store.bifMode.set port ((v &&& 3).setWidth 2) } }
    covered (storeWrite s) a

/-- HPWR.CTL.AUTOREL of a hub (R365). -/
def autoRel (s : State) (h : Nat) : Bool := (reg s (diePage h 0x13 + 8)).getLsbD 2

/-- A port comes up under its stored split; firmware releases its balls (R365, R431). -/
def bringUp (s : State) (port : Nat) : State :=
  let m := s.store.bifMode.getD port 0
  let s := modPort s port fun x => { x with st := .up, bifMode := m }
  let h := portHub port
  if autoRel s h then { s with pins := { s.pins with heldPort := s.pins.heldPort.set port false } } else s

/-- A write of HPORT.DOWN that took effect (R431). A write of 0 during the drain ends it (log 40). -/
def downWrite (port : Nat) (s : State) (w : Word32) : State :=
  let (s, v) := guardStore s (portPage port + 0x804) ⟨0x804, 1, 0⟩ w
  let st := ((s.ports[port]?).map fun x => x.st).getD .down
  if v.getLsbD 0 then (if st = .up then modPort s port fun x => { x with st := .draining } else s)
  else match st with
    | .up => s
    | .draining => modPort s port fun x => { x with st := .up }
    | .down => event (bringUp s port) 0x9004 0 (portHub port) 0xFF
        [(1, port), (1, (s.store.bifMode.getD port 0).toNat)] .steward

/-- HPORT_BIF (R187). -/
def execHportBif (p : Place) (port : BitVec 3) (w : Word32) (s : State) : Res :=
  .next (onGuard s p (portPage port.toNat + 0x800) w (bifWrite port.toNat))

/-- HPORT_DOWN (R431): the port's rings stop fetching. -/
def execHportDown (p : Place) (port : BitVec 3) (w : Word32) (s : State) : Res :=
  .next (onGuard s p (portPage port.toNat + 0x804) w (downWrite port.toNat))

/-- HPORT_UP (R431). -/
def execHportUp (p : Place) (port : BitVec 3) (w : Word32) (s : State) : Res :=
  .next (onGuard s p (portPage port.toNat + 0x804) w (downWrite port.toNat))

/-- PORT_DOWN_DRAIN_END (R431): completions are written and lines asked back; once no host of the port holds one, the links go
down. -/
def execPortDownDrainEnd (port : BitVec 3) (s : State) : Res :=
  .next (if ((s.ports[port.toNat]?).map fun x => x.st) == some .draining then
    let (s, ok) := drainPort s port.toNat
    if ok then cutPort s port.toNat 0 else s
  else s)

/-! Halves (R36 to R44, R138, R432, R433) -/

/-- Set the state of a half. -/
def setHalf (s : State) (half : Nat) (x : HalfState) : State := { s with pkg := { s.pkg with half := s.pkg.half.set half x } }

/-- The state of a half. -/
def halfState (s : State) (half : Nat) : HalfState := s.pkg.half.getD half .out

/-- The dies of a half. -/
def halfDies (half : Nat) : List Nat := (List.range 8).filter fun d => halfOf d == half

/-- A half becomes primary, with PRIMARY_CHANGED (R38, R432); the counts still queued in the other half pass to it. -/
def makePrimary (s : State) (half : Nat) : State :=
  if primary s = half then s
  else
    let s := event { s with pkg := { s.pkg with primaryB := half == 1 } } 0x9007 0 0xFF 0xFF [(1, half)] .steward
    ((halfDies (1 - half)).filter fun d => 2 ≤ d).foldl handCounts s

/-- A fetched submission whose half went out (R138): each member with a provisional answer gets its follow-up, and one HALF_LOST
answers what is left of the submission, with TABLE_MOVING where a search of it started during a move (R171). Its searches count in the
statistics, since their keys reached the fronds (R182). -/
def halfLostSub (s : State) (r : Nat) (u : Sub) : State :=
  let mine (q : Search) : Bool := q.ring == r && q.sub == u.id && !q.window
  let s := failSearches s (fun q => mine q && q.prov.isSome) stHalfLost
  let qs := s.searches.filter fun e : Nat × Search => mine e.2
  let moving := qs.any fun e : Nat × Search => e.2.moving && !e.2.ended
  let s := { s with searches := s.searches.filter fun e => !mine e.2 }
  let s := qs.foldl (fun s e =>
    let s := settle s e.2.seat e.2.cost e.2.charge e.2.fromG
    if e.2.ended then s else countStats s e.2) s
  match (mget s.rings r).bind fun x => x.subs.find? fun v => v.id == u.id && v.members != 0 with
  | some _ =>
    let s := modRing s r fun x => { x with subs := x.subs.map fun v => if v.id = u.id then { v with members := 1 } else v }
    complete s r u.id { finalComp u.tag stHalfLost 0 0 0 with flags := flLast ||| flagIf moving flMoving }
  | none => s

/-- The rings of a half stop, and the serving half completes what they had fetched (R138), a ring that was disabled with work still to
complete (R100) among them. -/
def halfLostRings (s : State) (half : Nat) : State :=
  let rs := (s.rings.filter fun e : Nat × Ring =>
    e.2.holder.isSome && (ringEn s e.1 || !e.2.subs.isEmpty || !e.2.owed.isEmpty) && ringHub s e.1 == half).map fun e => e.1
  rs.foldl (fun s r =>
    let s := (s.jobs.filter fun e : Nat × Job => e.2.ring == r).foldl (fun s e =>
      jobOver s e.1 e.2 stHalfLost (jobData e.2) (jobCost s e.2)) s
    let s := (((mget s.rings r).map fun x : Ring => x.subs).getD []).foldl (fun s u => halfLostSub s r u) s
    modRing s r fun x => { x with lost := true }) s

/-- The serving half's searches go on alone: a comparison drops the lost half's part, and a search that ran in the lost half ends with
HALF_LOST (R43, Table 3.12). -/
def soloSearches (s : State) (half : Nat) : State :=
  s.searches.foldl (fun s (e : Nat × Search) =>
    let q := e.2
    if q.compare then
      let res := q.res.filter fun r => halfOf r.die != half
      let q := { q with compare := false, res := res }
      let s := putSearch s e.1 q
      match res, mget s.tables q.table with
      | [r], some t =>
        if r.done then
          let (s, v) := judge s e.1 q t res
          finalise s e.1 v false
        else s
      | _, _ => s
    else if q.res.any fun r => halfOf r.die == half then failSearch s e.1 stHalfLost
    else s) s

/-- What a half's homes hold is kept no longer (R432 step 3). -/
def dropHome (s : State) (h : Nat) (primaryLost : Bool) : State :=
  let s := modCoh s fun c => { c with
    copies := c.copies.filter fun e => e.1 / 32 % 2 != h
    dir := c.dir.filter fun e => e.1 % 2 != h
    filt := c.filt.filter fun e => e.1 % 2 != h
    txns := c.txns.filter fun e => e.1 % 2 != h
    wb := c.wb.filter fun k => k % 2 != h
    buf := c.buf.filter fun e => e.1 % 2 != h
    damage := c.damage.filter fun e => e.1 / 32 % 2 != h
    twin := c.twin.filter fun k => k / 32 % 2 != h
    spec := if primaryLost then [] else c.spec
    retry := c.retry.set h [] }
  modMem s fun m => { m with
    poison := m.poison.filter fun e => e.1 % 2 != h
    encBy := m.encBy.filter fun e => e.1 % 2 != h
    pages := m.pages.filter fun e => e.1 % 2 != h
    damage := m.damage.filter fun e => e.1 % 2 != h
    badMap := m.badMap.filter fun e => e.1 % 2 != h
    held := m.held.set h []
    retiring := m.retiring.set h none }

/-- What the other half had asked of a serving half's home ends: lines held for writes it mirrored are free, and a write that waited for
its turn there goes on alone (R261). -/
def freeMirrors (s : State) (hub : Nat) : State :=
  (s.coh.txns.filter fun e : Nat × Txn => e.1 % 2 == hub).foldl (fun s (e : Nat × Txn) =>
    match mget s.coh.txns e.1 with
    | some t =>
      if t.req == .mirror then unpin (modCoh s fun c => { c with txns := mdel c.txns e.1 }) (e.1 / 2) hub t.queue
      else if t.lock then proceed s (e.1 / 2) hub
      else s
    | none => s) s

/-- A half is on its way back into service: it runs its start-up stages, or is being copied to (R44, R451). -/
def comingBack (s : State) (half : Nat) : Bool := inPair s && (halfState s half == .returning || halfState s half == .resync)

/-- A return under way ends with the half out, since no half is left to copy from. -/
def endReturn (s : State) (half : Nat) : State :=
  let s := dropHome (setHalf s half .out) half false
  { s with pkg := { s.pkg with resync := none }, boot := { s.boot with returning := none } }

/-- A half goes out, 0 planned or 1 by a fault (R432, R433); one that was coming back stays out. Its homes serve nothing from then on, so
what its hosts held touches no line that the serving half keeps, and the completions of its rings go to that half (R138). -/
def halfOut (s : State) (half how : Nat) : State :=
  let was := primary s == half
  let s := if comingBack s (1 - half) then endReturn s (1 - half) else s
  let s := if serving s (1 - half) then makePrimary s (1 - half) else s
  let s := (hubPorts half).foldl (fun s p => cutPort s p how) (setHalf s half .out)
  let s := (halfDies half).foldl (fun s d => setDie s d false) s
  let s := { s with
    pkg := { s.pkg with memActive := s.pkg.memActive.set half false
                        resync := if s.pkg.resync = some half then none else s.pkg.resync }
    boot := { s.boot with returning := if s.boot.returning.map (·.1) = some half then none else s.boot.returning } }
  let s := soloSearches (halfLostRings s half) half
  let ds := (halfDies half).filter fun d => 2 ≤ d
  let s := dropMoves s ds stCmdDone
  let s := ds.foldl (fun s d => modFrond s d fun f => { f with hce := [] }) s
  let s := freeMirrors (dropHome s half was) (1 - half)
  let s := if s.pkg.roleHub = half then endSessions { s with pkg := { s.pkg with roleHub := 1 - half } } else s
  let s := raiseFull s 0x9005 1 0xFF 0xFF (halfFlag half) 0 [(1, half), (1, how)] .steward
  resolveAll (ledgerWrite s false) 6

/-- PKG.STAT.HALF_REFUSED. -/
def halfRefused (s : State) : State := orReg s (globalPage 0 + 0xC) 1

/-- OP 1 of PKG.HALFCTL: the primary moves and the half's ports begin to drain (R432). -/
def takeHalfOut (s : State) (half : Nat) : State :=
  if halfState s (1 - half) != .serving then halfRefused s
  else if halfState s half != .serving then s
  else
    let s := setHalf (makePrimary s (1 - half)) half .draining
    (hubPorts half).foldl (fun s p => modPort s p fun x => if x.st = .up then { x with st := .draining } else x) s

/-- OP 2 of PKG.HALFCTL: the half runs through start-up from stage 0x02; its rails stand already where their power-good inputs are
high (R432, R451). -/
def returnHalf (s : State) (half : Nat) : State :=
  match halfState s half with
  | .serving => halfRefused s
  | .draining => halfRefused s
  | .out =>
    if (s.harvest[half]?.map fun x => x.held).getD false then halfRefused s
    else
      let stage : BitVec 8 := if s.pins.pgHub.getD half false then 3 else 2
      let s := setHalf s half .returning
      let s := (halfDies half).foldl (fun s d => modFrond s d fun f => { f with lost := false }) s
      { s with pkg := { s.pkg with frozen := s.pkg.frozen.set half false }
               boot := { s.boot with returning := some (half, stage) } }
  | _ => s

/-- A write of PKG.HALFCTL that took effect (Table 11.8). -/
def halfCtl (s : State) (w : Word32) : State :=
  let (s, v) := guardStore s (globalPage 0 + 0x808) ⟨0x808, 0x0301, 0⟩ w
  let half := bits v 0 0
  match bits v 9 8 with
  | 0 => s
  | 1 => if inPair s then takeHalfOut s half else halfRefused s
  | 2 => if inPair s then returnHalf s half else halfRefused s
  | _ => if inPair s && serving s half then makePrimary s half else halfRefused s

/-- HALF_TAKE_OUT (R432). -/
def execHalfTakeOut (p : Place) (w : Word32) (s : State) : Res := .next (onGuard s p (globalPage 0 + 0x808) w halfCtl)

/-- HALF_RETURN (R432, R451). -/
def execHalfReturn (p : Place) (w : Word32) (s : State) : Res := .next (onGuard s p (globalPage 0 + 0x808) w halfCtl)

/-- HALF_MAKE_PRIMARY (R432). -/
def execHalfMakePrimary (p : Place) (w : Word32) (s : State) : Res := .next (onGuard s p (globalPage 0 + 0x808) w halfCtl)

/-- HALF_OUT_DRAIN_END (R432): completions are written and lines asked back; once no host of the half's ports holds one, the half goes
out. -/
def execHalfOutDrainEnd (half : BitVec 1) (s : State) : Res :=
  .next (if inPair s && halfState s half.toNat == .draining then
    let (s, ok) := (hubPorts half.toNat).foldl (fun (x : State × Bool) p =>
      let (s, k) := drainPort x.1 p
      (s, x.2 && k)) (s, true)
    if ok then halfOut s half.toNat 0 else s
  else s)

/-- A firmware image that a start-up or return ran as pending is activated (R441). -/
def activateFw (s : State) (h : Nat) : State :=
  match s.fw[h]? with
  | some f =>
    match f.asPending, f.loaded.bind fun k => (f.slots[k]?).bind fun x => x.image with
    | true, some img =>
      let k := f.loaded.getD 0
      let s := { s with
        fw := s.fw.set h { f with lastActive := k, asPending := false
                                  slots := f.slots.modify k fun x => { x with pending := false } }
        store := { s.store with minSec := if s.store.minSec.ult img.security then img.security else s.store.minSec } }
      let old := f.running.toNat
      let s := { s with fw := s.fw.modify h fun f => { f with running := img.version } }
      let s := modLedger (storeWrite s) fun l => { l with fwAct := inc32 l.fwAct }
      ledgerWrite (event s 0x900C 0 h 0xFF [(4, old), (4, img.version.toNat)] .steward) false
    | _, some img => { s with fw := s.fw.modify h fun f => { f with running := img.version } }
    | _, none => s
  | none => s

/-- A returning frond's array is rebuilt from the golden shadows of its partner, with its tags (R44). A record that cannot be read is
rebuilt from its row first, and where the row fails too the entry is poisoned; VALID is then the array's word (R154, R274). -/
def rebuildArray (s : State) (src dst : Nat) : State :=
  let keys := (frond s src).arr.shadow.map fun e : Nat × Shadow => e.1
  let s := keys.foldl (fun s row => rebuildRecord s src row) s
  let s := modArr s dst fun b => { b with rows := [], shadow := [] }
  let s := keys.foldl (fun s row =>
    let g := shadowAt s src row
    let r := rowAt s src row
    let good := recordGood g
    let first := firstRow s src row
    let v := if recordGood (shadowAt s src first) then (shadowAt s src first).valid else entryValid s src first (rowsAt s src row)
    let d := if good then g.data else r.data
    let m := if good then g.mask else r.mask
    let n := if good then g.near else r.near
    let s := putRow s dst row
      { data := d, mask := m, valid := v, check := rowCheck dst row d m v, near := n, nchk := nearCheck dst row n,
        prio := prioOf n, ppar := true, poison := r.poison, rewritten := r.rewritten,
        failed := r.failed }
    putShadow s dst row { g with valid := v, injected := false }) s
  (List.range 512).foldl (fun s pan =>
    [0, 4].foldl (fun s o => match mget s.regs.file (tagAddr src pan + o) with
      | some v => covered (setReg s (tagAddr dst pan + o) v) (tagAddr dst pan + o)
      | none => s) s) s

/-- Copy the entries of one home to the other in a map kept per home. -/
def copyHome {α : Type} (m : SMap α) (src dst : Nat) : SMap α :=
  (m.filter fun e => e.1 % 2 == src).foldl (fun m (e : Nat × α) => mput m (e.1 - src + dst) e.2)
    (m.filter fun e => e.1 % 2 != dst)

/-- The returning half's memory is a copy of the serving half's (R44). -/
def copyMemory (s : State) (src dst : Nat) : State :=
  modMem s fun m => { m with
    poison := copyHome m.poison src dst
    encBy := copyHome m.encBy src dst
    pages := (copyHome m.pages src dst).map fun e : Nat × Page =>
      if e.1 % 2 = dst then (e.1, { e.2 with hot := false, move := none }) else e
    damage := m.damage.filter fun e => e.1 % 2 != dst
    badMap := m.badMap.filter fun e => e.1 % 2 != dst }

/-- The returning hub copies the log records it lacks (R421). -/
def catchUpLog (s : State) (half : Nat) : State :=
  match s.log.lack.getD half none with
  | some first =>
    let n := min (s.log.next - first) 65472
    let wr := (List.range n).foldl (fun m i => bump m (2048 * half + circSector (s.log.next - 1 - i)) 3) s.life.now.mramWr
    let s := modLedger s fun l => { l with mramWr := wr }
    { s with log := { s.log with lack := s.log.lack.set half none } }
  | none => s

/-- No update is outstanding: no move stands in a rake and no bulk load runs (R44). -/
def updatesDone (s : State) : Bool :=
  s.fronds.all (fun f => f.move.isNone && f.moves.isEmpty) && !s.jobs.any fun e : Nat × Job => e.2.kind == .load

/-- PAIR_RESYNC_DONE (R44, R432): the copy is complete and no update is outstanding; the half joins as the non-primary half. The copy
is whole at this moment, with every update made meanwhile (DESIGN CHOICE, log 33). The row is sent again while an update is
outstanding. -/
def execPairResyncDone (half : BitVec 1) (ms : BitVec 32) (s : State) : Res :=
  let h := half.toNat
  .next (if inPair s && halfState s h == .resync && updatesDone s then
    let s := copyMemory s (1 - h) h
    let s := [0, 1, 2].foldl (fun s k => rebuildArray s (2 + k + 3 * (1 - h)) (2 + k + 3 * h)) s
    let s := catchUpLog s h
    let s := (halfDies h).foldl (fun s d => setDie s d true) (setHalf s h .serving)
    let s := { s with pkg := { s.pkg with resync := none, memActive := s.pkg.memActive.set h true } }
    let s := modMem s fun m => { m with patrol := m.patrol.set h (nowNs s, 0) }
    let s := (hubPorts h).foldl (fun s p => if ((s.ports[p]?).map fun x => x.st) == some .down then bringUp s p else s) s
    let s := activateFw s h
    let s := raiseFull s 0x9006 0 0xFF 0xFF (halfFlag h) 0 [(1, h), (4, ms.toNat)] .steward
    resolveAll (ledgerWrite s false) 6
  else s)

/-- A write of PKG.MODE that took effect (R34, R42): SEL goes to the configuration store for the next full re-initialisation, 3 keeps
the mode; SUB is staged. The smaller parts ignore both (R3). -/
def modeWrite (s : State) (w : Word32) : State :=
  if s.chip.part != .ls8 then s
  else
    let a := globalPage 0 + 0x800
    let (s, v) := guardStore s a ⟨0x800, 3, 0x10⟩ w
    if maskOf w &&& 3 = 0 then s
    else
      let m : BitVec 2 := (v &&& 3).setWidth 2
      covered (storeWrite { s with store := { s.store with sel := if m = 3 then none else some m } }) a

/-- PKG_MODE_SEL (R34). -/
def execPkgModeSel (p : Place) (w : Word32) (s : State) : Res := .next (onGuard s p (globalPage 0 + 0x800) w modeWrite)

/-! Harvest dumps (R425 to R428) -/

/-- Change a hub's harvest record. -/
def modHarvest (s : State) (h : Nat) (f : Harvest → Harvest) : State := { s with harvest := s.harvest.modify h f }

/-- A hub's harvest record. -/
def harvestOf (s : State) (h : Nat) : Harvest := s.harvest.getD h ⟨false, false, false, false, 0, 0, 0⟩

/-- A fatal event about hubs: to the steward, and into the fatal log of every logical device of their links (R426 step 3). -/
def fatalEvent (s : State) (code die : Nat) (hs : List Nat) (items : List (Nat × Nat)) : State :=
  let r : EvRec :=
    { code := BitVec.ofNat 16 code, seq := BitVec.ofNat 48 s.log.next, tb := BitVec.ofNat 64 s.clock.tb, cal := s.clock.cal,
      die := BitVec.ofNat 8 die, seat := 0xFF, flags := eventFlags s 3 0, count := 0, detail := detail items }
  let s := event s code 3 die 0xFF items .steward
  s.lds.foldl (fun s (e : Nat × Ld) =>
    let p : Place := BitVec.ofNat 16 e.1
    if e.2.bound && hs.contains (placeHub p) && placeUp s p && !(e.2.seat.isSome && e.2.seat == s.steward.holder) then
      modLd s p (ldRecord 3 r)
    else s) s

/-- A hub freezes its half and begins its dump. -/
def freezeHub (cause : Nat) (s : State) (h : Nat) : State :=
  let s := { s with pkg := { s.pkg with frozen := s.pkg.frozen.set h true, memActive := s.pkg.memActive.set h false } }
  fresh (modHarvest s h fun _ => ⟨true, false, false, true, BitVec.ofNat 16 cause, s.freeCtr, nowNs s⟩)

/-- The hubs that a cause at a hub makes dump: in whole mode every hub that still runs, in pair mode its own (R425). -/
def dumpers (s : State) (hub : Nat) : List Nat := if inPair s then [hub] else (hubs s).filter (dieIn s)

/-- A harvest cause at a hub (R425 to R427): the event, then the dump; while a dump is held no second one is taken. -/
def harvestCause (s : State) (hub code die : Nat) (items : List (Nat × Nat)) : State :=
  let hs := dumpers s hub
  let s := fatalEvent s code die hs items
  if hs.any fun h => (harvestOf s h).held then
    event s 0xA004 3 hub 0xFF [(2, code), (1, hub), (1, 0), (1, 1)] .steward
  else
    let s := if inPair s && halfState s hub != .out then halfOut s hub 1 else s
    hs.foldl (freezeHub code) (assertFault (endSessions s))

/-- HARVEST_DUMP_DONE (R426): the dump's sections are written. -/
def execHarvestDumpDone (hub : BitVec 1) (partly : Bool) (s : State) : Res :=
  let h := hub.toNat
  .next (if (harvestOf s h).busy then
    let s := modHarvest s h fun x => { x with busy := false, valid := true, partly := partly, ns := nowNs s }
    let s := raiseFull s 0xA004 3 h 0xFF flagSummary 0
      [(2, (harvestOf s h).cause.toNat), (1, h), (1, if partly then 1 else 0), (1, 0)] .steward
    ledgerWrite (modLedger s fun l => { l with harvests := inc32 l.harvests }) false
  else s)

/-- The hub that HARVEST.HUB names. -/
def harvestHub (s : State) : Nat := bits (reg s (globalPage 0xA + 0x40)) 0 0

/-- A write of HARVEST.TAKE that took effect (R428). -/
def takeWrite (s : State) (w : Word32) : State :=
  let a := globalPage 0xA + 0x800
  let (s, v) := guardStore s a ⟨0x800, 1, 0⟩ w
  let s := setReg s a 0
  let h := harvestHub s
  if v.getLsbD 0 && present s h then harvestCause s h 0xA006 h [(1, h)] else s

/-- A write of HARVEST.RELEASE that took effect (R428): the region is free, and FAULT_N is released once no dump is held (R473). -/
def releaseWrite (s : State) (w : Word32) : State :=
  let a := globalPage 0xA + 0x804
  let (s, v) := guardStore s a ⟨0x804, 1, 0⟩ w
  let s := setReg s a 0
  let h := harvestHub s
  let x := harvestOf s h
  if v.getLsbD 0 && x.held && !x.busy then
    let s := modHarvest s h fun _ => ⟨false, false, false, false, 0, x.stamp, x.ns⟩
    let s := if s.harvest.any fun y => y.held then s else { s with pins := { s.pins with fault := false } }
    event s 0xA005 0 h 0xFF [(1, h)] .steward
  else s

/-- HARVEST_TAKE (R428). -/
def execHarvestTake (p : Place) (w : Word32) (s : State) : Res := .next (onGuard s p (globalPage 0xA + 0x800) w takeWrite)

/-- HARVEST_RELEASE (R428). -/
def execHarvestRelease (p : Place) (w : Word32) (s : State) : Res := .next (onGuard s p (globalPage 0xA + 0x804) w releaseWrite)

/-- FW_FAULT (R425): a management core's watchdog, or management state that no check can mend. -/
def execFwFault (hub : BitVec 1) (core : BitVec 2) (code : Word) (s : State) : Res :=
  let h := hub.toNat
  let items := [(1, core.toNat), (2, code.toNat)]
  .next (if !present s h || decide (s.boot.stage.toNat < 5) || decide (0x0B < s.boot.stage.toNat) then s
  else if started s then harvestCause s h 0x900D h items
  else fatalEvent s 0x900D h [h] items)

/-- A ring has a completion ready whose line finds no media at a hub (R224). -/
def ringsShort (s : State) (h : Nat) : Bool :=
  s.rings.any fun e : Nat × Ring => !e.2.owed.isEmpty &&
    (let line := compLine s e.1 0
     (homes s line).contains h && mediaShort s h (mediaNeed s line h false))

/-- The oldest held write of a hub still finds no media (R224). -/
def heldShort (s : State) (h : Nat) : Bool :=
  match s.mem.held.getD h [] with
  | w :: _ => writeShort s w.line (w.be == BitVec.allOnes 64 && w.data == 0 && !w.poison)
  | [] => false

/-- MEDIA_WAIT_EXPIRE (R224), a timer that wakes the hub (R357): the oldest write that waits for media, a host's or the device's own, is made
where some has come free; where none has, memory stops serving with MEM_EXHAUSTED. -/
def execMediaWaitExpire (hub : BitVec 1) (s : State) : Res :=
  let h := hub.toNat
  let before := (s.mem.held.getD h []).length
  .next (if before = 0 && !ringsShort s h || halted s h then s
  else
    let s := flushAll (retryHub h before (wakeHub s h))
    if (s.mem.held.getD h []).length < before || !heldShort s h && (before != 0 || !ringsShort s h) then s
    else harvestCause s h 0x300D h [(4, capU s), (4, capP s)])

/-! Fronds and links (R28, R48, R49, R434, R435) -/

/-- Some table, in service or closing, holds a pan of a frond. -/
def frondUsed (s : State) (die : Nat) : Bool := s.tables.any fun e : Nat × Table => tableOn s e.2 die

/-- An array after the fill of R288; the spare map, and what is dead, stand in MRAM. -/
def refill (a : FrondArray) : FrondArray := { arrayReset with phys := a.phys, spares := a.spares, dead := a.dead }

/-- A frond's sluice tags and their hub copies return to dark (R288). -/
def darkTags (s : State) (die : Nat) : State :=
  let here (a : Nat) : Bool := decide (diePage die 0x10 ≤ a) && decide (a < diePage die 0x20)
  modRegs s fun g => { g with file := g.file.filter fun e => !here e.1, staged := g.staged.filter fun e => !here e.1 }

/-- A write of FROND.SVC that took effect (R435). -/
def svcWrite (die : Nat) (s : State) (w : Word32) : State :=
  let a := diePage die 0
  let (s, v) := guardStore s (a + 0x800) ⟨0x800, 1, 0⟩ w
  let f := frond s die
  if v.getLsbD 0 then
    if f.svcOut then s
    else if frondUsed s die then orReg s (a + 0xC) 1
    else
      let s := setDie (emptyCache s die) die false
      let s := modFrond s die fun f => { f with svcOut := true, svcReturn := false, dstate := 3, sleeping := none, waking := false }
      let s := { s with pins := { s.pins with enFr := s.pins.enFr.set (die - 2) false } }
      resolveAll (event s 0x9009 0 die 0xFF [(1, die), (1, 0)] .steward) 1
  else if f.svcOut && !f.svcReturn then
    let s := modFrond s die fun f => { f with svcReturn := true }
    { s with pins := { s.pins with enFr := s.pins.enFr.set (die - 2) true } }
  else s

/-- FROND_SVC_OUT (R435). -/
def execFrondSvcOut (p : Place) (die : BitVec 3) (w : Word32) (s : State) : Res :=
  .next (onGuard s p (diePage die.toNat 0 + 0x800) w (svcWrite die.toNat))

/-- FROND_SVC_IN (R435). -/
def execFrondSvcIn (p : Place) (die : BitVec 3) (w : Word32) (s : State) : Res :=
  .next (onGuard s p (diePage die.toNat 0 + 0x800) w (svcWrite die.toNat))

/-- SELFTEST_FAIL of a die (R290). -/
def selftestFail (s : State) (x : BitVec 3 × Word × Word) : State :=
  event s 0x5006 2 x.1.toNat 0xFF [(2, x.2.1.toNat), (2, x.2.2.toNat)] .steward

/-- FROND_SVC_IN_DONE (R435): the fill and the self-test of the returning frond are over; a failed checker holds it out (R290), and a
hub link that is down keeps it out of reach. -/
def execFrondSvcInDone (die : BitVec 3) (out : SelftestOut) (s : State) : Res :=
  let d := die.toNat
  let bad := out.failed.filter fun x => x.1 == die
  .next (if (frond s d).svcOut && (frond s d).svcReturn then
    if bad.isEmpty then
      let s := darkTags (modFrond s d fun f => { f with
        arr := refill f.arr, svcOut := false, svcReturn := false, dstate := 0, level := 4, levelTo := none, relock := false,
        hce := [], scrubPos := 0, scrubFrom := nowNs s, scrubLate := false, panOp := none }) d
      resolveAll (event (setDie s d (!s.pkg.linksDown.contains d)) 0x9009 0 d 0xFF [(1, d), (1, 1)] .steward) 1
    else bad.foldl selftestFail (modFrond s d fun f => { f with svcReturn := false })
  else s)

/-- A frond or a link of it fails: in whole mode what needs it faults, in pair mode its half goes out (Table 1.7). -/
def frondFails (s : State) (die cause : Nat) : State :=
  if inPair s then
    let s := event s 0x9008 2 die 0xFF [(1, die), (1, cause)] .steward
    if halfState s (halfOf die) = .out then s else halfOut s (halfOf die) 1
  else frondGone s die cause

/-- FROND_LOST (R48, R49). -/
def execFrondLost (die : BitVec 3) (s : State) : Res :=
  let d := die.toNat
  .next (if started s && decide (2 ≤ d) && present s d && !(frond s d).lost && (dieIn s d || comingBack s (halfOf d)) then
    frondFails (modFrond s d fun f => { f with lost := true }) d 0
  else s)

/-- A frond whose cascade input or output a hop serves, and the half that a lost hop takes out: in pair mode the ring is opened
between the halves (R36). -/
def hopHalf (f : Nat) : Option Nat := if f < 2 then some 0 else if f = 3 || f = 4 then some 1 else none

/-- A link code names a link of this part (Table 11.9). -/
def linkHere (s : State) (l : Nat) : Bool :=
  (decide (2 ≤ l) && decide (l ≤ 7) && present s l) || ((l == 0x10 || l == 0x11) && s.chip.part = .ls8) ||
    (decide (0x20 ≤ l) && decide (l < 0x26) && present s (l - 0x20 + 2) && s.chip.part != .ls2)

/-- Both cross links are down (Table 1.7): in pair mode the half that is not primary goes out; in whole mode each home treats the
other half's agents as lost, and searches that need the other half fault. -/
def crossLost (s : State) : State :=
  if inPair s then
    let other := 1 - primary s
    if halfState s other = .out then s else halfOut s other 1
  else
    let s := [2, 3, 4, 8, 9, 10, 11].foldl (fun s a => loseAgent s a [1]) s
    let s := [5, 6, 7, 12, 13, 14, 15].foldl (fun s a => loseAgent s a [0]) s
    failSearches s (fun q => farHubCut s (((seatPlace s q.seat).map placeHub).getD 0) (q.res.map fun r => r.die))
      stHubUnreachable

/-- What a link that is down takes with it in service (Table 1.7). -/
def linkEffect (s : State) (k : Nat) : State :=
  if k < 8 then (if dieIn s k || comingBack s (halfOf k) then frondFails s k 1 else s)
  else if k < 0x20 then (if crossCut s then crossLost s else s)
  else if inPair s then
    match hopHalf (k - 0x20) with
    | some h => if halfState s h = .out then s else halfOut s h 1
    | none => s
  else failSearches s (fun q => arcBroken s (q.res.map fun r => r.die - 2)) stCascadeBroken

/-- LINK_UP (R28): the link has trained again; in whole mode a frond that was out of reach only for it serves again. -/
def execLinkUp (l : BitVec 8) (s : State) : Res :=
  let k := l.toNat
  .next (if s.pkg.linksDown.contains k then
    let s := { s with pkg := { s.pkg with linksDown := s.pkg.linksDown.filter (· != k) } }
    let s := event s 0x9002 0 (if k < 8 then k else 0xFF) 0xFF [(1, k)] .steward
    if started s && k < 8 && !inPair s && !(frond s k).lost && !(frond s k).svcOut then resolveAll (setDie s k true) 6 else s
  else s)

/-- A hub fails (R24, Table 1.7): in whole mode its half is lost and the package stops serving, with a dump by the hub that still
runs; in pair mode its half goes out. -/
def hubFails (s : State) (h : Nat) : State :=
  if inPair s then
    let s := event s 0x900A 3 h 0xFF [(1, h)] .steward
    if halfState s h = .out then s else halfOut s h 1
  else
    let s := (hubPorts h).foldl (fun s p => cutPort s p 1) s
    let s := (halfDies h).foldl (fun s d => setDie s d false) s
    let s := (halfDies h).foldl (fun s d => modFrond s d fun f => { f with lost := true }) s
    let s := { s with pkg := { s.pkg with frozen := s.pkg.frozen.set h true, memActive := s.pkg.memActive.set h false
                                          roleHub := if present s (1 - h) then 1 - h else s.pkg.roleHub } }
    harvestCause s (1 - h) 0x900A h [(1, h)]

/-- HUB_LOST (R24, R48). -/
def execHubLost (hub : BitVec 1) (s : State) : Res :=
  .next (if started s && present s hub.toNat && (dieIn s hub.toNat || comingBack s hub.toNat) then hubFails s hub.toNat else s)

end Sys2Proof.Machine
end

