-- ==== Sys2Proof/Machine/Integrity.lean ====
section
/-!
DEFINITION. Error injection, scrubbing, pan operations and DRAM row retirement (R291 to R300, R430).
-/
namespace Sys2Proof.Machine

/-! Injection (R291, R292) -/

/-- INJ page of a die. -/
def injPage (die : Nat) : Nat := if die < 2 then diePage die 0x15 else diePage die 0x25

/-- Greatest WORD and BIT of a kind, and whether a hub and a frond serve it (Tables 7.4a, 7.5). -/
def injKind (k : Nat) : Option (Nat × Nat × Bool × Bool) :=
  match k with
  | 1 => some (4, 15, false, true) | 2 => some (4, 15, false, true) | 3 => some (7, 31, false, true)
  | 4 => some (7, 15, false, true) | 5 => some (3, 15, false, true) | 6 => some (1, 15, false, true)
  | 7 => some (1, 31, true, true) | 8 => some (1, 31, true, true) | 9 => some (7, 15, true, false)
  | 10 => some (7, 9, true, false) | 11 => some (7, 9, true, false) | 12 => some (7, 31, true, false)
  | 13 => some (7, 9, true, false) | _ => none

/-- Bit of near data that bit b of word w names, as R267 joins the bytes. -/
def nearBit (w b : Nat) : Nat := if 8 ≤ b then 16 * w + (b - 8) else 16 * w + 8 + b

/-- Flip the chosen bit of a row (kinds 1 to 5); the checks stay as they were. -/
def injRow (s : State) (die kind word bit row : Nat) : State :=
  let r := rowAt s die row
  let b : Plane := BitVec.ofNat 80 (2 ^ (16 * word + bit))
  let r' : Row := match kind with
    | 1 => { r with data := r.data ^^^ b }
    | 2 => { r with mask := r.mask ^^^ b }
    | 3 => { r with valid := !r.valid }
    | 4 => { r with check := r.check ^^^ BitVec.ofNat 16 (2 ^ bit) }
    | _ => { r with near := r.near ^^^ BitVec.ofNat 64 (2 ^ nearBit word bit) }
  modArr (putRow s die row r') die fun a => { a with injected := mput a.injected row () }

/-- An odd number of bits is set. -/
def oddParity (w : Word) : Bool := (List.range 16).foldl (fun p i => p != w.getLsbD i) false

/-- Flip a bit of a pan's tag (kind 6): parity fails while an odd number of bits is wrong (R269). -/
def injTag (s : State) (die word bit pan : Nat) : State :=
  let k := 2 * pan + word
  modArr s die fun a =>
    let f := (mget a.tagFlip k).getD 0 ^^^ BitVec.ofNat 16 (2 ^ bit)
    { a with tagFlip := mput a.tagFlip k f, tagBad := if oddParity f then mput a.tagBad k true else mdel a.tagBad k }

/-- The copy of a line that a die's SRAM holds: its home, agent and whether it is dirty. A hub's own storage comes before the buffers
of its compression engines. -/
def sramCopy (s : State) (die line : Nat) : Option (Nat × Nat × Bool) :=
  let agents := if die < 2 then [8 + 4 * die, 9 + 4 * die, 10 + 4 * die, 11 + 4 * die] else [die]
  let own := if die < 2 && homeHolds s line die then some (die, die, homeDirty s line die) else none
  own.or ((List.range 2).findSome? fun hub => agents.findSome? fun a =>
    (copyOf s line hub a).map fun c => (hub, a, dirtySt (some c)))

/-- A bit is flipped in a list of flipped bits: a second flip restores it. -/
def flipBit (l : List Nat) (b : Nat) : List Nat := if l.contains b then l.filter (· != b) else b :: l

/-- Flip a bit of an agent's copy of a line, and of its twin where `both` says so (kinds 7 and 8). -/
def flipCopy (s : State) (line hub a b : Nat) (both : Bool) : State :=
  let k := copyKey line hub a
  let (x, y) := (mget s.coh.damage k).getD ([], [])
  let d := (flipBit x b, if both then flipBit y b else y)
  modCoh s fun c => { c with damage := if d.1.isEmpty && d.2.isEmpty then mdel c.damage k else mput c.damage k d }

/-- x4 devices of a line are armed: they fail from the next write of the line on (kinds 10 and 11). -/
def armMedia (s : State) (line hub : Nat) (devices : BitVec 10) : State :=
  modMem s fun m =>
    let e := (mget m.damage (hkey line hub)).getD { armed := 0, present := 0, lost := false }
    { m with damage := mput m.damage (hkey line hub) { e with armed := e.armed ||| devices } }

/-- The bit of a 64-byte line that WORD, BIT and bits [5:3] of the target's DPA name (Table 7.4a). -/
def lineBit (word bit target : Nat) : Nat := 64 * (target / 8 % 8) + 32 * (word % 2) + bit

/-- Damage the line of one target (kinds 7 to 12), or nothing where it is absent. -/
def injLine (s : State) (die kind word bit target line : Nat) : Option State :=
  let here := (homes s line).contains die
  let b := lineBit word bit target
  match kind with
  | 7 => (sramCopy s die line).map fun c => flipCopy s line c.1 c.2.1 b false
  | 8 => match sramCopy s die line with
    | some (hub, a, true) => some (flipCopy s line hub a b true)
    | _ => none
  | 9 =>
    if mhas s.coh.dir (hkey line die) then
      some (modCoh s fun x => { x with dir := mmod x.dir (hkey line die) fun e =>
        let f := flipBit e.flips (16 * word + bit)
        { e with flips := f, bad := !f.isEmpty } })
    else none
  | 10 => if here then some (armMedia s line die (BitVec.ofNat 10 (2 ^ bit))) else none
  | 11 => if here then some (armMedia s line die (BitVec.ofNat 10 (2 ^ bit + 2 ^ ((bit + 1) % 10)))) else none
  | _ =>
    if here then
      some (modMem (pageWrite s line die false) fun m => { m with poison := mput m.poison (hkey line die) true })
    else none

/-- Make two devices of a shadow record fail (kind 13). -/
def injShadow (s : State) (die row : Nat) : State := putShadow s die row { shadowAt s die row with lost := true, injected := true }

/-- The frond whose shadow a hub's kind 13 names: bits [24:22] as in a POS word, or the hub's only frond (log 41). -/
def shadowDie (s : State) (hub target : Nat) : Option Nat :=
  match (frondDies s).filter fun d => halfOf d == hub with
  | [d] => some d
  | ds => ds.find? fun d => d == posDie target

/-- An injection with GO set (R292). -/
def inject (s : State) (die kind word bit count target : Nat) : State :=
  let stat := injPage die + 0xC
  let miss := orReg s stat 1
  let badKind := orReg s stat 2
  let row := target % 4194304
  if count = 0 then s
  else match injKind kind with
  | none => badKind
  | some (w, b, hub, fr) =>
    if !(if die < 2 then hub else fr) || w < word || b < bit then badKind
    else if kind ≤ 5 then
      if row + count ≤ 4194304 then (List.range count).foldl (fun s i => injRow s die kind word bit (row + i)) s else miss
    else if kind = 6 then
      if row / 8192 + count ≤ 512 then (List.range count).foldl (fun s i => injTag s die word bit (row / 8192 + i)) s else miss
    else if kind = 13 then
      match shadowDie s die target with
      | some d => if row + count ≤ 4194304 then (List.range count).foldl (fun s i => injShadow s d (row + i)) s else miss
      | none => miss
    else
      (List.range count).foldl (fun s i => (injLine s die kind word bit target (target % 2 ^ 43 / 64 + i)).getD (orReg s stat 1)) s

/-- A write of INJ.CTL that took effect. A frond that sleeps wakes for it (R357). -/
def injWrite (die : Nat) (s : State) (w : Word32) : State :=
  let a := injPage die + 0x800
  let (s, v) := guardStore s a ⟨0x800, 0xFFFF, 0⟩ w
  let s := setReg s a (v &&& 0xFFFE)
  if v.getLsbD 0 then
    inject (if die < 2 then s else wakeDie s die) die (bits v 7 4) (bits v 15 13) (bits v 12 8) (bits v 3 1)
      (regWide s (injPage die + 0x40) 3)
  else s

/-- INJ_ROW_DATA (R291). -/
def execInjRowData (p : Place) (die : BitVec 3) (w : Word32) (s : State) : Res :=
  .next (onGuard s p (injPage die.toNat + 0x800) w (injWrite die.toNat))

/-- INJ_ROW_MASK (R291). -/
def execInjRowMask (p : Place) (die : BitVec 3) (w : Word32) (s : State) : Res :=
  .next (onGuard s p (injPage die.toNat + 0x800) w (injWrite die.toNat))

/-- INJ_ROW_VALID (R291). -/
def execInjRowValid (p : Place) (die : BitVec 3) (w : Word32) (s : State) : Res :=
  .next (onGuard s p (injPage die.toNat + 0x800) w (injWrite die.toNat))

/-- INJ_ROW_CHECK (R291). -/
def execInjRowCheck (p : Place) (die : BitVec 3) (w : Word32) (s : State) : Res :=
  .next (onGuard s p (injPage die.toNat + 0x800) w (injWrite die.toNat))

/-- INJ_NEAR_DATA (R291). -/
def execInjNearData (p : Place) (die : BitVec 3) (w : Word32) (s : State) : Res :=
  .next (onGuard s p (injPage die.toNat + 0x800) w (injWrite die.toNat))

/-- INJ_SLUICE_TAG (R291). -/
def execInjSluiceTag (p : Place) (die : BitVec 3) (w : Word32) (s : State) : Res :=
  .next (onGuard s p (injPage die.toNat + 0x800) w (injWrite die.toNat))

/-- INJ_SRAM_LINE (R291). -/
def execInjSramLine (p : Place) (die : BitVec 3) (w : Word32) (s : State) : Res :=
  .next (onGuard s p (injPage die.toNat + 0x800) w (injWrite die.toNat))

/-- INJ_DIRTY_TWINS (R291). -/
def execInjDirtyTwins (p : Place) (die : BitVec 3) (w : Word32) (s : State) : Res :=
  .next (onGuard s p (injPage die.toNat + 0x800) w (injWrite die.toNat))

/-- INJ_DIRECTORY (R291). -/
def execInjDirectory (p : Place) (die : BitVec 3) (w : Word32) (s : State) : Res :=
  .next (onGuard s p (injPage die.toNat + 0x800) w (injWrite die.toNat))

/-- INJ_DRAM_ONE_DEVICE (R291). -/
def execInjDramOneDevice (p : Place) (die : BitVec 3) (w : Word32) (s : State) : Res :=
  .next (onGuard s p (injPage die.toNat + 0x800) w (injWrite die.toNat))

/-- INJ_DRAM_TWO_DEVICES (R291). -/
def execInjDramTwoDevices (p : Place) (die : BitVec 3) (w : Word32) (s : State) : Res :=
  .next (onGuard s p (injPage die.toNat + 0x800) w (injWrite die.toNat))

/-- INJ_POISON (R291). -/
def execInjPoison (p : Place) (die : BitVec 3) (w : Word32) (s : State) : Res :=
  .next (onGuard s p (injPage die.toNat + 0x800) w (injWrite die.toNat))

/-- INJ_SHADOW_RECORD (R291). -/
def execInjShadowRecord (p : Place) (die : BitVec 3) (w : Word32) (s : State) : Res :=
  .next (onGuard s p (injPage die.toNat + 0x800) w (injWrite die.toNat))

/-! Scrubbing (R293, R294) -/

/-- Physical rows of a frond. -/
def physRows : Nat := 544 * 8192

/-- The logical pan that a physical pan stands for, if any (R58). -/
def logicalPan (s : State) (die phys : Nat) : Option Nat :=
  ((List.range 32).map (32 * (phys / 34) + ·)).find? fun p => physPan s die p == phys

/-- The valid bits of an entry's rows disagree (Table 7.9). -/
def validSplit (s : State) (die row : Nat) : Bool :=
  let first := firstRow s die row
  (entryRows first (rowsAt s die row)).any fun r => (rowAt s die r).valid != (rowAt s die first).valid

/-- The scrubber reads a row: its check, its near data, its valid bit against those of the entry's other rows, and its priority value's
parity and agreement with bytes 6 and 7 of the near data (R268, R272, R301). -/
def scrubRow (s : State) (die row : Nat) : State :=
  let s := checkRow s die row
  let s := if validSplit s die row then startRepair s die row else s
  let r := rowAt s die row
  if !nearGood die row r || r.ppar && r.prio == prioOf r.near then s else fixPrio s die [row]

/-- SCRUB_LATE, once a sweep (R293); its sweep time includes bridged time where the frond's clocks stopped in it (R372). -/
def scrubLate (s : State) (die : Nat) : State :=
  let f := frond s die
  let period := (reg s (diePage die 0x21 + 0x40)).toNat * 1000000000
  let took := nowNs s - f.scrubFrom
  if f.scrubLate || 10 * took ≤ 11 * period then s
  else
    let extra := if (f.bridged.map fun t => decide (f.scrubFrom ≤ t)).getD false then flagBridged else 0
    raiseFull (modFrond s die fun f => { f with scrubLate := true }) 0x5007 1 die 0xFF extra 0 [(4, sat (took / 1000000) 32)] .steward

/-- One slot of the row scrubber: rows handed over at once (R87), then eight physical rows of the sweep; a pan in Retention is woken
for its rows and returned, without counting as a use; spare, retired and dead pans stand in Retention (R358, R359). -/
def scrubSlot (s : State) (die : Nat) : State :=
  let f := frond s die
  let s := f.arr.scrubReq.foldl (fun s r => scrubRow s die r) (modArr s die fun a => { a with scrubReq := [] })
  let pos := f.scrubPos
  let s := frondOp s die opScrub 8 none
  let s := match logicalPan s die (pos / 8192) with
    | some pan =>
      let s := if pos % 8192 = 0 then
          let s := if retained s die pan then frondOp s die opWake 1 none else s
          tagChecks s die [pan]
        else s
      (List.range 8).foldl (fun s i => scrubRow s die (rowIndex pan (pos % 8192 + i))) s
    | none => if pos % 8192 = 0 then frondOp s die opWake 1 none else s
  let s := scrubLate s die
  if pos + 8 < physRows then modFrond s die fun f => { f with scrubPos := pos + 8 }
  else modFrond s die fun f => { f with scrubPos := 0, scrubFrom := nowNs s, scrubLate := false }

/-- SCRUB_SLOT (R293). -/
def execScrubSlot (die : BitVec 3) (s : State) : Res :=
  let d := die.toNat
  .next (if !frondServes s d then s else if !awake s d then wakeDie s d else scrubSlot s d)

/-- A newer copy of the line waits to overwrite what DRAM holds, or the page has no media there. -/
def mediaStale (s : State) (line hub : Nat) : Bool :=
  let p := pageAtHub s (pageOfLine line) hub
  p.st == .zero || p.hot || anyDirty s line hub || mget s.coh.buf (hkey line hub) == some true ||
    s.coh.wb.contains (hkey line hub)

/-- The media of a line are stored as poisoned, while the package holds the line itself (R277). -/
def loseMedia (s : State) (line hub : Nat) : State :=
  let k := damageKey s line hub
  modMem s fun m =>
    let e := (mget m.damage k).getD { armed := 0, present := 0, lost := false }
    { m with damage := mput m.damage k { armed := 0, present := e.armed, lost := true } }

/-- The media of a line are read while the package holds a copy of it that no error touches: a corrected error is counted and the line
written back (R276); of an uncorrectable one the media are stored as poisoned, with DRAM_UE once (R277), or mended from the other half
(R278). -/
def staleRead (s : State) (line hub : Nat) (ecc : Ecc) (coord : BitVec 48) : State :=
  let inj := mediaError s line hub
  let fl := if inj = 2 then flagInjected else 0
  if mediaLost s line hub then s
  else if inj = 2 || ecc = .uncorrectable then
    if otherGood s hub line then
      raiseFull (rewriteMedia s line hub) 0x300B 1 hub 0xFF fl 0 [(8, coord.toNat), (8, 64 * line)] (.dpa (64 * line))
    else raiseFull (loseMedia s line hub) 0x300A 2 hub 0xFF fl 0 [(8, coord.toNat), (8, 64 * line)] (.dpa (64 * line))
  else if inj = 1 || ecc = .corrected then
    dramCe (if inj = 0 then s else rewriteMedia s line hub) hub line coord (inj = 1)
  else s

/-- A line's media are read, by the patrol or a move of their frame (R276, R277, R294, R300); a ZERO page has none. The image of a PACKED
page is read whole. -/
def mediaRead (s : State) (line hub : Nat) (ecc : Ecc) (coord : BitVec 48) : State :=
  match (pageAtHub s (pageOfLine line) hub).st with
  | .zero => s
  | .packed _ => dramRead s line hub ecc coord
  | .plain => if mediaStale s line hub then staleRead s line hub ecc coord else dramRead s line hub ecc coord

/-- The sweep of a hub's patrol is behind its even pace, so that DSCRUB.PERIOD is about to be missed (R294; DESIGN CHOICE, log 36). -/
def patrolLate (s : State) (hub : Nat) : Bool :=
  let (from_, done) := s.mem.patrol.getD hub (0, 0)
  decide (done * (3600000000000 * s.mem.dscrub.getD hub 24) < (nowNs s - from_) * (s.mem.installed.getD hub 0 / 64))

/-- The tally lets the patrol read a line: out of slack, or beyond it where its period would be missed (R294, R349). -/
def patrolDue (s : State) (hub : Nat) : Bool := decide (opCost s opDram 0 ≤ s.tally.slackScrub) || patrolLate s hub

/-- The patrol has read one more line: charged as background work out of its slack; after the last line of the installed DRAM a new sweep
begins (R294). -/
def patrolStep (s : State) (hub : Nat) : State :=
  let c := opCost s opDram 0
  let s := modTally (chargeBg (bookOp s (14 + hub) c) c) fun t => { t with slackScrub := t.slackScrub - c }
  let (from_, done) := s.mem.patrol.getD hub (0, 0)
  let next := if done + 1 < s.mem.installed.getD hub 0 / 64 then (from_, done + 1) else (nowNs s, 0)
  modMem s fun m => { m with patrol := m.patrol.set hub next }

/-- PATROL_SCRUB (R280, R294): a line of a page, or of a reserved region, is read and mended or poisoned, where the tally has slack for it
(R349); the patrol stops while a junction is critical (Table 9.2). A hub in Doze wakes for it (R357). -/
def execPatrolScrub (hub : BitVec 1) (target : PatrolTarget) (ecc : Ecc) (coord : BitVec 48) (s : State) : Res :=
  let h := hub.toNat
  let ce (s : State) (dpa : Nat) (dst : Recip) : State := if ecc = .corrected then dramCeAt s h dpa dst coord false else s
  .next (if !hubServes s h || !started s || decide (3 ≤ s.tally.therm) || !patrolDue s h then s
  else
    let s := patrolStep (wakeHub s h) h
    match target with
    | .line l => if (homes s l.toNat).contains h then mediaRead s l.toNat h ecc coord else s
    | .pageMap page =>
      let a := 4096 * page.toNat
      let s := if ecc = .uncorrectable then loseMap s page.toNat h else s
      if mhas s.mem.badMap (hkey page.toNat h) then pageMapLost s page.toNat h else ce s a (.dpa a)
    | .shadow die row =>
      let d := die.toNat
      let r := row.toNat
      if !(present s d && decide (2 ≤ d) && halfOf d == h) then s
      else
        let s := if ecc = .uncorrectable then putShadow s d r { shadowAt s d r with lost := true } else ce s 0 .steward
        rebuildRecord s d r
    | .harvest =>
      if ecc = .uncorrectable then
        let s := modHarvest s h fun x => if x.held then { x with partly := true } else x
        event s 0x300A 2 h 0xFF [(8, coord.toNat), (8, 0)] .steward
      else ce s 0 .steward)

/-! Pan operations (R295 to R297, R430) -/

/-- REPAIR.STAT.RESULT of a frond. -/
def setRepair (s : State) (die r : Nat) : State := setReg s (diePage die 0x22 + 0xC) (BitVec.ofNat 16 r)

/-- PAN_STATE of a physical pan. -/
def setPanState (s : State) (die phys st : Nat) : State :=
  modLedger s fun l => { l with panState := mput l.panState (panIndex die phys) (BitVec.ofNat 16 st) }

/-- The lowest spare left in a pan's bed. -/
def spareOf (s : State) (die pan : Nat) : Option Nat :=
  ((frond s die).arr.spares.filter fun x => x / 34 == pan / 32).foldl (fun r x => some (min x (r.getD x))) none

/-- PAN_RETIRED, six POS words to a record (R477). -/
def panRetired (s : State) (die pan : Nat) (lost : List Nat) : State :=
  let recs := (List.range (max 1 ((lost.length + 5) / 6))).map fun i => (lost.drop (6 * i)).take 6
  recs.foldl (fun s l =>
    event s 0x1008 1 die 0xFF ([(2, pan), (2, sat lost.length 16)] ++ l.map fun r => (4, posOf die r)) .steward) s

/-- OP 3: a pan is retired without a spare (R297); a dead pan rests in Retention (R358). -/
def retireBare (s : State) (die pan : Nat) (force : Bool) : State :=
  let n := rowsAt s die (8192 * pan)
  let live := validEntries s die pan n
  if !force && !live.isEmpty then setRepair s die 5
  else
    let s := live.foldl (fun s r => invalidateEntry s die r n) s
    let s := modArr s die fun a => { a with dead := if a.dead.contains pan then a.dead else pan :: a.dead }
    let s := modArr s die fun a => { a with awake := mdel a.awake pan }
    let s := setPanState s die (physPan s die pan) 3
    let s := ledgerWrite (panRetired (setRepair s die 2) die pan live) false
    resolveAll s 4

/-- A write of REPAIR.CMD that took effect (R295). -/
def repairWrite (die : Nat) (s : State) (w : Word32) : State :=
  let (s, v) := guardStore s (diePage die 0x22 + 0x800) ⟨0x800, 0xC3FF, 0⟩ w
  let op := bits v 15 14
  let pan := bits v 8 0
  if op = 0 then s
  else
    let s := wakeDie s die
    if (frond s die).panOp.isSome then setRepair s die 3
    else if op = 3 then retireBare s die pan (v.getLsbD 9)
    else match spareOf s die pan with
      | none => setRepair s die 4
      | some sp =>
        let o : PanOp := { op := op, pan := pan, old := physPan s die pan, spare := sp, switched := false }
        setRepair (modFrond s die fun f => { f with panOp := some o }) die 1

/-- REPAIR_FENCE (R296, R430). -/
def execRepairFence (p : Place) (die : BitVec 3) (w : Word32) (s : State) : Res :=
  .next (onGuard s p (diePage die.toNat 0x22 + 0x800) w (repairWrite die.toNat))

/-- REPAIR_RETIRE (R296). -/
def execRepairRetire (p : Place) (die : BitVec 3) (w : Word32) (s : State) : Res :=
  .next (onGuard s p (diePage die.toNat 0x22 + 0x800) w (repairWrite die.toNat))

/-- REPAIR_RETIRE_NO_SPARE (R297). -/
def execRepairRetireNoSpare (p : Place) (die : BitVec 3) (w : Word32) (s : State) : Res :=
  .next (onGuard s p (diePage die.toNat 0x22 + 0x800) w (repairWrite die.toNat))

/-- The rows of a pan stand in the spare as the golden shadow holds them; near data stays where it is (R26, R296). -/
def fillSpare (s : State) (die pan : Nat) : State :=
  let here (r : Nat) : Bool := r / 8192 == pan
  let a := (frond s die).arr
  let rows := (((a.rows.map fun e : Nat × Row => e.1) ++ a.shadow.map fun e : Nat × Shadow => e.1).filter here).eraseDups
  rows.foldl (fun s r =>
    let s := rebuildRecord s die r
    let g := shadowAt s die r
    let x := rowAt s die r
    if recordGood g then
      let v := if underRepair s die (firstRow s die r) then x.valid else g.valid
      let s := putRow s die r
        { x with data := g.data, mask := g.mask, valid := v, check := rowCheck die r g.data g.mask v, failed := false }
      if nearGood die r x then modArr s die fun a => { a with injected := mdel a.injected r } else s
    else s) s

/-- PAN_FENCED: 0 passed, 1 failed, 2 not run. -/
def panFenced (s : State) (die : Nat) (o : PanOp) (bist : Nat) : State :=
  event s 0x1007 0 die 0xFF [(2, o.pan), (2, panIndex die o.old), (2, panIndex die o.spare), (1, bist)] .steward

/-- PAN_SPARE_SWITCH (R58, R296): the spare, which rested in Retention, is woken, filled and used (R358, R359), and takes the logical pan; under OP 2 the old pan is retired at once, under OP 1 its BIST
begins. -/
def execPanSpareSwitch (die : BitVec 3) (s : State) : Res :=
  let d := die.toNat
  .next (match (frond s d).panOp with
    | some o =>
      if o.switched || halted s (halfOf d) then s
      else
        let s := fillSpare (frondOp s d opWake 1 none) d o.pan
        let s := if (panOwner s d o.pan).isSome then usePan s d o.pan else s
        let s := modArr s d fun a => { a with phys := mput a.phys o.pan o.spare, spares := a.spares.filter (· != o.spare) }
        let s := setPanState s d o.spare (if panDead s d o.pan then 3 else 0)
        if o.op = 2 then
          let s := setPanState (modFrond s d fun f => { f with panOp := none }) d o.old 2
          ledgerWrite (panFenced (setRepair s d 2) d o 2) false
        else setPanState (modFrond s d fun f => { f with panOp := some { o with switched := true } }) d o.old 4
    | none => s)

/-- PAN_BIST_DONE (R296): a pan that passes joins the spare pool, one that fails is retired. -/
def execPanBistDone (die : BitVec 3) (res : BistOut) (s : State) : Res :=
  let d := die.toNat
  .next (match (frond s d).panOp with
    | some o =>
      if !o.switched || halted s (halfOf d) then s
      else
        let s := modFrond s d fun f => { f with panOp := none }
        match res with
        | .pass =>
          let s := modArr s d fun a => { a with spares := o.old :: a.spares }
          ledgerWrite (panFenced (setRepair (setPanState s d o.old 1) d 2) d o 0) false
        | .fail t =>
          let s := setRepair (setPanState s d o.old 2) d 6
          let s := event s 0x100A 1 d 0xFF [(2, panIndex d o.old), (2, t.toNat)] .steward
          ledgerWrite (panFenced s d o 1) false
    | none => s)

/-! DRAM rows (R299, R300) -/

/-- MEMRET.STAT.RESULT of a hub. -/
def setMemret (s : State) (hub r : Nat) : State := setReg s (diePage hub 0x14 + 0xC) (BitVec.ofNat 16 r)

/-- A MEMRET.ROW value names installed DRAM of a hub (Table 7.8, R209). -/
def rowInstalled (s : State) (hub : Nat) (c : BitVec 48) : Bool :=
  match s.mem.pop.getD hub none with
  | some p =>
    let ch := field (c >>> 37) 0 1 % 8
    decide (field c 5 1 = 0) && decide ((c >>> 18).toNat % 1024 = 0) &&
      (if p.channels.toNat = 3 then decide (ch < 6) && ch % 2 == 0 else decide (ch < 6)) &&
      decide ((c >>> 36).toNat % 2 < p.dimms.toNat) && decide ((c >>> 34).toNat % 4 < p.ranks.toNat)
  | none => false

/-- A write of MEMRET.CMD that took effect; one that arrives while a row is being retired is ignored (log 42). -/
def memretWrite (hub : Nat) (s : State) (w : Word32) : State :=
  let a := diePage hub 0x14 + 0x800
  let (s, v) := guardStore s a ⟨0x800, 1, 0⟩ w
  let s := setReg s a 0
  let c := BitVec.ofNat 48 (regWide s (diePage hub 0x14 + 0x40) 3)
  if !v.getLsbD 0 || (s.mem.retiring.getD hub none).isSome then s
  else if !rowInstalled s hub c then setMemret s hub 3
  else if 1024 ≤ (s.store.retired.getD hub []).length then setMemret s hub 4
  else setMemret (modMem s fun m => { m with retiring := m.retiring.set hub (some c) }) hub 1

/-- MEMRET_GO (R299). -/
def execMemretGo (p : Place) (die : BitVec 3) (w : Word32) (s : State) : Res :=
  .next (onGuard s p (diePage die.toNat 0x14 + 0x800) w (memretWrite die.toNat))

/-- A page has a line whose media lie in a DRAM row of its hub. -/
def pageInRow (s : State) (hub page : Nat) (c : BitVec 48) : Bool :=
  (List.range 64).any fun i => lineCoord s (64 * page + i) hub == c

/-- A page's frame is moved (R215, R300): each line's media are read, so that correctable lines arrive corrected and poisoned ones poisoned;
they are written elsewhere, where an armed error takes effect (R291), and have other coordinates from then on. -/
def moveFrame (s : State) (page hub : Nat) : State :=
  let s := (List.range 64).foldl (fun s i => mediaRead s (64 * page + i) hub .good (lineCoord s (64 * page + i) hub)) s
  modMem s fun m => { m with
    damage := m.damage.map fun e : Nat × MediaErr =>
      if e.1 % 2 = hub && e.1 / 128 = page then
        (e.1, { armed := 0, present := e.2.present ||| e.2.armed, lost := e.2.lost })
      else e
    moved := mput m.moved (hkey page hub) ((mget m.moved (hkey page hub)).getD 0 + 1) }

/-- The live pages of a hub that stand in a DRAM row. -/
def rowPages (s : State) (hub : Nat) (c : BitVec 48) : List Nat :=
  (s.mem.pages.filter fun e : Nat × Page => e.1 % 2 == hub && e.2.st != .zero && pageInRow s hub (e.1 / 2) c).map fun e => e.1 / 2

/-- DRAM_ROW_RETIRED (R300): the row's frames, at most 32, are moved, with the reserved data in them, and marked; P falls by one page for
each, and the row enters the configuration store. A row retired before has no frame left. -/
def execDramRowRetired (hub : BitVec 1) (frames : BitVec 8) (s : State) : Res :=
  let h := hub.toNat
  .next (match s.mem.retiring.getD h none with
    | some c =>
      let n := if (s.store.retired.getD h []).any fun x => x.1 == c then 0 else min frames.toNat 32
      if halted s h then s
      else
        let s := (rowPages s h c).foldl (fun s p => moveFrame s p h) s
        let s := modMem s fun m => { m with retiring := m.retiring.set h none, phys := m.phys.modify h (· - n) }
        let add (l : List (BitVec 48 × Nat)) : List (BitVec 48 × Nat) := if l.any fun x => x.1 == c then l else l ++ [(c, n)]
        let s := storeWrite { s with store := { s.store with retired := s.store.retired.modify h add } }
        let s := event (setMemret s h 2) 0x300E 0 h 0xFF [(8, c.toNat), (1, n)] .steward
        overPromise (capCheck (ledgerWrite s false))
    | none => s)

end Sys2Proof.Machine
end

