-- ==== Sys2Proof/Machine/TallyOps.lean ====
section
/-!
DEFINITION. The tally at work and time: epochs, levels, sleep and wake, pan retention, recalibration, clocks, the calendar (R190, R337 to
R372, R415).
-/
namespace Sys2Proof.Machine

/-! The close of an epoch (R337, R348, R349) -/

/-- The epoch that ends leaves its pool spend and its budget, and turns speculation back on where a condition of R348 no longer
holds. -/
def closeEpoch (s : State) : State :=
  let low := decide (8 * s.tally.qLeft < s.tally.q)
  let s := { s with seats := s.seats.map fun e =>
    (e.1, { e.2 with specOff := e.2.specOff && low && decide (7 * e.2.g ≤ 8 * e.2.spent) }) }
  modTally s fun t => { t with
    qHist := (t.qSpent :: t.qHist).take 8, budgets := (t.b :: t.budgets).take 16, epoch := t.epoch + 1, epochNs := nowNs s }

/-! Temperature (R340, R415) -/

/-- DERATE of a junction reading, mW (Table 9.2): 6 W per °C, readings in quarters of a degree. -/
def derateOf (tj : Int) : Nat := if tj ≤ 420 then 0 else if tj ≤ 460 then 1500 * (tj - 420).toNat else 60000

/-- Step of Table 9.2: 0 none, 1 derating, 2 hot, 3 critical. -/
def thermOf (tj : Int) : Nat := if tj ≤ 420 then 0 else if tj ≤ 460 then 1 else if tj < 472 then 2 else 3

/-- The hottest junction of the dies present. -/
def hottest (s : State) (l : List Word) : Word :=
  ((List.range 8).filter (present s)).foldl (fun m d =>
    let x := l.getD d 0
    if m.toInt < x.toInt then x else m) (l.getD 0 0)

/-- Thermal cycles (R415): a rise of 40 °C above the low mark, then a fall of 40 °C below the high mark. -/
def thermalCycle (s : State) (tj : Int) : State :=
  match s.life.lowMark, s.life.highMark with
  | none, _ => { s with life := { s.life with lowMark := some tj, highMark := none } }
  | some l, none =>
    if l + 160 ≤ tj then { s with life := { s.life with highMark := some tj } }
    else { s with life := { s.life with lowMark := some (min l tj) } }
  | some _, some h =>
    if tj ≤ h - 160 then
      modLedger { s with life := { s.life with lowMark := some tj, highMark := none } } fun l =>
        { l with thermal := inc32 l.thermal }
    else { s with life := { s.life with highMark := some (max h tj) } }

/-- The junction reading of an epoch: DERATE takes effect one boundary later, the caps at once (R340). -/
def thermal (s : State) (e : EpochIn) : State :=
  let w := hottest s e.tj
  let tj := w.toInt
  let old := thermOf s.tally.tj.toInt
  let new := thermOf tj
  let item := [(2, w.toNat)]
  let s := modTally s fun t => { t with
    derate := t.derateNext, derateNext := derateOf tj, tj := w, therm := new,
    junctions := (List.range 8).map fun d => e.tj.getD d 0,
    hotFrom := if 480 ≤ tj then some (t.hotFrom.getD s.clock.tb) else none }
  let s := thermalCycle (modLedger s fun l => { l with tjMax := if l.tjMax.toInt < tj then w else l.tjMax }) tj
  let s := if old = 0 && 1 ≤ new then
    event s 0x7001 1 0xFF 0xFF (item ++ [(2, s.tally.derateNext / 1000)]) .steward else s
  let s := if 1 ≤ old && new = 0 then event s 0x7002 0 0xFF 0xFF item .steward else s
  let s := if old < 2 && 2 ≤ new then event s 0x7003 1 0xFF 0xFF item .steward else s
  if old < 3 && new = 3 then event s 0x7004 2 0xFF 0xFF item .steward else s

/-! Demand (R190, R352, R354, R356, R357) -/

/-- Ceilings kept on a frond. -/
def keptOn (s : State) (die : Nat) : List (Nat × Table) :=
  ((keptCeilings s).filter fun c => tableOn s c.2.2 die).map fun c => (c.2.1.amount, c.2.2)

/-- FPWR.CTL.DMAX. -/
def dmax (s : State) (die : Nat) : Nat := bits (fpwrCtl s die) 5 4

/-- State asked for a die in this epoch. -/
def askedState (e : EpochIn) (die : Nat) : Nat := ((e.sleep.find? fun x => x.1.toNat == die).map fun x => x.2.toNat).getD 0

/-- A hub is to take a level, no faster than a cap (R354): a rise waits for its rail, whose set point goes out (R462); a fall switches at
once, and the rail follows. A change under way goes on unless the cap forbids it; none begins during a sleep attempt (R363). -/
def hubStep (s : State) (h l cap : Nat) : State :=
  let cur := s.tally.hubLevel.getD h 3
  let next := s.tally.hubTo.getD h none
  if s.tally.want.getD (6 + h) 0 = 1 || halted s h || (next.map fun x => decide (cap ≤ x)).getD (l == cur) then s
  else
    let s := send s (.avs (2 + h) (hubMv l))
    modTally s fun t => if l < cur then { t with hubTo := t.hubTo.set h (some l) }
      else { t with hubTo := t.hubTo.set h none, hubLevel := t.hubLevel.set h l }

/-- The requests that the tally measures, and the hub levels under the caps of Table 9.2. -/
def demands (s : State) (e : EpochIn) : State :=
  let cap := if 3 ≤ s.tally.therm then 3 else if s.tally.therm = 2 then 2 else 0
  let lv (h : Nat) : Nat := max ((e.hubLevel.map fun x => x.toNat).getD h (s.tally.hubLevel.getD h 3)) cap
  let s := (hubs s).foldl (fun s h => hubStep s h (lv h) cap) s
  modTally s fun t => { t with
    demand := (List.range 6).map fun f => (e.demand.map fun x => x.toNat).getD f 0
    overhead := e.overheadNs.toNat
    pressure := 1000 * e.pressure.toNat
    want := ((List.range 6).map fun f =>
      if askedState e (f + 2) ≤ dmax s (f + 2) && !(askedState e (f + 2) == 3 && frondUsed s (f + 2)) then askedState e (f + 2)
      else 0) ++
      t.want.drop 6 }

/-- Idle host links take the power states asked: L0p in 256-byte flit mode only (R190). -/
def linkStates (s : State) (e : EpochIn) : State :=
  e.links.foldl (fun s x =>
    let p := x.1.toNat
    let l := x.2.1.toNat
    if !(link s p l).up then s
    else match x.2.2.toNat with
      | 0 => modLink s p l fun k => { k with pwr := .l0 }
      | 1 => if (link s p l).flit256 then modLink s p l fun k => { k with pwr := .l0p } else s
      | 2 => modLink s p l fun k => { k with pwr := .l1 }
      | _ => s) s

/-- A frond whose state FPWR.CTL or a kept ceiling forbids wakes (R357). -/
def forbidden (s : State) : State :=
  (frondDies s).foldl (fun s d =>
    let f := frond s d
    if 0 < f.dstate && (dmax s d < f.dstate || !(keptOn s d).isEmpty) then wakeDie s d else s) s

/-- Measured latencies of the ceilings (R325). -/
def measured (s : State) (e : EpochIn) : State :=
  e.measured.foldl (fun s x => modCov s x.1.toNat fun c => if c.kind = 5 then { c with given := x.2.toNat } else c) s

/-! The budget (R338, R339, R341, R346, R349) -/

/-- The base charge with every frond at its slowest level and every pan that can rest in Retention (R341): one that a repair, a fence or
a retire uses cannot (R358). -/
def leastBase (s : State) : Nat :=
  ((frondDies s).filter (powered s)).foldl (fun n d =>
    n + frondStanding s (carried s (slowLevel s d)) (frond s d).dstate
      ((frond s d).arr.awake.filter fun e : Nat × PanUse => !(fpwrCtl s d).getLsbD 3 || panBusy s d e.1).length) 0 +
  (hubs s).foldl (fun n h =>
    n + standing s 8 0 + (if s.tally.hubDoze.getD h false then standing s 7 0 else standing s 6 (s.tally.hubLevel.getD h 0))) 0

/-- B, base and G of the epoch that begins; ENVELOPE_UNMET once per crossing. -/
def budget (s : State) : State :=
  let b := epochBudget s s.tally.derate
  let s := modTally s fun t => { t with b := b, base := baseCharge s, repairs := 0 }
  let s := modTally s fun t => { t with g := b - t.base - scrubCharge s }
  let unmet := decide (b < leastBase s)
  let s := if unmet && !s.tally.unmet then
    event s 0x7006 1 0xFF 0xFF [(4, sat (b / 1000000) 32), (4, sat (s.tally.base / 1000000) 32)] .steward else s
  modTally s fun t => { t with unmet := unmet }

/-- The standing charges of a half (R337). -/
def halfStanding (s : State) (h : Nat) : Nat :=
  ((frondDies s).filter fun d => powered s d && halfOf d == h).foldl (fun n d => n + frondBase s d) (hubBase s h)

/-- The budget of the epoch goes to the two tallies, each accounting for its half: a half out of service has its standing charges, and the
rest is split in proportion to the demand of the epoch before (R337), equally where there was none (DESIGN CHOICE, log 36). -/
def splitBudget (s : State) (demand : List Nat) : State :=
  let runs (h : Nat) : Bool := (hubs s).contains h && serving s h
  let asked (h : Nat) : Nat := if runs h then ((demand.drop (3 * h)).take 3).foldl (· + ·) 0 else 0
  let out := ((hubs s).filter fun h => !runs h).foldl (fun n h => n + halfStanding s h) 0
  let w (h : Nat) : Nat := if !runs h then 0 else if asked 0 + asked 1 = 0 then 1 else asked h
  let part (h : Nat) : Nat :=
    if !(hubs s).contains h then 0 else if runs h then (s.tally.b - out) * w h / (w 0 + w 1) else halfStanding s h
  modTally s fun t => { t with share := [part 0, part 1] }

/-- Slack goes to the background classes in order, each taking what it asks: rake moves, hot-tier migration, compression, patrol scrub
(R349). The patrol may also run beyond slack (R294). -/
def giveSlack (s : State) (slack rake move pack scrub : Nat) : State :=
  let a := min slack rake
  let b := min (slack - a) move
  let c := min (slack - a - b) pack
  modTally s fun t => { t with slack := a, slackMove := b, slackPack := c, slackScrub := min (slack - a - b - c) scrub }

/-- Guarantees, pool and slack of the epoch, once the covenants are resolved. -/
def pools (s : State) (e : EpochIn) : State :=
  let claims := givenSum (energyGiven s)
  let s := { s with seats := s.seats.map fun x => (x.1, { x.2 with g := guarantee s x.1, spent := 0 }) }
  let rest := s.tally.g - claims
  let q := rest - s.tally.overdraw
  let past := s.tally.qHist
  let spend := max (past.headD 0) (past.foldl (· + ·) 0 / max 1 past.length)
  let slack := if 3 ≤ s.tally.therm then 0 else rest - spend
  let s := modTally s fun t => { t with
    q := q, qLeft := q, qSpent := 0, lent := false, overdraw := t.overdraw - rest }
  let ask (k : Nat) : Nat := 1000 * (e.background.map fun x => x.toNat).getD k 0
  giveSlack s slack (ask 0) (ask 1) (ask 2) (ask 3)

/-! Levels (R352, R353) -/

/-- A frond in D0 starts towards a level: a rising rail ramps first; a falling frond stops for its relock. -/
def startLevel (s : State) (die l : Nat) : State :=
  let f := frond s die
  if l = f.level then s
  else if l < f.level then
    send (modFrond s die fun f => { f with levelTo := some l }) (.avs (coreRail die) (frondMv l))
  else modFrond s die fun f => { f with levelTo := some l, relock := true }

/-- Levels of every frond in service; one that sleeps takes its level at its wake. -/
def levels (s : State) : State :=
  ((frondDies s).filter (frondServes s)).foldl (fun s d =>
    let f := frond s d
    let l := chooseLevel s d (keptOn s d)
    if f.levelTo.isSome || f.relock || f.sleeping.isSome || halted s (halfOf d) then s
    else if f.dstate = 0 then startLevel s d l
    else modFrond s d fun f => { f with wakeLevel := l }) s

/-! Charges of the epoch (R343, R345) -/

/-- Seats of kept ceilings are charged their keep costs, by the levels and states that the fronds hold (R345). -/
def keepCharges (s : State) : State :=
  let cs := keptCeilings s
  cs.foldl (fun s c =>
    let k := keepCost s (heldStanding s) cs c
    chargeSeat (modCov s c.1 fun x => { x with keep := k }) c.2.1.seat k) s

/-- Book a standing charge to a rail. -/
def bookStanding (s : State) (rail pj : Nat) : State :=
  modTally s fun t =>
    let (o, st) := (mget t.booked rail).getD (0, 0)
    { t with booked := mput t.booked rail (o, st + pj) }

/-- Standing charges of every block in the epoch that ends, by rail, and its search-clock cycles (Table 10.18): of a frond in D0 those of
its running time, since stopped time is bridged when the clock restarts (R371). -/
def bookEpoch (s : State) : State :=
  let s := ((frondDies s).filter (powered s)).foldl (fun s d =>
    let f := frond s d
    let s := bookStanding s (coreRail d) (frondStanding s f.level f.dstate f.arr.awake.length)
    let run := if f.dstate = 0 && !halted s (halfOf d) then 100000 - f.bridgedNs else 0
    modFrond s d fun f => { f with cycles := f.cycles + BitVec.ofNat 64 (run * frondMhz f.level / 1000), bridgedNs := 0 }) s
  (hubs s).foldl (fun s h =>
    let s := bookStanding s (2 + h)
      (if s.tally.hubDoze.getD h false then standing s 7 0 else standing s 6 (s.tally.hubLevel.getD h 0))
    bookStanding s (12 + h) (standing s 8 0)) s

/-! Sleep (R356, R361 to R363) -/

/-- A block refuses a state: the blocks start again, PWR.SLEEP_RES and, at most once per 100 ms for the die and reason,
SLEEP_REFUSED. -/
def refuseSleep (s : State) (die step target reason : Nat) : State :=
  let s := setSleepRes s die 2 step target reason
  let k := 256 * die + reason
  let last := (mget s.tally.refusedAt k).getD 0
  if last = 0 || last + 100000000 ≤ nowNs s + 1 then
    let s := modTally s fun t => { t with refusedAt := mput t.refusedAt k (nowNs s + 1) }
    event s 0x7008 0 die 0xFF [(2, (reg s (sleepResAddr die)).toNat)] .steward
  else s

/-- A coherence transaction is open on a line that an agent holds or asks for. -/
def agentOpen (s : State) (a : Nat) : Bool :=
  s.coh.txns.any fun e => mhas s.coh.copies (32 * e.1 + a) || (e.2.cmds.any fun c => c.1 == a) ||
    (match e.2.req with
     | .agent b _ _ _ => b == a
     | _ => false)

/-- Steps of Table 9.9 that refuse, with their reasons, as the frond stands. -/
def frondRefusals (s : State) (die target : Nat) : List (Nat × Nat) :=
  let f := frond s die
  (if !f.arr.repairing.isEmpty || f.panOp.isSome then [(3, 0x01)] else []) ++
  (if 4096 < f.hce.length then [(5, 0x03)] else []) ++
  (if 2 ≤ target && agentOpen s die then [(6, 0x04)] else [])

/-- Steps of Table 9.10 that refuse, as the hub stands. -/
def hubRefusals (s : State) (h : Nat) : List (Nat × Nat) :=
  (if (frondDies s).any fun d => halfOf d == h && powered s d && (frond s d).dstate == 0 then [(1, 0x11)] else []) ++
  (if s.rings.any fun r => r.2.holder.isSome && ringHub s r.1 == h && !(r.2.subs.isEmpty && r.2.owed.isEmpty) then [(2, 0x12)] else []) ++
  (if (s.coh.txns.any fun e => e.1 % 2 == h) || !(s.coh.retry.getD h []).isEmpty then [(4, 0x14)] else []) ++
  (if (hubPorts h).any fun p => (List.range 4).any fun l => (link s p l).up && (link s p l).pwr != .l1 then [(5, 0x15)] else [])

/-- Refusals that only the block itself can tell: the scrub sweep falling due, a rail, the patrol, the DDR channels, and a wake
trigger. -/
def blockRefusals (e : EpochIn) (die target : Nat) : List (Nat × Nat) :=
  (e.refusals.filter fun x => x.1.toNat == die).filterMap fun x =>
    let step := x.2.1.toNat
    let r := x.2.2.toNat
    let ok := r == 0x20 || (if die < 2 then (step == 3 && r == 0x13) || (step == 6 && r == 0x16)
      else decide (2 ≤ target) && ((step == 4 && r == 0x02) || (step == 9 && r == 0x05)))
    if ok then some (step, r) else none

/-- The earliest step that stops an attempt. -/
def firstRefusal (l : List (Nat × Nat)) : Option (Nat × Nat) :=
  l.foldl (fun m x => match m with
    | some y => if x.1 < y.1 then some x else some y
    | none => some x) none

/-- An attempt goes on, is refused, or is rolled back by a wake trigger. A frond's cache that step 6 has emptied stays empty (R362). -/
def attempt (s : State) (die target : Nat) (l : List (Nat × Nat)) (go : State → State) : State :=
  match firstRefusal l with
  | none => go s
  | some (step, r) =>
    let s := if 2 ≤ die && 2 ≤ target && decide (6 < step) then emptyCache s die else s
    if r = 0x20 then setSleepRes s die 3 step target r else refuseSleep s die step target r

/-- The tally asks one frond to take a deeper state; a state that FPWR.CTL, a ceiling or the Spore condition forbids is not
attempted. -/
def sleepFrond (s : State) (e : EpochIn) (die : Nat) : State :=
  let f := frond s die
  let t := askedState e die
  if !frondServes s die || t ≤ f.dstate || dmax s die < t || !(keptOn s die).isEmpty || f.waking || f.relock ||
      f.levelTo.isSome || f.sleeping.isSome || halted s (halfOf die) || (t == 3 && frondUsed s die) then s
  else attempt s die t (frondRefusals s die t ++ blockRefusals e die t) fun s =>
    modFrond s die fun f => { f with sleeping := some ⟨t⟩ }

/-- The tally asks a hub into Doze. -/
def sleepHub (s : State) (e : EpochIn) (h : Nat) : State :=
  if askedState e h = 0 || s.tally.hubDoze.getD h true || (s.tally.hubTo.getD h none).isSome || s.tally.want.getD (6 + h) 0 == 2 || !dieIn s h || halted s h then s
  else attempt s h 1 (hubRefusals s h ++ blockRefusals e h 1) fun s =>
    modTally s fun t => { t with want := t.want.set (6 + h) 1 }

/-- The staged envelope is one of R338's. -/
def envelopeOk (s : State) : Bool := within 80 240 (stagedReg s (globalPage 1 + 0x40)).toNat

/-- A commit of the TALLY page that is pending ends at the epoch boundary, and the epoch that begins uses the new values (R338,
R388). -/
def tallyCommit (s : State) : State :=
  let a := globalPage 1
  if !committing s a then s
  else if !stagedDiffers s a then commitEnd (dropStaged s a) a 1
  else if envelopeOk s then commitEnd (activate s a) a 1
  else commitEnd s a 2

/-- TALLY_EPOCH (R337 to R341, R345, R346, R349, R352, R356, R361). -/
def epochStep (s : State) (e : EpochIn) : State :=
  let before := s.tally.demand
  let s := demands (thermal (bookEpoch (closeEpoch (tallyCommit s))) e) e
  let s := measured (forbidden (linkStates s e)) e
  let s := covResolve (splitBudget (budget s) before)
  let s := keepCharges (levels (pools s e))
  (hubs s).foldl (fun s h => sleepHub s e h) ((frondDies s).foldl (fun s d => sleepFrond s e d) s)

/-- The tally runs: the package serves, and not every block is frozen (R367, R426). -/
def tallyRuns (s : State) : Bool := started s && (hubs s).any fun h => !halted s h

/-- TALLY_EPOCH: while the package serves. -/
def execTallyEpoch (e : EpochIn) (s : State) : Res := .next (if tallyRuns s then epochStep s e else s)

/-! The ends of level changes and sleeps -/

/-- Stopped time is bridged: the cycle counter is advanced and the pages show it (R371, R372). -/
def bridge (s : State) (die ns mhz : Nat) : State :=
  let s := modFrond s die fun f => { f with
    cycles := f.cycles + BitVec.ofNat 64 (ns * mhz / 1000), bridged := some (nowNs s), bridgedNs := f.bridgedNs + ns }
  orReg (orReg s (diePage die 0x23 + 0xC) 0x8000) (diePage die 0x24 + 0xC) 0x8000

/-- AVS_STEP_DONE (R353, R354, R462): a rising frond's rail has reached its level, and the frond stops for its relock; a rising hub switches
to its level. -/
def execAvsStepDone (rail : BitVec 4) (s : State) : Res :=
  let d := rail.toNat - 4
  let h := rail.toNat - 2
  .next (if 6 ≤ rail.toNat && rail.toNat ≤ 11 then
    match (frond s d).levelTo with
    | some l => if l < (frond s d).level && !halted s (halfOf d) then modFrond s d fun f => { f with relock := true } else s
    | none => s
  else if 2 ≤ rail.toNat && h < 2 && !halted s h then
    match s.tally.hubTo.getD h none with
    | some l => modTally s fun t => { t with hubLevel := t.hubLevel.set h l, hubTo := t.hubTo.set h none }
    | none => s
  else s)

/-- AVS_STEP_TIMEOUT (R462): a rail fault; a sleep under way is refused at step 9, otherwise RAIL_EXCURSION, and a level change that
waits for the rail is given up. -/
def execAvsStepTimeout (rail : BitVec 4) (mv : Word) (s : State) : Res :=
  let r := rail.toNat
  let d := r - 4
  .next (if s.boot.stage = 0 || !(r == 2 || r == 3 || (decide (6 ≤ r) && decide (r ≤ 11))) then s
  else match (if 6 ≤ r then (frond s d).sleeping else none) with
    | some o =>
      let s := if 2 ≤ o.target then emptyCache s d else s
      refuseSleep (modFrond s d fun f => { f with sleeping := none }) d 9 o.target 0x05
    | none =>
      let s := if r < 6 then modTally s fun t => { t with hubTo := t.hubTo.set (r - 2) none } else s
      let s := if 6 ≤ r && !(frond s d).relock then modFrond s d fun f => { f with levelTo := none } else s
      let s := modLedger s fun l => { l with railExc := l.railExc.modify r inc32 }
      event s 0x700D 1 0xFF 0xFF [(1, r), (2, mv.toNat), (4, 5000)] .steward)

/-- The searches that a frond has started have completed there. -/
def searchesDone (s : State) (die : Nat) : Bool := !s.searches.any fun q => q.2.res.any fun r => r.die == die && !r.done

/-- FROND_RELOCK_DONE (R353, R371): once its started searches are complete, the frond runs at its new level; after a fall the rail ramps
down. -/
def execFrondRelockDone (die : BitVec 3) (pausedNs : BitVec 32) (s : State) : Res :=
  let d := die.toNat
  let f := frond s d
  .next (match f.levelTo with
    | some l =>
      if f.relock && !halted s (halfOf d) && searchesDone s d then
        let s := bridge (modFrond s d fun f => { f with level := l, levelTo := none, relock := false }) d pausedNs.toNat (frondMhz l)
        if f.level < l then send s (.avs (coreRail d) (frondMv l)) else s
      else s
    | none => s)

/-- Work that a frond's sleep sequence lets finish first: started searches, the hit-counter queue (Table 9.9). -/
def frondQuiet (s : State) (die : Nat) : Bool :=
  (frond s die).hce.isEmpty && searchesDone s die

/-- The search-clock cycles of a running frond since the epoch began (R371). -/
def epochCycles (s : State) (f : Frond) : BitVec 64 :=
  BitVec.ofNat 64 ((min (nowNs s - s.tally.epochNs) 100000 - f.bridgedNs) * frondMhz f.level / 1000)

/-- A frond reaches its deeper state: a running one's cycles are counted up to the moment its clocks stop. -/
def frondAsleep (s : State) (die target : Nat) : State :=
  let s := if 2 ≤ target then
      modArr (emptyCache s die) die fun a => { a with awake := [] }
    else s
  let s := match target with
    | 2 => send s (.avs (coreRail die) 500)
    | 3 => { modArr s die refill with pins := { s.pins with enFr := s.pins.enFr.set (die - 2) false } }
    | _ => s
  let s := modFrond s die fun f => { f with
    sleeping := none, dstate := target, cycles := if f.dstate = 0 then f.cycles + epochCycles s f else f.cycles, stopNs := if f.dstate = 0 then nowNs s else f.stopNs, wakeLevel := if f.dstate = 0 then f.level else f.wakeLevel }
  setSleepRes s die 1 0 target 0

/-- A hub reaches Doze; with DDRPD its DDR PHY goes off, and the control balls hold the DRAM in self-refresh (R364). -/
def hubAsleep (s : State) (h : Nat) : State :=
  let s := modTally s fun t => { t with hubDoze := t.hubDoze.set h true, want := t.want.set (6 + h) 0 }
  let s := if (reg s (diePage h 0x13 + 8)).getLsbD 1 then
    { s with pins := { s.pins with heldDdr := s.pins.heldDdr.set h (some true) } } else s
  setSleepRes s h 1 0 1 0

/-- DIE_SLEEP_DONE (R355, R361): every block has agreed and stopped. -/
def execDieSleepDone (die : BitVec 3) (s : State) : Res :=
  let d := die.toNat
  .next (if d < 2 then
    if s.tally.want.getD (6 + d) 0 = 1 && !halted s d then
      match firstRefusal (hubRefusals s d) with
      | none => hubAsleep s d
      | some (step, r) => refuseSleep (modTally s fun t => { t with want := t.want.set (6 + d) 0 }) d step 1 r
    else s
  else match (frond s d).sleeping with
    | some o =>
      if !frondQuiet s d || halted s (halfOf d) then s
      else match firstRefusal (frondRefusals s d o.target) with
        | none => frondAsleep s d o.target
        | some (step, r) => refuseSleep (modFrond s d fun f => { f with sleeping := none }) d step o.target r
    | none => s)

/-- A frond serves again after its exit: from Spore its array is as the fill leaves it, from Moss and Spore it runs at the restored
level. What has passed of the epoch is counted: it ran, or was stopped and is bridged. -/
def frondAwake (s : State) (die ns : Nat) : State :=
  let f := frond s die
  let s := bridge s die ns (frondMhz f.level)
  modFrond s die fun f => { f with
    dstate := 0, waking := false, level := if 2 ≤ f.dstate then f.wakeLevel else f.level
    bridgedNs := min (nowNs s - s.tally.epochNs) 100000 }

/-- DIE_WAKE_DONE (R355 to R357, R365, R371): the die serves again; a hub's DDR balls are released as part of its wake. -/
def execDieWakeDone (die : BitVec 3) (stoppedNs : BitVec 64) (s : State) : Res :=
  let d := die.toNat
  .next (if d < 2 then
    if s.tally.hubDoze.getD d false || s.pins.heldDdr.getD d none == some true then
      let s := modTally (wakeHub s d) fun t => { t with want := t.want.set (6 + d) 0 }
      if autoRel s d && s.pins.heldDdr.getD d none == some true then
        { s with pins := { s.pins with heldDdr := s.pins.heldDdr.set d none } }
      else s
    else s
  else if (frond s d).waking && frondServes s d && !halted s (halfOf d) then frondAwake s d stoppedNs.toNat
  else s)

/-! Scrubbing asleep, pan retention, lending -/

/-- FROND_SCRUB_DUE (R293, R357): a frond in Moss or Spore wakes at P4, scrubs every row, waking each pan for its rows, and returns to
its state, its pans as they were. -/
def execFrondScrubDue (die : BitVec 3) (s : State) : Res :=
  let d := die.toNat
  let f := frond s d
  .next (if frondServes s d && 2 ≤ f.dstate && !f.waking && !halted s (halfOf d) then
    let s := wakeHub s (halfOf d)
    let c := physRows * opCost s opScrub 4 + 544 * opCost s opWake 4
    let s := chargeBg (bookOp s (coreRail d) c) c
    let s := ((f.arr.tagBad.map fun e : Nat × Bool => e.1 / 2).eraseDups).foldl (fun s p =>
      tagChecks s d [p]) s
    let s := f.arr.rows.foldl (fun s (e : Nat × Row) => scrubRow s d e.1) s
    modFrond s d fun g => { g with
      scrubPos := 0, scrubFrom := nowNs s, scrubLate := false, arr := { g.arr with awake := f.arr.awake } }
  else s)

/-- PAN_RETENTION_ENTRY (R358): a pan whose age has run out, that no kept ceiling covers and no repair uses. -/
def execPanRetentionEntry (die : BitVec 3) (pan : BitVec 9) (s : State) : Res :=
  let d := die.toNat
  let p := pan.toNat
  .next (match mget (frond s d).arr.awake p with
    | some u =>
      if panAged s d p u && awake s d && !((keptOn s d).any fun c => inRange c.2 (baseDie s d) p) then
        modArr s d fun a => { a with awake := mdel a.awake p }
      else s
    | none => s)

/-- TALLY_LEND (R346): 75 µs into the epoch, unspent guarantees join the pool. -/
def execTallyLend (s : State) : Res :=
  .next (if tallyRuns s && (tallyCtl s).getLsbD 2 && !s.tally.lent then
    let more := s.seats.foldl (fun n (e : Nat × Seat) => n + (e.2.g - e.2.spent)) 0
    modTally s fun t => { t with qLeft := t.qLeft + more, lent := true }
  else s)

/-! Recalibration (R343) -/

/-- An entry times M ÷ C, the ratio held between 0.90 and 1.10: the value, to the nearest pJ. -/
def rescale (v m c : Nat) : Nat :=
  if 10 * m < 9 * c then divRound (9 * v) 10 else if 11 * c < 10 * m then divRound (11 * v) 10 else divRound (v * m) c

/-- One entry is rescaled, held between 0.5 and 2.0 times its default; COST_DRIFT when it is first held. -/
def recalEntry (s : State) (sel m c : Nat) : State :=
  let d := costDefault sel
  let v := rescale (costValue s sel) m c
  let lo := (d + 1) / 2
  let hi := 2 * d
  let held := decide (v < lo) || decide (hi < v)
  let s := modTally s fun t => { t with
    book := mput t.book sel (min (max v lo) hi)
    atLimit := if held then t.atLimit else t.atLimit.filter (· != sel) }
  if held && !s.tally.atLimit.contains sel then
    event (modTally s fun t => { t with atLimit := sel :: t.atLimit }) 0x7007 1 0xFF 0xFF
      [(2, sel), (2, sat (m * 1024 / c) 16)] .steward
  else s

/-- COST_RECALIBRATE (R343): the entries of one rail; a rail with hardly any operation charge keeps its operation entries. -/
def execCostRecalibrate (rail : BitVec 4) (measuredNj : BitVec 48) (s : State) : Res :=
  let r := rail.toNat
  let (op, st) := (mget s.tally.booked r).getD (0, 0)
  let c := op + st
  .next (if !tallyRuns s then s
  else
    let s1 := modTally s fun t => { t with booked := mdel t.booked r }
    if c = 0 || (tallyCtl s).getLsbD 1 then s1
    else
      (allSels.filter fun sel => (entryRails sel).contains r && (sel / 128 % 2 == 1 || decide (c ≤ 100 * op))).foldl
        (fun s sel => recalEntry s sel (1000 * measuredNj.toNat) c) s1)

/-! Pad release (R364, R365) -/

/-- HPWR.STAT.EARLY_REL. -/
def earlyRel (s : State) (h : Nat) : State := orReg s (diePage h 0x13 + 0xC) 1

/-- A write of HPWR.PADREL that took effect. The bits read 0 again. -/
def padRelWrite (h : Nat) (s : State) (w : Word32) : State :=
  let a := diePage h 0x13 + 0x800
  let (s, v) := guardStore s a ⟨0x800, 7, 0⟩ w
  let s := setReg s a 0
  let s := if v.getLsbD 0 && (s.pins.heldDdr.getD h none).isSome then
      if s.tally.hubDoze.getD h false || s.tally.want.getD (6 + h) 0 == 2 || !started s then earlyRel s h
      else { s with pins := { s.pins with heldDdr := s.pins.heldDdr.set h none } }
    else s
  let s := if v.getLsbD 1 then (hubPorts h).foldl (fun s p =>
      if !s.pins.heldPort.getD p false then s
      else if ((s.ports[p]?).map fun x => x.st) == some .up then
        { s with pins := { s.pins with heldPort := s.pins.heldPort.set p false } }
      else earlyRel s h) s else s
  if v.getLsbD 2 then { s with pins := { s.pins with heldSb := none } } else s

/-- HPWR_PADREL (R365). -/
def execHpwrPadrel (p : Place) (die : BitVec 3) (w : Word32) (s : State) : Res :=
  .next (onGuard s p (diePage die.toNat 0x13 + 0x800) w (padRelWrite die.toNat))

/-! Clocks and the calendar (R366, R370) -/

/-- The crystal is out of limits: no edge, or more than 500 ppm. -/
def xtalOff (d : Word32) : Bool := d == 0x7FFFFFFF || decide (500 < d.toInt) || decide (d.toInt < -500)

/-- The always-on domain takes its RC oscillator, with CLK_XTAL_FAIL. -/
def xtalFail (s : State) (deviation : Word32) : State :=
  event { s with clock := { s.clock with rc := true, xtalOk := false }, boot := { s.boot with xtalSeen := false } }
    0x7009 1 0xFF 0xFF [(4, deviation.toNat)] .steward

/-- CLK_XTAL_FAIL (R366). -/
def execClkXtalFail (deviation : Word32) (s : State) : Res :=
  .next (if s.boot.stage = 0 || s.clock.rc || !xtalOff deviation then s else xtalFail s deviation)

/-- CLK_XTAL_OK (R366, R446): the domain takes the crystal again; after a failure the switch is reported. -/
def execClkXtalOk (s : State) : Res :=
  .next (if s.boot.stage = 0 || !s.clock.rc then s
  else
    let seen := s.boot.xtalSeen
    let s := { s with clock := { s.clock with rc := false, xtalOk := true }, boot := { s.boot with xtalSeen := true } }
    if seen then s else event s 0x700A 0 0xFF 0xFF [] .steward)

/-- The calendar is set (R370): CAL_SET, and the timebase stands as it was. -/
def setCal (s : State) (c : BitVec 48) : State :=
  let old := s.clock.cal
  event { s with clock := { s.clock with cal := c, calTick := 0, stale := false } } 0x700C 0 0xFF 0xFF
    [(6, old.toNat), (6, c.toNat)] .steward

/-- A write of TIME.CAL_W0 (R370, R392): W0 under its mask over the running calendar, W1 and W2 from the holding words; a holding not
written follows the calendar. -/
def calWrite (s : State) (p : Place) (w : Word32) : State :=
  let a := globalPage 7 + 0x60
  let word (k : Nat) : Word := BitVec.ofNat 16 (s.clock.cal.toNat / 2 ^ (16 * k))
  let hold (k : Nat) : Word := (mget s.regs.hold (ldKey p (a + 4 * k))).getD (word k)
  let v := (maskedWrite w 0xFFFF (word 0)).toNat + 2 ^ 16 * (hold 1).toNat + 2 ^ 32 * (hold 2).toNat
  let s := dropHolding (dropHolding s (a + 4)) (a + 8)
  setCal s (BitVec.ofNat 48 v)

/-- TIME_CAL_WRITE (R370): by a steward session; a write of zero mask does nothing. -/
def execTimeCalWrite (p : Place) (w : Word32) (s : State) : Res :=
  let a := globalPage 7 + 0x60
  .next (match lookup s p a with
    | some (_, _, .write) => if maskOf w = 0 then s else calWrite (dropGuard s p (pageBase a)) p w
    | _ => busError s p a false)

end Sys2Proof.Machine
end

