-- ==== Sys2Proof/Machine/Life.lean ====
section
/-!
DEFINITION. The lifetime ledger, the lichen log's window, MRAM service and the harvest window's reads (R412 to R424, R428).
-/
namespace Sys2Proof.Machine

/-! Ledger fields (R412, R417) -/

/-- A rank index names a rank that is there: of a hub of this part and, once its DRAM has trained, of a populated channel and DIMM
(R209, R412). -/
def rankHere (s : State) (i : Nat) : Bool :=
  present s (i / 48) &&
    match s.mem.pop.getD (i / 48) none with
    | some p => (p.channels.toNat != 3 || i / 8 % 6 % 2 == 0) && decide (i / 4 % 2 < p.dimms.toNat) && decide (i % 4 < p.ranks.toNat)
    | none => true

/-- A physical pan index names a frond of this part. -/
def panHere (s : State) (i : Nat) : Bool := present s (i / 544 + 2)

/-- PAN_STATE of a physical pan: the factory's where nothing has changed it. -/
def panStateOf (s : State) (i : Nat) : Nat :=
  match mget s.life.now.panState i with
  | some v => v.toNat
  | none => if 32 ≤ i % 34 then 1 else 0

/-- The current value of a ledger field by its ID (Table 11.1); none where the ID names no field. -/
def ledgerField (s : State) (id : Nat) : Option Nat :=
  let l := s.life.now
  let word (m : SMap (BitVec 32)) (k : Nat) : Nat := ((mget m k).getD 0).toNat
  if id = 0 then some s.life.gen.toNat
  else if id = 1 then some l.powerOn.toNat
  else if id = 2 then some l.cycles.toNat
  else if id = 3 then some l.unorderly.toNat
  else if id = 4 then some l.thermal.toNat
  else if id = 5 then some l.tjMax.toNat
  else if id = 6 then some l.life.toNat
  else if id = 7 then some l.harvests.toNat
  else if id = 8 then some l.fwAct.toNat
  else if 0x10 ≤ id && id ≤ 0x17 then
    some (if present s (id - 0x10) then l.weighted.getD (id - 0x10) 0 / 2 ^ 32 % 2 ^ 64 else 0)
  else if 0x20 ≤ id && id ≤ 0x2F then some (l.railExc.getD (id - 0x20) 0).toNat
  else if 0x1000 ≤ id && id ≤ 0x1FFF then
    some (if present s ((id - 0x1000) / 2048) then word l.mramWr (id - 0x1000) else 0)
  else if 0x2000 ≤ id && id ≤ 0x205F then some (if rankHere s (id - 0x2000) then word l.dramCe (id - 0x2000) else 0)
  else if 0x3000 ≤ id && id ≤ 0x3CBF then some (if panHere s (id - 0x3000) then word l.panRepairs (id - 0x3000) else 0)
  else if 0x4000 ≤ id && id ≤ 0x4CBF then some (if panHere s (id - 0x4000) then panStateOf s (id - 0x4000) else 0)
  else none

/-- LEDGER.STAT address. -/
def ledgerStat : Nat := globalPage 8 + 0xC

/-- A write of LEDGER.SEL: READY, or BADID where it names no field (Table 11.2). -/
def ledgerSel (s : State) (w : Word32) : State :=
  let a := globalPage 8 + 0x40
  let s := setReg s a (maskedWrite w 0xFFFF (reg s a))
  match ledgerField s (reg s a).toNat with
  | some _ => orReg s ledgerStat 1
  | none => orReg (clrReg s ledgerStat 1) ledgerStat 2

/-- A write of a register by a steward session: the reach, and the discard of a pending guarded write (R377, R391). -/
def onWrite (s : State) (p : Place) (a : Nat) (w : Word32) (f : State → Word32 → State) : State :=
  match lookup s p a with
  | some (a', _, .write) => if maskOf w = 0 then s else f (dropGuard s p (pageBase a')) w
  | _ => busError s p a false

/-- LEDGER_SEL_WRITE (R417). -/
def execLedgerSelWrite (p : Place) (w : Word32) (s : State) : Res := .next (onWrite s p (globalPage 8 + 0x40) w ledgerSel)

/-- A write of LEDGER.SYNC that took effect (R413). -/
def syncWrite (s : State) (w : Word32) : State :=
  let a := globalPage 8 + 0x800
  let (s, v) := guardStore s a ⟨0x800, 1, 0⟩ w
  let s := setReg s a 0
  if v.getLsbD 0 then ledgerWrite s false else s

/-- LEDGER_SYNC (R413). -/
def execLedgerSync (p : Place) (w : Word32) (s : State) : Res := .next (onGuard s p (globalPage 8 + 0x800) w syncWrite)

/-- The management complex runs: from stage 0x05 on; in a start-up that has stopped, where firmware was loaded before (R442, R446). -/
def managed (s : State) : Bool :=
  (decide (5 ≤ s.boot.stage.toNat) && decide (s.boot.stage.toNat ≤ 0x0B)) ||
    (s.boot.stage == 0x7E && s.fw.any fun f => f.loaded.isSome)

/-- LEDGER_HOURLY (R368, R413): every 3,600 s of timebase. -/
def execLedgerHourly (s : State) : Res := .next (if managed s then ledgerWrite s false else s)

/-! Consumed life (R414) -/

/-- Fixed-point 1.0. -/
def fixOne : Nat := 2 ^ 64

/-- Taylor sum of exp for a small fixed-point argument: n more terms from the k-th. -/
def expTerms (x : Nat) : Nat → Nat → Nat → Nat
  | 0, _, _ => 0
  | n + 1, k, term => term + expTerms x n (k + 1) (term * x / fixOne / (k + 1))

/-- Square n times. -/
def squareFix (v : Nat) : Nat → Nat
  | 0 => v
  | n + 1 => squareFix (v * v / fixOne) n

/-- exp of a non-negative fixed-point number: the sum at a 256th of it, squared eight times (log 21). -/
def expFix (x : Nat) : Nat := squareFix (expTerms (x / 256) 24 0 fixOne) 8

/-- AF of a junction reading, fixed point: exp(Ea ÷ k × (1 ÷ 368.15 − 1 ÷ T)), with Ea ÷ k = 70,000,000 ÷ 8,617 K. -/
def accel (tj : Int) : Nat :=
  let t := 27315 + 25 * tj
  if t ≤ 0 then 0
  else
    let den := 8617 * 36815 * t.toNat
    let num (d : Nat) : Nat := 7000000000 * d * fixOne / den
    if 36815 ≤ t then expFix (num (t - 36815).toNat) else fixOne * fixOne / expFix (num (36815 - t).toNat)

/-- The rail of a die is on: its enable is asserted (R436). -/
def railOn (s : State) (die : Nat) : Bool :=
  if die < 2 then s.pins.enHub.getD die false else s.pins.enFr.getD (die - 2) false

/-- LIFE from the weighted hours (R414). -/
def lifeOf (s : State) (weighted : List Nat) : BitVec 32 :=
  let w := ((List.range 8).filter (present s)).foldl (fun m d => max m (weighted.getD d 0)) 0
  BitVec.ofNat 32 (sat (w * 65536 / (2 ^ 32 * 1024 * 219150)) 32)

/-- LIFE_ACCUMULATE (R414): one second of every powered die; LIFE_MARK as LIFE passes a multiple of 0x1000. -/
def execLifeAccumulate (s : State) : Res :=
  .next (if s.pins.enHub.any id then
    let old := s.life.now.life
    let w := (List.range 8).map fun d =>
      s.life.now.weighted.getD d 0 +
        (if present s d && railOn s d then accel (s.tally.junctions.getD d 0).toInt * 1024 / 3600 / 2 ^ 32 else 0)
    let v := lifeOf s w
    let s := modLedger s fun l => { l with weighted := w, life := v, powerOn := l.powerOn + 1 }
    if old.toNat / 4096 < v.toNat / 4096 then event s 0xA00B 0 0xFF 0xFF [(4, v.toNat)] .steward else s
  else s)

/-! Rail excursions (R415) -/

/-- RAIL_EXCURSION_BEGIN (R415). -/
def execRailExcursionBegin (rail : BitVec 4) (mv : Word) (s : State) : Res :=
  .next (if s.boot.stage = 0 || mhas s.life.excursions rail.toNat then s
  else { s with life := { s.life with excursions := mput s.life.excursions rail.toNat mv } })

/-- RAIL_EXCURSION (R415): the excursion ends, is counted and reported. -/
def execRailExcursion (rail : BitVec 4) (extreme : Word) (durationUs : BitVec 32) (s : State) : Res :=
  let r := rail.toNat
  .next (if mhas s.life.excursions r then
    let s := { s with life := { s.life with excursions := mdel s.life.excursions r } }
    let s := modLedger s fun l => { l with railExc := l.railExc.modify r inc32 }
    event s 0x700D 1 0xFF 0xFF [(1, r), (2, extreme.toNat), (4, durationUs.toNat)] .steward
  else s)

/-! The lichen log (R418 to R424) -/

/-- LOG_SHED: the counts of events that were not recorded, one per class (R421, R477). -/
def logShed (s : State) (counts : List Nat) : State :=
  event s 0xA008 1 0xFF 0xFF (counts.map fun n => (2, sat n 16)) .steward

/-- LOG_SECOND_BOUNDARY (R421): the second's records are free again, and LOG_SHED is the first of them where events were
shed. -/
def execLogSecondBoundary (s : State) : Res :=
  let counts := s.log.shed
  let s := { s with log := { s.log with used := 0, shed := List.replicate 16 0 } }
  .next (if counts.all (· == 0) then s else logShed s counts)

/-- Bytes 2 to 61 of a record (Table 11.3), as a number. -/
def recordBody (r : EvRec) : Nat :=
  packItems [(2, r.code.toNat), (6, r.seq.toNat), (8, r.tb.toNat), (6, r.cal.toNat), (1, r.die.toNat), (1, r.seat.toNat),
    (2, r.flags.toNat), (2, r.count.toNat), (32, r.detail.toNat)]

/-- The 64 bytes of a committed record, byte i at bits [8i+7:8i] (R419). -/
def recordImage (r : EvRec) : BitVec 512 :=
  let b := recordBody r
  BitVec.ofNat 512 (packItems [(2, 0x3C3C), (60, b), (2, (crcBytes 0xFFFF (bytesOf 60 b)).toNat)])

/-- The record with a SEQ, in the history or the circular area (R424). -/
def findRecord (s : State) (seq : Nat) : Option EvRec :=
  (s.log.hist.find? fun r => r.seq.toNat == seq).or (s.log.circ.find? fun r => r.seq.toNat == seq)

/-- A write of LOG.SEL_W0: the SEQ is committed and its record begins to load (R424). -/
def logSel (p : Place) (s : State) (w : Word32) : State :=
  let a := globalPage 9 + 0x70
  match specAt .log 0x70 with
  | some r =>
    let s := writeW0 s p .log a r w
    { s with log := { s.log with loading := some (regWide s a 3), record := none } }
  | none => s

/-- LOG_SEL_WRITE (R424). -/
def execLogSelWrite (p : Place) (w : Word32) (s : State) : Res := .next (onWrite s p (globalPage 9 + 0x70) w (logSel p))

/-- LOG_RECORD_LOADED (R424): READY with the record, or GONE. -/
def execLogRecordLoaded (s : State) : Res :=
  .next (match s.log.loading with
    | some n =>
      match findRecord s n with
      | some r => { s with log := { s.log with loading := none, record := some (recordImage r) } }
      | none => orReg { s with log := { s.log with loading := none, record := none } } (globalPage 9 + 0xC) 4
    | none => s)

/-! MRAM (R422, R423) -/

/-- MRAM_WEAR for sectors newly past 10^9 writes (R422). -/
def wearCheck (s : State) (keys : List Nat) : State :=
  match newlyWorn s keys with
  | [] => s
  | ks =>
    ks.foldl (fun s k =>
      event s 0xA00A 1 0xFF 0xFF [(1, k / 2048), (2, k % 2048), (4, ((mget s.life.now.mramWr k).getD 0).toNat)] .steward)
      { s with life := { s.life with worn := ks ++ s.life.worn } }

/-- Ticks of two years, of 8,766 hours each (R7). -/
def twoYears : Nat := 2 * 8766 * 3600 * 32768

/-- MRAM_SECTOR_REFRESH (R422): a sector two years old is copied to the scratch sector, rewritten and verified, and the scratch is
cleared. The scratch sector stands after the configuration store's first sector (log 19). -/
def execMramSectorRefresh (hub : BitVec 1) (sector : BitVec 11) (s : State) : Res :=
  let k := 2048 * hub.toNat + sector.toNat
  let scratch := 2048 * hub.toNat + 1025
  .next (if managed s && present s hub.toNat && decide ((mget s.life.sectorTb k).getD 0 + twoYears ≤ s.clock.tb) then
    let s := modLedger s fun l => { l with mramWr := bump (bump l.mramWr scratch 2) k 1 }
    let s := { s with life := { s.life with sectorTb := mput (mput s.life.sectorTb k s.clock.tb) scratch s.clock.tb } }
    wearCheck s [k, scratch]
  else s)

/-- Every record of the circular area is set to free on each hub (R423). -/
def clearCircular (s : State) : State :=
  (List.range 1023).foldl (fun s i => mramWrite s (i + 1) 64) { s with log := { s.log with circ := [] } }

/-- A write of MRAM.ERASE that took effect (R423). GO reads 0 again. -/
def eraseWrite (hub : Nat) (s : State) (w : Word32) : State :=
  let a := diePage hub 0x16 + 0x800
  let (s, v) := guardStore s a ⟨0x800, 0x8003, 0⟩ w
  let s := setReg s a (v &&& 3)
  if !v.getLsbD 15 then s
  else match bits v 1 0 with
  | 1 => storeWrite { s with store := { s.store with erase := true } }
  | 2 =>
    if s.pins.straps.rmaEn then
      let n := s.log.circ.length
      event (clearCircular s) 0xA00C 0 0xFF 0xFF [(4, n)] .steward
    else event (orReg s (diePage hub 0x16 + 0xC) 1) 0xA00D 1 0xFF 0xFF [] .steward
  | _ => s

/-- MRAM_ERASE_CONFIG (R423). -/
def execMramEraseConfig (p : Place) (hub : BitVec 1) (w : Word32) (s : State) : Res :=
  .next (onGuard s p (diePage hub.toNat 0x16 + 0x800) w (eraseWrite hub.toNat))

/-- MRAM_ERASE_LOG (R423). -/
def execMramEraseLog (p : Place) (hub : BitVec 1) (w : Word32) (s : State) : Res :=
  .next (onGuard s p (diePage hub.toNat 0x16 + 0x800) w (eraseWrite hub.toNat))

/-! The harvest window (R428) -/

/-- A byte of a hub's held dump: the header begins with "LLHV"; the rest is free (log 17). -/
def dumpByte (s : State) (h ofs : Nat) : BitVec 8 :=
  match ofs with
  | 0 => 0x4C | 1 => 0x4C | 2 => 0x48 | 3 => 0x56
  | n => freeDump (harvestOf s h).stamp n

/-- A write of HARVEST.OFS_W0: the offset is committed, and its 64 bytes are loaded into DATA, zeros without a dump. -/
def harvestOfs (p : Place) (s : State) (w : Word32) : State :=
  let page := globalPage 0xA
  match specAt .harvest 0x44 with
  | some r =>
    let s := writeW0 s p .harvest (page + 0x44) r w
    let h := harvestHub s
    let ofs := regWide s (page + 0x44) 2
    (List.range 32).foldl (fun s j =>
      setReg s (page + 0x80 + 4 * j)
        (if (harvestOf s h).valid then dumpByte s h (ofs + 2 * j + 1) ++ dumpByte s h (ofs + 2 * j) else 0)) s
  | none => s

/-- HARVEST_OFS_WRITE (R428). -/
def execHarvestOfsWrite (p : Place) (w : Word32) (s : State) : Res :=
  .next (onWrite s p (globalPage 0xA + 0x44) w (harvestOfs p))

end Sys2Proof.Machine
end

