-- ==== Sys2Proof/Machine/Startup.lean ====
section
/-!
DEFINITION. Start-up, restarts, power-down and off-hold (R34, R209, R210, R288 to R290, R340, R360, R364, R367, R368, R413, R416, R420,
R436 to R453, R459, R467, R472, R473).
-/
namespace Sys2Proof.Machine

/-! Off-hold (R360, R364) -/

/-- SB_GPIO[7:0] (R473). -/
def sbGpio (s : State) : BitVec 8 :=
  BitVec.ofNat 8 ((if started s then 1 else 0) + (if serving s 0 && !halted s 0 then 2 else 0) +
    (if serving s 1 && !halted s 1 then 4 else 0) + (if 420 < s.tally.tj.toInt then 8 else 0) +
    (if s.boot.fallback then 16 else 0))

/-- What is left when every die goes off: the balls, the always-on domain, the MRAM and NOR contents, and the model's own records. A
frond's spare map stands in MRAM. -/
def blank (s : State) : State :=
  { State.reset with
    chip := s.chip, pins := s.pins, jtag := s.jtag, boot := s.boot, store := s.store, clock := s.clock, life := s.life
    fw := s.fw.map fun f => { f with loaded := none, asPending := false }
    log := { s.log with loading := none, record := none }
    fronds := s.fronds.map fun f => { frondReset with arr := refill f.arr }
    harvest := s.harvest.map fun x => ⟨false, false, false, false, 0, x.stamp, x.ns⟩
    tally := { tallyReset with tj := s.tally.tj, junctions := s.tally.junctions }
    pkg := { State.reset.pkg with lastFail := s.pkg.lastFail }
    nextId := s.nextId, wire := s.wire, freeCtr := s.freeCtr, pending := s.pending }

/-- Enables fall, group 4, 3, 2, and their power-good inputs with them (log 22). -/
def dropEnables (s : State) : State :=
  { s with pins := { s.pins with
      enIo := [false, false], pgIo := [false, false], enFr := List.replicate 6 false, pgFr := List.replicate 6 false,
      enHub := [false, false], pgHub := [false, false] } }

/-- The package enters off-hold: every pad group is held, one that is held already at the value it has (R364), and only the always-on
domains and the MRAM keep anything. -/
def offHold (s : State) : State :=
  let g := sbGpio s
  let s := dropEnables (blank s)
  { s with
    pins := { s.pins with
      heldDdr := s.pins.heldDdr.map fun x => some (x.getD false), heldPort := List.replicate 6 true
      heldSb := s.pins.heldSb.or (some (g, s.pins.fault)) }
    boot := { s.boot with stage := 0x7F, returning := none } }

/-- Events that were held before the log scan are written in order; those beyond 256 are counted in LOG_SHED (R446). -/
def flushEarly (s : State) : State :=
  if s.log.scanned then s
  else
    let early := s.boot.early.reverse
    let shed := s.boot.earlyShed
    let s := { s with log := { s.log with scanned := true }
                      boot := { s.boot with early := [], earlyShed := List.replicate 16 0 } }
    let s := early.foldl logRecord s
    if shed.all (· == 0) then s else logShed s shed

/-! Stages (R438, R447, R459) -/

/-- The hubs that run start-up. -/
def startHubs (s : State) : List Nat := (hubs s).filter fun h => !s.boot.halfOut.getD h false

/-- This start-up runs in pair mode. -/
def startPair (s : State) : Bool := s.boot.mode == 1 || s.boot.mode == 2

/-- TEST_MODE 01: board test (R459). -/
def boardTest (s : State) : Bool := s.pins.straps.testMode == 1

/-- A half's return runs a stage on its hub (R451). -/
def returnsAt (s : State) (h k : Nat) : Bool := s.boot.returning == some (h, BitVec.ofNat 8 k)

/-- A half's return runs on this hub. -/
def returnsHub (s : State) (h : Nat) : Bool :=
  match s.boot.returning with
  | some (x, _) => x == h
  | none => false

/-- A hub runs a stage: start-up has reached it and the hub has not ended it, or the half's return has. -/
def atStage (s : State) (h k : Nat) : Bool :=
  returnsAt s h k ||
    (s.boot.stage == BitVec.ofNat 8 k && (startHubs s).contains h && !s.boot.hubDone.getD h true)

/-- Fronds of a hub that start-up still means to serve. -/
def startFronds (s : State) (h : Nat) : List Nat := (frondDies s).filter fun d => halfOf d == h && !(frond s d).lost

/-- Start-up stops: stage 0x7E, FAULT_N, and the record of it in the log (R447). -/
def startStop (s : State) : State :=
  flushEarly (assertFault { s with boot := { s.boot with stage := 0x7E, failed := true } })

/-- Set the stage that runs on every hub. -/
def setStage (s : State) (k : Nat) : State :=
  { s with boot := { s.boot with stage := BitVec.ofNat 8 k, hubDone := [false, false] } }

/-- Assert a hub's rail enable (group 2). -/
def raiseHub (s : State) (h : Nat) : State := { s with pins := { s.pins with enHub := s.pins.enHub.set h true } }

/-- Assert the enables of a hub's fronds (group 3). -/
def raiseFronds (s : State) (h : Nat) : State :=
  (startFronds s h).foldl (fun s d => { s with pins := { s.pins with enFr := s.pins.enFr.set (d - 2) true } }) s

/-- Assert a hub's group 4 enable; firmware releases the ports' balls where HPWR.CTL.AUTOREL is 1 (R365, R443). -/
def raiseIo (s : State) (h : Nat) : State :=
  let s := { s with pins := { s.pins with enIo := s.pins.enIo.set h true } }
  if autoRel s h then (hubPorts h).foldl (fun s p => { s with pins := { s.pins with heldPort := s.pins.heldPort.set p false } }) s
  else s

/-! Memory_Active (R24, R34, R413, R438, R441, R444) -/

/-- Version that a hub runs: its own image's, or in whole mode hub0's (R440). -/
def shareFw (s : State) : State :=
  match s.fw with
  | a :: _ :: t =>
    if startPair s then s else { s with fw := a :: { s.fw.getD 1 a with running := a.running } :: t }
  | _ => s

/-- The last stage: the halves serve with every frond whose hub link is up, logical devices attach in ascending order of place, pending
images are activated, a hub that lacks log records copies them from the other (R421), POWER_UP is recorded and the ledger is
written. -/
def memoryActive (s : State) (startMs : Nat) : State :=
  let on := startHubs s
  let s := setStage s 0x0B
  let role := if on.contains 0 then 0 else 1
  let s := { s with pkg := { s.pkg with
    half := (List.range 2).map fun h => if on.contains h then .serving else .out
    memActive := (List.range 2).map on.contains
    roleHub := role, primaryB := role == 1 } }
  let s := on.foldl (fun s h =>
    (startFronds s h).foldl (fun s d =>
        setDie (modFrond s d fun f => { f with dstate := 0, scrubFrom := nowNs s }) d (!s.pkg.linksDown.contains d))
      (setDie s h true)) s
  let s := (s.lds.map fun e : Nat × Ld => e.1).foldl (fun s k => attachIf s (BitVec.ofNat 16 k)) s
  let s := shareFw (on.foldl activateFw s)
  let s := if on.length = 2 then on.foldl catchUpLog s else s
  let s := modMem s fun m => { m with patrol := m.patrol.map fun _ => (nowNs s, 0) }
  ledgerWrite (raiseFull s 0xA002 0 0xFF 0xFF (if s.boot.unorderly then flagUnorderly else 0) 0 [(4, startMs)] .steward) false

/-! Stage ends -/

/-- The configuration store comes into force (R34, R187, R406, R423): a pending erase, the mode of this start-up, port splits and
DDR rates. -/
def adoptStore (s : State) : State :=
  let st := if s.store.erase then
      { State.reset.store with
        retired := s.store.retired, tb := s.store.tb, orderly := s.store.orderly, cal := s.store.cal, minSec := s.store.minSec }
    else s.store
  let mode := if s.chip.part = .ls8 then s.boot.mode else 0
  { s with
    store := { st with mode := mode, sel := none }
    pkg := { s.pkg with mode := mode, standby := mode == 2 }
    ports := (List.range 6).map fun p =>
      { s.ports.getD p ⟨0, .up, List.replicate 4 linkReset⟩ with bifMode := st.bifMode.getD p 0 }
    mem := { s.mem with rate := (List.range 12).map fun c => if st.rate.getD c 0 = 1 then 1 else 0 } }

/-- The configuration store is applied (R34, R187, R406, R423, R438), its registers read what it holds, and a change of mode is
recorded. -/
def applyStore (s : State) : State :=
  let old := s.store.mode
  let s := adoptStore s
  let mode := s.store.mode
  let put (s : State) (a : Nat) (v : Word) : State := covered (setReg s a v) a
  let st := s.store
  let s := put s (globalPage 0 + 0x800) (BitVec.ofNat 16 (mode.toNat + (if s.pkg.standby then 16 else 0)))
  let s := (List.range 6).foldl (fun s p => put s (portPage p + 0x800) ((st.bifMode.getD p 0).setWidth 16)) s
  let s := (List.range 12).foldl (fun s c => put s (diePage (c / 6) (8 + c % 6) + 0x800) ((st.rate.getD c 0).setWidth 16)) s
  let s := storeWrite s
  if old = mode then s
  else ledgerWrite (event s 0x900B 0 0xFF 0xFF [(2, old.toNat), (2, mode.toNat)] .steward) false

/-- Bytes installed on a hub by its population (R209). -/
def installedOf (p : DramPop) : Nat := p.channels.toNat * p.dimms.toNat * p.gbPerDimm.toNat * 1000000000

/-- Page-map blocks, and P of each of the given hubs less the reserve and the retired rows (R210, R300). Each hub carries its share of
the reserve. -/
def setPhys (s : State) (on : List Nat) : State :=
  let per (h : Nat) : Nat := s.mem.installed.getD h 0
  let total := if startPair s then on.foldl (fun n h => max n (per h)) 0 else on.foldl (fun n h => n + per h) 0
  let blocks := min (3 * total / 2 / 2 ^ 28) 32768
  let lot := if startPair s then 1 else on.length
  let pages := (total - (134217728 * ((frondDies s).length * lot / (hubs s).length) + 268435456 * lot + 524288 * blocks)) / 4096
  let share (h : Nat) : Nat := if lot = 1 then pages else if h = 0 then pages - pages / 2 else pages / 2
  let gone (h : Nat) : Nat := (s.store.retired.getD h []).foldl (fun n x => n + x.2) 0
  modMem s fun m => { m with
    blocks := blocks, phys := (List.range 2).map fun h => if on.contains h then share h - gone h else 0 }

/-- Capacity once the hubs have trained (R210, R406): P, and the default watermarks. -/
def setCapacity (s : State) : State :=
  let on := startHubs s
  let s := setPhys s on
  let p := if startPair s then on.foldl (fun n h => max n (s.mem.phys.getD h 0)) 0 else s.mem.phys.foldl (· + ·) 0
  let s := setRegWide (setRegWide s (globalPage 5 + 0x60) 2 (p / 20)) (globalPage 5 + 0x68) 2 (p / 128)
  let s := [0x60, 0x64, 0x68, 0x6C].foldl (fun s o => covered s (globalPage 5 + o)) s
  { s with pkg := { s.pkg with memInfo := true } }

/-- A half that returns cannot serve: a rhizoid link that Table 1.7 takes it out for is down, or no half is left to copy from. -/
def returnCut (s : State) (h : Nat) : Bool :=
  !serving s (1 - h) || crossCut s || s.pkg.linksDown.any fun k =>
    if k < 8 then halfOf k == h else if k < 0x20 then false else hopHalf (k - 0x20) == some h

/-- A returning half's stages are over: its memory and arrays are copied next (R44, R451). -/
def returnDone (s : State) (h : Nat) : State :=
  if returnCut s h then halfOut s h 1
  else
    let s := setHalf (setPhys s [0, 1]) h .resync
    { s with pkg := { s.pkg with resync := some h }, boot := { s.boot with returning := none } }

/-- The rails of a hub's fronds stand. -/
def frondsUp (s : State) (h : Nat) : Bool := (startFronds s h).all fun d => s.pins.pgFr.getD (d - 2) false

/-- A returning half's hub goes on to its next stage. Rails that stand already end stage 0x06 at once. -/
def returnNext (s : State) (h k : Nat) : State :=
  if k = 9 then returnDone s h
  else
    let s := if k = 5 then raiseFronds s h else s
    { s with boot := { s.boot with returning := some (h, BitVec.ofNat 8 (if k = 5 && frondsUp s h then 7 else k + 1)) } }

/-- Every hub has ended a stage: the next begins. Stage 0x0B follows the DRAM fill with the measured start-up time. -/
def nextStage (s : State) (startMs : Nat) : State :=
  match s.boot.stage.toNat with
  | 3 => if boardTest s then (startHubs s).foldl raiseFronds (setStage s 6) else setStage s 4
  | 5 => (startHubs s).foldl raiseFronds (setStage (applyStore (flushEarly s)) 6)
  | 6 => if boardTest s then (startHubs s).foldl raiseIo (setStage s 7) else setStage s 7
  | 7 => if boardTest s then setStage s 0x7D else setStage s 8
  | 9 => setStage (setCapacity s) 0x0A
  | 10 => memoryActive s startMs
  | k => setStage s (k + 1)

/-- Go on where every hub that still runs has ended the stage. -/
def goOn (s : State) (startMs : Nat) : State :=
  if decide (2 ≤ s.boot.stage.toNat) && decide (s.boot.stage.toNat ≤ 0x0A) &&
      ((startHubs s).all fun h => s.boot.hubDone.getD h false) then nextStage s startMs else s

/-- A hub ends a stage. -/
def endStageMs (s : State) (h k startMs : Nat) : State :=
  if returnsAt s h k then returnNext s h k
  else goOn { s with boot := { s.boot with hubDone := s.boot.hubDone.set h true } } startMs

/-- A hub ends a stage, the DRAM fill excepted. -/
def endStage (s : State) (h k : Nat) : State := endStageMs s h k 0

/-- Stage 0x02 begins: hub rails. A hub whose rail stands already has ended it. -/
def beginRails (s : State) : State :=
  let s := (startHubs s).foldl raiseHub (setStage s 2)
  goOn { s with boot := { s.boot with hubDone := (List.range 2).map fun h => s.pins.pgHub.getD h false } } 0

/-! Failures (R447) -/

/-- A half goes out during start-up, and the ledger is written (R413); when both are out, start-up stops. -/
def startHalfOut (s : State) (h : Nat) : State :=
  let s := { s with boot := { s.boot with halfOut := s.boot.halfOut.set h true, failed := true } }
  let s := (hubPorts h).foldl (fun s p => (List.range 4).foldl (fun s l => linkLoss s p l) s) (setHalf s h .out)
  let s := ledgerWrite (raiseFull s 0x9005 1 0xFF 0xFF (halfFlag h) 0 [(1, h), (1, 1)] .steward) false
  if (startHubs s).isEmpty then startStop s else goOn s 0

/-- A failure of a hub at its stage, its event already raised: in whole mode start-up stops, in pair mode its half goes out, and
start-up stops where that is hub0 before stage 0x05. A half that returns goes out again. -/
def startFault (s : State) (h : Nat) : State :=
  if returnsHub s h then halfOut s h 1
  else if !startPair s || (h == 0 && decide (s.boot.stage.toNat < 5)) then startStop s
  else startHalfOut s h

/-- START_FAIL: stage, die and reason (R448). -/
def startFail (s : State) (h k die reason : Nat) : State :=
  startFault (event s 0x900F 2 die 0xFF [(1, k), (1, die), (2, reason)] .steward) h

/-- A frond is held out of service: in whole mode alone, in pair mode with its half. -/
def holdOut (s : State) (die : Nat) : State :=
  let h := halfOf die
  if startPair s || returnsHub s h then startFault s h
  else
    let s := setDie (modFrond s die fun f => { f with lost := true }) die false
    let s := { s with pins := { s.pins with enFr := s.pins.enFr.set (die - 2) false, pgFr := s.pins.pgFr.set (die - 2) false } }
    event s 0x9008 2 die 0xFF [(1, die), (1, 2)] .steward

/-- A frond misses its limit: START_FAIL, and it is held out. -/
def frondFail (s : State) (k die reason : Nat) : State :=
  holdOut (event s 0x900F 2 die 0xFF [(1, k), (1, die), (2, reason)] .steward) die

/-! Stage 0x01 (R368, R370, R416, R438, R440, R447, R458) -/

/-- The ledger slot of highest GEN that is good. -/
def bestSlot (l : SMap (BitVec 64 × Ledger)) : Option (Nat × BitVec 64 × Ledger) :=
  l.foldl (fun m e => match m with
    | some x => if x.2.1.toNat < e.2.1.toNat then some e else some x
    | none => some e) none

/-- The ledger is read: bad slots are skipped with LEDGER_SLOT_BAD, and the counts are those of the slot chosen. -/
def chooseSlot (s : State) (bad : List Nat) : State :=
  let lost := s.life.slots.filter fun e => bad.contains e.1
  let good := s.life.slots.filter fun e => !bad.contains e.1
  let s := { s with life := { s.life with slots := good } }
  let s := match bestSlot good with
    | some (k, g, c) => { s with life := { s.life with now := c, gen := g, slot := (k + 1) % 16 } }
    | none => { s with life := { s.life with now := ledgerReset, gen := 0, slot := 0 } }
  lost.foldl (fun s e => event s 0xA009 1 0xFF 0xFF [(1, e.1), (8, e.2.1.toNat)] .steward) s

/-- The timebase after a power-up (R368): one tick after an orderly record, an hour after any other, and never below what it has already
shown (log 23). -/
def resumeTb (s : State) : Nat := max (s.store.tb + (if s.store.orderly then 1 else 3600 * 32768)) s.clock.tb

/-- A power-up is counted; one that no orderly power-down came before is counted so as well (R413). -/
def countPower (s : State) (orderly : Bool) : State :=
  let s := modLedger s fun l => { l with
    cycles := inc32 l.cycles, unorderly := if orderly then l.unorderly else inc32 l.unorderly }
  { s with store := { s.store with orderly := false }, boot := { s.boot with unorderly := !orderly } }

/-- Mode and minimum security version of this start-up (R440). -/
def startMode (s : State) : BitVec 2 :=
  if s.chip.part = .ls8 then (if s.store.erase then 0 else s.store.sel.getD s.store.mode) else 0

/-- Stage 0x01 ends: a reserved TEST_MODE stops start-up; otherwise the hub rails rise. -/
def leaveOne (s : State) : State :=
  if s.pins.straps.testMode.toNat < 2 then beginRails s
  else startStop (event s 0x900F 2 0xFF 0xFF [(1, 1), (1, 0xFF), (2, 5)] .steward)

/-- The block as stage 0x01 finds it: the record of start-up is new; a cold start takes the timebase and the calendar from MRAM. -/
def stageOne (s : State) (cold : Bool) (tj : Word) : State :=
  { s with
    pins := { s.pins with fault := false }
    tally := { s.tally with tj := tj }
    log := { s.log with scanned := false }
    boot := { State.reset.boot with
      stage := 1, tripped := s.boot.tripped, xtalSeen := s.boot.xtalSeen, mode := startMode s, minSec := s.store.minSec }
    clock := { s.clock with
      tb := if cold then resumeTb s else s.clock.tb, fine := if cold then 0 else s.clock.fine
      cal := if cold then s.store.cal else s.clock.cal, calTick := if cold then 0 else s.clock.calTick
      stale := true, rc := cold || s.clock.rc, xtalOk := !cold && s.clock.xtalOk, refLost := false } }

/-- Stage 0x01 begins. Cold: after PORST_N; otherwise the always-on domain has stayed up, and its timebase and calendar run on. -/
def beginStart (s : State) (cold mramOk : Bool) (tj : Word) (bad : List Nat) : State :=
  let tripped := s.boot.tripped
  let s := stageOne (blank s) cold tj
  if !mramOk then assertFault { s with boot := { s.boot with hold := true, tripped := false } }
  else
    let s := countPower (chooseSlot s bad) s.store.orderly
    let s := { s with boot := { s.boot with startTb := s.clock.tb } }
    if tripped && decide (400 < tj.toInt) then assertFault { s with boot := { s.boot with hold := true } }
    else leaveOne { s with boot := { s.boot with tripped := false } }

/-- PORST_N_RELEASE (R437, R438): with no crystal edge, CLK_XTAL_FAIL is raised and the RC oscillator runs on. -/
def execPorstNRelease (straps : Straps) (tj : Word) (mramOk xtalEdge : Bool) (badSlots : List (BitVec 4)) (s : State) : Res :=
  .next (if s.pins.porstN then s
  else
    let s := { s with pins := { s.pins with porstN := true, straps := straps }, boot := { s.boot with xtalSeen := xtalEdge } }
    let s := beginStart s true mramOk tj (badSlots.map fun x => x.toNat)
    if xtalEdge then s else xtalFail s 0x7FFFFFFF)

/-- PORST_N_ASSERT (R437, R453): whatever runs is abandoned, the enables fall and FAULT_N is high; balls that pad hold holds stay. -/
def execPorstNAssert (s : State) : Res :=
  .next (if s.pins.porstN then
    let s := dropEnables (blank s)
    { s with pins := { s.pins with porstN := false, fault := false }
             jtag := { s.jtag with ir := if [.bypass, .idcode, .samplePreload].contains s.jtag.ir then s.jtag.ir else .bypass
                                   driven := [] }
             boot := { State.reset.boot with tripped := s.boot.tripped } }
  else s)

/-- HIGH_TEMPERATURE_HOLD_END (R447): the junction has fallen to 100 °C. -/
def execHighTemperatureHoldEnd (tj : Word) (s : State) : Res :=
  .next (if s.boot.stage = 1 && s.boot.hold && s.boot.tripped && decide (tj.toInt ≤ 400) then
    leaveOne { s with
      tally := { s.tally with tj := tj }, pins := { s.pins with fault := false }
      boot := { s.boot with hold := false, tripped := false } }
  else s)

/-! Stages 0x02 to 0x05 -/

/-- PG_HUB (R436). -/
def execPgHub (hub : BitVec 1) (s : State) : Res :=
  let h := hub.toNat
  .next (if s.pins.enHub.getD h false && !s.pins.pgHub.getD h true then
    let s := { s with pins := { s.pins with pgHub := s.pins.pgHub.set h true } }
    if atStage s h 2 then endStage s h 2 else s
  else s)

/-- PLL_LOCK (R438). -/
def execPllLock (hub : BitVec 1) (s : State) : Res :=
  .next (if atStage s hub.toNat 3 then endStage s hub.toNat 3 else s)

/-- An image may run: its signature verifies and its security version is no lower than the minimum (R440). -/
def imgOk (s : State) (h : Nat) (i : FwImage) : Bool :=
  i.signed && decide ((if returnsHub s h then s.store.minSec else s.boot.minSec).toNat ≤
    i.security.toNat)

/-- The slot marked pending. -/
def pendingSlot (f : Fw) : Option Nat := (List.range 2).find? fun k => ((f.slots[k]?).map fun x => x.pending).getD false

/-- The image of a slot. -/
def slotImage (f : Fw) (k : Nat) : Option FwImage := (f.slots[k]?).bind fun x => x.image

/-- FW_FALLBACK (R441): the pending mark is cleared and start-up begins again at stage 0x02; 0 signature, 1 watchdog. -/
def fallBack (s : State) (h reason : Nat) : State :=
  let f := s.fw.getD h fwReset
  let v := (((pendingSlot f).or f.loaded).bind (slotImage f)).map fun i => i.version.toNat
  let s := { s with fw := s.fw.set h { f with
    slots := f.slots.map fun x => { x with pending := false }, loaded := none, asPending := false } }
  let s := event s 0x900E 1 h 0xFF [(1, h), (4, v.getD 0), (1, reason)] .steward
  let s := { s with boot := { s.boot with fallback := true } }
  if returnsHub s h then
    { s with boot := { s.boot with returning := some (h, if s.pins.pgHub.getD h false then 3 else 2) } }
  else
    let s := { s with
      pins := { s.pins with
        enIo := [false, false], pgIo := [false, false], enFr := List.replicate 6 false, pgFr := List.replicate 6 false }
      ports := s.ports.map fun p => { p with links := List.replicate 4 linkReset } }
    beginRails s

/-- A hub takes an image. -/
def takeImage (s : State) (h k : Nat) (pend : Bool) : State :=
  endStage { s with fw := s.fw.modify h fun f => { f with loaded := some k, asPending := pend } } h 4

/-- FIRMWARE_VERIFIED (R440 to R442): the pending image, or the slot last activated and then the other. In whole mode hub1 takes the
image hub0 has verified. -/
def execFirmwareVerified (hub : BitVec 1) (s : State) : Res :=
  let h := hub.toNat
  let f := s.fw.getD h fwReset
  let ok (k : Nat) : Bool := ((slotImage f k).map (imgOk s h)).getD false
  .next (if !atStage s h 4 then s
  else if h = 1 && !startPair s && !inPair s then (if s.boot.hubDone.getD 0 false then endStage s h 4 else s)
  else match pendingSlot f with
    | some k => if ok k then takeImage s h k true else fallBack s h 0
    | none =>
      if ok f.lastActive then takeImage s h f.lastActive false
      else if ok (1 - f.lastActive) then takeImage s h (1 - f.lastActive) false
      else startFail s h 4 h 2)

/-- Both copies of the configuration store are lost: its reset values hold, the hardware records are kept (R423, R447). -/
def loseStore (s : State) (h : Nat) : State :=
  let st := s.store
  let s := { s with
    store := { State.reset.store with
      retired := st.retired, tb := st.tb, orderly := st.orderly, cal := st.cal, mode := st.mode, minSec := s.chip.fusedMin }
    boot := { s.boot with mode := 0 } }
  event s 0x9010 1 h 0xFF [(1, h)] .steward

/-- The record that a power loss left open: what its bytes hold is what was being written, which no command tells (log 48). -/
def openRecord (q : BitVec 48) : EvRec :=
  let v := freeRecord q.toNat
  { code := v.extractLsb' 0 16, seq := q, tb := v.extractLsb' 16 64, cal := v.extractLsb' 80 48, die := v.extractLsb' 128 8
    seat := v.extractLsb' 136 8, flags := v.extractLsb' 144 16, count := v.extractLsb' 160 16, detail := v.extractLsb' 176 256 }

/-- An open record is committed: it stands in the log like any other (R418, R420, R471). -/
def commitOpen (s : State) (q : BitVec 48) : State :=
  let r := openRecord q
  { s with log := { s.log with
      circ := (r :: s.log.circ).take 65472
      hist := if historyKind r.code.toNat && s.log.hist.length < 64 then s.log.hist ++ [r] else s.log.hist
      unread := if decide (16384 ≤ r.flags.toNat) || r.code == 0x6004 then s.log.unread ++ [q.toNat] else s.log.unread } }

/-- The scan of one hub's log (R420): an open record is committed, or made void with LOG_TORN; its SEQ is not used again. The other hub's
copy of a record that stands in the log already adds nothing. -/
def scanLog (s : State) (hub : Nat) (r : Option (BitVec 48 × Bool)) : State :=
  match r with
  | some (q, ok) =>
    let new := decide (s.log.next ≤ q.toNat)
    let s := { s with log := { s.log with next := max s.log.next (q.toNat + 1) } }
    let s := modLedger s fun l => { l with mramWr := bump l.mramWr (2048 * hub + circSector q.toNat) 1 }
    if ok then (if new || s.log.void.contains q.toNat then
        commitOpen { s with log := { s.log with void := s.log.void.filter (· != q.toNat) } } q else s)
    else
      let s := if new then { s with log := { s.log with void := q.toNat :: s.log.void } } else s
      event s 0xA007 1 0xFF 0xFF [(6, q.toNat)] .steward
  | none => s

/-- MRAM_RECOVERY_DONE (R420, R422, R438, R447). A half that returns reads the store that its partner serves with. -/
def execMramRecoveryDone (hub : BitVec 1) (found : MramFound) (s : State) : Res :=
  let h := hub.toNat
  .next (if !atStage s h 5 then s
  else
    let s := scanLog s h (if h = 0 then found.open0 else found.open1)
    let s := { s with store := { s.store with scratch := none } }
    let s := if found.storeLost && !returnsAt s h 5 then loseStore s h else s
    endStage s h 5)

/-! Stages 0x06 to 0x0A -/

/-- PG_FR (R436): stage 0x06 of the hub ends with the last of its fronds. -/
def execPgFr (frondNo : BitVec 3) (s : State) : Res :=
  let f := frondNo.toNat
  let h := halfOf (f + 2)
  .next (if f < 6 && s.pins.enFr.getD f false && !s.pins.pgFr.getD f true then
    let s := { s with pins := { s.pins with pgFr := s.pins.pgFr.set f true } }
    if atStage s h 6 && frondsUp s h then endStage s h 6 else s
  else s)

/-- Group 4 of a hub rises; stage 0x07 of a returning half ends where it stands already. -/
def ioNext (s : State) (h : Nat) : State :=
  if returnsHub s h && s.pins.pgIo.getD h false then endStage s h 7 else raiseIo s h

/-- SELFTEST_DONE (R290, R438, R447): a hub whose checkers pass raises group 4; failed fronds are held out. -/
def execSelftestDone (hub : BitVec 1) (out : SelftestOut) (s : State) : Res :=
  let h := hub.toNat
  let mine := out.failed.filter fun x => present s x.1.toNat && halfOf x.1.toNat == h
  .next (if !atStage s h 7 || boardTest s || s.pins.enIo.getD h true && !returnsHub s h then s
  else
    let s := mine.foldl selftestFail s
    if mine.any fun x => x.1.toNat < 2 then startFault s h
    else
      let dies := (mine.map fun x => x.1.toNat).eraseDups
      if dies.isEmpty then ioNext s h
      else if startPair s || returnsAt s h 7 then startFault s h
      else raiseIo (dies.foldl holdOut s) h)

/-- PG_IO (R436, R443): group 4 of a hub stands; stage 0x07 ends, and its ports may train. -/
def execPgIo (hub : BitVec 1) (s : State) : Res :=
  let h := hub.toNat
  .next (if s.pins.enIo.getD h false && !s.pins.pgIo.getD h true then
    let s := { s with pins := { s.pins with pgIo := s.pins.pgIo.set h true } }
    if atStage s h 7 then endStage s h 7 else s
  else s)

/-- The logical pan a physical pan stands for reports a read-back failure, or the spare leaves the pool (R296, R406, R447). -/
def badPan (s : State) (x : BitVec 12 × Word) : State :=
  let i := x.1.toNat
  let d := i / 544 + 2
  let s := event s 0x100A 1 d 0xFF [(2, i), (2, x.2.toNat)] .steward
  modArr s d fun a => { a with spares := a.spares.filter (· != i % 544) }

/-- The pool of spares by PAN_STATE. -/
def poolOf (s : State) (die : Nat) : List Nat := (List.range 544).filter fun k => panStateOf s (panIndex die k) == 1

/-- ARRAY_FILL_DONE (R288, R438, R447): the arrays hold the fill; what fails its read-back is reported, a frond over its limit is held
out. -/
def execArrayFillDone (hub : BitVec 1) (out : FillOut) (s : State) : Res :=
  let h := hub.toNat
  let late := (out.late.map fun x => x.toNat).filter fun d => (startFronds s h).contains d
  let bad := out.badPans.filter fun x => decide (x.1.toNat < 3264) && (startFronds s h).contains (x.1.toNat / 544 + 2)
  .next (if !atStage s h 8 then s
  else
    let s := (startFronds s h).foldl (fun s d => modFrond (darkTags s d) d fun f => { f with
      arr := { refill f.arr with spares := poolOf s d }, level := 4, dstate := 0 }) s
    let s := bad.foldl badPan s
    match late with
    | [] => endStage s h 8
    | d :: _ =>
      if startPair s || returnsAt s h 8 then frondFail s 8 d 3
      else endStage (late.foldl (fun s d => frondFail s 8 d 3) s) h 8)

/-- A population keeps R209. -/
def popOk (p : DramPop) : Bool :=
  p.ok && (p.channels == 3 || p.channels == 6) && decide (16 ≤ p.gbPerDimm.toNat) && decide (p.gbPerDimm.toNat ≤ 256) &&
    (p.dimms == 1 || p.dimms == 2) && (p.ranks == 1 || p.ranks == 2 || p.ranks == 4)

/-- Both hubs of an LS-8 are populated alike (R209). -/
def popAlike (s : State) (h : Nat) (p : DramPop) : Bool :=
  match s.mem.pop.getD (1 - h) none with
  | some q => decide ({ q with ok := true } = { p with ok := true })
  | none => true

/-- DRAM_TRAINING_DONE (R209, R438, R447): the DDR balls are released, and the population is kept. -/
def execDramTrainingDone (hub : BitVec 1) (pop : DramPop) (s : State) : Res :=
  let h := hub.toNat
  .next (if !atStage s h 9 then s
  else if popOk pop && popAlike s h pop then
    let s := { s with pins := { s.pins with heldDdr := s.pins.heldDdr.set h none } }
    let s := modMem s fun m => { m with pop := m.pop.set h (some pop), installed := m.installed.set h (installedOf pop) }
    endStage s h 9
  else startFail s h 9 h 4)

/-- DRAM_FILL_DONE (R289, R438): all DRAM is zero and the shadow holds the fill; after the last hub, Memory_Active. -/
def execDramFillDone (hub : BitVec 1) (startMs : BitVec 32) (s : State) : Res :=
  .next (if atStage s hub.toNat 0x0A then endStageMs s hub.toNat 0x0A startMs.toNat else s)

/-- STAGE_LIMIT_EXPIRE (R447): the hub or frond named has not ended its stage. -/
def execStageLimitExpire (die : BitVec 3) (s : State) : Res :=
  let d := die.toNat
  let h := halfOf d
  .next (if d < 2 then
    if atStage s d 2 then startFail s d 2 d 1
    else if atStage s d 3 then
      let s := fatalEvent s 0x700B 0xFF [d] []
      if returnsHub s d then halfOut s d 1 else startStop s
    else if atStage s d 4 then startFail s d 4 d 2
    else if atStage s d 7 then startFail s d 7 d 1
    else if atStage s d 8 then startFail s d 8 d 3
    else if atStage s d 9 then startFail s d 9 d 4
    else if atStage s d 0x0A then startFail s d 0x0A d 4
    else s
  else if atStage s h 6 && (startFronds s h).contains d && !s.pins.pgFr.getD (d - 2) true then
    let s := frondFail s 6 d 1
    if atStage s h 6 && frondsUp s h then endStage s h 6 else s
  else if atStage s h 8 && (startFronds s h).contains d then frondFail s 8 d 3
  else s)

/-- FW_WATCHDOG (R441): a start-up or return under a pending image has not reached stage 0x0B in 60 s. -/
def execFwWatchdog (hub : BitVec 1) (s : State) : Res :=
  let h := hub.toNat
  .next (match s.fw[h]? with
    | some f =>
      if f.asPending && (returnsHub s h ||
          (decide (4 ≤ s.boot.stage.toNat) && decide (s.boot.stage.toNat ≤ 0x0A))) then fallBack s h 1
      else s
    | none => s)

/-! Rhizoid links (R28) -/

/-- The half that a rhizoid link takes out during a start-up in pair mode (Table 1.7): a frond's own, half B where both cross links are
down, the half whose cascade needs the hop. -/
def linkHalf (s : State) (k : Nat) : Option Nat :=
  if k < 8 then some (halfOf k)
  else if k < 0x20 then (if crossCut s && (startHubs s).contains 0 then some 1 else none)
  else hopHalf (k - 0x20)

/-- A rhizoid link is down before stage 0x0B. In whole mode nothing is served yet: the link is found down when it is needed. -/
def linkStart (s : State) (k : Nat) : State :=
  if !startPair s then s
  else match linkHalf s k with
    | some h => if (startHubs s).contains h then startHalfOut s h else s
    | none => s

/-- LINK_DOWN (R28, R48): a rhizoid link has failed to retrain; the rails of the dies it joins are up from stage 0x02 on. -/
def execLinkDown (l : BitVec 8) (s : State) : Res :=
  let k := l.toNat
  .next (if linkHere s k && !s.pkg.linksDown.contains k && decide (2 ≤ s.boot.stage.toNat) && decide (s.boot.stage.toNat ≤ 0x0B) then
    let s := { s with pkg := { s.pkg with linksDown := k :: s.pkg.linksDown } }
    let s := event s 0x9001 2 (if k < 8 then k else 0xFF) 0xFF [(1, k)] .steward
    if started s then linkEffect s k else linkStart s k
  else s)

/-! Pins in service -/

/-- PG_FALL (R462, R467): a power-good input falls while its rail is enabled, a rail fault. Inputs 0 and 1 are the hubs', 2 to 7 the
fronds', 8 and 9 the group 4 inputs. -/
def execPgFall (input : BitVec 4) (s : State) : Res :=
  let i := input.toNat
  let fault (s : State) (rail : Nat) : State :=
    let s := modLedger s fun l => { l with railExc := l.railExc.modify rail inc32 }
    fresh (event s 0x700D 1 0xFF 0xFF [(1, rail), (2, (freeRail s.freeCtr).toNat), (4, (freeCurrent s.freeCtr).toNat)] .steward)
  .next (if i < 2 then
    if s.pins.pgHub.getD i false then fault { s with pins := { s.pins with pgHub := s.pins.pgHub.set i false } } (2 + i) else s
  else if i < 8 then
    if s.pins.pgFr.getD (i - 2) false then
      let s := { s with pins := { s.pins with pgFr := s.pins.pgFr.set (i - 2) false } }
      match (frond s i).sleeping with
      | some o =>
        let s := if 2 ≤ o.target then emptyCache s i else s
        refuseSleep (modFrond s i fun f => { f with sleeping := none }) i 9 o.target 0x05
      | none => fault s (4 + i)
    else s
  else if i < 10 then
    if s.pins.pgIo.getD (i - 8) false then fault { s with pins := { s.pins with pgIo := s.pins.pgIo.set (i - 8) false } } (4 + i)
    else s
  else s)

/-- HOST_PERST (R443, R453): a fall takes the port's links down; training may begin when it is high. -/
def execHostPerst (port : BitVec 3) (level : Bool) (s : State) : Res :=
  let p := port.toNat
  .next (if 6 ≤ p then s
  else
    let s := { s with pins := { s.pins with perst := s.pins.perst.set p level } }
    if level then s else (List.range 4).foldl (fun s l => linkLoss s p l) s)

/-! Power-down (R340, R360, R367, R413, R452, R472) -/

/-- THERM_TRIP (R340, R360): 122 °C at any sample, or 120 °C for 1 ms: a summary record, the ledger, then off-hold. -/
def execThermTrip (die : BitVec 3) (tj : Word) (s : State) : Res :=
  let long := match s.tally.hotFrom with
    | some t => decide (t + 33 ≤ s.clock.tb)
    | none => false
  .next (if s.boot.stage = 0 || s.boot.stage = 0x7F || !present s die.toNat ||
      !(decide (488 ≤ tj.toInt) || (decide (480 ≤ tj.toInt) && long)) then s
  else
    let s := flushEarly (modTally s fun t => { t with tj := tj })
    let s := modLedger s fun l => { l with tjMax := if l.tjMax.toInt < tj.toInt then tj else l.tjMax }
    let s := raiseFull s 0x7005 3 die.toNat 0xFF flagSummary 0 [(2, tj.toNat), (1, die.toNat)] .steward
    let s := offHold (ledgerWrite (assertFault s) false)
    { s with boot := { s.boot with tripped := true } })

/-- CLK_REF_LOST (R367, R447): the device stops serving with every block frozen and FAULT_N asserted; no dump is taken. During start-up
it stops. -/
def execClkRefLost (s : State) : Res :=
  let k := s.boot.stage.toNat
  .next (if s.clock.refLost || k < 3 || !(k ≤ 0x0B || k = 0x7D) then s
  else
    let s := flushEarly { s with clock := { s.clock with refLost := true } }
    let s := assertFault (raiseFull s 0x700B 3 0xFF 0xFF flagSummary 0 [] .steward)
    if k = 0x0B then { s with pkg := { s.pkg with frozen := [true, true], memActive := [false, false] } }
    else startStop s)

/-- DRAM_CHANNEL_LOST (R280, Table 12.5): in whole mode the hub stops serving memory and takes a dump, in pair mode its half goes out
and dumps; during the fill start-up stops, or the half goes out. -/
def execDramChannelLost (hub : BitVec 1) (channel : BitVec 3) (s : State) : Res :=
  let h := hub.toNat
  let items := [(1, h), (1, channel.toNat)]
  .next (if !present s h || decide (5 < channel.toNat) then s
  else if started s then (if dieIn s h || inPair s && halfState s h == .resync then harvestCause s h 0x300F h items else s)
  else if atStage s h 0x0A then startFault (fatalEvent s 0x300F h [h] items) h
  else s)

/-- Work that power-down lets complete, follow-ups included (R452): started searches run to their end; started moves and bulk operations
answer CMD_DONE as for their whole block, since the arrays and the memory that they would still change are not kept. -/
def quiesce (s : State) : State :=
  let s := (s.searches.map fun e : Nat × Search => e.1).foldl runOut s
  let moves := s.fronds.flatMap fun f => f.move.toList ++ f.moves
  let s := { s with fronds := s.fronds.map fun f => { f with move := none, moves := [], paused := false } }
  let s := moves.foldl (fun s m => moveOver s m stCmdDone m.count) s
  let s := s.jobs.foldl (fun s (e : Nat × Job) =>
    jobOver s e.1 e.2 stCmdDone (if e.2.kind = .load then e.2.count else e.2.moment) e.2.cost) s
  flushAll s

/-- An orderly power-down to off-hold (R452): the ledger is written as orderly and POWER_DOWN recorded. -/
def orderlyDown (s : State) : State :=
  let s := quiesce (flushEarly s)
  let s := event s 0xA003 0 0xFF 0xFF [(8, s.life.now.powerOn.toNat)] .steward
  offHold (ledgerWrite s true)

/-- A write of PKG.REINIT that took effect (R449): an orderly power-down, then start-up from stage 0x01; the always-on domain stays
up. -/
def reinitWrite (s : State) (w : Word32) : State :=
  let (s, v) := guardStore s (globalPage 0 + 0x804) ⟨0x804, 1, 0⟩ w
  let s := setReg s (globalPage 0 + 0x804) 0
  if v.getLsbD 0 then beginStart (orderlyDown s) false true s.tally.tj [] else s

/-- PKG_REINIT (R449). -/
def execPkgReinit (p : Place) (w : Word32) (s : State) : Res := .next (onGuard s p (globalPage 0 + 0x804) w reinitWrite)

/-- An emergency power-down (R472): one EMERGENCY_PD record, 0 from EPD_N, 1 from the sideband; FAULT_N; off-hold. -/
def emergencyDown (s : State) (source : Nat) : State :=
  offHold (assertFault (event (flushEarly s) 0x9011 3 0xFF 0xFF [(1, source)] .steward))

/-- EPD_N (R472): from stage 0x01. -/
def execEpdN (s : State) : Res :=
  .next (if s.boot.stage = 0 || s.boot.stage = 0x7F then s else emergencyDown s 0)

end Sys2Proof.Machine
end

