-- ==== Sys2Proof/Machine/Registers.lean ====
section
/-!
DEFINITION. Register space: what every register reads as, reads and writes of any width, staged commits, the mailbox's start,
configuration checks, the ARR page and the Watripo window (R373 to R411).
-/
namespace Sys2Proof.Machine

/-! What registers read as (Tables 10.5 to 10.19, 11.2, 11.4, 11.7) -/

/-- A register's address from its page and offset. -/
def PageId.base (pg : PageId) : Nat :=
  match pg.ty with
  | .mgmt => mgmtPage pg.inst
  | _ => if pg.die = 0xFF then globalPage pg.num else diePage pg.die pg.num

/-- Bits of a list, the first in bit 0. -/
def bitsOf (l : List Bool) : Nat := l.foldr (fun b n => (if b then 1 else 0) + 2 * n) 0

/-- Two-bit fields of a list, the first in bits [1:0]. -/
def pairsOf (l : List Nat) : Nat := l.foldr (fun b n => b % 4 + 4 * n) 0

/-- A frond's cycle counter as a read returns it: that of a running frond counts on from the last epoch boundary, that of a sleeping
one is bridged to the moment of the read (R371, R394). -/
def cyclesNow (s : State) (die : Nat) : BitVec 64 :=
  let f := frond s die
  if 2 ≤ f.dstate then f.cycles + BitVec.ofNat 64 ((nowNs s - f.stopNs) * frondMhz f.level / 1000)
  else if f.dstate = 0 && !f.waking && !halted s (halfOf die) then f.cycles + epochCycles s f
  else f.cycles

/-- PKG.PART (Table 10.15). -/
def pkgPart (s : State) : Nat :=
  (match s.chip.part with | .ls2 => 2 | .ls4 => 4 | .ls8 => 8) * 4096 + (if s.chip.fast then 0xF else 0xC) * 256 + 0x58

/-- The hub of a half serves searches or memory (R400). -/
def halfServes (s : State) (h : Nat) : Bool :=
  started s && (hubs s).contains h && !halted s h && (!inPair s || serving s h)

/-- A COST.SEL value as the cost book keys it: the level matters to fronds' operations and to standing charges in D0 only. -/
def selKey (v : Word) : Nat :=
  let e := bits v 4 0
  let st := v.getLsbD 7
  costSel st e (if st && e != 0 && e != 6 then 0 else bits v 10 8)

/-- COST.VALUE or COST.DEFAULT: operation charges in 10 pJ, standing ones in 0.1 µJ (Table 10.19). -/
def costReg (v : Word) (pj : Nat → Nat) : Nat :=
  if allSels.contains (selKey v) then pj (selKey v) / (if v.getLsbD 7 then 100000 else 10) else (freeCost v.toNat).toNat

/-- Records used in the history area and the oldest SEQ of the circular area (Table 11.4). -/
def logFirst (s : State) : Nat := match s.log.circ.getLast? with
  | some r => r.seq.toNat
  | none => s.log.next

/-- The value of a register of several words that the device computes, by the offset of its W0. -/
def wideLive (s : State) (pg : PageId) (off : Nat) : Option Nat :=
  let both (f : Disp → BitVec 64) : Nat := (s.disp.foldl (fun (n : BitVec 64) d => n + f d) 0).toNat
  match pg.ty, off with
  | .disp, 0x40 => some (both fun d => d.ndSquash)
  | .disp, 0x50 => some (both fun d => d.pfSquash)
  | .disp, 0x60 => some (both fun d => d.confirm)
  | .disp, 0x70 => some (both fun d => d.retract)
  | .disp, 0x80 => some (((s.disp[pg.die]?).map fun d : Disp => d.submits.toNat).getD 0)
  | .coh, 0x40 => some (s.coh.evict.getD pg.die (0, 0)).1.toNat
  | .coh, 0x50 => some (s.coh.evict.getD pg.die (0, 0)).2.toNat
  | .rake, 0x40 => some (((frond s pg.die).move.map fun m : Move => m.count - m.moved).getD 0)
  | .scrub, 0x44 => some (frond s pg.die).scrubPos
  | .fperf, 0x40 => some (cyclesNow s pg.die).toNat
  | .fperf, 0x50 => some (frond s pg.die).searches.toNat
  | .fperf, 0x60 => some (frond s pg.die).lit.toNat
  | .pkg, 0x50 => some s.chip.serial.toNat
  | .pkg, 0x60 => some (((s.fw[s.pkg.roleHub]?).map fun f : Fw => f.running.toNat).getD 0)
  | .tally, 0x60 => some (((mget s.seats (bits (reg s (globalPage 1 + 0x5C)) 5 0)).map fun x : Seat => x.spentTotal / 1000).getD 0)
  | .tally, 0x70 => some (s.tally.bg / 1000)
  | .tally, 0x80 => some s.tally.refused.toNat
  | .cost, 0x44 => some (costReg (reg s (globalPage 2 + 0x40)) (costValue s))
  | .cost, 0x4C => some (costReg (reg s (globalPage 2 + 0x40)) costDefault)
  | .cap, 0x40 => some (capP s)
  | .cap, 0x48 => some (capC s)
  | .cap, 0x50 => some (capU s)
  | .cap, 0x58 => some (capF s)
  | .time, 0x40 => some s.clock.tb
  | .time, 0x50 => some (nowNs s)
  | .time, 0x60 => some s.clock.cal.toNat
  | .ledger, 0x44 =>
    some (if (reg s ledgerStat).getLsbD 0 then (ledgerField s (reg s (globalPage 8 + 0x40)).toNat).getD 0 else 0)
  | .ledger, 0x54 => some s.life.gen.toNat
  | .log, 0x40 => some (logFirst s)
  | .log, 0x50 => some s.log.next
  | _, _ => none

/-- STAT of a page: what is stored, with the bits the device computes (Tables 10.6, 10.18, 11.2, 11.4, 11.7). -/
def statLive (s : State) (pg : PageId) : Word :=
  let base := pg.base
  let v := reg s (base + 0xC) ||| (if s.regs.armed.contains base then 0x2000 else 0)
  let f := frond s pg.die
  let asleep : Word := if 2 ≤ f.dstate then 0x8000 else 0
  let num (n : Nat) : Word := BitVec.ofNat 16 n
  match pg.ty with
  | .sluice => v ||| (if committing s base then 1 else 0)
  | .rake => v ||| num (bitsOf [f.move.isSome, f.paused])
  | .fpwr => v ||| asleep ||| num (256 * f.level + 64 * f.dstate)
  | .fperf => v ||| asleep
  | .time => num (bitsOf [s.clock.xtalOk, s.clock.rc, s.clock.stale])
  | .log => v ||| num (bitsOf [s.log.loading.isSome, s.log.record.isSome])
  | .harvest =>
    let h := harvestOf s (harvestHub s)
    v ||| num (bitsOf [h.busy, h.partly, h.valid, h.held])
  | _ => v

/-- The value of a single register that the device computes. -/
def oneLive (s : State) (pg : PageId) (off : Nat) : Option Nat :=
  let die := pg.die
  let k := (off - 0x40) / 4
  match off with
  | 0 => some (256 * (pg.ty.code + if pg.ty = .ring then (pg.num - 0x400) / 256 else 0) + pg.inst)
  | 0xC => some (statLive s pg).toNat
  | 0x20 => some ((mget s.regs.sig pg.base).getD
      (crcWords 0xFFFF ((coveredOffsets pg.ty).map fun o => resetOf (pg.base + o) &&& coveredMask pg.ty o))).toNat
  | _ =>
    match pg.ty with
    | .hport =>
      let l := link s pg.inst k
      if 0x40 ≤ off && off < 0x50 then some (8192 * l.rate.toNat + 256 * l.width.toNat + bitsOf [l.up, l.cxl]) else none
    | .coh => if off = 0x64 then some (s.coh.retry.getD die []).length else none
    | .hpwr =>
      if off = 0x40 then
        some (bitsOf [(s.pins.heldDdr.getD die none).isSome, (hubPorts die).any fun p => s.pins.heldPort.getD p false,
          s.pins.heldSb.isSome])
      else none
    | .repair =>
      let bed (b : Nat) : Nat := ((frond s die).arr.spares.filter fun p => p / 34 == b).length
      if off = 0x40 then some (pairsOf ((List.range 8).map bed))
      else if off = 0x44 then some (pairsOf ((List.range 8).map fun b => bed (8 + b)))
      else none
    | .hce => if off = 0x40 then some (sat (frond s die).hce.length 16) else none
    | .pkg =>
      match off with
      | 0x40 => some (pkgPart s)
      | 0x44 => some s.pkg.dies.toNat
      | 0x48 => some (bitsOf [halfServes s 0, halfServes s 1, false, false, inPair s && s.pkg.primaryB])
      | 0x4C => some ((if inPair s && s.pkg.standby then 16 else 0) + s.pkg.mode.toNat)
      | _ => none
    | .tally =>
      match off with
      | 0x44 => some (s.tally.b / 1000000)
      | 0x48 => some (s.tally.base / 1000000)
      | 0x4C => some (s.tally.g / 1000000)
      | 0x50 => some (s.tally.q / 1000000)
      | 0x54 => some (s.tally.derate / 1000)
      | 0x58 => some s.tally.tj.toNat
      | _ => none
    | .cost =>
      let key := selKey (reg s (globalPage 2 + 0x40))
      if off = 0x54 then some ((entryRails key).headD 0 + if s.tally.atLimit.contains key then 256 else 0) else none
    | .seats =>
      if 0x50 ≤ off && off < 0x60 then some (bitsOf ((List.range 16).map fun i => mhas s.seats (16 * (k - 4) + i)))
      else if 0x60 ≤ off && off < 0x70 then some (bitsOf ((List.range 16).map fun i => mhas s.store.secrets (16 * (k - 8) + i)))
      else none
    | .keys =>
      let st (n : Nat) : Nat :=
        if !mhas s.keys n then 0 else if s.extents.any fun e : Nat × Extent => e.2.key == some n then 2 else 1
      if off < 0x80 && 0x40 ≤ off then some (pairsOf ((List.range 8).map fun i => st (8 * k + i))) else none
    | .log =>
      if off = 0x60 then some s.log.hist.length
      else if 0x80 ≤ off && off < 0x100 then some (field (s.log.record.getD 0) (2 * (k - 16)) 2)
      else none
    | .harvest =>
      let h := harvestOf s (harvestHub s)
      if off = 0x4C then some h.cause.toNat
      else if 0x80 ≤ off && off < 0x100 && !h.valid then some 0
      else none
    | .mgmt =>
      match off with
      | 0x40 =>
        let open_ := ((mget s.seats pg.inst).map fun x : Seat => x.session.isSome).getD false
        some ((if s.steward.holder = some pg.inst then 32768 else 0) + (if open_ then 16384 else 0) + pg.inst)
      | 0x44 => some (((seatPlace s pg.inst).map fun p : Place => p.toNat).getD 0)
      | 0x48 => some (pkgPart s)
      | _ => none
    | .ring =>
      let n := pg.num - 0x400
      match off with
      | 0x44 => some (((mget s.rings n).bind fun r : Ring => r.holder).getD 0xFF)
      | 0x48 => some (4096 * (((mget s.rings n).map fun r : Ring => r.index).getD 0) + n)
      | _ => none
    | _ => none

/-- The whole value that a register's words hold. -/
def wideValue (s : State) (pg : PageId) (w0 words : Nat) : Nat :=
  (wideLive s pg w0).getD (regWide s (pg.base + w0) words)

/-- The value of a register below 0x400: its active half (R387). -/
def regValue (s : State) (pg : PageId) (off : Nat) (r : RegSpec) : Word :=
  if 1 < r.words then BitVec.ofNat 16 (wideValue s pg (off - 4 * r.idx) r.words / 2 ^ (16 * r.idx))
  else match oneLive s pg off with
    | some v => BitVec.ofNat 16 v
    | none => reg s (pg.base + off)

/-! Reads (R379, R386, R392) -/

/-- Clear the RC fields of a register after a read, all words of a value at once. -/
def clearRc (s : State) (pg : PageId) (off : Nat) (r : RegSpec) : State :=
  if r.rc = 0 then s
  else if pg.ty = .tally && off = 0x80 then modTally s fun t => { t with refused := 0 }
  else setReg s (pg.base + off) (reg s (pg.base + off) &&& ~~~r.rc)

/-- The data of a read at a slot, and what the read does: W0 of a value latches the higher words, W1 on return the latch. With
read-only reach nothing is cleared. -/
def readSlot (s : State) (p : Place) (pg : PageId) (off : Nat) (full : Bool) : Slot → State × Word
  | .plain r =>
    if r.words = 1 then
      let v := regValue s pg off r
      (if full then clearRc s pg off r else s, v)
    else
      let key := ldKey p (pg.base + off - 4 * r.idx)
      if r.idx = 0 then
        let v := wideValue s pg off r.words
        let s' := modRegs s fun g => { g with latch := mput g.latch key (BitVec.ofNat 48 (v / 2 ^ 16)) }
        (if full then clearRc s' pg off r else s', BitVec.ofNat 16 v)
      else match mget s.regs.latch key with
        | some v => (s, (v >>> (16 * (r.idx - 1))).setWidth 16)
        | none => (s, regValue s pg off r)
  | .staged r => (s, stagedReg s (pg.base + off - 0x400) &&& r.rws)
  | .guarded g => (s, reg s (pg.base + off) &&& (g.rwg ||| g.rws))
  | .complement g => (s, stagedReg s (pg.base + off - 0x400) &&& g.rws)
  | .hole => (s, 0)

/-! The Watripo window (R408 to R411) -/

/-- The seat whose BAR0 reaches the window: the bound one, while EN is 1, attached, and not detached since. -/
def windowSeat (s : State) (p : Place) : Option Nat :=
  match seatOf s p with
  | some n =>
    if started s && !s.clock.refLost && placeUp s p && pageEn s (globalPage 0xB) && !s.regs.wshut &&
        decide (bits (reg s (globalPage 0xB + 0x40)) 5 0 = n) && !detaching s n && !cutOff s n then some n else none
  | none => none

/-- The address lies in the window. -/
def inWindow (a : Nat) : Bool := decide (0x03000000 ≤ a) && decide (a < 0x03010000)

/-- The register of the window an address decodes to: bits [11:2]. -/
def winOff (a : Nat) : Nat := a % 4096 / 4 * 4

/-- Latch key of the window's value at an offset. -/
def winKey (p : Place) (off : Nat) : Nat := ldKey p (winAddr off)

/-- A read of a word of the window (Table 10.20). -/
def winRead (s : State) (p : Place) (off : Nat) : State × Word :=
  let latched (w0 : Nat) : State × Word :=
    if off = w0 then
      (modRegs s fun g => { g with latch := mput g.latch (winKey p w0) ((reg s (winAddr (w0 + 4))).setWidth 48) }, reg s (winAddr w0))
    else match mget s.regs.latch (winKey p w0) with
      | some v => (s, v.setWidth 16)
      | none => (s, reg s (winAddr off))
  if off = 0 then (s, 0x0160)
  else if off = 4 then (s, reg s (winAddr 4) ||| (if s.regs.wcmd.isSome then 0x8000 else 0))
  else if off = 0x10 || off = 0x14 then latched 0x10
  else if off = 0x80 || off = 0x84 then latched 0x80
  else if off = 0x18 || off = 0x20 || off = 0x24 || (0x40 ≤ off && off < 0x68) || (0x88 ≤ off && off < 0x98) then
    (s, reg s (winAddr off))
  else (s, 0)

/-- The key pieces of the window for a table's width (R17, R411). -/
def winSearchKey (s : State) (rows : Nat) : Key :=
  (List.range (5 * rows)).foldl (fun k i => k ||| ((reg s (winAddr (0x40 + 4 * i))).setWidth 640 <<< (16 * i))) 0

/-- The hub of a seat's port. -/
def seatHub (s : State) (seat : Nat) : Nat := ((seatPlace s seat).map placeHub).getD 0

/-- SEARCH through the window (R411): a single-hit search without early answers. What cannot be started yet leaves BUSY set, and the
tick tries it again. -/
def winSearch (s : State) (seat tb : Nat) : State :=
  let rows := ((mget s.tables tb).map fun t : Table => t.rows).getD 1
  match singleCheck s seat tb (5 * rows) 1 40 with
  | some st => winStatus s st false
  | none =>
    if !hubServes s (seatHub s seat) then s
    else match needFronds s (tableDies s [tb]) with
      | some s' => s'
      | none =>
        match tableIn s tb with
        | none => winStatus s stBadTable false
        | some t =>
          let (s, r) := launch s t
            { ring := 0, sub := 0, member := 0, tag := 0, seat := seat, table := tb, key := winSearchKey s t.rows, hits := 1,
              early := false, window := true, fetched := nowNs s }
          match r with
          | some st => winStatus s st false
          | none => modRegs s fun g => { g with wcmd := some ⟨0, seat, tb⟩ }

/-- Admit, run and settle a command of the window, as a ring's command is (R411). -/
def winPay (s : State) (seat : Nat) (dies : List Nat) (writes valids : Nat)
    (work : State → Except (BitVec 8) (State × Nat × Nat)) : State :=
  let d := opCost s opDispatch 0
  let c := arrayCost s dies writes valids
  if dies.all (frondServes s) && !dies.all (awake s) then dies.foldl wakeDie s
  else match admitWork s seat (d + c) with
    | none => winStatus (countRefused s) stOverBudget false
    | some (s, g) =>
      let s := bookOp s (2 + seatHub s seat) d
      if dies.isEmpty || dies.any fun x => !frondServes s x then winStatus (settle s seat (d + c) d g) stFrondLost false
      else match work s with
        | .ok (s', w, v) =>
          winStatus (settle (bookArray s' dies w v) seat (d + c) (d + arrayCost s dies w v) g) stCmdDone false
        | .error st => winStatus (settle s seat (d + c) d g) st false

/-- The planes of a row with one slice replaced (R405). -/
def sliceRow (s : State) (die row slice : Nat) (data mask : Word) : Plane × Plane :=
  let r := rowAt s die row
  let m : Plane := (0xFFFF : Plane) <<< (16 * slice)
  let put (old : Plane) (w : Word) : Plane := if 4 < slice then old else (old &&& ~~~m) ||| (w.setWidth 80 <<< (16 * slice))
  (put r.data data, put r.mask mask)

/-- An entry with one row's planes replaced is covered by the pan's tag (R64). -/
def sliceCovered (s : State) (die first n ofs row : Nat) (x : Plane × Plane) : Bool :=
  let plane (r : Nat) : Plane × Plane := if r = row then x else ((rowAt s die r).data, (rowAt s die r).mask)
  let l := (entryRows first n).map plane
  covers (panTag s die (first / 8192)) (entryBits (l.map fun y => y.1)) (entryBits (l.map fun y => y.2)) ofs
    (l.any fun y => hasNever y.1 y.2)

/-- The entry that W.INDEX names, where it lies in the table's ranges: its POS (R147, R410). -/
def winEntry (s : State) (t : Table) : Option Nat :=
  let i := regWide s (winAddr 0x10) 2
  let per := 4194304 / t.rows
  (t.fronds.find? fun f => f.rank == i / per).bind fun f =>
    let p := posOf f.die (i % per * t.rows)
    (posSlot s t p false).map fun _ => p

/-- A command of the window on an entry, in the order of Table 4.11: detach, right, table, position, then admission and the
work. -/
def winEntryCmd (s : State) (seat tb : Nat) (changes : Bool) (writes valids : Nat)
    (work : Table → Nat → Nat → State → Except (BitVec 8) (State × Nat × Nat)) : State :=
  if detaching s seat then winStatus s stSeatDetaching false
  else if !holdsRight s seat tb true then winStatus s stNoRight false
  else match tableIn s tb with
    | none => winStatus s stBadTable false
    | some t =>
      match winEntry s t with
      | none => winStatus s stBadPosition false
      | some p =>
        let die := posDie p
        let row := posRow p
        let q := posIndex t row
        if !hubServes s (seatHub s seat) then s
        else if changes && (jobMeets s .snapshot die tb q q || tagsMoving s die row) then s
        else winPay s seat (copies s die) writes valids fun s =>
          match entryBusy s die tb q with
          | some st => .error st
          | none => work t die row s

/-- WRITE_SLICE (R411). -/
def winWriteSlice (s : State) (seat tb : Nat) : State :=
  let k := bits (reg s (winAddr 0x18)) 3 0
  winEntryCmd s seat tb true 1 0 fun t die row s =>
    if 5 * t.rows ≤ k then .error stBadPosition
    else
      let s := (copies s die).foldl (fun s d => if heldValid s d row t.rows then s else repairNow s d row t.rows) s
      let r := row + k / 5
      let img (d : Nat) : Plane × Plane := sliceRow s d r (k % 5) (reg s (winAddr 0x20)) (reg s (winAddr 0x24))
      if (copies s die).any fun d => entryValid s d row t.rows then .error stEntryValid
      else if (copies s die).any fun d => entryPoison s d row then .error stPoisoned
      else if !(copies s die).all fun d => sliceCovered s d row t.rows t.ofs r (img d) then .error stSluiceConflict
      else .ok (onCopies s die (row / 8192) seat fun s d => writeRow s d r (img d).1 (img d).2 none, 1, 0)

/-- READ_SLICE (R411): from the shadow, rebuilt where its record cannot be read. -/
def winReadSlice (s : State) (seat tb : Nat) : State :=
  let k := bits (reg s (winAddr 0x18)) 3 0
  winEntryCmd s seat tb false 0 0 fun t die row s =>
    if 5 * t.rows ≤ k then .error stBadPosition
    else
      let d := serveDie s die
      let r := row + k / 5
      let s := rebuildRecord s d r
      let g := shadowAt s d r
      if !recordGood g then .error stPoisoned
      else .ok (setReg (setReg s (winAddr 0x20) ((g.data >>> (16 * (k % 5))).setWidth 16)) (winAddr 0x24)
        ((g.mask >>> (16 * (k % 5))).setWidth 16), 0, 0)

/-- VALIDATE (R159, R411). -/
def winValidate (s : State) (seat tb : Nat) : State :=
  winEntryCmd s seat tb true 0 1 fun t die row s =>
    let s := (copies s die).foldl (fun s d => repairNow s d row t.rows) s
    match validateStep s t die row seat with
    | .ok s' => .ok (s', 0, 1)
    | .error st => .error st

/-- INVALIDATE (R159, R284, R411). -/
def winInvalidate (s : State) (seat tb : Nat) : State :=
  winEntryCmd s seat tb true 0 1 fun t die row s =>
    let s := (copies s die).foldl (fun s d => if underRepair s d row then repairNow s d row t.rows else s) s
    .ok (onCopies s die (row / 8192) seat fun s d =>
      if (entryRows row t.rows).any fun r => (rowAt s d r).valid || !rowGood d r (rowAt s d r) then
        invalidateEntry s d row t.rows else s, 0, 1)

/-- Run the window's command, or leave it waiting with BUSY set where its hub, its frond, a snapshot or a coverage check holds it
up (R411). -/
def winRun (s : State) (c : WinCmd) : State :=
  match c.code with
  | 1 => winSearch s c.seat c.table
  | 2 => winWriteSlice s c.seat c.table
  | 3 => winReadSlice s c.seat c.table
  | 4 => winValidate s c.seat c.table
  | 5 => winInvalidate s c.seat c.table
  | _ => s

/-- A write of W.CMD: ignored while BUSY, and with a code that names no command; otherwise BUSY becomes 1, the seat's hub wakes as at a
doorbell (R357), and the command runs. -/
def winCmd (s : State) (seat : Nat) (w : Word32) : State :=
  let code := bits (dataOf w &&& maskOf w) 2 0
  if s.regs.wcmd.isSome || code = 0 || 5 < code then s
  else
    let c : WinCmd := ⟨code, seat, bits (reg s (globalPage 0xB + 0x44)) 9 0⟩
    winRun (modRegs (wakeHub s (seatHub s seat)) fun g => { g with wcmd := some c }) c

/-- The command of the window that waits is tried again. -/
def winRetry (s : State) : State :=
  match s.regs.wcmd with
  | some c => winRun s c
  | none => s

/-- A 32-bit write of a register of the window (R378, R392, Table 10.20). -/
def winWrite (s : State) (p : Place) (seat off : Nat) (w : Word32) : State :=
  let put (mask : Word) : State := setReg s (winAddr off) (maskedWrite w mask (reg s (winAddr off)))
  let hold := winKey p 0x14
  if maskOf w = 0 then s
  else if off = 8 then winCmd s seat w
  else if off = 0x10 then
    let hi := (mget s.regs.hold hold).getD (reg s (winAddr 0x14))
    dropHolding (setReg (put 0xFFFF) (winAddr 0x14) hi) (winAddr 0x14)
  else if off = 0x14 then
    let v := maskedWrite w 0x01FF ((mget s.regs.hold hold).getD (reg s (winAddr 0x14)))
    modRegs s fun g => { g with hold := mput g.hold hold v }
  else if off = 0x18 then put 0x000F
  else if off = 0x20 || off = 0x24 || (0x40 ≤ off && off < 0x68) then put 0xFFFF
  else s

/-- The binding passes the checks of R408. -/
def bindOk (s : State) : Bool :=
  let b := reg s (globalPage 0xB + 0x40)
  let n := bits b 5 0
  let tb := bits (reg s (globalPage 0xB + 0x44)) 9 0
  b.getLsbD 15 && mhas s.seats n && holdsRight s n tb false &&
    (match tableIn s tb with
      | some t => !t.ranked && (t.rows == 1 || t.rows == 2)
      | none => false)

/-- A write of WATRIPO.CTL (R408). -/
def watripoCtl (s : State) (w : Word32) : State :=
  let a := globalPage 0xB + 8
  let old := (reg s a).getLsbD 0
  let new := if (maskOf w).getLsbD 0 then (dataOf w).getLsbD 0 else old
  if old = new then s
  else if !new then setReg s a 0
  else if bindOk s then modRegs (setReg s a 1) fun g => { g with wshut := false }
  else orReg s (globalPage 0xB + 0xC) 2

/-! Commits (R388) -/

/-- A staged value of a page at an offset. -/
def stagedAt (s : State) (pg : PageId) (off : Nat) : Nat := (stagedReg s (pg.base + off)).toNat

/-- The checks of a commit that the block's chapter names, a sluice page's coverage check aside. -/
def commitOk (s : State) (pg : PageId) : Bool :=
  let v := stagedAt s pg
  match pg.ty with
  | .cap =>
    let ratio := v 8 / 2 % 32
    within 16 24 ratio && (ratio ≤ 16 || (hubs s).all fun h => bits (reg s (diePage h 0x12 + 8)) 3 2 != 0)
  | .tier =>
    let cmode := v 8 / 4 % 4
    cmode != 3 && (cmode != 0 || decide (capRatio s ≤ 16)) && within 1 1000 (v 0x40) && within 1 255 (v 0x44) &&
      within 1 255 (v 0x48) && within 1 3600 (v 0x4C)
  | .scrub => within 1 600 (v 0x40)
  | .seats => within 1 3600 (v 0x40) && within 1 600 (v 0x44) && within 1 60 (v 0x48)
  | .tally => envelopeOk s
  | .fpwr =>
    let fast := v 8 / 512 % 8
    let slow := v 8 / 64 % 8
    decide (fast ≤ slow) && decide (slow ≤ 5) && within 1 65535 (v 0x40) && within 1 48 (v 0x44)
  | _ => true

/-- The staged tags of a sluice page: pan, data, mask. -/
def stagedTags (s : State) (pg : PageId) : List (Nat × Word × Word) :=
  (List.range 32).map fun i =>
    let a := pg.base + 0x40 + 8 * i
    (32 * pg.inst + i, stagedReg s a, stagedReg s (a + 4))

/-- A sluice page's commit passes: in every copy of the frond (R36, R65, R403). -/
def tagsOk (s : State) (pg : PageId) : Bool :=
  !(inPair s && decide (5 ≤ pg.die)) && (copies s pg.die).all fun d => (tagRefusal s d (stagedTags s pg)).isNone

/-- GO: the commit is pending, unless a check fails at once or one is pending already (R388, R389). -/
def commitGo (s : State) (pg : PageId) : State :=
  let base := pg.base
  if committing s base then reject s base 4 0x28
  else if stagedDiffers s base && !commitOk s pg then commitEnd s base 2
  else setReg (modRegs s fun g => { g with commit := mput g.commit base 1 }) (base + 0x28) ((reg s (base + 0x28) &&& 0x000C) ||| 2)

/-- A sub-mode commit takes effect (R42); it is ignored in whole mode. -/
def takeMode (s : State) : State :=
  if inPair s then { s with pkg := { s.pkg with standby := (reg s (globalPage 0 + 0x800)).getLsbD 4 } } else s

/-- The boundary of a pending commit: every staged half becomes active in one step, or the commit is refused. A change of a frond's
levels changes what its covenants draw on (R328). -/
def commitApply (s : State) (pg : PageId) : State :=
  let base := pg.base
  if !committing s base then s
  else if !stagedDiffers s base then commitEnd (dropStaged s base) base 1
  else if pg.ty = .sluice then
    if tagsOk s pg then
      let tags := stagedTags s pg
      let s := (copies s pg.die).foldl (fun s d =>
        setTags s d (tags.filter fun x => reg s (tagAddr d x.1) != x.2.1 || reg s (tagAddr d x.1 + 4) != x.2.2)) s
      commitEnd (dropStaged s base) base 1
    else commitEnd s base 2
  else if commitOk s pg then
    let s := (pageStaged s base).foldl (fun s e => dropHolding s e.1) s
    let s := commitEnd (activate s base) base 1
    match pg.ty with
    | .pkg => takeMode s
    | .cap => capCheck (overPromise s)
    | .fpwr => resolveAll s 1
    | _ => s
  else commitEnd s base 2

/-! The mailbox's start (R318) -/

/-- A write of MGMT.GO: ignored with OVERRUN while BUSY; BAD_BUFFER where the buffer fails its conditions; otherwise the request
runs. A request of an unknown code is answered at once where no host must be asked first. -/
def mailGo (s : State) (n : Nat) : State :=
  if mailBusy s n then orReg s (mailStat n) 0x0200
  else if !mailBufOk s n then setMailStat s n false mBadBuffer
  else
    let s := setMailStat (wakeHub s (placeHub (((mget s.seats n).map fun x => x.place).getD 0))) n true 0
    let code := devRead s (mailBuf s n) 2
    if (mailCode code).isNone && (needRegion s (mailBuf s n) 512 false).isNone && !regionPoison s (mailBuf s n) 256 then
      runMail s n code (fun s _ => deny s mBadRequest) noAfter
    else s

/-! The ARR page (R404, R405) -/

/-- The ARR page of a frond. -/
def arrPage (die : Nat) : Nat := diePage die 0x26

/-- Fill the RD registers of the ARR page. -/
def arrResult (s : State) (die : Nat) (data mask : Plane) (info check : Word) : State :=
  let a := arrPage die
  let put (s : State) (o : Nat) (p : Plane) : State :=
    (List.range 5).foldl (fun s i => setReg s (a + o + 4 * i) ((p >>> (16 * i)).setWidth 16)) s
  setReg (setReg (put (put s 0x60 data) 0x80 mask) (a + 0xA0) info) (a + 0xA4) check

/-- ARR.CMD OP 2: one slice, dropped with a STAT bit for each case of R405 that holds; a bad row is repaired first (R284). -/
def arrSlice (s : State) (die row : Nat) : State :=
  let a := arrPage die
  let n := rowsAt s die row
  let first := firstRow s die row
  let s := if heldValid s die first n then s else repairNow s die first n
  let ofs := ((panOwner s die (row / 8192)).map fun x : Nat × Table => x.2.ofs).getD 0
  let x := sliceRow s die row (bits (reg s (a + 0x48)) 2 0) (reg s (a + 0x4C)) (reg s (a + 0x50))
  let flags := bitsOf [false, entryPoison s die row, !sliceCovered s die first n ofs row x, entryValid s die first n]
  if flags = 0 then writeRow (writePan s die (row / 8192) none) die row x.1 x.2 none
  else orReg s (a + 0xC) (BitVec.ofNat 16 flags)

/-- The row that ARR.ROW names. -/
def arrRow (s : State) (die : Nat) : Nat := regWide s (arrPage die + 0x40) 2 % 4194304

/-- A write of ARR.CMD that took effect (R404). A slice write waits for a coverage check of its pan (R65). -/
def arrWrite (die : Nat) (s : State) (w : Word32) : State :=
  let a := arrPage die
  let (s, v) := guardStore s (a + 0x800) ⟨0x800, 3, 0⟩ w
  let row := arrRow s die
  let poison := entryPoison s die row
  match bits v 1 0 with
  | 1 =>
    let r := rowAt s die row
    arrResult s die r.data r.mask (BitVec.ofNat 16 (4096 * bitsOf [false, rowGood die row r, poison, r.valid])) r.check
  | 2 =>
    if tagsMoving s die row then modRegs s fun g => { g with late := g.late ++ [⟨0, a + 0x800, w, true⟩] } else arrSlice s die row
  | 3 =>
    let g := shadowAt s die row
    arrResult s die g.data g.mask (BitVec.ofNat 16 (4096 * bitsOf [true, recordGood g, poison, g.valid])) g.rcrc
  | _ => s

/-- A write of ARR.CLEAR that took effect: a free pan is refilled (R405). GO reads 0 again. -/
def arrClearWrite (die : Nat) (s : State) (w : Word32) : State :=
  let a := arrPage die + 0x804
  let (s, v) := guardStore s a ⟨0x804, 0x81FF, 0⟩ w
  let s := setReg s a (v &&& 0x01FF)
  let pan := bits v 8 0
  if !v.getLsbD 15 then s
  else if (panOwner s die pan).isNone && !panDead s die pan then freePan s die pan
  else reject s (arrPage die) 4 0x804

/-! Writes (R378 to R392) -/

/-- A write of DDR.RATE that took effect: kept for the next start-up; 2 and 3 keep the rate (R406). -/
def rateWrite (hub channel : Nat) (s : State) (w : Word32) : State :=
  let a := diePage hub (8 + channel) + 0x800
  let old := reg s a
  let (s, v) := guardStore s a ⟨0x800, 3, 0⟩ w
  if 1 < bits v 1 0 then setReg s a old
  else covered (storeWrite { s with store := { s.store with
    rate := s.store.rate.set (6 * hub + channel) ((v &&& 3).setWidth 2) } }) a

/-- What a guarded write that took effect does on its page. -/
def guardApply (s : State) (pg : PageId) (off : Nat) (w : Word32) : State :=
  match pg.ty, off with
  | .pkg, 0x800 => modeWrite s w
  | .pkg, 0x804 => reinitWrite s w
  | .pkg, 0x808 => halfCtl s w
  | .seats, _ => secretClrWrite s w
  | .keys, _ => zeroWrite s w
  | .hport, 0x800 => bifWrite pg.inst s w
  | .hport, _ => downWrite pg.inst s w
  | .ddr, _ => rateWrite pg.die pg.inst s w
  | .hpwr, _ => padRelWrite pg.die s w
  | .memret, _ => memretWrite pg.die s w
  | .inj, _ => injWrite pg.die s w
  | .mram, _ => eraseWrite pg.die s w
  | .repair, _ => repairWrite pg.die s w
  | .arr, 0x800 => arrWrite pg.die s w
  | .arr, _ => arrClearWrite pg.die s w
  | .frond, _ => svcWrite pg.die s w
  | .ledger, _ => syncWrite s w
  | .harvest, 0x800 => takeWrite s w
  | .harvest, _ => releaseWrite s w
  | _, _ => s

/-- CFG_REF is written: the comparison is armed on an LS-2 or LS-4 page with covered fields (R396, R398). -/
def armRef (s : State) (pg : PageId) : State :=
  if s.chip.part = .ls8 || (coveredOffsets pg.ty).isEmpty then s
  else modRegs s fun g => { g with armed := pg.base :: g.armed.filter (· != pg.base) }

/-- A write of non-zero mask at a register below 0x400. -/
def plainWrite (s : State) (p : Place) (pg : PageId) (off : Nat) (r : RegSpec) (w : Word32) : State :=
  let a := pg.base + off
  match pg.ty, off with
  | .ring, 8 => ringCtlWrite s (pg.num - 0x400) w
  | .watripo, 8 => watripoCtl s w
  | .mgmt, 0x60 => if (dataOf w &&& maskOf w).getLsbD 0 then mailGo s pg.inst else s
  | .ledger, 0x40 => ledgerSel s w
  | .log, 0x70 => logSel p s w
  | .harvest, 0x44 => harvestOfs p s w
  | .time, 0x60 => calWrite s p w
  | _, 0x28 => if (dataOf w &&& maskOf w).getLsbD 0 then commitGo s pg else s
  | _, 0x24 => armRef (writeWord s pg.ty a r w) pg
  | _, _ =>
    if r.words = 1 then writeWord s pg.ty a r w
    else if r.rw ||| r.rws = 0 then s
    else if committing s pg.base && maskOf w &&& r.rws != 0 then reject s pg.base 4 off
    else if r.idx = 0 then writeW0 s p pg.ty a r w
    else writeHolding s p a r w

/-- A write of non-zero mask at a staged half (R387, R389). -/
def stagedWrite (s : State) (p : Place) (pg : PageId) (off : Nat) (r : RegSpec) (w : Word32) : State :=
  let a := pg.base + off - 0x400
  if committing s pg.base then (if maskOf w &&& r.rws = 0 then s else reject s pg.base 4 off)
  else if r.idx != 0 then writeHolding s p a r w
  else if r.words = 1 then setStaged s a (maskedWrite w r.rws (stagedReg s a))
  else writeW0 s p pg.ty a r w

/-- A write of a 32-bit word with a mask that is not zero takes effect (R376 to R391). Any write at a page discards the logical
device's pending guarded write there (R391). -/
def applyWrite (s : State) (p : Place) (a : Nat) (w : Word32) : State :=
  if inWindow a then
    match windowSeat s p with
    | some n => winWrite s p n (winOff a) w
    | none => busError s p a false
  else match lookup s p a with
    | some (a', pg, .write) =>
      let off := a' % 4096
      match slotAt pg.ty off with
      | .hole => pageError (dropGuard s p pg.base) p a a' false 3
      | .plain r => plainWrite (dropGuard (wakePage s a') p pg.base) p pg off r w
      | .staged r => stagedWrite (dropGuard (wakePage s a') p pg.base) p pg off r w
      | .guarded _ => guardFirst (wakePage s a') p a' w
      | .complement _ =>
        match guardSecond (wakePage s a') p (a' - 0x400) w with
        | (s, some w) => guardApply s pg (off - 0x400) w
        | (s, none) => s
    | _ => busError s p a false

/-- A write of a 32-bit word: one of zero mask has no effect of any kind (R378), and one to a sleeping frond's page waits for the frond
(R394). -/
def write32 (s : State) (p : Place) (a : Nat) (w : Word32) : State :=
  if maskOf w = 0 then s
  else if writeWaits s p a && decide (a / 0x00400000 < 8) then queueWrite s p a w
  else applyWrite s p a w

/-- What a write that waits, waits for, still stands: its frond sleeps, or the coverage check of its slice's pan goes on. -/
def stillLate (s : State) (e : Late) : Bool :=
  let die := e.addr / 0x00400000
  sleepsAt s e.addr || (e.taken && tagsMoving s die (arrRow s die))

/-- The writes that waited and need wait no more take effect in the order they came (R65, R394). -/
def lateStep (s : State) : State :=
  s.regs.late.foldl (fun s e =>
    if stillLate s e then s
    else
      let s := modRegs s fun g => { g with late := g.late.erase e }
      if e.taken then arrSlice s (e.addr / 0x00400000) (arrRow s (e.addr / 0x00400000)) else applyWrite s e.place e.addr e.word) s

/-- What passing time lets go on: writes that waited, and the window's command (R394, R411). -/
def timeLets (s : State) : State := if !started s || s.clock.refLost then s else winRetry (lateStep s)

/-- A step of idle time: the clocks (R369), then what time lets go on. -/
def idleStep (s : State) : Res :=
  match idleTick s with
  | .next s => .next (timeLets s)
  | r => r

/-- A refused width on a page: recorded there as well, where the page is reached for this kind of access (R377). -/
def badWidth (s : State) (p : Place) (a : Nat) (read : Bool) : State :=
  match lookup s p a with
  | some (a', _, .write) => pageError s p a a' read 2
  | some (a', _, .read) => if read then pageError s p a a' read 2 else busError s p a read
  | _ => busError s p a read

/-- A 16-bit write of the mask half: ignored, with REJECT.WIDTH (Table 10.3). -/
def maskHalfWrite (s : State) (p : Place) (a : Nat) : State :=
  match lookup s p a with
  | some (a', pg, .write) =>
    if slotAt pg.ty (a' % 4096) = .hole then pageError s p a a' false 3 else reject s (pageBase a') 2 (a' % 4096)
  | _ => busError s p a false

/-- A write access of any width (Table 10.3, R380, R409). -/
def writeAccess (s : State) (p : Place) (x : Access) : State :=
  let a := x.addr.toNat / 4 * 4
  let lo : Word32 := x.data.setWidth 32
  match x.width with
  | .one be =>
    if be = 0xF then write32 s p a lo
    else if inWindow a then (if (windowSeat s p).isSome then s else busError s p a false)
    else if be = 0x3 then write32 s p a (0xFFFF0000 ||| (lo &&& 0xFFFF))
    else if be = 0xC then maskHalfWrite s p a
    else badWidth s p a false
  | .two l h =>
    if l = 0xF && h = 0xF && x.addr.toNat % 8 = 0 then write32 (write32 s p a lo) p (a + 4) ((x.data >>> 32).setWidth 32)
    else if inWindow a then (if (windowSeat s p).isSome then s else busError s p a false)
    else badWidth s p a false
  | .bad =>
    if inWindow a then (if (windowSeat s p).isSome then s else busError s p a false)
    else badWidth s p x.addr.toNat false

/-- The error a 32-bit read meets, recorded; none where it may be performed. -/
def readError (s : State) (p : Place) (a : Nat) : Option State :=
  if inWindow a then (if (windowSeat s p).isSome then none else some (aerError s p a))
  else match lookup s p a with
    | some (a', pg, _) =>
      if slotAt pg.ty (a' % 4096) = .hole then some (reject (aerError s p a) (pageBase a') 3 (a' % 4096)) else none
    | none => some (aerError s p a)

/-- A 32-bit read that may be performed. -/
def read32 (s : State) (p : Place) (a : Nat) : State × Word :=
  if inWindow a then winRead s p (winOff a)
  else match lookup s p a with
    | some (a', pg, r) => readSlot s p pg (a' % 4096) (r == .write) (slotAt pg.ty (a' % 4096))
    | none => (s, 0)

/-- Bytes of a word that byte enables choose. -/
def enabled (be : BitVec 4) (v : Word) : BitVec 64 :=
  ((if be.getLsbD 0 then v &&& 0x00FF else 0) ||| (if be.getLsbD 1 then v &&& 0xFF00 else 0)).setWidth 64

/-- One read of a word, answered. -/
def readOne (s : State) (p : Place) (a : Nat) (be : BitVec 4) : State :=
  match readError s p a with
  | some s' => send s' (.regRead p a none)
  | none =>
    let (s, v) := read32 s p a
    send s (.regRead p a (some (enabled be v)))

/-- A read access of any width (Table 10.3, R380, R409). One that comes after a write that waits for the page's frond waits as well:
it is sent again (R394; log 39). -/
def readAccess (s : State) (p : Place) (x : Access) : State :=
  let a := x.addr.toNat / 4 * 4
  if lateFor s p a then s
  else match x.width with
  | .one be =>
    if be = 0xF || be = 0x3 || inWindow a then readOne s p a be
    else if be = 0xC then
      match readError s p a with
      | some s' => send s' (.regRead p a none)
      | none => send s (.regRead p a (some 0))
    else badWidth s p a true
  | .two l h =>
    if l = 0xF && h = 0xF && x.addr.toNat % 8 = 0 then
      match readError s p a, readError s p (a + 4) with
      | none, none =>
        let (s, v) := read32 s p a
        let (s, u) := read32 s p (a + 4)
        send s (.regRead p a (some (v.setWidth 64 ||| (u.setWidth 64 <<< 32))))
      | some s', none => send s' (.regRead p a none)
      | none, some s' => send s' (.regRead p a none)
      | some s', some _ => send ((readError s' p (a + 4)).getD s') (.regRead p a none)
    else if inWindow a then readOne s p a l
    else badWidth s p a true
  | .bad => if inWindow a then readOne s p a 0xF else badWidth s p x.addr.toNat true

/-! The commands -/

/-- REGISTER_WRITE (R378). -/
def execRegisterWrite (p : Place) (x : Access) (s : State) : Res := .next (writeAccess s p x)

/-- UNIMPLEMENTED_ACCESS (R377). -/
def execUnimplementedAccess (p : Place) (write : Bool) (x : Access) (s : State) : Res :=
  .next (if write then writeAccess s p x else readAccess s p x)

/-- RC_REGISTER_READ (R386). -/
def execRcRegisterRead (p : Place) (x : Access) (s : State) : Res := .next (readAccess s p x)

/-- MULTIWORD_W0_READ (R392). -/
def execMultiwordW0Read (p : Place) (x : Access) (s : State) : Res := .next (readAccess s p x)

/-- STAGE_COMMIT (R388). -/
def execStageCommit (p : Place) (addr : BitVec 26) (w : Word32) (s : State) : Res := .next (write32 s p addr.toNat w)

/-- STAGE_COMMIT_APPLY (R388): the boundary of the block's commit; for TALLY, an epoch boundary. -/
def execStageCommitApply (page : BitVec 26) (s : State) : Res :=
  .next (match pageAt (pageBase page.toNat) with
    | some pg => commitApply s pg
    | none => s)

/-- GUARDED_WRITE (R390). -/
def execGuardedWrite (p : Place) (addr : BitVec 26) (w : Word32) (s : State) : Res := .next (write32 s p addr.toNat w)

/-- GUARDED_WRITE_TIMEOUT (R391). -/
def execGuardedWriteTimeout (p : Place) (addr : BitVec 26) (s : State) : Res :=
  .next (match mget s.regs.guards (ldKey p (pageBase addr.toNat)) with
    | some g => if g.addr = addr.toNat then dropGuard s p (pageBase addr.toNat) else s
    | none => s)

/-- CFG_REF_WRITE (R396). -/
def execCfgRefWrite (p : Place) (addr : BitVec 26) (w : Word32) (s : State) : Res := .next (write32 s p addr.toNat w)

/-! Configuration checks (R396 to R398) -/

/-- DETAIL of a configuration event: the die and the page number. -/
def cfgItems (pg : PageId) : List (Nat × Nat) := [(1, pg.die), (2, pg.num)]

/-- CFG_SIG_PASS (R396, R397): a pass over a page ends; an armed page is compared. -/
def execCfgSigPass (page : BitVec 26) (s : State) : Res :=
  .next (match pageAt (pageBase page.toNat) with
    | some pg =>
      let base := pg.base
      let v := cfgSig s pg.ty base
      let s := modRegs s fun g => { g with sig := mput g.sig base v }
      let ref := reg s (base + 0x24)
      if s.regs.armed.contains base && v != ref && !s.regs.restore.contains base then
        let s := modRegs (setEvt s base 15) fun g => { g with restore := base :: g.restore }
        event s 0x8001 1 pg.die 0xFF (cfgItems pg ++ [(2, v.toNat), (2, ref.toNat)]) .steward
      else s
    | none => s)

/-- A configuration check could not be restored (R397): CFGBAD and CFG_FAIL; EN is forced to 0 where it is writable, otherwise the
die is treated as failed. -/
def cfgFail (s : State) (pg : PageId) : State :=
  let base := pg.base
  let s := event (orReg s (base + 0xC) 0x4000) 0x8003 2 pg.die 0xFF (cfgItems pg) .steward
  match pg.ty with
  | .ring => if pageEn s base then disableRing s (pg.num - 0x400) else s
  | .tier => setReg s (base + 8) (reg s (base + 8) &&& 0xFFFE)
  | .watripo => setReg s (base + 8) (reg s (base + 8) &&& 0xFFFE)
  | _ =>
    if 2 ≤ pg.die && pg.die < 8 then
      if (frond s pg.die).lost || !dieIn s pg.die then s else frondFails (modFrond s pg.die fun f => { f with lost := true }) pg.die 0
    else hubFails s (if pg.die < 2 then pg.die else s.pkg.roleHub)

/-- Rewrite fields of a page from the management copy, bypassing EN. -/
def cfgRewrite (s : State) (pg : PageId) (fields : PageTy → Nat → Word) : State :=
  (coveredOffsets pg.ty).foldl (fun s o =>
    let a := pg.base + o
    let m := fields pg.ty o
    setReg s a ((reg s a &&& ~~~m) ||| ((mget s.regs.mgmt a).getD (resetOf a) &&& m))) s

/-- The voted fields of a register of an LS-8, each voted on its own (Table 10.12). -/
def votedFields (ty : PageTy) (off : Nat) : List Word :=
  match ty with
  | .pkg => if off = 0x800 then [3, 0x0010] else if off = 0xC00 then [0x0010] else []
  | .hport | .ddr => if off = 0x800 then [3] else []
  | .ring => if off = 8 then [7] else if off = 0x40 || (0x50 ≤ off && off < 0x80) then [coveredMask .ring off] else []
  | .sluice | .tier | .coh | .fpwr | .scrub | .tally | .seats | .cap =>
    [coveredMask ty off ||| (if ty = .tier && off = 8 then 1 else 0)].filter fun m => m != 0
  | .watripo => [if off = 8 then 1 else coveredMask .watripo off].filter fun m => m != 0
  | _ => []

/-- The configuration bits of a register that a parity bit guards on an LS-8: those that are not voted (R398). -/
def parityMask (ty : PageTy) (off : Nat) : Word :=
  coveredMask ty off &&& ~~~((votedFields ty off).foldl (fun m v => m ||| v) 0)

/-- CFG_RESTORE (R397): on an LS-2 or LS-4 the restore that a mismatch began; on an LS-8 a parity failure is found on a page with
fields that are not voted, and those are restored. There no comparison is made, so such a restore does not fail (R398). -/
def execCfgRestore (page : BitVec 26) (s : State) : Res :=
  .next (match pageAt (pageBase page.toNat) with
    | some pg =>
      let base := pg.base
      if s.chip.part = .ls8 then
        if ((coveredOffsets pg.ty).all fun o => parityMask pg.ty o == 0) || !pageExists s pg || !started s then s
        else event (cfgRewrite (setEvt s base 15) pg parityMask) 0x8002 0 pg.die 0xFF (cfgItems pg) .steward
      else if s.regs.restore.contains base then
        let s := cfgRewrite (modRegs s fun g => { g with restore := g.restore.filter (· != base) }) pg coveredMask
        if cfgSig s pg.ty base = reg s (base + 0x24) then event s 0x8002 0 pg.die 0xFF (cfgItems pg) .steward
        else cfgFail s pg
      else s
    | none => s)

/-- A vote of three copies of a field: the majority, or none where all three differ (R398). -/
def vote (x y z : Word) : Option Word := if x = y || x = z then some x else if y = z then some y else none

/-- CFG_VOTE_FIX (R398): three copies of a register's voted fields read as given. Of each field the majority stands, and a copy that
disagrees is rewritten; a field whose copies all differ is a failed restore. -/
def execCfgVoteFix (addr : BitVec 26) (c0 c1 c2 : Word) (s : State) : Res :=
  let a := addr.toNat
  .next (match pageAt (pageBase a) with
    | some pg =>
      let off := a % 4096
      let bad := (votedFields pg.ty off).filter fun m => !(c0 &&& m == c1 &&& m && c1 &&& m == c2 &&& m)
      if s.chip.part != .ls8 || bad = [] || !pageExists s pg || !started s then s
      else
        let won := bad.filterMap fun m => (vote (c0 &&& m) (c1 &&& m) (c2 &&& m)).map fun v => (m, v)
        let s := won.foldl (fun s (e : Word × Word) =>
          if off = 0xC00 then setStaged s (a - 0x400) ((stagedReg s (a - 0x400) &&& ~~~e.1) ||| e.2)
          else setReg s a ((reg s a &&& ~~~e.1) ||| e.2)) (setEvt s pg.base 15)
        let s := if won = [] then s else event s 0x8004 0 pg.die 0xFF (cfgItems pg ++ [(2, off)]) .steward
        if won.length < bad.length then cfgFail s pg else s
    | none => s)

/-! ARR, DDR and window commands -/

/-- ARR_READ_ARRAY (R404). -/
def execArrReadArray (p : Place) (die : BitVec 3) (w : Word32) (s : State) : Res :=
  .next (onGuard s p (arrPage die.toNat + 0x800) w (arrWrite die.toNat))

/-- ARR_WRITE_SLICE (R405). -/
def execArrWriteSlice (p : Place) (die : BitVec 3) (w : Word32) (s : State) : Res :=
  .next (onGuard s p (arrPage die.toNat + 0x800) w (arrWrite die.toNat))

/-- ARR_READ_SHADOW (R404). -/
def execArrReadShadow (p : Place) (die : BitVec 3) (w : Word32) (s : State) : Res :=
  .next (onGuard s p (arrPage die.toNat + 0x800) w (arrWrite die.toNat))

/-- ARR_CLEAR (R405). -/
def execArrClear (p : Place) (die : BitVec 3) (w : Word32) (s : State) : Res :=
  .next (onGuard s p (arrPage die.toNat + 0x804) w (arrClearWrite die.toNat))

/-- DDR_RATE (R406). -/
def execDdrRate (p : Place) (hub : BitVec 1) (channel : BitVec 3) (w : Word32) (s : State) : Res :=
  .next (onGuard s p (diePage hub.toNat (8 + channel.toNat) + 0x800) w (rateWrite hub.toNat channel.toNat))

/-- WATRIPO_ENABLE (R408). -/
def execWatripoEnable (p : Place) (w : Word32) (s : State) : Res := .next (write32 s p (globalPage 0xB + 8) w)

/-- W_SEARCH (R411): a write of the window. -/
def execWSearch (p : Place) (addr : BitVec 16) (w : Word32) (s : State) : Res := .next (write32 s p (winAddr addr.toNat) w)

/-- W_WRITE_SLICE (R411). -/
def execWWriteSlice (p : Place) (addr : BitVec 16) (w : Word32) (s : State) : Res :=
  .next (write32 s p (winAddr addr.toNat) w)

/-- W_READ_SLICE (R411). -/
def execWReadSlice (p : Place) (addr : BitVec 16) (w : Word32) (s : State) : Res :=
  .next (write32 s p (winAddr addr.toNat) w)

/-- W_VALIDATE (R411). -/
def execWValidate (p : Place) (addr : BitVec 16) (w : Word32) (s : State) : Res :=
  .next (write32 s p (winAddr addr.toNat) w)

/-- W_INVALIDATE (R411). -/
def execWInvalidate (p : Place) (addr : BitVec 16) (w : Word32) (s : State) : Res :=
  .next (write32 s p (winAddr addr.toNat) w)

end Sys2Proof.Machine
end

