-- ==== Sys2Proof/Machine/Sideband.lean ====
section
/-!
DEFINITION. The management sideband and the boundary-scan port (R441, R442, R446, R450, R452, R470 to R472, R475, R476).
-/
namespace Sys2Proof.Machine

/-! Steuno's sideband commands (Table 13.9) -/

/-- Answer of a sideband command: status 0 OK, 1 not ready, 2 refused. -/
def answer (s : State) (command status : Nat) (words : List (BitVec 64)) : State := send s (.sideband command status words)

/-- A Steuno command from stage 0x05 on; before, it is answered "not ready" and has no effect (R446, R471). -/
def fullCmd (s : State) (command : Nat) (f : State → State) : State :=
  if managed s then f (sideWake s) else answer s command 1 []

/-- STARTUP.STAT (Table 12.4). -/
def startupStat (s : State) : BitVec 64 :=
  BitVec.ofNat 64 (s.boot.stage.toNat + 2048 * bitsOf [s.clock.rc, s.boot.fallback, s.boot.halfOut.getD 0 false,
    s.boot.halfOut.getD 1 false, s.boot.failed])

/-- SB_ALERT_N is asserted (R471). -/
def sbAlert (s : State) : Bool := managed s && !s.log.unread.isEmpty

/-- STAGE_QUERY (R446): from stage 0x01 on. -/
def execStageQuery (s : State) : Res :=
  .next (if s.boot.stage = 0 then answer s 0x01 1 [] else answer (sideWake s) 0x01 0 [startupStat s])

/-- HEALTH (Table 13.9). -/
def execHealth (s : State) : Res :=
  .next (fullCmd s 0x02 fun s =>
    let word (off : Nat) : BitVec 64 := BitVec.ofNat 64 ((oneLive s ⟨.pkg, 0xFF, 0, 0⟩ off).getD 0)
    answer s 0x02 0 [word 0x44, word 0x48, s.tally.tj.setWidth 64, BitVec.ofNat 64 (s.tally.derate / 1000),
      s.pkg.lastFail.setWidth 64, if s.pins.fault then 1 else 0])

/-- LEDGER_READ (R417): a field ID that names nothing is refused. -/
def execLedgerRead (id : Word) (s : State) : Res :=
  .next (fullCmd s 0x03 fun s =>
    match ledgerField s id.toNat with
    | some v => answer s 0x03 0 [BitVec.ofNat 64 v, s.life.gen]
    | none => answer s 0x03 2 [])

/-- LOG_READ (R470, R471): the record, or GONE; it is read from then on. -/
def execLogRead (seq : BitVec 48) (s : State) : Res :=
  .next (fullCmd s 0x04 fun s =>
    let s := { s with log := { s.log with unread := s.log.unread.filter (· != seq.toNat) } }
    match findRecord s seq.toNat with
    | some r => send s (.record (recordImage r))
    | none => answer s 0x04 0 [])

/-- ORDERLY_PD (R452, R474): waits for a dump that is being written. -/
def execOrderlyPd (s : State) : Res :=
  .next (fullCmd s 0x10 fun s => if s.harvest.any fun h => h.busy then s else orderlyDown (answer s 0x10 0 []))

/-- EMERGENCY_PD (R471, R472): the confirmation byte is 0xA5. -/
def execEmergencyPd (confirm : BitVec 8) (s : State) : Res :=
  .next (fullCmd s 0x11 fun s => if confirm = 0xA5 then emergencyDown (answer s 0x11 0 []) 1 else answer s 0x11 2 [])

/-- RESTART (R450, R471): from off-hold or stage 0x7E, start-up from stage 0x01. -/
def execRestart (s : State) : Res :=
  .next (if s.boot.stage = 0x7F || s.boot.stage = 0x7E then
    beginStart (answer s 0x12 0 []) false true s.tally.tj []
  else answer s 0x12 2 [])

/-! PLDM and MCTP (R441, R442, R470) -/

/-- PLDM_FIRMWARE_UPDATE (R441, R442): the slot not in use takes the image, and is marked pending once it has verified. At stage 0x7E
the service is available as well. -/
def execPldmFirmwareUpdate (hub : BitVec 1) (image : FwImage) (s : State) : Res :=
  let h := hub.toNat
  .next (if !(managed s || s.boot.stage == 0x7E) || !(hubs s).contains h then send s (.mctp 0x05 [1])
  else
    let s := { sideWake s with fw := s.fw.modify h fun f =>
      { f with slots := f.slots.set (1 - f.loaded.getD f.lastActive) ⟨some image, image.signed⟩ } }
    send s (.mctp 0x05 [0]))

/-- The value of a sensor (R463, R470): a junction as the tally last read it; what the board's rails measure is free (log 18). -/
def sensorValue (s : State) : PldmSensor → BitVec 64
  | .junction d => (s.tally.junctions.getD d.toNat 0).setWidth 64
  | .railMv r => (freeRail (16 * s.freeCtr + r.toNat)).setWidth 64
  | .railMa r => (freeCurrent (16 * s.freeCtr + r.toNat)).setWidth 64
  | .packagePower => (freeCurrent (16 * s.freeCtr)).setWidth 64

/-- PLDM_PLATFORM_MONITORING (R470). -/
def execPldmPlatformMonitoring (sensor : PldmSensor) (s : State) : Res :=
  .next (if managed s then fresh (send (sideWake s) (.mctp 0x02 [0, sensorValue s sensor])) else send s (.mctp 0x02 [1]))

/-- MCTP_CONTROL (R470): command codes, completion codes and the endpoint-ID rule are DSP0236's (log 18). -/
def execMctpControl (cmd : MctpCmd) (s : State) : Res :=
  .next (if !managed s then send s (.mctp 0 [4])
  else
    let s := sideWake s
    match cmd with
    | .setEid e =>
      if e = 0 || e = 0xFF then send s (.mctp 0x01 [2, s.mctp.eid.setWidth 64])
      else send { s with mctp := { s.mctp with eid := e } } (.mctp 0x01 [0, e.setWidth 64])
    | .getEid => send s (.mctp 0x02 [0, s.mctp.eid.setWidth 64])
    | .getVersion => fresh (send s (.mctp 0x04 [0, freeSpdm s.freeCtr]))
    | .getTypes => send s (.mctp 0x05 [0, 0x00, 0x01, 0x05, 0x07, 0x7F])
    | .getVendor => fresh (send s (.mctp 0x06 [0, freeSpdm s.freeCtr]))
    | .other c => send s (.mctp c.toNat [5]))

/-! Boundary scan (R475, R476) -/

/-- Load the instruction register; nothing is driven. -/
def setIr (s : State) (i : JtagIr) : State := { s with jtag := { s.jtag with ir := i, driven := [] } }

/-- IDCODE (R475). -/
def idcode (s : State) : BitVec 32 :=
  let part : Word := match s.chip.part with | .ls2 => 0x4C02 | .ls4 => 0x4C04 | .ls8 => 0x4C08
  s.chip.revision ++ part ++ s.chip.maker ++ (1 : BitVec 1)

/-- Cells 0 to 19 stand for PWREN and PG, which the tester never drives (log 18). -/
def guardedCells : Nat := 20

/-- An EXTEST instruction: at stage 0x7D it drives the preloaded cells, except those of PWREN and PG; elsewhere it acts as
BYPASS. -/
def extestAs (s : State) (i : JtagIr) : State :=
  if s.boot.stage = 0x7D then
    { s with jtag := { s.jtag with ir := i, driven := s.jtag.cells.filter fun e : Nat × Bool => guardedCells ≤ e.1 } }
  else send (setIr s .bypass) (.tdo [false])

/-- BYPASS (R476): one zero bit between TDI and TDO. -/
def execBypass (s : State) : Res := .next (send (setIr s .bypass) (.tdo [false]))

/-- IDCODE (R475). -/
def execIdcode (s : State) : Res :=
  .next (send (setIr s .idcode) (.tdo ((List.range 32).map fun i => (idcode s).getLsbD i)))

/-- SAMPLE/PRELOAD (R476): the cells named are sampled as their balls stand, and loaded. -/
def execSamplePreload (preload : List (BitVec 13 × Bool)) (s : State) : Res :=
  .next (
    let s' := preload.foldl (fun s x => { s with jtag := { s.jtag with cells := mput s.jtag.cells x.1.toNat x.2 } })
      (setIr s .samplePreload)
    fresh (send s' (.tdo (preload.map fun x => freePin (8192 * s.freeCtr + x.1.toNat)))))

/-- EXTEST (R476). -/
def execExtest (s : State) : Res := .next (extestAs s .extest)

/-- EXTEST_PULSE (R476). -/
def execExtestPulse (s : State) : Res := .next (extestAs s .extestPulse)

/-- EXTEST_TRAIN (R476). -/
def execExtestTrain (s : State) : Res := .next (extestAs s .extestTrain)

end Sys2Proof.Machine
end

