-- ==== Sys2Proof/Machine/Dispatch.lean ====
section
/-!
DEFINITION. One arm per command: each calls its meaning, or is rejected by name.
-/
namespace Sys2Proof.Machine

def exec (i : Instr) (s : State) : Host.Outcome State Fault Refusal :=
  match i with
  | .submissionFetch ring => Sys2Proof.Machine.execSubmissionFetch ring s
  | .searchShort ring => Sys2Proof.Machine.execSearchShort ring s
  | .searchLong ring => Sys2Proof.Machine.execSearchLong ring s
  | .fetchAdd ring => Sys2Proof.Machine.execFetchAdd ring s
  | .swap ring => Sys2Proof.Machine.execSwap ring s
  | .cmpSwap ring => Sys2Proof.Machine.execCmpSwap ring s
  | .localResult id die fault => Sys2Proof.Machine.execLocalResult id die fault s
  | .farDataPrefetchFill id k => Sys2Proof.Machine.execFarDataPrefetchFill id k s
  | .nearDataRead id die => Sys2Proof.Machine.execNearDataRead id die s
  | .cascadeResolution id => Sys2Proof.Machine.execCascadeResolution id s
  | .cascadeTimeout id => Sys2Proof.Machine.execCascadeTimeout id s
  | .hitCounterIncrement die => Sys2Proof.Machine.execHitCounterIncrement die s
  | .crozierWake die pan => Sys2Proof.Machine.execCrozierWake die pan s
  | .tagRestore die pan => Sys2Proof.Machine.execTagRestore die pan s
  | .rowRepairRecord die row => Sys2Proof.Machine.execRowRepairRecord die row s
  | .ringEnable ld ring w => Sys2Proof.Machine.execRingEnable ld ring w s
  | .ringReady ring => Sys2Proof.Machine.execRingReady ring s
  | .ringDisable ld ring w => Sys2Proof.Machine.execRingDisable ld ring w s
  | .ringIdle ring => Sys2Proof.Machine.execRingIdle ring s
  | .sqTailWrite ld ring be v => Sys2Proof.Machine.execSqTailWrite ld ring be v s
  | .cqHeadWrite ld ring be v => Sys2Proof.Machine.execCqHeadWrite ld ring be v s
  | .irqArmWrite ld ring be v => Sys2Proof.Machine.execIrqArmWrite ld ring be v s
  | .tableCreate ring => Sys2Proof.Machine.execTableCreate ring s
  | .tableDestroy ring => Sys2Proof.Machine.execTableDestroy ring s
  | .tableDestroyDone table => Sys2Proof.Machine.execTableDestroyDone table s
  | .tableRange ring => Sys2Proof.Machine.execTableRange ring s
  | .entryInvalidate ring => Sys2Proof.Machine.execEntryInvalidate ring s
  | .entryWrite ring => Sys2Proof.Machine.execEntryWrite ring s
  | .entryValidate ring => Sys2Proof.Machine.execEntryValidate ring s
  | .nearWrite ring => Sys2Proof.Machine.execNearWrite ring s
  | .entrySet ring => Sys2Proof.Machine.execEntrySet ring s
  | .entryRead ring => Sys2Proof.Machine.execEntryRead ring s
  | .sluiceSet ring => Sys2Proof.Machine.execSluiceSet ring s
  | .rakeMove ring => Sys2Proof.Machine.execRakeMove ring s
  | .rakeMoveStart die => Sys2Proof.Machine.execRakeMoveStart die s
  | .rakeEntryStep die => Sys2Proof.Machine.execRakeEntryStep die s
  | .rakeQuery ring => Sys2Proof.Machine.execRakeQuery ring s
  | .rakeCancel ring => Sys2Proof.Machine.execRakeCancel ring s
  | .bulkLoad ring => Sys2Proof.Machine.execBulkLoad ring s
  | .bulkLoadStep id => Sys2Proof.Machine.execBulkLoadStep id s
  | .snapshot ring => Sys2Proof.Machine.execSnapshot ring s
  | .stats ring => Sys2Proof.Machine.execStats ring s
  | .counterRead ring => Sys2Proof.Machine.execCounterRead ring s
  | .counterClear ring => Sys2Proof.Machine.execCounterClear ring s
  | .hostLinkTraining port link rate width cxl partner => Sys2Proof.Machine.execHostLinkTraining port link rate width cxl partner s
  | .hostLinkDown port link => Sys2Proof.Machine.execHostLinkDown port link s
  | .ideCheckFail port link => Sys2Proof.Machine.execIdeCheckFail port link s
  | .ideKeyManagement ld stream key => Sys2Proof.Machine.execIdeKeyManagement ld stream key s
  | .mldPortBind src ld => Sys2Proof.Machine.execMldPortBind src ld s
  | .mldPortUnbind src ld => Sys2Proof.Machine.execMldPortUnbind src ld s
  | .hdmDecoderCommit ld idx set => Sys2Proof.Machine.execHdmDecoderCommit ld idx set s
  | .cxlMemEnableSet ld => Sys2Proof.Machine.execCxlMemEnableSet ld s
  | .cxlMemEnableClear ld => Sys2Proof.Machine.execCxlMemEnableClear ld s
  | .addDynamicCapacity src exts => Sys2Proof.Machine.execAddDynamicCapacity src exts s
  | .releaseDynamicCapacity ld bases => Sys2Proof.Machine.execReleaseDynamicCapacity ld bases s
  | .forcedRelease src seat bases => Sys2Proof.Machine.execForcedRelease src seat bases s
  | .cxlMemReadShared ld hpa ecc => Sys2Proof.Machine.execCxlMemReadShared ld hpa ecc s
  | .cxlMemReadAny ld hpa ecc => Sys2Proof.Machine.execCxlMemReadAny ld hpa ecc s
  | .cxlMemFullWrite ld hpa data poison => Sys2Proof.Machine.execCxlMemFullWrite ld hpa data poison s
  | .cxlMemPartialWrite ld hpa data be poison => Sys2Proof.Machine.execCxlMemPartialWrite ld hpa data be poison s
  | .cxlMemCleanEvict ld hpa => Sys2Proof.Machine.execCxlMemCleanEvict ld hpa s
  | .tierWindow hub => Sys2Proof.Machine.execTierWindow hub s
  | .pageColdAge hub page => Sys2Proof.Machine.execPageColdAge hub page s
  | .pageMigrationSwitch hub page => Sys2Proof.Machine.execPageMigrationSwitch hub page s
  | .pageCompression hub page size => Sys2Proof.Machine.execPageCompression hub page size s
  | .mediaWaitExpire hub => Sys2Proof.Machine.execMediaWaitExpire hub s
  | .keysZeroSlot ld w => Sys2Proof.Machine.execKeysZeroSlot ld w s
  | .keysZeroAll ld w => Sys2Proof.Machine.execKeysZeroAll ld w s
  | .rds agent line ecc => Sys2Proof.Machine.execRds agent line ecc s
  | .rdown agent line ecc => Sys2Proof.Machine.execRdown agent line ecc s
  | .upg agent line => Sys2Proof.Machine.execUpg agent line s
  | .wbdata agent line => Sys2Proof.Machine.execWbdata agent line s
  | .evictclean agent line => Sys2Proof.Machine.execEvictclean agent line s
  | .fwds agent line => Sys2Proof.Machine.execFwds agent line s
  | .fwdown agent line => Sys2Proof.Machine.execFwdown agent line s
  | .inv agent line => Sys2Proof.Machine.execInv agent line s
  | .cohTransactionDone hub line => Sys2Proof.Machine.execCohTransactionDone hub line s
  | .bisnpResponse seat line dirty => Sys2Proof.Machine.execBisnpResponse seat line dirty s
  | .cohBiTimeout seat line => Sys2Proof.Machine.execCohBiTimeout seat line s
  | .cohRetryLong hub line wait100 => Sys2Proof.Machine.execCohRetryLong hub line wait100 s
  | .injRowData ld die w => Sys2Proof.Machine.execInjRowData ld die w s
  | .injRowMask ld die w => Sys2Proof.Machine.execInjRowMask ld die w s
  | .injRowValid ld die w => Sys2Proof.Machine.execInjRowValid ld die w s
  | .injRowCheck ld die w => Sys2Proof.Machine.execInjRowCheck ld die w s
  | .injNearData ld die w => Sys2Proof.Machine.execInjNearData ld die w s
  | .injSluiceTag ld die w => Sys2Proof.Machine.execInjSluiceTag ld die w s
  | .injSramLine ld die w => Sys2Proof.Machine.execInjSramLine ld die w s
  | .injDirtyTwins ld die w => Sys2Proof.Machine.execInjDirtyTwins ld die w s
  | .injDirectory ld die w => Sys2Proof.Machine.execInjDirectory ld die w s
  | .injDramOneDevice ld die w => Sys2Proof.Machine.execInjDramOneDevice ld die w s
  | .injDramTwoDevices ld die w => Sys2Proof.Machine.execInjDramTwoDevices ld die w s
  | .injPoison ld die w => Sys2Proof.Machine.execInjPoison ld die w s
  | .injShadowRecord ld die w => Sys2Proof.Machine.execInjShadowRecord ld die w s
  | .scrubSlot die => Sys2Proof.Machine.execScrubSlot die s
  | .patrolScrub hub target ecc coord => Sys2Proof.Machine.execPatrolScrub hub target ecc coord s
  | .repairFence ld die w => Sys2Proof.Machine.execRepairFence ld die w s
  | .repairRetire ld die w => Sys2Proof.Machine.execRepairRetire ld die w s
  | .repairRetireNoSpare ld die w => Sys2Proof.Machine.execRepairRetireNoSpare ld die w s
  | .panSpareSwitch die => Sys2Proof.Machine.execPanSpareSwitch die s
  | .panBistDone die res => Sys2Proof.Machine.execPanBistDone die res s
  | .memretGo ld die w => Sys2Proof.Machine.execMemretGo ld die w s
  | .dramRowRetired hub frames => Sys2Proof.Machine.execDramRowRetired hub frames s
  | .dramChannelLost hub channel => Sys2Proof.Machine.execDramChannelLost hub channel s
  | .sessChallenge seat => Sys2Proof.Machine.execSessChallenge seat s
  | .sessOpen seat => Sys2Proof.Machine.execSessOpen seat s
  | .sessClose seat => Sys2Proof.Machine.execSessClose seat s
  | .sessNonceExpire seat => Sys2Proof.Machine.execSessNonceExpire seat s
  | .sessIdleExpire seat => Sys2Proof.Machine.execSessIdleExpire seat s
  | .sessLockoutEnd ld => Sys2Proof.Machine.execSessLockoutEnd ld s
  | .secretSet seat => Sys2Proof.Machine.execSecretSet seat s
  | .seatsSecretClr ld w => Sys2Proof.Machine.execSeatsSecretClr ld w s
  | .stewardClaim ld secret => Sys2Proof.Machine.execStewardClaim ld secret s
  | .stewardTake seat => Sys2Proof.Machine.execStewardTake seat s
  | .stewardHandover seat => Sys2Proof.Machine.execStewardHandover seat s
  | .grant seat => Sys2Proof.Machine.execGrant seat s
  | .revoke seat => Sys2Proof.Machine.execRevoke seat s
  | .seatDetach seat => Sys2Proof.Machine.execSeatDetach seat s
  | .seatLinkGraceExpire seat => Sys2Proof.Machine.execSeatLinkGraceExpire seat s
  | .detachDrainDone seat => Sys2Proof.Machine.execDetachDrainDone seat s
  | .detachFinish seat => Sys2Proof.Machine.execDetachFinish seat s
  | .covenantSet seat => Sys2Proof.Machine.execCovenantSet seat s
  | .covenantClear seat => Sys2Proof.Machine.execCovenantClear seat s
  | .covenantQuery seat => Sys2Proof.Machine.execCovenantQuery seat s
  | .keyLoad seat => Sys2Proof.Machine.execKeyLoad seat s
  | .fmTunnel seat cmd => Sys2Proof.Machine.execFmTunnel seat cmd s
  | .tableOwner seat => Sys2Proof.Machine.execTableOwner seat s
  | .getDigests ch => Sys2Proof.Machine.execGetDigests ch s
  | .getCertificate ch offset length => Sys2Proof.Machine.execGetCertificate ch offset length s
  | .challenge ch nonce => Sys2Proof.Machine.execChallenge ch nonce s
  | .getMeasurements ch index => Sys2Proof.Machine.execGetMeasurements ch index s
  | .keyExchange ch random => Sys2Proof.Machine.execKeyExchange ch random s
  | .finish ch verified => Sys2Proof.Machine.execFinish ch verified s
  | .tallyEpoch e => Sys2Proof.Machine.execTallyEpoch e s
  | .covBreachEnd id => Sys2Proof.Machine.execCovBreachEnd id s
  | .frondRelockDone die pausedNs => Sys2Proof.Machine.execFrondRelockDone die pausedNs s
  | .dieSleepDone die => Sys2Proof.Machine.execDieSleepDone die s
  | .dieWakeDone die stoppedNs => Sys2Proof.Machine.execDieWakeDone die stoppedNs s
  | .frondScrubDue die => Sys2Proof.Machine.execFrondScrubDue die s
  | .panRetentionEntry die pan => Sys2Proof.Machine.execPanRetentionEntry die pan s
  | .tallyLend => Sys2Proof.Machine.execTallyLend s
  | .costRecalibrate rail measuredNj => Sys2Proof.Machine.execCostRecalibrate rail measuredNj s
  | .thermTrip die tj => Sys2Proof.Machine.execThermTrip die tj s
  | .hpwrPadrel ld die w => Sys2Proof.Machine.execHpwrPadrel ld die w s
  | .clkXtalFail deviation => Sys2Proof.Machine.execClkXtalFail deviation s
  | .clkXtalOk => Sys2Proof.Machine.execClkXtalOk s
  | .clkRefLost => Sys2Proof.Machine.execClkRefLost s
  | .timeCalWrite ld w => Sys2Proof.Machine.execTimeCalWrite ld w s
  | .registerWrite ld a => Sys2Proof.Machine.execRegisterWrite ld a s
  | .unimplementedAccess ld write a => Sys2Proof.Machine.execUnimplementedAccess ld write a s
  | .rcRegisterRead ld a => Sys2Proof.Machine.execRcRegisterRead ld a s
  | .multiwordW0Read ld a => Sys2Proof.Machine.execMultiwordW0Read ld a s
  | .stageCommit ld addr w => Sys2Proof.Machine.execStageCommit ld addr w s
  | .stageCommitApply page => Sys2Proof.Machine.execStageCommitApply page s
  | .guardedWrite ld addr w => Sys2Proof.Machine.execGuardedWrite ld addr w s
  | .guardedWriteTimeout ld addr => Sys2Proof.Machine.execGuardedWriteTimeout ld addr s
  | .cfgRefWrite ld addr w => Sys2Proof.Machine.execCfgRefWrite ld addr w s
  | .cfgSigPass page => Sys2Proof.Machine.execCfgSigPass page s
  | .cfgRestore page => Sys2Proof.Machine.execCfgRestore page s
  | .cfgVoteFix addr c0 c1 c2 => Sys2Proof.Machine.execCfgVoteFix addr c0 c1 c2 s
  | .arrReadArray ld die w => Sys2Proof.Machine.execArrReadArray ld die w s
  | .arrWriteSlice ld die w => Sys2Proof.Machine.execArrWriteSlice ld die w s
  | .arrReadShadow ld die w => Sys2Proof.Machine.execArrReadShadow ld die w s
  | .arrClear ld die w => Sys2Proof.Machine.execArrClear ld die w s
  | .pkgModeSel ld w => Sys2Proof.Machine.execPkgModeSel ld w s
  | .pkgReinit ld w => Sys2Proof.Machine.execPkgReinit ld w s
  | .halfTakeOut ld w => Sys2Proof.Machine.execHalfTakeOut ld w s
  | .halfReturn ld w => Sys2Proof.Machine.execHalfReturn ld w s
  | .halfMakePrimary ld w => Sys2Proof.Machine.execHalfMakePrimary ld w s
  | .pairResyncDone half ms => Sys2Proof.Machine.execPairResyncDone half ms s
  | .hportBif ld port w => Sys2Proof.Machine.execHportBif ld port w s
  | .hportDown ld port w => Sys2Proof.Machine.execHportDown ld port w s
  | .portDownDrainEnd port => Sys2Proof.Machine.execPortDownDrainEnd port s
  | .hportUp ld port w => Sys2Proof.Machine.execHportUp ld port w s
  | .ddrRate ld hub channel w => Sys2Proof.Machine.execDdrRate ld hub channel w s
  | .mramEraseConfig ld hub w => Sys2Proof.Machine.execMramEraseConfig ld hub w s
  | .mramEraseLog ld hub w => Sys2Proof.Machine.execMramEraseLog ld hub w s
  | .ledgerSync ld w => Sys2Proof.Machine.execLedgerSync ld w s
  | .ledgerSelWrite ld w => Sys2Proof.Machine.execLedgerSelWrite ld w s
  | .ledgerHourly => Sys2Proof.Machine.execLedgerHourly s
  | .lifeAccumulate => Sys2Proof.Machine.execLifeAccumulate s
  | .railExcursionBegin rail mv => Sys2Proof.Machine.execRailExcursionBegin rail mv s
  | .railExcursion rail extreme durationUs => Sys2Proof.Machine.execRailExcursion rail extreme durationUs s
  | .logSecondBoundary => Sys2Proof.Machine.execLogSecondBoundary s
  | .mramSectorRefresh hub sector => Sys2Proof.Machine.execMramSectorRefresh hub sector s
  | .logSelWrite ld w => Sys2Proof.Machine.execLogSelWrite ld w s
  | .logRecordLoaded => Sys2Proof.Machine.execLogRecordLoaded s
  | .harvestDumpDone hub partly => Sys2Proof.Machine.execHarvestDumpDone hub partly s
  | .harvestTake ld w => Sys2Proof.Machine.execHarvestTake ld w s
  | .harvestRelease ld w => Sys2Proof.Machine.execHarvestRelease ld w s
  | .harvestOfsWrite ld w => Sys2Proof.Machine.execHarvestOfsWrite ld w s
  | .fwFault hub core code => Sys2Proof.Machine.execFwFault hub core code s
  | .frondSvcOut ld die w => Sys2Proof.Machine.execFrondSvcOut ld die w s
  | .frondSvcIn ld die w => Sys2Proof.Machine.execFrondSvcIn ld die w s
  | .watripoEnable ld w => Sys2Proof.Machine.execWatripoEnable ld w s
  | .wSearch ld addr w => Sys2Proof.Machine.execWSearch ld addr w s
  | .wWriteSlice ld addr w => Sys2Proof.Machine.execWWriteSlice ld addr w s
  | .wReadSlice ld addr w => Sys2Proof.Machine.execWReadSlice ld addr w s
  | .wValidate ld addr w => Sys2Proof.Machine.execWValidate ld addr w s
  | .wInvalidate ld addr w => Sys2Proof.Machine.execWInvalidate ld addr w s
  | .linkDown link => Sys2Proof.Machine.execLinkDown link s
  | .linkUp link => Sys2Proof.Machine.execLinkUp link s
  | .frondLost die => Sys2Proof.Machine.execFrondLost die s
  | .hubLost hub => Sys2Proof.Machine.execHubLost hub s
  | .porstNRelease straps tj mramOk xtalEdge badSlots => Sys2Proof.Machine.execPorstNRelease straps tj mramOk xtalEdge badSlots s
  | .porstNAssert => Sys2Proof.Machine.execPorstNAssert s
  | .pgHub hub => Sys2Proof.Machine.execPgHub hub s
  | .pllLock hub => Sys2Proof.Machine.execPllLock hub s
  | .firmwareVerified hub => Sys2Proof.Machine.execFirmwareVerified hub s
  | .mramRecoveryDone hub found => Sys2Proof.Machine.execMramRecoveryDone hub found s
  | .pgFr frond => Sys2Proof.Machine.execPgFr frond s
  | .selftestDone hub out => Sys2Proof.Machine.execSelftestDone hub out s
  | .arrayFillDone hub out => Sys2Proof.Machine.execArrayFillDone hub out s
  | .dramTrainingDone hub pop => Sys2Proof.Machine.execDramTrainingDone hub pop s
  | .dramFillDone hub startMs => Sys2Proof.Machine.execDramFillDone hub startMs s
  | .stageLimitExpire die => Sys2Proof.Machine.execStageLimitExpire die s
  | .fwWatchdog hub => Sys2Proof.Machine.execFwWatchdog hub s
  | .pgFall input => Sys2Proof.Machine.execPgFall input s
  | .avsStepTimeout rail mv => Sys2Proof.Machine.execAvsStepTimeout rail mv s
  | .hostPerst port level => Sys2Proof.Machine.execHostPerst port level s
  | .orderlyPd => Sys2Proof.Machine.execOrderlyPd s
  | .emergencyPd confirm => Sys2Proof.Machine.execEmergencyPd confirm s
  | .epdN => Sys2Proof.Machine.execEpdN s
  | .restart => Sys2Proof.Machine.execRestart s
  | .stageQuery => Sys2Proof.Machine.execStageQuery s
  | .health => Sys2Proof.Machine.execHealth s
  | .ledgerRead id => Sys2Proof.Machine.execLedgerRead id s
  | .logRead seq => Sys2Proof.Machine.execLogRead seq s
  | .pldmFirmwareUpdate hub image => Sys2Proof.Machine.execPldmFirmwareUpdate hub image s
  | .pldmPlatformMonitoring sensor => Sys2Proof.Machine.execPldmPlatformMonitoring sensor s
  | .mctpControl cmd => Sys2Proof.Machine.execMctpControl cmd s
  | .bypass => Sys2Proof.Machine.execBypass s
  | .idcode => Sys2Proof.Machine.execIdcode s
  | .samplePreload preload => Sys2Proof.Machine.execSamplePreload preload s
  | .extest => Sys2Proof.Machine.execExtest s
  | .extestPulse => Sys2Proof.Machine.execExtestPulse s
  | .extestTrain => Sys2Proof.Machine.execExtestTrain s
  | .pgIo hub => Sys2Proof.Machine.execPgIo hub s
  | .writeBackDone hub => Sys2Proof.Machine.execWriteBackDone hub s
  | .addDynamicCapacityResponse ld base accept => Sys2Proof.Machine.execAddDynamicCapacityResponse ld base accept s
  | .clearEventRecords ld log n => Sys2Proof.Machine.execClearEventRecords ld log n s
  | .avsStepDone rail => Sys2Proof.Machine.execAvsStepDone rail s
  | .highTemperatureHoldEnd tj => Sys2Proof.Machine.execHighTemperatureHoldEnd tj s
  | .halfOutDrainEnd half => Sys2Proof.Machine.execHalfOutDrainEnd half s
  | .frondSvcInDone die out => Sys2Proof.Machine.execFrondSvcInDone die out s
  | .snapshotStep id => Sys2Proof.Machine.execSnapshotStep id s
  | .statsStep id => Sys2Proof.Machine.execStatsStep id s

end Sys2Proof.Machine
end

