-- ==== Sys2Proof/Machine/Step.lean ====
section
/-!
DEFINITION. A step of the block: the command at the front of the queue, or 10 ns of idle time.
-/
namespace Sys2Proof.Machine

/-- One step: the front command runs on the state with the queue's rest; with no command waiting, time passes. -/
def step (s : State) : Host.Outcome State Fault Refusal :=
  match s.pending with
  | [] => idleStep s
  | c :: rest => exec c { s with pending := rest }

/-- s with the command that a word spells put at the front of its queue: no row of the table has bits, so s itself. -/
def State.withFetchWord (s : State) (nbits w : Nat) : State :=
  match decodeTableWord nbits w with
  | some c => { s with pending := c :: s.pending }
  | none => s

end Sys2Proof.Machine
end

