-- ==== Sys2Proof/Safety.lean ====
section
/-!
DEFINITION. What the statements speak in: the pieces of the state a command may touch, what the block keeps well formed, and
what only ever grows.
-/
namespace Sys2Proof.Machine

/-- The pieces of State, one per field. -/
inductive Piece where
  | chip | pins | jtag | fw | boot | store | pkg | clock | ports | lds | mctp | seats | steward
  | extents | keys | mem | coh | fronds | tables | rings | searches | jobs | nextId | disp | covs | tally
  | life | log | harvest | regs | wire | freeCtr | pending
deriving DecidableEq, Repr

/-- A piece is the same in two states. -/
@[reducible] def Piece.same (s t : State) : Piece → Prop
  | .chip => t.chip = s.chip
  | .pins => t.pins = s.pins
  | .jtag => t.jtag = s.jtag
  | .fw => t.fw = s.fw
  | .boot => t.boot = s.boot
  | .store => t.store = s.store
  | .pkg => t.pkg = s.pkg
  | .clock => t.clock = s.clock
  | .ports => t.ports = s.ports
  | .lds => t.lds = s.lds
  | .mctp => t.mctp = s.mctp
  | .seats => t.seats = s.seats
  | .steward => t.steward = s.steward
  | .extents => t.extents = s.extents
  | .keys => t.keys = s.keys
  | .mem => t.mem = s.mem
  | .coh => t.coh = s.coh
  | .fronds => t.fronds = s.fronds
  | .tables => t.tables = s.tables
  | .rings => t.rings = s.rings
  | .searches => t.searches = s.searches
  | .jobs => t.jobs = s.jobs
  | .nextId => t.nextId = s.nextId
  | .disp => t.disp = s.disp
  | .covs => t.covs = s.covs
  | .tally => t.tally = s.tally
  | .life => t.life = s.life
  | .log => t.log = s.log
  | .harvest => t.harvest = s.harvest
  | .regs => t.regs = s.regs
  | .wire => t.wire = s.wire
  | .freeCtr => t.freeCtr = s.freeCtr
  | .pending => t.pending = s.pending

/-- The frame of a command: every piece of the state outside a list is unchanged. -/
def Only (l : List Piece) (s t : State) : Prop := ∀ p, p ∉ l → p.same s t

/-- What the block keeps well formed: memory's canonical form, the 64 records of the history area (R418), the 65,472 of the
circular area, six fronds and six host ports, and a legal mode: never 3, and whole mode on every part but an LS-8 (R34). -/
structure Sound (s : State) : Prop where
  mem : Memory.wf s.mem.bytes = true
  hist : s.log.hist.length ≤ 64
  circ : s.log.circ.length ≤ 65472
  fronds : s.fronds.length = 6
  ports : s.ports.length = 6
  mode : s.pkg.mode ≠ 3
  bootMode : s.boot.mode ≠ 3
  storeMode : s.store.mode ≠ 3
  sel : s.store.sel ≠ some 3
  whole : s.chip.part ≠ .ls8 → s.pkg.mode = 0

/-- What no command takes back: the part is what it is, a written history record stays as it was written (R418), sequence
numbers (R418) and the timebase (R368) never run backward, identities are not used twice, and what was sent stays sent. -/
structure Grows (s t : State) : Prop where
  chip : t.chip = s.chip
  hist : s.log.hist <+: t.log.hist
  seq : s.log.next ≤ t.log.next
  tb : s.clock.tb ≤ t.clock.tb
  ids : s.nextId ≤ t.nextId
  wire : s.wire <:+ t.wire

end Sys2Proof.Machine
end

