-- ==== Sys2Proof/Certificates/Slice0/Obligations.lean ====
section
/-!
DEFINITION. The statements for the provers: what the commands and the machine do, by the spec's rules.
-/
open Sys2Proof Sys2Proof.Machine

/-- A step takes the front command and runs it on the state with the queue's rest (00_scope.md) -/
def Obligations.StepRunsFrontCommand : Prop :=
  ∀ (c : Instr) (rest : List Instr) (s : State),
    s.pending = c :: rest → step s = exec c { s with pending := rest }

/-- With no command waiting a step is 10 ns of time (the model's choice, log 2) (R368, R369, R370) -/
def Obligations.IdleStepIsTenNanoseconds : Prop :=
  ∀ s : State, s.pending = [] →
    (s.boot.stage = 0 → step s = .next s) ∧
    (s.boot.stage ≠ 0 → s.clock.refLost = false → s.regs.late = [] → s.regs.wcmd = none → s.clock.fine + 1 < tickSteps s.clock.tb →
      step s = .next { s with clock := { s.clock with fine := s.clock.fine + 1 } }) ∧
    (s.boot.stage ≠ 0 → s.regs.late = [] → s.regs.wcmd = none → s.clock.refLost = true ∨ tickSteps s.clock.tb ≤ s.clock.fine + 1 →
      s.clock.tb + 1 < 2 ^ 64 → ∃ t, step s = .next t ∧ t.clock.tb = s.clock.tb + 1 ∧ t.clock.fine = 0 ∧
        (s.clock.calTick = 32767 → t.clock.cal = s.clock.cal + 1 ∧ t.clock.calTick = 0) ∧
        (s.clock.calTick ≠ 32767 → t.clock.cal = s.clock.cal ∧ t.clock.calTick = s.clock.calTick + 1) ∧
        t.clock.stale = s.clock.stale ∧ t.clock.rc = s.clock.rc ∧ Only [.clock] s t) ∧
    (s.boot.stage ≠ 0 → s.clock.refLost = true ∨ tickSteps s.clock.tb ≤ s.clock.fine + 1 → 2 ^ 64 ≤ s.clock.tb + 1 →
      step s = .fault .timebaseExhausted)

/-- A step with a command waiting always answers a next state (00_scope.md) -/
def Obligations.EveryQueuedCommandCompletes : Prop :=
  (∀ s : State, s.pending ≠ [] → ∃ t, step s = .next t) ∧ ∀ (c : Instr) (s : State), ∃ t, exec c s = .next t

/-- No command but the one taken leaves the queue and none enters it (00_scope.md) -/
def Obligations.QueueIsFirstInFirstOut : Prop :=
  ∀ s t : State, step s = .next t → t.pending = s.pending.tail

/-- Every step keeps memory canonical, the log areas bounded, six fronds and ports, and a legal mode (R34, R418, R187, R25) -/
def Obligations.EveryStepKeepsTheBlockSound : Prop :=
  ∀ s t : State, Sound s → step s = .next t → Sound t

/-- The state after reset is Sound (R34, R418) -/
def Obligations.ResetIsSound : Prop := Sound State.reset

/-- No step erases a history record, moves SEQ or the timebase backward, reuses an identity or unsends (R368, R418) -/
def Obligations.WhatIsRecordedStays : Prop :=
  ∀ s t : State, step s = .next t → Grows s t

/-- A byte reads what was last stored, every other byte is unchanged, and equal memories are equal data (R198, R205) -/
def Obligations.MemoryReadsWhatWasWritten : Prop :=
  (∀ (m : List Host.Cell) (a : Nat) (b : BitVec 8), Memory.wf m = true →
    readMem (writeMem m a b) a = b ∧ (∀ k, k ≠ a → readMem (writeMem m a b) k = readMem m k) ∧
      Memory.wf (writeMem m a b) = true) ∧
  (∀ m n : List Host.Cell, Memory.wf m = true → Memory.wf n = true → (∀ a, readMem m a = readMem n a) → m = n) ∧
  (∀ a, readMem [] a = 0)

/-- A map's keys rise strictly. -/
def KeysRise {α : Type} (m : SMap α) : Prop := m.Pairwise fun a b => a.1 < b.1

/-- As the device reads it, every byte of memory outside n bytes at an address is unchanged. -/
def SameReadsBut (s t : State) (a n : Nat) : Prop :=
  ∀ k, k < a ∨ a + n ≤ k → devRead t k 1 = devRead s k 1

/-- Every stored register outside a list is unchanged. -/
def SameRegsBut (s t : State) (l : List Nat) : Prop :=
  ∀ a, a ∉ l → mget t.regs.file a = mget s.regs.file a

/-- Every ring but one is unchanged. -/
def SameRingsBut (s t : State) (n : Nat) : Prop := ∀ m, m ≠ n → mget t.rings m = mget s.rings m

/-- What the device reads is what memory holds: in pair mode the primary half, whose copy it reads, keeps its memory (R36, R38), no
line stands under a key that has been replaced since (R226), no injected error waits to be met (R290 to R292), and no line stands in the
speculation area, where another seat's access would drop it (R88). -/
structure Calm (s : State) : Prop where
  primary : inPair s = true → mirrored s (primary s) = true
  keys : ∀ line h k k1, keyOf s (64 * line) = some k → mget s.mem.encBy (hkey line h) = some k1 → k1 = k
  errors : s.coh.damage = [] ∧ s.mem.damage = [] ∧ s.mem.badMap = []
  marked : s.coh.spec = []

/-- Media is there for a write of n bytes at an address: for its lines, where they lie in one page, or for every page (R224). -/
def MediaFor (s : State) (a n : Nat) : Prop :=
  regionShort s a n = false ∧ ((a + n - 1) / 4096 ≤ a / 4096 ∨
    ∀ h < 2, capU8At s h + 8 * ((a + n + 4095) / 4096 - a / 4096) ≤ 8 * capPAt s h)

/-- A ring that owes nothing, whose next completion entry nothing holds up: its hub runs, and the entry's line is neither
poisoned, nor held by a host, nor waiting for one, nor cut off, nor without its key or media. -/
structure EntryFree (s : State) (n : Nat) (r : Ring) : Prop where
  ring : mget s.rings n = some r
  owed : r.owed = []
  runs : halted s (compHub s n) = false
  clean : compPoison s n (lineOf (compAddr s n r.cqTail.toNat)) = false ∧
    poisonedAt s (lineOf (compAddr s n r.cqTail.toNat)) (devHub s (lineOf (compAddr s n r.cqTail.toNat))) = false
  near : homeCut s (compHub s n) (lineOf (compAddr s n r.cqTail.toNat)) = false
  media : writeShort s (lineOf (compAddr s n r.cqTail.toNat)) false = false
  unheld : ∀ h ∈ homes s (lineOf (compAddr s n r.cqTail.toNat)),
    mhas s.coh.filt (hkey (lineOf (compAddr s n r.cqTail.toNat)) h) = false ∧
    mhas s.coh.txns (hkey (lineOf (compAddr s n r.cqTail.toNat)) h) = false
  keyed : keyAbsent s (compAddr s n r.cqTail.toNat) = false
  home : Calm s
  aligned : compAddr s n r.cqTail.toNat % 16 = 0

/-- A finished submission's completion entry is written whole at CQ_TAIL with its PHASE, and no other byte of memory changes
(R119) -/
def Obligations.FinishWritesOneCompletion : Prop :=
  ∀ (s : State) (n : Nat) (r : Ring) (u : Sub) (st : BitVec 8) (data : Word64),
    Sound s → EntryFree s n r → r.stopped = none → u ∈ r.subs → u.members = 1 →
    (∀ v ∈ r.subs, v.members ≠ 0 ∧ (v.id = u.id → v = u)) →
    let t := finish s n u st data
    let k := r.cqTail.toNat
    (∀ i < 16, devRead t (compAddr s n k + i) 1 =
      compNat (finalComp u.tag st 0 0 data) (k / 2 ^ (compRing s n).2 % 2 == 0) / 256 ^ i % 256) ∧
    SameReadsBut s t (compAddr s n k) 16 ∧
    (∃ r', mget t.rings n = some r' ∧ r'.cqTail = r.cqTail + 1 ∧ r'.owed = [] ∧
      r'.subs = r.subs.filter (fun v => v.id != u.id) ∧ r'.sqHead = r.sqHead ∧ r'.sqTail = r.sqTail ∧
      r'.cqHead = r.cqHead ∧ r'.holder = r.holder) ∧
    SameRingsBut s t n ∧ Only [.boot, .pkg, .lds, .mem, .coh, .rings, .covs, .life, .log, .wire] s t

/-- SUBMISSION_FETCH takes a submission whose slots SQ_TAIL covers and whose reservation is free, and otherwise nothing (R101,
R112, R121) -/
def Obligations.FetchTakesTheNextSubmission : Prop :=
  ∀ (s : State) (ring : BitVec 10) (r : Ring),
    let n := ring.toNat
    let head := r.sqHead.toNat
    let op := devRead s (slotAddr s n head) 1
    let k := slotsOf op
    let avail := (r.sqTail - r.sqHead).toNat
    let b := subBytes s n head k
    let res := reservation op b (ringEarly s n)
    mget s.rings n = some r → mayFetch s n r = true → 0 < avail → Calm s →
    slotCut s n head = false → (∀ i < k, slotCut s n (head + i) = false) →
    needRegion s (slotAddr s n head) 32 false = none → needTail s n head k = none →
    slotPoison s n head = false → (∀ i < k, slotPoison s n (head + i) = false) →
    (avail < k ∨ freeEntries s r n < res → exec (.submissionFetch ring) s = .next s) ∧
    (k ≤ avail → res ≤ freeEntries s r n →
      let u : Sub := { id := s.nextId, op := op, bytes := b, tag := BitVec.ofNat 16 (field b 2 2), poison := false, reserve := res,
                       started := false, members := 1, fetched := nowNs s, early := ringEarly s n, asked := false }
      ∃ m, mget m.rings n = some { r with sqHead := r.sqHead + BitVec.ofNat 32 k, subs := r.subs ++ [u] } ∧
        SameRingsBut s m n ∧ m.nextId = s.nextId + 1 ∧
        m.disp = s.disp.modify (ringHub s n) (fun d => { d with submits := d.submits + 1 }) ∧
        Only [.rings, .nextId, .disp] s m ∧
        (knownOp op = true → exec (.submissionFetch ring) s = .next m) ∧
        (knownOp op = false → fenced u = false ∨ r.subs = [] →
          exec (.submissionFetch ring) s = .next (finish m n u stBadOpcode 0)) ∧
        (knownOp op = false → fenced u = true → r.subs ≠ [] → exec (.submissionFetch ring) s = .next s))

/-- EN written from 0 to 1 enables a ring whose configuration passes and otherwise only sets CFG_ERR (R98) -/
def Obligations.RingEnableChecksTheConfiguration : Prop :=
  (∀ (s : State) (p : Place) (ring : BitVec 10) (w : Word32) (a : Nat) (pg : PageId) (r : Ring),
    let n := ring.toNat
    lookup s p (ringPage n + 8) = some (a, pg, .write) → mget s.regs.guards (ldKey p (ringPage n)) = none →
    mget s.rings n = some r → ringEn s n = false → (maskOf w).getLsbD 0 = true → (dataOf w).getLsbD 0 = true →
    ∃ t, exec (.ringEnable p ring w) s = .next t ∧
      SameRegsBut s t [ringPage n + 8, ringPage n + 0xC] ∧ SameRingsBut s t n ∧
      (ringCfgOk s n = true → Only [.boot, .pkg, .lds, .mem, .coh, .rings, .life, .log, .regs, .wire] s t ∧
        (s.coh.damage = [] → Only [.regs, .rings, .mem, .coh, .wire] s t ∧ t.mem.bytes = s.mem.bytes) ∧
        (KeysRise s.coh.copies → ∀ e ∈ t.coh.copies, e.1 % 32 < 8 →
          (ringRegions s n).any (overlap (64 * (e.1 / 64), 64)) = false) ∧
        reg t (ringPage n + 8) = maskedWrite w 6 (reg s (ringPage n + 8)) ||| 1 ∧
        ringStat t n = ringStat s n &&& rstCfgErr ∧
        mget t.rings n = some { r with overrun := false, stopped := none, lost := false, closing := false }) ∧
      (ringCfgOk s n = false → Only [.regs, .rings] s t ∧ ringEn t n = false ∧ ringStat t n = rstCfgErr ∧
        mget t.rings n = some { r with overrun := false })) ∧
  (∀ (s : State) (n seat : Nat) (r : Ring), mget s.rings n = some r → r.holder = some seat →
    (sqLog s n < 6 ∨ 16 < sqLog s n ∨ cqLog s n < 6 ∨ 16 < cqLog s n ∨
      ringBase s n 0x50 % max (32 * 2 ^ sqLog s n) 4096 ≠ 0 ∨ ringBase s n 0x60 % max (16 * 2 ^ cqLog s n) 4096 ≠ 0 ∨
      ringBase s n 0x70 % 64 ≠ 0 ∨
      (∃ x ∈ ringRegions s n, regionOk s seat x.1 x.2 true = false) ∨
      overlap (ringBase s n 0x50, 32 * 2 ^ sqLog s n) (ringBase s n 0x60, 16 * 2 ^ cqLog s n) = true ∨
      overlap (ringBase s n 0x50, 32 * 2 ^ sqLog s n) (ringBase s n 0x70, 64) = true ∨
      overlap (ringBase s n 0x60, 16 * 2 ^ cqLog s n) (ringBase s n 0x70, 64) = true ∨
      (∃ e ∈ s.rings, e.1 ≠ n ∧ ∃ x ∈ ringUses s e, ∃ y ∈ ringRegions s n, overlap x y = true)) ↔ ringCfgOk s n = false)

/-- RING_READY leaves a completion ring of zeros and counters at 0 and sets READY (R99) -/
def Obligations.RingReadyZeroesTheCompletionRing : Prop :=
  ∀ (s : State) (ring : BitVec 10) (r : Ring),
    let n := ring.toNat
    let base := ringBase s n 0x60
    let size := 16 * 2 ^ cqLog s n
    Sound s → Calm s → mget s.rings n = some r → ringEn s n = true → ringReadyBit s n = false → r.subs = [] → r.owed = [] →
    regionCut s (ringHub s n) base size = false →
    (∀ x, needRegion s base size false = some x → exec (.ringReady ring) s = .next x) ∧
    (needRegion s base size false = none → base % 64 = 0 → size % 64 = 0 → MediaFor s base size →
      (∀ k, base ≤ k → k < base + size → keyAbsent s k = false) →
      ∃ t, exec (.ringReady ring) s = .next t ∧
        (∀ k, base ≤ k → k < base + size → devRead t k 1 = 0 ∧ poisonedAt t (k / 64) (devHub t (k / 64)) = false) ∧
        SameReadsBut s t base size ∧
        mget t.rings n = some { r with sqTail := 0, cqHead := 0, sqHead := 0, cqTail := 0, old := none } ∧
        ringStat t n = ringStat s n ||| rstReady ∧ SameRegsBut s t [ringPage n + 0xC] ∧ SameRingsBut s t n ∧
        Only [.boot, .pkg, .lds, .mem, .coh, .rings, .covs, .life, .log, .regs] s t)

/-- EN written from 1 to 0 ends fetching, and RING_IDLE sets IDLE once nothing fetched is outstanding (R100, R115, R384) -/
def Obligations.RingDisableEndsFetching : Prop :=
  (∀ (s : State) (p : Place) (ring : BitVec 10) (w : Word32) (a : Nat) (pg : PageId) (r : Ring),
    let n := ring.toNat
    lookup s p (ringPage n + 8) = some (a, pg, .write) → mget s.regs.guards (ldKey p (ringPage n)) = none →
    mget s.rings n = some r → ringEn s n = true → (maskOf w).getLsbD 0 = true → (dataOf w).getLsbD 0 = false →
    ∃ t r', exec (.ringDisable p ring w) s = .next t ∧ reg t (ringPage n + 8) = reg s (ringPage n + 8) &&& 0xFFFE ∧
      mget t.rings n = some r' ∧ r' = { r with closing := true, old := some (compRing s n) } ∧ mayFetch t n r' = false ∧
      (maskOf w &&& 6 ≠ 0 → (reg t (ringPage n + 0x18)).getLsbD 0 = true) ∧
      (maskOf w &&& 6 = 0 → SameRegsBut s t [ringPage n + 8]) ∧
      SameRingsBut s t n ∧ Only [.regs, .rings, .wire] s t) ∧
  (∀ (s : State) (ring : BitVec 10) (r : Ring),
    let n := ring.toNat
    mget s.rings n = some r → r.closing = true → r.revoke = none →
    (r.subs ≠ [] ∨ r.owed ≠ [] → exec (.ringIdle ring) s = .next s) ∧
    (r.subs = [] → r.owed = [] →
      ∃ t, exec (.ringIdle ring) s = .next t ∧ ringStat t n = ringStat s n ||| rstIdle ∧
        mget t.rings n = some { r with closing := false } ∧ SameRegsBut s t [ringPage n + 0xC] ∧ SameRingsBut s t n ∧
        Only [.regs, .rings] s t))

/-- A doorbell write replaces the enabled bytes; SQ_TAIL beyond the ring overruns it, a bad CQ_HEAD is ignored, 1 arms (R110,
R111, R114) -/
def Obligations.DoorbellWritesMoveTheCounters : Prop :=
  ∀ (s : State) (p : Place) (ring : BitVec 10) (be : BitVec 4) (v : Word32) (r : Ring) (seat : Nat),
    let n := ring.toNat
    let sq := mergeBytes r.sqTail v be
    let cq := mergeBytes r.cqHead v be
    mget s.rings n = some r → ringEn s n = true → ringReadyBit s n = true → seatOf s p = some seat → placeUp s p = true →
    reaches s seat (ringBase s n 0x70) true false = true → be ≠ 0 →
    (∃ t, exec (.sqTailWrite p ring be v) s = .next t ∧ SameRingsBut s t n ∧ t.mem = s.mem ∧ t.coh = s.coh ∧
      ((sq - r.sqHead).toNat = 0 → mget t.rings n = some r ∧ t.log = s.log) ∧
      (0 < (sq - r.sqHead).toNat → (sq - r.sqHead).toNat ≤ 2 ^ sqLog s n →
        mget t.rings n = some { r with sqTail := sq } ∧ t.log = s.log) ∧
      (2 ^ sqLog s n < (sq - r.sqHead).toNat → mget t.rings n = some { r with overrun := true } ∧
        ringStat t n = ringStat s n ||| rstOverrun ∧
        ∃ m, m.log = s.log ∧ t = event m 0x2001 1 0xFF (r.holder.getD 0xFF) [(2, n), (4, r.sqHead.toNat), (4, sq.toNat)]
          (.seat (r.holder.getD 0xFF)))) ∧
    (∃ t, exec (.cqHeadWrite p ring be v) s = .next t ∧ SameRingsBut s t n ∧ t.mem = s.mem ∧ t.coh = s.coh ∧
      ((cq - r.cqHead).toNat ≤ (r.cqTail - r.cqHead).toNat → mget t.rings n = some { r with cqHead := cq } ∧ t.log = s.log) ∧
      ((r.cqTail - r.cqHead).toNat < (cq - r.cqHead).toNat → mget t.rings n = some r ∧
        ∃ m, m.log = s.log ∧ t = event m 0x2002 1 0xFF (r.holder.getD 0xFF) [(2, n), (4, cq.toNat), (4, r.cqTail.toNat)]
          (.seat (r.holder.getD 0xFF)))) ∧
    (∃ t, exec (.irqArmWrite p ring be v) s = .next t ∧ SameRingsBut s t n ∧ t.mem = s.mem ∧ t.coh = s.coh ∧ t.log = s.log ∧
      mget t.rings n = some (if mergeBytes 0 v be = 1 then { r with armed := true } else r))

/-- Table 2.1: what a cell of a mask bit and a data bit does with a key bit. -/
def CellMatches (mask data key : Bool) : Prop := (mask = true → key = data) ∧ (mask = false → data = false)

/-- The bit of a key in transmission order, first bit 0. -/
def keyBit (k : Key) (b : Nat) : Bool := k.getLsbD (16 * (b / 16) + (15 - b % 16))

/-- An entry matches a key exactly when every row is valid and every cell matches its key bit by Table 2.1 (R50, R53) -/
def Obligations.EntryMatchesByItsCells : Prop :=
  ∀ (key : Key) (rows : List Row), rows.length ≤ 8 →
    (rowsMatch key rows = true ↔
      (∀ r ∈ rows, r.valid = true) ∧
      ∀ b row, b < 80 * rows.length → rows[b / 80]? = some row →
        CellMatches (row.mask.getLsbD (16 * (b % 80 / 16) + (15 - b % 16)))
          (row.data.getLsbD (16 * (b % 80 / 16) + (15 - b % 16))) (keyBit key b))

/-- Key bit o + k of a 16-bit piece that starts at key bit o sits at bit 15 - k (R17) -/
def Obligations.SluicePieceStandsByTransmissionOrder : Prop :=
  ∀ (key : Key) (o k : Nat), o + 16 ≤ 640 → k < 16 →
    (field16 key o).getLsbD (15 - k) = keyBit key (o + k)

/-- A search lights exactly the live pans of its range whose 16 tag cells match the sluice field, or whose tag fails its
parity (R61, R62, R63, R269, R297) -/
def Obligations.SluiceLightsPans : Prop :=
  (∀ (s : State) (die : Nat) (f : FrondSlot) (fb : Word) (p : Nat),
    p ∈ litPans s die f fb ↔
      (f.first ≤ p ∧ p < f.first + f.pans) ∧ p ∉ (frond s die).arr.dead ∧
      ((∀ i < 16, CellMatches ((tagOf s die p).2.getLsbD i) ((tagOf s die p).1.getLsbD i) (fb.getLsbD i)) ∨
        mhas (frond s die).arr.tagBad (2 * p) = true ∨ mhas (frond s die).arr.tagBad (2 * p + 1) = true)) ∧
  (∀ (t : Word × Word) (fb : Word), tagDark t = true → tagMatch t fb = false)

/-- Local and merged hits are all the matches, sorted by position, or by priority value and then position (R67, R69, R71) -/
def Obligations.HitsStandInTheTablesOrder : Prop :=
  (∀ (ranked : Bool) (l : List Hit),
    let m := l.foldl (fun a h => hitInsert ranked h a) []
    m.Perm l ∧ m.Pairwise fun a b =>
      (ranked = true → a.prio.toNat < b.prio.toNat ∨ (a.prio = b.prio ∧ a.row ≤ b.row)) ∧ (ranked = false → a.row ≤ b.row)) ∧
  (∀ (ranked : Bool) (l : List (Nat × Hit)),
    let m := l.foldl (fun a h => globalInsert ranked h a) []
    m.Perm l ∧ m.Pairwise fun a b =>
      let pos := a.1 < b.1 ∨ (a.1 = b.1 ∧ (a.2.die < b.2.die ∨ (a.2.die = b.2.die ∧ a.2.row ≤ b.2.row)))
      (ranked = true → a.2.prio.toNat < b.2.prio.toNat ∨ (a.2.prio = b.2.prio ∧ pos)) ∧ (ranked = false → pos)) ∧
  (∀ (ranked : Bool) (n : Nat) (res : List FRes), (merged ranked n res).length = min n (res.flatMap fun r => r.hits).length)

/-- A search at the front of its ring starts its members, or is refused by the first check that fails (R76, R79, R81, R103,
R104, R135) -/
def Obligations.SearchSubmissionsStart : Prop :=
  ∀ (s : State) (ring : BitVec 10) (u : Sub) (seat : Nat) (long : Bool),
    let n := ring.toNat
    let c : Instr := if long then .searchLong ring else .searchShort ring
    let ofs := if long then 16 else 8
    let limit := if long then 40 else 10
    let k := subKeylen u
    nextSub s n (if long then 0x02 else 0x01) = some (u, seat) → dispatches s n = true →
    ((long = false ∨ subGroup u = 1) →
      (∀ st, singleCheck s seat (subTable u) k (subHits u) limit = some st →
        ∃ t, exec c s = .next t ∧ t = finish (startSub s n u.id 1) n u st 0 ∧
          Only [.boot, .pkg, .lds, .extents, .mem, .coh, .rings, .covs, .life, .log, .regs, .wire] s t) ∧
      (singleCheck s seat (subTable u) k (subHits u) limit = none → needFronds s (tableDies s [subTable u]) = none →
        exec c s = .next (startMember (startSub s n u.id 1) n u seat 0 (subTable u) (keyOfBytes u.bytes ofs k) none))) ∧
    (long = true → subGroup u ≠ 1 →
      (∀ st, groupCheck s seat k (subHits u) (subGroup u) = some st →
        exec c s = .next (finish (startSub s n u.id 1) n u st 0)) ∧
      (groupCheck s seat k (subHits u) (subGroup u) = none →
        let tables := (groupTables u).take (subGroup u)
        needFronds s (tableDies s (tables.filter fun x => (memberCheck s seat x k).isNone)) = none →
        exec c s = .next ((List.range (subGroup u)).foldl (fun m i =>
          startMember m n u seat i (tables.getD i 0) (keyOfBytes u.bytes 16 k) (memberCheck s seat (tables.getD i 0) k))
          (startSub s n u.id (subGroup u)))))

/-- An admitted search reaches every frond of its set with its lit pans; one the tally refuses lights no pan and is charged
nothing (R81) -/
def Obligations.SearchMemberRunsOrIsOverBudget : Prop :=
  ∀ (s : State) (n : Nat) (u : Sub) (seat member tb : Nat) (key : Key) (t : Table),
    tableIn s tb = some t →
    let cost := searchCost s t (subHits u)
    let dies := searchDies s t (inCompare s)
    let hub := ((seatPlace s seat).map placeHub).getD 0
    (∀ m b, admitWork s seat cost = some (m, b) → reachFault s hub (dies.map fun x => x.1) = none →
      (∀ x ∈ dies, 2 ≤ x.1 ∧ x.1 - 2 < s.fronds.length) → (dies.map fun x => x.1).Nodup →
      let r := startMember s n u seat member tb key none
      (∃ q, mget r.searches s.nextId = some q ∧ q.ring = n ∧ q.sub = u.id ∧ q.member = member ∧ q.tag = u.tag ∧ q.seat = seat ∧
        q.table = tb ∧ q.key = key ∧ q.hits = subHits u ∧ q.cost = cost ∧
        q.res = dies.map fun x =>
          { die := x.1, rank := x.2.rank, lit := litPans s x.1 x.2 (field16 key t.ofs), done := false, hits := [],
            prios := [], fault := 0, near := none, wake := false }) ∧
      r.nextId = s.nextId + 1 ∧ (∀ i, i ≠ s.nextId → mget r.searches i = mget s.searches i) ∧
      (∀ x ∈ dies, (frond r x.1).searches = (frond s x.1).searches + 1) ∧
      (∀ d, d ∉ dies.map (fun x => x.1) → 2 ≤ d → frond r d = frond s d) ∧
      Only [.seats, .fronds, .searches, .nextId, .tally] s r) ∧
    (admitWork s seat cost = none →
      let r := startMember s n u seat member tb key none
      r.fronds = s.fronds ∧ r.seats = s.seats ∧ r.searches = s.searches ∧
      r.tally = { s.tally with refused := s.tally.refused + 1 } ∧
      r = memberDone (countRefused s) n u member stOverBudget)

/-- LOCAL_RESULT finds the first N matches of the lit pans, NEAR_DATA_READ checks the winner, a prefetched line is marked
(R56, R59, R71, R74, R87, R88) -/
def Obligations.FrondSearchesItsLitPans : Prop :=
  ∀ (s : State) (id : BitVec 32) (q : Search) (t : Table),
    mget s.searches id.toNat = some q → mget s.tables q.table = some t → q.early = false → q.ended = false → 2 ≤ q.res.length →
    (q.res.map fun r => r.die).Nodup →
    (∀ (die : BitVec 3) (r : FRes), r ∈ q.res → r.die = die.toNat →
      (r.done = false → awake s r.die = true → wakeLit s id.toNat q r = none →
        (∀ p ∈ r.lit, p / 32 ∉ (frond s r.die).arr.bedDead) →
        let ms := matches_ s r.die t.rows r.lit q.key
        (t.ranked = true → ∀ f ∈ ms, (rowAt s r.die f).ppar = true) →
        ∃ m q' r', exec (.localResult id die .none) s = .next m ∧ mget m.searches id.toNat = some q' ∧
          r' ∈ q'.res ∧ r' = { r with
            done := true, fault := 0, prios := r'.prios
            hits := (((ms.map fun f => capture s r.die f t.rows).foldl (fun l h => hitInsert t.ranked h l) []).take q.hits) } ∧
          (∀ x ∈ q.res, x.die ≠ r.die → x ∈ q'.res) ∧ q'.key = q.key ∧ q'.hits = q.hits ∧
          m.tables.length = s.tables.length ∧ m.rings = s.rings ∧ m.mem = s.mem ∧ (q.fills = [] → m.coh = s.coh)) ∧
      (∀ h l, r.done = true → halted s (halfOf r.die) = false → r.near = none → q.spec = true → r.hits = h :: l →
        ∃ m q', exec (.nearDataRead id die) s = .next m ∧ mget m.searches id.toNat = some q' ∧
          { r with near := some (winnerCheck q.key h t.rows) } ∈ q'.res ∧ (∀ x ∈ q.res, x.die ≠ r.die → x ∈ q'.res) ∧
          q'.charge = q.charge + opCost s opNear (frond s r.die).level ∧ Only [.searches, .tally] s m)) ∧
    (∀ (k : BitVec 2) (die row line : Nat) (l : List Nat), q.pred = some (die, row, l) → l[k.toNat]? = some line →
      mayPrefetch s line (devHub s line) = true → mget s.coh.spec line ≠ some (some q.seat) →
      homeCut s (dispHub s q.seat) line = false →
      (s.coh.spec.filter fun e => devHub s e.1 == devHub s line).length < 32768 → hubServes s (devHub s line) = true →
      ∃ m q', exec (.farDataPrefetchFill id k) s = .next m ∧ mget m.coh.spec line = some (some q.seat) ∧
        mget m.searches id.toNat = some q' ∧ q'.charge = q.charge + opCost s opDram 0 ∧ q'.fills = q.fills ++ [line] ∧
        m.mem = s.mem ∧ m.coh.copies = s.coh.copies ∧ m.coh.dir = s.coh.dir)

/-- CASCADE_RESOLUTION ends a search with the verdict on all its fronds, CASCADE_TIMEOUT with CASCADE_TIMEOUT (R70, R72, R77,
R84, R94, R95, R117) -/
def Obligations.CascadeNamesTheWinner : Prop :=
  (∀ (s : State) (id : BitVec 32) (q : Search) (t : Table),
    mget s.searches id.toNat = some q → mget s.tables q.table = some t → KeysRise s.searches → q.ended = false → 2 ≤ q.res.length →
    (q.compare = false → (∀ r ∈ q.res, r.done = true ∧ halted s (halfOf r.die) = false) →
      ∃ m v, exec (.cascadeResolution id) s = .next m ∧ m = finalise (judge (rankDupEvent s q q.res) id.toNat q t q.res).1 id.toNat v false ∧
        v = (judge (rankDupEvent s q q.res) id.toNat q t q.res).2 ∧ mget m.searches id.toNat = none) ∧
    ((∃ r ∈ q.res, r.done = false) → exec (.cascadeResolution id) s = .next s) ∧
    ((∃ r ∈ q.res, r.done = false ∧ halted s (halfOf r.die) = false) →
      ∃ m, exec (.cascadeTimeout id) s = .next m ∧ m = finalise s id.toNat ⟨stCascadeTimeout, [], none⟩ false ∧
        mget m.searches id.toNat = none ∧ ∀ d, (frond m d).hce = (frond s d).hce)) ∧
  (∀ (s : State) (id : Nat) (q : Search) (t : Table) (res : List FRes),
    let l := merged t.ranked q.hits res
    ((∃ r ∈ res, r.fault ≠ 0) → ∃ r ∈ res, r.fault ≠ 0 ∧ (judge s id q t res).2 = ⟨r.fault, [], none⟩) ∧
    ((∀ r ∈ res, r.fault = 0) → (l = [] → (judge s id q t res).2 = ⟨stMiss, [], none⟩) ∧
      (l ≠ [] → (readHits s id q.key t.rows res l).2 = none →
        (judge s id q t res).2.hits = l.takeWhile (fun h => !h.poison) ∧
        (judge s id q t res).2.bad = l.find? (fun h => h.poison) ∧
        (judge s id q t res).2.st = if ((l.head?.map fun h => h.poison).getD false) then stPoisoned
          else if q.hits = 1 then stHit else stMulti) ∧
      (∀ h st, l ≠ [] → (readHits s id q.key t.rows res l).2 = some (h, st) →
        (judge s id q t res).2 = ⟨st, [], some { h with tie := false }⟩ ∧
        (q.prov = none → ∀ early, verdictComps q (judge s id q t res).2 early =
          [{ tag := q.tag, status := st, flags := flLast ||| flagIf q.moving flMoving,
             pos := BitVec.ofNat 32 (posMember q.member 0 + posOf h.die h.row), data := 0 }]))))

/-- HIT_COUNTER_INCREMENT adds one to the counter's 64-bit word and no other byte of memory changes (R176, R177, R178) -/
def Obligations.HitCounterGainsOne : Prop :=
  ∀ (s : State) (die : BitVec 3) (n idx : Nat) (rest : List (Nat × Nat)) (t : Table),
    let d := die.toNat
    let word := t.cbase + 8 * idx
    let line := word / 64
    let hub := agentHome s d line
    Sound s → Calm s → 2 ≤ d → (frond s d).hce = (n, idx) :: rest → serveDie s (baseDie s d) = d → awake s d = true →
    mget s.tables n = some t → ownerReaches s t word true = true → keyAbsent s word = false → word % 8 = 0 →
    needOthers s line hub = none →
    ((ownLine s line hub d).2 = false → exec (.hitCounterIncrement die) s = .next (ownLine s line hub d).1) ∧
    (copyOf s line hub d = some .m ∨ copyOf s line hub d = some .e →
      (devPoison s line = false → writeShort s line false = false →
        ∃ m, exec (.hitCounterIncrement die) s = .next m ∧ devRead m word 8 = (devRead s word 8 + 1) % 2 ^ 64 ∧
          SameReadsBut s m word 8 ∧ (frond m d).hce = rest ∧ m.tables = s.tables ∧ m.rings = s.rings ∧ m.extents = s.extents) ∧
      (devPoison s line = true →
        ∃ m, exec (.hitCounterIncrement die) s = .next m ∧ (frond m d).hce = rest ∧ m.mem = s.mem ∧ m.tables = s.tables))

/-- A waking pan becomes usable, a bad tag is restored from the hub's copy, and a row repair rewrites its entry from its
records (R269, R272, R359) -/
def Obligations.FrondRecoveriesEnd : Prop :=
  ∀ (s : State) (die : BitVec 3),
    let d := die.toNat
    2 ≤ d → halted s (halfOf d) = false →
    (∀ (pan : BitVec 9) (u : PanUse), mget (frond s d).arr.awake pan.toNat = some u → u.waking = true →
      ∃ t, exec (.crozierWake die pan) s = .next t ∧ mget (frond t d).arr.awake pan.toNat = some { u with waking := false } ∧
        (∀ p, p ≠ pan.toNat → mget (frond t d).arr.awake p = mget (frond s d).arr.awake p) ∧
        frond t d = { frond s d with arr := { (frond s d).arr with awake := (frond t d).arr.awake } } ∧
        (∀ k, 2 ≤ k → k ≠ d → frond t k = frond s k) ∧ Only [.fronds] s t) ∧
    (∀ pan : BitVec 9, mhas (frond s d).arr.tagBad (2 * pan.toNat) = true ∨ mhas (frond s d).arr.tagBad (2 * pan.toNat + 1) = true →
      KeysRise (frond s d).arr.tagBad → KeysRise (frond s d).arr.tagFlip →
      ∃ t, exec (.tagRestore die pan) s = .next t ∧
        (∀ w, mhas (frond t d).arr.tagBad w = (mhas (frond s d).arr.tagBad w && !(w / 2 == pan.toNat))) ∧
        tagOf t d pan.toNat = (reg s (tagAddr d pan.toNat), reg s (tagAddr d pan.toNat + 4)) ∧
        (∀ p, p ≠ pan.toNat → tagOf t d p = tagOf s d p) ∧
        (frond t d).arr.rows = (frond s d).arr.rows ∧ (frond t d).arr.shadow = (frond s d).arr.shadow ∧
        (∀ k, 2 ≤ k → k ≠ d → frond t k = frond s k) ∧ Only [.fronds] s t) ∧
    (∀ (row : BitVec 22) (bits : List Bool), mget (frond s d).arr.repairing row.toNat = some bits →
      let rows := entryRows row.toNat bits.length
      ∃ t, exec (.rowRepairRecord die row) s = .next t ∧
        (KeysRise (frond s d).arr.repairing → mget (frond t d).arr.repairing row.toNat = none) ∧
        ((∀ i ∈ rows, recordGood (shadowAt s d i) = true) →
          (∀ i ∈ rows, (rowAt t d i).data = (shadowAt s d i).data ∧ (rowAt t d i).mask = (shadowAt s d i).mask ∧
            (rowAt t d i).near = (shadowAt s d i).near ∧ (rowAt t d i).valid = (shadowAt s d row.toNat).valid ∧
            rowGood d i (rowAt t d i) = true ∧ nearGood d i (rowAt t d i) = true) ∧
          (∀ i, i ∉ rows → rowAt t d i = rowAt s d i) ∧ (frond t d).arr.shadow = (frond s d).arr.shadow) ∧
        (∀ k, 2 ≤ k → k ≠ d → frond t k = frond s k) ∧
        Only [.boot, .pkg, .lds, .fronds, .tally, .life, .log] s t)

/-- FETCH_ADD, SWAP and CMP_SWAP act on one 64-bit word and complete with its previous value (R107, R108, R127) -/
def Obligations.AtomicsAreReadModifyWrite : Prop :=
  ∀ (s : State) (ring : BitVec 10) (u : Sub) (seat a op : Nat) (c : Instr),
    let n := ring.toNat
    let line := a / 64
    let hub := devHub s line
    (c = .fetchAdd ring ∧ op = 0x21) ∨ (c = .swap ring ∧ op = 0x22) ∨ (c = .cmpSwap ring ∧ op = 0x23) →
    nextSub s n op = some (u, seat) → dispatches s n = true → detaching s seat = false →
    atomicTarget s seat (field u.bytes 8 8) = (a, none) → a % 8 = 0 → keyAbsent s a = false →
    homeCut s (compHub s n) line = false → hubServes s hub = true → needOthers s line hub = none →
    let s1 := (homeTakes s line hub).1
    (homeOwns s line hub = true → s1 = s ∧ (homeTakes s line hub).2 = true) ∧
    ((homeTakes s line hub).2 = false → exec c s = .next (askedSub s1 n u.id)) ∧
    ((homeTakes s line hub).2 = true → Sound s1 → Calm s1 → keyAbsent s1 a = false → devPoison s1 line = false →
      writeShort s1 line false = false →
      ∀ s2, admitKnown (startSub s1 n u.id 1) seat (opCost s1 opAtomic 0 + opCost s1 opDispatch 0) = some s2 →
      let old := devRead s1 a 8
      let opnd := field u.bytes 16 8
      ∃ m, (op = 0x23 ∧ old ≠ field u.bytes 24 8 →
          exec c s = .next (finish m n u stCmpFail (BitVec.ofNat 64 old)) ∧ SameReadsBut s1 m 0 0) ∧
        (¬ (op = 0x23 ∧ old ≠ field u.bytes 24 8) →
          exec c s = .next (finish m n u stAtomicDone (BitVec.ofNat 64 old)) ∧ SameReadsBut s1 m a 8 ∧
          devRead m a 8 = if op = 0x21 then (old + opnd) % 2 ^ 64 else opnd))

/-- The next submission of a ring is command op of a seat, and its dispatcher runs. -/
def NextCommand (s : State) (n op : Nat) (u : Sub) (seat : Nat) : Prop :=
  nextSub s n op = some (u, seat) ∧ dispatches s n = true

/-- The dies a command works on are in service and awake, and the tally admits its predicted cost. -/
def Payable (s : State) (seat : Nat) (dies : List Nat) (cost : Nat) : Prop :=
  dies ≠ [] ∧ (∀ d ∈ dies, frondServes s d = true ∧ 2 ≤ d ∧ d - 2 < s.fronds.length) ∧ needFronds s dies = none ∧
    (admitWork s seat (opCost s opDispatch 0 + cost)).isSome = true

/-- Every golden shadow record of a frond reads good. -/
def GoodRecords (s : State) (d : Nat) : Prop := ∀ r, recordGood (shadowAt s d r) = true

/-- An entry command of table t at an entry that nothing keeps busy: its right, table, position and pan pass, no move, load,
snapshot, repair or tag commit meets it, the fronds' records read good, and its pan is the table's. -/
structure EntryReady (s : State) (n op : Nat) (u : Sub) (seat : Nat) (t : Table) (cost : Nat) : Prop where
  next : NextCommand s n op u seat
  check : cmdCheck s u seat true true = none
  table : mget s.tables (subTable u) = some t
  clean : posClean (subPos u 8) = true
  place : (posSlot s t (subPos u 8) false).isSome = true
  busy : entryBusy s (posDie (subPos u 8)) (subTable u) (posIndex t (posRow (subPos u 8))) = none
  snapshot : jobMeets s .snapshot (posDie (subPos u 8)) (subTable u) (posIndex t (posRow (subPos u 8)))
    (posIndex t (posRow (subPos u 8))) = false
  tags : tagsMoving s (posDie (subPos u 8)) (posRow (subPos u 8)) = false
  free : ∀ d ∈ copies s (posDie (subPos u 8)), underRepair s d (posRow (subPos u 8)) = false ∧ GoodRecords s d
  pay : Payable s seat (copies s (posDie (subPos u 8))) cost
  whole : ∀ d ∈ copies s (posDie (subPos u 8)), rowsAt s d (posRow (subPos u 8)) = t.rows
  rows : t.rows ∈ [1, 2, 4, 8]

/-- Only the given dies' fronds differ, and in those only the given rows. -/
def SameRowsBut (s m : State) (dies : List Nat) (rows : List Nat) : Prop :=
  (∀ d, 2 ≤ d → d ∉ dies → frond m d = frond s d) ∧ ∀ d ∈ dies, ∀ r, r ∉ rows → rowAt m d r = rowAt s d r

/-- TABLE_CREATE, TABLE_RANGE, TABLE_DESTROY and TABLE_DESTROY_DONE put tables into service, change them and take them out
(R144, R145, R146, R150, R151) -/
def Obligations.TableCommandsComplete : Prop :=
  (∀ (s : State) (ring : BitVec 10) (u : Sub) (seat : Nat),
    let t := createTable u
    let dies := t.fronds.flatMap fun f => copies s f.die
    NextCommand s ring.toNat 0x40 u seat → detaching s seat = false → sessionOk s seat u = true → subTable u < 1024 →
    mget s.tables (subTable u) = none → createCheck s u t = none → Payable s seat dies 0 →
    (∀ f ∈ t.fronds, ∀ k < f.pans, panFree s f.die (f.first + k) = true) →
    ∃ m, exec (.tableCreate ring) s = .next (finish m ring.toNat u stCmdDone 0) ∧ mget m.tables (subTable u) = some t ∧
      (∀ x, x ≠ subTable u → mget m.tables x = mget s.tables x) ∧ Only [.seats, .tables, .rings, .tally] s m ∧
      t.rows = field u.bytes 6 1 ∧ t.owner = some (field u.bytes 20 2) ∧ t.ofs = field u.bytes 22 2 ∧
      (t.ranked = true ↔ field u.bytes 7 1 % 2 = 1) ∧ t.closing = none ∧ t.rights = []) ∧
  (∀ (s : State) (ring : BitVec 10) (u : Sub) (seat : Nat) (t : Table) (f : FrondSlot),
    let die := field u.bytes 20 1
    let first := field u.bytes 22 2
    let pans := field u.bytes 24 2
    let leave := ((List.range f.pans).map (f.first + ·)).filter fun p => !((List.range pans).map (first + ·)).contains p
    NextCommand s ring.toNat 0x42 u seat → manageCheck s u seat = none → mget s.tables (subTable u) = some t →
    pans ≠ 0 → first + pans ≤ 512 → slotOfDie t die = some f → Payable s seat (copies s die) 0 →
    (∀ p, p ∈ (List.range pans).map (first + ·) → p ∉ (List.range f.pans).map (f.first + ·) → panFree s die p = true) →
    (∀ p ∈ leave, movePan s die p = false ∧ ∀ d ∈ copies s die, validEntries s d p t.rows = []) →
    (∀ e ∈ s.jobs, e.2.table ≠ subTable u) →
    ∃ m, exec (.tableRange ring) s = .next (finish m ring.toNat u stCmdDone 0) ∧
      mget m.tables (subTable u) = some { t with fronds := (t.fronds.map fun x =>
        if x.die = die then { x with first := first, pans := pans } else x) } ∧
      (∀ x, x ≠ subTable u → mget m.tables x = mget s.tables x) ∧
      ∀ d ∈ copies s die, ∀ p ∈ leave, panDead s d p = false → ∀ row, row / 8192 = p → rowAt m d row = fillRow d row) ∧
  (∀ (s : State) (ring : BitVec 10) (u : Sub) (seat : Nat) (t : Table),
    NextCommand s ring.toNat 0x41 u seat → manageCheck s u seat = none → mget s.tables (subTable u) = some t →
    KeysRise s.jobs → s.fronds.length = 6 → (admitKnown s seat (opCost s opDispatch 0)).isSome = true →
    ∃ m, exec (.tableDestroy ring) s = .next m ∧
      mget m.tables (subTable u) = some { t with closing := some (ring.toNat, u.id) } ∧ tableIn m (subTable u) = none ∧
      (∀ e ∈ m.jobs, e.2.table ≠ subTable u) ∧
      (∀ f ∈ m.fronds, ∀ x ∈ f.move.toList ++ f.moves, x.table ≠ subTable u)) ∧
  (∀ (s : State) (table : BitVec 10) (t : Table) (r id : Nat) (u : Sub),
    mget s.tables table.toNat = some t → t.closing = some (r, id) → KeysRise s.tables →
    (∀ e ∈ s.searches, e.2.table ≠ table.toNat) → (∀ f ∈ s.fronds, ∀ c ∈ f.hce, c.1 ≠ table.toNat) →
    openSub s r id = some u →
    (∀ f ∈ t.fronds, ∀ d ∈ copies s f.die, 2 ≤ d ∧ d - 2 < s.fronds.length) →
    ∃ m, exec (.tableDestroyDone table) s = .next (finish m r u stCmdDone 0) ∧ mget m.tables table.toNat = none ∧
      (∀ x, x ≠ table.toNat → mget m.tables x = mget s.tables x) ∧
      (∀ f ∈ t.fronds, ∀ d ∈ copies s f.die, ∀ k < f.pans, panDead s d (f.first + k) = false →
        (∀ row, row / 8192 = f.first + k → rowAt m d row = fillRow d row) ∧
        reg m (tagAddr d (f.first + k)) = 0xFFFF ∧ reg m (tagAddr d (f.first + k) + 4) = 0) ∧
      Only [.fronds, .tables, .regs] s m)

/-- ENTRY_INVALIDATE, ENTRY_WRITE, ENTRY_VALIDATE and NEAR_WRITE change the entry in every copy and nothing else of the array
(R56, R157, R158, R159, R160, R164) -/
def Obligations.EntryStepsWriteTheArray : Prop :=
  ∀ (s : State) (ring : BitVec 10) (u : Sub) (seat : Nat) (t : Table),
    let n := ring.toNat
    let die := posDie (subPos u 8)
    let row := posRow (subPos u 8)
    let dies := copies s die
    let rows := entryRows row t.rows
    (EntryReady s n 0x48 u seat t (arrayCost s dies 0 1) →
      ∃ m, exec (.entryInvalidate ring) s = .next (finish m n u stCmdDone (BitVec.ofNat 64 (nowNs s))) ∧
        (∀ d ∈ dies, ∀ r ∈ rows, (rowAt m d r).valid = false) ∧ SameRowsBut s m dies rows ∧
        Only [.seats, .fronds, .rings, .tally] s m) ∧
    (let first := field u.bytes 6 1
     let count := field u.bytes 7 1
     EntryReady s n 0x49 u seat t (arrayCost s dies count 0) → 0 < count → count ≤ 4 → first + count ≤ t.rows →
      (∀ d ∈ dies, heldValid s d row t.rows = false) →
      rowsCovered s die (row / 8192) ((List.range count).map (rowImage u)) first t.ofs = true →
      ∃ m, exec (.entryWrite ring) s = .next (finish m n u stCmdDone 0) ∧
        (∀ d ∈ dies, ∀ j < count, (rowAt m d (row + first + j)).data = (rowImage u j).1 ∧
          (rowAt m d (row + first + j)).mask = (rowImage u j).2 ∧ (rowAt m d (row + first + j)).valid = false ∧
          rowGood d (row + first + j) (rowAt m d (row + first + j)) = true) ∧
        (∀ d ∈ dies, ∀ r, r ∉ entryRows (row + first) count → (rowAt m d r).data = (rowAt s d r).data ∧
          (rowAt m d r).mask = (rowAt s d r).mask ∧ (rowAt m d r).valid = (rowAt s d r).valid ∧
          (rowAt m d r).near = (rowAt s d r).near) ∧
        SameRowsBut s m dies rows ∧ Only [.seats, .fronds, .rings, .tally] s m) ∧
    (EntryReady s n 0x4A u seat t (arrayCost s dies 0 1) → badRows s t die row = false → entryCovered s t die row = true →
      (∀ d ∈ dies, entryPoison s d row = false) →
      ∃ m, exec (.entryValidate ring) s = .next (finish m n u stCmdDone (BitVec.ofNat 64 (nowNs s))) ∧
        (∀ d ∈ dies, ∀ r ∈ rows, (rowAt m d r).valid = true ∧ (rowAt m d r).data = (rowAt s d r).data ∧
          (rowAt m d r).mask = (rowAt s d r).mask) ∧
        SameRowsBut s m dies rows ∧ Only [.seats, .fronds, .rings, .tally] s m) ∧
    (let r := row + field u.bytes 6 1
     let v := BitVec.ofNat 64 (field u.bytes 16 8)
     EntryReady s n 0x4B u seat t (arrayCost s dies 1 0) → field u.bytes 6 1 < t.rows →
      nearGood (serveDie s die) r (rowAt s (serveDie s die) r) = true →
      ∃ m, exec (.nearWrite ring) s = .next (finish m n u stCmdDone (rowAt s (serveDie s die) r).near) ∧
        (∀ d ∈ dies, rowAt m d r = { rowAt s d r with near := v, nchk := nearCheck d r v, prio := prioOf v, ppar := true }) ∧
        SameRowsBut s m dies [r] ∧ Only [.seats, .fronds, .rings, .tally] s m)

/-- ENTRY_SET takes an entry's records from BUF, ENTRY_READ writes them there, SLUICE_SET writes tags (R153, R154, R165, R167,
R403) -/
def Obligations.EntryRecordsGoInAndOut : Prop :=
  ∀ (s : State) (ring : BitVec 10) (u : Sub) (seat : Nat) (t : Table),
    let n := ring.toNat
    let die := posDie (subPos u 8)
    let row := posRow (subPos u 8)
    let dies := copies s die
    let buf := subBuf u
    (EntryReady s n 0x4C u seat t (arrayCost s dies t.rows 2) → bufOk s seat buf (32 * t.rows) false = true →
      needRegion s buf (32 * t.rows) true = none → bufCut s n buf (32 * t.rows) = false → Calm s → keyAbsent s buf = false →
      judgeRecords s t die (row / 8192) buf = none →
      ∃ m data, exec (.entrySet ring) s = .next (finish m n u stCmdDone data) ∧
        (∀ d ∈ dies, ∀ i < t.rows, let x := recordOf (BitVec.ofNat 256 (devRead s (buf + 32 * i) 32))
          (rowAt m d (row + i)).data = x.data ∧ (rowAt m d (row + i)).mask = x.mask ∧ (rowAt m d (row + i)).near = x.near ∧
          (rowAt m d (row + i)).valid = (recordOf (BitVec.ofNat 256 (devRead s buf 32))).valid) ∧
        SameRowsBut s m dies (entryRows row t.rows) ∧ Only [.seats, .fronds, .rings, .tally] s m) ∧
    (EntryReady s n 0x4D u seat t 0 → Sound s → Calm s → bufOk s seat buf (32 * t.rows) true = true →
      needRegion s buf (32 * t.rows) false = none → bufCut s n buf (32 * t.rows) = false → MediaFor s buf (32 * t.rows) →
      partPoison s buf (32 * t.rows) = false → serveDie s die ∈ dies →
      (∀ k, buf ≤ k → k < buf + 32 * t.rows → keyAbsent s k = false) →
      ∃ m, exec (.entryRead ring) s = .next (finish m n u stCmdDone 0) ∧
        (∀ i < t.rows, let g := shadowAt s (serveDie s die) (row + i)
          devRead m (buf + 32 * i) 32 =
            recordNat g.data g.mask g.near (recordCrc g.data g.mask g.near) (shadowAt s (serveDie s die) row).valid false) ∧
        SameReadsBut s m buf (32 * t.rows) ∧ m.fronds = s.fronds ∧ m.tables = s.tables) ∧
    (let count := field u.bytes 6 1
     let sdie := field u.bytes 7 1
     let first := field u.bytes 8 2
     let tags := (List.range count).map fun i =>
       (first + i, BitVec.ofNat 16 (field u.bytes (16 + 4 * i) 2), BitVec.ofNat 16 (field u.bytes (18 + 4 * i) 2))
     NextCommand s n 0x50 u seat → cmdCheck s u seat true true = none → mget s.tables (subTable u) = some t →
      0 < count → count ≤ 20 → (∀ i < count, inRange t sdie (first + i) = true ∧ movePan s sdie (first + i) = false) →
      first + count ≤ 512 → Payable s seat (copies s sdie) 0 →
      (∀ d ∈ copies s sdie, tagRefusal s d tags = none ∧ ∀ i < count, sluiceBlocked s (pageBase (tagAddr d (first + i))) = false) →
      ∃ m, exec (.sluiceSet ring) s = .next (finish m n u stCmdDone 0) ∧
        (∀ d ∈ copies s sdie, ∀ i < count, reg m (tagAddr d (first + i)) = BitVec.ofNat 16 (field u.bytes (16 + 4 * i) 2) ∧
          reg m (tagAddr d (first + i) + 4) = BitVec.ofNat 16 (field u.bytes (18 + 4 * i) 2)) ∧
        (∀ i < count, reg m (pageBase (tagAddr sdie (first + i)) + 0x28) = 4) ∧
        SameRegsBut s m (((copies s sdie).flatMap fun d => (List.range count).flatMap fun i =>
          [tagAddr d (first + i), tagAddr d (first + i) + 4]) ++
          (List.range count).map fun i => pageBase (tagAddr sdie (first + i)) + 0x28) ∧
        Only [.seats, .fronds, .rings, .tally, .regs] s m)

/-- A rake move queues, starts, moves one entry a step, and is reported and cancelled (R168, R169, R170, R173, R174) -/
def Obligations.RakeMovesEntries : Prop :=
  (∀ (s : State) (ring : BitVec 10) (u : Sub) (seat : Nat) (t : Table),
    let n := ring.toNat
    let die := posDie (subPos u 8)
    let mv : Move := { ring := some n, sub := u.id, table := subTable u, down := field u.bytes 6 1 == 1,
                       start := posIndex t (posRow (subPos u 8)), count := field u.bytes 12 4, moved := 0, seat := seat }
    NextCommand s n 0x54 u seat → cmdCheck s u seat true true = none → field u.bytes 6 1 ≤ 1 →
    posClean (subPos u 8) = true → mget s.tables (subTable u) = some t → 0 < mv.count → mv.count ≤ 65536 →
    (posSlot s t (subPos u 8) true).isSome = true → moveFits s t die mv = true → (∀ e ∈ s.jobs, e.2.table ≠ subTable u) →
    (admitKnown s seat (opCost s opDispatch 0)).isSome = true → copies s die ≠ [] → (copies s die).Nodup →
    (∀ d ∈ copies s die, 2 ≤ d ∧ d - 2 < s.fronds.length ∧ frondServes s d = true ∧
      (frond s d).moves.length < 8) →
    ∃ m, exec (.rakeMove ring) s = .next m ∧ (∀ d ∈ copies s die, frond m d = { frond s d with moves := (frond s d).moves ++ [mv] }) ∧
      (∀ d, 2 ≤ d → d ∉ copies s die → frond m d = frond s d) ∧ Only [.seats, .fronds, .rings, .tally] s m) ∧
  (∀ (s : State) (die : BitVec 3) (mv : Move) (rest : List Move) (t : Table),
    let d := die.toNat
    (frond s d).move = none → (frond s d).moves = mv :: rest → frondServes s d = true → awake s d = true → 2 ≤ d →
    d - 2 < s.fronds.length → tableIn s mv.table = some t → (∀ e ∈ s.jobs, e.2.table ≠ mv.table) →
    moveFits s t (baseDie s d) mv = true → entryValid s d (posRowOf t (moveTarget mv)) t.rows = false →
    moveUncovered s t d mv = false →
    ∃ m, exec (.rakeMoveStart die) s = .next m ∧ frond m d = { frond s d with move := some mv, moves := rest, paused := false } ∧
      (∀ x, 2 ≤ x → x ≠ d → frond m x = frond s x) ∧ Only [.fronds] s m) ∧
  (∀ (s : State) (die : BitVec 3) (mv : Move) (t : Table),
    let d := die.toNat
    let a := posRowOf t (moveStep mv mv.moved).1
    let b := posRowOf t (moveStep mv mv.moved).2
    (frond s d).move = some mv → frondServes s d = true → awake s d = true → 2 ≤ d → d - 2 < s.fronds.length →
    mget s.tables mv.table = some t → t.cnt = false → t.rows ∈ [1, 2, 4, 8] →
    arrayCost s [d] t.rows 2 ≤ s.tally.slack → underRepair s d a = false → underRepair s d b = false →
    tagsMoving s d a = false → tagsMoving s d b = false → (∀ r ∈ entryRows a t.rows, rowWhole s d r = true) → GoodRecords s d → mv.moved + 1 < mv.count →
    (∀ r ∈ entryRows b t.rows, (rowAt s d r).valid = false) → (∀ i < t.rows, ∀ j < t.rows, a + i ≠ b + j) →
    rowsAt s d a = t.rows → rowsAt s d b = t.rows →
    ∃ m, exec (.rakeEntryStep die) s = .next m ∧
      (∀ i < t.rows, (rowAt m d (b + i)).data = (rowAt s d (a + i)).data ∧ (rowAt m d (b + i)).mask = (rowAt s d (a + i)).mask ∧
        (rowAt m d (b + i)).near = (rowAt s d (a + i)).near ∧ (rowAt m d (b + i)).valid = entryValid s d a t.rows ∧
        (entryValid s d a t.rows = true → (rowAt m d (a + i)).valid = false)) ∧
      (frond m d).move = some { mv with moved := mv.moved + 1 } ∧ (∀ x, 2 ≤ x → x ≠ d → frond m x = frond s x) ∧
      (∀ r, r ∉ entryRows a t.rows → r ∉ entryRows b t.rows → rowAt m d r = rowAt s d r) ∧
      m.tables = s.tables ∧ m.mem = s.mem ∧ m.rings = s.rings) ∧
  (∀ (s : State) (ring : BitVec 10) (u : Sub) (seat : Nat) (t : Table),
    let n := ring.toNat
    let die := field u.bytes 7 1
    let f := frond s (serveDie s die)
    let run := match f.move with
      | some x => if x.table = subTable u then some (x.count - x.moved) else none
      | none => none
    mget s.tables (subTable u) = some t → (slotOfDie t die).isSome = true →
    (admitWork s seat (opCost s opDispatch 0)).isSome = true →
    (NextCommand s n 0x55 u seat → cmdCheck s u seat false true = none →
      ∃ m, exec (.rakeQuery ring) s = .next (finish m n u stCmdDone (BitVec.ofNat 64 (packItems [(4, run.getD 0),
          (1, (f.moves.filter fun x => x.table == subTable u).length),
          (1, if run.isSome then (if f.paused then 3 else 1) else 0)]))) ∧ Only [.seats, .rings, .tally] s m) ∧
    (NextCommand s n 0x56 u seat → cmdCheck s u seat true true = none →
      (∀ d ∈ copies s die, 2 ≤ d ∧ d - 2 < s.fronds.length) →
      ∃ m data, exec (.rakeCancel ring) s = .next (finish m n u stCmdDone data) ∧
        (∀ d ∈ copies s die, ∀ x ∈ (frond m d).move.toList ++ (frond m d).moves, x.table ≠ subTable u) ∧
        (∀ d, 2 ≤ d → d ∉ copies s die → frond m d = frond s d) ∧ m.tables = s.tables))

/-- BULK_LOAD, SNAPSHOT and STATS open a job of the present moment, and each step does its next part (R180, R181, R182) -/
def Obligations.BulkWorkRunsInSteps : Prop :=
  (∀ (s : State) (ring : BitVec 10) (u : Sub) (seat die q : Nat) (t : Table),
    let n := ring.toNat
    let count := field u.bytes 12 4
    let d := opCost s opDispatch 0
    let room (len : Nat) : Prop := bufOk s seat (subBuf u) len true = true ∧ bufCut s n (subBuf u) len = false ∧ Calm s ∧
      (∀ k, subBuf u ≤ k → k < subBuf u + len → keyAbsent s k = false) ∧ partPoison s (subBuf u) len = false
    let opened (m : State) (k : JobKind) (start count : Nat) : Prop :=
      ∃ j, mget m.jobs s.nextId = some j ∧ j.kind = k ∧ j.ring = n ∧ j.sub = u.id ∧ j.seat = seat ∧ j.table = subTable u ∧
        j.start = start ∧ j.count = count ∧ j.done = 0 ∧ j.buf = subBuf u ∧ j.moment = nowNs s ∧ m.nextId = s.nextId + 1 ∧
        ∀ i, i ≠ s.nextId → mget m.jobs i = mget s.jobs i
    (NextCommand s n 0x58 u seat → blockCheck s u seat true none false = .ok (t, die, q) →
      bufOk s seat (subBuf u) (32 * t.rows * count) false = true → (∀ e ∈ s.jobs, e.2.table ≠ subTable u) →
      (admitWork s seat (d + arrayCost s (copies s die) (count * t.rows) (2 * count))).isSome = true → copies s die ≠ [] →
      (∀ x ∈ copies s die, frondServes s x = true) → moveMeets s die (subTable u) q (q + count - 1) = false →
      ∃ m, exec (.bulkLoad ring) s = .next m ∧ opened m .load q count ∧ Only [.seats, .rings, .tally, .jobs, .nextId] s m) ∧
    (NextCommand s n 0x59 u seat → blockCheck s u seat true none true = .ok (t, die, q) →
      room (32 * t.rows * count) → (∀ e ∈ s.jobs, e.2.table ≠ subTable u) →
      frondServes s (serveDie s die) = true → needFronds s [serveDie s die] = none → (admitWork s seat d).isSome = true →
      moveMeets s die (subTable u) q (q + count - 1) = false → GoodRecords s (serveDie s die) →
      ∃ m, exec (.snapshot ring) s = .next m ∧ opened m .snapshot q count ∧ m.mem = s.mem ∧ m.fronds = s.fronds ∧
        m.tables = s.tables) ∧
    (∀ f, NextCommand s n 0x5A u seat → cmdCheck s u seat false true = none → field u.bytes 6 1 < 2 →
      mget s.tables (subTable u) = some t → slotOfDie t (field u.bytes 7 1) = some f →
      room (96 + 16 * f.pans) → frondServes s (serveDie s (field u.bytes 7 1)) = true → (admitWork s seat d).isSome = true →
      ∃ m, exec (.stats ring) s = .next m ∧ opened m .stats 0 f.pans ∧ m.mem = s.mem ∧ m.fronds = s.fronds ∧
        (field u.bytes 6 1 = 0 → m.tables = s.tables) ∧
        (field u.bytes 6 1 = 1 → mget m.tables (subTable u) = some { t with stats := mdel t.stats (field u.bytes 7 1) }))) ∧
  (∀ (s : State) (id : BitVec 32) (j : Job) (t : Table),
    let i := id.toNat
    mget s.jobs i = some j → mget s.tables j.table = some t → Calm s →
    (j.kind = .load → (∀ d ∈ copies s j.die, frondServes s d = true ∧ halted s (halfOf d) = false) → needFronds s (copies s j.die) = none →
      (j.checked = false → needRegion s j.buf (32 * t.rows * j.count) true = none →
        bufCut s j.ring j.buf (32 * t.rows * j.count) = false →
        (∀ k, j.buf ≤ k → k < j.buf + 32 * t.rows * j.count → keyAbsent s k = false) →
        (loadFault s t j = none → ∃ m j', exec (.bulkLoadStep id) s = .next m ∧ mget m.jobs i = some j' ∧
          j' = { j with checked := true, image := j'.image } ∧ j'.image.length = t.rows * j.count ∧
          (∀ x < t.rows * j.count, ∃ y, j'.image[x]? = some y ∧ y.2 = BitVec.ofNat 256 (devRead s (j.buf + 32 * x) 32)) ∧
          (∀ k, k ≠ i → mget m.jobs k = mget s.jobs k) ∧ Only [.jobs] s m) ∧
        (∀ k st, loadFault s t j = some (k, st) →
          exec (.bulkLoadStep id) s = .next (jobOver s i j st k (jobCost s j)))) ∧
      (let row := posRowOf t (j.start + j.done)
       let rs := (j.image.take t.rows).map fun x => recordOf x.2
       let v := (rs.head?.map fun r => r.valid).getD false
       j.checked = true → t.rows ∈ [1, 2, 4, 8] → t.rows ≤ j.image.length → tagsMoving s j.die row = false →
        (∀ d ∈ copies s j.die, underRepair s d row = false) → recordsCovered s t j.die (row / 8192) rs = true →
        (∀ d ∈ copies s j.die, GoodRecords s d ∧ rowsAt s d row = t.rows ∧ 2 ≤ d ∧ d - 2 < s.fronds.length) →
        j.done + 1 < j.count →
        ∃ m, exec (.bulkLoadStep id) s = .next m ∧ 
          mget m.jobs i = some { j with
            done := j.done + 1, valids := j.valids + (if v then 1 else 0), image := j.image.drop t.rows } ∧
          (∀ d ∈ copies s j.die, ∀ x y, rs[x]? = some y →
            (rowAt m d (row + x)).data = y.data ∧ (rowAt m d (row + x)).mask = y.mask ∧ (rowAt m d (row + x)).near = y.near ∧
            (rowAt m d (row + x)).valid = v) ∧
          SameRowsBut s m (copies s j.die) (entryRows row t.rows) ∧ Only [.seats, .fronds, .jobs, .tally] s m)) ∧
    (∀ (c : Instr) (v : BitVec 256) (a : Nat) (rest : List (Nat × BitVec 256)), (j.kind = .snapshot ∧ c = .snapshotStep id) ∨ (j.kind = .stats ∧ c = .statsStep id) →
      let len := if j.kind = .snapshot then 32 * t.rows * j.count else 96 + 16 * j.count
      let hi := if a % 64 = 0 then rest.head? else none
      let size := min (if hi.isSome then 64 else 32) (j.buf + len - a)
      let all := v.toNat + 2 ^ 256 * (hi.map fun x : Nat × BitVec 256 => x.2.toNat).getD 0
      let j' := { j with image := if hi.isSome then rest.drop 1 else rest, done := j.done + 1 }
      Sound s → halted s (primary s) = false → j.image = (a, v) :: rest → needRegion s a size false = none →
      bufCut s j.ring a size = false → MediaFor s a size → (size = 64 ∨ devPoison s (a / 64) = false) →
      0 < size → a % 64 + size ≤ 64 → keyAbsent s a = false →
      ∃ m, (∀ k < size, devRead m (a + k) 1 = all / 256 ^ k % 256) ∧ SameReadsBut s m a size ∧ m.jobs = s.jobs ∧
        (j'.image ≠ [] → exec c s = .next { m with jobs := mput m.jobs i j' }) ∧
        (j'.image = [] → exec c s = .next (jobOver m i j' stCmdDone j.moment (jobCost m j')))))

/-- COUNTER_READ copies a block of counters to BUF, COUNTER_CLEAR makes it zero (R147, R178, R179) -/
def Obligations.CountersAreReadAndCleared : Prop :=
  ∀ (s : State) (ring : BitVec 10) (u : Sub) (seat die q : Nat) (t : Table),
    let n := ring.toNat
    let count := field u.bytes 12 4
    let a := counterWord s t die (posRowOf t q)
    Sound s → Calm s → t.cnt = true → countersOut s t a (8 * count) = false → 0 < count →
    (admitWork s seat (opCost s opDispatch 0)).isSome = true →
    (∀ k, (a ≤ k ∧ k < a + 8 * count) ∨ (subBuf u ≤ k ∧ k < subBuf u + 8 * count) →
      keyAbsent s k = false ∧ devPoison s (k / 64) = false) →
    (NextCommand s n 0x5C u seat → blockCheck s u seat false (some 65536) true = .ok (t, die, q) →
      bufOk s seat (subBuf u) (8 * count) true = true → (∀ f ∈ s.fronds, ∀ c ∈ f.hce, c.1 ≠ subTable u) →
      needRegion s a (8 * count) true = none → needRegion s (subBuf u) (8 * count) false = none →
      bufCut s n a (8 * count) = false → bufCut s n (subBuf u) (8 * count) = false → MediaFor s (subBuf u) (8 * count) →
      partPoison s (subBuf u) (8 * count) = false →
      ∃ m, exec (.counterRead ring) s = .next (finish m n u stCmdDone 0) ∧
        (∀ k < 8 * count, devRead m (subBuf u + k) 1 = devRead s (a + k) 1) ∧ SameReadsBut s m (subBuf u) (8 * count) ∧
        m.tables = s.tables ∧ m.fronds = s.fronds) ∧
    (NextCommand s n 0x5D u seat → blockCheck s u seat true (some 65536) true = .ok (t, die, q) →
      needRegion s a (8 * count) false = none → bufCut s n a (8 * count) = false → MediaFor s a (8 * count) →
      ∃ m, exec (.counterClear ring) s = .next (finish m n u stCmdDone 0) ∧
        (∀ k, a ≤ k → k < a + 8 * count → devRead m k 1 = 0) ∧ SameReadsBut s m a (8 * count) ∧
        m.tables = s.tables ∧ m.fronds = s.fronds)

/-- Nothing stands in a line's way at a home: no transaction, directory and snoop-filter entries that pass their check, no damaged
on-package copy, no armed DRAM error, a page-map entry that passes its check. -/
structure LineClear (s : State) (l h : Nat) : Prop where
  txn : mget s.coh.txns (hkey l h) = none
  dir : ∀ e, mget s.coh.dir (hkey l h) = some e → e.bad = false
  filt : ∀ e, mget s.coh.filt (hkey l h) = some e → e.bad = false
  sram : ∀ a < 32, mget s.coh.damage (copyKey l h a) = none
  dram : mget s.mem.damage (hkey l h) = none
  map : mget s.mem.badMap (hkey (pageOfLine l) h) = none

/-- An agent's request for a line can be served at once: the agent may hold the line and has no request for it under way, its home
serves, the line's key is present, nothing stands in its way, the directory has an entry or a way that nothing waits for, and no
compressed page has to be unpacked for it. -/
structure AgentReady (s : State) (a l h : Nat) : Prop where
  may : agentMayHold s a l = true
  serves : hubServes s h = true
  idle : asked s l h a = false
  keyed : keyAbsent s (64 * l) = false
  clear : LineClear s l h
  entry : mhas s.coh.dir (hkey l h) = true ∨
    ((∀ own upg ecc, setWaiters s h l (.agent a own upg ecc) = false) ∧ (dirWays s h l).length < 16)
  plain : ∀ c, (pageAtHub s (pageOfLine l) h).st ≠ .packed c

/-- RdS, RdOwn and Upg of an agent grant E, S or M where no command is needed, and otherwise send the home's commands (R236,
R244, R245, R246, R254, R256, R261, Table 6.5) -/
def Obligations.AgentRequestsGrantCopies : Prop :=
  ∀ (s : State) (agent : BitVec 5) (line : BitVec 37) (ecc : Ecc),
    let a := agent.toNat
    let l := line.toNat
    let h := agentHome s a l
    let done (c : Instr) (own : Bool) (st : CopySt) : Prop := ∃ m, exec c s = .next m ∧
      copyOf m l h a = some st ∧ (∀ k, k ≠ copyKey l h a → mget m.coh.copies k = mget s.coh.copies k) ∧
      m.wire.head? = some (.cohMsg a l 0) ∧ m.coh.filt = (dropHosts s l h own).coh.filt ∧ SameReadsBut s m 0 0 ∧
      m.tables = s.tables ∧ m.rings = s.rings ∧ m.extents = s.extents
    let room : Prop := twinUse s a < twinCap a ∨ copyKey l h a ∈ s.coh.twin
    Sound s → Calm s → AgentReady s a l h → ecc = .good ∨ ecc = .corrected ∨ ecc = .uncorrectable →
    ((copyOf s l h a = none → agentRoom s a l = true → hostsFor s l h false = [] →
        (∀ x ∈ sharersOf s l h, copyOf s l h x = some .s ∨ copyOf s l h x = some .o) →
        done (.rds agent line ecc) false (if sharersOf s l h = [] ∧
          mhas (dropHosts s l h false).coh.filt (hkey l h) = false then .e else .s)) ∧
      (copyOf s l h a = none → agentRoom s a l = true → hostsFor s l h true = [] → sharersOf s l h = [] → room →
        done (.rdown agent line ecc) true .m) ∧
      (copyOf s l h a = some .s ∨ copyOf s l h a = some .o → hostsFor s l h true = [] →
        (∀ x ∈ sharersOf s l h, x = a) → room → done (.upg agent line) true .m) ∧
      ∀ (c : Instr) (own upg : Bool), (c = .rds agent line ecc ∧ own = false ∧ upg = false) ∨
          (c = .rdown agent line ecc ∧ own = true ∧ upg = false) ∨ (c = .upg agent line ∧ own = true ∧ upg = true) →
        (if upg then copyOf s l h a = some .s ∨ copyOf s l h a = some .o else copyOf s l h a = none ∧ agentRoom s a l = true) →
        hostsFor s l h own = [] → cmdsFor s l h a own upg ≠ [] →
        ∃ m t, exec c s = .next m ∧ mget m.coh.txns (hkey l h) = some t ∧ t.cmds = cmdsFor s l h a own upg ∧ t.wait = [] ∧
          t.ready = false ∧ (∀ x ∈ t.cmds,
            .cohMsg x.1 l (match x.2 with | .fwdS => 1 | .fwdOwn => 2 | .inv => 3) ∈ m.wire) ∧
          m.coh.copies = s.coh.copies ∧ (ecc = .good ∨ upg = true → m.mem = s.mem) ∧ SameReadsBut s m 0 0)

/-- FwdS, FwdOwn, Inv, WbData, EvictClean, a transaction's end and a write-back change one copy, buffer slot or entry (R244,
R246, R255, Table 6.4, Table 6.5) -/
def Obligations.AgentsAnswerTheHome : Prop :=
  ∀ (s : State) (agent : BitVec 5) (line : BitVec 37) (hub : BitVec 1),
    let a := agent.toNat
    let l := line.toNat
    let h := agentHome s a l
    KeysRise s.coh.copies → mget s.coh.damage (copyKey l h a) = none → halted s h = false → twinUse s h < twinCap h →
    (∀ (t : Txn) (cmd : CohCmd) (c : Instr), (c = .fwds agent line ∧ cmd = .fwdS) ∨ (c = .fwdown agent line ∧ cmd = .fwdOwn) ∨
        (c = .inv agent line ∧ cmd = .inv) → mget s.coh.txns (hkey l h) = some t → (a, cmd) ∈ t.cmds →
      ∃ m, exec c s = .next (proceed m l h) ∧
        copyOf m l h a = (if cmd = .fwdS then (match copyOf s l h a with
          | some .m => some .o
          | some .e => some .s
          | x => x) else none) ∧
        (let d := dirtySt (copyOf s l h a)
         m.coh.wb = s.coh.wb ++ (if (cmd = .inv ∨ cmd = .fwdOwn ∧ wanted s l h = false) ∧ d = true then [hkey l h] else []) ∧
         mget m.coh.txns (hkey l h) = some { t with
           cmds := t.cmds.erase (a, cmd)
           dirty := t.dirty || (decide (cmd = .fwdOwn) && wanted s l h && d) }) ∧
        (∀ k, k ≠ hkey l h → mget m.coh.txns k = mget s.coh.txns k) ∧
        (∀ k, k ≠ copyKey l h a → mget m.coh.copies k = mget s.coh.copies k) ∧ Only [.coh] s m) ∧
    (∀ (dirty : Bool), (if dirty then dirtySt (copyOf s l h a) = true else copyOf s l h a = some .e ∨ copyOf s l h a = some .s) →
      mget s.coh.txns (hkey l h) = none → (∀ e, mget s.coh.dir (hkey l h) = some e → e.bad = false) → filtBad s l h = false →
      ∃ m, exec (if dirty then .wbdata agent line else .evictclean agent line) s = .next m ∧ copyOf m l h a = none ∧
        m.coh.wb = s.coh.wb ++ (if dirty then [hkey l h] else []) ∧
        (dirty = true → mhas s.coh.dir (hkey l h) = true → (∀ x, x ≠ a → copyOf s l h x = none) →
          (mget m.coh.dir (hkey l h)).map (fun e => e.st) = some .wb) ∧
        (∀ k, k ≠ copyKey l h a → mget m.coh.copies k = mget s.coh.copies k) ∧ m.coh.txns = s.coh.txns ∧ Only [.coh] s m) ∧
    (∀ t, mget s.coh.txns (hkey l hub.toNat) = some t → halted s hub.toNat = false →
      let m := runQueue l hub.toNat t.queue
        (mirrorFree { s with coh := { s.coh with txns := mdel s.coh.txns (hkey l hub.toNat) } } l hub.toNat)
      (t.ready = true → exec (.cohTransactionDone hub line) s = .next (flushAll
        (if mhas m.coh.txns (hkey l hub.toNat) then m else serveRetry m l hub.toNat))) ∧
      (t.ready = false → exec (.cohTransactionDone hub line) s = .next (proceed s l hub.toNat))) ∧
    (∀ k, s.coh.wb.find? (fun k => k % 2 == hub.toNat) = some k → halted s hub.toNat = false → Calm s →
      (∀ c, (pageAtHub s (pageOfLine (k / 2)) hub.toNat).st ≠ .packed c) →
      (hotHere s (k / 2) hub.toNat = true → twinUse s hub.toNat ≤ twinCap hub.toNat) →
      ∃ m, exec (.writeBackDone hub) s = .next m ∧ m.coh.wb = s.coh.wb.erase k ∧ m.coh.copies = s.coh.copies ∧
        (∀ e, mget s.coh.dir k = some e → KeysRise s.coh.dir → mget m.coh.dir k =
          if e.st = .wb ∧ k ∉ s.coh.wb.erase k then none else some e) ∧ SameReadsBut s m 0 0 ∧
        m.tables = s.tables ∧ m.rings = s.rings ∧ m.extents = s.extents)

/-- A host's answer, or its absence for 10 µs, takes the seat from the line's wait and entry; a long wait is counted (R191,
R250, R251, R260) -/
def Obligations.HostAnswersReleaseLines : Prop :=
  (∀ (s : State) (seat : BitVec 6) (line : BitVec 37) (dirty : Option Line) (h : Nat),
    let l := line.toNat
    let n := seat.toNat
    h < 2 → awaits s l h n = true → halted s h = false → (h = 1 → awaits s l 0 n = false) →
    (∃ m, m = (match dirty with
        | some d => if ownedAt s l h n = [] then s else returnData s l h d (ownedAt s l h n)
        | none => s) ∧
      (awaits (answerAt m l h n) l 1 n = false ∨ h = 1 → exec (.bisnpResponse seat line dirty) s = .next (answerAt m l h n))) ∧
    (∃ m, SameRegsBut s m [cohReg h 0x60] ∧ Only [.regs, .mem, .coh] s m ∧
      reg m (cohReg h 0x60) = BitVec.ofNat 16 (sat ((reg s (cohReg h 0x60)).toNat + 1) 16) ∧
      m.mem.poison = (ownedAt s l h n).foldl (fun p x => mput p (hkey l x) ((mget p (hkey l x)).getD false)) s.mem.poison ∧
      m.mem.bytes = s.mem.bytes ∧ m.coh.filt = s.coh.filt ∧ m.coh.copies = s.coh.copies ∧
      (∀ t, mget s.coh.txns (hkey l h) = some t →
        mget m.coh.txns (hkey l h) = some { t with data := t.data && (ownedAt s l h n).isEmpty }) ∧
      let e := event m 0x4001 1 0xFF n [(8, 64 * l)] (.seat n)
      (awaits (answerAt e l h n) l 1 n = false ∨ h = 1 → exec (.cohBiTimeout seat line) s = .next (answerAt e l h n)))) ∧
  (∀ (s : State) (l h : Nat) (d : Line) (from_ : List Nat), Sound s → Calm s → keyAbsent s (64 * l) = false →
    (∀ h ∈ from_, h ∈ homes s l) →
    (∀ k < 64, devRead (returnData s l h d from_) (64 * l + k) 1 = d.toNat / 256 ^ k % 256) ∧
    SameReadsBut s (returnData s l h d from_) (64 * l) 64) ∧
  (∀ (s : State) (l h n : Nat) (t : Txn), mget s.coh.txns (hkey l h) = some t → n ∈ t.wait → KeysRise s.coh.filt →
    let w := t.wait.filter (· != n)
    let hs := if t.mirror then homes s l else [h]
    h ∈ hs →
    ∃ m, answerAt s l h n = (if w = [] then proceed m l h else m) ∧
      mget m.coh.txns (hkey l h) = some { t with wait := w } ∧
      (t.data = true → heldA m l h = false ∧ holders m l h = holders s l h) ∧
      (∀ x ∈ hs, (t.data = false ∨ x ≠ h) → n ∉ holders m l x) ∧
      (∀ k, (∀ x ∈ hs, k ≠ hkey l x) → mget m.coh.filt k = mget s.coh.filt k) ∧ m.coh.copies = s.coh.copies ∧ Only [.coh] s m) ∧
  (∀ (s : State) (hub : BitVec 1) (line : BitVec 37) (wait100 : BitVec 16) (r : CohReq) (since : Nat),
    let h := hub.toNat
    let l := line.toNat
    (s.coh.retry.getD h []).find? (fun e => e.1 == l) = some (l, r, since) →
    ∃ m set, exec (.cohRetryLong hub line wait100) s =
        .next (event m 0x4002 1 h 0xFF [(4, set), (4, wait100.toNat)] .steward) ∧
      reg m (cohReg h 0x6C) = BitVec.ofNat 16 (max (reg s (cohReg h 0x6C)).toNat wait100.toNat) ∧
      SameRegsBut s m [cohReg h 0x6C] ∧ Only [.regs] s m)

/-- The snoop filter has an entry for a line, or a way free for one that nothing waits for. -/
def FiltRoom (s : State) (l h : Nat) : Prop :=
  mhas s.coh.filt (hkey l h) = true ∨
    ((∀ p any hpa ecc, setWaiters s h l (.hostRead p any hpa ecc) = false) ∧ (filtWays s h l).length < 16)

/-- A byte of a line as a write with byte enables leaves it. -/
def writtenByte (s : State) (line : Nat) (data : Line) (en : Nat → Bool) (k : Nat) : Nat :=
  if en k then data.toNat / 256 ^ k % 256 else devRead s (64 * line + k) 1

/-- A host's CXL.mem reads, writes and clean evictions of memory it reaches (R203, R232, R248, R249, R282, R285, Table 6.8) -/
def Obligations.HostMemoryRequests : Prop :=
  (∀ (s : State) (p : Place) (pid : Option (BitVec 12)) (hpa : BitVec 64) (any : Bool) (ecc : Ecc) (line hub seat : Nat),
    let db := ((extentAt s (64 * line)).map fun e => e.db).getD false
    Sound s → Calm s → hostAccess s p pid hpa.toNat false = .ok line hub seat → LineClear s line hub → FiltRoom s line hub →
    ecc ≠ .dirBad → ecc ≠ .filtBad →
    (any = true ∨ heldA s line hub = true → ∀ n ∈ holders s line hub, n = seat) →
    ∃ m, exec (if any then .cxlMemReadAny ⟨p, pid⟩ hpa ecc else .cxlMemReadShared ⟨p, pid⟩ hpa ecc) s = .next m ∧
      m.wire.head? = some (.memData p hpa (lineAt m line hub) (poisonedAt m line hub) (devLoad m p hub (m.wire.length - 1))) ∧
      (ecc = .good ∨ ecc = .corrected → m.mem.bytes = s.mem.bytes ∧ m.mem.poison = s.mem.poison ∧ lineAt m line hub = lineAt s line hub) ∧
      (any = true ∧ db = true → sharersOf m line hub = [] ∧ heldA m line hub = true ∧ holders m line hub = [seat]) ∧
      (¬ (any = true ∧ db = true) → ecc ≠ .mapLost → (∀ c, (pageAtHub s (pageOfLine line) hub).st ≠ .packed c) → ∀ a ∈ sharersOf s line hub, copyOf m line hub a =
        match copyOf s line hub a with
        | some .m => some .o
        | some .e => some .s
        | x => x) ∧
      (any = false ∧ db = true → heldA m line hub = false ∧ seat ∈ holders m line hub) ∧
      (db = false → m.coh.filt = s.coh.filt)) ∧
  (∀ (s : State) (p : Place) (pid : Option (BitVec 12)) (hpa : BitVec 64) (data : Line) (be : BitVec 64) (poison full : Bool) (line hub seat : Nat),
    let zeros := full && data == 0 && !poison
    Sound s → Calm s → KeysRise s.coh.filt → hostAccess s p pid hpa.toNat true = .ok line hub seat → hub ∈ homes s line →
    (∀ h ∈ homes s line, LineClear s line h ∧ ∀ n ∈ holders s line h, n = seat) →
    writeShort s line zeros = false → (mediaNeed s line hub zeros = 0 ∨ (pageAtHub s (pageOfLine line) hub).st ≠ .zero ∨ capBreached s seat = false) →
    (full = true ∨ poisonedAt s line hub = false) →
    ∃ m, exec (if full then .cxlMemFullWrite ⟨p, pid⟩ hpa data poison else .cxlMemPartialWrite ⟨p, pid⟩ hpa data be poison) s = .next m ∧
      m.wire.head? = some (.memDone p line (devLoad m p hub (m.wire.length - 1))) ∧
      (∀ k < 64, devRead m (64 * line + k) 1 = writtenByte s line data (fun k => full || be.getLsbD k) k) ∧
      SameReadsBut s m (64 * line) 64 ∧
      (∀ h ∈ homes s line, poisonedAt m line h = (poison || (!full && poisonedAt s line h)) ∧ sharersOf m line h = [] ∧
        holders m line h = []) ∧ m.tables = s.tables ∧ m.rings = s.rings ∧ m.extents = s.extents) ∧
  (∀ (s : State) (p : Place) (pid : Option (BitVec 12)) (hpa : BitVec 64) (line hub seat : Nat),
    hostAccess s p pid hpa.toNat false = .ok line hub seat → KeysRise s.coh.filt →
    ∃ m, exec (.cxlMemCleanEvict ⟨p, pid⟩ hpa) s = .next m ∧ m.coh.copies = s.coh.copies ∧ m.mem = s.mem ∧
      (∀ k, k ≠ hkey line hub → mget m.coh.filt k = mget s.coh.filt k) ∧ seat ∉ holders m line hub ∧
      (∀ n, n ≠ seat → (n ∈ holders m line hub ↔ n ∈ holders s line hub)) ∧
      m.tables = s.tables ∧ m.rings = s.rings ∧ m.extents = s.extents)

/-- Extents are added whole or not at all, become usable when accepted, and end with their seats, their pages zero (R196,
R205, R206, R207, R208) -/
def Obligations.DynamicCapacityMoves : Prop :=
  (∀ (s : State) (src : FmSource) (exts : List ExtentReq), Sound s →
    (delegated s = true → exts ≠ [] → addOk s exts = true →
      ∃ m, exec (.addDynamicCapacity src exts) s = .next m ∧ m.wire.head? = some (.fmAnswer true) ∧
        (∀ e ∈ exts, (∃ x, mget m.extents e.base.toNat = some x ∧ x.db = e.db ∧ x.key = e.key.map (fun k => k.toNat) ∧
            x.seats = e.seats.map (fun y => ⟨y.1.toNat, y.2, false⟩)) ∧
          (∀ y ∈ e.seats, .dcEvent y.1.toNat 0 e.base.toNat ∈ m.wire) ∧
          ∀ a, a / 2 ^ 28 = e.base.toNat → readMem m.mem.bytes a = 0 ∧ ∀ h < 2, poisonedAt m (a / 64) h = false) ∧
        (∀ b, (∀ e ∈ exts, b ≠ e.base.toNat) → mget m.extents b = mget s.extents b ∧
          ∀ a, a / 2 ^ 28 = b → readMem m.mem.bytes a = readMem s.mem.bytes a) ∧ Only [.extents, .mem, .coh, .wire, .lds] s m) ∧
    (delegated s = true → exts ≠ [] → addOk s exts = false → (∀ e ∈ exts, grantedAt s e.base = false) →
      exec (.addDynamicCapacity src exts) s = .next (send s (.fmAnswer false))) ∧
    (delegated s = false ∨ (∃ e ∈ exts, grantedAt s e.base = true) → ∃ op,
      exec (.addDynamicCapacity src exts) s =
        .next (send (event s 0x3002 1 0xFF 0xFF [(1, fmCode src), (2, op)] .steward) (.fmAnswer false)))) ∧
  (∀ (s : State) (p : Place) (base : BitVec 15) (n : Nat) (e : Extent), seatOf s p = some n →
    mget s.extents base.toNat = some e → (∃ x ∈ e.seats, x.seat = n ∧ x.accepted = false) →
    let e' := { e with seats := e.seats.map fun x => if x.seat = n then { x with accepted := true } else x }
    exec (.addDynamicCapacityResponse p base true) s = .next (capCheck { s with extents := mput s.extents base.toNat e' }) ∧
    exec (.addDynamicCapacityResponse p base false) s = .next (dropExtent s n base.toNat)) ∧
  (∀ (s : State) (n b : Nat) (e : Extent), Sound s → KeysRise s.extents → mget s.extents b = some e → (∃ x ∈ e.seats, x.seat = n) →
    let left := e.seats.filter fun x => x.seat != n
    ∃ m, dropExtent s n b = (if left = [] then mediaFreed m else capCheck m) ∧
      mget m.extents b = (if left = [] then none else some { e with seats := left }) ∧
      (left = [] → ∀ a, a / 2 ^ 28 = b → readMem m.mem.bytes a = 0) ∧ (left ≠ [] → Only [.extents] s m) ∧
      (∀ k, k ≠ b → mget m.extents k = mget s.extents k) ∧ (∀ a, a / 2 ^ 28 ≠ b → readMem m.mem.bytes a = readMem s.mem.bytes a)) ∧
  (∀ (s : State) (p : Place) (n : Nat) (b : BitVec 15) (l : List (BitVec 15)), seatOf s p = some n →
    (heldLines s n b.toNat = [] → exec (.releaseDynamicCapacity p [b]) s = .next (dropExtent s n b.toNat)) ∧
    (∀ m, exec (.releaseDynamicCapacity p [b]) s = .next m → seatOf m p = some n →
      exec (.releaseDynamicCapacity p (b :: l)) s = exec (.releaseDynamicCapacity p l) m) ∧
    exec (.releaseDynamicCapacity p []) s = .next s) ∧
  (∀ (s : State) (src : FmSource) (seat : BitVec 6) (bases : List (BitVec 15)), KeysRise s.extents → delegated s = true →
    (∀ b ∈ bases, grantedAt s b = false) →
    ∃ m, exec (.forcedRelease src seat bases) s = .next m ∧ m.wire.head? = some (.fmAnswer true) ∧
      ∀ b ∈ bases, (∀ e, mget m.extents b.toNat = some e → ∀ x ∈ e.seats, x.seat ≠ seat.toNat) ∧
        ∀ e, mget s.extents b.toNat = some e → (∃ x ∈ e.seats, x.seat = seat.toNat) → .dcEvent seat.toNat 2 b.toNat ∈ m.wire)

/-- Windows halve counts, cold pages become candidates, moves and compression change a page's form and never what it reads
(R214, R215, R216, R218, R224, R226, R349) -/
def Obligations.PagesChangeForm : Prop :=
  ∀ (s : State) (hub : BitVec 1) (page : BitVec 31),
    let h := hub.toNat
    let n := page.toNat
    let p := pageAtHub s n h
    let same (m : State) : Prop := SameReadsBut s m 0 0 ∧ m.tables = s.tables ∧ m.rings = s.rings ∧ m.extents = s.extents
    Sound s → Calm s → halted s h = false → s.tally.therm < 3 →
    (∃ m, exec (.tierWindow hub) s = .next m ∧ (∀ q : Nat, (pageAtHub m q h).count = (pageAtHub s q h).count >>> 1 ∧
        (pageAtHub m q h).st = (pageAtHub s q h).st ∧ (pageAtHub m q h).hot = (pageAtHub s q h).hot) ∧
      (∀ q k, k < 2 → k ≠ h → pageAtHub m q k = pageAtHub s q k) ∧ m.mem.bytes = s.mem.bytes ∧ same m) ∧
    (tierEn s h = true → p.st = .plain → pagePolicy s n = some 0 → p.retryTb ≤ s.clock.tb →
      ∃ m, exec (.pageColdAge hub page) s = .next m ∧ (pageAtHub m n h).cold = true ∧ (pageAtHub m n h).st = .plain ∧
        ((pageAtHub m n h).move = p.move ∨ (pageAtHub m n h).move = some .compress) ∧
        (∀ k, k ≠ hkey n h → mget m.mem.pages k = mget s.mem.pages k) ∧ m.mem.bytes = s.mem.bytes ∧ same m) ∧
    (∀ k, p.move = some k → k ≠ .compress →
      (pageAdmit s h false (switchCost s k) = false → exec (.pageMigrationSwitch hub page) s = .next s) ∧
      (pageAdmit s h false (switchCost s k) = true →
        ∃ m, exec (.pageMigrationSwitch hub page) s = .next m ∧ (pageAtHub m n h).move = none ∧ same m ∧
          (k = .promote → (hotPages s h).length < 32256 → (pageAtHub m n h).hot = true) ∧
          (k = .demote → (pageAtHub m n h).hot = false) ∧
          (k = .unpack → ∀ c, p.st = .packed c → mediaShort s h (8 - c) = false → (pageAtHub m n h).st = .plain))) ∧
    (∀ size : BitVec 13, p.st = .plain → p.move = some .compress →
      (3584 < size.toNat → ∃ m, exec (.pageCompression hub page size) s = .next m ∧
        pageAtHub m n h = { p with move := none, cold := false, retryTb := s.clock.tb + 4 * tierReg s h 0x4C * 32768 } ∧
        m.mem.bytes = s.mem.bytes ∧ same m ∧ Only [.mem, .coh] s m) ∧
      (size.toNat ≤ 3584 → ∃ m, exec (.pageCompression hub page size) s = .next (mediaFreed m) ∧
        pageAtHub m n h = { p with st := .packed (max 1 ((size.toNat + 511) / 512)), move := none, cold := false, reads := 0 } ∧
        (∀ k, k ≠ hkey n h → mget m.mem.pages k = mget s.mem.pages k) ∧ same m ∧ Only [.mem, .coh] s m)) ∧
    (let w := s.mem.held.getD h []
     let m := flushAll (retryHub h w.length (wakeHub s h))
     w ≠ [] → exec (.mediaWaitExpire hub) s = .next (if (m.mem.held.getD h []).length < w.length ∨ heldShort m h = false then m
      else harvestCause m h 0x300D h [(4, capU m), (4, capP m)]))

/-- Links train and are lost, logical devices are bound and unbound, CXL.mem is enabled, decoders commit and event logs are
cleared (R188, R191, R193, R194, R196, R199, R233, R302, R305, R19, R197) -/
def Obligations.LinksAndBinding : Prop :=
  (∀ (s : State) (port : BitVec 3) (l : BitVec 2) (rate : BitVec 3) (width : BitVec 5) (cxl sw flit : Bool)
      (pid : Option (BitVec 12)) (x : Port),
    let split := splitOf x.bifMode
    s.ports[port.toNat]? = some x → x.links.length = 4 → portTrains s port.toNat = true → l.toNat < split.1 →
    width.toNat ∈ [1, 2, 4, 8, 16] → width.toNat ≤ split.2 → 2 ≤ rate.toNat → rate.toNat ≤ 5 → (link s port.toNat l.toNat).up = false →
    ∃ m, link m port.toNat l.toNat =
        { link s port.toNat l.toNat with
          up := true, rate := rate, width := width, cxl := cxl, sw := sw, pwr := .l0, flit256 := flit || rate == 5, pid := pid } ∧
      Only [.ports] s m ∧ exec (.hostLinkTraining port l rate width cxl ⟨sw, flit, pid⟩) s = .next (if cxl then
        (if sw then m else directLd m port.toNat l.toNat)
      else event m 0x3001 1 0xFF 0xFF [(2, (placeOf port.toNat l.toNat 0).toNat)] .steward)) ∧
  (∀ (s : State) (port l : Nat), port < 6 → l < 4 →
    (∀ k, 1 ≤ k → k < 16 → (ld (directLd s port l) (placeOf port l k)).bound = false) ∧
    ((∀ k, 1 ≤ k → k < 16 → (ld s (placeOf port l k)).bound = false) → directLd s port l =
      if (ld s (placeOf port l 0)).bound = true ∨ portBound s port < 16
        then modLd s (placeOf port l 0) fun x => { x with bound := true } else s)) ∧
  (∀ (s : State) (port : BitVec 3) (l : BitVec 2) (c : Instr), c = .hostLinkDown port l ∨ c = .ideCheckFail port l →
    (link s port.toNat l.toNat).up = true →
    ∃ m, link m port.toNat l.toNat = { link s port.toNat l.toNat with up := false, downTb := s.clock.tb } ∧ Only [.ports] s m ∧
      exec c s = .next ((linkSeats s port.toNat l.toNat).foldl (fun s n => departSeat s n fun _ => true) m)) ∧
  (∀ (s : State) (line hub seat : Nat), mget s.coh.txns (hkey line hub) = none → mget s.coh.txns (hkey line (1 - hub)) = none →
    departLine s line hub seat = filtRemove (if heldA s line hub = true ∧ seat ∈ holders s line hub
      then setPoison s line hub else s) line hub seat) ∧
  (∀ (s : State) (p : Place) (stream : BitVec 3) (key : BitVec 256) (skid : Bool), wireUp s p = true →
    (ld s p).spdm.secure = true → stream.toNat ≤ 4 → exec (.ideKeyManagement p stream ⟨key, skid⟩) s =
      .next (modLink s (portOf p) (linkOf p) fun l => { l with ide := mput l.ide stream.toNat ⟨key, skid⟩ })) ∧
  (∀ (s : State) (src : FmSource) (p : Place), delegated s = true →
    (placeOk s p = true → (link s (portOf p) (linkOf p)).up = true → (link s (portOf p) (linkOf p)).cxl = true →
      (link s (portOf p) (linkOf p)).sw = true → (ld s p).bound = false → portBound s (portOf p) < 16 → s.seats.length < 64 →
      exec (.mldPortBind src p) s = .next (send (attachIf (modLd s p fun l => { l with bound := true }) p) (.fmAnswer true))) ∧
    ((∃ n, seatOf s p = some n ∧ grantedTo s n = true) → exec (.mldPortUnbind src p) s = .next (fmRefuse s src 0x5202)) ∧
    ((ld s p).bound = true → (link s (portOf p) (linkOf p)).sw = true → (∀ n, seatOf s p = some n → grantedTo s n = false) →
      let m := modLd s p fun l => { l with bound := false, memEn := false }
      exec (.mldPortUnbind src p) s = .next (send (match seatOf s p with
        | some n => beginDetach m n 1
        | none => m) (.fmAnswer true)))) ∧
  (∀ (s : State) (p : Place), placeUp s p = true →
    ((link s (portOf p) (linkOf p)).cxl = true → (ld s p).bound = true →
      exec (.cxlMemEnableSet p) s = .next (attachIf (modLd s p fun l => { l with memEn := true }) p)) ∧
    ((ld s p).memEn = true →
      let m := modLd s p fun l => { l with memEn := false }
      exec (.cxlMemEnableClear p) s = .next (match seatOf s p with
        | some n => beginDetach m n 0
        | none => m))) ∧
  (∀ (s : State) (p : Place) (n : Nat), started s = true → (ld s p).bound = true → (ld s p).memEn = true → placeUp s p = true →
    (link s (portOf p) (linkOf p)).cxl = true → (ld s p).seat = none → n < 64 → mget s.seats n = none →
    (∀ k < n, mhas s.seats k = true) →
    ∃ m, attachIf s p = bootExtents (event m 0x6001 0 0xFF n [(2, p.toNat)] .steward) p n ∧ seatOf m p = some n ∧
      mget m.seats n = some (seatNew p) ∧ (∀ k, k ≠ n → mget m.seats k = mget s.seats k) ∧ Only [.seats, .lds, .regs] s m) ∧
  (∀ (s : State) (p : Place) (idx : BitVec 3) (set : HdmSetting), (ld s p).bound = true → placeUp s p = true →
    (link s (portOf p) (linkOf p)).cxl = true → exec (.hdmDecoderCommit p idx set) s = .next (modLd s p fun l =>
      { l with decoders := l.decoders.set idx.toNat (if hdmOk s p idx.toNat set then ⟨some set, false⟩ else ⟨none, true⟩) })) ∧
  (∀ (s : State) (p : Place) (log : BitVec 2) (n : BitVec 7), (ld s p).bound = true → placeUp s p = true → (ld s p).logs.length = 4 →
    ∃ m, exec (.clearEventRecords p log n) s = .next m ∧ Only [.lds] s m ∧ (∀ q, q ≠ p → ld m q = ld s q) ∧
      (ld m p).logs.getD log.toNat [] = ((ld s p).logs.getD log.toNat []).drop n.toNat ∧
      (∀ k, k ≠ log.toNat → (ld m p).logs.getD k [] = (ld s p).logs.getD k []))

/-- A guarded register's complement arrives from a logical device that may write the page, whose die is awake with no write of the device
waiting (R394), and matches its pending write of word v: the same mask, the inverse data (R390). -/
def TakesEffect (s : State) (p : Place) (a : Nat) (w v : Word32) : Prop :=
  (∃ pg, lookup s p a = some (a, pg, .write) ∧ (guardAt pg.ty (a % 4096)).isSome = true) ∧ writeWaits s p a = false ∧
    mget s.regs.guards (ldKey p (pageBase a)) = some ⟨a, v⟩ ∧ maskOf v ≠ 0 ∧ maskOf w = maskOf v ∧ dataOf w = ~~~(dataOf v)

/-- A row with one bit of its data, mask, valid bit, check or near data wrong (kinds 1 to 5 of Table 7.5). -/
def flipped (kind word bit : Nat) (r : Row) : Row :=
  match kind with
  | 1 => { r with data := r.data ^^^ BitVec.ofNat 80 (2 ^ (16 * word + bit)) }
  | 2 => { r with mask := r.mask ^^^ BitVec.ofNat 80 (2 ^ (16 * word + bit)) }
  | 3 => { r with valid := !r.valid }
  | 4 => { r with check := r.check ^^^ BitVec.ofNat 16 (2 ^ bit) }
  | _ => { r with near := r.near ^^^ BitVec.ofNat 64 (2 ^ nearBit word bit) }

/-- An injection that takes effect with GO damages the target of its kind, or sets INJ.STAT where there is none (R291, R292,
R390, Table 7.5) -/
def Obligations.InjectionsDamageTheirTargets : Prop :=
  (∀ (s : State) (p : Place) (die : BitVec 3) (w v : Word32) (c : Instr),
    let d := die.toNat
    let a := injPage d + 0x800
    let x := maskedWrite v 0xFFFF (reg s a)
    c ∈ [.injRowData p die w, .injRowMask p die w, .injRowValid p die w, .injRowCheck p die w, .injNearData p die w,
      .injSluiceTag p die w, .injSramLine p die w, .injDirtyTwins p die w, .injDirectory p die w, .injDramOneDevice p die w,
      .injDramTwoDevices p die w, .injPoison p die w, .injShadowRecord p die w] →
    TakesEffect s p a w v → x.getLsbD 0 = true →
    ∃ t, exec c s = .next (inject t d (bits x 7 4) (bits x 15 13) (bits x 12 8) (bits x 3 1) (regWide s (injPage d + 0x40) 3)) ∧
      reg t a = x &&& 0xFFFE ∧ (∀ k, 2 ≤ k → (frond t k).arr = (frond s k).arr) ∧ t.coh = s.coh ∧ t.mem = s.mem ∧
      t.tables = s.tables) ∧
  (∀ (s : State) (die kind word bit count target : Nat), 0 < count →
    let row := target % 4194304
    let m := inject s die kind word bit count target
    (2 ≤ die → die - 2 < s.fronds.length →
      (kind ∈ [1, 2, 3, 4, 5] → word ≤ (if kind ≤ 2 then 4 else if kind ≤ 4 then 7 else 3) →
        bit ≤ (if kind = 3 then 31 else 15) → row + count ≤ 4194304 →
        (∀ i < count, rowAt m die (row + i) = flipped kind word bit (rowAt s die (row + i)) ∧
          mhas (frond m die).arr.injected (row + i) = true) ∧
        SameRowsBut s m [die] ((List.range count).map (row + ·)) ∧ Only [.fronds] s m) ∧
      (kind = 6 → word ≤ 1 → bit ≤ 15 → row / 8192 + count ≤ 512 →
        (∀ i < count, tagOf m die (row / 8192 + i) =
          let g := tagOf s die (row / 8192 + i)
          let b := BitVec.ofNat 16 (2 ^ bit)
          if word = 0 then (g.1 ^^^ b, g.2) else (g.1, g.2 ^^^ b)) ∧
        (∀ r, rowAt m die r = rowAt s die r) ∧ Only [.fronds] s m)) ∧
    (∀ d, kind = 13 → die < 2 → word ≤ 7 → bit ≤ 9 → shadowDie s die target = some d → 2 ≤ d → d - 2 < s.fronds.length →
      row + count ≤ 4194304 →
      (∀ i < count, shadowAt m d (row + i) = { shadowAt s d (row + i) with lost := true, injected := true }) ∧
      (∀ r, rowAt m d r = rowAt s d r) ∧ Only [.fronds] s m) ∧
    (kind ∈ [7, 8, 9, 10, 11, 12] → kind ≤ 8 ∨ die < 2 → word ≤ (if kind ≤ 8 then 1 else 7) →
      bit ≤ (if kind ≤ 8 ∨ kind = 12 then 31 else if kind = 9 then 15 else 9) →
      m = (List.range count).foldl 
        (fun s i => (injLine s die kind word bit target (target % 2 ^ 43 / 64 + i)).getD (orReg s (injPage die + 0xC) 1)) s) ∧
    (injKind kind = none → m = orReg s (injPage die + 0xC) 2)) ∧
  (∀ (s : State) (die line word bit target : Nat),
    let inj (kind : Nat) : Option State := injLine s die kind word bit target line
    let b := 64 * (target / 8 % 8) + 32 * (word % 2) + bit
    let flip (l : List Nat) (x : Nat) : List Nat := if x ∈ l then l.filter (· != x) else x :: l
    KeysRise s.coh.damage →
    (∀ hub a dirty, sramCopy s die line = some (hub, a, dirty) →
      let old := (mget s.coh.damage (copyKey line hub a)).getD ([], [])
      let left (d : List Nat × List Nat) : Option (List Nat × List Nat) := if d = ([], []) then none else some d
      (∃ m, inj 7 = some m ∧ mget m.coh.damage (copyKey line hub a) = left (flip old.1 b, old.2) ∧ Only [.coh] s m) ∧
      (dirty = true → ∃ m, inj 8 = some m ∧ mget m.coh.damage (copyKey line hub a) = left (flip old.1 b, flip old.2 b) ∧
        Only [.coh] s m) ∧
      (dirty = false → inj 8 = none)) ∧
    (sramCopy s die line = none → inj 7 = none ∧ inj 8 = none) ∧
    (∀ e, mget s.coh.dir (hkey line die) = some e → ∃ m, inj 9 = some m ∧
      (let f := flip e.flips (16 * word + bit)
       mget m.coh.dir (hkey line die) = some { e with flips := f, bad := !f.isEmpty }) ∧ Only [.coh] s m) ∧
    (mget s.coh.dir (hkey line die) = none → inj 9 = none) ∧
    (die ∈ homes s line → (∀ kind ∈ [10, 11], ∃ m e, inj kind = some m ∧ mget m.mem.damage (hkey line die) = some e ∧
        e.armed = ((mget s.mem.damage (hkey line die)).map fun x => x.armed).getD 0 ||| BitVec.ofNat 10 (2 ^ bit) |||
          (if kind = 11 then BitVec.ofNat 10 (2 ^ ((bit + 1) % 10)) else 0) ∧
        e.present = ((mget s.mem.damage (hkey line die)).map fun x => x.present).getD 0 ∧
        m.mem.bytes = s.mem.bytes ∧ Only [.mem] s m) ∧
      ∃ m, inj 12 = some m ∧ poisonedAt m line die = true ∧ Only [.mem] s m) ∧
    (die ∉ homes s line → ∀ kind ∈ [10, 11, 12], inj kind = none))

/-- A scrub slot reads eight rows and moves on, starting repairs; a patrol read mends, counts or poisons what it meets (R272,
R276, R277, R280, R293, R294) -/
def Obligations.ScrubbersReadInTurn : Prop :=
  (∀ (s : State) (die : BitVec 3),
    let d := die.toNat
    let pos := (frond s d).scrubPos
    frondServes s d = true → awake s d = true → d - 2 < s.fronds.length → (frond s d).arr.scrubReq = [] → pos % 8 = 0 →
    (frond s d).arr.tagBad = [] →
    (∀ pan, logicalPan s d (pos / 8192) = some pan → ∀ i < 8, let r := rowIndex pan (pos % 8192 + i)
      rowGood d r (rowAt s d r) = true ∧ nearGood d r (rowAt s d r) = true ∧ (rowAt s d r).ppar = true ∧
        (rowAt s d r).prio = prioOf (rowAt s d r).near ∧ validSplit s d r = false) →
    ∃ m, exec (.scrubSlot die) s = .next m ∧ (∀ r, rowAt m d r = rowAt s d r) ∧
      (frond m d).scrubPos = (if pos + 8 < 4456448 then pos + 8 else 0) ∧ (∀ k, 2 ≤ k → k ≠ d → frond m k = frond s k) ∧
      m.tables = s.tables ∧ m.mem = s.mem ∧ m.coh = s.coh ∧ m.rings = s.rings) ∧
  (∀ (s : State) (d row : Nat), 2 ≤ d → d - 2 < s.fronds.length → rowGood d row (rowAt s d row) = false →
    underRepair s d (firstRow s d row) = false → 0 < rowsAt s d row →
    let m := checkRow s d row
    underRepair m d (firstRow s d row) = true ∧
      (∀ r ∈ entryRows (firstRow s d row) (rowsAt s d row), (rowAt m d r).valid = false ∧ (rowAt m d r).data = (rowAt s d r).data) ∧
      SameRowsBut s m [d] (entryRows (firstRow s d row) (rowsAt s d row)) ∧ Only [.fronds] s m) ∧
  (∀ (s : State) (hub : BitVec 1) (ecc : Ecc) (coord : BitVec 48),
    let h := hub.toNat
    (3 ≤ s.tally.therm ∨ patrolDue s h = false → ∀ t, exec (.patrolScrub hub t ecc coord) s = .next s) ∧
    (hubServes s h = true → started s = true → s.tally.therm < 3 → patrolDue s h = true →
    (∀ line : BitVec 37, let l := line.toNat
      h ∈ homes s l → mediaStale s l h = false → mediaError s l h = 0 →
      ∃ m, exec (.patrolScrub hub (.line line) ecc coord) s = .next m ∧ (ecc = .good → m.mem = { s.mem with patrol := m.mem.patrol } ∧
          Only [.mem, .tally, .regs] s m) ∧
        (ecc = .corrected → m.life.now.dramCe = bump s.life.now.dramCe (rankIndex h coord) 1 ∧ m.mem.poison = s.mem.poison) ∧
        (ecc = .uncorrectable → inPair s = false → poisonedAt m l h = true) ∧ m.tables = s.tables ∧ m.rings = s.rings) ∧
    (∀ page : BitVec 31, ecc = .uncorrectable → ∃ m, exec (.patrolScrub hub (.pageMap page) ecc coord) s = .next m ∧
      (∀ i < 64, poisonedAt m (64 * page.toNat + i) h = true) ∧ (pageAtHub m page.toNat h).st = .plain) ∧
    (∀ (die : BitVec 3) (row : BitVec 22), let d := die.toNat
      let r := row.toNat
      present s d = true → 2 ≤ d → d - 2 < s.fronds.length → halfOf d = h → ecc = .uncorrectable → arrayGood s d r = true →
      recordGood (shadowAt s d (lineMate r)) = true →
      ∃ m, exec (.patrolScrub hub (.shadow die row) ecc coord) s = .next m ∧ recordGood (shadowAt m d r) = true ∧
        (shadowAt m d r).data = (rowAt s d r).data ∧ (shadowAt m d r).mask = (rowAt s d r).mask ∧
        (shadowAt m d r).near = (rowAt s d r).near ∧ ∀ k, rowAt m d k = rowAt s d k) ∧
    (ecc = .uncorrectable → h < s.harvest.length → (harvestOf s h).held = true →
      ∃ m, exec (.patrolScrub hub .harvest ecc coord) s = .next m ∧ (harvestOf m h).partly = true ∧ (harvestOf m h).held = true)))

/-- Fence and retire take the lowest spare, OP 3 makes a pan dead, and MEMRET takes a DRAM row's pages from the capacity (R58,
R295, R296, R297, R299, R300) -/
def Obligations.PansAndRowsAreRetired : Prop :=
  (∀ (s : State) (p : Place) (die : BitVec 3) (w v : Word32) (c : Instr),
    let d := die.toNat
    let a := diePage d 0x22 + 0x800
    let x := maskedWrite v 0xC3FF (reg s a)
    let op := bits x 15 14
    let pan := bits x 8 0
    c ∈ [.repairFence p die w, .repairRetire p die w, .repairRetireNoSpare p die w] → TakesEffect s p a w v → 2 ≤ d →
    d - 2 < s.fronds.length → (frond s d).panOp = none →
    ∃ m, exec c s = .next m ∧ (∀ r, op ≠ 3 → rowAt m d r = rowAt s d r) ∧ m.tables = s.tables ∧ m.mem = s.mem ∧
      (∀ sp, op = 1 ∨ op = 2 → spareOf s d pan = some sp →
        (frond m d).panOp = some { op := op, pan := pan, old := physPan s d pan, spare := sp, switched := false } ∧
        reg m (diePage d 0x22 + 0xC) = 1) ∧
      (op = 1 ∨ op = 2 → spareOf s d pan = none → (frond m d).panOp = none ∧ reg m (diePage d 0x22 + 0xC) = 4) ∧
      (op = 3 → x.getLsbD 9 = true ∨ validEntries s d pan (rowsAt s d (8192 * pan)) = [] → GoodRecords s d →
        panDead m d pan = true ∧ reg m (diePage d 0x22 + 0xC) = 2 ∧
        ∀ f ∈ validEntries s d pan (rowsAt s d (8192 * pan)), ∀ r ∈ entryRows f (rowsAt s d (8192 * pan)), (rowAt m d r).valid = false) ∧
      (op = 3 → x.getLsbD 9 = false → validEntries s d pan (rowsAt s d (8192 * pan)) ≠ [] →
        (∀ r, rowAt m d r = rowAt s d r) ∧ panDead m d pan = panDead s d pan ∧ reg m (diePage d 0x22 + 0xC) = 5)) ∧
  (∀ (s : State) (die : BitVec 3) (o : PanOp),
    let d := die.toNat
    (frond s d).panOp = some o → 2 ≤ d → d - 2 < s.fronds.length →
    (o.switched = false → halted s (halfOf d) = false → GoodRecords s d →
      ∃ m, exec (.panSpareSwitch die) s = .next m ∧ physPan m d o.pan = o.spare ∧ o.spare ∉ (frond m d).arr.spares ∧
        (∀ r, r / 8192 = o.pan → (rowAt m d r).data = (shadowAt s d r).data ∧ (rowAt m d r).mask = (shadowAt s d r).mask ∧
          (rowAt m d r).near = (rowAt s d r).near) ∧ (∀ r, r / 8192 ≠ o.pan → rowAt m d r = rowAt s d r) ∧
        (o.op = 2 → (frond m d).panOp = none ∧ reg m (diePage d 0x22 + 0xC) = 2 ∧
          mget m.life.now.panState (panIndex d o.old) = some 2) ∧
        (o.op = 1 → (frond m d).panOp = some { o with switched := true })) ∧
    (o.switched = true → halted s (halfOf d) = false → ∀ res, ∃ m, exec (.panBistDone die res) s = .next m ∧ (frond m d).panOp = none ∧
      (∀ r, rowAt m d r = rowAt s d r) ∧
      (res = .pass → (frond m d).arr.spares = o.old :: (frond s d).arr.spares ∧ reg m (diePage d 0x22 + 0xC) = 2 ∧
        mget m.life.now.panState (panIndex d o.old) = some 1) ∧
      (res ≠ .pass → (frond m d).arr.spares = (frond s d).arr.spares ∧ reg m (diePage d 0x22 + 0xC) = 6 ∧
        mget m.life.now.panState (panIndex d o.old) = some 2))) ∧
  (∀ (s : State) (p : Place) (die : BitVec 3) (w v : Word32),
    let h := die.toNat
    let a := diePage h 0x14 + 0x800
    let row := BitVec.ofNat 48 (regWide s (diePage h 0x14 + 0x40) 3)
    TakesEffect s p a w v → (maskedWrite v 1 (reg s a)).getLsbD 0 = true → h < s.mem.retiring.length →
    s.mem.retiring.getD h none = none →
    ∃ m, exec (.memretGo p die w) s = .next m ∧ m.mem.bytes = s.mem.bytes ∧ m.fronds = s.fronds ∧
      (rowInstalled s h row = true → (s.store.retired.getD h []).length < 1024 →
        m.mem.retiring.getD h none = some row ∧ reg m (diePage h 0x14 + 0xC) = 1) ∧
      (rowInstalled s h row = false → m.mem = s.mem ∧ reg m (diePage h 0x14 + 0xC) = 3) ∧
      (rowInstalled s h row = true → 1024 ≤ (s.store.retired.getD h []).length → m.mem = s.mem ∧
        reg m (diePage h 0x14 + 0xC) = 4)) ∧
  (∀ (s : State) (hub : BitVec 1) (frames : BitVec 8) (c : BitVec 48),
    let h := hub.toNat
    let n := min frames.toNat 32
    s.mem.retiring.getD h none = some c → halted s h = false → h < s.mem.phys.length → h < s.store.retired.length →
    (∀ x ∈ s.store.retired.getD h [], x.1 ≠ c) →
    ∃ m, exec (.dramRowRetired hub frames) s = .next m ∧ m.mem.retiring.getD h none = none ∧
      m.mem.phys.getD h 0 = s.mem.phys.getD h 0 - n ∧ m.store.retired.getD h [] = s.store.retired.getD h [] ++ [(c, n)] ∧
      (KeysRise s.mem.pages → ∀ n ∈ rowPages s h c, (mget m.mem.moved (hkey n h)).getD 0 = (mget s.mem.moved (hkey n h)).getD 0 + 1) ∧
      reg m (diePage h 0x14 + 0xC) = 2 ∧ m.mem.bytes = s.mem.bytes ∧ m.fronds = s.fronds)

/-- A request of this code waits in a seat's buffer and passes the checks of R318 and R319; its body. -/
structure MailReady (s : State) (n code : Nat) (body : List Nat) : Prop where
  seat : mhas s.seats n = true
  busy : mailBusy s n = true
  buf : mailBufOk s n = true
  near : mailCut s n = false
  quiet : (s.rings.any fun e => e.2.revoke == some n) = false
  req : needRegion s (mailBuf s n) 256 true = none
  resp : needRegion s (mailBuf s n + 256) 256 false = none
  clean : regionPoison s (mailBuf s n) 256 = false
  calm : Calm s
  known : (mailCode code).isSome = true
  names : byteField (mailReq s n) 0 2 = code
  pass : mailCheck s n code (mailReq s n) = none
  body : body = ((mailReq s n).drop 32).take (byteField (mailReq s n) 2 2)

/-- The request commands of a seat's mailbox, with their codes (Table 8.4). -/
def mailRows (seat : BitVec 6) (cmd : FmCmd) : List (Instr × Nat) :=
  [(.sessChallenge seat, 0x01), (.sessOpen seat, 0x02), (.sessClose seat, 0x03), (.secretSet seat, 0x10),
    (.stewardTake seat, 0x18), (.stewardHandover seat, 0x19), (.grant seat, 0x20), (.revoke seat, 0x21), (.seatDetach seat, 0x28),
    (.covenantSet seat, 0x30), (.covenantClear seat, 0x31), (.covenantQuery seat, 0x32), (.keyLoad seat, 0x38),
    (.fmTunnel seat cmd, 0x40), (.tableOwner seat, 0x48)]

/-- A mailbox request that fails a check is refused with its result, and every response stands in the buffer's second half
(R318, R319, Table 8.2, Table 8.3) -/
def Obligations.MailboxAnswersInPlace : Prop :=
  (∀ (s : State) (seat : BitVec 6) (cmd : FmCmd) (c : Instr) (code r : Nat),
    let n := seat.toNat
    (c, code) ∈ mailRows seat cmd → mhas s.seats n = true → mailBusy s n = true → mailBufOk s n = true → mailCut s n = false →
    (s.rings.any fun e => e.2.revoke == some n) = false → needRegion s (mailBuf s n) 256 true = none →
    needRegion s (mailBuf s n + 256) 256 false = none → regionPoison s (mailBuf s n) 256 = false → Calm s →
    byteField (mailReq s n) 0 2 = code → mailCheck s n code (mailReq s n) = some r →
    exec c s = .next (respond s n code r [])) ∧
  (∀ (s : State) (n code result : Nat) (body : List Nat), Sound s → Calm s → code < 65536 → result < 256 →
    (∀ x ∈ body, x < 256) → body.length ≤ 224 → mailBufOk s n = true →
    (∀ k, k < 256 → keyAbsent s (mailBuf s n + 256 + k) = false) → MediaFor s (mailBuf s n + 256) 256 →
    let m := respond s n code result body
    let b := bytesOf 2 code ++ [result, 0] ++ bytesOf 4 body.length ++ List.replicate 24 0 ++ body
    (∀ k < 256, devRead m (mailBuf s n + 256 + k) 1 = b.getD k 0) ∧ SameReadsBut s m (mailBuf s n + 256) 256 ∧
    (reg m (mailStat n)).getLsbD 8 = false ∧ bits (reg m (mailStat n)) 7 0 = result ∧
    (reg m (mgmtPage n + 0x10)).getLsbD 0 = true ∧ Only [.boot, .pkg, .lds, .mem, .coh, .regs, .covs, .life, .log, .wire] s m)

/-- A challenge gives a nonce, a right proof opens a session under its keys, and closing, idling and lockouts end as stated
(R313, R314, R316, R317) -/
def Obligations.SessionsOpenAndEnd : Prop :=
  (∀ (s : State) (seat : BitVec 6) (body : List Nat) (x : Seat),
    let n := seat.toNat
    mget s.seats n = some x → lockedOut s x.place = false →
    (MailReady s n 0x01 body → byteField body 0 1 = 1 →
      ∃ m, exec (.sessChallenge seat) s = .next (respond m n 0x01 mOk (key32 (freeNonce s.freeCtr))) ∧
        mget m.seats n = some { x with nonce := some (freeNonce s.freeCtr, nowNs s) } ∧ m.freeCtr = s.freeCtr + 1 ∧
        (∀ k, k ≠ n → mget m.seats k = mget s.seats k) ∧ Only [.seats, .freeCtr] s m) ∧
    (∀ (nd : BitVec 256) (since k : Nat) (sec : Secret), MailReady s n 0x02 body → secretSlot s x.place = some (k, sec) →
      x.nonce = some (nd, since) → nowNs s ≤ since + 1000000000 →
      let key := key32 sec.secret
      let t := key32 nd ++ body.take 32
      (hmac key (label "LLNO" ++ t ++ [n] ++ bytesOf 2 x.place.toNat) = body.drop 32 →
        ∃ m ss, exec (.sessOpen seat) s = .next (respond m n 0x02 mOk
            (bytesOf 4 ss.handle.toNat ++ hmac key (label "LLND" ++ t ++ bytesOf 4 ss.handle.toNat))) ∧
          mget m.seats n = some { x with nonce := none, session := some ss } ∧ ss.handle.toNat / 67108864 = n ∧ ss.handle ≠ 0 ∧
          ss.km = ofKey32 (hmac key (label "LLNM" ++ t)) ∧ ss.kw = ofKey32 (hmac key (label "LLNW" ++ t)) ∧
          ss.last = s.clock.tb ∧ m.steward.holder = s.steward.holder ∧ Only [.seats, .steward] s m) ∧
      (hmac key (label "LLNO" ++ t ++ [n] ++ bytesOf 2 x.place.toNat) ≠ body.drop 32 →
        ∃ m, exec (.sessOpen seat) s = .next (respond m n 0x02 mAuthFail []) ∧ mget m.seats n = some { x with nonce := none } ∧
          (let l := ((mget s.steward.fails x.place.toNat).getD []).filter fun t => nowNs s < t + 1000000000
           if 7 ≤ l.length then lockedOut m x.place = true else mget m.steward.fails x.place.toNat = some (nowNs s :: l)))) ∧
    (∀ ss, MailReady s n 0x03 body → x.session = some ss → byteField body 0 4 = ss.handle.toNat →
      ∃ m, exec (.sessClose seat) s = .next (respond m n 0x03 mOk []) ∧ mget m.seats n = some { x with session := none } ∧
        Only [.seats, .steward] s m)) ∧
  (∀ (s : State) (seat : BitVec 6) (x : Seat), mget s.seats seat.toNat = some x →
    (∃ m, exec (.sessNonceExpire seat) s = .next m ∧ mget m.seats seat.toNat = some { x with nonce := none } ∧
      (∀ k, k ≠ seat.toNat → mget m.seats k = mget s.seats k) ∧ Only [.seats] s m) ∧
    (∃ m, exec (.sessIdleExpire seat) s = .next m ∧ mget m.seats seat.toNat = some { x with session := none } ∧
      (∀ k, k ≠ seat.toNat → mget m.seats k = mget s.seats k) ∧
      (x.session.isSome = true → s.steward.holder = some seat.toNat → m.steward.idleFrom = nowNs s) ∧
      m.steward.holder = s.steward.holder ∧ Only [.seats, .steward] s m)) ∧
  (∀ (s : State) (p : Place), ∃ m, exec (.sessLockoutEnd p) s = .next m ∧ lockedOut m p = false ∧
    (∀ q, q ≠ p → lockedOut m q = lockedOut s q) ∧ Only [.steward] s m)

/-- Secrets are set and cleared, and the steward role is claimed, taken and handed over (R306, R307, R308, R309, R310, R311,
R312) -/
def Obligations.StewardRoleAndSecrets : Prop :=
  (∀ (s : State) (seat : BitVec 6) (body k : List Nat),
    let n := seat.toNat
    let slot := byteField body 0 1
    let p : Place := BitVec.ofNat 16 (byteField body 2 2)
    MailReady s n 0x10 body → slot ≤ 63 → byteField body 1 1 ≤ 1 → byteField body 44 4 = 0 → placeOk s p = true →
    unwrap s n ((body.drop 4).take 40) = some k → (∀ e ∈ s.store.secrets, e.1 ≠ slot → e.2.place ≠ p) →
    ∃ m, exec (.secretSet seat) s = .next (respond m n 0x10 mOk []) ∧
      mget m.store.secrets slot = some ⟨ofKey32 k, p, byteField body 1 1 % 2 == 1 || slot == 0⟩ ∧
      (∀ j, j ≠ slot → mget m.store.secrets j = mget s.store.secrets j) ∧ Only [.store, .seats, .life] s m) ∧
  (∀ (s : State) (p : Place) (w v : Word32),
    let a := globalPage 3 + 0x800
    let slot := bits (maskedWrite v 0x3F (reg s a)) 5 0
    TakesEffect s p a w v → KeysRise s.store.secrets →
    ∃ m, exec (.seatsSecretClr p w) s = .next m ∧ Only [.store, .regs, .life] s m ∧
      (slot ≠ 0 ∨ (∃ e ∈ s.store.secrets, e.1 ≠ 0 ∧ e.2.steward = true) → mget m.store.secrets slot = none ∧
        ∀ j, j ≠ slot → mget m.store.secrets j = mget s.store.secrets j) ∧
      (slot = 0 → (∀ e ∈ s.store.secrets, e.1 ≠ 0 → e.2.steward = false) → m.store = s.store)) ∧
  (∀ (s : State) (p : Place) (secret : BitVec 256) (n : Nat), placeUp s p = true → (ld s p).spdm.secure = true →
    started s = true → seatOf s p = some n → n < 64 → mhas s.store.secrets 0 = false → secretSlot s p = none → s.steward.holder = none →
    detaching s n = false →
    ∃ t, exec (.stewardClaim p secret) s = .next t ∧ t.steward.holder = some n ∧ t.steward.idleFrom = nowNs s ∧
      mget t.store.secrets 0 = some ⟨secret, p, true⟩ ∧ (∀ j, j ≠ 0 → mget t.store.secrets j = mget s.store.secrets j) ∧
      t.wire.head? = some (.spdm (.doe p) 0xFE 0 []) ∧ t.seats = s.seats ∧ t.rings = s.rings ∧
      (mhas s.extents 0x7FFF = false → s.extents.length + 1 ≤ s.mem.blocks →
        16 * (65536 * (s.extents.length + 1)) ≤ capRatio s * capP s →
        ∃ e, mget t.extents 0x7FFF = some e ∧ e.seats = [⟨n, true, false⟩] ∧ e.db = true ∧ e.key = none)) ∧
  (∀ (s : State) (seat : BitVec 6) (body : List Nat),
    let n := seat.toNat
    let named := byteField body 0 1
    (MailReady s n 0x18 body → eligible s n = true →
      (s.steward.holder = none → named = 0xFF →
        ∃ m, exec (.stewardTake seat) s = .next (respond m n 0x18 mOk []) ∧ m.steward.holder = some n) ∧
      (∀ h, s.steward.holder = some h → named = h → ((mget s.seats h).bind fun x => x.session).isNone = true →
        s.steward.idleFrom + (reg s (globalPage 3 + 0x44)).toNat * 1000000000 ≤ nowNs s →
        ∃ m, exec (.stewardTake seat) s = .next (respond m n 0x18 mOk []) ∧ m.steward.holder = some n)) ∧
    (MailReady s n 0x19 body → named ≤ 63 → mhas s.seats named = true → eligible s named = true → detaching s named = false →
      ∃ m, exec (.stewardHandover seat) s = .next (respond m n 0x19 mOk []) ∧ m.steward.holder = some named ∧
        m.steward.idleFrom = nowNs s)) ∧
  (∀ (s : State) (n how : Nat), let m := setSteward s n how
    m.steward.holder = some n ∧ (∀ e ∈ m.tables, e.2.owner.isSome = true) ∧ (∀ e ∈ m.keys, e.2.owner.isSome = true) ∧
    (∀ j t, mget s.tables j = some t → t.owner.isSome = true → mget m.tables j = some t) ∧ m.seats = s.seats ∧ m.store = s.store)

/-- GRANT and REVOKE give and take rights and rings, KEY_LOAD and KEYS.ZERO fill and empty slots, TABLE_OWNER and FM_TUNNEL
act (R228, R229, R230, R320, R321, R322, R323) -/
def Obligations.GrantsKeysAndOwners : Prop :=
  (∀ (s : State) (seat : BitVec 6) (body : List Nat),
    let n := seat.toNat
    let who := byteField body 0 1
    let obj := byteField body 2 2
    let right := byteField body 4 1
    (MailReady s n 0x20 body → grantCheck s body false = none →
      (∀ t, byteField body 1 1 = 1 → tableIn s obj = some t →
        let old := (mget t.rights who).getD (false, false)
        ∃ m, exec (.grant seat) s = .next (respond m n 0x20 mOk []) ∧ mget m.tables obj =
            some { t with rights := mput t.rights who (old.1 || right % 2 == 1, old.2 || right / 2 % 2 == 1) } ∧
          (∀ j, j ≠ obj → mget m.tables j = mget s.tables j) ∧ Only [.tables, .seats] s m) ∧
      (byteField body 1 1 = 2 → ((mget s.rings obj).bind fun r => r.holder) = none → (seatRings s who).length < 16 →
        (∀ r ∈ seatRings s who, ((mget s.rings r).map fun x => x.index) ≠ some right) →
        ∃ m, exec (.grant seat) s = .next (respond m n 0x20 mOk []) ∧ mget m.rings obj = some (ringNew who right) ∧
          SameRingsBut s m obj ∧ SameRegsBut s m [] ∧ Only [.rings, .regs, .seats] s m)) ∧
    (MailReady s n 0x21 body → grantCheck s body true = none →
      (byteField body 1 1 = 1 → ∃ m t, exec (.revoke seat) s = .next t ∧ Only [.seats] s m ∧
        Only [.tables] (respond m n 0x21 mOk []) t ∧ (∀ j, j ≠ obj → mget t.tables j = mget s.tables j) ∧
        ∀ x r, mget s.tables obj = some x → mget x.rights who = some r → KeysRise x.rights →
          let r' := (r.1 && right % 2 == 0, r.2 && right / 2 % 2 == 0)
          ∃ x', mget t.tables obj = some x' ∧ mget x'.rights who = (if r' = (false, false) then none else some r') ∧
            (∀ k, k ≠ who → mget x'.rights k = mget x.rights k) ∧ x' = { x with rights := x'.rights }) ∧
      (byteField body 1 1 = 2 → ((mget s.rings obj).bind fun r => r.holder) ≠ some who →
        ∃ m, exec (.revoke seat) s = .next (respond m n 0x21 mOk []) ∧ Only [.seats] s m) ∧
      (∀ r, byteField body 1 1 = 2 → mget s.rings obj = some r → r.holder = some who →
        (ringEn s obj = false → r.closing = false → r.subs = [] → r.owed = [] →
          ∃ m, exec (.revoke seat) s = .next (respond m n 0x21 mOk []) ∧
            ((mget m.rings obj).map fun x => (x.holder, x.subs, x.owed)) = some (none, [], []) ∧ SameRingsBut s m obj) ∧
        (ringEn s obj = false → r.closing = true ∨ r.subs ≠ [] ∨ r.owed ≠ [] →
          ∃ m, exec (.revoke seat) s = .next m ∧ mget m.rings obj = some { r with revoke := some n } ∧
            SameRingsBut s m obj ∧ Only [.rings, .seats] s m) ∧
        (ringEn s obj = true → ∃ m q, exec (.revoke seat) s = .next m ∧ ringEn m obj = false ∧ mget m.rings obj = some q ∧
          q = { r with revoke := some n, closing := true, old := q.old } ∧ SameRingsBut s m obj ∧
          Only [.rings, .regs, .seats] s m))) ∧
    (∀ t, MailReady s n 0x48 body → tableIn s (byteField body 0 2) = some t → byteField body 3 1 ≤ 3 → byteField body 20 4 = 0 →
      let owner := byteField body 2 1
      let newc := byteField body 3 1 % 2 == 1
      let newf := byteField body 3 1 / 2 % 2 == 1
      let t1 : Table := { t with cbase := if newc then byteField body 4 8 % 2 ^ 43 else t.cbase,
                                 fbase := if newf then byteField body 12 8 % 2 ^ 43 else t.fbase }
      (newc = true → t.cnt = true) → (newf = true → t.far = true) → owner ≤ 63 → mhas s.seats owner = true →
      regionsOk s t1 owner newc newf = true →
      ∃ m t2, exec (.tableOwner seat) s = .next (respond m n 0x48 mOk []) ∧ mget m.tables (byteField body 0 2) = some t2 ∧
        t2.owner = some owner ∧ t2.cbase = t1.cbase ∧ t2.fbase = t1.fbase ∧ t2.fronds = t.fronds ∧
        (∀ o, t.owner = some o → o ≠ owner → mget t2.rights o = some (true, true)) ∧
        (∀ j, j ≠ byteField body 0 2 → mget m.tables j = mget s.tables j) ∧ Only [.tables, .seats] s m) ∧
    (∀ k, MailReady s n 0x38 body → byteField body 0 2 ≤ 127 → byteField body 2 2 ≤ 63 → byteField body 76 4 = 0 →
      mhas s.seats (byteField body 2 2) = true → unwrap s n ((body.drop 4).take 72) = some k → k.take 32 ≠ k.drop 32 →
      slotBound s (byteField body 0 2) = false →
      ∃ m, exec (.keyLoad seat) s = .next (respond m n 0x38 mOk []) ∧ mget m.keys (byteField body 0 2) =
          some ⟨BitVec.ofNat 512 (ofBytes (k.take 32) * 2 ^ 256 + ofBytes (k.drop 32)), some (byteField body 2 2)⟩ ∧
        (∀ j, j ≠ byteField body 0 2 → mget m.keys j = mget s.keys j) ∧ Only [.keys, .seats] s m) ∧
    (∀ cmd, MailReady s n 0x40 body → ∃ m t ok, Only [.seats] s m ∧ exec (.fmTunnel seat cmd) s = .next t ∧
      t.wire.head? = some (.fmAnswer ok) ∧
      (let m1 := respond m n 0x40 mOk []
       (∀ exts, cmd = .add exts → (ok = true ↔ exts = [] ∨ addOk m1 exts = true) ∧ (ok = false → Only [.wire] m1 t) ∧
         (ok = true → ∀ e ∈ exts, ((mget t.extents e.base.toNat).map fun x => x.granted) = some true)) ∧
       (∀ who bases forced, cmd = .release who bases forced → ok = true) ∧
       (∀ p, cmd = .bind p → (ok = true ↔ placeOk m1 p = true ∧ (link m1 (portOf p) (linkOf p)).up = true ∧
         (link m1 (portOf p) (linkOf p)).cxl = true ∧ (link m1 (portOf p) (linkOf p)).sw = true ∧ (ld m1 p).bound = false ∧
         portBound m1 (portOf p) < 16 ∧ m1.seats.length < 64) ∧ (ok = true → (ld t p).bound = true)) ∧
       (∀ p, cmd = .unbind p → (ok = true → (ld t p).bound = false))))) ∧
  (∀ (s : State) (p : Place) (w v : Word32) (c : Instr),
    let a := globalPage 6 + 0x800
    let x := maskedWrite v 0x80FF (reg s a)
    c = .keysZeroSlot p w ∨ c = .keysZeroAll p w → TakesEffect s p a w v → KeysRise s.keys →
    ∃ m, exec c s = .next m ∧ Only [.keys, .regs] s m ∧ (x.getLsbD 15 = true → m.keys = []) ∧
      (x.getLsbD 15 = false → x.getLsbD 7 = true → mget m.keys (bits x 6 0) = none ∧
        ∀ j, j ≠ bits x 6 0 → mget m.keys j = mget s.keys j) ∧ (x.getLsbD 15 = false → x.getLsbD 7 = false → m.keys = s.keys))

/-- A detach ends the session, drains, asks lines back, and leaves nothing of the seat (R305, R306, R316) -/
def Obligations.SeatsDetachInOrder : Prop :=
  (∀ (s : State) (seat : BitVec 6) (body : List Nat), MailReady s seat.toNat 0x28 body → byteField body 0 1 ≤ 63 →
    mhas s.seats (byteField body 0 1) = true →
    ∃ m t, exec (.seatDetach seat) s = .next t ∧ t = beginDetach (respond m seat.toNat 0x28 mOk []) (byteField body 0 1) 2 ∧
      Only [.seats] s m ∧ (∀ k, (mget m.seats k).map (fun x => (x.place, x.detach)) = (mget s.seats k).map fun x => (x.place, x.detach)) ∧
      ∃ y, mget t.seats (byteField body 0 1) = some y ∧ y.detach ≠ .none) ∧
  (∀ (s : State) (seat : BitVec 6) (x : Seat), mget s.seats seat.toNat = some x → placeUp s x.place = false →
    exec (.seatLinkGraceExpire seat) s = .next (beginDetach s seat.toNat 3)) ∧
  (∀ (s : State) (n cause : Nat) (x : Seat), mget s.seats n = some x →
    (x.detach ≠ .none → beginDetach s n cause = s) ∧
    (x.detach = .none → ∃ y, mget (beginDetach s n cause).seats n = some y ∧ y.detach = .draining ∧
      y.cause = BitVec.ofNat 8 cause ∧ y.session = none ∧ y.nonce = none ∧ y.place = x.place ∧
      y.surprise = !placeUp s x.place)) ∧
  (∀ (s : State) (seat : BitVec 6) (x : Seat),
    let n := seat.toNat
    mget s.seats n = some x → x.detach = .draining → mailBusy s n = false → (∀ e ∈ s.searches, e.2.seat ≠ n ∨ e.2.ended = true) →
    (∀ r ∈ seatRings s n, ∃ q, mget s.rings r = some q ∧ q.subs = [] ∧ q.owed = [] ∧ q.sqTail = q.sqHead ∧
      ∀ k, q.stopped ≠ some (k + 1)) →
    ∃ m, mget m.seats n = some { x with detach := .snooping, left := [] } ∧ Only [.seats] s m ∧
      (x.surprise = false → placeUp s x.place = true → exec (.detachDrainDone seat) s = .next (snoopSeat m n)) ∧
      (x.surprise = true ∨ placeUp s x.place = false → exec (.detachDrainDone seat) s = .next (departSeat m n fun _ => true))) ∧
  (∀ (s : State) (seat : BitVec 6) (x : Seat),
    let n := seat.toNat
    mget s.seats n = some x → x.detach = .snooping → (s.rings.any fun e => e.2.revoke == some n) = false →
    (∀ r ∈ seatRings s n, ∃ q, mget s.rings r = some q ∧ q.owed = [] ∧ q.sqTail = q.sqHead ∧ ∀ u ∈ q.subs, isMove s u = true) →
    seatClean s n = true → KeysRise s.seats → KeysRise s.rings → KeysRise s.extents → KeysRise s.covs →
    s.steward.holder ≠ some n →
    ∃ m, exec (.detachFinish seat) s = .next m ∧ mget m.seats n = none ∧ (∀ k, k ≠ n → mhas m.seats k = mhas s.seats k) ∧
      seatRings m n = [] ∧ (∀ e ∈ m.extents, ∀ y ∈ e.2.seats, y.seat ≠ n) ∧ m.steward.holder = s.steward.holder ∧
      (∀ e ∈ m.tables, e.2.owner ≠ some n) ∧ (∀ e ∈ m.keys, e.2.owner ≠ some n) ∧ (∀ e ∈ m.covs, e.2.seat ≠ n) ∧
      seatOf m x.place = none)

/-- COVENANT_SET admits what the limits allow, CLEAR removes, QUERY returns the breach state, and a breach ends by its event
(R325, R326, R327, R332, R333, Table 8.6, Table 8.8) -/
def Obligations.CovenantsAreSetAndCleared : Prop :=
  (∀ (s : State) (seat : BitVec 6) (body : List Nat),
    let n := seat.toNat
    let id := byteField body 0 1
    let c := covOf body
    MailReady s n 0x30 body → covFields s id c (byteField body 6 2) = none →
      (c.kind = 1 → ∃ m, exec (.covenantSet seat) s = .next (respond m n 0x30 mOk []) ∧
        (mget m.covs id).map (fun x => (x.prio, x.kind)) = some (c.prio, ((mget s.covs id).getD (capCov c.seat)).kind)) ∧
      (∀ o, c.kind ≠ 1 → mget s.covs id = some o →
        (o.kind, o.seat, o.object, o.amount) = (c.kind, c.seat, c.object, c.amount) →
        ∃ m, exec (.covenantSet seat) s = .next (respond m n 0x30 mOk []) ∧ mget m.covs id = some { o with prio := c.prio } ∧
          (∀ k, k ≠ id → mget m.covs k = mget s.covs k) ∧ Only [.covs, .seats] s m) ∧
      (c.kind ≠ 1 → (∀ o, mget s.covs id = some o →
          (o.kind, o.seat, o.object, o.amount) ≠ (c.kind, c.seat, c.object, c.amount)) →
        (c.kind ∈ [2, 3, 5] → tableIn s c.object = none → exec (.covenantSet seat) s = .next (respond s n 0x30 mBadRequest [])) ∧
        (c.kind ∈ [2, 3, 5] → (tableIn s c.object).isSome = true) →
          (drawsBreach s id c = true → exec (.covenantSet seat) s = .next (respond s n 0x30 mCovInBreach [])) ∧
          (drawsBreach s id c = false → covAdmits { s with covs := mput s.covs id c } c = false →
            exec (.covenantSet seat) s = .next (respond s n 0x30 mCovRefused [])) ∧
          (drawsBreach s id c = false → covAdmits { s with covs := mput s.covs id c } c = true → KeysRise s.covs →
            ∃ m x, exec (.covenantSet seat) s = .next (respond m n 0x30 mOk []) ∧ mget m.covs id = some x ∧
              (x.kind, x.seat, x.prio, x.object, x.amount) = (c.kind, c.seat, c.prio, c.object, c.amount) ∧
              Only [.boot, .pkg, .lds, .covs, .life, .log, .seats] s m))) ∧
  (∀ (s : State) (seat : BitVec 6) (body : List Nat),
    let n := seat.toNat
    let id := byteField body 0 4
    MailReady s n 0x31 body → KeysRise s.covs →
      (id < 192 → ∃ m, exec (.covenantClear seat) s = .next (respond m n 0x31 mOk []) ∧ mget m.covs id = none ∧
        (∀ k, k ≠ id → mhas m.covs k = mhas s.covs k) ∧ Only [.boot, .pkg, .lds, .covs, .life, .log, .seats] s m) ∧
      (∀ c, 192 ≤ id → id ≤ 255 → mget s.covs id = some c →
        ∃ m, exec (.covenantClear seat) s = .next (respond m n 0x31 mOk []) ∧ (mget m.covs id).map (fun x => x.prio) = some 0) ∧
      (255 < id → exec (.covenantClear seat) s = .next (respond s n 0x31 mBadRequest []))) ∧
  (∀ (s : State) (seat : BitVec 6) (body : List Nat) (c : Cov),
    let n := seat.toNat
    let id := byteField body 0 4
    MailReady s n 0x32 body → mget s.covs id = some c → c.kind ≠ 1 →
      (s.steward.holder = some n ∨ c.seat = n →
        ∃ m, exec (.covenantQuery seat) s = .next (respond m n 0x32 mOk (covBytes s id c)) ∧ Only [.seats] s m) ∧
      (s.steward.holder ≠ some n → c.seat ≠ n → id ≠ 192 + n →
        exec (.covenantQuery seat) s = .next (respond s n 0x32 mNotSteward []))) ∧
  (∀ (s : State) (id : BitVec 8) (c : Cov) (ns : Nat), mget s.covs id.toNat = some c → c.breach = true →
    c.okFrom = some ns →
    ∃ m, exec (.covBreachEnd id) s = .next (raiseAt m (tickOf ns) 0x6007 0 0xFF c.seat 0 0
        [(1, id.toNat), (8, c.start), (4, sat c.worst 32)] (.seat c.seat)) ∧
      mget m.covs id.toNat = some { c with breach := false, okFrom := none } ∧
      (∀ k, k ≠ id.toNat → mget m.covs k = mget s.covs k) ∧ Only [.covs] s m)

/-- At every epoch boundary B is envelope less the derating announced one boundary before, and the caps follow the hottest
junction (R337, R338, R340, R349, Table 9.2) -/
def Obligations.EpochsBudgetAndThermals : Prop :=
  (∀ (s : State) (e : EpochIn), started s = true → ((hubs s).any fun h => !halted s h) = true →
    ∃ m, exec (.tallyEpoch e) s = .next m ∧ m.tally.epoch = s.tally.epoch + 1 ∧ m.tally.lent = false ∧
      m.tally.derate = s.tally.derateNext ∧ m.tally.tj = hottest s e.tj ∧
      m.tally.derateNext = derateOf (hottest s e.tj).toInt ∧ m.tally.therm = thermOf (hottest s e.tj).toInt ∧
      m.tally.b = epochBudget (tallyCommit s) s.tally.derateNext ∧ m.tally.g ≤ m.tally.b - m.tally.base ∧
      m.tally.qHist = (s.tally.qSpent :: s.tally.qHist).take 8 ∧ m.tally.budgets = (s.tally.b :: s.tally.budgets).take 16 ∧
      (∀ h ∈ hubs s, h < s.tally.hubLevel.length → halted s h = false → s.tally.want.getD (6 + h) 0 ≠ 1 →
        s.tally.hubTo.getD h none = none →
        (m.tally.therm = 2 → 2 ≤ m.tally.hubLevel.getD h 0) ∧ (m.tally.therm = 3 → 3 ≤ m.tally.hubLevel.getD h 0)) ∧
      Only [.pins, .boot, .pkg, .ports, .lds, .seats, .fronds, .covs, .tally, .life, .log, .regs, .wire] s m) ∧
  (∀ (s : State) (e : EpochIn), started s = false → exec (.tallyEpoch e) s = .next s) ∧
  (∀ s : State, let a := globalPage 1
    (committing s a = false → tallyCommit s = s) ∧
    (committing s a = true → KeysRise s.regs.commit → KeysRise s.regs.staged → 80 ≤ (stagedReg s (a + 0x40)).toNat → (stagedReg s (a + 0x40)).toNat ≤ 240 →
      reg (tallyCommit s) (a + 0x40) = stagedReg s (a + 0x40) ∧ committing (tallyCommit s) a = false)) ∧
  (∀ tj : Int, (tj ≤ 420 ↔ derateOf tj = 0) ∧ derateOf tj ≤ 60000 ∧ (461 ≤ tj ↔ 2 ≤ thermOf tj) ∧ (472 ≤ tj ↔ thermOf tj = 3) ∧
    (420 < tj → tj ≤ 460 → (derateOf tj : Int) = 1500 * (tj - 420)))

/-- Lending moves unspent guarantees into the pool once, and a recalibration keeps every entry between half and twice its
default (R343, R346) -/
def Obligations.LendingAndRecalibration : Prop :=
  (∀ s : State, started s = true → ((hubs s).any fun h => !halted s h) = true →
    ((tallyCtl s).getLsbD 2 = true → s.tally.lent = false →
      exec .tallyLend s = .next { s with tally := { s.tally with
        qLeft := s.tally.qLeft + (s.seats.map fun e => e.2.g - e.2.spent).sum, lent := true } }) ∧
    ((tallyCtl s).getLsbD 2 = false ∨ s.tally.lent = true → exec .tallyLend s = .next s)) ∧
  (∀ (s : State) (rail : BitVec 4) (measuredNj : BitVec 48), started s = true → ((hubs s).any fun h => !halted s h) = true → KeysRise s.tally.booked →
    let b := (mget s.tally.booked rail.toNat).getD (0, 0)
    let c := b.1 + b.2
    let chosen := fun sel => sel ∈ allSels ∧ rail.toNat ∈ entryRails sel ∧ (sel / 128 % 2 = 1 ∨ c ≤ 100 * b.1)
    ∃ m, exec (.costRecalibrate rail measuredNj) s = .next m ∧ mget m.tally.booked rail.toNat = none ∧
      (∀ r, r ≠ rail.toNat → mget m.tally.booked r = mget s.tally.booked r) ∧
      (c = 0 ∨ (tallyCtl s).getLsbD 1 = true → m.tally.book = s.tally.book ∧ Only [.tally] s m) ∧
      (c ≠ 0 → (tallyCtl s).getLsbD 1 = false →
        (∀ sel, chosen sel → costValue m sel = min (max (rescale (costValue s sel) (1000 * measuredNj.toNat) c)
          ((costDefault sel + 1) / 2)) (2 * costDefault sel)) ∧
        (∀ sel, ¬ chosen sel → costValue m sel = costValue s sel)) ∧
      Only [.boot, .pkg, .lds, .tally, .life, .log] s m) ∧
  (∀ v m c : Nat, 0 < c → 10 * rescale v m c ≤ 11 * v + 5 ∧ 9 * v ≤ 10 * rescale v m c + 5)

/-- Fronds change level, sleep, wake and scrub asleep as their sequences end, and pans enter Retention when their age has run
out (R293, R353, R355, R357, R358, R361, R362, R371, R462) -/
def Obligations.DiesSleepWakeAndChangeLevel : Prop :=
  (∀ (s : State) (rail : BitVec 4) (l : Nat), 6 ≤ rail.toNat → rail.toNat ≤ 11 →
    (frond s (rail.toNat - 4)).levelTo = some l → l < (frond s (rail.toNat - 4)).level → halted s (halfOf (rail.toNat - 4)) = false →
    exec (.avsStepDone rail) s = .next (modFrond s (rail.toNat - 4) fun f => { f with relock := true })) ∧
  (∀ (s : State) (rail : BitVec 4) (l : Nat), rail.toNat = 2 ∨ rail.toNat = 3 → s.tally.hubTo.getD (rail.toNat - 2) none = some l →
    halted s (rail.toNat - 2) = false →
    exec (.avsStepDone rail) s = .next { s with tally := { s.tally with
      hubLevel := s.tally.hubLevel.set (rail.toNat - 2) l, hubTo := s.tally.hubTo.set (rail.toNat - 2) none } }) ∧
  (∀ (s : State) (die : BitVec 3) (pausedNs : BitVec 32) (l : Nat),
    let d := die.toNat
    let f := frond s d
    2 ≤ d → d - 2 < s.fronds.length → f.levelTo = some l → f.relock = true → halted s (halfOf d) = false → searchesDone s d = true →
    ∃ m, exec (.frondRelockDone die pausedNs) s = .next (if f.level < l then send m (.avs (coreRail d) (frondMv l)) else m) ∧
      frond m d = { f with level := l, levelTo := none, relock := false,
                           cycles := f.cycles + BitVec.ofNat 64 (pausedNs.toNat * frondMhz l / 1000), bridged := some (nowNs s),
                           bridgedNs := f.bridgedNs + pausedNs.toNat } ∧
      (∀ k, 2 ≤ k → k ≠ d → frond m k = frond s k) ∧ (reg m (diePage d 0x23 + 0xC)).getLsbD 15 = true ∧
      (reg m (diePage d 0x24 + 0xC)).getLsbD 15 = true ∧ SameRegsBut s m [diePage d 0x23 + 0xC, diePage d 0x24 + 0xC] ∧
      Only [.fronds, .regs] s m) ∧
  (∀ (s : State) (rail : BitVec 4) (mv : Word), s.boot.stage ≠ 0 → 6 ≤ rail.toNat → rail.toNat ≤ 11 →
    let d := rail.toNat - 4
    let f := frond s d
    (∀ o, f.sleeping = some o → d - 2 < s.fronds.length →
      ∃ m, exec (.avsStepTimeout rail mv) s = .next m ∧ frond m d = { f with sleeping := none } ∧
        reg m (sleepResAddr d) = BitVec.ofNat 16 (16384 * 2 + 1024 * 9 + 256 * o.target + 0x05)) ∧
    (f.sleeping = none →
      ∃ m, exec (.avsStepTimeout rail mv) s = .next (event m 0x700D 1 0xFF 0xFF [(1, rail.toNat), (2, mv.toNat), (4, 5000)] .steward) ∧
        m.life.now.railExc = s.life.now.railExc.modify rail.toNat inc32 ∧
        (f.relock = false → (frond m d).levelTo = none) ∧ Only [.fronds, .life] s m)) ∧
  (∀ (s : State) (die : BitVec 3) (o : SleepOp),
    let d := die.toNat
    let f := frond s d
    2 ≤ d → d - 2 < s.fronds.length → KeysRise s.coh.copies → f.sleeping = some o → 1 ≤ o.target → o.target ≤ 3 → frondQuiet s d = true →
      halted s (halfOf d) = false →
      (firstRefusal (frondRefusals s d o.target) = none →
        ∃ m, exec (.dieSleepDone die) s = .next m ∧ (frond m d).dstate = o.target ∧ (frond m d).sleeping = none ∧
          (frond m d).level = f.level ∧ (frond m d).stopNs = (if f.dstate = 0 then nowNs s else f.stopNs) ∧
          (2 ≤ o.target → (frond m d).arr.awake = [] ∧ ∀ e ∈ m.coh.copies, e.1 % 32 ≠ d) ∧
          (o.target = 1 → (frond m d).arr = f.arr) ∧
          reg m (sleepResAddr d) = BitVec.ofNat 16 (16384 + 256 * o.target)) ∧
      (∀ step r, firstRefusal (frondRefusals s d o.target) = some (step, r) →
        ∃ m, exec (.dieSleepDone die) s = .next m ∧ frond m d = { f with sleeping := none } ∧
          reg m (sleepResAddr d) = BitVec.ofNat 16 (16384 * 2 + 1024 * step + 256 * o.target + r))) ∧
  (∀ (s : State) (die : BitVec 3), die.toNat < 2 → s.tally.want.getD (6 + die.toNat) 0 = 1 →
    die.toNat < s.tally.hubDoze.length → halted s die.toNat = false → firstRefusal (hubRefusals s die.toNat) = none →
    ∃ m, exec (.dieSleepDone die) s = .next m ∧ m.tally.hubDoze.getD die.toNat false = true ∧
      m.tally.want.getD (6 + die.toNat) 0 = 0 ∧ Only [.tally, .pins, .regs] s m) ∧
  (∀ (s : State) (die : BitVec 3) (stoppedNs : BitVec 64),
    let d := die.toNat
    let f := frond s d
    (2 ≤ d → d - 2 < s.fronds.length → f.waking = true → frondServes s d = true → halted s (halfOf d) = false →
      ∃ m, exec (.dieWakeDone die stoppedNs) s = .next m ∧
        frond m d = { f with dstate := 0, waking := false, level := if 2 ≤ f.dstate then f.wakeLevel else f.level,
                             cycles := f.cycles + BitVec.ofNat 64 (stoppedNs.toNat * frondMhz f.level / 1000), bridged := some (nowNs s),
                             bridgedNs := min (nowNs s - s.tally.epochNs) 100000 } ∧
        (∀ k, 2 ≤ k → k ≠ d → frond m k = frond s k) ∧ Only [.fronds, .regs] s m) ∧
    (d < 2 → s.tally.hubDoze.getD d false = true →
      ∃ m, exec (.dieWakeDone die stoppedNs) s = .next m ∧ m.tally.hubDoze.getD d false = false ∧
        (autoRel s d = true → s.pins.heldDdr.getD d none = some true → m.pins.heldDdr.getD d none = none) ∧
        Only [.tally, .pins, .regs] s m)) ∧
  (∀ (s : State) (die : BitVec 3),
    let d := die.toNat
    let f := frond s d
    frondServes s d = true → d - 2 < s.fronds.length → 2 ≤ f.dstate → f.waking = false → halted s (halfOf d) = false →
    ∃ m, exec (.frondScrubDue die) s = .next m ∧ (frond m d).dstate = f.dstate ∧ (frond m d).waking = false ∧
      (frond m d).scrubPos = 0 ∧ (frond m d).scrubFrom = nowNs s ∧ (frond m d).scrubLate = false ∧
      (frond m d).arr.awake = f.arr.awake) ∧
  (∀ (s : State) (die : BitVec 3) (pan : BitVec 9) (u : PanUse),
    let d := die.toNat
    2 ≤ d → d - 2 < s.fronds.length → mget (frond s d).arr.awake pan.toNat = some u → KeysRise (frond s d).arr.awake →
      (panAged s d pan.toNat u = true → awake s d = true → (keptOn s d).all (fun c => !inRange c.2 (baseDie s d) pan.toNat) = true →
        (∀ e ∈ (frond s d).arr.repairing, e.1 / 8192 ≠ pan.toNat) →
        ∃ m, exec (.panRetentionEntry die pan) s = .next m ∧ mget (frond m d).arr.awake pan.toNat = none ∧
          (∀ q, q ≠ pan.toNat → mget (frond m d).arr.awake q = mget (frond s d).arr.awake q) ∧
          (frond m d).arr.rows = (frond s d).arr.rows ∧ (∀ k, 2 ≤ k → k ≠ d → frond m k = frond s k) ∧ Only [.fronds] s m) ∧
      (panAged s d pan.toNat u = false → exec (.panRetentionEntry die pan) s = .next s))

/-- The always-on clock changes source, the calendar is set, and held balls are released, each as written (R364, R365, R366,
R370, R392) -/
def Obligations.ClocksCalendarAndHeldBalls : Prop :=
  (∀ (s : State) (dev : Word32), s.boot.stage ≠ 0 → s.clock.rc = false → xtalOff dev = true →
    ∃ m, exec (.clkXtalFail dev) s = .next (event m 0x7009 1 0xFF 0xFF [(4, dev.toNat)] .steward) ∧
      m.clock = { s.clock with rc := true, xtalOk := false } ∧ Only [.clock, .boot] s m) ∧
  (∀ s : State, s.boot.stage ≠ 0 → s.clock.rc = true →
    ∃ m, m.clock = { s.clock with rc := false, xtalOk := true } ∧ Only [.clock, .boot] s m ∧
      exec .clkXtalOk s = .next (if s.boot.xtalSeen then m else event m 0x700A 0 0xFF 0xFF [] .steward)) ∧
  (∀ (s : State) (p : Place) (w : Word32) (n : Nat) (pg : PageId),
    let a := globalPage 7 + 0x60
    let word := fun k => BitVec.ofNat 16 (s.clock.cal.toNat / 2 ^ (16 * k))
    let hold := fun k : Nat => (mget s.regs.hold (ldKey p (a + 4 * k))).getD (word k)
    lookup s p a = some (n, pg, .write) → maskOf w ≠ 0 → KeysRise s.regs.hold →
    mget s.regs.guards (ldKey p (pageBase a)) = none →
    let new : BitVec 48 :=
      BitVec.ofNat 48 ((maskedWrite w 0xFFFF (word 0)).toNat + 2 ^ 16 * (hold 1).toNat + 2 ^ 32 * (hold 2).toNat)
    ∃ m, exec (.timeCalWrite p w) s = .next (event m 0x700C 0 0xFF 0xFF [(6, s.clock.cal.toNat), (6, new.toNat)] .steward) ∧
      m.clock = { s.clock with cal := new, calTick := 0, stale := false } ∧
      mget m.regs.hold (ldKey p (a + 4)) = none ∧ mget m.regs.hold (ldKey p (a + 8)) = none ∧ Only [.clock, .regs] s m) ∧
  (∀ (s : State) (p : Place) (die : BitVec 3) (w v : Word32),
    let h := die.toNat
    let a := diePage h 0x13 + 0x800
    let x := maskedWrite v 7 (reg s a)
    h < 2 → TakesEffect s p a w v → started s = true →
    ∃ m, exec (.hpwrPadrel p die w) s = .next m ∧ (reg m a).toNat = 0 ∧
      (x.getLsbD 0 = true → (s.pins.heldDdr.getD h none).isSome = true →
        (s.tally.hubDoze.getD h false = false → s.tally.want.getD (6 + h) 0 = 0 → m.pins.heldDdr.getD h none = none) ∧
        (s.tally.hubDoze.getD h false = true → s.pins.heldDdr.getD h none = some true →
          m.pins.heldDdr = s.pins.heldDdr ∧ (reg m (diePage h 0x13 + 0xC)).getLsbD 0 = true)) ∧
      (x.getLsbD 0 = false → m.pins.heldDdr = s.pins.heldDdr) ∧
      (x.getLsbD 1 = true → ∀ port ∈ hubPorts h, s.pins.heldPort.getD port false = true →
        ((s.ports[port]?).map (fun y => y.st) = some .up → m.pins.heldPort.getD port true = false) ∧
        ((s.ports[port]?).map (fun y => y.st) ≠ some .up → m.pins.heldPort.getD port false = true ∧
          (reg m (diePage h 0x13 + 0xC)).getLsbD 0 = true)) ∧
      (x.getLsbD 1 = false → m.pins.heldPort = s.pins.heldPort) ∧
      (x.getLsbD 2 = true → m.pins.heldSb = none) ∧ (x.getLsbD 2 = false → m.pins.heldSb = s.pins.heldSb) ∧
      Only [.pins, .regs, .tally] s m)

/-- A plain write changes the writable bits its mask chooses, a read answers and clears, a refused access gives a bus error
(R376, R377, R378, R384, R386, R391, R392, R394) -/
def Obligations.RegisterReadsAndWrites : Prop :=
  ∀ (s : State) (p : Place) (x : Access),
    let a := x.addr.toNat
    let w : Word32 := x.data.setWidth 32
    x.width = .one 0xF → a % 4 = 0 → inWindow a = false →
    (∀ a' pg r, lookup s p a = some (a', pg, .write) → pg.base = pageBase a' → slotAt pg.ty (a' % 4096) = .plain r → r.off = a' % 4096 →
      (maskOf w = 0 → exec (.registerWrite p x) s = .next s) ∧
      (maskOf w ≠ 0 → writeWaits s p a = true → a / 0x00400000 < 8 → exec (.registerWrite p x) s = .next (queueWrite s p a w)) ∧
      (maskOf w ≠ 0 → writeWaits s p a = false → wakePage s a' = s → mget s.regs.guards (ldKey p pg.base) = none → r.words = 1 → r.rws = 0 →
        a' % 4096 ∉ [0x10, 0x18, 0x1C, 0x24, 0x28] →
        (pg.ty, a' % 4096) ∉ [(.ring, 8), (.watripo, 8), (.mgmt, 0x60), (.ledger, 0x40), (.log, 0x70), (.harvest, 0x44)] →
        ∃ m, exec (.registerWrite p x) s = .next m ∧ reg m a' = maskedWrite w (plainWritable s pg.ty pg.base r) (reg s a') ∧
          (∀ b, b ∉ [a', pg.base + 0x10, pg.base + 0x18, pg.base + 0x1C] → reg m b = reg s b) ∧
          (pageEn s pg.base = true → maskOf w &&& configBits r ≠ 0 → (reg m (pg.base + 0x18)).getLsbD 0 = true) ∧
          Only [.regs, .wire] s m)) ∧
    (maskOf w = 0 → exec (.unimplementedAccess p true x) s = .next s) ∧
    (lateFor s p a = true → exec (.rcRegisterRead p x) s = .next s ∧ exec (.multiwordW0Read p x) s = .next s) ∧
    (lookup s p a = none →
      (maskOf w ≠ 0 → exec (.unimplementedAccess p true x) s = .next (send (aerError s p a) (.busError p a))) ∧
      (lateFor s p a = false → exec (.unimplementedAccess p false x) s = .next (send (aerError s p a) (.regRead p a none)))) ∧
    (∀ a' pg, lookup s p a = some (a', pg, .read) → maskOf w ≠ 0 →
      exec (.unimplementedAccess p true x) s = .next (send (aerError s p a) (.busError p a))) ∧
    (∀ a' pg, lookup s p a = some (a', pg, .write) → slotAt pg.ty (a' % 4096) = .hole →
      (maskOf w ≠ 0 → writeWaits s p a = false → exec (.unimplementedAccess p true x) s =
        .next (reject (send (aerError (dropGuard s p pg.base) p a) (.busError p a)) (pageBase a') 3 (a' % 4096))) ∧
      (lateFor s p a = false → exec (.unimplementedAccess p false x) s =
        .next (send (reject (aerError s p a) (pageBase a') 3 (a' % 4096)) (.regRead p a none)))) ∧
    (∀ a' pg r reach, lookup s p a = some (a', pg, reach) → reach ≠ .none → lateFor s p a = false → slotAt pg.ty (a' % 4096) = .plain r →
      (r.words = 1 → a' % 4096 ≠ 0x80 ∨ pg.ty ≠ .tally → pg.base + a' % 4096 = a' →
        ∃ m, exec (.rcRegisterRead p x) s = .next (send m (.regRead p a (some ((regValue s pg (a' % 4096) r).setWidth 64)))) ∧
          (reach = .read → m = s) ∧ (reach = .write → r.rc = 0 → m = s) ∧
          (reach = .write → r.rc ≠ 0 → reg m a' = reg s a' &&& ~~~r.rc ∧ SameRegsBut s m [a'] ∧ Only [.regs] s m)) ∧
      (1 < r.words → r.idx = 0 →
        let v := wideValue s pg (a' % 4096) r.words
        ∃ m, exec (.multiwordW0Read p x) s = .next (send m (.regRead p a (some ((BitVec.ofNat 16 v).setWidth 64)))) ∧
          mget m.regs.latch (ldKey p (pg.base + a' % 4096)) = some (BitVec.ofNat 48 (v / 65536)) ∧ Only [.regs, .tally] s m) ∧
      (∀ v : BitVec 48, 1 < r.words → 0 < r.idx → mget s.regs.latch (ldKey p (pg.base + a' % 4096 - 4 * r.idx)) = some v →
        exec (.multiwordW0Read p x) s = .next (send s
          (.regRead p a (some (((v >>> (16 * (r.idx - 1))).setWidth 16).setWidth 64))))))

/-- A commit makes every staged half active or none, and a guarded write waits for its complement (R387, R388, R389, R390,
R391) -/
def Obligations.StagesCommitsAndGuards : Prop :=
  (∀ (s : State) (p : Place) (addr : BitVec 26) (w : Word32) (pg : PageId),
    let a := addr.toNat
    lookup s p a = some (pg.base + 0x28, pg, .write) → pageBase (pg.base + 0x28) = pg.base → (pg.base + 0x28) % 4096 = 0x28 →
    inWindow a = false → maskOf w ≠ 0 → (dataOf w &&& maskOf w).getLsbD 0 = true → wakePage s (pg.base + 0x28) = s →
    writeWaits s p a = false →
    mget s.regs.guards (ldKey p pg.base) = none →
      (committing s pg.base = true → exec (.stageCommit p addr w) s = .next (reject s pg.base 4 0x28)) ∧
      (committing s pg.base = false → (stagedDiffers s pg.base = true → commitOk s pg = true) →
        ∃ m, exec (.stageCommit p addr w) s = .next m ∧ committing m pg.base = true ∧
          (reg m (pg.base + 0x28)).getLsbD 1 = true ∧ m.regs.staged = s.regs.staged ∧ SameRegsBut s m [pg.base + 0x28] ∧
          Only [.regs] s m) ∧
      (committing s pg.base = false → stagedDiffers s pg.base = true → commitOk s pg = false →
        ∃ m, exec (.stageCommit p addr w) s = .next m ∧ reg m (pg.base + 0x28) = 8 ∧
          (reg m (pg.base + 0x18)).getLsbD 4 = true ∧ m.regs.staged = s.regs.staged ∧
          SameRegsBut s m [pg.base + 0x10, pg.base + 0x18, pg.base + 0x1C, pg.base + 0x28] ∧ Only [.regs, .wire] s m)) ∧
  (∀ (s : State) (page : BitVec 26) (pg : PageId), pageAt (pageBase page.toNat) = some pg → KeysRise s.regs.commit →
    (∀ e ∈ pageStaged s pg.base, e.1 ≠ pg.base + 0x28) → pageBase (pg.base + 0x28) = pg.base →
      (committing s pg.base = false → exec (.stageCommitApply page) s = .next s) ∧
      (committing s pg.base = true → stagedDiffers s pg.base = false →
        ∃ m, exec (.stageCommitApply page) s = .next m ∧ reg m (pg.base + 0x28) = 4 ∧ committing m pg.base = false ∧
          SameRegsBut s m [pg.base + 0x28] ∧ Only [.regs] s m) ∧
      (committing s pg.base = true → pg.ty = .sluice → stagedDiffers s pg.base = true → tagsOk s pg = false →
        ∃ m, exec (.stageCommitApply page) s = .next m ∧ reg m (pg.base + 0x28) = 8 ∧ committing m pg.base = false ∧
          m.regs.staged = s.regs.staged ∧ SameRegsBut s m [pg.base + 0x10, pg.base + 0x18, pg.base + 0x1C, pg.base + 0x28]) ∧
      (committing s pg.base = true → pg.ty = .sluice → stagedDiffers s pg.base = true → tagsOk s pg = true → pg.die ∈ copies s pg.die →
        ∃ m, exec (.stageCommitApply page) s = .next m ∧ reg m (pg.base + 0x28) = 4 ∧ committing m pg.base = false ∧
          ∀ x ∈ stagedTags s pg, reg m (tagAddr pg.die x.1) = x.2.1 ∧ reg m (tagAddr pg.die x.1 + 4) = x.2.2) ∧
      (committing s pg.base = true → pg.ty ≠ .sluice → KeysRise s.regs.staged → stagedDiffers s pg.base = true →
        (commitOk s pg = true → ∃ m, exec (.stageCommitApply page) s = .next m ∧
          (∀ e ∈ pageStaged s pg.base, reg m e.1 = (reg s e.1 &&& ~~~(rwsAt e.1)) ||| (e.2 &&& rwsAt e.1)) ∧ pageStaged m pg.base = [] ∧ reg m (pg.base + 0x28) = 4 ∧
          committing m pg.base = false ∧
          (∀ b, b ≠ pg.base + 0x28 → (∀ e ∈ pageStaged s pg.base, e.1 ≠ b) → reg m b = reg s b)) ∧
        (commitOk s pg = false → ∃ m, exec (.stageCommitApply page) s = .next m ∧ reg m (pg.base + 0x28) = 8 ∧
          committing m pg.base = false ∧ m.regs.staged = s.regs.staged ∧
          SameRegsBut s m [pg.base + 0x10, pg.base + 0x18, pg.base + 0x1C, pg.base + 0x28] ∧ Only [.regs, .wire] s m))) ∧
  (∀ (s : State) (p : Place) (addr : BitVec 26) (w : Word32) (a : Nat) (pg : PageId) (g : GuardSpec),
    lookup s p addr.toNat = some (a, pg, .write) → slotAt pg.ty (a % 4096) = .guarded g → inWindow addr.toNat = false → maskOf w ≠ 0 →
    wakePage s a = s → writeWaits s p addr.toNat = false → mget s.regs.guards (ldKey p (pageBase a)) = none →
    ∃ m, exec (.guardedWrite p addr w) s = .next m ∧ mget m.regs.guards (ldKey p (pageBase a)) = some ⟨a, w⟩ ∧
      SameRegsBut s m [] ∧ m.regs.staged = s.regs.staged ∧ Only [.regs] s m) ∧
  (∀ (s : State) (p : Place) (addr : BitVec 26) (g : Guard),
    let base := pageBase addr.toNat
    mget s.regs.guards (ldKey p base) = some g → KeysRise s.regs.guards →
      (g.addr = addr.toNat → ∃ m, exec (.guardedWriteTimeout p addr) s = .next m ∧ mget m.regs.guards (ldKey p base) = none ∧
        (reg m (base + 0x18)).getLsbD 1 = true ∧ SameRegsBut s m [base + 0x10, base + 0x18, base + 0x1C] ∧ Only [.regs, .wire] s m) ∧
      (g.addr ≠ addr.toNat → exec (.guardedWriteTimeout p addr) s = .next s)) ∧
  (∀ (s : State) (p : Place) (a : Nat) (w : Word32) (g : Guard), mget s.regs.guards (ldKey p (pageBase a)) = some g → KeysRise s.regs.guards →
    g.addr = a → maskOf w ≠ 0 → maskOf w ≠ maskOf g.word ∨ dataOf w ≠ ~~~(dataOf g.word) →
    (guardSecond s p a w).2 = none ∧ mget (guardSecond s p a w).1.regs.guards (ldKey p (pageBase a)) = none ∧
      (reg (guardSecond s p a w).1 (pageBase a + 0x18)).getLsbD 1 = true)

/-- CFG_REF arms the comparison, a pass finds a mismatch, a restore rewrites from the copy, votes are fixed, DDR.RATE is kept
(R396, R397, R398, R406) -/
def Obligations.ConfigurationIsCheckedAndRestored : Prop :=
  (∀ (s : State) (p : Place) (addr : BitVec 26) (w : Word32) (pg : PageId),
    let a := pg.base + 0x24
    lookup s p addr.toNat = some (a, pg, .write) → pageBase a = pg.base → a % 4096 = 0x24 → inWindow addr.toNat = false → maskOf w ≠ 0 →
    wakePage s a = s → writeWaits s p addr.toNat = false → mget s.regs.guards (ldKey p pg.base) = none →
    ∃ m, exec (.cfgRefWrite p addr w) s = .next m ∧ reg m a = maskedWrite w 0xFFFF (reg s a) ∧ SameRegsBut s m [a] ∧
      (s.chip.part ≠ .ls8 → coveredOffsets pg.ty ≠ [] → pg.base ∈ m.regs.armed) ∧
      (s.chip.part = .ls8 → m.regs.armed = s.regs.armed) ∧ Only [.regs] s m) ∧
  (∀ (s : State) (page : BitVec 26) (pg : PageId), pageAt (pageBase page.toNat) = some pg →
    let v := cfgSig s pg.ty pg.base
    let ref := reg s (pg.base + 0x24)
    (s.regs.armed.contains pg.base = true → v ≠ ref → s.regs.restore.contains pg.base = false →
      ∃ m, exec (.cfgSigPass page) s = .next (event m 0x8001 1 pg.die 0xFF (cfgItems pg ++ [(2, v.toNat), (2, ref.toNat)]) .steward) ∧
        mget m.regs.sig pg.base = some v ∧ pg.base ∈ m.regs.restore ∧ (reg m (pg.base + 0x10)).getLsbD 15 = true ∧
        SameRegsBut s m [pg.base + 0x10] ∧ Only [.regs, .wire] s m) ∧
    (s.regs.armed.contains pg.base = false ∨ v = ref →
      ∃ m, exec (.cfgSigPass page) s = .next m ∧ mget m.regs.sig pg.base = some v ∧ SameRegsBut s m [] ∧
        m.regs.restore = s.regs.restore ∧ Only [.regs] s m)) ∧
  (∀ (s : State) (page : BitVec 26) (pg : PageId), pageAt (pageBase page.toNat) = some pg →
    (s.chip.part ≠ .ls8 → s.regs.restore.contains pg.base = true →
      ∃ m, (∀ o ∈ coveredOffsets pg.ty, reg m (pg.base + o) &&& coveredMask pg.ty o =
          (mget s.regs.mgmt (pg.base + o)).getD (resetOf (pg.base + o)) &&& coveredMask pg.ty o) ∧
        m.regs.restore.contains pg.base = false ∧ Only [.regs] s m ∧
        exec (.cfgRestore page) s = .next (if cfgSig m pg.ty pg.base = reg m (pg.base + 0x24)
          then event m 0x8002 0 pg.die 0xFF (cfgItems pg) .steward else cfgFail m pg)) ∧
    (s.chip.part = .ls8 → (∃ o ∈ coveredOffsets pg.ty, parityMask pg.ty o ≠ 0) → pageExists s pg = true → started s = true →
      ∃ m, (∀ o ∈ coveredOffsets pg.ty, o ≠ 0x10 → reg m (pg.base + o) &&& parityMask pg.ty o =
          (mget s.regs.mgmt (pg.base + o)).getD (resetOf (pg.base + o)) &&& parityMask pg.ty o) ∧
        Only [.regs, .wire] s m ∧ exec (.cfgRestore page) s = .next (event m 0x8002 0 pg.die 0xFF (cfgItems pg) .steward))) ∧
  (∀ (s : State) (addr : BitVec 26) (c0 c1 c2 : Word) (pg : PageId),
    let a := addr.toNat
    let fields := votedFields pg.ty (a % 4096)
    let bad := fun k : Word => ¬ (c0 &&& k = c1 &&& k ∧ c1 &&& k = c2 &&& k)
    let won := fun k v : Word => (c0 &&& k = v ∧ (c1 &&& k = v ∨ c2 &&& k = v)) ∨ (c1 &&& k = v ∧ c2 &&& k = v)
    pageAt (pageBase a) = some pg → s.chip.part = .ls8 → pageExists s pg = true → started s = true →
      ((∀ k ∈ fields, ¬ bad k) → exec (.cfgVoteFix addr c0 c1 c2) s = .next s) ∧
      ((∃ k ∈ fields, bad k) → (∀ k ∈ fields, bad k → ∀ v, ¬ won k v) →
        exec (.cfgVoteFix addr c0 c1 c2) s = .next (cfgFail (setEvt s pg.base 15) pg)) ∧
      ((∃ k ∈ fields, bad k ∧ ∃ v, won k v) →
        ∃ m, ((∀ k ∈ fields, bad k → ∃ v, won k v) → exec (.cfgVoteFix addr c0 c1 c2) s =
            .next (event m 0x8004 0 pg.die 0xFF (cfgItems pg ++ [(2, a % 4096)]) .steward)) ∧
          ((∃ k ∈ fields, bad k ∧ ∀ v, ¬ won k v) → exec (.cfgVoteFix addr c0 c1 c2) s =
            .next (cfgFail (event m 0x8004 0 pg.die 0xFF (cfgItems pg ++ [(2, a % 4096)]) .steward) pg)) ∧
          (a % 4096 ≠ 0xC00 → a ≠ pg.base + 0x10 → (∀ k ∈ fields, ∀ v, won k v → bad k → reg m a &&& k = v) ∧
            (∀ k ∈ fields, (¬ bad k ∨ ∀ v, ¬ won k v) → reg m a &&& k = reg s a &&& k) ∧
            SameRegsBut s m [a, pg.base + 0x10] ∧ Only [.regs, .wire] s m) ∧
          (a % 4096 = 0xC00 → (∀ k ∈ fields, ∀ v, won k v → bad k → stagedReg m (a - 0x400) &&& k = v) ∧
            SameRegsBut s m [pg.base + 0x10]))) ∧
  (∀ (s : State) (p : Place) (hub : BitVec 1) (channel : BitVec 3) (w v : Word32),
    let a := diePage hub.toNat (8 + channel.toNat) + 0x800
    let x := maskedWrite v 3 (reg s a)
    TakesEffect s p a w v → channel.toNat < 6 →
    ∃ m, exec (.ddrRate p hub channel w) s = .next m ∧
      (bits x 1 0 ≤ 1 → reg m a = x ∧ m.store.rate = s.store.rate.set (6 * hub.toNat + channel.toNat) (BitVec.ofNat 2 (bits x 1 0))) ∧
      (1 < bits x 1 0 → reg m a = reg s a ∧ m.store = s.store) ∧ m.mem = s.mem)

/-- A command of the Watripo window reaches an entry of its bound table that nothing keeps busy, and the tally admits it. -/
structure WinEntryReady (s : State) (p : Place) (addr : BitVec 16) (w : Word32) (code n tb : Nat) (t : Table) (die row cost : Nat) :
    Prop where
  seat : windowSeat s p = some n
  idle : s.regs.wcmd = none
  bound : tb = bits (reg s (globalPage 0xB + 0x44)) 9 0
  cmd : addr.toNat % 4096 / 4 = 2 ∧ maskOf w ≠ 0 ∧ bits (dataOf w &&& maskOf w) 2 0 = code
  live : detaching s n = false
  right : holdsRight s n tb true = true
  table : tableIn s tb = some t
  place : winEntry s t = some (posOf die row)
  fits : die < 8 ∧ row < 4194304
  slice : bits (reg s (winAddr 0x18)) 3 0 < 5 * t.rows
  wake : wakeHub s (seatHub s n) = s
  hub : hubServes s (seatHub s n) = true
  snapshot : jobMeets s .snapshot die tb (posIndex t row) (posIndex t row) = false
  busy : entryBusy s die tb (posIndex t row) = none
  tags : tagsMoving s die row = false
  some : copies s die ≠ []
  fronds : ∀ d ∈ copies s die, frondServes s d = true ∧ awake s d = true ∧ 2 ≤ d ∧ d - 2 < s.fronds.length ∧
    underRepair s d row = false ∧ GoodRecords s d ∧ rowsAt s d row = t.rows ∧
    ∀ r ∈ entryRows row t.rows, rowGood d r (rowAt s d r) = true ∧ (rowAt s d r).poison = false
  pay : (admitWork s n (opCost s opDispatch 0 + cost)).isSome = true
  rows : t.rows ∈ [1, 2]

/-- The Watripo window opens on a checked binding and works on entries; ARR reads and writes rows and refills free pans (R404,
R405, R408, R410, R411) -/
def Obligations.WindowAndArrayAccess : Prop :=
  (∀ (s : State) (p : Place) (w : Word32) (pg : PageId),
    let a := globalPage 0xB + 8
    lookup s p a = some (a, pg, .write) → pg.ty = .watripo → mget s.regs.guards (ldKey p pg.base) = none →
    (maskOf w).getLsbD 0 = true →
      ((reg s a).getLsbD 0 = false → (dataOf w).getLsbD 0 = true → bindOk s = true →
        ∃ m, exec (.watripoEnable p w) s = .next m ∧ reg m a = 1 ∧ m.regs.wshut = false ∧ SameRegsBut s m [a] ∧ Only [.regs] s m) ∧
      ((reg s a).getLsbD 0 = false → (dataOf w).getLsbD 0 = true → bindOk s = false →
        ∃ m, exec (.watripoEnable p w) s = .next m ∧ reg m a = reg s a ∧ (reg m (globalPage 0xB + 0xC)).getLsbD 1 = true ∧
          SameRegsBut s m [globalPage 0xB + 0xC] ∧ Only [.regs] s m) ∧
      ((reg s a).getLsbD 0 = true → (dataOf w).getLsbD 0 = false →
        ∃ m, exec (.watripoEnable p w) s = .next m ∧ reg m a = 0 ∧ SameRegsBut s m [a] ∧ Only [.regs] s m ∧
          ∀ q, windowSeat m q = none)) ∧
  (∀ (s : State) (p : Place) (addr : BitVec 16) (w : Word32) (n : Nat), windowSeat s p = some n → s.regs.wcmd = none →
    addr.toNat % 4096 / 4 = 2 → maskOf w ≠ 0 → bits (dataOf w &&& maskOf w) 2 0 = 1 →
    let tb := bits (reg s (globalPage 0xB + 0x44)) 9 0
    let s0 := modRegs (wakeHub s (seatHub s n)) fun g => { g with wcmd := some ⟨1, n, tb⟩ }
    let rows := ((mget s0.tables tb).map fun t : Table => t.rows).getD 1
    (∀ st, singleCheck s0 n tb (5 * rows) 1 40 = some st → exec (.wSearch p addr w) s = .next (winStatus s0 st false)) ∧
    (singleCheck s0 n tb (5 * rows) 1 40 = none → hubServes s0 (seatHub s0 n) = false → exec (.wSearch p addr w) s = .next s0) ∧
    (∀ t s1, singleCheck s0 n tb (5 * rows) 1 40 = none → hubServes s0 (seatHub s0 n) = true → needFronds s0 (tableDies s0 [tb]) = none →
      tableIn s0 tb = some t →
      launch s0 t { ring := 0, sub := 0, member := 0, tag := 0, seat := n, table := tb, key := winSearchKey s0 t.rows, hits := 1,
                    early := false, window := true, fetched := nowNs s0 } = (s1, none) →
      ∃ m, exec (.wSearch p addr w) s = .next m ∧ m.regs.wcmd = some ⟨0, n, tb⟩ ∧ m.searches = s1.searches ∧ Only [.regs] s1 m)) ∧
  (∀ (s : State) (p : Place) (addr : BitVec 16) (w : Word32) (n tb : Nat) (t : Table) (die row : Nat),
    let k := bits (reg s (winAddr 0x18)) 3 0
    let r := row + k / 5
    let dies := copies s die
    let img := fun d => sliceRow s d r (k % 5) (reg s (winAddr 0x20)) (reg s (winAddr 0x24))
    (WinEntryReady s p addr w 2 n tb t die row (arrayCost s dies 1 0) → (∀ d ∈ dies, entryValid s d row t.rows = false) →
      (∀ d ∈ dies, sliceCovered s d row t.rows t.ofs r (img d) = true) →
      ∃ m, exec (.wWriteSlice p addr w) s = .next (winStatus m stCmdDone false) ∧
        (∀ d ∈ dies, (rowAt m d r).data = (img d).1 ∧ (rowAt m d r).mask = (img d).2 ∧ (rowAt m d r).valid = false ∧
          (shadowAt m d r).data = (img d).1 ∧ (shadowAt m d r).mask = (img d).2) ∧ SameRowsBut s m dies [r] ∧
        Only [.seats, .fronds, .tally] s m) ∧
    (WinEntryReady s p addr w 3 n tb t die row (arrayCost s dies 0 0) →
      let g := shadowAt s (serveDie s die) r
      serveDie s die ∈ dies →
      ∃ m, exec (.wReadSlice p addr w) s = .next (winStatus m stCmdDone false) ∧
        reg m (winAddr 0x20) = (g.data >>> (16 * (k % 5))).setWidth 16 ∧
        reg m (winAddr 0x24) = (g.mask >>> (16 * (k % 5))).setWidth 16 ∧
        SameRegsBut s m [winAddr 0x20, winAddr 0x24] ∧ m.fronds = s.fronds ∧ Only [.seats, .regs, .tally] s m) ∧
    (WinEntryReady s p addr w 4 n tb t die row (arrayCost s dies 0 1) → entryCovered s t die row = true →
      (∀ d ∈ dies, entryPoison s d row = false) →
      ∃ m, exec (.wValidate p addr w) s = .next (winStatus m stCmdDone false) ∧
        (∀ d ∈ dies, ∀ i ∈ entryRows row t.rows, (rowAt m d i).valid = true ∧ (rowAt m d i).data = (rowAt s d i).data) ∧
        SameRowsBut s m dies (entryRows row t.rows) ∧ Only [.seats, .fronds, .tally] s m) ∧
    (WinEntryReady s p addr w 5 n tb t die row (arrayCost s dies 0 1) →
      ∃ m, exec (.wInvalidate p addr w) s = .next (winStatus m stCmdDone false) ∧
        (∀ d ∈ dies, ∀ i ∈ entryRows row t.rows, (rowAt m d i).valid = false) ∧
        SameRowsBut s m dies (entryRows row t.rows) ∧ Only [.seats, .fronds, .tally] s m)) ∧
  (∀ (s : State) (p : Place) (die : BitVec 3) (w v : Word32) (c : Instr),
    let d := die.toNat
    let a := arrPage d + 0x800
    let op := bits (maskedWrite v 3 (reg s a)) 1 0
    let row := regWide s (arrPage d + 0x40) 2 % 4194304
    let x := rowAt s d row
    let g := shadowAt s d row
    c ∈ [.arrReadArray p die w, .arrWriteSlice p die w, .arrReadShadow p die w] → TakesEffect s p a w v → 2 ≤ d → d - 2 < s.fronds.length →
      (op = 1 ∨ op = 3 → ∃ m, exec c s = .next m ∧ (∀ k, 2 ≤ k → (frond m k).arr = (frond s k).arr) ∧
        (op = 1 → (∀ i < 5, reg m (arrPage d + 0x60 + 4 * i) = (x.data >>> (16 * i)).setWidth 16 ∧
          reg m (arrPage d + 0x80 + 4 * i) = (x.mask >>> (16 * i)).setWidth 16) ∧ reg m (arrPage d + 0xA4) = x.check ∧
          (reg m (arrPage d + 0xA0)).getLsbD 15 = x.valid ∧ (reg m (arrPage d + 0xA0)).getLsbD 12 = false) ∧
        (op = 3 → (∀ i < 5, reg m (arrPage d + 0x60 + 4 * i) = (g.data >>> (16 * i)).setWidth 16 ∧
          reg m (arrPage d + 0x80 + 4 * i) = (g.mask >>> (16 * i)).setWidth 16) ∧ reg m (arrPage d + 0xA4) = g.rcrc ∧
          (reg m (arrPage d + 0xA0)).getLsbD 12 = true)) ∧
      (op = 2 →
        let n := rowsAt s d row
        let first := firstRow s d row
        let ofs := ((panOwner s d (row / 8192)).map fun x : Nat × Table => x.2.ofs).getD 0
        let y := sliceRow s d row (bits (reg s (arrPage d + 0x48)) 2 0) (reg s (arrPage d + 0x4C)) (reg s (arrPage d + 0x50))
        (tagsMoving s d row = true → ∃ m, exec c s = .next m ∧ m.regs.late = s.regs.late ++ [⟨0, a, v, true⟩] ∧
          ∀ k r, 2 ≤ k → rowAt m k r = rowAt s k r) ∧
        (tagsMoving s d row = false → underRepair s d first = false → GoodRecords s d → (∀ r ∈ entryRows first n, rowGood d r (rowAt s d r) = true) →
        ∃ m, exec c s = .next m ∧
          (entryPoison s d row = false → sliceCovered s d first n ofs row y = true → entryValid s d first n = false →
            rowAt m d row = { x with data := y.1, mask := y.2, valid := false, check := rowCheck d row y.1 y.2 false, rewritten := true, failed := false } ∧
              SameRowsBut s m [d] [row]) ∧
          (entryPoison s d row = true → (reg m (arrPage d + 0xC)).getLsbD 1 = true ∧ ∀ r, rowAt m d r = rowAt s d r) ∧
          (sliceCovered s d first n ofs row y = false → (reg m (arrPage d + 0xC)).getLsbD 2 = true ∧ ∀ r, rowAt m d r = rowAt s d r) ∧
          (entryValid s d first n = true → (reg m (arrPage d + 0xC)).getLsbD 3 = true ∧ ∀ r, rowAt m d r = rowAt s d r)))) ∧
  (∀ (s : State) (p : Place) (die : BitVec 3) (w v : Word32),
    let d := die.toNat
    let a := arrPage d + 0x804
    let x := maskedWrite v 0x81FF (reg s a)
    let pan := bits x 8 0
    TakesEffect s p a w v → 2 ≤ d → d - 2 < s.fronds.length → x.getLsbD 15 = true →
      ((panOwner s d pan).isNone = true → panDead s d pan = false → KeysRise (frond s d).arr.rows →
        ∃ m, exec (.arrClear p die w) s = .next m ∧ ∀ r, rowAt m d r = if r / 8192 = pan then fillRow d r else rowAt s d r) ∧
      ((panOwner s d pan).isSome = true ∨ panDead s d pan = true →
        ∃ m, exec (.arrClear p die w) s = .next m ∧ (reg m (arrPage d + 0x18)).getLsbD 4 = true ∧
          ∀ k r, 2 ≤ k → rowAt m k r = rowAt s k r))

/-- PKG.MODE is kept for the next start-up, and halves of a pair go out, return, become primary and are resynchronised (R34,
R36, R38, R43, R44, R400, R432, R433, Table 11.8) -/
def Obligations.HalvesGoOutAndReturn : Prop :=
  (∀ (s : State) (p : Place) (w v : Word32),
    let a := globalPage 0 + 0x800
    let x := maskedWrite v 3 (reg s a)
    TakesEffect s p a w v →
      (s.chip.part = .ls8 → maskOf v &&& 3 ≠ 0 →
        ∃ m, exec (.pkgModeSel p w) s = .next m ∧ m.pkg = s.pkg ∧ reg m a = x ∧
          m.store.sel = if bits x 1 0 = 3 then none else some (BitVec.ofNat 2 (bits x 1 0))) ∧
      (s.chip.part ≠ .ls8 → ∃ m, exec (.pkgModeSel p w) s = .next m ∧ m.store = s.store ∧ reg m a = reg s a)) ∧
  (∀ (s : State) (p : Place) (w v : Word32) (c : Instr),
    let a := globalPage 0 + 0x808
    let x := maskedWrite v 0x0301 (reg s a)
    let h := bits x 0 0
    let op := bits x 9 8
    c ∈ [.halfTakeOut p w, .halfReturn p w, .halfMakePrimary p w] → TakesEffect s p a w v →
    ∃ m, exec c s = .next m ∧ (op = 0 → m.pkg = s.pkg) ∧
      (op ≠ 0 → inPair s = false → m.pkg = s.pkg ∧ (reg m (globalPage 0 + 0xC)).getLsbD 0 = true) ∧
      (inPair s = true →
        (op = 1 → halfState s (1 - h) = .serving → halfState s h = .serving →
          halfState m h = .draining ∧ halfState m (1 - h) = .serving ∧ primary m = 1 - h ∧
          ∀ port ∈ hubPorts h, (s.ports[port]?).map (fun y => y.st) = some .up → (m.ports[port]?).map (fun y => y.st) = some .draining) ∧
        (op = 1 → halfState s (1 - h) ≠ .serving → m.pkg = s.pkg ∧ (reg m (globalPage 0 + 0xC)).getLsbD 0 = true) ∧
        (op = 2 → halfState s h = .out → h < s.pkg.half.length → (harvestOf s h).held = false →
          halfState m h = .returning ∧ (m.boot.returning.map (·.1)) = some h ∧ primary m = primary s) ∧
        (op = 2 → halfState s h ∈ [.serving, .draining] → m.pkg = s.pkg ∧ (reg m (globalPage 0 + 0xC)).getLsbD 0 = true) ∧
        (op = 3 → serving s h = true → primary m = h ∧ m.pkg.half = s.pkg.half) ∧
        (op = 3 → serving s h = false → m.pkg = s.pkg ∧ (reg m (globalPage 0 + 0xC)).getLsbD 0 = true))) ∧
  (∀ (s : State) (half : BitVec 1), inPair s = true → halfState s half.toNat = .draining →
    let x := (hubPorts half.toNat).foldl (fun (x : State × Bool) p => ((drainPort x.1 p).1, x.2 && (drainPort x.1 p).2)) (s, true)
    exec (.halfOutDrainEnd half) s = .next (if x.2 then halfOut x.1 half.toNat 0 else x.1)) ∧
  (∀ (s : State) (half how : Nat), half < 2 → s.pkg.half.length = 2 → s.ports.length = 6 → serving s (1 - half) = true →
    let m := halfOut s half how
    halfState m half = .out ∧ halfState m (1 - half) = halfState s (1 - half) ∧ primary m = 1 - half ∧
      (∀ d < 8, halfOf d = half → dieIn m d = false) ∧ (∀ e ∈ m.coh.copies, e.1 / 32 % 2 ≠ half) ∧
      (∀ port ∈ hubPorts half, (m.ports[port]?).map (fun y => y.st) = some .down) ∧ m.pkg.mode = s.pkg.mode) ∧
  (∀ (s : State) (half : BitVec 1) (ms : BitVec 32),
    let h := half.toNat
    inPair s = true → halfState s h = .resync → updatesDone s = true → s.fronds.length = 6 →
    (∀ k < 3, KeysRise (frond s (2 + k + 3 * (1 - h))).arr.shadow) →
    ∃ m, exec (.pairResyncDone half ms) s = .next m ∧ halfState m h = .serving ∧ m.pkg.resync = none ∧ primary m = primary s ∧
      (∀ k < 3, ∀ row, let g := shadowAt s (2 + k + 3 * (1 - h)) row
        let r := rowAt m (2 + k + 3 * h) row
        recordGood g = true → r.data = g.data ∧ r.mask = g.mask ∧
          (firstRow s (2 + k + 3 * (1 - h)) row = row → r.valid = g.valid)) ∧
      ((∀ k < 3, GoodRecords s (2 + k + 3 * (1 - h))) →
        ∀ k < 3, (frond m (2 + k + 3 * (1 - h))).arr = (frond s (2 + k + 3 * (1 - h))).arr)) ∧
  (∀ (s : State) (hub : BitVec 1),
    let h := hub.toNat
    (started s = true → present s h = true → dieIn s h = true →
      (inPair s = true → halfState s h ≠ .out →
        exec (.hubLost hub) s = .next (halfOut (event s 0x900A 3 h 0xFF [(1, h)] .steward) h 1)) ∧
      (inPair s = false → h < s.pkg.frozen.length → s.ports.length = 6 → s.fronds.length = 6 →
        ∃ m, exec (.hubLost hub) s = .next (harvestCause m (1 - h) 0x900A h [(1, h)]) ∧ halted m h = true ∧
          (∀ d, 2 ≤ d → d < 8 → halfOf d = h → (frond m d).lost = true) ∧ (∀ d < 8, halfOf d = h → dieIn m d = false) ∧
          (∀ port ∈ hubPorts h, (m.ports[port]?).map (fun y => y.st) = some .down))) ∧
    (dieIn s h = false → comingBack s h = false → exec (.hubLost hub) s = .next s))

/-- Ports split, go down and come up, fronds leave and return to service, and a failed frond or link has the effect of Table
1.7 (R28, R48, R49, R187, R364, R431, R435, Table 1.7) -/
def Obligations.PortsFrondsAndLinksChange : Prop :=
  (∀ (s : State) (p : Place) (port : BitVec 3) (w v : Word32),
    let n := port.toNat
    let a := portPage n + 0x800
    let x := maskedWrite v 3 (reg s a)
    TakesEffect s p a w v →
    ∃ m, exec (.hportBif p port w) s = .next m ∧ m.ports = s.ports ∧
      (bits x 1 0 = 3 → reg m a = reg s a ∧ m.store = s.store) ∧
      (bits x 1 0 ≠ 3 → reg m a = x ∧ m.store.bifMode = s.store.bifMode.set n (BitVec.ofNat 2 (bits x 1 0)))) ∧
  (∀ (s : State) (p : Place) (port : BitVec 3) (w v : Word32) (c : Instr) (y : Port),
    let n := port.toNat
    let a := portPage n + 0x804
    let x := maskedWrite v 1 (reg s a)
    c = .hportDown p port w ∨ c = .hportUp p port w → TakesEffect s p a w v → s.ports[n]? = some y →
      (x.getLsbD 0 = true → ∃ m, exec c s = .next m ∧
        (m.ports[n]?).map (fun z => z.st) = some (if y.st = .up then .draining else y.st)) ∧
      (x.getLsbD 0 = false → y.st ≠ .down → ∃ m, exec c s = .next m ∧ (m.ports[n]?).map (fun z => z.st) = some .up) ∧
      (x.getLsbD 0 = false → y.st = .down →
        ∃ m, exec c s = .next (event m 0x9004 0 (portHub n) 0xFF [(1, n), (1, (s.store.bifMode.getD n 0).toNat)] .steward) ∧
          m.ports[n]? = some { y with st := .up, bifMode := s.store.bifMode.getD n 0 } ∧
          (autoRel s (portHub n) = true → m.pins.heldPort.getD n false = false))) ∧
  (∀ (s : State) (port : BitVec 3) (y : Port), s.ports[port.toNat]? = some y →
    (y.st = .draining → exec (.portDownDrainEnd port) s = .next (if (drainPort s port.toNat).2
      then cutPort (drainPort s port.toNat).1 port.toNat 0 else (drainPort s port.toNat).1)) ∧
    (y.st ≠ .draining → exec (.portDownDrainEnd port) s = .next s) ∧
    (∀ how, y.st ≠ .down → y.links.length = 4 → port.toNat < s.pins.heldPort.length →
      let m := cutPort s port.toNat how;
      (m.ports[port.toNat]?).map (fun z => z.st) = some .down ∧ (∀ l < 4, (link m port.toNat l).up = false) ∧
        m.pins.heldPort.getD port.toNat false = true ∧ ∀ k, k ≠ port.toNat → m.ports[k]? = s.ports[k]?)) ∧
  (∀ (s : State) (p : Place) (die : BitVec 3) (w v : Word32) (c : Instr),
    let d := die.toNat
    let a := diePage d 0 + 0x800
    let x := maskedWrite v 1 (reg s a)
    c = .frondSvcOut p die w ∨ c = .frondSvcIn p die w → TakesEffect s p a w v → 2 ≤ d → d - 2 < s.fronds.length →
      (x.getLsbD 0 = true → (frond s d).svcOut = false →
        (frondUsed s d = true → ∃ m, exec c s = .next m ∧ (frond m d).svcOut = false ∧ (frond m d).arr = (frond s d).arr ∧ (reg m (diePage d 0 + 0xC)).getLsbD 0 = true ∧
          m.pkg = s.pkg) ∧
        (frondUsed s d = false → ∃ m, exec c s = .next (resolveAll (event m 0x9009 0 d 0xFF [(1, d), (1, 0)] .steward) 1) ∧
          dieIn m d = false ∧ (frond m d).svcOut = true ∧ (frond m d).dstate = 3 ∧ m.pins.enFr.getD (d - 2) false = false)) ∧
      (x.getLsbD 0 = false → (frond s d).svcOut = true → (frond s d).svcReturn = false → d - 2 < s.pins.enFr.length →
        ∃ m, exec c s = .next m ∧ (frond m d).svcReturn = true ∧ (frond m d).svcOut = true ∧ m.pins.enFr.getD (d - 2) false = true) ∧
      (x.getLsbD 0 = false → (frond s d).svcOut = false → ∃ m, exec c s = .next m ∧ (frond m d).svcOut = false ∧
        (frond m d).arr = (frond s d).arr ∧ m.pkg = s.pkg)) ∧
  (∀ (s : State) (die : BitVec 3) (out : SelftestOut),
    let d := die.toNat
    2 ≤ d → d - 2 < s.fronds.length → (frond s d).svcOut = true → (frond s d).svcReturn = true →
      ((∀ x ∈ out.failed, x.1 ≠ die) →
        ∃ m, exec (.frondSvcInDone die out) s = .next (resolveAll (event m 0x9009 0 d 0xFF [(1, d), (1, 1)] .steward) 1) ∧
          dieIn m d = !s.pkg.linksDown.contains d ∧ (frond m d).svcOut = false ∧ (frond m d).dstate = 0 ∧ (∀ row, rowAt m d row = fillRow d row) ∧
          ∀ k, 2 ≤ k → k ≠ d → frond m k = frond s k) ∧
      ((∃ x ∈ out.failed, x.1 = die) →
        ∃ m, exec (.frondSvcInDone die out) s = .next m ∧ frond m d = { frond s d with svcReturn := false })) ∧
  (∀ (s : State) (die : BitVec 3),
    let d := die.toNat
    2 ≤ d → d - 2 < s.fronds.length → started s = true → present s d = true → (frond s d).lost = false → dieIn s d = true →
    let t := modFrond s d fun f => { f with lost := true };
      (inPair s = false → exec (.frondLost die) s = .next (frondGone t d 0)) ∧
      (inPair s = true → let u := event t 0x9008 2 d 0xFF [(1, d), (1, 0)] .steward
        exec (.frondLost die) s = .next (if halfState s (halfOf d) = .out then u else halfOut u (halfOf d) 1))) ∧
  (∀ (s : State) (d cause : Nat), 2 ≤ d → d < 8 → d - 2 < s.fronds.length →
    let m := frondGone s d cause
    dieIn m d = false ∧ (frond m d).move = none ∧ (frond m d).moves = [] ∧ (frond m d).hce = []) ∧
  (∀ (s : State) (l : BitVec 8),
    let k := l.toNat
    let down := { s with pkg := { s.pkg with linksDown := k :: s.pkg.linksDown } }
    let u := event down 0x9001 2 (if k < 8 then k else 0xFF) 0xFF [(1, k)] .steward;
    (linkHere s k = true → s.pkg.linksDown.contains k = false → started s = true →
      (k < 8 → exec (.linkDown l) s = .next (if dieIn s k || comingBack s (halfOf k) then frondFails u k 1 else u)) ∧
      (k = 0x10 ∨ k = 0x11 → exec (.linkDown l) s = .next (if crossCut down then crossLost u else u)) ∧
      (0x20 ≤ k → inPair s = false →
        exec (.linkDown l) s = .next (failSearches u (fun q => arcBroken u (q.res.map fun r => r.die - 2)) stCascadeBroken)) ∧
      (∀ h, 0x20 ≤ k → inPair s = true → hopHalf (k - 0x20) = some h → halfState s h ≠ .out →
        exec (.linkDown l) s = .next (halfOut u h 1)) ∧
      (0x20 ≤ k → inPair s = true → (∀ h, hopHalf (k - 0x20) = some h → halfState s h = .out) →
        exec (.linkDown l) s = .next u)) ∧
    (linkHere s k = true → s.pkg.linksDown.contains k = false → 2 ≤ s.boot.stage.toNat → s.boot.stage.toNat ≤ 10 →
      (startPair s = false → exec (.linkDown l) s = .next u) ∧
      (∀ h, startPair s = true → linkHalf u k = some h →
        exec (.linkDown l) s = .next (if (startHubs u).contains h then startHalfOut u h else u)) ∧
      (startPair s = true → linkHalf u k = none → exec (.linkDown l) s = .next u)) ∧
    (s.pkg.linksDown.contains k = true → exec (.linkDown l) s = .next s) ∧
    (s.pkg.linksDown.contains k = true →
      ∃ m, (∀ j, m.pkg.linksDown.contains j = (s.pkg.linksDown.contains j && j != k)) ∧
        (started s = true → k < 8 → inPair s = false → (frond s k).lost = false → (frond s k).svcOut = false →
          exec (.linkUp l) s = .next (resolveAll (setDie m k true) 6)) ∧
        (started s = false ∨ 8 ≤ k ∨ inPair s = true → exec (.linkUp l) s = .next m)) ∧
    (s.pkg.linksDown.contains k = false → exec (.linkUp l) s = .next s))

/-- The ledger, the lichen log, MRAM and the harvest dump are written, selected, loaded, erased and released as written (R413,
R414, R415, R417, R418, R421, R422, R423, R424, R425, R426, R428) -/
def Obligations.LedgerLogAndHarvestService : Prop :=
  (∀ (s : State) (p : Place) (w v : Word32),
    let a := globalPage 8 + 0x800
    TakesEffect s p a w v → (maskedWrite v 1 (reg s a)).getLsbD 0 = true →
    ∃ m, exec (.ledgerSync p w) s = .next (ledgerWrite m false) ∧ reg m a = 0 ∧ m.life = s.life) ∧
  (∀ s : State, (managed s = true → exec .ledgerHourly s = .next (ledgerWrite s false)) ∧
    (managed s = false → exec .ledgerHourly s = .next s) ∧
    (let m := ledgerWrite s false
     m.life.gen = s.life.gen + 1 ∧ (mget m.life.slots s.life.slot).map (·.1) = some (s.life.gen + 1) ∧
       m.life.slot = (s.life.slot + 1) % 16 ∧ m.life.now.powerOn = s.life.now.powerOn ∧ m.store.tb = s.clock.tb ∧
       (∀ k, k ≠ s.life.slot → mget m.life.slots k = mget s.life.slots k) ∧ Only [.life, .store] s m)) ∧
  (∀ (s : State) (p : Place) (w : Word32) (pg : PageId),
    let a := globalPage 8 + 0x40
    let x := maskedWrite w 0xFFFF (reg s a)
    lookup s p a = some (a, pg, .write) → maskOf w ≠ 0 → mget s.regs.guards (ldKey p (pageBase a)) = none →
    ∃ m, exec (.ledgerSelWrite p w) s = .next m ∧ reg m a = x ∧ SameRegsBut s m [a, ledgerStat] ∧ Only [.regs] s m ∧
      ((ledgerField s x.toNat).isSome = true → (reg m ledgerStat).getLsbD 0 = true) ∧
      (ledgerField s x.toNat = none → (reg m ledgerStat).getLsbD 0 = false ∧ (reg m ledgerStat).getLsbD 1 = true)) ∧
  (∀ s : State, (s.pins.enHub.any id) = true →
    ∃ m, m.life.now.powerOn = s.life.now.powerOn + 1 ∧ m.life.now.life = lifeOf s m.life.now.weighted ∧
      (∀ d < 8, m.life.now.weighted.getD d 0 = s.life.now.weighted.getD d 0 + (if present s d && railOn s d
        then accel (s.tally.junctions.getD d 0).toInt * 1024 / 3600 / 2 ^ 32 else 0)) ∧ Only [.life] s m ∧
      exec .lifeAccumulate s = .next (if s.life.now.life.toNat / 4096 < m.life.now.life.toNat / 4096
        then event m 0xA00B 0 0xFF 0xFF [(4, m.life.now.life.toNat)] .steward else m)) ∧
  (∀ (s : State) (rail : BitVec 4) (mv ext : Word) (dur : BitVec 32),
    (s.boot.stage ≠ 0 → mhas s.life.excursions rail.toNat = false →
      ∃ m, exec (.railExcursionBegin rail mv) s = .next m ∧ mget m.life.excursions rail.toNat = some mv ∧
        m.life.now = s.life.now ∧ Only [.life] s m) ∧
    (mhas s.life.excursions rail.toNat = true → KeysRise s.life.excursions →
      ∃ m, exec (.railExcursion rail ext dur) s = .next (event m 0x700D 1 0xFF 0xFF [(1, rail.toNat), (2, ext.toNat), (4, dur.toNat)] .steward) ∧
        mget m.life.excursions rail.toNat = none ∧ m.life.now.railExc = s.life.now.railExc.modify rail.toNat inc32 ∧ Only [.life] s m) ∧
    (mhas s.life.excursions rail.toNat = false → exec (.railExcursion rail ext dur) s = .next s)) ∧
  (∀ s : State,
    let m := { s with log := { s.log with used := 0, shed := List.replicate 16 0 } }
    exec .logSecondBoundary s = .next (if s.log.shed.all (· == 0) then m
      else event m 0xA008 1 0xFF 0xFF (s.log.shed.map fun n => (2, sat n 16)) .steward)) ∧
  (∀ (s : State) (p : Place) (w : Word32) (pg : PageId),
    let a := globalPage 9 + 0x70
    lookup s p a = some (a, pg, .write) → maskOf w ≠ 0 → mget s.regs.guards (ldKey p (pageBase a)) = none →
    ∃ m, exec (.logSelWrite p w) s = .next m ∧ reg m a = maskedWrite w 0xFFFF (reg s a) ∧ m.log.record = none ∧
      m.log.loading = some (regWide m a 3) ∧ m.log.circ = s.log.circ ∧ Only [.regs, .log] s m) ∧
  (∀ (s : State) (n : Nat), s.log.loading = some n →
    (∀ r, findRecord s n = some r →
      exec .logRecordLoaded s = .next { s with log := { s.log with loading := none, record := some (recordImage r) } }) ∧
    (findRecord s n = none → ∃ m, exec .logRecordLoaded s = .next m ∧ m.log.loading = none ∧ m.log.record = none ∧
      (reg m (globalPage 9 + 0xC)).getLsbD 2 = true ∧ Only [.log, .regs] s m)) ∧
  (∀ (s : State) (p : Place) (hub : BitVec 1) (w v : Word32) (c : Instr),
    let a := diePage hub.toNat 0x16 + 0x800
    let x := maskedWrite v 0x8003 (reg s a)
    c = .mramEraseConfig p hub w ∨ c = .mramEraseLog p hub w → TakesEffect s p a w v → x.getLsbD 15 = true →
      (bits x 1 0 = 1 → ∃ m, exec c s = .next m ∧ m.store.erase = true ∧ m.log = s.log) ∧
      (bits x 1 0 = 2 → s.pins.straps.rmaEn = true →
        ∃ m, exec c s = .next (event m 0xA00C 0 0xFF 0xFF [(4, s.log.circ.length)] .steward) ∧ m.log.circ = [] ∧
          m.log.hist = s.log.hist ∧ m.store = s.store) ∧
      (bits x 1 0 = 2 → s.pins.straps.rmaEn = false →
        ∃ m, exec c s = .next (event m 0xA00D 1 0xFF 0xFF [] .steward) ∧ m.log = s.log ∧ m.store = s.store ∧
          (reg m (diePage hub.toNat 0x16 + 0xC)).getLsbD 0 = true)) ∧
  (∀ (s : State) (hub : BitVec 1) (sector : BitVec 11),
    let k := 2048 * hub.toNat + sector.toNat
    managed s = true → present s hub.toNat = true → (mget s.life.sectorTb k).getD 0 + twoYears ≤ s.clock.tb →
    ∃ m, exec (.mramSectorRefresh hub sector) s = .next m ∧ mget m.life.sectorTb k = some s.clock.tb ∧
      m.store = s.store ∧ m.mem = s.mem) ∧
  (∀ (s : State) (hub : BitVec 1) (partly : Bool), (harvestOf s hub.toNat).busy = true → hub.toNat < s.harvest.length →
    ∃ m, exec (.harvestDumpDone hub partly) s = .next (ledgerWrite m false) ∧ m.life.now.harvests = inc32 s.life.now.harvests ∧
      harvestOf m hub.toNat = { harvestOf s hub.toNat with busy := false, valid := true, partly := partly, ns := nowNs s }) ∧
  (∀ (s : State) (p : Place) (w v : Word32),
    let h := harvestHub s
    (TakesEffect s p (globalPage 0xA + 0x800) w v → (maskedWrite v 1 (reg s (globalPage 0xA + 0x800))).getLsbD 0 = true →
      present s h = true →
      ∃ m, exec (.harvestTake p w) s = .next (harvestCause m h 0xA006 h [(1, h)]) ∧ m.harvest = s.harvest ∧ Only [.regs] s m) ∧
    (TakesEffect s p (globalPage 0xA + 0x804) w v → (maskedWrite v 1 (reg s (globalPage 0xA + 0x804))).getLsbD 0 = true →
      (harvestOf s h).held = true → (harvestOf s h).busy = false →
      ∃ m, exec (.harvestRelease p w) s = .next (event m 0xA005 0 h 0xFF [(1, h)] .steward) ∧ (harvestOf m h).held = false ∧
        (harvestOf m h).valid = false ∧ ((∀ k < s.harvest.length, k ≠ h → (harvestOf s k).held = false) → m.pins.fault = false))) ∧
  (∀ (s : State) (p : Place) (w : Word32) (pg : PageId),
    let a := globalPage 0xA + 0x44
    lookup s p a = some (a, pg, .write) → maskOf w ≠ 0 → mget s.regs.guards (ldKey p (pageBase a)) = none →
    ∃ m, exec (.harvestOfsWrite p w) s = .next m ∧ reg m a = maskedWrite w 0xFFC0 (reg s a) ∧ Only [.regs] s m ∧
      (let ofs := regWide m a 2
       ∀ j < 32, reg m (globalPage 0xA + 0x80 + 4 * j) = if (harvestOf s (harvestHub s)).valid
        then dumpByte s (harvestHub s) (ofs + 2 * j + 1) ++ dumpByte s (harvestHub s) (ofs + 2 * j) else 0)) ∧
  (∀ (s : State) (hub : BitVec 1) (core : BitVec 2) (code : Word), present s hub.toNat = true →
    let items := [(1, core.toNat), (2, code.toNat)]
    (started s = true → exec (.fwFault hub core code) s = .next (harvestCause s hub.toNat 0x900D hub.toNat items)) ∧
    (5 ≤ s.boot.stage.toNat → s.boot.stage.toNat ≤ 0x0A →
      exec (.fwFault hub core code) s = .next (fatalEvent s 0x900D hub.toNat [hub.toNat] items))) ∧
  (∀ (s : State) (hub code die : Nat) (items : List (Nat × Nat)), inPair s = false → hub ∈ hubs s →
    (∀ h ∈ hubs s, dieIn s h = true ∧ (harvestOf s h).held = false ∧ h < s.harvest.length ∧ h < s.pkg.frozen.length) →
    let m := harvestCause s hub code die items
    m.pins.fault = true ∧ ∀ h ∈ hubs s, halted m h = true ∧ (harvestOf m h).held = true ∧ (harvestOf m h).busy = true ∧
      (harvestOf m h).cause = BitVec.ofNat 16 code)

/-- Start-up begins at PORST_N, goes stage by stage as every hub ends each, fails as Table 12.5 states, and power falls to
off-hold (R360, R368, R436, R437, R438, R440, R441, R447, R449, R453, R462, Table 12.2) -/
def Obligations.StartupRunsStageByStage : Prop :=
  (∀ (s : State) (straps : Straps) (tj : Word) (mramOk edge : Bool) (bad : List (BitVec 4)), s.pins.porstN = false →
    ∃ m, exec (.porstNRelease straps tj mramOk edge bad) s = .next m ∧ m.pins.porstN = true ∧ m.pins.straps = straps ∧
      m.tables = [] ∧ m.rings = [] ∧ m.keys = [] ∧ m.clock.stale = true ∧
      (mramOk = false → m.boot.stage = 1 ∧ m.boot.hold = true ∧ m.pins.fault = true) ∧
      (mramOk = true → s.boot.tripped = true → 400 < tj.toInt → m.boot.stage = 1 ∧ m.boot.hold = true ∧ m.pins.fault = true) ∧
      (mramOk = true → s.boot.tripped = false → straps.testMode.toNat < 2 → s.pins.pgHub = [false, false] →
        s.pins.enHub = [false, false] →
        m.boot.stage = 2 ∧ m.clock.tb = resumeTb s ∧ m.clock.cal = s.store.cal ∧ (∀ h ∈ hubs s, m.pins.enHub.getD h false = true) ∧
        ∀ k g c, bestSlot (s.life.slots.filter fun e => !(bad.map fun x => x.toNat).contains e.1) = some (k, g, c) →
          m.life.gen = g ∧ m.life.slot = (k + 1) % 16 ∧ m.life.now.cycles = inc32 c.cycles ∧
          m.life.now.unorderly = if s.store.orderly then c.unorderly else inc32 c.unorderly)) ∧
  (∀ s : State, s.pins.porstN = true →
    ∃ m, exec .porstNAssert s = .next m ∧ m.boot.stage = 0 ∧ m.pins.porstN = false ∧ m.pins.fault = false ∧
      m.pins.enHub = [false, false] ∧ m.pins.enIo = [false, false] ∧ m.pins.enFr = List.replicate 6 false ∧ m.store = s.store ∧
      m.life = s.life ∧ m.clock = s.clock ∧ m.tables = [] ∧ m.keys = [] ∧ m.log.hist = s.log.hist ∧ m.log.circ = s.log.circ) ∧
  (∀ (s : State) (h k ms : Nat), returnsAt s h k = false → 2 ≤ s.boot.stage.toNat → s.boot.stage.toNat ≤ 10 →
    let t := { s with boot := { s.boot with hubDone := s.boot.hubDone.set h true } };
    ((∀ g ∈ startHubs s, t.boot.hubDone.getD g false = true) → endStageMs s h k ms = nextStage t ms) ∧
      ((∃ g ∈ startHubs s, t.boot.hubDone.getD g false = false) → endStageMs s h k ms = t) ∧
      (boardTest s = false → (nextStage t ms).boot.stage = s.boot.stage + 1)) ∧
  (∀ (s : State) (h k die r : Nat), startPair s = false → returnsHub s h = false →
    (startFail s h k die r).boot.stage = 0x7E ∧ (startFail s h k die r).pins.fault = true ∧ (startFail s h k die r).boot.failed = true) ∧
  (∀ (s : State) (hub : BitVec 1),
    let h := hub.toNat
    (s.pins.enHub.getD h false = true → s.pins.pgHub.getD h true = false →
      let t := { s with pins := { s.pins with pgHub := s.pins.pgHub.set h true } };
      exec (.pgHub hub) s = .next (if atStage s h 2 then endStage t h 2 else t)) ∧
    (s.pins.enIo.getD h false = true → s.pins.pgIo.getD h true = false →
      let t := { s with pins := { s.pins with pgIo := s.pins.pgIo.set h true } };
      exec (.pgIo hub) s = .next (if atStage s h 7 then endStage t h 7 else t)) ∧
    (atStage s h 3 = true → exec (.pllLock hub) s = .next (endStage s h 3)) ∧
    (atStage s h 3 = false → exec (.pllLock hub) s = .next s) ∧
    (∀ f, s.fw[h]? = some f → atStage s h 4 = true → h = 0 ∨ startPair s = true ∨ inPair s = true →
      let ok := fun k => ((slotImage f k).map (imgOk s h)).getD false
      (∀ k, pendingSlot f = some k → exec (.firmwareVerified hub) s = .next (if ok k then takeImage s h k true else fallBack s h 0)) ∧
      (pendingSlot f = none → exec (.firmwareVerified hub) s = .next (if ok f.lastActive then takeImage s h f.lastActive false
        else if ok (1 - f.lastActive) then takeImage s h (1 - f.lastActive) false else startFail s h 4 h 2))) ∧
    (∀ found : MramFound, atStage s h 5 = true → found.storeLost = false →
      let t := scanLog s h (if h = 0 then found.open0 else found.open1);
      exec (.mramRecoveryDone hub found) s = .next (endStage { t with store := { t.store with scratch := none } } h 5)) ∧
    (scanLog s h none = s ∧ ∀ q : BitVec 48, s.log.next ≤ q.toNat →
      (let t := scanLog s h (some (q, true))
       openRecord q ∈ t.log.circ ∧ (openRecord q).seq = q ∧ t.log.next = q.toNat + 1) ∧
      ∃ u, scanLog s h (some (q, false)) = event u 0xA007 1 0xFF 0xFF [(6, q.toNat)] .steward ∧ u.log.next = q.toNat + 1 ∧
        u.log.circ = s.log.circ ∧ u.log.hist = s.log.hist) ∧
    (∀ found : MramFound, atStage s h 5 = true → returnsAt s h 5 = false → (if h = 0 then found.open0 else found.open1) = none →
      found.storeLost = true →
      ∃ m, exec (.mramRecoveryDone hub found) s = .next (endStage (event m 0x9010 1 h 0xFF [(1, h)] .steward) h 5) ∧
        m.store.minSec = s.chip.fusedMin ∧ m.store.retired = s.store.retired ∧ m.boot.mode = 0) ∧
    (∀ out : SelftestOut, atStage s h 7 = true → boardTest s = false → s.pins.enIo.getD h true = false →
      (∀ x ∈ out.failed, present s x.1.toNat = false ∨ halfOf x.1.toNat ≠ h) → exec (.selftestDone hub out) s = .next (ioNext s h)) ∧
    (∀ (out : SelftestOut) (x : BitVec 3 × Word × Word), atStage s h 7 = true → boardTest s = false →
      s.pins.enIo.getD h true = false → out.failed = [x] → x.1.toNat = h → present s h = true →
      exec (.selftestDone hub out) s = .next (startFault (selftestFail s x) h)) ∧
    (∀ out : FillOut, atStage s h 8 = true → out.late = [] → out.badPans = [] → s.fronds.length = 6 →
      ∃ m, exec (.arrayFillDone hub out) s = .next (endStage m h 8) ∧ (∀ d ∈ startFronds s h, ∀ row, rowAt m d row = fillRow d row) ∧
        Only [.fronds, .regs] s m) ∧
    (∀ pop : DramPop, atStage s h 9 = true →
      (popOk pop = true → popAlike s h pop = true → h < s.mem.pop.length →
        ∃ m, exec (.dramTrainingDone hub pop) s = .next (endStage m h 9) ∧ m.mem.pop.getD h none = some pop ∧
          m.mem.installed = s.mem.installed.set h (installedOf pop) ∧ m.pins.heldDdr.getD h none = none ∧ Only [.pins, .mem] s m) ∧
      (popOk pop = false → exec (.dramTrainingDone hub pop) s = .next (startFail s h 9 h 4))) ∧
    (∀ ms : BitVec 32, atStage s h 0x0A = true → exec (.dramFillDone hub ms) s = .next (endStageMs s h 0x0A ms.toNat)) ∧
    (∀ f, s.fw[h]? = some f → f.asPending = true → 4 ≤ s.boot.stage.toNat → s.boot.stage.toNat ≤ 10 →
      exec (.fwWatchdog hub) s = .next (fallBack s h 1)) ∧
    (∀ channel : BitVec 3, present s h = true → channel.toNat ≤ 5 →
      (started s = true → dieIn s h = true →
        exec (.dramChannelLost hub channel) s = .next (harvestCause s h 0x300F h [(1, h), (1, channel.toNat)])) ∧
      (started s = false → atStage s h 0x0A = true → exec (.dramChannelLost hub channel) s =
        .next (startFault (fatalEvent s 0x300F h [h] [(1, h), (1, channel.toNat)]) h)))) ∧
  (∀ (s : State) (h reason : Nat), h < s.fw.length → returnsHub s h = false →
    let m := fallBack s h reason
    m.boot.fallback = true ∧ (∀ f, m.fw[h]? = some f → pendingSlot f = none ∧ f.loaded = none ∧ f.asPending = false)) ∧
  (∀ (s : State) (f : BitVec 3),
    let n := f.toNat
    let h := halfOf (n + 2)
    n < 6 → s.pins.enFr.getD n false = true → s.pins.pgFr.getD n true = false →
      let t := { s with pins := { s.pins with pgFr := s.pins.pgFr.set n true } };
      exec (.pgFr f) s = .next (if atStage s h 6 && (startFronds s h).all fun d => t.pins.pgFr.getD (d - 2) false
        then endStage t h 6 else t)) ∧
  (∀ (s : State) (die : BitVec 3) (k r : Nat),
    let d := die.toNat
    (d < 2 → (k, r) ∈ [(2, 1), (4, 2), (7, 1), (8, 3), (9, 4), (0x0A, 4)] → atStage s d k = true → (∀ j < 12, j ≠ k → atStage s d j = false) →
      exec (.stageLimitExpire die) s = .next (startFail s d k d r)) ∧
    (d < 2 → atStage s d 3 = true → atStage s d 2 = false →
      let u := fatalEvent s 0x700B 0xFF [d] []
      exec (.stageLimitExpire die) s = .next (if returnsHub u d then halfOut u d 1 else startStop u)) ∧
    (2 ≤ d → atStage s (halfOf d) 8 = true → atStage s (halfOf d) 6 = false → d ∈ startFronds s (halfOf d) →
      exec (.stageLimitExpire die) s = .next (frondFail s 8 d 3))) ∧
  (∀ (s : State) (tj : Word), s.boot.stage = 1 → s.boot.hold = true → s.boot.tripped = true → tj.toInt ≤ 400 →
    ∃ m, exec (.highTemperatureHoldEnd tj) s = .next (leaveOne m) ∧ m.boot.hold = false ∧ m.boot.tripped = false ∧
      m.pins.fault = false ∧ m.tally.tj = tj) ∧
  (∀ (s : State) (input : BitVec 4),
    let i := input.toNat
    let rail := if i < 2 then 2 + i else 4 + i
    let good := if i < 2 then s.pins.pgHub.getD i false else if i < 8 then s.pins.pgFr.getD (i - 2) false else s.pins.pgIo.getD (i - 8) false
    (i < 10 → good = true → (2 ≤ i → i < 8 → (frond s i).sleeping = none) →
      ∃ m, exec (.pgFall input) s = .next m ∧ m.life.now.railExc = s.life.now.railExc.modify rail inc32 ∧ m.freeCtr = s.freeCtr + 1 ∧
        (i < 2 → m.pins.pgHub.getD i true = false) ∧ (2 ≤ i → i < 8 → m.pins.pgFr.getD (i - 2) true = false) ∧
        (8 ≤ i → m.pins.pgIo.getD (i - 8) true = false)) ∧
    (∀ o, 2 ≤ i → i < 8 → good = true → (frond s i).sleeping = some o → i - 2 < s.fronds.length →
      ∃ m, exec (.pgFall input) s = .next m ∧ (frond m i).sleeping = none ∧
        reg m (sleepResAddr i) = BitVec.ofNat 16 (16384 * 2 + 1024 * 9 + 256 * o.target + 0x05)) ∧
    (good = false → i < 10 → exec (.pgFall input) s = .next s)) ∧
  (∀ (s : State) (port : BitVec 3) (level : Bool) (y : Port), s.ports[port.toNat]? = some y → y.links.length = 4 → port.toNat < 6 →
    ∃ m, exec (.hostPerst port level) s = .next m ∧ m.pins.perst = s.pins.perst.set port.toNat level ∧
      (level = true → Only [.pins] s m) ∧ (level = false → ∀ l < 4, (link m port.toNat l).up = false)) ∧
  (∀ s : State,
    let m := offHold s
    m.boot.stage = 0x7F ∧ m.tables = [] ∧ m.rings = [] ∧ m.seats = [] ∧ m.keys = [] ∧ m.extents = [] ∧ m.mem.bytes = [] ∧
      m.store = s.store ∧ m.life = s.life ∧ m.clock = s.clock ∧ m.log.circ = s.log.circ ∧ m.log.hist = s.log.hist ∧
      m.pins.enHub = [false, false] ∧ m.pins.heldDdr = s.pins.heldDdr.map (fun x => some (x.getD false)) ∧
      m.pins.heldSb.isSome = true ∧ (s.pins.heldSb.isSome = true → m.pins.heldSb = s.pins.heldSb) ∧ m.pins.heldPort = List.replicate 6 true) ∧
  (∀ (s : State) (die : BitVec 3) (tj : Word), s.boot.stage ≠ 0 → s.boot.stage ≠ 0x7F → present s die.toNat = true →
    488 ≤ tj.toInt →
    ∃ m, exec (.thermTrip die tj) s = .next m ∧ m.boot.stage = 0x7F ∧ m.boot.tripped = true ∧ m.tables = [] ∧ m.keys = [] ∧
      m.pins.enHub = [false, false]) ∧
  (∀ s : State, s.boot.stage ≠ 0 → s.boot.stage ≠ 0x7F →
    ∃ m, exec .epdN s = .next (offHold (assertFault (event m 0x9011 3 0xFF 0xFF [(1, 0)] .steward))) ∧ m.log.scanned = true) ∧
  (∀ s : State, s.clock.refLost = false →
    (started s = true → ∃ m, exec .clkRefLost s = .next m ∧ m.clock.refLost = true ∧ m.pkg.frozen = [true, true] ∧
      m.pkg.memActive = [false, false] ∧ m.pins.fault = true) ∧
    (3 ≤ s.boot.stage.toNat → s.boot.stage.toNat ≤ 10 → ∃ m, exec .clkRefLost s = .next m ∧ m.boot.stage = 0x7E ∧ m.pins.fault = true)) ∧
  (∀ (s : State) (p : Place) (w v : Word32),
    let a := globalPage 0 + 0x804
    TakesEffect s p a w v → (maskedWrite v 1 (reg s a)).getLsbD 0 = true →
    ∃ m, exec (.pkgReinit p w) s = .next (beginStart (orderlyDown m) false true m.tally.tj []) ∧ m.tables = s.tables ∧
      m.life = s.life ∧ Only [.regs] s m)

/-- The sideband, SPDM and boundary-scan commands answer and act as Tables 13.9 and 12.4 and their chapters state (R324, R417,
R357, R424, R442, R446, R450, R452, R470, R471, R472, R476) -/
def Obligations.SidebandAndScanAnswer : Prop :=
  (∀ s : State, exec .stageQuery s =
    .next (if s.boot.stage = 0 then answer s 0x01 1 [] else answer (sideWake s) 0x01 0 [startupStat s])) ∧
  (∀ s : State, Only [.tally, .regs] s (sideWake s) ∧ ∀ h ∈ hubs s, (sideWake s).tally.hubDoze.getD h false = false) ∧
  (∀ s : State, (startupStat s).toNat % 256 = s.boot.stage.toNat ∧ (startupStat s).getLsbD 15 = s.boot.failed ∧
    (startupStat s).getLsbD 11 = s.clock.rc) ∧
  (∀ (s : State) (id : Word) (seq : BitVec 48) (confirm : BitVec 8), managed s = false →
    exec .health s = .next (answer s 0x02 1 []) ∧ exec (.ledgerRead id) s = .next (answer s 0x03 1 []) ∧
      exec (.logRead seq) s = .next (answer s 0x04 1 []) ∧ exec .orderlyPd s = .next (answer s 0x10 1 []) ∧
      exec (.emergencyPd confirm) s = .next (answer s 0x11 1 [])) ∧
  (∀ s : State, managed s = true →
    (∃ dies halves, exec .health s = .next (answer (sideWake s) 0x02 0 [dies, halves, s.tally.tj.setWidth 64,
        BitVec.ofNat 64 (s.tally.derate / 1000), s.pkg.lastFail.setWidth 64, if s.pins.fault then 1 else 0]) ∧
      dies.toNat = s.pkg.dies.toNat ∧ halves.getLsbD 0 = halfServes s 0 ∧ halves.getLsbD 1 = halfServes s 1) ∧
    (∀ id : Word, (∀ v, ledgerField s id.toNat = some v →
        exec (.ledgerRead id) s = .next (answer (sideWake s) 0x03 0 [BitVec.ofNat 64 v, s.life.gen])) ∧
      (ledgerField s id.toNat = none → exec (.ledgerRead id) s = .next (answer (sideWake s) 0x03 2 []))) ∧
    (∀ seq : BitVec 48, ∃ m, (∀ q, q ∈ m.log.unread ↔ q ∈ s.log.unread ∧ q ≠ seq.toNat) ∧ m.log.circ = s.log.circ ∧ Only [.log] (sideWake s) m ∧
      (∀ r, findRecord s seq.toNat = some r → exec (.logRead seq) s = .next (send m (.record (recordImage r)))) ∧
      (findRecord s seq.toNat = none → exec (.logRead seq) s = .next (answer m 0x04 0 []))) ∧
    ((∃ h ∈ s.harvest, h.busy = true) → exec .orderlyPd s = .next (sideWake s)) ∧
    ((∀ h ∈ s.harvest, h.busy = false) → ∃ m, exec .orderlyPd s = .next m ∧ m.boot.stage = 0x7F ∧ m.store.orderly = true ∧
      m.store.tb = s.clock.tb ∧ m.tables = [] ∧ m.keys = []) ∧
    (∀ confirm : BitVec 8, (confirm = 0xA5 → ∃ m, exec (.emergencyPd confirm) s = .next (offHold m) ∧ m.pins.fault = true ∧
        m.clock = s.clock) ∧
      (confirm ≠ 0xA5 → exec (.emergencyPd confirm) s = .next (answer (sideWake s) 0x11 2 [])))) ∧
  (∀ s : State, (s.boot.stage = 0x7F ∨ s.boot.stage = 0x7E →
      exec .restart s = .next (beginStart (answer s 0x12 0 []) false true s.tally.tj [])) ∧
    (s.boot.stage ≠ 0x7F → s.boot.stage ≠ 0x7E → exec .restart s = .next (answer s 0x12 2 []))) ∧
  (∀ (s : State) (hub : BitVec 1) (image : FwImage) (f : Fw), s.fw[hub.toNat]? = some f → hub.toNat ∈ hubs s →
    managed s = true ∨ s.boot.stage = 0x7E → f.slots.length = 2 →
    let k := 1 - f.loaded.getD f.lastActive
    ∃ m, exec (.pldmFirmwareUpdate hub image) s = .next (send m (.mctp 0x05 [0])) ∧
      (m.fw[hub.toNat]?).map (fun g => (g.loaded, g.slots[k]?)) = some (f.loaded, some ⟨some image, image.signed⟩) ∧
      (∀ j, j ≠ k → ∀ g, m.fw[hub.toNat]? = some g → g.slots[j]? = f.slots[j]?) ∧ Only [.fw] (sideWake s) m) ∧
  (∀ (s : State) (sensor : PldmSensor), managed s = true →
    ∃ m, exec (.pldmPlatformMonitoring sensor) s = .next m ∧ m.wire = .mctp 0x02 [0, sensorValue s sensor] :: s.wire ∧
      m.freeCtr = s.freeCtr + 1 ∧ Only [.wire, .freeCtr] (sideWake s) m) ∧
  (∀ (s : State) (d : BitVec 3), sensorValue s (.junction d) = (s.tally.junctions.getD d.toNat 0).setWidth 64) ∧
  (∀ (s : State) (e : BitVec 8), managed s = true →
    (e ≠ 0 → e ≠ 0xFF → ∃ m, exec (.mctpControl (.setEid e)) s = .next (send m (.mctp 0x01 [0, e.setWidth 64])) ∧ m.mctp.eid = e ∧
      Only [.mctp] (sideWake s) m) ∧
    (e = 0 ∨ e = 0xFF → exec (.mctpControl (.setEid e)) s = .next (send (sideWake s) (.mctp 0x01 [2, s.mctp.eid.setWidth 64]))) ∧
    exec (.mctpControl .getEid) s = .next (send (sideWake s) (.mctp 0x02 [0, s.mctp.eid.setWidth 64])) ∧
    ∀ c : MctpCmd, ∃ m, exec (.mctpControl c) s = .next m ∧ m.wire.length = s.wire.length + 1 ∧ Only [.mctp, .wire, .freeCtr] (sideWake s) m) ∧
  (∀ (s : State) (ch : SpdmChan) (offset length : Word) (nonce random : BitVec 256) (index : BitVec 8) (verified : Bool),
    spdmUp s ch = true →
    (∀ c code n, (c, code, n) ∈ [(Instr.getDigests ch, 0x81, 6), (.getCertificate ch offset length, 0x82, (length.toNat + 7) / 8),
        (.challenge ch nonce, 0x83, 12)] → exec c s = .next (send (fresh (chanWake s ch)) (.spdm ch code 0 (spdmWords s n)))) ∧
    (index ≠ 2 → exec (.getMeasurements ch index) s = .next (send (fresh (chanWake s ch)) (.spdm ch 0xE0 0 (spdmWords s 6)))) ∧
    (index = 2 → exec (.getMeasurements ch index) s = .next (send (fresh (chanWake s ch)) (.spdm ch 0xE0 0
      [(((s.fw[s.pkg.roleHub]?).map fun f : Fw => f.running).getD 0).setWidth 64]))) ∧
    (∃ m, exec (.keyExchange ch random) s = .next (send (fresh m) (.spdm ch 0xE4 0 (spdmWords s 18))) ∧
      spdmOf m ch = { spdmOf s ch with exchanging := true } ∧ Only [.lds, .mctp] (chanWake s ch) m) ∧
    ((spdmOf s ch).exchanging = true → ∃ m, exec (.finish ch verified) s =
        .next (send m (.spdm ch 0xE5 (if verified then 0 else 0x06) [])) ∧ (spdmOf m ch).exchanging = false ∧
      (spdmOf m ch).secure = ((spdmOf s ch).secure || verified) ∧ Only [.lds, .mctp] (chanWake s ch) m) ∧
    ((spdmOf s ch).exchanging = false → exec (.finish ch verified) s = .next s)) ∧
  (∀ s : State,
    (∃ m, exec .bypass s = .next (send m (.tdo [false])) ∧ m.jtag.ir = .bypass ∧ m.jtag.driven = [] ∧ Only [.jtag] s m) ∧
    (∃ m, exec .idcode s = .next (send m (.tdo ((List.range 32).map fun i => (idcode s).getLsbD i))) ∧ m.jtag.ir = .idcode ∧
      m.jtag.driven = [] ∧ Only [.jtag] s m) ∧ (idcode s).getLsbD 0 = true ∧
    (∀ c i, (c, i) ∈ [(Instr.extest, JtagIr.extest), (.extestPulse, .extestPulse), (.extestTrain, .extestTrain)] →
      (s.boot.stage = 0x7D → ∃ m, exec c s = .next m ∧ m.jtag.ir = i ∧ m.jtag.cells = s.jtag.cells ∧ Only [.jtag] s m ∧
        (∀ e, e ∈ m.jtag.driven ↔ e ∈ s.jtag.cells ∧ 20 ≤ e.1)) ∧
      (s.boot.stage ≠ 0x7D → ∃ m, exec c s = .next (send m (.tdo [false])) ∧ m.jtag.ir = .bypass ∧ m.jtag.driven = [] ∧
        Only [.jtag] s m))) ∧
  (∀ (s : State) (l : List (BitVec 13 × Bool)),
    ∃ m, exec (.samplePreload l) s = .next m ∧ m.jtag.ir = .samplePreload ∧ m.jtag.driven = [] ∧
      (∀ k, (∀ x ∈ l, x.1.toNat ≠ k) → mget m.jtag.cells k = mget s.jtag.cells k) ∧
      (∀ l' x, l = l' ++ [x] → mget m.jtag.cells x.1.toNat = some x.2) ∧ Only [.jtag, .wire, .freeCtr] s m)
end

