-- ==== Sys2Proof/Laws/Bytes.lean ====
section
/-!
SUPPORT. Finite maps and memory bytes: a read after a write, what a write leaves, and the canonical form.
-/
namespace Sys2Proof.Machine

/-- Every key of the list is at least a bound, and keys rise strictly. -/
def Rising {α : Type} (lo : Nat) : SMap α → Prop
  | [] => True
  | (k, _) :: t => lo ≤ k ∧ Rising (k + 1) t

theorem Rising.mono {α : Type} {lo lo' : Nat} {m : SMap α} (h : Rising lo m) (hl : lo' ≤ lo) : Rising lo' m := by
  cases m with
  | nil => trivial
  | cons e t => exact ⟨Nat.le_trans hl h.1, h.2⟩

/-- A read after a write. -/
theorem mget_mput {α : Type} (m : SMap α) (n k : Nat) (x : α) :
    mget (mput m n x) k = if k = n then some x else mget m k := by
  induction m with
  | nil => simp only [mput, mget]; split <;> simp
  | cons e t ih =>
    obtain ⟨a, v⟩ := e
    simp only [mput]
    split
    · next h => subst h; simp only [mget]; split <;> simp
    · split
      · next h1 h2 =>
        simp only [mget]
        split
        · rfl
        · next h3 =>
          split
          · next h4 => rw [if_neg (by omega), if_pos (by omega)]
          · rfl
      · next h1 h2 =>
        simp only [mget]
        split
        · next h3 => rw [if_neg (by omega)]
        · split
          · next h3 h4 => rw [if_neg (by omega)]
          · exact ih

@[simp] theorem mget_mput_self {α : Type} (m : SMap α) (n : Nat) (x : α) : mget (mput m n x) n = some x := by
  rw [mget_mput, if_pos rfl]

theorem mget_mput_ne {α : Type} (m : SMap α) {n k : Nat} (x : α) (h : k ≠ n) : mget (mput m n x) k = mget m k := by
  rw [mget_mput, if_neg h]

/-- A change of one key's value. -/
theorem mget_mmod {α : Type} (m : SMap α) (n k : Nat) (f : α → α) :
    mget (mmod m n f) k = if k = n then (mget m n).map f else mget m k := by
  unfold mmod
  split
  · next v e => rw [mget_mput]; split <;> simp [e]
  · next e => split
              · next h => subst h; simp [e]
              · rfl

theorem Rising.mput {α : Type} {m : SMap α} {lo n : Nat} (x : α) (h : Rising lo m) (hn : lo ≤ n) : Rising lo (mput m n x) := by
  induction m generalizing lo with
  | nil => exact ⟨hn, trivial⟩
  | cons e t ih =>
    obtain ⟨a, v⟩ := e
    simp only [Machine.mput]
    split
    · next e => subst e; exact ⟨hn, h.2⟩
    · split
      · next h1 h2 => exact ⟨hn, h2, h.2⟩
      · next h1 h2 => exact ⟨h.1, ih h.2 (by omega)⟩

theorem Rising.mdel {α : Type} {m : SMap α} {lo n : Nat} (h : Rising lo m) : Rising lo (mdel m n) := by
  induction m generalizing lo with
  | nil => trivial
  | cons e t ih =>
    obtain ⟨a, v⟩ := e
    simp only [Machine.mdel]
    split
    · exact h.2.mono (by have := h.1; omega)
    · split
      · exact h
      · exact ⟨h.1, ih h.2⟩

/-- A read below every key finds nothing. -/
theorem mget_lt {α : Type} {m : SMap α} {lo k : Nat} (h : Rising lo m) (hk : k < lo) : mget m k = none := by
  cases m with
  | nil => rfl
  | cons e t =>
    obtain ⟨a, v⟩ := e
    have := h.1
    simp only [mget]
    rw [if_neg (by omega), if_pos (by omega)]

/-- A read after a removal. -/
theorem mget_mdel {α : Type} (m : SMap α) (n k : Nat) (hm : Rising 0 m) :
    mget (mdel m n) k = if k = n then none else mget m k := by
  suffices h : ∀ lo, Rising lo m → mget (mdel m n) k = if k = n then none else mget m k from h 0 hm
  clear hm
  induction m with
  | nil => intro lo _; simp [mdel, mget]
  | cons e t ih =>
    intro lo h
    obtain ⟨a, v⟩ := e
    simp only [mdel]
    split
    · next e =>
      subst e
      split
      · next e => subst e; exact mget_lt h.2 (by omega)
      · next hk =>
        simp only [mget]
        rw [if_neg hk]
        split
        · exact mget_lt h.2 (by omega)
        · rfl
    · split
      · next h1 h2 =>
        split
        · next e => subst e; exact mget_lt ⟨Nat.le_refl a, h.2⟩ h2
        · rfl
      · next h1 h2 =>
        simp only [mget]
        split
        · next h3 => rw [if_neg (by omega)]
        · split
          · next h3 h4 => split <;> rfl
          · exact ih _ h.2

/-! Memory -/

theorem wfFrom_iff {m : List Host.Cell} {lo : Nat} : wfFrom lo m = true ↔ Rising lo m ∧ ∀ e ∈ m, e.2 ≠ 0 := by
  induction m generalizing lo with
  | nil => simp [wfFrom, Rising]
  | cons e t ih =>
    obtain ⟨a, b⟩ := e
    simp only [wfFrom, Bool.and_eq_true, ih, Rising, List.mem_cons, forall_eq_or_imp, decide_eq_true_eq, bne_iff_ne, ne_eq]
    tauto

theorem mem_mput {α : Type} {m : SMap α} {n : Nat} {x : α} {e : Nat × α} (h : e ∈ mput m n x) : e = (n, x) ∨ e ∈ m := by
  induction m with
  | nil => left; simpa [mput] using h
  | cons a t ih =>
    obtain ⟨k, v⟩ := a
    simp only [mput] at h
    split at h
    · rcases List.mem_cons.1 h with h | h
      · exact .inl h
      · exact .inr (List.mem_cons_of_mem _ h)
    · split at h
      · rcases List.mem_cons.1 h with h | h
        · exact .inl h
        · exact .inr h
      · rcases List.mem_cons.1 h with h | h
        · exact .inr (h ▸ List.mem_cons_self)
        · exact (ih h).imp id (List.mem_cons_of_mem _)

theorem mem_mdel {α : Type} {m : SMap α} {n : Nat} {e : Nat × α} (h : e ∈ mdel m n) : e ∈ m := by
  induction m with
  | nil => exact h
  | cons a t ih =>
    obtain ⟨k, v⟩ := a
    simp only [mdel] at h
    split at h
    · exact List.mem_cons_of_mem _ h
    · split at h
      · exact h
      · rcases List.mem_cons.1 h with h | h
        · exact h ▸ List.mem_cons_self
        · exact List.mem_cons_of_mem _ (ih h)

/-- Storing a byte keeps the canonical form. -/
theorem writeMem_wf {m : List Host.Cell} {a : Nat} {b : BitVec 8} (h : Memory.wf m = true) : Memory.wf (writeMem m a b) = true := by
  unfold Memory.wf at *
  rw [wfFrom_iff] at *
  unfold writeMem
  split
  · exact ⟨h.1.mdel, fun e he => h.2 e (mem_mdel he)⟩
  · next hb => exact ⟨h.1.mput _ (Nat.zero_le _), fun e he => by
      rcases mem_mput he with e | e
      · subst e; exact hb
      · exact h.2 _ e⟩

/-- The byte stored is the byte read, and every other byte stays. -/
theorem readMem_writeMem {m : List Host.Cell} {a k : Nat} {b : BitVec 8} (h : Memory.wf m = true) :
    readMem (writeMem m a b) k = if k = a then b else readMem m k := by
  unfold Memory.wf at h
  rw [wfFrom_iff] at h
  unfold readMem writeMem
  split
  · next hb => rw [mget_mdel _ _ _ h.1]; split <;> simp [hb]
  · rw [mget_mput]; split <;> simp

/-- Storing part of a line keeps the canonical form. -/
theorem writeLineMem_wf {m : List Host.Cell} {a v be n : Nat} (h : Memory.wf m = true) :
    Memory.wf (writeLineMem m a v be n) = true := by
  induction n generalizing m a v be with
  | zero => exact h
  | succ n ih =>
    simp only [writeLineMem]
    split
    · exact ih (writeMem_wf h)
    · exact ih h

/-- Storing a number keeps the canonical form. -/
theorem writeNatMem_wf {m : List Host.Cell} {a v n : Nat} (h : Memory.wf m = true) :
    Memory.wf (writeNatMem m a v n) = true := by
  induction n generalizing m a v with
  | zero => exact h
  | succ n ih => exact ih (writeMem_wf h)

/-- A store into a line leaves every byte outside its n bytes. -/
theorem readMem_writeLineMem {m : List Host.Cell} {a v be n k : Nat} (h : Memory.wf m = true) (hk : k < a ∨ a + n ≤ k) :
    readMem (writeLineMem m a v be n) k = readMem m k := by
  induction n generalizing m a v be with
  | zero => rfl
  | succ n ih =>
    simp only [writeLineMem]
    split
    · rw [ih (writeMem_wf h) (by omega), readMem_writeMem h, if_neg (by omega)]
    · rw [ih h (by omega)]

/-- A byte of a line store whose enable is set reads as written; another stays. -/
theorem readMem_writeLineMem_at {m : List Host.Cell} {a v be n i : Nat} (h : Memory.wf m = true) (hi : i < n) :
    readMem (writeLineMem m a v be n) (a + i) =
      if be.testBit i then BitVec.ofNat 8 (v / 256 ^ i) else readMem m (a + i) := by
  induction n generalizing m a v be i with
  | zero => omega
  | succ n ih =>
    simp only [writeLineMem]
    cases i with
    | zero =>
      rw [readMem_writeLineMem (by split; exact writeMem_wf h; exact h) (by omega)]
      rw [Nat.testBit_zero]
      split
      · next hb => simp [hb, readMem_writeMem h]
      · next hb => simp [hb]
    | succ i =>
      rw [show a + (i + 1) = a + 1 + i by omega, ih (by split; exact writeMem_wf h; exact h) (by omega), Nat.testBit_succ,
        Nat.pow_succ', ← Nat.div_div_eq_div_mul]
      split
      · rfl
      · split
        · rw [readMem_writeMem h, if_neg (by omega)]
        · rfl

/-- Dropping entries keeps the canonical form. -/
theorem filter_wf {m : List Host.Cell} {p : Host.Cell → Bool} (h : Memory.wf m = true) : Memory.wf (m.filter p) = true := by
  unfold Memory.wf at *
  suffices k : ∀ lo, wfFrom lo m = true → wfFrom lo (m.filter p) = true from k 0 h
  clear h
  induction m with
  | nil => intro lo _; rfl
  | cons e t ih =>
    intro lo h
    rw [wfFrom_iff] at h
    rw [wfFrom_iff]
    refine ⟨?_, fun e he => h.2 e (List.mem_of_mem_filter he)⟩
    have h2 := h.1.2
    have hn : ∀ e ∈ t, e.2 ≠ 0 := fun e he => h.2 e (List.mem_cons_of_mem _ he)
    have := (wfFrom_iff.1 (ih _ (wfFrom_iff.2 ⟨h2, hn⟩))).1
    rw [List.filter_cons]
    split
    · exact ⟨h.1.1, this⟩
    · exact this.mono (by have := h.1.1; omega)

end Sys2Proof.Machine
end

