-- ==== Sys2Proof/Laws/Keeps.lean ====
section
/-!
SUPPORT. How a frame composes: each shared operation keeps what Safety names, and a composition of such operations does.
-/
namespace Sys2Proof.Machine

/-- A state reached by an operation that touches only the pieces l: the frame, what grows, and what stays well formed. -/
structure Keeps (l : List Piece) (s t : State) : Prop where
  only : Only l s t
  grows : Grows s t
  sound : Sound s → Sound t

theorem Piece.same_refl (p : Piece) (s : State) : p.same s s := by cases p <;> exact rfl

theorem Piece.same_trans {p : Piece} {s t u : State} (h : p.same s t) (k : p.same t u) : p.same s u := by
  cases p <;> exact Eq.trans k h

theorem Only.intro {l : List Piece} {s t : State} (h : ∀ p, p ∉ l → p.same s t) : Only l s t := h

theorem Only.refl (l : List Piece) (s : State) : Only l s s := fun p _ => p.same_refl s

theorem Only.trans {l : List Piece} {s t u : State} (h : Only l s t) (k : Only l t u) : Only l s u :=
  fun p m => Piece.same_trans (h p m) (k p m)

theorem Only.mono {l m : List Piece} {s t : State} (h : Only l s t) (hm : l ⊆ m) : Only m s t :=
  fun p n => h p fun q => n (hm q)

theorem Grows.refl (s : State) : Grows s s :=
  ⟨rfl, List.prefix_refl _, Nat.le_refl _, Nat.le_refl _, Nat.le_refl _, List.suffix_refl _⟩

theorem Grows.trans {s t u : State} (h : Grows s t) (k : Grows t u) : Grows s u :=
  ⟨k.chip.trans h.chip, h.hist.trans k.hist, h.seq.trans k.seq, h.tb.trans k.tb, h.ids.trans k.ids, h.wire.trans k.wire⟩

theorem Keeps.refl (l : List Piece) (s : State) : Keeps l s s := ⟨Only.refl l s, Grows.refl s, id⟩

theorem Keeps.trans {l : List Piece} {s t u : State} (h : Keeps l s t) (k : Keeps l t u) : Keeps l s u :=
  ⟨h.only.trans k.only, h.grows.trans k.grows, fun x => k.sound (h.sound x)⟩

/-- An operation of a smaller frame, after one that keeps l. -/
theorem Keeps.step {l m : List Piece} {s t u : State} (k : Keeps m t u) (h : Keeps l s t) (hm : m ⊆ l) : Keeps l s u :=
  h.trans ⟨k.only.mono hm, k.grows, k.sound⟩

theorem Keeps.ite {l : List Piece} {s t u : State} {c : Prop} [Decidable c] (h : Keeps l s t) (k : Keeps l s u) :
    Keeps l s (if c then t else u) := by split <;> assumption

theorem Keeps.foldl {α : Type} {l : List Piece} {s t : State} {f : State → α → State} {xs : List α} (h : Keeps l s t)
    (hf : ∀ u x, Keeps l u (f u x)) : Keeps l s (xs.foldl f t) := by
  induction xs generalizing t with
  | nil => exact h
  | cons x xs ih => exact ih (h.trans (hf t x))

theorem Keeps.foldl1 {α β : Type} {l : List Piece} {s : State} {p : State × β} {f : State × β → α → State × β} {xs : List α}
    (h : Keeps l s p.1) (hf : ∀ q x, Keeps l q.1 (f q x).1) : Keeps l s (xs.foldl f p).1 := by
  induction xs generalizing p with
  | nil => exact h
  | cons x xs ih => exact ih (h.trans (hf p x))

/-- The state of a pair. -/
theorem Keeps.fst {α : Type} {l : List Piece} {s a : State} {b : α} {p : State × α} (e : p = (a, b)) (k : Keeps l s p.1) :
    Keeps l s a := by rw [e] at k; exact k

/-- A state that an operation may answer, or the state before it. -/
theorem Keeps.getD {l : List Piece} {s t : State} {o : Option State} (h : Keeps l s t) (k : ∀ u, o = some u → Keeps l s u) :
    Keeps l s (o.getD t) := by
  cases o with
  | none => exact h
  | some u => exact k u rfl

/-- An update of pieces that neither grow nor are held well formed. -/
theorem Keeps.put {l : List Piece} {s t : State} {pins jtag fw lds mctp seats steward extents keys coh tables rings searches
    jobs disp covs tally life harvest regs freeCtr}
    (h : Keeps l s t)
    (o : Only l t (State.mk t.chip pins jtag fw t.boot t.store t.pkg t.clock t.ports lds mctp seats steward extents keys t.mem
      coh t.fronds tables rings searches jobs t.nextId disp covs tally life t.log harvest regs t.wire freeCtr t.pending)) :
    Keeps l s (State.mk t.chip pins jtag fw t.boot t.store t.pkg t.clock t.ports lds mctp seats steward extents keys t.mem
      coh t.fronds tables rings searches jobs t.nextId disp covs tally life t.log harvest regs t.wire freeCtr t.pending) :=
  h.trans ⟨o, ⟨rfl, List.prefix_refl _, Nat.le_refl _, Nat.le_refl _, Nat.le_refl _, List.suffix_refl _⟩,
    fun x => ⟨x.mem, x.hist, x.circ, x.fronds, x.ports, x.mode, x.bootMode, x.storeMode, x.sel, x.whole⟩⟩

/-- An update of any pieces but the part and the queue. What grows and what stays well formed is found by itself where the update
leaves it. -/
theorem Keeps.set {l : List Piece} {s t : State} {pins jtag fw boot store pkg clock ports lds mctp seats steward extents keys
    mem coh fronds tables rings searches jobs nextId disp covs tally life log harvest regs wire freeCtr}
    (h : Keeps l s t)
    (o : Only l t (State.mk t.chip pins jtag fw boot store pkg clock ports lds mctp seats steward extents keys mem
      coh fronds tables rings searches jobs nextId disp covs tally life log harvest regs wire freeCtr t.pending))
    (h1 : t.log.hist <+: log.hist := by exact List.prefix_refl _)
    (h2 : t.log.next ≤ log.next := by exact Nat.le_refl _)
    (h3 : t.clock.tb ≤ clock.tb := by first | exact Nat.le_refl _ | exact Nat.le_succ _)
    (h4 : t.nextId ≤ nextId := by first | exact Nat.le_refl _ | exact Nat.le_succ _)
    (h5 : t.wire <:+ wire := by first | exact List.suffix_refl _ | exact List.suffix_cons _ _)
    (k1 : Memory.wf t.mem.bytes = true → Memory.wf mem.bytes = true := by exact id)
    (k2 : t.log.hist.length ≤ 64 → log.hist.length ≤ 64 := by exact id)
    (k3 : t.log.circ.length ≤ 65472 → log.circ.length ≤ 65472 := by first | exact id | exact fun _ => by simp)
    (k4 : t.fronds.length = 6 → fronds.length = 6 := by first | exact id | exact fun x => by simpa using x)
    (k5 : t.ports.length = 6 → ports.length = 6 := by first | exact id | exact fun x => by simpa using x)
    (k6 : Sound t → pkg.mode ≠ 3 ∧ boot.mode ≠ 3 ∧ store.mode ≠ 3 ∧ store.sel ≠ some 3 ∧
      (t.chip.part ≠ .ls8 → pkg.mode = 0) := by exact fun x => ⟨x.mode, x.bootMode, x.storeMode, x.sel, x.whole⟩) :
    Keeps l s (State.mk t.chip pins jtag fw boot store pkg clock ports lds mctp seats steward extents keys mem
      coh fronds tables rings searches jobs nextId disp covs tally life log harvest regs wire freeCtr t.pending) :=
  h.trans ⟨o, ⟨rfl, h1, h2, h3, h4, h5⟩,
    fun x => ⟨k1 x.mem, k2 x.hist, k3 x.circ, k4 x.fronds, k5 x.ports, (k6 x).1, (k6 x).2.1, (k6 x).2.2.1, (k6 x).2.2.2.1,
      (k6 x).2.2.2.2⟩⟩

end Sys2Proof.Machine
end

