-- ==== Sys2Proof/Laws/Ops.lean ====
section
/-!
SUPPORT. What the operations of Machine/Ops.lean keep.
-/
set_option linter.unusedTactic false
set_option linter.unreachableTactic false
namespace Sys2Proof.Machine

theorem modFrond_keeps {kl : List Piece} {k0 s : State} {die : Nat} {f : Frond → Frond}
    (km : [.fronds] ⊆ kl)
    (kh : Keeps kl k0 s) : Keeps kl k0 (modFrond s die f) := by
  refine Keeps.step ?_ kh km
  unfold modFrond
  repeat' first
    | with_reducible exact Keeps.refl _ _
    | assumption
    | with_reducible refine Keeps.ite ?_ ?_
    | (with_reducible refine Keeps.set ?_ ?_ ?_ ?_ ?_ ?_ ?_ ?_ ?_ ?_ ?_ ?_ ?_; rotate_left 1
       · (refine Only.intro fun kp khp => ?_; cases kp <;> first | with_reducible exact rfl | exact absurd (by decide) khp)
       · with_reducible exact List.prefix_refl _
       · with_reducible exact Nat.le_refl _
       · with_reducible exact Nat.le_refl _
       · with_reducible exact Nat.le_refl _
       · with_reducible exact List.suffix_refl _
       · with_reducible exact fun x => x
       · with_reducible exact fun x => x
       · with_reducible exact fun x => x
       · first | with_reducible exact fun x => x | exact fun x => by simpa using x
       · with_reducible exact fun x => x
       · with_reducible exact fun x => ⟨x.mode, x.bootMode, x.storeMode, x.sel, x.whole⟩)

theorem modArr_keeps {kl : List Piece} {k0 s : State} {die : Nat} {f : FrondArray → FrondArray}
    (km : [.fronds] ⊆ kl)
    (kh : Keeps kl k0 s) : Keeps kl k0 (modArr s die f) := by
  refine Keeps.step ?_ kh km
  unfold modArr
  repeat' first
    | with_reducible exact Keeps.refl _ _
    | assumption
    | with_reducible refine modFrond_keeps (by decide) ?_

theorem modLd_keeps {kl : List Piece} {k0 s : State} {p : Place} {f : Ld → Ld}
    (km : [.lds] ⊆ kl)
    (kh : Keeps kl k0 s) : Keeps kl k0 (modLd s p f) := by
  refine Keeps.step ?_ kh km
  unfold modLd
  repeat' first
    | with_reducible exact Keeps.refl _ _
    | assumption
    | (with_reducible refine Keeps.put ?_ ?_; rotate_left 1
       · (refine Only.intro fun kp khp => ?_; cases kp <;> first | with_reducible exact rfl | exact absurd (by decide) khp))

theorem modSeat_keeps {kl : List Piece} {k0 s : State} {n : Nat} {f : Seat → Seat}
    (km : [.seats] ⊆ kl)
    (kh : Keeps kl k0 s) : Keeps kl k0 (modSeat s n f) := by
  refine Keeps.step ?_ kh km
  unfold modSeat
  repeat' first
    | with_reducible exact Keeps.refl _ _
    | assumption
    | (with_reducible refine Keeps.put ?_ ?_; rotate_left 1
       · (refine Only.intro fun kp khp => ?_; cases kp <;> first | with_reducible exact rfl | exact absurd (by decide) khp))

theorem modLink_keeps {kl : List Piece} {k0 s : State} {port l : Nat} {f : Link → Link}
    (km : [.ports] ⊆ kl)
    (kh : Keeps kl k0 s) : Keeps kl k0 (modLink s port l f) := by
  refine Keeps.step ?_ kh km
  unfold modLink
  repeat' first
    | with_reducible exact Keeps.refl _ _
    | assumption
    | (with_reducible refine Keeps.set ?_ ?_ ?_ ?_ ?_ ?_ ?_ ?_ ?_ ?_ ?_ ?_ ?_; rotate_left 1
       · (refine Only.intro fun kp khp => ?_; cases kp <;> first | with_reducible exact rfl | exact absurd (by decide) khp)
       · with_reducible exact List.prefix_refl _
       · with_reducible exact Nat.le_refl _
       · with_reducible exact Nat.le_refl _
       · with_reducible exact Nat.le_refl _
       · with_reducible exact List.suffix_refl _
       · with_reducible exact fun x => x
       · with_reducible exact fun x => x
       · with_reducible exact fun x => x
       · with_reducible exact fun x => x
       · first | with_reducible exact fun x => x | exact fun x => by simpa using x
       · with_reducible exact fun x => ⟨x.mode, x.bootMode, x.storeMode, x.sel, x.whole⟩)

theorem send_keeps {kl : List Piece} {k0 s : State} {o : Out}
    (km : [.wire] ⊆ kl)
    (kh : Keeps kl k0 s) : Keeps kl k0 (send s o) := by
  refine Keeps.step ?_ kh km
  unfold send
  repeat' first
    | with_reducible exact Keeps.refl _ _
    | assumption
    | (with_reducible refine Keeps.set ?_ ?_ ?_ ?_ ?_ ?_ ?_ ?_ ?_ ?_ ?_ ?_ ?_; rotate_left 1
       · (refine Only.intro fun kp khp => ?_; cases kp <;> first | with_reducible exact rfl | exact absurd (by decide) khp)
       · with_reducible exact List.prefix_refl _
       · with_reducible exact Nat.le_refl _
       · with_reducible exact Nat.le_refl _
       · with_reducible exact Nat.le_refl _
       · first | with_reducible exact List.suffix_refl _ | exact List.suffix_cons _ _
       · with_reducible exact fun x => x
       · with_reducible exact fun x => x
       · with_reducible exact fun x => x
       · with_reducible exact fun x => x
       · with_reducible exact fun x => x
       · with_reducible exact fun x => ⟨x.mode, x.bootMode, x.storeMode, x.sel, x.whole⟩)

theorem fresh_keeps {kl : List Piece} {k0 s : State}
    (km : [.freeCtr] ⊆ kl)
    (kh : Keeps kl k0 s) : Keeps kl k0 (fresh s) := by
  refine Keeps.step ?_ kh km
  unfold fresh
  repeat' first
    | with_reducible exact Keeps.refl _ _
    | assumption
    | (with_reducible refine Keeps.put ?_ ?_; rotate_left 1
       · (refine Only.intro fun kp khp => ?_; cases kp <;> first | with_reducible exact rfl | exact absurd (by decide) khp))

theorem setReg_keeps {kl : List Piece} {k0 s : State} {a : Nat} {v : Word}
    (km : [.regs] ⊆ kl)
    (kh : Keeps kl k0 s) : Keeps kl k0 (setReg s a v) := by
  refine Keeps.step ?_ kh km
  unfold setReg
  repeat' first
    | with_reducible exact Keeps.refl _ _
    | assumption
    | (with_reducible refine Keeps.put ?_ ?_; rotate_left 1
       · (refine Only.intro fun kp khp => ?_; cases kp <;> first | with_reducible exact rfl | exact absurd (by decide) khp))

theorem orReg_keeps {kl : List Piece} {k0 s : State} {a : Nat} {v : Word}
    (km : [.regs] ⊆ kl)
    (kh : Keeps kl k0 s) : Keeps kl k0 (orReg s a v) := by
  refine Keeps.step ?_ kh km
  unfold orReg
  repeat' first
    | with_reducible exact Keeps.refl _ _
    | assumption
    | with_reducible refine setReg_keeps (by decide) ?_

theorem clrReg_keeps {kl : List Piece} {k0 s : State} {a : Nat} {v : Word}
    (km : [.regs] ⊆ kl)
    (kh : Keeps kl k0 s) : Keeps kl k0 (clrReg s a v) := by
  refine Keeps.step ?_ kh km
  unfold clrReg
  repeat' first
    | with_reducible exact Keeps.refl _ _
    | assumption
    | with_reducible refine setReg_keeps (by decide) ?_

theorem setEvt_keeps {kl : List Piece} {k0 s : State} {base bit : Nat}
    (km : [.regs, .wire] ⊆ kl)
    (kh : Keeps kl k0 s) : Keeps kl k0 (setEvt s base bit) := by
  refine Keeps.step ?_ kh km
  unfold setEvt
  repeat' first
    | with_reducible exact Keeps.refl _ _
    | assumption
    | with_reducible refine setReg_keeps (by decide) ?_
    | with_reducible refine send_keeps (by decide) ?_
    | with_reducible refine Keeps.ite ?_ ?_
    | split

theorem reject_keeps {kl : List Piece} {k0 s : State} {base bit ofs : Nat}
    (km : [.regs, .wire] ⊆ kl)
    (kh : Keeps kl k0 s) : Keeps kl k0 (reject s base bit ofs) := by
  refine Keeps.step ?_ kh km
  unfold reject
  repeat' first
    | with_reducible exact Keeps.refl _ _
    | assumption
    | with_reducible refine setReg_keeps (by decide) ?_
    | with_reducible refine setEvt_keeps (by decide) ?_
    | with_reducible refine Keeps.ite ?_ ?_

theorem deliver_keeps {kl : List Piece} {k0 s : State} {sev : Nat} {r : EvRec} {dst : Recip}
    (km : [.lds] ⊆ kl)
    (kh : Keeps kl k0 s) : Keeps kl k0 (deliver s sev r dst) := by
  refine Keeps.step ?_ kh km
  unfold deliver
  repeat' first
    | with_reducible exact Keeps.refl _ _
    | assumption
    | with_reducible refine modLd_keeps (by decide) ?_
    | with_reducible refine Keeps.foldl ?_ (fun _ _ => ?_)
    | split

theorem mramWrite_keeps {kl : List Piece} {k0 : State} {s : State} {sector : Nat} {n : Nat} (km : [.life] ⊆ kl)
    (kh : Keeps kl k0 s) : Keeps kl k0 (mramWrite s sector n) := by
  refine Keeps.step ?_ kh km
  unfold mramWrite
  repeat' first
    | with_reducible exact Keeps.refl _ _
    | assumption
    | with_reducible refine Keeps.ite ?_ ?_
    | with_reducible refine Keeps.getD ?_ (fun _ _ => ?_)
    | with_reducible refine Keeps.foldl ?_ (fun _ _ => ?_)
    | with_reducible refine Keeps.foldl1 ?_ (fun _ _ => ?_)
    | (with_reducible refine Keeps.put ?_ ?_; rotate_left 1
       · (refine Only.intro fun kp khp => ?_; cases kp <;> first | with_reducible exact rfl | exact absurd (by decide) khp))
    | (with_reducible refine Keeps.set ?_ ?_; rotate_left 1
       · (refine Only.intro fun kp khp => ?_; cases kp <;> first | with_reducible exact rfl | exact absurd (by decide) khp))
    | split

theorem appendRecord_keeps {kl : List Piece} {k0 s : State} {r : EvRec}
    (km : [.life, .log] ⊆ kl)
    (kh : Keeps kl k0 s) : Keeps kl k0 (appendRecord s r) := by
  refine Keeps.step ?_ kh km
  unfold appendRecord
  dsimp only
  refine mramWrite_keeps (by decide) (Keeps.ite (Keeps.set (Keeps.refl _ _) ?_ ?_ ?_ ?_ ?_ ?_ ?_ ?_ ?_ ?_ ?_ ?_)
    (mramWrite_keeps (by decide) (Keeps.set (Keeps.refl _ _) ?_ ?_ ?_ ?_ ?_ ?_ ?_ ?_ ?_ ?_ ?_ ?_)))
  all_goals first
    | (refine Only.intro fun kp khp => ?_; cases kp <;> first | exact rfl | exact absurd (by decide) khp)
    | (split
       · exact List.prefix_append _ _
       · exact List.prefix_refl _)
    | exact Nat.le_succ _
    | exact Nat.le_refl _
    | exact List.suffix_refl _
    | exact fun x => x
    | (intro x; dsimp only; split
       · next hc => simp at hc; simp; omega
       · exact x)
    | (intro _; dsimp only; rw [List.length_take]; exact Nat.min_le_left _ _)
    | exact fun x => ⟨x.mode, x.bootMode, x.storeMode, x.sel, x.whole⟩

theorem storeWrite_keeps {kl : List Piece} {k0 s : State}
    (km : [.life] ⊆ kl)
    (kh : Keeps kl k0 s) : Keeps kl k0 (storeWrite s) := by
  refine Keeps.step ?_ kh km
  unfold storeWrite
  repeat' first
    | with_reducible exact Keeps.refl _ _
    | assumption
    | with_reducible refine mramWrite_keeps (by decide) ?_

theorem logRecord_keeps {kl : List Piece} {k0 : State} {s : State} {r : EvRec} (km : [.boot, .lds, .life, .log] ⊆ kl)
    (kh : Keeps kl k0 s) : Keeps kl k0 (logRecord s r) := by
  refine Keeps.step ?_ kh km
  unfold logRecord
  repeat' first
    | with_reducible exact Keeps.refl _ _
    | assumption
    | with_reducible refine appendRecord_keeps (by decide) ?_
    | with_reducible refine deliver_keeps (by decide) ?_
    | with_reducible refine Keeps.ite ?_ ?_
    | with_reducible refine Keeps.getD ?_ (fun _ _ => ?_)
    | with_reducible refine Keeps.foldl ?_ (fun _ _ => ?_)
    | with_reducible refine Keeps.foldl1 ?_ (fun _ _ => ?_)
    | split
    | dsimp only
    | (with_reducible refine Keeps.put ?_ ?_; rotate_left 1
       · (refine Only.intro fun kp khp => ?_; cases kp <;> first | with_reducible exact rfl | exact absurd (by decide) khp))
    | (with_reducible refine Keeps.set ?_ ?_; rotate_left 1
       · (refine Only.intro fun kp khp => ?_; cases kp <;> first | with_reducible exact rfl | exact absurd (by decide) khp))
    | split

theorem raiseAt_keeps {kl : List Piece} {k0 : State} {s : State} {tb : Nat} {code : Nat} {sev : Nat} {die : Nat} {seat : Nat} {extra : Nat} {count : Nat} {items : List (Nat × Nat)} {dst : Recip} (km : [.boot, .pkg, .lds, .life, .log] ⊆ kl)
    (kh : Keeps kl k0 s) : Keeps kl k0 (raiseAt s tb code sev die seat extra count items dst) := by
  refine Keeps.step ?_ kh km
  unfold raiseAt
  repeat' first
    | with_reducible exact Keeps.refl _ _
    | assumption
    | with_reducible refine deliver_keeps (by decide) ?_
    | with_reducible refine logRecord_keeps (by decide) ?_
    | with_reducible refine Keeps.ite ?_ ?_
    | (with_reducible refine Keeps.put ?_ ?_; rotate_left 1
       · (refine Only.intro fun kp khp => ?_; cases kp <;> first | with_reducible exact rfl | exact absurd (by decide) khp))
    | (with_reducible refine Keeps.set ?_ ?_; rotate_left 1
       · (refine Only.intro fun kp khp => ?_; cases kp <;> first | with_reducible exact rfl | exact absurd (by decide) khp))
    | split

theorem raiseFull_keeps {kl : List Piece} {k0 : State} {s : State} {code : Nat} {sev : Nat} {die : Nat} {seat : Nat} {extra : Nat} {count : Nat} {items : List (Nat × Nat)} {dst : Recip} (km : [.boot, .pkg, .lds, .life, .log] ⊆ kl)
    (kh : Keeps kl k0 s) : Keeps kl k0 (raiseFull s code sev die seat extra count items dst) := by
  refine Keeps.step ?_ kh km
  unfold raiseFull
  repeat' first
    | with_reducible exact Keeps.refl _ _
    | assumption
    | with_reducible refine raiseAt_keeps (by decide) ?_

theorem event_keeps {kl : List Piece} {k0 s : State} {code sev die seat : Nat} {items : List (Nat × Nat)} {dst : Recip}
    (km : [.boot, .pkg, .lds, .life, .log] ⊆ kl)
    (kh : Keeps kl k0 s) : Keeps kl k0 (event s code sev die seat items dst) := by
  refine Keeps.step ?_ kh km
  unfold event
  repeat' first
    | with_reducible exact Keeps.refl _ _
    | assumption
    | with_reducible refine raiseFull_keeps (by decide) ?_

theorem assertFault_keeps {kl : List Piece} {k0 s : State}
    (km : [.pins] ⊆ kl)
    (kh : Keeps kl k0 s) : Keeps kl k0 (assertFault s) := by
  refine Keeps.step ?_ kh km
  unfold assertFault
  repeat' first
    | with_reducible exact Keeps.refl _ _
    | assumption
    | (with_reducible refine Keeps.put ?_ ?_; rotate_left 1
       · (refine Only.intro fun kp khp => ?_; cases kp <;> first | with_reducible exact rfl | exact absurd (by decide) khp))

theorem ledgerWrite_keeps {kl : List Piece} {k0 s : State} {orderly : Bool}
    (km : [.store, .life] ⊆ kl)
    (kh : Keeps kl k0 s) : Keeps kl k0 (ledgerWrite s orderly) := by
  refine Keeps.step ?_ kh km
  unfold ledgerWrite
  repeat' first
    | with_reducible exact Keeps.refl _ _
    | assumption
    | with_reducible refine mramWrite_keeps (by decide) ?_
    | with_reducible refine Keeps.foldl ?_ (fun _ _ => ?_)
    | (with_reducible refine Keeps.set ?_ ?_ ?_ ?_ ?_ ?_ ?_ ?_ ?_ ?_ ?_ ?_ ?_; rotate_left 1
       · (refine Only.intro fun kp khp => ?_; cases kp <;> first | with_reducible exact rfl | exact absurd (by decide) khp)
       · with_reducible exact List.prefix_refl _
       · with_reducible exact Nat.le_refl _
       · with_reducible exact Nat.le_refl _
       · with_reducible exact Nat.le_refl _
       · with_reducible exact List.suffix_refl _
       · with_reducible exact fun x => x
       · with_reducible exact fun x => x
       · with_reducible exact fun x => x
       · with_reducible exact fun x => x
       · with_reducible exact fun x => x
       · with_reducible exact fun x => ⟨x.mode, x.bootMode, x.storeMode, x.sel, x.whole⟩)

theorem modLedger_keeps {kl : List Piece} {k0 s : State} {f : Ledger → Ledger}
    (km : [.life] ⊆ kl)
    (kh : Keeps kl k0 s) : Keeps kl k0 (modLedger s f) := by
  refine Keeps.step ?_ kh km
  unfold modLedger
  repeat' first
    | with_reducible exact Keeps.refl _ _
    | assumption
    | (with_reducible refine Keeps.put ?_ ?_; rotate_left 1
       · (refine Only.intro fun kp khp => ?_; cases kp <;> first | with_reducible exact rfl | exact absurd (by decide) khp))

theorem tick_keeps {kl : List Piece} {k0 s : State}
    (km : [.clock] ⊆ kl)
    (kh : Keeps kl k0 s) : Keeps kl k0 (tick s) := by
  refine Keeps.step ?_ kh km
  unfold tick
  repeat' first
    | with_reducible exact Keeps.refl _ _
    | assumption
    | with_reducible refine Keeps.ite ?_ ?_
    | (with_reducible refine Keeps.set ?_ ?_ ?_ ?_ ?_ ?_ ?_ ?_ ?_ ?_ ?_ ?_ ?_; rotate_left 1
       · (refine Only.intro fun kp khp => ?_; cases kp <;> first | with_reducible exact rfl | exact absurd (by decide) khp)
       · with_reducible exact List.prefix_refl _
       · with_reducible exact Nat.le_refl _
       · first | with_reducible exact Nat.le_refl _ | exact Nat.le_succ _
       · with_reducible exact Nat.le_refl _
       · with_reducible exact List.suffix_refl _
       · with_reducible exact fun x => x
       · with_reducible exact fun x => x
       · with_reducible exact fun x => x
       · with_reducible exact fun x => x
       · with_reducible exact fun x => x
       · with_reducible exact fun x => ⟨x.mode, x.bootMode, x.storeMode, x.sel, x.whole⟩)

theorem idleTick_keeps {kl : List Piece} {k0 s kt : State}
    (km : [.clock] ⊆ kl)
    (ke : idleTick s = .next kt) (kh : Keeps kl k0 s) : Keeps kl k0 kt := by
  refine Keeps.step ?_ kh km
  unfold idleTick at ke
  split at ke
  · cases ke; exact Keeps.refl _ _
  · split at ke
    · cases ke
      refine Keeps.set (Keeps.refl _ _) ?_ (List.prefix_refl _) (Nat.le_refl _) (Nat.le_refl _) (Nat.le_refl _)
        (List.suffix_refl _) (fun x => x) (fun x => x) (fun x => x) (fun x => x) (fun x => x)
        (fun x => ⟨x.mode, x.bootMode, x.storeMode, x.sel, x.whole⟩)
      refine Only.intro fun kp khp => ?_; cases kp <;> first | exact rfl | exact absurd (by decide) khp
    · split at ke
      · cases ke; exact tick_keeps (by decide) (Keeps.refl _ _)
      · cases ke

end Sys2Proof.Machine
end

