-- ==== Sys2Proof/Laws/RegMap.lean ====
section
/-!
SUPPORT. What the operations of Machine/RegMap.lean keep.
-/
set_option linter.unusedTactic false
set_option linter.unreachableTactic false
namespace Sys2Proof.Machine

theorem setStaged_keeps {kl : List Piece} {k0 s : State} {a : Nat} {v : Word}
    (km : [.regs] ⊆ kl)
    (kh : Keeps kl k0 s) : Keeps kl k0 (setStaged s a v) := by
  refine Keeps.step ?_ kh km
  unfold setStaged
  repeat' first
    | with_reducible exact Keeps.refl _ _
    | assumption
    | (with_reducible refine Keeps.put ?_ ?_; rotate_left 1
       · (refine Only.intro fun kp khp => ?_; cases kp <;> first | with_reducible exact rfl | exact absurd (by decide) khp))

theorem setRegWide_keeps {kl : List Piece} {k0 s : State} {a words v : Nat}
    (km : [.regs] ⊆ kl)
    (kh : Keeps kl k0 s) : Keeps kl k0 (setRegWide s a words v) := by
  refine Keeps.step ?_ kh km
  unfold setRegWide
  repeat' first
    | with_reducible exact Keeps.refl _ _
    | assumption
    | with_reducible refine setReg_keeps (by decide) ?_
    | with_reducible refine Keeps.foldl ?_ (fun _ _ => ?_)

end Sys2Proof.Machine
end

