-- ==== Sys2Proof/Laws/Energy.lean ====
section
/-!
SUPPORT. What the operations of Machine/Energy.lean keep.
-/
set_option linter.unusedTactic false
set_option linter.unreachableTactic false
namespace Sys2Proof.Machine

theorem modTally_keeps {kl : List Piece} {k0 s : State} {f : Tally → Tally}
    (km : [.tally] ⊆ kl)
    (kh : Keeps kl k0 s) : Keeps kl k0 (modTally s f) := by
  refine Keeps.step ?_ kh km
  unfold modTally
  repeat' first
    | with_reducible exact Keeps.refl _ _
    | assumption
    | (with_reducible refine Keeps.put ?_ ?_; rotate_left 1
       · (refine Only.intro fun kp khp => ?_; cases kp <;> first | with_reducible exact rfl | exact absurd (by decide) khp))

theorem bookOp_keeps {kl : List Piece} {k0 s : State} {rail pj : Nat}
    (km : [.tally] ⊆ kl)
    (kh : Keeps kl k0 s) : Keeps kl k0 (bookOp s rail pj) := by
  refine Keeps.step ?_ kh km
  unfold bookOp
  repeat' first
    | with_reducible exact Keeps.refl _ _
    | assumption
    | with_reducible refine modTally_keeps (by decide) ?_

theorem chargeSeat_keeps {kl : List Piece} {k0 s : State} {seat pj : Nat}
    (km : [.seats] ⊆ kl)
    (kh : Keeps kl k0 s) : Keeps kl k0 (chargeSeat s seat pj) := by
  refine Keeps.step ?_ kh km
  unfold chargeSeat
  repeat' first
    | with_reducible exact Keeps.refl _ _
    | assumption
    | with_reducible refine modSeat_keeps (by decide) ?_

theorem chargeBg_keeps {kl : List Piece} {k0 s : State} {pj : Nat}
    (km : [.tally] ⊆ kl)
    (kh : Keeps kl k0 s) : Keeps kl k0 (chargeBg s pj) := by
  refine Keeps.step ?_ kh km
  unfold chargeBg
  repeat' first
    | with_reducible exact Keeps.refl _ _
    | assumption
    | with_reducible refine modTally_keeps (by decide) ?_

theorem frondOp_keeps {kl : List Piece} {k0 s : State} {die e n : Nat} {seat : Option Nat}
    (km : [.seats, .tally] ⊆ kl)
    (kh : Keeps kl k0 s) : Keeps kl k0 (frondOp s die e n seat) := by
  refine Keeps.step ?_ kh km
  unfold frondOp
  repeat' first
    | with_reducible exact Keeps.refl _ _
    | assumption
    | with_reducible refine bookOp_keeps (by decide) ?_
    | with_reducible refine chargeSeat_keeps (by decide) ?_
    | with_reducible refine chargeBg_keeps (by decide) ?_
    | split

theorem countRefused_keeps {kl : List Piece} {k0 s : State}
    (km : [.tally] ⊆ kl)
    (kh : Keeps kl k0 s) : Keeps kl k0 (countRefused s) := by
  refine Keeps.step ?_ kh km
  unfold countRefused
  repeat' first
    | with_reducible exact Keeps.refl _ _
    | assumption
    | with_reducible refine modTally_keeps (by decide) ?_

theorem specMark_keeps {kl : List Piece} {k0 s : State}
    (km : [.seats] ⊆ kl)
    (kh : Keeps kl k0 s) : Keeps kl k0 (specMark s) := by
  refine Keeps.step ?_ kh km
  unfold specMark
  repeat' first
    | with_reducible exact Keeps.refl _ _
    | assumption
    | with_reducible refine Keeps.ite ?_ ?_
    | (with_reducible refine Keeps.put ?_ ?_; rotate_left 1
       · (refine Only.intro fun kp khp => ?_; cases kp <;> first | with_reducible exact rfl | exact absurd (by decide) khp))

theorem admitWork_keeps {kl : List Piece} {k0 s : State} {seat c : Nat} {kt : State} {kb}
    (km : [.seats, .tally] ⊆ kl) (ke : admitWork s seat c = some (kt, kb))
    (kh : Keeps kl k0 s) : Keeps kl k0 kt := by
  refine Keeps.step ?_ kh km
  unfold admitWork at ke
  repeat' (split at ke)
  all_goals first | cases ke | skip
  all_goals repeat' first
    | with_reducible exact Keeps.refl _ _
    | assumption
    | with_reducible refine specMark_keeps (by decide) ?_
    | with_reducible refine modSeat_keeps (by decide) ?_
    | with_reducible refine modTally_keeps (by decide) ?_

theorem settle_keeps {kl : List Piece} {k0 s : State} {seat c actual : Nat} {fromG : Bool}
    (km : [.seats, .tally] ⊆ kl)
    (kh : Keeps kl k0 s) : Keeps kl k0 (settle s seat c actual fromG) := by
  refine Keeps.step ?_ kh km
  unfold settle
  repeat' first
    | with_reducible exact Keeps.refl _ _
    | assumption
    | with_reducible refine chargeSeat_keeps (by decide) ?_
    | with_reducible refine specMark_keeps (by decide) ?_
    | with_reducible refine modSeat_keeps (by decide) ?_
    | with_reducible refine modTally_keeps (by decide) ?_
    | with_reducible refine Keeps.ite ?_ ?_

theorem admitKnown_keeps {kl : List Piece} {k0 s : State} {seat c : Nat} {kt : State}
    (km : [.seats, .tally] ⊆ kl) (ke : admitKnown s seat c = some kt)
    (kh : Keeps kl k0 s) : Keeps kl k0 kt := by
  refine Keeps.step ?_ kh km
  unfold admitKnown at ke
  repeat' (split at ke)
  all_goals first | cases ke | skip
  all_goals repeat' first
    | with_reducible exact Keeps.refl _ _
    | assumption
    | refine admitWork_keeps (by decide) ‹_ = some (_, _)› ?_
    | with_reducible refine settle_keeps (by decide) ?_

end Sys2Proof.Machine
end

