-- ==== Sys2Proof/Laws/Crypto.lean ====
section
/-!
SUPPORT. What the operations of Machine/Crypto.lean keep.
-/
set_option linter.unusedTactic false
set_option linter.unreachableTactic false
namespace Sys2Proof.Machine


end Sys2Proof.Machine
end

