-- ==== Sys2Proof/Laws/Memory.lean ====
section
/-!
SUPPORT. What the operations of Machine/Memory.lean keep.
-/
set_option linter.unusedTactic false
set_option linter.unreachableTactic false
namespace Sys2Proof.Machine

theorem modMem_keeps {kl : List Piece} {k0 s : State} {f : Mem → Mem}
    (km : [.mem] ⊆ kl)
    (kf : Memory.wf s.mem.bytes = true → Memory.wf (f s.mem).bytes = true) (kh : Keeps kl k0 s) :
    Keeps kl k0 (modMem s f) := by
  refine Keeps.step ?_ kh km
  refine Keeps.set (Keeps.refl _ _) ?_ (List.prefix_refl _) (Nat.le_refl _) (Nat.le_refl _) (Nat.le_refl _)
    (List.suffix_refl _) kf (fun x => x) (fun x => x) (fun x => x) (fun x => x)
    (fun x => ⟨x.mode, x.bootMode, x.storeMode, x.sel, x.whole⟩)
  refine Only.intro fun kp khp => ?_; cases kp <;> first | with_reducible exact rfl | exact absurd (by decide) khp

theorem setPoison_keeps {kl : List Piece} {k0 : State} {s : State} {line : Nat} {hub : Nat} (km : [.mem] ⊆ kl)
    (kh : Keeps kl k0 s) : Keeps kl k0 (setPoison s line hub) := by
  refine Keeps.step ?_ kh km
  unfold setPoison
  repeat' first
    | with_reducible exact Keeps.refl _ _
    | assumption
    | with_reducible refine modMem_keeps (by decide) (fun x => x) ?_
    | with_reducible refine modMem_keeps (by decide) (fun x => filter_wf x) ?_
    | with_reducible refine Keeps.getD ?_ (fun _ _ => ?_)
    | (with_reducible refine Keeps.put ?_ ?_; rotate_left 1
       · (refine Only.intro fun kp khp => ?_; cases kp <;> first | with_reducible exact rfl | exact absurd (by decide) khp))
    | (with_reducible refine Keeps.set ?_ ?_; rotate_left 1
       · (refine Only.intro fun kp khp => ?_; cases kp <;> first | with_reducible exact rfl | exact absurd (by decide) khp))

theorem clearPoison_keeps {kl : List Piece} {k0 s : State} {line : Nat}
    (km : [.mem] ⊆ kl)
    (kh : Keeps kl k0 s) : Keeps kl k0 (clearPoison s line) := by
  refine Keeps.step ?_ kh km
  unfold clearPoison
  repeat' first
    | with_reducible exact Keeps.refl _ _
    | assumption
    | with_reducible refine modMem_keeps (by decide) (fun x => x) ?_
    | with_reducible refine modMem_keeps (by decide) (fun x => filter_wf x) ?_
    | with_reducible refine Keeps.foldl ?_ (fun _ _ => ?_)

theorem setPoisonAll_keeps {kl : List Piece} {k0 s : State} {line : Nat}
    (km : [.mem] ⊆ kl)
    (kh : Keeps kl k0 s) : Keeps kl k0 (setPoisonAll s line) := by
  refine Keeps.step ?_ kh km
  unfold setPoisonAll
  repeat' first
    | with_reducible exact Keeps.refl _ _
    | assumption
    | with_reducible refine setPoison_keeps (by decide) ?_
    | with_reducible refine Keeps.foldl ?_ (fun _ _ => ?_)

theorem raiseKeyAbsent_keeps {kl : List Piece} {k0 s : State} {a : Nat}
    (km : [.boot, .pkg, .lds, .extents, .life, .log] ⊆ kl)
    (kh : Keeps kl k0 s) : Keeps kl k0 (raiseKeyAbsent s a) := by
  refine Keeps.step ?_ kh km
  unfold raiseKeyAbsent
  repeat' first
    | with_reducible exact Keeps.refl _ _
    | assumption
    | with_reducible refine event_keeps (by decide) ?_
    | with_reducible refine Keeps.ite ?_ ?_
    | with_reducible refine Keeps.getD ?_ (fun _ _ => ?_)
    | split
    | dsimp only
    | (with_reducible refine Keeps.put ?_ ?_; rotate_left 1
       · (refine Only.intro fun kp khp => ?_; cases kp <;> first | with_reducible exact rfl | exact absurd (by decide) khp))

theorem setPage_keeps {kl : List Piece} {k0 s : State} {page hub : Nat} {p : Page}
    (km : [.mem] ⊆ kl)
    (kh : Keeps kl k0 s) : Keeps kl k0 (setPage s page hub p) := by
  refine Keeps.step ?_ kh km
  unfold setPage
  repeat' first
    | with_reducible exact Keeps.refl _ _
    | assumption
    | with_reducible refine modMem_keeps (by decide) (fun x => x) ?_

theorem capEvents_keeps {kl : List Piece} {k0 s : State}
    (km : [.boot, .pkg, .lds, .mem, .life, .log] ⊆ kl)
    (kh : Keeps kl k0 s) : Keeps kl k0 (capEvents s) := by
  refine Keeps.step ?_ kh km
  unfold capEvents
  repeat' first
    | with_reducible exact Keeps.refl _ _
    | assumption
    | with_reducible refine event_keeps (by decide) ?_
    | with_reducible refine modMem_keeps (by decide) (fun x => x) ?_
    | with_reducible refine modMem_keeps (by decide) (fun x => filter_wf x) ?_
    | with_reducible refine Keeps.ite ?_ ?_

theorem countAccess_keeps {kl : List Piece} {k0 s : State} {page hub : Nat} {read : Bool}
    (km : [.mem] ⊆ kl)
    (kh : Keeps kl k0 s) : Keeps kl k0 (countAccess s page hub read) := by
  refine Keeps.step ?_ kh km
  unfold countAccess
  repeat' first
    | with_reducible exact Keeps.refl _ _
    | assumption
    | with_reducible refine setPage_keeps (by decide) ?_

theorem rekeyLine_keeps {kl : List Piece} {k0 s : State} {line hub : Nat}
    (km : [.mem] ⊆ kl)
    (kh : Keeps kl k0 s) : Keeps kl k0 (rekeyLine s line hub) := by
  refine Keeps.step ?_ kh km
  unfold rekeyLine
  dsimp only
  split
  · split
    · exact Keeps.refl _ _
    · exact modMem_keeps (by decide) (fun h => writeLineMem_wf h) (Keeps.refl _ _)
  · exact Keeps.refl _ _

theorem rewriteKeys_keeps {kl : List Piece} {k0 s : State} {page hub : Nat}
    (km : [.mem] ⊆ kl)
    (kh : Keeps kl k0 s) : Keeps kl k0 (rewriteKeys s page hub) :=
  Keeps.step (Keeps.foldl (Keeps.refl _ _) fun _ _ => rekeyLine_keeps (by decide) (Keeps.refl _ _)) kh km

theorem makePlain_keeps {kl : List Piece} {k0 s : State} {page hub : Nat}
    (km : [.mem] ⊆ kl)
    (kh : Keeps kl k0 s) : Keeps kl k0 (makePlain s page hub) := by
  refine Keeps.step ?_ kh km
  unfold makePlain
  repeat' first
    | with_reducible exact Keeps.refl _ _
    | assumption
    | with_reducible refine modMem_keeps (by decide) (fun x => x) ?_
    | with_reducible refine modMem_keeps (by decide) (fun x => filter_wf x) ?_
    | with_reducible refine rewriteKeys_keeps (by decide) ?_
    | with_reducible refine setPage_keeps (by decide) ?_
    | with_reducible refine Keeps.ite ?_ ?_
    | with_reducible refine Keeps.foldl ?_ (fun _ _ => ?_)
    | with_reducible refine Keeps.foldl1 ?_ (fun _ _ => ?_)
    | split

theorem pageWrite_keeps {kl : List Piece} {k0 s : State} {line hub : Nat} {zeros : Bool}
    (km : [.mem] ⊆ kl)
    (kh : Keeps kl k0 s) : Keeps kl k0 (pageWrite s line hub zeros) := by
  refine Keeps.step ?_ kh km
  unfold pageWrite
  repeat' first
    | with_reducible exact Keeps.refl _ _
    | assumption
    | with_reducible refine makePlain_keeps (by decide) ?_
    | with_reducible refine setPage_keeps (by decide) ?_
    | with_reducible refine Keeps.ite ?_ ?_
    | split
    | dsimp only

theorem markKey_keeps {kl : List Piece} {k0 s : State} {line hub : Nat}
    (km : [.mem] ⊆ kl)
    (kh : Keeps kl k0 s) : Keeps kl k0 (markKey s line hub) := by
  refine Keeps.step ?_ kh km
  unfold markKey
  repeat' first
    | with_reducible exact Keeps.refl _ _
    | assumption
    | with_reducible refine modMem_keeps (by decide) (fun x => x) ?_
    | with_reducible refine rekeyLine_keeps (by decide) ?_
    | split

theorem writeDamage_keeps {kl : List Piece} {k0 : State} {s : State} {line : Nat} {hub : Nat} (km : [.mem] ⊆ kl)
    (kh : Keeps kl k0 s) : Keeps kl k0 (writeDamage s line hub) := by
  refine Keeps.step ?_ kh km
  unfold writeDamage
  repeat' first
    | with_reducible exact Keeps.refl _ _
    | assumption
    | with_reducible refine modMem_keeps (by decide) (fun x => x) ?_
    | with_reducible refine modMem_keeps (by decide) (fun x => filter_wf x) ?_
    | with_reducible refine Keeps.ite ?_ ?_
    | split
    | dsimp only
    | (with_reducible refine Keeps.put ?_ ?_; rotate_left 1
       · (refine Only.intro fun kp khp => ?_; cases kp <;> first | with_reducible exact rfl | exact absurd (by decide) khp))
    | (with_reducible refine Keeps.set ?_ ?_; rotate_left 1
       · (refine Only.intro fun kp khp => ?_; cases kp <;> first | with_reducible exact rfl | exact absurd (by decide) khp))
    | split

theorem storeBytes_keeps {kl : List Piece} {k0 s : State} {line v be : Nat}
    (km : [.mem, .coh] ⊆ kl)
    (kh : Keeps kl k0 s) : Keeps kl k0 (storeBytes s line v be) := by
  refine Keeps.step ?_ kh km
  unfold storeBytes
  have h : Keeps [.mem, .coh] s ((homes s line).foldl (fun s h =>
      markKey (pageWrite s line h (decide (be % 2 ^ 64 = 2 ^ 64 - 1) && decide (v % 2 ^ 512 = 0))) line h) s) :=
    Keeps.foldl (Keeps.refl _ _) fun u i => markKey_keeps (by decide) (pageWrite_keeps (by decide) (Keeps.refl _ _))
  dsimp only
  generalize List.foldl _ _ _ = u at h ⊢
  have h2 := modMem_keeps (f := fun m => { m with bytes := writeLineMem m.bytes (64 * line) v be 64 })
    (by decide) (fun x => writeLineMem_wf x) h
  generalize modMem _ _ = w at h2 ⊢
  refine Keeps.put h2 ?_
  refine Only.intro fun kp khp => ?_; cases kp <;> first | with_reducible exact rfl | exact absurd (by decide) khp

theorem modCoh_keeps {kl : List Piece} {k0 s : State} {f : Coh → Coh}
    (km : [.coh] ⊆ kl)
    (kh : Keeps kl k0 s) : Keeps kl k0 (modCoh s f) := by
  refine Keeps.step ?_ kh km
  unfold modCoh
  repeat' first
    | with_reducible exact Keeps.refl _ _
    | assumption
    | (with_reducible refine Keeps.put ?_ ?_; rotate_left 1
       · (refine Only.intro fun kp khp => ?_; cases kp <;> first | with_reducible exact rfl | exact absurd (by decide) khp))

theorem openTxn_keeps {kl : List Piece} {k0 : State} {s : State} {line : Nat} {hub : Nat} {req : CohReq} {wait : List Nat} {data : Bool} (km : [.coh, .wire] ⊆ kl)
    (kh : Keeps kl k0 s) : Keeps kl k0 (openTxn s line hub req wait data) := by
  refine Keeps.step ?_ kh km
  unfold openTxn
  repeat' first
    | with_reducible exact Keeps.refl _ _
    | assumption
    | with_reducible refine modCoh_keeps (by decide) ?_
    | with_reducible refine send_keeps (by decide) ?_
    | with_reducible refine Keeps.foldl ?_ (fun _ _ => ?_)
    | with_reducible refine Keeps.foldl1 ?_ (fun _ _ => ?_)
    | (with_reducible refine Keeps.put ?_ ?_; rotate_left 1
       · (refine Only.intro fun kp khp => ?_; cases kp <;> first | with_reducible exact rfl | exact absurd (by decide) khp))
    | (with_reducible refine Keeps.set ?_ ?_; rotate_left 1
       · (refine Only.intro fun kp khp => ?_; cases kp <;> first | with_reducible exact rfl | exact absurd (by decide) khp))

theorem filtCheck_keeps {kl : List Piece} {k0 : State} {s : State} {line : Nat} {hub : Nat} (km : [.boot, .pkg, .lds, .coh, .life, .log, .wire] ⊆ kl)
    (kh : Keeps kl k0 s) : Keeps kl k0 (filtCheck s line hub) := by
  refine Keeps.step ?_ kh km
  unfold filtCheck
  repeat' first
    | with_reducible exact Keeps.refl _ _
    | assumption
    | with_reducible refine raiseFull_keeps (by decide) ?_
    | with_reducible refine modCoh_keeps (by decide) ?_
    | with_reducible refine openTxn_keeps (by decide) ?_
    | with_reducible refine Keeps.ite ?_ ?_
    | split
    | dsimp only
    | (with_reducible refine Keeps.put ?_ ?_; rotate_left 1
       · (refine Only.intro fun kp khp => ?_; cases kp <;> first | with_reducible exact rfl | exact absurd (by decide) khp))
    | (with_reducible refine Keeps.set ?_ ?_; rotate_left 1
       · (refine Only.intro fun kp khp => ?_; cases kp <;> first | with_reducible exact rfl | exact absurd (by decide) khp))
    | split

theorem needAt_keeps {kl : List Piece} {k0 : State} {s : State} {line : Nat} {hub : Nat} {sOk : Bool} {kt : State} (km : [.boot, .pkg, .lds, .coh, .life, .log, .wire] ⊆ kl) (ke : needAt s line hub sOk = some kt)
    (kh : Keeps kl k0 s) : Keeps kl k0 kt := by
  refine Keeps.step ?_ kh km
  unfold needAt at ke
  try dsimp only at ke
  repeat' (first | split at ke | dsimp only at ke)
  all_goals first | (obtain ⟨_, _, rfl⟩ := Option.map_eq_some_iff.1 ke) | cases ke | skip
  all_goals repeat' first
    | with_reducible exact Keeps.refl _ _
    | assumption
    | with_reducible refine filtCheck_keeps (by decide) ?_
    | with_reducible refine openTxn_keeps (by decide) ?_
    | with_reducible refine Keeps.ite ?_ ?_
    | split
    | dsimp only
    | (with_reducible refine Keeps.put ?_ ?_; rotate_left 1
       · (refine Only.intro fun kp khp => ?_; cases kp <;> first | with_reducible exact rfl | exact absurd (by decide) khp))
    | (with_reducible refine Keeps.set ?_ ?_; rotate_left 1
       · (refine Only.intro fun kp khp => ?_; cases kp <;> first | with_reducible exact rfl | exact absurd (by decide) khp))
    | split

theorem needLine_keeps {kl : List Piece} {k0 s : State} {line : Nat} {sOk : Bool} {kt : State}
    (km : [.boot, .pkg, .lds, .coh, .life, .log, .wire] ⊆ kl) (ke : needLine s line sOk = some kt) (kh : Keeps kl k0 s) : Keeps kl k0 kt := by
  suffices h : ∀ (hs : List Nat) (r : Option State), Keeps kl k0 (r.getD s) →
      Keeps kl k0 ((hs.foldl (fun r h => match needAt (r.getD s) line h sOk with
        | some s' => some s' | none => r) r).getD s) by
    have e : (needLine s line sOk).getD s = kt := by rw [ke]; rfl
    rw [← e]
    exact h (homes s line) none kh
  intro hs
  induction hs with
  | nil => exact fun r h => h
  | cons x xs ih =>
    intro r h
    refine ih _ ?_
    dsimp only
    split
    · next e => exact needAt_keeps km e h
    · exact h

theorem needRegion_keeps {kl : List Piece} {k0 s : State} {a n : Nat} {sOk : Bool} {kt : State}
    (km : [.boot, .pkg, .lds, .coh, .life, .log, .wire] ⊆ kl) (ke : needRegion s a n sOk = some kt) (kh : Keeps kl k0 s) : Keeps kl k0 kt := by
  suffices h : ∀ (hs : List Nat) (r : Option State), Keeps kl k0 (r.getD s) →
      Keeps kl k0 ((hs.foldl (fun r k => match needLine (r.getD s) (a / 64 + k) sOk with
        | some s' => some s' | none => r) r).getD s) by
    have e : (needRegion s a n sOk).getD s = kt := by rw [ke]; rfl
    rw [← e]
    unfold needRegion
    split
    · exact kh
    · exact h _ none kh
  intro hs
  induction hs with
  | nil => exact fun r h => h
  | cons x xs ih =>
    intro r h
    refine ih _ ?_
    dsimp only
    split
    · next e => exact needLine_keeps km e h
    · exact h

theorem zeroPage_keeps {kl : List Piece} {k0 s : State} {page : Nat}
    (km : [.mem] ⊆ kl)
    (kh : Keeps kl k0 s) : Keeps kl k0 (zeroPage s page) := by
  refine Keeps.step ?_ kh km
  unfold zeroPage
  refine modMem_keeps (by decide) (fun x => filter_wf x) (Keeps.foldl (Keeps.refl _ _) fun u i => ?_)
  exact modMem_keeps (by decide) (fun x => x) (Keeps.refl _ _)

end Sys2Proof.Machine
end

