-- ==== Sys2Proof/Laws/Capacity.lean ====
section
/-!
SUPPORT. What the operations of Machine/Capacity.lean keep.
-/
set_option linter.unusedTactic false
set_option linter.unreachableTactic false
namespace Sys2Proof.Machine

theorem modCov_keeps {kl : List Piece} {k0 s : State} {id : Nat} {f : Cov → Cov}
    (km : [.covs] ⊆ kl)
    (kh : Keeps kl k0 s) : Keeps kl k0 (modCov s id f) := by
  refine Keeps.step ?_ kh km
  unfold modCov
  repeat' first
    | with_reducible exact Keeps.refl _ _
    | assumption
    | (with_reducible refine Keeps.put ?_ ?_; rotate_left 1
       · (refine Only.intro fun kp khp => ?_; cases kp <;> first | with_reducible exact rfl | exact absurd (by decide) khp))

theorem covShort_keeps {kl : List Piece} {k0 s : State} {id given shortfall reason : Nat}
    (km : [.boot, .pkg, .lds, .covs, .life, .log] ⊆ kl)
    (kh : Keeps kl k0 s) : Keeps kl k0 (covShort s id given shortfall reason) := by
  refine Keeps.step ?_ kh km
  unfold covShort
  repeat' first
    | with_reducible exact Keeps.refl _ _
    | assumption
    | with_reducible refine modCov_keeps (by decide) ?_
    | with_reducible refine event_keeps (by decide) ?_
    | with_reducible refine Keeps.ite ?_ ?_
    | split

theorem covFull_keeps {kl : List Piece} {k0 s : State} {id given : Nat}
    (km : [.covs] ⊆ kl)
    (kh : Keeps kl k0 s) : Keeps kl k0 (covFull s id given) := by
  refine Keeps.step ?_ kh km
  unfold covFull
  repeat' first
    | with_reducible exact Keeps.refl _ _
    | assumption
    | with_reducible refine modCov_keeps (by decide) ?_

theorem covEnd_keeps {kl : List Piece} {k0 : State} {s : State} {id : Nat} {extra : Nat} (km : [.boot, .pkg, .lds, .covs, .life, .log] ⊆ kl)
    (kh : Keeps kl k0 s) : Keeps kl k0 (covEnd s id extra) := by
  refine Keeps.step ?_ kh km
  unfold covEnd
  repeat' first
    | with_reducible exact Keeps.refl _ _
    | assumption
    | with_reducible refine raiseAt_keeps (by decide) ?_
    | with_reducible refine modCov_keeps (by decide) ?_
    | with_reducible refine Keeps.ite ?_ ?_
    | split
    | dsimp only
    | (with_reducible refine Keeps.put ?_ ?_; rotate_left 1
       · (refine Only.intro fun kp khp => ?_; cases kp <;> first | with_reducible exact rfl | exact absurd (by decide) khp))
    | (with_reducible refine Keeps.set ?_ ?_; rotate_left 1
       · (refine Only.intro fun kp khp => ?_; cases kp <;> first | with_reducible exact rfl | exact absurd (by decide) khp))
    | split

theorem capResolve_keeps {kl : List Piece} {k0 s : State}
    (km : [.boot, .pkg, .lds, .covs, .life, .log] ⊆ kl)
    (kh : Keeps kl k0 s) : Keeps kl k0 (capResolve s) := by
  refine Keeps.step ?_ kh km
  unfold capResolve
  repeat' first
    | with_reducible exact Keeps.refl _ _
    | assumption
    | with_reducible refine covEnd_keeps (by decide) ?_
    | with_reducible refine covShort_keeps (by decide) ?_
    | with_reducible refine covFull_keeps (by decide) ?_
    | with_reducible refine Keeps.ite ?_ ?_
    | with_reducible refine Keeps.getD ?_ (fun _ _ => ?_)
    | with_reducible refine Keeps.foldl ?_ (fun _ _ => ?_)
    | with_reducible refine Keeps.foldl1 ?_ (fun _ _ => ?_)
    | (with_reducible refine Keeps.put ?_ ?_; rotate_left 1
       · (refine Only.intro fun kp khp => ?_; cases kp <;> first | with_reducible exact rfl | exact absurd (by decide) khp))

theorem capCheck_keeps {kl : List Piece} {k0 s : State}
    (km : [.boot, .pkg, .lds, .mem, .covs, .life, .log] ⊆ kl)
    (kh : Keeps kl k0 s) : Keeps kl k0 (capCheck s) := by
  refine Keeps.step ?_ kh km
  unfold capCheck
  repeat' first
    | with_reducible exact Keeps.refl _ _
    | assumption
    | with_reducible refine capResolve_keeps (by decide) ?_
    | with_reducible refine capEvents_keeps (by decide) ?_

theorem overPromise_keeps {kl : List Piece} {k0 s : State}
    (km : [.boot, .pkg, .lds, .mem, .life, .log] ⊆ kl)
    (kh : Keeps kl k0 s) : Keeps kl k0 (overPromise s) := by
  refine Keeps.step ?_ kh km
  unfold overPromise
  repeat' first
    | with_reducible exact Keeps.refl _ _
    | assumption
    | with_reducible refine event_keeps (by decide) ?_
    | with_reducible refine modMem_keeps (by decide) (fun x => x) ?_
    | with_reducible refine modMem_keeps (by decide) (fun x => filter_wf x) ?_
    | with_reducible refine Keeps.ite ?_ ?_

end Sys2Proof.Machine
end

