-- ==== Sys2Proof/Laws/Lines.lean ====
section
/-!
SUPPORT. What the operations of Machine/Lines.lean keep.
-/
set_option linter.unusedTactic false
set_option linter.unreachableTactic false
namespace Sys2Proof.Machine

theorem setCopy_keeps {kl : List Piece} {k0 : State} {s : State} {line : Nat} {hub : Nat} {a : Nat} {c : Option CopySt} (km : [.coh] ⊆ kl)
    (kh : Keeps kl k0 s) : Keeps kl k0 (setCopy s line hub a c) := by
  refine Keeps.step ?_ kh km
  unfold setCopy
  repeat' first
    | with_reducible exact Keeps.refl _ _
    | assumption
    | with_reducible refine modCoh_keeps (by decide) ?_
    | with_reducible refine Keeps.ite ?_ ?_
    | (with_reducible refine Keeps.put ?_ ?_; rotate_left 1
       · (refine Only.intro fun kp khp => ?_; cases kp <;> first | with_reducible exact rfl | exact absurd (by decide) khp))
    | (with_reducible refine Keeps.set ?_ ?_; rotate_left 1
       · (refine Only.intro fun kp khp => ?_; cases kp <;> first | with_reducible exact rfl | exact absurd (by decide) khp))
    | split

theorem setDir_keeps {kl : List Piece} {k0 : State} {s : State} {line : Nat} {hub : Nat} (km : [.coh] ⊆ kl)
    (kh : Keeps kl k0 s) : Keeps kl k0 (setDir s line hub) := by
  refine Keeps.step ?_ kh km
  unfold setDir
  repeat' first
    | with_reducible exact Keeps.refl _ _
    | assumption
    | with_reducible refine modCoh_keeps (by decide) ?_
    | with_reducible refine Keeps.ite ?_ ?_
    | with_reducible refine Keeps.getD ?_ (fun _ _ => ?_)
    | split
    | dsimp only
    | (with_reducible refine Keeps.put ?_ ?_; rotate_left 1
       · (refine Only.intro fun kp khp => ?_; cases kp <;> first | with_reducible exact rfl | exact absurd (by decide) khp))
    | (with_reducible refine Keeps.set ?_ ?_; rotate_left 1
       · (refine Only.intro fun kp khp => ?_; cases kp <;> first | with_reducible exact rfl | exact absurd (by decide) khp))
    | split

theorem dropSpec_keeps {kl : List Piece} {k0 s : State} {line : Nat}
    (km : [.coh] ⊆ kl)
    (kh : Keeps kl k0 s) : Keeps kl k0 (dropSpec s line) := by
  refine Keeps.step ?_ kh km
  unfold dropSpec
  repeat' first
    | with_reducible exact Keeps.refl _ _
    | assumption
    | with_reducible refine modCoh_keeps (by decide) ?_

theorem dropCopies_keeps {kl : List Piece} {k0 : State} {s : State} {line : Nat} {hub : Nat} (km : [.coh] ⊆ kl)
    (kh : Keeps kl k0 s) : Keeps kl k0 (dropCopies s line hub) := by
  refine Keeps.step ?_ kh km
  unfold dropCopies
  repeat' first
    | with_reducible exact Keeps.refl _ _
    | assumption
    | with_reducible refine modCoh_keeps (by decide) ?_
    | (with_reducible refine Keeps.put ?_ ?_; rotate_left 1
       · (refine Only.intro fun kp khp => ?_; cases kp <;> first | with_reducible exact rfl | exact absurd (by decide) khp))
    | (with_reducible refine Keeps.set ?_ ?_; rotate_left 1
       · (refine Only.intro fun kp khp => ?_; cases kp <;> first | with_reducible exact rfl | exact absurd (by decide) khp))

theorem sendInv_keeps {kl : List Piece} {k0 : State} {s : State} {line : Nat} {agents : List Nat} (km : [.wire] ⊆ kl)
    (kh : Keeps kl k0 s) : Keeps kl k0 (sendInv s line agents) := by
  refine Keeps.step ?_ kh km
  unfold sendInv
  repeat' first
    | with_reducible exact Keeps.refl _ _
    | assumption
    | with_reducible refine send_keeps (by decide) ?_
    | with_reducible refine Keeps.foldl ?_ (fun _ _ => ?_)
    | with_reducible refine Keeps.foldl1 ?_ (fun _ _ => ?_)

theorem queueWb_keeps {kl : List Piece} {k0 : State} {s : State} {line : Nat} {hub : Nat} (km : [.coh] ⊆ kl)
    (kh : Keeps kl k0 s) : Keeps kl k0 (queueWb s line hub) := by
  refine Keeps.step ?_ kh km
  unfold queueWb
  repeat' first
    | with_reducible exact Keeps.refl _ _
    | assumption
    | with_reducible refine modCoh_keeps (by decide) ?_
    | (with_reducible refine Keeps.put ?_ ?_; rotate_left 1
       · (refine Only.intro fun kp khp => ?_; cases kp <;> first | with_reducible exact rfl | exact absurd (by decide) khp))
    | (with_reducible refine Keeps.set ?_ ?_; rotate_left 1
       · (refine Only.intro fun kp khp => ?_; cases kp <;> first | with_reducible exact rfl | exact absurd (by decide) khp))

theorem checkCopy_keeps {kl : List Piece} {k0 : State} {s : State} {line : Nat} {hub : Nat} {a : Nat} {dirty : Bool} (km : [.boot, .pkg, .lds, .mem, .coh, .life, .log] ⊆ kl)
    (kh : Keeps kl k0 s) : Keeps kl k0 (checkCopy s line hub a dirty) := by
  refine Keeps.step ?_ kh km
  unfold checkCopy
  repeat' first
    | with_reducible exact Keeps.refl _ _
    | assumption
    | with_reducible refine modCoh_keeps (by decide) ?_
    | with_reducible refine raiseFull_keeps (by decide) ?_
    | with_reducible refine setPoison_keeps (by decide) ?_
    | with_reducible refine Keeps.ite ?_ ?_
    | split
    | dsimp only
    | (with_reducible refine Keeps.put ?_ ?_; rotate_left 1
       · (refine Only.intro fun kp khp => ?_; cases kp <;> first | with_reducible exact rfl | exact absurd (by decide) khp))
    | (with_reducible refine Keeps.set ?_ ?_; rotate_left 1
       · (refine Only.intro fun kp khp => ?_; cases kp <;> first | with_reducible exact rfl | exact absurd (by decide) khp))
    | split

theorem checkLine_keeps {kl : List Piece} {k0 s : State} {line hub : Nat}
    (km : [.boot, .pkg, .lds, .mem, .coh, .life, .log] ⊆ kl)
    (kh : Keeps kl k0 s) : Keeps kl k0 (checkLine s line hub) := by
  refine Keeps.step ?_ kh km
  unfold checkLine
  repeat' first
    | with_reducible exact Keeps.refl _ _
    | assumption
    | with_reducible refine checkCopy_keeps (by decide) ?_
    | with_reducible refine Keeps.foldl ?_ (fun _ _ => ?_)

theorem mediaWrite_keeps {kl : List Piece} {k0 : State} {s : State} {line : Nat} {hub : Nat} (km : [.mem] ⊆ kl)
    (kh : Keeps kl k0 s) : Keeps kl k0 (mediaWrite s line hub) := by
  refine Keeps.step ?_ kh km
  unfold mediaWrite
  repeat' first
    | with_reducible exact Keeps.refl _ _
    | assumption
    | with_reducible refine writeDamage_keeps (by decide) ?_
    | with_reducible refine modMem_keeps (by decide) (fun x => x) ?_
    | with_reducible refine modMem_keeps (by decide) (fun x => filter_wf x) ?_
    | split
    | dsimp only
    | (with_reducible refine Keeps.put ?_ ?_; rotate_left 1
       · (refine Only.intro fun kp khp => ?_; cases kp <;> first | with_reducible exact rfl | exact absurd (by decide) khp))
    | (with_reducible refine Keeps.set ?_ ?_; rotate_left 1
       · (refine Only.intro fun kp khp => ?_; cases kp <;> first | with_reducible exact rfl | exact absurd (by decide) khp))
    | split

theorem cleanHome_keeps {kl : List Piece} {k0 : State} {s : State} {line : Nat} {hub : Nat} (km : [.boot, .pkg, .lds, .mem, .coh, .life, .log] ⊆ kl)
    (kh : Keeps kl k0 s) : Keeps kl k0 (cleanHome s line hub) := by
  refine Keeps.step ?_ kh km
  unfold cleanHome
  repeat' first
    | with_reducible exact Keeps.refl _ _
    | assumption
    | with_reducible refine checkCopy_keeps (by decide) ?_
    | with_reducible refine queueWb_keeps (by decide) ?_
    | with_reducible refine mediaWrite_keeps (by decide) ?_
    | with_reducible refine modCoh_keeps (by decide) ?_
    | with_reducible refine Keeps.ite ?_ ?_
    | (with_reducible refine Keeps.put ?_ ?_; rotate_left 1
       · (refine Only.intro fun kp khp => ?_; cases kp <;> first | with_reducible exact rfl | exact absurd (by decide) khp))
    | (with_reducible refine Keeps.set ?_ ?_; rotate_left 1
       · (refine Only.intro fun kp khp => ?_; cases kp <;> first | with_reducible exact rfl | exact absurd (by decide) khp))
    | split

theorem hubRoom_keeps {kl : List Piece} {k0 : State} {s : State} {hub : Nat} (km : [.boot, .pkg, .lds, .mem, .coh, .life, .log] ⊆ kl)
    (kh : Keeps kl k0 s) : Keeps kl k0 (hubRoom s hub) := by
  refine Keeps.step ?_ kh km
  unfold hubRoom
  repeat' first
    | with_reducible exact Keeps.refl _ _
    | assumption
    | with_reducible refine cleanHome_keeps (by decide) ?_
    | with_reducible refine Keeps.ite ?_ ?_
    | split
    | dsimp only
    | (with_reducible refine Keeps.put ?_ ?_; rotate_left 1
       · (refine Only.intro fun kp khp => ?_; cases kp <;> first | with_reducible exact rfl | exact absurd (by decide) khp))
    | (with_reducible refine Keeps.set ?_ ?_; rotate_left 1
       · (refine Only.intro fun kp khp => ?_; cases kp <;> first | with_reducible exact rfl | exact absurd (by decide) khp))
    | split

theorem toWb_keeps {kl : List Piece} {k0 : State} {s : State} {line : Nat} {hub : Nat} (km : [.boot, .pkg, .lds, .mem, .coh, .life, .log] ⊆ kl)
    (kh : Keeps kl k0 s) : Keeps kl k0 (toWb s line hub) := by
  refine Keeps.step ?_ kh km
  unfold toWb
  repeat' first
    | with_reducible exact Keeps.refl _ _
    | assumption
    | with_reducible refine queueWb_keeps (by decide) ?_
    | with_reducible refine hubRoom_keeps (by decide) ?_

theorem cleanCopy_keeps {kl : List Piece} {k0 : State} {s : State} {k : Nat} (km : [.boot, .pkg, .lds, .mem, .coh, .life, .log] ⊆ kl)
    (kh : Keeps kl k0 s) : Keeps kl k0 (cleanCopy s k) := by
  refine Keeps.step ?_ kh km
  unfold cleanCopy
  repeat' first
    | with_reducible exact Keeps.refl _ _
    | assumption
    | with_reducible refine cleanHome_keeps (by decide) ?_
    | with_reducible refine checkCopy_keeps (by decide) ?_
    | with_reducible refine setDir_keeps (by decide) ?_
    | with_reducible refine setCopy_keeps (by decide) ?_
    | with_reducible refine toWb_keeps (by decide) ?_
    | with_reducible refine Keeps.ite ?_ ?_
    | split

theorem twinRoom_keeps {kl : List Piece} {k0 : State} {s : State} {k : Nat} (km : [.boot, .pkg, .lds, .mem, .coh, .life, .log] ⊆ kl)
    (kh : Keeps kl k0 s) : Keeps kl k0 (twinRoom s k) := by
  refine Keeps.step ?_ kh km
  unfold twinRoom
  repeat' first
    | with_reducible exact Keeps.refl _ _
    | assumption
    | with_reducible refine hubRoom_keeps (by decide) ?_
    | with_reducible refine cleanCopy_keeps (by decide) ?_
    | with_reducible refine Keeps.ite ?_ ?_
    | split
    | dsimp only
    | (with_reducible refine Keeps.put ?_ ?_; rotate_left 1
       · (refine Only.intro fun kp khp => ?_; cases kp <;> first | with_reducible exact rfl | exact absurd (by decide) khp))
    | (with_reducible refine Keeps.set ?_ ?_; rotate_left 1
       · (refine Only.intro fun kp khp => ?_; cases kp <;> first | with_reducible exact rfl | exact absurd (by decide) khp))
    | split

theorem dirtied_keeps {kl : List Piece} {k0 : State} {s : State} {k : Nat} (km : [.boot, .pkg, .lds, .mem, .coh, .life, .log] ⊆ kl)
    (kh : Keeps kl k0 s) : Keeps kl k0 (dirtied s k) := by
  refine Keeps.step ?_ kh km
  unfold dirtied
  repeat' first
    | with_reducible exact Keeps.refl _ _
    | assumption
    | with_reducible refine modCoh_keeps (by decide) ?_
    | with_reducible refine twinRoom_keeps (by decide) ?_
    | (with_reducible refine Keeps.put ?_ ?_; rotate_left 1
       · (refine Only.intro fun kp khp => ?_; cases kp <;> first | with_reducible exact rfl | exact absurd (by decide) khp))
    | (with_reducible refine Keeps.set ?_ ?_; rotate_left 1
       · (refine Only.intro fun kp khp => ?_; cases kp <;> first | with_reducible exact rfl | exact absurd (by decide) khp))

theorem bufDrop_keeps {kl : List Piece} {k0 : State} {s : State} {line : Nat} {hub : Nat} (km : [.boot, .pkg, .lds, .mem, .coh, .life, .log] ⊆ kl)
    (kh : Keeps kl k0 s) : Keeps kl k0 (bufDrop s line hub) := by
  refine Keeps.step ?_ kh km
  unfold bufDrop
  repeat' first
    | with_reducible exact Keeps.refl _ _
    | assumption
    | with_reducible refine checkCopy_keeps (by decide) ?_
    | with_reducible refine modCoh_keeps (by decide) ?_
    | with_reducible refine toWb_keeps (by decide) ?_
    | with_reducible refine Keeps.ite ?_ ?_
    | split
    | dsimp only
    | (with_reducible refine Keeps.put ?_ ?_; rotate_left 1
       · (refine Only.intro fun kp khp => ?_; cases kp <;> first | with_reducible exact rfl | exact absurd (by decide) khp))
    | (with_reducible refine Keeps.set ?_ ?_; rotate_left 1
       · (refine Only.intro fun kp khp => ?_; cases kp <;> first | with_reducible exact rfl | exact absurd (by decide) khp))
    | split

theorem bufPut_keeps {kl : List Piece} {k0 : State} {s : State} {line : Nat} {hub : Nat} {dirty : Bool} (km : [.boot, .pkg, .lds, .mem, .coh, .life, .log] ⊆ kl)
    (kh : Keeps kl k0 s) : Keeps kl k0 (bufPut s line hub dirty) := by
  refine Keeps.step ?_ kh km
  unfold bufPut
  repeat' first
    | with_reducible exact Keeps.refl _ _
    | assumption
    | with_reducible refine bufDrop_keeps (by decide) ?_
    | with_reducible refine modCoh_keeps (by decide) ?_
    | with_reducible refine dirtied_keeps (by decide) ?_
    | with_reducible refine Keeps.ite ?_ ?_
    | with_reducible refine Keeps.getD ?_ (fun _ _ => ?_)
    | split
    | dsimp only
    | (with_reducible refine Keeps.put ?_ ?_; rotate_left 1
       · (refine Only.intro fun kp khp => ?_; cases kp <;> first | with_reducible exact rfl | exact absurd (by decide) khp))
    | (with_reducible refine Keeps.set ?_ ?_; rotate_left 1
       · (refine Only.intro fun kp khp => ?_; cases kp <;> first | with_reducible exact rfl | exact absurd (by decide) khp))
    | split

theorem homeDrop_keeps {kl : List Piece} {k0 : State} {s : State} {line : Nat} {hub : Nat} (km : [.boot, .pkg, .lds, .mem, .coh, .life, .log] ⊆ kl)
    (kh : Keeps kl k0 s) : Keeps kl k0 (homeDrop s line hub) := by
  refine Keeps.step ?_ kh km
  unfold homeDrop
  repeat' first
    | with_reducible exact Keeps.refl _ _
    | assumption
    | with_reducible refine bufDrop_keeps (by decide) ?_
    | with_reducible refine toWb_keeps (by decide) ?_
    | with_reducible refine modCoh_keeps (by decide) ?_
    | with_reducible refine checkCopy_keeps (by decide) ?_
    | with_reducible refine Keeps.ite ?_ ?_
    | (with_reducible refine Keeps.put ?_ ?_; rotate_left 1
       · (refine Only.intro fun kp khp => ?_; cases kp <;> first | with_reducible exact rfl | exact absurd (by decide) khp))
    | (with_reducible refine Keeps.set ?_ ?_; rotate_left 1
       · (refine Only.intro fun kp khp => ?_; cases kp <;> first | with_reducible exact rfl | exact absurd (by decide) khp))
    | split

theorem leave_keeps {kl : List Piece} {k0 s : State} {line hub a : Nat}
    (km : [.coh] ⊆ kl)
    (kh : Keeps kl k0 s) : Keeps kl k0 (leave s line hub a) := by
  refine Keeps.step ?_ kh km
  unfold leave
  repeat' first
    | with_reducible exact Keeps.refl _ _
    | assumption
    | with_reducible refine setDir_keeps (by decide) ?_
    | with_reducible refine setCopy_keeps (by decide) ?_

theorem dropEnginePage_keeps {kl : List Piece} {k0 : State} {s : State} {page : Nat} {hub : Nat} (km : [.coh] ⊆ kl)
    (kh : Keeps kl k0 s) : Keeps kl k0 (dropEnginePage s page hub) := by
  refine Keeps.step ?_ kh km
  unfold dropEnginePage
  repeat' first
    | with_reducible exact Keeps.refl _ _
    | assumption
    | with_reducible refine leave_keeps (by decide) ?_
    | with_reducible refine Keeps.foldl ?_ (fun _ _ => ?_)
    | with_reducible refine Keeps.foldl1 ?_ (fun _ _ => ?_)

theorem dramCeAt_keeps {kl : List Piece} {k0 s : State} {hub dpa : Nat} {dst : Recip} {coord : BitVec 48} {injected : Bool}
    (km : [.boot, .pkg, .lds, .mem, .life, .log] ⊆ kl)
    (kh : Keeps kl k0 s) : Keeps kl k0 (dramCeAt s hub dpa dst coord injected) := by
  refine Keeps.step ?_ kh km
  unfold dramCeAt
  repeat' first
    | with_reducible exact Keeps.refl _ _
    | assumption
    | with_reducible refine modLedger_keeps (by decide) ?_
    | with_reducible refine modMem_keeps (by decide) (fun x => x) ?_
    | with_reducible refine modMem_keeps (by decide) (fun x => filter_wf x) ?_
    | with_reducible refine raiseFull_keeps (by decide) ?_
    | with_reducible refine Keeps.ite ?_ ?_

theorem dramCe_keeps {kl : List Piece} {k0 s : State} {hub line : Nat} {coord : BitVec 48} {injected : Bool}
    (km : [.boot, .pkg, .lds, .mem, .life, .log] ⊆ kl)
    (kh : Keeps kl k0 s) : Keeps kl k0 (dramCe s hub line coord injected) := by
  refine Keeps.step ?_ kh km
  unfold dramCe
  repeat' first
    | with_reducible exact Keeps.refl _ _
    | assumption
    | with_reducible refine dramCeAt_keeps (by decide) ?_

theorem poisonPage_keeps {kl : List Piece} {k0 : State} {s : State} {page : Nat} {hub : Nat} (km : [.mem, .coh] ⊆ kl)
    (kh : Keeps kl k0 s) : Keeps kl k0 (poisonPage s page hub) := by
  refine Keeps.step ?_ kh km
  unfold poisonPage
  repeat' first
    | with_reducible exact Keeps.refl _ _
    | assumption
    | with_reducible refine setPoison_keeps (by decide) ?_
    | with_reducible refine dropEnginePage_keeps (by decide) ?_
    | with_reducible refine makePlain_keeps (by decide) ?_
    | with_reducible refine Keeps.foldl ?_ (fun _ _ => ?_)
    | with_reducible refine Keeps.foldl1 ?_ (fun _ _ => ?_)

theorem poisonMedia_keeps {kl : List Piece} {k0 : State} {s : State} {line : Nat} {hub : Nat} (km : [.mem, .coh] ⊆ kl)
    (kh : Keeps kl k0 s) : Keeps kl k0 (poisonMedia s line hub) := by
  refine Keeps.step ?_ kh km
  unfold poisonMedia
  repeat' first
    | with_reducible exact Keeps.refl _ _
    | assumption
    | with_reducible refine poisonPage_keeps (by decide) ?_
    | with_reducible refine setPoison_keeps (by decide) ?_
    | split
    | dsimp only
    | (with_reducible refine Keeps.put ?_ ?_; rotate_left 1
       · (refine Only.intro fun kp khp => ?_; cases kp <;> first | with_reducible exact rfl | exact absurd (by decide) khp))
    | (with_reducible refine Keeps.set ?_ ?_; rotate_left 1
       · (refine Only.intro fun kp khp => ?_; cases kp <;> first | with_reducible exact rfl | exact absurd (by decide) khp))
    | split

theorem dramUe_keeps {kl : List Piece} {k0 : State} {s : State} {hub : Nat} {line : Nat} {coord : BitVec 48} {injected : Bool} (km : [.boot, .pkg, .lds, .mem, .coh, .life, .log] ⊆ kl)
    (kh : Keeps kl k0 s) : Keeps kl k0 (dramUe s hub line coord injected) := by
  refine Keeps.step ?_ kh km
  unfold dramUe
  repeat' first
    | with_reducible exact Keeps.refl _ _
    | assumption
    | with_reducible refine raiseFull_keeps (by decide) ?_
    | with_reducible refine poisonMedia_keeps (by decide) ?_
    | with_reducible refine Keeps.ite ?_ ?_
    | split

theorem rewriteMedia_keeps {kl : List Piece} {k0 : State} {s : State} {line : Nat} {hub : Nat} (km : [.mem] ⊆ kl)
    (kh : Keeps kl k0 s) : Keeps kl k0 (rewriteMedia s line hub) := by
  refine Keeps.step ?_ kh km
  unfold rewriteMedia
  repeat' first
    | with_reducible exact Keeps.refl _ _
    | assumption
    | with_reducible refine modMem_keeps (by decide) (fun x => x) ?_
    | with_reducible refine modMem_keeps (by decide) (fun x => filter_wf x) ?_
    | with_reducible refine Keeps.ite ?_ ?_
    | split
    | dsimp only
    | (with_reducible refine Keeps.put ?_ ?_; rotate_left 1
       · (refine Only.intro fun kp khp => ?_; cases kp <;> first | with_reducible exact rfl | exact absurd (by decide) khp))
    | (with_reducible refine Keeps.set ?_ ?_; rotate_left 1
       · (refine Only.intro fun kp khp => ?_; cases kp <;> first | with_reducible exact rfl | exact absurd (by decide) khp))
    | split

theorem dramRead_keeps {kl : List Piece} {k0 : State} {s : State} {line : Nat} {hub : Nat} {ecc : Ecc} {coord : BitVec 48} (km : [.boot, .pkg, .lds, .mem, .coh, .life, .log] ⊆ kl)
    (kh : Keeps kl k0 s) : Keeps kl k0 (dramRead s line hub ecc coord) := by
  refine Keeps.step ?_ kh km
  unfold dramRead
  repeat' first
    | with_reducible exact Keeps.refl _ _
    | assumption
    | with_reducible refine rewriteMedia_keeps (by decide) ?_
    | with_reducible refine poisonMedia_keeps (by decide) ?_
    | with_reducible refine dramUe_keeps (by decide) ?_
    | with_reducible refine dramCe_keeps (by decide) ?_
    | with_reducible refine Keeps.ite ?_ ?_
    | split

theorem loseMap_keeps {kl : List Piece} {k0 : State} {s : State} {page : Nat} {hub : Nat} (km : [.mem] ⊆ kl)
    (kh : Keeps kl k0 s) : Keeps kl k0 (loseMap s page hub) := by
  refine Keeps.step ?_ kh km
  unfold loseMap
  repeat' first
    | with_reducible exact Keeps.refl _ _
    | assumption
    | with_reducible refine modMem_keeps (by decide) (fun x => x) ?_
    | with_reducible refine modMem_keeps (by decide) (fun x => filter_wf x) ?_
    | (with_reducible refine Keeps.put ?_ ?_; rotate_left 1
       · (refine Only.intro fun kp khp => ?_; cases kp <;> first | with_reducible exact rfl | exact absurd (by decide) khp))
    | (with_reducible refine Keeps.set ?_ ?_; rotate_left 1
       · (refine Only.intro fun kp khp => ?_; cases kp <;> first | with_reducible exact rfl | exact absurd (by decide) khp))

theorem pageMapLost_keeps {kl : List Piece} {k0 s : State} {page hub : Nat}
    (km : [.boot, .pkg, .lds, .mem, .coh, .life, .log] ⊆ kl)
    (kh : Keeps kl k0 s) : Keeps kl k0 (pageMapLost s page hub) := by
  refine Keeps.step ?_ kh km
  unfold pageMapLost
  repeat' first
    | with_reducible exact Keeps.refl _ _
    | assumption
    | with_reducible refine modMem_keeps (by decide) (fun x => x) ?_
    | with_reducible refine modMem_keeps (by decide) (fun x => filter_wf x) ?_
    | with_reducible refine event_keeps (by decide) ?_
    | with_reducible refine poisonPage_keeps (by decide) ?_

theorem homeSupply_keeps {kl : List Piece} {k0 : State} {s : State} {line : Nat} {hub : Nat} {ecc : Ecc} (km : [.boot, .pkg, .lds, .mem, .coh, .life, .log] ⊆ kl)
    (kh : Keeps kl k0 s) : Keeps kl k0 (homeSupply s line hub ecc) := by
  refine Keeps.step ?_ kh km
  unfold homeSupply
  repeat' first
    | with_reducible exact Keeps.refl _ _
    | assumption
    | with_reducible refine checkCopy_keeps (by decide) ?_
    | with_reducible refine loseMap_keeps (by decide) ?_
    | with_reducible refine pageMapLost_keeps (by decide) ?_
    | with_reducible refine dramRead_keeps (by decide) ?_
    | with_reducible refine Keeps.ite ?_ ?_
    | split

theorem supplyLine_keeps {kl : List Piece} {k0 : State} {s : State} {line : Nat} {hub : Nat} (km : [.boot, .pkg, .lds, .mem, .coh, .life, .log] ⊆ kl)
    (kh : Keeps kl k0 s) : Keeps kl k0 (supplyLine s line hub) := by
  refine Keeps.step ?_ kh km
  unfold supplyLine
  repeat' first
    | with_reducible exact Keeps.refl _ _
    | assumption
    | with_reducible refine checkCopy_keeps (by decide) ?_
    | with_reducible refine homeSupply_keeps (by decide) ?_
    | split
    | dsimp only
    | (with_reducible refine Keeps.put ?_ ?_; rotate_left 1
       · (refine Only.intro fun kp khp => ?_; cases kp <;> first | with_reducible exact rfl | exact absurd (by decide) khp))
    | (with_reducible refine Keeps.set ?_ ?_; rotate_left 1
       · (refine Only.intro fun kp khp => ?_; cases kp <;> first | with_reducible exact rfl | exact absurd (by decide) khp))
    | split

theorem dropOthers_keeps {kl : List Piece} {k0 : State} {s : State} {line : Nat} {who : Nat} (km : [.coh] ⊆ kl)
    (kh : Keeps kl k0 s) : Keeps kl k0 (dropOthers s line who) := by
  refine Keeps.step ?_ kh km
  unfold dropOthers
  repeat' first
    | with_reducible exact Keeps.refl _ _
    | assumption
    | with_reducible refine dropSpec_keeps (by decide) ?_
    | with_reducible refine Keeps.ite ?_ ?_
    | split
    | dsimp only
    | (with_reducible refine Keeps.put ?_ ?_; rotate_left 1
       · (refine Only.intro fun kp khp => ?_; cases kp <;> first | with_reducible exact rfl | exact absurd (by decide) khp))
    | (with_reducible refine Keeps.set ?_ ?_; rotate_left 1
       · (refine Only.intro fun kp khp => ?_; cases kp <;> first | with_reducible exact rfl | exact absurd (by decide) khp))
    | split

theorem readIn_keeps {kl : List Piece} {k0 : State} {s : State} {who : Nat} {a : Nat} {n : Nat} (km : [.boot, .pkg, .lds, .mem, .coh, .life, .log] ⊆ kl)
    (kh : Keeps kl k0 s) : Keeps kl k0 (readIn s who a n) := by
  refine Keeps.step ?_ kh km
  unfold readIn
  repeat' first
    | with_reducible exact Keeps.refl _ _
    | assumption
    | with_reducible refine supplyLine_keeps (by decide) ?_
    | with_reducible refine dropOthers_keeps (by decide) ?_
    | with_reducible refine Keeps.ite ?_ ?_
    | with_reducible refine Keeps.foldl ?_ (fun _ _ => ?_)
    | with_reducible refine Keeps.foldl1 ?_ (fun _ _ => ?_)
    | split

theorem meetKeys_keeps {kl : List Piece} {k0 : State} {s : State} {a : Nat} {n : Nat} (km : [.boot, .pkg, .lds, .extents, .life, .log] ⊆ kl)
    (kh : Keeps kl k0 s) : Keeps kl k0 (meetKeys s a n) := by
  refine Keeps.step ?_ kh km
  unfold meetKeys
  repeat' first
    | with_reducible exact Keeps.refl _ _
    | assumption
    | with_reducible refine raiseKeyAbsent_keeps (by decide) ?_
    | with_reducible refine Keeps.ite ?_ ?_
    | with_reducible refine Keeps.foldl ?_ (fun _ _ => ?_)
    | with_reducible refine Keeps.foldl1 ?_ (fun _ _ => ?_)
    | split

theorem meetRegion_keeps {kl : List Piece} {k0 : State} {s : State} {who : Nat} {a : Nat} {n : Nat} (km : [.boot, .pkg, .lds, .extents, .mem, .coh, .life, .log] ⊆ kl)
    (kh : Keeps kl k0 s) : Keeps kl k0 (meetRegion s who a n) := by
  refine Keeps.step ?_ kh km
  unfold meetRegion
  repeat' first
    | with_reducible exact Keeps.refl _ _
    | assumption
    | with_reducible refine meetKeys_keeps (by decide) ?_
    | with_reducible refine readIn_keeps (by decide) ?_

theorem readPage_keeps {kl : List Piece} {k0 : State} {s : State} {page : Nat} {hub : Nat} (km : [.boot, .pkg, .lds, .mem, .coh, .life, .log] ⊆ kl)
    (kh : Keeps kl k0 s) : Keeps kl k0 (readPage s page hub) := by
  refine Keeps.step ?_ kh km
  unfold readPage
  repeat' first
    | with_reducible exact Keeps.refl _ _
    | assumption
    | with_reducible refine homeSupply_keeps (by decide) ?_
    | with_reducible refine Keeps.ite ?_ ?_
    | with_reducible refine Keeps.foldl ?_ (fun _ _ => ?_)
    | with_reducible refine Keeps.foldl1 ?_ (fun _ _ => ?_)
    | split

theorem discardImage_keeps {kl : List Piece} {k0 : State} {s : State} {page : Nat} {hub : Nat} (km : [.boot, .pkg, .lds, .mem, .coh, .life, .log] ⊆ kl)
    (kh : Keeps kl k0 s) : Keeps kl k0 (discardImage s page hub) := by
  refine Keeps.step ?_ kh km
  unfold discardImage
  repeat' first
    | with_reducible exact Keeps.refl _ _
    | assumption
    | with_reducible refine setPage_keeps (by decide) ?_
    | with_reducible refine dramRead_keeps (by decide) ?_
    | with_reducible refine dropEnginePage_keeps (by decide) ?_
    | with_reducible refine Keeps.ite ?_ ?_
    | split
    | dsimp only
    | (with_reducible refine Keeps.put ?_ ?_; rotate_left 1
       · (refine Only.intro fun kp khp => ?_; cases kp <;> first | with_reducible exact rfl | exact absurd (by decide) khp))
    | (with_reducible refine Keeps.set ?_ ?_; rotate_left 1
       · (refine Only.intro fun kp khp => ?_; cases kp <;> first | with_reducible exact rfl | exact absurd (by decide) khp))
    | split

theorem storeLine_keeps {kl : List Piece} {k0 : State} {s : State} {line : Nat} {v : Nat} {be : Nat} (km : [.boot, .pkg, .lds, .mem, .coh, .life, .log] ⊆ kl)
    (kh : Keeps kl k0 s) : Keeps kl k0 (storeLine s line v be) := by
  refine Keeps.step ?_ kh km
  unfold storeLine
  repeat' first
    | with_reducible exact Keeps.refl _ _
    | assumption
    | with_reducible refine storeBytes_keeps (by decide) ?_
    | with_reducible refine discardImage_keeps (by decide) ?_
    | with_reducible refine Keeps.foldl ?_ (fun _ _ => ?_)
    | with_reducible refine Keeps.foldl1 ?_ (fun _ _ => ?_)

theorem clearDamage_keeps {kl : List Piece} {k0 : State} {s : State} {line : Nat} {hub : Nat} {be : Nat} (km : [.coh] ⊆ kl)
    (kh : Keeps kl k0 s) : Keeps kl k0 (clearDamage s line hub be) := by
  refine Keeps.step ?_ kh km
  unfold clearDamage
  repeat' first
    | with_reducible exact Keeps.refl _ _
    | assumption
    | with_reducible refine modCoh_keeps (by decide) ?_
    | with_reducible refine Keeps.ite ?_ ?_
    | (with_reducible refine Keeps.put ?_ ?_; rotate_left 1
       · (refine Only.intro fun kp khp => ?_; cases kp <;> first | with_reducible exact rfl | exact absurd (by decide) khp))
    | (with_reducible refine Keeps.set ?_ ?_; rotate_left 1
       · (refine Only.intro fun kp khp => ?_; cases kp <;> first | with_reducible exact rfl | exact absurd (by decide) khp))
    | split

theorem wholeClear_keeps {kl : List Piece} {k0 : State} {s : State} {line : Nat} {be : Nat} (km : [.mem] ⊆ kl)
    (kh : Keeps kl k0 s) : Keeps kl k0 (wholeClear s line be) := by
  refine Keeps.step ?_ kh km
  unfold wholeClear
  repeat' first
    | with_reducible exact Keeps.refl _ _
    | assumption
    | with_reducible refine clearPoison_keeps (by decide) ?_
    | with_reducible refine Keeps.ite ?_ ?_
    | split

theorem dirEvent_keeps {kl : List Piece} {k0 : State} {s : State} {line : Nat} {hub : Nat} {extra : Nat} (km : [.boot, .pkg, .lds, .life, .log, .wire] ⊆ kl)
    (kh : Keeps kl k0 s) : Keeps kl k0 (dirEvent s line hub extra) := by
  refine Keeps.step ?_ kh km
  unfold dirEvent
  repeat' first
    | with_reducible exact Keeps.refl _ _
    | assumption
    | with_reducible refine sendInv_keeps (by decide) ?_
    | with_reducible refine raiseFull_keeps (by decide) ?_

theorem homeInv_keeps {kl : List Piece} {k0 : State} {s : State} {line : Nat} {hub : Nat} (km : [.boot, .pkg, .lds, .coh, .life, .log, .wire] ⊆ kl)
    (kh : Keeps kl k0 s) : Keeps kl k0 (homeInv s line hub) := by
  refine Keeps.step ?_ kh km
  unfold homeInv
  repeat' first
    | with_reducible exact Keeps.refl _ _
    | assumption
    | with_reducible refine dirEvent_keeps (by decide) ?_
    | with_reducible refine dropCopies_keeps (by decide) ?_
    | with_reducible refine sendInv_keeps (by decide) ?_
    | with_reducible refine Keeps.ite ?_ ?_
    | with_reducible refine Keeps.getD ?_ (fun _ _ => ?_)
    | split

theorem homeStore_keeps {kl : List Piece} {k0 : State} {s : State} {line : Nat} {v : Nat} {be : Nat} (km : [.boot, .pkg, .lds, .mem, .coh, .life, .log, .wire] ⊆ kl)
    (kh : Keeps kl k0 s) : Keeps kl k0 (homeStore s line v be) := by
  refine Keeps.step ?_ kh km
  unfold homeStore
  repeat' first
    | with_reducible exact Keeps.refl _ _
    | assumption
    | with_reducible refine bufPut_keeps (by decide) ?_
    | with_reducible refine clearDamage_keeps (by decide) ?_
    | with_reducible refine homeInv_keeps (by decide) ?_
    | with_reducible refine rekeyLine_keeps (by decide) ?_
    | with_reducible refine wholeClear_keeps (by decide) ?_
    | with_reducible refine storeLine_keeps (by decide) ?_
    | with_reducible refine Keeps.foldl ?_ (fun _ _ => ?_)
    | with_reducible refine Keeps.foldl1 ?_ (fun _ _ => ?_)

theorem homeWrite_keeps {kl : List Piece} {k0 : State} {s : State} {line : Nat} {v : Nat} {be : Nat} (km : [.boot, .pkg, .lds, .mem, .coh, .life, .log, .wire] ⊆ kl)
    (kh : Keeps kl k0 s) : Keeps kl k0 (homeWrite s line v be) := by
  refine Keeps.step ?_ kh km
  unfold homeWrite
  repeat' first
    | with_reducible exact Keeps.refl _ _
    | assumption
    | with_reducible refine modMem_keeps (by decide) (fun x => x) ?_
    | with_reducible refine modMem_keeps (by decide) (fun x => filter_wf x) ?_
    | with_reducible refine homeStore_keeps (by decide) ?_
    | with_reducible refine Keeps.ite ?_ ?_
    | (with_reducible refine Keeps.put ?_ ?_; rotate_left 1
       · (refine Only.intro fun kp khp => ?_; cases kp <;> first | with_reducible exact rfl | exact absurd (by decide) khp))
    | (with_reducible refine Keeps.set ?_ ?_; rotate_left 1
       · (refine Only.intro fun kp khp => ?_; cases kp <;> first | with_reducible exact rfl | exact absurd (by decide) khp))
    | split

theorem writeDevLine_keeps {kl : List Piece} {k0 : State} {s : State} {who : Nat} {line : Nat} {v : Nat} {be : Nat} (km : [.boot, .pkg, .lds, .extents, .mem, .coh, .life, .log, .wire] ⊆ kl)
    (kh : Keeps kl k0 s) : Keeps kl k0 (writeDevLine s who line v be) := by
  refine Keeps.step ?_ kh km
  unfold writeDevLine
  repeat' first
    | with_reducible exact Keeps.refl _ _
    | assumption
    | with_reducible refine raiseKeyAbsent_keeps (by decide) ?_
    | with_reducible refine homeWrite_keeps (by decide) ?_
    | with_reducible refine readIn_keeps (by decide) ?_
    | with_reducible refine Keeps.ite ?_ ?_
    | split

theorem devWrite_keeps {kl : List Piece} {k0 : State} {s : State} {who : Nat} {a : Nat} {v : Nat} {n : Nat} (km : [.boot, .pkg, .lds, .extents, .mem, .coh, .covs, .life, .log, .wire] ⊆ kl)
    (kh : Keeps kl k0 s) : Keeps kl k0 (devWrite s who a v n) := by
  refine Keeps.step ?_ kh km
  unfold devWrite
  repeat' first
    | with_reducible exact Keeps.refl _ _
    | assumption
    | with_reducible refine capCheck_keeps (by decide) ?_
    | with_reducible refine writeDevLine_keeps (by decide) ?_
    | with_reducible refine Keeps.foldl ?_ (fun _ _ => ?_)
    | with_reducible refine Keeps.foldl1 ?_ (fun _ _ => ?_)

end Sys2Proof.Machine
end

