-- ==== Sys2Proof/Laws/Access.lean ====
section
/-!
SUPPORT. What the operations of Machine/Access.lean keep.
-/
set_option linter.unusedTactic false
set_option linter.unreachableTactic false
namespace Sys2Proof.Machine

theorem modRegs_keeps {kl : List Piece} {k0 s : State} {f : Regs → Regs}
    (km : [.regs] ⊆ kl)
    (kh : Keeps kl k0 s) : Keeps kl k0 (modRegs s f) := by
  refine Keeps.step ?_ kh km
  unfold modRegs
  repeat' first
    | with_reducible exact Keeps.refl _ _
    | assumption
    | (with_reducible refine Keeps.put ?_ ?_; rotate_left 1
       · (refine Only.intro fun kp khp => ?_; cases kp <;> first | with_reducible exact rfl | exact absurd (by decide) khp))

theorem aerError_keeps {kl : List Piece} {k0 s : State} {p : Place} {a : Nat}
    (km : [.lds] ⊆ kl)
    (kh : Keeps kl k0 s) : Keeps kl k0 (aerError s p a) := by
  refine Keeps.step ?_ kh km
  unfold aerError
  repeat' first
    | with_reducible exact Keeps.refl _ _
    | assumption
    | with_reducible refine modLd_keeps (by decide) ?_

theorem busError_keeps {kl : List Piece} {k0 s : State} {p : Place} {a : Nat} {read : Bool}
    (km : [.lds, .wire] ⊆ kl)
    (kh : Keeps kl k0 s) : Keeps kl k0 (busError s p a read) := by
  refine Keeps.step ?_ kh km
  unfold busError
  repeat' first
    | with_reducible exact Keeps.refl _ _
    | assumption
    | with_reducible refine aerError_keeps (by decide) ?_
    | with_reducible refine send_keeps (by decide) ?_
    | with_reducible refine Keeps.ite ?_ ?_

theorem pageError_keeps {kl : List Piece} {k0 s : State} {p : Place} {a : Nat} {a' : Nat} {read : Bool} {bit : Nat}
    (km : [.lds, .regs, .wire] ⊆ kl)
    (kh : Keeps kl k0 s) : Keeps kl k0 (pageError s p a a' read bit) := by
  refine Keeps.step ?_ kh km
  unfold pageError
  repeat' first
    | with_reducible exact Keeps.refl _ _
    | assumption
    | with_reducible refine reject_keeps (by decide) ?_
    | with_reducible refine busError_keeps (by decide) ?_

theorem covered_keeps {kl : List Piece} {k0 s : State} {a : Nat}
    (km : [.regs] ⊆ kl)
    (kh : Keeps kl k0 s) : Keeps kl k0 (covered s a) := by
  refine Keeps.step ?_ kh km
  unfold covered
  repeat' first
    | with_reducible exact Keeps.refl _ _
    | assumption
    | with_reducible refine modRegs_keeps (by decide) ?_

theorem dropGuard_keeps {kl : List Piece} {k0 s : State} {p : Place} {base : Nat}
    (km : [.regs, .wire] ⊆ kl)
    (kh : Keeps kl k0 s) : Keeps kl k0 (dropGuard s p base) := by
  refine Keeps.step ?_ kh km
  unfold dropGuard
  repeat' first
    | with_reducible exact Keeps.refl _ _
    | assumption
    | with_reducible refine reject_keeps (by decide) ?_
    | with_reducible refine modRegs_keeps (by decide) ?_
    | split

theorem guardFirst_keeps {kl : List Piece} {k0 s : State} {p : Place} {a : Nat} {w : Word32}
    (km : [.regs, .wire] ⊆ kl)
    (kh : Keeps kl k0 s) : Keeps kl k0 (guardFirst s p a w) := by
  refine Keeps.step ?_ kh km
  unfold guardFirst
  repeat' first
    | with_reducible exact Keeps.refl _ _
    | assumption
    | with_reducible refine dropGuard_keeps (by decide) ?_
    | with_reducible refine modRegs_keeps (by decide) ?_
    | with_reducible refine Keeps.ite ?_ ?_

theorem guardSecond_keeps {kl : List Piece} {k0 s : State} {p : Place} {a : Nat} {w : Word32}
    (km : [.regs, .wire] ⊆ kl)
    (kh : Keeps kl k0 s) : Keeps kl k0 (guardSecond s p a w).1 := by
  refine Keeps.step ?_ kh km
  unfold guardSecond
  repeat' first
    | with_reducible exact Keeps.refl _ _
    | assumption
    | with_reducible refine modRegs_keeps (by decide) ?_
    | with_reducible refine reject_keeps (by decide) ?_
    | with_reducible refine dropGuard_keeps (by decide) ?_
    | with_reducible refine Keeps.ite ?_ ?_
    | split
    | dsimp only

theorem guardEffect_keeps {kl : List Piece} {k0 s : State} {p : Place} {a : Nat} {w : Word32}
    (km : [.lds, .regs, .wire] ⊆ kl)
    (kh : Keeps kl k0 s) : Keeps kl k0 (guardEffect s p a w).1 := by
  refine Keeps.step ?_ kh km
  unfold guardEffect
  repeat' first
    | with_reducible exact Keeps.refl _ _
    | assumption
    | with_reducible refine guardSecond_keeps (by decide) ?_
    | refine Keeps.fst ‹_ = (_, _)› (guardSecond_keeps (by decide) ?_)
    | with_reducible refine pageError_keeps (by decide) ?_
    | with_reducible refine busError_keeps (by decide) ?_
    | split

theorem guardStore_keeps {kl : List Piece} {k0 s : State} {a : Nat} {g : GuardSpec} {w : Word32}
    (km : [.regs, .wire] ⊆ kl)
    (kh : Keeps kl k0 s) : Keeps kl k0 (guardStore s a g w).1 := by
  refine Keeps.step ?_ kh km
  unfold guardStore
  repeat' first
    | with_reducible exact Keeps.refl _ _
    | assumption
    | with_reducible refine setReg_keeps (by decide) ?_
    | with_reducible refine reject_keeps (by decide) ?_
    | with_reducible refine setStaged_keeps (by decide) ?_
    | with_reducible refine Keeps.ite ?_ ?_

theorem writeWord_keeps {kl : List Piece} {k0 s : State} {ty : PageTy} {a : Nat} {r : RegSpec} {w : Word32}
    (km : [.regs, .wire] ⊆ kl)
    (kh : Keeps kl k0 s) : Keeps kl k0 (writeWord s ty a r w) := by
  refine Keeps.step ?_ kh km
  unfold writeWord
  repeat' first
    | with_reducible exact Keeps.refl _ _
    | assumption
    | with_reducible refine setReg_keeps (by decide) ?_
    | with_reducible refine covered_keeps (by decide) ?_
    | with_reducible refine reject_keeps (by decide) ?_
    | with_reducible refine setStaged_keeps (by decide) ?_
    | with_reducible refine Keeps.ite ?_ ?_

theorem dropHolding_keeps {kl : List Piece} {k0 s : State} {a : Nat}
    (km : [.regs] ⊆ kl)
    (kh : Keeps kl k0 s) : Keeps kl k0 (dropHolding s a) := by
  refine Keeps.step ?_ kh km
  unfold dropHolding
  repeat' first
    | with_reducible exact Keeps.refl _ _
    | assumption
    | with_reducible refine modRegs_keeps (by decide) ?_

theorem writeHolding_keeps {kl : List Piece} {k0 s : State} {p : Place} {a : Nat} {r : RegSpec} {w : Word32}
    (km : [.regs] ⊆ kl)
    (kh : Keeps kl k0 s) : Keeps kl k0 (writeHolding s p a r w) := by
  refine Keeps.step ?_ kh km
  unfold writeHolding
  repeat' first
    | with_reducible exact Keeps.refl _ _
    | assumption
    | with_reducible refine modRegs_keeps (by decide) ?_

theorem writeW0_keeps {kl : List Piece} {k0 s : State} {p : Place} {ty : PageTy} {a : Nat} {r : RegSpec} {w : Word32}
    (km : [.regs, .wire] ⊆ kl)
    (kh : Keeps kl k0 s) : Keeps kl k0 (writeW0 s p ty a r w) := by
  refine Keeps.step ?_ kh km
  unfold writeW0
  repeat' first
    | with_reducible exact Keeps.refl _ _
    | assumption
    | with_reducible refine reject_keeps (by decide) ?_
    | with_reducible refine setStaged_keeps (by decide) ?_
    | with_reducible refine setReg_keeps (by decide) ?_
    | with_reducible refine dropHolding_keeps (by decide) ?_
    | with_reducible refine covered_keeps (by decide) ?_
    | with_reducible refine Keeps.ite ?_ ?_
    | with_reducible refine Keeps.foldl ?_ (fun _ _ => ?_)

theorem resetLatches_keeps {kl : List Piece} {k0 s : State} {base : Nat}
    (km : [.regs] ⊆ kl)
    (kh : Keeps kl k0 s) : Keeps kl k0 (resetLatches s base) := by
  refine Keeps.step ?_ kh km
  unfold resetLatches
  repeat' first
    | with_reducible exact Keeps.refl _ _
    | assumption
    | with_reducible refine modRegs_keeps (by decide) ?_

theorem dropStaged_keeps {kl : List Piece} {k0 s : State} {base : Nat}
    (km : [.regs] ⊆ kl)
    (kh : Keeps kl k0 s) : Keeps kl k0 (dropStaged s base) := by
  refine Keeps.step ?_ kh km
  unfold dropStaged
  repeat' first
    | with_reducible exact Keeps.refl _ _
    | assumption
    | with_reducible refine modRegs_keeps (by decide) ?_

theorem activate_keeps {kl : List Piece} {k0 : State} {s : State} {base : Nat} (km : [.regs] ⊆ kl)
    (kh : Keeps kl k0 s) : Keeps kl k0 (activate s base) := by
  refine Keeps.step ?_ kh km
  unfold activate
  repeat' first
    | with_reducible exact Keeps.refl _ _
    | assumption
    | with_reducible refine covered_keeps (by decide) ?_
    | with_reducible refine setReg_keeps (by decide) ?_
    | with_reducible refine dropStaged_keeps (by decide) ?_
    | with_reducible refine Keeps.foldl ?_ (fun _ _ => ?_)
    | with_reducible refine Keeps.foldl1 ?_ (fun _ _ => ?_)

theorem commitEnd_keeps {kl : List Piece} {k0 s : State} {base result : Nat}
    (km : [.regs, .wire] ⊆ kl)
    (kh : Keeps kl k0 s) : Keeps kl k0 (commitEnd s base result) := by
  refine Keeps.step ?_ kh km
  unfold commitEnd
  repeat' first
    | with_reducible exact Keeps.refl _ _
    | assumption
    | with_reducible refine setReg_keeps (by decide) ?_
    | with_reducible refine modRegs_keeps (by decide) ?_
    | with_reducible refine reject_keeps (by decide) ?_
    | with_reducible refine Keeps.ite ?_ ?_

end Sys2Proof.Machine
end

