-- ==== Sys2Proof/Laws/Operands.lean ====
section
/-!
SUPPORT. What the operations of Machine/Operands.lean keep.
-/
set_option linter.unusedTactic false
set_option linter.unreachableTactic false
namespace Sys2Proof.Machine


end Sys2Proof.Machine
end

