-- ==== Sys2Proof/Laws/Flags.lean ====
section
/-!
SUPPORT. What the operations of Machine/Flags.lean keep.
-/
set_option linter.unusedTactic false
set_option linter.unreachableTactic false
namespace Sys2Proof.Machine


end Sys2Proof.Machine
end

