-- ==== Sys2Proof/Laws/Array.lean ====
section
/-!
SUPPORT. What the operations of Machine/Array.lean keep.
-/
set_option linter.unusedTactic false
set_option linter.unreachableTactic false
namespace Sys2Proof.Machine

theorem putRow_keeps {kl : List Piece} {k0 s : State} {die row : Nat} {r : Row}
    (km : [.fronds] ⊆ kl)
    (kh : Keeps kl k0 s) : Keeps kl k0 (putRow s die row r) := by
  refine Keeps.step ?_ kh km
  unfold putRow
  repeat' first
    | with_reducible exact Keeps.refl _ _
    | assumption
    | with_reducible refine modArr_keeps (by decide) ?_

theorem putShadow_keeps {kl : List Piece} {k0 s : State} {die row : Nat} {r : Shadow}
    (km : [.fronds] ⊆ kl)
    (kh : Keeps kl k0 s) : Keeps kl k0 (putShadow s die row r) := by
  refine Keeps.step ?_ kh km
  unfold putShadow
  repeat' first
    | with_reducible exact Keeps.refl _ _
    | assumption
    | with_reducible refine modArr_keeps (by decide) ?_

theorem takeInjected_keeps {kl : List Piece} {k0 s : State} {die row : Nat}
    (km : [.fronds] ⊆ kl)
    (kh : Keeps kl k0 s) : Keeps kl k0 (takeInjected s die row).1 := by
  refine Keeps.step ?_ kh km
  unfold takeInjected
  repeat' first
    | with_reducible exact Keeps.refl _ _
    | assumption
    | with_reducible refine modArr_keeps (by decide) ?_
    | with_reducible refine Keeps.ite ?_ ?_
    | split

theorem poisonEntry_keeps {kl : List Piece} {k0 : State} {s : State} {die : Nat} {row : Nat} (km : [.boot, .pkg, .lds, .fronds, .life, .log] ⊆ kl)
    (kh : Keeps kl k0 s) : Keeps kl k0 (poisonEntry s die row) := by
  refine Keeps.step ?_ kh km
  unfold poisonEntry
  repeat' first
    | with_reducible exact Keeps.refl _ _
    | assumption
    | with_reducible refine putRow_keeps (by decide) ?_
    | with_reducible refine modArr_keeps (by decide) ?_
    | with_reducible refine raiseFull_keeps (by decide) ?_
    | with_reducible refine Keeps.ite ?_ ?_
    | with_reducible refine Keeps.getD ?_ (fun _ _ => ?_)
    | with_reducible refine Keeps.foldl ?_ (fun _ _ => ?_)
    | with_reducible refine Keeps.foldl1 ?_ (fun _ _ => ?_)
    | (with_reducible refine Keeps.put ?_ ?_; rotate_left 1
       · (refine Only.intro fun kp khp => ?_; cases kp <;> first | with_reducible exact rfl | exact absurd (by decide) khp))
    | (with_reducible refine Keeps.set ?_ ?_; rotate_left 1
       · (refine Only.intro fun kp khp => ?_; cases kp <;> first | with_reducible exact rfl | exact absurd (by decide) khp))
    | split

theorem rebuildOne_keeps {kl : List Piece} {k0 : State} {s : State} {die : Nat} {row : Nat} (km : [.boot, .pkg, .lds, .fronds, .life, .log] ⊆ kl)
    (kh : Keeps kl k0 s) : Keeps kl k0 (rebuildOne s die row) := by
  refine Keeps.step ?_ kh km
  unfold rebuildOne
  repeat' first
    | with_reducible exact Keeps.refl _ _
    | assumption
    | with_reducible refine raiseFull_keeps (by decide) ?_
    | with_reducible refine putShadow_keeps (by decide) ?_
    | with_reducible refine poisonEntry_keeps (by decide) ?_
    | with_reducible refine Keeps.ite ?_ ?_
    | split

theorem rebuildRecord_keeps {kl : List Piece} {k0 : State} {s : State} {die : Nat} {row : Nat} (km : [.boot, .pkg, .lds, .fronds, .life, .log] ⊆ kl)
    (kh : Keeps kl k0 s) : Keeps kl k0 (rebuildRecord s die row) := by
  refine Keeps.step ?_ kh km
  unfold rebuildRecord
  repeat' first
    | with_reducible exact Keeps.refl _ _
    | assumption
    | with_reducible refine rebuildOne_keeps (by decide) ?_
    | with_reducible refine Keeps.ite ?_ ?_
    | split

theorem readRecord_keeps {kl : List Piece} {k0 s : State} {die row : Nat}
    (km : [.boot, .pkg, .lds, .fronds, .life, .log] ⊆ kl)
    (kh : Keeps kl k0 s) : Keeps kl k0 (readRecord s die row).1 := by
  refine Keeps.step ?_ kh km
  unfold readRecord
  repeat' first
    | with_reducible exact Keeps.refl _ _
    | assumption
    | with_reducible refine rebuildRecord_keeps (by decide) ?_
    | with_reducible refine Keeps.ite ?_ ?_
    | split
    | dsimp only

theorem putRecord_keeps {kl : List Piece} {k0 : State} {s : State} {die : Nat} {row : Nat} {data : Plane} {mask : Plane} {near : Word64} {valid : Bool} (km : [.boot, .pkg, .lds, .fronds, .life, .log] ⊆ kl)
    (kh : Keeps kl k0 s) : Keeps kl k0 (putRecord s die row data mask near valid) := by
  refine Keeps.step ?_ kh km
  unfold putRecord
  repeat' first
    | with_reducible exact Keeps.refl _ _
    | assumption
    | with_reducible refine putShadow_keeps (by decide) ?_
    | with_reducible refine rebuildOne_keeps (by decide) ?_
    | (with_reducible refine Keeps.put ?_ ?_; rotate_left 1
       · (refine Only.intro fun kp khp => ?_; cases kp <;> first | with_reducible exact rfl | exact absurd (by decide) khp))
    | (with_reducible refine Keeps.set ?_ ?_; rotate_left 1
       · (refine Only.intro fun kp khp => ?_; cases kp <;> first | with_reducible exact rfl | exact absurd (by decide) khp))

theorem settlePoison_keeps {kl : List Piece} {k0 : State} {s : State} {die : Nat} {row : Nat} (km : [.fronds] ⊆ kl)
    (kh : Keeps kl k0 s) : Keeps kl k0 (settlePoison s die row) := by
  refine Keeps.step ?_ kh km
  unfold settlePoison
  repeat' first
    | with_reducible exact Keeps.refl _ _
    | assumption
    | with_reducible refine putRow_keeps (by decide) ?_
    | with_reducible refine Keeps.ite ?_ ?_
    | (with_reducible refine Keeps.put ?_ ?_; rotate_left 1
       · (refine Only.intro fun kp khp => ?_; cases kp <;> first | with_reducible exact rfl | exact absurd (by decide) khp))
    | (with_reducible refine Keeps.set ?_ ?_; rotate_left 1
       · (refine Only.intro fun kp khp => ?_; cases kp <;> first | with_reducible exact rfl | exact absurd (by decide) khp))
    | split

theorem writeRow_keeps {kl : List Piece} {k0 : State} {s : State} {die : Nat} {row : Nat} {data : Plane} {mask : Plane} {near : Option Word64} (km : [.boot, .pkg, .lds, .fronds, .life, .log] ⊆ kl)
    (kh : Keeps kl k0 s) : Keeps kl k0 (writeRow s die row data mask near) := by
  refine Keeps.step ?_ kh km
  unfold writeRow
  repeat' first
    | with_reducible exact Keeps.refl _ _
    | assumption
    | with_reducible refine readRecord_keeps (by decide) ?_
    | refine Keeps.fst ‹_ = (_, _)› (readRecord_keeps (by decide) ?_)
    | with_reducible refine putRow_keeps (by decide) ?_
    | with_reducible refine modArr_keeps (by decide) ?_
    | with_reducible refine settlePoison_keeps (by decide) ?_
    | with_reducible refine putRecord_keeps (by decide) ?_
    | with_reducible refine Keeps.getD ?_ (fun _ _ => ?_)
    | split
    | dsimp only
    | (with_reducible refine Keeps.put ?_ ?_; rotate_left 1
       · (refine Only.intro fun kp khp => ?_; cases kp <;> first | with_reducible exact rfl | exact absurd (by decide) khp))
    | (with_reducible refine Keeps.set ?_ ?_; rotate_left 1
       · (refine Only.intro fun kp khp => ?_; cases kp <;> first | with_reducible exact rfl | exact absurd (by decide) khp))
    | split

theorem writeNear_keeps {kl : List Piece} {k0 s : State} {die row : Nat} {v : Word64}
    (km : [.boot, .pkg, .lds, .fronds, .life, .log] ⊆ kl)
    (kh : Keeps kl k0 s) : Keeps kl k0 (writeNear s die row v) := by
  refine Keeps.step ?_ kh km
  unfold writeNear
  repeat' first
    | with_reducible exact Keeps.refl _ _
    | assumption
    | with_reducible refine readRecord_keeps (by decide) ?_
    | refine Keeps.fst ‹_ = (_, _)› (readRecord_keeps (by decide) ?_)
    | with_reducible refine putRow_keeps (by decide) ?_
    | with_reducible refine putRecord_keeps (by decide) ?_

theorem setValid_keeps {kl : List Piece} {k0 : State} {s : State} {die : Nat} {first : Nat} {n : Nat} {v : Bool} (km : [.boot, .pkg, .lds, .fronds, .life, .log] ⊆ kl)
    (kh : Keeps kl k0 s) : Keeps kl k0 (setValid s die first n v) := by
  refine Keeps.step ?_ kh km
  unfold setValid
  repeat' first
    | with_reducible exact Keeps.refl _ _
    | assumption
    | with_reducible refine settlePoison_keeps (by decide) ?_
    | with_reducible refine readRecord_keeps (by decide) ?_
    | refine Keeps.fst ‹_ = (_, _)› (readRecord_keeps (by decide) ?_)
    | with_reducible refine putRow_keeps (by decide) ?_
    | with_reducible refine putRecord_keeps (by decide) ?_
    | with_reducible refine Keeps.foldl ?_ (fun _ _ => ?_)
    | with_reducible refine Keeps.foldl1 ?_ (fun _ _ => ?_)
    | split
    | dsimp only
    | (with_reducible refine Keeps.put ?_ ?_; rotate_left 1
       · (refine Only.intro fun kp khp => ?_; cases kp <;> first | with_reducible exact rfl | exact absurd (by decide) khp))
    | (with_reducible refine Keeps.set ?_ ?_; rotate_left 1
       · (refine Only.intro fun kp khp => ?_; cases kp <;> first | with_reducible exact rfl | exact absurd (by decide) khp))
    | split

theorem invalidateEntry_keeps {kl : List Piece} {k0 : State} {s : State} {die : Nat} {first : Nat} {n : Nat} (km : [.boot, .pkg, .lds, .fronds, .life, .log] ⊆ kl)
    (kh : Keeps kl k0 s) : Keeps kl k0 (invalidateEntry s die first n) := by
  refine Keeps.step ?_ kh km
  unfold invalidateEntry
  repeat' first
    | with_reducible exact Keeps.refl _ _
    | assumption
    | with_reducible refine rebuildRecord_keeps (by decide) ?_
    | with_reducible refine putRow_keeps (by decide) ?_
    | with_reducible refine putRecord_keeps (by decide) ?_
    | with_reducible refine Keeps.ite ?_ ?_
    | with_reducible refine Keeps.foldl ?_ (fun _ _ => ?_)
    | with_reducible refine Keeps.foldl1 ?_ (fun _ _ => ?_)
    | split
    | dsimp only
    | (with_reducible refine Keeps.put ?_ ?_; rotate_left 1
       · (refine Only.intro fun kp khp => ?_; cases kp <;> first | with_reducible exact rfl | exact absurd (by decide) khp))
    | (with_reducible refine Keeps.set ?_ ?_; rotate_left 1
       · (refine Only.intro fun kp khp => ?_; cases kp <;> first | with_reducible exact rfl | exact absurd (by decide) khp))
    | split

theorem usePan_keeps {kl : List Piece} {k0 s : State} {die pan : Nat}
    (km : [.fronds] ⊆ kl)
    (kh : Keeps kl k0 s) : Keeps kl k0 (usePan s die pan) := by
  refine Keeps.step ?_ kh km
  unfold usePan
  repeat' first
    | with_reducible exact Keeps.refl _ _
    | assumption
    | with_reducible refine modArr_keeps (by decide) ?_

theorem writePan_keeps {kl : List Piece} {k0 s : State} {die pan : Nat} {seat : Option Nat}
    (km : [.seats, .fronds, .tally] ⊆ kl)
    (kh : Keeps kl k0 s) : Keeps kl k0 (writePan s die pan seat) := by
  refine Keeps.step ?_ kh km
  unfold writePan
  repeat' first
    | with_reducible exact Keeps.refl _ _
    | assumption
    | with_reducible refine frondOp_keeps (by decide) ?_
    | with_reducible refine usePan_keeps (by decide) ?_
    | with_reducible refine Keeps.ite ?_ ?_

theorem chargeRepair_keeps {kl : List Piece} {k0 : State} {s : State} {die : Nat} {rows : Nat} {valids : Nat} (km : [.tally] ⊆ kl)
    (kh : Keeps kl k0 s) : Keeps kl k0 (chargeRepair s die rows valids) := by
  refine Keeps.step ?_ kh km
  unfold chargeRepair
  repeat' first
    | with_reducible exact Keeps.refl _ _
    | assumption
    | with_reducible refine modTally_keeps (by decide) ?_
    | with_reducible refine bookOp_keeps (by decide) ?_
    | (with_reducible refine Keeps.put ?_ ?_; rotate_left 1
       · (refine Only.intro fun kp khp => ?_; cases kp <;> first | with_reducible exact rfl | exact absurd (by decide) khp))
    | (with_reducible refine Keeps.set ?_ ?_; rotate_left 1
       · (refine Only.intro fun kp khp => ?_; cases kp <;> first | with_reducible exact rfl | exact absurd (by decide) khp))

theorem countRepair_keeps {kl : List Piece} {k0 : State} {s : State} {die : Nat} {row : Nat} {inj : Nat} (km : [.boot, .pkg, .lds, .fronds, .life, .log] ⊆ kl)
    (kh : Keeps kl k0 s) : Keeps kl k0 (countRepair s die row inj) := by
  refine Keeps.step ?_ kh km
  unfold countRepair
  repeat' first
    | with_reducible exact Keeps.refl _ _
    | assumption
    | with_reducible refine modLedger_keeps (by decide) ?_
    | with_reducible refine modArr_keeps (by decide) ?_
    | with_reducible refine raiseFull_keeps (by decide) ?_
    | with_reducible refine Keeps.ite ?_ ?_
    | with_reducible refine Keeps.getD ?_ (fun _ _ => ?_)
    | (with_reducible refine Keeps.put ?_ ?_; rotate_left 1
       · (refine Only.intro fun kp khp => ?_; cases kp <;> first | with_reducible exact rfl | exact absurd (by decide) khp))
    | (with_reducible refine Keeps.set ?_ ?_; rotate_left 1
       · (refine Only.intro fun kp khp => ?_; cases kp <;> first | with_reducible exact rfl | exact absurd (by decide) khp))
    | split

theorem startRepair_keeps {kl : List Piece} {k0 : State} {s : State} {die : Nat} {row : Nat} (km : [.fronds] ⊆ kl)
    (kh : Keeps kl k0 s) : Keeps kl k0 (startRepair s die row) := by
  refine Keeps.step ?_ kh km
  unfold startRepair
  repeat' first
    | with_reducible exact Keeps.refl _ _
    | assumption
    | with_reducible refine putRow_keeps (by decide) ?_
    | with_reducible refine modArr_keeps (by decide) ?_
    | with_reducible refine Keeps.ite ?_ ?_
    | with_reducible refine Keeps.foldl ?_ (fun _ _ => ?_)
    | with_reducible refine Keeps.foldl1 ?_ (fun _ _ => ?_)
    | (with_reducible refine Keeps.put ?_ ?_; rotate_left 1
       · (refine Only.intro fun kp khp => ?_; cases kp <;> first | with_reducible exact rfl | exact absurd (by decide) khp))
    | (with_reducible refine Keeps.set ?_ ?_; rotate_left 1
       · (refine Only.intro fun kp khp => ?_; cases kp <;> first | with_reducible exact rfl | exact absurd (by decide) khp))
    | split

theorem rowFromRecord_keeps {kl : List Piece} {k0 : State} {s : State} {die : Nat} {row : Nat} {v : Bool} (km : [.boot, .pkg, .lds, .fronds, .life, .log] ⊆ kl)
    (kh : Keeps kl k0 s) : Keeps kl k0 (rowFromRecord s die row v) := by
  refine Keeps.step ?_ kh km
  unfold rowFromRecord
  repeat' first
    | with_reducible exact Keeps.refl _ _
    | assumption
    | with_reducible refine putRow_keeps (by decide) ?_
    | with_reducible refine takeInjected_keeps (by decide) ?_
    | refine Keeps.fst ‹_ = (_, _)› (takeInjected_keeps (by decide) ?_)
    | with_reducible refine countRepair_keeps (by decide) ?_
    | with_reducible refine raiseFull_keeps (by decide) ?_
    | with_reducible refine Keeps.ite ?_ ?_
    | split
    | dsimp only
    | (with_reducible refine Keeps.put ?_ ?_; rotate_left 1
       · (refine Only.intro fun kp khp => ?_; cases kp <;> first | with_reducible exact rfl | exact absurd (by decide) khp))
    | (with_reducible refine Keeps.set ?_ ?_; rotate_left 1
       · (refine Only.intro fun kp khp => ?_; cases kp <;> first | with_reducible exact rfl | exact absurd (by decide) khp))
    | split

theorem finishRepair_keeps {kl : List Piece} {k0 : State} {s : State} {die : Nat} {first : Nat} {n : Nat} (km : [.boot, .pkg, .lds, .fronds, .tally, .life, .log] ⊆ kl)
    (kh : Keeps kl k0 s) : Keeps kl k0 (finishRepair s die first n) := by
  refine Keeps.step ?_ kh km
  unfold finishRepair
  repeat' first
    | with_reducible exact Keeps.refl _ _
    | assumption
    | with_reducible refine rebuildRecord_keeps (by decide) ?_
    | with_reducible refine rowFromRecord_keeps (by decide) ?_
    | with_reducible refine usePan_keeps (by decide) ?_
    | with_reducible refine modArr_keeps (by decide) ?_
    | with_reducible refine chargeRepair_keeps (by decide) ?_
    | with_reducible refine raiseFull_keeps (by decide) ?_
    | with_reducible refine countRepair_keeps (by decide) ?_
    | with_reducible refine Keeps.ite ?_ ?_
    | with_reducible refine Keeps.foldl ?_ (fun _ _ => ?_)
    | with_reducible refine Keeps.foldl1 ?_ (fun _ _ => ?_)
    | (with_reducible refine Keeps.put ?_ ?_; rotate_left 1
       · (refine Only.intro fun kp khp => ?_; cases kp <;> first | with_reducible exact rfl | exact absurd (by decide) khp))
    | (with_reducible refine Keeps.set ?_ ?_; rotate_left 1
       · (refine Only.intro fun kp khp => ?_; cases kp <;> first | with_reducible exact rfl | exact absurd (by decide) khp))
    | split

theorem repairNear_keeps {kl : List Piece} {k0 : State} {s : State} {die : Nat} {row : Nat} (km : [.boot, .pkg, .lds, .fronds, .tally, .life, .log] ⊆ kl)
    (kh : Keeps kl k0 s) : Keeps kl k0 (repairNear s die row) := by
  refine Keeps.step ?_ kh km
  unfold repairNear
  repeat' first
    | with_reducible exact Keeps.refl _ _
    | assumption
    | with_reducible refine takeInjected_keeps (by decide) ?_
    | refine Keeps.fst ‹_ = (_, _)› (takeInjected_keeps (by decide) ?_)
    | with_reducible refine putRow_keeps (by decide) ?_
    | with_reducible refine chargeRepair_keeps (by decide) ?_
    | with_reducible refine usePan_keeps (by decide) ?_
    | with_reducible refine countRepair_keeps (by decide) ?_
    | with_reducible refine raiseFull_keeps (by decide) ?_
    | with_reducible refine poisonEntry_keeps (by decide) ?_
    | with_reducible refine Keeps.ite ?_ ?_
    | split
    | dsimp only
    | (with_reducible refine Keeps.put ?_ ?_; rotate_left 1
       · (refine Only.intro fun kp khp => ?_; cases kp <;> first | with_reducible exact rfl | exact absurd (by decide) khp))
    | (with_reducible refine Keeps.set ?_ ?_; rotate_left 1
       · (refine Only.intro fun kp khp => ?_; cases kp <;> first | with_reducible exact rfl | exact absurd (by decide) khp))
    | split

theorem checkRow_keeps {kl : List Piece} {k0 s : State} {die row : Nat}
    (km : [.boot, .pkg, .lds, .fronds, .tally, .life, .log] ⊆ kl)
    (kh : Keeps kl k0 s) : Keeps kl k0 (checkRow s die row) := by
  refine Keeps.step ?_ kh km
  unfold checkRow
  repeat' first
    | with_reducible exact Keeps.refl _ _
    | assumption
    | with_reducible refine startRepair_keeps (by decide) ?_
    | with_reducible refine repairNear_keeps (by decide) ?_
    | with_reducible refine Keeps.ite ?_ ?_

theorem repairNow_keeps {kl : List Piece} {k0 : State} {s : State} {die : Nat} {first : Nat} {n : Nat} (km : [.boot, .pkg, .lds, .fronds, .tally, .life, .log] ⊆ kl)
    (kh : Keeps kl k0 s) : Keeps kl k0 (repairNow s die first n) := by
  refine Keeps.step ?_ kh km
  unfold repairNow
  repeat' first
    | with_reducible exact Keeps.refl _ _
    | assumption
    | with_reducible refine rebuildRecord_keeps (by decide) ?_
    | with_reducible refine finishRepair_keeps (by decide) ?_
    | with_reducible refine startRepair_keeps (by decide) ?_
    | with_reducible refine Keeps.ite ?_ ?_
    | with_reducible refine Keeps.foldl ?_ (fun _ _ => ?_)
    | with_reducible refine Keeps.foldl1 ?_ (fun _ _ => ?_)
    | split

theorem clearShadow_keeps {kl : List Piece} {k0 : State} {s : State} {die : Nat} {pan : Nat} (km : [.fronds] ⊆ kl)
    (kh : Keeps kl k0 s) : Keeps kl k0 (clearShadow s die pan) := by
  refine Keeps.step ?_ kh km
  unfold clearShadow
  repeat' first
    | with_reducible exact Keeps.refl _ _
    | assumption
    | with_reducible refine modArr_keeps (by decide) ?_
    | (with_reducible refine Keeps.put ?_ ?_; rotate_left 1
       · (refine Only.intro fun kp khp => ?_; cases kp <;> first | with_reducible exact rfl | exact absurd (by decide) khp))
    | (with_reducible refine Keeps.set ?_ ?_; rotate_left 1
       · (refine Only.intro fun kp khp => ?_; cases kp <;> first | with_reducible exact rfl | exact absurd (by decide) khp))

theorem freePan_keeps {kl : List Piece} {k0 s : State} {die pan : Nat}
    (km : [.fronds, .regs] ⊆ kl)
    (kh : Keeps kl k0 s) : Keeps kl k0 (freePan s die pan) := by
  refine Keeps.step ?_ kh km
  unfold freePan
  repeat' first
    | with_reducible exact Keeps.refl _ _
    | assumption
    | with_reducible refine modArr_keeps (by decide) ?_
    | with_reducible refine covered_keeps (by decide) ?_
    | with_reducible refine setReg_keeps (by decide) ?_
    | with_reducible refine modRegs_keeps (by decide) ?_

end Sys2Proof.Machine
end

