-- ==== Sys2Proof/Laws/Rings.lean ====
section
/-!
SUPPORT. What the operations of Machine/Rings.lean keep.
-/
set_option linter.unusedTactic false
set_option linter.unreachableTactic false
namespace Sys2Proof.Machine

theorem modRing_keeps {kl : List Piece} {k0 s : State} {n : Nat} {f : Ring → Ring}
    (km : [.rings] ⊆ kl)
    (kh : Keeps kl k0 s) : Keeps kl k0 (modRing s n f) := by
  refine Keeps.step ?_ kh km
  unfold modRing
  repeat' first
    | with_reducible exact Keeps.refl _ _
    | assumption
    | (with_reducible refine Keeps.put ?_ ?_; rotate_left 1
       · (refine Only.intro fun kp khp => ?_; cases kp <;> first | with_reducible exact rfl | exact absurd (by decide) khp))

theorem setSleepRes_keeps {kl : List Piece} {k0 s : State} {die outcome step target reason : Nat}
    (km : [.regs] ⊆ kl)
    (kh : Keeps kl k0 s) : Keeps kl k0 (setSleepRes s die outcome step target reason) := by
  refine Keeps.step ?_ kh km
  unfold setSleepRes
  repeat' first
    | with_reducible exact Keeps.refl _ _
    | assumption
    | with_reducible refine setReg_keeps (by decide) ?_

theorem wakeHub_keeps {kl : List Piece} {k0 s : State} {h : Nat}
    (km : [.tally, .regs] ⊆ kl)
    (kh : Keeps kl k0 s) : Keeps kl k0 (wakeHub s h) := by
  refine Keeps.step ?_ kh km
  unfold wakeHub
  repeat' first
    | with_reducible exact Keeps.refl _ _
    | assumption
    | with_reducible refine setSleepRes_keeps (by decide) ?_
    | with_reducible refine modTally_keeps (by decide) ?_
    | with_reducible refine Keeps.ite ?_ ?_

theorem sideWake_keeps {kl : List Piece} {k0 : State} {s : State} (km : [.tally, .regs] ⊆ kl)
    (kh : Keeps kl k0 s) : Keeps kl k0 (sideWake s) := by
  refine Keeps.step ?_ kh km
  unfold sideWake
  repeat' first
    | with_reducible exact Keeps.refl _ _
    | assumption
    | with_reducible refine wakeHub_keeps (by decide) ?_
    | with_reducible refine Keeps.foldl ?_ (fun _ _ => ?_)
    | with_reducible refine Keeps.foldl1 ?_ (fun _ _ => ?_)

theorem ringVector_keeps {kl : List Piece} {k0 s : State} {n : Nat}
    (km : [.rings, .wire] ⊆ kl)
    (kh : Keeps kl k0 s) : Keeps kl k0 (ringVector s n) := by
  refine Keeps.step ?_ kh km
  unfold ringVector
  repeat' first
    | with_reducible exact Keeps.refl _ _
    | assumption
    | with_reducible refine modRing_keeps (by decide) ?_
    | with_reducible refine send_keeps (by decide) ?_
    | with_reducible refine Keeps.ite ?_ ?_
    | split
    | dsimp only

theorem writeComp_keeps {kl : List Piece} {k0 : State} {s : State} {n : Nat} {c : Comp} (km : [.boot, .pkg, .lds, .extents, .mem, .coh, .rings, .covs, .life, .log, .wire] ⊆ kl)
    (kh : Keeps kl k0 s) : Keeps kl k0 (writeComp s n c) := by
  refine Keeps.step ?_ kh km
  unfold writeComp
  repeat' first
    | with_reducible exact Keeps.refl _ _
    | assumption
    | with_reducible refine devWrite_keeps (by decide) ?_
    | with_reducible refine ringVector_keeps (by decide) ?_
    | with_reducible refine modRing_keeps (by decide) ?_
    | split
    | dsimp only
    | (with_reducible refine Keeps.put ?_ ?_; rotate_left 1
       · (refine Only.intro fun kp khp => ?_; cases kp <;> first | with_reducible exact rfl | exact absurd (by decide) khp))
    | (with_reducible refine Keeps.set ?_ ?_; rotate_left 1
       · (refine Only.intro fun kp khp => ?_; cases kp <;> first | with_reducible exact rfl | exact absurd (by decide) khp))
    | split

theorem stopPoisoned_keeps {kl : List Piece} {k0 : State} {s : State} {n : Nat} (km : [.rings, .regs] ⊆ kl)
    (kh : Keeps kl k0 s) : Keeps kl k0 (stopPoisoned s n) := by
  refine Keeps.step ?_ kh km
  unfold stopPoisoned
  repeat' first
    | with_reducible exact Keeps.refl _ _
    | assumption
    | with_reducible refine setReg_keeps (by decide) ?_
    | with_reducible refine modRing_keeps (by decide) ?_
    | with_reducible refine Keeps.getD ?_ (fun _ _ => ?_)
    | (with_reducible refine Keeps.put ?_ ?_; rotate_left 1
       · (refine Only.intro fun kp khp => ?_; cases kp <;> first | with_reducible exact rfl | exact absurd (by decide) khp))
    | (with_reducible refine Keeps.set ?_ ?_; rotate_left 1
       · (refine Only.intro fun kp khp => ?_; cases kp <;> first | with_reducible exact rfl | exact absurd (by decide) khp))

theorem writeComps_keeps {kl : List Piece} {k0 : State} {n : Nat} {cs : List Comp} {s : State} {ls : List Nat}
    (km : [.boot, .pkg, .lds, .extents, .mem, .coh, .rings, .covs, .life, .log, .regs, .wire] ⊆ kl)
    (kh : Keeps kl k0 s) : Keeps kl k0 (writeComps n cs s ls).1 := by
  induction cs generalizing s ls with
  | nil => exact kh
  | cons c t ih =>
    unfold writeComps
    dsimp only
    split
    · exact ih (stopPoisoned_keeps (List.Subset.trans (by decide) km) kh)
    · exact ih (writeComp_keeps (List.Subset.trans (by decide) km) kh)

theorem flushList_keeps {kl : List Piece} {k0 : State} {n : Nat} {cs : List (Nat × List Comp)} {s : State} {ls : List Nat}
    (km : [.boot, .pkg, .lds, .extents, .mem, .coh, .rings, .covs, .life, .log, .regs, .wire] ⊆ kl)
    (kh : Keeps kl k0 s) : Keeps kl k0 (flushList n cs s ls).1 := by
  induction cs generalizing s ls with
  | nil => exact kh
  | cons c t ih =>
    unfold flushList
    dsimp only
    split
    · exact kh
    · have kr := Keeps.foldl (xs := stepLines s n c.2.length) (f := fun s l => readIn s (ringSeat s n) (64 * l) 64) kh
        (fun _ _ => readIn_keeps (List.Subset.trans (by decide) km) (Keeps.refl _ _))
      generalize List.foldl _ _ _ = u at kr ⊢
      split
      · have kw := writeComps_keeps (n := n) (cs := c.2) (ls := ls) km kr
        generalize writeComps n c.2 u ls = w at kw ⊢
        exact ih kw
      · exact Keeps.foldl kr fun _ _ => Keeps.getD (Keeps.refl _ _) fun _ ke =>
          needLine_keeps (List.Subset.trans (by decide) km) ke (Keeps.refl _ _)

theorem reap_keeps {kl : List Piece} {k0 : State} {s : State} {n : Nat} (km : [.rings] ⊆ kl)
    (kh : Keeps kl k0 s) : Keeps kl k0 (reap s n) := by
  refine Keeps.step ?_ kh km
  unfold reap
  repeat' first
    | with_reducible exact Keeps.refl _ _
    | assumption
    | with_reducible refine modRing_keeps (by decide) ?_
    | (with_reducible refine Keeps.put ?_ ?_; rotate_left 1
       · (refine Only.intro fun kp khp => ?_; cases kp <;> first | with_reducible exact rfl | exact absurd (by decide) khp))
    | (with_reducible refine Keeps.set ?_ ?_; rotate_left 1
       · (refine Only.intro fun kp khp => ?_; cases kp <;> first | with_reducible exact rfl | exact absurd (by decide) khp))

theorem poisonedEvent_keeps {kl : List Piece} {k0 : State} {s : State} {n : Nat} (km : [.boot, .pkg, .lds, .rings, .life, .log] ⊆ kl)
    (kh : Keeps kl k0 s) : Keeps kl k0 (poisonedEvent s n) := by
  refine Keeps.step ?_ kh km
  unfold poisonedEvent
  repeat' first
    | with_reducible exact Keeps.refl _ _
    | assumption
    | with_reducible refine modRing_keeps (by decide) ?_
    | with_reducible refine raiseFull_keeps (by decide) ?_
    | with_reducible refine Keeps.getD ?_ (fun _ _ => ?_)
    | split
    | dsimp only
    | (with_reducible refine Keeps.put ?_ ?_; rotate_left 1
       · (refine Only.intro fun kp khp => ?_; cases kp <;> first | with_reducible exact rfl | exact absurd (by decide) khp))
    | (with_reducible refine Keeps.set ?_ ?_; rotate_left 1
       · (refine Only.intro fun kp khp => ?_; cases kp <;> first | with_reducible exact rfl | exact absurd (by decide) khp))
    | split

theorem flush_keeps {kl : List Piece} {k0 s : State} {n : Nat} (km : [.boot, .pkg, .lds, .extents, .mem, .coh, .rings, .covs, .life, .log, .regs, .wire] ⊆ kl)
    (kh : Keeps kl k0 s) : Keeps kl k0 (flush s n) := by
  refine Keeps.step ?_ kh km
  unfold flush
  split
  · next r _ =>
    have kf := flushList_keeps (n := n) (cs := r.owed) (ls := []) (List.Subset.refl _) (Keeps.refl [.boot, .pkg, .lds, .extents, .mem, .coh, .rings, .covs, .life, .log, .regs, .wire] s)
    generalize flushList n r.owed s [] = w at kf ⊢
    refine poisonedEvent_keeps (by decide) (reap_keeps (by decide) (Keeps.foldl (modRing_keeps (by decide) kf) fun _ _ =>
      Keeps.getD (Keeps.refl _ _) fun _ ke => needLine_keeps (by decide) ke (Keeps.refl _ _)))
  · exact Keeps.refl _ _

theorem flushAll_keeps {kl : List Piece} {k0 s : State}
    (km : [.boot, .pkg, .lds, .extents, .mem, .coh, .rings, .covs, .life, .log, .regs, .wire] ⊆ kl)
    (kh : Keeps kl k0 s) : Keeps kl k0 (flushAll s) := by
  refine Keeps.step ?_ kh km
  unfold flushAll
  repeat' first
    | with_reducible exact Keeps.refl _ _
    | assumption
    | with_reducible refine flush_keeps (by decide) ?_
    | with_reducible refine Keeps.foldl ?_ (fun _ _ => ?_)

theorem pushComps_keeps {kl : List Piece} {k0 : State} {s : State} {n : Nat} {id : Nat} {cs : List Comp} (km : [.rings] ⊆ kl)
    (kh : Keeps kl k0 s) : Keeps kl k0 (pushComps s n id cs) := by
  refine Keeps.step ?_ kh km
  unfold pushComps
  repeat' first
    | with_reducible exact Keeps.refl _ _
    | assumption
    | with_reducible refine modRing_keeps (by decide) ?_
    | with_reducible refine Keeps.ite ?_ ?_
    | (with_reducible refine Keeps.put ?_ ?_; rotate_left 1
       · (refine Only.intro fun kp khp => ?_; cases kp <;> first | with_reducible exact rfl | exact absurd (by decide) khp))
    | (with_reducible refine Keeps.set ?_ ?_; rotate_left 1
       · (refine Only.intro fun kp khp => ?_; cases kp <;> first | with_reducible exact rfl | exact absurd (by decide) khp))
    | split

theorem pushComp_keeps {kl : List Piece} {k0 : State} {s : State} {n : Nat} {id : Nat} {c : Comp} (km : [.rings] ⊆ kl)
    (kh : Keeps kl k0 s) : Keeps kl k0 (pushComp s n id c) := by
  refine Keeps.step ?_ kh km
  unfold pushComp
  repeat' first
    | with_reducible exact Keeps.refl _ _
    | assumption
    | with_reducible refine pushComps_keeps (by decide) ?_

theorem endMember_keeps {kl : List Piece} {k0 : State} {s : State} {n : Nat} {id : Nat} (km : [.rings] ⊆ kl)
    (kh : Keeps kl k0 s) : Keeps kl k0 (endMember s n id) := by
  refine Keeps.step ?_ kh km
  unfold endMember
  repeat' first
    | with_reducible exact Keeps.refl _ _
    | assumption
    | with_reducible refine modRing_keeps (by decide) ?_
    | with_reducible refine Keeps.ite ?_ ?_
    | (with_reducible refine Keeps.put ?_ ?_; rotate_left 1
       · (refine Only.intro fun kp khp => ?_; cases kp <;> first | with_reducible exact rfl | exact absurd (by decide) khp))
    | (with_reducible refine Keeps.set ?_ ?_; rotate_left 1
       · (refine Only.intro fun kp khp => ?_; cases kp <;> first | with_reducible exact rfl | exact absurd (by decide) khp))
    | split

theorem complete_keeps {kl : List Piece} {k0 s : State} {n id : Nat} {c : Comp}
    (km : [.boot, .pkg, .lds, .extents, .mem, .coh, .rings, .covs, .life, .log, .regs, .wire] ⊆ kl)
    (kh : Keeps kl k0 s) : Keeps kl k0 (complete s n id c) := by
  refine Keeps.step ?_ kh km
  unfold complete
  repeat' first
    | with_reducible exact Keeps.refl _ _
    | assumption
    | with_reducible refine flush_keeps (by decide) ?_
    | with_reducible refine endMember_keeps (by decide) ?_
    | with_reducible refine pushComp_keeps (by decide) ?_

theorem finish_keeps {kl : List Piece} {k0 s : State} {n : Nat} {u : Sub} {st : BitVec 8} {data : Word64}
    (km : [.boot, .pkg, .lds, .extents, .mem, .coh, .rings, .covs, .life, .log, .regs, .wire] ⊆ kl)
    (kh : Keeps kl k0 s) : Keeps kl k0 (finish s n u st data) := by
  refine Keeps.step ?_ kh km
  unfold finish
  repeat' first
    | with_reducible exact Keeps.refl _ _
    | assumption
    | with_reducible refine complete_keeps (by decide) ?_

theorem startSub_keeps {kl : List Piece} {k0 s : State} {n id members : Nat}
    (km : [.rings] ⊆ kl)
    (kh : Keeps kl k0 s) : Keeps kl k0 (startSub s n id members) := by
  refine Keeps.step ?_ kh km
  unfold startSub
  repeat' first
    | with_reducible exact Keeps.refl _ _
    | assumption
    | with_reducible refine modRing_keeps (by decide) ?_

theorem askedSub_keeps {kl : List Piece} {k0 : State} {s : State} {n : Nat} {id : Nat} (km : [.rings] ⊆ kl)
    (kh : Keeps kl k0 s) : Keeps kl k0 (askedSub s n id) := by
  refine Keeps.step ?_ kh km
  unfold askedSub
  repeat' first
    | with_reducible exact Keeps.refl _ _
    | assumption
    | with_reducible refine modRing_keeps (by decide) ?_
    | with_reducible refine Keeps.ite ?_ ?_
    | (with_reducible refine Keeps.put ?_ ?_; rotate_left 1
       · (refine Only.intro fun kp khp => ?_; cases kp <;> first | with_reducible exact rfl | exact absurd (by decide) khp))
    | (with_reducible refine Keeps.set ?_ ?_; rotate_left 1
       · (refine Only.intro fun kp khp => ?_; cases kp <;> first | with_reducible exact rfl | exact absurd (by decide) khp))
    | split

theorem takeSub_keeps {kl : List Piece} {k0 s : State} {n k : Nat} {u : Sub}
    (km : [.rings, .nextId, .disp] ⊆ kl)
    (kh : Keeps kl k0 s) : Keeps kl k0 (takeSub s n k u) := by
  refine Keeps.step ?_ kh km
  unfold takeSub
  repeat' first
    | with_reducible exact Keeps.refl _ _
    | assumption
    | with_reducible refine modRing_keeps (by decide) ?_
    | (with_reducible refine Keeps.set ?_ ?_ ?_ ?_ ?_ ?_ ?_ ?_ ?_ ?_ ?_ ?_ ?_; rotate_left 1
       · (refine Only.intro fun kp khp => ?_; cases kp <;> first | with_reducible exact rfl | exact absurd (by decide) khp)
       · with_reducible exact List.prefix_refl _
       · with_reducible exact Nat.le_refl _
       · with_reducible exact Nat.le_refl _
       · first | with_reducible exact Nat.le_refl _ | exact Nat.le_succ _
       · with_reducible exact List.suffix_refl _
       · with_reducible exact fun x => x
       · with_reducible exact fun x => x
       · with_reducible exact fun x => x
       · with_reducible exact fun x => x
       · with_reducible exact fun x => x
       · with_reducible exact fun x => ⟨x.mode, x.bootMode, x.storeMode, x.sel, x.whole⟩)

theorem takePoisoned_keeps {kl : List Piece} {k0 : State} {s : State} {n : Nat} {head : Nat} {k : Nat} {bad : List Nat} (km : [.boot, .pkg, .lds, .extents, .mem, .coh, .rings, .nextId, .disp, .covs, .life, .log, .regs, .wire] ⊆ kl)
    (kh : Keeps kl k0 s) : Keeps kl k0 (takePoisoned s n head k bad) := by
  refine Keeps.step ?_ kh km
  unfold takePoisoned
  repeat' first
    | with_reducible exact Keeps.refl _ _
    | assumption
    | with_reducible refine finish_keeps (by decide) ?_
    | with_reducible refine takeSub_keeps (by decide) ?_
    | with_reducible refine Keeps.foldl ?_ (fun _ _ => ?_)
    | with_reducible refine Keeps.foldl1 ?_ (fun _ _ => ?_)

theorem needTail_keeps {kl : List Piece} {k0 s : State} {n head k : Nat} {kt : State}
    (km : [.boot, .pkg, .lds, .coh, .life, .log, .wire] ⊆ kl) (ke : needTail s n head k = some kt) (kh : Keeps kl k0 s) : Keeps kl k0 kt := by
  unfold needTail at ke
  split at ke
  · rcases Option.or_eq_some_iff.1 ke with e | ⟨_, e⟩
    · exact needRegion_keeps km e kh
    · exact needRegion_keeps km e kh
  · cases ke

theorem fetchSlots_keeps {kl : List Piece} {k0 : State} {s : State} {n : Nat} {head : Nat} {op : Nat} {k : Nat} {free : Nat} (km : [.boot, .pkg, .lds, .extents, .mem, .coh, .rings, .nextId, .disp, .covs, .life, .log, .regs, .wire] ⊆ kl)
    (kh : Keeps kl k0 s) : Keeps kl k0 (fetchSlots s n head op k free) := by
  refine Keeps.step ?_ kh km
  unfold fetchSlots
  repeat' first
    | with_reducible exact Keeps.refl _ _
    | assumption
    | with_reducible refine meetRegion_keeps (by decide) ?_
    | with_reducible refine takePoisoned_keeps (by decide) ?_
    | with_reducible refine takeSub_keeps (by decide) ?_
    | with_reducible refine finish_keeps (by decide) ?_
    | with_reducible refine Keeps.ite ?_ ?_
    | with_reducible refine Keeps.foldl ?_ (fun _ _ => ?_)
    | with_reducible refine Keeps.foldl1 ?_ (fun _ _ => ?_)
    | split
    | dsimp only
    | (with_reducible refine Keeps.put ?_ ?_; rotate_left 1
       · (refine Only.intro fun kp khp => ?_; cases kp <;> first | with_reducible exact rfl | exact absurd (by decide) khp))
    | (with_reducible refine Keeps.set ?_ ?_; rotate_left 1
       · (refine Only.intro fun kp khp => ?_; cases kp <;> first | with_reducible exact rfl | exact absurd (by decide) khp))
    | split

theorem fetchNext_keeps {kl : List Piece} {k0 : State} {s : State} {n : Nat} {r : Ring} (km : [.boot, .pkg, .lds, .extents, .mem, .coh, .rings, .nextId, .disp, .covs, .life, .log, .regs, .wire] ⊆ kl)
    (kh : Keeps kl k0 s) : Keeps kl k0 (fetchNext s n r) := by
  refine Keeps.step ?_ kh km
  unfold fetchNext
  repeat' first
    | with_reducible exact Keeps.refl _ _
    | assumption
    | refine needRegion_keeps (by decide) ‹_ = some _› ?_
    | with_reducible refine meetRegion_keeps (by decide) ?_
    | with_reducible refine takePoisoned_keeps (by decide) ?_
    | refine needTail_keeps (by decide) ‹_ = some _› ?_
    | with_reducible refine fetchSlots_keeps (by decide) ?_
    | with_reducible refine Keeps.ite ?_ ?_
    | split
    | dsimp only
    | (with_reducible refine Keeps.put ?_ ?_; rotate_left 1
       · (refine Only.intro fun kp khp => ?_; cases kp <;> first | with_reducible exact rfl | exact absurd (by decide) khp))
    | (with_reducible refine Keeps.set ?_ ?_; rotate_left 1
       · (refine Only.intro fun kp khp => ?_; cases kp <;> first | with_reducible exact rfl | exact absurd (by decide) khp))
    | split

theorem execSubmissionFetch_keeps {kl : List Piece} {k0 : State} {ring : BitVec 10} {s kt : State}
    (km : [.boot, .pkg, .lds, .extents, .mem, .coh, .rings, .nextId, .disp, .covs, .life, .log, .regs, .wire] ⊆ kl) (ke : execSubmissionFetch ring s = .next kt)
    (kh : Keeps kl k0 s) : Keeps kl k0 kt := by
  refine Keeps.step ?_ kh km
  unfold execSubmissionFetch at ke
  cases ke
  repeat' first
    | with_reducible exact Keeps.refl _ _
    | assumption
    | with_reducible refine fetchNext_keeps (by decide) ?_
    | with_reducible refine Keeps.ite ?_ ?_
    | split

theorem clearCaches_keeps {kl : List Piece} {k0 : State} {s : State} {n : Nat} (km : [.boot, .pkg, .lds, .mem, .coh, .life, .log] ⊆ kl)
    (kh : Keeps kl k0 s) : Keeps kl k0 (clearCaches s n) := by
  refine Keeps.step ?_ kh km
  unfold clearCaches
  repeat' first
    | with_reducible exact Keeps.refl _ _
    | assumption
    | with_reducible refine checkCopy_keeps (by decide) ?_
    | with_reducible refine leave_keeps (by decide) ?_
    | with_reducible refine toWb_keeps (by decide) ?_
    | with_reducible refine Keeps.ite ?_ ?_
    | with_reducible refine Keeps.foldl ?_ (fun _ _ => ?_)
    | with_reducible refine Keeps.foldl1 ?_ (fun _ _ => ?_)
    | split

theorem enableRing_keeps {kl : List Piece} {k0 : State} {s : State} {n : Nat} (km : [.boot, .pkg, .lds, .mem, .coh, .rings, .life, .log, .regs, .wire] ⊆ kl)
    (kh : Keeps kl k0 s) : Keeps kl k0 (enableRing s n) := by
  refine Keeps.step ?_ kh km
  unfold enableRing
  repeat' first
    | with_reducible exact Keeps.refl _ _
    | assumption
    | with_reducible refine modRing_keeps (by decide) ?_
    | with_reducible refine setReg_keeps (by decide) ?_
    | with_reducible refine clearCaches_keeps (by decide) ?_
    | refine needRegion_keeps (by decide) ‹_ = some _› ?_
    | with_reducible refine Keeps.ite ?_ ?_
    | with_reducible refine Keeps.getD ?_ (fun _ _ => ?_)
    | (with_reducible refine Keeps.put ?_ ?_; rotate_left 1
       · (refine Only.intro fun kp khp => ?_; cases kp <;> first | with_reducible exact rfl | exact absurd (by decide) khp))
    | (with_reducible refine Keeps.set ?_ ?_; rotate_left 1
       · (refine Only.intro fun kp khp => ?_; cases kp <;> first | with_reducible exact rfl | exact absurd (by decide) khp))
    | split

theorem disableRing_keeps {kl : List Piece} {k0 : State} {s : State} {n : Nat} (km : [.rings, .regs] ⊆ kl)
    (kh : Keeps kl k0 s) : Keeps kl k0 (disableRing s n) := by
  refine Keeps.step ?_ kh km
  unfold disableRing
  repeat' first
    | with_reducible exact Keeps.refl _ _
    | assumption
    | with_reducible refine setReg_keeps (by decide) ?_
    | with_reducible refine modRing_keeps (by decide) ?_
    | (with_reducible refine Keeps.put ?_ ?_; rotate_left 1
       · (refine Only.intro fun kp khp => ?_; cases kp <;> first | with_reducible exact rfl | exact absurd (by decide) khp))
    | (with_reducible refine Keeps.set ?_ ?_; rotate_left 1
       · (refine Only.intro fun kp khp => ?_; cases kp <;> first | with_reducible exact rfl | exact absurd (by decide) khp))

theorem ringCtlWrite_keeps {kl : List Piece} {k0 s : State} {n : Nat} {w : Word32}
    (km : [.boot, .pkg, .lds, .mem, .coh, .rings, .life, .log, .regs, .wire] ⊆ kl)
    (kh : Keeps kl k0 s) : Keeps kl k0 (ringCtlWrite s n w) := by
  refine Keeps.step ?_ kh km
  unfold ringCtlWrite
  repeat' first
    | with_reducible exact Keeps.refl _ _
    | assumption
    | with_reducible refine disableRing_keeps (by decide) ?_
    | with_reducible refine reject_keeps (by decide) ?_
    | with_reducible refine covered_keeps (by decide) ?_
    | with_reducible refine setReg_keeps (by decide) ?_
    | with_reducible refine enableRing_keeps (by decide) ?_
    | with_reducible refine Keeps.ite ?_ ?_

theorem ringCtlAccess_keeps {kl : List Piece} {k0 : State} {p : Place} {ring : BitVec 10} {w : Word32} {s : State}
    (km : [.boot, .pkg, .lds, .mem, .coh, .rings, .life, .log, .regs, .wire] ⊆ kl)
    (kh : Keeps kl k0 s) : Keeps kl k0 (ringCtlAccess p ring w s) := by
  refine Keeps.step ?_ kh km
  unfold ringCtlAccess
  repeat' first
    | with_reducible exact Keeps.refl _ _
    | assumption
    | with_reducible refine ringCtlWrite_keeps (by decide) ?_
    | with_reducible refine dropGuard_keeps (by decide) ?_
    | with_reducible refine busError_keeps (by decide) ?_
    | with_reducible refine Keeps.ite ?_ ?_
    | split
    | dsimp only

theorem execRingEnable_keeps {kl : List Piece} {k0 : State} {p : Place} {ring : BitVec 10} {w : Word32} {s kt : State}
    (km : [.boot, .pkg, .lds, .mem, .coh, .rings, .life, .log, .regs, .wire] ⊆ kl) (ke : execRingEnable p ring w s = .next kt)
    (kh : Keeps kl k0 s) : Keeps kl k0 kt := by
  refine Keeps.step ?_ kh km
  unfold execRingEnable at ke
  cases ke
  repeat' first
    | with_reducible exact Keeps.refl _ _
    | assumption
    | with_reducible refine ringCtlAccess_keeps (by decide) ?_

theorem execRingDisable_keeps {kl : List Piece} {k0 : State} {p : Place} {ring : BitVec 10} {w : Word32} {s kt : State}
    (km : [.boot, .pkg, .lds, .mem, .coh, .rings, .life, .log, .regs, .wire] ⊆ kl) (ke : execRingDisable p ring w s = .next kt)
    (kh : Keeps kl k0 s) : Keeps kl k0 kt := by
  refine Keeps.step ?_ kh km
  unfold execRingDisable at ke
  cases ke
  repeat' first
    | with_reducible exact Keeps.refl _ _
    | assumption
    | with_reducible refine ringCtlAccess_keeps (by decide) ?_

theorem dropPages_keeps {kl : List Piece} {k0 : State} {s : State} {p0 : Nat} {p1 : Nat} (km : [.coh] ⊆ kl)
    (kh : Keeps kl k0 s) : Keeps kl k0 (dropPages s p0 p1) := by
  refine Keeps.step ?_ kh km
  unfold dropPages
  repeat' first
    | with_reducible exact Keeps.refl _ _
    | assumption
    | with_reducible refine modCoh_keeps (by decide) ?_
    | (with_reducible refine Keeps.put ?_ ?_; rotate_left 1
       · (refine Only.intro fun kp khp => ?_; cases kp <;> first | with_reducible exact rfl | exact absurd (by decide) khp))
    | (with_reducible refine Keeps.set ?_ ?_; rotate_left 1
       · (refine Only.intro fun kp khp => ?_; cases kp <;> first | with_reducible exact rfl | exact absurd (by decide) khp))

theorem zeroRegion_keeps {kl : List Piece} {k0 : State} {s : State} {who : Nat} {a : Nat} {n : Nat} (km : [.boot, .pkg, .lds, .extents, .mem, .coh, .covs, .life, .log, .wire] ⊆ kl)
    (kh : Keeps kl k0 s) : Keeps kl k0 (zeroRegion s who a n) := by
  refine Keeps.step ?_ kh km
  unfold zeroRegion
  repeat' first
    | with_reducible exact Keeps.refl _ _
    | assumption
    | with_reducible refine zeroPage_keeps (by decide) ?_
    | with_reducible refine dropPages_keeps (by decide) ?_
    | with_reducible refine devWrite_keeps (by decide) ?_
    | with_reducible refine Keeps.ite ?_ ?_
    | with_reducible refine Keeps.foldl ?_ (fun _ _ => ?_)
    | with_reducible refine Keeps.foldl1 ?_ (fun _ _ => ?_)
    | split

theorem execRingReady_keeps {kl : List Piece} {k0 : State} {ring : BitVec 10} {s : State} {kt : State} (km : [.boot, .pkg, .lds, .extents, .mem, .coh, .rings, .covs, .life, .log, .regs, .wire] ⊆ kl) (ke : execRingReady ring s = .next kt)
    (kh : Keeps kl k0 s) : Keeps kl k0 kt := by
  refine Keeps.step ?_ kh km
  unfold execRingReady at ke
  cases ke
  repeat' first
    | with_reducible exact Keeps.refl _ _
    | assumption
    | refine needRegion_keeps (by decide) ‹_ = some _› ?_
    | with_reducible refine zeroRegion_keeps (by decide) ?_
    | with_reducible refine modRing_keeps (by decide) ?_
    | with_reducible refine setReg_keeps (by decide) ?_
    | with_reducible refine Keeps.ite ?_ ?_
    | split
    | dsimp only
    | (with_reducible refine Keeps.put ?_ ?_; rotate_left 1
       · (refine Only.intro fun kp khp => ?_; cases kp <;> first | with_reducible exact rfl | exact absurd (by decide) khp))
    | (with_reducible refine Keeps.set ?_ ?_; rotate_left 1
       · (refine Only.intro fun kp khp => ?_; cases kp <;> first | with_reducible exact rfl | exact absurd (by decide) khp))
    | split

theorem sqTailWrite_keeps {kl : List Piece} {k0 : State} {s : State} {n : Nat} {v : Word32} (km : [.boot, .pkg, .lds, .rings, .life, .log, .regs] ⊆ kl)
    (kh : Keeps kl k0 s) : Keeps kl k0 (sqTailWrite s n v) := by
  refine Keeps.step ?_ kh km
  unfold sqTailWrite
  repeat' first
    | with_reducible exact Keeps.refl _ _
    | assumption
    | with_reducible refine modRing_keeps (by decide) ?_
    | with_reducible refine setReg_keeps (by decide) ?_
    | with_reducible refine event_keeps (by decide) ?_
    | with_reducible refine Keeps.ite ?_ ?_
    | with_reducible refine Keeps.getD ?_ (fun _ _ => ?_)
    | split
    | dsimp only
    | (with_reducible refine Keeps.put ?_ ?_; rotate_left 1
       · (refine Only.intro fun kp khp => ?_; cases kp <;> first | with_reducible exact rfl | exact absurd (by decide) khp))
    | (with_reducible refine Keeps.set ?_ ?_; rotate_left 1
       · (refine Only.intro fun kp khp => ?_; cases kp <;> first | with_reducible exact rfl | exact absurd (by decide) khp))
    | split

theorem cqHeadWrite_keeps {kl : List Piece} {k0 s : State} {n : Nat} {v : Word32}
    (km : [.boot, .pkg, .lds, .rings, .life, .log] ⊆ kl)
    (kh : Keeps kl k0 s) : Keeps kl k0 (cqHeadWrite s n v) := by
  refine Keeps.step ?_ kh km
  unfold cqHeadWrite
  repeat' first
    | with_reducible exact Keeps.refl _ _
    | assumption
    | with_reducible refine modRing_keeps (by decide) ?_
    | with_reducible refine event_keeps (by decide) ?_
    | with_reducible refine Keeps.ite ?_ ?_
    | with_reducible refine Keeps.getD ?_ (fun _ _ => ?_)
    | split

theorem irqArmWrite_keeps {kl : List Piece} {k0 s : State} {n : Nat} {v : Word32}
    (km : [.rings] ⊆ kl)
    (kh : Keeps kl k0 s) : Keeps kl k0 (irqArmWrite s n v) := by
  refine Keeps.step ?_ kh km
  unfold irqArmWrite
  repeat' first
    | with_reducible exact Keeps.refl _ _
    | assumption
    | with_reducible refine modRing_keeps (by decide) ?_
    | with_reducible refine Keeps.ite ?_ ?_

theorem bellWrite_keeps {kl : List Piece} {k0 s : State} {n : Nat} {b : Bell} {be : BitVec 4} {v : Word32}
    (km : [.boot, .pkg, .lds, .rings, .tally, .life, .log, .regs] ⊆ kl)
    (kh : Keeps kl k0 s) : Keeps kl k0 (bellWrite s n b be v) := by
  refine Keeps.step ?_ kh km
  unfold bellWrite
  repeat' first
    | with_reducible exact Keeps.refl _ _
    | assumption
    | with_reducible refine wakeHub_keeps (by decide) ?_
    | with_reducible refine sqTailWrite_keeps (by decide) ?_
    | with_reducible refine cqHeadWrite_keeps (by decide) ?_
    | with_reducible refine irqArmWrite_keeps (by decide) ?_
    | with_reducible refine Keeps.ite ?_ ?_
    | split
    | dsimp only

theorem hostBell_keeps {kl : List Piece} {k0 : State} {p : Place} {ring : BitVec 10} {b : Bell} {be : BitVec 4} {v : Word32} {s : State}
    (km : [.boot, .pkg, .lds, .rings, .tally, .life, .log, .regs] ⊆ kl)
    (kh : Keeps kl k0 s) : Keeps kl k0 (hostBell p ring b be v s) := by
  refine Keeps.step ?_ kh km
  unfold hostBell
  repeat' first
    | with_reducible exact Keeps.refl _ _
    | assumption
    | with_reducible refine bellWrite_keeps (by decide) ?_
    | with_reducible refine Keeps.ite ?_ ?_
    | split

theorem execSqTailWrite_keeps {kl : List Piece} {k0 : State} {p : Place} {ring : BitVec 10} {be : BitVec 4} {v : Word32} {s kt : State}
    (km : [.boot, .pkg, .lds, .rings, .tally, .life, .log, .regs] ⊆ kl) (ke : execSqTailWrite p ring be v s = .next kt)
    (kh : Keeps kl k0 s) : Keeps kl k0 kt := by
  refine Keeps.step ?_ kh km
  unfold execSqTailWrite at ke
  cases ke
  repeat' first
    | with_reducible exact Keeps.refl _ _
    | assumption
    | with_reducible refine hostBell_keeps (by decide) ?_

theorem execCqHeadWrite_keeps {kl : List Piece} {k0 : State} {p : Place} {ring : BitVec 10} {be : BitVec 4} {v : Word32} {s kt : State}
    (km : [.boot, .pkg, .lds, .rings, .tally, .life, .log, .regs] ⊆ kl) (ke : execCqHeadWrite p ring be v s = .next kt)
    (kh : Keeps kl k0 s) : Keeps kl k0 kt := by
  refine Keeps.step ?_ kh km
  unfold execCqHeadWrite at ke
  cases ke
  repeat' first
    | with_reducible exact Keeps.refl _ _
    | assumption
    | with_reducible refine hostBell_keeps (by decide) ?_

theorem execIrqArmWrite_keeps {kl : List Piece} {k0 : State} {p : Place} {ring : BitVec 10} {be : BitVec 4} {v : Word32} {s kt : State}
    (km : [.boot, .pkg, .lds, .rings, .tally, .life, .log, .regs] ⊆ kl) (ke : execIrqArmWrite p ring be v s = .next kt)
    (kh : Keeps kl k0 s) : Keeps kl k0 kt := by
  refine Keeps.step ?_ kh km
  unfold execIrqArmWrite at ke
  cases ke
  repeat' first
    | with_reducible exact Keeps.refl _ _
    | assumption
    | with_reducible refine hostBell_keeps (by decide) ?_

end Sys2Proof.Machine
end

