-- ==== Sys2Proof/Laws/Power.lean ====
section
/-!
SUPPORT. What the operations of Machine/Power.lean keep.
-/
set_option linter.unusedTactic false
set_option linter.unreachableTactic false
namespace Sys2Proof.Machine

theorem wakeDie_keeps {kl : List Piece} {k0 s : State} {die : Nat}
    (km : [.pins, .fronds, .tally, .regs, .wire] ⊆ kl)
    (kh : Keeps kl k0 s) : Keeps kl k0 (wakeDie s die) := by
  refine Keeps.step ?_ kh km
  unfold wakeDie
  repeat' first
    | with_reducible exact Keeps.refl _ _
    | assumption
    | with_reducible refine setSleepRes_keeps (by decide) ?_
    | with_reducible refine modFrond_keeps (by decide) ?_
    | with_reducible refine wakeHub_keeps (by decide) ?_
    | with_reducible refine send_keeps (by decide) ?_
    | with_reducible refine Keeps.ite ?_ ?_
    | split
    | dsimp only
    | (with_reducible refine Keeps.put ?_ ?_; rotate_left 1
       · (refine Only.intro fun kp khp => ?_; cases kp <;> first | with_reducible exact rfl | exact absurd (by decide) khp))

theorem wakePage_keeps {kl : List Piece} {k0 s : State} {a : Nat}
    (km : [.pins, .fronds, .tally, .regs, .wire] ⊆ kl)
    (kh : Keeps kl k0 s) : Keeps kl k0 (wakePage s a) := by
  refine Keeps.step ?_ kh km
  unfold wakePage
  repeat' first
    | with_reducible exact Keeps.refl _ _
    | assumption
    | with_reducible refine wakeHub_keeps (by decide) ?_
    | with_reducible refine wakeDie_keeps (by decide) ?_
    | with_reducible refine Keeps.ite ?_ ?_

theorem queueWrite_keeps {kl : List Piece} {k0 : State} {s : State} {p : Place} {a : Nat} {w : Word32} (km : [.pins, .fronds, .tally, .regs, .wire] ⊆ kl)
    (kh : Keeps kl k0 s) : Keeps kl k0 (queueWrite s p a w) := by
  refine Keeps.step ?_ kh km
  unfold queueWrite
  repeat' first
    | with_reducible exact Keeps.refl _ _
    | assumption
    | with_reducible refine modRegs_keeps (by decide) ?_
    | with_reducible refine wakePage_keeps (by decide) ?_
    | (with_reducible refine Keeps.put ?_ ?_; rotate_left 1
       · (refine Only.intro fun kp khp => ?_; cases kp <;> first | with_reducible exact rfl | exact absurd (by decide) khp))
    | (with_reducible refine Keeps.set ?_ ?_; rotate_left 1
       · (refine Only.intro fun kp khp => ?_; cases kp <;> first | with_reducible exact rfl | exact absurd (by decide) khp))

theorem needFronds_keeps {kl : List Piece} {k0 s : State} {dies : List Nat} {kt : State}
    (km : [.pins, .fronds, .tally, .regs, .wire] ⊆ kl) (ke : needFronds s dies = some kt)
    (kh : Keeps kl k0 s) : Keeps kl k0 kt := by
  refine Keeps.step ?_ kh km
  unfold needFronds at ke
  try dsimp only at ke
  repeat' (first | split at ke | dsimp only at ke)
  all_goals first | cases ke | skip
  all_goals repeat' first
    | with_reducible exact Keeps.refl _ _
    | assumption
    | with_reducible refine wakeDie_keeps (by decide) ?_
    | with_reducible refine Keeps.ite ?_ ?_
    | with_reducible refine Keeps.foldl ?_ (fun _ _ => ?_)

theorem roomResolve_keeps {kl : List Piece} {k0 : State} {s : State} {reason : Nat} (km : [.boot, .pkg, .lds, .covs, .life, .log] ⊆ kl)
    (kh : Keeps kl k0 s) : Keeps kl k0 (roomResolve s reason) := by
  refine Keeps.step ?_ kh km
  unfold roomResolve
  repeat' first
    | with_reducible exact Keeps.refl _ _
    | assumption
    | with_reducible refine covShort_keeps (by decide) ?_
    | with_reducible refine covFull_keeps (by decide) ?_
    | with_reducible refine Keeps.ite ?_ ?_
    | with_reducible refine Keeps.foldl ?_ (fun _ _ => ?_)
    | with_reducible refine Keeps.foldl1 ?_ (fun _ _ => ?_)
    | split
    | dsimp only
    | (with_reducible refine Keeps.put ?_ ?_; rotate_left 1
       · (refine Only.intro fun kp khp => ?_; cases kp <;> first | with_reducible exact rfl | exact absurd (by decide) khp))
    | (with_reducible refine Keeps.set ?_ ?_; rotate_left 1
       · (refine Only.intro fun kp khp => ?_; cases kp <;> first | with_reducible exact rfl | exact absurd (by decide) khp))
    | split

end Sys2Proof.Machine
end

