-- ==== Sys2Proof/Laws/Coherence.lean ====
section
/-!
SUPPORT. What the operations of Machine/Coherence.lean keep.
-/
set_option linter.unusedTactic false
set_option linter.unreachableTactic false
namespace Sys2Proof.Machine

theorem wakeHolders_keeps {kl : List Piece} {k0 s : State} {line hub : Nat}
    (km : [.pins, .fronds, .tally, .regs, .wire] ⊆ kl)
    (kh : Keeps kl k0 s) : Keeps kl k0 (wakeHolders s line hub) := by
  refine Keeps.step ?_ kh km
  unfold wakeHolders
  repeat' first
    | with_reducible exact Keeps.refl _ _
    | assumption
    | with_reducible refine wakeDie_keeps (by decide) ?_
    | with_reducible refine Keeps.foldl ?_ (fun _ _ => ?_)

theorem invAll_keeps {kl : List Piece} {k0 : State} {s : State} {line : Nat} {hub : Nat} {keep : Bool} (km : [.pins, .boot, .pkg, .lds, .mem, .coh, .fronds, .tally, .life, .log, .regs, .wire] ⊆ kl)
    (kh : Keeps kl k0 s) : Keeps kl k0 (invAll s line hub keep) := by
  refine Keeps.step ?_ kh km
  unfold invAll
  repeat' first
    | with_reducible exact Keeps.refl _ _
    | assumption
    | with_reducible refine checkLine_keeps (by decide) ?_
    | with_reducible refine wakeHolders_keeps (by decide) ?_
    | with_reducible refine dropCopies_keeps (by decide) ?_
    | with_reducible refine sendInv_keeps (by decide) ?_
    | with_reducible refine toWb_keeps (by decide) ?_
    | with_reducible refine Keeps.ite ?_ ?_
    | split

theorem dirCheck_keeps {kl : List Piece} {k0 : State} {s : State} {line : Nat} {hub : Nat} {extra : Nat} (km : [.pins, .boot, .pkg, .lds, .mem, .coh, .fronds, .tally, .life, .log, .regs, .wire] ⊆ kl)
    (kh : Keeps kl k0 s) : Keeps kl k0 (dirCheck s line hub extra) := by
  refine Keeps.step ?_ kh km
  unfold dirCheck
  repeat' first
    | with_reducible exact Keeps.refl _ _
    | assumption
    | with_reducible refine invAll_keeps (by decide) ?_
    | with_reducible refine dirEvent_keeps (by decide) ?_

theorem settleDir_keeps {kl : List Piece} {k0 : State} {s : State} {line : Nat} {hub : Nat} (km : [.pins, .boot, .pkg, .lds, .mem, .coh, .fronds, .tally, .life, .log, .regs, .wire] ⊆ kl)
    (kh : Keeps kl k0 s) : Keeps kl k0 (settleDir s line hub) := by
  refine Keeps.step ?_ kh km
  unfold settleDir
  repeat' first
    | with_reducible exact Keeps.refl _ _
    | assumption
    | with_reducible refine dirCheck_keeps (by decide) ?_
    | with_reducible refine Keeps.ite ?_ ?_
    | split
    | dsimp only
    | (with_reducible refine Keeps.put ?_ ?_; rotate_left 1
       · (refine Only.intro fun kp khp => ?_; cases kp <;> first | with_reducible exact rfl | exact absurd (by decide) khp))
    | (with_reducible refine Keeps.set ?_ ?_; rotate_left 1
       · (refine Only.intro fun kp khp => ?_; cases kp <;> first | with_reducible exact rfl | exact absurd (by decide) khp))
    | split

theorem settleFilt_keeps {kl : List Piece} {k0 : State} {s : State} {line : Nat} {hub : Nat} (km : [.boot, .pkg, .lds, .coh, .life, .log, .wire] ⊆ kl)
    (kh : Keeps kl k0 s) : Keeps kl k0 (settleFilt s line hub) := by
  refine Keeps.step ?_ kh km
  unfold settleFilt
  repeat' first
    | with_reducible exact Keeps.refl _ _
    | assumption
    | with_reducible refine filtCheck_keeps (by decide) ?_
    | with_reducible refine Keeps.ite ?_ ?_
    | split

theorem meetEntry_keeps {kl : List Piece} {k0 : State} {s : State} {line : Nat} {hub : Nat} {ecc : Ecc} (km : [.pins, .boot, .pkg, .lds, .mem, .coh, .fronds, .tally, .life, .log, .regs, .wire] ⊆ kl)
    (kh : Keeps kl k0 s) : Keeps kl k0 (meetEntry s line hub ecc) := by
  refine Keeps.step ?_ kh km
  unfold meetEntry
  repeat' first
    | with_reducible exact Keeps.refl _ _
    | assumption
    | with_reducible refine dirCheck_keeps (by decide) ?_
    | with_reducible refine settleFilt_keeps (by decide) ?_
    | with_reducible refine modCoh_keeps (by decide) ?_
    | with_reducible refine Keeps.ite ?_ ?_
    | split
    | dsimp only
    | (with_reducible refine Keeps.put ?_ ?_; rotate_left 1
       · (refine Only.intro fun kp khp => ?_; cases kp <;> first | with_reducible exact rfl | exact absurd (by decide) khp))
    | (with_reducible refine Keeps.set ?_ ?_; rotate_left 1
       · (refine Only.intro fun kp khp => ?_; cases kp <;> first | with_reducible exact rfl | exact absurd (by decide) khp))
    | split

theorem enterRetry_keeps {kl : List Piece} {k0 : State} {s : State} {hub : Nat} {line : Nat} {r : CohReq} {via : Via} (km : [.coh, .regs] ⊆ kl)
    (kh : Keeps kl k0 s) : Keeps kl k0 (enterRetry s hub line r via) := by
  refine Keeps.step ?_ kh km
  unfold enterRetry
  repeat' first
    | with_reducible exact Keeps.refl _ _
    | assumption
    | with_reducible refine modCoh_keeps (by decide) ?_
    | with_reducible refine setReg_keeps (by decide) ?_
    | with_reducible refine Keeps.ite ?_ ?_
    | with_reducible refine Keeps.getD ?_ (fun _ _ => ?_)
    | (with_reducible refine Keeps.put ?_ ?_; rotate_left 1
       · (refine Only.intro fun kp khp => ?_; cases kp <;> first | with_reducible exact rfl | exact absurd (by decide) khp))
    | (with_reducible refine Keeps.set ?_ ?_; rotate_left 1
       · (refine Only.intro fun kp khp => ?_; cases kp <;> first | with_reducible exact rfl | exact absurd (by decide) khp))
    | split

theorem dirEntry_keeps {kl : List Piece} {k0 : State} {s : State} {hub : Nat} {line : Nat} {r : CohReq} {via : Via} (km : [.pins, .boot, .pkg, .lds, .mem, .coh, .fronds, .tally, .life, .log, .regs, .wire] ⊆ kl)
    (kh : Keeps kl k0 s) : Keeps kl k0 (dirEntry s hub line r via).1 := by
  refine Keeps.step ?_ kh km
  unfold dirEntry
  repeat' first
    | with_reducible exact Keeps.refl _ _
    | assumption
    | with_reducible refine enterRetry_keeps (by decide) ?_
    | with_reducible refine invAll_keeps (by decide) ?_
    | with_reducible refine modCoh_keeps (by decide) ?_
    | with_reducible refine Keeps.ite ?_ ?_
    | split
    | dsimp only
    | (with_reducible refine Keeps.put ?_ ?_; rotate_left 1
       · (refine Only.intro fun kp khp => ?_; cases kp <;> first | with_reducible exact rfl | exact absurd (by decide) khp))
    | (with_reducible refine Keeps.set ?_ ?_; rotate_left 1
       · (refine Only.intro fun kp khp => ?_; cases kp <;> first | with_reducible exact rfl | exact absurd (by decide) khp))
    | split

theorem filtEntry_keeps {kl : List Piece} {k0 : State} {s : State} {hub : Nat} {line : Nat} {r : CohReq} {via : Via} (km : [.coh, .regs, .wire] ⊆ kl)
    (kh : Keeps kl k0 s) : Keeps kl k0 (filtEntry s hub line r via).1 := by
  refine Keeps.step ?_ kh km
  unfold filtEntry
  repeat' first
    | with_reducible exact Keeps.refl _ _
    | assumption
    | with_reducible refine enterRetry_keeps (by decide) ?_
    | with_reducible refine modCoh_keeps (by decide) ?_
    | with_reducible refine openTxn_keeps (by decide) ?_
    | with_reducible refine Keeps.ite ?_ ?_
    | split
    | dsimp only
    | (with_reducible refine Keeps.put ?_ ?_; rotate_left 1
       · (refine Only.intro fun kp khp => ?_; cases kp <;> first | with_reducible exact rfl | exact absurd (by decide) khp))
    | (with_reducible refine Keeps.set ?_ ?_; rotate_left 1
       · (refine Only.intro fun kp khp => ?_; cases kp <;> first | with_reducible exact rfl | exact absurd (by decide) khp))
    | split

theorem makeRoom_keeps {kl : List Piece} {k0 : State} {s : State} {line : Nat} {hub : Nat} {kt : State} (km : [.pins, .boot, .pkg, .lds, .mem, .coh, .fronds, .tally, .life, .log, .regs, .wire] ⊆ kl) (ke : makeRoom s line hub = some kt)
    (kh : Keeps kl k0 s) : Keeps kl k0 kt := by
  refine Keeps.step ?_ kh km
  unfold makeRoom at ke
  try dsimp only at ke
  repeat' (first | split at ke | dsimp only at ke)
  all_goals first | (obtain ⟨_, _, rfl⟩ := Option.map_eq_some_iff.1 ke) | cases ke | skip
  all_goals repeat' first
    | with_reducible exact Keeps.refl _ _
    | assumption
    | with_reducible refine modCoh_keeps (by decide) ?_
    | with_reducible refine invAll_keeps (by decide) ?_
    | with_reducible refine Keeps.ite ?_ ?_
    | split
    | dsimp only
    | (with_reducible refine Keeps.put ?_ ?_; rotate_left 1
       · (refine Only.intro fun kp khp => ?_; cases kp <;> first | with_reducible exact rfl | exact absurd (by decide) khp))
    | (with_reducible refine Keeps.set ?_ ?_; rotate_left 1
       · (refine Only.intro fun kp khp => ?_; cases kp <;> first | with_reducible exact rfl | exact absurd (by decide) khp))
    | split

theorem engineFor_keeps {kl : List Piece} {k0 : State} {s : State} {page : Nat} {hub : Nat} {kt : State} {kb} (km : [.coh] ⊆ kl) (ke : engineFor s page hub = some (kt, kb))
    (kh : Keeps kl k0 s) : Keeps kl k0 kt := by
  refine Keeps.step ?_ kh km
  unfold engineFor at ke
  try dsimp only at ke
  repeat' (first | split at ke | dsimp only at ke)
  all_goals first | (obtain ⟨_, _, rfl⟩ := Option.map_eq_some_iff.1 ke) | cases ke | skip
  all_goals repeat' first
    | with_reducible exact Keeps.refl _ _
    | assumption
    | with_reducible refine dropEnginePage_keeps (by decide) ?_
    | split
    | dsimp only
    | (with_reducible refine Keeps.put ?_ ?_; rotate_left 1
       · (refine Only.intro fun kp khp => ?_; cases kp <;> first | with_reducible exact rfl | exact absurd (by decide) khp))
    | (with_reducible refine Keeps.set ?_ ?_; rotate_left 1
       · (refine Only.intro fun kp khp => ?_; cases kp <;> first | with_reducible exact rfl | exact absurd (by decide) khp))
    | split

theorem bufferPage_keeps {kl : List Piece} {k0 : State} {s : State} {line : Nat} {hub : Nat} (km : [.pins, .boot, .pkg, .lds, .mem, .coh, .fronds, .tally, .life, .log, .regs, .wire] ⊆ kl)
    (kh : Keeps kl k0 s) : Keeps kl k0 (bufferPage s line hub) := by
  refine Keeps.step ?_ kh km
  unfold bufferPage
  repeat' first
    | with_reducible exact Keeps.refl _ _
    | assumption
    | refine engineFor_keeps (by decide) ‹_ = some (_, _)› ?_
    | refine makeRoom_keeps (by decide) ‹_ = some _› ?_
    | with_reducible refine setDir_keeps (by decide) ?_
    | with_reducible refine setCopy_keeps (by decide) ?_
    | with_reducible refine dropSpec_keeps (by decide) ?_
    | with_reducible refine Keeps.ite ?_ ?_
    | with_reducible refine Keeps.foldl ?_ (fun _ _ => ?_)
    | with_reducible refine Keeps.foldl1 ?_ (fun _ _ => ?_)
    | split
    | dsimp only
    | (with_reducible refine Keeps.put ?_ ?_; rotate_left 1
       · (refine Only.intro fun kp khp => ?_; cases kp <;> first | with_reducible exact rfl | exact absurd (by decide) khp))
    | (with_reducible refine Keeps.set ?_ ?_; rotate_left 1
       · (refine Only.intro fun kp khp => ?_; cases kp <;> first | with_reducible exact rfl | exact absurd (by decide) khp))
    | split

theorem supply_keeps {kl : List Piece} {k0 : State} {s : State} {line : Nat} {hub : Nat} {ecc : Ecc} (km : [.pins, .boot, .pkg, .lds, .mem, .coh, .fronds, .tally, .life, .log, .regs, .wire] ⊆ kl)
    (kh : Keeps kl k0 s) : Keeps kl k0 (supply s line hub ecc) := by
  refine Keeps.step ?_ kh km
  unfold supply
  repeat' first
    | with_reducible exact Keeps.refl _ _
    | assumption
    | with_reducible refine homeSupply_keeps (by decide) ?_
    | with_reducible refine bufferPage_keeps (by decide) ?_
    | with_reducible refine Keeps.ite ?_ ?_
    | split
    | dsimp only
    | (with_reducible refine Keeps.put ?_ ?_; rotate_left 1
       · (refine Only.intro fun kp khp => ?_; cases kp <;> first | with_reducible exact rfl | exact absurd (by decide) khp))
    | (with_reducible refine Keeps.set ?_ ?_; rotate_left 1
       · (refine Only.intro fun kp khp => ?_; cases kp <;> first | with_reducible exact rfl | exact absurd (by decide) khp))
    | split

theorem grant_keeps {kl : List Piece} {k0 : State} {s : State} {line : Nat} {hub : Nat} {a : Nat} {st : CopySt} (km : [.boot, .pkg, .lds, .mem, .coh, .life, .log, .wire] ⊆ kl)
    (kh : Keeps kl k0 s) : Keeps kl k0 (grant s line hub a st) := by
  refine Keeps.step ?_ kh km
  unfold grant
  repeat' first
    | with_reducible exact Keeps.refl _ _
    | assumption
    | with_reducible refine twinRoom_keeps (by decide) ?_
    | with_reducible refine setDir_keeps (by decide) ?_
    | with_reducible refine setCopy_keeps (by decide) ?_
    | with_reducible refine bufDrop_keeps (by decide) ?_
    | with_reducible refine dropSpec_keeps (by decide) ?_
    | with_reducible refine send_keeps (by decide) ?_
    | with_reducible refine Keeps.ite ?_ ?_
    | split

theorem sendCmd_keeps {kl : List Piece} {k0 : State} {s : State} {line : Nat} {x : Nat × CohCmd} (km : [.wire] ⊆ kl)
    (kh : Keeps kl k0 s) : Keeps kl k0 (sendCmd s line x) := by
  refine Keeps.step ?_ kh km
  unfold sendCmd
  repeat' first
    | with_reducible exact Keeps.refl _ _
    | assumption
    | with_reducible refine send_keeps (by decide) ?_
    | split
    | dsimp only
    | (with_reducible refine Keeps.put ?_ ?_; rotate_left 1
       · (refine Only.intro fun kp khp => ?_; cases kp <;> first | with_reducible exact rfl | exact absurd (by decide) khp))
    | (with_reducible refine Keeps.set ?_ ?_; rotate_left 1
       · (refine Only.intro fun kp khp => ?_; cases kp <;> first | with_reducible exact rfl | exact absurd (by decide) khp))
    | split

theorem openCmds_keeps {kl : List Piece} {k0 s : State} {line hub : Nat} {req : CohReq}
    {cmds : List (Nat × CohCmd)} (km : [.pins, .coh, .fronds, .tally, .regs, .wire] ⊆ kl)
    (kh : Keeps kl k0 s) : Keeps kl k0 (openCmds s line hub req cmds) := by
  refine Keeps.step ?_ kh km
  unfold openCmds
  refine Keeps.foldl (modCoh_keeps (by decide) (Keeps.refl _ _)) fun u x => ?_
  unfold openCmds.wakeIf
  exact Keeps.ite (wakeDie_keeps (by decide) (send_keeps (by decide) (Keeps.refl _ _)))
    (send_keeps (by decide) (Keeps.refl _ _))

theorem feed_keeps {kl : List Piece} {k0 : State} {s : State} {line : Nat} {hub : Nat} {a : Nat} {ecc : Ecc} (km : [.pins, .boot, .pkg, .lds, .mem, .coh, .fronds, .tally, .life, .log, .regs, .wire] ⊆ kl)
    (kh : Keeps kl k0 s) : Keeps kl k0 (feed s line hub a ecc) := by
  refine Keeps.step ?_ kh km
  unfold feed
  repeat' first
    | with_reducible exact Keeps.refl _ _
    | assumption
    | with_reducible refine send_keeps (by decide) ?_
    | with_reducible refine checkCopy_keeps (by decide) ?_
    | with_reducible refine supply_keeps (by decide) ?_
    | split
    | dsimp only
    | (with_reducible refine Keeps.put ?_ ?_; rotate_left 1
       · (refine Only.intro fun kp khp => ?_; cases kp <;> first | with_reducible exact rfl | exact absurd (by decide) khp))
    | (with_reducible refine Keeps.set ?_ ?_; rotate_left 1
       · (refine Only.intro fun kp khp => ?_; cases kp <;> first | with_reducible exact rfl | exact absurd (by decide) khp))
    | split

theorem agentGrant_keeps {kl : List Piece} {k0 : State} {s : State} {line : Nat} {hub : Nat} {a : Nat} {own : Bool} {upg : Bool} (km : [.boot, .pkg, .lds, .mem, .coh, .life, .log, .wire] ⊆ kl)
    (kh : Keeps kl k0 s) : Keeps kl k0 (agentGrant s line hub a own upg) := by
  refine Keeps.step ?_ kh km
  unfold agentGrant
  repeat' first
    | with_reducible exact Keeps.refl _ _
    | assumption
    | with_reducible refine grant_keeps (by decide) ?_
    | with_reducible refine countAccess_keeps (by decide) ?_
    | with_reducible refine Keeps.ite ?_ ?_
    | split

theorem dropHosts_keeps {kl : List Piece} {k0 : State} {s : State} {line : Nat} {hub : Nat} {own : Bool} (km : [.coh] ⊆ kl)
    (kh : Keeps kl k0 s) : Keeps kl k0 (dropHosts s line hub own) := by
  refine Keeps.step ?_ kh km
  unfold dropHosts
  repeat' first
    | with_reducible exact Keeps.refl _ _
    | assumption
    | with_reducible refine modCoh_keeps (by decide) ?_
    | with_reducible refine Keeps.ite ?_ ?_
    | (with_reducible refine Keeps.put ?_ ?_; rotate_left 1
       · (refine Only.intro fun kp khp => ?_; cases kp <;> first | with_reducible exact rfl | exact absurd (by decide) khp))
    | (with_reducible refine Keeps.set ?_ ?_; rotate_left 1
       · (refine Only.intro fun kp khp => ?_; cases kp <;> first | with_reducible exact rfl | exact absurd (by decide) khp))
    | split

theorem agentServe_keeps {kl : List Piece} {k0 : State} {s : State} {line : Nat} {hub : Nat} {a : Nat} {own : Bool} {upg : Bool} {ecc : Ecc} {via : Via} (km : [.pins, .boot, .pkg, .lds, .extents, .mem, .coh, .fronds, .tally, .life, .log, .regs, .wire] ⊆ kl)
    (kh : Keeps kl k0 s) : Keeps kl k0 (agentServe s line hub a own upg ecc via) := by
  refine Keeps.step ?_ kh km
  unfold agentServe
  repeat' first
    | with_reducible exact Keeps.refl _ _
    | assumption
    | with_reducible refine settleDir_keeps (by decide) ?_
    | with_reducible refine raiseKeyAbsent_keeps (by decide) ?_
    | with_reducible refine openTxn_keeps (by decide) ?_
    | with_reducible refine dirEntry_keeps (by decide) ?_
    | refine Keeps.fst ‹_ = (_, _)› (dirEntry_keeps (by decide) ?_)
    | with_reducible refine dropHosts_keeps (by decide) ?_
    | with_reducible refine agentGrant_keeps (by decide) ?_
    | with_reducible refine feed_keeps (by decide) ?_
    | with_reducible refine openCmds_keeps (by decide) ?_
    | with_reducible refine supply_keeps (by decide) ?_
    | with_reducible refine Keeps.ite ?_ ?_
    | split
    | dsimp only
    | (with_reducible refine Keeps.put ?_ ?_; rotate_left 1
       · (refine Only.intro fun kp khp => ?_; cases kp <;> first | with_reducible exact rfl | exact absurd (by decide) khp))
    | (with_reducible refine Keeps.set ?_ ?_; rotate_left 1
       · (refine Only.intro fun kp khp => ?_; cases kp <;> first | with_reducible exact rfl | exact absurd (by decide) khp))
    | split

theorem homeServe_keeps {kl : List Piece} {k0 : State} {s : State} {line : Nat} {hub : Nat} (km : [.pins, .boot, .pkg, .lds, .mem, .coh, .fronds, .tally, .life, .log, .regs, .wire] ⊆ kl)
    (kh : Keeps kl k0 s) : Keeps kl k0 (homeServe s line hub) := by
  refine Keeps.step ?_ kh km
  unfold homeServe
  repeat' first
    | with_reducible exact Keeps.refl _ _
    | assumption
    | with_reducible refine settleDir_keeps (by decide) ?_
    | with_reducible refine dropHosts_keeps (by decide) ?_
    | with_reducible refine supply_keeps (by decide) ?_
    | with_reducible refine checkLine_keeps (by decide) ?_
    | with_reducible refine wakeHolders_keeps (by decide) ?_
    | with_reducible refine dropCopies_keeps (by decide) ?_
    | with_reducible refine sendCmd_keeps (by decide) ?_
    | with_reducible refine dropSpec_keeps (by decide) ?_
    | with_reducible refine countAccess_keeps (by decide) ?_
    | with_reducible refine bufPut_keeps (by decide) ?_
    | with_reducible refine openTxn_keeps (by decide) ?_
    | with_reducible refine Keeps.ite ?_ ?_
    | with_reducible refine Keeps.foldl ?_ (fun _ _ => ?_)
    | with_reducible refine Keeps.foldl1 ?_ (fun _ _ => ?_)
    | split
    | dsimp only
    | (with_reducible refine Keeps.put ?_ ?_; rotate_left 1
       · (refine Only.intro fun kp khp => ?_; cases kp <;> first | with_reducible exact rfl | exact absurd (by decide) khp))
    | (with_reducible refine Keeps.set ?_ ?_; rotate_left 1
       · (refine Only.intro fun kp khp => ?_; cases kp <;> first | with_reducible exact rfl | exact absurd (by decide) khp))
    | split

theorem filtRecord_keeps {kl : List Piece} {k0 : State} {s : State} {line : Nat} {hub : Nat} {seat : Nat} {a : Bool} (km : [.coh] ⊆ kl)
    (kh : Keeps kl k0 s) : Keeps kl k0 (filtRecord s line hub seat a) := by
  refine Keeps.step ?_ kh km
  unfold filtRecord
  repeat' first
    | with_reducible exact Keeps.refl _ _
    | assumption
    | with_reducible refine modCoh_keeps (by decide) ?_
    | with_reducible refine Keeps.ite ?_ ?_
    | split
    | dsimp only
    | (with_reducible refine Keeps.put ?_ ?_; rotate_left 1
       · (refine Only.intro fun kp khp => ?_; cases kp <;> first | with_reducible exact rfl | exact absurd (by decide) khp))
    | (with_reducible refine Keeps.set ?_ ?_; rotate_left 1
       · (refine Only.intro fun kp khp => ?_; cases kp <;> first | with_reducible exact rfl | exact absurd (by decide) khp))
    | split

theorem filtRemove_keeps {kl : List Piece} {k0 : State} {s : State} {line : Nat} {hub : Nat} {seat : Nat} (km : [.coh] ⊆ kl)
    (kh : Keeps kl k0 s) : Keeps kl k0 (filtRemove s line hub seat) := by
  refine Keeps.step ?_ kh km
  unfold filtRemove
  repeat' first
    | with_reducible exact Keeps.refl _ _
    | assumption
    | with_reducible refine modCoh_keeps (by decide) ?_
    | with_reducible refine Keeps.ite ?_ ?_
    | split
    | dsimp only
    | (with_reducible refine Keeps.put ?_ ?_; rotate_left 1
       · (refine Only.intro fun kp khp => ?_; cases kp <;> first | with_reducible exact rfl | exact absurd (by decide) khp))
    | (with_reducible refine Keeps.set ?_ ?_; rotate_left 1
       · (refine Only.intro fun kp khp => ?_; cases kp <;> first | with_reducible exact rfl | exact absurd (by decide) khp))
    | split

theorem hostShare_keeps {kl : List Piece} {k0 s : State} {line hub : Nat}
    (km : [.pins, .boot, .pkg, .lds, .mem, .coh, .fronds, .tally, .life, .log, .regs, .wire] ⊆ kl)
    (kh : Keeps kl k0 s) : Keeps kl k0 (hostShare s line hub) := by
  refine Keeps.step ?_ kh km
  unfold hostShare
  repeat' first
    | with_reducible exact Keeps.refl _ _
    | assumption
    | with_reducible refine checkLine_keeps (by decide) ?_
    | with_reducible refine wakeHolders_keeps (by decide) ?_
    | with_reducible refine setCopy_keeps (by decide) ?_
    | with_reducible refine setDir_keeps (by decide) ?_
    | with_reducible refine Keeps.foldl ?_ (fun _ _ => ?_)
    | with_reducible refine Keeps.foldl1 ?_ (fun _ _ => ?_)
    | split
    | dsimp only

theorem hostData_keeps {kl : List Piece} {k0 : State} {s : State} {line : Nat} {hub : Nat} {recv : Nat} {seat : Option Nat} {ecc : Ecc} (km : [.pins, .boot, .pkg, .lds, .mem, .coh, .fronds, .tally, .life, .log, .regs, .wire] ⊆ kl)
    (kh : Keeps kl k0 s) : Keeps kl k0 (hostData s line hub recv seat ecc) := by
  refine Keeps.step ?_ kh km
  unfold hostData
  repeat' first
    | with_reducible exact Keeps.refl _ _
    | assumption
    | with_reducible refine send_keeps (by decide) ?_
    | with_reducible refine checkCopy_keeps (by decide) ?_
    | with_reducible refine supply_keeps (by decide) ?_
    | with_reducible refine Keeps.ite ?_ ?_
    | split
    | dsimp only
    | (with_reducible refine Keeps.put ?_ ?_; rotate_left 1
       · (refine Only.intro fun kp khp => ?_; cases kp <;> first | with_reducible exact rfl | exact absurd (by decide) khp))
    | (with_reducible refine Keeps.set ?_ ?_; rotate_left 1
       · (refine Only.intro fun kp khp => ?_; cases kp <;> first | with_reducible exact rfl | exact absurd (by decide) khp))
    | split

theorem sendData_keeps {kl : List Piece} {k0 s : State} {p : Place} {hpa : BitVec 64} {data : Line} {poison : Bool} {hub : Nat}
    (km : [.wire] ⊆ kl)
    (kh : Keeps kl k0 s) : Keeps kl k0 (sendData s p hpa data poison hub) := send_keeps km kh

theorem sendDone_keeps {kl : List Piece} {k0 s : State} {p : Place} {line hub : Nat}
    (km : [.wire] ⊆ kl)
    (kh : Keeps kl k0 s) : Keeps kl k0 (sendDone s p line hub) := send_keeps km kh

theorem hostReadDone_keeps {kl : List Piece} {k0 : State} {s : State} {line : Nat} {hub : Nat} {p : Place} {any : Bool} {hpa : BitVec 64} {ecc : Ecc} (km : [.pins, .boot, .pkg, .lds, .mem, .coh, .fronds, .tally, .life, .log, .regs, .wire] ⊆ kl)
    (kh : Keeps kl k0 s) : Keeps kl k0 (hostReadDone s line hub p any hpa ecc) := by
  refine Keeps.step ?_ kh km
  unfold hostReadDone
  repeat' first
    | with_reducible exact Keeps.refl _ _
    | assumption
    | with_reducible refine settleDir_keeps (by decide) ?_
    | with_reducible refine dropOthers_keeps (by decide) ?_
    | with_reducible refine hostData_keeps (by decide) ?_
    | with_reducible refine homeDrop_keeps (by decide) ?_
    | with_reducible refine invAll_keeps (by decide) ?_
    | with_reducible refine dropSpec_keeps (by decide) ?_
    | with_reducible refine hostShare_keeps (by decide) ?_
    | with_reducible refine filtRecord_keeps (by decide) ?_
    | with_reducible refine countAccess_keeps (by decide) ?_
    | with_reducible refine sendData_keeps (by decide) ?_
    | with_reducible refine Keeps.ite ?_ ?_
    | with_reducible refine Keeps.getD ?_ (fun _ _ => ?_)
    | split
    | dsimp only
    | (with_reducible refine Keeps.put ?_ ?_; rotate_left 1
       · (refine Only.intro fun kp khp => ?_; cases kp <;> first | with_reducible exact rfl | exact absurd (by decide) khp))
    | (with_reducible refine Keeps.set ?_ ?_; rotate_left 1
       · (refine Only.intro fun kp khp => ?_; cases kp <;> first | with_reducible exact rfl | exact absurd (by decide) khp))
    | split

theorem hostReadServe_keeps {kl : List Piece} {k0 : State} {s : State} {line : Nat} {hub : Nat} {p : Place} {any : Bool} {hpa : BitVec 64} {ecc : Ecc} {via : Via} (km : [.pins, .boot, .pkg, .lds, .extents, .mem, .coh, .fronds, .tally, .life, .log, .regs, .wire] ⊆ kl)
    (kh : Keeps kl k0 s) : Keeps kl k0 (hostReadServe s line hub p any hpa ecc via) := by
  refine Keeps.step ?_ kh km
  unfold hostReadServe
  repeat' first
    | with_reducible exact Keeps.refl _ _
    | assumption
    | with_reducible refine countAccess_keeps (by decide) ?_
    | with_reducible refine raiseKeyAbsent_keeps (by decide) ?_
    | with_reducible refine sendData_keeps (by decide) ?_
    | with_reducible refine hostReadDone_keeps (by decide) ?_
    | with_reducible refine openTxn_keeps (by decide) ?_
    | with_reducible refine filtEntry_keeps (by decide) ?_
    | refine Keeps.fst ‹_ = (_, _)› (filtEntry_keeps (by decide) ?_)
    | with_reducible refine Keeps.ite ?_ ?_
    | with_reducible refine Keeps.getD ?_ (fun _ _ => ?_)
    | split
    | dsimp only
    | split

theorem mediaEvent_keeps {kl : List Piece} {k0 s : State} {seat dpa : Nat}
    (km : [.lds] ⊆ kl)
    (kh : Keeps kl k0 s) : Keeps kl k0 (mediaEvent s seat dpa) := by
  refine Keeps.step ?_ kh km
  unfold mediaEvent
  repeat' first
    | with_reducible exact Keeps.refl _ _
    | assumption
    | with_reducible refine deliver_keeps (by decide) ?_

theorem seatEvent_keeps {kl : List Piece} {k0 s : State} {code seat dpa : Nat} {get : Seat → Nat × Nat} {put : Seat → Nat × Nat → Seat}
    (km : [.boot, .pkg, .lds, .seats, .life, .log] ⊆ kl)
    (kh : Keeps kl k0 s) : Keeps kl k0 (seatEvent s code seat dpa get put) := by
  refine Keeps.step ?_ kh km
  unfold seatEvent
  repeat' first
    | with_reducible exact Keeps.refl _ _
    | assumption
    | with_reducible refine modSeat_keeps (by decide) ?_
    | with_reducible refine raiseFull_keeps (by decide) ?_
    | with_reducible refine Keeps.ite ?_ ?_
    | split

theorem accessDenied_keeps {kl : List Piece} {k0 s : State} {seat dpa : Nat}
    (km : [.boot, .pkg, .lds, .seats, .life, .log] ⊆ kl)
    (kh : Keeps kl k0 s) : Keeps kl k0 (accessDenied s seat dpa) := by
  refine Keeps.step ?_ kh km
  unfold accessDenied
  repeat' first
    | with_reducible exact Keeps.refl _ _
    | assumption
    | with_reducible refine seatEvent_keeps (by decide) ?_

theorem poisonWrite_keeps {kl : List Piece} {k0 s : State} {seat dpa : Nat}
    (km : [.boot, .pkg, .lds, .seats, .life, .log] ⊆ kl)
    (kh : Keeps kl k0 s) : Keeps kl k0 (poisonWrite s seat dpa) := by
  refine Keeps.step ?_ kh km
  unfold poisonWrite
  repeat' first
    | with_reducible exact Keeps.refl _ _
    | assumption
    | with_reducible refine seatEvent_keeps (by decide) ?_

theorem wholeWrite_keeps {kl : List Piece} {k0 : State} {s : State} {line : Nat} {hub : Nat} (km : [.boot, .pkg, .lds, .mem, .coh, .life, .log] ⊆ kl)
    (kh : Keeps kl k0 s) : Keeps kl k0 (wholeWrite s line hub) := by
  refine Keeps.step ?_ kh km
  unfold wholeWrite
  repeat' first
    | with_reducible exact Keeps.refl _ _
    | assumption
    | with_reducible refine modCoh_keeps (by decide) ?_
    | with_reducible refine dirtied_keeps (by decide) ?_
    | with_reducible refine toWb_keeps (by decide) ?_
    | with_reducible refine mediaWrite_keeps (by decide) ?_
    | with_reducible refine Keeps.ite ?_ ?_
    | (with_reducible refine Keeps.put ?_ ?_; rotate_left 1
       · (refine Only.intro fun kp khp => ?_; cases kp <;> first | with_reducible exact rfl | exact absurd (by decide) khp))
    | (with_reducible refine Keeps.set ?_ ?_; rotate_left 1
       · (refine Only.intro fun kp khp => ?_; cases kp <;> first | with_reducible exact rfl | exact absurd (by decide) khp))
    | split

theorem hostStore_keeps {kl : List Piece} {k0 : State} {s : State} {line : Nat} {hub : Nat} {data : Line} {be : BitVec 64} {poison : Bool} {full : Bool} (km : [.pins, .boot, .pkg, .lds, .mem, .coh, .fronds, .covs, .tally, .life, .log, .regs, .wire] ⊆ kl)
    (kh : Keeps kl k0 s) : Keeps kl k0 (hostStore s line hub data be poison full) := by
  refine Keeps.step ?_ kh km
  unfold hostStore
  repeat' first
    | with_reducible exact Keeps.refl _ _
    | assumption
    | with_reducible refine settleDir_keeps (by decide) ?_
    | with_reducible refine invAll_keeps (by decide) ?_
    | with_reducible refine rekeyLine_keeps (by decide) ?_
    | with_reducible refine modCoh_keeps (by decide) ?_
    | with_reducible refine bufPut_keeps (by decide) ?_
    | with_reducible refine clearDamage_keeps (by decide) ?_
    | with_reducible refine storeLine_keeps (by decide) ?_
    | with_reducible refine clearPoison_keeps (by decide) ?_
    | with_reducible refine wholeWrite_keeps (by decide) ?_
    | with_reducible refine setPoisonAll_keeps (by decide) ?_
    | with_reducible refine countAccess_keeps (by decide) ?_
    | with_reducible refine capCheck_keeps (by decide) ?_
    | with_reducible refine Keeps.ite ?_ ?_
    | with_reducible refine Keeps.foldl ?_ (fun _ _ => ?_)
    | with_reducible refine Keeps.foldl1 ?_ (fun _ _ => ?_)
    | (with_reducible refine Keeps.put ?_ ?_; rotate_left 1
       · (refine Only.intro fun kp khp => ?_; cases kp <;> first | with_reducible exact rfl | exact absurd (by decide) khp))
    | (with_reducible refine Keeps.set ?_ ?_; rotate_left 1
       · (refine Only.intro fun kp khp => ?_; cases kp <;> first | with_reducible exact rfl | exact absurd (by decide) khp))
    | split

theorem hostWriteNow_keeps {kl : List Piece} {k0 : State} {s : State} {line : Nat} {hub : Nat} {p : Place} {data : Line} {be : BitVec 64} {poison : Bool} {full : Bool} (km : [.pins, .boot, .pkg, .lds, .seats, .extents, .mem, .coh, .fronds, .covs, .tally, .life, .log, .regs, .wire] ⊆ kl)
    (kh : Keeps kl k0 s) : Keeps kl k0 (hostWriteNow s line hub p data be poison full).1 := by
  refine Keeps.step ?_ kh km
  unfold hostWriteNow
  repeat' first
    | with_reducible exact Keeps.refl _ _
    | assumption
    | with_reducible refine zeroPage_keeps (by decide) ?_
    | with_reducible refine countAccess_keeps (by decide) ?_
    | with_reducible refine raiseKeyAbsent_keeps (by decide) ?_
    | with_reducible refine hostData_keeps (by decide) ?_
    | with_reducible refine mediaEvent_keeps (by decide) ?_
    | with_reducible refine setPoisonAll_keeps (by decide) ?_
    | with_reducible refine poisonWrite_keeps (by decide) ?_
    | with_reducible refine modMem_keeps (by decide) (fun x => x) ?_
    | with_reducible refine modMem_keeps (by decide) (fun x => filter_wf x) ?_
    | with_reducible refine hostStore_keeps (by decide) ?_
    | with_reducible refine Keeps.ite ?_ ?_
    | with_reducible refine Keeps.getD ?_ (fun _ _ => ?_)
    | split
    | dsimp only
    | (with_reducible refine Keeps.put ?_ ?_; rotate_left 1
       · (refine Only.intro fun kp khp => ?_; cases kp <;> first | with_reducible exact rfl | exact absurd (by decide) khp))
    | (with_reducible refine Keeps.set ?_ ?_; rotate_left 1
       · (refine Only.intro fun kp khp => ?_; cases kp <;> first | with_reducible exact rfl | exact absurd (by decide) khp))
    | split

theorem hostWriteDone_keeps {kl : List Piece} {k0 s : State} {line hub : Nat} {p : Place} {data : Line} {be : BitVec 64} {poison full : Bool}
    (km : [.pins, .boot, .pkg, .lds, .seats, .extents, .mem, .coh, .fronds, .covs, .tally, .life, .log, .regs, .wire] ⊆ kl)
    (kh : Keeps kl k0 s) : Keeps kl k0 (hostWriteDone s line hub p data be poison full) := by
  refine Keeps.step ?_ kh km
  unfold hostWriteDone
  repeat' first
    | with_reducible exact Keeps.refl _ _
    | assumption
    | with_reducible refine hostWriteNow_keeps (by decide) ?_
    | refine Keeps.fst ‹_ = (_, _)› (hostWriteNow_keeps (by decide) ?_)
    | with_reducible refine sendDone_keeps (by decide) ?_
    | with_reducible refine Keeps.ite ?_ ?_

theorem mirrorHold_keeps {kl : List Piece} {k0 : State} {s : State} {line : Nat} {hub : Nat} (km : [.coh, .wire] ⊆ kl)
    (kh : Keeps kl k0 s) : Keeps kl k0 (mirrorHold s line hub) := by
  refine Keeps.step ?_ kh km
  unfold mirrorHold
  repeat' first
    | with_reducible exact Keeps.refl _ _
    | assumption
    | with_reducible refine openTxn_keeps (by decide) ?_
    | with_reducible refine Keeps.ite ?_ ?_
    | split

theorem mirrorAsk_keeps {kl : List Piece} {k0 : State} {s : State} {line : Nat} {hub : Nat} (km : [.coh] ⊆ kl)
    (kh : Keeps kl k0 s) : Keeps kl k0 (mirrorAsk s line hub) := by
  refine Keeps.step ?_ kh km
  unfold mirrorAsk
  repeat' first
    | with_reducible exact Keeps.refl _ _
    | assumption
    | with_reducible refine modCoh_keeps (by decide) ?_
    | (with_reducible refine Keeps.put ?_ ?_; rotate_left 1
       · (refine Only.intro fun kp khp => ?_; cases kp <;> first | with_reducible exact rfl | exact absurd (by decide) khp))
    | (with_reducible refine Keeps.set ?_ ?_; rotate_left 1
       · (refine Only.intro fun kp khp => ?_; cases kp <;> first | with_reducible exact rfl | exact absurd (by decide) khp))

theorem modTxn_keeps {kl : List Piece} {k0 : State} {s : State} {line : Nat} {hub : Nat} {f : Txn → Txn} (km : [.coh] ⊆ kl)
    (kh : Keeps kl k0 s) : Keeps kl k0 (modTxn s line hub f) := by
  refine Keeps.step ?_ kh km
  unfold modTxn
  repeat' first
    | with_reducible exact Keeps.refl _ _
    | assumption
    | with_reducible refine modCoh_keeps (by decide) ?_
    | (with_reducible refine Keeps.put ?_ ?_; rotate_left 1
       · (refine Only.intro fun kp khp => ?_; cases kp <;> first | with_reducible exact rfl | exact absurd (by decide) khp))
    | (with_reducible refine Keeps.set ?_ ?_; rotate_left 1
       · (refine Only.intro fun kp khp => ?_; cases kp <;> first | with_reducible exact rfl | exact absurd (by decide) khp))

theorem mirrorData_keeps {kl : List Piece} {k0 : State} {s : State} {line : Nat} {hub : Nat} {own : Nat} (km : [.pins, .boot, .pkg, .lds, .mem, .coh, .fronds, .tally, .life, .log, .regs, .wire] ⊆ kl)
    (kh : Keeps kl k0 s) : Keeps kl k0 (mirrorData s line hub own) := by
  refine Keeps.step ?_ kh km
  unfold mirrorData
  repeat' first
    | with_reducible exact Keeps.refl _ _
    | assumption
    | with_reducible refine bufPut_keeps (by decide) ?_
    | with_reducible refine clearDamage_keeps (by decide) ?_
    | with_reducible refine invAll_keeps (by decide) ?_
    | with_reducible refine settleDir_keeps (by decide) ?_
    | with_reducible refine modCoh_keeps (by decide) ?_
    | with_reducible refine send_keeps (by decide) ?_
    | with_reducible refine modTxn_keeps (by decide) ?_
    | with_reducible refine Keeps.foldl ?_ (fun _ _ => ?_)
    | with_reducible refine Keeps.foldl1 ?_ (fun _ _ => ?_)
    | split
    | dsimp only
    | (with_reducible refine Keeps.put ?_ ?_; rotate_left 1
       · (refine Only.intro fun kp khp => ?_; cases kp <;> first | with_reducible exact rfl | exact absurd (by decide) khp))
    | (with_reducible refine Keeps.set ?_ ?_; rotate_left 1
       · (refine Only.intro fun kp khp => ?_; cases kp <;> first | with_reducible exact rfl | exact absurd (by decide) khp))
    | split

theorem mirrorTurn_keeps {kl : List Piece} {k0 : State} {s : State} {line : Nat} {hub : Nat} (km : [.pins, .boot, .pkg, .lds, .mem, .coh, .fronds, .tally, .life, .log, .regs, .wire] ⊆ kl)
    (kh : Keeps kl k0 s) : Keeps kl k0 (mirrorTurn s line hub) := by
  refine Keeps.step ?_ kh km
  unfold mirrorTurn
  repeat' first
    | with_reducible exact Keeps.refl _ _
    | assumption
    | with_reducible refine modTxn_keeps (by decide) ?_
    | with_reducible refine mirrorHold_keeps (by decide) ?_
    | with_reducible refine mirrorData_keeps (by decide) ?_
    | with_reducible refine Keeps.ite ?_ ?_
    | split
    | dsimp only
    | (with_reducible refine Keeps.put ?_ ?_; rotate_left 1
       · (refine Only.intro fun kp khp => ?_; cases kp <;> first | with_reducible exact rfl | exact absurd (by decide) khp))
    | (with_reducible refine Keeps.set ?_ ?_; rotate_left 1
       · (refine Only.intro fun kp khp => ?_; cases kp <;> first | with_reducible exact rfl | exact absurd (by decide) khp))
    | split

theorem hostWriteServe_keeps {kl : List Piece} {k0 : State} {s : State} {line : Nat} {hub : Nat} {p : Place} {data : Line} {be : BitVec 64} {poison : Bool} {full : Bool} (km : [.pins, .boot, .pkg, .lds, .seats, .extents, .mem, .coh, .fronds, .covs, .tally, .life, .log, .regs, .wire] ⊆ kl)
    (kh : Keeps kl k0 s) : Keeps kl k0 (hostWriteServe s line hub p data be poison full) := by
  refine Keeps.step ?_ kh km
  unfold hostWriteServe
  repeat' first
    | with_reducible exact Keeps.refl _ _
    | assumption
    | with_reducible refine mirrorAsk_keeps (by decide) ?_
    | with_reducible refine modTxn_keeps (by decide) ?_
    | with_reducible refine openTxn_keeps (by decide) ?_
    | with_reducible refine hostWriteDone_keeps (by decide) ?_
    | with_reducible refine mirrorHold_keeps (by decide) ?_
    | with_reducible refine Keeps.ite ?_ ?_
    | with_reducible refine Keeps.getD ?_ (fun _ _ => ?_)
    | with_reducible refine Keeps.foldl ?_ (fun _ _ => ?_)
    | with_reducible refine Keeps.foldl1 ?_ (fun _ _ => ?_)
    | split
    | dsimp only
    | (with_reducible refine Keeps.put ?_ ?_; rotate_left 1
       · (refine Only.intro fun kp khp => ?_; cases kp <;> first | with_reducible exact rfl | exact absurd (by decide) khp))
    | (with_reducible refine Keeps.set ?_ ?_; rotate_left 1
       · (refine Only.intro fun kp khp => ?_; cases kp <;> first | with_reducible exact rfl | exact absurd (by decide) khp))
    | split

theorem evictServe_keeps {kl : List Piece} {k0 : State} {s : State} {line : Nat} {hub : Nat} {a : Nat} (km : [.pins, .boot, .pkg, .lds, .mem, .coh, .fronds, .tally, .life, .log, .regs, .wire] ⊆ kl)
    (kh : Keeps kl k0 s) : Keeps kl k0 (evictServe s line hub a) := by
  refine Keeps.step ?_ kh km
  unfold evictServe
  repeat' first
    | with_reducible exact Keeps.refl _ _
    | assumption
    | with_reducible refine settleDir_keeps (by decide) ?_
    | with_reducible refine dropSpec_keeps (by decide) ?_
    | with_reducible refine leave_keeps (by decide) ?_
    | with_reducible refine toWb_keeps (by decide) ?_
    | with_reducible refine checkCopy_keeps (by decide) ?_
    | with_reducible refine Keeps.ite ?_ ?_
    | split

theorem serveReq_keeps {kl : List Piece} {k0 : State} {s : State} {line : Nat} {hub : Nat} {r : CohReq} {via : Via} (km : [.pins, .boot, .pkg, .lds, .seats, .extents, .mem, .coh, .fronds, .covs, .tally, .life, .log, .regs, .wire] ⊆ kl)
    (kh : Keeps kl k0 s) : Keeps kl k0 (serveReq s line hub r via) := by
  refine Keeps.step ?_ kh km
  unfold serveReq
  repeat' first
    | with_reducible exact Keeps.refl _ _
    | assumption
    | with_reducible refine agentServe_keeps (by decide) ?_
    | with_reducible refine hostReadServe_keeps (by decide) ?_
    | with_reducible refine hostWriteServe_keeps (by decide) ?_
    | with_reducible refine homeServe_keeps (by decide) ?_
    | with_reducible refine evictServe_keeps (by decide) ?_
    | with_reducible refine mirrorTurn_keeps (by decide) ?_
    | split
    | dsimp only
    | (with_reducible refine Keeps.put ?_ ?_; rotate_left 1
       · (refine Only.intro fun kp khp => ?_; cases kp <;> first | with_reducible exact rfl | exact absurd (by decide) khp))
    | (with_reducible refine Keeps.set ?_ ?_; rotate_left 1
       · (refine Only.intro fun kp khp => ?_; cases kp <;> first | with_reducible exact rfl | exact absurd (by decide) khp))
    | split

theorem take_keeps {kl : List Piece} {k0 : State} {s : State} {line : Nat} {hub : Nat} {r : CohReq} {via : Via} (km : [.pins, .boot, .pkg, .lds, .seats, .extents, .mem, .coh, .fronds, .covs, .tally, .life, .log, .regs, .wire] ⊆ kl)
    (kh : Keeps kl k0 s) : Keeps kl k0 (take s line hub r via) := by
  refine Keeps.step ?_ kh km
  unfold take
  repeat' first
    | with_reducible exact Keeps.refl _ _
    | assumption
    | with_reducible refine settleFilt_keeps (by decide) ?_
    | with_reducible refine modCoh_keeps (by decide) ?_
    | with_reducible refine serveReq_keeps (by decide) ?_
    | split
    | dsimp only
    | (with_reducible refine Keeps.put ?_ ?_; rotate_left 1
       · (refine Only.intro fun kp khp => ?_; cases kp <;> first | with_reducible exact rfl | exact absurd (by decide) khp))
    | (with_reducible refine Keeps.set ?_ ?_; rotate_left 1
       · (refine Only.intro fun kp khp => ?_; cases kp <;> first | with_reducible exact rfl | exact absurd (by decide) khp))
    | split

theorem arrive_keeps {kl : List Piece} {k0 : State} {s : State} {line : Nat} {hub : Nat} {r : CohReq} (km : [.pins, .boot, .pkg, .lds, .seats, .extents, .mem, .coh, .fronds, .covs, .tally, .life, .log, .regs, .wire] ⊆ kl)
    (kh : Keeps kl k0 s) : Keeps kl k0 (arrive s line hub r) := by
  refine Keeps.step ?_ kh km
  unfold arrive
  repeat' first
    | with_reducible exact Keeps.refl _ _
    | assumption
    | with_reducible refine take_keeps (by decide) ?_
    | with_reducible refine modCoh_keeps (by decide) ?_
    | (with_reducible refine Keeps.put ?_ ?_; rotate_left 1
       · (refine Only.intro fun kp khp => ?_; cases kp <;> first | with_reducible exact rfl | exact absurd (by decide) khp))
    | (with_reducible refine Keeps.set ?_ ?_; rotate_left 1
       · (refine Only.intro fun kp khp => ?_; cases kp <;> first | with_reducible exact rfl | exact absurd (by decide) khp))

theorem runQueue_keeps {kl : List Piece} {k0 : State} {line hub : Nat} {rs : List CohReq} {s : State}
    (km : [.pins, .boot, .pkg, .lds, .seats, .extents, .mem, .coh, .fronds, .covs, .tally, .life, .log, .regs, .wire] ⊆ kl) (kh : Keeps kl k0 s) : Keeps kl k0 (runQueue line hub rs s) := by
  induction rs generalizing s with
  | nil => exact kh
  | cons r t ih => exact ih (take_keeps (List.Subset.trans (by decide) km) kh)

theorem serveWaiter_keeps {kl : List Piece} {k0 : State} {hub : Nat} {x : State × Bool} {e : Nat × CohReq × Nat} (km : [.pins, .boot, .pkg, .lds, .seats, .extents, .mem, .coh, .fronds, .covs, .tally, .life, .log, .regs, .wire] ⊆ kl)
    (kh : Keeps kl k0 x.1) : Keeps kl k0 (serveWaiter hub x e).1 := by
  refine Keeps.step ?_ kh km
  unfold serveWaiter
  have h := take_keeps (line := e.1) (hub := hub) (r := e.2.1) (via := .retry) (kl := [.pins, .boot, .pkg, .lds, .seats, .extents, .mem, .coh, .fronds, .covs, .tally, .life, .log, .regs, .wire]) (by decide) (Keeps.refl _ x.1)
  dsimp only
  generalize take x.1 e.1 hub e.2.1 .retry = u at h ⊢
  generalize (match e.2.1 with
    | .agent a _ _ _ => !agentMayHold x.1 a e.1 || keyAbsent x.1 (64 * e.1)
    | .hostRead p _ _ _ => !placeUp x.1 p || keyAbsent x.1 (64 * e.1)
    | _ => false) = g
  obtain ⟨s, go⟩ := x
  cases go
  · exact Keeps.refl _ _
  · rw [if_neg (by decide : ¬(!true) = true), apply_ite Prod.fst]
    exact Keeps.ite h (setReg_keeps (by decide) (modCoh_keeps (by decide) h))

theorem serveRetry_keeps {kl : List Piece} {k0 : State} {s : State} {line : Nat} {hub : Nat} (km : [.pins, .boot, .pkg, .lds, .seats, .extents, .mem, .coh, .fronds, .covs, .tally, .life, .log, .regs, .wire] ⊆ kl)
    (kh : Keeps kl k0 s) : Keeps kl k0 (serveRetry s line hub) := by
  refine Keeps.step ?_ kh km
  unfold serveRetry
  repeat' first
    | with_reducible exact Keeps.refl _ _
    | assumption
    | with_reducible refine serveWaiter_keeps (by decide) ?_
    | with_reducible refine Keeps.getD ?_ (fun _ _ => ?_)
    | with_reducible refine Keeps.foldl ?_ (fun _ _ => ?_)
    | with_reducible refine Keeps.foldl1 ?_ (fun _ _ => ?_)

theorem unpin_keeps {kl : List Piece} {k0 : State} {s : State} {line : Nat} {hub : Nat} {queue : List CohReq} (km : [.pins, .boot, .pkg, .lds, .seats, .extents, .mem, .coh, .fronds, .rings, .covs, .tally, .life, .log, .regs, .wire] ⊆ kl)
    (kh : Keeps kl k0 s) : Keeps kl k0 (unpin s line hub queue) := by
  refine Keeps.step ?_ kh km
  unfold unpin
  repeat' first
    | with_reducible exact Keeps.refl _ _
    | assumption
    | with_reducible refine runQueue_keeps (by decide) ?_
    | with_reducible refine flushAll_keeps (by decide) ?_
    | with_reducible refine serveRetry_keeps (by decide) ?_
    | with_reducible refine Keeps.ite ?_ ?_
    | split

theorem mirrorFree_keeps {kl : List Piece} {k0 : State} {s : State} {line : Nat} {hub : Nat} (km : [.pins, .boot, .pkg, .lds, .seats, .extents, .mem, .coh, .fronds, .rings, .covs, .tally, .life, .log, .regs, .wire] ⊆ kl)
    (kh : Keeps kl k0 s) : Keeps kl k0 (mirrorFree s line hub) := by
  refine Keeps.step ?_ kh km
  unfold mirrorFree
  repeat' first
    | with_reducible exact Keeps.refl _ _
    | assumption
    | with_reducible refine unpin_keeps (by decide) ?_
    | with_reducible refine modCoh_keeps (by decide) ?_
    | with_reducible refine Keeps.ite ?_ ?_
    | split
    | dsimp only
    | (with_reducible refine Keeps.put ?_ ?_; rotate_left 1
       · (refine Only.intro fun kp khp => ?_; cases kp <;> first | with_reducible exact rfl | exact absurd (by decide) khp))
    | (with_reducible refine Keeps.set ?_ ?_; rotate_left 1
       · (refine Only.intro fun kp khp => ?_; cases kp <;> first | with_reducible exact rfl | exact absurd (by decide) khp))
    | split

theorem closeTxn_keeps {kl : List Piece} {k0 : State} {s : State} {line : Nat} {hub : Nat} (km : [.pins, .boot, .pkg, .lds, .seats, .extents, .mem, .coh, .fronds, .rings, .covs, .tally, .life, .log, .regs, .wire] ⊆ kl)
    (kh : Keeps kl k0 s) : Keeps kl k0 (closeTxn s line hub) := by
  refine Keeps.step ?_ kh km
  unfold closeTxn
  repeat' first
    | with_reducible exact Keeps.refl _ _
    | assumption
    | with_reducible refine unpin_keeps (by decide) ?_
    | with_reducible refine mirrorFree_keeps (by decide) ?_
    | with_reducible refine modCoh_keeps (by decide) ?_
    | split
    | dsimp only
    | (with_reducible refine Keeps.put ?_ ?_; rotate_left 1
       · (refine Only.intro fun kp khp => ?_; cases kp <;> first | with_reducible exact rfl | exact absurd (by decide) khp))
    | (with_reducible refine Keeps.set ?_ ?_; rotate_left 1
       · (refine Only.intro fun kp khp => ?_; cases kp <;> first | with_reducible exact rfl | exact absurd (by decide) khp))
    | split

theorem fedGrant_keeps {kl : List Piece} {k0 : State} {s : State} {line : Nat} {hub : Nat} {a : Nat} {own : Bool} {upg : Bool} {dirty : Bool} (km : [.boot, .pkg, .lds, .mem, .coh, .life, .log, .wire] ⊆ kl)
    (kh : Keeps kl k0 s) : Keeps kl k0 (fedGrant s line hub a own upg dirty) := by
  refine Keeps.step ?_ kh km
  unfold fedGrant
  repeat' first
    | with_reducible exact Keeps.refl _ _
    | assumption
    | with_reducible refine agentGrant_keeps (by decide) ?_
    | with_reducible refine setDir_keeps (by decide) ?_
    | with_reducible refine toWb_keeps (by decide) ?_
    | with_reducible refine Keeps.ite ?_ ?_
    | split

theorem proceed_keeps {kl : List Piece} {k0 : State} {s : State} {line : Nat} {hub : Nat} (km : [.pins, .boot, .pkg, .lds, .seats, .extents, .mem, .coh, .fronds, .rings, .covs, .tally, .life, .log, .regs, .wire] ⊆ kl)
    (kh : Keeps kl k0 s) : Keeps kl k0 (proceed s line hub) := by
  refine Keeps.step ?_ kh km
  unfold proceed
  repeat' first
    | with_reducible exact Keeps.refl _ _
    | assumption
    | with_reducible refine modCoh_keeps (by decide) ?_
    | with_reducible refine unpin_keeps (by decide) ?_
    | with_reducible refine mirrorFree_keeps (by decide) ?_
    | with_reducible refine fedGrant_keeps (by decide) ?_
    | with_reducible refine serveReq_keeps (by decide) ?_
    | with_reducible refine Keeps.ite ?_ ?_
    | with_reducible refine Keeps.getD ?_ (fun _ _ => ?_)
    | split
    | dsimp only
    | (with_reducible refine Keeps.put ?_ ?_; rotate_left 1
       · (refine Only.intro fun kp khp => ?_; cases kp <;> first | with_reducible exact rfl | exact absurd (by decide) khp))
    | (with_reducible refine Keeps.set ?_ ?_; rotate_left 1
       · (refine Only.intro fun kp khp => ?_; cases kp <;> first | with_reducible exact rfl | exact absurd (by decide) khp))
    | split

theorem cmdDone_keeps {kl : List Piece} {k0 s : State} {line hub a : Nat} {cmd : CohCmd}
    (km : [.pins, .boot, .pkg, .lds, .seats, .extents, .mem, .coh, .fronds, .rings, .covs, .tally, .life, .log, .regs, .wire] ⊆ kl)
    (kh : Keeps kl k0 s) : Keeps kl k0 (cmdDone s line hub a cmd) := by
  refine Keeps.step ?_ kh km
  unfold cmdDone
  repeat' first
    | with_reducible exact Keeps.refl _ _
    | assumption
    | with_reducible refine modCoh_keeps (by decide) ?_
    | with_reducible refine proceed_keeps (by decide) ?_

theorem execRds_keeps {kl : List Piece} {k0 : State} {agent : BitVec 5} {line : BitVec 37} {ecc : Ecc} {s : State} {kt : State} (km : [.pins, .boot, .pkg, .lds, .seats, .extents, .mem, .coh, .fronds, .covs, .tally, .life, .log, .regs, .wire] ⊆ kl) (ke : execRds agent line ecc s = .next kt)
    (kh : Keeps kl k0 s) : Keeps kl k0 kt := by
  refine Keeps.step ?_ kh km
  unfold execRds at ke
  cases ke
  repeat' first
    | with_reducible exact Keeps.refl _ _
    | assumption
    | with_reducible refine arrive_keeps (by decide) ?_
    | with_reducible refine meetEntry_keeps (by decide) ?_
    | with_reducible refine wakeHub_keeps (by decide) ?_
    | with_reducible refine Keeps.ite ?_ ?_
    | split
    | dsimp only
    | split

theorem execRdown_keeps {kl : List Piece} {k0 : State} {agent : BitVec 5} {line : BitVec 37} {ecc : Ecc} {s : State} {kt : State} (km : [.pins, .boot, .pkg, .lds, .seats, .extents, .mem, .coh, .fronds, .covs, .tally, .life, .log, .regs, .wire] ⊆ kl) (ke : execRdown agent line ecc s = .next kt)
    (kh : Keeps kl k0 s) : Keeps kl k0 kt := by
  refine Keeps.step ?_ kh km
  unfold execRdown at ke
  cases ke
  repeat' first
    | with_reducible exact Keeps.refl _ _
    | assumption
    | with_reducible refine arrive_keeps (by decide) ?_
    | with_reducible refine meetEntry_keeps (by decide) ?_
    | with_reducible refine wakeHub_keeps (by decide) ?_
    | with_reducible refine Keeps.ite ?_ ?_
    | split
    | dsimp only
    | split

theorem execUpg_keeps {kl : List Piece} {k0 : State} {agent : BitVec 5} {line : BitVec 37} {s : State} {kt : State} (km : [.pins, .boot, .pkg, .lds, .seats, .extents, .mem, .coh, .fronds, .covs, .tally, .life, .log, .regs, .wire] ⊆ kl) (ke : execUpg agent line s = .next kt)
    (kh : Keeps kl k0 s) : Keeps kl k0 kt := by
  refine Keeps.step ?_ kh km
  unfold execUpg at ke
  cases ke
  repeat' first
    | with_reducible exact Keeps.refl _ _
    | assumption
    | with_reducible refine arrive_keeps (by decide) ?_
    | with_reducible refine wakeHub_keeps (by decide) ?_
    | with_reducible refine Keeps.ite ?_ ?_
    | split
    | dsimp only
    | split

theorem evictArrive_keeps {kl : List Piece} {k0 : State} {s : State} {line : Nat} {hub : Nat} {a : Nat} (km : [.pins, .boot, .pkg, .lds, .seats, .extents, .mem, .coh, .fronds, .covs, .tally, .life, .log, .regs, .wire] ⊆ kl)
    (kh : Keeps kl k0 s) : Keeps kl k0 (evictArrive s line hub a) := by
  refine Keeps.step ?_ kh km
  unfold evictArrive
  repeat' first
    | with_reducible exact Keeps.refl _ _
    | assumption
    | with_reducible refine take_keeps (by decide) ?_
    | with_reducible refine Keeps.ite ?_ ?_
    | with_reducible refine Keeps.getD ?_ (fun _ _ => ?_)
    | split

theorem execWbdata_keeps {kl : List Piece} {k0 : State} {agent : BitVec 5} {line : BitVec 37} {s : State} {kt : State} (km : [.pins, .boot, .pkg, .lds, .seats, .extents, .mem, .coh, .fronds, .covs, .tally, .life, .log, .regs, .wire] ⊆ kl) (ke : execWbdata agent line s = .next kt)
    (kh : Keeps kl k0 s) : Keeps kl k0 kt := by
  refine Keeps.step ?_ kh km
  unfold execWbdata at ke
  cases ke
  repeat' first
    | with_reducible exact Keeps.refl _ _
    | assumption
    | with_reducible refine evictArrive_keeps (by decide) ?_
    | with_reducible refine Keeps.ite ?_ ?_
    | split
    | dsimp only
    | split

theorem execEvictclean_keeps {kl : List Piece} {k0 : State} {agent : BitVec 5} {line : BitVec 37} {s : State} {kt : State} (km : [.pins, .boot, .pkg, .lds, .seats, .extents, .mem, .coh, .fronds, .covs, .tally, .life, .log, .regs, .wire] ⊆ kl) (ke : execEvictclean agent line s = .next kt)
    (kh : Keeps kl k0 s) : Keeps kl k0 kt := by
  refine Keeps.step ?_ kh km
  unfold execEvictclean at ke
  cases ke
  repeat' first
    | with_reducible exact Keeps.refl _ _
    | assumption
    | with_reducible refine evictArrive_keeps (by decide) ?_
    | with_reducible refine Keeps.ite ?_ ?_
    | split
    | dsimp only
    | split

theorem execFwds_keeps {kl : List Piece} {k0 : State} {agent : BitVec 5} {line : BitVec 37} {s kt : State}
    (km : [.pins, .boot, .pkg, .lds, .seats, .extents, .mem, .coh, .fronds, .rings, .covs, .tally, .life, .log, .regs, .wire] ⊆ kl) (ke : execFwds agent line s = .next kt)
    (kh : Keeps kl k0 s) : Keeps kl k0 kt := by
  refine Keeps.step ?_ kh km
  unfold execFwds at ke
  cases ke
  repeat' first
    | with_reducible exact Keeps.refl _ _
    | assumption
    | with_reducible refine checkCopy_keeps (by decide) ?_
    | with_reducible refine setCopy_keeps (by decide) ?_
    | with_reducible refine cmdDone_keeps (by decide) ?_
    | with_reducible refine setDir_keeps (by decide) ?_
    | with_reducible refine Keeps.ite ?_ ?_
    | split

theorem execFwdown_keeps {kl : List Piece} {k0 : State} {agent : BitVec 5} {line : BitVec 37} {s : State} {kt : State} (km : [.pins, .boot, .pkg, .lds, .seats, .extents, .mem, .coh, .fronds, .rings, .covs, .tally, .life, .log, .regs, .wire] ⊆ kl) (ke : execFwdown agent line s = .next kt)
    (kh : Keeps kl k0 s) : Keeps kl k0 kt := by
  refine Keeps.step ?_ kh km
  unfold execFwdown at ke
  cases ke
  repeat' first
    | with_reducible exact Keeps.refl _ _
    | assumption
    | with_reducible refine setCopy_keeps (by decide) ?_
    | with_reducible refine checkCopy_keeps (by decide) ?_
    | with_reducible refine modTxn_keeps (by decide) ?_
    | with_reducible refine setDir_keeps (by decide) ?_
    | with_reducible refine toWb_keeps (by decide) ?_
    | with_reducible refine cmdDone_keeps (by decide) ?_
    | with_reducible refine Keeps.ite ?_ ?_
    | split
    | dsimp only
    | (with_reducible refine Keeps.put ?_ ?_; rotate_left 1
       · (refine Only.intro fun kp khp => ?_; cases kp <;> first | with_reducible exact rfl | exact absurd (by decide) khp))
    | (with_reducible refine Keeps.set ?_ ?_; rotate_left 1
       · (refine Only.intro fun kp khp => ?_; cases kp <;> first | with_reducible exact rfl | exact absurd (by decide) khp))
    | split

theorem execInv_keeps {kl : List Piece} {k0 : State} {agent : BitVec 5} {line : BitVec 37} {s kt : State}
    (km : [.pins, .boot, .pkg, .lds, .seats, .extents, .mem, .coh, .fronds, .rings, .covs, .tally, .life, .log, .regs, .wire] ⊆ kl) (ke : execInv agent line s = .next kt)
    (kh : Keeps kl k0 s) : Keeps kl k0 kt := by
  refine Keeps.step ?_ kh km
  unfold execInv at ke
  cases ke
  repeat' first
    | with_reducible exact Keeps.refl _ _
    | assumption
    | with_reducible refine checkCopy_keeps (by decide) ?_
    | with_reducible refine setCopy_keeps (by decide) ?_
    | with_reducible refine cmdDone_keeps (by decide) ?_
    | with_reducible refine toWb_keeps (by decide) ?_
    | with_reducible refine Keeps.ite ?_ ?_

theorem execCohTransactionDone_keeps {kl : List Piece} {k0 : State} {hub : BitVec 1} {line : BitVec 37} {s : State} {kt : State} (km : [.pins, .boot, .pkg, .lds, .seats, .extents, .mem, .coh, .fronds, .rings, .covs, .tally, .life, .log, .regs, .wire] ⊆ kl) (ke : execCohTransactionDone hub line s = .next kt)
    (kh : Keeps kl k0 s) : Keeps kl k0 kt := by
  refine Keeps.step ?_ kh km
  unfold execCohTransactionDone at ke
  cases ke
  repeat' first
    | with_reducible exact Keeps.refl _ _
    | assumption
    | with_reducible refine closeTxn_keeps (by decide) ?_
    | with_reducible refine proceed_keeps (by decide) ?_
    | with_reducible refine Keeps.ite ?_ ?_
    | split
    | dsimp only
    | (with_reducible refine Keeps.put ?_ ?_; rotate_left 1
       · (refine Only.intro fun kp khp => ?_; cases kp <;> first | with_reducible exact rfl | exact absurd (by decide) khp))
    | (with_reducible refine Keeps.set ?_ ?_; rotate_left 1
       · (refine Only.intro fun kp khp => ?_; cases kp <;> first | with_reducible exact rfl | exact absurd (by decide) khp))
    | split

theorem execWriteBackDone_keeps {kl : List Piece} {k0 : State} {hub : BitVec 1} {s : State} {kt : State} (km : [.boot, .pkg, .lds, .mem, .coh, .covs, .life, .log] ⊆ kl) (ke : execWriteBackDone hub s = .next kt)
    (kh : Keeps kl k0 s) : Keeps kl k0 kt := by
  refine Keeps.step ?_ kh km
  unfold execWriteBackDone at ke
  cases ke
  repeat' first
    | with_reducible exact Keeps.refl _ _
    | assumption
    | with_reducible refine checkCopy_keeps (by decide) ?_
    | with_reducible refine modCoh_keeps (by decide) ?_
    | with_reducible refine dirtied_keeps (by decide) ?_
    | with_reducible refine mediaWrite_keeps (by decide) ?_
    | with_reducible refine pageWrite_keeps (by decide) ?_
    | with_reducible refine discardImage_keeps (by decide) ?_
    | with_reducible refine modMem_keeps (by decide) (fun x => x) ?_
    | with_reducible refine modMem_keeps (by decide) (fun x => filter_wf x) ?_
    | with_reducible refine capCheck_keeps (by decide) ?_
    | with_reducible refine Keeps.ite ?_ ?_
    | split
    | dsimp only
    | (with_reducible refine Keeps.put ?_ ?_; rotate_left 1
       · (refine Only.intro fun kp khp => ?_; cases kp <;> first | with_reducible exact rfl | exact absurd (by decide) khp))
    | (with_reducible refine Keeps.set ?_ ?_; rotate_left 1
       · (refine Only.intro fun kp khp => ?_; cases kp <;> first | with_reducible exact rfl | exact absurd (by decide) khp))
    | split

theorem answerAt_keeps {kl : List Piece} {k0 : State} {s : State} {line : Nat} {hub : Nat} {seat : Nat} (km : [.pins, .boot, .pkg, .lds, .seats, .extents, .mem, .coh, .fronds, .rings, .covs, .tally, .life, .log, .regs, .wire] ⊆ kl)
    (kh : Keeps kl k0 s) : Keeps kl k0 (answerAt s line hub seat) := by
  refine Keeps.step ?_ kh km
  unfold answerAt
  repeat' first
    | with_reducible exact Keeps.refl _ _
    | assumption
    | with_reducible refine modCoh_keeps (by decide) ?_
    | with_reducible refine filtRemove_keeps (by decide) ?_
    | with_reducible refine proceed_keeps (by decide) ?_
    | with_reducible refine Keeps.ite ?_ ?_
    | with_reducible refine Keeps.getD ?_ (fun _ _ => ?_)
    | with_reducible refine Keeps.foldl ?_ (fun _ _ => ?_)
    | with_reducible refine Keeps.foldl1 ?_ (fun _ _ => ?_)
    | split
    | dsimp only
    | (with_reducible refine Keeps.put ?_ ?_; rotate_left 1
       · (refine Only.intro fun kp khp => ?_; cases kp <;> first | with_reducible exact rfl | exact absurd (by decide) khp))
    | (with_reducible refine Keeps.set ?_ ?_; rotate_left 1
       · (refine Only.intro fun kp khp => ?_; cases kp <;> first | with_reducible exact rfl | exact absurd (by decide) khp))
    | split

theorem departLine_keeps {kl : List Piece} {k0 : State} {s : State} {line : Nat} {hub : Nat} {seat : Nat} (km : [.pins, .boot, .pkg, .lds, .seats, .extents, .mem, .coh, .fronds, .rings, .covs, .tally, .life, .log, .regs, .wire] ⊆ kl)
    (kh : Keeps kl k0 s) : Keeps kl k0 (departLine s line hub seat) := by
  refine Keeps.step ?_ kh km
  unfold departLine
  repeat' first
    | with_reducible exact Keeps.refl _ _
    | assumption
    | with_reducible refine setPoison_keeps (by decide) ?_
    | with_reducible refine answerAt_keeps (by decide) ?_
    | with_reducible refine modCoh_keeps (by decide) ?_
    | with_reducible refine filtRemove_keeps (by decide) ?_
    | with_reducible refine Keeps.ite ?_ ?_
    | with_reducible refine Keeps.foldl ?_ (fun _ _ => ?_)
    | with_reducible refine Keeps.foldl1 ?_ (fun _ _ => ?_)
    | split
    | dsimp only
    | (with_reducible refine Keeps.put ?_ ?_; rotate_left 1
       · (refine Only.intro fun kp khp => ?_; cases kp <;> first | with_reducible exact rfl | exact absurd (by decide) khp))
    | (with_reducible refine Keeps.set ?_ ?_; rotate_left 1
       · (refine Only.intro fun kp khp => ?_; cases kp <;> first | with_reducible exact rfl | exact absurd (by decide) khp))
    | split

theorem departSeat_keeps {kl : List Piece} {k0 s : State} {seat : Nat} {test : Nat → Bool}
    (km : [.pins, .boot, .pkg, .lds, .seats, .extents, .mem, .coh, .fronds, .rings, .covs, .tally, .life, .log, .regs, .wire] ⊆ kl)
    (kh : Keeps kl k0 s) : Keeps kl k0 (departSeat s seat test) := by
  refine Keeps.step ?_ kh km
  unfold departSeat
  repeat' first
    | with_reducible exact Keeps.refl _ _
    | assumption
    | with_reducible refine departLine_keeps (by decide) ?_
    | with_reducible refine Keeps.ite ?_ ?_
    | with_reducible refine Keeps.foldl ?_ (fun _ _ => ?_)

theorem returnData_keeps {kl : List Piece} {k0 : State} {s : State} {line : Nat} {hub : Nat} {d : Line} {from_ : List Nat} (km : [.pins, .boot, .pkg, .lds, .mem, .coh, .fronds, .covs, .tally, .life, .log, .regs, .wire] ⊆ kl)
    (kh : Keeps kl k0 s) : Keeps kl k0 (returnData s line hub d from_) := by
  refine Keeps.step ?_ kh km
  unfold returnData
  repeat' first
    | with_reducible exact Keeps.refl _ _
    | assumption
    | with_reducible refine bufPut_keeps (by decide) ?_
    | with_reducible refine clearDamage_keeps (by decide) ?_
    | with_reducible refine invAll_keeps (by decide) ?_
    | with_reducible refine mirrorAsk_keeps (by decide) ?_
    | with_reducible refine modTxn_keeps (by decide) ?_
    | with_reducible refine mirrorData_keeps (by decide) ?_
    | with_reducible refine mirrorHold_keeps (by decide) ?_
    | with_reducible refine clearPoison_keeps (by decide) ?_
    | with_reducible refine storeLine_keeps (by decide) ?_
    | with_reducible refine capCheck_keeps (by decide) ?_
    | with_reducible refine wholeWrite_keeps (by decide) ?_
    | with_reducible refine Keeps.ite ?_ ?_
    | with_reducible refine Keeps.foldl ?_ (fun _ _ => ?_)
    | with_reducible refine Keeps.foldl1 ?_ (fun _ _ => ?_)
    | (with_reducible refine Keeps.put ?_ ?_; rotate_left 1
       · (refine Only.intro fun kp khp => ?_; cases kp <;> first | with_reducible exact rfl | exact absurd (by decide) khp))
    | (with_reducible refine Keeps.set ?_ ?_; rotate_left 1
       · (refine Only.intro fun kp khp => ?_; cases kp <;> first | with_reducible exact rfl | exact absurd (by decide) khp))
    | split

theorem execBisnpResponse_keeps {kl : List Piece} {k0 : State} {seat : BitVec 6} {line : BitVec 37} {dirty : Option Line} {s : State} {kt : State} (km : [.pins, .boot, .pkg, .lds, .seats, .extents, .mem, .coh, .fronds, .rings, .covs, .tally, .life, .log, .regs, .wire] ⊆ kl) (ke : execBisnpResponse seat line dirty s = .next kt)
    (kh : Keeps kl k0 s) : Keeps kl k0 kt := by
  refine Keeps.step ?_ kh km
  unfold execBisnpResponse at ke
  cases ke
  repeat' first
    | with_reducible exact Keeps.refl _ _
    | assumption
    | with_reducible refine returnData_keeps (by decide) ?_
    | with_reducible refine answerAt_keeps (by decide) ?_
    | with_reducible refine Keeps.ite ?_ ?_
    | with_reducible refine Keeps.foldl ?_ (fun _ _ => ?_)
    | with_reducible refine Keeps.foldl1 ?_ (fun _ _ => ?_)
    | split
    | dsimp only
    | (with_reducible refine Keeps.put ?_ ?_; rotate_left 1
       · (refine Only.intro fun kp khp => ?_; cases kp <;> first | with_reducible exact rfl | exact absurd (by decide) khp))
    | (with_reducible refine Keeps.set ?_ ?_; rotate_left 1
       · (refine Only.intro fun kp khp => ?_; cases kp <;> first | with_reducible exact rfl | exact absurd (by decide) khp))
    | split

theorem execCohBiTimeout_keeps {kl : List Piece} {k0 : State} {seat : BitVec 6} {line : BitVec 37} {s : State} {kt : State} (km : [.pins, .boot, .pkg, .lds, .seats, .extents, .mem, .coh, .fronds, .rings, .covs, .tally, .life, .log, .regs, .wire] ⊆ kl) (ke : execCohBiTimeout seat line s = .next kt)
    (kh : Keeps kl k0 s) : Keeps kl k0 kt := by
  refine Keeps.step ?_ kh km
  unfold execCohBiTimeout at ke
  cases ke
  repeat' first
    | with_reducible exact Keeps.refl _ _
    | assumption
    | with_reducible refine setReg_keeps (by decide) ?_
    | with_reducible refine setPoison_keeps (by decide) ?_
    | with_reducible refine modCoh_keeps (by decide) ?_
    | with_reducible refine event_keeps (by decide) ?_
    | with_reducible refine answerAt_keeps (by decide) ?_
    | with_reducible refine Keeps.ite ?_ ?_
    | with_reducible refine Keeps.foldl ?_ (fun _ _ => ?_)
    | with_reducible refine Keeps.foldl1 ?_ (fun _ _ => ?_)
    | split
    | dsimp only
    | (with_reducible refine Keeps.put ?_ ?_; rotate_left 1
       · (refine Only.intro fun kp khp => ?_; cases kp <;> first | with_reducible exact rfl | exact absurd (by decide) khp))
    | (with_reducible refine Keeps.set ?_ ?_; rotate_left 1
       · (refine Only.intro fun kp khp => ?_; cases kp <;> first | with_reducible exact rfl | exact absurd (by decide) khp))
    | split

theorem execCohRetryLong_keeps {kl : List Piece} {k0 : State} {hub : BitVec 1} {line : BitVec 37} {wait100 : BitVec 16} {s : State} {kt : State} (km : [.boot, .pkg, .lds, .life, .log, .regs] ⊆ kl) (ke : execCohRetryLong hub line wait100 s = .next kt)
    (kh : Keeps kl k0 s) : Keeps kl k0 kt := by
  refine Keeps.step ?_ kh km
  unfold execCohRetryLong at ke
  cases ke
  repeat' first
    | with_reducible exact Keeps.refl _ _
    | assumption
    | with_reducible refine setReg_keeps (by decide) ?_
    | with_reducible refine event_keeps (by decide) ?_
    | with_reducible refine Keeps.ite ?_ ?_
    | with_reducible refine Keeps.getD ?_ (fun _ _ => ?_)
    | split
    | dsimp only
    | (with_reducible refine Keeps.put ?_ ?_; rotate_left 1
       · (refine Only.intro fun kp khp => ?_; cases kp <;> first | with_reducible exact rfl | exact absurd (by decide) khp))
    | (with_reducible refine Keeps.set ?_ ?_; rotate_left 1
       · (refine Only.intro fun kp khp => ?_; cases kp <;> first | with_reducible exact rfl | exact absurd (by decide) khp))
    | split

end Sys2Proof.Machine
end

