-- ==== Sys2Proof/Laws/HostMem.lean ====
section
/-!
SUPPORT. What the operations of Machine/HostMem.lean keep.
-/
set_option linter.unusedTactic false
set_option linter.unreachableTactic false
namespace Sys2Proof.Machine

theorem memOp_keeps {kl : List Piece} {k0 s : State} {rail pj seat : Nat}
    (km : [.seats, .tally] ⊆ kl)
    (kh : Keeps kl k0 s) : Keeps kl k0 (memOp s rail pj seat) := by
  refine Keeps.step ?_ kh km
  unfold memOp
  repeat' first
    | with_reducible exact Keeps.refl _ _
    | assumption
    | with_reducible refine chargeSeat_keeps (by decide) ?_
    | with_reducible refine bookOp_keeps (by decide) ?_

theorem memCharge_keeps {kl : List Piece} {k0 : State} {s : State} {seat : Nat} {line : Nat} {hub : Nat} {recv : Nat} {read : Bool} (km : [.seats, .tally] ⊆ kl)
    (kh : Keeps kl k0 s) : Keeps kl k0 (memCharge s seat line hub recv read) := by
  refine Keeps.step ?_ kh km
  unfold memCharge
  repeat' first
    | with_reducible exact Keeps.refl _ _
    | assumption
    | with_reducible refine memOp_keeps (by decide) ?_
    | with_reducible refine Keeps.ite ?_ ?_
    | split
    | dsimp only
    | (with_reducible refine Keeps.put ?_ ?_; rotate_left 1
       · (refine Only.intro fun kp khp => ?_; cases kp <;> first | with_reducible exact rfl | exact absurd (by decide) khp))
    | (with_reducible refine Keeps.set ?_ ?_; rotate_left 1
       · (refine Only.intro fun kp khp => ?_; cases kp <;> first | with_reducible exact rfl | exact absurd (by decide) khp))
    | split

theorem hostRead_keeps {kl : List Piece} {k0 : State} {p : Place} {pid : Option (BitVec 12)} {hpa : BitVec 64} {any : Bool} {ecc : Ecc} {s : State} (km : [.pins, .boot, .pkg, .lds, .seats, .extents, .mem, .coh, .fronds, .covs, .tally, .life, .log, .regs, .wire] ⊆ kl)
    (kh : Keeps kl k0 s) : Keeps kl k0 (hostRead p pid hpa any ecc s) := by
  refine Keeps.step ?_ kh km
  unfold hostRead
  repeat' first
    | with_reducible exact Keeps.refl _ _
    | assumption
    | with_reducible refine sendData_keeps (by decide) ?_
    | with_reducible refine accessDenied_keeps (by decide) ?_
    | with_reducible refine wakeHub_keeps (by decide) ?_
    | with_reducible refine countAccess_keeps (by decide) ?_
    | with_reducible refine raiseKeyAbsent_keeps (by decide) ?_
    | with_reducible refine memCharge_keeps (by decide) ?_
    | with_reducible refine arrive_keeps (by decide) ?_
    | with_reducible refine meetEntry_keeps (by decide) ?_
    | split
    | dsimp only
    | (with_reducible refine Keeps.put ?_ ?_; rotate_left 1
       · (refine Only.intro fun kp khp => ?_; cases kp <;> first | with_reducible exact rfl | exact absurd (by decide) khp))
    | (with_reducible refine Keeps.set ?_ ?_; rotate_left 1
       · (refine Only.intro fun kp khp => ?_; cases kp <;> first | with_reducible exact rfl | exact absurd (by decide) khp))
    | split

theorem bellLine_keeps {kl : List Piece} {k0 s : State} {n : Nat} {data : Line} {be : BitVec 64}
    (km : [.boot, .pkg, .lds, .rings, .tally, .life, .log, .regs] ⊆ kl)
    (kh : Keeps kl k0 s) : Keeps kl k0 (bellLine s n data be) := by
  refine Keeps.step ?_ kh km
  unfold bellLine
  repeat' first
    | with_reducible exact Keeps.refl _ _
    | assumption
    | with_reducible refine bellWrite_keeps (by decide) ?_

theorem hostWrite_keeps {kl : List Piece} {k0 : State} {p : Place} {pid : Option (BitVec 12)} {hpa : BitVec 64} {data : Line} {be : BitVec 64} {poison : Bool} {full : Bool} {s : State} (km : [.pins, .boot, .pkg, .lds, .seats, .extents, .mem, .coh, .fronds, .rings, .covs, .tally, .life, .log, .regs, .wire] ⊆ kl)
    (kh : Keeps kl k0 s) : Keeps kl k0 (hostWrite p pid hpa data be poison full s) := by
  refine Keeps.step ?_ kh km
  unfold hostWrite
  repeat' first
    | with_reducible exact Keeps.refl _ _
    | assumption
    | with_reducible refine sendDone_keeps (by decide) ?_
    | with_reducible refine accessDenied_keeps (by decide) ?_
    | with_reducible refine wakeHub_keeps (by decide) ?_
    | with_reducible refine countAccess_keeps (by decide) ?_
    | with_reducible refine raiseKeyAbsent_keeps (by decide) ?_
    | with_reducible refine bellLine_keeps (by decide) ?_
    | with_reducible refine memCharge_keeps (by decide) ?_
    | with_reducible refine arrive_keeps (by decide) ?_
    | with_reducible refine Keeps.ite ?_ ?_
    | split
    | dsimp only
    | (with_reducible refine Keeps.put ?_ ?_; rotate_left 1
       · (refine Only.intro fun kp khp => ?_; cases kp <;> first | with_reducible exact rfl | exact absurd (by decide) khp))
    | (with_reducible refine Keeps.set ?_ ?_; rotate_left 1
       · (refine Only.intro fun kp khp => ?_; cases kp <;> first | with_reducible exact rfl | exact absurd (by decide) khp))
    | split

theorem execCxlMemReadShared_keeps {kl : List Piece} {k0 : State} {d : MemDest} {hpa : BitVec 64} {ecc : Ecc} {s : State} {kt : State} (km : [.pins, .boot, .pkg, .lds, .seats, .extents, .mem, .coh, .fronds, .covs, .tally, .life, .log, .regs, .wire] ⊆ kl) (ke : execCxlMemReadShared d hpa ecc s = .next kt)
    (kh : Keeps kl k0 s) : Keeps kl k0 kt := by
  refine Keeps.step ?_ kh km
  unfold execCxlMemReadShared at ke
  cases ke
  repeat' first
    | with_reducible exact Keeps.refl _ _
    | assumption
    | with_reducible refine hostRead_keeps (by decide) ?_
    | split
    | dsimp only

theorem execCxlMemReadAny_keeps {kl : List Piece} {k0 : State} {d : MemDest} {hpa : BitVec 64} {ecc : Ecc} {s : State} {kt : State} (km : [.pins, .boot, .pkg, .lds, .seats, .extents, .mem, .coh, .fronds, .covs, .tally, .life, .log, .regs, .wire] ⊆ kl) (ke : execCxlMemReadAny d hpa ecc s = .next kt)
    (kh : Keeps kl k0 s) : Keeps kl k0 kt := by
  refine Keeps.step ?_ kh km
  unfold execCxlMemReadAny at ke
  cases ke
  repeat' first
    | with_reducible exact Keeps.refl _ _
    | assumption
    | with_reducible refine hostRead_keeps (by decide) ?_
    | split
    | dsimp only

theorem execCxlMemFullWrite_keeps {kl : List Piece} {k0 : State} {d : MemDest} {hpa : BitVec 64} {data : Line} {poison : Bool} {s : State} {kt : State} (km : [.pins, .boot, .pkg, .lds, .seats, .extents, .mem, .coh, .fronds, .rings, .covs, .tally, .life, .log, .regs, .wire] ⊆ kl) (ke : execCxlMemFullWrite d hpa data poison s = .next kt)
    (kh : Keeps kl k0 s) : Keeps kl k0 kt := by
  refine Keeps.step ?_ kh km
  unfold execCxlMemFullWrite at ke
  cases ke
  repeat' first
    | with_reducible exact Keeps.refl _ _
    | assumption
    | with_reducible refine hostWrite_keeps (by decide) ?_
    | split
    | dsimp only

theorem execCxlMemPartialWrite_keeps {kl : List Piece} {k0 : State} {d : MemDest} {hpa : BitVec 64} {data : Line} {be : BitVec 64} {poison : Bool} {s : State} {kt : State} (km : [.pins, .boot, .pkg, .lds, .seats, .extents, .mem, .coh, .fronds, .rings, .covs, .tally, .life, .log, .regs, .wire] ⊆ kl) (ke : execCxlMemPartialWrite d hpa data be poison s = .next kt)
    (kh : Keeps kl k0 s) : Keeps kl k0 kt := by
  refine Keeps.step ?_ kh km
  unfold execCxlMemPartialWrite at ke
  cases ke
  repeat' first
    | with_reducible exact Keeps.refl _ _
    | assumption
    | with_reducible refine hostWrite_keeps (by decide) ?_
    | split
    | dsimp only

theorem execCxlMemCleanEvict_keeps {kl : List Piece} {k0 : State} {d : MemDest} {hpa : BitVec 64} {s : State} {kt : State} (km : [.coh, .tally, .regs] ⊆ kl) (ke : execCxlMemCleanEvict d hpa s = .next kt)
    (kh : Keeps kl k0 s) : Keeps kl k0 kt := by
  refine Keeps.step ?_ kh km
  unfold execCxlMemCleanEvict at ke
  cases ke
  repeat' first
    | with_reducible exact Keeps.refl _ _
    | assumption
    | with_reducible refine filtRemove_keeps (by decide) ?_
    | with_reducible refine wakeHub_keeps (by decide) ?_
    | split
    | dsimp only
    | (with_reducible refine Keeps.put ?_ ?_; rotate_left 1
       · (refine Only.intro fun kp khp => ?_; cases kp <;> first | with_reducible exact rfl | exact absurd (by decide) khp))
    | (with_reducible refine Keeps.set ?_ ?_; rotate_left 1
       · (refine Only.intro fun kp khp => ?_; cases kp <;> first | with_reducible exact rfl | exact absurd (by decide) khp))
    | split

theorem heldGoesOn_keeps {kl : List Piece} {k0 : State} {s : State} {hub : Nat} {w : HeldWrite} (km : [.pins, .boot, .pkg, .lds, .seats, .extents, .mem, .coh, .fronds, .rings, .covs, .tally, .life, .log, .regs, .wire] ⊆ kl)
    (kh : Keeps kl k0 s) : Keeps kl k0 (heldGoesOn s hub w) := by
  refine Keeps.step ?_ kh km
  unfold heldGoesOn
  repeat' first
    | with_reducible exact Keeps.refl _ _
    | assumption
    | with_reducible refine take_keeps (by decide) ?_
    | with_reducible refine hostWrite_keeps (by decide) ?_
    | with_reducible refine raiseKeyAbsent_keeps (by decide) ?_
    | with_reducible refine homeStore_keeps (by decide) ?_
    | with_reducible refine Keeps.ite ?_ ?_
    | split
    | dsimp only
    | (with_reducible refine Keeps.put ?_ ?_; rotate_left 1
       · (refine Only.intro fun kp khp => ?_; cases kp <;> first | with_reducible exact rfl | exact absurd (by decide) khp))
    | (with_reducible refine Keeps.set ?_ ?_; rotate_left 1
       · (refine Only.intro fun kp khp => ?_; cases kp <;> first | with_reducible exact rfl | exact absurd (by decide) khp))
    | split

theorem heldNeeds_keeps {kl : List Piece} {k0 : State} {s : State} {w : HeldWrite} {kt : State} (km : [.boot, .pkg, .lds, .coh, .life, .log, .wire] ⊆ kl) (ke : heldNeeds s w = some kt)
    (kh : Keeps kl k0 s) : Keeps kl k0 kt := by
  refine Keeps.step ?_ kh km
  unfold heldNeeds at ke
  try dsimp only at ke
  repeat' (first | split at ke | dsimp only at ke)
  all_goals first | (obtain ⟨_, _, rfl⟩ := Option.map_eq_some_iff.1 ke) | cases ke | skip
  all_goals repeat' first
    | with_reducible exact Keeps.refl _ _
    | assumption
    | refine needLine_keeps (by decide) ‹_ = some _› ?_
    | split
    | dsimp only
    | (with_reducible refine Keeps.put ?_ ?_; rotate_left 1
       · (refine Only.intro fun kp khp => ?_; cases kp <;> first | with_reducible exact rfl | exact absurd (by decide) khp))
    | (with_reducible refine Keeps.set ?_ ?_; rotate_left 1
       · (refine Only.intro fun kp khp => ?_; cases kp <;> first | with_reducible exact rfl | exact absurd (by decide) khp))
    | split

theorem retryHub_keeps {kl : List Piece} {k0 : State} {hub n : Nat} {s : State}
    (km : [.pins, .boot, .pkg, .lds, .seats, .extents, .mem, .coh, .fronds, .rings, .covs, .tally, .life, .log, .regs, .wire] ⊆ kl) (kh : Keeps kl k0 s) : Keeps kl k0 (retryHub hub n s) := by
  induction n generalizing s with
  | zero => exact kh
  | succ n ih =>
    unfold retryHub
    split
    · exact kh
    · exact Keeps.ite kh (Keeps.ite
        (Keeps.getD kh fun _ e => heldNeeds_keeps (List.Subset.trans (by decide) km) e kh)
        (ih (heldGoesOn_keeps (List.Subset.trans (by decide) km)
          (modMem_keeps (List.Subset.trans (by decide) km) (fun x => x) kh))))

theorem retryHeld_keeps {kl : List Piece} {k0 s : State}
    (km : [.pins, .boot, .pkg, .lds, .seats, .extents, .mem, .coh, .fronds, .rings, .covs, .tally, .life, .log, .regs, .wire] ⊆ kl)
    (kh : Keeps kl k0 s) : Keeps kl k0 (retryHeld s) := by
  refine Keeps.step ?_ kh km
  unfold retryHeld
  repeat' first
    | with_reducible exact Keeps.refl _ _
    | assumption
    | with_reducible refine retryHub_keeps (by decide) ?_
    | with_reducible refine Keeps.getD ?_ (fun _ _ => ?_)
    | with_reducible refine Keeps.foldl ?_ (fun _ _ => ?_)

theorem mediaFreed_keeps {kl : List Piece} {k0 : State} {s : State} (km : [.pins, .boot, .pkg, .lds, .seats, .extents, .mem, .coh, .fronds, .rings, .covs, .tally, .life, .log, .regs, .wire] ⊆ kl)
    (kh : Keeps kl k0 s) : Keeps kl k0 (mediaFreed s) := by
  refine Keeps.step ?_ kh km
  unfold mediaFreed
  repeat' first
    | with_reducible exact Keeps.refl _ _
    | assumption
    | with_reducible refine overPromise_keeps (by decide) ?_
    | with_reducible refine capCheck_keeps (by decide) ?_
    | with_reducible refine flushAll_keeps (by decide) ?_
    | with_reducible refine retryHeld_keeps (by decide) ?_

theorem execHdmDecoderCommit_keeps {kl : List Piece} {k0 : State} {p : Place} {idx : BitVec 3} {set : HdmSetting} {s kt : State}
    (km : [.lds] ⊆ kl) (ke : execHdmDecoderCommit p idx set s = .next kt)
    (kh : Keeps kl k0 s) : Keeps kl k0 kt := by
  refine Keeps.step ?_ kh km
  unfold execHdmDecoderCommit at ke
  cases ke
  repeat' first
    | with_reducible exact Keeps.refl _ _
    | assumption
    | with_reducible refine modLd_keeps (by decide) ?_
    | with_reducible refine Keeps.ite ?_ ?_

theorem fmRefuse_keeps {kl : List Piece} {k0 s : State} {src : FmSource} {opcode : Nat}
    (km : [.boot, .pkg, .lds, .life, .log, .wire] ⊆ kl)
    (kh : Keeps kl k0 s) : Keeps kl k0 (fmRefuse s src opcode) := by
  refine Keeps.step ?_ kh km
  unfold fmRefuse
  repeat' first
    | with_reducible exact Keeps.refl _ _
    | assumption
    | with_reducible refine send_keeps (by decide) ?_
    | with_reducible refine event_keeps (by decide) ?_

theorem zeroBlock_keeps {kl : List Piece} {k0 : State} {s : State} {base : Nat} (km : [.mem, .coh] ⊆ kl)
    (kh : Keeps kl k0 s) : Keeps kl k0 (zeroBlock s base) := by
  refine Keeps.step ?_ kh km
  unfold zeroBlock
  repeat' first
    | with_reducible exact Keeps.refl _ _
    | assumption
    | with_reducible refine modMem_keeps (by decide) (fun x => x) ?_
    | with_reducible refine modMem_keeps (by decide) (fun x => filter_wf x) ?_
    | with_reducible refine modCoh_keeps (by decide) ?_
    | (with_reducible refine Keeps.put ?_ ?_; rotate_left 1
       · (refine Only.intro fun kp khp => ?_; cases kp <;> first | with_reducible exact rfl | exact absurd (by decide) khp))
    | (with_reducible refine Keeps.set ?_ ?_; rotate_left 1
       · (refine Only.intro fun kp khp => ?_; cases kp <;> first | with_reducible exact rfl | exact absurd (by decide) khp))

theorem capacityEvent_keeps {kl : List Piece} {k0 : State} {s : State} {seats : List Nat} {kind : Nat} {base : Nat} (km : [.lds, .wire] ⊆ kl)
    (kh : Keeps kl k0 s) : Keeps kl k0 (capacityEvent s seats kind base) := by
  refine Keeps.step ?_ kh km
  unfold capacityEvent
  repeat' first
    | with_reducible exact Keeps.refl _ _
    | assumption
    | with_reducible refine send_keeps (by decide) ?_
    | with_reducible refine modLd_keeps (by decide) ?_
    | with_reducible refine Keeps.foldl ?_ (fun _ _ => ?_)
    | with_reducible refine Keeps.foldl1 ?_ (fun _ _ => ?_)
    | split
    | dsimp only
    | (with_reducible refine Keeps.put ?_ ?_; rotate_left 1
       · (refine Only.intro fun kp khp => ?_; cases kp <;> first | with_reducible exact rfl | exact absurd (by decide) khp))
    | (with_reducible refine Keeps.set ?_ ?_; rotate_left 1
       · (refine Only.intro fun kp khp => ?_; cases kp <;> first | with_reducible exact rfl | exact absurd (by decide) khp))
    | split

theorem addExtents_keeps {kl : List Piece} {k0 : State} {s : State} {exts : List ExtentReq} {granted : Bool} (km : [.lds, .extents, .mem, .coh, .wire] ⊆ kl)
    (kh : Keeps kl k0 s) : Keeps kl k0 (addExtents s exts granted) := by
  refine Keeps.step ?_ kh km
  unfold addExtents
  repeat' first
    | with_reducible exact Keeps.refl _ _
    | assumption
    | with_reducible refine zeroBlock_keeps (by decide) ?_
    | with_reducible refine capacityEvent_keeps (by decide) ?_
    | with_reducible refine Keeps.foldl ?_ (fun _ _ => ?_)
    | with_reducible refine Keeps.foldl1 ?_ (fun _ _ => ?_)
    | (with_reducible refine Keeps.put ?_ ?_; rotate_left 1
       · (refine Only.intro fun kp khp => ?_; cases kp <;> first | with_reducible exact rfl | exact absurd (by decide) khp))
    | (with_reducible refine Keeps.set ?_ ?_; rotate_left 1
       · (refine Only.intro fun kp khp => ?_; cases kp <;> first | with_reducible exact rfl | exact absurd (by decide) khp))

theorem addRequest_keeps {kl : List Piece} {k0 s : State} {exts : List ExtentReq} {granted : Bool}
    (km : [.lds, .extents, .mem, .coh, .wire] ⊆ kl)
    (kh : Keeps kl k0 s) : Keeps kl k0 (addRequest s exts granted).1 := by
  refine Keeps.step ?_ kh km
  unfold addRequest
  repeat' first
    | with_reducible exact Keeps.refl _ _
    | assumption
    | with_reducible refine addExtents_keeps (by decide) ?_
    | with_reducible refine Keeps.ite ?_ ?_
    | split

theorem execAddDynamicCapacity_keeps {kl : List Piece} {k0 : State} {src : FmSource} {exts : List ExtentReq} {s : State} {kt : State} (km : [.boot, .pkg, .lds, .extents, .mem, .coh, .life, .log, .wire] ⊆ kl) (ke : execAddDynamicCapacity src exts s = .next kt)
    (kh : Keeps kl k0 s) : Keeps kl k0 kt := by
  refine Keeps.step ?_ kh km
  unfold execAddDynamicCapacity at ke
  cases ke
  repeat' first
    | with_reducible exact Keeps.refl _ _
    | assumption
    | with_reducible refine fmRefuse_keeps (by decide) ?_
    | with_reducible refine addRequest_keeps (by decide) ?_
    | refine Keeps.fst ‹_ = (_, _)› (addRequest_keeps (by decide) ?_)
    | with_reducible refine send_keeps (by decide) ?_
    | with_reducible refine Keeps.ite ?_ ?_
    | split
    | dsimp only
    | split

theorem dropExtent_keeps {kl : List Piece} {k0 : State} {s : State} {seat : Nat} {base : Nat} (km : [.pins, .boot, .pkg, .lds, .seats, .extents, .mem, .coh, .fronds, .rings, .covs, .tally, .life, .log, .regs, .wire] ⊆ kl)
    (kh : Keeps kl k0 s) : Keeps kl k0 (dropExtent s seat base) := by
  refine Keeps.step ?_ kh km
  unfold dropExtent
  repeat' first
    | with_reducible exact Keeps.refl _ _
    | assumption
    | with_reducible refine mediaFreed_keeps (by decide) ?_
    | with_reducible refine zeroBlock_keeps (by decide) ?_
    | with_reducible refine capCheck_keeps (by decide) ?_
    | with_reducible refine Keeps.ite ?_ ?_
    | split
    | dsimp only
    | (with_reducible refine Keeps.put ?_ ?_; rotate_left 1
       · (refine Only.intro fun kp khp => ?_; cases kp <;> first | with_reducible exact rfl | exact absurd (by decide) khp))
    | (with_reducible refine Keeps.set ?_ ?_; rotate_left 1
       · (refine Only.intro fun kp khp => ?_; cases kp <;> first | with_reducible exact rfl | exact absurd (by decide) khp))
    | split

theorem execAddDynamicCapacityResponse_keeps {kl : List Piece} {k0 : State} {p : Place} {base : BitVec 15} {accept : Bool} {s kt : State}
    (km : [.pins, .boot, .pkg, .lds, .seats, .extents, .mem, .coh, .fronds, .rings, .covs, .tally, .life, .log, .regs, .wire] ⊆ kl) (ke : execAddDynamicCapacityResponse p base accept s = .next kt)
    (kh : Keeps kl k0 s) : Keeps kl k0 kt := by
  refine Keeps.step ?_ kh km
  unfold execAddDynamicCapacityResponse at ke
  cases ke
  repeat' first
    | with_reducible exact Keeps.refl _ _
    | assumption
    | with_reducible refine capCheck_keeps (by decide) ?_
    | with_reducible refine dropExtent_keeps (by decide) ?_
    | with_reducible refine Keeps.ite ?_ ?_
    | split
    | dsimp only
    | (with_reducible refine Keeps.put ?_ ?_; rotate_left 1
       · (refine Only.intro fun kp khp => ?_; cases kp <;> first | with_reducible exact rfl | exact absurd (by decide) khp))

theorem releaseSnoop_keeps {kl : List Piece} {k0 : State} {s : State} {seat : Nat} {base : Nat} {kt : State} (km : [.coh, .wire] ⊆ kl) (ke : releaseSnoop s seat base = some kt)
    (kh : Keeps kl k0 s) : Keeps kl k0 kt := by
  refine Keeps.step ?_ kh km
  unfold releaseSnoop at ke
  try dsimp only at ke
  repeat' (first | split at ke | dsimp only at ke)
  all_goals first | (obtain ⟨_, _, rfl⟩ := Option.map_eq_some_iff.1 ke) | cases ke | skip
  all_goals repeat' first
    | with_reducible exact Keeps.refl _ _
    | assumption
    | with_reducible refine openTxn_keeps (by decide) ?_
    | with_reducible refine Keeps.ite ?_ ?_
    | with_reducible refine Keeps.getD ?_ (fun _ _ => ?_)
    | with_reducible refine Keeps.foldl ?_ (fun _ _ => ?_)
    | with_reducible refine Keeps.foldl1 ?_ (fun _ _ => ?_)
    | split
    | dsimp only
    | (with_reducible refine Keeps.put ?_ ?_; rotate_left 1
       · (refine Only.intro fun kp khp => ?_; cases kp <;> first | with_reducible exact rfl | exact absurd (by decide) khp))
    | (with_reducible refine Keeps.set ?_ ?_; rotate_left 1
       · (refine Only.intro fun kp khp => ?_; cases kp <;> first | with_reducible exact rfl | exact absurd (by decide) khp))
    | split

theorem execReleaseDynamicCapacity_keeps {kl : List Piece} {k0 : State} {p : Place} {bases : List (BitVec 15)} {s kt : State}
    (km : [.pins, .boot, .pkg, .lds, .seats, .extents, .mem, .coh, .fronds, .rings, .covs, .tally, .life, .log, .regs, .wire] ⊆ kl) (ke : execReleaseDynamicCapacity p bases s = .next kt)
    (kh : Keeps kl k0 s) : Keeps kl k0 kt := by
  refine Keeps.step ?_ kh km
  unfold execReleaseDynamicCapacity at ke
  cases ke
  repeat' first
    | with_reducible exact Keeps.refl _ _
    | assumption
    | refine releaseSnoop_keeps (by decide) ‹_ = some _› ?_
    | with_reducible refine dropExtent_keeps (by decide) ?_
    | with_reducible refine Keeps.foldl ?_ (fun _ _ => ?_)
    | with_reducible refine Keeps.foldl1 ?_ (fun _ _ => ?_)
    | split

theorem forceRelease_keeps {kl : List Piece} {k0 : State} {s : State} {seat : Nat} {base : Nat} (km : [.pins, .boot, .pkg, .lds, .seats, .extents, .mem, .coh, .fronds, .rings, .covs, .tally, .life, .log, .regs, .wire] ⊆ kl)
    (kh : Keeps kl k0 s) : Keeps kl k0 (forceRelease s seat base) := by
  refine Keeps.step ?_ kh km
  unfold forceRelease
  repeat' first
    | with_reducible exact Keeps.refl _ _
    | assumption
    | with_reducible refine capacityEvent_keeps (by decide) ?_
    | with_reducible refine dropExtent_keeps (by decide) ?_
    | with_reducible refine departSeat_keeps (by decide) ?_
    | with_reducible refine Keeps.ite ?_ ?_
    | split

theorem askRelease_keeps {kl : List Piece} {k0 : State} {s : State} {seat : Nat} {base : Nat} (km : [.lds, .wire] ⊆ kl)
    (kh : Keeps kl k0 s) : Keeps kl k0 (askRelease s seat base) := by
  refine Keeps.step ?_ kh km
  unfold askRelease
  repeat' first
    | with_reducible exact Keeps.refl _ _
    | assumption
    | with_reducible refine capacityEvent_keeps (by decide) ?_
    | with_reducible refine Keeps.ite ?_ ?_
    | split

theorem execForcedRelease_keeps {kl : List Piece} {k0 : State} {src : FmSource} {seat : BitVec 6} {bases : List (BitVec 15)} {s : State} {kt : State} (km : [.pins, .boot, .pkg, .lds, .seats, .extents, .mem, .coh, .fronds, .rings, .covs, .tally, .life, .log, .regs, .wire] ⊆ kl) (ke : execForcedRelease src seat bases s = .next kt)
    (kh : Keeps kl k0 s) : Keeps kl k0 kt := by
  refine Keeps.step ?_ kh km
  unfold execForcedRelease at ke
  cases ke
  repeat' first
    | with_reducible exact Keeps.refl _ _
    | assumption
    | with_reducible refine fmRefuse_keeps (by decide) ?_
    | with_reducible refine send_keeps (by decide) ?_
    | with_reducible refine forceRelease_keeps (by decide) ?_
    | with_reducible refine Keeps.ite ?_ ?_
    | with_reducible refine Keeps.foldl ?_ (fun _ _ => ?_)
    | with_reducible refine Keeps.foldl1 ?_ (fun _ _ => ?_)
    | split
    | dsimp only
    | split

theorem payPage_keeps {kl : List Piece} {k0 : State} {s : State} {pack : Bool} {rail : Nat} {cost : Nat} (km : [.tally] ⊆ kl)
    (kh : Keeps kl k0 s) : Keeps kl k0 (payPage s pack rail cost) := by
  refine Keeps.step ?_ kh km
  unfold payPage
  repeat' first
    | with_reducible exact Keeps.refl _ _
    | assumption
    | with_reducible refine modTally_keeps (by decide) ?_
    | with_reducible refine chargeBg_keeps (by decide) ?_
    | with_reducible refine bookOp_keeps (by decide) ?_
    | with_reducible refine Keeps.ite ?_ ?_
    | (with_reducible refine Keeps.put ?_ ?_; rotate_left 1
       · (refine Only.intro fun kp khp => ?_; cases kp <;> first | with_reducible exact rfl | exact absurd (by decide) khp))
    | (with_reducible refine Keeps.set ?_ ?_; rotate_left 1
       · (refine Only.intro fun kp khp => ?_; cases kp <;> first | with_reducible exact rfl | exact absurd (by decide) khp))
    | split

theorem engineTake_keeps {kl : List Piece} {k0 : State} {s : State} {line : Nat} {hub : Nat} {a : Nat} {kt : State} (km : [.pins, .boot, .pkg, .lds, .mem, .coh, .fronds, .tally, .life, .log, .regs, .wire] ⊆ kl) (ke : engineTake s line hub a = some kt)
    (kh : Keeps kl k0 s) : Keeps kl k0 kt := by
  refine Keeps.step ?_ kh km
  unfold engineTake at ke
  try dsimp only at ke
  repeat' (first | split at ke | dsimp only at ke)
  all_goals first | (obtain ⟨_, _, rfl⟩ := Option.map_eq_some_iff.1 ke) | cases ke | skip
  all_goals repeat' first
    | with_reducible exact Keeps.refl _ _
    | assumption
    | refine makeRoom_keeps (by decide) ‹_ = some _› ?_
    | with_reducible refine setDir_keeps (by decide) ?_
    | with_reducible refine setCopy_keeps (by decide) ?_
    | with_reducible refine hostShare_keeps (by decide) ?_
    | with_reducible refine dropSpec_keeps (by decide) ?_
    | with_reducible refine Keeps.ite ?_ ?_
    | split
    | dsimp only
    | split

theorem takeSnapshot_keeps {kl : List Piece} {k0 s : State} {page hub : Nat} (km : [.pins, .boot, .pkg, .lds, .mem, .coh, .fronds, .tally, .life, .log, .regs, .wire] ⊆ kl)
    (kh : Keeps kl k0 s) : Keeps kl k0 (takeSnapshot s page hub) := by
  refine Keeps.step ?_ kh km
  unfold takeSnapshot
  split
  · exact Keeps.refl _ _
  · next u a ke =>
    have kp := payPage_keeps (pack := true) (rail := 2 + hub) (cost := opCost u opCompress 0) (kl := [.pins, .boot, .pkg, .lds, .mem, .coh, .fronds, .tally, .life, .log, .regs, .wire]) (by decide)
      (engineFor_keeps (by decide) ke (Keeps.refl _ s))
    have kr := Keeps.foldl (xs := List.range 64) (f := fun s i => supplyLine s (64 * page + i) hub) kp
      fun _ _ => supplyLine_keeps (by decide) (Keeps.refl _ _)
    have fold : ∀ (l : List Nat) (o : Option State) (t : State), (∀ v, o = some v → Keeps [.pins, .boot, .pkg, .lds, .mem, .coh, .fronds, .tally, .life, .log, .regs, .wire] s v) →
        l.foldl (fun o i => o.bind fun s => engineTake s (64 * page + i) hub a) o = some t → Keeps [.pins, .boot, .pkg, .lds, .mem, .coh, .fronds, .tally, .life, .log, .regs, .wire] s t := by
      intro l
      induction l with
      | nil => intro o t h e; exact h t e
      | cons x xs ih =>
        intro o t h e
        refine ih _ t (fun v hv => ?_) e
        obtain ⟨w, hw, he⟩ := Option.bind_eq_some_iff.1 hv
        exact engineTake_keeps (by decide) he (h w hw)
    dsimp only
    generalize List.foldl (fun s i => supplyLine s (64 * page + i) hub) _ _ = w at kr ⊢
    split
    · split
      · next e => exact setPage_keeps (by decide) (fold _ _ _ (fun v hv => by cases hv; exact kr) e)
      · exact kr
    · exact kr

theorem coldPage_keeps {kl : List Piece} {k0 : State} {s : State} {page : Nat} {hub : Nat} (km : [.pins, .boot, .pkg, .lds, .mem, .coh, .fronds, .tally, .life, .log, .regs, .wire] ⊆ kl)
    (kh : Keeps kl k0 s) : Keeps kl k0 (coldPage s page hub) := by
  refine Keeps.step ?_ kh km
  unfold coldPage
  repeat' first
    | with_reducible exact Keeps.refl _ _
    | assumption
    | with_reducible refine setPage_keeps (by decide) ?_
    | with_reducible refine takeSnapshot_keeps (by decide) ?_
    | with_reducible refine Keeps.ite ?_ ?_
    | (with_reducible refine Keeps.put ?_ ?_; rotate_left 1
       · (refine Only.intro fun kp khp => ?_; cases kp <;> first | with_reducible exact rfl | exact absurd (by decide) khp))
    | (with_reducible refine Keeps.set ?_ ?_; rotate_left 1
       · (refine Only.intro fun kp khp => ?_; cases kp <;> first | with_reducible exact rfl | exact absurd (by decide) khp))
    | split

theorem execTierWindow_keeps {kl : List Piece} {k0 : State} {hub : BitVec 1} {s : State} {kt : State} (km : [.pins, .boot, .pkg, .lds, .mem, .coh, .fronds, .tally, .life, .log, .regs, .wire] ⊆ kl) (ke : execTierWindow hub s = .next kt)
    (kh : Keeps kl k0 s) : Keeps kl k0 kt := by
  refine Keeps.step ?_ kh km
  unfold execTierWindow at ke
  cases ke
  repeat' first
    | with_reducible exact Keeps.refl _ _
    | assumption
    | with_reducible refine modMem_keeps (by decide) (fun x => x) ?_
    | with_reducible refine modMem_keeps (by decide) (fun x => filter_wf x) ?_
    | with_reducible refine wakeHub_keeps (by decide) ?_
    | with_reducible refine coldPage_keeps (by decide) ?_
    | with_reducible refine Keeps.ite ?_ ?_
    | with_reducible refine Keeps.foldl ?_ (fun _ _ => ?_)
    | with_reducible refine Keeps.foldl1 ?_ (fun _ _ => ?_)
    | split
    | dsimp only
    | (with_reducible refine Keeps.put ?_ ?_; rotate_left 1
       · (refine Only.intro fun kp khp => ?_; cases kp <;> first | with_reducible exact rfl | exact absurd (by decide) khp))
    | (with_reducible refine Keeps.set ?_ ?_; rotate_left 1
       · (refine Only.intro fun kp khp => ?_; cases kp <;> first | with_reducible exact rfl | exact absurd (by decide) khp))
    | split

theorem execPageColdAge_keeps {kl : List Piece} {k0 : State} {hub : BitVec 1} {page : BitVec 31} {s : State} {kt : State} (km : [.pins, .boot, .pkg, .lds, .mem, .coh, .fronds, .tally, .life, .log, .regs, .wire] ⊆ kl) (ke : execPageColdAge hub page s = .next kt)
    (kh : Keeps kl k0 s) : Keeps kl k0 kt := by
  refine Keeps.step ?_ kh km
  unfold execPageColdAge at ke
  cases ke
  repeat' first
    | with_reducible exact Keeps.refl _ _
    | assumption
    | with_reducible refine coldPage_keeps (by decide) ?_
    | with_reducible refine wakeHub_keeps (by decide) ?_
    | with_reducible refine Keeps.ite ?_ ?_
    | split
    | dsimp only
    | split

theorem payMove_keeps {kl : List Piece} {k0 : State} {s : State} {hub : Nat} {n : Nat} (km : [.tally] ⊆ kl)
    (kh : Keeps kl k0 s) : Keeps kl k0 (payMove s hub n) := by
  refine Keeps.step ?_ kh km
  unfold payMove
  repeat' first
    | with_reducible exact Keeps.refl _ _
    | assumption
    | with_reducible refine payPage_keeps (by decide) ?_

theorem demote_keeps {kl : List Piece} {k0 : State} {s : State} {page : Nat} {hub : Nat} (km : [.boot, .pkg, .lds, .mem, .coh, .tally, .life, .log] ⊆ kl)
    (kh : Keeps kl k0 s) : Keeps kl k0 (demote s page hub) := by
  refine Keeps.step ?_ kh km
  unfold demote
  repeat' first
    | with_reducible exact Keeps.refl _ _
    | assumption
    | with_reducible refine cleanCopy_keeps (by decide) ?_
    | with_reducible refine payMove_keeps (by decide) ?_
    | with_reducible refine setPage_keeps (by decide) ?_
    | with_reducible refine Keeps.foldl ?_ (fun _ _ => ?_)
    | with_reducible refine Keeps.foldl1 ?_ (fun _ _ => ?_)
    | (with_reducible refine Keeps.put ?_ ?_; rotate_left 1
       · (refine Only.intro fun kp khp => ?_; cases kp <;> first | with_reducible exact rfl | exact absurd (by decide) khp))
    | (with_reducible refine Keeps.set ?_ ?_; rotate_left 1
       · (refine Only.intro fun kp khp => ?_; cases kp <;> first | with_reducible exact rfl | exact absurd (by decide) khp))

theorem promote_keeps {kl : List Piece} {k0 : State} {s : State} {page : Nat} {hub : Nat} (km : [.boot, .pkg, .lds, .mem, .coh, .tally, .life, .log] ⊆ kl)
    (kh : Keeps kl k0 s) : Keeps kl k0 (promote s page hub) := by
  refine Keeps.step ?_ kh km
  unfold promote
  repeat' first
    | with_reducible exact Keeps.refl _ _
    | assumption
    | with_reducible refine rewriteKeys_keeps (by decide) ?_
    | with_reducible refine readPage_keeps (by decide) ?_
    | with_reducible refine payMove_keeps (by decide) ?_
    | with_reducible refine setPage_keeps (by decide) ?_
    | with_reducible refine demote_keeps (by decide) ?_
    | with_reducible refine Keeps.ite ?_ ?_
    | split
    | dsimp only
    | (with_reducible refine Keeps.put ?_ ?_; rotate_left 1
       · (refine Only.intro fun kp khp => ?_; cases kp <;> first | with_reducible exact rfl | exact absurd (by decide) khp))
    | (with_reducible refine Keeps.set ?_ ?_; rotate_left 1
       · (refine Only.intro fun kp khp => ?_; cases kp <;> first | with_reducible exact rfl | exact absurd (by decide) khp))
    | split

theorem unpack_keeps {kl : List Piece} {k0 : State} {s : State} {page : Nat} {hub : Nat} (km : [.boot, .pkg, .lds, .mem, .coh, .covs, .tally, .life, .log] ⊆ kl)
    (kh : Keeps kl k0 s) : Keeps kl k0 (unpack s page hub) := by
  refine Keeps.step ?_ kh km
  unfold unpack
  repeat' first
    | with_reducible exact Keeps.refl _ _
    | assumption
    | with_reducible refine setPage_keeps (by decide) ?_
    | with_reducible refine readPage_keeps (by decide) ?_
    | with_reducible refine payPage_keeps (by decide) ?_
    | with_reducible refine dropEnginePage_keeps (by decide) ?_
    | with_reducible refine rewriteKeys_keeps (by decide) ?_
    | with_reducible refine capCheck_keeps (by decide) ?_
    | with_reducible refine Keeps.ite ?_ ?_
    | split
    | dsimp only
    | (with_reducible refine Keeps.put ?_ ?_; rotate_left 1
       · (refine Only.intro fun kp khp => ?_; cases kp <;> first | with_reducible exact rfl | exact absurd (by decide) khp))
    | (with_reducible refine Keeps.set ?_ ?_; rotate_left 1
       · (refine Only.intro fun kp khp => ?_; cases kp <;> first | with_reducible exact rfl | exact absurd (by decide) khp))
    | split

theorem execPageMigrationSwitch_keeps {kl : List Piece} {k0 : State} {hub : BitVec 1} {page : BitVec 31} {s : State} {kt : State} (km : [.boot, .pkg, .lds, .mem, .coh, .covs, .tally, .life, .log] ⊆ kl) (ke : execPageMigrationSwitch hub page s = .next kt)
    (kh : Keeps kl k0 s) : Keeps kl k0 kt := by
  refine Keeps.step ?_ kh km
  unfold execPageMigrationSwitch at ke
  cases ke
  repeat' first
    | with_reducible exact Keeps.refl _ _
    | assumption
    | with_reducible refine promote_keeps (by decide) ?_
    | with_reducible refine demote_keeps (by decide) ?_
    | with_reducible refine unpack_keeps (by decide) ?_
    | with_reducible refine Keeps.ite ?_ ?_
    | split
    | dsimp only
    | (with_reducible refine Keeps.put ?_ ?_; rotate_left 1
       · (refine Only.intro fun kp khp => ?_; cases kp <;> first | with_reducible exact rfl | exact absurd (by decide) khp))
    | (with_reducible refine Keeps.set ?_ ?_; rotate_left 1
       · (refine Only.intro fun kp khp => ?_; cases kp <;> first | with_reducible exact rfl | exact absurd (by decide) khp))
    | split

theorem storeImage_keeps {kl : List Piece} {k0 : State} {s : State} {page : Nat} {hub : Nat} {size : Nat} (km : [.pins, .boot, .pkg, .lds, .seats, .extents, .mem, .coh, .fronds, .rings, .covs, .tally, .life, .log, .regs, .wire] ⊆ kl)
    (kh : Keeps kl k0 s) : Keeps kl k0 (storeImage s page hub size) := by
  refine Keeps.step ?_ kh km
  unfold storeImage
  repeat' first
    | with_reducible exact Keeps.refl _ _
    | assumption
    | with_reducible refine writeDamage_keeps (by decide) ?_
    | with_reducible refine rewriteKeys_keeps (by decide) ?_
    | with_reducible refine modCoh_keeps (by decide) ?_
    | with_reducible refine mediaFreed_keeps (by decide) ?_
    | with_reducible refine setPage_keeps (by decide) ?_
    | with_reducible refine Keeps.foldl ?_ (fun _ _ => ?_)
    | with_reducible refine Keeps.foldl1 ?_ (fun _ _ => ?_)
    | (with_reducible refine Keeps.put ?_ ?_; rotate_left 1
       · (refine Only.intro fun kp khp => ?_; cases kp <;> first | with_reducible exact rfl | exact absurd (by decide) khp))
    | (with_reducible refine Keeps.set ?_ ?_; rotate_left 1
       · (refine Only.intro fun kp khp => ?_; cases kp <;> first | with_reducible exact rfl | exact absurd (by decide) khp))

theorem execPageCompression_keeps {kl : List Piece} {k0 : State} {hub : BitVec 1} {page : BitVec 31} {size : BitVec 13} {s : State} {kt : State} (km : [.pins, .boot, .pkg, .lds, .seats, .extents, .mem, .coh, .fronds, .rings, .covs, .tally, .life, .log, .regs, .wire] ⊆ kl) (ke : execPageCompression hub page size s = .next kt)
    (kh : Keeps kl k0 s) : Keeps kl k0 kt := by
  refine Keeps.step ?_ kh km
  unfold execPageCompression at ke
  cases ke
  repeat' first
    | with_reducible exact Keeps.refl _ _
    | assumption
    | with_reducible refine takeSnapshot_keeps (by decide) ?_
    | with_reducible refine dropEnginePage_keeps (by decide) ?_
    | with_reducible refine setPage_keeps (by decide) ?_
    | with_reducible refine storeImage_keeps (by decide) ?_
    | with_reducible refine Keeps.ite ?_ ?_
    | split
    | dsimp only
    | (with_reducible refine Keeps.put ?_ ?_; rotate_left 1
       · (refine Only.intro fun kp khp => ?_; cases kp <;> first | with_reducible exact rfl | exact absurd (by decide) khp))
    | (with_reducible refine Keeps.set ?_ ?_; rotate_left 1
       · (refine Only.intro fun kp khp => ?_; cases kp <;> first | with_reducible exact rfl | exact absurd (by decide) khp))
    | split

theorem zeroWrite_keeps {kl : List Piece} {k0 s : State} {w : Word32}
    (km : [.keys, .regs] ⊆ kl)
    (kh : Keeps kl k0 s) : Keeps kl k0 (zeroWrite s w) := by
  refine Keeps.step ?_ kh km
  unfold zeroWrite
  repeat' first
    | with_reducible exact Keeps.refl _ _
    | assumption
    | with_reducible refine setReg_keeps (by decide) ?_
    | with_reducible refine Keeps.ite ?_ ?_
    | (with_reducible refine Keeps.put ?_ ?_; rotate_left 1
       · (refine Only.intro fun kp khp => ?_; cases kp <;> first | with_reducible exact rfl | exact absurd (by decide) khp))

theorem keysZero_keeps {kl : List Piece} {k0 : State} {p : Place} {w : Word32} {s : State}
    (km : [.lds, .keys, .regs, .wire] ⊆ kl)
    (kh : Keeps kl k0 s) : Keeps kl k0 (keysZero p w s) := by
  refine Keeps.step ?_ kh km
  unfold keysZero
  repeat' first
    | with_reducible exact Keeps.refl _ _
    | assumption
    | with_reducible refine guardEffect_keeps (by decide) ?_
    | refine Keeps.fst ‹_ = (_, _)› (guardEffect_keeps (by decide) ?_)
    | with_reducible refine zeroWrite_keeps (by decide) ?_
    | split

theorem execKeysZeroSlot_keeps {kl : List Piece} {k0 : State} {p : Place} {w : Word32} {s kt : State}
    (km : [.lds, .keys, .regs, .wire] ⊆ kl) (ke : execKeysZeroSlot p w s = .next kt)
    (kh : Keeps kl k0 s) : Keeps kl k0 kt := by
  refine Keeps.step ?_ kh km
  unfold execKeysZeroSlot at ke
  cases ke
  repeat' first
    | with_reducible exact Keeps.refl _ _
    | assumption
    | with_reducible refine keysZero_keeps (by decide) ?_

theorem execKeysZeroAll_keeps {kl : List Piece} {k0 : State} {p : Place} {w : Word32} {s kt : State}
    (km : [.lds, .keys, .regs, .wire] ⊆ kl) (ke : execKeysZeroAll p w s = .next kt)
    (kh : Keeps kl k0 s) : Keeps kl k0 kt := by
  refine Keeps.step ?_ kh km
  unfold execKeysZeroAll at ke
  cases ke
  repeat' first
    | with_reducible exact Keeps.refl _ _
    | assumption
    | with_reducible refine keysZero_keeps (by decide) ?_

theorem execClearEventRecords_keeps {kl : List Piece} {k0 : State} {p : Place} {log : BitVec 2} {n : BitVec 7} {s : State} {kt : State} (km : [.lds] ⊆ kl) (ke : execClearEventRecords p log n s = .next kt)
    (kh : Keeps kl k0 s) : Keeps kl k0 kt := by
  refine Keeps.step ?_ kh km
  unfold execClearEventRecords at ke
  cases ke
  repeat' first
    | with_reducible exact Keeps.refl _ _
    | assumption
    | with_reducible refine modLd_keeps (by decide) ?_
    | with_reducible refine Keeps.ite ?_ ?_
    | with_reducible refine Keeps.getD ?_ (fun _ _ => ?_)
    | split
    | dsimp only
    | (with_reducible refine Keeps.put ?_ ?_; rotate_left 1
       · (refine Only.intro fun kp khp => ?_; cases kp <;> first | with_reducible exact rfl | exact absurd (by decide) khp))
    | (with_reducible refine Keeps.set ?_ ?_; rotate_left 1
       · (refine Only.intro fun kp khp => ?_; cases kp <;> first | with_reducible exact rfl | exact absurd (by decide) khp))
    | split

end Sys2Proof.Machine
end

