-- ==== Sys2Proof/Laws/Search.lean ====
section
/-!
SUPPORT. What the operations of Machine/Search.lean keep.
-/
set_option linter.unusedTactic false
set_option linter.unreachableTactic false
namespace Sys2Proof.Machine

theorem launch_keeps {kl : List Piece} {k0 : State} {s : State} {t : Table} {a : Ask} (km : [.seats, .fronds, .searches, .nextId, .tally] ⊆ kl)
    (kh : Keeps kl k0 s) : Keeps kl k0 (launch s t a).1 := by
  refine Keeps.step ?_ kh km
  unfold launch
  repeat' first
    | with_reducible exact Keeps.refl _ _
    | assumption
    | refine admitWork_keeps (by decide) ‹_ = some (_, _)› ?_
    | with_reducible refine countRefused_keeps (by decide) ?_
    | with_reducible refine bookOp_keeps (by decide) ?_
    | with_reducible refine settle_keeps (by decide) ?_
    | with_reducible refine modFrond_keeps (by decide) ?_
    | with_reducible refine Keeps.foldl ?_ (fun _ _ => ?_)
    | with_reducible refine Keeps.foldl1 ?_ (fun _ _ => ?_)
    | split
    | dsimp only
    | (with_reducible refine Keeps.put ?_ ?_; rotate_left 1
       · (refine Only.intro fun kp khp => ?_; cases kp <;> first | with_reducible exact rfl | exact absurd (by decide) khp))
    | (with_reducible refine Keeps.set ?_ ?_; rotate_left 1
       · (refine Only.intro fun kp khp => ?_; cases kp <;> first | with_reducible exact rfl | exact absurd (by decide) khp))
    | split

theorem memberDone_keeps {kl : List Piece} {k0 s : State} {n : Nat} {u : Sub} {member : Nat} {st : BitVec 8}
    (km : [.boot, .pkg, .lds, .extents, .mem, .coh, .rings, .covs, .life, .log, .regs, .wire] ⊆ kl)
    (kh : Keeps kl k0 s) : Keeps kl k0 (memberDone s n u member st) := by
  refine Keeps.step ?_ kh km
  unfold memberDone
  repeat' first
    | with_reducible exact Keeps.refl _ _
    | assumption
    | with_reducible refine complete_keeps (by decide) ?_

theorem memberFault_keeps {kl : List Piece} {k0 : State} {s : State} {n : Nat} {u : Sub} {member : Nat} {table : Nat} {st : BitVec 8} (km : [.boot, .pkg, .lds, .extents, .mem, .coh, .rings, .covs, .life, .log, .regs, .wire] ⊆ kl)
    (kh : Keeps kl k0 s) : Keeps kl k0 (memberFault s n u member table st) := by
  refine Keeps.step ?_ kh km
  unfold memberFault
  repeat' first
    | with_reducible exact Keeps.refl _ _
    | assumption
    | with_reducible refine complete_keeps (by decide) ?_
    | (with_reducible refine Keeps.put ?_ ?_; rotate_left 1
       · (refine Only.intro fun kp khp => ?_; cases kp <;> first | with_reducible exact rfl | exact absurd (by decide) khp))
    | (with_reducible refine Keeps.set ?_ ?_; rotate_left 1
       · (refine Only.intro fun kp khp => ?_; cases kp <;> first | with_reducible exact rfl | exact absurd (by decide) khp))

theorem startMember_keeps {kl : List Piece} {k0 : State} {s : State} {n : Nat} {u : Sub} {seat : Nat} {member : Nat} {table : Nat} {key : Key} {pre : Option (BitVec 8)} (km : [.boot, .pkg, .lds, .seats, .extents, .mem, .coh, .fronds, .rings, .searches, .nextId, .covs, .tally, .life, .log, .regs, .wire] ⊆ kl)
    (kh : Keeps kl k0 s) : Keeps kl k0 (startMember s n u seat member table key pre) := by
  refine Keeps.step ?_ kh km
  unfold startMember
  repeat' first
    | with_reducible exact Keeps.refl _ _
    | assumption
    | with_reducible refine memberDone_keeps (by decide) ?_
    | with_reducible refine launch_keeps (by decide) ?_
    | refine Keeps.fst ‹_ = (_, _)› (launch_keeps (by decide) ?_)
    | with_reducible refine memberFault_keeps (by decide) ?_
    | with_reducible refine Keeps.ite ?_ ?_
    | split
    | dsimp only
    | (with_reducible refine Keeps.put ?_ ?_; rotate_left 1
       · (refine Only.intro fun kp khp => ?_; cases kp <;> first | with_reducible exact rfl | exact absurd (by decide) khp))
    | (with_reducible refine Keeps.set ?_ ?_; rotate_left 1
       · (refine Only.intro fun kp khp => ?_; cases kp <;> first | with_reducible exact rfl | exact absurd (by decide) khp))
    | split

theorem startSingle_keeps {kl : List Piece} {k0 s : State} {n : Nat} {u : Sub} {seat ofs limit : Nat}
    (km : [.pins, .boot, .pkg, .lds, .seats, .extents, .mem, .coh, .fronds, .rings, .searches, .nextId, .covs, .tally, .life, .log, .regs, .wire] ⊆ kl)
    (kh : Keeps kl k0 s) : Keeps kl k0 (startSingle s n u seat ofs limit) := by
  refine Keeps.step ?_ kh km
  unfold startSingle
  repeat' first
    | with_reducible exact Keeps.refl _ _
    | assumption
    | with_reducible refine finish_keeps (by decide) ?_
    | with_reducible refine startSub_keeps (by decide) ?_
    | refine needFronds_keeps (by decide) ‹_ = some _› ?_
    | with_reducible refine startMember_keeps (by decide) ?_
    | split
    | dsimp only

theorem execSearchShort_keeps {kl : List Piece} {k0 : State} {ring : BitVec 10} {s kt : State}
    (km : [.pins, .boot, .pkg, .lds, .seats, .extents, .mem, .coh, .fronds, .rings, .searches, .nextId, .covs, .tally, .life, .log, .regs, .wire] ⊆ kl) (ke : execSearchShort ring s = .next kt)
    (kh : Keeps kl k0 s) : Keeps kl k0 kt := by
  refine Keeps.step ?_ kh km
  unfold execSearchShort at ke
  cases ke
  repeat' first
    | with_reducible exact Keeps.refl _ _
    | assumption
    | with_reducible refine startSingle_keeps (by decide) ?_
    | with_reducible refine Keeps.ite ?_ ?_
    | split

theorem execSearchLong_keeps {kl : List Piece} {k0 : State} {ring : BitVec 10} {s kt : State}
    (km : [.pins, .boot, .pkg, .lds, .seats, .extents, .mem, .coh, .fronds, .rings, .searches, .nextId, .covs, .tally, .life, .log, .regs, .wire] ⊆ kl) (ke : execSearchLong ring s = .next kt)
    (kh : Keeps kl k0 s) : Keeps kl k0 kt := by
  refine Keeps.step ?_ kh km
  unfold execSearchLong at ke
  cases ke
  repeat' first
    | with_reducible exact Keeps.refl _ _
    | assumption
    | with_reducible refine startSingle_keeps (by decide) ?_
    | with_reducible refine finish_keeps (by decide) ?_
    | with_reducible refine startSub_keeps (by decide) ?_
    | refine needFronds_keeps (by decide) ‹_ = some _› ?_
    | with_reducible refine startMember_keeps (by decide) ?_
    | with_reducible refine Keeps.ite ?_ ?_
    | with_reducible refine Keeps.getD ?_ (fun _ _ => ?_)
    | with_reducible refine Keeps.foldl ?_ (fun _ _ => ?_)
    | with_reducible refine Keeps.foldl1 ?_ (fun _ _ => ?_)
    | split
    | dsimp only

theorem putSearch_keeps {kl : List Piece} {k0 s : State} {id : Nat} {q : Search}
    (km : [.searches] ⊆ kl)
    (kh : Keeps kl k0 s) : Keeps kl k0 (putSearch s id q) := by
  refine Keeps.step ?_ kh km
  unfold putSearch
  repeat' first
    | with_reducible exact Keeps.refl _ _
    | assumption
    | (with_reducible refine Keeps.put ?_ ?_; rotate_left 1
       · (refine Only.intro fun kp khp => ?_; cases kp <;> first | with_reducible exact rfl | exact absurd (by decide) khp))

theorem chargeSearch_keeps {kl : List Piece} {k0 s : State} {q : Search} {die e n : Nat}
    (km : [.tally] ⊆ kl)
    (kh : Keeps kl k0 s) : Keeps kl k0 (chargeSearch s q die e n).1 := by
  refine Keeps.step ?_ kh km
  unfold chargeSearch
  repeat' first
    | with_reducible exact Keeps.refl _ _
    | assumption
    | with_reducible refine bookOp_keeps (by decide) ?_

theorem bedCount_keeps {kl : List Piece} {k0 s : State} {die : Nat} {lit : List Nat} {bad : Option Nat}
    (km : [.boot, .pkg, .lds, .fronds, .life, .log] ⊆ kl)
    (kh : Keeps kl k0 s) : Keeps kl k0 (bedCount s die lit bad) := by
  refine Keeps.step ?_ kh km
  unfold bedCount
  repeat' first
    | with_reducible exact Keeps.refl _ _
    | assumption
    | with_reducible refine modArr_keeps (by decide) ?_
    | with_reducible refine event_keeps (by decide) ?_
    | with_reducible refine Keeps.ite ?_ ?_
    | with_reducible refine Keeps.getD ?_ (fun _ _ => ?_)
    | with_reducible refine Keeps.foldl ?_ (fun _ _ => ?_)

theorem fixPrio_keeps {kl : List Piece} {k0 s : State} {die : Nat} {rows : List Nat}
    (km : [.fronds] ⊆ kl)
    (kh : Keeps kl k0 s) : Keeps kl k0 (fixPrio s die rows) := by
  refine Keeps.step ?_ kh km
  unfold fixPrio
  repeat' first
    | with_reducible exact Keeps.refl _ _
    | assumption
    | with_reducible refine putRow_keeps (by decide) ?_
    | with_reducible refine Keeps.foldl ?_ (fun _ _ => ?_)

theorem regionLost_keeps {kl : List Piece} {k0 s : State} {n dpa : Nat}
    (km : [.boot, .pkg, .lds, .tables, .life, .log] ⊆ kl)
    (kh : Keeps kl k0 s) : Keeps kl k0 (regionLost s n dpa) := by
  refine Keeps.step ?_ kh km
  unfold regionLost
  repeat' first
    | with_reducible exact Keeps.refl _ _
    | assumption
    | with_reducible refine event_keeps (by decide) ?_
    | with_reducible refine Keeps.ite ?_ ?_
    | split
    | dsimp only
    | (with_reducible refine Keeps.put ?_ ?_; rotate_left 1
       · (refine Only.intro fun kp khp => ?_; cases kp <;> first | with_reducible exact rfl | exact absurd (by decide) khp))

theorem dropFills_keeps {kl : List Piece} {k0 : State} {s : State} {q : Search} (km : [.coh] ⊆ kl)
    (kh : Keeps kl k0 s) : Keeps kl k0 (dropFills s q) := by
  refine Keeps.step ?_ kh km
  unfold dropFills
  repeat' first
    | with_reducible exact Keeps.refl _ _
    | assumption
    | with_reducible refine dropSpec_keeps (by decide) ?_
    | with_reducible refine Keeps.ite ?_ ?_
    | with_reducible refine Keeps.foldl ?_ (fun _ _ => ?_)
    | with_reducible refine Keeps.foldl1 ?_ (fun _ _ => ?_)
    | split

theorem modDisp_keeps {kl : List Piece} {k0 s : State} {hub : Nat} {f : Disp → Disp}
    (km : [.disp] ⊆ kl)
    (kh : Keeps kl k0 s) : Keeps kl k0 (modDisp s hub f) := by
  refine Keeps.step ?_ kh km
  unfold modDisp
  repeat' first
    | with_reducible exact Keeps.refl _ _
    | assumption
    | (with_reducible refine Keeps.put ?_ ?_; rotate_left 1
       · (refine Only.intro fun kp khp => ?_; cases kp <;> first | with_reducible exact rfl | exact absurd (by decide) khp))

theorem squashFills_keeps {kl : List Piece} {k0 : State} {s : State} {q : Search} (km : [.coh, .disp] ⊆ kl)
    (kh : Keeps kl k0 s) : Keeps kl k0 (squashFills s q) := by
  refine Keeps.step ?_ kh km
  unfold squashFills
  repeat' first
    | with_reducible exact Keeps.refl _ _
    | assumption
    | with_reducible refine modDisp_keeps (by decide) ?_
    | with_reducible refine dropFills_keeps (by decide) ?_
    | (with_reducible refine Keeps.put ?_ ?_; rotate_left 1
       · (refine Only.intro fun kp khp => ?_; cases kp <;> first | with_reducible exact rfl | exact absurd (by decide) khp))
    | (with_reducible refine Keeps.set ?_ ?_; rotate_left 1
       · (refine Only.intro fun kp khp => ?_; cases kp <;> first | with_reducible exact rfl | exact absurd (by decide) khp))

theorem predict_keeps {kl : List Piece} {k0 : State} {s : State} {q : Search} {t : Table} {h : Hit} (km : [.coh, .disp] ⊆ kl)
    (kh : Keeps kl k0 s) : Keeps kl k0 (predict s q t h).1 := by
  refine Keeps.step ?_ kh km
  unfold predict
  repeat' first
    | with_reducible exact Keeps.refl _ _
    | assumption
    | with_reducible refine squashFills_keeps (by decide) ?_
    | with_reducible refine Keeps.ite ?_ ?_
    | split
    | dsimp only
    | (with_reducible refine Keeps.put ?_ ?_; rotate_left 1
       · (refine Only.intro fun kp khp => ?_; cases kp <;> first | with_reducible exact rfl | exact absurd (by decide) khp))
    | (with_reducible refine Keeps.set ?_ ?_; rotate_left 1
       · (refine Only.intro fun kp khp => ?_; cases kp <;> first | with_reducible exact rfl | exact absurd (by decide) khp))
    | split

theorem specRoom_keeps {kl : List Piece} {k0 : State} {s : State} {hub : Nat} {kt : State} (km : [.coh] ⊆ kl) (ke : specRoom s hub = some kt)
    (kh : Keeps kl k0 s) : Keeps kl k0 kt := by
  refine Keeps.step ?_ kh km
  unfold specRoom at ke
  try dsimp only at ke
  repeat' (first | split at ke | dsimp only at ke)
  all_goals first | (obtain ⟨_, _, rfl⟩ := Option.map_eq_some_iff.1 ke) | cases ke | skip
  all_goals repeat' first
    | with_reducible exact Keeps.refl _ _
    | assumption
    | with_reducible refine dropSpec_keeps (by decide) ?_
    | with_reducible refine Keeps.ite ?_ ?_
    | split
    | dsimp only
    | split

theorem execFarDataPrefetchFill_keeps {kl : List Piece} {k0 : State} {id : BitVec 32} {k : BitVec 2} {s : State} {kt : State} (km : [.coh, .searches, .tally, .wire] ⊆ kl) (ke : execFarDataPrefetchFill id k s = .next kt)
    (kh : Keeps kl k0 s) : Keeps kl k0 kt := by
  refine Keeps.step ?_ kh km
  unfold execFarDataPrefetchFill at ke
  cases ke
  repeat' first
    | with_reducible exact Keeps.refl _ _
    | assumption
    | refine specRoom_keeps (by decide) ‹_ = some _› ?_
    | with_reducible refine dropSpec_keeps (by decide) ?_
    | with_reducible refine putSearch_keeps (by decide) ?_
    | with_reducible refine send_keeps (by decide) ?_
    | with_reducible refine bookOp_keeps (by decide) ?_
    | with_reducible refine modCoh_keeps (by decide) ?_
    | with_reducible refine Keeps.ite ?_ ?_
    | split
    | dsimp only
    | (with_reducible refine Keeps.put ?_ ?_; rotate_left 1
       · (refine Only.intro fun kp khp => ?_; cases kp <;> first | with_reducible exact rfl | exact absurd (by decide) khp))
    | (with_reducible refine Keeps.set ?_ ?_; rotate_left 1
       · (refine Only.intro fun kp khp => ?_; cases kp <;> first | with_reducible exact rfl | exact absurd (by decide) khp))
    | split

theorem farFill_keeps {kl : List Piece} {k0 : State} {s : State} {who : Nat} {t : Table} {h : Hit} (km : [.pins, .boot, .pkg, .lds, .mem, .coh, .fronds, .tally, .life, .log, .regs, .wire] ⊆ kl)
    (kh : Keeps kl k0 s) : Keeps kl k0 (farFill s who t h) := by
  refine Keeps.step ?_ kh km
  unfold farFill
  repeat' first
    | with_reducible exact Keeps.refl _ _
    | assumption
    | with_reducible refine dropOthers_keeps (by decide) ?_
    | with_reducible refine feed_keeps (by decide) ?_
    | with_reducible refine countAccess_keeps (by decide) ?_
    | with_reducible refine grant_keeps (by decide) ?_
    | with_reducible refine Keeps.ite ?_ ?_
    | with_reducible refine Keeps.foldl ?_ (fun _ _ => ?_)
    | with_reducible refine Keeps.foldl1 ?_ (fun _ _ => ?_)
    | split
    | dsimp only
    | (with_reducible refine Keeps.put ?_ ?_; rotate_left 1
       · (refine Only.intro fun kp khp => ?_; cases kp <;> first | with_reducible exact rfl | exact absurd (by decide) khp))
    | (with_reducible refine Keeps.set ?_ ?_; rotate_left 1
       · (refine Only.intro fun kp khp => ?_; cases kp <;> first | with_reducible exact rfl | exact absurd (by decide) khp))
    | split

theorem readHits_keeps {kl : List Piece} {k0 s : State} {id : Nat} {key : Key} {n : Nat} {res : List FRes}
    {hs : List Hit} (km : [.searches, .tally] ⊆ kl) (kh : Keeps kl k0 s) : Keeps kl k0 (readHits s id key n res hs).1 := by
  induction hs generalizing s with
  | nil => exact kh
  | cons h t ih =>
    unfold readHits
    split
    · exact kh
    · dsimp only
      split
      · split
        · exact kh
        · exact ih kh
      · split
        · split
          · exact putSearch_keeps (List.Subset.trans (by decide) km) (chargeSearch_keeps (List.Subset.trans (by decide) km) kh)
          · refine ih ?_
            exact putSearch_keeps (List.Subset.trans (by decide) km) (chargeSearch_keeps (List.Subset.trans (by decide) km) kh)
        · split
          · exact kh
          · exact ih kh

theorem judge_keeps {kl : List Piece} {k0 s : State} {id : Nat} {q : Search} {t : Table} {res : List FRes}
    (km : [.boot, .pkg, .lds, .fronds, .searches, .tally, .life, .log] ⊆ kl)
    (kh : Keeps kl k0 s) : Keeps kl k0 (judge s id q t res).1 := by
  refine Keeps.step ?_ kh km
  unfold judge
  repeat' first
    | with_reducible exact Keeps.refl _ _
    | assumption
    | with_reducible refine readHits_keeps (by decide) ?_
    | refine Keeps.fst ‹_ = (_, _)› (readHits_keeps (by decide) ?_)
    | with_reducible refine checkRow_keeps (by decide) ?_
    | with_reducible refine Keeps.ite ?_ ?_
    | with_reducible refine Keeps.foldl ?_ (fun _ _ => ?_)
    | with_reducible refine Keeps.foldl1 ?_ (fun _ _ => ?_)
    | split
    | dsimp only

theorem countStats_keeps {kl : List Piece} {k0 : State} {s : State} {q : Search} (km : [.pins, .boot, .pkg, .lds, .seats, .extents, .mem, .coh, .fronds, .tables, .covs, .tally, .life, .log, .regs, .wire] ⊆ kl)
    (kh : Keeps kl k0 s) : Keeps kl k0 (countStats s q) := by
  refine Keeps.step ?_ kh km
  unfold countStats
  repeat' first
    | with_reducible exact Keeps.refl _ _
    | assumption
    | with_reducible refine take_keeps (by decide) ?_
    | with_reducible refine Keeps.getD ?_ (fun _ _ => ?_)
    | with_reducible refine Keeps.foldl ?_ (fun _ _ => ?_)
    | with_reducible refine Keeps.foldl1 ?_ (fun _ _ => ?_)
    | split
    | dsimp only
    | (with_reducible refine Keeps.put ?_ ?_; rotate_left 1
       · (refine Only.intro fun kp khp => ?_; cases kp <;> first | with_reducible exact rfl | exact absurd (by decide) khp))
    | (with_reducible refine Keeps.set ?_ ?_; rotate_left 1
       · (refine Only.intro fun kp khp => ?_; cases kp <;> first | with_reducible exact rfl | exact absurd (by decide) khp))
    | split

theorem queueCounts_keeps {kl : List Piece} {k0 s : State} {q : Search} {t : Table} {hits : List Hit}
    (km : [.fronds] ⊆ kl)
    (kh : Keeps kl k0 s) : Keeps kl k0 (queueCounts s q t hits) := by
  refine Keeps.step ?_ kh km
  unfold queueCounts
  repeat' first
    | with_reducible exact Keeps.refl _ _
    | assumption
    | with_reducible refine modFrond_keeps (by decide) ?_
    | with_reducible refine Keeps.ite ?_ ?_
    | with_reducible refine Keeps.getD ?_ (fun _ _ => ?_)
    | with_reducible refine Keeps.foldl ?_ (fun _ _ => ?_)

theorem squashRead_keeps {kl : List Piece} {k0 : State} {s : State} {seat : Nat} {h : Hit} {st : BitVec 8} (km : [.fronds, .disp] ⊆ kl)
    (kh : Keeps kl k0 s) : Keeps kl k0 (squashRead s seat h st) := by
  refine Keeps.step ?_ kh km
  unfold squashRead
  repeat' first
    | with_reducible exact Keeps.refl _ _
    | assumption
    | with_reducible refine modDisp_keeps (by decide) ?_
    | with_reducible refine modArr_keeps (by decide) ?_
    | with_reducible refine Keeps.ite ?_ ?_
    | (with_reducible refine Keeps.put ?_ ?_; rotate_left 1
       · (refine Only.intro fun kp khp => ?_; cases kp <;> first | with_reducible exact rfl | exact absurd (by decide) khp))
    | (with_reducible refine Keeps.set ?_ ?_; rotate_left 1
       · (refine Only.intro fun kp khp => ?_; cases kp <;> first | with_reducible exact rfl | exact absurd (by decide) khp))
    | split

theorem squashReads_keeps {kl : List Piece} {k0 : State} {s : State} {q : Search} {used : List Hit} (km : [.fronds, .disp, .tally] ⊆ kl)
    (kh : Keeps kl k0 s) : Keeps kl k0 (squashReads s q used).1 := by
  refine Keeps.step ?_ kh km
  unfold squashReads
  repeat' first
    | with_reducible exact Keeps.refl _ _
    | assumption
    | with_reducible refine squashRead_keeps (by decide) ?_
    | with_reducible refine chargeSearch_keeps (by decide) ?_
    | refine Keeps.fst ‹_ = (_, _)› (chargeSearch_keeps (by decide) ?_)
    | with_reducible refine Keeps.ite ?_ ?_
    | with_reducible refine Keeps.foldl ?_ (fun _ _ => ?_)
    | with_reducible refine Keeps.foldl1 ?_ (fun _ _ => ?_)
    | split
    | dsimp only
    | (with_reducible refine Keeps.put ?_ ?_; rotate_left 1
       · (refine Only.intro fun kp khp => ?_; cases kp <;> first | with_reducible exact rfl | exact absurd (by decide) khp))
    | (with_reducible refine Keeps.set ?_ ?_; rotate_left 1
       · (refine Only.intro fun kp khp => ?_; cases kp <;> first | with_reducible exact rfl | exact absurd (by decide) khp))
    | split

theorem settlePred_keeps {kl : List Piece} {k0 : State} {s : State} {q : Search} {winner : Option Hit} (km : [.boot, .pkg, .lds, .mem, .coh, .tables, .disp, .life, .log] ⊆ kl)
    (kh : Keeps kl k0 s) : Keeps kl k0 (settlePred s q winner) := by
  refine Keeps.step ?_ kh km
  unfold settlePred
  repeat' first
    | with_reducible exact Keeps.refl _ _
    | assumption
    | with_reducible refine regionLost_keeps (by decide) ?_
    | with_reducible refine countAccess_keeps (by decide) ?_
    | with_reducible refine modCoh_keeps (by decide) ?_
    | with_reducible refine squashFills_keeps (by decide) ?_
    | with_reducible refine Keeps.ite ?_ ?_
    | with_reducible refine Keeps.getD ?_ (fun _ _ => ?_)
    | with_reducible refine Keeps.foldl ?_ (fun _ _ => ?_)
    | with_reducible refine Keeps.foldl1 ?_ (fun _ _ => ?_)
    | split
    | dsimp only
    | (with_reducible refine Keeps.put ?_ ?_; rotate_left 1
       · (refine Only.intro fun kp khp => ?_; cases kp <;> first | with_reducible exact rfl | exact absurd (by decide) khp))
    | (with_reducible refine Keeps.set ?_ ?_; rotate_left 1
       · (refine Only.intro fun kp khp => ?_; cases kp <;> first | with_reducible exact rfl | exact absurd (by decide) khp))
    | split

theorem winStatus_keeps {kl : List Piece} {k0 s : State} {st : BitVec 8} {hit : Bool}
    (km : [.regs] ⊆ kl)
    (kh : Keeps kl k0 s) : Keeps kl k0 (winStatus s st hit) := by
  refine Keeps.step ?_ kh km
  unfold winStatus
  repeat' first
    | with_reducible exact Keeps.refl _ _
    | assumption
    | with_reducible refine modRegs_keeps (by decide) ?_
    | with_reducible refine setReg_keeps (by decide) ?_

theorem winResult_keeps {kl : List Piece} {k0 s : State} {t : Table} {v : Verdict}
    (km : [.regs] ⊆ kl)
    (kh : Keeps kl k0 s) : Keeps kl k0 (winResult s t v) := by
  refine Keeps.step ?_ kh km
  unfold winResult
  repeat' first
    | with_reducible exact Keeps.refl _ _
    | assumption
    | with_reducible refine winStatus_keeps (by decide) ?_
    | with_reducible refine setRegWide_keeps (by decide) ?_
    | with_reducible refine Keeps.getD ?_ (fun _ _ => ?_)
    | split

theorem dropOver_keeps {kl : List Piece} {k0 : State} {s : State} {id : Nat} {q : Search} (km : [.seats, .searches, .tally] ⊆ kl)
    (kh : Keeps kl k0 s) : Keeps kl k0 (dropOver s id q) := by
  refine Keeps.step ?_ kh km
  unfold dropOver
  repeat' first
    | with_reducible exact Keeps.refl _ _
    | assumption
    | with_reducible refine settle_keeps (by decide) ?_
    | (with_reducible refine Keeps.put ?_ ?_; rotate_left 1
       · (refine Only.intro fun kp khp => ?_; cases kp <;> first | with_reducible exact rfl | exact absurd (by decide) khp))
    | (with_reducible refine Keeps.set ?_ ?_; rotate_left 1
       · (refine Only.intro fun kp khp => ?_; cases kp <;> first | with_reducible exact rfl | exact absurd (by decide) khp))

theorem retire_keeps {kl : List Piece} {k0 : State} {s : State} {id : Nat} {q : Search} {fault : Bool} (km : [.searches] ⊆ kl)
    (kh : Keeps kl k0 s) : Keeps kl k0 (retire s id q fault) := by
  refine Keeps.step ?_ kh km
  unfold retire
  repeat' first
    | with_reducible exact Keeps.refl _ _
    | assumption
    | with_reducible refine putSearch_keeps (by decide) ?_
    | with_reducible refine Keeps.ite ?_ ?_
    | (with_reducible refine Keeps.put ?_ ?_; rotate_left 1
       · (refine Only.intro fun kp khp => ?_; cases kp <;> first | with_reducible exact rfl | exact absurd (by decide) khp))
    | (with_reducible refine Keeps.set ?_ ?_; rotate_left 1
       · (refine Only.intro fun kp khp => ?_; cases kp <;> first | with_reducible exact rfl | exact absurd (by decide) khp))
    | split

theorem finalise_keeps {kl : List Piece} {k0 : State} {s : State} {id : Nat} {v : Verdict} {early : Bool} (km : [.pins, .boot, .pkg, .lds, .seats, .extents, .mem, .coh, .fronds, .tables, .rings, .searches, .disp, .covs, .tally, .life, .log, .regs, .wire] ⊆ kl)
    (kh : Keeps kl k0 s) : Keeps kl k0 (finalise s id v early) := by
  refine Keeps.step ?_ kh km
  unfold finalise
  repeat' first
    | with_reducible exact Keeps.refl _ _
    | assumption
    | with_reducible refine dropOver_keeps (by decide) ?_
    | with_reducible refine squashReads_keeps (by decide) ?_
    | refine Keeps.fst ‹_ = (_, _)› (squashReads_keeps (by decide) ?_)
    | with_reducible refine settlePred_keeps (by decide) ?_
    | with_reducible refine retire_keeps (by decide) ?_
    | with_reducible refine modDisp_keeps (by decide) ?_
    | with_reducible refine settle_keeps (by decide) ?_
    | with_reducible refine countStats_keeps (by decide) ?_
    | with_reducible refine queueCounts_keeps (by decide) ?_
    | with_reducible refine farFill_keeps (by decide) ?_
    | with_reducible refine winResult_keeps (by decide) ?_
    | with_reducible refine winStatus_keeps (by decide) ?_
    | with_reducible refine flush_keeps (by decide) ?_
    | with_reducible refine endMember_keeps (by decide) ?_
    | with_reducible refine pushComps_keeps (by decide) ?_
    | with_reducible refine Keeps.ite ?_ ?_
    | with_reducible refine Keeps.getD ?_ (fun _ _ => ?_)
    | split
    | dsimp only
    | (with_reducible refine Keeps.put ?_ ?_; rotate_left 1
       · (refine Only.intro fun kp khp => ?_; cases kp <;> first | with_reducible exact rfl | exact absurd (by decide) khp))
    | (with_reducible refine Keeps.set ?_ ?_; rotate_left 1
       · (refine Only.intro fun kp khp => ?_; cases kp <;> first | with_reducible exact rfl | exact absurd (by decide) khp))
    | split

theorem failSearch_keeps {kl : List Piece} {k0 : State} {s : State} {id : Nat} {st : BitVec 8} (km : [.pins, .boot, .pkg, .lds, .seats, .extents, .mem, .coh, .fronds, .tables, .rings, .searches, .disp, .covs, .tally, .life, .log, .regs, .wire] ⊆ kl)
    (kh : Keeps kl k0 s) : Keeps kl k0 (failSearch s id st) := by
  refine Keeps.step ?_ kh km
  unfold failSearch
  repeat' first
    | with_reducible exact Keeps.refl _ _
    | assumption
    | with_reducible refine finalise_keeps (by decide) ?_
    | with_reducible refine Keeps.getD ?_ (fun _ _ => ?_)

theorem overCheck_keeps {kl : List Piece} {k0 : State} {s : State} {id : Nat} (km : [.seats, .searches, .tally] ⊆ kl)
    (kh : Keeps kl k0 s) : Keeps kl k0 (overCheck s id) := by
  refine Keeps.step ?_ kh km
  unfold overCheck
  repeat' first
    | with_reducible exact Keeps.refl _ _
    | assumption
    | with_reducible refine dropOver_keeps (by decide) ?_
    | with_reducible refine Keeps.ite ?_ ?_
    | split
    | dsimp only
    | (with_reducible refine Keeps.put ?_ ?_; rotate_left 1
       · (refine Only.intro fun kp khp => ?_; cases kp <;> first | with_reducible exact rfl | exact absurd (by decide) khp))
    | (with_reducible refine Keeps.set ?_ ?_; rotate_left 1
       · (refine Only.intro fun kp khp => ?_; cases kp <;> first | with_reducible exact rfl | exact absurd (by decide) khp))
    | split

theorem earlyCheck_keeps {kl : List Piece} {k0 s : State} {id : Nat}
    (km : [.pins, .boot, .pkg, .lds, .seats, .extents, .mem, .coh, .fronds, .tables, .rings, .searches, .disp, .covs, .tally, .life, .log, .regs, .wire] ⊆ kl)
    (kh : Keeps kl k0 s) : Keeps kl k0 (earlyCheck s id) := by
  refine Keeps.step ?_ kh km
  unfold earlyCheck
  repeat' first
    | with_reducible exact Keeps.refl _ _
    | assumption
    | with_reducible refine finalise_keeps (by decide) ?_
    | with_reducible refine putSearch_keeps (by decide) ?_
    | with_reducible refine flush_keeps (by decide) ?_
    | with_reducible refine pushComp_keeps (by decide) ?_
    | with_reducible refine Keeps.ite ?_ ?_
    | split

theorem wakeLit_keeps {kl : List Piece} {k0 s : State} {id : Nat} {q : Search} {r : FRes} {kt : State}
    (km : [.fronds, .searches, .tally] ⊆ kl) (ke : wakeLit s id q r = some kt)
    (kh : Keeps kl k0 s) : Keeps kl k0 kt := by
  refine Keeps.step ?_ kh km
  unfold wakeLit at ke
  try dsimp only at ke
  repeat' (first | split at ke | dsimp only at ke)
  all_goals first | cases ke | skip
  all_goals repeat' first
    | with_reducible exact Keeps.refl _ _
    | assumption
    | with_reducible refine modArr_keeps (by decide) ?_
    | with_reducible refine chargeSearch_keeps (by decide) ?_
    | refine Keeps.fst ‹_ = (_, _)› (chargeSearch_keeps (by decide) ?_)
    | with_reducible refine putSearch_keeps (by decide) ?_
    | with_reducible refine Keeps.ite ?_ ?_
    | with_reducible refine Keeps.getD ?_ (fun _ _ => ?_)
    | with_reducible refine Keeps.foldl ?_ (fun _ _ => ?_)

theorem tagChecks_keeps {kl : List Piece} {k0 : State} {s : State} {die : Nat} {lit : List Nat} (km : [.boot, .pkg, .lds, .life, .log, .regs, .wire] ⊆ kl)
    (kh : Keeps kl k0 s) : Keeps kl k0 (tagChecks s die lit) := by
  refine Keeps.step ?_ kh km
  unfold tagChecks
  repeat' first
    | with_reducible exact Keeps.refl _ _
    | assumption
    | with_reducible refine raiseFull_keeps (by decide) ?_
    | with_reducible refine setEvt_keeps (by decide) ?_
    | with_reducible refine Keeps.ite ?_ ?_
    | with_reducible refine Keeps.getD ?_ (fun _ _ => ?_)
    | with_reducible refine Keeps.foldl ?_ (fun _ _ => ?_)
    | with_reducible refine Keeps.foldl1 ?_ (fun _ _ => ?_)
    | split

theorem localSearch_keeps {kl : List Piece} {k0 s : State} {id : Nat} {q : Search} {r : FRes} {t : Table} {fault : LocalFault}
    (km : [.pins, .boot, .pkg, .lds, .seats, .extents, .mem, .coh, .fronds, .tables, .rings, .searches, .disp, .covs, .tally, .life, .log, .regs, .wire] ⊆ kl) (kh : Keeps kl k0 s) : Keeps kl k0 (localSearch s id q r t fault) := by
  unfold localSearch
  extract_lets die s1 s2 bedBad deadBed s3 ms extra all badPrio s4 st hits q2
  have k2 : Keeps kl k0 s2 := Keeps.foldl (tagChecks_keeps (List.Subset.trans (by decide) km) kh)
    fun _ _ => usePan_keeps (List.Subset.trans (by decide) km) (Keeps.refl _ _)
  have k3 : Keeps kl k0 s3 := bedCount_keeps (List.Subset.trans (by decide) km) k2
  have k4 : Keeps kl k0 s4 := fixPrio_keeps (List.Subset.trans (by decide) km) k3
  clear_value die s1 s2 bedBad deadBed s3 ms extra all badPrio s4 st hits q2
  have k5 : Keeps kl k0 (match hits with
      | h :: _ => if q2.ended then (s4, q2) else predict s4 q2 t h
      | [] => (s4, q2)).1 := by
    split
    · split
      · exact k4
      · exact predict_keeps (List.Subset.trans (by decide) km) k4
    · exact k4
  have key : ∀ p : State × Search, Keeps kl k0 p.1 → Keeps kl k0
      (if p.2.ended then overCheck (putSearch p.1 id p.2) id
       else if p.2.res.length = 1 && hits.isEmpty then
         finalise (putSearch p.1 id p.2) id ⟨if st = 0 then stMiss else st, [], none⟩ false
       else earlyCheck (putSearch p.1 id p.2) id) := fun p k =>
    have k6 := putSearch_keeps (List.Subset.trans (by decide) km) k
    Keeps.ite (overCheck_keeps (List.Subset.trans (by decide) km) k6)
      (Keeps.ite (finalise_keeps (List.Subset.trans (by decide) km) k6) (earlyCheck_keeps (List.Subset.trans (by decide) km) k6))
  exact key _ k5

theorem localResult_keeps {kl : List Piece} {k0 : State} {s : State} {id : Nat} {die : Nat} {fault : LocalFault} (km : [.pins, .boot, .pkg, .lds, .seats, .extents, .mem, .coh, .fronds, .tables, .rings, .searches, .disp, .covs, .tally, .life, .log, .regs, .wire] ⊆ kl)
    (kh : Keeps kl k0 s) : Keeps kl k0 (localResult s id die fault) := by
  refine Keeps.step ?_ kh km
  unfold localResult
  repeat' first
    | with_reducible exact Keeps.refl _ _
    | assumption
    | refine wakeLit_keeps (by decide) ‹_ = some _› ?_
    | with_reducible refine localSearch_keeps (by decide) ?_
    | with_reducible refine Keeps.ite ?_ ?_
    | split
    | dsimp only
    | (with_reducible refine Keeps.put ?_ ?_; rotate_left 1
       · (refine Only.intro fun kp khp => ?_; cases kp <;> first | with_reducible exact rfl | exact absurd (by decide) khp))
    | (with_reducible refine Keeps.set ?_ ?_; rotate_left 1
       · (refine Only.intro fun kp khp => ?_; cases kp <;> first | with_reducible exact rfl | exact absurd (by decide) khp))
    | split

theorem execLocalResult_keeps {kl : List Piece} {k0 : State} {id : BitVec 32} {die : BitVec 3} {fault : LocalFault} {s : State} {kt : State} (km : [.pins, .boot, .pkg, .lds, .seats, .extents, .mem, .coh, .fronds, .tables, .rings, .searches, .disp, .covs, .tally, .life, .log, .regs, .wire] ⊆ kl) (ke : execLocalResult id die fault s = .next kt)
    (kh : Keeps kl k0 s) : Keeps kl k0 kt := by
  refine Keeps.step ?_ kh km
  unfold execLocalResult at ke
  cases ke
  repeat' first
    | with_reducible exact Keeps.refl _ _
    | assumption
    | with_reducible refine localResult_keeps (by decide) ?_
    | split
    | dsimp only

theorem nearDataRead_keeps {kl : List Piece} {k0 : State} {s : State} {i : Nat} {die : Nat} (km : [.pins, .boot, .pkg, .lds, .seats, .extents, .mem, .coh, .fronds, .tables, .rings, .searches, .disp, .covs, .tally, .life, .log, .regs, .wire] ⊆ kl)
    (kh : Keeps kl k0 s) : Keeps kl k0 (nearDataRead s i die) := by
  refine Keeps.step ?_ kh km
  unfold nearDataRead
  repeat' first
    | with_reducible exact Keeps.refl _ _
    | assumption
    | with_reducible refine chargeSearch_keeps (by decide) ?_
    | refine Keeps.fst ‹_ = (_, _)› (chargeSearch_keeps (by decide) ?_)
    | with_reducible refine putSearch_keeps (by decide) ?_
    | with_reducible refine overCheck_keeps (by decide) ?_
    | with_reducible refine squashRead_keeps (by decide) ?_
    | with_reducible refine judge_keeps (by decide) ?_
    | refine Keeps.fst ‹_ = (_, _)› (judge_keeps (by decide) ?_)
    | with_reducible refine finalise_keeps (by decide) ?_
    | with_reducible refine earlyCheck_keeps (by decide) ?_
    | with_reducible refine Keeps.ite ?_ ?_
    | split
    | dsimp only
    | (with_reducible refine Keeps.put ?_ ?_; rotate_left 1
       · (refine Only.intro fun kp khp => ?_; cases kp <;> first | with_reducible exact rfl | exact absurd (by decide) khp))
    | (with_reducible refine Keeps.set ?_ ?_; rotate_left 1
       · (refine Only.intro fun kp khp => ?_; cases kp <;> first | with_reducible exact rfl | exact absurd (by decide) khp))
    | split

theorem execNearDataRead_keeps {kl : List Piece} {k0 : State} {id : BitVec 32} {die : BitVec 3} {s : State} {kt : State} (km : [.pins, .boot, .pkg, .lds, .seats, .extents, .mem, .coh, .fronds, .tables, .rings, .searches, .disp, .covs, .tally, .life, .log, .regs, .wire] ⊆ kl) (ke : execNearDataRead id die s = .next kt)
    (kh : Keeps kl k0 s) : Keeps kl k0 kt := by
  refine Keeps.step ?_ kh km
  unfold execNearDataRead at ke
  cases ke
  repeat' first
    | with_reducible exact Keeps.refl _ _
    | assumption
    | with_reducible refine nearDataRead_keeps (by decide) ?_
    | split
    | dsimp only

theorem rankDupEvent_keeps {kl : List Piece} {k0 s : State} {q : Search} {res : List FRes}
    (km : [.boot, .pkg, .lds, .life, .log, .regs] ⊆ kl)
    (kh : Keeps kl k0 s) : Keeps kl k0 (rankDupEvent s q res) := by
  refine Keeps.step ?_ kh km
  unfold rankDupEvent
  repeat' first
    | with_reducible exact Keeps.refl _ _
    | assumption
    | with_reducible refine setReg_keeps (by decide) ?_
    | with_reducible refine event_keeps (by decide) ?_
    | split

theorem compareHalves_keeps {kl : List Piece} {k0 s : State} {q : Search} {t : Table} {a b : Verdict}
    (km : [.boot, .pkg, .lds, .life, .log] ⊆ kl)
    (kh : Keeps kl k0 s) : Keeps kl k0 (compareHalves s q t a b).1 := by
  refine Keeps.step ?_ kh km
  unfold compareHalves
  repeat' first
    | with_reducible exact Keeps.refl _ _
    | assumption
    | with_reducible refine event_keeps (by decide) ?_
    | with_reducible refine Keeps.ite ?_ ?_
    | with_reducible refine Keeps.getD ?_ (fun _ _ => ?_)
    | split
    | dsimp only

theorem cascadeResolution_keeps {kl : List Piece} {k0 : State} {s : State} {i : Nat} (km : [.pins, .boot, .pkg, .lds, .seats, .extents, .mem, .coh, .fronds, .tables, .rings, .searches, .disp, .covs, .tally, .life, .log, .regs, .wire] ⊆ kl)
    (kh : Keeps kl k0 s) : Keeps kl k0 (cascadeResolution s i) := by
  refine Keeps.step ?_ kh km
  unfold cascadeResolution
  repeat' first
    | with_reducible exact Keeps.refl _ _
    | assumption
    | with_reducible refine judge_keeps (by decide) ?_
    | refine Keeps.fst ‹_ = (_, _)› (judge_keeps (by decide) ?_)
    | with_reducible refine rankDupEvent_keeps (by decide) ?_
    | with_reducible refine compareHalves_keeps (by decide) ?_
    | refine Keeps.fst ‹_ = (_, _)› (compareHalves_keeps (by decide) ?_)
    | with_reducible refine finalise_keeps (by decide) ?_
    | with_reducible refine Keeps.ite ?_ ?_
    | with_reducible refine Keeps.getD ?_ (fun _ _ => ?_)
    | split
    | dsimp only
    | (with_reducible refine Keeps.put ?_ ?_; rotate_left 1
       · (refine Only.intro fun kp khp => ?_; cases kp <;> first | with_reducible exact rfl | exact absurd (by decide) khp))
    | (with_reducible refine Keeps.set ?_ ?_; rotate_left 1
       · (refine Only.intro fun kp khp => ?_; cases kp <;> first | with_reducible exact rfl | exact absurd (by decide) khp))
    | split

theorem execCascadeResolution_keeps {kl : List Piece} {k0 : State} {id : BitVec 32} {s : State} {kt : State} (km : [.pins, .boot, .pkg, .lds, .seats, .extents, .mem, .coh, .fronds, .tables, .rings, .searches, .disp, .covs, .tally, .life, .log, .regs, .wire] ⊆ kl) (ke : execCascadeResolution id s = .next kt)
    (kh : Keeps kl k0 s) : Keeps kl k0 kt := by
  refine Keeps.step ?_ kh km
  unfold execCascadeResolution at ke
  cases ke
  repeat' first
    | with_reducible exact Keeps.refl _ _
    | assumption
    | with_reducible refine cascadeResolution_keeps (by decide) ?_
    | split
    | dsimp only

theorem execCascadeTimeout_keeps {kl : List Piece} {k0 : State} {id : BitVec 32} {s kt : State}
    (km : [.pins, .boot, .pkg, .lds, .seats, .extents, .mem, .coh, .fronds, .tables, .rings, .searches, .disp, .covs, .tally, .life, .log, .regs, .wire] ⊆ kl) (ke : execCascadeTimeout id s = .next kt)
    (kh : Keeps kl k0 s) : Keeps kl k0 kt := by
  refine Keeps.step ?_ kh km
  unfold execCascadeTimeout at ke
  cases ke
  repeat' first
    | with_reducible exact Keeps.refl _ _
    | assumption
    | with_reducible refine failSearch_keeps (by decide) ?_
    | with_reducible refine Keeps.ite ?_ ?_
    | split

theorem panWoken_keeps {kl : List Piece} {k0 : State} {s : State} {die : Nat} {pan : Nat} (km : [.fronds] ⊆ kl)
    (kh : Keeps kl k0 s) : Keeps kl k0 (panWoken s die pan) := by
  refine Keeps.step ?_ kh km
  unfold panWoken
  repeat' first
    | with_reducible exact Keeps.refl _ _
    | assumption
    | with_reducible refine modArr_keeps (by decide) ?_
    | with_reducible refine Keeps.ite ?_ ?_
    | split
    | dsimp only
    | (with_reducible refine Keeps.put ?_ ?_; rotate_left 1
       · (refine Only.intro fun kp khp => ?_; cases kp <;> first | with_reducible exact rfl | exact absurd (by decide) khp))
    | (with_reducible refine Keeps.set ?_ ?_; rotate_left 1
       · (refine Only.intro fun kp khp => ?_; cases kp <;> first | with_reducible exact rfl | exact absurd (by decide) khp))
    | split

theorem execCrozierWake_keeps {kl : List Piece} {k0 : State} {die : BitVec 3} {pan : BitVec 9} {s : State} {kt : State} (km : [.fronds] ⊆ kl) (ke : execCrozierWake die pan s = .next kt)
    (kh : Keeps kl k0 s) : Keeps kl k0 kt := by
  refine Keeps.step ?_ kh km
  unfold execCrozierWake at ke
  cases ke
  repeat' first
    | with_reducible exact Keeps.refl _ _
    | assumption
    | with_reducible refine panWoken_keeps (by decide) ?_
    | split
    | dsimp only

theorem runFrond_keeps {kl : List Piece} {k0 : State} {s : State} {id : Nat} {r : FRes} (km : [.pins, .boot, .pkg, .lds, .seats, .extents, .mem, .coh, .fronds, .tables, .rings, .searches, .disp, .covs, .tally, .life, .log, .regs, .wire] ⊆ kl)
    (kh : Keeps kl k0 s) : Keeps kl k0 (runFrond s id r) := by
  refine Keeps.step ?_ kh km
  unfold runFrond
  repeat' first
    | with_reducible exact Keeps.refl _ _
    | assumption
    | with_reducible refine localResult_keeps (by decide) ?_
    | with_reducible refine panWoken_keeps (by decide) ?_
    | with_reducible refine nearDataRead_keeps (by decide) ?_
    | with_reducible refine Keeps.foldl ?_ (fun _ _ => ?_)
    | with_reducible refine Keeps.foldl1 ?_ (fun _ _ => ?_)

theorem runOut_keeps {kl : List Piece} {k0 : State} {s : State} {id : Nat} (km : [.pins, .boot, .pkg, .lds, .seats, .extents, .mem, .coh, .fronds, .tables, .rings, .searches, .disp, .covs, .tally, .life, .log, .regs, .wire] ⊆ kl)
    (kh : Keeps kl k0 s) : Keeps kl k0 (runOut s id) := by
  refine Keeps.step ?_ kh km
  unfold runOut
  repeat' first
    | with_reducible exact Keeps.refl _ _
    | assumption
    | with_reducible refine cascadeResolution_keeps (by decide) ?_
    | with_reducible refine runFrond_keeps (by decide) ?_
    | with_reducible refine failSearch_keeps (by decide) ?_
    | with_reducible refine Keeps.foldl ?_ (fun _ _ => ?_)
    | with_reducible refine Keeps.foldl1 ?_ (fun _ _ => ?_)
    | split
    | dsimp only
    | (with_reducible refine Keeps.put ?_ ?_; rotate_left 1
       · (refine Only.intro fun kp khp => ?_; cases kp <;> first | with_reducible exact rfl | exact absurd (by decide) khp))
    | (with_reducible refine Keeps.set ?_ ?_; rotate_left 1
       · (refine Only.intro fun kp khp => ?_; cases kp <;> first | with_reducible exact rfl | exact absurd (by decide) khp))
    | split

theorem execTagRestore_keeps {kl : List Piece} {k0 : State} {die : BitVec 3} {pan : BitVec 9} {s kt : State}
    (km : [.fronds] ⊆ kl) (ke : execTagRestore die pan s = .next kt)
    (kh : Keeps kl k0 s) : Keeps kl k0 kt := by
  refine Keeps.step ?_ kh km
  unfold execTagRestore at ke
  cases ke
  repeat' first
    | with_reducible exact Keeps.refl _ _
    | assumption
    | with_reducible refine modArr_keeps (by decide) ?_

theorem execRowRepairRecord_keeps {kl : List Piece} {k0 : State} {die : BitVec 3} {row : BitVec 22} {s : State} {kt : State} (km : [.boot, .pkg, .lds, .fronds, .tally, .life, .log] ⊆ kl) (ke : execRowRepairRecord die row s = .next kt)
    (kh : Keeps kl k0 s) : Keeps kl k0 kt := by
  refine Keeps.step ?_ kh km
  unfold execRowRepairRecord at ke
  cases ke
  repeat' first
    | with_reducible exact Keeps.refl _ _
    | assumption
    | with_reducible refine finishRepair_keeps (by decide) ?_
    | with_reducible refine Keeps.ite ?_ ?_
    | split
    | dsimp only
    | (with_reducible refine Keeps.put ?_ ?_; rotate_left 1
       · (refine Only.intro fun kp khp => ?_; cases kp <;> first | with_reducible exact rfl | exact absurd (by decide) khp))
    | (with_reducible refine Keeps.set ?_ ?_; rotate_left 1
       · (refine Only.intro fun kp khp => ?_; cases kp <;> first | with_reducible exact rfl | exact absurd (by decide) khp))
    | split

theorem needOthers_keeps {kl : List Piece} {k0 s : State} {line hub : Nat} {kt : State} (km : [.boot, .pkg, .lds, .coh, .life, .log, .wire] ⊆ kl)
    (ke : needOthers s line hub = some kt) (kh : Keeps kl k0 s) : Keeps kl k0 kt := by
  have h : ∀ (l : List Nat) (r : Option State), (∀ u, r = some u → Keeps kl k0 u) →
      ∀ u, l.foldl (fun r h => match needAt (r.getD s) line h false with | some s' => some s' | none => r) r = some u → Keeps kl k0 u := by
    intro l
    induction l with
    | nil => exact fun r hr => hr
    | cons x xs ih =>
      intro r hr
      refine ih _ fun u hu => ?_
      dsimp only at hu
      split at hu
      · next e => cases hu; exact needAt_keeps km e (Keeps.getD kh hr)
      · exact hr u hu
  exact h _ none (by simp) kt ke

theorem askOwn_keeps {kl : List Piece} {k0 : State} {s : State} {line : Nat} {hub : Nat} {a : Nat} (km : [.pins, .boot, .pkg, .lds, .seats, .extents, .mem, .coh, .fronds, .covs, .tally, .life, .log, .regs, .wire] ⊆ kl)
    (kh : Keeps kl k0 s) : Keeps kl k0 (askOwn s line hub a) := by
  refine Keeps.step ?_ kh km
  unfold askOwn
  repeat' first
    | with_reducible exact Keeps.refl _ _
    | assumption
    | with_reducible refine arrive_keeps (by decide) ?_
    | with_reducible refine Keeps.ite ?_ ?_
    | split

theorem ownLine_keeps {kl : List Piece} {k0 : State} {s : State} {line : Nat} {hub : Nat} {a : Nat} (km : [.pins, .boot, .pkg, .lds, .seats, .extents, .mem, .coh, .fronds, .covs, .tally, .life, .log, .regs, .wire] ⊆ kl)
    (kh : Keeps kl k0 s) : Keeps kl k0 (ownLine s line hub a).1 := by
  refine Keeps.step ?_ kh km
  unfold ownLine
  repeat' first
    | with_reducible exact Keeps.refl _ _
    | assumption
    | with_reducible refine setCopy_keeps (by decide) ?_
    | with_reducible refine askOwn_keeps (by decide) ?_
    | split
    | dsimp only
    | (with_reducible refine Keeps.put ?_ ?_; rotate_left 1
       · (refine Only.intro fun kp khp => ?_; cases kp <;> first | with_reducible exact rfl | exact absurd (by decide) khp))
    | (with_reducible refine Keeps.set ?_ ?_; rotate_left 1
       · (refine Only.intro fun kp khp => ?_; cases kp <;> first | with_reducible exact rfl | exact absurd (by decide) khp))
    | split

theorem countUp_keeps {kl : List Piece} {k0 : State} {s : State} {line : Nat} {hub : Nat} {die : Nat} {word : Nat} (km : [.pins, .boot, .pkg, .lds, .mem, .coh, .fronds, .covs, .tally, .life, .log, .regs, .wire] ⊆ kl)
    (kh : Keeps kl k0 s) : Keeps kl k0 (countUp s line hub die word) := by
  refine Keeps.step ?_ kh km
  unfold countUp
  repeat' first
    | with_reducible exact Keeps.refl _ _
    | assumption
    | with_reducible refine bufPut_keeps (by decide) ?_
    | with_reducible refine invAll_keeps (by decide) ?_
    | with_reducible refine dirtied_keeps (by decide) ?_
    | with_reducible refine capCheck_keeps (by decide) ?_
    | with_reducible refine storeLine_keeps (by decide) ?_
    | with_reducible refine Keeps.foldl ?_ (fun _ _ => ?_)
    | with_reducible refine Keeps.foldl1 ?_ (fun _ _ => ?_)

theorem handCounts_keeps {kl : List Piece} {k0 : State} {s : State} {die : Nat} (km : [.fronds] ⊆ kl)
    (kh : Keeps kl k0 s) : Keeps kl k0 (handCounts s die) := by
  refine Keeps.step ?_ kh km
  unfold handCounts
  repeat' first
    | with_reducible exact Keeps.refl _ _
    | assumption
    | with_reducible refine modFrond_keeps (by decide) ?_
    | with_reducible refine Keeps.ite ?_ ?_
    | (with_reducible refine Keeps.put ?_ ?_; rotate_left 1
       · (refine Only.intro fun kp khp => ?_; cases kp <;> first | with_reducible exact rfl | exact absurd (by decide) khp))
    | (with_reducible refine Keeps.set ?_ ?_; rotate_left 1
       · (refine Only.intro fun kp khp => ?_; cases kp <;> first | with_reducible exact rfl | exact absurd (by decide) khp))
    | split

theorem execHitCounterIncrement_keeps {kl : List Piece} {k0 : State} {die : BitVec 3} {s : State} {kt : State} (km : [.pins, .boot, .pkg, .lds, .seats, .extents, .mem, .coh, .fronds, .tables, .covs, .tally, .life, .log, .regs, .wire] ⊆ kl) (ke : execHitCounterIncrement die s = .next kt)
    (kh : Keeps kl k0 s) : Keeps kl k0 kt := by
  refine Keeps.step ?_ kh km
  unfold execHitCounterIncrement at ke
  cases ke
  repeat' first
    | with_reducible exact Keeps.refl _ _
    | assumption
    | with_reducible refine modFrond_keeps (by decide) ?_
    | with_reducible refine handCounts_keeps (by decide) ?_
    | with_reducible refine wakeDie_keeps (by decide) ?_
    | with_reducible refine raiseFull_keeps (by decide) ?_
    | with_reducible refine regionLost_keeps (by decide) ?_
    | with_reducible refine raiseKeyAbsent_keeps (by decide) ?_
    | refine needOthers_keeps (by decide) ‹_ = some _› ?_
    | with_reducible refine ownLine_keeps (by decide) ?_
    | refine Keeps.fst ‹_ = (_, _)› (ownLine_keeps (by decide) ?_)
    | with_reducible refine checkCopy_keeps (by decide) ?_
    | with_reducible refine frondOp_keeps (by decide) ?_
    | with_reducible refine countUp_keeps (by decide) ?_
    | with_reducible refine Keeps.ite ?_ ?_
    | split
    | dsimp only
    | (with_reducible refine Keeps.put ?_ ?_; rotate_left 1
       · (refine Only.intro fun kp khp => ?_; cases kp <;> first | with_reducible exact rfl | exact absurd (by decide) khp))
    | (with_reducible refine Keeps.set ?_ ?_; rotate_left 1
       · (refine Only.intro fun kp khp => ?_; cases kp <;> first | with_reducible exact rfl | exact absurd (by decide) khp))
    | split

theorem homeTakes_keeps {kl : List Piece} {k0 : State} {s : State} {line : Nat} {hub : Nat} (km : [.pins, .boot, .pkg, .lds, .seats, .extents, .mem, .coh, .fronds, .covs, .tally, .life, .log, .regs, .wire] ⊆ kl)
    (kh : Keeps kl k0 s) : Keeps kl k0 (homeTakes s line hub).1 := by
  refine Keeps.step ?_ kh km
  unfold homeTakes
  repeat' first
    | with_reducible exact Keeps.refl _ _
    | assumption
    | with_reducible refine arrive_keeps (by decide) ?_
    | with_reducible refine Keeps.ite ?_ ?_
    | split
    | dsimp only
    | split

theorem atomicNow_keeps {kl : List Piece} {k0 : State} {s : State} {n : Nat} {u : Sub} {seat : Nat} {a : Nat} {hub : Nat} (km : [.boot, .pkg, .lds, .seats, .extents, .mem, .coh, .rings, .covs, .tally, .life, .log, .regs, .wire] ⊆ kl)
    (kh : Keeps kl k0 s) : Keeps kl k0 (atomicNow s n u seat a hub) := by
  refine Keeps.step ?_ kh km
  unfold atomicNow
  repeat' first
    | with_reducible exact Keeps.refl _ _
    | assumption
    | with_reducible refine checkLine_keeps (by decide) ?_
    | with_reducible refine startSub_keeps (by decide) ?_
    | with_reducible refine finish_keeps (by decide) ?_
    | refine admitKnown_keeps (by decide) ‹_ = some _› ?_
    | with_reducible refine countRefused_keeps (by decide) ?_
    | with_reducible refine countAccess_keeps (by decide) ?_
    | with_reducible refine bookOp_keeps (by decide) ?_
    | with_reducible refine devWrite_keeps (by decide) ?_
    | with_reducible refine Keeps.ite ?_ ?_
    | split
    | dsimp only
    | (with_reducible refine Keeps.put ?_ ?_; rotate_left 1
       · (refine Only.intro fun kp khp => ?_; cases kp <;> first | with_reducible exact rfl | exact absurd (by decide) khp))
    | (with_reducible refine Keeps.set ?_ ?_; rotate_left 1
       · (refine Only.intro fun kp khp => ?_; cases kp <;> first | with_reducible exact rfl | exact absurd (by decide) khp))
    | split

theorem atomic_keeps {kl : List Piece} {k0 s : State} {n : Nat} {u : Sub} {seat : Nat}
    (km : [.pins, .boot, .pkg, .lds, .seats, .extents, .mem, .coh, .fronds, .rings, .covs, .tally, .life, .log, .regs, .wire] ⊆ kl) (kh : Keeps kl k0 s) : Keeps kl k0 (atomic s n u seat) := by
  unfold atomic
  extract_lets s0
  have k1 : Keeps kl k0 s0 := startSub_keeps (List.Subset.trans (by decide) km) kh
  clear_value s0
  have hf : ∀ {t : State} {st d}, Keeps kl k0 t → Keeps kl k0 (finish t n u st d) := fun h =>
    finish_keeps (List.Subset.trans (by decide) km) h
  refine Keeps.ite (hf k1) ?_
  extract_lets addr
  split
  · exact hf k1
  · extract_lets line hub
    refine Keeps.ite (hf (raiseKeyAbsent_keeps (List.Subset.trans (by decide) km) k1)) (Keeps.ite (hf k1) (Keeps.ite kh ?_))
    split
    · next e => exact askedSub_keeps (List.Subset.trans (by decide) km) (needOthers_keeps (List.Subset.trans (by decide) km) e kh)
    · have k2 := homeTakes_keeps (line := line) (hub := hub) (List.Subset.trans (by decide) km) kh
      split
      next e =>
      rw [e] at k2
      exact Keeps.ite (atomicNow_keeps (List.Subset.trans (by decide) km) k2) (askedSub_keeps (List.Subset.trans (by decide) km) k2)

theorem runAtomic_keeps {kl : List Piece} {k0 s : State} {n op : Nat}
    (km : [.pins, .boot, .pkg, .lds, .seats, .extents, .mem, .coh, .fronds, .rings, .covs, .tally, .life, .log, .regs, .wire] ⊆ kl)
    (kh : Keeps kl k0 s) : Keeps kl k0 (runAtomic s n op) := by
  refine Keeps.step ?_ kh km
  unfold runAtomic
  repeat' first
    | with_reducible exact Keeps.refl _ _
    | assumption
    | with_reducible refine atomic_keeps (by decide) ?_
    | with_reducible refine Keeps.ite ?_ ?_
    | split

theorem execFetchAdd_keeps {kl : List Piece} {k0 : State} {ring : BitVec 10} {s kt : State}
    (km : [.pins, .boot, .pkg, .lds, .seats, .extents, .mem, .coh, .fronds, .rings, .covs, .tally, .life, .log, .regs, .wire] ⊆ kl) (ke : execFetchAdd ring s = .next kt)
    (kh : Keeps kl k0 s) : Keeps kl k0 kt := by
  refine Keeps.step ?_ kh km
  unfold execFetchAdd at ke
  cases ke
  repeat' first
    | with_reducible exact Keeps.refl _ _
    | assumption
    | with_reducible refine runAtomic_keeps (by decide) ?_

theorem execSwap_keeps {kl : List Piece} {k0 : State} {ring : BitVec 10} {s kt : State}
    (km : [.pins, .boot, .pkg, .lds, .seats, .extents, .mem, .coh, .fronds, .rings, .covs, .tally, .life, .log, .regs, .wire] ⊆ kl) (ke : execSwap ring s = .next kt)
    (kh : Keeps kl k0 s) : Keeps kl k0 kt := by
  refine Keeps.step ?_ kh km
  unfold execSwap at ke
  cases ke
  repeat' first
    | with_reducible exact Keeps.refl _ _
    | assumption
    | with_reducible refine runAtomic_keeps (by decide) ?_

theorem execCmpSwap_keeps {kl : List Piece} {k0 : State} {ring : BitVec 10} {s kt : State}
    (km : [.pins, .boot, .pkg, .lds, .seats, .extents, .mem, .coh, .fronds, .rings, .covs, .tally, .life, .log, .regs, .wire] ⊆ kl) (ke : execCmpSwap ring s = .next kt)
    (kh : Keeps kl k0 s) : Keeps kl k0 kt := by
  refine Keeps.step ?_ kh km
  unfold execCmpSwap at ke
  cases ke
  repeat' first
    | with_reducible exact Keeps.refl _ _
    | assumption
    | with_reducible refine runAtomic_keeps (by decide) ?_

end Sys2Proof.Machine
end

