-- ==== Sys2Proof/Laws/Tables.lean ====
section
/-!
SUPPORT. What the operations of Machine/Tables.lean keep.
-/
set_option linter.unusedTactic false
set_option linter.unreachableTactic false
namespace Sys2Proof.Machine

theorem runCmd_keeps {kl : List Piece} {k0 s : State} {n op : Nat} {f : State → Sub → Nat → State}
    (kf : ∀ u seat, Keeps kl k0 (f s u seat)) (kh : Keeps kl k0 s) : Keeps kl k0 (runCmd s n op f) := by
  unfold runCmd
  split
  · exact Keeps.ite (kf _ _) kh
  · exact kh

theorem refuse_keeps {kl : List Piece} {k0 s : State} {n : Nat} {u : Sub} {st : BitVec 8}
    (km : [.boot, .pkg, .lds, .extents, .mem, .coh, .rings, .covs, .life, .log, .regs, .wire] ⊆ kl)
    (kh : Keeps kl k0 s) : Keeps kl k0 (refuse s n u st) := by
  refine Keeps.step ?_ kh km
  unfold refuse
  repeat' first
    | with_reducible exact Keeps.refl _ _
    | assumption
    | with_reducible refine finish_keeps (by decide) ?_
    | with_reducible refine startSub_keeps (by decide) ?_

theorem pay_keeps {kl : List Piece} {k0 s : State} {n : Nat} {u : Sub} {seat c : Nat}
    {work : State → State × Nat × BitVec 8 × Word64} (km : [.boot, .pkg, .lds, .seats, .extents, .mem, .coh, .rings, .covs, .tally, .life, .log, .regs, .wire] ⊆ kl)
    (kf : ∀ t, Keeps kl k0 t → Keeps kl k0 (work t).1) (kh : Keeps kl k0 s) : Keeps kl k0 (pay s n u seat c work) := by
  unfold pay
  dsimp only
  split
  · exact finish_keeps (List.Subset.trans (by decide) km) (countRefused_keeps (List.Subset.trans (by decide) km)
      (startSub_keeps (List.Subset.trans (by decide) km) kh))
  · next e =>
    exact finish_keeps (List.Subset.trans (by decide) km) (settle_keeps (List.Subset.trans (by decide) km) (kf _
      (bookOp_keeps (List.Subset.trans (by decide) km) (startSub_keeps (List.Subset.trans (by decide) km)
        (admitWork_keeps (List.Subset.trans (by decide) km) e kh)))))

theorem bookArray_keeps {kl : List Piece} {k0 s : State} {dies : List Nat} {writes valids : Nat}
    (km : [.tally] ⊆ kl)
    (kh : Keeps kl k0 s) : Keeps kl k0 (bookArray s dies writes valids) := by
  refine Keeps.step ?_ kh km
  unfold bookArray
  repeat' first
    | with_reducible exact Keeps.refl _ _
    | assumption
    | with_reducible refine bookOp_keeps (by decide) ?_
    | with_reducible refine Keeps.foldl ?_ (fun _ _ => ?_)

theorem payArray_keeps {kl : List Piece} {k0 s : State} {n : Nat} {u : Sub} {seat : Nat} {dies : List Nat}
    {writes valids : Nat} {work : State → State × Except (BitVec 8 × Word64) (Nat × Nat × Word64)}
    (km : [.pins, .boot, .pkg, .lds, .seats, .extents, .mem, .coh, .fronds, .rings, .covs, .tally, .life, .log, .regs, .wire] ⊆ kl) (kf : ∀ t, Keeps kl k0 t → Keeps kl k0 (work t).1)
    (kh : Keeps kl k0 s) : Keeps kl k0 (payArray s n u seat dies writes valids work) := by
  unfold payArray
  refine Keeps.ite (pay_keeps (List.Subset.trans (by decide) km) (fun _ h => h) kh) ?_
  split
  · next e => exact needFronds_keeps (List.Subset.trans (by decide) km) e kh
  · refine pay_keeps (List.Subset.trans (by decide) km) (fun t h => ?_) kh
    have hw := kf t h
    split
    · next e => rw [e] at hw; exact bookArray_keeps (List.Subset.trans (by decide) km) hw
    · next e => rw [e] at hw; exact hw

theorem meetPart_keeps {kl : List Piece} {k0 : State} {s : State} {who : Nat} {a : Nat} {n : Nat} (km : [.boot, .pkg, .lds, .extents, .mem, .coh, .life, .log] ⊆ kl)
    (kh : Keeps kl k0 s) : Keeps kl k0 (meetPart s who a n) := by
  refine Keeps.step ?_ kh km
  unfold meetPart
  repeat' first
    | with_reducible exact Keeps.refl _ _
    | assumption
    | with_reducible refine meetRegion_keeps (by decide) ?_
    | with_reducible refine Keeps.ite ?_ ?_
    | split

theorem touchSession_keeps {kl : List Piece} {k0 s : State} {seat : Nat}
    (km : [.seats] ⊆ kl)
    (kh : Keeps kl k0 s) : Keeps kl k0 (touchSession s seat) := by
  refine Keeps.step ?_ kh km
  unfold touchSession
  repeat' first
    | with_reducible exact Keeps.refl _ _
    | assumption
    | with_reducible refine modSeat_keeps (by decide) ?_

theorem tableCreate_keeps {kl : List Piece} {k0 : State} {s : State} {n : Nat} {u : Sub} {seat : Nat} (km : [.pins, .boot, .pkg, .lds, .seats, .extents, .mem, .coh, .fronds, .tables, .rings, .covs, .tally, .life, .log, .regs, .wire] ⊆ kl)
    (kh : Keeps kl k0 s) : Keeps kl k0 (tableCreate s n u seat) := by
  refine Keeps.step ?_ kh km
  unfold tableCreate
  repeat' first
    | with_reducible exact Keeps.refl _ _
    | assumption
    | with_reducible refine refuse_keeps (by decide) ?_
    | with_reducible refine payArray_keeps (by decide) (fun _ _ => ?_) ?_
    | with_reducible refine touchSession_keeps (by decide) ?_
    | with_reducible refine Keeps.ite ?_ ?_
    | split
    | dsimp only
    | (with_reducible refine Keeps.put ?_ ?_; rotate_left 1
       · (refine Only.intro fun kp khp => ?_; cases kp <;> first | with_reducible exact rfl | exact absurd (by decide) khp))
    | (with_reducible refine Keeps.set ?_ ?_; rotate_left 1
       · (refine Only.intro fun kp khp => ?_; cases kp <;> first | with_reducible exact rfl | exact absurd (by decide) khp))
    | split

theorem execTableCreate_keeps {kl : List Piece} {k0 : State} {ring : BitVec 10} {s kt : State}
    (km : [.pins, .boot, .pkg, .lds, .seats, .extents, .mem, .coh, .fronds, .tables, .rings, .covs, .tally, .life, .log, .regs, .wire] ⊆ kl) (ke : execTableCreate ring s = .next kt)
    (kh : Keeps kl k0 s) : Keeps kl k0 kt := by
  refine Keeps.step ?_ kh km
  unfold execTableCreate at ke
  cases ke
  repeat' first
    | with_reducible exact Keeps.refl _ _
    | assumption
    | with_reducible refine runCmd_keeps (fun _ _ => ?_) ?_
    | with_reducible refine tableCreate_keeps (by decide) ?_

theorem putTable_keeps {kl : List Piece} {k0 s : State} {n : Nat} {t : Table}
    (km : [.tables] ⊆ kl)
    (kh : Keeps kl k0 s) : Keeps kl k0 (putTable s n t) := by
  refine Keeps.step ?_ kh km
  unfold putTable
  repeat' first
    | with_reducible exact Keeps.refl _ _
    | assumption
    | (with_reducible refine Keeps.put ?_ ?_; rotate_left 1
       · (refine Only.intro fun kp khp => ?_; cases kp <;> first | with_reducible exact rfl | exact absurd (by decide) khp))

theorem tableRange_keeps {kl : List Piece} {k0 : State} {s : State} {n : Nat} {u : Sub} {seat : Nat} (km : [.pins, .boot, .pkg, .lds, .seats, .extents, .mem, .coh, .fronds, .tables, .rings, .covs, .tally, .life, .log, .regs, .wire] ⊆ kl)
    (kh : Keeps kl k0 s) : Keeps kl k0 (tableRange s n u seat) := by
  refine Keeps.step ?_ kh km
  unfold tableRange
  repeat' first
    | with_reducible exact Keeps.refl _ _
    | assumption
    | with_reducible refine refuse_keeps (by decide) ?_
    | with_reducible refine leave_keeps (by decide) ?_
    | with_reducible refine payArray_keeps (by decide) (fun _ _ => ?_) ?_
    | with_reducible refine freePan_keeps (by decide) ?_
    | with_reducible refine roomResolve_keeps (by decide) ?_
    | with_reducible refine touchSession_keeps (by decide) ?_
    | with_reducible refine putTable_keeps (by decide) ?_
    | with_reducible refine Keeps.ite ?_ ?_
    | with_reducible refine Keeps.foldl ?_ (fun _ _ => ?_)
    | with_reducible refine Keeps.foldl1 ?_ (fun _ _ => ?_)
    | split
    | dsimp only
    | (with_reducible refine Keeps.put ?_ ?_; rotate_left 1
       · (refine Only.intro fun kp khp => ?_; cases kp <;> first | with_reducible exact rfl | exact absurd (by decide) khp))
    | (with_reducible refine Keeps.set ?_ ?_; rotate_left 1
       · (refine Only.intro fun kp khp => ?_; cases kp <;> first | with_reducible exact rfl | exact absurd (by decide) khp))
    | split

theorem execTableRange_keeps {kl : List Piece} {k0 : State} {ring : BitVec 10} {s kt : State}
    (km : [.pins, .boot, .pkg, .lds, .seats, .extents, .mem, .coh, .fronds, .tables, .rings, .covs, .tally, .life, .log, .regs, .wire] ⊆ kl) (ke : execTableRange ring s = .next kt)
    (kh : Keeps kl k0 s) : Keeps kl k0 kt := by
  refine Keeps.step ?_ kh km
  unfold execTableRange at ke
  cases ke
  repeat' first
    | with_reducible exact Keeps.refl _ _
    | assumption
    | with_reducible refine runCmd_keeps (fun _ _ => ?_) ?_
    | with_reducible refine tableRange_keeps (by decide) ?_

theorem moveOver_keeps {kl : List Piece} {k0 : State} {s : State} {m : Move} {st : BitVec 8} {data : Nat} (km : [.boot, .pkg, .lds, .extents, .mem, .coh, .rings, .covs, .life, .log, .regs, .wire] ⊆ kl)
    (kh : Keeps kl k0 s) : Keeps kl k0 (moveOver s m st data) := by
  refine Keeps.step ?_ kh km
  unfold moveOver
  repeat' first
    | with_reducible exact Keeps.refl _ _
    | assumption
    | with_reducible refine finish_keeps (by decide) ?_
    | with_reducible refine Keeps.ite ?_ ?_
    | split
    | dsimp only
    | (with_reducible refine Keeps.put ?_ ?_; rotate_left 1
       · (refine Only.intro fun kp khp => ?_; cases kp <;> first | with_reducible exact rfl | exact absurd (by decide) khp))
    | (with_reducible refine Keeps.set ?_ ?_; rotate_left 1
       · (refine Only.intro fun kp khp => ?_; cases kp <;> first | with_reducible exact rfl | exact absurd (by decide) khp))
    | split

theorem stopMoves_keeps {kl : List Piece} {k0 s : State} {dies : List Nat} {table : Nat} {st : BitVec 8} {mark : Nat}
    (km : [.boot, .pkg, .lds, .extents, .mem, .coh, .fronds, .rings, .covs, .life, .log, .regs, .wire] ⊆ kl)
    (kh : Keeps kl k0 s) : Keeps kl k0 (stopMoves s dies table st mark) := by
  refine Keeps.step ?_ kh km
  unfold stopMoves
  repeat' first
    | with_reducible exact Keeps.refl _ _
    | assumption
    | with_reducible refine modFrond_keeps (by decide) ?_
    | with_reducible refine moveOver_keeps (by decide) ?_
    | with_reducible refine Keeps.ite ?_ ?_
    | with_reducible refine Keeps.foldl ?_ (fun _ _ => ?_)

theorem jobOver_keeps {kl : List Piece} {k0 : State} {s : State} {id : Nat} {j : Job} {st : BitVec 8} {data : Nat} {actual : Nat} (km : [.boot, .pkg, .lds, .seats, .extents, .mem, .coh, .rings, .jobs, .covs, .tally, .life, .log, .regs, .wire] ⊆ kl)
    (kh : Keeps kl k0 s) : Keeps kl k0 (jobOver s id j st data actual) := by
  refine Keeps.step ?_ kh km
  unfold jobOver
  repeat' first
    | with_reducible exact Keeps.refl _ _
    | assumption
    | with_reducible refine settle_keeps (by decide) ?_
    | with_reducible refine finish_keeps (by decide) ?_
    | split
    | dsimp only
    | (with_reducible refine Keeps.put ?_ ?_; rotate_left 1
       · (refine Only.intro fun kp khp => ?_; cases kp <;> first | with_reducible exact rfl | exact absurd (by decide) khp))
    | (with_reducible refine Keeps.set ?_ ?_; rotate_left 1
       · (refine Only.intro fun kp khp => ?_; cases kp <;> first | with_reducible exact rfl | exact absurd (by decide) khp))
    | split

theorem tableDestroy_keeps {kl : List Piece} {k0 : State} {s : State} {n : Nat} {u : Sub} {seat : Nat} (km : [.boot, .pkg, .lds, .seats, .extents, .mem, .coh, .fronds, .tables, .rings, .jobs, .covs, .tally, .life, .log, .regs, .wire] ⊆ kl)
    (kh : Keeps kl k0 s) : Keeps kl k0 (tableDestroy s n u seat) := by
  refine Keeps.step ?_ kh km
  unfold tableDestroy
  repeat' first
    | with_reducible exact Keeps.refl _ _
    | assumption
    | with_reducible refine refuse_keeps (by decide) ?_
    | refine admitKnown_keeps (by decide) ‹_ = some _› ?_
    | with_reducible refine finish_keeps (by decide) ?_
    | with_reducible refine countRefused_keeps (by decide) ?_
    | with_reducible refine startSub_keeps (by decide) ?_
    | with_reducible refine touchSession_keeps (by decide) ?_
    | with_reducible refine bookOp_keeps (by decide) ?_
    | with_reducible refine putTable_keeps (by decide) ?_
    | with_reducible refine stopMoves_keeps (by decide) ?_
    | with_reducible refine jobOver_keeps (by decide) ?_
    | with_reducible refine Keeps.foldl ?_ (fun _ _ => ?_)
    | with_reducible refine Keeps.foldl1 ?_ (fun _ _ => ?_)
    | split
    | dsimp only
    | (with_reducible refine Keeps.put ?_ ?_; rotate_left 1
       · (refine Only.intro fun kp khp => ?_; cases kp <;> first | with_reducible exact rfl | exact absurd (by decide) khp))
    | (with_reducible refine Keeps.set ?_ ?_; rotate_left 1
       · (refine Only.intro fun kp khp => ?_; cases kp <;> first | with_reducible exact rfl | exact absurd (by decide) khp))
    | split

theorem execTableDestroy_keeps {kl : List Piece} {k0 : State} {ring : BitVec 10} {s kt : State}
    (km : [.boot, .pkg, .lds, .seats, .extents, .mem, .coh, .fronds, .tables, .rings, .jobs, .covs, .tally, .life, .log, .regs, .wire] ⊆ kl) (ke : execTableDestroy ring s = .next kt)
    (kh : Keeps kl k0 s) : Keeps kl k0 kt := by
  refine Keeps.step ?_ kh km
  unfold execTableDestroy at ke
  cases ke
  repeat' first
    | with_reducible exact Keeps.refl _ _
    | assumption
    | with_reducible refine runCmd_keeps (fun _ _ => ?_) ?_
    | with_reducible refine tableDestroy_keeps (by decide) ?_

theorem execTableDestroyDone_keeps {kl : List Piece} {k0 : State} {table : BitVec 10} {s : State} {kt : State} (km : [.boot, .pkg, .lds, .extents, .mem, .coh, .fronds, .tables, .rings, .searches, .covs, .life, .log, .regs, .wire] ⊆ kl) (ke : execTableDestroyDone table s = .next kt)
    (kh : Keeps kl k0 s) : Keeps kl k0 kt := by
  refine Keeps.step ?_ kh km
  unfold execTableDestroyDone at ke
  cases ke
  repeat' first
    | with_reducible exact Keeps.refl _ _
    | assumption
    | with_reducible refine clearShadow_keeps (by decide) ?_
    | with_reducible refine freePan_keeps (by decide) ?_
    | with_reducible refine finish_keeps (by decide) ?_
    | with_reducible refine Keeps.ite ?_ ?_
    | with_reducible refine Keeps.foldl ?_ (fun _ _ => ?_)
    | with_reducible refine Keeps.foldl1 ?_ (fun _ _ => ?_)
    | split
    | dsimp only
    | (with_reducible refine Keeps.put ?_ ?_; rotate_left 1
       · (refine Only.intro fun kp khp => ?_; cases kp <;> first | with_reducible exact rfl | exact absurd (by decide) khp))
    | (with_reducible refine Keeps.set ?_ ?_; rotate_left 1
       · (refine Only.intro fun kp khp => ?_; cases kp <;> first | with_reducible exact rfl | exact absurd (by decide) khp))
    | split

theorem entryCmd_keeps {kl : List Piece} {k0 s : State} {n : Nat} {u : Sub} {seat : Nat} {form changes needFree : Bool}
    {counts : Table → Option (BitVec 8)} {buf : Table → Option (Nat × Bool)} {writes valids : Table → Nat}
    {work : Table → Nat → Nat → State → State × Except (BitVec 8 × Word64) (Nat × Nat × Word64)}
    (km : [.pins, .boot, .pkg, .lds, .seats, .extents, .mem, .coh, .fronds, .rings, .covs, .tally, .life, .log, .regs, .wire] ⊆ kl)
    (kf : ∀ tb die row t, Keeps kl k0 t → Keeps kl k0 (work tb die row t).1)
    (kh : Keeps kl k0 s) : Keeps kl k0 (entryCmd s n u seat form counts changes needFree buf writes valids work) := by
  have hr : ∀ st, Keeps kl k0 (refuse s n u st) := fun st => refuse_keeps (List.Subset.trans (by decide) km) kh
  have run : ∀ t die q row, Keeps kl k0 (entryCmd.run s n u seat changes needFree buf writes valids work t die q row) := by
    intro t die q row
    unfold entryCmd.run
    refine Keeps.ite kh (Keeps.ite kh (payArray_keeps (List.Subset.trans (by decide) km) (fun x hx => ?_) kh))
    split
    · exact hx
    · split
      · exact hx
      · split
        · exact hx
        · exact kf _ _ _ _ hx
  unfold entryCmd
  dsimp only
  split
  · exact hr _
  · exact hr _
  · split
    · exact hr _
    · exact hr _
    · split
      · refine Keeps.ite (hr _) ?_
        split
        · next e => exact needRegion_keeps (List.Subset.trans (by decide) km) e kh
        · exact Keeps.ite kh (run _ _ _ _)
      · exact run _ _ _ _

theorem onCopies_keeps {kl : List Piece} {k0 s : State} {die pan seat : Nat} {f : State → Nat → State}
    (km : [.seats, .fronds, .tally] ⊆ kl) (kf : ∀ t d, Keeps kl k0 t → Keeps kl k0 (f t d)) (kh : Keeps kl k0 s) :
    Keeps kl k0 (onCopies s die pan seat f) := by
  unfold onCopies
  generalize copies s die = xs
  induction xs generalizing s with
  | nil => exact kh
  | cons x xs ih => exact ih (kf _ _ (writePan_keeps (List.Subset.trans (by decide) km) kh))

theorem execEntryInvalidate_keeps {kl : List Piece} {k0 : State} {ring : BitVec 10} {s : State} {kt : State} (km : [.pins, .boot, .pkg, .lds, .seats, .extents, .mem, .coh, .fronds, .rings, .covs, .tally, .life, .log, .regs, .wire] ⊆ kl) (ke : execEntryInvalidate ring s = .next kt)
    (kh : Keeps kl k0 s) : Keeps kl k0 kt := by
  refine Keeps.step ?_ kh km
  unfold execEntryInvalidate at ke
  cases ke
  repeat' first
    | with_reducible exact Keeps.refl _ _
    | assumption
    | with_reducible refine runCmd_keeps (fun _ _ => ?_) ?_
    | with_reducible refine entryCmd_keeps (by decide) (fun _ _ _ _ _ => ?_) ?_
    | with_reducible refine onCopies_keeps (by decide) (fun _ _ _ => ?_) ?_
    | with_reducible refine invalidateEntry_keeps (by decide) ?_
    | with_reducible refine Keeps.ite ?_ ?_
    | split
    | dsimp only
    | split

theorem execEntryWrite_keeps {kl : List Piece} {k0 : State} {ring : BitVec 10} {s : State} {kt : State} (km : [.pins, .boot, .pkg, .lds, .seats, .extents, .mem, .coh, .fronds, .rings, .covs, .tally, .life, .log, .regs, .wire] ⊆ kl) (ke : execEntryWrite ring s = .next kt)
    (kh : Keeps kl k0 s) : Keeps kl k0 kt := by
  refine Keeps.step ?_ kh km
  unfold execEntryWrite at ke
  cases ke
  repeat' first
    | with_reducible exact Keeps.refl _ _
    | assumption
    | with_reducible refine runCmd_keeps (fun _ _ => ?_) ?_
    | with_reducible refine entryCmd_keeps (by decide) (fun _ _ _ _ _ => ?_) ?_
    | with_reducible refine onCopies_keeps (by decide) (fun _ _ _ => ?_) ?_
    | with_reducible refine writeRow_keeps (by decide) ?_
    | with_reducible refine Keeps.ite ?_ ?_
    | with_reducible refine Keeps.foldl ?_ (fun _ _ => ?_)
    | with_reducible refine Keeps.foldl1 ?_ (fun _ _ => ?_)
    | split
    | dsimp only
    | split

theorem validateStep_keeps {kl : List Piece} {k0 : State} {s : State} {t : Table} {die : Nat} {row : Nat} {seat : Nat} {kt : State} (km : [.boot, .pkg, .lds, .seats, .fronds, .tally, .life, .log] ⊆ kl) (ke : validateStep s t die row seat = .ok kt)
    (kh : Keeps kl k0 s) : Keeps kl k0 kt := by
  refine Keeps.step ?_ kh km
  unfold validateStep at ke
  try dsimp only at ke
  repeat' (first | split at ke | dsimp only at ke)
  all_goals first | (obtain ⟨_, _, rfl⟩ := Option.map_eq_some_iff.1 ke) | cases ke | skip
  all_goals repeat' first
    | with_reducible exact Keeps.refl _ _
    | assumption
    | with_reducible refine onCopies_keeps (by decide) (fun _ _ _ => ?_) ?_
    | with_reducible refine setValid_keeps (by decide) ?_
    | with_reducible refine Keeps.ite ?_ ?_
    | split
    | dsimp only
    | split

theorem execEntryValidate_keeps {kl : List Piece} {k0 : State} {ring : BitVec 10} {s : State} {kt : State} (km : [.pins, .boot, .pkg, .lds, .seats, .extents, .mem, .coh, .fronds, .rings, .covs, .tally, .life, .log, .regs, .wire] ⊆ kl) (ke : execEntryValidate ring s = .next kt)
    (kh : Keeps kl k0 s) : Keeps kl k0 kt := by
  refine Keeps.step ?_ kh km
  unfold execEntryValidate at ke
  cases ke
  repeat' first
    | with_reducible exact Keeps.refl _ _
    | assumption
    | unfold execEntryValidate.go
    | with_reducible refine runCmd_keeps (fun _ _ => ?_) ?_
    | with_reducible refine checkRow_keeps (by decide) ?_
    | with_reducible refine rebuildRecord_keeps (by decide) ?_
    | with_reducible refine entryCmd_keeps (by decide) (fun _ _ _ _ _ => ?_) ?_
    | refine validateStep_keeps (by decide) ‹_ = Except.ok _› ?_
    | with_reducible refine Keeps.ite ?_ ?_
    | with_reducible refine Keeps.foldl ?_ (fun _ _ => ?_)
    | with_reducible refine Keeps.foldl1 ?_ (fun _ _ => ?_)
    | split
    | dsimp only
    | (with_reducible refine Keeps.put ?_ ?_; rotate_left 1
       · (refine Only.intro fun kp khp => ?_; cases kp <;> first | with_reducible exact rfl | exact absurd (by decide) khp))
    | (with_reducible refine Keeps.set ?_ ?_; rotate_left 1
       · (refine Only.intro fun kp khp => ?_; cases kp <;> first | with_reducible exact rfl | exact absurd (by decide) khp))
    | split

theorem execNearWrite_keeps {kl : List Piece} {k0 : State} {ring : BitVec 10} {s : State} {kt : State} (km : [.pins, .boot, .pkg, .lds, .seats, .extents, .mem, .coh, .fronds, .rings, .covs, .tally, .life, .log, .regs, .wire] ⊆ kl) (ke : execNearWrite ring s = .next kt)
    (kh : Keeps kl k0 s) : Keeps kl k0 kt := by
  refine Keeps.step ?_ kh km
  unfold execNearWrite at ke
  cases ke
  repeat' first
    | with_reducible exact Keeps.refl _ _
    | assumption
    | with_reducible refine runCmd_keeps (fun _ _ => ?_) ?_
    | with_reducible refine entryCmd_keeps (by decide) (fun _ _ _ _ _ => ?_) ?_
    | with_reducible refine onCopies_keeps (by decide) (fun _ _ _ => ?_) ?_
    | with_reducible refine writeNear_keeps (by decide) ?_
    | with_reducible refine Keeps.ite ?_ ?_
    | split
    | dsimp only
    | split

theorem storeEntry_keeps {kl : List Piece} {k0 : State} {s : State} {t : Table} {die : Nat} {row : Nat} {rs : List Shadow} {seat : Nat} (km : [.boot, .pkg, .lds, .seats, .fronds, .tally, .life, .log] ⊆ kl)
    (kh : Keeps kl k0 s) : Keeps kl k0 (storeEntry s t die row rs seat).1 := by
  refine Keeps.step ?_ kh km
  unfold storeEntry
  repeat' first
    | with_reducible exact Keeps.refl _ _
    | assumption
    | with_reducible refine onCopies_keeps (by decide) (fun _ _ _ => ?_) ?_
    | with_reducible refine invalidateEntry_keeps (by decide) ?_
    | with_reducible refine writeRow_keeps (by decide) ?_
    | with_reducible refine setValid_keeps (by decide) ?_
    | with_reducible refine Keeps.ite ?_ ?_
    | with_reducible refine Keeps.getD ?_ (fun _ _ => ?_)
    | with_reducible refine Keeps.foldl ?_ (fun _ _ => ?_)
    | with_reducible refine Keeps.foldl1 ?_ (fun _ _ => ?_)
    | split
    | dsimp only
    | split

theorem execEntrySet_keeps {kl : List Piece} {k0 : State} {ring : BitVec 10} {s : State} {kt : State} (km : [.pins, .boot, .pkg, .lds, .seats, .extents, .mem, .coh, .fronds, .rings, .covs, .tally, .life, .log, .regs, .wire] ⊆ kl) (ke : execEntrySet ring s = .next kt)
    (kh : Keeps kl k0 s) : Keeps kl k0 kt := by
  refine Keeps.step ?_ kh km
  unfold execEntrySet at ke
  cases ke
  repeat' first
    | with_reducible exact Keeps.refl _ _
    | assumption
    | with_reducible refine runCmd_keeps (fun _ _ => ?_) ?_
    | with_reducible refine entryCmd_keeps (by decide) (fun _ _ _ _ _ => ?_) ?_
    | with_reducible refine meetRegion_keeps (by decide) ?_
    | with_reducible refine storeEntry_keeps (by decide) ?_
    | refine Keeps.fst ‹_ = (_, _)› (storeEntry_keeps (by decide) ?_)
    | with_reducible refine Keeps.ite ?_ ?_
    | split
    | dsimp only
    | (with_reducible refine Keeps.put ?_ ?_; rotate_left 1
       · (refine Only.intro fun kp khp => ?_; cases kp <;> first | with_reducible exact rfl | exact absurd (by decide) khp))
    | (with_reducible refine Keeps.set ?_ ?_; rotate_left 1
       · (refine Only.intro fun kp khp => ?_; cases kp <;> first | with_reducible exact rfl | exact absurd (by decide) khp))
    | split

theorem outEntry_keeps {kl : List Piece} {k0 : State} {s : State} {t : Table} {die : Nat} {first : Nat} (km : [.boot, .pkg, .lds, .fronds, .life, .log] ⊆ kl)
    (kh : Keeps kl k0 s) : Keeps kl k0 (outEntry s t die first).1 := by
  refine Keeps.step ?_ kh km
  unfold outEntry
  repeat' first
    | with_reducible exact Keeps.refl _ _
    | assumption
    | with_reducible refine rebuildRecord_keeps (by decide) ?_
    | with_reducible refine Keeps.ite ?_ ?_
    | with_reducible refine Keeps.foldl ?_ (fun _ _ => ?_)
    | with_reducible refine Keeps.foldl1 ?_ (fun _ _ => ?_)
    | split
    | dsimp only
    | split

theorem execEntryRead_keeps {kl : List Piece} {k0 : State} {ring : BitVec 10} {s : State} {kt : State} (km : [.pins, .boot, .pkg, .lds, .seats, .extents, .mem, .coh, .fronds, .rings, .covs, .tally, .life, .log, .regs, .wire] ⊆ kl) (ke : execEntryRead ring s = .next kt)
    (kh : Keeps kl k0 s) : Keeps kl k0 kt := by
  refine Keeps.step ?_ kh km
  unfold execEntryRead at ke
  cases ke
  repeat' first
    | with_reducible exact Keeps.refl _ _
    | assumption
    | with_reducible refine runCmd_keeps (fun _ _ => ?_) ?_
    | with_reducible refine entryCmd_keeps (by decide) (fun _ _ _ _ _ => ?_) ?_
    | with_reducible refine meetPart_keeps (by decide) ?_
    | with_reducible refine outEntry_keeps (by decide) ?_
    | refine Keeps.fst ‹_ = (_, _)› (outEntry_keeps (by decide) ?_)
    | with_reducible refine devWrite_keeps (by decide) ?_
    | with_reducible refine Keeps.ite ?_ ?_
    | split
    | dsimp only
    | split

theorem setTags_keeps {kl : List Piece} {k0 s : State} {die : Nat} {tags : List (Nat × Word × Word)}
    (km : [.fronds, .regs] ⊆ kl)
    (kh : Keeps kl k0 s) : Keeps kl k0 (setTags s die tags) := by
  refine Keeps.step ?_ kh km
  unfold setTags
  repeat' first
    | with_reducible exact Keeps.refl _ _
    | assumption
    | with_reducible refine covered_keeps (by decide) ?_
    | with_reducible refine setReg_keeps (by decide) ?_
    | with_reducible refine modRegs_keeps (by decide) ?_
    | with_reducible refine modArr_keeps (by decide) ?_
    | with_reducible refine Keeps.foldl ?_ (fun _ _ => ?_)

theorem sluiceEnd_keeps {kl : List Piece} {k0 : State} {s : State} {die : Nat} {pans : List Nat} {result : Nat} (km : [.regs, .wire] ⊆ kl)
    (kh : Keeps kl k0 s) : Keeps kl k0 (sluiceEnd s die pans result) := by
  refine Keeps.step ?_ kh km
  unfold sluiceEnd
  repeat' first
    | with_reducible exact Keeps.refl _ _
    | assumption
    | with_reducible refine commitEnd_keeps (by decide) ?_
    | with_reducible refine Keeps.foldl ?_ (fun _ _ => ?_)
    | with_reducible refine Keeps.foldl1 ?_ (fun _ _ => ?_)

theorem execSluiceSet_keeps {kl : List Piece} {k0 : State} {ring : BitVec 10} {s : State} {kt : State} (km : [.pins, .boot, .pkg, .lds, .seats, .extents, .mem, .coh, .fronds, .rings, .covs, .tally, .life, .log, .regs, .wire] ⊆ kl) (ke : execSluiceSet ring s = .next kt)
    (kh : Keeps kl k0 s) : Keeps kl k0 kt := by
  refine Keeps.step ?_ kh km
  unfold execSluiceSet at ke
  cases ke
  repeat' first
    | with_reducible exact Keeps.refl _ _
    | assumption
    | with_reducible refine runCmd_keeps (fun _ _ => ?_) ?_
    | with_reducible refine refuse_keeps (by decide) ?_
    | with_reducible refine payArray_keeps (by decide) (fun _ _ => ?_) ?_
    | with_reducible refine sluiceEnd_keeps (by decide) ?_
    | with_reducible refine setTags_keeps (by decide) ?_
    | with_reducible refine Keeps.ite ?_ ?_
    | with_reducible refine Keeps.foldl ?_ (fun _ _ => ?_)
    | with_reducible refine Keeps.foldl1 ?_ (fun _ _ => ?_)
    | split
    | dsimp only
    | (with_reducible refine Keeps.put ?_ ?_; rotate_left 1
       · (refine Only.intro fun kp khp => ?_; cases kp <;> first | with_reducible exact rfl | exact absurd (by decide) khp))
    | (with_reducible refine Keeps.set ?_ ?_; rotate_left 1
       · (refine Only.intro fun kp khp => ?_; cases kp <;> first | with_reducible exact rfl | exact absurd (by decide) khp))
    | split

end Sys2Proof.Machine
end

