-- ==== Sys2Proof/Laws/Rake.lean ====
section
/-!
SUPPORT. What the operations of Machine/Rake.lean keep.
-/
set_option linter.unusedTactic false
set_option linter.unreachableTactic false
namespace Sys2Proof.Machine

theorem rakeMove_keeps {kl : List Piece} {k0 : State} {s : State} {n : Nat} {u : Sub} {seat : Nat} (km : [.boot, .pkg, .lds, .seats, .extents, .mem, .coh, .fronds, .rings, .covs, .tally, .life, .log, .regs, .wire] ⊆ kl)
    (kh : Keeps kl k0 s) : Keeps kl k0 (rakeMove s n u seat) := by
  refine Keeps.step ?_ kh km
  unfold rakeMove
  repeat' first
    | with_reducible exact Keeps.refl _ _
    | assumption
    | with_reducible refine refuse_keeps (by decide) ?_
    | refine admitKnown_keeps (by decide) ‹_ = some _› ?_
    | with_reducible refine finish_keeps (by decide) ?_
    | with_reducible refine countRefused_keeps (by decide) ?_
    | with_reducible refine startSub_keeps (by decide) ?_
    | with_reducible refine bookOp_keeps (by decide) ?_
    | with_reducible refine modFrond_keeps (by decide) ?_
    | with_reducible refine Keeps.ite ?_ ?_
    | with_reducible refine Keeps.foldl ?_ (fun _ _ => ?_)
    | with_reducible refine Keeps.foldl1 ?_ (fun _ _ => ?_)
    | split
    | dsimp only
    | (with_reducible refine Keeps.put ?_ ?_; rotate_left 1
       · (refine Only.intro fun kp khp => ?_; cases kp <;> first | with_reducible exact rfl | exact absurd (by decide) khp))
    | (with_reducible refine Keeps.set ?_ ?_; rotate_left 1
       · (refine Only.intro fun kp khp => ?_; cases kp <;> first | with_reducible exact rfl | exact absurd (by decide) khp))
    | split

theorem execRakeMove_keeps {kl : List Piece} {k0 : State} {ring : BitVec 10} {s kt : State}
    (km : [.boot, .pkg, .lds, .seats, .extents, .mem, .coh, .fronds, .rings, .covs, .tally, .life, .log, .regs, .wire] ⊆ kl) (ke : execRakeMove ring s = .next kt)
    (kh : Keeps kl k0 s) : Keeps kl k0 kt := by
  refine Keeps.step ?_ kh km
  unfold execRakeMove at ke
  cases ke
  repeat' first
    | with_reducible exact Keeps.refl _ _
    | assumption
    | with_reducible refine runCmd_keeps (fun _ _ => ?_) ?_
    | with_reducible refine rakeMove_keeps (by decide) ?_

theorem execRakeMoveStart_keeps {kl : List Piece} {k0 : State} {die : BitVec 3} {s kt : State}
    (km : [.pins, .boot, .pkg, .lds, .extents, .mem, .coh, .fronds, .rings, .covs, .tally, .life, .log, .regs, .wire] ⊆ kl) (ke : execRakeMoveStart die s = .next kt)
    (kh : Keeps kl k0 s) : Keeps kl k0 kt := by
  refine Keeps.step ?_ kh km
  unfold execRakeMoveStart at ke
  cases ke
  repeat' first
    | with_reducible exact Keeps.refl _ _
    | assumption
    | with_reducible refine wakeDie_keeps (by decide) ?_
    | with_reducible refine modFrond_keeps (by decide) ?_
    | with_reducible refine moveOver_keeps (by decide) ?_
    | with_reducible refine Keeps.ite ?_ ?_
    | split

theorem copyEntry_keeps {kl : List Piece} {k0 : State} {s : State} {die : Nat} {a : Nat} {b : Nat} {n : Nat} (km : [.boot, .pkg, .lds, .fronds, .life, .log] ⊆ kl)
    (kh : Keeps kl k0 s) : Keeps kl k0 (copyEntry s die a b n) := by
  refine Keeps.step ?_ kh km
  unfold copyEntry
  repeat' first
    | with_reducible exact Keeps.refl _ _
    | assumption
    | with_reducible refine writeRow_keeps (by decide) ?_
    | with_reducible refine putRow_keeps (by decide) ?_
    | with_reducible refine Keeps.foldl ?_ (fun _ _ => ?_)
    | with_reducible refine Keeps.foldl1 ?_ (fun _ _ => ?_)
    | (with_reducible refine Keeps.put ?_ ?_; rotate_left 1
       · (refine Only.intro fun kp khp => ?_; cases kp <;> first | with_reducible exact rfl | exact absurd (by decide) khp))
    | (with_reducible refine Keeps.set ?_ ?_; rotate_left 1
       · (refine Only.intro fun kp khp => ?_; cases kp <;> first | with_reducible exact rfl | exact absurd (by decide) khp))

theorem leaveSlot_keeps {kl : List Piece} {k0 : State} {s : State} {die : Nat} {a : Nat} {n : Nat} (km : [.fronds] ⊆ kl)
    (kh : Keeps kl k0 s) : Keeps kl k0 (leaveSlot s die a n) := by
  refine Keeps.step ?_ kh km
  unfold leaveSlot
  repeat' first
    | with_reducible exact Keeps.refl _ _
    | assumption
    | with_reducible refine putRow_keeps (by decide) ?_
    | with_reducible refine Keeps.foldl ?_ (fun _ _ => ?_)
    | with_reducible refine Keeps.foldl1 ?_ (fun _ _ => ?_)
    | (with_reducible refine Keeps.put ?_ ?_; rotate_left 1
       · (refine Only.intro fun kp khp => ?_; cases kp <;> first | with_reducible exact rfl | exact absurd (by decide) khp))
    | (with_reducible refine Keeps.set ?_ ?_; rotate_left 1
       · (refine Only.intro fun kp khp => ?_; cases kp <;> first | with_reducible exact rfl | exact absurd (by decide) khp))

theorem mergeCounters_keeps {kl : List Piece} {k0 s : State} {t : Table} {table die a b : Nat} (km : [.boot, .pkg, .lds, .extents, .mem, .coh, .tables, .covs, .life, .log, .wire] ⊆ kl)
    (kh : Keeps kl k0 s) : Keeps kl k0 (mergeCounters s t table die a b).1 := by
  unfold mergeCounters
  extract_lets wa wb s1 v
  have k1 : Keeps kl k0 s1 := meetRegion_keeps (List.Subset.trans (by decide) km)
    (meetRegion_keeps (List.Subset.trans (by decide) km) kh)
  clear_value s1 v
  split
  · exact regionLost_keeps (List.Subset.trans (by decide) km) kh
  · split
    · next e =>
      obtain ⟨w, -, hw⟩ := List.exists_of_findSome?_eq_some e
      exact needLine_keeps (List.Subset.trans (by decide) km) hw kh
    · split
      · exact kh
      · split
        · dsimp only; exact raiseFull_keeps (List.Subset.trans (by decide) km) k1
        · exact devWrite_keeps (List.Subset.trans (by decide) km) (devWrite_keeps (List.Subset.trans (by decide) km) k1)

theorem moveEntry_keeps {kl : List Piece} {k0 : State} {s : State} {t : Table} {die : Nat} {m : Move} {a : Nat} {b : Nat} (km : [.boot, .pkg, .lds, .seats, .fronds, .tally, .life, .log] ⊆ kl)
    (kh : Keeps kl k0 s) : Keeps kl k0 (moveEntry s t die m a b) := by
  refine Keeps.step ?_ kh km
  unfold moveEntry
  repeat' first
    | with_reducible exact Keeps.refl _ _
    | assumption
    | with_reducible refine writePan_keeps (by decide) ?_
    | with_reducible refine copyEntry_keeps (by decide) ?_
    | with_reducible refine setValid_keeps (by decide) ?_
    | with_reducible refine leaveSlot_keeps (by decide) ?_
    | with_reducible refine modTally_keeps (by decide) ?_
    | with_reducible refine chargeBg_keeps (by decide) ?_
    | with_reducible refine bookOp_keeps (by decide) ?_
    | with_reducible refine modFrond_keeps (by decide) ?_
    | with_reducible refine Keeps.ite ?_ ?_
    | (with_reducible refine Keeps.put ?_ ?_; rotate_left 1
       · (refine Only.intro fun kp khp => ?_; cases kp <;> first | with_reducible exact rfl | exact absurd (by decide) khp))
    | (with_reducible refine Keeps.set ?_ ?_; rotate_left 1
       · (refine Only.intro fun kp khp => ?_; cases kp <;> first | with_reducible exact rfl | exact absurd (by decide) khp))
    | split

theorem execRakeEntryStep_keeps {kl : List Piece} {k0 : State} {die : BitVec 3} {s : State} {kt : State} (km : [.pins, .boot, .pkg, .lds, .seats, .extents, .mem, .coh, .fronds, .tables, .rings, .covs, .tally, .life, .log, .regs, .wire] ⊆ kl) (ke : execRakeEntryStep die s = .next kt)
    (kh : Keeps kl k0 s) : Keeps kl k0 kt := by
  refine Keeps.step ?_ kh km
  unfold execRakeEntryStep at ke
  cases ke
  repeat' first
    | with_reducible exact Keeps.refl _ _
    | assumption
    | with_reducible refine wakeDie_keeps (by decide) ?_
    | with_reducible refine modFrond_keeps (by decide) ?_
    | with_reducible refine checkRow_keeps (by decide) ?_
    | with_reducible refine mergeCounters_keeps (by decide) ?_
    | refine Keeps.fst ‹_ = (_, _)› (mergeCounters_keeps (by decide) ?_)
    | with_reducible refine moveEntry_keeps (by decide) ?_
    | with_reducible refine moveOver_keeps (by decide) ?_
    | with_reducible refine Keeps.ite ?_ ?_
    | split
    | dsimp only
    | (with_reducible refine Keeps.put ?_ ?_; rotate_left 1
       · (refine Only.intro fun kp khp => ?_; cases kp <;> first | with_reducible exact rfl | exact absurd (by decide) khp))
    | (with_reducible refine Keeps.set ?_ ?_; rotate_left 1
       · (refine Only.intro fun kp khp => ?_; cases kp <;> first | with_reducible exact rfl | exact absurd (by decide) khp))
    | split

theorem rakeDie_keeps {kl : List Piece} {k0 s : State} {n : Nat} {u : Sub} {seat : Nat} {update : Bool}
    {f : State → Nat → State × Nat} (km : [.boot, .pkg, .lds, .seats, .extents, .mem, .coh, .rings, .covs, .tally, .life, .log, .regs, .wire] ⊆ kl)
    (kf : ∀ t d, Keeps kl k0 t → Keeps kl k0 (f t d).1) (kh : Keeps kl k0 s) :
    Keeps kl k0 (rakeDie s n u seat update f) := by
  have hr : ∀ st, Keeps kl k0 (refuse s n u st) := fun st => refuse_keeps (List.Subset.trans (by decide) km) kh
  unfold rakeDie
  split
  · exact hr _
  · exact hr _
  · exact Keeps.ite (hr _) (pay_keeps (List.Subset.trans (by decide) km) (fun t h => kf t _ h) kh)

theorem execRakeQuery_keeps {kl : List Piece} {k0 : State} {ring : BitVec 10} {s kt : State}
    (km : [.boot, .pkg, .lds, .seats, .extents, .mem, .coh, .rings, .covs, .tally, .life, .log, .regs, .wire] ⊆ kl) (ke : execRakeQuery ring s = .next kt)
    (kh : Keeps kl k0 s) : Keeps kl k0 kt := by
  refine Keeps.step ?_ kh km
  unfold execRakeQuery at ke
  cases ke
  repeat' first
    | with_reducible exact Keeps.refl _ _
    | assumption
    | with_reducible refine runCmd_keeps (fun _ _ => ?_) ?_
    | with_reducible refine rakeDie_keeps (by decide) (fun _ _ _ => ?_) ?_

theorem execRakeCancel_keeps {kl : List Piece} {k0 : State} {ring : BitVec 10} {s kt : State}
    (km : [.boot, .pkg, .lds, .seats, .extents, .mem, .coh, .fronds, .rings, .covs, .tally, .life, .log, .regs, .wire] ⊆ kl) (ke : execRakeCancel ring s = .next kt)
    (kh : Keeps kl k0 s) : Keeps kl k0 kt := by
  refine Keeps.step ?_ kh km
  unfold execRakeCancel at ke
  cases ke
  repeat' first
    | with_reducible exact Keeps.refl _ _
    | assumption
    | with_reducible refine runCmd_keeps (fun _ _ => ?_) ?_
    | with_reducible refine rakeDie_keeps (by decide) (fun _ _ _ => ?_) ?_
    | with_reducible refine stopMoves_keeps (by decide) ?_

theorem openJob_keeps {kl : List Piece} {k0 : State} {s : State} {k : JobKind} {n : Nat} {u : Sub} {seat : Nat} {die : Nat} {start : Nat} {count : Nat} {buf : Nat} {cost : Nat} {fromG : Bool} {image : List (Nat × BitVec 256)} (km : [.jobs, .nextId] ⊆ kl)
    (kh : Keeps kl k0 s) : Keeps kl k0 (openJob s k n u seat die start count buf cost fromG image) := by
  refine Keeps.step ?_ kh km
  unfold openJob
  repeat' first
    | with_reducible exact Keeps.refl _ _
    | assumption
    | (with_reducible refine Keeps.put ?_ ?_; rotate_left 1
       · (refine Only.intro fun kp khp => ?_; cases kp <;> first | with_reducible exact rfl | exact absurd (by decide) khp))
    | (with_reducible refine Keeps.set ?_ ?_; rotate_left 1
       · (refine Only.intro fun kp khp => ?_; cases kp <;> first | with_reducible exact rfl | exact absurd (by decide) khp))

theorem execBulkLoad_keeps {kl : List Piece} {k0 : State} {ring : BitVec 10} {s kt : State}
    (km : [.boot, .pkg, .lds, .seats, .extents, .mem, .coh, .rings, .jobs, .nextId, .covs, .tally, .life, .log, .regs, .wire] ⊆ kl) (ke : execBulkLoad ring s = .next kt)
    (kh : Keeps kl k0 s) : Keeps kl k0 kt := by
  refine Keeps.step ?_ kh km
  unfold execBulkLoad at ke
  cases ke
  repeat' first
    | with_reducible exact Keeps.refl _ _
    | assumption
    | with_reducible refine runCmd_keeps (fun _ _ => ?_) ?_
    | with_reducible refine refuse_keeps (by decide) ?_
    | refine admitWork_keeps (by decide) ‹_ = some (_, _)› ?_
    | with_reducible refine finish_keeps (by decide) ?_
    | with_reducible refine countRefused_keeps (by decide) ?_
    | with_reducible refine startSub_keeps (by decide) ?_
    | with_reducible refine bookOp_keeps (by decide) ?_
    | with_reducible refine settle_keeps (by decide) ?_
    | with_reducible refine openJob_keeps (by decide) ?_
    | with_reducible refine Keeps.ite ?_ ?_
    | split
    | dsimp only

theorem execBulkLoadStep_keeps {kl : List Piece} {k0 : State} {id : BitVec 32} {s : State} {kt : State} (km : [.pins, .boot, .pkg, .lds, .seats, .extents, .mem, .coh, .fronds, .rings, .jobs, .covs, .tally, .life, .log, .regs, .wire] ⊆ kl) (ke : execBulkLoadStep id s = .next kt)
    (kh : Keeps kl k0 s) : Keeps kl k0 kt := by
  refine Keeps.step ?_ kh km
  unfold execBulkLoadStep at ke
  cases ke
  repeat' first
    | with_reducible exact Keeps.refl _ _
    | assumption
    | refine needFronds_keeps (by decide) ‹_ = some _› ?_
    | refine needRegion_keeps (by decide) ‹_ = some _› ?_
    | with_reducible refine jobOver_keeps (by decide) ?_
    | with_reducible refine meetRegion_keeps (by decide) ?_
    | with_reducible refine take_keeps (by decide) ?_
    | with_reducible refine storeEntry_keeps (by decide) ?_
    | refine Keeps.fst ‹_ = (_, _)› (storeEntry_keeps (by decide) ?_)
    | with_reducible refine bookArray_keeps (by decide) ?_
    | with_reducible refine Keeps.ite ?_ ?_
    | split
    | dsimp only
    | (with_reducible refine Keeps.put ?_ ?_; rotate_left 1
       · (refine Only.intro fun kp khp => ?_; cases kp <;> first | with_reducible exact rfl | exact absurd (by decide) khp))
    | (with_reducible refine Keeps.set ?_ ?_; rotate_left 1
       · (refine Only.intro fun kp khp => ?_; cases kp <;> first | with_reducible exact rfl | exact absurd (by decide) khp))
    | split

theorem needServing_keeps {kl : List Piece} {k0 : State} {s : State} {die : Nat} {kt : State} (km : [.pins, .fronds, .tally, .regs, .wire] ⊆ kl) (ke : needServing s die = some kt)
    (kh : Keeps kl k0 s) : Keeps kl k0 kt := by
  refine Keeps.step ?_ kh km
  unfold needServing at ke
  try dsimp only at ke
  repeat' (first | split at ke | dsimp only at ke)
  all_goals first | (obtain ⟨_, _, rfl⟩ := Option.map_eq_some_iff.1 ke) | cases ke | skip
  all_goals repeat' first
    | with_reducible exact Keeps.refl _ _
    | assumption
    | refine needFronds_keeps (by decide) ‹_ = some _› ?_
    | with_reducible refine Keeps.ite ?_ ?_
    | split
    | dsimp only
    | split

theorem execSnapshot_keeps {kl : List Piece} {k0 : State} {ring : BitVec 10} {s : State} {kt : State} (km : [.pins, .boot, .pkg, .lds, .seats, .extents, .mem, .coh, .fronds, .rings, .jobs, .nextId, .covs, .tally, .life, .log, .regs, .wire] ⊆ kl) (ke : execSnapshot ring s = .next kt)
    (kh : Keeps kl k0 s) : Keeps kl k0 kt := by
  refine Keeps.step ?_ kh km
  unfold execSnapshot at ke
  cases ke
  repeat' first
    | with_reducible exact Keeps.refl _ _
    | assumption
    | with_reducible refine runCmd_keeps (fun _ _ => ?_) ?_
    | with_reducible refine refuse_keeps (by decide) ?_
    | refine needServing_keeps (by decide) ‹_ = some _› ?_
    | refine admitWork_keeps (by decide) ‹_ = some (_, _)› ?_
    | with_reducible refine finish_keeps (by decide) ?_
    | with_reducible refine countRefused_keeps (by decide) ?_
    | with_reducible refine startSub_keeps (by decide) ?_
    | with_reducible refine bookOp_keeps (by decide) ?_
    | with_reducible refine settle_keeps (by decide) ?_
    | with_reducible refine meetPart_keeps (by decide) ?_
    | with_reducible refine outEntry_keeps (by decide) ?_
    | refine Keeps.fst ‹_ = (_, _)› (outEntry_keeps (by decide) ?_)
    | with_reducible refine openJob_keeps (by decide) ?_
    | with_reducible refine Keeps.ite ?_ ?_
    | with_reducible refine Keeps.foldl ?_ (fun _ _ => ?_)
    | with_reducible refine Keeps.foldl1 ?_ (fun _ _ => ?_)
    | split
    | dsimp only
    | (with_reducible refine Keeps.put ?_ ?_; rotate_left 1
       · (refine Only.intro fun kp khp => ?_; cases kp <;> first | with_reducible exact rfl | exact absurd (by decide) khp))
    | (with_reducible refine Keeps.set ?_ ?_; rotate_left 1
       · (refine Only.intro fun kp khp => ?_; cases kp <;> first | with_reducible exact rfl | exact absurd (by decide) khp))
    | split

theorem imageStep_keeps {kl : List Piece} {k0 : State} {s : State} {id : Nat} {j : Job} {len : Nat} (km : [.boot, .pkg, .lds, .seats, .extents, .mem, .coh, .rings, .jobs, .covs, .tally, .life, .log, .regs, .wire] ⊆ kl)
    (kh : Keeps kl k0 s) : Keeps kl k0 (imageStep s id j len) := by
  refine Keeps.step ?_ kh km
  unfold imageStep
  repeat' first
    | with_reducible exact Keeps.refl _ _
    | assumption
    | with_reducible refine jobOver_keeps (by decide) ?_
    | refine needRegion_keeps (by decide) ‹_ = some _› ?_
    | with_reducible refine devWrite_keeps (by decide) ?_
    | with_reducible refine Keeps.ite ?_ ?_
    | with_reducible refine Keeps.getD ?_ (fun _ _ => ?_)
    | split
    | dsimp only
    | (with_reducible refine Keeps.put ?_ ?_; rotate_left 1
       · (refine Only.intro fun kp khp => ?_; cases kp <;> first | with_reducible exact rfl | exact absurd (by decide) khp))
    | (with_reducible refine Keeps.set ?_ ?_; rotate_left 1
       · (refine Only.intro fun kp khp => ?_; cases kp <;> first | with_reducible exact rfl | exact absurd (by decide) khp))
    | split

theorem execSnapshotStep_keeps {kl : List Piece} {k0 : State} {id : BitVec 32} {s kt : State}
    (km : [.boot, .pkg, .lds, .seats, .extents, .mem, .coh, .rings, .jobs, .covs, .tally, .life, .log, .regs, .wire] ⊆ kl) (ke : execSnapshotStep id s = .next kt)
    (kh : Keeps kl k0 s) : Keeps kl k0 kt := by
  refine Keeps.step ?_ kh km
  unfold execSnapshotStep at ke
  cases ke
  repeat' first
    | with_reducible exact Keeps.refl _ _
    | assumption
    | with_reducible refine imageStep_keeps (by decide) ?_
    | with_reducible refine Keeps.ite ?_ ?_
    | split

theorem execStats_keeps {kl : List Piece} {k0 : State} {ring : BitVec 10} {s : State} {kt : State} (km : [.boot, .pkg, .lds, .seats, .extents, .mem, .coh, .tables, .rings, .jobs, .nextId, .covs, .tally, .life, .log, .regs, .wire] ⊆ kl) (ke : execStats ring s = .next kt)
    (kh : Keeps kl k0 s) : Keeps kl k0 kt := by
  refine Keeps.step ?_ kh km
  unfold execStats at ke
  cases ke
  repeat' first
    | with_reducible exact Keeps.refl _ _
    | assumption
    | with_reducible refine runCmd_keeps (fun _ _ => ?_) ?_
    | with_reducible refine refuse_keeps (by decide) ?_
    | with_reducible refine pay_keeps (by decide) (fun _ _ => ?_) ?_
    | refine admitWork_keeps (by decide) ‹_ = some (_, _)› ?_
    | with_reducible refine finish_keeps (by decide) ?_
    | with_reducible refine countRefused_keeps (by decide) ?_
    | with_reducible refine startSub_keeps (by decide) ?_
    | with_reducible refine bookOp_keeps (by decide) ?_
    | with_reducible refine meetPart_keeps (by decide) ?_
    | with_reducible refine settle_keeps (by decide) ?_
    | with_reducible refine openJob_keeps (by decide) ?_
    | with_reducible refine putTable_keeps (by decide) ?_
    | with_reducible refine Keeps.ite ?_ ?_
    | with_reducible refine Keeps.getD ?_ (fun _ _ => ?_)
    | split
    | dsimp only
    | (with_reducible refine Keeps.put ?_ ?_; rotate_left 1
       · (refine Only.intro fun kp khp => ?_; cases kp <;> first | with_reducible exact rfl | exact absurd (by decide) khp))
    | (with_reducible refine Keeps.set ?_ ?_; rotate_left 1
       · (refine Only.intro fun kp khp => ?_; cases kp <;> first | with_reducible exact rfl | exact absurd (by decide) khp))
    | split

theorem execStatsStep_keeps {kl : List Piece} {k0 : State} {id : BitVec 32} {s kt : State}
    (km : [.boot, .pkg, .lds, .seats, .extents, .mem, .coh, .rings, .jobs, .covs, .tally, .life, .log, .regs, .wire] ⊆ kl) (ke : execStatsStep id s = .next kt)
    (kh : Keeps kl k0 s) : Keeps kl k0 kt := by
  refine Keeps.step ?_ kh km
  unfold execStatsStep at ke
  cases ke
  repeat' first
    | with_reducible exact Keeps.refl _ _
    | assumption
    | with_reducible refine imageStep_keeps (by decide) ?_
    | with_reducible refine Keeps.ite ?_ ?_
    | split

theorem execCounterRead_keeps {kl : List Piece} {k0 : State} {ring : BitVec 10} {s : State} {kt : State} (km : [.boot, .pkg, .lds, .seats, .extents, .mem, .coh, .rings, .covs, .tally, .life, .log, .regs, .wire] ⊆ kl) (ke : execCounterRead ring s = .next kt)
    (kh : Keeps kl k0 s) : Keeps kl k0 kt := by
  refine Keeps.step ?_ kh km
  unfold execCounterRead at ke
  cases ke
  repeat' first
    | with_reducible exact Keeps.refl _ _
    | assumption
    | with_reducible refine runCmd_keeps (fun _ _ => ?_) ?_
    | with_reducible refine refuse_keeps (by decide) ?_
    | refine needRegion_keeps (by decide) ‹_ = some _› ?_
    | with_reducible refine pay_keeps (by decide) (fun _ _ => ?_) ?_
    | with_reducible refine meetPart_keeps (by decide) ?_
    | with_reducible refine meetRegion_keeps (by decide) ?_
    | with_reducible refine devWrite_keeps (by decide) ?_
    | with_reducible refine Keeps.ite ?_ ?_
    | split
    | dsimp only
    | (with_reducible refine Keeps.put ?_ ?_; rotate_left 1
       · (refine Only.intro fun kp khp => ?_; cases kp <;> first | with_reducible exact rfl | exact absurd (by decide) khp))
    | (with_reducible refine Keeps.set ?_ ?_; rotate_left 1
       · (refine Only.intro fun kp khp => ?_; cases kp <;> first | with_reducible exact rfl | exact absurd (by decide) khp))
    | split

theorem execCounterClear_keeps {kl : List Piece} {k0 : State} {ring : BitVec 10} {s : State} {kt : State} (km : [.boot, .pkg, .lds, .seats, .extents, .mem, .coh, .rings, .covs, .tally, .life, .log, .regs, .wire] ⊆ kl) (ke : execCounterClear ring s = .next kt)
    (kh : Keeps kl k0 s) : Keeps kl k0 kt := by
  refine Keeps.step ?_ kh km
  unfold execCounterClear at ke
  cases ke
  repeat' first
    | with_reducible exact Keeps.refl _ _
    | assumption
    | with_reducible refine runCmd_keeps (fun _ _ => ?_) ?_
    | with_reducible refine refuse_keeps (by decide) ?_
    | refine needRegion_keeps (by decide) ‹_ = some _› ?_
    | with_reducible refine pay_keeps (by decide) (fun _ _ => ?_) ?_
    | with_reducible refine meetRegion_keeps (by decide) ?_
    | with_reducible refine devWrite_keeps (by decide) ?_
    | with_reducible refine Keeps.ite ?_ ?_
    | with_reducible refine Keeps.foldl ?_ (fun _ _ => ?_)
    | with_reducible refine Keeps.foldl1 ?_ (fun _ _ => ?_)
    | split
    | dsimp only
    | (with_reducible refine Keeps.put ?_ ?_; rotate_left 1
       · (refine Only.intro fun kp khp => ?_; cases kp <;> first | with_reducible exact rfl | exact absurd (by decide) khp))
    | (with_reducible refine Keeps.set ?_ ?_; rotate_left 1
       · (refine Only.intro fun kp khp => ?_; cases kp <;> first | with_reducible exact rfl | exact absurd (by decide) khp))
    | split

end Sys2Proof.Machine
end

