-- ==== Sys2Proof/Laws/Covenant.lean ====
section
/-!
SUPPORT. What the operations of Machine/Covenant.lean keep.
-/
set_option linter.unusedTactic false
set_option linter.unreachableTactic false
namespace Sys2Proof.Machine

theorem lacks_keeps {kl : List Piece} {k0 : State} {s : State} {id : Nat} {energy : Bool} {slots : Bool} (km : [.covs] ⊆ kl)
    (kh : Keeps kl k0 s) : Keeps kl k0 (lacks s id energy slots) := by
  refine Keeps.step ?_ kh km
  unfold lacks
  repeat' first
    | with_reducible exact Keeps.refl _ _
    | assumption
    | with_reducible refine modCov_keeps (by decide) ?_
    | (with_reducible refine Keeps.put ?_ ?_; rotate_left 1
       · (refine Only.intro fun kp khp => ?_; cases kp <;> first | with_reducible exact rfl | exact absurd (by decide) khp))
    | (with_reducible refine Keeps.set ?_ ?_; rotate_left 1
       · (refine Only.intro fun kp khp => ?_; cases kp <;> first | with_reducible exact rfl | exact absurd (by decide) khp))

theorem settleCov_keeps {kl : List Piece} {k0 s : State} {id : Nat} {c : Cov} {given reason : Nat}
    (km : [.boot, .pkg, .lds, .covs, .life, .log] ⊆ kl)
    (kh : Keeps kl k0 s) : Keeps kl k0 (settleCov s id c given reason) := by
  refine Keeps.step ?_ kh km
  unfold settleCov
  repeat' first
    | with_reducible exact Keeps.refl _ _
    | assumption
    | with_reducible refine covShort_keeps (by decide) ?_
    | with_reducible refine covFull_keeps (by decide) ?_
    | with_reducible refine Keeps.ite ?_ ?_

theorem resolveCov_keeps {kl : List Piece} {k0 : State} {s : State} {cs : List Claim} {reason : Nat} {id : Nat} {c : Cov} (km : [.boot, .pkg, .lds, .covs, .life, .log] ⊆ kl)
    (kh : Keeps kl k0 s) : Keeps kl k0 (resolveCov s cs reason id c) := by
  refine Keeps.step ?_ kh km
  unfold resolveCov
  repeat' first
    | with_reducible exact Keeps.refl _ _
    | assumption
    | with_reducible refine lacks_keeps (by decide) ?_
    | with_reducible refine settleCov_keeps (by decide) ?_
    | with_reducible refine covShort_keeps (by decide) ?_
    | with_reducible refine covFull_keeps (by decide) ?_
    | with_reducible refine Keeps.ite ?_ ?_
    | split
    | dsimp only
    | (with_reducible refine Keeps.put ?_ ?_; rotate_left 1
       · (refine Only.intro fun kp khp => ?_; cases kp <;> first | with_reducible exact rfl | exact absurd (by decide) khp))
    | (with_reducible refine Keeps.set ?_ ?_; rotate_left 1
       · (refine Only.intro fun kp khp => ?_; cases kp <;> first | with_reducible exact rfl | exact absurd (by decide) khp))
    | split

theorem covResolve_keeps {kl : List Piece} {k0 : State} {s : State} (km : [.boot, .pkg, .lds, .covs, .life, .log] ⊆ kl)
    (kh : Keeps kl k0 s) : Keeps kl k0 (covResolve s) := by
  refine Keeps.step ?_ kh km
  unfold covResolve
  repeat' first
    | with_reducible exact Keeps.refl _ _
    | assumption
    | with_reducible refine resolveCov_keeps (by decide) ?_
    | with_reducible refine Keeps.foldl ?_ (fun _ _ => ?_)
    | with_reducible refine Keeps.foldl1 ?_ (fun _ _ => ?_)

theorem resolveAll_keeps {kl : List Piece} {k0 : State} {s : State} {reason : Nat} (km : [.boot, .pkg, .lds, .covs, .life, .log] ⊆ kl)
    (kh : Keeps kl k0 s) : Keeps kl k0 (resolveAll s reason) := by
  refine Keeps.step ?_ kh km
  unfold resolveAll
  repeat' first
    | with_reducible exact Keeps.refl _ _
    | assumption
    | with_reducible refine covResolve_keeps (by decide) ?_
    | with_reducible refine roomResolve_keeps (by decide) ?_

theorem dropCov_keeps {kl : List Piece} {k0 s : State} {id flag : Nat}
    (km : [.boot, .pkg, .lds, .covs, .life, .log] ⊆ kl)
    (kh : Keeps kl k0 s) : Keeps kl k0 (dropCov s id flag) := by
  refine Keeps.step ?_ kh km
  unfold dropCov
  repeat' first
    | with_reducible exact Keeps.refl _ _
    | assumption
    | with_reducible refine covEnd_keeps (by decide) ?_
    | (with_reducible refine Keeps.put ?_ ?_; rotate_left 1
       · (refine Only.intro fun kp khp => ?_; cases kp <;> first | with_reducible exact rfl | exact absurd (by decide) khp))

end Sys2Proof.Machine
end

