-- ==== Sys2Proof/Laws/Seats.lean ====
section
/-!
SUPPORT. What the operations of Machine/Seats.lean keep.
-/
set_option linter.unusedTactic false
set_option linter.unreachableTactic false
namespace Sys2Proof.Machine

theorem endSession_keeps {kl : List Piece} {k0 s : State} {n : Nat}
    (km : [.seats, .steward] ⊆ kl)
    (kh : Keeps kl k0 s) : Keeps kl k0 (endSession s n) := by
  refine Keeps.step ?_ kh km
  unfold endSession
  repeat' first
    | with_reducible exact Keeps.refl _ _
    | assumption
    | with_reducible refine modSeat_keeps (by decide) ?_
    | with_reducible refine Keeps.ite ?_ ?_
    | split
    | dsimp only
    | (with_reducible refine Keeps.put ?_ ?_; rotate_left 1
       · (refine Only.intro fun kp khp => ?_; cases kp <;> first | with_reducible exact rfl | exact absurd (by decide) khp))

theorem endSessions_keeps {kl : List Piece} {k0 s : State}
    (km : [.seats, .steward] ⊆ kl)
    (kh : Keeps kl k0 s) : Keeps kl k0 (endSessions s) := by
  refine Keeps.step ?_ kh km
  unfold endSessions
  repeat' first
    | with_reducible exact Keeps.refl _ _
    | assumption
    | with_reducible refine endSession_keeps (by decide) ?_
    | with_reducible refine Keeps.foldl ?_ (fun _ _ => ?_)

theorem adoptOwnerless_keeps {kl : List Piece} {k0 s : State}
    (km : [.keys, .tables] ⊆ kl)
    (kh : Keeps kl k0 s) : Keeps kl k0 (adoptOwnerless s) := by
  refine Keeps.step ?_ kh km
  unfold adoptOwnerless
  repeat' first
    | with_reducible exact Keeps.refl _ _
    | assumption
    | with_reducible refine Keeps.ite ?_ ?_
    | split
    | dsimp only
    | (with_reducible refine Keeps.put ?_ ?_; rotate_left 1
       · (refine Only.intro fun kp khp => ?_; cases kp <;> first | with_reducible exact rfl | exact absurd (by decide) khp))

theorem setSteward_keeps {kl : List Piece} {k0 s : State} {n how : Nat}
    (km : [.boot, .pkg, .lds, .steward, .keys, .tables, .life, .log] ⊆ kl)
    (kh : Keeps kl k0 s) : Keeps kl k0 (setSteward s n how) := by
  refine Keeps.step ?_ kh km
  unfold setSteward
  repeat' first
    | with_reducible exact Keeps.refl _ _
    | assumption
    | with_reducible refine event_keeps (by decide) ?_
    | with_reducible refine adoptOwnerless_keeps (by decide) ?_
    | with_reducible refine Keeps.getD ?_ (fun _ _ => ?_)
    | (with_reducible refine Keeps.put ?_ ?_; rotate_left 1
       · (refine Only.intro fun kp khp => ?_; cases kp <;> first | with_reducible exact rfl | exact absurd (by decide) khp))

theorem bootExtent_keeps {kl : List Piece} {k0 s : State} {slot seat : Nat}
    (km : [.lds, .extents, .mem, .coh, .wire] ⊆ kl)
    (kh : Keeps kl k0 s) : Keeps kl k0 (bootExtent s slot seat) := by
  refine Keeps.step ?_ kh km
  unfold bootExtent
  repeat' first
    | with_reducible exact Keeps.refl _ _
    | assumption
    | with_reducible refine addExtents_keeps (by decide) ?_
    | with_reducible refine Keeps.ite ?_ ?_

theorem bootExtents_keeps {kl : List Piece} {k0 s : State} {p : Place} {seat : Nat}
    (km : [.lds, .extents, .mem, .coh, .wire] ⊆ kl)
    (kh : Keeps kl k0 s) : Keeps kl k0 (bootExtents s p seat) := by
  refine Keeps.step ?_ kh km
  unfold bootExtents
  repeat' first
    | with_reducible exact Keeps.refl _ _
    | assumption
    | with_reducible refine bootExtent_keeps (by decide) ?_
    | with_reducible refine Keeps.ite ?_ ?_
    | with_reducible refine Keeps.foldl ?_ (fun _ _ => ?_)

theorem resetPage_keeps {kl : List Piece} {k0 s : State} {base : Nat}
    (km : [.regs] ⊆ kl)
    (kh : Keeps kl k0 s) : Keeps kl k0 (resetPage s base) := by
  refine Keeps.step ?_ kh km
  unfold resetPage
  repeat' first
    | with_reducible exact Keeps.refl _ _
    | assumption
    | with_reducible refine resetLatches_keeps (by decide) ?_
    | with_reducible refine dropStaged_keeps (by decide) ?_
    | with_reducible refine modRegs_keeps (by decide) ?_

theorem attachIf_keeps {kl : List Piece} {k0 s : State} {p : Place}
    (km : [.boot, .pkg, .lds, .seats, .extents, .mem, .coh, .life, .log, .regs, .wire] ⊆ kl)
    (kh : Keeps kl k0 s) : Keeps kl k0 (attachIf s p) := by
  refine Keeps.step ?_ kh km
  unfold attachIf
  repeat' first
    | with_reducible exact Keeps.refl _ _
    | assumption
    | with_reducible refine event_keeps (by decide) ?_
    | with_reducible refine resetPage_keeps (by decide) ?_
    | with_reducible refine modLd_keeps (by decide) ?_
    | with_reducible refine bootExtents_keeps (by decide) ?_
    | with_reducible refine Keeps.ite ?_ ?_
    | split
    | dsimp only
    | (with_reducible refine Keeps.put ?_ ?_; rotate_left 1
       · (refine Only.intro fun kp khp => ?_; cases kp <;> first | with_reducible exact rfl | exact absurd (by decide) khp))

theorem dropFetched_keeps {kl : List Piece} {k0 : State} {s : State} {r : Nat} (km : [.boot, .pkg, .lds, .extents, .mem, .coh, .rings, .covs, .life, .log, .regs, .wire] ⊆ kl)
    (kh : Keeps kl k0 s) : Keeps kl k0 (dropFetched s r) := by
  refine Keeps.step ?_ kh km
  unfold dropFetched
  repeat' first
    | with_reducible exact Keeps.refl _ _
    | assumption
    | with_reducible refine finish_keeps (by decide) ?_
    | with_reducible refine Keeps.ite ?_ ?_
    | with_reducible refine Keeps.getD ?_ (fun _ _ => ?_)
    | with_reducible refine Keeps.foldl ?_ (fun _ _ => ?_)
    | with_reducible refine Keeps.foldl1 ?_ (fun _ _ => ?_)
    | split

theorem takeRefused_keeps {kl : List Piece} {k0 s : State} {n head avail : Nat} (km : [.boot, .pkg, .lds, .extents, .mem, .coh, .rings, .nextId, .disp, .covs, .life, .log, .regs, .wire] ⊆ kl)
    (kh : Keeps kl k0 s) : Keeps kl k0 (takeRefused s n head avail).1 := by
  refine Keeps.step ?_ kh km
  unfold takeRefused
  extract_lets t bad k u
  have h : Keeps [.boot, .pkg, .lds, .extents, .mem, .coh, .rings, .nextId, .disp, .covs, .life, .log, .regs, .wire] s t := meetRegion_keeps (by decide) (Keeps.refl _ _)
  clear_value t bad k u
  rw [apply_ite Prod.fst]
  exact Keeps.ite h (finish_keeps (by decide) (takeSub_keeps (by decide) h))

theorem drainNeed_keeps {kl : List Piece} {k0 : State} {s : State} {n : Nat} {r : Ring} {kt : State} (km : [.boot, .pkg, .lds, .coh, .life, .log, .wire] ⊆ kl) (ke : drainNeed s n r = some kt)
    (kh : Keeps kl k0 s) : Keeps kl k0 kt := by
  refine Keeps.step ?_ kh km
  unfold drainNeed at ke
  try dsimp only at ke
  repeat' (first | split at ke | dsimp only at ke)
  all_goals first | (obtain ⟨_, _, rfl⟩ := Option.map_eq_some_iff.1 ke) | cases ke | skip
  all_goals repeat' first
    | with_reducible exact Keeps.refl _ _
    | assumption
    | refine needRegion_keeps (by decide) ‹_ = some _› ?_
    | split
    | dsimp only

theorem takeDetaching_keeps {kl : List Piece} {k0 : State} {s : State} {n : Nat} {r : Ring} (km : [.boot, .pkg, .lds, .extents, .mem, .coh, .rings, .nextId, .disp, .covs, .life, .log, .regs, .wire] ⊆ kl)
    (kh : Keeps kl k0 s) : Keeps kl k0 (takeDetaching s n r).1 := by
  refine Keeps.step ?_ kh km
  unfold takeDetaching
  repeat' first
    | with_reducible exact Keeps.refl _ _
    | assumption
    | refine drainNeed_keeps (by decide) ‹_ = some _› ?_
    | with_reducible refine takeRefused_keeps (by decide) ?_
    | refine Keeps.fst ‹_ = (_, _)› (takeRefused_keeps (by decide) ?_)
    | with_reducible refine Keeps.ite ?_ ?_
    | split
    | dsimp only
    | (with_reducible refine Keeps.put ?_ ?_; rotate_left 1
       · (refine Only.intro fun kp khp => ?_; cases kp <;> first | with_reducible exact rfl | exact absurd (by decide) khp))
    | (with_reducible refine Keeps.set ?_ ?_; rotate_left 1
       · (refine Only.intro fun kp khp => ?_; cases kp <;> first | with_reducible exact rfl | exact absurd (by decide) khp))
    | split

theorem drainRing_keeps {kl : List Piece} {k0 : State} {n k : Nat} {s : State}
    (km : [.boot, .pkg, .lds, .extents, .mem, .coh, .rings, .nextId, .disp, .covs, .life, .log, .regs, .wire] ⊆ kl)
    (kh : Keeps kl k0 s) : Keeps kl k0 (drainRing n k s) := by
  induction k generalizing s with
  | zero => exact kh
  | succ k ih =>
    unfold drainRing
    split
    · next r e =>
      have h := takeDetaching_keeps (n := n) (r := r) km kh
      generalize takeDetaching s n r = x at h ⊢
      obtain ⟨t, go⟩ := x
      exact Keeps.ite (ih h) h
    · exact kh

theorem drainAll_keeps {kl : List Piece} {k0 s : State} {n : Nat}
    (km : [.boot, .pkg, .lds, .extents, .mem, .coh, .rings, .nextId, .disp, .covs, .life, .log, .regs, .wire] ⊆ kl)
    (kh : Keeps kl k0 s) : Keeps kl k0 (drainAll s n) := by
  refine Keeps.step ?_ kh km
  unfold drainAll
  repeat' first
    | with_reducible exact Keeps.refl _ _
    | assumption
    | with_reducible refine drainRing_keeps (by decide) ?_
    | split

theorem stopJobs_keeps {kl : List Piece} {k0 : State} {s : State} {n : Nat} (km : [.boot, .pkg, .lds, .seats, .extents, .mem, .coh, .rings, .jobs, .covs, .tally, .life, .log, .regs, .wire] ⊆ kl)
    (kh : Keeps kl k0 s) : Keeps kl k0 (stopJobs s n) := by
  refine Keeps.step ?_ kh km
  unfold stopJobs
  repeat' first
    | with_reducible exact Keeps.refl _ _
    | assumption
    | with_reducible refine jobOver_keeps (by decide) ?_
    | with_reducible refine Keeps.foldl ?_ (fun _ _ => ?_)
    | with_reducible refine Keeps.foldl1 ?_ (fun _ _ => ?_)
    | split
    | dsimp only
    | (with_reducible refine Keeps.put ?_ ?_; rotate_left 1
       · (refine Only.intro fun kp khp => ?_; cases kp <;> first | with_reducible exact rfl | exact absurd (by decide) khp))
    | (with_reducible refine Keeps.set ?_ ?_; rotate_left 1
       · (refine Only.intro fun kp khp => ?_; cases kp <;> first | with_reducible exact rfl | exact absurd (by decide) khp))
    | split

theorem dropQueued_keeps {kl : List Piece} {k0 s : State} {rs : List Nat}
    (km : [.boot, .pkg, .lds, .extents, .mem, .coh, .fronds, .rings, .covs, .life, .log, .regs, .wire] ⊆ kl)
    (kh : Keeps kl k0 s) : Keeps kl k0 (dropQueued s rs) := by
  refine Keeps.step ?_ kh km
  unfold dropQueued
  repeat' first
    | with_reducible exact Keeps.refl _ _
    | assumption
    | with_reducible refine moveOver_keeps (by decide) ?_
    | with_reducible refine Keeps.foldl ?_ (fun _ _ => ?_)
    | (with_reducible refine Keeps.set ?_ ?_ ?_ ?_ ?_ ?_ ?_ ?_ ?_ ?_ ?_ ?_ ?_; rotate_left 1
       · (refine Only.intro fun kp khp => ?_; cases kp <;> first | with_reducible exact rfl | exact absurd (by decide) khp)
       · with_reducible exact List.prefix_refl _
       · with_reducible exact Nat.le_refl _
       · with_reducible exact Nat.le_refl _
       · with_reducible exact Nat.le_refl _
       · with_reducible exact List.suffix_refl _
       · with_reducible exact fun x => x
       · with_reducible exact fun x => x
       · with_reducible exact fun x => x
       · first | with_reducible exact fun x => x | exact fun x => by simpa using x
       · with_reducible exact fun x => x
       · with_reducible exact fun x => ⟨x.mode, x.bootMode, x.storeMode, x.sel, x.whole⟩)

theorem beginDetach_keeps {kl : List Piece} {k0 s : State} {n cause : Nat}
    (km : [.boot, .pkg, .lds, .seats, .steward, .extents, .mem, .coh, .fronds, .rings, .jobs, .nextId, .disp, .covs, .tally, .life, .log, .regs, .wire] ⊆ kl)
    (kh : Keeps kl k0 s) : Keeps kl k0 (beginDetach s n cause) := by
  refine Keeps.step ?_ kh km
  unfold beginDetach
  repeat' first
    | with_reducible exact Keeps.refl _ _
    | assumption
    | with_reducible refine endSession_keeps (by decide) ?_
    | with_reducible refine modSeat_keeps (by decide) ?_
    | with_reducible refine modRing_keeps (by decide) ?_
    | with_reducible refine stopJobs_keeps (by decide) ?_
    | with_reducible refine dropFetched_keeps (by decide) ?_
    | with_reducible refine dropQueued_keeps (by decide) ?_
    | with_reducible refine drainAll_keeps (by decide) ?_
    | with_reducible refine Keeps.ite ?_ ?_
    | with_reducible refine Keeps.foldl ?_ (fun _ _ => ?_)
    | with_reducible refine Keeps.foldl1 ?_ (fun _ _ => ?_)
    | split

theorem snoopSeat_keeps {kl : List Piece} {k0 : State} {s : State} {n : Nat} (km : [.coh, .wire] ⊆ kl)
    (kh : Keeps kl k0 s) : Keeps kl k0 (snoopSeat s n) := by
  refine Keeps.step ?_ kh km
  unfold snoopSeat
  repeat' first
    | with_reducible exact Keeps.refl _ _
    | assumption
    | with_reducible refine openTxn_keeps (by decide) ?_
    | with_reducible refine Keeps.ite ?_ ?_
    | with_reducible refine Keeps.getD ?_ (fun _ _ => ?_)
    | with_reducible refine Keeps.foldl ?_ (fun _ _ => ?_)
    | with_reducible refine Keeps.foldl1 ?_ (fun _ _ => ?_)
    | split

theorem drainSeat_keeps {kl : List Piece} {k0 : State} {s : State} {n : Nat} (km : [.boot, .pkg, .lds, .seats, .extents, .mem, .coh, .rings, .nextId, .disp, .covs, .life, .log, .regs, .wire] ⊆ kl)
    (kh : Keeps kl k0 s) : Keeps kl k0 (drainSeat s n).1 := by
  refine Keeps.step ?_ kh km
  unfold drainSeat
  repeat' first
    | with_reducible exact Keeps.refl _ _
    | assumption
    | with_reducible refine flush_keeps (by decide) ?_
    | with_reducible refine drainAll_keeps (by decide) ?_
    | with_reducible refine modSeat_keeps (by decide) ?_
    | with_reducible refine Keeps.getD ?_ (fun _ _ => ?_)
    | with_reducible refine Keeps.foldl ?_ (fun _ _ => ?_)
    | with_reducible refine Keeps.foldl1 ?_ (fun _ _ => ?_)
    | split
    | dsimp only
    | (with_reducible refine Keeps.put ?_ ?_; rotate_left 1
       · (refine Only.intro fun kp khp => ?_; cases kp <;> first | with_reducible exact rfl | exact absurd (by decide) khp))
    | (with_reducible refine Keeps.set ?_ ?_; rotate_left 1
       · (refine Only.intro fun kp khp => ?_; cases kp <;> first | with_reducible exact rfl | exact absurd (by decide) khp))

theorem execDetachDrainDone_keeps {kl : List Piece} {k0 : State} {seat : BitVec 6} {s : State} {kt : State} (km : [.pins, .boot, .pkg, .lds, .seats, .extents, .mem, .coh, .fronds, .rings, .nextId, .disp, .covs, .tally, .life, .log, .regs, .wire] ⊆ kl) (ke : execDetachDrainDone seat s = .next kt)
    (kh : Keeps kl k0 s) : Keeps kl k0 kt := by
  refine Keeps.step ?_ kh km
  unfold execDetachDrainDone at ke
  cases ke
  repeat' first
    | with_reducible exact Keeps.refl _ _
    | assumption
    | with_reducible refine drainSeat_keeps (by decide) ?_
    | refine Keeps.fst ‹_ = (_, _)› (drainSeat_keeps (by decide) ?_)
    | with_reducible refine modSeat_keeps (by decide) ?_
    | with_reducible refine departSeat_keeps (by decide) ?_
    | with_reducible refine snoopSeat_keeps (by decide) ?_
    | with_reducible refine Keeps.ite ?_ ?_
    | split
    | dsimp only
    | (with_reducible refine Keeps.put ?_ ?_; rotate_left 1
       · (refine Only.intro fun kp khp => ?_; cases kp <;> first | with_reducible exact rfl | exact absurd (by decide) khp))
    | (with_reducible refine Keeps.set ?_ ?_; rotate_left 1
       · (refine Only.intro fun kp khp => ?_; cases kp <;> first | with_reducible exact rfl | exact absurd (by decide) khp))
    | split

theorem freeRing_keeps {kl : List Piece} {k0 s : State} {r : Nat}
    (km : [.fronds, .rings, .regs] ⊆ kl)
    (kh : Keeps kl k0 s) : Keeps kl k0 (freeRing s r) := by
  refine Keeps.step ?_ kh km
  unfold freeRing
  repeat' first
    | with_reducible exact Keeps.refl _ _
    | assumption
    | with_reducible refine setReg_keeps (by decide) ?_
    | with_reducible refine modRing_keeps (by decide) ?_
    | with_reducible refine resetLatches_keeps (by decide) ?_
    | with_reducible refine Keeps.ite ?_ ?_
    | with_reducible refine Keeps.getD ?_ (fun _ _ => ?_)
    | (with_reducible refine Keeps.set ?_ ?_ ?_ ?_ ?_ ?_ ?_ ?_ ?_ ?_ ?_ ?_ ?_; rotate_left 1
       · (refine Only.intro fun kp khp => ?_; cases kp <;> first | with_reducible exact rfl | exact absurd (by decide) khp)
       · with_reducible exact List.prefix_refl _
       · with_reducible exact Nat.le_refl _
       · with_reducible exact Nat.le_refl _
       · with_reducible exact Nat.le_refl _
       · with_reducible exact List.suffix_refl _
       · with_reducible exact fun x => x
       · with_reducible exact fun x => x
       · with_reducible exact fun x => x
       · first | with_reducible exact fun x => x | exact fun x => by simpa using x
       · with_reducible exact fun x => x
       · with_reducible exact fun x => ⟨x.mode, x.bootMode, x.storeMode, x.sel, x.whole⟩)

theorem detachedEvents_keeps {kl : List Piece} {k0 s : State} {n : Nat} {x : Seat}
    (km : [.pins, .boot, .pkg, .lds, .seats, .extents, .mem, .coh, .fronds, .covs, .tally, .life, .log, .regs, .wire] ⊆ kl)
    (kh : Keeps kl k0 s) : Keeps kl k0 (detachedEvents s n x) := by
  refine Keeps.step ?_ kh km
  unfold detachedEvents
  repeat' first
    | with_reducible exact Keeps.refl _ _
    | assumption
    | with_reducible refine event_keeps (by decide) ?_
    | with_reducible refine Keeps.foldl ?_ (fun _ _ => ?_)

theorem finishDetach_keeps {kl : List Piece} {k0 : State} {s : State} {n : Nat} (km : [.pins, .boot, .pkg, .lds, .seats, .steward, .extents, .keys, .mem, .coh, .fronds, .tables, .rings, .covs, .tally, .life, .log, .regs, .wire] ⊆ kl)
    (kh : Keeps kl k0 s) : Keeps kl k0 (finishDetach s n) := by
  refine Keeps.step ?_ kh km
  unfold finishDetach
  repeat' first
    | with_reducible exact Keeps.refl _ _
    | assumption
    | with_reducible refine forceRelease_keeps (by decide) ?_
    | with_reducible refine freeRing_keeps (by decide) ?_
    | with_reducible refine dropCov_keeps (by decide) ?_
    | with_reducible refine detachedEvents_keeps (by decide) ?_
    | with_reducible refine modRegs_keeps (by decide) ?_
    | with_reducible refine modLd_keeps (by decide) ?_
    | with_reducible refine resolveAll_keeps (by decide) ?_
    | with_reducible refine Keeps.ite ?_ ?_
    | with_reducible refine Keeps.foldl ?_ (fun _ _ => ?_)
    | with_reducible refine Keeps.foldl1 ?_ (fun _ _ => ?_)
    | split
    | dsimp only
    | (with_reducible refine Keeps.put ?_ ?_; rotate_left 1
       · (refine Only.intro fun kp khp => ?_; cases kp <;> first | with_reducible exact rfl | exact absurd (by decide) khp))
    | (with_reducible refine Keeps.set ?_ ?_; rotate_left 1
       · (refine Only.intro fun kp khp => ?_; cases kp <;> first | with_reducible exact rfl | exact absurd (by decide) khp))
    | split

theorem execDetachFinish_keeps {kl : List Piece} {k0 : State} {seat : BitVec 6} {s : State} {kt : State} (km : [.pins, .boot, .pkg, .lds, .seats, .steward, .extents, .keys, .mem, .coh, .fronds, .tables, .rings, .nextId, .disp, .covs, .tally, .life, .log, .regs, .wire] ⊆ kl) (ke : execDetachFinish seat s = .next kt)
    (kh : Keeps kl k0 s) : Keeps kl k0 kt := by
  refine Keeps.step ?_ kh km
  unfold execDetachFinish at ke
  cases ke
  repeat' first
    | with_reducible exact Keeps.refl _ _
    | assumption
    | with_reducible refine drainSeat_keeps (by decide) ?_
    | refine Keeps.fst ‹_ = (_, _)› (drainSeat_keeps (by decide) ?_)
    | with_reducible refine finishDetach_keeps (by decide) ?_
    | with_reducible refine snoopSeat_keeps (by decide) ?_
    | with_reducible refine departSeat_keeps (by decide) ?_
    | with_reducible refine Keeps.ite ?_ ?_
    | split
    | dsimp only
    | (with_reducible refine Keeps.put ?_ ?_; rotate_left 1
       · (refine Only.intro fun kp khp => ?_; cases kp <;> first | with_reducible exact rfl | exact absurd (by decide) khp))
    | (with_reducible refine Keeps.set ?_ ?_; rotate_left 1
       · (refine Only.intro fun kp khp => ?_; cases kp <;> first | with_reducible exact rfl | exact absurd (by decide) khp))
    | split

theorem execSeatLinkGraceExpire_keeps {kl : List Piece} {k0 : State} {seat : BitVec 6} {s kt : State}
    (km : [.boot, .pkg, .lds, .seats, .steward, .extents, .mem, .coh, .fronds, .rings, .jobs, .nextId, .disp, .covs, .tally, .life, .log, .regs, .wire] ⊆ kl) (ke : execSeatLinkGraceExpire seat s = .next kt)
    (kh : Keeps kl k0 s) : Keeps kl k0 kt := by
  refine Keeps.step ?_ kh km
  unfold execSeatLinkGraceExpire at ke
  cases ke
  repeat' first
    | with_reducible exact Keeps.refl _ _
    | assumption
    | with_reducible refine beginDetach_keeps (by decide) ?_
    | with_reducible refine Keeps.ite ?_ ?_
    | split

theorem dropLd_keeps {kl : List Piece} {k0 : State} {s : State} {p : Place} (km : [.boot, .pkg, .lds, .seats, .steward, .extents, .mem, .coh, .fronds, .rings, .jobs, .nextId, .disp, .covs, .tally, .life, .log, .regs, .wire] ⊆ kl)
    (kh : Keeps kl k0 s) : Keeps kl k0 (dropLd s p) := by
  refine Keeps.step ?_ kh km
  unfold dropLd
  repeat' first
    | with_reducible exact Keeps.refl _ _
    | assumption
    | with_reducible refine modLd_keeps (by decide) ?_
    | with_reducible refine beginDetach_keeps (by decide) ?_
    | split
    | dsimp only
    | (with_reducible refine Keeps.put ?_ ?_; rotate_left 1
       · (refine Only.intro fun kp khp => ?_; cases kp <;> first | with_reducible exact rfl | exact absurd (by decide) khp))
    | (with_reducible refine Keeps.set ?_ ?_; rotate_left 1
       · (refine Only.intro fun kp khp => ?_; cases kp <;> first | with_reducible exact rfl | exact absurd (by decide) khp))
    | split

theorem directLd_keeps {kl : List Piece} {k0 : State} {s : State} {port : Nat} {l : Nat} (km : [.boot, .pkg, .lds, .seats, .steward, .extents, .mem, .coh, .fronds, .rings, .jobs, .nextId, .disp, .covs, .tally, .life, .log, .regs, .wire] ⊆ kl)
    (kh : Keeps kl k0 s) : Keeps kl k0 (directLd s port l) := by
  refine Keeps.step ?_ kh km
  unfold directLd
  repeat' first
    | with_reducible exact Keeps.refl _ _
    | assumption
    | with_reducible refine dropLd_keeps (by decide) ?_
    | with_reducible refine modLd_keeps (by decide) ?_
    | with_reducible refine Keeps.ite ?_ ?_
    | with_reducible refine Keeps.foldl ?_ (fun _ _ => ?_)
    | with_reducible refine Keeps.foldl1 ?_ (fun _ _ => ?_)
    | (with_reducible refine Keeps.put ?_ ?_; rotate_left 1
       · (refine Only.intro fun kp khp => ?_; cases kp <;> first | with_reducible exact rfl | exact absurd (by decide) khp))
    | (with_reducible refine Keeps.set ?_ ?_; rotate_left 1
       · (refine Only.intro fun kp khp => ?_; cases kp <;> first | with_reducible exact rfl | exact absurd (by decide) khp))
    | split

theorem execHostLinkTraining_keeps {kl : List Piece} {k0 : State} {port : BitVec 3} {l : BitVec 2} {rate : BitVec 3} {width : BitVec 5} {cxl : Bool} {partner : Partner} {s : State} {kt : State} (km : [.boot, .pkg, .ports, .lds, .seats, .steward, .extents, .mem, .coh, .fronds, .rings, .jobs, .nextId, .disp, .covs, .tally, .life, .log, .regs, .wire] ⊆ kl) (ke : execHostLinkTraining port l rate width cxl partner s = .next kt)
    (kh : Keeps kl k0 s) : Keeps kl k0 kt := by
  refine Keeps.step ?_ kh km
  unfold execHostLinkTraining at ke
  cases ke
  repeat' first
    | with_reducible exact Keeps.refl _ _
    | assumption
    | with_reducible refine modLink_keeps (by decide) ?_
    | with_reducible refine event_keeps (by decide) ?_
    | with_reducible refine directLd_keeps (by decide) ?_
    | with_reducible refine Keeps.ite ?_ ?_
    | with_reducible refine Keeps.getD ?_ (fun _ _ => ?_)
    | split
    | dsimp only
    | (with_reducible refine Keeps.put ?_ ?_; rotate_left 1
       · (refine Only.intro fun kp khp => ?_; cases kp <;> first | with_reducible exact rfl | exact absurd (by decide) khp))
    | (with_reducible refine Keeps.set ?_ ?_; rotate_left 1
       · (refine Only.intro fun kp khp => ?_; cases kp <;> first | with_reducible exact rfl | exact absurd (by decide) khp))
    | split

theorem linkLoss_keeps {kl : List Piece} {k0 s : State} {port l : Nat}
    (km : [.pins, .boot, .pkg, .ports, .lds, .seats, .extents, .mem, .coh, .fronds, .rings, .covs, .tally, .life, .log, .regs, .wire] ⊆ kl)
    (kh : Keeps kl k0 s) : Keeps kl k0 (linkLoss s port l) := by
  refine Keeps.step ?_ kh km
  unfold linkLoss
  repeat' first
    | with_reducible exact Keeps.refl _ _
    | assumption
    | with_reducible refine modLink_keeps (by decide) ?_
    | with_reducible refine departSeat_keeps (by decide) ?_
    | with_reducible refine Keeps.ite ?_ ?_
    | with_reducible refine Keeps.foldl ?_ (fun _ _ => ?_)

theorem execHostLinkDown_keeps {kl : List Piece} {k0 : State} {port : BitVec 3} {l : BitVec 2} {s kt : State}
    (km : [.pins, .boot, .pkg, .ports, .lds, .seats, .extents, .mem, .coh, .fronds, .rings, .covs, .tally, .life, .log, .regs, .wire] ⊆ kl) (ke : execHostLinkDown port l s = .next kt)
    (kh : Keeps kl k0 s) : Keeps kl k0 kt := by
  refine Keeps.step ?_ kh km
  unfold execHostLinkDown at ke
  cases ke
  repeat' first
    | with_reducible exact Keeps.refl _ _
    | assumption
    | with_reducible refine linkLoss_keeps (by decide) ?_

theorem execIdeCheckFail_keeps {kl : List Piece} {k0 : State} {port : BitVec 3} {l : BitVec 2} {s kt : State}
    (km : [.pins, .boot, .pkg, .ports, .lds, .seats, .extents, .mem, .coh, .fronds, .rings, .covs, .tally, .life, .log, .regs, .wire] ⊆ kl) (ke : execIdeCheckFail port l s = .next kt)
    (kh : Keeps kl k0 s) : Keeps kl k0 kt := by
  refine Keeps.step ?_ kh km
  unfold execIdeCheckFail at ke
  cases ke
  repeat' first
    | with_reducible exact Keeps.refl _ _
    | assumption
    | with_reducible refine linkLoss_keeps (by decide) ?_

theorem execIdeKeyManagement_keeps {kl : List Piece} {k0 : State} {p : Place} {stream : BitVec 3} {key : IdeStream} {s : State} {kt : State} (km : [.ports] ⊆ kl) (ke : execIdeKeyManagement p stream key s = .next kt)
    (kh : Keeps kl k0 s) : Keeps kl k0 kt := by
  refine Keeps.step ?_ kh km
  unfold execIdeKeyManagement at ke
  cases ke
  repeat' first
    | with_reducible exact Keeps.refl _ _
    | assumption
    | with_reducible refine modLink_keeps (by decide) ?_
    | with_reducible refine Keeps.ite ?_ ?_
    | split
    | dsimp only
    | (with_reducible refine Keeps.put ?_ ?_; rotate_left 1
       · (refine Only.intro fun kp khp => ?_; cases kp <;> first | with_reducible exact rfl | exact absurd (by decide) khp))
    | (with_reducible refine Keeps.set ?_ ?_; rotate_left 1
       · (refine Only.intro fun kp khp => ?_; cases kp <;> first | with_reducible exact rfl | exact absurd (by decide) khp))
    | split

theorem bindLd_keeps {kl : List Piece} {k0 s : State} {p : Place}
    (km : [.boot, .pkg, .lds, .seats, .extents, .mem, .coh, .life, .log, .regs, .wire] ⊆ kl)
    (kh : Keeps kl k0 s) : Keeps kl k0 (bindLd s p).1 := by
  refine Keeps.step ?_ kh km
  unfold bindLd
  repeat' first
    | with_reducible exact Keeps.refl _ _
    | assumption
    | with_reducible refine attachIf_keeps (by decide) ?_
    | with_reducible refine modLd_keeps (by decide) ?_
    | with_reducible refine Keeps.ite ?_ ?_
    | split
    | dsimp only

theorem unbindLd_keeps {kl : List Piece} {k0 : State} {s : State} {p : Place} (km : [.boot, .pkg, .lds, .seats, .steward, .extents, .mem, .coh, .fronds, .rings, .jobs, .nextId, .disp, .covs, .tally, .life, .log, .regs, .wire] ⊆ kl)
    (kh : Keeps kl k0 s) : Keeps kl k0 (unbindLd s p).1 := by
  refine Keeps.step ?_ kh km
  unfold unbindLd
  repeat' first
    | with_reducible exact Keeps.refl _ _
    | assumption
    | with_reducible refine dropLd_keeps (by decide) ?_
    | with_reducible refine Keeps.ite ?_ ?_
    | split
    | dsimp only
    | split

theorem fmDo_keeps {kl : List Piece} {k0 s : State} {src : FmSource} {opcode : Nat} {f : State → State × Bool}
    (km : [.boot, .pkg, .lds, .life, .log, .wire] ⊆ kl) (kf : Keeps kl k0 (f s).1) (kh : Keeps kl k0 s) : Keeps kl k0 (fmDo s src opcode f) := by
  unfold fmDo
  exact Keeps.ite (fmRefuse_keeps (List.Subset.trans (by decide) km) kh) (send_keeps (List.Subset.trans (by decide) km) kf)

theorem execMldPortBind_keeps {kl : List Piece} {k0 : State} {src : FmSource} {p : Place} {s kt : State}
    (km : [.boot, .pkg, .lds, .seats, .extents, .mem, .coh, .life, .log, .regs, .wire] ⊆ kl) (ke : execMldPortBind src p s = .next kt)
    (kh : Keeps kl k0 s) : Keeps kl k0 kt := by
  refine Keeps.step ?_ kh km
  unfold execMldPortBind at ke
  cases ke
  repeat' first
    | with_reducible exact Keeps.refl _ _
    | assumption
    | with_reducible refine fmDo_keeps (by decide) ?_ ?_
    | with_reducible refine bindLd_keeps (by decide) ?_

theorem execMldPortUnbind_keeps {kl : List Piece} {k0 : State} {src : FmSource} {p : Place} {s : State} {kt : State} (km : [.boot, .pkg, .lds, .seats, .steward, .extents, .mem, .coh, .fronds, .rings, .jobs, .nextId, .disp, .covs, .tally, .life, .log, .regs, .wire] ⊆ kl) (ke : execMldPortUnbind src p s = .next kt)
    (kh : Keeps kl k0 s) : Keeps kl k0 kt := by
  refine Keeps.step ?_ kh km
  unfold execMldPortUnbind at ke
  cases ke
  repeat' first
    | with_reducible exact Keeps.refl _ _
    | assumption
    | with_reducible refine fmRefuse_keeps (by decide) ?_
    | with_reducible refine fmDo_keeps (by decide) ?_ ?_
    | with_reducible refine unbindLd_keeps (by decide) ?_
    | refine Keeps.fst ‹_ = (_, _)› (unbindLd_keeps (by decide) ?_)
    | with_reducible refine Keeps.ite ?_ ?_
    | with_reducible refine Keeps.getD ?_ (fun _ _ => ?_)
    | split
    | dsimp only
    | split

theorem execCxlMemEnableSet_keeps {kl : List Piece} {k0 : State} {p : Place} {s kt : State}
    (km : [.boot, .pkg, .lds, .seats, .extents, .mem, .coh, .life, .log, .regs, .wire] ⊆ kl) (ke : execCxlMemEnableSet p s = .next kt)
    (kh : Keeps kl k0 s) : Keeps kl k0 kt := by
  refine Keeps.step ?_ kh km
  unfold execCxlMemEnableSet at ke
  cases ke
  repeat' first
    | with_reducible exact Keeps.refl _ _
    | assumption
    | with_reducible refine attachIf_keeps (by decide) ?_
    | with_reducible refine modLd_keeps (by decide) ?_
    | with_reducible refine Keeps.ite ?_ ?_

theorem execCxlMemEnableClear_keeps {kl : List Piece} {k0 : State} {p : Place} {s kt : State}
    (km : [.boot, .pkg, .lds, .seats, .steward, .extents, .mem, .coh, .fronds, .rings, .jobs, .nextId, .disp, .covs, .tally, .life, .log, .regs, .wire] ⊆ kl) (ke : execCxlMemEnableClear p s = .next kt)
    (kh : Keeps kl k0 s) : Keeps kl k0 kt := by
  refine Keeps.step ?_ kh km
  unfold execCxlMemEnableClear at ke
  cases ke
  repeat' first
    | with_reducible exact Keeps.refl _ _
    | assumption
    | with_reducible refine modLd_keeps (by decide) ?_
    | with_reducible refine beginDetach_keeps (by decide) ?_
    | with_reducible refine Keeps.ite ?_ ?_
    | split
    | dsimp only

end Sys2Proof.Machine
end

