-- ==== Sys2Proof/Laws/Mailbox.lean ====
section
/-!
SUPPORT. What the operations of Machine/Mailbox.lean keep.
-/
set_option linter.unusedTactic false
set_option linter.unreachableTactic false
namespace Sys2Proof.Machine

theorem setMailStat_keeps {kl : List Piece} {k0 s : State} {n : Nat} {busy : Bool} {result : Nat}
    (km : [.regs] ⊆ kl)
    (kh : Keeps kl k0 s) : Keeps kl k0 (setMailStat s n busy result) := by
  refine Keeps.step ?_ kh km
  unfold setMailStat
  repeat' first
    | with_reducible exact Keeps.refl _ _
    | assumption
    | with_reducible refine setReg_keeps (by decide) ?_

theorem respond_keeps {kl : List Piece} {k0 : State} {s : State} {n : Nat} {code : Nat} {result : Nat} {body : List Nat} (km : [.boot, .pkg, .lds, .extents, .mem, .coh, .covs, .life, .log, .regs, .wire] ⊆ kl)
    (kh : Keeps kl k0 s) : Keeps kl k0 (respond s n code result body) := by
  refine Keeps.step ?_ kh km
  unfold respond
  repeat' first
    | with_reducible exact Keeps.refl _ _
    | assumption
    | with_reducible refine devWrite_keeps (by decide) ?_
    | with_reducible refine setEvt_keeps (by decide) ?_
    | with_reducible refine setMailStat_keeps (by decide) ?_

theorem deny_keeps {kl : List Piece} {k0 s : State} {result : Nat}
    (km : [] ⊆ kl)
    (kh : Keeps kl k0 s) : Keeps kl k0 (deny s result).1 := by
  refine Keeps.step ?_ kh km
  unfold deny
  repeat' first
    | with_reducible exact Keeps.refl _ _

theorem okay_keeps {kl : List Piece} {k0 s : State}
    (km : [] ⊆ kl)
    (kh : Keeps kl k0 s) : Keeps kl k0 (okay s).1 := by
  refine Keeps.step ?_ kh km
  unfold okay
  repeat' first
    | with_reducible exact Keeps.refl _ _

theorem runMail_keeps {kl : List Piece} {k0 s : State} {n code : Nat} {f : State → List Nat → Answer}
    {after : State → List Nat → State} (km : [.pins, .boot, .pkg, .lds, .seats, .extents, .mem, .coh, .fronds, .covs, .tally, .life, .log, .regs, .wire] ⊆ kl)
    (kf : ∀ t b, Keeps kl k0 t → Keeps kl k0 (f t b).1) (ka : ∀ t b, Keeps kl k0 t → Keeps kl k0 (after t b)) (kh : Keeps kl k0 s) :
    Keeps kl k0 (runMail s n code f after) := by
  have hr : ∀ t c r b, Keeps kl k0 t → Keeps kl k0 (respond t n c r b) := fun t c r b h =>
    respond_keeps (List.Subset.trans (by decide) km) h
  have ht : ∀ t, Keeps kl k0 t → Keeps kl k0 (touchSession t n) := fun t h =>
    touchSession_keeps (List.Subset.trans (by decide) km) h
  unfold runMail
  refine Keeps.ite kh (Keeps.ite (setMailStat_keeps (List.Subset.trans (by decide) km) kh) (Keeps.ite kh ?_))
  rcases hq : needRegion s (mailBuf s n) 256 true with _ | t
  · rcases hq2 : needRegion s (mailBuf s n + 256) 256 false with _ | t
    · have kh : Keeps kl k0 (meetRegion s n (mailBuf s n) 256) :=
        meetRegion_keeps (List.Subset.trans (by decide) km) kh
      dsimp only
      generalize meetRegion s n (mailBuf s n) 256 = s at kh ⊢
      refine Keeps.ite (hr _ _ _ _ kh) (Keeps.ite (hr _ _ _ _ kh) (Keeps.ite kh ?_))
      split
      · exact hr _ _ _ _ kh
      · have h := kf s (((mailReq s n).drop 32).take (byteField (mailReq s n) 2 2)) kh
        generalize f s _ = x at h ⊢
        obtain ⟨t, _ | ⟨r, out⟩⟩ := x
        · exact ht _ h
        · refine Keeps.ite (ka _ _ (hr _ _ _ _ ?_)) (hr _ _ _ _ h)
          exact Keeps.ite (ht _ h) h
    · exact needRegion_keeps (List.Subset.trans (by decide) km) hq2 kh
  · exact needRegion_keeps (List.Subset.trans (by decide) km) hq kh

theorem noAfter_keeps {kl : List Piece} {k0 s : State} {x1 : List Nat}
    (km : [] ⊆ kl)
    (kh : Keeps kl k0 s) : Keeps kl k0 (noAfter s x1) := by
  refine Keeps.step ?_ kh km
  unfold noAfter
  repeat' first
    | with_reducible exact Keeps.refl _ _

theorem sessChallenge_keeps {kl : List Piece} {k0 : State} {n : Nat} {s : State} {b : List Nat}
    (km : [.seats, .freeCtr] ⊆ kl)
    (kh : Keeps kl k0 s) : Keeps kl k0 (sessChallenge n s b).1 := by
  refine Keeps.step ?_ kh km
  unfold sessChallenge
  repeat' first
    | with_reducible exact Keeps.refl _ _
    | assumption
    | with_reducible refine deny_keeps (by decide) ?_
    | refine Keeps.fst ‹_ = (_, _)› (deny_keeps (by decide) ?_)
    | with_reducible refine modSeat_keeps (by decide) ?_
    | with_reducible refine fresh_keeps (by decide) ?_
    | with_reducible refine Keeps.ite ?_ ?_
    | split

theorem execSessChallenge_keeps {kl : List Piece} {k0 : State} {seat : BitVec 6} {s kt : State}
    (km : [.pins, .boot, .pkg, .lds, .seats, .extents, .mem, .coh, .fronds, .covs, .tally, .life, .log, .regs, .wire, .freeCtr] ⊆ kl) (ke : execSessChallenge seat s = .next kt)
    (kh : Keeps kl k0 s) : Keeps kl k0 kt := by
  refine Keeps.step ?_ kh km
  unfold execSessChallenge at ke
  cases ke
  repeat' first
    | with_reducible exact Keeps.refl _ _
    | assumption
    | with_reducible refine runMail_keeps (by decide) (fun _ _ _ => ?_) (fun _ _ _ => ?_) ?_
    | with_reducible refine sessChallenge_keeps (by decide) ?_

theorem failedProof_keeps {kl : List Piece} {k0 s : State} {n : Nat} {p : Place}
    (km : [.boot, .pkg, .lds, .steward, .life, .log] ⊆ kl)
    (kh : Keeps kl k0 s) : Keeps kl k0 (failedProof s n p) := by
  refine Keeps.step ?_ kh km
  unfold failedProof
  repeat' first
    | with_reducible exact Keeps.refl _ _
    | assumption
    | with_reducible refine event_keeps (by decide) ?_
    | with_reducible refine Keeps.ite ?_ ?_
    | with_reducible refine Keeps.getD ?_ (fun _ _ => ?_)
    | (with_reducible refine Keeps.put ?_ ?_; rotate_left 1
       · (refine Only.intro fun kp khp => ?_; cases kp <;> first | with_reducible exact rfl | exact absurd (by decide) khp))

theorem sessOpen_keeps {kl : List Piece} {k0 : State} {n : Nat} {s : State} {b : List Nat} (km : [.pins, .boot, .pkg, .lds, .seats, .steward, .extents, .mem, .coh, .fronds, .covs, .tally, .life, .log, .regs, .wire] ⊆ kl)
    (kh : Keeps kl k0 s) : Keeps kl k0 (sessOpen n s b).1 := by
  refine Keeps.step ?_ kh km
  unfold sessOpen
  repeat' first
    | with_reducible exact Keeps.refl _ _
    | assumption
    | with_reducible refine deny_keeps (by decide) ?_
    | refine Keeps.fst ‹_ = (_, _)› (deny_keeps (by decide) ?_)
    | with_reducible refine modSeat_keeps (by decide) ?_
    | with_reducible refine take_keeps (by decide) ?_
    | with_reducible refine failedProof_keeps (by decide) ?_
    | with_reducible refine endSession_keeps (by decide) ?_
    | with_reducible refine Keeps.ite ?_ ?_
    | with_reducible refine Keeps.getD ?_ (fun _ _ => ?_)
    | split
    | dsimp only
    | (with_reducible refine Keeps.put ?_ ?_; rotate_left 1
       · (refine Only.intro fun kp khp => ?_; cases kp <;> first | with_reducible exact rfl | exact absurd (by decide) khp))
    | (with_reducible refine Keeps.set ?_ ?_; rotate_left 1
       · (refine Only.intro fun kp khp => ?_; cases kp <;> first | with_reducible exact rfl | exact absurd (by decide) khp))
    | split

theorem execSessOpen_keeps {kl : List Piece} {k0 : State} {seat : BitVec 6} {s kt : State}
    (km : [.pins, .boot, .pkg, .lds, .seats, .steward, .extents, .mem, .coh, .fronds, .covs, .tally, .life, .log, .regs, .wire] ⊆ kl) (ke : execSessOpen seat s = .next kt)
    (kh : Keeps kl k0 s) : Keeps kl k0 kt := by
  refine Keeps.step ?_ kh km
  unfold execSessOpen at ke
  cases ke
  repeat' first
    | with_reducible exact Keeps.refl _ _
    | assumption
    | with_reducible refine runMail_keeps (by decide) (fun _ _ _ => ?_) (fun _ _ _ => ?_) ?_
    | with_reducible refine sessOpen_keeps (by decide) ?_

theorem sessClose_keeps {kl : List Piece} {k0 : State} {n : Nat} {s : State} {b : List Nat}
    (km : [.seats, .steward] ⊆ kl)
    (kh : Keeps kl k0 s) : Keeps kl k0 (sessClose n s b).1 := by
  refine Keeps.step ?_ kh km
  unfold sessClose
  repeat' first
    | with_reducible exact Keeps.refl _ _
    | assumption
    | with_reducible refine deny_keeps (by decide) ?_
    | refine Keeps.fst ‹_ = (_, _)› (deny_keeps (by decide) ?_)
    | with_reducible refine okay_keeps (by decide) ?_
    | refine Keeps.fst ‹_ = (_, _)› (okay_keeps (by decide) ?_)
    | with_reducible refine endSession_keeps (by decide) ?_
    | with_reducible refine Keeps.ite ?_ ?_
    | split

theorem execSessClose_keeps {kl : List Piece} {k0 : State} {seat : BitVec 6} {s kt : State}
    (km : [.pins, .boot, .pkg, .lds, .seats, .steward, .extents, .mem, .coh, .fronds, .covs, .tally, .life, .log, .regs, .wire] ⊆ kl) (ke : execSessClose seat s = .next kt)
    (kh : Keeps kl k0 s) : Keeps kl k0 kt := by
  refine Keeps.step ?_ kh km
  unfold execSessClose at ke
  cases ke
  repeat' first
    | with_reducible exact Keeps.refl _ _
    | assumption
    | with_reducible refine runMail_keeps (by decide) (fun _ _ _ => ?_) (fun _ _ _ => ?_) ?_
    | with_reducible refine sessClose_keeps (by decide) ?_

theorem execSessNonceExpire_keeps {kl : List Piece} {k0 : State} {seat : BitVec 6} {s kt : State}
    (km : [.seats] ⊆ kl) (ke : execSessNonceExpire seat s = .next kt)
    (kh : Keeps kl k0 s) : Keeps kl k0 kt := by
  refine Keeps.step ?_ kh km
  unfold execSessNonceExpire at ke
  cases ke
  repeat' first
    | with_reducible exact Keeps.refl _ _
    | assumption
    | with_reducible refine modSeat_keeps (by decide) ?_

theorem execSessIdleExpire_keeps {kl : List Piece} {k0 : State} {seat : BitVec 6} {s kt : State}
    (km : [.seats, .steward] ⊆ kl) (ke : execSessIdleExpire seat s = .next kt)
    (kh : Keeps kl k0 s) : Keeps kl k0 kt := by
  refine Keeps.step ?_ kh km
  unfold execSessIdleExpire at ke
  cases ke
  repeat' first
    | with_reducible exact Keeps.refl _ _
    | assumption
    | with_reducible refine endSession_keeps (by decide) ?_

theorem execSessLockoutEnd_keeps {kl : List Piece} {k0 : State} {p : Place} {s kt : State}
    (km : [.steward] ⊆ kl) (ke : execSessLockoutEnd p s = .next kt)
    (kh : Keeps kl k0 s) : Keeps kl k0 kt := by
  refine Keeps.step ?_ kh km
  unfold execSessLockoutEnd at ke
  cases ke
  repeat' first
    | with_reducible exact Keeps.refl _ _
    | assumption
    | split
    | dsimp only
    | (with_reducible refine Keeps.put ?_ ?_; rotate_left 1
       · (refine Only.intro fun kp khp => ?_; cases kp <;> first | with_reducible exact rfl | exact absurd (by decide) khp))

theorem secretSet_keeps {kl : List Piece} {k0 : State} {n : Nat} {s : State} {b : List Nat}
    (km : [.pins, .boot, .store, .pkg, .lds, .seats, .extents, .mem, .coh, .fronds, .covs, .tally, .life, .log, .regs, .wire] ⊆ kl)
    (kh : Keeps kl k0 s) : Keeps kl k0 (secretSet n s b).1 := by
  refine Keeps.step ?_ kh km
  unfold secretSet
  repeat' first
    | with_reducible exact Keeps.refl _ _
    | assumption
    | with_reducible refine deny_keeps (by decide) ?_
    | refine Keeps.fst ‹_ = (_, _)› (deny_keeps (by decide) ?_)
    | with_reducible refine okay_keeps (by decide) ?_
    | refine Keeps.fst ‹_ = (_, _)› (okay_keeps (by decide) ?_)
    | with_reducible refine storeWrite_keeps (by decide) ?_
    | with_reducible refine Keeps.ite ?_ ?_
    | split
    | dsimp only
    | (with_reducible refine Keeps.set ?_ ?_ ?_ ?_ ?_ ?_ ?_ ?_ ?_ ?_ ?_ ?_ ?_; rotate_left 1
       · (refine Only.intro fun kp khp => ?_; cases kp <;> first | with_reducible exact rfl | exact absurd (by decide) khp)
       · with_reducible exact List.prefix_refl _
       · with_reducible exact Nat.le_refl _
       · with_reducible exact Nat.le_refl _
       · with_reducible exact Nat.le_refl _
       · with_reducible exact List.suffix_refl _
       · with_reducible exact fun x => x
       · with_reducible exact fun x => x
       · with_reducible exact fun x => x
       · with_reducible exact fun x => x
       · with_reducible exact fun x => x
       · with_reducible exact fun x => ⟨x.mode, x.bootMode, x.storeMode, x.sel, x.whole⟩)

theorem execSecretSet_keeps {kl : List Piece} {k0 : State} {seat : BitVec 6} {s kt : State}
    (km : [.pins, .boot, .store, .pkg, .lds, .seats, .extents, .mem, .coh, .fronds, .covs, .tally, .life, .log, .regs, .wire] ⊆ kl) (ke : execSecretSet seat s = .next kt)
    (kh : Keeps kl k0 s) : Keeps kl k0 kt := by
  refine Keeps.step ?_ kh km
  unfold execSecretSet at ke
  cases ke
  repeat' first
    | with_reducible exact Keeps.refl _ _
    | assumption
    | with_reducible refine runMail_keeps (by decide) (fun _ _ _ => ?_) (fun _ _ _ => ?_) ?_
    | with_reducible refine secretSet_keeps (by decide) ?_

theorem clearSecret_keeps {kl : List Piece} {k0 s : State} {slot : Nat}
    (km : [.store, .life] ⊆ kl)
    (kh : Keeps kl k0 s) : Keeps kl k0 (clearSecret s slot) := by
  refine Keeps.step ?_ kh km
  unfold clearSecret
  repeat' first
    | with_reducible exact Keeps.refl _ _
    | assumption
    | with_reducible refine storeWrite_keeps (by decide) ?_
    | with_reducible refine Keeps.ite ?_ ?_
    | (with_reducible refine Keeps.set ?_ ?_ ?_ ?_ ?_ ?_ ?_ ?_ ?_ ?_ ?_ ?_ ?_; rotate_left 1
       · (refine Only.intro fun kp khp => ?_; cases kp <;> first | with_reducible exact rfl | exact absurd (by decide) khp)
       · with_reducible exact List.prefix_refl _
       · with_reducible exact Nat.le_refl _
       · with_reducible exact Nat.le_refl _
       · with_reducible exact Nat.le_refl _
       · with_reducible exact List.suffix_refl _
       · with_reducible exact fun x => x
       · with_reducible exact fun x => x
       · with_reducible exact fun x => x
       · with_reducible exact fun x => x
       · with_reducible exact fun x => x
       · with_reducible exact fun x => ⟨x.mode, x.bootMode, x.storeMode, x.sel, x.whole⟩)

theorem secretClrWrite_keeps {kl : List Piece} {k0 s : State} {w : Word32}
    (km : [.store, .life, .regs, .wire] ⊆ kl)
    (kh : Keeps kl k0 s) : Keeps kl k0 (secretClrWrite s w) := by
  refine Keeps.step ?_ kh km
  unfold secretClrWrite
  repeat' first
    | with_reducible exact Keeps.refl _ _
    | assumption
    | with_reducible refine guardStore_keeps (by decide) ?_
    | refine Keeps.fst ‹_ = (_, _)› (guardStore_keeps (by decide) ?_)
    | with_reducible refine clearSecret_keeps (by decide) ?_

theorem execSeatsSecretClr_keeps {kl : List Piece} {k0 : State} {p : Place} {w : Word32} {s kt : State}
    (km : [.store, .lds, .life, .regs, .wire] ⊆ kl) (ke : execSeatsSecretClr p w s = .next kt)
    (kh : Keeps kl k0 s) : Keeps kl k0 kt := by
  refine Keeps.step ?_ kh km
  unfold execSeatsSecretClr at ke
  cases ke
  repeat' first
    | with_reducible exact Keeps.refl _ _
    | assumption
    | with_reducible refine guardEffect_keeps (by decide) ?_
    | refine Keeps.fst ‹_ = (_, _)› (guardEffect_keeps (by decide) ?_)
    | with_reducible refine secretClrWrite_keeps (by decide) ?_
    | split

theorem execStewardClaim_keeps {kl : List Piece} {k0 : State} {p : Place} {secret : BitVec 256} {s : State} {kt : State} (km : [.boot, .store, .pkg, .lds, .steward, .extents, .keys, .mem, .coh, .tables, .life, .log, .wire] ⊆ kl) (ke : execStewardClaim p secret s = .next kt)
    (kh : Keeps kl k0 s) : Keeps kl k0 kt := by
  refine Keeps.step ?_ kh km
  unfold execStewardClaim at ke
  cases ke
  repeat' first
    | with_reducible exact Keeps.refl _ _
    | assumption
    | with_reducible refine send_keeps (by decide) ?_
    | with_reducible refine storeWrite_keeps (by decide) ?_
    | with_reducible refine bootExtent_keeps (by decide) ?_
    | with_reducible refine setSteward_keeps (by decide) ?_
    | with_reducible refine Keeps.ite ?_ ?_
    | split
    | dsimp only
    | (with_reducible refine Keeps.put ?_ ?_; rotate_left 1
       · (refine Only.intro fun kp khp => ?_; cases kp <;> first | with_reducible exact rfl | exact absurd (by decide) khp))
    | (with_reducible refine Keeps.set ?_ ?_; rotate_left 1
       · (refine Only.intro fun kp khp => ?_; cases kp <;> first | with_reducible exact rfl | exact absurd (by decide) khp))
    | split

theorem stewardTake_keeps {kl : List Piece} {k0 : State} {n : Nat} {s : State} {b : List Nat}
    (km : [.boot, .pkg, .lds, .steward, .keys, .tables, .life, .log] ⊆ kl)
    (kh : Keeps kl k0 s) : Keeps kl k0 (stewardTake n s b).1 := by
  refine Keeps.step ?_ kh km
  unfold stewardTake
  repeat' first
    | with_reducible exact Keeps.refl _ _
    | assumption
    | with_reducible refine deny_keeps (by decide) ?_
    | refine Keeps.fst ‹_ = (_, _)› (deny_keeps (by decide) ?_)
    | with_reducible refine okay_keeps (by decide) ?_
    | refine Keeps.fst ‹_ = (_, _)› (okay_keeps (by decide) ?_)
    | with_reducible refine setSteward_keeps (by decide) ?_
    | with_reducible refine Keeps.ite ?_ ?_
    | split
    | dsimp only

theorem execStewardTake_keeps {kl : List Piece} {k0 : State} {seat : BitVec 6} {s kt : State}
    (km : [.pins, .boot, .pkg, .lds, .seats, .steward, .extents, .keys, .mem, .coh, .fronds, .tables, .covs, .tally, .life, .log, .regs, .wire] ⊆ kl) (ke : execStewardTake seat s = .next kt)
    (kh : Keeps kl k0 s) : Keeps kl k0 kt := by
  refine Keeps.step ?_ kh km
  unfold execStewardTake at ke
  cases ke
  repeat' first
    | with_reducible exact Keeps.refl _ _
    | assumption
    | with_reducible refine runMail_keeps (by decide) (fun _ _ _ => ?_) (fun _ _ _ => ?_) ?_
    | with_reducible refine stewardTake_keeps (by decide) ?_

theorem stewardHandover_keeps {kl : List Piece} {k0 s : State} {b : List Nat}
    (km : [.boot, .pkg, .lds, .steward, .keys, .tables, .life, .log] ⊆ kl)
    (kh : Keeps kl k0 s) : Keeps kl k0 (stewardHandover s b).1 := by
  refine Keeps.step ?_ kh km
  unfold stewardHandover
  repeat' first
    | with_reducible exact Keeps.refl _ _
    | assumption
    | with_reducible refine deny_keeps (by decide) ?_
    | refine Keeps.fst ‹_ = (_, _)› (deny_keeps (by decide) ?_)
    | with_reducible refine okay_keeps (by decide) ?_
    | refine Keeps.fst ‹_ = (_, _)› (okay_keeps (by decide) ?_)
    | with_reducible refine setSteward_keeps (by decide) ?_
    | with_reducible refine Keeps.ite ?_ ?_
    | split
    | dsimp only

theorem execStewardHandover_keeps {kl : List Piece} {k0 : State} {seat : BitVec 6} {s kt : State}
    (km : [.pins, .boot, .pkg, .lds, .seats, .steward, .extents, .keys, .mem, .coh, .fronds, .tables, .covs, .tally, .life, .log, .regs, .wire] ⊆ kl) (ke : execStewardHandover seat s = .next kt)
    (kh : Keeps kl k0 s) : Keeps kl k0 kt := by
  refine Keeps.step ?_ kh km
  unfold execStewardHandover at ke
  cases ke
  repeat' first
    | with_reducible exact Keeps.refl _ _
    | assumption
    | with_reducible refine runMail_keeps (by decide) (fun _ _ _ => ?_) (fun _ _ _ => ?_) ?_
    | with_reducible refine stewardHandover_keeps (by decide) ?_

theorem grantReq_keeps {kl : List Piece} {k0 : State} {s : State} {b : List Nat} (km : [.tables, .rings, .regs] ⊆ kl)
    (kh : Keeps kl k0 s) : Keeps kl k0 (grantReq s b).1 := by
  refine Keeps.step ?_ kh km
  unfold grantReq
  repeat' first
    | with_reducible exact Keeps.refl _ _
    | assumption
    | with_reducible refine deny_keeps (by decide) ?_
    | refine Keeps.fst ‹_ = (_, _)› (deny_keeps (by decide) ?_)
    | with_reducible refine okay_keeps (by decide) ?_
    | refine Keeps.fst ‹_ = (_, _)› (okay_keeps (by decide) ?_)
    | with_reducible refine putTable_keeps (by decide) ?_
    | with_reducible refine resetLatches_keeps (by decide) ?_
    | with_reducible refine Keeps.ite ?_ ?_
    | with_reducible refine Keeps.getD ?_ (fun _ _ => ?_)
    | split
    | dsimp only
    | (with_reducible refine Keeps.put ?_ ?_; rotate_left 1
       · (refine Only.intro fun kp khp => ?_; cases kp <;> first | with_reducible exact rfl | exact absurd (by decide) khp))
    | (with_reducible refine Keeps.set ?_ ?_; rotate_left 1
       · (refine Only.intro fun kp khp => ?_; cases kp <;> first | with_reducible exact rfl | exact absurd (by decide) khp))
    | split

theorem execGrant_keeps {kl : List Piece} {k0 : State} {seat : BitVec 6} {s kt : State}
    (km : [.pins, .boot, .pkg, .lds, .seats, .extents, .mem, .coh, .fronds, .tables, .rings, .covs, .tally, .life, .log, .regs, .wire] ⊆ kl) (ke : execGrant seat s = .next kt)
    (kh : Keeps kl k0 s) : Keeps kl k0 kt := by
  refine Keeps.step ?_ kh km
  unfold execGrant at ke
  cases ke
  repeat' first
    | with_reducible exact Keeps.refl _ _
    | assumption
    | with_reducible refine runMail_keeps (by decide) (fun _ _ _ => ?_) (fun _ _ _ => ?_) ?_
    | with_reducible refine grantReq_keeps (by decide) ?_

theorem revokeReq_keeps {kl : List Piece} {k0 : State} {n : Nat} {s : State} {b : List Nat}
    (km : [.fronds, .rings, .regs] ⊆ kl)
    (kh : Keeps kl k0 s) : Keeps kl k0 (revokeReq n s b).1 := by
  refine Keeps.step ?_ kh km
  unfold revokeReq
  repeat' first
    | with_reducible exact Keeps.refl _ _
    | assumption
    | with_reducible refine deny_keeps (by decide) ?_
    | refine Keeps.fst ‹_ = (_, _)› (deny_keeps (by decide) ?_)
    | with_reducible refine okay_keeps (by decide) ?_
    | refine Keeps.fst ‹_ = (_, _)› (okay_keeps (by decide) ?_)
    | with_reducible refine disableRing_keeps (by decide) ?_
    | with_reducible refine modRing_keeps (by decide) ?_
    | with_reducible refine freeRing_keeps (by decide) ?_
    | with_reducible refine Keeps.ite ?_ ?_
    | with_reducible refine Keeps.getD ?_ (fun _ _ => ?_)
    | split
    | dsimp only

theorem revokeRights_keeps {kl : List Piece} {k0 s : State} {b : List Nat}
    (km : [.tables] ⊆ kl)
    (kh : Keeps kl k0 s) : Keeps kl k0 (revokeRights s b) := by
  refine Keeps.step ?_ kh km
  unfold revokeRights
  repeat' first
    | with_reducible exact Keeps.refl _ _
    | assumption
    | with_reducible refine Keeps.ite ?_ ?_
    | split
    | dsimp only
    | (with_reducible refine Keeps.put ?_ ?_; rotate_left 1
       · (refine Only.intro fun kp khp => ?_; cases kp <;> first | with_reducible exact rfl | exact absurd (by decide) khp))

theorem execRevoke_keeps {kl : List Piece} {k0 : State} {seat : BitVec 6} {s kt : State}
    (km : [.pins, .boot, .pkg, .lds, .seats, .extents, .mem, .coh, .fronds, .tables, .rings, .covs, .tally, .life, .log, .regs, .wire] ⊆ kl) (ke : execRevoke seat s = .next kt)
    (kh : Keeps kl k0 s) : Keeps kl k0 kt := by
  refine Keeps.step ?_ kh km
  unfold execRevoke at ke
  cases ke
  repeat' first
    | with_reducible exact Keeps.refl _ _
    | assumption
    | with_reducible refine runMail_keeps (by decide) (fun _ _ _ => ?_) (fun _ _ _ => ?_) ?_
    | with_reducible refine revokeReq_keeps (by decide) ?_
    | refine Keeps.fst ‹_ = (_, _)› (revokeReq_keeps (by decide) ?_)
    | with_reducible refine revokeRights_keeps (by decide) ?_

theorem revokeAnswer_keeps {kl : List Piece} {k0 : State} {s : State} {n : Nat} {q : Nat} (km : [.boot, .pkg, .lds, .extents, .mem, .coh, .fronds, .rings, .covs, .life, .log, .regs, .wire] ⊆ kl)
    (kh : Keeps kl k0 s) : Keeps kl k0 (revokeAnswer s n q) := by
  refine Keeps.step ?_ kh km
  unfold revokeAnswer
  repeat' first
    | with_reducible exact Keeps.refl _ _
    | assumption
    | refine needRegion_keeps (by decide) ‹_ = some _› ?_
    | with_reducible refine modRing_keeps (by decide) ?_
    | with_reducible refine freeRing_keeps (by decide) ?_
    | with_reducible refine setMailStat_keeps (by decide) ?_
    | with_reducible refine respond_keeps (by decide) ?_
    | with_reducible refine Keeps.ite ?_ ?_
    | split
    | dsimp only
    | (with_reducible refine Keeps.put ?_ ?_; rotate_left 1
       · (refine Only.intro fun kp khp => ?_; cases kp <;> first | with_reducible exact rfl | exact absurd (by decide) khp))
    | (with_reducible refine Keeps.set ?_ ?_; rotate_left 1
       · (refine Only.intro fun kp khp => ?_; cases kp <;> first | with_reducible exact rfl | exact absurd (by decide) khp))
    | split

theorem execRingIdle_keeps {kl : List Piece} {k0 : State} {ring : BitVec 10} {s kt : State}
    (km : [.boot, .pkg, .lds, .extents, .mem, .coh, .fronds, .rings, .covs, .life, .log, .regs, .wire] ⊆ kl) (ke : execRingIdle ring s = .next kt)
    (kh : Keeps kl k0 s) : Keeps kl k0 kt := by
  refine Keeps.step ?_ kh km
  unfold execRingIdle at ke
  cases ke
  repeat' first
    | with_reducible exact Keeps.refl _ _
    | assumption
    | with_reducible refine setReg_keeps (by decide) ?_
    | with_reducible refine modRing_keeps (by decide) ?_
    | with_reducible refine revokeAnswer_keeps (by decide) ?_
    | with_reducible refine Keeps.ite ?_ ?_
    | split

theorem detachReq_keeps {kl : List Piece} {k0 s : State} {b : List Nat}
    (km : [] ⊆ kl)
    (kh : Keeps kl k0 s) : Keeps kl k0 (detachReq s b).1 := by
  refine Keeps.step ?_ kh km
  unfold detachReq
  repeat' first
    | with_reducible exact Keeps.refl _ _
    | assumption
    | with_reducible refine deny_keeps (by decide) ?_
    | refine Keeps.fst ‹_ = (_, _)› (deny_keeps (by decide) ?_)
    | with_reducible refine okay_keeps (by decide) ?_
    | refine Keeps.fst ‹_ = (_, _)› (okay_keeps (by decide) ?_)
    | with_reducible refine Keeps.ite ?_ ?_
    | split
    | dsimp only

theorem execSeatDetach_keeps {kl : List Piece} {k0 : State} {seat : BitVec 6} {s kt : State}
    (km : [.pins, .boot, .pkg, .lds, .seats, .steward, .extents, .mem, .coh, .fronds, .rings, .jobs, .nextId, .disp, .covs, .tally, .life, .log, .regs, .wire] ⊆ kl) (ke : execSeatDetach seat s = .next kt)
    (kh : Keeps kl k0 s) : Keeps kl k0 kt := by
  refine Keeps.step ?_ kh km
  unfold execSeatDetach at ke
  cases ke
  repeat' first
    | with_reducible exact Keeps.refl _ _
    | assumption
    | with_reducible refine runMail_keeps (by decide) (fun _ _ _ => ?_) (fun _ _ _ => ?_) ?_
    | with_reducible refine detachReq_keeps (by decide) ?_
    | refine Keeps.fst ‹_ = (_, _)› (detachReq_keeps (by decide) ?_)
    | with_reducible refine beginDetach_keeps (by decide) ?_

theorem covenantSet_keeps {kl : List Piece} {k0 s : State} {b : List Nat}
    (km : [.boot, .pkg, .lds, .mem, .covs, .life, .log] ⊆ kl)
    (kh : Keeps kl k0 s) : Keeps kl k0 (covenantSet s b).1 := by
  refine Keeps.step ?_ kh km
  unfold covenantSet
  repeat' first
    | with_reducible exact Keeps.refl _ _
    | assumption
    | with_reducible refine deny_keeps (by decide) ?_
    | refine Keeps.fst ‹_ = (_, _)› (deny_keeps (by decide) ?_)
    | with_reducible refine okay_keeps (by decide) ?_
    | refine Keeps.fst ‹_ = (_, _)› (okay_keeps (by decide) ?_)
    | with_reducible refine capCheck_keeps (by decide) ?_
    | with_reducible refine modCov_keeps (by decide) ?_
    | with_reducible refine dropCov_keeps (by decide) ?_
    | with_reducible refine resolveAll_keeps (by decide) ?_
    | with_reducible refine Keeps.ite ?_ ?_
    | with_reducible refine Keeps.getD ?_ (fun _ _ => ?_)
    | split
    | dsimp only
    | (with_reducible refine Keeps.put ?_ ?_; rotate_left 1
       · (refine Only.intro fun kp khp => ?_; cases kp <;> first | with_reducible exact rfl | exact absurd (by decide) khp))

theorem execCovenantSet_keeps {kl : List Piece} {k0 : State} {seat : BitVec 6} {s kt : State}
    (km : [.pins, .boot, .pkg, .lds, .seats, .extents, .mem, .coh, .fronds, .covs, .tally, .life, .log, .regs, .wire] ⊆ kl) (ke : execCovenantSet seat s = .next kt)
    (kh : Keeps kl k0 s) : Keeps kl k0 kt := by
  refine Keeps.step ?_ kh km
  unfold execCovenantSet at ke
  cases ke
  repeat' first
    | with_reducible exact Keeps.refl _ _
    | assumption
    | with_reducible refine runMail_keeps (by decide) (fun _ _ _ => ?_) (fun _ _ _ => ?_) ?_
    | with_reducible refine covenantSet_keeps (by decide) ?_

theorem covenantClear_keeps {kl : List Piece} {k0 s : State} {b : List Nat}
    (km : [.boot, .pkg, .lds, .mem, .covs, .life, .log] ⊆ kl)
    (kh : Keeps kl k0 s) : Keeps kl k0 (covenantClear s b).1 := by
  refine Keeps.step ?_ kh km
  unfold covenantClear
  repeat' first
    | with_reducible exact Keeps.refl _ _
    | assumption
    | with_reducible refine deny_keeps (by decide) ?_
    | refine Keeps.fst ‹_ = (_, _)› (deny_keeps (by decide) ?_)
    | with_reducible refine okay_keeps (by decide) ?_
    | refine Keeps.fst ‹_ = (_, _)› (okay_keeps (by decide) ?_)
    | with_reducible refine capCheck_keeps (by decide) ?_
    | with_reducible refine modCov_keeps (by decide) ?_
    | with_reducible refine resolveAll_keeps (by decide) ?_
    | with_reducible refine dropCov_keeps (by decide) ?_
    | with_reducible refine Keeps.ite ?_ ?_
    | split
    | dsimp only

theorem execCovenantClear_keeps {kl : List Piece} {k0 : State} {seat : BitVec 6} {s kt : State}
    (km : [.pins, .boot, .pkg, .lds, .seats, .extents, .mem, .coh, .fronds, .covs, .tally, .life, .log, .regs, .wire] ⊆ kl) (ke : execCovenantClear seat s = .next kt)
    (kh : Keeps kl k0 s) : Keeps kl k0 kt := by
  refine Keeps.step ?_ kh km
  unfold execCovenantClear at ke
  cases ke
  repeat' first
    | with_reducible exact Keeps.refl _ _
    | assumption
    | with_reducible refine runMail_keeps (by decide) (fun _ _ _ => ?_) (fun _ _ _ => ?_) ?_
    | with_reducible refine covenantClear_keeps (by decide) ?_

theorem covenantQuery_keeps {kl : List Piece} {k0 : State} {n : Nat} {s : State} {b : List Nat}
    (km : [] ⊆ kl)
    (kh : Keeps kl k0 s) : Keeps kl k0 (covenantQuery n s b).1 := by
  refine Keeps.step ?_ kh km
  unfold covenantQuery
  repeat' first
    | with_reducible exact Keeps.refl _ _
    | assumption
    | with_reducible refine deny_keeps (by decide) ?_
    | refine Keeps.fst ‹_ = (_, _)› (deny_keeps (by decide) ?_)
    | with_reducible refine Keeps.ite ?_ ?_
    | split
    | dsimp only

theorem execCovenantQuery_keeps {kl : List Piece} {k0 : State} {seat : BitVec 6} {s kt : State}
    (km : [.pins, .boot, .pkg, .lds, .seats, .extents, .mem, .coh, .fronds, .covs, .tally, .life, .log, .regs, .wire] ⊆ kl) (ke : execCovenantQuery seat s = .next kt)
    (kh : Keeps kl k0 s) : Keeps kl k0 kt := by
  refine Keeps.step ?_ kh km
  unfold execCovenantQuery at ke
  cases ke
  repeat' first
    | with_reducible exact Keeps.refl _ _
    | assumption
    | with_reducible refine runMail_keeps (by decide) (fun _ _ _ => ?_) (fun _ _ _ => ?_) ?_
    | with_reducible refine covenantQuery_keeps (by decide) ?_

theorem keyLoad_keeps {kl : List Piece} {k0 : State} {n : Nat} {s : State} {b : List Nat} (km : [.pins, .boot, .pkg, .lds, .seats, .extents, .keys, .mem, .coh, .fronds, .covs, .tally, .life, .log, .regs, .wire] ⊆ kl)
    (kh : Keeps kl k0 s) : Keeps kl k0 (keyLoad n s b).1 := by
  refine Keeps.step ?_ kh km
  unfold keyLoad
  repeat' first
    | with_reducible exact Keeps.refl _ _
    | assumption
    | with_reducible refine deny_keeps (by decide) ?_
    | refine Keeps.fst ‹_ = (_, _)› (deny_keeps (by decide) ?_)
    | with_reducible refine take_keeps (by decide) ?_
    | with_reducible refine okay_keeps (by decide) ?_
    | refine Keeps.fst ‹_ = (_, _)› (okay_keeps (by decide) ?_)
    | with_reducible refine Keeps.ite ?_ ?_
    | split
    | dsimp only
    | (with_reducible refine Keeps.put ?_ ?_; rotate_left 1
       · (refine Only.intro fun kp khp => ?_; cases kp <;> first | with_reducible exact rfl | exact absurd (by decide) khp))
    | (with_reducible refine Keeps.set ?_ ?_; rotate_left 1
       · (refine Only.intro fun kp khp => ?_; cases kp <;> first | with_reducible exact rfl | exact absurd (by decide) khp))
    | split

theorem execKeyLoad_keeps {kl : List Piece} {k0 : State} {seat : BitVec 6} {s kt : State}
    (km : [.pins, .boot, .pkg, .lds, .seats, .extents, .keys, .mem, .coh, .fronds, .covs, .tally, .life, .log, .regs, .wire] ⊆ kl) (ke : execKeyLoad seat s = .next kt)
    (kh : Keeps kl k0 s) : Keeps kl k0 kt := by
  refine Keeps.step ?_ kh km
  unfold execKeyLoad at ke
  cases ke
  repeat' first
    | with_reducible exact Keeps.refl _ _
    | assumption
    | with_reducible refine runMail_keeps (by decide) (fun _ _ _ => ?_) (fun _ _ _ => ?_) ?_
    | with_reducible refine keyLoad_keeps (by decide) ?_

theorem fmSteward_keeps {kl : List Piece} {k0 s : State} {c : FmCmd} (km : [.pins, .boot, .pkg, .lds, .seats, .steward, .extents, .mem, .coh, .fronds, .rings, .jobs, .nextId, .disp, .covs, .tally, .life, .log, .regs, .wire] ⊆ kl)
    (kh : Keeps kl k0 s) : Keeps kl k0 (fmSteward s c).1 := by
  cases c with
  | add exts => exact addRequest_keeps (List.Subset.trans (by decide) km) kh
  | release seat bases forced =>
    exact Keeps.foldl kh fun u x => Keeps.ite (forceRelease_keeps (List.Subset.trans (by decide) km) (Keeps.refl _ _))
      (askRelease_keeps (List.Subset.trans (by decide) km) (Keeps.refl _ _))
  | bind p => exact bindLd_keeps (List.Subset.trans (by decide) km) kh
  | unbind p => exact unbindLd_keeps (List.Subset.trans (by decide) km) kh

theorem execFmTunnel_keeps {kl : List Piece} {k0 : State} {seat : BitVec 6} {cmd : FmCmd} {s kt : State}
    (km : [.pins, .boot, .pkg, .lds, .seats, .steward, .extents, .mem, .coh, .fronds, .rings, .jobs, .nextId, .disp, .covs, .tally, .life, .log, .regs, .wire] ⊆ kl) (ke : execFmTunnel seat cmd s = .next kt)
    (kh : Keeps kl k0 s) : Keeps kl k0 kt := by
  refine Keeps.step ?_ kh km
  unfold execFmTunnel at ke
  cases ke
  repeat' first
    | with_reducible exact Keeps.refl _ _
    | assumption
    | with_reducible refine runMail_keeps (by decide) (fun _ _ _ => ?_) (fun _ _ _ => ?_) ?_
    | with_reducible refine okay_keeps (by decide) ?_
    | refine Keeps.fst ‹_ = (_, _)› (okay_keeps (by decide) ?_)
    | with_reducible refine fmSteward_keeps (by decide) ?_
    | refine Keeps.fst ‹_ = (_, _)› (fmSteward_keeps (by decide) ?_)
    | with_reducible refine send_keeps (by decide) ?_

theorem tableOwner_keeps {kl : List Piece} {k0 s : State} {b : List Nat}
    (km : [.tables] ⊆ kl)
    (kh : Keeps kl k0 s) : Keeps kl k0 (tableOwner s b).1 := by
  refine Keeps.step ?_ kh km
  unfold tableOwner
  repeat' first
    | with_reducible exact Keeps.refl _ _
    | assumption
    | with_reducible refine deny_keeps (by decide) ?_
    | refine Keeps.fst ‹_ = (_, _)› (deny_keeps (by decide) ?_)
    | with_reducible refine okay_keeps (by decide) ?_
    | refine Keeps.fst ‹_ = (_, _)› (okay_keeps (by decide) ?_)
    | with_reducible refine putTable_keeps (by decide) ?_
    | with_reducible refine Keeps.ite ?_ ?_
    | split
    | dsimp only

theorem execTableOwner_keeps {kl : List Piece} {k0 : State} {seat : BitVec 6} {s kt : State}
    (km : [.pins, .boot, .pkg, .lds, .seats, .extents, .mem, .coh, .fronds, .tables, .covs, .tally, .life, .log, .regs, .wire] ⊆ kl) (ke : execTableOwner seat s = .next kt)
    (kh : Keeps kl k0 s) : Keeps kl k0 kt := by
  refine Keeps.step ?_ kh km
  unfold execTableOwner at ke
  cases ke
  repeat' first
    | with_reducible exact Keeps.refl _ _
    | assumption
    | with_reducible refine runMail_keeps (by decide) (fun _ _ _ => ?_) (fun _ _ _ => ?_) ?_
    | with_reducible refine tableOwner_keeps (by decide) ?_

theorem execCovBreachEnd_keeps {kl : List Piece} {k0 : State} {id : BitVec 8} {s kt : State}
    (km : [.boot, .pkg, .lds, .covs, .life, .log] ⊆ kl) (ke : execCovBreachEnd id s = .next kt)
    (kh : Keeps kl k0 s) : Keeps kl k0 kt := by
  refine Keeps.step ?_ kh km
  unfold execCovBreachEnd at ke
  cases ke
  repeat' first
    | with_reducible exact Keeps.refl _ _
    | assumption
    | with_reducible refine covEnd_keeps (by decide) ?_
    | with_reducible refine Keeps.ite ?_ ?_
    | split

theorem modSpdm_keeps {kl : List Piece} {k0 s : State} {ch : SpdmChan} {f : Spdm → Spdm}
    (km : [.lds, .mctp] ⊆ kl)
    (kh : Keeps kl k0 s) : Keeps kl k0 (modSpdm s ch f) := by
  refine Keeps.step ?_ kh km
  unfold modSpdm
  repeat' first
    | with_reducible exact Keeps.refl _ _
    | assumption
    | with_reducible refine modLd_keeps (by decide) ?_
    | split
    | dsimp only
    | (with_reducible refine Keeps.put ?_ ?_; rotate_left 1
       · (refine Only.intro fun kp khp => ?_; cases kp <;> first | with_reducible exact rfl | exact absurd (by decide) khp))

theorem chanWake_keeps {kl : List Piece} {k0 : State} {s : State} {ch : SpdmChan} (km : [.tally, .regs] ⊆ kl)
    (kh : Keeps kl k0 s) : Keeps kl k0 (chanWake s ch) := by
  refine Keeps.step ?_ kh km
  unfold chanWake
  repeat' first
    | with_reducible exact Keeps.refl _ _
    | assumption
    | with_reducible refine sideWake_keeps (by decide) ?_
    | split
    | dsimp only
    | (with_reducible refine Keeps.put ?_ ?_; rotate_left 1
       · (refine Only.intro fun kp khp => ?_; cases kp <;> first | with_reducible exact rfl | exact absurd (by decide) khp))
    | (with_reducible refine Keeps.set ?_ ?_; rotate_left 1
       · (refine Only.intro fun kp khp => ?_; cases kp <;> first | with_reducible exact rfl | exact absurd (by decide) khp))
    | split

theorem spdmAnswer_keeps {kl : List Piece} {k0 : State} {s : State} {ch : SpdmChan} {request : Nat} {words : List (BitVec 64)} (km : [.tally, .regs, .wire, .freeCtr] ⊆ kl)
    (kh : Keeps kl k0 s) : Keeps kl k0 (spdmAnswer s ch request words) := by
  refine Keeps.step ?_ kh km
  unfold spdmAnswer
  repeat' first
    | with_reducible exact Keeps.refl _ _
    | assumption
    | with_reducible refine send_keeps (by decide) ?_
    | with_reducible refine fresh_keeps (by decide) ?_
    | with_reducible refine chanWake_keeps (by decide) ?_
    | with_reducible refine Keeps.ite ?_ ?_
    | split

theorem execGetDigests_keeps {kl : List Piece} {k0 : State} {ch : SpdmChan} {s kt : State}
    (km : [.tally, .regs, .wire, .freeCtr] ⊆ kl) (ke : execGetDigests ch s = .next kt)
    (kh : Keeps kl k0 s) : Keeps kl k0 kt := by
  refine Keeps.step ?_ kh km
  unfold execGetDigests at ke
  cases ke
  repeat' first
    | with_reducible exact Keeps.refl _ _
    | assumption
    | with_reducible refine spdmAnswer_keeps (by decide) ?_

theorem execGetCertificate_keeps {kl : List Piece} {k0 : State} {ch : SpdmChan} {_offset length : Word} {s kt : State}
    (km : [.tally, .regs, .wire, .freeCtr] ⊆ kl) (ke : execGetCertificate ch _offset length s = .next kt)
    (kh : Keeps kl k0 s) : Keeps kl k0 kt := by
  refine Keeps.step ?_ kh km
  unfold execGetCertificate at ke
  cases ke
  repeat' first
    | with_reducible exact Keeps.refl _ _
    | assumption
    | with_reducible refine spdmAnswer_keeps (by decide) ?_

theorem execChallenge_keeps {kl : List Piece} {k0 : State} {ch : SpdmChan} {_nonce : BitVec 256} {s kt : State}
    (km : [.tally, .regs, .wire, .freeCtr] ⊆ kl) (ke : execChallenge ch _nonce s = .next kt)
    (kh : Keeps kl k0 s) : Keeps kl k0 kt := by
  refine Keeps.step ?_ kh km
  unfold execChallenge at ke
  cases ke
  repeat' first
    | with_reducible exact Keeps.refl _ _
    | assumption
    | with_reducible refine spdmAnswer_keeps (by decide) ?_

theorem execGetMeasurements_keeps {kl : List Piece} {k0 : State} {ch : SpdmChan} {index : BitVec 8} {s kt : State}
    (km : [.tally, .regs, .wire, .freeCtr] ⊆ kl) (ke : execGetMeasurements ch index s = .next kt)
    (kh : Keeps kl k0 s) : Keeps kl k0 kt := by
  refine Keeps.step ?_ kh km
  unfold execGetMeasurements at ke
  cases ke
  repeat' first
    | with_reducible exact Keeps.refl _ _
    | assumption
    | with_reducible refine spdmAnswer_keeps (by decide) ?_

theorem execKeyExchange_keeps {kl : List Piece} {k0 : State} {ch : SpdmChan} {_random : BitVec 256} {s kt : State}
    (km : [.lds, .mctp, .tally, .regs, .wire, .freeCtr] ⊆ kl) (ke : execKeyExchange ch _random s = .next kt)
    (kh : Keeps kl k0 s) : Keeps kl k0 kt := by
  refine Keeps.step ?_ kh km
  unfold execKeyExchange at ke
  cases ke
  repeat' first
    | with_reducible exact Keeps.refl _ _
    | assumption
    | with_reducible refine spdmAnswer_keeps (by decide) ?_
    | with_reducible refine modSpdm_keeps (by decide) ?_
    | with_reducible refine Keeps.ite ?_ ?_

theorem execFinish_keeps {kl : List Piece} {k0 : State} {ch : SpdmChan} {verified : Bool} {s : State} {kt : State} (km : [.lds, .mctp, .tally, .regs, .wire] ⊆ kl) (ke : execFinish ch verified s = .next kt)
    (kh : Keeps kl k0 s) : Keeps kl k0 kt := by
  refine Keeps.step ?_ kh km
  unfold execFinish at ke
  cases ke
  repeat' first
    | with_reducible exact Keeps.refl _ _
    | assumption
    | with_reducible refine modSpdm_keeps (by decide) ?_
    | with_reducible refine send_keeps (by decide) ?_
    | with_reducible refine chanWake_keeps (by decide) ?_
    | with_reducible refine Keeps.ite ?_ ?_
    | split
    | dsimp only
    | (with_reducible refine Keeps.put ?_ ?_; rotate_left 1
       · (refine Only.intro fun kp khp => ?_; cases kp <;> first | with_reducible exact rfl | exact absurd (by decide) khp))
    | (with_reducible refine Keeps.set ?_ ?_; rotate_left 1
       · (refine Only.intro fun kp khp => ?_; cases kp <;> first | with_reducible exact rfl | exact absurd (by decide) khp))
    | split

end Sys2Proof.Machine
end

