-- ==== Sys2Proof/Laws/Service.lean ====
section
/-!
SUPPORT. What the operations of Machine/Service.lean keep.
-/
set_option linter.unusedTactic false
set_option linter.unreachableTactic false
namespace Sys2Proof.Machine

theorem onGuard_keeps {kl : List Piece} {k0 s : State} {p : Place} {a : Nat} {w : Word32}
    {f : State → Word32 → State} (km : [.pins, .lds, .fronds, .tally, .regs, .wire] ⊆ kl) (kf : ∀ t v, Keeps kl k0 t → Keeps kl k0 (f t v))
    (kh : Keeps kl k0 s) : Keeps kl k0 (onGuard s p a w f) := by
  have h := guardEffect_keeps (p := p) (a := a) (w := w) (List.Subset.trans (by decide) km) kh
  unfold onGuard
  refine Keeps.ite (queueWrite_keeps (List.Subset.trans (by decide) km) kh) ?_
  generalize guardEffect s p a w = x at h ⊢
  obtain ⟨t, _ | v⟩ := x
  · exact h
  · exact kf _ _ (wakePage_keeps (List.Subset.trans (by decide) km) h)

theorem forgetAgent_keeps {kl : List Piece} {k0 : State} {s : State} {a : Nat} {hub : Nat} (km : [.mem, .coh] ⊆ kl)
    (kh : Keeps kl k0 s) : Keeps kl k0 (forgetAgent s a hub).1 := by
  refine Keeps.step ?_ kh km
  unfold forgetAgent
  repeat' first
    | with_reducible exact Keeps.refl _ _
    | assumption
    | with_reducible refine setPoison_keeps (by decide) ?_
    | with_reducible refine modCoh_keeps (by decide) ?_
    | with_reducible refine setDir_keeps (by decide) ?_
    | with_reducible refine Keeps.ite ?_ ?_
    | with_reducible refine Keeps.foldl ?_ (fun _ _ => ?_)
    | with_reducible refine Keeps.foldl1 ?_ (fun _ _ => ?_)
    | split
    | dsimp only
    | (with_reducible refine Keeps.put ?_ ?_; rotate_left 1
       · (refine Only.intro fun kp khp => ?_; cases kp <;> first | with_reducible exact rfl | exact absurd (by decide) khp))
    | (with_reducible refine Keeps.set ?_ ?_; rotate_left 1
       · (refine Only.intro fun kp khp => ?_; cases kp <;> first | with_reducible exact rfl | exact absurd (by decide) khp))
    | split

theorem loseAgentAt_keeps {kl : List Piece} {k0 : State} {a hub : Nat} {x : State × Nat} (km : [.pins, .boot, .pkg, .lds, .seats, .extents, .mem, .coh, .fronds, .rings, .covs, .tally, .life, .log, .regs, .wire] ⊆ kl)
    (kh : Keeps kl k0 x.1) : Keeps kl k0 (loseAgentAt a hub x).1 := by
  refine Keeps.step ?_ kh km
  unfold loseAgentAt
  refine Keeps.foldl (forgetAgent_keeps (by decide) (Keeps.foldl1 (Keeps.refl _ _) fun q e => ?_)) fun u e => ?_
  · have h := leave_keeps (line := e.1 / 64) (hub := hub) (a := a) (kl := [.pins, .boot, .pkg, .lds, .seats, .extents, .mem, .coh, .fronds, .rings, .covs, .tally, .life, .log, .regs, .wire]) (by decide) (Keeps.refl _ q.1)
    dsimp only
    split
    · exact setPoison_keeps (by decide) h
    · exact h
  · refine Keeps.ite (Keeps.foldl (Keeps.refl _ _) fun v c => ?_) (Keeps.refl _ _)
    exact cmdDone_keeps (by decide) (Keeps.refl _ _)

theorem loseAgent_keeps {kl : List Piece} {k0 s : State} {a : Nat} {homes : List Nat}
    (km : [.pins, .boot, .pkg, .lds, .seats, .extents, .mem, .coh, .fronds, .rings, .covs, .tally, .life, .log, .regs, .wire] ⊆ kl)
    (kh : Keeps kl k0 s) : Keeps kl k0 (loseAgent s a homes) := by
  refine Keeps.step ?_ kh km
  unfold loseAgent
  repeat' first
    | with_reducible exact Keeps.refl _ _
    | assumption
    | with_reducible refine loseAgentAt_keeps (by decide) ?_
    | with_reducible refine event_keeps (by decide) ?_
    | with_reducible refine Keeps.foldl ?_ (fun _ _ => ?_)
    | with_reducible refine Keeps.foldl1 ?_ (fun _ _ => ?_)

theorem emptyCache_keeps {kl : List Piece} {k0 : State} {s : State} {a : Nat} (km : [.boot, .pkg, .lds, .mem, .coh, .life, .log] ⊆ kl)
    (kh : Keeps kl k0 s) : Keeps kl k0 (emptyCache s a) := by
  refine Keeps.step ?_ kh km
  unfold emptyCache
  repeat' first
    | with_reducible exact Keeps.refl _ _
    | assumption
    | with_reducible refine checkCopy_keeps (by decide) ?_
    | with_reducible refine leave_keeps (by decide) ?_
    | with_reducible refine toWb_keeps (by decide) ?_
    | with_reducible refine Keeps.ite ?_ ?_
    | with_reducible refine Keeps.foldl ?_ (fun _ _ => ?_)
    | with_reducible refine Keeps.foldl1 ?_ (fun _ _ => ?_)
    | split

theorem failSearches_keeps {kl : List Piece} {k0 s : State} {test : Search → Bool} {st : BitVec 8}
    (km : [.pins, .boot, .pkg, .lds, .seats, .extents, .mem, .coh, .fronds, .tables, .rings, .searches, .disp, .covs, .tally, .life, .log, .regs, .wire] ⊆ kl)
    (kh : Keeps kl k0 s) : Keeps kl k0 (failSearches s test st) := by
  refine Keeps.step ?_ kh km
  unfold failSearches
  repeat' first
    | with_reducible exact Keeps.refl _ _
    | assumption
    | with_reducible refine failSearch_keeps (by decide) ?_
    | with_reducible refine Keeps.foldl ?_ (fun _ _ => ?_)

theorem dropMoves_keeps {kl : List Piece} {k0 s : State} {dies : List Nat} {st : BitVec 8}
    (km : [.boot, .pkg, .lds, .extents, .mem, .coh, .fronds, .rings, .covs, .life, .log, .regs, .wire] ⊆ kl)
    (kh : Keeps kl k0 s) : Keeps kl k0 (dropMoves s dies st) := by
  refine Keeps.step ?_ kh km
  unfold dropMoves
  repeat' first
    | with_reducible exact Keeps.refl _ _
    | assumption
    | with_reducible refine modFrond_keeps (by decide) ?_
    | with_reducible refine moveOver_keeps (by decide) ?_
    | with_reducible refine Keeps.foldl ?_ (fun _ _ => ?_)

theorem setDie_keeps {kl : List Piece} {k0 s : State} {die : Nat} {on : Bool}
    (km : [.pkg] ⊆ kl)
    (kh : Keeps kl k0 s) : Keeps kl k0 (setDie s die on) := by
  refine Keeps.step ?_ kh km
  unfold setDie
  repeat' first
    | with_reducible exact Keeps.refl _ _
    | assumption
    | with_reducible refine Keeps.ite ?_ ?_
    | (with_reducible refine Keeps.set ?_ ?_ ?_ ?_ ?_ ?_ ?_ ?_ ?_ ?_ ?_ ?_ ?_; rotate_left 1
       · (refine Only.intro fun kp khp => ?_; cases kp <;> first | with_reducible exact rfl | exact absurd (by decide) khp)
       · with_reducible exact List.prefix_refl _
       · with_reducible exact Nat.le_refl _
       · with_reducible exact Nat.le_refl _
       · with_reducible exact Nat.le_refl _
       · with_reducible exact List.suffix_refl _
       · with_reducible exact fun x => x
       · with_reducible exact fun x => x
       · with_reducible exact fun x => x
       · with_reducible exact fun x => x
       · with_reducible exact fun x => x
       · with_reducible exact fun x => ⟨x.mode, x.bootMode, x.storeMode, x.sel, x.whole⟩)

theorem frondGone_keeps {kl : List Piece} {k0 : State} {s : State} {die : Nat} {cause : Nat} (km : [.pins, .boot, .pkg, .lds, .seats, .extents, .mem, .coh, .fronds, .tables, .rings, .searches, .jobs, .disp, .covs, .tally, .life, .log, .regs, .wire] ⊆ kl)
    (kh : Keeps kl k0 s) : Keeps kl k0 (frondGone s die cause) := by
  refine Keeps.step ?_ kh km
  unfold frondGone
  repeat' first
    | with_reducible exact Keeps.refl _ _
    | assumption
    | with_reducible refine setDie_keeps (by decide) ?_
    | with_reducible refine failSearches_keeps (by decide) ?_
    | with_reducible refine dropMoves_keeps (by decide) ?_
    | with_reducible refine jobOver_keeps (by decide) ?_
    | with_reducible refine modFrond_keeps (by decide) ?_
    | with_reducible refine loseAgent_keeps (by decide) ?_
    | with_reducible refine resolveAll_keeps (by decide) ?_
    | with_reducible refine event_keeps (by decide) ?_
    | with_reducible refine Keeps.foldl ?_ (fun _ _ => ?_)
    | with_reducible refine Keeps.foldl1 ?_ (fun _ _ => ?_)
    | (with_reducible refine Keeps.put ?_ ?_; rotate_left 1
       · (refine Only.intro fun kp khp => ?_; cases kp <;> first | with_reducible exact rfl | exact absurd (by decide) khp))
    | (with_reducible refine Keeps.set ?_ ?_; rotate_left 1
       · (refine Only.intro fun kp khp => ?_; cases kp <;> first | with_reducible exact rfl | exact absurd (by decide) khp))

theorem modPort_keeps {kl : List Piece} {k0 s : State} {port : Nat} {f : Port → Port}
    (km : [.ports] ⊆ kl)
    (kh : Keeps kl k0 s) : Keeps kl k0 (modPort s port f) := by
  refine Keeps.step ?_ kh km
  unfold modPort
  repeat' first
    | with_reducible exact Keeps.refl _ _
    | assumption
    | (with_reducible refine Keeps.set ?_ ?_ ?_ ?_ ?_ ?_ ?_ ?_ ?_ ?_ ?_ ?_ ?_; rotate_left 1
       · (refine Only.intro fun kp khp => ?_; cases kp <;> first | with_reducible exact rfl | exact absurd (by decide) khp)
       · with_reducible exact List.prefix_refl _
       · with_reducible exact Nat.le_refl _
       · with_reducible exact Nat.le_refl _
       · with_reducible exact Nat.le_refl _
       · with_reducible exact List.suffix_refl _
       · with_reducible exact fun x => x
       · with_reducible exact fun x => x
       · with_reducible exact fun x => x
       · with_reducible exact fun x => x
       · first | with_reducible exact fun x => x | exact fun x => by simpa using x
       · with_reducible exact fun x => ⟨x.mode, x.bootMode, x.storeMode, x.sel, x.whole⟩)

theorem cutPort_keeps {kl : List Piece} {k0 s : State} {port how : Nat}
    (km : [.pins, .boot, .pkg, .ports, .lds, .seats, .extents, .mem, .coh, .fronds, .rings, .covs, .tally, .life, .log, .regs, .wire] ⊆ kl)
    (kh : Keeps kl k0 s) : Keeps kl k0 (cutPort s port how) := by
  refine Keeps.step ?_ kh km
  unfold cutPort
  repeat' first
    | with_reducible exact Keeps.refl _ _
    | assumption
    | with_reducible refine linkLoss_keeps (by decide) ?_
    | with_reducible refine modPort_keeps (by decide) ?_
    | with_reducible refine event_keeps (by decide) ?_
    | with_reducible refine Keeps.ite ?_ ?_
    | with_reducible refine Keeps.foldl ?_ (fun _ _ => ?_)
    | with_reducible refine Keeps.foldl1 ?_ (fun _ _ => ?_)
    | (with_reducible refine Keeps.put ?_ ?_; rotate_left 1
       · (refine Only.intro fun kp khp => ?_; cases kp <;> first | with_reducible exact rfl | exact absurd (by decide) khp))

theorem drainPort_keeps {kl : List Piece} {k0 s : State} {port : Nat}
    (km : [.boot, .pkg, .lds, .extents, .mem, .coh, .rings, .covs, .life, .log, .regs, .wire] ⊆ kl)
    (kh : Keeps kl k0 s) : Keeps kl k0 (drainPort s port).1 := by
  refine Keeps.step ?_ kh km
  unfold drainPort
  repeat' first
    | with_reducible exact Keeps.refl _ _
    | assumption
    | with_reducible refine flush_keeps (by decide) ?_
    | with_reducible refine snoopSeat_keeps (by decide) ?_
    | with_reducible refine Keeps.ite ?_ ?_
    | with_reducible refine Keeps.foldl ?_ (fun _ _ => ?_)
    | with_reducible refine Keeps.foldl1 ?_ (fun _ _ => ?_)
    | split
    | dsimp only

theorem bifWrite_keeps {kl : List Piece} {k0 : State} {port : Nat} {s : State} {w : Word32}
    (km : [.store, .life, .regs, .wire] ⊆ kl)
    (kh : Keeps kl k0 s) : Keeps kl k0 (bifWrite port s w) := by
  refine Keeps.step ?_ kh km
  unfold bifWrite
  repeat' first
    | with_reducible exact Keeps.refl _ _
    | assumption
    | with_reducible refine guardStore_keeps (by decide) ?_
    | refine Keeps.fst ‹_ = (_, _)› (guardStore_keeps (by decide) ?_)
    | with_reducible refine setReg_keeps (by decide) ?_
    | with_reducible refine covered_keeps (by decide) ?_
    | with_reducible refine storeWrite_keeps (by decide) ?_
    | with_reducible refine Keeps.ite ?_ ?_
    | split
    | dsimp only
    | (with_reducible refine Keeps.set ?_ ?_ ?_ ?_ ?_ ?_ ?_ ?_ ?_ ?_ ?_ ?_ ?_; rotate_left 1
       · (refine Only.intro fun kp khp => ?_; cases kp <;> first | with_reducible exact rfl | exact absurd (by decide) khp)
       · with_reducible exact List.prefix_refl _
       · with_reducible exact Nat.le_refl _
       · with_reducible exact Nat.le_refl _
       · with_reducible exact Nat.le_refl _
       · with_reducible exact List.suffix_refl _
       · with_reducible exact fun x => x
       · with_reducible exact fun x => x
       · with_reducible exact fun x => x
       · with_reducible exact fun x => x
       · with_reducible exact fun x => x
       · with_reducible exact fun x => ⟨x.mode, x.bootMode, x.storeMode, x.sel, x.whole⟩)

theorem bringUp_keeps {kl : List Piece} {k0 s : State} {port : Nat}
    (km : [.pins, .ports] ⊆ kl)
    (kh : Keeps kl k0 s) : Keeps kl k0 (bringUp s port) := by
  refine Keeps.step ?_ kh km
  unfold bringUp
  repeat' first
    | with_reducible exact Keeps.refl _ _
    | assumption
    | with_reducible refine modPort_keeps (by decide) ?_
    | with_reducible refine Keeps.ite ?_ ?_
    | with_reducible refine Keeps.getD ?_ (fun _ _ => ?_)
    | (with_reducible refine Keeps.put ?_ ?_; rotate_left 1
       · (refine Only.intro fun kp khp => ?_; cases kp <;> first | with_reducible exact rfl | exact absurd (by decide) khp))

theorem downWrite_keeps {kl : List Piece} {k0 : State} {port : Nat} {s : State} {w : Word32}
    (km : [.pins, .boot, .pkg, .ports, .lds, .life, .log, .regs, .wire] ⊆ kl)
    (kh : Keeps kl k0 s) : Keeps kl k0 (downWrite port s w) := by
  refine Keeps.step ?_ kh km
  unfold downWrite
  repeat' first
    | with_reducible exact Keeps.refl _ _
    | assumption
    | with_reducible refine guardStore_keeps (by decide) ?_
    | refine Keeps.fst ‹_ = (_, _)› (guardStore_keeps (by decide) ?_)
    | with_reducible refine modPort_keeps (by decide) ?_
    | with_reducible refine event_keeps (by decide) ?_
    | with_reducible refine bringUp_keeps (by decide) ?_
    | with_reducible refine Keeps.ite ?_ ?_
    | with_reducible refine Keeps.getD ?_ (fun _ _ => ?_)
    | split

theorem execHportBif_keeps {kl : List Piece} {k0 : State} {p : Place} {port : BitVec 3} {w : Word32} {s kt : State}
    (km : [.pins, .store, .lds, .fronds, .tally, .life, .regs, .wire] ⊆ kl) (ke : execHportBif p port w s = .next kt)
    (kh : Keeps kl k0 s) : Keeps kl k0 kt := by
  refine Keeps.step ?_ kh km
  unfold execHportBif at ke
  cases ke
  repeat' first
    | with_reducible exact Keeps.refl _ _
    | assumption
    | with_reducible refine onGuard_keeps (by decide) (fun _ _ _ => ?_) ?_
    | with_reducible refine bifWrite_keeps (by decide) ?_

theorem execHportDown_keeps {kl : List Piece} {k0 : State} {p : Place} {port : BitVec 3} {w : Word32} {s kt : State}
    (km : [.pins, .boot, .pkg, .ports, .lds, .fronds, .tally, .life, .log, .regs, .wire] ⊆ kl) (ke : execHportDown p port w s = .next kt)
    (kh : Keeps kl k0 s) : Keeps kl k0 kt := by
  refine Keeps.step ?_ kh km
  unfold execHportDown at ke
  cases ke
  repeat' first
    | with_reducible exact Keeps.refl _ _
    | assumption
    | with_reducible refine onGuard_keeps (by decide) (fun _ _ _ => ?_) ?_
    | with_reducible refine downWrite_keeps (by decide) ?_

theorem execHportUp_keeps {kl : List Piece} {k0 : State} {p : Place} {port : BitVec 3} {w : Word32} {s kt : State}
    (km : [.pins, .boot, .pkg, .ports, .lds, .fronds, .tally, .life, .log, .regs, .wire] ⊆ kl) (ke : execHportUp p port w s = .next kt)
    (kh : Keeps kl k0 s) : Keeps kl k0 kt := by
  refine Keeps.step ?_ kh km
  unfold execHportUp at ke
  cases ke
  repeat' first
    | with_reducible exact Keeps.refl _ _
    | assumption
    | with_reducible refine onGuard_keeps (by decide) (fun _ _ _ => ?_) ?_
    | with_reducible refine downWrite_keeps (by decide) ?_

theorem execPortDownDrainEnd_keeps {kl : List Piece} {k0 : State} {port : BitVec 3} {s kt : State}
    (km : [.pins, .boot, .pkg, .ports, .lds, .seats, .extents, .mem, .coh, .fronds, .rings, .covs, .tally, .life, .log, .regs, .wire] ⊆ kl) (ke : execPortDownDrainEnd port s = .next kt)
    (kh : Keeps kl k0 s) : Keeps kl k0 kt := by
  refine Keeps.step ?_ kh km
  unfold execPortDownDrainEnd at ke
  cases ke
  repeat' first
    | with_reducible exact Keeps.refl _ _
    | assumption
    | with_reducible refine drainPort_keeps (by decide) ?_
    | refine Keeps.fst ‹_ = (_, _)› (drainPort_keeps (by decide) ?_)
    | with_reducible refine cutPort_keeps (by decide) ?_
    | with_reducible refine Keeps.ite ?_ ?_

theorem setHalf_keeps {kl : List Piece} {k0 s : State} {half : Nat} {x : HalfState}
    (km : [.pkg] ⊆ kl)
    (kh : Keeps kl k0 s) : Keeps kl k0 (setHalf s half x) := by
  refine Keeps.step ?_ kh km
  unfold setHalf
  repeat' first
    | with_reducible exact Keeps.refl _ _
    | assumption
    | (with_reducible refine Keeps.set ?_ ?_ ?_ ?_ ?_ ?_ ?_ ?_ ?_ ?_ ?_ ?_ ?_; rotate_left 1
       · (refine Only.intro fun kp khp => ?_; cases kp <;> first | with_reducible exact rfl | exact absurd (by decide) khp)
       · with_reducible exact List.prefix_refl _
       · with_reducible exact Nat.le_refl _
       · with_reducible exact Nat.le_refl _
       · with_reducible exact Nat.le_refl _
       · with_reducible exact List.suffix_refl _
       · with_reducible exact fun x => x
       · with_reducible exact fun x => x
       · with_reducible exact fun x => x
       · with_reducible exact fun x => x
       · with_reducible exact fun x => x
       · with_reducible exact fun x => ⟨x.mode, x.bootMode, x.storeMode, x.sel, x.whole⟩)

theorem makePrimary_keeps {kl : List Piece} {k0 : State} {s : State} {half : Nat} (km : [.boot, .pkg, .lds, .fronds, .life, .log] ⊆ kl)
    (kh : Keeps kl k0 s) : Keeps kl k0 (makePrimary s half) := by
  refine Keeps.step ?_ kh km
  unfold makePrimary
  repeat' first
    | with_reducible exact Keeps.refl _ _
    | assumption
    | with_reducible refine event_keeps (by decide) ?_
    | with_reducible refine handCounts_keeps (by decide) ?_
    | with_reducible refine Keeps.ite ?_ ?_
    | with_reducible refine Keeps.foldl ?_ (fun _ _ => ?_)
    | with_reducible refine Keeps.foldl1 ?_ (fun _ _ => ?_)
    | (with_reducible refine Keeps.put ?_ ?_; rotate_left 1
       · (refine Only.intro fun kp khp => ?_; cases kp <;> first | with_reducible exact rfl | exact absurd (by decide) khp))
    | (with_reducible refine Keeps.set ?_ ?_; rotate_left 1
       · (refine Only.intro fun kp khp => ?_; cases kp <;> first | with_reducible exact rfl | exact absurd (by decide) khp))
    | split

theorem halfLostSub_keeps {kl : List Piece} {k0 : State} {s : State} {r : Nat} {u : Sub} (km : [.pins, .boot, .pkg, .lds, .seats, .extents, .mem, .coh, .fronds, .tables, .rings, .searches, .disp, .covs, .tally, .life, .log, .regs, .wire] ⊆ kl)
    (kh : Keeps kl k0 s) : Keeps kl k0 (halfLostSub s r u) := by
  refine Keeps.step ?_ kh km
  unfold halfLostSub
  repeat' first
    | with_reducible exact Keeps.refl _ _
    | assumption
    | with_reducible refine failSearches_keeps (by decide) ?_
    | with_reducible refine settle_keeps (by decide) ?_
    | with_reducible refine countStats_keeps (by decide) ?_
    | with_reducible refine modRing_keeps (by decide) ?_
    | with_reducible refine complete_keeps (by decide) ?_
    | with_reducible refine Keeps.ite ?_ ?_
    | with_reducible refine Keeps.foldl ?_ (fun _ _ => ?_)
    | with_reducible refine Keeps.foldl1 ?_ (fun _ _ => ?_)
    | split
    | dsimp only
    | (with_reducible refine Keeps.put ?_ ?_; rotate_left 1
       · (refine Only.intro fun kp khp => ?_; cases kp <;> first | with_reducible exact rfl | exact absurd (by decide) khp))
    | (with_reducible refine Keeps.set ?_ ?_; rotate_left 1
       · (refine Only.intro fun kp khp => ?_; cases kp <;> first | with_reducible exact rfl | exact absurd (by decide) khp))
    | split

theorem halfLostRings_keeps {kl : List Piece} {k0 : State} {s : State} {half : Nat} (km : [.pins, .boot, .pkg, .lds, .seats, .extents, .mem, .coh, .fronds, .tables, .rings, .searches, .jobs, .disp, .covs, .tally, .life, .log, .regs, .wire] ⊆ kl)
    (kh : Keeps kl k0 s) : Keeps kl k0 (halfLostRings s half) := by
  refine Keeps.step ?_ kh km
  unfold halfLostRings
  repeat' first
    | with_reducible exact Keeps.refl _ _
    | assumption
    | with_reducible refine jobOver_keeps (by decide) ?_
    | with_reducible refine halfLostSub_keeps (by decide) ?_
    | with_reducible refine modRing_keeps (by decide) ?_
    | with_reducible refine Keeps.getD ?_ (fun _ _ => ?_)
    | with_reducible refine Keeps.foldl ?_ (fun _ _ => ?_)
    | with_reducible refine Keeps.foldl1 ?_ (fun _ _ => ?_)
    | (with_reducible refine Keeps.put ?_ ?_; rotate_left 1
       · (refine Only.intro fun kp khp => ?_; cases kp <;> first | with_reducible exact rfl | exact absurd (by decide) khp))
    | (with_reducible refine Keeps.set ?_ ?_; rotate_left 1
       · (refine Only.intro fun kp khp => ?_; cases kp <;> first | with_reducible exact rfl | exact absurd (by decide) khp))

theorem soloSearches_keeps {kl : List Piece} {k0 s : State} {half : Nat}
    (km : [.pins, .boot, .pkg, .lds, .seats, .extents, .mem, .coh, .fronds, .tables, .rings, .searches, .disp, .covs, .tally, .life, .log, .regs, .wire] ⊆ kl)
    (kh : Keeps kl k0 s) : Keeps kl k0 (soloSearches s half) := by
  refine Keeps.step ?_ kh km
  unfold soloSearches
  repeat' first
    | with_reducible exact Keeps.refl _ _
    | assumption
    | with_reducible refine putSearch_keeps (by decide) ?_
    | with_reducible refine judge_keeps (by decide) ?_
    | refine Keeps.fst ‹_ = (_, _)› (judge_keeps (by decide) ?_)
    | with_reducible refine finalise_keeps (by decide) ?_
    | with_reducible refine failSearch_keeps (by decide) ?_
    | with_reducible refine Keeps.ite ?_ ?_
    | with_reducible refine Keeps.foldl ?_ (fun _ _ => ?_)
    | with_reducible refine Keeps.foldl1 ?_ (fun _ _ => ?_)
    | split
    | dsimp only

theorem dropHome_keeps {kl : List Piece} {k0 : State} {s : State} {h : Nat} {primaryLost : Bool} (km : [.mem, .coh] ⊆ kl)
    (kh : Keeps kl k0 s) : Keeps kl k0 (dropHome s h primaryLost) := by
  refine Keeps.step ?_ kh km
  unfold dropHome
  repeat' first
    | with_reducible exact Keeps.refl _ _
    | assumption
    | with_reducible refine modCoh_keeps (by decide) ?_
    | with_reducible refine modMem_keeps (by decide) (fun x => x) ?_
    | with_reducible refine modMem_keeps (by decide) (fun x => filter_wf x) ?_
    | with_reducible refine Keeps.ite ?_ ?_
    | (with_reducible refine Keeps.put ?_ ?_; rotate_left 1
       · (refine Only.intro fun kp khp => ?_; cases kp <;> first | with_reducible exact rfl | exact absurd (by decide) khp))
    | (with_reducible refine Keeps.set ?_ ?_; rotate_left 1
       · (refine Only.intro fun kp khp => ?_; cases kp <;> first | with_reducible exact rfl | exact absurd (by decide) khp))
    | split

theorem freeMirrors_keeps {kl : List Piece} {k0 : State} {s : State} {hub : Nat} (km : [.pins, .boot, .pkg, .lds, .seats, .extents, .mem, .coh, .fronds, .rings, .covs, .tally, .life, .log, .regs, .wire] ⊆ kl)
    (kh : Keeps kl k0 s) : Keeps kl k0 (freeMirrors s hub) := by
  refine Keeps.step ?_ kh km
  unfold freeMirrors
  repeat' first
    | with_reducible exact Keeps.refl _ _
    | assumption
    | with_reducible refine unpin_keeps (by decide) ?_
    | with_reducible refine modCoh_keeps (by decide) ?_
    | with_reducible refine proceed_keeps (by decide) ?_
    | with_reducible refine Keeps.ite ?_ ?_
    | with_reducible refine Keeps.foldl ?_ (fun _ _ => ?_)
    | with_reducible refine Keeps.foldl1 ?_ (fun _ _ => ?_)
    | split
    | dsimp only
    | (with_reducible refine Keeps.put ?_ ?_; rotate_left 1
       · (refine Only.intro fun kp khp => ?_; cases kp <;> first | with_reducible exact rfl | exact absurd (by decide) khp))
    | (with_reducible refine Keeps.set ?_ ?_; rotate_left 1
       · (refine Only.intro fun kp khp => ?_; cases kp <;> first | with_reducible exact rfl | exact absurd (by decide) khp))
    | split

theorem endReturn_keeps {kl : List Piece} {k0 : State} {s : State} {half : Nat} (km : [.boot, .pkg, .mem, .coh] ⊆ kl)
    (kh : Keeps kl k0 s) : Keeps kl k0 (endReturn s half) := by
  refine Keeps.step ?_ kh km
  unfold endReturn
  repeat' first
    | with_reducible exact Keeps.refl _ _
    | assumption
    | with_reducible refine dropHome_keeps (by decide) ?_
    | with_reducible refine setHalf_keeps (by decide) ?_
    | (with_reducible refine Keeps.put ?_ ?_; rotate_left 1
       · (refine Only.intro fun kp khp => ?_; cases kp <;> first | with_reducible exact rfl | exact absurd (by decide) khp))
    | (with_reducible refine Keeps.set ?_ ?_; rotate_left 1
       · (refine Only.intro fun kp khp => ?_; cases kp <;> first | with_reducible exact rfl | exact absurd (by decide) khp))

theorem halfOut_keeps {kl : List Piece} {k0 : State} {s : State} {half : Nat} {how : Nat} (km : [.pins, .boot, .store, .pkg, .ports, .lds, .seats, .steward, .extents, .mem, .coh, .fronds, .tables, .rings, .searches, .jobs, .disp, .covs, .tally, .life, .log, .regs, .wire] ⊆ kl)
    (kh : Keeps kl k0 s) : Keeps kl k0 (halfOut s half how) := by
  refine Keeps.step ?_ kh km
  unfold halfOut
  repeat' first
    | with_reducible exact Keeps.refl _ _
    | assumption
    | with_reducible refine endReturn_keeps (by decide) ?_
    | with_reducible refine makePrimary_keeps (by decide) ?_
    | with_reducible refine cutPort_keeps (by decide) ?_
    | with_reducible refine setHalf_keeps (by decide) ?_
    | with_reducible refine setDie_keeps (by decide) ?_
    | with_reducible refine soloSearches_keeps (by decide) ?_
    | with_reducible refine halfLostRings_keeps (by decide) ?_
    | with_reducible refine dropMoves_keeps (by decide) ?_
    | with_reducible refine modFrond_keeps (by decide) ?_
    | with_reducible refine freeMirrors_keeps (by decide) ?_
    | with_reducible refine dropHome_keeps (by decide) ?_
    | with_reducible refine endSessions_keeps (by decide) ?_
    | with_reducible refine raiseFull_keeps (by decide) ?_
    | with_reducible refine resolveAll_keeps (by decide) ?_
    | with_reducible refine ledgerWrite_keeps (by decide) ?_
    | with_reducible refine Keeps.ite ?_ ?_
    | with_reducible refine Keeps.foldl ?_ (fun _ _ => ?_)
    | with_reducible refine Keeps.foldl1 ?_ (fun _ _ => ?_)
    | (with_reducible refine Keeps.put ?_ ?_; rotate_left 1
       · (refine Only.intro fun kp khp => ?_; cases kp <;> first | with_reducible exact rfl | exact absurd (by decide) khp))
    | (with_reducible refine Keeps.set ?_ ?_; rotate_left 1
       · (refine Only.intro fun kp khp => ?_; cases kp <;> first | with_reducible exact rfl | exact absurd (by decide) khp))
    | split

theorem halfRefused_keeps {kl : List Piece} {k0 s : State}
    (km : [.regs] ⊆ kl)
    (kh : Keeps kl k0 s) : Keeps kl k0 (halfRefused s) := by
  refine Keeps.step ?_ kh km
  unfold halfRefused
  repeat' first
    | with_reducible exact Keeps.refl _ _
    | assumption
    | with_reducible refine orReg_keeps (by decide) ?_

theorem takeHalfOut_keeps {kl : List Piece} {k0 s : State} {half : Nat}
    (km : [.boot, .pkg, .ports, .lds, .fronds, .life, .log, .regs] ⊆ kl)
    (kh : Keeps kl k0 s) : Keeps kl k0 (takeHalfOut s half) := by
  refine Keeps.step ?_ kh km
  unfold takeHalfOut
  repeat' first
    | with_reducible exact Keeps.refl _ _
    | assumption
    | with_reducible refine halfRefused_keeps (by decide) ?_
    | with_reducible refine setHalf_keeps (by decide) ?_
    | with_reducible refine makePrimary_keeps (by decide) ?_
    | with_reducible refine modPort_keeps (by decide) ?_
    | with_reducible refine Keeps.ite ?_ ?_
    | with_reducible refine Keeps.foldl ?_ (fun _ _ => ?_)

theorem returnHalf_keeps {kl : List Piece} {k0 : State} {s : State} {half : Nat} (km : [.boot, .pkg, .fronds, .regs] ⊆ kl)
    (kh : Keeps kl k0 s) : Keeps kl k0 (returnHalf s half) := by
  refine Keeps.step ?_ kh km
  unfold returnHalf
  repeat' first
    | with_reducible exact Keeps.refl _ _
    | assumption
    | with_reducible refine halfRefused_keeps (by decide) ?_
    | with_reducible refine setHalf_keeps (by decide) ?_
    | with_reducible refine modFrond_keeps (by decide) ?_
    | with_reducible refine Keeps.ite ?_ ?_
    | with_reducible refine Keeps.getD ?_ (fun _ _ => ?_)
    | with_reducible refine Keeps.foldl ?_ (fun _ _ => ?_)
    | with_reducible refine Keeps.foldl1 ?_ (fun _ _ => ?_)
    | split
    | dsimp only
    | (with_reducible refine Keeps.put ?_ ?_; rotate_left 1
       · (refine Only.intro fun kp khp => ?_; cases kp <;> first | with_reducible exact rfl | exact absurd (by decide) khp))
    | (with_reducible refine Keeps.set ?_ ?_; rotate_left 1
       · (refine Only.intro fun kp khp => ?_; cases kp <;> first | with_reducible exact rfl | exact absurd (by decide) khp))
    | split

theorem halfCtl_keeps {kl : List Piece} {k0 s : State} {w : Word32}
    (km : [.boot, .pkg, .ports, .lds, .fronds, .life, .log, .regs, .wire] ⊆ kl)
    (kh : Keeps kl k0 s) : Keeps kl k0 (halfCtl s w) := by
  refine Keeps.step ?_ kh km
  unfold halfCtl
  repeat' first
    | with_reducible exact Keeps.refl _ _
    | assumption
    | with_reducible refine guardStore_keeps (by decide) ?_
    | refine Keeps.fst ‹_ = (_, _)› (guardStore_keeps (by decide) ?_)
    | with_reducible refine takeHalfOut_keeps (by decide) ?_
    | with_reducible refine halfRefused_keeps (by decide) ?_
    | with_reducible refine returnHalf_keeps (by decide) ?_
    | with_reducible refine makePrimary_keeps (by decide) ?_
    | with_reducible refine Keeps.ite ?_ ?_
    | split

theorem execHalfTakeOut_keeps {kl : List Piece} {k0 : State} {p : Place} {w : Word32} {s kt : State}
    (km : [.pins, .boot, .pkg, .ports, .lds, .fronds, .tally, .life, .log, .regs, .wire] ⊆ kl) (ke : execHalfTakeOut p w s = .next kt)
    (kh : Keeps kl k0 s) : Keeps kl k0 kt := by
  refine Keeps.step ?_ kh km
  unfold execHalfTakeOut at ke
  cases ke
  repeat' first
    | with_reducible exact Keeps.refl _ _
    | assumption
    | with_reducible refine onGuard_keeps (by decide) (fun _ _ _ => ?_) ?_
    | with_reducible refine halfCtl_keeps (by decide) ?_

theorem execHalfReturn_keeps {kl : List Piece} {k0 : State} {p : Place} {w : Word32} {s kt : State}
    (km : [.pins, .boot, .pkg, .ports, .lds, .fronds, .tally, .life, .log, .regs, .wire] ⊆ kl) (ke : execHalfReturn p w s = .next kt)
    (kh : Keeps kl k0 s) : Keeps kl k0 kt := by
  refine Keeps.step ?_ kh km
  unfold execHalfReturn at ke
  cases ke
  repeat' first
    | with_reducible exact Keeps.refl _ _
    | assumption
    | with_reducible refine onGuard_keeps (by decide) (fun _ _ _ => ?_) ?_
    | with_reducible refine halfCtl_keeps (by decide) ?_

theorem execHalfMakePrimary_keeps {kl : List Piece} {k0 : State} {p : Place} {w : Word32} {s kt : State}
    (km : [.pins, .boot, .pkg, .ports, .lds, .fronds, .tally, .life, .log, .regs, .wire] ⊆ kl) (ke : execHalfMakePrimary p w s = .next kt)
    (kh : Keeps kl k0 s) : Keeps kl k0 kt := by
  refine Keeps.step ?_ kh km
  unfold execHalfMakePrimary at ke
  cases ke
  repeat' first
    | with_reducible exact Keeps.refl _ _
    | assumption
    | with_reducible refine onGuard_keeps (by decide) (fun _ _ _ => ?_) ?_
    | with_reducible refine halfCtl_keeps (by decide) ?_

theorem execHalfOutDrainEnd_keeps {kl : List Piece} {k0 : State} {half : BitVec 1} {s kt : State}
    (km : [.pins, .boot, .store, .pkg, .ports, .lds, .seats, .steward, .extents, .mem, .coh, .fronds, .tables, .rings, .searches, .jobs, .disp, .covs, .tally, .life, .log, .regs, .wire] ⊆ kl) (ke : execHalfOutDrainEnd half s = .next kt)
    (kh : Keeps kl k0 s) : Keeps kl k0 kt := by
  refine Keeps.step ?_ kh km
  unfold execHalfOutDrainEnd at ke
  cases ke
  repeat' first
    | with_reducible exact Keeps.refl _ _
    | assumption
    | with_reducible refine drainPort_keeps (by decide) ?_
    | refine Keeps.fst ‹_ = (_, _)› (drainPort_keeps (by decide) ?_)
    | with_reducible refine halfOut_keeps (by decide) ?_
    | with_reducible refine Keeps.ite ?_ ?_
    | with_reducible refine Keeps.foldl ?_ (fun _ _ => ?_)
    | with_reducible refine Keeps.foldl1 ?_ (fun _ _ => ?_)

theorem activateFw_keeps {kl : List Piece} {k0 s : State} {h : Nat}
    (km : [.fw, .boot, .store, .pkg, .lds, .life, .log] ⊆ kl)
    (kh : Keeps kl k0 s) : Keeps kl k0 (activateFw s h) := by
  refine Keeps.step ?_ kh km
  unfold activateFw
  repeat' first
    | with_reducible exact Keeps.refl _ _
    | assumption
    | with_reducible refine modLedger_keeps (by decide) ?_
    | with_reducible refine storeWrite_keeps (by decide) ?_
    | with_reducible refine ledgerWrite_keeps (by decide) ?_
    | with_reducible refine event_keeps (by decide) ?_
    | with_reducible refine Keeps.ite ?_ ?_
    | with_reducible refine Keeps.getD ?_ (fun _ _ => ?_)
    | split
    | dsimp only
    | (with_reducible refine Keeps.put ?_ ?_; rotate_left 1
       · (refine Only.intro fun kp khp => ?_; cases kp <;> first | with_reducible exact rfl | exact absurd (by decide) khp))
    | (with_reducible refine Keeps.set ?_ ?_ ?_ ?_ ?_ ?_ ?_ ?_ ?_ ?_ ?_ ?_ ?_; rotate_left 1
       · (refine Only.intro fun kp khp => ?_; cases kp <;> first | with_reducible exact rfl | exact absurd (by decide) khp)
       · with_reducible exact List.prefix_refl _
       · with_reducible exact Nat.le_refl _
       · with_reducible exact Nat.le_refl _
       · with_reducible exact Nat.le_refl _
       · with_reducible exact List.suffix_refl _
       · with_reducible exact fun x => x
       · with_reducible exact fun x => x
       · with_reducible exact fun x => x
       · with_reducible exact fun x => x
       · with_reducible exact fun x => x
       · with_reducible exact fun x => ⟨x.mode, x.bootMode, x.storeMode, x.sel, x.whole⟩)

theorem rebuildArray_keeps {kl : List Piece} {k0 : State} {s : State} {src : Nat} {dst : Nat} (km : [.boot, .pkg, .lds, .fronds, .life, .log, .regs] ⊆ kl)
    (kh : Keeps kl k0 s) : Keeps kl k0 (rebuildArray s src dst) := by
  refine Keeps.step ?_ kh km
  unfold rebuildArray
  repeat' first
    | with_reducible exact Keeps.refl _ _
    | assumption
    | with_reducible refine rebuildRecord_keeps (by decide) ?_
    | with_reducible refine modArr_keeps (by decide) ?_
    | with_reducible refine putRow_keeps (by decide) ?_
    | with_reducible refine putShadow_keeps (by decide) ?_
    | with_reducible refine covered_keeps (by decide) ?_
    | with_reducible refine setReg_keeps (by decide) ?_
    | with_reducible refine Keeps.ite ?_ ?_
    | with_reducible refine Keeps.foldl ?_ (fun _ _ => ?_)
    | with_reducible refine Keeps.foldl1 ?_ (fun _ _ => ?_)
    | split
    | dsimp only
    | (with_reducible refine Keeps.put ?_ ?_; rotate_left 1
       · (refine Only.intro fun kp khp => ?_; cases kp <;> first | with_reducible exact rfl | exact absurd (by decide) khp))
    | (with_reducible refine Keeps.set ?_ ?_; rotate_left 1
       · (refine Only.intro fun kp khp => ?_; cases kp <;> first | with_reducible exact rfl | exact absurd (by decide) khp))
    | split

theorem copyMemory_keeps {kl : List Piece} {k0 : State} {s : State} {src : Nat} {dst : Nat} (km : [.mem] ⊆ kl)
    (kh : Keeps kl k0 s) : Keeps kl k0 (copyMemory s src dst) := by
  refine Keeps.step ?_ kh km
  unfold copyMemory
  repeat' first
    | with_reducible exact Keeps.refl _ _
    | assumption
    | with_reducible refine modMem_keeps (by decide) (fun x => x) ?_
    | with_reducible refine modMem_keeps (by decide) (fun x => filter_wf x) ?_
    | with_reducible refine Keeps.ite ?_ ?_
    | (with_reducible refine Keeps.put ?_ ?_; rotate_left 1
       · (refine Only.intro fun kp khp => ?_; cases kp <;> first | with_reducible exact rfl | exact absurd (by decide) khp))
    | (with_reducible refine Keeps.set ?_ ?_; rotate_left 1
       · (refine Only.intro fun kp khp => ?_; cases kp <;> first | with_reducible exact rfl | exact absurd (by decide) khp))
    | split

theorem catchUpLog_keeps {kl : List Piece} {k0 s : State} {half : Nat}
    (km : [.life, .log] ⊆ kl)
    (kh : Keeps kl k0 s) : Keeps kl k0 (catchUpLog s half) := by
  refine Keeps.step ?_ kh km
  unfold catchUpLog
  repeat' first
    | with_reducible exact Keeps.refl _ _
    | assumption
    | with_reducible refine modLedger_keeps (by decide) ?_
    | with_reducible refine Keeps.getD ?_ (fun _ _ => ?_)
    | with_reducible refine Keeps.foldl ?_ (fun _ _ => ?_)
    | with_reducible refine Keeps.foldl1 ?_ (fun _ _ => ?_)
    | split
    | dsimp only
    | (with_reducible refine Keeps.set ?_ ?_ ?_ ?_ ?_ ?_ ?_ ?_ ?_ ?_ ?_ ?_ ?_; rotate_left 1
       · (refine Only.intro fun kp khp => ?_; cases kp <;> first | with_reducible exact rfl | exact absurd (by decide) khp)
       · with_reducible exact List.prefix_refl _
       · with_reducible exact Nat.le_refl _
       · with_reducible exact Nat.le_refl _
       · with_reducible exact Nat.le_refl _
       · with_reducible exact List.suffix_refl _
       · with_reducible exact fun x => x
       · with_reducible exact fun x => x
       · with_reducible exact fun x => x
       · with_reducible exact fun x => x
       · with_reducible exact fun x => x
       · with_reducible exact fun x => ⟨x.mode, x.bootMode, x.storeMode, x.sel, x.whole⟩)

theorem execPairResyncDone_keeps {kl : List Piece} {k0 : State} {half : BitVec 1} {ms : BitVec 32} {s : State} {kt : State} (km : [.pins, .fw, .boot, .store, .pkg, .ports, .lds, .mem, .fronds, .covs, .life, .log, .regs] ⊆ kl) (ke : execPairResyncDone half ms s = .next kt)
    (kh : Keeps kl k0 s) : Keeps kl k0 kt := by
  refine Keeps.step ?_ kh km
  unfold execPairResyncDone at ke
  cases ke
  repeat' first
    | with_reducible exact Keeps.refl _ _
    | assumption
    | with_reducible refine copyMemory_keeps (by decide) ?_
    | with_reducible refine rebuildArray_keeps (by decide) ?_
    | with_reducible refine catchUpLog_keeps (by decide) ?_
    | with_reducible refine setDie_keeps (by decide) ?_
    | with_reducible refine setHalf_keeps (by decide) ?_
    | with_reducible refine modMem_keeps (by decide) (fun x => x) ?_
    | with_reducible refine modMem_keeps (by decide) (fun x => filter_wf x) ?_
    | with_reducible refine bringUp_keeps (by decide) ?_
    | with_reducible refine activateFw_keeps (by decide) ?_
    | with_reducible refine raiseFull_keeps (by decide) ?_
    | with_reducible refine resolveAll_keeps (by decide) ?_
    | with_reducible refine ledgerWrite_keeps (by decide) ?_
    | with_reducible refine Keeps.ite ?_ ?_
    | with_reducible refine Keeps.foldl ?_ (fun _ _ => ?_)
    | with_reducible refine Keeps.foldl1 ?_ (fun _ _ => ?_)
    | split
    | dsimp only
    | (with_reducible refine Keeps.put ?_ ?_; rotate_left 1
       · (refine Only.intro fun kp khp => ?_; cases kp <;> first | with_reducible exact rfl | exact absurd (by decide) khp))
    | (with_reducible refine Keeps.set ?_ ?_; rotate_left 1
       · (refine Only.intro fun kp khp => ?_; cases kp <;> first | with_reducible exact rfl | exact absurd (by decide) khp))
    | split

theorem modeWrite_keeps {kl : List Piece} {k0 s : State} {w : Word32}
    (km : [.store, .life, .regs, .wire] ⊆ kl)
    (kh : Keeps kl k0 s) : Keeps kl k0 (modeWrite s w) := by
  refine Keeps.step ?_ kh km
  unfold modeWrite
  refine Keeps.ite (Keeps.refl _ _) ?_
  have h := guardStore_keeps (kl := [.store, .life, .regs, .wire]) (a := globalPage 0 + 0x800) (g := ⟨0x800, 3, 0x10⟩) (w := w)
    (by decide) (Keeps.refl _ s)
  dsimp only
  generalize guardStore s (globalPage 0 + 0x800) ⟨0x800, 3, 0x10⟩ w = x at h ⊢
  obtain ⟨t, v⟩ := x
  refine Keeps.ite h (covered_keeps (by decide) (storeWrite_keeps (by decide) ?_))
  refine Keeps.set h ?_ (List.prefix_refl _) (Nat.le_refl _) (Nat.le_refl _) (Nat.le_refl _) (List.suffix_refl _)
    (fun x => x) (fun x => x) (fun x => x) (fun x => x) (fun x => x)
    (fun x => ⟨x.mode, x.bootMode, x.storeMode, ?_, x.whole⟩)
  · refine Only.intro fun kp khp => ?_; cases kp <;> first | with_reducible exact rfl | exact absurd (by decide) khp
  · dsimp only
    split
    · exact nofun
    · next hm => exact fun e => hm (Option.some.inj e)

theorem execPkgModeSel_keeps {kl : List Piece} {k0 : State} {p : Place} {w : Word32} {s kt : State}
    (km : [.pins, .store, .lds, .fronds, .tally, .life, .regs, .wire] ⊆ kl) (ke : execPkgModeSel p w s = .next kt)
    (kh : Keeps kl k0 s) : Keeps kl k0 kt := by
  refine Keeps.step ?_ kh km
  unfold execPkgModeSel at ke
  cases ke
  repeat' first
    | with_reducible exact Keeps.refl _ _
    | assumption
    | with_reducible refine onGuard_keeps (by decide) (fun _ _ _ => ?_) ?_
    | with_reducible refine modeWrite_keeps (by decide) ?_

theorem modHarvest_keeps {kl : List Piece} {k0 s : State} {h : Nat} {f : Harvest → Harvest}
    (km : [.harvest] ⊆ kl)
    (kh : Keeps kl k0 s) : Keeps kl k0 (modHarvest s h f) := by
  refine Keeps.step ?_ kh km
  unfold modHarvest
  repeat' first
    | with_reducible exact Keeps.refl _ _
    | assumption
    | (with_reducible refine Keeps.put ?_ ?_; rotate_left 1
       · (refine Only.intro fun kp khp => ?_; cases kp <;> first | with_reducible exact rfl | exact absurd (by decide) khp))

theorem fatalEvent_keeps {kl : List Piece} {k0 s : State} {code die : Nat} {hs : List Nat} {items : List (Nat × Nat)}
    (km : [.boot, .pkg, .lds, .life, .log] ⊆ kl)
    (kh : Keeps kl k0 s) : Keeps kl k0 (fatalEvent s code die hs items) := by
  refine Keeps.step ?_ kh km
  unfold fatalEvent
  repeat' first
    | with_reducible exact Keeps.refl _ _
    | assumption
    | with_reducible refine event_keeps (by decide) ?_
    | with_reducible refine modLd_keeps (by decide) ?_
    | with_reducible refine Keeps.ite ?_ ?_
    | with_reducible refine Keeps.foldl ?_ (fun _ _ => ?_)

theorem freezeHub_keeps {kl : List Piece} {k0 : State} {cause : Nat} {s : State} {h : Nat}
    (km : [.pkg, .harvest, .freeCtr] ⊆ kl)
    (kh : Keeps kl k0 s) : Keeps kl k0 (freezeHub cause s h) := by
  refine Keeps.step ?_ kh km
  unfold freezeHub
  repeat' first
    | with_reducible exact Keeps.refl _ _
    | assumption
    | with_reducible refine fresh_keeps (by decide) ?_
    | with_reducible refine modHarvest_keeps (by decide) ?_
    | (with_reducible refine Keeps.set ?_ ?_ ?_ ?_ ?_ ?_ ?_ ?_ ?_ ?_ ?_ ?_ ?_; rotate_left 1
       · (refine Only.intro fun kp khp => ?_; cases kp <;> first | with_reducible exact rfl | exact absurd (by decide) khp)
       · with_reducible exact List.prefix_refl _
       · with_reducible exact Nat.le_refl _
       · with_reducible exact Nat.le_refl _
       · with_reducible exact Nat.le_refl _
       · with_reducible exact List.suffix_refl _
       · with_reducible exact fun x => x
       · with_reducible exact fun x => x
       · with_reducible exact fun x => x
       · with_reducible exact fun x => x
       · with_reducible exact fun x => x
       · with_reducible exact fun x => ⟨x.mode, x.bootMode, x.storeMode, x.sel, x.whole⟩)

theorem harvestCause_keeps {kl : List Piece} {k0 s : State} {hub code die : Nat} {items : List (Nat × Nat)}
    (km : [.pins, .boot, .store, .pkg, .ports, .lds, .seats, .steward, .extents, .mem, .coh, .fronds, .tables, .rings, .searches, .jobs, .disp, .covs, .tally, .life, .log, .harvest, .regs, .wire, .freeCtr] ⊆ kl)
    (kh : Keeps kl k0 s) : Keeps kl k0 (harvestCause s hub code die items) := by
  refine Keeps.step ?_ kh km
  unfold harvestCause
  repeat' first
    | with_reducible exact Keeps.refl _ _
    | assumption
    | with_reducible refine fatalEvent_keeps (by decide) ?_
    | with_reducible refine event_keeps (by decide) ?_
    | with_reducible refine halfOut_keeps (by decide) ?_
    | with_reducible refine freezeHub_keeps (by decide) ?_
    | with_reducible refine assertFault_keeps (by decide) ?_
    | with_reducible refine endSessions_keeps (by decide) ?_
    | with_reducible refine Keeps.ite ?_ ?_
    | with_reducible refine Keeps.foldl ?_ (fun _ _ => ?_)

theorem execHarvestDumpDone_keeps {kl : List Piece} {k0 : State} {hub : BitVec 1} {partly : Bool} {s kt : State}
    (km : [.boot, .store, .pkg, .lds, .life, .log, .harvest] ⊆ kl) (ke : execHarvestDumpDone hub partly s = .next kt)
    (kh : Keeps kl k0 s) : Keeps kl k0 kt := by
  refine Keeps.step ?_ kh km
  unfold execHarvestDumpDone at ke
  cases ke
  repeat' first
    | with_reducible exact Keeps.refl _ _
    | assumption
    | with_reducible refine modHarvest_keeps (by decide) ?_
    | with_reducible refine raiseFull_keeps (by decide) ?_
    | with_reducible refine ledgerWrite_keeps (by decide) ?_
    | with_reducible refine modLedger_keeps (by decide) ?_
    | with_reducible refine Keeps.ite ?_ ?_

theorem takeWrite_keeps {kl : List Piece} {k0 s : State} {w : Word32}
    (km : [.pins, .boot, .store, .pkg, .ports, .lds, .seats, .steward, .extents, .mem, .coh, .fronds, .tables, .rings, .searches, .jobs, .disp, .covs, .tally, .life, .log, .harvest, .regs, .wire, .freeCtr] ⊆ kl)
    (kh : Keeps kl k0 s) : Keeps kl k0 (takeWrite s w) := by
  refine Keeps.step ?_ kh km
  unfold takeWrite
  repeat' first
    | with_reducible exact Keeps.refl _ _
    | assumption
    | with_reducible refine guardStore_keeps (by decide) ?_
    | refine Keeps.fst ‹_ = (_, _)› (guardStore_keeps (by decide) ?_)
    | with_reducible refine setReg_keeps (by decide) ?_
    | with_reducible refine harvestCause_keeps (by decide) ?_
    | with_reducible refine Keeps.ite ?_ ?_

theorem releaseWrite_keeps {kl : List Piece} {k0 s : State} {w : Word32}
    (km : [.pins, .boot, .pkg, .lds, .life, .log, .harvest, .regs, .wire] ⊆ kl)
    (kh : Keeps kl k0 s) : Keeps kl k0 (releaseWrite s w) := by
  refine Keeps.step ?_ kh km
  unfold releaseWrite
  repeat' first
    | with_reducible exact Keeps.refl _ _
    | assumption
    | with_reducible refine guardStore_keeps (by decide) ?_
    | refine Keeps.fst ‹_ = (_, _)› (guardStore_keeps (by decide) ?_)
    | with_reducible refine setReg_keeps (by decide) ?_
    | with_reducible refine modHarvest_keeps (by decide) ?_
    | with_reducible refine event_keeps (by decide) ?_
    | with_reducible refine Keeps.ite ?_ ?_
    | split
    | dsimp only
    | (with_reducible refine Keeps.put ?_ ?_; rotate_left 1
       · (refine Only.intro fun kp khp => ?_; cases kp <;> first | with_reducible exact rfl | exact absurd (by decide) khp))

theorem execHarvestTake_keeps {kl : List Piece} {k0 : State} {p : Place} {w : Word32} {s kt : State}
    (km : [.pins, .boot, .store, .pkg, .ports, .lds, .seats, .steward, .extents, .mem, .coh, .fronds, .tables, .rings, .searches, .jobs, .disp, .covs, .tally, .life, .log, .harvest, .regs, .wire, .freeCtr] ⊆ kl) (ke : execHarvestTake p w s = .next kt)
    (kh : Keeps kl k0 s) : Keeps kl k0 kt := by
  refine Keeps.step ?_ kh km
  unfold execHarvestTake at ke
  cases ke
  repeat' first
    | with_reducible exact Keeps.refl _ _
    | assumption
    | with_reducible refine onGuard_keeps (by decide) (fun _ _ _ => ?_) ?_
    | with_reducible refine takeWrite_keeps (by decide) ?_

theorem execHarvestRelease_keeps {kl : List Piece} {k0 : State} {p : Place} {w : Word32} {s kt : State}
    (km : [.pins, .boot, .pkg, .lds, .fronds, .tally, .life, .log, .harvest, .regs, .wire] ⊆ kl) (ke : execHarvestRelease p w s = .next kt)
    (kh : Keeps kl k0 s) : Keeps kl k0 kt := by
  refine Keeps.step ?_ kh km
  unfold execHarvestRelease at ke
  cases ke
  repeat' first
    | with_reducible exact Keeps.refl _ _
    | assumption
    | with_reducible refine onGuard_keeps (by decide) (fun _ _ _ => ?_) ?_
    | with_reducible refine releaseWrite_keeps (by decide) ?_

theorem execFwFault_keeps {kl : List Piece} {k0 : State} {hub : BitVec 1} {core : BitVec 2} {code : Word} {s kt : State}
    (km : [.pins, .boot, .store, .pkg, .ports, .lds, .seats, .steward, .extents, .mem, .coh, .fronds, .tables, .rings, .searches, .jobs, .disp, .covs, .tally, .life, .log, .harvest, .regs, .wire, .freeCtr] ⊆ kl) (ke : execFwFault hub core code s = .next kt)
    (kh : Keeps kl k0 s) : Keeps kl k0 kt := by
  refine Keeps.step ?_ kh km
  unfold execFwFault at ke
  cases ke
  repeat' first
    | with_reducible exact Keeps.refl _ _
    | assumption
    | with_reducible refine harvestCause_keeps (by decide) ?_
    | with_reducible refine fatalEvent_keeps (by decide) ?_
    | with_reducible refine Keeps.ite ?_ ?_

theorem execMediaWaitExpire_keeps {kl : List Piece} {k0 : State} {hub : BitVec 1} {s : State} {kt : State} (km : [.pins, .boot, .store, .pkg, .ports, .lds, .seats, .steward, .extents, .mem, .coh, .fronds, .tables, .rings, .searches, .jobs, .disp, .covs, .tally, .life, .log, .harvest, .regs, .wire, .freeCtr] ⊆ kl) (ke : execMediaWaitExpire hub s = .next kt)
    (kh : Keeps kl k0 s) : Keeps kl k0 kt := by
  refine Keeps.step ?_ kh km
  unfold execMediaWaitExpire at ke
  cases ke
  repeat' first
    | with_reducible exact Keeps.refl _ _
    | assumption
    | with_reducible refine flushAll_keeps (by decide) ?_
    | with_reducible refine retryHub_keeps (by decide) ?_
    | with_reducible refine wakeHub_keeps (by decide) ?_
    | with_reducible refine harvestCause_keeps (by decide) ?_
    | with_reducible refine Keeps.ite ?_ ?_
    | with_reducible refine Keeps.getD ?_ (fun _ _ => ?_)
    | split
    | dsimp only
    | split

theorem darkTags_keeps {kl : List Piece} {k0 s : State} {die : Nat}
    (km : [.regs] ⊆ kl)
    (kh : Keeps kl k0 s) : Keeps kl k0 (darkTags s die) := by
  refine Keeps.step ?_ kh km
  unfold darkTags
  repeat' first
    | with_reducible exact Keeps.refl _ _
    | assumption
    | with_reducible refine modRegs_keeps (by decide) ?_

theorem svcWrite_keeps {kl : List Piece} {k0 : State} {die : Nat} {s : State} {w : Word32}
    (km : [.pins, .boot, .pkg, .lds, .mem, .coh, .fronds, .covs, .life, .log, .regs, .wire] ⊆ kl)
    (kh : Keeps kl k0 s) : Keeps kl k0 (svcWrite die s w) := by
  refine Keeps.step ?_ kh km
  unfold svcWrite
  repeat' first
    | with_reducible exact Keeps.refl _ _
    | assumption
    | with_reducible refine guardStore_keeps (by decide) ?_
    | refine Keeps.fst ‹_ = (_, _)› (guardStore_keeps (by decide) ?_)
    | with_reducible refine orReg_keeps (by decide) ?_
    | with_reducible refine setDie_keeps (by decide) ?_
    | with_reducible refine emptyCache_keeps (by decide) ?_
    | with_reducible refine modFrond_keeps (by decide) ?_
    | with_reducible refine resolveAll_keeps (by decide) ?_
    | with_reducible refine event_keeps (by decide) ?_
    | with_reducible refine Keeps.ite ?_ ?_
    | split
    | dsimp only
    | (with_reducible refine Keeps.put ?_ ?_; rotate_left 1
       · (refine Only.intro fun kp khp => ?_; cases kp <;> first | with_reducible exact rfl | exact absurd (by decide) khp))

theorem execFrondSvcOut_keeps {kl : List Piece} {k0 : State} {p : Place} {die : BitVec 3} {w : Word32} {s kt : State}
    (km : [.pins, .boot, .pkg, .lds, .mem, .coh, .fronds, .covs, .tally, .life, .log, .regs, .wire] ⊆ kl) (ke : execFrondSvcOut p die w s = .next kt)
    (kh : Keeps kl k0 s) : Keeps kl k0 kt := by
  refine Keeps.step ?_ kh km
  unfold execFrondSvcOut at ke
  cases ke
  repeat' first
    | with_reducible exact Keeps.refl _ _
    | assumption
    | with_reducible refine onGuard_keeps (by decide) (fun _ _ _ => ?_) ?_
    | with_reducible refine svcWrite_keeps (by decide) ?_

theorem execFrondSvcIn_keeps {kl : List Piece} {k0 : State} {p : Place} {die : BitVec 3} {w : Word32} {s kt : State}
    (km : [.pins, .boot, .pkg, .lds, .mem, .coh, .fronds, .covs, .tally, .life, .log, .regs, .wire] ⊆ kl) (ke : execFrondSvcIn p die w s = .next kt)
    (kh : Keeps kl k0 s) : Keeps kl k0 kt := by
  refine Keeps.step ?_ kh km
  unfold execFrondSvcIn at ke
  cases ke
  repeat' first
    | with_reducible exact Keeps.refl _ _
    | assumption
    | with_reducible refine onGuard_keeps (by decide) (fun _ _ _ => ?_) ?_
    | with_reducible refine svcWrite_keeps (by decide) ?_

theorem selftestFail_keeps {kl : List Piece} {k0 s : State} {x : BitVec 3 × Word × Word}
    (km : [.boot, .pkg, .lds, .life, .log] ⊆ kl)
    (kh : Keeps kl k0 s) : Keeps kl k0 (selftestFail s x) := by
  refine Keeps.step ?_ kh km
  unfold selftestFail
  repeat' first
    | with_reducible exact Keeps.refl _ _
    | assumption
    | with_reducible refine event_keeps (by decide) ?_

theorem execFrondSvcInDone_keeps {kl : List Piece} {k0 : State} {die : BitVec 3} {out : SelftestOut} {s : State} {kt : State} (km : [.boot, .pkg, .lds, .fronds, .covs, .life, .log, .regs] ⊆ kl) (ke : execFrondSvcInDone die out s = .next kt)
    (kh : Keeps kl k0 s) : Keeps kl k0 kt := by
  refine Keeps.step ?_ kh km
  unfold execFrondSvcInDone at ke
  cases ke
  repeat' first
    | with_reducible exact Keeps.refl _ _
    | assumption
    | with_reducible refine darkTags_keeps (by decide) ?_
    | with_reducible refine modFrond_keeps (by decide) ?_
    | with_reducible refine resolveAll_keeps (by decide) ?_
    | with_reducible refine event_keeps (by decide) ?_
    | with_reducible refine setDie_keeps (by decide) ?_
    | with_reducible refine selftestFail_keeps (by decide) ?_
    | with_reducible refine Keeps.ite ?_ ?_
    | with_reducible refine Keeps.foldl ?_ (fun _ _ => ?_)
    | with_reducible refine Keeps.foldl1 ?_ (fun _ _ => ?_)
    | split
    | dsimp only
    | (with_reducible refine Keeps.put ?_ ?_; rotate_left 1
       · (refine Only.intro fun kp khp => ?_; cases kp <;> first | with_reducible exact rfl | exact absurd (by decide) khp))
    | (with_reducible refine Keeps.set ?_ ?_; rotate_left 1
       · (refine Only.intro fun kp khp => ?_; cases kp <;> first | with_reducible exact rfl | exact absurd (by decide) khp))
    | split

theorem frondFails_keeps {kl : List Piece} {k0 s : State} {die cause : Nat}
    (km : [.pins, .boot, .store, .pkg, .ports, .lds, .seats, .steward, .extents, .mem, .coh, .fronds, .tables, .rings, .searches, .jobs, .disp, .covs, .tally, .life, .log, .regs, .wire] ⊆ kl)
    (kh : Keeps kl k0 s) : Keeps kl k0 (frondFails s die cause) := by
  refine Keeps.step ?_ kh km
  unfold frondFails
  repeat' first
    | with_reducible exact Keeps.refl _ _
    | assumption
    | with_reducible refine event_keeps (by decide) ?_
    | with_reducible refine halfOut_keeps (by decide) ?_
    | with_reducible refine frondGone_keeps (by decide) ?_
    | with_reducible refine Keeps.ite ?_ ?_

theorem execFrondLost_keeps {kl : List Piece} {k0 : State} {die : BitVec 3} {s : State} {kt : State} (km : [.pins, .boot, .store, .pkg, .ports, .lds, .seats, .steward, .extents, .mem, .coh, .fronds, .tables, .rings, .searches, .jobs, .disp, .covs, .tally, .life, .log, .regs, .wire] ⊆ kl) (ke : execFrondLost die s = .next kt)
    (kh : Keeps kl k0 s) : Keeps kl k0 kt := by
  refine Keeps.step ?_ kh km
  unfold execFrondLost at ke
  cases ke
  repeat' first
    | with_reducible exact Keeps.refl _ _
    | assumption
    | with_reducible refine frondFails_keeps (by decide) ?_
    | with_reducible refine modFrond_keeps (by decide) ?_
    | with_reducible refine Keeps.ite ?_ ?_
    | split
    | dsimp only
    | (with_reducible refine Keeps.put ?_ ?_; rotate_left 1
       · (refine Only.intro fun kp khp => ?_; cases kp <;> first | with_reducible exact rfl | exact absurd (by decide) khp))
    | (with_reducible refine Keeps.set ?_ ?_; rotate_left 1
       · (refine Only.intro fun kp khp => ?_; cases kp <;> first | with_reducible exact rfl | exact absurd (by decide) khp))
    | split

theorem crossLost_keeps {kl : List Piece} {k0 s : State}
    (km : [.pins, .boot, .store, .pkg, .ports, .lds, .seats, .steward, .extents, .mem, .coh, .fronds, .tables, .rings, .searches, .jobs, .disp, .covs, .tally, .life, .log, .regs, .wire] ⊆ kl)
    (kh : Keeps kl k0 s) : Keeps kl k0 (crossLost s) := by
  refine Keeps.step ?_ kh km
  unfold crossLost
  repeat' first
    | with_reducible exact Keeps.refl _ _
    | assumption
    | with_reducible refine halfOut_keeps (by decide) ?_
    | with_reducible refine loseAgent_keeps (by decide) ?_
    | with_reducible refine failSearches_keeps (by decide) ?_
    | with_reducible refine Keeps.ite ?_ ?_
    | with_reducible refine Keeps.getD ?_ (fun _ _ => ?_)
    | with_reducible refine Keeps.foldl ?_ (fun _ _ => ?_)

theorem linkEffect_keeps {kl : List Piece} {k0 : State} {s : State} {k : Nat} (km : [.pins, .boot, .store, .pkg, .ports, .lds, .seats, .steward, .extents, .mem, .coh, .fronds, .tables, .rings, .searches, .jobs, .disp, .covs, .tally, .life, .log, .regs, .wire] ⊆ kl)
    (kh : Keeps kl k0 s) : Keeps kl k0 (linkEffect s k) := by
  refine Keeps.step ?_ kh km
  unfold linkEffect
  repeat' first
    | with_reducible exact Keeps.refl _ _
    | assumption
    | with_reducible refine frondFails_keeps (by decide) ?_
    | with_reducible refine crossLost_keeps (by decide) ?_
    | with_reducible refine halfOut_keeps (by decide) ?_
    | with_reducible refine failSearches_keeps (by decide) ?_
    | with_reducible refine Keeps.ite ?_ ?_
    | split
    | dsimp only
    | (with_reducible refine Keeps.put ?_ ?_; rotate_left 1
       · (refine Only.intro fun kp khp => ?_; cases kp <;> first | with_reducible exact rfl | exact absurd (by decide) khp))
    | (with_reducible refine Keeps.set ?_ ?_; rotate_left 1
       · (refine Only.intro fun kp khp => ?_; cases kp <;> first | with_reducible exact rfl | exact absurd (by decide) khp))
    | split

theorem execLinkUp_keeps {kl : List Piece} {k0 : State} {l : BitVec 8} {s : State} {kt : State} (km : [.boot, .pkg, .lds, .covs, .life, .log] ⊆ kl) (ke : execLinkUp l s = .next kt)
    (kh : Keeps kl k0 s) : Keeps kl k0 kt := by
  refine Keeps.step ?_ kh km
  unfold execLinkUp at ke
  cases ke
  repeat' first
    | with_reducible exact Keeps.refl _ _
    | assumption
    | with_reducible refine event_keeps (by decide) ?_
    | with_reducible refine resolveAll_keeps (by decide) ?_
    | with_reducible refine setDie_keeps (by decide) ?_
    | with_reducible refine Keeps.ite ?_ ?_
    | split
    | dsimp only
    | (with_reducible refine Keeps.put ?_ ?_; rotate_left 1
       · (refine Only.intro fun kp khp => ?_; cases kp <;> first | with_reducible exact rfl | exact absurd (by decide) khp))
    | (with_reducible refine Keeps.set ?_ ?_; rotate_left 1
       · (refine Only.intro fun kp khp => ?_; cases kp <;> first | with_reducible exact rfl | exact absurd (by decide) khp))
    | split

theorem hubFails_keeps {kl : List Piece} {k0 s : State} {h : Nat}
    (km : [.pins, .boot, .store, .pkg, .ports, .lds, .seats, .steward, .extents, .mem, .coh, .fronds, .tables, .rings, .searches, .jobs, .disp, .covs, .tally, .life, .log, .harvest, .regs, .wire, .freeCtr] ⊆ kl)
    (kh : Keeps kl k0 s) : Keeps kl k0 (hubFails s h) := by
  refine Keeps.step ?_ kh km
  unfold hubFails
  repeat' first
    | with_reducible exact Keeps.refl _ _
    | assumption
    | with_reducible refine event_keeps (by decide) ?_
    | with_reducible refine halfOut_keeps (by decide) ?_
    | with_reducible refine cutPort_keeps (by decide) ?_
    | with_reducible refine setDie_keeps (by decide) ?_
    | with_reducible refine modFrond_keeps (by decide) ?_
    | with_reducible refine harvestCause_keeps (by decide) ?_
    | with_reducible refine Keeps.ite ?_ ?_
    | with_reducible refine Keeps.foldl ?_ (fun _ _ => ?_)
    | with_reducible refine Keeps.foldl1 ?_ (fun _ _ => ?_)
    | (with_reducible refine Keeps.set ?_ ?_ ?_ ?_ ?_ ?_ ?_ ?_ ?_ ?_ ?_ ?_ ?_; rotate_left 1
       · (refine Only.intro fun kp khp => ?_; cases kp <;> first | with_reducible exact rfl | exact absurd (by decide) khp)
       · with_reducible exact List.prefix_refl _
       · with_reducible exact Nat.le_refl _
       · with_reducible exact Nat.le_refl _
       · with_reducible exact Nat.le_refl _
       · with_reducible exact List.suffix_refl _
       · with_reducible exact fun x => x
       · with_reducible exact fun x => x
       · with_reducible exact fun x => x
       · with_reducible exact fun x => x
       · with_reducible exact fun x => x
       · with_reducible exact fun x => ⟨x.mode, x.bootMode, x.storeMode, x.sel, x.whole⟩)

theorem execHubLost_keeps {kl : List Piece} {k0 : State} {hub : BitVec 1} {s : State} {kt : State} (km : [.pins, .boot, .store, .pkg, .ports, .lds, .seats, .steward, .extents, .mem, .coh, .fronds, .tables, .rings, .searches, .jobs, .disp, .covs, .tally, .life, .log, .harvest, .regs, .wire, .freeCtr] ⊆ kl) (ke : execHubLost hub s = .next kt)
    (kh : Keeps kl k0 s) : Keeps kl k0 kt := by
  refine Keeps.step ?_ kh km
  unfold execHubLost at ke
  cases ke
  repeat' first
    | with_reducible exact Keeps.refl _ _
    | assumption
    | with_reducible refine hubFails_keeps (by decide) ?_
    | with_reducible refine Keeps.ite ?_ ?_
    | split
    | dsimp only
    | split

end Sys2Proof.Machine
end

