-- ==== Sys2Proof/Laws/Integrity.lean ====
section
/-!
SUPPORT. What the operations of Machine/Integrity.lean keep.
-/
set_option linter.unusedTactic false
set_option linter.unreachableTactic false
namespace Sys2Proof.Machine

theorem injRow_keeps {kl : List Piece} {k0 s : State} {die kind word bit row : Nat}
    (km : [.fronds] ⊆ kl)
    (kh : Keeps kl k0 s) : Keeps kl k0 (injRow s die kind word bit row) := by
  refine Keeps.step ?_ kh km
  unfold injRow
  repeat' first
    | with_reducible exact Keeps.refl _ _
    | assumption
    | with_reducible refine modArr_keeps (by decide) ?_
    | with_reducible refine putRow_keeps (by decide) ?_

theorem injTag_keeps {kl : List Piece} {k0 s : State} {die word bit pan : Nat}
    (km : [.fronds] ⊆ kl)
    (kh : Keeps kl k0 s) : Keeps kl k0 (injTag s die word bit pan) := by
  refine Keeps.step ?_ kh km
  unfold injTag
  repeat' first
    | with_reducible exact Keeps.refl _ _
    | assumption
    | with_reducible refine modArr_keeps (by decide) ?_

theorem flipCopy_keeps {kl : List Piece} {k0 : State} {s : State} {line : Nat} {hub : Nat} {a : Nat} {b : Nat} {both : Bool} (km : [.coh] ⊆ kl)
    (kh : Keeps kl k0 s) : Keeps kl k0 (flipCopy s line hub a b both) := by
  refine Keeps.step ?_ kh km
  unfold flipCopy
  repeat' first
    | with_reducible exact Keeps.refl _ _
    | assumption
    | with_reducible refine modCoh_keeps (by decide) ?_
    | with_reducible refine Keeps.ite ?_ ?_
    | with_reducible refine Keeps.getD ?_ (fun _ _ => ?_)
    | split
    | dsimp only
    | (with_reducible refine Keeps.put ?_ ?_; rotate_left 1
       · (refine Only.intro fun kp khp => ?_; cases kp <;> first | with_reducible exact rfl | exact absurd (by decide) khp))
    | (with_reducible refine Keeps.set ?_ ?_; rotate_left 1
       · (refine Only.intro fun kp khp => ?_; cases kp <;> first | with_reducible exact rfl | exact absurd (by decide) khp))
    | split

theorem armMedia_keeps {kl : List Piece} {k0 : State} {s : State} {line : Nat} {hub : Nat} {devices : BitVec 10} (km : [.mem] ⊆ kl)
    (kh : Keeps kl k0 s) : Keeps kl k0 (armMedia s line hub devices) := by
  refine Keeps.step ?_ kh km
  unfold armMedia
  repeat' first
    | with_reducible exact Keeps.refl _ _
    | assumption
    | with_reducible refine modMem_keeps (by decide) (fun x => x) ?_
    | with_reducible refine modMem_keeps (by decide) (fun x => filter_wf x) ?_
    | with_reducible refine Keeps.getD ?_ (fun _ _ => ?_)
    | (with_reducible refine Keeps.put ?_ ?_; rotate_left 1
       · (refine Only.intro fun kp khp => ?_; cases kp <;> first | with_reducible exact rfl | exact absurd (by decide) khp))
    | (with_reducible refine Keeps.set ?_ ?_; rotate_left 1
       · (refine Only.intro fun kp khp => ?_; cases kp <;> first | with_reducible exact rfl | exact absurd (by decide) khp))

theorem injLine_keeps {kl : List Piece} {k0 : State} {s : State} {die : Nat} {kind : Nat} {word : Nat} {bit : Nat} {target : Nat} {line : Nat} {kt : State} (km : [.mem, .coh] ⊆ kl) (ke : injLine s die kind word bit target line = some kt)
    (kh : Keeps kl k0 s) : Keeps kl k0 kt := by
  refine Keeps.step ?_ kh km
  unfold injLine at ke
  try dsimp only at ke
  repeat' (first | split at ke | dsimp only at ke)
  all_goals first | (obtain ⟨_, _, rfl⟩ := Option.map_eq_some_iff.1 ke) | cases ke | skip
  all_goals repeat' first
    | with_reducible exact Keeps.refl _ _
    | assumption
    | with_reducible refine flipCopy_keeps (by decide) ?_
    | with_reducible refine modCoh_keeps (by decide) ?_
    | with_reducible refine armMedia_keeps (by decide) ?_
    | with_reducible refine modMem_keeps (by decide) (fun x => x) ?_
    | with_reducible refine modMem_keeps (by decide) (fun x => filter_wf x) ?_
    | with_reducible refine pageWrite_keeps (by decide) ?_
    | with_reducible refine Keeps.ite ?_ ?_
    | split
    | dsimp only
    | (with_reducible refine Keeps.put ?_ ?_; rotate_left 1
       · (refine Only.intro fun kp khp => ?_; cases kp <;> first | with_reducible exact rfl | exact absurd (by decide) khp))
    | (with_reducible refine Keeps.set ?_ ?_; rotate_left 1
       · (refine Only.intro fun kp khp => ?_; cases kp <;> first | with_reducible exact rfl | exact absurd (by decide) khp))
    | split

theorem injShadow_keeps {kl : List Piece} {k0 s : State} {die row : Nat}
    (km : [.fronds] ⊆ kl)
    (kh : Keeps kl k0 s) : Keeps kl k0 (injShadow s die row) := by
  refine Keeps.step ?_ kh km
  unfold injShadow
  repeat' first
    | with_reducible exact Keeps.refl _ _
    | assumption
    | with_reducible refine putShadow_keeps (by decide) ?_

theorem inject_keeps {kl : List Piece} {k0 : State} {s : State} {die : Nat} {kind : Nat} {word : Nat} {bit : Nat} {count : Nat} {target : Nat} (km : [.mem, .coh, .fronds, .regs] ⊆ kl)
    (kh : Keeps kl k0 s) : Keeps kl k0 (inject s die kind word bit count target) := by
  refine Keeps.step ?_ kh km
  unfold inject
  repeat' first
    | with_reducible exact Keeps.refl _ _
    | assumption
    | with_reducible refine orReg_keeps (by decide) ?_
    | with_reducible refine injRow_keeps (by decide) ?_
    | with_reducible refine injTag_keeps (by decide) ?_
    | with_reducible refine injShadow_keeps (by decide) ?_
    | refine injLine_keeps (by decide) ‹_ = some _› ?_
    | with_reducible refine Keeps.ite ?_ ?_
    | with_reducible refine Keeps.getD ?_ (fun _ _ => ?_)
    | with_reducible refine Keeps.foldl ?_ (fun _ _ => ?_)
    | with_reducible refine Keeps.foldl1 ?_ (fun _ _ => ?_)
    | split
    | dsimp only
    | (with_reducible refine Keeps.put ?_ ?_; rotate_left 1
       · (refine Only.intro fun kp khp => ?_; cases kp <;> first | with_reducible exact rfl | exact absurd (by decide) khp))
    | (with_reducible refine Keeps.set ?_ ?_; rotate_left 1
       · (refine Only.intro fun kp khp => ?_; cases kp <;> first | with_reducible exact rfl | exact absurd (by decide) khp))
    | split

theorem injWrite_keeps {kl : List Piece} {k0 : State} {die : Nat} {s : State} {w : Word32}
    (km : [.pins, .mem, .coh, .fronds, .tally, .regs, .wire] ⊆ kl)
    (kh : Keeps kl k0 s) : Keeps kl k0 (injWrite die s w) := by
  refine Keeps.step ?_ kh km
  unfold injWrite
  repeat' first
    | with_reducible exact Keeps.refl _ _
    | assumption
    | with_reducible refine guardStore_keeps (by decide) ?_
    | refine Keeps.fst ‹_ = (_, _)› (guardStore_keeps (by decide) ?_)
    | with_reducible refine setReg_keeps (by decide) ?_
    | with_reducible refine inject_keeps (by decide) ?_
    | with_reducible refine wakeDie_keeps (by decide) ?_
    | with_reducible refine Keeps.ite ?_ ?_

theorem execInjRowData_keeps {kl : List Piece} {k0 : State} {p : Place} {die : BitVec 3} {w : Word32} {s kt : State}
    (km : [.pins, .lds, .mem, .coh, .fronds, .tally, .regs, .wire] ⊆ kl) (ke : execInjRowData p die w s = .next kt)
    (kh : Keeps kl k0 s) : Keeps kl k0 kt := by
  refine Keeps.step ?_ kh km
  unfold execInjRowData at ke
  cases ke
  repeat' first
    | with_reducible exact Keeps.refl _ _
    | assumption
    | with_reducible refine onGuard_keeps (by decide) (fun _ _ _ => ?_) ?_
    | with_reducible refine injWrite_keeps (by decide) ?_

theorem execInjRowMask_keeps {kl : List Piece} {k0 : State} {p : Place} {die : BitVec 3} {w : Word32} {s kt : State}
    (km : [.pins, .lds, .mem, .coh, .fronds, .tally, .regs, .wire] ⊆ kl) (ke : execInjRowMask p die w s = .next kt)
    (kh : Keeps kl k0 s) : Keeps kl k0 kt := by
  refine Keeps.step ?_ kh km
  unfold execInjRowMask at ke
  cases ke
  repeat' first
    | with_reducible exact Keeps.refl _ _
    | assumption
    | with_reducible refine onGuard_keeps (by decide) (fun _ _ _ => ?_) ?_
    | with_reducible refine injWrite_keeps (by decide) ?_

theorem execInjRowValid_keeps {kl : List Piece} {k0 : State} {p : Place} {die : BitVec 3} {w : Word32} {s kt : State}
    (km : [.pins, .lds, .mem, .coh, .fronds, .tally, .regs, .wire] ⊆ kl) (ke : execInjRowValid p die w s = .next kt)
    (kh : Keeps kl k0 s) : Keeps kl k0 kt := by
  refine Keeps.step ?_ kh km
  unfold execInjRowValid at ke
  cases ke
  repeat' first
    | with_reducible exact Keeps.refl _ _
    | assumption
    | with_reducible refine onGuard_keeps (by decide) (fun _ _ _ => ?_) ?_
    | with_reducible refine injWrite_keeps (by decide) ?_

theorem execInjRowCheck_keeps {kl : List Piece} {k0 : State} {p : Place} {die : BitVec 3} {w : Word32} {s kt : State}
    (km : [.pins, .lds, .mem, .coh, .fronds, .tally, .regs, .wire] ⊆ kl) (ke : execInjRowCheck p die w s = .next kt)
    (kh : Keeps kl k0 s) : Keeps kl k0 kt := by
  refine Keeps.step ?_ kh km
  unfold execInjRowCheck at ke
  cases ke
  repeat' first
    | with_reducible exact Keeps.refl _ _
    | assumption
    | with_reducible refine onGuard_keeps (by decide) (fun _ _ _ => ?_) ?_
    | with_reducible refine injWrite_keeps (by decide) ?_

theorem execInjNearData_keeps {kl : List Piece} {k0 : State} {p : Place} {die : BitVec 3} {w : Word32} {s kt : State}
    (km : [.pins, .lds, .mem, .coh, .fronds, .tally, .regs, .wire] ⊆ kl) (ke : execInjNearData p die w s = .next kt)
    (kh : Keeps kl k0 s) : Keeps kl k0 kt := by
  refine Keeps.step ?_ kh km
  unfold execInjNearData at ke
  cases ke
  repeat' first
    | with_reducible exact Keeps.refl _ _
    | assumption
    | with_reducible refine onGuard_keeps (by decide) (fun _ _ _ => ?_) ?_
    | with_reducible refine injWrite_keeps (by decide) ?_

theorem execInjSluiceTag_keeps {kl : List Piece} {k0 : State} {p : Place} {die : BitVec 3} {w : Word32} {s kt : State}
    (km : [.pins, .lds, .mem, .coh, .fronds, .tally, .regs, .wire] ⊆ kl) (ke : execInjSluiceTag p die w s = .next kt)
    (kh : Keeps kl k0 s) : Keeps kl k0 kt := by
  refine Keeps.step ?_ kh km
  unfold execInjSluiceTag at ke
  cases ke
  repeat' first
    | with_reducible exact Keeps.refl _ _
    | assumption
    | with_reducible refine onGuard_keeps (by decide) (fun _ _ _ => ?_) ?_
    | with_reducible refine injWrite_keeps (by decide) ?_

theorem execInjSramLine_keeps {kl : List Piece} {k0 : State} {p : Place} {die : BitVec 3} {w : Word32} {s kt : State}
    (km : [.pins, .lds, .mem, .coh, .fronds, .tally, .regs, .wire] ⊆ kl) (ke : execInjSramLine p die w s = .next kt)
    (kh : Keeps kl k0 s) : Keeps kl k0 kt := by
  refine Keeps.step ?_ kh km
  unfold execInjSramLine at ke
  cases ke
  repeat' first
    | with_reducible exact Keeps.refl _ _
    | assumption
    | with_reducible refine onGuard_keeps (by decide) (fun _ _ _ => ?_) ?_
    | with_reducible refine injWrite_keeps (by decide) ?_

theorem execInjDirtyTwins_keeps {kl : List Piece} {k0 : State} {p : Place} {die : BitVec 3} {w : Word32} {s kt : State}
    (km : [.pins, .lds, .mem, .coh, .fronds, .tally, .regs, .wire] ⊆ kl) (ke : execInjDirtyTwins p die w s = .next kt)
    (kh : Keeps kl k0 s) : Keeps kl k0 kt := by
  refine Keeps.step ?_ kh km
  unfold execInjDirtyTwins at ke
  cases ke
  repeat' first
    | with_reducible exact Keeps.refl _ _
    | assumption
    | with_reducible refine onGuard_keeps (by decide) (fun _ _ _ => ?_) ?_
    | with_reducible refine injWrite_keeps (by decide) ?_

theorem execInjDirectory_keeps {kl : List Piece} {k0 : State} {p : Place} {die : BitVec 3} {w : Word32} {s kt : State}
    (km : [.pins, .lds, .mem, .coh, .fronds, .tally, .regs, .wire] ⊆ kl) (ke : execInjDirectory p die w s = .next kt)
    (kh : Keeps kl k0 s) : Keeps kl k0 kt := by
  refine Keeps.step ?_ kh km
  unfold execInjDirectory at ke
  cases ke
  repeat' first
    | with_reducible exact Keeps.refl _ _
    | assumption
    | with_reducible refine onGuard_keeps (by decide) (fun _ _ _ => ?_) ?_
    | with_reducible refine injWrite_keeps (by decide) ?_

theorem execInjDramOneDevice_keeps {kl : List Piece} {k0 : State} {p : Place} {die : BitVec 3} {w : Word32} {s kt : State}
    (km : [.pins, .lds, .mem, .coh, .fronds, .tally, .regs, .wire] ⊆ kl) (ke : execInjDramOneDevice p die w s = .next kt)
    (kh : Keeps kl k0 s) : Keeps kl k0 kt := by
  refine Keeps.step ?_ kh km
  unfold execInjDramOneDevice at ke
  cases ke
  repeat' first
    | with_reducible exact Keeps.refl _ _
    | assumption
    | with_reducible refine onGuard_keeps (by decide) (fun _ _ _ => ?_) ?_
    | with_reducible refine injWrite_keeps (by decide) ?_

theorem execInjDramTwoDevices_keeps {kl : List Piece} {k0 : State} {p : Place} {die : BitVec 3} {w : Word32} {s kt : State}
    (km : [.pins, .lds, .mem, .coh, .fronds, .tally, .regs, .wire] ⊆ kl) (ke : execInjDramTwoDevices p die w s = .next kt)
    (kh : Keeps kl k0 s) : Keeps kl k0 kt := by
  refine Keeps.step ?_ kh km
  unfold execInjDramTwoDevices at ke
  cases ke
  repeat' first
    | with_reducible exact Keeps.refl _ _
    | assumption
    | with_reducible refine onGuard_keeps (by decide) (fun _ _ _ => ?_) ?_
    | with_reducible refine injWrite_keeps (by decide) ?_

theorem execInjPoison_keeps {kl : List Piece} {k0 : State} {p : Place} {die : BitVec 3} {w : Word32} {s kt : State}
    (km : [.pins, .lds, .mem, .coh, .fronds, .tally, .regs, .wire] ⊆ kl) (ke : execInjPoison p die w s = .next kt)
    (kh : Keeps kl k0 s) : Keeps kl k0 kt := by
  refine Keeps.step ?_ kh km
  unfold execInjPoison at ke
  cases ke
  repeat' first
    | with_reducible exact Keeps.refl _ _
    | assumption
    | with_reducible refine onGuard_keeps (by decide) (fun _ _ _ => ?_) ?_
    | with_reducible refine injWrite_keeps (by decide) ?_

theorem execInjShadowRecord_keeps {kl : List Piece} {k0 : State} {p : Place} {die : BitVec 3} {w : Word32} {s kt : State}
    (km : [.pins, .lds, .mem, .coh, .fronds, .tally, .regs, .wire] ⊆ kl) (ke : execInjShadowRecord p die w s = .next kt)
    (kh : Keeps kl k0 s) : Keeps kl k0 kt := by
  refine Keeps.step ?_ kh km
  unfold execInjShadowRecord at ke
  cases ke
  repeat' first
    | with_reducible exact Keeps.refl _ _
    | assumption
    | with_reducible refine onGuard_keeps (by decide) (fun _ _ _ => ?_) ?_
    | with_reducible refine injWrite_keeps (by decide) ?_

theorem scrubRow_keeps {kl : List Piece} {k0 : State} {s : State} {die : Nat} {row : Nat} (km : [.boot, .pkg, .lds, .fronds, .tally, .life, .log] ⊆ kl)
    (kh : Keeps kl k0 s) : Keeps kl k0 (scrubRow s die row) := by
  refine Keeps.step ?_ kh km
  unfold scrubRow
  repeat' first
    | with_reducible exact Keeps.refl _ _
    | assumption
    | with_reducible refine checkRow_keeps (by decide) ?_
    | with_reducible refine startRepair_keeps (by decide) ?_
    | with_reducible refine fixPrio_keeps (by decide) ?_
    | with_reducible refine Keeps.ite ?_ ?_
    | split

theorem scrubLate_keeps {kl : List Piece} {k0 : State} {s : State} {die : Nat} (km : [.boot, .pkg, .lds, .fronds, .life, .log] ⊆ kl)
    (kh : Keeps kl k0 s) : Keeps kl k0 (scrubLate s die) := by
  refine Keeps.step ?_ kh km
  unfold scrubLate
  repeat' first
    | with_reducible exact Keeps.refl _ _
    | assumption
    | with_reducible refine raiseFull_keeps (by decide) ?_
    | with_reducible refine modFrond_keeps (by decide) ?_
    | with_reducible refine Keeps.ite ?_ ?_
    | with_reducible refine Keeps.getD ?_ (fun _ _ => ?_)
    | (with_reducible refine Keeps.put ?_ ?_; rotate_left 1
       · (refine Only.intro fun kp khp => ?_; cases kp <;> first | with_reducible exact rfl | exact absurd (by decide) khp))
    | (with_reducible refine Keeps.set ?_ ?_; rotate_left 1
       · (refine Only.intro fun kp khp => ?_; cases kp <;> first | with_reducible exact rfl | exact absurd (by decide) khp))
    | split

theorem scrubSlot_keeps {kl : List Piece} {k0 : State} {s : State} {die : Nat} (km : [.boot, .pkg, .lds, .seats, .fronds, .tally, .life, .log, .regs, .wire] ⊆ kl)
    (kh : Keeps kl k0 s) : Keeps kl k0 (scrubSlot s die) := by
  refine Keeps.step ?_ kh km
  unfold scrubSlot
  repeat' first
    | with_reducible exact Keeps.refl _ _
    | assumption
    | with_reducible refine scrubRow_keeps (by decide) ?_
    | with_reducible refine modArr_keeps (by decide) ?_
    | with_reducible refine frondOp_keeps (by decide) ?_
    | with_reducible refine tagChecks_keeps (by decide) ?_
    | with_reducible refine scrubLate_keeps (by decide) ?_
    | with_reducible refine modFrond_keeps (by decide) ?_
    | with_reducible refine Keeps.ite ?_ ?_
    | with_reducible refine Keeps.foldl ?_ (fun _ _ => ?_)
    | with_reducible refine Keeps.foldl1 ?_ (fun _ _ => ?_)
    | split
    | dsimp only
    | (with_reducible refine Keeps.put ?_ ?_; rotate_left 1
       · (refine Only.intro fun kp khp => ?_; cases kp <;> first | with_reducible exact rfl | exact absurd (by decide) khp))
    | (with_reducible refine Keeps.set ?_ ?_; rotate_left 1
       · (refine Only.intro fun kp khp => ?_; cases kp <;> first | with_reducible exact rfl | exact absurd (by decide) khp))
    | split

theorem execScrubSlot_keeps {kl : List Piece} {k0 : State} {die : BitVec 3} {s kt : State}
    (km : [.pins, .boot, .pkg, .lds, .seats, .fronds, .tally, .life, .log, .regs, .wire] ⊆ kl) (ke : execScrubSlot die s = .next kt)
    (kh : Keeps kl k0 s) : Keeps kl k0 kt := by
  refine Keeps.step ?_ kh km
  unfold execScrubSlot at ke
  cases ke
  repeat' first
    | with_reducible exact Keeps.refl _ _
    | assumption
    | with_reducible refine wakeDie_keeps (by decide) ?_
    | with_reducible refine scrubSlot_keeps (by decide) ?_
    | with_reducible refine Keeps.ite ?_ ?_

theorem loseMedia_keeps {kl : List Piece} {k0 : State} {s : State} {line : Nat} {hub : Nat} (km : [.mem] ⊆ kl)
    (kh : Keeps kl k0 s) : Keeps kl k0 (loseMedia s line hub) := by
  refine Keeps.step ?_ kh km
  unfold loseMedia
  repeat' first
    | with_reducible exact Keeps.refl _ _
    | assumption
    | with_reducible refine modMem_keeps (by decide) (fun x => x) ?_
    | with_reducible refine modMem_keeps (by decide) (fun x => filter_wf x) ?_
    | with_reducible refine Keeps.getD ?_ (fun _ _ => ?_)
    | (with_reducible refine Keeps.put ?_ ?_; rotate_left 1
       · (refine Only.intro fun kp khp => ?_; cases kp <;> first | with_reducible exact rfl | exact absurd (by decide) khp))
    | (with_reducible refine Keeps.set ?_ ?_; rotate_left 1
       · (refine Only.intro fun kp khp => ?_; cases kp <;> first | with_reducible exact rfl | exact absurd (by decide) khp))

theorem staleRead_keeps {kl : List Piece} {k0 : State} {s : State} {line : Nat} {hub : Nat} {ecc : Ecc} {coord : BitVec 48} (km : [.boot, .pkg, .lds, .mem, .life, .log] ⊆ kl)
    (kh : Keeps kl k0 s) : Keeps kl k0 (staleRead s line hub ecc coord) := by
  refine Keeps.step ?_ kh km
  unfold staleRead
  repeat' first
    | with_reducible exact Keeps.refl _ _
    | assumption
    | with_reducible refine raiseFull_keeps (by decide) ?_
    | with_reducible refine rewriteMedia_keeps (by decide) ?_
    | with_reducible refine loseMedia_keeps (by decide) ?_
    | with_reducible refine dramCe_keeps (by decide) ?_
    | with_reducible refine Keeps.ite ?_ ?_
    | split

theorem mediaRead_keeps {kl : List Piece} {k0 : State} {s : State} {line : Nat} {hub : Nat} {ecc : Ecc} {coord : BitVec 48} (km : [.boot, .pkg, .lds, .mem, .coh, .life, .log] ⊆ kl)
    (kh : Keeps kl k0 s) : Keeps kl k0 (mediaRead s line hub ecc coord) := by
  refine Keeps.step ?_ kh km
  unfold mediaRead
  repeat' first
    | with_reducible exact Keeps.refl _ _
    | assumption
    | with_reducible refine dramRead_keeps (by decide) ?_
    | with_reducible refine staleRead_keeps (by decide) ?_
    | with_reducible refine Keeps.ite ?_ ?_
    | split
    | dsimp only
    | (with_reducible refine Keeps.put ?_ ?_; rotate_left 1
       · (refine Only.intro fun kp khp => ?_; cases kp <;> first | with_reducible exact rfl | exact absurd (by decide) khp))
    | (with_reducible refine Keeps.set ?_ ?_; rotate_left 1
       · (refine Only.intro fun kp khp => ?_; cases kp <;> first | with_reducible exact rfl | exact absurd (by decide) khp))
    | split

theorem patrolStep_keeps {kl : List Piece} {k0 : State} {s : State} {hub : Nat} (km : [.mem, .tally] ⊆ kl)
    (kh : Keeps kl k0 s) : Keeps kl k0 (patrolStep s hub) := by
  refine Keeps.step ?_ kh km
  unfold patrolStep
  repeat' first
    | with_reducible exact Keeps.refl _ _
    | assumption
    | with_reducible refine modTally_keeps (by decide) ?_
    | with_reducible refine chargeBg_keeps (by decide) ?_
    | with_reducible refine bookOp_keeps (by decide) ?_
    | with_reducible refine modMem_keeps (by decide) (fun x => x) ?_
    | with_reducible refine modMem_keeps (by decide) (fun x => filter_wf x) ?_
    | with_reducible refine Keeps.ite ?_ ?_
    | with_reducible refine Keeps.getD ?_ (fun _ _ => ?_)
    | split
    | dsimp only
    | (with_reducible refine Keeps.put ?_ ?_; rotate_left 1
       · (refine Only.intro fun kp khp => ?_; cases kp <;> first | with_reducible exact rfl | exact absurd (by decide) khp))
    | (with_reducible refine Keeps.set ?_ ?_; rotate_left 1
       · (refine Only.intro fun kp khp => ?_; cases kp <;> first | with_reducible exact rfl | exact absurd (by decide) khp))
    | split

theorem execPatrolScrub_keeps {kl : List Piece} {k0 : State} {hub : BitVec 1} {target : PatrolTarget} {ecc : Ecc} {coord : BitVec 48} {s : State} {kt : State} (km : [.boot, .pkg, .lds, .mem, .coh, .fronds, .tally, .life, .log, .harvest, .regs] ⊆ kl) (ke : execPatrolScrub hub target ecc coord s = .next kt)
    (kh : Keeps kl k0 s) : Keeps kl k0 kt := by
  refine Keeps.step ?_ kh km
  unfold execPatrolScrub at ke
  cases ke
  repeat' first
    | with_reducible exact Keeps.refl _ _
    | assumption
    | with_reducible refine dramCeAt_keeps (by decide) ?_
    | with_reducible refine patrolStep_keeps (by decide) ?_
    | with_reducible refine wakeHub_keeps (by decide) ?_
    | with_reducible refine mediaRead_keeps (by decide) ?_
    | with_reducible refine loseMap_keeps (by decide) ?_
    | with_reducible refine pageMapLost_keeps (by decide) ?_
    | with_reducible refine putShadow_keeps (by decide) ?_
    | with_reducible refine rebuildRecord_keeps (by decide) ?_
    | with_reducible refine modHarvest_keeps (by decide) ?_
    | with_reducible refine event_keeps (by decide) ?_
    | with_reducible refine Keeps.ite ?_ ?_
    | split
    | dsimp only
    | (with_reducible refine Keeps.put ?_ ?_; rotate_left 1
       · (refine Only.intro fun kp khp => ?_; cases kp <;> first | with_reducible exact rfl | exact absurd (by decide) khp))
    | (with_reducible refine Keeps.set ?_ ?_; rotate_left 1
       · (refine Only.intro fun kp khp => ?_; cases kp <;> first | with_reducible exact rfl | exact absurd (by decide) khp))
    | split

theorem setRepair_keeps {kl : List Piece} {k0 s : State} {die r : Nat}
    (km : [.regs] ⊆ kl)
    (kh : Keeps kl k0 s) : Keeps kl k0 (setRepair s die r) := by
  refine Keeps.step ?_ kh km
  unfold setRepair
  repeat' first
    | with_reducible exact Keeps.refl _ _
    | assumption
    | with_reducible refine setReg_keeps (by decide) ?_

theorem setPanState_keeps {kl : List Piece} {k0 s : State} {die phys st : Nat}
    (km : [.life] ⊆ kl)
    (kh : Keeps kl k0 s) : Keeps kl k0 (setPanState s die phys st) := by
  refine Keeps.step ?_ kh km
  unfold setPanState
  repeat' first
    | with_reducible exact Keeps.refl _ _
    | assumption
    | with_reducible refine modLedger_keeps (by decide) ?_

theorem panRetired_keeps {kl : List Piece} {k0 s : State} {die pan : Nat} {lost : List Nat}
    (km : [.pins, .boot, .pkg, .lds, .seats, .extents, .mem, .coh, .fronds, .covs, .tally, .life, .log, .regs, .wire] ⊆ kl)
    (kh : Keeps kl k0 s) : Keeps kl k0 (panRetired s die pan lost) := by
  refine Keeps.step ?_ kh km
  unfold panRetired
  repeat' first
    | with_reducible exact Keeps.refl _ _
    | assumption
    | with_reducible refine event_keeps (by decide) ?_
    | with_reducible refine Keeps.foldl ?_ (fun _ _ => ?_)

theorem retireBare_keeps {kl : List Piece} {k0 : State} {s : State} {die : Nat} {pan : Nat} {force : Bool} (km : [.pins, .boot, .store, .pkg, .lds, .seats, .extents, .mem, .coh, .fronds, .covs, .tally, .life, .log, .regs, .wire] ⊆ kl)
    (kh : Keeps kl k0 s) : Keeps kl k0 (retireBare s die pan force) := by
  refine Keeps.step ?_ kh km
  unfold retireBare
  repeat' first
    | with_reducible exact Keeps.refl _ _
    | assumption
    | with_reducible refine setRepair_keeps (by decide) ?_
    | with_reducible refine invalidateEntry_keeps (by decide) ?_
    | with_reducible refine modArr_keeps (by decide) ?_
    | with_reducible refine setPanState_keeps (by decide) ?_
    | with_reducible refine ledgerWrite_keeps (by decide) ?_
    | with_reducible refine panRetired_keeps (by decide) ?_
    | with_reducible refine resolveAll_keeps (by decide) ?_
    | with_reducible refine Keeps.ite ?_ ?_
    | with_reducible refine Keeps.foldl ?_ (fun _ _ => ?_)
    | with_reducible refine Keeps.foldl1 ?_ (fun _ _ => ?_)
    | (with_reducible refine Keeps.put ?_ ?_; rotate_left 1
       · (refine Only.intro fun kp khp => ?_; cases kp <;> first | with_reducible exact rfl | exact absurd (by decide) khp))
    | (with_reducible refine Keeps.set ?_ ?_; rotate_left 1
       · (refine Only.intro fun kp khp => ?_; cases kp <;> first | with_reducible exact rfl | exact absurd (by decide) khp))
    | split

theorem repairWrite_keeps {kl : List Piece} {k0 : State} {die : Nat} {s : State} {w : Word32}
    (km : [.pins, .boot, .store, .pkg, .lds, .seats, .extents, .mem, .coh, .fronds, .covs, .tally, .life, .log, .regs, .wire] ⊆ kl)
    (kh : Keeps kl k0 s) : Keeps kl k0 (repairWrite die s w) := by
  refine Keeps.step ?_ kh km
  unfold repairWrite
  repeat' first
    | with_reducible exact Keeps.refl _ _
    | assumption
    | with_reducible refine guardStore_keeps (by decide) ?_
    | refine Keeps.fst ‹_ = (_, _)› (guardStore_keeps (by decide) ?_)
    | with_reducible refine wakeDie_keeps (by decide) ?_
    | with_reducible refine setRepair_keeps (by decide) ?_
    | with_reducible refine retireBare_keeps (by decide) ?_
    | with_reducible refine modFrond_keeps (by decide) ?_
    | with_reducible refine Keeps.ite ?_ ?_
    | split

theorem execRepairFence_keeps {kl : List Piece} {k0 : State} {p : Place} {die : BitVec 3} {w : Word32} {s kt : State}
    (km : [.pins, .boot, .store, .pkg, .lds, .seats, .extents, .mem, .coh, .fronds, .covs, .tally, .life, .log, .regs, .wire] ⊆ kl) (ke : execRepairFence p die w s = .next kt)
    (kh : Keeps kl k0 s) : Keeps kl k0 kt := by
  refine Keeps.step ?_ kh km
  unfold execRepairFence at ke
  cases ke
  repeat' first
    | with_reducible exact Keeps.refl _ _
    | assumption
    | with_reducible refine onGuard_keeps (by decide) (fun _ _ _ => ?_) ?_
    | with_reducible refine repairWrite_keeps (by decide) ?_

theorem execRepairRetire_keeps {kl : List Piece} {k0 : State} {p : Place} {die : BitVec 3} {w : Word32} {s kt : State}
    (km : [.pins, .boot, .store, .pkg, .lds, .seats, .extents, .mem, .coh, .fronds, .covs, .tally, .life, .log, .regs, .wire] ⊆ kl) (ke : execRepairRetire p die w s = .next kt)
    (kh : Keeps kl k0 s) : Keeps kl k0 kt := by
  refine Keeps.step ?_ kh km
  unfold execRepairRetire at ke
  cases ke
  repeat' first
    | with_reducible exact Keeps.refl _ _
    | assumption
    | with_reducible refine onGuard_keeps (by decide) (fun _ _ _ => ?_) ?_
    | with_reducible refine repairWrite_keeps (by decide) ?_

theorem execRepairRetireNoSpare_keeps {kl : List Piece} {k0 : State} {p : Place} {die : BitVec 3} {w : Word32} {s kt : State}
    (km : [.pins, .boot, .store, .pkg, .lds, .seats, .extents, .mem, .coh, .fronds, .covs, .tally, .life, .log, .regs, .wire] ⊆ kl) (ke : execRepairRetireNoSpare p die w s = .next kt)
    (kh : Keeps kl k0 s) : Keeps kl k0 kt := by
  refine Keeps.step ?_ kh km
  unfold execRepairRetireNoSpare at ke
  cases ke
  repeat' first
    | with_reducible exact Keeps.refl _ _
    | assumption
    | with_reducible refine onGuard_keeps (by decide) (fun _ _ _ => ?_) ?_
    | with_reducible refine repairWrite_keeps (by decide) ?_

theorem fillSpare_keeps {kl : List Piece} {k0 : State} {s : State} {die : Nat} {pan : Nat} (km : [.boot, .pkg, .lds, .fronds, .life, .log] ⊆ kl)
    (kh : Keeps kl k0 s) : Keeps kl k0 (fillSpare s die pan) := by
  refine Keeps.step ?_ kh km
  unfold fillSpare
  repeat' first
    | with_reducible exact Keeps.refl _ _
    | assumption
    | with_reducible refine rebuildRecord_keeps (by decide) ?_
    | with_reducible refine putRow_keeps (by decide) ?_
    | with_reducible refine modArr_keeps (by decide) ?_
    | with_reducible refine Keeps.ite ?_ ?_
    | with_reducible refine Keeps.foldl ?_ (fun _ _ => ?_)
    | with_reducible refine Keeps.foldl1 ?_ (fun _ _ => ?_)
    | (with_reducible refine Keeps.put ?_ ?_; rotate_left 1
       · (refine Only.intro fun kp khp => ?_; cases kp <;> first | with_reducible exact rfl | exact absurd (by decide) khp))
    | (with_reducible refine Keeps.set ?_ ?_; rotate_left 1
       · (refine Only.intro fun kp khp => ?_; cases kp <;> first | with_reducible exact rfl | exact absurd (by decide) khp))
    | split

theorem panFenced_keeps {kl : List Piece} {k0 s : State} {die : Nat} {o : PanOp} {bist : Nat}
    (km : [.boot, .pkg, .lds, .life, .log] ⊆ kl)
    (kh : Keeps kl k0 s) : Keeps kl k0 (panFenced s die o bist) := by
  refine Keeps.step ?_ kh km
  unfold panFenced
  repeat' first
    | with_reducible exact Keeps.refl _ _
    | assumption
    | with_reducible refine event_keeps (by decide) ?_

theorem execPanSpareSwitch_keeps {kl : List Piece} {k0 : State} {die : BitVec 3} {s : State} {kt : State} (km : [.boot, .store, .pkg, .lds, .seats, .fronds, .tally, .life, .log, .regs] ⊆ kl) (ke : execPanSpareSwitch die s = .next kt)
    (kh : Keeps kl k0 s) : Keeps kl k0 kt := by
  refine Keeps.step ?_ kh km
  unfold execPanSpareSwitch at ke
  cases ke
  repeat' first
    | with_reducible exact Keeps.refl _ _
    | assumption
    | with_reducible refine fillSpare_keeps (by decide) ?_
    | with_reducible refine frondOp_keeps (by decide) ?_
    | with_reducible refine usePan_keeps (by decide) ?_
    | with_reducible refine modArr_keeps (by decide) ?_
    | with_reducible refine setPanState_keeps (by decide) ?_
    | with_reducible refine modFrond_keeps (by decide) ?_
    | with_reducible refine ledgerWrite_keeps (by decide) ?_
    | with_reducible refine panFenced_keeps (by decide) ?_
    | with_reducible refine setRepair_keeps (by decide) ?_
    | with_reducible refine Keeps.ite ?_ ?_
    | split
    | dsimp only
    | (with_reducible refine Keeps.put ?_ ?_; rotate_left 1
       · (refine Only.intro fun kp khp => ?_; cases kp <;> first | with_reducible exact rfl | exact absurd (by decide) khp))
    | (with_reducible refine Keeps.set ?_ ?_; rotate_left 1
       · (refine Only.intro fun kp khp => ?_; cases kp <;> first | with_reducible exact rfl | exact absurd (by decide) khp))
    | split

theorem execPanBistDone_keeps {kl : List Piece} {k0 : State} {die : BitVec 3} {res : BistOut} {s : State} {kt : State} (km : [.boot, .store, .pkg, .lds, .fronds, .life, .log, .regs] ⊆ kl) (ke : execPanBistDone die res s = .next kt)
    (kh : Keeps kl k0 s) : Keeps kl k0 kt := by
  refine Keeps.step ?_ kh km
  unfold execPanBistDone at ke
  cases ke
  repeat' first
    | with_reducible exact Keeps.refl _ _
    | assumption
    | with_reducible refine modFrond_keeps (by decide) ?_
    | with_reducible refine modArr_keeps (by decide) ?_
    | with_reducible refine ledgerWrite_keeps (by decide) ?_
    | with_reducible refine panFenced_keeps (by decide) ?_
    | with_reducible refine setRepair_keeps (by decide) ?_
    | with_reducible refine setPanState_keeps (by decide) ?_
    | with_reducible refine event_keeps (by decide) ?_
    | with_reducible refine Keeps.ite ?_ ?_
    | split
    | dsimp only
    | (with_reducible refine Keeps.put ?_ ?_; rotate_left 1
       · (refine Only.intro fun kp khp => ?_; cases kp <;> first | with_reducible exact rfl | exact absurd (by decide) khp))
    | (with_reducible refine Keeps.set ?_ ?_; rotate_left 1
       · (refine Only.intro fun kp khp => ?_; cases kp <;> first | with_reducible exact rfl | exact absurd (by decide) khp))
    | split

theorem setMemret_keeps {kl : List Piece} {k0 s : State} {hub r : Nat}
    (km : [.regs] ⊆ kl)
    (kh : Keeps kl k0 s) : Keeps kl k0 (setMemret s hub r) := by
  refine Keeps.step ?_ kh km
  unfold setMemret
  repeat' first
    | with_reducible exact Keeps.refl _ _
    | assumption
    | with_reducible refine setReg_keeps (by decide) ?_

theorem memretWrite_keeps {kl : List Piece} {k0 : State} {hub : Nat} {s : State} {w : Word32}
    (km : [.mem, .regs, .wire] ⊆ kl)
    (kh : Keeps kl k0 s) : Keeps kl k0 (memretWrite hub s w) := by
  refine Keeps.step ?_ kh km
  unfold memretWrite
  repeat' first
    | with_reducible exact Keeps.refl _ _
    | assumption
    | with_reducible refine guardStore_keeps (by decide) ?_
    | refine Keeps.fst ‹_ = (_, _)› (guardStore_keeps (by decide) ?_)
    | with_reducible refine setReg_keeps (by decide) ?_
    | with_reducible refine setMemret_keeps (by decide) ?_
    | with_reducible refine modMem_keeps (by decide) (fun x => x) ?_
    | with_reducible refine modMem_keeps (by decide) (fun x => filter_wf x) ?_
    | with_reducible refine Keeps.ite ?_ ?_

theorem execMemretGo_keeps {kl : List Piece} {k0 : State} {p : Place} {die : BitVec 3} {w : Word32} {s kt : State}
    (km : [.pins, .lds, .mem, .fronds, .tally, .regs, .wire] ⊆ kl) (ke : execMemretGo p die w s = .next kt)
    (kh : Keeps kl k0 s) : Keeps kl k0 kt := by
  refine Keeps.step ?_ kh km
  unfold execMemretGo at ke
  cases ke
  repeat' first
    | with_reducible exact Keeps.refl _ _
    | assumption
    | with_reducible refine onGuard_keeps (by decide) (fun _ _ _ => ?_) ?_
    | with_reducible refine memretWrite_keeps (by decide) ?_

theorem moveFrame_keeps {kl : List Piece} {k0 : State} {s : State} {page : Nat} {hub : Nat} (km : [.boot, .pkg, .lds, .mem, .coh, .life, .log] ⊆ kl)
    (kh : Keeps kl k0 s) : Keeps kl k0 (moveFrame s page hub) := by
  refine Keeps.step ?_ kh km
  unfold moveFrame
  repeat' first
    | with_reducible exact Keeps.refl _ _
    | assumption
    | with_reducible refine mediaRead_keeps (by decide) ?_
    | with_reducible refine modMem_keeps (by decide) (fun x => x) ?_
    | with_reducible refine modMem_keeps (by decide) (fun x => filter_wf x) ?_
    | with_reducible refine Keeps.ite ?_ ?_
    | with_reducible refine Keeps.getD ?_ (fun _ _ => ?_)
    | with_reducible refine Keeps.foldl ?_ (fun _ _ => ?_)
    | with_reducible refine Keeps.foldl1 ?_ (fun _ _ => ?_)
    | (with_reducible refine Keeps.put ?_ ?_; rotate_left 1
       · (refine Only.intro fun kp khp => ?_; cases kp <;> first | with_reducible exact rfl | exact absurd (by decide) khp))
    | (with_reducible refine Keeps.set ?_ ?_; rotate_left 1
       · (refine Only.intro fun kp khp => ?_; cases kp <;> first | with_reducible exact rfl | exact absurd (by decide) khp))
    | split

theorem execDramRowRetired_keeps {kl : List Piece} {k0 : State} {hub : BitVec 1} {frames : BitVec 8} {s : State} {kt : State} (km : [.boot, .store, .pkg, .lds, .mem, .coh, .covs, .life, .log, .regs] ⊆ kl) (ke : execDramRowRetired hub frames s = .next kt)
    (kh : Keeps kl k0 s) : Keeps kl k0 kt := by
  refine Keeps.step ?_ kh km
  unfold execDramRowRetired at ke
  cases ke
  repeat' first
    | with_reducible exact Keeps.refl _ _
    | assumption
    | with_reducible refine moveFrame_keeps (by decide) ?_
    | with_reducible refine modMem_keeps (by decide) (fun x => x) ?_
    | with_reducible refine modMem_keeps (by decide) (fun x => filter_wf x) ?_
    | with_reducible refine storeWrite_keeps (by decide) ?_
    | with_reducible refine event_keeps (by decide) ?_
    | with_reducible refine setMemret_keeps (by decide) ?_
    | with_reducible refine overPromise_keeps (by decide) ?_
    | with_reducible refine capCheck_keeps (by decide) ?_
    | with_reducible refine ledgerWrite_keeps (by decide) ?_
    | with_reducible refine Keeps.ite ?_ ?_
    | with_reducible refine Keeps.getD ?_ (fun _ _ => ?_)
    | with_reducible refine Keeps.foldl ?_ (fun _ _ => ?_)
    | with_reducible refine Keeps.foldl1 ?_ (fun _ _ => ?_)
    | split
    | dsimp only
    | (with_reducible refine Keeps.put ?_ ?_; rotate_left 1
       · (refine Only.intro fun kp khp => ?_; cases kp <;> first | with_reducible exact rfl | exact absurd (by decide) khp))
    | (with_reducible refine Keeps.set ?_ ?_; rotate_left 1
       · (refine Only.intro fun kp khp => ?_; cases kp <;> first | with_reducible exact rfl | exact absurd (by decide) khp))
    | split

end Sys2Proof.Machine
end

