-- ==== Sys2Proof/Laws/TallyOps.lean ====
section
/-!
SUPPORT. What the operations of Machine/TallyOps.lean keep.
-/
set_option linter.unusedTactic false
set_option linter.unreachableTactic false
namespace Sys2Proof.Machine

theorem closeEpoch_keeps {kl : List Piece} {k0 : State} {s : State} (km : [.pins, .boot, .pkg, .lds, .seats, .extents, .mem, .coh, .fronds, .covs, .tally, .life, .log, .regs, .wire] ⊆ kl)
    (kh : Keeps kl k0 s) : Keeps kl k0 (closeEpoch s) := by
  refine Keeps.step ?_ kh km
  unfold closeEpoch
  repeat' first
    | with_reducible exact Keeps.refl _ _
    | assumption
    | with_reducible refine modTally_keeps (by decide) ?_
    | with_reducible refine take_keeps (by decide) ?_
    | (with_reducible refine Keeps.put ?_ ?_; rotate_left 1
       · (refine Only.intro fun kp khp => ?_; cases kp <;> first | with_reducible exact rfl | exact absurd (by decide) khp))
    | (with_reducible refine Keeps.set ?_ ?_; rotate_left 1
       · (refine Only.intro fun kp khp => ?_; cases kp <;> first | with_reducible exact rfl | exact absurd (by decide) khp))

theorem thermalCycle_keeps {kl : List Piece} {k0 s : State} {tj : Int}
    (km : [.life] ⊆ kl)
    (kh : Keeps kl k0 s) : Keeps kl k0 (thermalCycle s tj) := by
  refine Keeps.step ?_ kh km
  unfold thermalCycle
  repeat' first
    | with_reducible exact Keeps.refl _ _
    | assumption
    | with_reducible refine modLedger_keeps (by decide) ?_
    | with_reducible refine Keeps.ite ?_ ?_
    | split
    | dsimp only
    | (with_reducible refine Keeps.put ?_ ?_; rotate_left 1
       · (refine Only.intro fun kp khp => ?_; cases kp <;> first | with_reducible exact rfl | exact absurd (by decide) khp))

theorem thermal_keeps {kl : List Piece} {k0 s : State} {e : EpochIn}
    (km : [.boot, .pkg, .lds, .tally, .life, .log] ⊆ kl)
    (kh : Keeps kl k0 s) : Keeps kl k0 (thermal s e) := by
  refine Keeps.step ?_ kh km
  unfold thermal
  repeat' first
    | with_reducible exact Keeps.refl _ _
    | assumption
    | with_reducible refine modTally_keeps (by decide) ?_
    | with_reducible refine thermalCycle_keeps (by decide) ?_
    | with_reducible refine modLedger_keeps (by decide) ?_
    | with_reducible refine event_keeps (by decide) ?_
    | with_reducible refine Keeps.ite ?_ ?_

theorem hubStep_keeps {kl : List Piece} {k0 : State} {s : State} {h : Nat} {l : Nat} {cap : Nat} (km : [.tally, .wire] ⊆ kl)
    (kh : Keeps kl k0 s) : Keeps kl k0 (hubStep s h l cap) := by
  refine Keeps.step ?_ kh km
  unfold hubStep
  repeat' first
    | with_reducible exact Keeps.refl _ _
    | assumption
    | with_reducible refine send_keeps (by decide) ?_
    | with_reducible refine modTally_keeps (by decide) ?_
    | with_reducible refine Keeps.ite ?_ ?_
    | with_reducible refine Keeps.getD ?_ (fun _ _ => ?_)
    | (with_reducible refine Keeps.put ?_ ?_; rotate_left 1
       · (refine Only.intro fun kp khp => ?_; cases kp <;> first | with_reducible exact rfl | exact absurd (by decide) khp))
    | (with_reducible refine Keeps.set ?_ ?_; rotate_left 1
       · (refine Only.intro fun kp khp => ?_; cases kp <;> first | with_reducible exact rfl | exact absurd (by decide) khp))
    | split

theorem demands_keeps {kl : List Piece} {k0 : State} {s : State} {e : EpochIn} (km : [.tally, .wire] ⊆ kl)
    (kh : Keeps kl k0 s) : Keeps kl k0 (demands s e) := by
  refine Keeps.step ?_ kh km
  unfold demands
  repeat' first
    | with_reducible exact Keeps.refl _ _
    | assumption
    | with_reducible refine hubStep_keeps (by decide) ?_
    | with_reducible refine modTally_keeps (by decide) ?_
    | with_reducible refine Keeps.ite ?_ ?_
    | with_reducible refine Keeps.getD ?_ (fun _ _ => ?_)
    | with_reducible refine Keeps.foldl ?_ (fun _ _ => ?_)
    | with_reducible refine Keeps.foldl1 ?_ (fun _ _ => ?_)
    | (with_reducible refine Keeps.put ?_ ?_; rotate_left 1
       · (refine Only.intro fun kp khp => ?_; cases kp <;> first | with_reducible exact rfl | exact absurd (by decide) khp))
    | (with_reducible refine Keeps.set ?_ ?_; rotate_left 1
       · (refine Only.intro fun kp khp => ?_; cases kp <;> first | with_reducible exact rfl | exact absurd (by decide) khp))
    | split

theorem linkStates_keeps {kl : List Piece} {k0 : State} {s : State} {e : EpochIn} (km : [.ports] ⊆ kl)
    (kh : Keeps kl k0 s) : Keeps kl k0 (linkStates s e) := by
  refine Keeps.step ?_ kh km
  unfold linkStates
  repeat' first
    | with_reducible exact Keeps.refl _ _
    | assumption
    | with_reducible refine modLink_keeps (by decide) ?_
    | with_reducible refine Keeps.ite ?_ ?_
    | with_reducible refine Keeps.foldl ?_ (fun _ _ => ?_)
    | with_reducible refine Keeps.foldl1 ?_ (fun _ _ => ?_)
    | split
    | dsimp only
    | (with_reducible refine Keeps.put ?_ ?_; rotate_left 1
       · (refine Only.intro fun kp khp => ?_; cases kp <;> first | with_reducible exact rfl | exact absurd (by decide) khp))
    | (with_reducible refine Keeps.set ?_ ?_; rotate_left 1
       · (refine Only.intro fun kp khp => ?_; cases kp <;> first | with_reducible exact rfl | exact absurd (by decide) khp))
    | split

theorem forbidden_keeps {kl : List Piece} {k0 s : State}
    (km : [.pins, .fronds, .tally, .regs, .wire] ⊆ kl)
    (kh : Keeps kl k0 s) : Keeps kl k0 (forbidden s) := by
  refine Keeps.step ?_ kh km
  unfold forbidden
  repeat' first
    | with_reducible exact Keeps.refl _ _
    | assumption
    | with_reducible refine wakeDie_keeps (by decide) ?_
    | with_reducible refine Keeps.ite ?_ ?_
    | with_reducible refine Keeps.foldl ?_ (fun _ _ => ?_)

theorem measured_keeps {kl : List Piece} {k0 s : State} {e : EpochIn}
    (km : [.covs] ⊆ kl)
    (kh : Keeps kl k0 s) : Keeps kl k0 (measured s e) := by
  refine Keeps.step ?_ kh km
  unfold measured
  repeat' first
    | with_reducible exact Keeps.refl _ _
    | assumption
    | with_reducible refine modCov_keeps (by decide) ?_
    | with_reducible refine Keeps.ite ?_ ?_
    | with_reducible refine Keeps.foldl ?_ (fun _ _ => ?_)

theorem budget_keeps {kl : List Piece} {k0 s : State}
    (km : [.boot, .pkg, .lds, .tally, .life, .log] ⊆ kl)
    (kh : Keeps kl k0 s) : Keeps kl k0 (budget s) := by
  refine Keeps.step ?_ kh km
  unfold budget
  repeat' first
    | with_reducible exact Keeps.refl _ _
    | assumption
    | with_reducible refine modTally_keeps (by decide) ?_
    | with_reducible refine event_keeps (by decide) ?_
    | with_reducible refine Keeps.ite ?_ ?_

theorem splitBudget_keeps {kl : List Piece} {k0 : State} {s : State} {demand : List Nat} (km : [.pins, .boot, .pkg, .lds, .seats, .extents, .mem, .coh, .fronds, .covs, .tally, .life, .log, .regs, .wire] ⊆ kl)
    (kh : Keeps kl k0 s) : Keeps kl k0 (splitBudget s demand) := by
  refine Keeps.step ?_ kh km
  unfold splitBudget
  repeat' first
    | with_reducible exact Keeps.refl _ _
    | assumption
    | with_reducible refine take_keeps (by decide) ?_
    | with_reducible refine modTally_keeps (by decide) ?_
    | with_reducible refine Keeps.ite ?_ ?_
    | with_reducible refine Keeps.foldl ?_ (fun _ _ => ?_)
    | with_reducible refine Keeps.foldl1 ?_ (fun _ _ => ?_)
    | (with_reducible refine Keeps.put ?_ ?_; rotate_left 1
       · (refine Only.intro fun kp khp => ?_; cases kp <;> first | with_reducible exact rfl | exact absurd (by decide) khp))
    | (with_reducible refine Keeps.set ?_ ?_; rotate_left 1
       · (refine Only.intro fun kp khp => ?_; cases kp <;> first | with_reducible exact rfl | exact absurd (by decide) khp))
    | split

theorem giveSlack_keeps {kl : List Piece} {k0 : State} {s : State} {slack : Nat} {rake : Nat} {move : Nat} {pack : Nat} {scrub : Nat} (km : [.tally] ⊆ kl)
    (kh : Keeps kl k0 s) : Keeps kl k0 (giveSlack s slack rake move pack scrub) := by
  refine Keeps.step ?_ kh km
  unfold giveSlack
  repeat' first
    | with_reducible exact Keeps.refl _ _
    | assumption
    | with_reducible refine modTally_keeps (by decide) ?_
    | (with_reducible refine Keeps.put ?_ ?_; rotate_left 1
       · (refine Only.intro fun kp khp => ?_; cases kp <;> first | with_reducible exact rfl | exact absurd (by decide) khp))
    | (with_reducible refine Keeps.set ?_ ?_; rotate_left 1
       · (refine Only.intro fun kp khp => ?_; cases kp <;> first | with_reducible exact rfl | exact absurd (by decide) khp))

theorem pools_keeps {kl : List Piece} {k0 : State} {s : State} {e : EpochIn} (km : [.seats, .tally] ⊆ kl)
    (kh : Keeps kl k0 s) : Keeps kl k0 (pools s e) := by
  refine Keeps.step ?_ kh km
  unfold pools
  repeat' first
    | with_reducible exact Keeps.refl _ _
    | assumption
    | with_reducible refine modTally_keeps (by decide) ?_
    | with_reducible refine giveSlack_keeps (by decide) ?_
    | with_reducible refine Keeps.ite ?_ ?_
    | with_reducible refine Keeps.getD ?_ (fun _ _ => ?_)
    | with_reducible refine Keeps.foldl ?_ (fun _ _ => ?_)
    | with_reducible refine Keeps.foldl1 ?_ (fun _ _ => ?_)
    | (with_reducible refine Keeps.put ?_ ?_; rotate_left 1
       · (refine Only.intro fun kp khp => ?_; cases kp <;> first | with_reducible exact rfl | exact absurd (by decide) khp))
    | (with_reducible refine Keeps.set ?_ ?_; rotate_left 1
       · (refine Only.intro fun kp khp => ?_; cases kp <;> first | with_reducible exact rfl | exact absurd (by decide) khp))
    | split

theorem startLevel_keeps {kl : List Piece} {k0 s : State} {die l : Nat}
    (km : [.fronds, .wire] ⊆ kl)
    (kh : Keeps kl k0 s) : Keeps kl k0 (startLevel s die l) := by
  refine Keeps.step ?_ kh km
  unfold startLevel
  repeat' first
    | with_reducible exact Keeps.refl _ _
    | assumption
    | with_reducible refine send_keeps (by decide) ?_
    | with_reducible refine modFrond_keeps (by decide) ?_
    | with_reducible refine Keeps.ite ?_ ?_

theorem levels_keeps {kl : List Piece} {k0 s : State}
    (km : [.fronds, .wire] ⊆ kl)
    (kh : Keeps kl k0 s) : Keeps kl k0 (levels s) := by
  refine Keeps.step ?_ kh km
  unfold levels
  repeat' first
    | with_reducible exact Keeps.refl _ _
    | assumption
    | with_reducible refine startLevel_keeps (by decide) ?_
    | with_reducible refine modFrond_keeps (by decide) ?_
    | with_reducible refine Keeps.ite ?_ ?_
    | with_reducible refine Keeps.foldl ?_ (fun _ _ => ?_)

theorem keepCharges_keeps {kl : List Piece} {k0 : State} {s : State} (km : [.seats, .covs] ⊆ kl)
    (kh : Keeps kl k0 s) : Keeps kl k0 (keepCharges s) := by
  refine Keeps.step ?_ kh km
  unfold keepCharges
  repeat' first
    | with_reducible exact Keeps.refl _ _
    | assumption
    | with_reducible refine chargeSeat_keeps (by decide) ?_
    | with_reducible refine modCov_keeps (by decide) ?_
    | with_reducible refine Keeps.foldl ?_ (fun _ _ => ?_)
    | with_reducible refine Keeps.foldl1 ?_ (fun _ _ => ?_)
    | (with_reducible refine Keeps.put ?_ ?_; rotate_left 1
       · (refine Only.intro fun kp khp => ?_; cases kp <;> first | with_reducible exact rfl | exact absurd (by decide) khp))
    | (with_reducible refine Keeps.set ?_ ?_; rotate_left 1
       · (refine Only.intro fun kp khp => ?_; cases kp <;> first | with_reducible exact rfl | exact absurd (by decide) khp))

theorem bookStanding_keeps {kl : List Piece} {k0 s : State} {rail pj : Nat}
    (km : [.tally] ⊆ kl)
    (kh : Keeps kl k0 s) : Keeps kl k0 (bookStanding s rail pj) := by
  refine Keeps.step ?_ kh km
  unfold bookStanding
  repeat' first
    | with_reducible exact Keeps.refl _ _
    | assumption
    | with_reducible refine modTally_keeps (by decide) ?_

theorem bookEpoch_keeps {kl : List Piece} {k0 : State} {s : State} (km : [.fronds, .tally] ⊆ kl)
    (kh : Keeps kl k0 s) : Keeps kl k0 (bookEpoch s) := by
  refine Keeps.step ?_ kh km
  unfold bookEpoch
  repeat' first
    | with_reducible exact Keeps.refl _ _
    | assumption
    | with_reducible refine bookStanding_keeps (by decide) ?_
    | with_reducible refine modFrond_keeps (by decide) ?_
    | with_reducible refine Keeps.ite ?_ ?_
    | with_reducible refine Keeps.getD ?_ (fun _ _ => ?_)
    | with_reducible refine Keeps.foldl ?_ (fun _ _ => ?_)
    | with_reducible refine Keeps.foldl1 ?_ (fun _ _ => ?_)
    | (with_reducible refine Keeps.put ?_ ?_; rotate_left 1
       · (refine Only.intro fun kp khp => ?_; cases kp <;> first | with_reducible exact rfl | exact absurd (by decide) khp))
    | (with_reducible refine Keeps.set ?_ ?_; rotate_left 1
       · (refine Only.intro fun kp khp => ?_; cases kp <;> first | with_reducible exact rfl | exact absurd (by decide) khp))
    | split

theorem refuseSleep_keeps {kl : List Piece} {k0 s : State} {die step target reason : Nat}
    (km : [.boot, .pkg, .lds, .tally, .life, .log, .regs] ⊆ kl)
    (kh : Keeps kl k0 s) : Keeps kl k0 (refuseSleep s die step target reason) := by
  refine Keeps.step ?_ kh km
  unfold refuseSleep
  repeat' first
    | with_reducible exact Keeps.refl _ _
    | assumption
    | with_reducible refine setSleepRes_keeps (by decide) ?_
    | with_reducible refine modTally_keeps (by decide) ?_
    | with_reducible refine event_keeps (by decide) ?_
    | with_reducible refine Keeps.ite ?_ ?_

theorem attempt_keeps {kl : List Piece} {k0 s : State} {die target : Nat} {l : List (Nat × Nat)}
    {go : State → State} (km : [.boot, .pkg, .lds, .mem, .coh, .tally, .life, .log, .regs] ⊆ kl) (kf : Keeps kl k0 (go s)) (kh : Keeps kl k0 s) :
    Keeps kl k0 (attempt s die target l go) := by
  unfold attempt
  split
  · exact kf
  · next step r _ =>
    have h : Keeps kl k0 (if 2 ≤ die && 2 ≤ target && decide (6 < step) then emptyCache s die else s) :=
      Keeps.ite (emptyCache_keeps (List.Subset.trans (by decide) km) kh) kh
    exact Keeps.ite (setSleepRes_keeps (List.Subset.trans (by decide) km) h)
      (refuseSleep_keeps (List.Subset.trans (by decide) km) h)

theorem sleepFrond_keeps {kl : List Piece} {k0 s : State} {e : EpochIn} {die : Nat}
    (km : [.boot, .pkg, .lds, .mem, .coh, .fronds, .tally, .life, .log, .regs] ⊆ kl)
    (kh : Keeps kl k0 s) : Keeps kl k0 (sleepFrond s e die) := by
  refine Keeps.step ?_ kh km
  unfold sleepFrond
  repeat' first
    | with_reducible exact Keeps.refl _ _
    | assumption
    | with_reducible refine attempt_keeps (by decide) ?_ ?_
    | with_reducible refine modFrond_keeps (by decide) ?_
    | with_reducible refine Keeps.ite ?_ ?_

theorem sleepHub_keeps {kl : List Piece} {k0 : State} {s : State} {e : EpochIn} {h : Nat} (km : [.boot, .pkg, .lds, .mem, .coh, .tally, .life, .log, .regs] ⊆ kl)
    (kh : Keeps kl k0 s) : Keeps kl k0 (sleepHub s e h) := by
  refine Keeps.step ?_ kh km
  unfold sleepHub
  repeat' first
    | with_reducible exact Keeps.refl _ _
    | assumption
    | with_reducible refine attempt_keeps (by decide) ?_ ?_
    | with_reducible refine modTally_keeps (by decide) ?_
    | with_reducible refine Keeps.ite ?_ ?_
    | with_reducible refine Keeps.getD ?_ (fun _ _ => ?_)
    | (with_reducible refine Keeps.put ?_ ?_; rotate_left 1
       · (refine Only.intro fun kp khp => ?_; cases kp <;> first | with_reducible exact rfl | exact absurd (by decide) khp))
    | (with_reducible refine Keeps.set ?_ ?_; rotate_left 1
       · (refine Only.intro fun kp khp => ?_; cases kp <;> first | with_reducible exact rfl | exact absurd (by decide) khp))
    | split

theorem tallyCommit_keeps {kl : List Piece} {k0 : State} {s : State} (km : [.regs, .wire] ⊆ kl)
    (kh : Keeps kl k0 s) : Keeps kl k0 (tallyCommit s) := by
  refine Keeps.step ?_ kh km
  unfold tallyCommit
  repeat' first
    | with_reducible exact Keeps.refl _ _
    | assumption
    | with_reducible refine commitEnd_keeps (by decide) ?_
    | with_reducible refine dropStaged_keeps (by decide) ?_
    | with_reducible refine activate_keeps (by decide) ?_
    | with_reducible refine Keeps.ite ?_ ?_
    | split

theorem epochStep_keeps {kl : List Piece} {k0 : State} {s : State} {e : EpochIn} (km : [.pins, .boot, .pkg, .ports, .lds, .seats, .extents, .mem, .coh, .fronds, .covs, .tally, .life, .log, .regs, .wire] ⊆ kl)
    (kh : Keeps kl k0 s) : Keeps kl k0 (epochStep s e) := by
  refine Keeps.step ?_ kh km
  unfold epochStep
  repeat' first
    | with_reducible exact Keeps.refl _ _
    | assumption
    | with_reducible refine demands_keeps (by decide) ?_
    | with_reducible refine thermal_keeps (by decide) ?_
    | with_reducible refine bookEpoch_keeps (by decide) ?_
    | with_reducible refine closeEpoch_keeps (by decide) ?_
    | with_reducible refine tallyCommit_keeps (by decide) ?_
    | with_reducible refine measured_keeps (by decide) ?_
    | with_reducible refine forbidden_keeps (by decide) ?_
    | with_reducible refine linkStates_keeps (by decide) ?_
    | with_reducible refine covResolve_keeps (by decide) ?_
    | with_reducible refine splitBudget_keeps (by decide) ?_
    | with_reducible refine budget_keeps (by decide) ?_
    | with_reducible refine keepCharges_keeps (by decide) ?_
    | with_reducible refine levels_keeps (by decide) ?_
    | with_reducible refine pools_keeps (by decide) ?_
    | with_reducible refine sleepHub_keeps (by decide) ?_
    | with_reducible refine sleepFrond_keeps (by decide) ?_
    | with_reducible refine Keeps.foldl ?_ (fun _ _ => ?_)
    | with_reducible refine Keeps.foldl1 ?_ (fun _ _ => ?_)

theorem execTallyEpoch_keeps {kl : List Piece} {k0 : State} {e : EpochIn} {s : State} {kt : State} (km : [.pins, .boot, .pkg, .ports, .lds, .seats, .extents, .mem, .coh, .fronds, .covs, .tally, .life, .log, .regs, .wire] ⊆ kl) (ke : execTallyEpoch e s = .next kt)
    (kh : Keeps kl k0 s) : Keeps kl k0 kt := by
  refine Keeps.step ?_ kh km
  unfold execTallyEpoch at ke
  cases ke
  repeat' first
    | with_reducible exact Keeps.refl _ _
    | assumption
    | with_reducible refine epochStep_keeps (by decide) ?_
    | with_reducible refine Keeps.ite ?_ ?_
    | split
    | dsimp only
    | split

theorem bridge_keeps {kl : List Piece} {k0 : State} {s : State} {die : Nat} {ns : Nat} {mhz : Nat} (km : [.fronds, .regs] ⊆ kl)
    (kh : Keeps kl k0 s) : Keeps kl k0 (bridge s die ns mhz) := by
  refine Keeps.step ?_ kh km
  unfold bridge
  repeat' first
    | with_reducible exact Keeps.refl _ _
    | assumption
    | with_reducible refine modFrond_keeps (by decide) ?_
    | with_reducible refine orReg_keeps (by decide) ?_
    | (with_reducible refine Keeps.put ?_ ?_; rotate_left 1
       · (refine Only.intro fun kp khp => ?_; cases kp <;> first | with_reducible exact rfl | exact absurd (by decide) khp))
    | (with_reducible refine Keeps.set ?_ ?_; rotate_left 1
       · (refine Only.intro fun kp khp => ?_; cases kp <;> first | with_reducible exact rfl | exact absurd (by decide) khp))

theorem execAvsStepDone_keeps {kl : List Piece} {k0 : State} {rail : BitVec 4} {s : State} {kt : State} (km : [.fronds, .tally] ⊆ kl) (ke : execAvsStepDone rail s = .next kt)
    (kh : Keeps kl k0 s) : Keeps kl k0 kt := by
  refine Keeps.step ?_ kh km
  unfold execAvsStepDone at ke
  cases ke
  repeat' first
    | with_reducible exact Keeps.refl _ _
    | assumption
    | with_reducible refine modFrond_keeps (by decide) ?_
    | with_reducible refine modTally_keeps (by decide) ?_
    | with_reducible refine Keeps.ite ?_ ?_
    | with_reducible refine Keeps.getD ?_ (fun _ _ => ?_)
    | split
    | dsimp only
    | (with_reducible refine Keeps.put ?_ ?_; rotate_left 1
       · (refine Only.intro fun kp khp => ?_; cases kp <;> first | with_reducible exact rfl | exact absurd (by decide) khp))
    | (with_reducible refine Keeps.set ?_ ?_; rotate_left 1
       · (refine Only.intro fun kp khp => ?_; cases kp <;> first | with_reducible exact rfl | exact absurd (by decide) khp))
    | split

theorem execAvsStepTimeout_keeps {kl : List Piece} {k0 : State} {rail : BitVec 4} {mv : Word} {s : State} {kt : State} (km : [.boot, .pkg, .lds, .mem, .coh, .fronds, .tally, .life, .log, .regs] ⊆ kl) (ke : execAvsStepTimeout rail mv s = .next kt)
    (kh : Keeps kl k0 s) : Keeps kl k0 kt := by
  refine Keeps.step ?_ kh km
  unfold execAvsStepTimeout at ke
  cases ke
  repeat' first
    | with_reducible exact Keeps.refl _ _
    | assumption
    | with_reducible refine emptyCache_keeps (by decide) ?_
    | with_reducible refine refuseSleep_keeps (by decide) ?_
    | with_reducible refine modFrond_keeps (by decide) ?_
    | with_reducible refine modTally_keeps (by decide) ?_
    | with_reducible refine modLedger_keeps (by decide) ?_
    | with_reducible refine event_keeps (by decide) ?_
    | with_reducible refine Keeps.ite ?_ ?_
    | split
    | dsimp only
    | (with_reducible refine Keeps.put ?_ ?_; rotate_left 1
       · (refine Only.intro fun kp khp => ?_; cases kp <;> first | with_reducible exact rfl | exact absurd (by decide) khp))
    | (with_reducible refine Keeps.set ?_ ?_; rotate_left 1
       · (refine Only.intro fun kp khp => ?_; cases kp <;> first | with_reducible exact rfl | exact absurd (by decide) khp))
    | split

theorem execFrondRelockDone_keeps {kl : List Piece} {k0 : State} {die : BitVec 3} {pausedNs : BitVec 32} {s : State} {kt : State} (km : [.fronds, .regs, .wire] ⊆ kl) (ke : execFrondRelockDone die pausedNs s = .next kt)
    (kh : Keeps kl k0 s) : Keeps kl k0 kt := by
  refine Keeps.step ?_ kh km
  unfold execFrondRelockDone at ke
  cases ke
  repeat' first
    | with_reducible exact Keeps.refl _ _
    | assumption
    | with_reducible refine bridge_keeps (by decide) ?_
    | with_reducible refine modFrond_keeps (by decide) ?_
    | with_reducible refine send_keeps (by decide) ?_
    | with_reducible refine Keeps.ite ?_ ?_
    | split
    | dsimp only
    | (with_reducible refine Keeps.put ?_ ?_; rotate_left 1
       · (refine Only.intro fun kp khp => ?_; cases kp <;> first | with_reducible exact rfl | exact absurd (by decide) khp))
    | (with_reducible refine Keeps.set ?_ ?_; rotate_left 1
       · (refine Only.intro fun kp khp => ?_; cases kp <;> first | with_reducible exact rfl | exact absurd (by decide) khp))
    | split

theorem frondAsleep_keeps {kl : List Piece} {k0 : State} {s : State} {die : Nat} {target : Nat} (km : [.pins, .boot, .pkg, .lds, .mem, .coh, .fronds, .life, .log, .regs, .wire] ⊆ kl)
    (kh : Keeps kl k0 s) : Keeps kl k0 (frondAsleep s die target) := by
  refine Keeps.step ?_ kh km
  unfold frondAsleep
  repeat' first
    | with_reducible exact Keeps.refl _ _
    | assumption
    | with_reducible refine modArr_keeps (by decide) ?_
    | with_reducible refine emptyCache_keeps (by decide) ?_
    | with_reducible refine send_keeps (by decide) ?_
    | with_reducible refine modFrond_keeps (by decide) ?_
    | with_reducible refine setSleepRes_keeps (by decide) ?_
    | with_reducible refine Keeps.ite ?_ ?_
    | split
    | dsimp only
    | (with_reducible refine Keeps.put ?_ ?_; rotate_left 1
       · (refine Only.intro fun kp khp => ?_; cases kp <;> first | with_reducible exact rfl | exact absurd (by decide) khp))
    | (with_reducible refine Keeps.set ?_ ?_; rotate_left 1
       · (refine Only.intro fun kp khp => ?_; cases kp <;> first | with_reducible exact rfl | exact absurd (by decide) khp))
    | split

theorem hubAsleep_keeps {kl : List Piece} {k0 s : State} {h : Nat}
    (km : [.pins, .tally, .regs] ⊆ kl)
    (kh : Keeps kl k0 s) : Keeps kl k0 (hubAsleep s h) := by
  refine Keeps.step ?_ kh km
  unfold hubAsleep
  repeat' first
    | with_reducible exact Keeps.refl _ _
    | assumption
    | with_reducible refine modTally_keeps (by decide) ?_
    | with_reducible refine setSleepRes_keeps (by decide) ?_
    | with_reducible refine Keeps.ite ?_ ?_
    | (with_reducible refine Keeps.put ?_ ?_; rotate_left 1
       · (refine Only.intro fun kp khp => ?_; cases kp <;> first | with_reducible exact rfl | exact absurd (by decide) khp))

theorem execDieSleepDone_keeps {kl : List Piece} {k0 : State} {die : BitVec 3} {s : State} {kt : State} (km : [.pins, .boot, .pkg, .lds, .mem, .coh, .fronds, .tally, .life, .log, .regs, .wire] ⊆ kl) (ke : execDieSleepDone die s = .next kt)
    (kh : Keeps kl k0 s) : Keeps kl k0 kt := by
  refine Keeps.step ?_ kh km
  unfold execDieSleepDone at ke
  cases ke
  repeat' first
    | with_reducible exact Keeps.refl _ _
    | assumption
    | with_reducible refine hubAsleep_keeps (by decide) ?_
    | with_reducible refine refuseSleep_keeps (by decide) ?_
    | with_reducible refine modTally_keeps (by decide) ?_
    | with_reducible refine frondAsleep_keeps (by decide) ?_
    | with_reducible refine modFrond_keeps (by decide) ?_
    | with_reducible refine Keeps.ite ?_ ?_
    | with_reducible refine Keeps.getD ?_ (fun _ _ => ?_)
    | split
    | dsimp only
    | (with_reducible refine Keeps.put ?_ ?_; rotate_left 1
       · (refine Only.intro fun kp khp => ?_; cases kp <;> first | with_reducible exact rfl | exact absurd (by decide) khp))
    | (with_reducible refine Keeps.set ?_ ?_; rotate_left 1
       · (refine Only.intro fun kp khp => ?_; cases kp <;> first | with_reducible exact rfl | exact absurd (by decide) khp))
    | split

theorem frondAwake_keeps {kl : List Piece} {k0 : State} {s : State} {die : Nat} {ns : Nat} (km : [.fronds, .regs] ⊆ kl)
    (kh : Keeps kl k0 s) : Keeps kl k0 (frondAwake s die ns) := by
  refine Keeps.step ?_ kh km
  unfold frondAwake
  repeat' first
    | with_reducible exact Keeps.refl _ _
    | assumption
    | with_reducible refine bridge_keeps (by decide) ?_
    | with_reducible refine modFrond_keeps (by decide) ?_
    | with_reducible refine Keeps.ite ?_ ?_
    | (with_reducible refine Keeps.put ?_ ?_; rotate_left 1
       · (refine Only.intro fun kp khp => ?_; cases kp <;> first | with_reducible exact rfl | exact absurd (by decide) khp))
    | (with_reducible refine Keeps.set ?_ ?_; rotate_left 1
       · (refine Only.intro fun kp khp => ?_; cases kp <;> first | with_reducible exact rfl | exact absurd (by decide) khp))
    | split

theorem execDieWakeDone_keeps {kl : List Piece} {k0 : State} {die : BitVec 3} {stoppedNs : BitVec 64} {s kt : State}
    (km : [.pins, .fronds, .tally, .regs] ⊆ kl) (ke : execDieWakeDone die stoppedNs s = .next kt)
    (kh : Keeps kl k0 s) : Keeps kl k0 kt := by
  refine Keeps.step ?_ kh km
  unfold execDieWakeDone at ke
  cases ke
  repeat' first
    | with_reducible exact Keeps.refl _ _
    | assumption
    | with_reducible refine wakeHub_keeps (by decide) ?_
    | with_reducible refine modTally_keeps (by decide) ?_
    | with_reducible refine frondAwake_keeps (by decide) ?_
    | with_reducible refine Keeps.ite ?_ ?_
    | with_reducible refine Keeps.getD ?_ (fun _ _ => ?_)
    | split
    | dsimp only
    | (with_reducible refine Keeps.put ?_ ?_; rotate_left 1
       · (refine Only.intro fun kp khp => ?_; cases kp <;> first | with_reducible exact rfl | exact absurd (by decide) khp))

theorem execFrondScrubDue_keeps {kl : List Piece} {k0 : State} {die : BitVec 3} {s : State} {kt : State} (km : [.boot, .pkg, .lds, .fronds, .tally, .life, .log, .regs, .wire] ⊆ kl) (ke : execFrondScrubDue die s = .next kt)
    (kh : Keeps kl k0 s) : Keeps kl k0 kt := by
  refine Keeps.step ?_ kh km
  unfold execFrondScrubDue at ke
  cases ke
  repeat' first
    | with_reducible exact Keeps.refl _ _
    | assumption
    | with_reducible refine wakeHub_keeps (by decide) ?_
    | with_reducible refine chargeBg_keeps (by decide) ?_
    | with_reducible refine bookOp_keeps (by decide) ?_
    | with_reducible refine tagChecks_keeps (by decide) ?_
    | with_reducible refine scrubRow_keeps (by decide) ?_
    | with_reducible refine modFrond_keeps (by decide) ?_
    | with_reducible refine scrubLate_keeps (by decide) ?_
    | with_reducible refine Keeps.ite ?_ ?_
    | with_reducible refine Keeps.foldl ?_ (fun _ _ => ?_)
    | with_reducible refine Keeps.foldl1 ?_ (fun _ _ => ?_)
    | split
    | dsimp only
    | (with_reducible refine Keeps.put ?_ ?_; rotate_left 1
       · (refine Only.intro fun kp khp => ?_; cases kp <;> first | with_reducible exact rfl | exact absurd (by decide) khp))
    | (with_reducible refine Keeps.set ?_ ?_; rotate_left 1
       · (refine Only.intro fun kp khp => ?_; cases kp <;> first | with_reducible exact rfl | exact absurd (by decide) khp))
    | split

theorem execPanRetentionEntry_keeps {kl : List Piece} {k0 : State} {die : BitVec 3} {pan : BitVec 9} {s : State} {kt : State} (km : [.fronds] ⊆ kl) (ke : execPanRetentionEntry die pan s = .next kt)
    (kh : Keeps kl k0 s) : Keeps kl k0 kt := by
  refine Keeps.step ?_ kh km
  unfold execPanRetentionEntry at ke
  cases ke
  repeat' first
    | with_reducible exact Keeps.refl _ _
    | assumption
    | with_reducible refine modArr_keeps (by decide) ?_
    | with_reducible refine Keeps.ite ?_ ?_
    | split
    | dsimp only
    | (with_reducible refine Keeps.put ?_ ?_; rotate_left 1
       · (refine Only.intro fun kp khp => ?_; cases kp <;> first | with_reducible exact rfl | exact absurd (by decide) khp))
    | (with_reducible refine Keeps.set ?_ ?_; rotate_left 1
       · (refine Only.intro fun kp khp => ?_; cases kp <;> first | with_reducible exact rfl | exact absurd (by decide) khp))
    | split

theorem execTallyLend_keeps {kl : List Piece} {k0 : State} {s : State} {kt : State} (km : [.tally] ⊆ kl) (ke : execTallyLend s = .next kt)
    (kh : Keeps kl k0 s) : Keeps kl k0 kt := by
  refine Keeps.step ?_ kh km
  unfold execTallyLend at ke
  cases ke
  repeat' first
    | with_reducible exact Keeps.refl _ _
    | assumption
    | with_reducible refine modTally_keeps (by decide) ?_
    | with_reducible refine Keeps.ite ?_ ?_
    | with_reducible refine Keeps.foldl ?_ (fun _ _ => ?_)
    | with_reducible refine Keeps.foldl1 ?_ (fun _ _ => ?_)
    | split
    | dsimp only
    | (with_reducible refine Keeps.put ?_ ?_; rotate_left 1
       · (refine Only.intro fun kp khp => ?_; cases kp <;> first | with_reducible exact rfl | exact absurd (by decide) khp))
    | (with_reducible refine Keeps.set ?_ ?_; rotate_left 1
       · (refine Only.intro fun kp khp => ?_; cases kp <;> first | with_reducible exact rfl | exact absurd (by decide) khp))
    | split

theorem recalEntry_keeps {kl : List Piece} {k0 s : State} {sel m c : Nat}
    (km : [.boot, .pkg, .lds, .tally, .life, .log] ⊆ kl)
    (kh : Keeps kl k0 s) : Keeps kl k0 (recalEntry s sel m c) := by
  refine Keeps.step ?_ kh km
  unfold recalEntry
  repeat' first
    | with_reducible exact Keeps.refl _ _
    | assumption
    | with_reducible refine modTally_keeps (by decide) ?_
    | with_reducible refine event_keeps (by decide) ?_
    | with_reducible refine Keeps.ite ?_ ?_

theorem execCostRecalibrate_keeps {kl : List Piece} {k0 : State} {rail : BitVec 4} {measuredNj : BitVec 48} {s : State} {kt : State} (km : [.boot, .pkg, .lds, .tally, .life, .log] ⊆ kl) (ke : execCostRecalibrate rail measuredNj s = .next kt)
    (kh : Keeps kl k0 s) : Keeps kl k0 kt := by
  refine Keeps.step ?_ kh km
  unfold execCostRecalibrate at ke
  cases ke
  repeat' first
    | with_reducible exact Keeps.refl _ _
    | assumption
    | with_reducible refine modTally_keeps (by decide) ?_
    | with_reducible refine recalEntry_keeps (by decide) ?_
    | with_reducible refine Keeps.ite ?_ ?_
    | with_reducible refine Keeps.getD ?_ (fun _ _ => ?_)
    | with_reducible refine Keeps.foldl ?_ (fun _ _ => ?_)
    | with_reducible refine Keeps.foldl1 ?_ (fun _ _ => ?_)
    | split
    | dsimp only
    | (with_reducible refine Keeps.put ?_ ?_; rotate_left 1
       · (refine Only.intro fun kp khp => ?_; cases kp <;> first | with_reducible exact rfl | exact absurd (by decide) khp))
    | (with_reducible refine Keeps.set ?_ ?_; rotate_left 1
       · (refine Only.intro fun kp khp => ?_; cases kp <;> first | with_reducible exact rfl | exact absurd (by decide) khp))
    | split

theorem earlyRel_keeps {kl : List Piece} {k0 s : State} {h : Nat}
    (km : [.regs] ⊆ kl)
    (kh : Keeps kl k0 s) : Keeps kl k0 (earlyRel s h) := by
  refine Keeps.step ?_ kh km
  unfold earlyRel
  repeat' first
    | with_reducible exact Keeps.refl _ _
    | assumption
    | with_reducible refine orReg_keeps (by decide) ?_

theorem padRelWrite_keeps {kl : List Piece} {k0 : State} {h : Nat} {s : State} {w : Word32}
    (km : [.pins, .regs, .wire] ⊆ kl)
    (kh : Keeps kl k0 s) : Keeps kl k0 (padRelWrite h s w) := by
  refine Keeps.step ?_ kh km
  unfold padRelWrite
  repeat' first
    | with_reducible exact Keeps.refl _ _
    | assumption
    | with_reducible refine guardStore_keeps (by decide) ?_
    | refine Keeps.fst ‹_ = (_, _)› (guardStore_keeps (by decide) ?_)
    | with_reducible refine setReg_keeps (by decide) ?_
    | with_reducible refine earlyRel_keeps (by decide) ?_
    | with_reducible refine Keeps.ite ?_ ?_
    | with_reducible refine Keeps.getD ?_ (fun _ _ => ?_)
    | with_reducible refine Keeps.foldl ?_ (fun _ _ => ?_)
    | with_reducible refine Keeps.foldl1 ?_ (fun _ _ => ?_)
    | split
    | dsimp only
    | (with_reducible refine Keeps.put ?_ ?_; rotate_left 1
       · (refine Only.intro fun kp khp => ?_; cases kp <;> first | with_reducible exact rfl | exact absurd (by decide) khp))

theorem execHpwrPadrel_keeps {kl : List Piece} {k0 : State} {p : Place} {die : BitVec 3} {w : Word32} {s kt : State}
    (km : [.pins, .lds, .fronds, .tally, .regs, .wire] ⊆ kl) (ke : execHpwrPadrel p die w s = .next kt)
    (kh : Keeps kl k0 s) : Keeps kl k0 kt := by
  refine Keeps.step ?_ kh km
  unfold execHpwrPadrel at ke
  cases ke
  repeat' first
    | with_reducible exact Keeps.refl _ _
    | assumption
    | with_reducible refine onGuard_keeps (by decide) (fun _ _ _ => ?_) ?_
    | with_reducible refine padRelWrite_keeps (by decide) ?_

theorem xtalFail_keeps {kl : List Piece} {k0 s : State} {deviation : Word32}
    (km : [.boot, .pkg, .clock, .lds, .life, .log] ⊆ kl)
    (kh : Keeps kl k0 s) : Keeps kl k0 (xtalFail s deviation) := by
  refine Keeps.step ?_ kh km
  unfold xtalFail
  repeat' first
    | with_reducible exact Keeps.refl _ _
    | assumption
    | with_reducible refine event_keeps (by decide) ?_
    | (with_reducible refine Keeps.set ?_ ?_ ?_ ?_ ?_ ?_ ?_ ?_ ?_ ?_ ?_ ?_ ?_; rotate_left 1
       · (refine Only.intro fun kp khp => ?_; cases kp <;> first | with_reducible exact rfl | exact absurd (by decide) khp)
       · with_reducible exact List.prefix_refl _
       · with_reducible exact Nat.le_refl _
       · with_reducible exact Nat.le_refl _
       · with_reducible exact Nat.le_refl _
       · with_reducible exact List.suffix_refl _
       · with_reducible exact fun x => x
       · with_reducible exact fun x => x
       · with_reducible exact fun x => x
       · with_reducible exact fun x => x
       · with_reducible exact fun x => x
       · with_reducible exact fun x => ⟨x.mode, x.bootMode, x.storeMode, x.sel, x.whole⟩)

theorem execClkXtalFail_keeps {kl : List Piece} {k0 : State} {deviation : Word32} {s kt : State}
    (km : [.boot, .pkg, .clock, .lds, .life, .log] ⊆ kl) (ke : execClkXtalFail deviation s = .next kt)
    (kh : Keeps kl k0 s) : Keeps kl k0 kt := by
  refine Keeps.step ?_ kh km
  unfold execClkXtalFail at ke
  cases ke
  repeat' first
    | with_reducible exact Keeps.refl _ _
    | assumption
    | with_reducible refine xtalFail_keeps (by decide) ?_
    | with_reducible refine Keeps.ite ?_ ?_

theorem execClkXtalOk_keeps {kl : List Piece} {k0 s kt : State}
    (km : [.boot, .pkg, .clock, .lds, .life, .log] ⊆ kl) (ke : execClkXtalOk s = .next kt)
    (kh : Keeps kl k0 s) : Keeps kl k0 kt := by
  refine Keeps.step ?_ kh km
  unfold execClkXtalOk at ke
  cases ke
  repeat' first
    | with_reducible exact Keeps.refl _ _
    | assumption
    | with_reducible refine event_keeps (by decide) ?_
    | with_reducible refine Keeps.ite ?_ ?_
    | split
    | dsimp only
    | (with_reducible refine Keeps.set ?_ ?_ ?_ ?_ ?_ ?_ ?_ ?_ ?_ ?_ ?_ ?_ ?_; rotate_left 1
       · (refine Only.intro fun kp khp => ?_; cases kp <;> first | with_reducible exact rfl | exact absurd (by decide) khp)
       · with_reducible exact List.prefix_refl _
       · with_reducible exact Nat.le_refl _
       · with_reducible exact Nat.le_refl _
       · with_reducible exact Nat.le_refl _
       · with_reducible exact List.suffix_refl _
       · with_reducible exact fun x => x
       · with_reducible exact fun x => x
       · with_reducible exact fun x => x
       · with_reducible exact fun x => x
       · with_reducible exact fun x => x
       · with_reducible exact fun x => ⟨x.mode, x.bootMode, x.storeMode, x.sel, x.whole⟩)

theorem setCal_keeps {kl : List Piece} {k0 s : State} {c : BitVec 48}
    (km : [.boot, .pkg, .clock, .lds, .life, .log] ⊆ kl)
    (kh : Keeps kl k0 s) : Keeps kl k0 (setCal s c) := by
  refine Keeps.step ?_ kh km
  unfold setCal
  repeat' first
    | with_reducible exact Keeps.refl _ _
    | assumption
    | with_reducible refine event_keeps (by decide) ?_
    | (with_reducible refine Keeps.set ?_ ?_ ?_ ?_ ?_ ?_ ?_ ?_ ?_ ?_ ?_ ?_ ?_; rotate_left 1
       · (refine Only.intro fun kp khp => ?_; cases kp <;> first | with_reducible exact rfl | exact absurd (by decide) khp)
       · with_reducible exact List.prefix_refl _
       · with_reducible exact Nat.le_refl _
       · with_reducible exact Nat.le_refl _
       · with_reducible exact Nat.le_refl _
       · with_reducible exact List.suffix_refl _
       · with_reducible exact fun x => x
       · with_reducible exact fun x => x
       · with_reducible exact fun x => x
       · with_reducible exact fun x => x
       · with_reducible exact fun x => x
       · with_reducible exact fun x => ⟨x.mode, x.bootMode, x.storeMode, x.sel, x.whole⟩)

theorem calWrite_keeps {kl : List Piece} {k0 s : State} {p : Place} {w : Word32}
    (km : [.boot, .pkg, .clock, .lds, .life, .log, .regs] ⊆ kl)
    (kh : Keeps kl k0 s) : Keeps kl k0 (calWrite s p w) := by
  refine Keeps.step ?_ kh km
  unfold calWrite
  repeat' first
    | with_reducible exact Keeps.refl _ _
    | assumption
    | with_reducible refine dropHolding_keeps (by decide) ?_
    | with_reducible refine setCal_keeps (by decide) ?_

theorem execTimeCalWrite_keeps {kl : List Piece} {k0 : State} {p : Place} {w : Word32} {s kt : State}
    (km : [.boot, .pkg, .clock, .lds, .life, .log, .regs, .wire] ⊆ kl) (ke : execTimeCalWrite p w s = .next kt)
    (kh : Keeps kl k0 s) : Keeps kl k0 kt := by
  refine Keeps.step ?_ kh km
  unfold execTimeCalWrite at ke
  cases ke
  repeat' first
    | with_reducible exact Keeps.refl _ _
    | assumption
    | with_reducible refine calWrite_keeps (by decide) ?_
    | with_reducible refine dropGuard_keeps (by decide) ?_
    | with_reducible refine busError_keeps (by decide) ?_
    | with_reducible refine Keeps.ite ?_ ?_
    | split

end Sys2Proof.Machine
end

