-- ==== Sys2Proof/Laws/Life.lean ====
section
/-!
SUPPORT. What the operations of Machine/Life.lean keep.
-/
set_option linter.unusedTactic false
set_option linter.unreachableTactic false
namespace Sys2Proof.Machine

theorem ledgerSel_keeps {kl : List Piece} {k0 s : State} {w : Word32}
    (km : [.regs] ⊆ kl)
    (kh : Keeps kl k0 s) : Keeps kl k0 (ledgerSel s w) := by
  refine Keeps.step ?_ kh km
  unfold ledgerSel
  repeat' first
    | with_reducible exact Keeps.refl _ _
    | assumption
    | with_reducible refine setReg_keeps (by decide) ?_
    | with_reducible refine orReg_keeps (by decide) ?_
    | with_reducible refine clrReg_keeps (by decide) ?_
    | split
    | dsimp only

theorem onWrite_keeps {kl : List Piece} {k0 s : State} {p : Place} {a : Nat} {w : Word32}
    {f : State → Word32 → State} (km : [.lds, .regs, .wire] ⊆ kl) (kf : ∀ t v, Keeps kl k0 t → Keeps kl k0 (f t v))
    (kh : Keeps kl k0 s) : Keeps kl k0 (onWrite s p a w f) := by
  unfold onWrite
  split
  · exact Keeps.ite kh (kf _ _ (dropGuard_keeps (List.Subset.trans (by decide) km) kh))
  · exact busError_keeps (List.Subset.trans (by decide) km) kh

theorem execLedgerSelWrite_keeps {kl : List Piece} {k0 : State} {p : Place} {w : Word32} {s kt : State}
    (km : [.lds, .regs, .wire] ⊆ kl) (ke : execLedgerSelWrite p w s = .next kt)
    (kh : Keeps kl k0 s) : Keeps kl k0 kt := by
  refine Keeps.step ?_ kh km
  unfold execLedgerSelWrite at ke
  cases ke
  repeat' first
    | with_reducible exact Keeps.refl _ _
    | assumption
    | with_reducible refine onWrite_keeps (by decide) (fun _ _ _ => ?_) ?_
    | with_reducible refine ledgerSel_keeps (by decide) ?_

theorem syncWrite_keeps {kl : List Piece} {k0 s : State} {w : Word32}
    (km : [.store, .life, .regs, .wire] ⊆ kl)
    (kh : Keeps kl k0 s) : Keeps kl k0 (syncWrite s w) := by
  refine Keeps.step ?_ kh km
  unfold syncWrite
  repeat' first
    | with_reducible exact Keeps.refl _ _
    | assumption
    | with_reducible refine guardStore_keeps (by decide) ?_
    | refine Keeps.fst ‹_ = (_, _)› (guardStore_keeps (by decide) ?_)
    | with_reducible refine setReg_keeps (by decide) ?_
    | with_reducible refine ledgerWrite_keeps (by decide) ?_
    | with_reducible refine Keeps.ite ?_ ?_

theorem execLedgerSync_keeps {kl : List Piece} {k0 : State} {p : Place} {w : Word32} {s kt : State}
    (km : [.pins, .store, .lds, .fronds, .tally, .life, .regs, .wire] ⊆ kl) (ke : execLedgerSync p w s = .next kt)
    (kh : Keeps kl k0 s) : Keeps kl k0 kt := by
  refine Keeps.step ?_ kh km
  unfold execLedgerSync at ke
  cases ke
  repeat' first
    | with_reducible exact Keeps.refl _ _
    | assumption
    | with_reducible refine onGuard_keeps (by decide) (fun _ _ _ => ?_) ?_
    | with_reducible refine syncWrite_keeps (by decide) ?_

theorem execLedgerHourly_keeps {kl : List Piece} {k0 s kt : State}
    (km : [.store, .life] ⊆ kl) (ke : execLedgerHourly s = .next kt)
    (kh : Keeps kl k0 s) : Keeps kl k0 kt := by
  refine Keeps.step ?_ kh km
  unfold execLedgerHourly at ke
  cases ke
  repeat' first
    | with_reducible exact Keeps.refl _ _
    | assumption
    | with_reducible refine ledgerWrite_keeps (by decide) ?_
    | with_reducible refine Keeps.ite ?_ ?_

theorem execLifeAccumulate_keeps {kl : List Piece} {k0 s kt : State}
    (km : [.boot, .pkg, .lds, .life, .log] ⊆ kl) (ke : execLifeAccumulate s = .next kt)
    (kh : Keeps kl k0 s) : Keeps kl k0 kt := by
  refine Keeps.step ?_ kh km
  unfold execLifeAccumulate at ke
  cases ke
  repeat' first
    | with_reducible exact Keeps.refl _ _
    | assumption
    | with_reducible refine modLedger_keeps (by decide) ?_
    | with_reducible refine event_keeps (by decide) ?_
    | with_reducible refine Keeps.ite ?_ ?_

theorem execRailExcursionBegin_keeps {kl : List Piece} {k0 : State} {rail : BitVec 4} {mv : Word} {s kt : State}
    (km : [.life] ⊆ kl) (ke : execRailExcursionBegin rail mv s = .next kt)
    (kh : Keeps kl k0 s) : Keeps kl k0 kt := by
  refine Keeps.step ?_ kh km
  unfold execRailExcursionBegin at ke
  cases ke
  repeat' first
    | with_reducible exact Keeps.refl _ _
    | assumption
    | with_reducible refine Keeps.ite ?_ ?_
    | split
    | dsimp only
    | (with_reducible refine Keeps.put ?_ ?_; rotate_left 1
       · (refine Only.intro fun kp khp => ?_; cases kp <;> first | with_reducible exact rfl | exact absurd (by decide) khp))

theorem execRailExcursion_keeps {kl : List Piece} {k0 : State} {rail : BitVec 4} {extreme : Word} {durationUs : BitVec 32} {s kt : State}
    (km : [.boot, .pkg, .lds, .life, .log] ⊆ kl) (ke : execRailExcursion rail extreme durationUs s = .next kt)
    (kh : Keeps kl k0 s) : Keeps kl k0 kt := by
  refine Keeps.step ?_ kh km
  unfold execRailExcursion at ke
  cases ke
  repeat' first
    | with_reducible exact Keeps.refl _ _
    | assumption
    | with_reducible refine modLedger_keeps (by decide) ?_
    | with_reducible refine event_keeps (by decide) ?_
    | with_reducible refine Keeps.ite ?_ ?_
    | split
    | dsimp only
    | (with_reducible refine Keeps.put ?_ ?_; rotate_left 1
       · (refine Only.intro fun kp khp => ?_; cases kp <;> first | with_reducible exact rfl | exact absurd (by decide) khp))

theorem logShed_keeps {kl : List Piece} {k0 s : State} {counts : List Nat}
    (km : [.boot, .pkg, .lds, .life, .log] ⊆ kl)
    (kh : Keeps kl k0 s) : Keeps kl k0 (logShed s counts) := by
  refine Keeps.step ?_ kh km
  unfold logShed
  repeat' first
    | with_reducible exact Keeps.refl _ _
    | assumption
    | with_reducible refine event_keeps (by decide) ?_

theorem execLogSecondBoundary_keeps {kl : List Piece} {k0 s kt : State}
    (km : [.boot, .pkg, .lds, .life, .log] ⊆ kl) (ke : execLogSecondBoundary s = .next kt)
    (kh : Keeps kl k0 s) : Keeps kl k0 kt := by
  refine Keeps.step ?_ kh km
  unfold execLogSecondBoundary at ke
  cases ke
  repeat' first
    | with_reducible exact Keeps.refl _ _
    | assumption
    | with_reducible refine logShed_keeps (by decide) ?_
    | with_reducible refine Keeps.ite ?_ ?_
    | split
    | dsimp only
    | (with_reducible refine Keeps.set ?_ ?_ ?_ ?_ ?_ ?_ ?_ ?_ ?_ ?_ ?_ ?_ ?_; rotate_left 1
       · (refine Only.intro fun kp khp => ?_; cases kp <;> first | with_reducible exact rfl | exact absurd (by decide) khp)
       · with_reducible exact List.prefix_refl _
       · with_reducible exact Nat.le_refl _
       · with_reducible exact Nat.le_refl _
       · with_reducible exact Nat.le_refl _
       · with_reducible exact List.suffix_refl _
       · with_reducible exact fun x => x
       · with_reducible exact fun x => x
       · with_reducible exact fun x => x
       · with_reducible exact fun x => x
       · with_reducible exact fun x => x
       · with_reducible exact fun x => ⟨x.mode, x.bootMode, x.storeMode, x.sel, x.whole⟩)

theorem logSel_keeps {kl : List Piece} {k0 : State} {p : Place} {s : State} {w : Word32}
    (km : [.log, .regs, .wire] ⊆ kl)
    (kh : Keeps kl k0 s) : Keeps kl k0 (logSel p s w) := by
  refine Keeps.step ?_ kh km
  unfold logSel
  repeat' first
    | with_reducible exact Keeps.refl _ _
    | assumption
    | with_reducible refine writeW0_keeps (by decide) ?_
    | split
    | dsimp only
    | (with_reducible refine Keeps.set ?_ ?_ ?_ ?_ ?_ ?_ ?_ ?_ ?_ ?_ ?_ ?_ ?_; rotate_left 1
       · (refine Only.intro fun kp khp => ?_; cases kp <;> first | with_reducible exact rfl | exact absurd (by decide) khp)
       · with_reducible exact List.prefix_refl _
       · with_reducible exact Nat.le_refl _
       · with_reducible exact Nat.le_refl _
       · with_reducible exact Nat.le_refl _
       · with_reducible exact List.suffix_refl _
       · with_reducible exact fun x => x
       · with_reducible exact fun x => x
       · with_reducible exact fun x => x
       · with_reducible exact fun x => x
       · with_reducible exact fun x => x
       · with_reducible exact fun x => ⟨x.mode, x.bootMode, x.storeMode, x.sel, x.whole⟩)

theorem execLogSelWrite_keeps {kl : List Piece} {k0 : State} {p : Place} {w : Word32} {s kt : State}
    (km : [.lds, .log, .regs, .wire] ⊆ kl) (ke : execLogSelWrite p w s = .next kt)
    (kh : Keeps kl k0 s) : Keeps kl k0 kt := by
  refine Keeps.step ?_ kh km
  unfold execLogSelWrite at ke
  cases ke
  repeat' first
    | with_reducible exact Keeps.refl _ _
    | assumption
    | with_reducible refine onWrite_keeps (by decide) (fun _ _ _ => ?_) ?_
    | with_reducible refine logSel_keeps (by decide) ?_

theorem execLogRecordLoaded_keeps {kl : List Piece} {k0 s kt : State}
    (km : [.log, .regs] ⊆ kl) (ke : execLogRecordLoaded s = .next kt)
    (kh : Keeps kl k0 s) : Keeps kl k0 kt := by
  refine Keeps.step ?_ kh km
  unfold execLogRecordLoaded at ke
  cases ke
  repeat' first
    | with_reducible exact Keeps.refl _ _
    | assumption
    | with_reducible refine orReg_keeps (by decide) ?_
    | split
    | dsimp only
    | (with_reducible refine Keeps.set ?_ ?_ ?_ ?_ ?_ ?_ ?_ ?_ ?_ ?_ ?_ ?_ ?_; rotate_left 1
       · (refine Only.intro fun kp khp => ?_; cases kp <;> first | with_reducible exact rfl | exact absurd (by decide) khp)
       · with_reducible exact List.prefix_refl _
       · with_reducible exact Nat.le_refl _
       · with_reducible exact Nat.le_refl _
       · with_reducible exact Nat.le_refl _
       · with_reducible exact List.suffix_refl _
       · with_reducible exact fun x => x
       · with_reducible exact fun x => x
       · with_reducible exact fun x => x
       · with_reducible exact fun x => x
       · with_reducible exact fun x => x
       · with_reducible exact fun x => ⟨x.mode, x.bootMode, x.storeMode, x.sel, x.whole⟩)

theorem wearCheck_keeps {kl : List Piece} {k0 s : State} {keys : List Nat}
    (km : [.boot, .pkg, .lds, .life, .log] ⊆ kl)
    (kh : Keeps kl k0 s) : Keeps kl k0 (wearCheck s keys) := by
  refine Keeps.step ?_ kh km
  unfold wearCheck
  repeat' first
    | with_reducible exact Keeps.refl _ _
    | assumption
    | with_reducible refine event_keeps (by decide) ?_
    | with_reducible refine Keeps.getD ?_ (fun _ _ => ?_)
    | with_reducible refine Keeps.foldl ?_ (fun _ _ => ?_)
    | with_reducible refine Keeps.foldl1 ?_ (fun _ _ => ?_)
    | split
    | dsimp only
    | (with_reducible refine Keeps.put ?_ ?_; rotate_left 1
       · (refine Only.intro fun kp khp => ?_; cases kp <;> first | with_reducible exact rfl | exact absurd (by decide) khp))

theorem execMramSectorRefresh_keeps {kl : List Piece} {k0 : State} {hub : BitVec 1} {sector : BitVec 11} {s kt : State}
    (km : [.boot, .pkg, .lds, .life, .log] ⊆ kl) (ke : execMramSectorRefresh hub sector s = .next kt)
    (kh : Keeps kl k0 s) : Keeps kl k0 kt := by
  refine Keeps.step ?_ kh km
  unfold execMramSectorRefresh at ke
  cases ke
  repeat' first
    | with_reducible exact Keeps.refl _ _
    | assumption
    | with_reducible refine modLedger_keeps (by decide) ?_
    | with_reducible refine wearCheck_keeps (by decide) ?_
    | with_reducible refine Keeps.ite ?_ ?_
    | with_reducible refine Keeps.getD ?_ (fun _ _ => ?_)
    | split
    | dsimp only
    | (with_reducible refine Keeps.put ?_ ?_; rotate_left 1
       · (refine Only.intro fun kp khp => ?_; cases kp <;> first | with_reducible exact rfl | exact absurd (by decide) khp))

theorem clearCircular_keeps {kl : List Piece} {k0 s : State}
    (km : [.life, .log] ⊆ kl)
    (kh : Keeps kl k0 s) : Keeps kl k0 (clearCircular s) := by
  refine Keeps.step ?_ kh km
  unfold clearCircular
  repeat' first
    | with_reducible exact Keeps.refl _ _
    | assumption
    | with_reducible refine mramWrite_keeps (by decide) ?_
    | with_reducible refine Keeps.foldl ?_ (fun _ _ => ?_)
    | with_reducible refine Keeps.foldl1 ?_ (fun _ _ => ?_)
    | (with_reducible refine Keeps.set ?_ ?_ ?_ ?_ ?_ ?_ ?_ ?_ ?_ ?_ ?_ ?_ ?_; rotate_left 1
       · (refine Only.intro fun kp khp => ?_; cases kp <;> first | with_reducible exact rfl | exact absurd (by decide) khp)
       · with_reducible exact List.prefix_refl _
       · with_reducible exact Nat.le_refl _
       · with_reducible exact Nat.le_refl _
       · with_reducible exact Nat.le_refl _
       · with_reducible exact List.suffix_refl _
       · with_reducible exact fun x => x
       · with_reducible exact fun x => x
       · first | with_reducible exact fun x => x | exact fun _ => Nat.zero_le _
       · with_reducible exact fun x => x
       · with_reducible exact fun x => x
       · with_reducible exact fun x => ⟨x.mode, x.bootMode, x.storeMode, x.sel, x.whole⟩)

theorem eraseWrite_keeps {kl : List Piece} {k0 : State} {hub : Nat} {s : State} {w : Word32}
    (km : [.boot, .store, .pkg, .lds, .life, .log, .regs, .wire] ⊆ kl)
    (kh : Keeps kl k0 s) : Keeps kl k0 (eraseWrite hub s w) := by
  refine Keeps.step ?_ kh km
  unfold eraseWrite
  repeat' first
    | with_reducible exact Keeps.refl _ _
    | assumption
    | with_reducible refine guardStore_keeps (by decide) ?_
    | refine Keeps.fst ‹_ = (_, _)› (guardStore_keeps (by decide) ?_)
    | with_reducible refine setReg_keeps (by decide) ?_
    | with_reducible refine storeWrite_keeps (by decide) ?_
    | with_reducible refine event_keeps (by decide) ?_
    | with_reducible refine clearCircular_keeps (by decide) ?_
    | with_reducible refine orReg_keeps (by decide) ?_
    | with_reducible refine Keeps.ite ?_ ?_
    | split
    | dsimp only
    | (with_reducible refine Keeps.set ?_ ?_ ?_ ?_ ?_ ?_ ?_ ?_ ?_ ?_ ?_ ?_ ?_; rotate_left 1
       · (refine Only.intro fun kp khp => ?_; cases kp <;> first | with_reducible exact rfl | exact absurd (by decide) khp)
       · with_reducible exact List.prefix_refl _
       · with_reducible exact Nat.le_refl _
       · with_reducible exact Nat.le_refl _
       · with_reducible exact Nat.le_refl _
       · with_reducible exact List.suffix_refl _
       · with_reducible exact fun x => x
       · with_reducible exact fun x => x
       · with_reducible exact fun x => x
       · with_reducible exact fun x => x
       · with_reducible exact fun x => x
       · with_reducible exact fun x => ⟨x.mode, x.bootMode, x.storeMode, x.sel, x.whole⟩)

theorem execMramEraseConfig_keeps {kl : List Piece} {k0 : State} {p : Place} {hub : BitVec 1} {w : Word32} {s kt : State}
    (km : [.pins, .boot, .store, .pkg, .lds, .fronds, .tally, .life, .log, .regs, .wire] ⊆ kl) (ke : execMramEraseConfig p hub w s = .next kt)
    (kh : Keeps kl k0 s) : Keeps kl k0 kt := by
  refine Keeps.step ?_ kh km
  unfold execMramEraseConfig at ke
  cases ke
  repeat' first
    | with_reducible exact Keeps.refl _ _
    | assumption
    | with_reducible refine onGuard_keeps (by decide) (fun _ _ _ => ?_) ?_
    | with_reducible refine eraseWrite_keeps (by decide) ?_

theorem execMramEraseLog_keeps {kl : List Piece} {k0 : State} {p : Place} {hub : BitVec 1} {w : Word32} {s kt : State}
    (km : [.pins, .boot, .store, .pkg, .lds, .fronds, .tally, .life, .log, .regs, .wire] ⊆ kl) (ke : execMramEraseLog p hub w s = .next kt)
    (kh : Keeps kl k0 s) : Keeps kl k0 kt := by
  refine Keeps.step ?_ kh km
  unfold execMramEraseLog at ke
  cases ke
  repeat' first
    | with_reducible exact Keeps.refl _ _
    | assumption
    | with_reducible refine onGuard_keeps (by decide) (fun _ _ _ => ?_) ?_
    | with_reducible refine eraseWrite_keeps (by decide) ?_

theorem harvestOfs_keeps {kl : List Piece} {k0 : State} {p : Place} {s : State} {w : Word32}
    (km : [.regs, .wire] ⊆ kl)
    (kh : Keeps kl k0 s) : Keeps kl k0 (harvestOfs p s w) := by
  refine Keeps.step ?_ kh km
  unfold harvestOfs
  repeat' first
    | with_reducible exact Keeps.refl _ _
    | assumption
    | with_reducible refine writeW0_keeps (by decide) ?_
    | with_reducible refine setReg_keeps (by decide) ?_
    | with_reducible refine Keeps.ite ?_ ?_
    | with_reducible refine Keeps.foldl ?_ (fun _ _ => ?_)
    | with_reducible refine Keeps.foldl1 ?_ (fun _ _ => ?_)
    | split

theorem execHarvestOfsWrite_keeps {kl : List Piece} {k0 : State} {p : Place} {w : Word32} {s kt : State}
    (km : [.lds, .regs, .wire] ⊆ kl) (ke : execHarvestOfsWrite p w s = .next kt)
    (kh : Keeps kl k0 s) : Keeps kl k0 kt := by
  refine Keeps.step ?_ kh km
  unfold execHarvestOfsWrite at ke
  cases ke
  repeat' first
    | with_reducible exact Keeps.refl _ _
    | assumption
    | with_reducible refine onWrite_keeps (by decide) (fun _ _ _ => ?_) ?_
    | with_reducible refine harvestOfs_keeps (by decide) ?_

end Sys2Proof.Machine
end

