-- ==== Sys2Proof/Laws/Reads.lean ====
section
/-!
SUPPORT. What the device reads of memory: operations that leave every byte as it was, and what a write leaves.
-/
namespace Sys2Proof.Machine

/-- No line is stale: what it was last written under, where that is recorded, is the key its slot now holds (R225). -/
def Fresh (s : State) : Prop :=
  ∀ line h k k1, h < 2 → keyOf s (64 * line) = some k → mget s.mem.encBy (hkey line h) = some k1 → k1 = k

/-- Homes and keys stand, and where no line was stale none is, and every byte is as before. -/
structure Views (s t : State) : Prop where
  hub : ∀ line, devHub t line = devHub s line
  homes : ∀ line, Machine.homes t line = Machine.homes s line
  key : ∀ a, keyOf t a = keyOf s a
  fresh : Fresh s → Fresh t
  bytes : Fresh s → t.mem.bytes = s.mem.bytes

theorem Views.refl (s : State) : Views s s := ⟨fun _ => rfl, fun _ => rfl, fun _ => rfl, id, fun _ => rfl⟩

theorem Views.trans {s t u : State} (h : Views s t) (k : Views t u) : Views s u :=
  ⟨fun l => (k.hub l).trans (h.hub l), fun l => (k.homes l).trans (h.homes l), fun a => (k.key a).trans (h.key a),
    fun f => k.fresh (h.fresh f), fun f => (k.bytes (h.fresh f)).trans (h.bytes f)⟩

theorem Views.ite {s t u : State} {c : Prop} [Decidable c] (h : Views s t) (k : Views s u) : Views s (if c then t else u) := by
  split <;> assumption

theorem Views.foldl {α : Type} {s t : State} {f : State → α → State} {xs : List α} (h : Views s t)
    (hf : ∀ u, ∀ x ∈ xs, Views u (f u x)) : Views s (xs.foldl f t) := by
  induction xs generalizing t with
  | nil => exact h
  | cons x xs ih => exact ih (h.trans (hf t x List.mem_cons_self)) fun u y hy => hf u y (List.mem_cons_of_mem _ hy)

/-- An operation outside memory, keys, extents, mode and halves. -/
theorem Views.of {s t : State} (hb : t.mem.bytes = s.mem.bytes) (he : t.mem.encBy = s.mem.encBy)
    (hk : t.keys = s.keys) (hx : t.extents = s.extents) (hc : t.chip = s.chip) (hm : t.pkg.mode = s.pkg.mode)
    (hr : t.pkg.primaryB = s.pkg.primaryB) (hh : t.pkg.half = s.pkg.half) (hy : t.pkg.resync = s.pkg.resync) : Views s t := by
  have hky : ∀ a, keyOf t a = keyOf s a := fun a => by simp only [keyOf, extentAt, hk, hx]
  have hhome : ∀ h l, homeHub t h l = homeHub s h l := fun h l => by simp only [homeHub, inPair, hc, hm]; rfl
  refine ⟨fun l => ?_, fun l => ?_, hky, fun f l h k k1 h2 e1 e2 => f l h k k1 h2 (by rw [← hky]; exact e1) (by rw [← he]; exact e2),
    fun _ => hb⟩
  · simp only [devHub, primary, hr, hhome]
  · have hmi : mirrored t = mirrored s := by funext h; simp only [mirrored, serving, hh, hy]
    simp only [Machine.homes, inPair, hm, hmi, hhome]
    rfl

/-- An operation outside memory, keys, extents and the mode. -/
theorem Views.of_keeps {l : List Piece} {s t : State} (k : Keeps l s t)
    (h : Piece.mem ∉ l ∧ Piece.keys ∉ l ∧ Piece.extents ∉ l ∧ Piece.pkg ∉ l) : Views s t := by
  have hm := k.only _ h.1
  have hp := k.only _ h.2.2.2
  exact Views.of (congrArg _ hm) (congrArg _ hm) (k.only _ h.2.1) (k.only _ h.2.2.1) k.grows.chip (congrArg _ hp)
    (congrArg _ hp) (congrArg _ hp) (congrArg _ hp)

/-- An event leaves every read. -/
theorem raiseAt_views (s : State) (tb code sev die seat extra count : Nat) (items : List (Nat × Nat)) (dst : Recip) :
    Views s (raiseAt s tb code sev die seat extra count items dst) := by
  have k (r : EvRec) : Views s (deliver (logRecord s r) sev r dst) :=
    Views.of_keeps (deliver_keeps (kl := [.boot, .lds, .life, .log]) (by decide) (logRecord_keeps (by decide) (Keeps.refl _ _)))
      (by decide)
  unfold raiseAt
  extract_lets r u
  split
  · exact (k r).trans (Views.of rfl rfl rfl rfl rfl rfl rfl rfl rfl)
  · exact k r

theorem raiseFull_views (s : State) (code sev die seat extra count : Nat) (items : List (Nat × Nat)) (dst : Recip) :
    Views s (raiseFull s code sev die seat extra count items dst) := raiseAt_views ..

theorem event_views (s : State) (code sev die seat : Nat) (items : List (Nat × Nat)) (dst : Recip) :
    Views s (event s code sev die seat items dst) := raiseFull_views s code sev die seat 0 0 items dst

/-- A change of memory outside bytes and the keys written under. -/
theorem modMem_views {s : State} {f : Mem → Mem} (hb : (f s.mem).bytes = s.mem.bytes) (he : (f s.mem).encBy = s.mem.encBy) :
    Views s (modMem s f) := Views.of hb he rfl rfl rfl rfl rfl rfl rfl

theorem modCoh_views (s : State) (f : Coh → Coh) : Views s (modCoh s f) := Views.of rfl rfl rfl rfl rfl rfl rfl rfl rfl
theorem modLedger_views (s : State) (f : Ledger → Ledger) : Views s (modLedger s f) :=
  Views.of rfl rfl rfl rfl rfl rfl rfl rfl rfl
theorem setPoison_views (s : State) (line hub : Nat) : Views s (setPoison s line hub) := modMem_views rfl rfl
theorem setPage_views (s : State) (page hub : Nat) (p : Page) : Views s (setPage s page hub p) := modMem_views rfl rfl
theorem countAccess_views (s : State) (page hub : Nat) (read : Bool) : Views s (countAccess s page hub read) :=
  setPage_views s page hub _
theorem clearPoison_views (s : State) (line : Nat) : Views s (clearPoison s line) :=
  Views.foldl (Views.refl s) fun _ _ _ => modMem_views rfl rfl

/-! Keys -/

theorem mget_foldl_mput {α : Type} {l : List Nat} {g : Nat → Nat} {k : α} {m : SMap α} {x : Nat} :
    mget (l.foldl (fun e h => mput e (g h) k) m) x = if x ∈ l.map g then some k else mget m x := by
  induction l generalizing m with
  | nil => rfl
  | cons a l ih =>
    simp only [List.foldl_cons, ih, mget_mput, List.map_cons, List.mem_cons]
    by_cases h1 : x ∈ l.map g
    · simp [h1]
    · by_cases h2 : x = g a <;> simp [h1, h2]

theorem hkey_inj {a b h g : Nat} (hh : h < 2) (hg : g < 2) (e : hkey a h = hkey b g) : a = b ∧ h = g := by
  unfold hkey at e
  omega

theorem devHub_lt (s : State) (line : Nat) : devHub s line < 2 := by
  unfold devHub homeHub primary
  repeat' split
  all_goals omega

theorem homes_lt {s : State} {line h : Nat} (hh : h ∈ homes s line) : h < 2 := by
  unfold homes at hh
  split at hh
  · have := List.mem_of_mem_filter hh
    simp at this
    omega
  · simp at hh
    subst hh
    unfold homeHub
    repeat' split
    all_goals omega

theorem keyOf_page (s : State) (l : Nat) : keyOf s (64 * l) = keyOf s (pageOfLine l * 4096) := by
  unfold keyOf extentAt pageOfLine
  rw [show 64 * l / 2 ^ 28 = l / 64 * 4096 / 2 ^ 28 by omega]

/-- Lines recorded under the key their slot holds stay fresh. -/
theorem encBy_views {s : State} {F : SMap (BitVec 512) → SMap (BitVec 512)}
    (he : ∀ line h k1, h < 2 → mget (F s.mem.encBy) (hkey line h) = some k1 →
      mget s.mem.encBy (hkey line h) = some k1 ∨ keyOf s (64 * line) = some k1) :
    Views s (modMem s fun m => { m with encBy := F m.encBy }) := by
  refine ⟨fun _ => rfl, fun _ => rfl, fun _ => rfl, fun f line h k k1 h2 e1 e2 => ?_, fun _ => rfl⟩
  rcases he line h k1 h2 e2 with e | e
  · exact f line h k k1 h2 e1 e
  · exact Option.some.inj (e.symm.trans e1)

/-- A line recorded under its own key. -/
theorem markOne_views {s : State} {line hub : Nat} {k : BitVec 512} (hub2 : hub < 2) (hk : keyOf s (64 * line) = some k) :
    Views s (modMem s fun m => { m with encBy := mput m.encBy (hkey line hub) k }) := by
  refine encBy_views (F := fun m => mput m (hkey line hub) k) fun l h k1 h2 e => ?_
  rw [mget_mput] at e
  split at e
  · next q => rw [(hkey_inj h2 hub2 q).1, hk]; exact .inr e
  · exact .inl e

/-- Nothing is written anew where no line is stale. -/
theorem rekeyLine_fresh {s : State} {line hub : Nat} (hub2 : hub < 2) (f : Fresh s) : rekeyLine s line hub = s := by
  unfold rekeyLine
  split
  · next k k1 hk h1 => rw [if_pos (f line hub k k1 hub2 hk h1)]
  · rfl

/-- An operation that does nothing where no line is stale, and stands outside homes and keys in any case. -/
theorem Views.of_fresh {s t : State} (hub : ∀ line, devHub t line = devHub s line)
    (homes : ∀ line, Machine.homes t line = Machine.homes s line) (key : ∀ a, keyOf t a = keyOf s a) (f : Fresh s → t = s) :
    Views s t := ⟨hub, homes, key, fun g => by rw [f g]; exact g, fun g => by rw [f g]⟩

theorem rekeyLine_views {s : State} {line hub : Nat} (hub2 : hub < 2) : Views s (rekeyLine s line hub) := by
  refine Views.of_fresh (fun _ => ?_) (fun _ => ?_) (fun _ => ?_) (rekeyLine_fresh hub2) <;> (unfold rekeyLine; split) <;>
    first | rfl | (split <;> rfl)

theorem rewriteKeys_views {s : State} {page hub : Nat} (hub2 : hub < 2) : Views s (rewriteKeys s page hub) :=
  Views.foldl (Views.refl s) fun _ _ _ => rekeyLine_views hub2

/-- A page becomes PLAIN: every byte as before. -/
theorem makePlain_views {s : State} {page hub : Nat} (hub2 : hub < 2) : Views s (makePlain s page hub) := by
  unfold makePlain
  extract_lets p s1
  suffices v : Views s s1 from v.trans (setPage_views _ _ _ _)
  unfold s1
  split
  · next k hk hz =>
    refine encBy_views (F := fun m => (List.range 64).foldl (fun e i => mput e (hkey (64 * page + i) hub) k) m)
      fun l h k1 h2 e => ?_
    rw [mget_foldl_mput (g := fun i => hkey (64 * page + i) hub)] at e
    split at e
    · next hm =>
      obtain ⟨i, hi, q⟩ := List.mem_map.1 hm
      have hi := List.mem_range.1 hi
      obtain ⟨rfl, _⟩ := hkey_inj hub2 h2 q
      rw [keyOf_page, show pageOfLine (64 * page + i) = page by unfold pageOfLine; omega, hk]
      exact .inr e
    · exact .inl e
  · exact rewriteKeys_views hub2
  · exact Views.refl _

theorem pageWrite_views {s : State} {line hub : Nat} {zeros : Bool} (hub2 : hub < 2) : Views s (pageWrite s line hub zeros) := by
  unfold pageWrite
  extract_lets page p
  split
  · exact Views.ite (Views.refl _) (makePlain_views hub2)
  · exact Views.ite (setPage_views _ _ _ _) (Views.refl _)
  · exact makePlain_views hub2

theorem markKey_views {s : State} {line hub : Nat} (hub2 : hub < 2) : Views s (markKey s line hub) := by
  unfold markKey
  split
  · next k hk =>
    have v := rekeyLine_views (s := s) (line := line) hub2
    exact v.trans (markOne_views hub2 (by rw [v.key, Nat.mul_comm]; exact hk))
  · exact Views.refl _

theorem writeDamage_views (s : State) (line hub : Nat) : Views s (writeDamage s line hub) := by
  unfold writeDamage
  split
  · exact modMem_views rfl rfl
  · exact Views.refl _

theorem mediaWrite_views {s : State} {line hub : Nat} (hub2 : hub < 2) : Views s (mediaWrite s line hub) := by
  unfold mediaWrite
  extract_lets u
  have v : Views s u := writeDamage_views s line hub
  split
  · next k hk => exact v.trans (markOne_views hub2 hk)
  · exact v

/-! Copies and buffers -/

theorem checkCopy_views (s : State) (line hub a : Nat) (dirty : Bool) : Views s (checkCopy s line hub a dirty) := by
  unfold checkCopy
  extract_lets k
  split
  · exact Views.refl _
  · exact Views.ite ((modCoh_views _ _).trans ((setPoison_views _ _ _).trans (raiseFull_views ..))) (modCoh_views _ _)

theorem cleanHome_views {s : State} {line hub : Nat} (hub2 : hub < 2) : Views s (cleanHome s line hub) := by
  unfold cleanHome
  extract_lets k s1 s2
  have v : Views s s1 := checkCopy_views s line hub hub true
  exact (v.trans (Views.ite (modCoh_views _ _) (mediaWrite_views hub2))).trans (modCoh_views _ _)

theorem hubRoom_views {s : State} {hub : Nat} (hub2 : hub < 2) : Views s (hubRoom s hub) := by
  unfold hubRoom
  split
  · exact Views.refl _
  · split
    · exact cleanHome_views hub2
    · exact Views.refl _

theorem toWb_views {s : State} {line hub : Nat} (hub2 : hub < 2) : Views s (toWb s line hub) :=
  (hubRoom_views hub2).trans (by unfold toWb queueWb; exact modCoh_views _ _)

theorem cleanCopy_views (s : State) (k : Nat) : Views s (cleanCopy s k) := by
  unfold cleanCopy
  extract_lets line hub a u
  have h2 : hub < 2 := Nat.mod_lt _ (by decide)
  split
  · exact cleanHome_views h2
  · exact ((checkCopy_views s line hub a true).trans (toWb_views h2)).trans
      (Views.of_keeps (setDir_keeps (kl := [.coh]) (by decide) (setCopy_keeps (by decide) (Keeps.refl _ _))) (by decide))

theorem dirtied_views (s : State) (k : Nat) : Views s (dirtied s k) := by
  unfold dirtied
  refine Views.trans ?_ (modCoh_views _ _)
  unfold twinRoom
  split
  · exact Views.refl _
  · split
    · next h => exact hubRoom_views h
    · split
      · exact cleanCopy_views _ _
      · exact Views.refl _

theorem bufDrop_views {s : State} {line hub : Nat} (hub2 : hub < 2) : Views s (bufDrop s line hub) := by
  unfold bufDrop
  extract_lets k
  split
  · exact Views.refl _
  · exact Views.trans ((checkCopy_views _ _ _ _ _).trans (modCoh_views _ _)) (Views.ite (toWb_views hub2) (Views.refl _))

theorem bufPut_views {s : State} {line hub : Nat} {dirty : Bool} (hub2 : hub < 2) : Views s (bufPut s line hub dirty) := by
  unfold bufPut
  extract_lets k mine u d v
  have hu : Views s u := by
    unfold u
    refine Views.ite (Views.refl _) ?_
    split
    · exact bufDrop_views hub2
    · exact bufDrop_views hub2
    · exact Views.refl _
  exact Views.ite ((hu.trans (modCoh_views _ _)).trans (dirtied_views _ _)) (hu.trans (modCoh_views _ _))

theorem dropEnginePage_views (s : State) (page hub : Nat) : Views s (dropEnginePage s page hub) :=
  Views.of_keeps (dropEnginePage_keeps (kl := [.coh]) (by decide) (Keeps.refl _ _)) (by decide)

/-! Errors met -/

theorem dramCe_views (s : State) (hub line : Nat) (coord : BitVec 48) (injected : Bool) :
    Views s (dramCe s hub line coord injected) := by
  unfold dramCe dramCeAt
  extract_lets k u
  have v : Views s u := Views.ite (Views.refl _) (modLedger_views _ _)
  exact Views.ite ((v.trans (modMem_views rfl rfl)).trans (raiseFull_views ..)) (v.trans (modMem_views rfl rfl))

theorem poisonMedia_views {s : State} {line hub : Nat} (hub2 : hub < 2) : Views s (poisonMedia s line hub) := by
  unfold poisonMedia
  split
  · exact ((Views.foldl (Views.refl s) fun _ _ _ => setPoison_views _ _ _).trans (makePlain_views hub2)).trans
      (dropEnginePage_views _ _ _)
  · exact setPoison_views _ _ _

theorem dramUe_views {s : State} {hub line : Nat} {coord : BitVec 48} {injected : Bool} (hub2 : hub < 2) :
    Views s (dramUe s hub line coord injected) := by
  unfold dramUe
  exact Views.ite (raiseFull_views ..) (Views.ite (Views.refl _) ((raiseFull_views ..).trans (poisonMedia_views hub2)))

theorem dramRead_views {s : State} {line hub : Nat} {ecc : Ecc} {coord : BitVec 48} (hub2 : hub < 2) :
    Views s (dramRead s line hub ecc coord) := by
  unfold dramRead
  extract_lets inj lost u
  have v : Views s u := Views.ite (Views.refl _) (by unfold rewriteMedia; exact modMem_views rfl rfl)
  exact Views.ite (v.trans (poisonMedia_views hub2)) (Views.ite (v.trans (dramUe_views hub2))
    (Views.ite (v.trans (dramCe_views _ _ _ _ _)) v))

theorem discardImage_views {s : State} {page hub : Nat} (hub2 : hub < 2) : Views s (discardImage s page hub) := by
  unfold discardImage
  extract_lets p packed s1 s2
  have v1 : Views s s1 := Views.ite (setPage_views _ _ _ _) (Views.refl _)
  have v2 : Views s s2 := Views.ite (v1.trans (dramRead_views hub2)) v1
  exact Views.ite (v2.trans (dropEnginePage_views _ _ _)) v2

/-- The agents' copies of a line go before a write of it. -/
theorem homeInv_views (s : State) (line hub : Nat) : Views s (homeInv s line hub) := by
  have inv (u : State) (l : List Nat) : Views u (sendInv u line l) :=
    Views.foldl (Views.refl u) fun _ _ _ => Views.of rfl rfl rfl rfl rfl rfl rfl rfl rfl
  unfold homeInv
  extract_lets u
  have v : Views s u := Views.ite ((inv _ _).trans (raiseFull_views ..)) (Views.refl _)
  exact (v.trans (inv _ _)).trans (modCoh_views _ _)

theorem capCheck_views (s : State) : Views s (capCheck s) := by
  unfold capCheck
  refine Views.trans (t := capEvents s) ?_ ?_
  · unfold capEvents
    extract_lets f low crit s1 s2
    have h1 : Views s s1 := Views.ite (event_views ..) (Views.refl _)
    have h2 : Views s s2 := h1.trans (Views.ite (event_views ..) (Views.refl _))
    exact h2.trans (modMem_views rfl rfl)
  · generalize capEvents s = s
    have cov (u : State) (c : SMap Cov) : Views u { u with covs := c } := Views.of rfl rfl rfl rfl rfl rfl rfl rfl rfl
    have full (u : State) (i g : Nat) : Views u (covFull u i g) := cov u _
    have short (u : State) (i g f r : Nat) : Views u (covShort u i g f r) := by
      unfold covShort
      split
      · exact Views.refl _
      · exact Views.ite (cov u _) ((cov u _).trans (event_views ..))
    have ends (u : State) (i x : Nat) : Views u (covEnd u i x) := by
      unfold covEnd
      split
      · exact Views.ite ((cov u _).trans (raiseAt_views ..)) (Views.refl _)
      · exact Views.refl _
    unfold capResolve
    refine Views.foldl (Views.foldl (Views.refl s) fun u x _ => Views.ite (ends _ _ _) (Views.refl _)) fun u n _ => ?_
    extract_lets w f
    have hw : Views u w := Views.ite (Views.refl _) (cov u _)
    exact Views.ite (hw.trans (short _ _ _ _ _)) (hw.trans (full _ _ _))

/-! Bytes -/

/-- The low n bytes of a number, read back from where they were stored. -/
theorem readNat_of {s : State} {a v n : Nat} (h : ∀ i < n, readMem s.mem.bytes (a + i) = BitVec.ofNat 8 (v / 256 ^ i)) :
    readNat s a n = v % 256 ^ n := by
  induction n generalizing a v with
  | zero => simp [readNat, Nat.mod_one]
  | succ n ih =>
    simp only [readNat]
    rw [ih (v := v / 256) (fun i hi => by
      rw [show a + 1 + i = a + (i + 1) by omega, h _ (by omega), Nat.pow_succ', Nat.div_div_eq_div_mul])]
    rw [show readMem s.mem.bytes a = BitVec.ofNat 8 v by simpa using h 0 (by omega)]
    rw [BitVec.toNat_ofNat, show (256 : Nat) ^ (n + 1) = 256 * 256 ^ n from Nat.pow_succ', Nat.mod_mul]

/-- One byte of memory, as the device reads it. -/
theorem devRead_one (s : State) (k : Nat) :
    devRead s k 1 = (lineAt s (k / 64) (devHub s (k / 64))).toNat / 256 ^ (k % 64) % 256 := by
  unfold devRead
  simp only [if_neg (by decide : ¬ (1 : Nat) = 0), Nat.pow_one]
  rw [show (k + 1 + 63) / 64 - k / 64 = 1 by omega]
  simp only [List.range_one, List.foldl_cons, List.foldl_nil, Nat.add_zero, Nat.mul_zero, Nat.pow_zero, Nat.mul_one, Nat.zero_add]
  rw [show k - 64 * (k / 64) = k % 64 by omega]

theorem readNat_byte {s : State} {a n i : Nat} (hi : i < n) :
    readNat s a n / 256 ^ i % 256 = (readMem s.mem.bytes (a + i)).toNat := by
  induction n generalizing a i with
  | zero => omega
  | succ n ih =>
    simp only [readNat]
    have := (readMem s.mem.bytes a).isLt
    cases i with
    | zero => simp; omega
    | succ i =>
      rw [Nat.pow_succ', ← Nat.div_div_eq_div_mul, show ((readMem s.mem.bytes a).toNat + 256 * readNat s (a + 1) n) / 256 =
        readNat s (a + 1) n by omega, ih (by omega), show a + 1 + i = a + (i + 1) by omega]

theorem readNat_lt (s : State) (a n : Nat) : readNat s a n < 256 ^ n := by
  induction n generalizing a with
  | zero => simp [readNat]
  | succ n ih =>
    simp only [readNat]
    have := (readMem s.mem.bytes a).isLt
    have := ih (a + 1)
    rw [Nat.pow_succ']
    omega

/-- Where no line is stale, a byte reads as it is stored. -/
theorem devRead_stored {s : State} (f : Fresh s) (k : Nat) : devRead s k 1 = (readMem s.mem.bytes k).toNat := by
  have h : readNat s (64 * (k / 64)) 64 < 2 ^ 512 := lt_of_lt_of_eq (readNat_lt _ _ _) (Nat.pow_mul 2 8 64).symm
  have e : lineAt s (k / 64) (devHub s (k / 64)) = BitVec.ofNat 512 (readNat s (64 * (k / 64)) 64) := by
    unfold lineAt
    extract_lets v p
    split
    · next k2 k1 hk h1 => rw [if_pos (by simp [f _ _ _ _ (devHub_lt s _) hk h1])]
    · rfl
  rw [devRead_one, e, BitVec.toNat_ofNat, Nat.mod_eq_of_lt h, readNat_byte (Nat.mod_lt _ (by decide)),
    show 64 * (k / 64) + k % 64 = k by omega]

theorem Views.devRead {s t : State} (v : Views s t) (f : Fresh s) (k : Nat) : Machine.devRead t k 1 = Machine.devRead s k 1 := by
  rw [devRead_stored f, devRead_stored (v.fresh f), v.bytes f]

theorem Views.wf {s t : State} (v : Views s t) (f : Fresh s) (w : Memory.wf s.mem.bytes = true) : Memory.wf t.mem.bytes = true := by
  rw [v.bytes f]; exact w

/-- What a store into a line leaves: its enabled bytes as written, every other byte as before, and no line stale. -/
theorem storeBytes_reads {s : State} (line v be : Nat) (f : Fresh s) (w : Memory.wf s.mem.bytes = true) :
    Fresh (storeBytes s line v be) ∧ ∀ k, devRead (storeBytes s line v be) k 1 =
      if k / 64 = line ∧ be.testBit (k % 64) then v / 256 ^ (k % 64) % 256 else devRead s k 1 := by
  unfold storeBytes
  extract_lets full zeros s1 s2
  have v1 : Views s s1 := Views.foldl (Views.refl s) fun u h hh =>
    (pageWrite_views (homes_lt hh)).trans (markKey_views (homes_lt hh))
  have f1 := v1.fresh f
  have f2 : Fresh ({ s2 with coh := { s2.coh with spec := mdel s2.coh.spec line } } : State) := f1
  refine ⟨f2, fun k => ?_⟩
  rw [devRead_stored f2, ← v1.devRead f k, devRead_stored f1]
  by_cases hl : k / 64 = line
  · subst hl
    have := readMem_writeLineMem_at (a := 64 * (k / 64)) (v := v) (be := be) (n := 64) (i := k % 64) (v1.wf f w)
      (Nat.mod_lt _ (by decide))
    rw [show 64 * (k / 64) + k % 64 = k by omega] at this
    refine (congrArg BitVec.toNat this).trans ?_
    by_cases hb : be.testBit (k % 64) = true
    · rw [if_pos hb, if_pos ⟨rfl, hb⟩, BitVec.toNat_ofNat]
    · rw [if_neg hb, if_neg fun h => hb h.2]
  · rw [if_neg fun h => hl h.1]
    exact congrArg BitVec.toNat (readMem_writeLineMem (v1.wf f w) (by omega))

/-- A write the home makes into its own line buffer: the line's enabled bytes as written, every other byte as before. -/
theorem homeStore_reads {s : State} (line v be : Nat) (f : Fresh s) (w : Memory.wf s.mem.bytes = true) :
    Fresh (homeStore s line v be) ∧ ∀ k, devRead (homeStore s line v be) k 1 =
      if k / 64 = line ∧ be.testBit (k % 64) then v / 256 ^ (k % 64) % 256 else devRead s k 1 := by
  unfold homeStore storeLine
  extract_lets s1
  have v1 : Views s s1 := Views.foldl (Views.refl s) fun u h hh => by
    have v1 : Views u (homeInv (rekeyLine u line h) line h) := (rekeyLine_views (homes_lt hh)).trans (homeInv_views _ _ _)
    have v2 : Views u (clearDamage (homeInv (rekeyLine u line h) line h) line h be) :=
      v1.trans (Views.ite (modCoh_views _ _) (Views.refl _))
    exact v2.trans (bufPut_views (homes_lt hh))
  have v2 := v1.trans (Views.foldl (xs := Machine.homes s1 line) (Views.refl s1) fun u h hh =>
    discardImage_views (page := pageOfLine line) (homes_lt hh))
  obtain ⟨f3, r⟩ := storeBytes_reads line v be (v2.fresh f) (v2.wf f w)
  have v3 (u : State) : Views u (wholeClear u line be) := Views.ite (clearPoison_views _ _) (Views.refl _)
  exact ⟨(v3 _).fresh f3, fun k => by rw [(v3 _).devRead f3, r k, v2.devRead f]⟩

/-- Nothing is met where no error stands anywhere. -/
theorem readIn_clean {s : State} (who a n : Nat) (hc : s.coh.damage = []) (hm : s.mem.damage = []) (hb : s.mem.badMap = [])
    (hs : s.coh.spec = []) : readIn s who a n = s := by
  unfold readIn
  rw [hc, hm, hb, hs]
  simp

/-- A device write inside one line: its bytes as written, every other byte as before, and no line stale. -/
theorem devWrite_reads {s : State} {who a v n : Nat} (f : Fresh s) (w : Memory.wf s.mem.bytes = true)
    (hk : keyAbsent s (64 * (a / 64)) = false) (hn : 0 < n) (hl : a % 64 + n ≤ 64)
    (he : s.coh.damage = [] ∧ s.mem.damage = [] ∧ s.mem.badMap = [] ∧ s.coh.spec = [])
    (hm : ∀ z, writeShort s (a / 64) z = false)
    (hp : n = 64 ∨ poisonedAt s (a / 64) (devHub s (a / 64)) = false) :
    Fresh (devWrite s who a v n) ∧
      ∀ k, devRead (devWrite s who a v n) k 1 = if a ≤ k ∧ k < a + n then v / 256 ^ (k - a) % 256 else devRead s k 1 := by
  unfold devWrite
  rw [show (a + n + 63) / 64 - a / 64 = 1 by omega]
  simp only [List.range_one, List.foldl_cons, List.foldl_nil, Nat.add_zero]
  rw [show max a (64 * (a / 64)) = a by omega, show min (a + n) (64 * (a / 64) + 64) = a + n by omega,
    show a + n - a = n by omega, show a - 64 * (a / 64) = a % 64 by omega, Nat.sub_self, Nat.pow_zero, Nat.div_one]
  have hb : ∀ k, ((2 ^ n - 1) * 2 ^ (a % 64)).testBit (k % 64) = (decide (a % 64 ≤ k % 64) && decide (k % 64 < a % 64 + n)) := by
    intro k
    rw [← Nat.shiftLeft_eq, Nat.testBit_shiftLeft, Nat.testBit_two_pow_sub_one]
    by_cases h : a % 64 ≤ k % 64
    · simp only [h, decide_true, Bool.true_and]
      rw [decide_eq_decide]
      omega
    · simp [h]
  have key : Fresh (capCheck (homeWrite s (a / 64) (v * 256 ^ (a % 64)) ((2 ^ n - 1) * 2 ^ (a % 64)))) ∧
      ∀ k, devRead (capCheck (homeWrite s (a / 64) (v * 256 ^ (a % 64)) ((2 ^ n - 1) * 2 ^ (a % 64)))) k 1 =
        if a ≤ k ∧ k < a + n then v / 256 ^ (k - a) % 256 else devRead s k 1 := by
    have ht : homeWrite s (a / 64) (v * 256 ^ (a % 64)) ((2 ^ n - 1) * 2 ^ (a % 64)) =
        homeStore s (a / 64) (v * 256 ^ (a % 64)) ((2 ^ n - 1) * 2 ^ (a % 64)) := by
      unfold homeWrite
      rw [if_neg (by rw [hm]; simp)]
    obtain ⟨f3, r⟩ := homeStore_reads (a / 64) (v * 256 ^ (a % 64)) ((2 ^ n - 1) * 2 ^ (a % 64)) f w
    rw [ht]
    refine ⟨(capCheck_views _).fresh f3, fun k => ?_⟩
    rw [(capCheck_views _).devRead f3, r k, hb]
    by_cases h : a ≤ k ∧ k < a + n
    · rw [if_pos h, if_pos ⟨by omega, by simp; omega⟩]
      rw [show k % 64 = a % 64 + (k - a) by omega, Nat.pow_add, ← Nat.div_div_eq_div_mul, Nat.mul_div_cancel _ (by positivity)]
    · rw [if_neg h, if_neg (fun q => h (by simp at q; omega))]
  unfold writeDevLine
  rw [if_neg (by simp [hk])]
  by_cases h64 : n = 64
  · subst h64
    have h0 : a % 64 = 0 := by omega
    rw [if_pos (by rw [h0]; decide)]
    exact key
  · have hp := hp.resolve_left h64
    rw [if_neg (fun q => ?_), readIn_clean _ _ _ he.1 he.2.1 he.2.2.1 he.2.2.2]
    · rw [if_neg (by simp [hp])]
      exact key
    · have h1 := hb 63
      have h0 := hb 0
      have q : ∀ i < 64, ((2 ^ n - 1) * 2 ^ (a % 64)).testBit i = true := fun i hi => by
        have := congrArg (fun x => x.testBit i) q
        rw [Nat.testBit_mod_two_pow, Nat.testBit_two_pow_sub_one] at this
        simpa [hi] using this
      rw [show (63 : Nat) % 64 = 63 from rfl, q 63 (by omega)] at h1
      rw [show (0 : Nat) % 64 = 0 from rfl, q 0 (by omega)] at h0
      simp at h0 h1
      omega

end Sys2Proof.Machine
end

