-- ==== Sys2Proof/Laws/Startup.lean ====
section
/-!
SUPPORT. What the operations of Machine/Startup.lean keep.
-/
set_option linter.unusedTactic false
set_option linter.unreachableTactic false
namespace Sys2Proof.Machine

theorem blank_keeps {kl : List Piece} {k0 s : State}
    (km : [.pins, .jtag, .fw, .boot, .store, .pkg, .clock, .ports, .lds, .mctp, .seats, .steward, .extents, .keys, .mem, .coh, .fronds, .tables, .rings, .searches, .jobs, .nextId, .disp, .covs, .tally, .life, .log, .harvest, .regs, .wire, .freeCtr] ⊆ kl) (kh : Keeps kl k0 s) :
    Keeps kl k0 (blank s) := by
  refine Keeps.step ?_ kh km
  refine ⟨?_, ⟨rfl, List.prefix_refl _, Nat.le_refl _, Nat.le_refl _, Nat.le_refl _, List.suffix_refl _⟩, fun x => ?_⟩
  · refine Only.intro fun kp khp => ?_; cases kp <;> first | exact absurd (by decide) khp | exact rfl
  · exact ⟨rfl, x.hist, x.circ, (List.length_map _).trans x.fronds, rfl, nofun, x.bootMode, x.storeMode, x.sel, fun _ => rfl⟩

theorem dropEnables_keeps {kl : List Piece} {k0 s : State}
    (km : [.pins] ⊆ kl)
    (kh : Keeps kl k0 s) : Keeps kl k0 (dropEnables s) := by
  refine Keeps.step ?_ kh km
  unfold dropEnables
  repeat' first
    | with_reducible exact Keeps.refl _ _
    | assumption
    | (with_reducible refine Keeps.put ?_ ?_; rotate_left 1
       · (refine Only.intro fun kp khp => ?_; cases kp <;> first | with_reducible exact rfl | exact absurd (by decide) khp))

theorem offHold_keeps {kl : List Piece} {k0 : State} {s : State} (km : [.pins, .jtag, .fw, .boot, .store, .pkg, .clock, .ports, .lds, .mctp, .seats, .steward, .extents, .keys, .mem, .coh, .fronds, .tables, .rings, .searches, .jobs, .nextId, .disp, .covs, .tally, .life, .log, .harvest, .regs, .wire, .freeCtr] ⊆ kl)
    (kh : Keeps kl k0 s) : Keeps kl k0 (offHold s) := by
  refine Keeps.step ?_ kh km
  unfold offHold
  repeat' first
    | with_reducible exact Keeps.refl _ _
    | assumption
    | with_reducible refine dropEnables_keeps (by decide) ?_
    | with_reducible refine blank_keeps (by decide) ?_
    | with_reducible refine Keeps.getD ?_ (fun _ _ => ?_)
    | (with_reducible refine Keeps.put ?_ ?_; rotate_left 1
       · (refine Only.intro fun kp khp => ?_; cases kp <;> first | with_reducible exact rfl | exact absurd (by decide) khp))
    | (with_reducible refine Keeps.set ?_ ?_; rotate_left 1
       · (refine Only.intro fun kp khp => ?_; cases kp <;> first | with_reducible exact rfl | exact absurd (by decide) khp))

theorem flushEarly_keeps {kl : List Piece} {k0 s : State}
    (km : [.boot, .pkg, .lds, .life, .log] ⊆ kl)
    (kh : Keeps kl k0 s) : Keeps kl k0 (flushEarly s) := by
  refine Keeps.step ?_ kh km
  unfold flushEarly
  repeat' first
    | with_reducible exact Keeps.refl _ _
    | assumption
    | with_reducible refine logRecord_keeps (by decide) ?_
    | with_reducible refine logShed_keeps (by decide) ?_
    | with_reducible refine Keeps.ite ?_ ?_
    | with_reducible refine Keeps.foldl ?_ (fun _ _ => ?_)
    | with_reducible refine Keeps.foldl1 ?_ (fun _ _ => ?_)
    | (with_reducible refine Keeps.set ?_ ?_ ?_ ?_ ?_ ?_ ?_ ?_ ?_ ?_ ?_ ?_ ?_; rotate_left 1
       · (refine Only.intro fun kp khp => ?_; cases kp <;> first | with_reducible exact rfl | exact absurd (by decide) khp)
       · with_reducible exact List.prefix_refl _
       · with_reducible exact Nat.le_refl _
       · with_reducible exact Nat.le_refl _
       · with_reducible exact Nat.le_refl _
       · with_reducible exact List.suffix_refl _
       · with_reducible exact fun x => x
       · with_reducible exact fun x => x
       · with_reducible exact fun x => x
       · with_reducible exact fun x => x
       · with_reducible exact fun x => x
       · with_reducible exact fun x => ⟨x.mode, x.bootMode, x.storeMode, x.sel, x.whole⟩)

theorem startStop_keeps {kl : List Piece} {k0 s : State}
    (km : [.pins, .boot, .pkg, .lds, .life, .log] ⊆ kl)
    (kh : Keeps kl k0 s) : Keeps kl k0 (startStop s) := by
  refine Keeps.step ?_ kh km
  unfold startStop
  repeat' first
    | with_reducible exact Keeps.refl _ _
    | assumption
    | with_reducible refine flushEarly_keeps (by decide) ?_
    | with_reducible refine assertFault_keeps (by decide) ?_
    | (with_reducible refine Keeps.set ?_ ?_ ?_ ?_ ?_ ?_ ?_ ?_ ?_ ?_ ?_ ?_ ?_; rotate_left 1
       · (refine Only.intro fun kp khp => ?_; cases kp <;> first | with_reducible exact rfl | exact absurd (by decide) khp)
       · with_reducible exact List.prefix_refl _
       · with_reducible exact Nat.le_refl _
       · with_reducible exact Nat.le_refl _
       · with_reducible exact Nat.le_refl _
       · with_reducible exact List.suffix_refl _
       · with_reducible exact fun x => x
       · with_reducible exact fun x => x
       · with_reducible exact fun x => x
       · with_reducible exact fun x => x
       · with_reducible exact fun x => x
       · with_reducible exact fun x => ⟨x.mode, x.bootMode, x.storeMode, x.sel, x.whole⟩)

theorem setStage_keeps {kl : List Piece} {k0 s : State} {k : Nat}
    (km : [.boot] ⊆ kl)
    (kh : Keeps kl k0 s) : Keeps kl k0 (setStage s k) := by
  refine Keeps.step ?_ kh km
  unfold setStage
  repeat' first
    | with_reducible exact Keeps.refl _ _
    | assumption
    | (with_reducible refine Keeps.set ?_ ?_ ?_ ?_ ?_ ?_ ?_ ?_ ?_ ?_ ?_ ?_ ?_; rotate_left 1
       · (refine Only.intro fun kp khp => ?_; cases kp <;> first | with_reducible exact rfl | exact absurd (by decide) khp)
       · with_reducible exact List.prefix_refl _
       · with_reducible exact Nat.le_refl _
       · with_reducible exact Nat.le_refl _
       · with_reducible exact Nat.le_refl _
       · with_reducible exact List.suffix_refl _
       · with_reducible exact fun x => x
       · with_reducible exact fun x => x
       · with_reducible exact fun x => x
       · with_reducible exact fun x => x
       · with_reducible exact fun x => x
       · with_reducible exact fun x => ⟨x.mode, x.bootMode, x.storeMode, x.sel, x.whole⟩)

theorem raiseHub_keeps {kl : List Piece} {k0 s : State} {h : Nat}
    (km : [.pins] ⊆ kl)
    (kh : Keeps kl k0 s) : Keeps kl k0 (raiseHub s h) := by
  refine Keeps.step ?_ kh km
  unfold raiseHub
  repeat' first
    | with_reducible exact Keeps.refl _ _
    | assumption
    | (with_reducible refine Keeps.put ?_ ?_; rotate_left 1
       · (refine Only.intro fun kp khp => ?_; cases kp <;> first | with_reducible exact rfl | exact absurd (by decide) khp))

theorem raiseFronds_keeps {kl : List Piece} {k0 s : State} {h : Nat}
    (km : [.pins] ⊆ kl)
    (kh : Keeps kl k0 s) : Keeps kl k0 (raiseFronds s h) := by
  refine Keeps.step ?_ kh km
  unfold raiseFronds
  repeat' first
    | with_reducible exact Keeps.refl _ _
    | assumption
    | with_reducible refine Keeps.foldl ?_ (fun _ _ => ?_)
    | with_reducible refine Keeps.foldl1 ?_ (fun _ _ => ?_)
    | (with_reducible refine Keeps.put ?_ ?_; rotate_left 1
       · (refine Only.intro fun kp khp => ?_; cases kp <;> first | with_reducible exact rfl | exact absurd (by decide) khp))

theorem raiseIo_keeps {kl : List Piece} {k0 s : State} {h : Nat}
    (km : [.pins] ⊆ kl)
    (kh : Keeps kl k0 s) : Keeps kl k0 (raiseIo s h) := by
  refine Keeps.step ?_ kh km
  unfold raiseIo
  repeat' first
    | with_reducible exact Keeps.refl _ _
    | assumption
    | with_reducible refine Keeps.ite ?_ ?_
    | with_reducible refine Keeps.foldl ?_ (fun _ _ => ?_)
    | with_reducible refine Keeps.foldl1 ?_ (fun _ _ => ?_)
    | (with_reducible refine Keeps.put ?_ ?_; rotate_left 1
       · (refine Only.intro fun kp khp => ?_; cases kp <;> first | with_reducible exact rfl | exact absurd (by decide) khp))

theorem shareFw_keeps {kl : List Piece} {k0 s : State}
    (km : [.fw] ⊆ kl)
    (kh : Keeps kl k0 s) : Keeps kl k0 (shareFw s) := by
  refine Keeps.step ?_ kh km
  unfold shareFw
  repeat' first
    | with_reducible exact Keeps.refl _ _
    | assumption
    | with_reducible refine Keeps.ite ?_ ?_
    | with_reducible refine Keeps.getD ?_ (fun _ _ => ?_)
    | split
    | dsimp only
    | (with_reducible refine Keeps.put ?_ ?_; rotate_left 1
       · (refine Only.intro fun kp khp => ?_; cases kp <;> first | with_reducible exact rfl | exact absurd (by decide) khp))

theorem memoryActive_keeps {kl : List Piece} {k0 : State} {s : State} {startMs : Nat} (km : [.fw, .boot, .store, .pkg, .lds, .seats, .extents, .mem, .coh, .fronds, .life, .log, .regs, .wire] ⊆ kl)
    (kh : Keeps kl k0 s) : Keeps kl k0 (memoryActive s startMs) := by
  refine Keeps.step ?_ kh km
  unfold memoryActive
  repeat' first
    | with_reducible exact Keeps.refl _ _
    | assumption
    | with_reducible refine setStage_keeps (by decide) ?_
    | with_reducible refine setDie_keeps (by decide) ?_
    | with_reducible refine modFrond_keeps (by decide) ?_
    | with_reducible refine attachIf_keeps (by decide) ?_
    | with_reducible refine shareFw_keeps (by decide) ?_
    | with_reducible refine activateFw_keeps (by decide) ?_
    | with_reducible refine catchUpLog_keeps (by decide) ?_
    | with_reducible refine modMem_keeps (by decide) (fun x => x) ?_
    | with_reducible refine modMem_keeps (by decide) (fun x => filter_wf x) ?_
    | with_reducible refine ledgerWrite_keeps (by decide) ?_
    | with_reducible refine raiseFull_keeps (by decide) ?_
    | with_reducible refine Keeps.ite ?_ ?_
    | with_reducible refine Keeps.foldl ?_ (fun _ _ => ?_)
    | with_reducible refine Keeps.foldl1 ?_ (fun _ _ => ?_)
    | (with_reducible refine Keeps.put ?_ ?_; rotate_left 1
       · (refine Only.intro fun kp khp => ?_; cases kp <;> first | with_reducible exact rfl | exact absurd (by decide) khp))
    | (with_reducible refine Keeps.set ?_ ?_; rotate_left 1
       · (refine Only.intro fun kp khp => ?_; cases kp <;> first | with_reducible exact rfl | exact absurd (by decide) khp))
    | split

theorem adoptStore_keeps {kl : List Piece} {k0 s : State}
    (km : [.store, .pkg, .ports, .mem] ⊆ kl) (kh : Keeps kl k0 s) :
    Keeps kl k0 (adoptStore s) := by
  refine Keeps.step ?_ kh km
  have hm : Sound s → (if s.chip.part = .ls8 then s.boot.mode else 0) ≠ 3 := fun x => by
    split
    · exact x.bootMode
    · exact fun e => absurd e (by decide)
  refine Keeps.set (Keeps.refl _ s) ?_ (List.prefix_refl _) (Nat.le_refl _) (Nat.le_refl _) (Nat.le_refl _)
    (List.suffix_refl _) (fun x => x) (fun x => x) (fun x => x) (fun x => x) (fun _ => rfl)
    (fun x => ⟨hm x, x.bootMode, hm x, nofun, fun h => if_neg h⟩)
  refine Only.intro fun kp khp => ?_; cases kp <;> first | exact absurd (by decide) khp | exact rfl

theorem applyStore_keeps {kl : List Piece} {k0 s : State}
    (km : [.boot, .store, .pkg, .ports, .lds, .mem, .life, .log, .regs] ⊆ kl)
    (kh : Keeps kl k0 s) : Keeps kl k0 (applyStore s) := by
  refine Keeps.step ?_ kh km
  unfold applyStore
  repeat' first
    | with_reducible exact Keeps.refl _ _
    | assumption
    | with_reducible refine adoptStore_keeps (by decide) ?_
    | with_reducible refine covered_keeps (by decide) ?_
    | with_reducible refine setReg_keeps (by decide) ?_
    | with_reducible refine storeWrite_keeps (by decide) ?_
    | with_reducible refine ledgerWrite_keeps (by decide) ?_
    | with_reducible refine event_keeps (by decide) ?_
    | with_reducible refine Keeps.ite ?_ ?_
    | with_reducible refine Keeps.getD ?_ (fun _ _ => ?_)
    | with_reducible refine Keeps.foldl ?_ (fun _ _ => ?_)

theorem setPhys_keeps {kl : List Piece} {k0 s : State} {on : List Nat}
    (km : [.mem] ⊆ kl)
    (kh : Keeps kl k0 s) : Keeps kl k0 (setPhys s on) := by
  refine Keeps.step ?_ kh km
  unfold setPhys
  repeat' first
    | with_reducible exact Keeps.refl _ _
    | assumption
    | with_reducible refine modMem_keeps (by decide) (fun x => x) ?_

theorem setCapacity_keeps {kl : List Piece} {k0 s : State}
    (km : [.pkg, .mem, .regs] ⊆ kl)
    (kh : Keeps kl k0 s) : Keeps kl k0 (setCapacity s) := by
  refine Keeps.step ?_ kh km
  unfold setCapacity
  repeat' first
    | with_reducible exact Keeps.refl _ _
    | assumption
    | with_reducible refine setPhys_keeps (by decide) ?_
    | with_reducible refine setRegWide_keeps (by decide) ?_
    | with_reducible refine covered_keeps (by decide) ?_
    | with_reducible refine Keeps.ite ?_ ?_
    | with_reducible refine Keeps.getD ?_ (fun _ _ => ?_)
    | with_reducible refine Keeps.foldl ?_ (fun _ _ => ?_)
    | with_reducible refine Keeps.foldl1 ?_ (fun _ _ => ?_)
    | (with_reducible refine Keeps.set ?_ ?_ ?_ ?_ ?_ ?_ ?_ ?_ ?_ ?_ ?_ ?_ ?_; rotate_left 1
       · (refine Only.intro fun kp khp => ?_; cases kp <;> first | with_reducible exact rfl | exact absurd (by decide) khp)
       · with_reducible exact List.prefix_refl _
       · with_reducible exact Nat.le_refl _
       · with_reducible exact Nat.le_refl _
       · with_reducible exact Nat.le_refl _
       · with_reducible exact List.suffix_refl _
       · with_reducible exact fun x => x
       · with_reducible exact fun x => x
       · with_reducible exact fun x => x
       · with_reducible exact fun x => x
       · with_reducible exact fun x => x
       · with_reducible exact fun x => ⟨x.mode, x.bootMode, x.storeMode, x.sel, x.whole⟩)

theorem returnDone_keeps {kl : List Piece} {k0 : State} {s : State} {h : Nat} (km : [.pins, .boot, .store, .pkg, .ports, .lds, .seats, .steward, .extents, .mem, .coh, .fronds, .tables, .rings, .searches, .jobs, .disp, .covs, .tally, .life, .log, .regs, .wire] ⊆ kl)
    (kh : Keeps kl k0 s) : Keeps kl k0 (returnDone s h) := by
  refine Keeps.step ?_ kh km
  unfold returnDone
  repeat' first
    | with_reducible exact Keeps.refl _ _
    | assumption
    | with_reducible refine halfOut_keeps (by decide) ?_
    | with_reducible refine setHalf_keeps (by decide) ?_
    | with_reducible refine setPhys_keeps (by decide) ?_
    | with_reducible refine Keeps.ite ?_ ?_
    | (with_reducible refine Keeps.put ?_ ?_; rotate_left 1
       · (refine Only.intro fun kp khp => ?_; cases kp <;> first | with_reducible exact rfl | exact absurd (by decide) khp))
    | (with_reducible refine Keeps.set ?_ ?_; rotate_left 1
       · (refine Only.intro fun kp khp => ?_; cases kp <;> first | with_reducible exact rfl | exact absurd (by decide) khp))
    | split

theorem returnNext_keeps {kl : List Piece} {k0 : State} {s : State} {h : Nat} {k : Nat} (km : [.pins, .boot, .store, .pkg, .ports, .lds, .seats, .steward, .extents, .mem, .coh, .fronds, .tables, .rings, .searches, .jobs, .disp, .covs, .tally, .life, .log, .regs, .wire] ⊆ kl)
    (kh : Keeps kl k0 s) : Keeps kl k0 (returnNext s h k) := by
  refine Keeps.step ?_ kh km
  unfold returnNext
  repeat' first
    | with_reducible exact Keeps.refl _ _
    | assumption
    | with_reducible refine returnDone_keeps (by decide) ?_
    | with_reducible refine raiseFronds_keeps (by decide) ?_
    | with_reducible refine Keeps.ite ?_ ?_
    | (with_reducible refine Keeps.put ?_ ?_; rotate_left 1
       · (refine Only.intro fun kp khp => ?_; cases kp <;> first | with_reducible exact rfl | exact absurd (by decide) khp))
    | (with_reducible refine Keeps.set ?_ ?_; rotate_left 1
       · (refine Only.intro fun kp khp => ?_; cases kp <;> first | with_reducible exact rfl | exact absurd (by decide) khp))
    | split

theorem nextStage_keeps {kl : List Piece} {k0 s : State} {startMs : Nat}
    (km : [.pins, .fw, .boot, .store, .pkg, .ports, .lds, .seats, .extents, .mem, .coh, .fronds, .life, .log, .regs, .wire] ⊆ kl)
    (kh : Keeps kl k0 s) : Keeps kl k0 (nextStage s startMs) := by
  refine Keeps.step ?_ kh km
  unfold nextStage
  repeat' first
    | with_reducible exact Keeps.refl _ _
    | assumption
    | with_reducible refine raiseFronds_keeps (by decide) ?_
    | with_reducible refine setStage_keeps (by decide) ?_
    | with_reducible refine applyStore_keeps (by decide) ?_
    | with_reducible refine flushEarly_keeps (by decide) ?_
    | with_reducible refine raiseIo_keeps (by decide) ?_
    | with_reducible refine setCapacity_keeps (by decide) ?_
    | with_reducible refine memoryActive_keeps (by decide) ?_
    | with_reducible refine Keeps.ite ?_ ?_
    | with_reducible refine Keeps.foldl ?_ (fun _ _ => ?_)
    | with_reducible refine Keeps.foldl1 ?_ (fun _ _ => ?_)
    | split

theorem goOn_keeps {kl : List Piece} {k0 s : State} {startMs : Nat}
    (km : [.pins, .fw, .boot, .store, .pkg, .ports, .lds, .seats, .extents, .mem, .coh, .fronds, .life, .log, .regs, .wire] ⊆ kl)
    (kh : Keeps kl k0 s) : Keeps kl k0 (goOn s startMs) := by
  refine Keeps.step ?_ kh km
  unfold goOn
  repeat' first
    | with_reducible exact Keeps.refl _ _
    | assumption
    | with_reducible refine nextStage_keeps (by decide) ?_
    | with_reducible refine Keeps.ite ?_ ?_

theorem endStageMs_keeps {kl : List Piece} {k0 s : State} {h k startMs : Nat}
    (km : [.pins, .fw, .boot, .store, .pkg, .ports, .lds, .seats, .steward, .extents, .mem, .coh, .fronds, .tables, .rings, .searches, .jobs, .disp, .covs, .tally, .life, .log, .regs, .wire] ⊆ kl)
    (kh : Keeps kl k0 s) : Keeps kl k0 (endStageMs s h k startMs) := by
  refine Keeps.step ?_ kh km
  unfold endStageMs
  repeat' first
    | with_reducible exact Keeps.refl _ _
    | assumption
    | with_reducible refine returnNext_keeps (by decide) ?_
    | with_reducible refine goOn_keeps (by decide) ?_
    | with_reducible refine Keeps.ite ?_ ?_
    | (with_reducible refine Keeps.set ?_ ?_ ?_ ?_ ?_ ?_ ?_ ?_ ?_ ?_ ?_ ?_ ?_; rotate_left 1
       · (refine Only.intro fun kp khp => ?_; cases kp <;> first | with_reducible exact rfl | exact absurd (by decide) khp)
       · with_reducible exact List.prefix_refl _
       · with_reducible exact Nat.le_refl _
       · with_reducible exact Nat.le_refl _
       · with_reducible exact Nat.le_refl _
       · with_reducible exact List.suffix_refl _
       · with_reducible exact fun x => x
       · with_reducible exact fun x => x
       · with_reducible exact fun x => x
       · with_reducible exact fun x => x
       · with_reducible exact fun x => x
       · with_reducible exact fun x => ⟨x.mode, x.bootMode, x.storeMode, x.sel, x.whole⟩)

theorem endStage_keeps {kl : List Piece} {k0 s : State} {h k : Nat}
    (km : [.pins, .fw, .boot, .store, .pkg, .ports, .lds, .seats, .steward, .extents, .mem, .coh, .fronds, .tables, .rings, .searches, .jobs, .disp, .covs, .tally, .life, .log, .regs, .wire] ⊆ kl)
    (kh : Keeps kl k0 s) : Keeps kl k0 (endStage s h k) := by
  refine Keeps.step ?_ kh km
  unfold endStage
  repeat' first
    | with_reducible exact Keeps.refl _ _
    | assumption
    | with_reducible refine endStageMs_keeps (by decide) ?_

theorem beginRails_keeps {kl : List Piece} {k0 s : State}
    (km : [.pins, .fw, .boot, .store, .pkg, .ports, .lds, .seats, .extents, .mem, .coh, .fronds, .life, .log, .regs, .wire] ⊆ kl)
    (kh : Keeps kl k0 s) : Keeps kl k0 (beginRails s) := by
  refine Keeps.step ?_ kh km
  unfold beginRails
  repeat' first
    | with_reducible exact Keeps.refl _ _
    | assumption
    | with_reducible refine raiseHub_keeps (by decide) ?_
    | with_reducible refine setStage_keeps (by decide) ?_
    | with_reducible refine goOn_keeps (by decide) ?_
    | with_reducible refine Keeps.getD ?_ (fun _ _ => ?_)
    | with_reducible refine Keeps.foldl ?_ (fun _ _ => ?_)
    | with_reducible refine Keeps.foldl1 ?_ (fun _ _ => ?_)
    | (with_reducible refine Keeps.set ?_ ?_ ?_ ?_ ?_ ?_ ?_ ?_ ?_ ?_ ?_ ?_ ?_; rotate_left 1
       · (refine Only.intro fun kp khp => ?_; cases kp <;> first | with_reducible exact rfl | exact absurd (by decide) khp)
       · with_reducible exact List.prefix_refl _
       · with_reducible exact Nat.le_refl _
       · with_reducible exact Nat.le_refl _
       · with_reducible exact Nat.le_refl _
       · with_reducible exact List.suffix_refl _
       · with_reducible exact fun x => x
       · with_reducible exact fun x => x
       · with_reducible exact fun x => x
       · with_reducible exact fun x => x
       · with_reducible exact fun x => x
       · with_reducible exact fun x => ⟨x.mode, x.bootMode, x.storeMode, x.sel, x.whole⟩)

theorem startHalfOut_keeps {kl : List Piece} {k0 : State} {s : State} {h : Nat} (km : [.pins, .fw, .boot, .store, .pkg, .ports, .lds, .seats, .steward, .extents, .mem, .coh, .fronds, .tables, .rings, .searches, .jobs, .disp, .covs, .tally, .life, .log, .regs, .wire] ⊆ kl)
    (kh : Keeps kl k0 s) : Keeps kl k0 (startHalfOut s h) := by
  refine Keeps.step ?_ kh km
  unfold startHalfOut
  repeat' first
    | with_reducible exact Keeps.refl _ _
    | assumption
    | with_reducible refine halfOut_keeps (by decide) ?_
    | with_reducible refine linkLoss_keeps (by decide) ?_
    | with_reducible refine setHalf_keeps (by decide) ?_
    | with_reducible refine ledgerWrite_keeps (by decide) ?_
    | with_reducible refine raiseFull_keeps (by decide) ?_
    | with_reducible refine startStop_keeps (by decide) ?_
    | with_reducible refine goOn_keeps (by decide) ?_
    | with_reducible refine Keeps.ite ?_ ?_
    | with_reducible refine Keeps.foldl ?_ (fun _ _ => ?_)
    | with_reducible refine Keeps.foldl1 ?_ (fun _ _ => ?_)
    | (with_reducible refine Keeps.put ?_ ?_; rotate_left 1
       · (refine Only.intro fun kp khp => ?_; cases kp <;> first | with_reducible exact rfl | exact absurd (by decide) khp))
    | (with_reducible refine Keeps.set ?_ ?_; rotate_left 1
       · (refine Only.intro fun kp khp => ?_; cases kp <;> first | with_reducible exact rfl | exact absurd (by decide) khp))
    | split

theorem startFault_keeps {kl : List Piece} {k0 : State} {s : State} {h : Nat} (km : [.pins, .fw, .boot, .store, .pkg, .ports, .lds, .seats, .steward, .extents, .mem, .coh, .fronds, .tables, .rings, .searches, .jobs, .disp, .covs, .tally, .life, .log, .regs, .wire] ⊆ kl)
    (kh : Keeps kl k0 s) : Keeps kl k0 (startFault s h) := by
  refine Keeps.step ?_ kh km
  unfold startFault
  repeat' first
    | with_reducible exact Keeps.refl _ _
    | assumption
    | with_reducible refine halfOut_keeps (by decide) ?_
    | with_reducible refine startStop_keeps (by decide) ?_
    | with_reducible refine startHalfOut_keeps (by decide) ?_
    | with_reducible refine Keeps.ite ?_ ?_
    | split

theorem startFail_keeps {kl : List Piece} {k0 s : State} {h k die reason : Nat}
    (km : [.pins, .fw, .boot, .store, .pkg, .ports, .lds, .seats, .steward, .extents, .mem, .coh, .fronds, .tables, .rings, .searches, .jobs, .disp, .covs, .tally, .life, .log, .regs, .wire] ⊆ kl)
    (kh : Keeps kl k0 s) : Keeps kl k0 (startFail s h k die reason) := by
  refine Keeps.step ?_ kh km
  unfold startFail
  repeat' first
    | with_reducible exact Keeps.refl _ _
    | assumption
    | with_reducible refine startFault_keeps (by decide) ?_
    | with_reducible refine event_keeps (by decide) ?_

theorem holdOut_keeps {kl : List Piece} {k0 s : State} {die : Nat}
    (km : [.pins, .fw, .boot, .store, .pkg, .ports, .lds, .seats, .steward, .extents, .mem, .coh, .fronds, .tables, .rings, .searches, .jobs, .disp, .covs, .tally, .life, .log, .regs, .wire] ⊆ kl)
    (kh : Keeps kl k0 s) : Keeps kl k0 (holdOut s die) := by
  refine Keeps.step ?_ kh km
  unfold holdOut
  repeat' first
    | with_reducible exact Keeps.refl _ _
    | assumption
    | with_reducible refine startFault_keeps (by decide) ?_
    | with_reducible refine setDie_keeps (by decide) ?_
    | with_reducible refine modFrond_keeps (by decide) ?_
    | with_reducible refine event_keeps (by decide) ?_
    | with_reducible refine Keeps.ite ?_ ?_
    | (with_reducible refine Keeps.put ?_ ?_; rotate_left 1
       · (refine Only.intro fun kp khp => ?_; cases kp <;> first | with_reducible exact rfl | exact absurd (by decide) khp))

theorem frondFail_keeps {kl : List Piece} {k0 s : State} {k die reason : Nat}
    (km : [.pins, .fw, .boot, .store, .pkg, .ports, .lds, .seats, .steward, .extents, .mem, .coh, .fronds, .tables, .rings, .searches, .jobs, .disp, .covs, .tally, .life, .log, .regs, .wire] ⊆ kl)
    (kh : Keeps kl k0 s) : Keeps kl k0 (frondFail s k die reason) := by
  refine Keeps.step ?_ kh km
  unfold frondFail
  repeat' first
    | with_reducible exact Keeps.refl _ _
    | assumption
    | with_reducible refine holdOut_keeps (by decide) ?_
    | with_reducible refine event_keeps (by decide) ?_

theorem chooseSlot_keeps {kl : List Piece} {k0 s : State} {bad : List Nat}
    (km : [.boot, .pkg, .lds, .life, .log] ⊆ kl)
    (kh : Keeps kl k0 s) : Keeps kl k0 (chooseSlot s bad) := by
  refine Keeps.step ?_ kh km
  unfold chooseSlot
  repeat' first
    | with_reducible exact Keeps.refl _ _
    | assumption
    | with_reducible refine event_keeps (by decide) ?_
    | with_reducible refine Keeps.foldl ?_ (fun _ _ => ?_)
    | with_reducible refine Keeps.foldl1 ?_ (fun _ _ => ?_)
    | split
    | dsimp only
    | (with_reducible refine Keeps.put ?_ ?_; rotate_left 1
       · (refine Only.intro fun kp khp => ?_; cases kp <;> first | with_reducible exact rfl | exact absurd (by decide) khp))

theorem countPower_keeps {kl : List Piece} {k0 : State} {s : State} {orderly : Bool} (km : [.boot, .store, .life] ⊆ kl)
    (kh : Keeps kl k0 s) : Keeps kl k0 (countPower s orderly) := by
  refine Keeps.step ?_ kh km
  unfold countPower
  repeat' first
    | with_reducible exact Keeps.refl _ _
    | assumption
    | with_reducible refine modLedger_keeps (by decide) ?_
    | with_reducible refine Keeps.ite ?_ ?_
    | (with_reducible refine Keeps.put ?_ ?_; rotate_left 1
       · (refine Only.intro fun kp khp => ?_; cases kp <;> first | with_reducible exact rfl | exact absurd (by decide) khp))
    | (with_reducible refine Keeps.set ?_ ?_; rotate_left 1
       · (refine Only.intro fun kp khp => ?_; cases kp <;> first | with_reducible exact rfl | exact absurd (by decide) khp))
    | split

theorem leaveOne_keeps {kl : List Piece} {k0 s : State}
    (km : [.pins, .fw, .boot, .store, .pkg, .ports, .lds, .seats, .extents, .mem, .coh, .fronds, .life, .log, .regs, .wire] ⊆ kl)
    (kh : Keeps kl k0 s) : Keeps kl k0 (leaveOne s) := by
  refine Keeps.step ?_ kh km
  unfold leaveOne
  repeat' first
    | with_reducible exact Keeps.refl _ _
    | assumption
    | with_reducible refine beginRails_keeps (by decide) ?_
    | with_reducible refine startStop_keeps (by decide) ?_
    | with_reducible refine event_keeps (by decide) ?_
    | with_reducible refine Keeps.ite ?_ ?_

theorem stageOne_keeps {kl : List Piece} {k0 s : State} {cold : Bool} {tj : Word}
    (km : [.pins, .boot, .clock, .tally, .log] ⊆ kl)
    (kh : Keeps kl k0 s) : Keeps kl k0 (stageOne s cold tj) := by
  refine Keeps.step ?_ kh km
  have hm : Sound s → startMode s ≠ 3 := fun x => by
    unfold startMode
    split
    · split
      · exact fun e => absurd e (by decide)
      · cases hs : s.store.sel with
        | none => exact x.storeMode
        | some m => exact fun e => x.sel (hs.trans (congrArg some e))
    · exact fun e => absurd e (by decide)
  have htb : s.clock.tb ≤ if cold then resumeTb s else s.clock.tb := by
    split
    · exact Nat.le_max_right _ _
    · exact Nat.le_refl _
  refine Keeps.set (Keeps.refl _ s) ?_ (List.prefix_refl _) (Nat.le_refl _) htb (Nat.le_refl _) (List.suffix_refl _)
    (fun x => x) (fun x => x) (fun x => x) (fun x => x) (fun x => x)
    (fun x => ⟨x.mode, hm x, x.storeMode, x.sel, x.whole⟩)
  refine Only.intro fun kp khp => ?_; cases kp <;> first | exact absurd (by decide) khp | exact rfl

theorem beginStart_keeps {kl : List Piece} {k0 s : State} {cold mramOk : Bool} {tj : Word} {bad : List Nat}
    (km : [.pins, .jtag, .fw, .boot, .store, .pkg, .clock, .ports, .lds, .mctp, .seats, .steward, .extents, .keys, .mem, .coh, .fronds, .tables, .rings, .searches, .jobs, .nextId, .disp, .covs, .tally, .life, .log, .harvest, .regs, .wire, .freeCtr] ⊆ kl)
    (kh : Keeps kl k0 s) : Keeps kl k0 (beginStart s cold mramOk tj bad) := by
  refine Keeps.step ?_ kh km
  unfold beginStart
  repeat' first
    | with_reducible exact Keeps.refl _ _
    | assumption
    | with_reducible refine stageOne_keeps (by decide) ?_
    | with_reducible refine blank_keeps (by decide) ?_
    | with_reducible refine assertFault_keeps (by decide) ?_
    | with_reducible refine countPower_keeps (by decide) ?_
    | with_reducible refine chooseSlot_keeps (by decide) ?_
    | with_reducible refine leaveOne_keeps (by decide) ?_
    | with_reducible refine Keeps.ite ?_ ?_
    | (with_reducible refine Keeps.set ?_ ?_ ?_ ?_ ?_ ?_ ?_ ?_ ?_ ?_ ?_ ?_ ?_; rotate_left 1
       · (refine Only.intro fun kp khp => ?_; cases kp <;> first | with_reducible exact rfl | exact absurd (by decide) khp)
       · with_reducible exact List.prefix_refl _
       · with_reducible exact Nat.le_refl _
       · with_reducible exact Nat.le_refl _
       · with_reducible exact Nat.le_refl _
       · with_reducible exact List.suffix_refl _
       · with_reducible exact fun x => x
       · with_reducible exact fun x => x
       · with_reducible exact fun x => x
       · with_reducible exact fun x => x
       · with_reducible exact fun x => x
       · with_reducible exact fun x => ⟨x.mode, x.bootMode, x.storeMode, x.sel, x.whole⟩)

theorem execPorstNRelease_keeps {kl : List Piece} {k0 : State} {straps : Straps} {tj : Word} {mramOk xtalEdge : Bool} {badSlots : List (BitVec 4)} {s kt : State}
    (km : [.pins, .jtag, .fw, .boot, .store, .pkg, .clock, .ports, .lds, .mctp, .seats, .steward, .extents, .keys, .mem, .coh, .fronds, .tables, .rings, .searches, .jobs, .nextId, .disp, .covs, .tally, .life, .log, .harvest, .regs, .wire, .freeCtr] ⊆ kl) (ke : execPorstNRelease straps tj mramOk xtalEdge badSlots s = .next kt)
    (kh : Keeps kl k0 s) : Keeps kl k0 kt := by
  refine Keeps.step ?_ kh km
  unfold execPorstNRelease at ke
  cases ke
  repeat' first
    | with_reducible exact Keeps.refl _ _
    | assumption
    | with_reducible refine beginStart_keeps (by decide) ?_
    | with_reducible refine xtalFail_keeps (by decide) ?_
    | with_reducible refine Keeps.ite ?_ ?_
    | split
    | dsimp only
    | (with_reducible refine Keeps.set ?_ ?_ ?_ ?_ ?_ ?_ ?_ ?_ ?_ ?_ ?_ ?_ ?_; rotate_left 1
       · (refine Only.intro fun kp khp => ?_; cases kp <;> first | with_reducible exact rfl | exact absurd (by decide) khp)
       · with_reducible exact List.prefix_refl _
       · with_reducible exact Nat.le_refl _
       · with_reducible exact Nat.le_refl _
       · with_reducible exact Nat.le_refl _
       · with_reducible exact List.suffix_refl _
       · with_reducible exact fun x => x
       · with_reducible exact fun x => x
       · with_reducible exact fun x => x
       · with_reducible exact fun x => x
       · with_reducible exact fun x => x
       · with_reducible exact fun x => ⟨x.mode, x.bootMode, x.storeMode, x.sel, x.whole⟩)

theorem execPorstNAssert_keeps {kl : List Piece} {k0 s kt : State}
    (km : [.pins, .jtag, .fw, .boot, .store, .pkg, .clock, .ports, .lds, .mctp, .seats, .steward, .extents, .keys, .mem, .coh, .fronds, .tables, .rings, .searches, .jobs, .nextId, .disp, .covs, .tally, .life, .log, .harvest, .regs, .wire, .freeCtr] ⊆ kl)
    (ke : execPorstNAssert s = .next kt) (kh : Keeps kl k0 s) : Keeps kl k0 kt := by
  refine Keeps.step ?_ kh km
  cases ke
  refine Keeps.ite ?_ (Keeps.refl _ _)
  have h : Keeps [.pins, .jtag, .fw, .boot, .store, .pkg, .clock, .ports, .lds, .mctp, .seats, .steward, .extents, .keys, .mem, .coh, .fronds, .tables, .rings, .searches, .jobs, .nextId, .disp, .covs, .tally, .life, .log, .harvest, .regs, .wire, .freeCtr] s (dropEnables (blank s)) := dropEnables_keeps (by decide)
    (blank_keeps (by decide) (Keeps.refl _ _))
  generalize dropEnables (blank s) = t at h ⊢
  refine Keeps.set h ?_ (List.prefix_refl _) (Nat.le_refl _) (Nat.le_refl _) (Nat.le_refl _) (List.suffix_refl _)
    (fun x => x) (fun x => x) (fun x => x) (fun x => x) (fun x => x)
    (fun x => ⟨x.mode, nofun, x.storeMode, x.sel, x.whole⟩)
  refine Only.intro fun kp khp => ?_; cases kp <;> first | with_reducible exact rfl | exact absurd (by decide) khp

theorem execHighTemperatureHoldEnd_keeps {kl : List Piece} {k0 : State} {tj : Word} {s kt : State}
    (km : [.pins, .fw, .boot, .store, .pkg, .ports, .lds, .seats, .extents, .mem, .coh, .fronds, .tally, .life, .log, .regs, .wire] ⊆ kl) (ke : execHighTemperatureHoldEnd tj s = .next kt)
    (kh : Keeps kl k0 s) : Keeps kl k0 kt := by
  refine Keeps.step ?_ kh km
  unfold execHighTemperatureHoldEnd at ke
  cases ke
  repeat' first
    | with_reducible exact Keeps.refl _ _
    | assumption
    | with_reducible refine leaveOne_keeps (by decide) ?_
    | with_reducible refine Keeps.ite ?_ ?_
    | split
    | dsimp only
    | (with_reducible refine Keeps.set ?_ ?_ ?_ ?_ ?_ ?_ ?_ ?_ ?_ ?_ ?_ ?_ ?_; rotate_left 1
       · (refine Only.intro fun kp khp => ?_; cases kp <;> first | with_reducible exact rfl | exact absurd (by decide) khp)
       · with_reducible exact List.prefix_refl _
       · with_reducible exact Nat.le_refl _
       · with_reducible exact Nat.le_refl _
       · with_reducible exact Nat.le_refl _
       · with_reducible exact List.suffix_refl _
       · with_reducible exact fun x => x
       · with_reducible exact fun x => x
       · with_reducible exact fun x => x
       · with_reducible exact fun x => x
       · with_reducible exact fun x => x
       · with_reducible exact fun x => ⟨x.mode, x.bootMode, x.storeMode, x.sel, x.whole⟩)

theorem execPgHub_keeps {kl : List Piece} {k0 : State} {hub : BitVec 1} {s kt : State}
    (km : [.pins, .fw, .boot, .store, .pkg, .ports, .lds, .seats, .steward, .extents, .mem, .coh, .fronds, .tables, .rings, .searches, .jobs, .disp, .covs, .tally, .life, .log, .regs, .wire] ⊆ kl) (ke : execPgHub hub s = .next kt)
    (kh : Keeps kl k0 s) : Keeps kl k0 kt := by
  refine Keeps.step ?_ kh km
  unfold execPgHub at ke
  cases ke
  repeat' first
    | with_reducible exact Keeps.refl _ _
    | assumption
    | with_reducible refine endStage_keeps (by decide) ?_
    | with_reducible refine Keeps.ite ?_ ?_
    | with_reducible refine Keeps.getD ?_ (fun _ _ => ?_)
    | split
    | dsimp only
    | (with_reducible refine Keeps.put ?_ ?_; rotate_left 1
       · (refine Only.intro fun kp khp => ?_; cases kp <;> first | with_reducible exact rfl | exact absurd (by decide) khp))

theorem execPllLock_keeps {kl : List Piece} {k0 : State} {hub : BitVec 1} {s kt : State}
    (km : [.pins, .fw, .boot, .store, .pkg, .ports, .lds, .seats, .steward, .extents, .mem, .coh, .fronds, .tables, .rings, .searches, .jobs, .disp, .covs, .tally, .life, .log, .regs, .wire] ⊆ kl) (ke : execPllLock hub s = .next kt)
    (kh : Keeps kl k0 s) : Keeps kl k0 kt := by
  refine Keeps.step ?_ kh km
  unfold execPllLock at ke
  cases ke
  repeat' first
    | with_reducible exact Keeps.refl _ _
    | assumption
    | with_reducible refine endStage_keeps (by decide) ?_
    | with_reducible refine Keeps.ite ?_ ?_

theorem fallBack_keeps {kl : List Piece} {k0 s : State} {h reason : Nat}
    (km : [.pins, .fw, .boot, .store, .pkg, .ports, .lds, .seats, .extents, .mem, .coh, .fronds, .life, .log, .regs, .wire] ⊆ kl)
    (kh : Keeps kl k0 s) : Keeps kl k0 (fallBack s h reason) := by
  refine Keeps.step ?_ kh km
  unfold fallBack
  repeat' first
    | with_reducible exact Keeps.refl _ _
    | assumption
    | with_reducible refine event_keeps (by decide) ?_
    | with_reducible refine beginRails_keeps (by decide) ?_
    | with_reducible refine Keeps.ite ?_ ?_
    | with_reducible refine Keeps.getD ?_ (fun _ _ => ?_)
    | (with_reducible refine Keeps.put ?_ ?_; rotate_left 1
       · (refine Only.intro fun kp khp => ?_; cases kp <;> first | with_reducible exact rfl | exact absurd (by decide) khp))
    | (with_reducible refine Keeps.set ?_ ?_ ?_ ?_ ?_ ?_ ?_ ?_ ?_ ?_ ?_ ?_ ?_; rotate_left 1
       · (refine Only.intro fun kp khp => ?_; cases kp <;> first | with_reducible exact rfl | exact absurd (by decide) khp)
       · with_reducible exact List.prefix_refl _
       · with_reducible exact Nat.le_refl _
       · with_reducible exact Nat.le_refl _
       · with_reducible exact Nat.le_refl _
       · with_reducible exact List.suffix_refl _
       · with_reducible exact fun x => x
       · with_reducible exact fun x => x
       · with_reducible exact fun x => x
       · with_reducible exact fun x => x
       · first | with_reducible exact fun x => x | exact fun x => by simpa using x
       · with_reducible exact fun x => ⟨x.mode, x.bootMode, x.storeMode, x.sel, x.whole⟩)

theorem takeImage_keeps {kl : List Piece} {k0 s : State} {h k : Nat} {pend : Bool}
    (km : [.pins, .fw, .boot, .store, .pkg, .ports, .lds, .seats, .steward, .extents, .mem, .coh, .fronds, .tables, .rings, .searches, .jobs, .disp, .covs, .tally, .life, .log, .regs, .wire] ⊆ kl)
    (kh : Keeps kl k0 s) : Keeps kl k0 (takeImage s h k pend) := by
  refine Keeps.step ?_ kh km
  unfold takeImage
  repeat' first
    | with_reducible exact Keeps.refl _ _
    | assumption
    | with_reducible refine endStage_keeps (by decide) ?_
    | (with_reducible refine Keeps.put ?_ ?_; rotate_left 1
       · (refine Only.intro fun kp khp => ?_; cases kp <;> first | with_reducible exact rfl | exact absurd (by decide) khp))

theorem execFirmwareVerified_keeps {kl : List Piece} {k0 : State} {hub : BitVec 1} {s kt : State}
    (km : [.pins, .fw, .boot, .store, .pkg, .ports, .lds, .seats, .steward, .extents, .mem, .coh, .fronds, .tables, .rings, .searches, .jobs, .disp, .covs, .tally, .life, .log, .regs, .wire] ⊆ kl) (ke : execFirmwareVerified hub s = .next kt)
    (kh : Keeps kl k0 s) : Keeps kl k0 kt := by
  refine Keeps.step ?_ kh km
  unfold execFirmwareVerified at ke
  cases ke
  repeat' first
    | with_reducible exact Keeps.refl _ _
    | assumption
    | with_reducible refine endStage_keeps (by decide) ?_
    | with_reducible refine takeImage_keeps (by decide) ?_
    | with_reducible refine fallBack_keeps (by decide) ?_
    | with_reducible refine startFail_keeps (by decide) ?_
    | with_reducible refine Keeps.ite ?_ ?_
    | with_reducible refine Keeps.getD ?_ (fun _ _ => ?_)
    | split

theorem loseStore_keeps {kl : List Piece} {k0 s : State} {h : Nat}
    (km : [.boot, .store, .pkg, .lds, .life, .log] ⊆ kl)
    (kh : Keeps kl k0 s) : Keeps kl k0 (loseStore s h) := by
  refine Keeps.step ?_ kh km
  unfold loseStore
  refine event_keeps (by decide) (Keeps.set (Keeps.refl _ s) ?_ (List.prefix_refl _) (Nat.le_refl _) (Nat.le_refl _)
    (Nat.le_refl _) (List.suffix_refl _) (fun x => x) (fun x => x) (fun x => x) (fun x => x) (fun x => x)
    (fun x => ⟨x.mode, nofun, x.storeMode, nofun, x.whole⟩))
  refine Only.intro fun kp khp => ?_; cases kp <;> first | with_reducible exact rfl | exact absurd (by decide) khp

theorem commitOpen_keeps {kl : List Piece} {k0 s : State} {q : BitVec 48} (km : [.pins, .boot, .pkg, .lds, .seats, .extents, .mem, .coh, .fronds, .covs, .tally, .life, .log, .regs, .wire] ⊆ kl)
    (kh : Keeps kl k0 s) : Keeps kl k0 (commitOpen s q) := by
  refine Keeps.step ?_ kh km
  unfold commitOpen
  extract_lets r
  clear_value r
  refine Keeps.set (Keeps.refl _ s) ?_ ?_ (Nat.le_refl _) (Nat.le_refl _) (Nat.le_refl _) (List.suffix_refl _) (fun x => x) ?_ ?_
    (fun x => x) (fun x => x) (fun x => ⟨x.mode, x.bootMode, x.storeMode, x.sel, x.whole⟩)
  · refine Only.intro fun kp khp => ?_; cases kp <;> first | with_reducible exact rfl | exact absurd (by decide) khp
  · dsimp only; split
    · exact List.prefix_append _ _
    · exact List.prefix_refl _
  · intro x; dsimp only; split
    · next hc => simp at hc; simp; omega
    · exact x
  · intro _; dsimp only; rw [List.length_take]; exact Nat.min_le_left _ _

theorem scanLog_keeps {kl : List Piece} {k0 s : State} {hub : Nat} {r : Option (BitVec 48 × Bool)}
    (km : [.pins, .boot, .pkg, .lds, .seats, .extents, .mem, .coh, .fronds, .covs, .tally, .life, .log, .regs, .wire] ⊆ kl) (kh : Keeps kl k0 s) : Keeps kl k0 (scanLog s hub r) := by
  refine Keeps.step ?_ kh km
  have grow : ∀ {t : State} {l : Log}, Keeps [.pins, .boot, .pkg, .lds, .seats, .extents, .mem, .coh, .fronds, .covs, .tally, .life, .log, .regs, .wire] s t → t.log.hist = l.hist → t.log.next ≤ l.next → t.log.circ = l.circ →
      Keeps [.pins, .boot, .pkg, .lds, .seats, .extents, .mem, .coh, .fronds, .covs, .tally, .life, .log, .regs, .wire] s { t with log := l } := by
    intro t l h h1 h2 h3
    refine Keeps.set h ?_ (by rw [h1]) h2 (Nat.le_refl _) (Nat.le_refl _) (List.suffix_refl _) (fun x => x)
      (fun x => by rw [← h1]; exact x) (fun x => by rw [← h3]; exact x) (fun x => x) (fun x => x)
      (fun x => ⟨x.mode, x.bootMode, x.storeMode, x.sel, x.whole⟩)
    refine Only.intro fun kp khp => ?_; cases kp <;> first | with_reducible exact rfl | exact absurd (by decide) khp
  unfold scanLog
  split
  · next q ok =>
    extract_lets new l0 s1 s2 l1 s3
    have h1 : Keeps [.pins, .boot, .pkg, .lds, .seats, .extents, .mem, .coh, .fronds, .covs, .tally, .life, .log, .regs, .wire] s s1 := grow (Keeps.refl _ s) rfl (Nat.le_max_left _ _) rfl
    have h2 : Keeps [.pins, .boot, .pkg, .lds, .seats, .extents, .mem, .coh, .fronds, .covs, .tally, .life, .log, .regs, .wire] s s2 := modLedger_keeps (by decide) h1
    clear_value new s1 s2
    have h3 : Keeps [.pins, .boot, .pkg, .lds, .seats, .extents, .mem, .coh, .fronds, .covs, .tally, .life, .log, .regs, .wire] s s3 := Keeps.ite (grow h2 rfl (Nat.le_refl _) rfl) h2
    clear_value s3
    exact Keeps.ite (Keeps.ite (commitOpen_keeps (by decide) (grow h2 rfl (Nat.le_refl _) rfl)) h2) (event_keeps (by decide) h3)
  · exact Keeps.refl _ _

theorem execMramRecoveryDone_keeps {kl : List Piece} {k0 s kt : State} {hub : BitVec 1} {found : MramFound} (km : [.pins, .fw, .boot, .store, .pkg, .ports, .lds, .seats, .steward, .extents, .mem, .coh, .fronds, .tables, .rings, .searches, .jobs, .disp, .covs, .tally, .life, .log, .regs, .wire] ⊆ kl)
    (ke : execMramRecoveryDone hub found s = .next kt) (kh : Keeps kl k0 s) : Keeps kl k0 kt := by
  refine Keeps.step ?_ kh km
  unfold execMramRecoveryDone at ke
  extract_lets h s1 st s2 s3 at ke
  cases ke
  refine Keeps.ite (Keeps.refl _ _) ?_
  have h1 : Keeps [.pins, .fw, .boot, .store, .pkg, .ports, .lds, .seats, .steward, .extents, .mem, .coh, .fronds, .tables, .rings, .searches, .jobs, .disp, .covs, .tally, .life, .log, .regs, .wire] s s1 := scanLog_keeps (by decide) (Keeps.refl _ _)
  clear_value s1
  have h2 : Keeps [.pins, .fw, .boot, .store, .pkg, .ports, .lds, .seats, .steward, .extents, .mem, .coh, .fronds, .tables, .rings, .searches, .jobs, .disp, .covs, .tally, .life, .log, .regs, .wire] s s2 := by
    refine Keeps.set h1 ?_
    refine Only.intro fun kp khp => ?_; cases kp <;> first | with_reducible exact rfl | exact absurd (by decide) khp
  clear_value s2
  have h3 : Keeps [.pins, .fw, .boot, .store, .pkg, .ports, .lds, .seats, .steward, .extents, .mem, .coh, .fronds, .tables, .rings, .searches, .jobs, .disp, .covs, .tally, .life, .log, .regs, .wire] s s3 := Keeps.ite (loseStore_keeps (by decide) h2) h2
  clear_value s3
  exact endStage_keeps (by decide) h3

theorem execPgFr_keeps {kl : List Piece} {k0 : State} {frondNo : BitVec 3} {s : State} {kt : State} (km : [.pins, .fw, .boot, .store, .pkg, .ports, .lds, .seats, .steward, .extents, .mem, .coh, .fronds, .tables, .rings, .searches, .jobs, .disp, .covs, .tally, .life, .log, .regs, .wire] ⊆ kl) (ke : execPgFr frondNo s = .next kt)
    (kh : Keeps kl k0 s) : Keeps kl k0 kt := by
  refine Keeps.step ?_ kh km
  unfold execPgFr at ke
  cases ke
  repeat' first
    | with_reducible exact Keeps.refl _ _
    | assumption
    | with_reducible refine endStage_keeps (by decide) ?_
    | with_reducible refine Keeps.ite ?_ ?_
    | with_reducible refine Keeps.getD ?_ (fun _ _ => ?_)
    | split
    | dsimp only
    | (with_reducible refine Keeps.put ?_ ?_; rotate_left 1
       · (refine Only.intro fun kp khp => ?_; cases kp <;> first | with_reducible exact rfl | exact absurd (by decide) khp))
    | (with_reducible refine Keeps.set ?_ ?_; rotate_left 1
       · (refine Only.intro fun kp khp => ?_; cases kp <;> first | with_reducible exact rfl | exact absurd (by decide) khp))
    | split

theorem ioNext_keeps {kl : List Piece} {k0 : State} {s : State} {h : Nat} (km : [.pins, .fw, .boot, .store, .pkg, .ports, .lds, .seats, .steward, .extents, .mem, .coh, .fronds, .tables, .rings, .searches, .jobs, .disp, .covs, .tally, .life, .log, .regs, .wire] ⊆ kl)
    (kh : Keeps kl k0 s) : Keeps kl k0 (ioNext s h) := by
  refine Keeps.step ?_ kh km
  unfold ioNext
  repeat' first
    | with_reducible exact Keeps.refl _ _
    | assumption
    | with_reducible refine endStage_keeps (by decide) ?_
    | with_reducible refine raiseIo_keeps (by decide) ?_
    | with_reducible refine Keeps.ite ?_ ?_
    | with_reducible refine Keeps.getD ?_ (fun _ _ => ?_)
    | split

theorem execSelftestDone_keeps {kl : List Piece} {k0 : State} {hub : BitVec 1} {out : SelftestOut} {s : State} {kt : State} (km : [.pins, .fw, .boot, .store, .pkg, .ports, .lds, .seats, .steward, .extents, .mem, .coh, .fronds, .tables, .rings, .searches, .jobs, .disp, .covs, .tally, .life, .log, .regs, .wire] ⊆ kl) (ke : execSelftestDone hub out s = .next kt)
    (kh : Keeps kl k0 s) : Keeps kl k0 kt := by
  refine Keeps.step ?_ kh km
  unfold execSelftestDone at ke
  cases ke
  repeat' first
    | with_reducible exact Keeps.refl _ _
    | assumption
    | with_reducible refine selftestFail_keeps (by decide) ?_
    | with_reducible refine startFault_keeps (by decide) ?_
    | with_reducible refine ioNext_keeps (by decide) ?_
    | with_reducible refine raiseIo_keeps (by decide) ?_
    | with_reducible refine holdOut_keeps (by decide) ?_
    | with_reducible refine Keeps.ite ?_ ?_
    | with_reducible refine Keeps.getD ?_ (fun _ _ => ?_)
    | with_reducible refine Keeps.foldl ?_ (fun _ _ => ?_)
    | with_reducible refine Keeps.foldl1 ?_ (fun _ _ => ?_)
    | split
    | dsimp only
    | split

theorem execPgIo_keeps {kl : List Piece} {k0 : State} {hub : BitVec 1} {s kt : State}
    (km : [.pins, .fw, .boot, .store, .pkg, .ports, .lds, .seats, .steward, .extents, .mem, .coh, .fronds, .tables, .rings, .searches, .jobs, .disp, .covs, .tally, .life, .log, .regs, .wire] ⊆ kl) (ke : execPgIo hub s = .next kt)
    (kh : Keeps kl k0 s) : Keeps kl k0 kt := by
  refine Keeps.step ?_ kh km
  unfold execPgIo at ke
  cases ke
  repeat' first
    | with_reducible exact Keeps.refl _ _
    | assumption
    | with_reducible refine endStage_keeps (by decide) ?_
    | with_reducible refine Keeps.ite ?_ ?_
    | with_reducible refine Keeps.getD ?_ (fun _ _ => ?_)
    | split
    | dsimp only
    | (with_reducible refine Keeps.put ?_ ?_; rotate_left 1
       · (refine Only.intro fun kp khp => ?_; cases kp <;> first | with_reducible exact rfl | exact absurd (by decide) khp))

theorem badPan_keeps {kl : List Piece} {k0 s : State} {x : BitVec 12 × Word}
    (km : [.boot, .pkg, .lds, .fronds, .life, .log] ⊆ kl)
    (kh : Keeps kl k0 s) : Keeps kl k0 (badPan s x) := by
  refine Keeps.step ?_ kh km
  unfold badPan
  repeat' first
    | with_reducible exact Keeps.refl _ _
    | assumption
    | with_reducible refine event_keeps (by decide) ?_
    | with_reducible refine modArr_keeps (by decide) ?_

theorem execArrayFillDone_keeps {kl : List Piece} {k0 : State} {hub : BitVec 1} {out : FillOut} {s kt : State}
    (km : [.pins, .fw, .boot, .store, .pkg, .ports, .lds, .seats, .steward, .extents, .mem, .coh, .fronds, .tables, .rings, .searches, .jobs, .disp, .covs, .tally, .life, .log, .regs, .wire] ⊆ kl) (ke : execArrayFillDone hub out s = .next kt)
    (kh : Keeps kl k0 s) : Keeps kl k0 kt := by
  refine Keeps.step ?_ kh km
  unfold execArrayFillDone at ke
  cases ke
  repeat' first
    | with_reducible exact Keeps.refl _ _
    | assumption
    | with_reducible refine modFrond_keeps (by decide) ?_
    | with_reducible refine darkTags_keeps (by decide) ?_
    | with_reducible refine badPan_keeps (by decide) ?_
    | with_reducible refine endStage_keeps (by decide) ?_
    | with_reducible refine frondFail_keeps (by decide) ?_
    | with_reducible refine Keeps.ite ?_ ?_
    | with_reducible refine Keeps.foldl ?_ (fun _ _ => ?_)
    | with_reducible refine Keeps.foldl1 ?_ (fun _ _ => ?_)
    | split

theorem execDramTrainingDone_keeps {kl : List Piece} {k0 : State} {hub : BitVec 1} {pop : DramPop} {s kt : State}
    (km : [.pins, .fw, .boot, .store, .pkg, .ports, .lds, .seats, .steward, .extents, .mem, .coh, .fronds, .tables, .rings, .searches, .jobs, .disp, .covs, .tally, .life, .log, .regs, .wire] ⊆ kl) (ke : execDramTrainingDone hub pop s = .next kt)
    (kh : Keeps kl k0 s) : Keeps kl k0 kt := by
  refine Keeps.step ?_ kh km
  unfold execDramTrainingDone at ke
  cases ke
  repeat' first
    | with_reducible exact Keeps.refl _ _
    | assumption
    | with_reducible refine modMem_keeps (by decide) (fun x => x) ?_
    | with_reducible refine modMem_keeps (by decide) (fun x => filter_wf x) ?_
    | with_reducible refine endStage_keeps (by decide) ?_
    | with_reducible refine startFail_keeps (by decide) ?_
    | with_reducible refine Keeps.ite ?_ ?_
    | split
    | dsimp only
    | (with_reducible refine Keeps.put ?_ ?_; rotate_left 1
       · (refine Only.intro fun kp khp => ?_; cases kp <;> first | with_reducible exact rfl | exact absurd (by decide) khp))

theorem execDramFillDone_keeps {kl : List Piece} {k0 : State} {hub : BitVec 1} {startMs : BitVec 32} {s kt : State}
    (km : [.pins, .fw, .boot, .store, .pkg, .ports, .lds, .seats, .steward, .extents, .mem, .coh, .fronds, .tables, .rings, .searches, .jobs, .disp, .covs, .tally, .life, .log, .regs, .wire] ⊆ kl) (ke : execDramFillDone hub startMs s = .next kt)
    (kh : Keeps kl k0 s) : Keeps kl k0 kt := by
  refine Keeps.step ?_ kh km
  unfold execDramFillDone at ke
  cases ke
  repeat' first
    | with_reducible exact Keeps.refl _ _
    | assumption
    | with_reducible refine endStageMs_keeps (by decide) ?_
    | with_reducible refine Keeps.ite ?_ ?_

theorem execStageLimitExpire_keeps {kl : List Piece} {k0 : State} {die : BitVec 3} {s : State} {kt : State} (km : [.pins, .fw, .boot, .store, .pkg, .ports, .lds, .seats, .steward, .extents, .mem, .coh, .fronds, .tables, .rings, .searches, .jobs, .disp, .covs, .tally, .life, .log, .regs, .wire] ⊆ kl) (ke : execStageLimitExpire die s = .next kt)
    (kh : Keeps kl k0 s) : Keeps kl k0 kt := by
  refine Keeps.step ?_ kh km
  unfold execStageLimitExpire at ke
  cases ke
  repeat' first
    | with_reducible exact Keeps.refl _ _
    | assumption
    | with_reducible refine startFail_keeps (by decide) ?_
    | with_reducible refine fatalEvent_keeps (by decide) ?_
    | with_reducible refine halfOut_keeps (by decide) ?_
    | with_reducible refine startStop_keeps (by decide) ?_
    | with_reducible refine frondFail_keeps (by decide) ?_
    | with_reducible refine endStage_keeps (by decide) ?_
    | with_reducible refine Keeps.ite ?_ ?_
    | with_reducible refine Keeps.getD ?_ (fun _ _ => ?_)
    | split
    | dsimp only
    | split

theorem execFwWatchdog_keeps {kl : List Piece} {k0 : State} {hub : BitVec 1} {s kt : State}
    (km : [.pins, .fw, .boot, .store, .pkg, .ports, .lds, .seats, .extents, .mem, .coh, .fronds, .life, .log, .regs, .wire] ⊆ kl) (ke : execFwWatchdog hub s = .next kt)
    (kh : Keeps kl k0 s) : Keeps kl k0 kt := by
  refine Keeps.step ?_ kh km
  unfold execFwWatchdog at ke
  cases ke
  repeat' first
    | with_reducible exact Keeps.refl _ _
    | assumption
    | with_reducible refine fallBack_keeps (by decide) ?_
    | with_reducible refine Keeps.ite ?_ ?_
    | split

theorem linkStart_keeps {kl : List Piece} {k0 : State} {s : State} {k : Nat} (km : [.pins, .fw, .boot, .store, .pkg, .ports, .lds, .seats, .steward, .extents, .mem, .coh, .fronds, .tables, .rings, .searches, .jobs, .disp, .covs, .tally, .life, .log, .regs, .wire] ⊆ kl)
    (kh : Keeps kl k0 s) : Keeps kl k0 (linkStart s k) := by
  refine Keeps.step ?_ kh km
  unfold linkStart
  repeat' first
    | with_reducible exact Keeps.refl _ _
    | assumption
    | with_reducible refine startHalfOut_keeps (by decide) ?_
    | with_reducible refine Keeps.ite ?_ ?_
    | split
    | dsimp only
    | (with_reducible refine Keeps.put ?_ ?_; rotate_left 1
       · (refine Only.intro fun kp khp => ?_; cases kp <;> first | with_reducible exact rfl | exact absurd (by decide) khp))
    | (with_reducible refine Keeps.set ?_ ?_; rotate_left 1
       · (refine Only.intro fun kp khp => ?_; cases kp <;> first | with_reducible exact rfl | exact absurd (by decide) khp))
    | split

theorem execLinkDown_keeps {kl : List Piece} {k0 : State} {l : BitVec 8} {s : State} {kt : State} (km : [.pins, .fw, .boot, .store, .pkg, .ports, .lds, .seats, .steward, .extents, .mem, .coh, .fronds, .tables, .rings, .searches, .jobs, .disp, .covs, .tally, .life, .log, .regs, .wire] ⊆ kl) (ke : execLinkDown l s = .next kt)
    (kh : Keeps kl k0 s) : Keeps kl k0 kt := by
  refine Keeps.step ?_ kh km
  unfold execLinkDown at ke
  cases ke
  repeat' first
    | with_reducible exact Keeps.refl _ _
    | assumption
    | with_reducible refine event_keeps (by decide) ?_
    | with_reducible refine linkEffect_keeps (by decide) ?_
    | with_reducible refine linkStart_keeps (by decide) ?_
    | with_reducible refine Keeps.ite ?_ ?_
    | split
    | dsimp only
    | (with_reducible refine Keeps.put ?_ ?_; rotate_left 1
       · (refine Only.intro fun kp khp => ?_; cases kp <;> first | with_reducible exact rfl | exact absurd (by decide) khp))
    | (with_reducible refine Keeps.set ?_ ?_; rotate_left 1
       · (refine Only.intro fun kp khp => ?_; cases kp <;> first | with_reducible exact rfl | exact absurd (by decide) khp))
    | split

theorem execPgFall_keeps {kl : List Piece} {k0 : State} {input : BitVec 4} {s : State} {kt : State} (km : [.pins, .boot, .pkg, .lds, .mem, .coh, .fronds, .tally, .life, .log, .regs, .freeCtr] ⊆ kl) (ke : execPgFall input s = .next kt)
    (kh : Keeps kl k0 s) : Keeps kl k0 kt := by
  refine Keeps.step ?_ kh km
  unfold execPgFall at ke
  cases ke
  repeat' first
    | with_reducible exact Keeps.refl _ _
    | assumption
    | with_reducible refine modLedger_keeps (by decide) ?_
    | with_reducible refine fresh_keeps (by decide) ?_
    | with_reducible refine event_keeps (by decide) ?_
    | with_reducible refine emptyCache_keeps (by decide) ?_
    | with_reducible refine refuseSleep_keeps (by decide) ?_
    | with_reducible refine modFrond_keeps (by decide) ?_
    | with_reducible refine Keeps.ite ?_ ?_
    | with_reducible refine Keeps.getD ?_ (fun _ _ => ?_)
    | split
    | dsimp only
    | (with_reducible refine Keeps.put ?_ ?_; rotate_left 1
       · (refine Only.intro fun kp khp => ?_; cases kp <;> first | with_reducible exact rfl | exact absurd (by decide) khp))
    | (with_reducible refine Keeps.set ?_ ?_; rotate_left 1
       · (refine Only.intro fun kp khp => ?_; cases kp <;> first | with_reducible exact rfl | exact absurd (by decide) khp))
    | split

theorem execHostPerst_keeps {kl : List Piece} {k0 : State} {port : BitVec 3} {level : Bool} {s kt : State}
    (km : [.pins, .boot, .pkg, .ports, .lds, .seats, .extents, .mem, .coh, .fronds, .rings, .covs, .tally, .life, .log, .regs, .wire] ⊆ kl) (ke : execHostPerst port level s = .next kt)
    (kh : Keeps kl k0 s) : Keeps kl k0 kt := by
  refine Keeps.step ?_ kh km
  unfold execHostPerst at ke
  cases ke
  repeat' first
    | with_reducible exact Keeps.refl _ _
    | assumption
    | with_reducible refine linkLoss_keeps (by decide) ?_
    | with_reducible refine Keeps.ite ?_ ?_
    | with_reducible refine Keeps.foldl ?_ (fun _ _ => ?_)
    | with_reducible refine Keeps.foldl1 ?_ (fun _ _ => ?_)
    | split
    | dsimp only
    | (with_reducible refine Keeps.put ?_ ?_; rotate_left 1
       · (refine Only.intro fun kp khp => ?_; cases kp <;> first | with_reducible exact rfl | exact absurd (by decide) khp))

theorem execThermTrip_keeps {kl : List Piece} {k0 : State} {die : BitVec 3} {tj : Word} {s kt : State}
    (km : [.pins, .jtag, .fw, .boot, .store, .pkg, .clock, .ports, .lds, .mctp, .seats, .steward, .extents, .keys, .mem, .coh, .fronds, .tables, .rings, .searches, .jobs, .nextId, .disp, .covs, .tally, .life, .log, .harvest, .regs, .wire, .freeCtr] ⊆ kl) (ke : execThermTrip die tj s = .next kt)
    (kh : Keeps kl k0 s) : Keeps kl k0 kt := by
  refine Keeps.step ?_ kh km
  unfold execThermTrip at ke
  cases ke
  repeat' first
    | with_reducible exact Keeps.refl _ _
    | assumption
    | with_reducible refine flushEarly_keeps (by decide) ?_
    | with_reducible refine modTally_keeps (by decide) ?_
    | with_reducible refine modLedger_keeps (by decide) ?_
    | with_reducible refine raiseFull_keeps (by decide) ?_
    | with_reducible refine offHold_keeps (by decide) ?_
    | with_reducible refine ledgerWrite_keeps (by decide) ?_
    | with_reducible refine assertFault_keeps (by decide) ?_
    | with_reducible refine Keeps.ite ?_ ?_
    | split
    | dsimp only
    | (with_reducible refine Keeps.set ?_ ?_ ?_ ?_ ?_ ?_ ?_ ?_ ?_ ?_ ?_ ?_ ?_; rotate_left 1
       · (refine Only.intro fun kp khp => ?_; cases kp <;> first | with_reducible exact rfl | exact absurd (by decide) khp)
       · with_reducible exact List.prefix_refl _
       · with_reducible exact Nat.le_refl _
       · with_reducible exact Nat.le_refl _
       · with_reducible exact Nat.le_refl _
       · with_reducible exact List.suffix_refl _
       · with_reducible exact fun x => x
       · with_reducible exact fun x => x
       · with_reducible exact fun x => x
       · with_reducible exact fun x => x
       · with_reducible exact fun x => x
       · with_reducible exact fun x => ⟨x.mode, x.bootMode, x.storeMode, x.sel, x.whole⟩)

theorem execClkRefLost_keeps {kl : List Piece} {k0 s kt : State}
    (km : [.pins, .boot, .pkg, .clock, .lds, .life, .log] ⊆ kl) (ke : execClkRefLost s = .next kt)
    (kh : Keeps kl k0 s) : Keeps kl k0 kt := by
  refine Keeps.step ?_ kh km
  unfold execClkRefLost at ke
  cases ke
  repeat' first
    | with_reducible exact Keeps.refl _ _
    | assumption
    | with_reducible refine flushEarly_keeps (by decide) ?_
    | with_reducible refine assertFault_keeps (by decide) ?_
    | with_reducible refine raiseFull_keeps (by decide) ?_
    | with_reducible refine startStop_keeps (by decide) ?_
    | with_reducible refine Keeps.ite ?_ ?_
    | split
    | dsimp only
    | (with_reducible refine Keeps.set ?_ ?_ ?_ ?_ ?_ ?_ ?_ ?_ ?_ ?_ ?_ ?_ ?_; rotate_left 1
       · (refine Only.intro fun kp khp => ?_; cases kp <;> first | with_reducible exact rfl | exact absurd (by decide) khp)
       · with_reducible exact List.prefix_refl _
       · with_reducible exact Nat.le_refl _
       · with_reducible exact Nat.le_refl _
       · with_reducible exact Nat.le_refl _
       · with_reducible exact List.suffix_refl _
       · with_reducible exact fun x => x
       · with_reducible exact fun x => x
       · with_reducible exact fun x => x
       · with_reducible exact fun x => x
       · with_reducible exact fun x => x
       · with_reducible exact fun x => ⟨x.mode, x.bootMode, x.storeMode, x.sel, x.whole⟩)

theorem execDramChannelLost_keeps {kl : List Piece} {k0 : State} {hub : BitVec 1} {channel : BitVec 3} {s : State} {kt : State} (km : [.pins, .fw, .boot, .store, .pkg, .ports, .lds, .seats, .steward, .extents, .mem, .coh, .fronds, .tables, .rings, .searches, .jobs, .disp, .covs, .tally, .life, .log, .harvest, .regs, .wire, .freeCtr] ⊆ kl) (ke : execDramChannelLost hub channel s = .next kt)
    (kh : Keeps kl k0 s) : Keeps kl k0 kt := by
  refine Keeps.step ?_ kh km
  unfold execDramChannelLost at ke
  cases ke
  repeat' first
    | with_reducible exact Keeps.refl _ _
    | assumption
    | with_reducible refine harvestCause_keeps (by decide) ?_
    | with_reducible refine startFault_keeps (by decide) ?_
    | with_reducible refine fatalEvent_keeps (by decide) ?_
    | with_reducible refine Keeps.ite ?_ ?_
    | split
    | dsimp only
    | split

theorem quiesce_keeps {kl : List Piece} {k0 : State} {s : State} (km : [.pins, .boot, .pkg, .lds, .seats, .extents, .mem, .coh, .fronds, .tables, .rings, .searches, .jobs, .disp, .covs, .tally, .life, .log, .regs, .wire] ⊆ kl)
    (kh : Keeps kl k0 s) : Keeps kl k0 (quiesce s) := by
  refine Keeps.step ?_ kh km
  unfold quiesce
  repeat' first
    | with_reducible exact Keeps.refl _ _
    | assumption
    | with_reducible refine runOut_keeps (by decide) ?_
    | with_reducible refine moveOver_keeps (by decide) ?_
    | with_reducible refine jobOver_keeps (by decide) ?_
    | with_reducible refine flushAll_keeps (by decide) ?_
    | with_reducible refine Keeps.ite ?_ ?_
    | with_reducible refine Keeps.foldl ?_ (fun _ _ => ?_)
    | with_reducible refine Keeps.foldl1 ?_ (fun _ _ => ?_)
    | (with_reducible refine Keeps.put ?_ ?_; rotate_left 1
       · (refine Only.intro fun kp khp => ?_; cases kp <;> first | with_reducible exact rfl | exact absurd (by decide) khp))
    | (with_reducible refine Keeps.set ?_ ?_; rotate_left 1
       · (refine Only.intro fun kp khp => ?_; cases kp <;> first | with_reducible exact rfl | exact absurd (by decide) khp))
    | split

theorem orderlyDown_keeps {kl : List Piece} {k0 s : State}
    (km : [.pins, .jtag, .fw, .boot, .store, .pkg, .clock, .ports, .lds, .mctp, .seats, .steward, .extents, .keys, .mem, .coh, .fronds, .tables, .rings, .searches, .jobs, .nextId, .disp, .covs, .tally, .life, .log, .harvest, .regs, .wire, .freeCtr] ⊆ kl)
    (kh : Keeps kl k0 s) : Keeps kl k0 (orderlyDown s) := by
  refine Keeps.step ?_ kh km
  unfold orderlyDown
  repeat' first
    | with_reducible exact Keeps.refl _ _
    | assumption
    | with_reducible refine quiesce_keeps (by decide) ?_
    | with_reducible refine flushEarly_keeps (by decide) ?_
    | with_reducible refine event_keeps (by decide) ?_
    | with_reducible refine offHold_keeps (by decide) ?_
    | with_reducible refine ledgerWrite_keeps (by decide) ?_

theorem reinitWrite_keeps {kl : List Piece} {k0 s : State} {w : Word32}
    (km : [.pins, .jtag, .fw, .boot, .store, .pkg, .clock, .ports, .lds, .mctp, .seats, .steward, .extents, .keys, .mem, .coh, .fronds, .tables, .rings, .searches, .jobs, .nextId, .disp, .covs, .tally, .life, .log, .harvest, .regs, .wire, .freeCtr] ⊆ kl)
    (kh : Keeps kl k0 s) : Keeps kl k0 (reinitWrite s w) := by
  refine Keeps.step ?_ kh km
  unfold reinitWrite
  repeat' first
    | with_reducible exact Keeps.refl _ _
    | assumption
    | with_reducible refine guardStore_keeps (by decide) ?_
    | refine Keeps.fst ‹_ = (_, _)› (guardStore_keeps (by decide) ?_)
    | with_reducible refine setReg_keeps (by decide) ?_
    | with_reducible refine beginStart_keeps (by decide) ?_
    | with_reducible refine orderlyDown_keeps (by decide) ?_
    | with_reducible refine Keeps.ite ?_ ?_

theorem execPkgReinit_keeps {kl : List Piece} {k0 : State} {p : Place} {w : Word32} {s kt : State}
    (km : [.pins, .jtag, .fw, .boot, .store, .pkg, .clock, .ports, .lds, .mctp, .seats, .steward, .extents, .keys, .mem, .coh, .fronds, .tables, .rings, .searches, .jobs, .nextId, .disp, .covs, .tally, .life, .log, .harvest, .regs, .wire, .freeCtr] ⊆ kl) (ke : execPkgReinit p w s = .next kt)
    (kh : Keeps kl k0 s) : Keeps kl k0 kt := by
  refine Keeps.step ?_ kh km
  unfold execPkgReinit at ke
  cases ke
  repeat' first
    | with_reducible exact Keeps.refl _ _
    | assumption
    | with_reducible refine onGuard_keeps (by decide) (fun _ _ _ => ?_) ?_
    | with_reducible refine reinitWrite_keeps (by decide) ?_

theorem emergencyDown_keeps {kl : List Piece} {k0 s : State} {source : Nat}
    (km : [.pins, .jtag, .fw, .boot, .store, .pkg, .clock, .ports, .lds, .mctp, .seats, .steward, .extents, .keys, .mem, .coh, .fronds, .tables, .rings, .searches, .jobs, .nextId, .disp, .covs, .tally, .life, .log, .harvest, .regs, .wire, .freeCtr] ⊆ kl)
    (kh : Keeps kl k0 s) : Keeps kl k0 (emergencyDown s source) := by
  refine Keeps.step ?_ kh km
  unfold emergencyDown
  repeat' first
    | with_reducible exact Keeps.refl _ _
    | assumption
    | with_reducible refine offHold_keeps (by decide) ?_
    | with_reducible refine assertFault_keeps (by decide) ?_
    | with_reducible refine event_keeps (by decide) ?_
    | with_reducible refine flushEarly_keeps (by decide) ?_

theorem execEpdN_keeps {kl : List Piece} {k0 s kt : State}
    (km : [.pins, .jtag, .fw, .boot, .store, .pkg, .clock, .ports, .lds, .mctp, .seats, .steward, .extents, .keys, .mem, .coh, .fronds, .tables, .rings, .searches, .jobs, .nextId, .disp, .covs, .tally, .life, .log, .harvest, .regs, .wire, .freeCtr] ⊆ kl) (ke : execEpdN s = .next kt)
    (kh : Keeps kl k0 s) : Keeps kl k0 kt := by
  refine Keeps.step ?_ kh km
  unfold execEpdN at ke
  cases ke
  repeat' first
    | with_reducible exact Keeps.refl _ _
    | assumption
    | with_reducible refine emergencyDown_keeps (by decide) ?_
    | with_reducible refine Keeps.ite ?_ ?_

end Sys2Proof.Machine
end

