-- ==== Sys2Proof/Laws/Registers.lean ====
section
/-!
SUPPORT. What the operations of Machine/Registers.lean keep.
-/
set_option linter.unusedTactic false
set_option linter.unreachableTactic false
namespace Sys2Proof.Machine

theorem clearRc_keeps {kl : List Piece} {k0 s : State} {pg : PageId} {off : Nat} {r : RegSpec}
    (km : [.tally, .regs] ⊆ kl)
    (kh : Keeps kl k0 s) : Keeps kl k0 (clearRc s pg off r) := by
  refine Keeps.step ?_ kh km
  unfold clearRc
  repeat' first
    | with_reducible exact Keeps.refl _ _
    | assumption
    | with_reducible refine modTally_keeps (by decide) ?_
    | with_reducible refine setReg_keeps (by decide) ?_
    | with_reducible refine Keeps.ite ?_ ?_

theorem readSlot_keeps {kl : List Piece} {k0 s : State} {p : Place} {pg : PageId} {off : Nat} {full : Bool}
    {x : Slot} (km : [.tally, .regs] ⊆ kl) (kh : Keeps kl k0 s) : Keeps kl k0 (readSlot s p pg off full x).1 := by
  have hc : ∀ {t r}, Keeps kl k0 t → Keeps kl k0 (clearRc t pg off r) := fun h =>
    clearRc_keeps (List.Subset.trans (by decide) km) h
  cases x with
  | plain r =>
    unfold readSlot
    dsimp only
    split
    · exact Keeps.ite (hc kh) kh
    · split
      · have h := modRegs_keeps (f := fun g => { g with
          latch := mput g.latch (ldKey p (pg.base + off - 4 * r.idx)) (BitVec.ofNat 48 (wideValue s pg off r.words / 2 ^ 16)) })
          (List.Subset.trans (by decide) km) kh
        exact Keeps.ite (hc h) h
      · split <;> exact kh
  | staged r => exact kh
  | guarded g => exact kh
  | complement g => exact kh
  | hole => exact kh

theorem winRead_keeps {kl : List Piece} {k0 s : State} {p : Place} {off : Nat}
    (km : [.regs] ⊆ kl)
    (kh : Keeps kl k0 s) : Keeps kl k0 (winRead s p off).1 := by
  refine Keeps.step ?_ kh km
  unfold winRead
  repeat' first
    | with_reducible exact Keeps.refl _ _
    | assumption
    | with_reducible refine modRegs_keeps (by decide) ?_
    | with_reducible refine Keeps.ite ?_ ?_
    | split
    | dsimp only

theorem winSearch_keeps {kl : List Piece} {k0 : State} {s : State} {seat : Nat} {tb : Nat} (km : [.pins, .seats, .fronds, .searches, .nextId, .tally, .regs, .wire] ⊆ kl)
    (kh : Keeps kl k0 s) : Keeps kl k0 (winSearch s seat tb) := by
  refine Keeps.step ?_ kh km
  unfold winSearch
  repeat' first
    | with_reducible exact Keeps.refl _ _
    | assumption
    | with_reducible refine winStatus_keeps (by decide) ?_
    | refine needFronds_keeps (by decide) ‹_ = some _› ?_
    | with_reducible refine launch_keeps (by decide) ?_
    | refine Keeps.fst ‹_ = (_, _)› (launch_keeps (by decide) ?_)
    | with_reducible refine modRegs_keeps (by decide) ?_
    | with_reducible refine Keeps.ite ?_ ?_
    | with_reducible refine Keeps.getD ?_ (fun _ _ => ?_)
    | split
    | dsimp only
    | (with_reducible refine Keeps.put ?_ ?_; rotate_left 1
       · (refine Only.intro fun kp khp => ?_; cases kp <;> first | with_reducible exact rfl | exact absurd (by decide) khp))
    | (with_reducible refine Keeps.set ?_ ?_; rotate_left 1
       · (refine Only.intro fun kp khp => ?_; cases kp <;> first | with_reducible exact rfl | exact absurd (by decide) khp))
    | split

theorem winPay_keeps {kl : List Piece} {k0 s : State} {seat : Nat} {dies : List Nat} {writes valids : Nat}
    {work : State → Except (BitVec 8) (State × Nat × Nat)} (km : [.pins, .seats, .fronds, .tally, .regs, .wire] ⊆ kl)
    (kf : ∀ t t' w v, Keeps kl k0 t → work t = .ok (t', w, v) → Keeps kl k0 t') (kh : Keeps kl k0 s) :
    Keeps kl k0 (winPay s seat dies writes valids work) := by
  have hw : ∀ t a b, Keeps kl k0 t → Keeps kl k0 (winStatus t a b) := fun t a b h =>
    winStatus_keeps (List.Subset.trans (by decide) km) h
  have hs : ∀ t a b c d, Keeps kl k0 t → Keeps kl k0 (settle t a b c d) := fun t a b c d h =>
    settle_keeps (List.Subset.trans (by decide) km) h
  unfold winPay
  refine Keeps.ite ?_ ?_
  · exact Keeps.foldl kh fun u x => wakeDie_keeps (List.Subset.trans (by decide) km) (Keeps.refl _ _)
  · split
    · exact hw _ _ _ (countRefused_keeps (List.Subset.trans (by decide) km) kh)
    · next t g e =>
      extract_lets u
      have hu : Keeps kl k0 u := bookOp_keeps (List.Subset.trans (by decide) km)
        (admitWork_keeps (List.Subset.trans (by decide) km) e kh)
      clear_value u
      refine Keeps.ite (hw _ _ _ (hs _ _ _ _ _ hu)) ?_
      split
      · next e2 => exact hw _ _ _ (hs _ _ _ _ _ (bookArray_keeps (List.Subset.trans (by decide) km) (kf _ _ _ _ hu e2)))
      · exact hw _ _ _ (hs _ _ _ _ _ hu)

theorem winEntryCmd_keeps {kl : List Piece} {k0 s : State} {seat tb : Nat} {changes : Bool}
    {writes valids : Nat} {work : Table → Nat → Nat → State → Except (BitVec 8) (State × Nat × Nat)}
    (km : [.pins, .seats, .fronds, .tally, .regs, .wire] ⊆ kl)
    (kf : ∀ tbl die row t t' w v, Keeps kl k0 t → work tbl die row t = .ok (t', w, v) → Keeps kl k0 t')
    (kh : Keeps kl k0 s) : Keeps kl k0 (winEntryCmd s seat tb changes writes valids work) := by
  have hw : ∀ t a b, Keeps kl k0 t → Keeps kl k0 (winStatus t a b) := fun t a b h =>
    winStatus_keeps (List.Subset.trans (by decide) km) h
  unfold winEntryCmd
  refine Keeps.ite (hw _ _ _ kh) (Keeps.ite (hw _ _ _ kh) ?_)
  split
  · exact hw _ _ _ kh
  · split
    · exact hw _ _ _ kh
    · refine Keeps.ite kh (Keeps.ite kh (winPay_keeps (List.Subset.trans (by decide) km) ?_ kh))
      intro x x' w v hx hk
      split at hk
      · cases hk
      · exact kf _ _ _ _ _ _ _ hx hk

theorem winWriteSlice_keeps {kl : List Piece} {k0 : State} {s : State} {seat : Nat} {tb : Nat} (km : [.pins, .boot, .pkg, .lds, .seats, .fronds, .tally, .life, .log, .regs, .wire] ⊆ kl)
    (kh : Keeps kl k0 s) : Keeps kl k0 (winWriteSlice s seat tb) := by
  refine Keeps.step ?_ kh km
  unfold winWriteSlice
  repeat' first
    | with_reducible exact Keeps.refl _ _
    | assumption
    | split at kw
    | (dsimp only at kw; split at kw)
    | cases kw
    | with_reducible refine winEntryCmd_keeps (by decide) (fun _ _ _ _ _ _ _ _ kw => ?_) ?_
    | with_reducible refine repairNow_keeps (by decide) ?_
    | with_reducible refine onCopies_keeps (by decide) (fun _ _ _ => ?_) ?_
    | with_reducible refine writeRow_keeps (by decide) ?_
    | with_reducible refine Keeps.ite ?_ ?_
    | with_reducible refine Keeps.foldl ?_ (fun _ _ => ?_)
    | with_reducible refine Keeps.foldl1 ?_ (fun _ _ => ?_)
    | split

theorem winReadSlice_keeps {kl : List Piece} {k0 s : State} {seat tb : Nat}
    (km : [.pins, .boot, .pkg, .lds, .seats, .fronds, .tally, .life, .log, .regs, .wire] ⊆ kl)
    (kh : Keeps kl k0 s) : Keeps kl k0 (winReadSlice s seat tb) := by
  refine Keeps.step ?_ kh km
  unfold winReadSlice
  repeat' first
    | with_reducible exact Keeps.refl _ _
    | assumption
    | split at kw
    | (dsimp only at kw; split at kw)
    | cases kw
    | with_reducible refine winEntryCmd_keeps (by decide) (fun _ _ _ _ _ _ _ _ kw => ?_) ?_
    | with_reducible refine rebuildRecord_keeps (by decide) ?_
    | with_reducible refine setReg_keeps (by decide) ?_

theorem winValidate_keeps {kl : List Piece} {k0 s : State} {seat tb : Nat}
    (km : [.pins, .boot, .pkg, .lds, .seats, .fronds, .tally, .life, .log, .regs, .wire] ⊆ kl)
    (kh : Keeps kl k0 s) : Keeps kl k0 (winValidate s seat tb) := by
  refine Keeps.step ?_ kh km
  unfold winValidate
  repeat' first
    | with_reducible exact Keeps.refl _ _
    | assumption
    | split at kw
    | (dsimp only at kw; split at kw)
    | cases kw
    | with_reducible refine winEntryCmd_keeps (by decide) (fun _ _ _ _ _ _ _ _ kw => ?_) ?_
    | with_reducible refine repairNow_keeps (by decide) ?_
    | refine validateStep_keeps (by decide) ‹_ = Except.ok _› ?_
    | with_reducible refine Keeps.foldl ?_ (fun _ _ => ?_)

theorem winInvalidate_keeps {kl : List Piece} {k0 s : State} {seat tb : Nat}
    (km : [.pins, .boot, .pkg, .lds, .seats, .fronds, .tally, .life, .log, .regs, .wire] ⊆ kl)
    (kh : Keeps kl k0 s) : Keeps kl k0 (winInvalidate s seat tb) := by
  refine Keeps.step ?_ kh km
  unfold winInvalidate
  repeat' first
    | with_reducible exact Keeps.refl _ _
    | assumption
    | split at kw
    | (dsimp only at kw; split at kw)
    | cases kw
    | with_reducible refine winEntryCmd_keeps (by decide) (fun _ _ _ _ _ _ _ _ kw => ?_) ?_
    | with_reducible refine repairNow_keeps (by decide) ?_
    | with_reducible refine onCopies_keeps (by decide) (fun _ _ _ => ?_) ?_
    | with_reducible refine invalidateEntry_keeps (by decide) ?_
    | with_reducible refine Keeps.ite ?_ ?_
    | with_reducible refine Keeps.foldl ?_ (fun _ _ => ?_)

theorem winRun_keeps {kl : List Piece} {k0 : State} {s : State} {c : WinCmd} (km : [.pins, .boot, .pkg, .lds, .seats, .fronds, .searches, .nextId, .tally, .life, .log, .regs, .wire] ⊆ kl)
    (kh : Keeps kl k0 s) : Keeps kl k0 (winRun s c) := by
  refine Keeps.step ?_ kh km
  unfold winRun
  repeat' first
    | with_reducible exact Keeps.refl _ _
    | assumption
    | with_reducible refine winSearch_keeps (by decide) ?_
    | with_reducible refine winWriteSlice_keeps (by decide) ?_
    | with_reducible refine winReadSlice_keeps (by decide) ?_
    | with_reducible refine winValidate_keeps (by decide) ?_
    | with_reducible refine winInvalidate_keeps (by decide) ?_
    | split
    | dsimp only
    | (with_reducible refine Keeps.put ?_ ?_; rotate_left 1
       · (refine Only.intro fun kp khp => ?_; cases kp <;> first | with_reducible exact rfl | exact absurd (by decide) khp))
    | (with_reducible refine Keeps.set ?_ ?_; rotate_left 1
       · (refine Only.intro fun kp khp => ?_; cases kp <;> first | with_reducible exact rfl | exact absurd (by decide) khp))
    | split

theorem winCmd_keeps {kl : List Piece} {k0 : State} {s : State} {seat : Nat} {w : Word32} (km : [.pins, .boot, .pkg, .lds, .seats, .fronds, .searches, .nextId, .tally, .life, .log, .regs, .wire] ⊆ kl)
    (kh : Keeps kl k0 s) : Keeps kl k0 (winCmd s seat w) := by
  refine Keeps.step ?_ kh km
  unfold winCmd
  repeat' first
    | with_reducible exact Keeps.refl _ _
    | assumption
    | with_reducible refine winRun_keeps (by decide) ?_
    | with_reducible refine modRegs_keeps (by decide) ?_
    | with_reducible refine wakeHub_keeps (by decide) ?_
    | with_reducible refine Keeps.ite ?_ ?_
    | (with_reducible refine Keeps.put ?_ ?_; rotate_left 1
       · (refine Only.intro fun kp khp => ?_; cases kp <;> first | with_reducible exact rfl | exact absurd (by decide) khp))
    | (with_reducible refine Keeps.set ?_ ?_; rotate_left 1
       · (refine Only.intro fun kp khp => ?_; cases kp <;> first | with_reducible exact rfl | exact absurd (by decide) khp))
    | split

theorem winRetry_keeps {kl : List Piece} {k0 : State} {s : State} (km : [.pins, .boot, .pkg, .lds, .seats, .fronds, .searches, .nextId, .tally, .life, .log, .regs, .wire] ⊆ kl)
    (kh : Keeps kl k0 s) : Keeps kl k0 (winRetry s) := by
  refine Keeps.step ?_ kh km
  unfold winRetry
  repeat' first
    | with_reducible exact Keeps.refl _ _
    | assumption
    | with_reducible refine winRun_keeps (by decide) ?_
    | split
    | dsimp only
    | (with_reducible refine Keeps.put ?_ ?_; rotate_left 1
       · (refine Only.intro fun kp khp => ?_; cases kp <;> first | with_reducible exact rfl | exact absurd (by decide) khp))
    | (with_reducible refine Keeps.set ?_ ?_; rotate_left 1
       · (refine Only.intro fun kp khp => ?_; cases kp <;> first | with_reducible exact rfl | exact absurd (by decide) khp))
    | split

theorem winWrite_keeps {kl : List Piece} {k0 s : State} {p : Place} {seat off : Nat} {w : Word32}
    (km : [.pins, .boot, .pkg, .lds, .seats, .fronds, .searches, .nextId, .tally, .life, .log, .regs, .wire] ⊆ kl)
    (kh : Keeps kl k0 s) : Keeps kl k0 (winWrite s p seat off w) := by
  refine Keeps.step ?_ kh km
  unfold winWrite
  repeat' first
    | with_reducible exact Keeps.refl _ _
    | assumption
    | with_reducible refine setReg_keeps (by decide) ?_
    | with_reducible refine winCmd_keeps (by decide) ?_
    | with_reducible refine dropHolding_keeps (by decide) ?_
    | with_reducible refine modRegs_keeps (by decide) ?_
    | with_reducible refine Keeps.ite ?_ ?_

theorem watripoCtl_keeps {kl : List Piece} {k0 s : State} {w : Word32}
    (km : [.regs] ⊆ kl)
    (kh : Keeps kl k0 s) : Keeps kl k0 (watripoCtl s w) := by
  refine Keeps.step ?_ kh km
  unfold watripoCtl
  repeat' first
    | with_reducible exact Keeps.refl _ _
    | assumption
    | with_reducible refine setReg_keeps (by decide) ?_
    | with_reducible refine modRegs_keeps (by decide) ?_
    | with_reducible refine orReg_keeps (by decide) ?_
    | with_reducible refine Keeps.ite ?_ ?_

theorem commitGo_keeps {kl : List Piece} {k0 s : State} {pg : PageId}
    (km : [.regs, .wire] ⊆ kl)
    (kh : Keeps kl k0 s) : Keeps kl k0 (commitGo s pg) := by
  refine Keeps.step ?_ kh km
  unfold commitGo
  repeat' first
    | with_reducible exact Keeps.refl _ _
    | assumption
    | with_reducible refine reject_keeps (by decide) ?_
    | with_reducible refine commitEnd_keeps (by decide) ?_
    | with_reducible refine setReg_keeps (by decide) ?_
    | with_reducible refine modRegs_keeps (by decide) ?_
    | with_reducible refine Keeps.ite ?_ ?_

theorem takeMode_keeps {kl : List Piece} {k0 s : State}
    (km : [.pkg] ⊆ kl)
    (kh : Keeps kl k0 s) : Keeps kl k0 (takeMode s) := by
  refine Keeps.step ?_ kh km
  unfold takeMode
  repeat' first
    | with_reducible exact Keeps.refl _ _
    | assumption
    | with_reducible refine Keeps.ite ?_ ?_
    | (with_reducible refine Keeps.set ?_ ?_ ?_ ?_ ?_ ?_ ?_ ?_ ?_ ?_ ?_ ?_ ?_; rotate_left 1
       · (refine Only.intro fun kp khp => ?_; cases kp <;> first | with_reducible exact rfl | exact absurd (by decide) khp)
       · with_reducible exact List.prefix_refl _
       · with_reducible exact Nat.le_refl _
       · with_reducible exact Nat.le_refl _
       · with_reducible exact Nat.le_refl _
       · with_reducible exact List.suffix_refl _
       · with_reducible exact fun x => x
       · with_reducible exact fun x => x
       · with_reducible exact fun x => x
       · with_reducible exact fun x => x
       · with_reducible exact fun x => x
       · with_reducible exact fun x => ⟨x.mode, x.bootMode, x.storeMode, x.sel, x.whole⟩)

theorem commitApply_keeps {kl : List Piece} {k0 : State} {s : State} {pg : PageId} (km : [.boot, .pkg, .lds, .mem, .fronds, .covs, .life, .log, .regs, .wire] ⊆ kl)
    (kh : Keeps kl k0 s) : Keeps kl k0 (commitApply s pg) := by
  refine Keeps.step ?_ kh km
  unfold commitApply
  repeat' first
    | with_reducible exact Keeps.refl _ _
    | assumption
    | with_reducible refine commitEnd_keeps (by decide) ?_
    | with_reducible refine dropStaged_keeps (by decide) ?_
    | with_reducible refine setTags_keeps (by decide) ?_
    | with_reducible refine dropHolding_keeps (by decide) ?_
    | with_reducible refine activate_keeps (by decide) ?_
    | with_reducible refine takeMode_keeps (by decide) ?_
    | with_reducible refine capCheck_keeps (by decide) ?_
    | with_reducible refine overPromise_keeps (by decide) ?_
    | with_reducible refine resolveAll_keeps (by decide) ?_
    | with_reducible refine Keeps.ite ?_ ?_
    | with_reducible refine Keeps.foldl ?_ (fun _ _ => ?_)
    | with_reducible refine Keeps.foldl1 ?_ (fun _ _ => ?_)
    | split
    | dsimp only
    | (with_reducible refine Keeps.put ?_ ?_; rotate_left 1
       · (refine Only.intro fun kp khp => ?_; cases kp <;> first | with_reducible exact rfl | exact absurd (by decide) khp))
    | (with_reducible refine Keeps.set ?_ ?_; rotate_left 1
       · (refine Only.intro fun kp khp => ?_; cases kp <;> first | with_reducible exact rfl | exact absurd (by decide) khp))
    | split

theorem mailGo_keeps {kl : List Piece} {k0 : State} {s : State} {n : Nat} (km : [.pins, .boot, .pkg, .lds, .seats, .extents, .mem, .coh, .fronds, .covs, .tally, .life, .log, .regs, .wire] ⊆ kl)
    (kh : Keeps kl k0 s) : Keeps kl k0 (mailGo s n) := by
  refine Keeps.step ?_ kh km
  unfold mailGo
  repeat' first
    | with_reducible exact Keeps.refl _ _
    | assumption
    | with_reducible refine orReg_keeps (by decide) ?_
    | with_reducible refine setMailStat_keeps (by decide) ?_
    | with_reducible refine wakeHub_keeps (by decide) ?_
    | refine needRegion_keeps (by decide) ‹_ = some _› ?_
    | with_reducible refine runMail_keeps (by decide) (fun _ _ _ => ?_) (fun _ _ _ => ?_) ?_
    | with_reducible refine deny_keeps (by decide) ?_
    | refine Keeps.fst ‹_ = (_, _)› (deny_keeps (by decide) ?_)
    | with_reducible refine noAfter_keeps (by decide) ?_
    | with_reducible refine Keeps.ite ?_ ?_
    | with_reducible refine Keeps.getD ?_ (fun _ _ => ?_)
    | split

theorem arrResult_keeps {kl : List Piece} {k0 s : State} {die : Nat} {data mask : Plane} {info check : Word}
    (km : [.regs] ⊆ kl)
    (kh : Keeps kl k0 s) : Keeps kl k0 (arrResult s die data mask info check) := by
  refine Keeps.step ?_ kh km
  unfold arrResult
  repeat' first
    | with_reducible exact Keeps.refl _ _
    | assumption
    | with_reducible refine setReg_keeps (by decide) ?_
    | with_reducible refine Keeps.foldl ?_ (fun _ _ => ?_)

theorem arrSlice_keeps {kl : List Piece} {k0 : State} {s : State} {die : Nat} {row : Nat} (km : [.boot, .pkg, .lds, .seats, .fronds, .tally, .life, .log, .regs] ⊆ kl)
    (kh : Keeps kl k0 s) : Keeps kl k0 (arrSlice s die row) := by
  refine Keeps.step ?_ kh km
  unfold arrSlice
  repeat' first
    | with_reducible exact Keeps.refl _ _
    | assumption
    | with_reducible refine repairNow_keeps (by decide) ?_
    | with_reducible refine writeRow_keeps (by decide) ?_
    | with_reducible refine writePan_keeps (by decide) ?_
    | with_reducible refine orReg_keeps (by decide) ?_
    | with_reducible refine Keeps.ite ?_ ?_
    | with_reducible refine Keeps.getD ?_ (fun _ _ => ?_)
    | split

theorem arrWrite_keeps {kl : List Piece} {k0 : State} {die : Nat} {s : State} {w : Word32} (km : [.boot, .pkg, .lds, .seats, .fronds, .tally, .life, .log, .regs, .wire] ⊆ kl)
    (kh : Keeps kl k0 s) : Keeps kl k0 (arrWrite die s w) := by
  refine Keeps.step ?_ kh km
  unfold arrWrite
  repeat' first
    | with_reducible exact Keeps.refl _ _
    | assumption
    | with_reducible refine guardStore_keeps (by decide) ?_
    | refine Keeps.fst ‹_ = (_, _)› (guardStore_keeps (by decide) ?_)
    | with_reducible refine arrResult_keeps (by decide) ?_
    | with_reducible refine modRegs_keeps (by decide) ?_
    | with_reducible refine arrSlice_keeps (by decide) ?_
    | with_reducible refine Keeps.ite ?_ ?_
    | split
    | dsimp only
    | (with_reducible refine Keeps.put ?_ ?_; rotate_left 1
       · (refine Only.intro fun kp khp => ?_; cases kp <;> first | with_reducible exact rfl | exact absurd (by decide) khp))
    | (with_reducible refine Keeps.set ?_ ?_; rotate_left 1
       · (refine Only.intro fun kp khp => ?_; cases kp <;> first | with_reducible exact rfl | exact absurd (by decide) khp))
    | split

theorem arrClearWrite_keeps {kl : List Piece} {k0 : State} {die : Nat} {s : State} {w : Word32}
    (km : [.fronds, .regs, .wire] ⊆ kl)
    (kh : Keeps kl k0 s) : Keeps kl k0 (arrClearWrite die s w) := by
  refine Keeps.step ?_ kh km
  unfold arrClearWrite
  repeat' first
    | with_reducible exact Keeps.refl _ _
    | assumption
    | with_reducible refine guardStore_keeps (by decide) ?_
    | refine Keeps.fst ‹_ = (_, _)› (guardStore_keeps (by decide) ?_)
    | with_reducible refine setReg_keeps (by decide) ?_
    | with_reducible refine freePan_keeps (by decide) ?_
    | with_reducible refine reject_keeps (by decide) ?_
    | with_reducible refine Keeps.ite ?_ ?_

theorem rateWrite_keeps {kl : List Piece} {k0 : State} {hub channel : Nat} {s : State} {w : Word32}
    (km : [.store, .life, .regs, .wire] ⊆ kl)
    (kh : Keeps kl k0 s) : Keeps kl k0 (rateWrite hub channel s w) := by
  refine Keeps.step ?_ kh km
  unfold rateWrite
  repeat' first
    | with_reducible exact Keeps.refl _ _
    | assumption
    | with_reducible refine guardStore_keeps (by decide) ?_
    | refine Keeps.fst ‹_ = (_, _)› (guardStore_keeps (by decide) ?_)
    | with_reducible refine setReg_keeps (by decide) ?_
    | with_reducible refine covered_keeps (by decide) ?_
    | with_reducible refine storeWrite_keeps (by decide) ?_
    | with_reducible refine Keeps.ite ?_ ?_
    | split
    | dsimp only
    | (with_reducible refine Keeps.set ?_ ?_ ?_ ?_ ?_ ?_ ?_ ?_ ?_ ?_ ?_ ?_ ?_; rotate_left 1
       · (refine Only.intro fun kp khp => ?_; cases kp <;> first | with_reducible exact rfl | exact absurd (by decide) khp)
       · with_reducible exact List.prefix_refl _
       · with_reducible exact Nat.le_refl _
       · with_reducible exact Nat.le_refl _
       · with_reducible exact Nat.le_refl _
       · with_reducible exact List.suffix_refl _
       · with_reducible exact fun x => x
       · with_reducible exact fun x => x
       · with_reducible exact fun x => x
       · with_reducible exact fun x => x
       · with_reducible exact fun x => x
       · with_reducible exact fun x => ⟨x.mode, x.bootMode, x.storeMode, x.sel, x.whole⟩)

theorem guardApply_keeps {kl : List Piece} {k0 s : State} {pg : PageId} {off : Nat} {w : Word32}
    (km : [.pins, .jtag, .fw, .boot, .store, .pkg, .clock, .ports, .lds, .mctp, .seats, .steward, .extents, .keys, .mem, .coh, .fronds, .tables, .rings, .searches, .jobs, .nextId, .disp, .covs, .tally, .life, .log, .harvest, .regs, .wire, .freeCtr] ⊆ kl)
    (kh : Keeps kl k0 s) : Keeps kl k0 (guardApply s pg off w) := by
  refine Keeps.step ?_ kh km
  unfold guardApply
  repeat' first
    | with_reducible exact Keeps.refl _ _
    | assumption
    | with_reducible refine modeWrite_keeps (by decide) ?_
    | with_reducible refine reinitWrite_keeps (by decide) ?_
    | with_reducible refine halfCtl_keeps (by decide) ?_
    | with_reducible refine secretClrWrite_keeps (by decide) ?_
    | with_reducible refine zeroWrite_keeps (by decide) ?_
    | with_reducible refine bifWrite_keeps (by decide) ?_
    | with_reducible refine downWrite_keeps (by decide) ?_
    | with_reducible refine rateWrite_keeps (by decide) ?_
    | with_reducible refine padRelWrite_keeps (by decide) ?_
    | with_reducible refine memretWrite_keeps (by decide) ?_
    | with_reducible refine injWrite_keeps (by decide) ?_
    | with_reducible refine eraseWrite_keeps (by decide) ?_
    | with_reducible refine repairWrite_keeps (by decide) ?_
    | with_reducible refine arrWrite_keeps (by decide) ?_
    | with_reducible refine arrClearWrite_keeps (by decide) ?_
    | with_reducible refine svcWrite_keeps (by decide) ?_
    | with_reducible refine syncWrite_keeps (by decide) ?_
    | with_reducible refine takeWrite_keeps (by decide) ?_
    | with_reducible refine releaseWrite_keeps (by decide) ?_
    | split

theorem armRef_keeps {kl : List Piece} {k0 s : State} {pg : PageId}
    (km : [.regs] ⊆ kl)
    (kh : Keeps kl k0 s) : Keeps kl k0 (armRef s pg) := by
  refine Keeps.step ?_ kh km
  unfold armRef
  repeat' first
    | with_reducible exact Keeps.refl _ _
    | assumption
    | with_reducible refine modRegs_keeps (by decide) ?_
    | with_reducible refine Keeps.ite ?_ ?_

theorem plainWrite_keeps {kl : List Piece} {k0 : State} {s : State} {p : Place} {pg : PageId} {off : Nat} {r : RegSpec} {w : Word32} (km : [.pins, .boot, .pkg, .clock, .lds, .seats, .extents, .mem, .coh, .fronds, .rings, .covs, .tally, .life, .log, .regs, .wire] ⊆ kl)
    (kh : Keeps kl k0 s) : Keeps kl k0 (plainWrite s p pg off r w) := by
  refine Keeps.step ?_ kh km
  unfold plainWrite
  repeat' first
    | with_reducible exact Keeps.refl _ _
    | assumption
    | with_reducible refine ringCtlWrite_keeps (by decide) ?_
    | with_reducible refine watripoCtl_keeps (by decide) ?_
    | with_reducible refine mailGo_keeps (by decide) ?_
    | with_reducible refine ledgerSel_keeps (by decide) ?_
    | with_reducible refine logSel_keeps (by decide) ?_
    | with_reducible refine harvestOfs_keeps (by decide) ?_
    | with_reducible refine calWrite_keeps (by decide) ?_
    | with_reducible refine commitGo_keeps (by decide) ?_
    | with_reducible refine armRef_keeps (by decide) ?_
    | with_reducible refine writeWord_keeps (by decide) ?_
    | with_reducible refine reject_keeps (by decide) ?_
    | with_reducible refine writeW0_keeps (by decide) ?_
    | with_reducible refine writeHolding_keeps (by decide) ?_
    | with_reducible refine Keeps.ite ?_ ?_
    | split
    | dsimp only
    | (with_reducible refine Keeps.put ?_ ?_; rotate_left 1
       · (refine Only.intro fun kp khp => ?_; cases kp <;> first | with_reducible exact rfl | exact absurd (by decide) khp))
    | (with_reducible refine Keeps.set ?_ ?_; rotate_left 1
       · (refine Only.intro fun kp khp => ?_; cases kp <;> first | with_reducible exact rfl | exact absurd (by decide) khp))
    | split

theorem stagedWrite_keeps {kl : List Piece} {k0 : State} {s : State} {p : Place} {pg : PageId} {off : Nat} {r : RegSpec} {w : Word32} (km : [.regs, .wire] ⊆ kl)
    (kh : Keeps kl k0 s) : Keeps kl k0 (stagedWrite s p pg off r w) := by
  refine Keeps.step ?_ kh km
  unfold stagedWrite
  repeat' first
    | with_reducible exact Keeps.refl _ _
    | assumption
    | with_reducible refine reject_keeps (by decide) ?_
    | with_reducible refine writeHolding_keeps (by decide) ?_
    | with_reducible refine setStaged_keeps (by decide) ?_
    | with_reducible refine writeW0_keeps (by decide) ?_
    | with_reducible refine Keeps.ite ?_ ?_
    | split

theorem applyWrite_keeps {kl : List Piece} {k0 : State} {s : State} {p : Place} {a : Nat} {w : Word32} (km : [.pins, .jtag, .fw, .boot, .store, .pkg, .clock, .ports, .lds, .mctp, .seats, .steward, .extents, .keys, .mem, .coh, .fronds, .tables, .rings, .searches, .jobs, .nextId, .disp, .covs, .tally, .life, .log, .harvest, .regs, .wire, .freeCtr] ⊆ kl)
    (kh : Keeps kl k0 s) : Keeps kl k0 (applyWrite s p a w) := by
  refine Keeps.step ?_ kh km
  unfold applyWrite
  repeat' first
    | with_reducible exact Keeps.refl _ _
    | assumption
    | with_reducible refine winWrite_keeps (by decide) ?_
    | with_reducible refine busError_keeps (by decide) ?_
    | with_reducible refine pageError_keeps (by decide) ?_
    | with_reducible refine dropGuard_keeps (by decide) ?_
    | with_reducible refine plainWrite_keeps (by decide) ?_
    | with_reducible refine wakePage_keeps (by decide) ?_
    | with_reducible refine stagedWrite_keeps (by decide) ?_
    | with_reducible refine guardFirst_keeps (by decide) ?_
    | with_reducible refine guardSecond_keeps (by decide) ?_
    | refine Keeps.fst ‹_ = (_, _)› (guardSecond_keeps (by decide) ?_)
    | with_reducible refine guardApply_keeps (by decide) ?_
    | with_reducible refine Keeps.ite ?_ ?_
    | split
    | dsimp only
    | (with_reducible refine Keeps.put ?_ ?_; rotate_left 1
       · (refine Only.intro fun kp khp => ?_; cases kp <;> first | with_reducible exact rfl | exact absurd (by decide) khp))
    | (with_reducible refine Keeps.set ?_ ?_; rotate_left 1
       · (refine Only.intro fun kp khp => ?_; cases kp <;> first | with_reducible exact rfl | exact absurd (by decide) khp))
    | split

theorem write32_keeps {kl : List Piece} {k0 : State} {s : State} {p : Place} {a : Nat} {w : Word32} (km : [.pins, .jtag, .fw, .boot, .store, .pkg, .clock, .ports, .lds, .mctp, .seats, .steward, .extents, .keys, .mem, .coh, .fronds, .tables, .rings, .searches, .jobs, .nextId, .disp, .covs, .tally, .life, .log, .harvest, .regs, .wire, .freeCtr] ⊆ kl)
    (kh : Keeps kl k0 s) : Keeps kl k0 (write32 s p a w) := by
  refine Keeps.step ?_ kh km
  unfold write32
  repeat' first
    | with_reducible exact Keeps.refl _ _
    | assumption
    | with_reducible refine queueWrite_keeps (by decide) ?_
    | with_reducible refine applyWrite_keeps (by decide) ?_
    | with_reducible refine Keeps.ite ?_ ?_
    | split

theorem lateStep_keeps {kl : List Piece} {k0 : State} {s : State} (km : [.pins, .jtag, .fw, .boot, .store, .pkg, .clock, .ports, .lds, .mctp, .seats, .steward, .extents, .keys, .mem, .coh, .fronds, .tables, .rings, .searches, .jobs, .nextId, .disp, .covs, .tally, .life, .log, .harvest, .regs, .wire, .freeCtr] ⊆ kl)
    (kh : Keeps kl k0 s) : Keeps kl k0 (lateStep s) := by
  refine Keeps.step ?_ kh km
  unfold lateStep
  repeat' first
    | with_reducible exact Keeps.refl _ _
    | assumption
    | with_reducible refine modRegs_keeps (by decide) ?_
    | with_reducible refine arrSlice_keeps (by decide) ?_
    | with_reducible refine applyWrite_keeps (by decide) ?_
    | with_reducible refine Keeps.ite ?_ ?_
    | with_reducible refine Keeps.foldl ?_ (fun _ _ => ?_)
    | with_reducible refine Keeps.foldl1 ?_ (fun _ _ => ?_)
    | (with_reducible refine Keeps.put ?_ ?_; rotate_left 1
       · (refine Only.intro fun kp khp => ?_; cases kp <;> first | with_reducible exact rfl | exact absurd (by decide) khp))
    | (with_reducible refine Keeps.set ?_ ?_; rotate_left 1
       · (refine Only.intro fun kp khp => ?_; cases kp <;> first | with_reducible exact rfl | exact absurd (by decide) khp))
    | split

theorem timeLets_keeps {kl : List Piece} {k0 : State} {s : State} (km : [.pins, .jtag, .fw, .boot, .store, .pkg, .clock, .ports, .lds, .mctp, .seats, .steward, .extents, .keys, .mem, .coh, .fronds, .tables, .rings, .searches, .jobs, .nextId, .disp, .covs, .tally, .life, .log, .harvest, .regs, .wire, .freeCtr] ⊆ kl)
    (kh : Keeps kl k0 s) : Keeps kl k0 (timeLets s) := by
  refine Keeps.step ?_ kh km
  unfold timeLets
  repeat' first
    | with_reducible exact Keeps.refl _ _
    | assumption
    | with_reducible refine winRetry_keeps (by decide) ?_
    | with_reducible refine lateStep_keeps (by decide) ?_
    | with_reducible refine Keeps.ite ?_ ?_
    | split

theorem idleStep_keeps {kl : List Piece} {k0 s kt : State} (km : [.pins, .jtag, .fw, .boot, .store, .pkg, .clock, .ports, .lds, .mctp, .seats, .steward, .extents, .keys, .mem, .coh, .fronds, .tables, .rings, .searches, .jobs, .nextId, .disp, .covs, .tally, .life, .log, .harvest, .regs, .wire, .freeCtr] ⊆ kl)
    (ke : idleStep s = .next kt) (kh : Keeps kl k0 s) : Keeps kl k0 kt := by
  refine Keeps.step ?_ kh km
  unfold idleStep at ke
  split at ke
  · next u hu => cases ke; exact timeLets_keeps (by decide) (idleTick_keeps (by decide) hu (Keeps.refl _ _))
  · next hn => exact absurd ke (hn _)

theorem badWidth_keeps {kl : List Piece} {k0 s : State} {p : Place} {a : Nat} {read : Bool}
    (km : [.lds, .regs, .wire] ⊆ kl)
    (kh : Keeps kl k0 s) : Keeps kl k0 (badWidth s p a read) := by
  refine Keeps.step ?_ kh km
  unfold badWidth
  repeat' first
    | with_reducible exact Keeps.refl _ _
    | assumption
    | with_reducible refine pageError_keeps (by decide) ?_
    | with_reducible refine busError_keeps (by decide) ?_
    | with_reducible refine Keeps.ite ?_ ?_
    | split

theorem maskHalfWrite_keeps {kl : List Piece} {k0 s : State} {p : Place} {a : Nat}
    (km : [.lds, .regs, .wire] ⊆ kl)
    (kh : Keeps kl k0 s) : Keeps kl k0 (maskHalfWrite s p a) := by
  refine Keeps.step ?_ kh km
  unfold maskHalfWrite
  repeat' first
    | with_reducible exact Keeps.refl _ _
    | assumption
    | with_reducible refine pageError_keeps (by decide) ?_
    | with_reducible refine reject_keeps (by decide) ?_
    | with_reducible refine busError_keeps (by decide) ?_
    | with_reducible refine Keeps.ite ?_ ?_
    | split

theorem writeAccess_keeps {kl : List Piece} {k0 s : State} {p : Place} {x : Access}
    (km : [.pins, .jtag, .fw, .boot, .store, .pkg, .clock, .ports, .lds, .mctp, .seats, .steward, .extents, .keys, .mem, .coh, .fronds, .tables, .rings, .searches, .jobs, .nextId, .disp, .covs, .tally, .life, .log, .harvest, .regs, .wire, .freeCtr] ⊆ kl)
    (kh : Keeps kl k0 s) : Keeps kl k0 (writeAccess s p x) := by
  refine Keeps.step ?_ kh km
  unfold writeAccess
  repeat' first
    | with_reducible exact Keeps.refl _ _
    | assumption
    | with_reducible refine write32_keeps (by decide) ?_
    | with_reducible refine busError_keeps (by decide) ?_
    | with_reducible refine maskHalfWrite_keeps (by decide) ?_
    | with_reducible refine badWidth_keeps (by decide) ?_
    | with_reducible refine Keeps.ite ?_ ?_
    | split

theorem readError_keeps {kl : List Piece} {k0 s : State} {p : Place} {a : Nat} {kt : State}
    (km : [.lds, .regs, .wire] ⊆ kl) (ke : readError s p a = some kt)
    (kh : Keeps kl k0 s) : Keeps kl k0 kt := by
  refine Keeps.step ?_ kh km
  unfold readError at ke
  try dsimp only at ke
  repeat' (first | split at ke | dsimp only at ke)
  all_goals first | (obtain ⟨_, _, rfl⟩ := Option.map_eq_some_iff.1 ke) | cases ke | skip
  all_goals repeat' first
    | with_reducible exact Keeps.refl _ _
    | assumption
    | with_reducible refine aerError_keeps (by decide) ?_
    | with_reducible refine reject_keeps (by decide) ?_

theorem read32_keeps {kl : List Piece} {k0 s : State} {p : Place} {a : Nat}
    (km : [.tally, .regs] ⊆ kl)
    (kh : Keeps kl k0 s) : Keeps kl k0 (read32 s p a).1 := by
  refine Keeps.step ?_ kh km
  unfold read32
  repeat' first
    | with_reducible exact Keeps.refl _ _
    | assumption
    | with_reducible refine winRead_keeps (by decide) ?_
    | refine Keeps.fst ‹_ = (_, _)› (winRead_keeps (by decide) ?_)
    | with_reducible refine readSlot_keeps (by decide) ?_
    | with_reducible refine Keeps.ite ?_ ?_
    | split

theorem readOne_keeps {kl : List Piece} {k0 s : State} {p : Place} {a : Nat} {be : BitVec 4}
    (km : [.lds, .tally, .regs, .wire] ⊆ kl)
    (kh : Keeps kl k0 s) : Keeps kl k0 (readOne s p a be) := by
  refine Keeps.step ?_ kh km
  unfold readOne
  repeat' first
    | with_reducible exact Keeps.refl _ _
    | assumption
    | refine readError_keeps (by decide) ‹_ = some _› ?_
    | with_reducible refine send_keeps (by decide) ?_
    | with_reducible refine read32_keeps (by decide) ?_
    | refine Keeps.fst ‹_ = (_, _)› (read32_keeps (by decide) ?_)
    | split

theorem readAccess_keeps {kl : List Piece} {k0 : State} {s : State} {p : Place} {x : Access} (km : [.lds, .tally, .regs, .wire] ⊆ kl)
    (kh : Keeps kl k0 s) : Keeps kl k0 (readAccess s p x) := by
  refine Keeps.step ?_ kh km
  unfold readAccess
  repeat' first
    | with_reducible exact Keeps.refl _ _
    | assumption
    | with_reducible refine readOne_keeps (by decide) ?_
    | refine readError_keeps (by decide) ‹_ = some _› ?_
    | with_reducible refine send_keeps (by decide) ?_
    | with_reducible refine badWidth_keeps (by decide) ?_
    | with_reducible refine read32_keeps (by decide) ?_
    | refine Keeps.fst ‹_ = (_, _)› (read32_keeps (by decide) ?_)
    | with_reducible refine Keeps.ite ?_ ?_
    | with_reducible refine Keeps.getD ?_ (fun _ _ => ?_)
    | split
    | dsimp only
    | (with_reducible refine Keeps.put ?_ ?_; rotate_left 1
       · (refine Only.intro fun kp khp => ?_; cases kp <;> first | with_reducible exact rfl | exact absurd (by decide) khp))
    | (with_reducible refine Keeps.set ?_ ?_; rotate_left 1
       · (refine Only.intro fun kp khp => ?_; cases kp <;> first | with_reducible exact rfl | exact absurd (by decide) khp))
    | split

theorem execRegisterWrite_keeps {kl : List Piece} {k0 : State} {p : Place} {x : Access} {s kt : State}
    (km : [.pins, .jtag, .fw, .boot, .store, .pkg, .clock, .ports, .lds, .mctp, .seats, .steward, .extents, .keys, .mem, .coh, .fronds, .tables, .rings, .searches, .jobs, .nextId, .disp, .covs, .tally, .life, .log, .harvest, .regs, .wire, .freeCtr] ⊆ kl) (ke : execRegisterWrite p x s = .next kt)
    (kh : Keeps kl k0 s) : Keeps kl k0 kt := by
  refine Keeps.step ?_ kh km
  unfold execRegisterWrite at ke
  cases ke
  repeat' first
    | with_reducible exact Keeps.refl _ _
    | assumption
    | with_reducible refine writeAccess_keeps (by decide) ?_

theorem execUnimplementedAccess_keeps {kl : List Piece} {k0 : State} {p : Place} {write : Bool} {x : Access} {s kt : State}
    (km : [.pins, .jtag, .fw, .boot, .store, .pkg, .clock, .ports, .lds, .mctp, .seats, .steward, .extents, .keys, .mem, .coh, .fronds, .tables, .rings, .searches, .jobs, .nextId, .disp, .covs, .tally, .life, .log, .harvest, .regs, .wire, .freeCtr] ⊆ kl) (ke : execUnimplementedAccess p write x s = .next kt)
    (kh : Keeps kl k0 s) : Keeps kl k0 kt := by
  refine Keeps.step ?_ kh km
  unfold execUnimplementedAccess at ke
  cases ke
  repeat' first
    | with_reducible exact Keeps.refl _ _
    | assumption
    | with_reducible refine writeAccess_keeps (by decide) ?_
    | with_reducible refine readAccess_keeps (by decide) ?_
    | with_reducible refine Keeps.ite ?_ ?_

theorem execRcRegisterRead_keeps {kl : List Piece} {k0 : State} {p : Place} {x : Access} {s kt : State}
    (km : [.lds, .tally, .regs, .wire] ⊆ kl) (ke : execRcRegisterRead p x s = .next kt)
    (kh : Keeps kl k0 s) : Keeps kl k0 kt := by
  refine Keeps.step ?_ kh km
  unfold execRcRegisterRead at ke
  cases ke
  repeat' first
    | with_reducible exact Keeps.refl _ _
    | assumption
    | with_reducible refine readAccess_keeps (by decide) ?_

theorem execMultiwordW0Read_keeps {kl : List Piece} {k0 : State} {p : Place} {x : Access} {s kt : State}
    (km : [.lds, .tally, .regs, .wire] ⊆ kl) (ke : execMultiwordW0Read p x s = .next kt)
    (kh : Keeps kl k0 s) : Keeps kl k0 kt := by
  refine Keeps.step ?_ kh km
  unfold execMultiwordW0Read at ke
  cases ke
  repeat' first
    | with_reducible exact Keeps.refl _ _
    | assumption
    | with_reducible refine readAccess_keeps (by decide) ?_

theorem execStageCommit_keeps {kl : List Piece} {k0 : State} {p : Place} {addr : BitVec 26} {w : Word32} {s kt : State}
    (km : [.pins, .jtag, .fw, .boot, .store, .pkg, .clock, .ports, .lds, .mctp, .seats, .steward, .extents, .keys, .mem, .coh, .fronds, .tables, .rings, .searches, .jobs, .nextId, .disp, .covs, .tally, .life, .log, .harvest, .regs, .wire, .freeCtr] ⊆ kl) (ke : execStageCommit p addr w s = .next kt)
    (kh : Keeps kl k0 s) : Keeps kl k0 kt := by
  refine Keeps.step ?_ kh km
  unfold execStageCommit at ke
  cases ke
  repeat' first
    | with_reducible exact Keeps.refl _ _
    | assumption
    | with_reducible refine write32_keeps (by decide) ?_

theorem execStageCommitApply_keeps {kl : List Piece} {k0 : State} {page : BitVec 26} {s kt : State}
    (km : [.boot, .pkg, .lds, .mem, .fronds, .covs, .life, .log, .regs, .wire] ⊆ kl) (ke : execStageCommitApply page s = .next kt)
    (kh : Keeps kl k0 s) : Keeps kl k0 kt := by
  refine Keeps.step ?_ kh km
  unfold execStageCommitApply at ke
  cases ke
  repeat' first
    | with_reducible exact Keeps.refl _ _
    | assumption
    | with_reducible refine commitApply_keeps (by decide) ?_
    | split

theorem execGuardedWrite_keeps {kl : List Piece} {k0 : State} {p : Place} {addr : BitVec 26} {w : Word32} {s kt : State}
    (km : [.pins, .jtag, .fw, .boot, .store, .pkg, .clock, .ports, .lds, .mctp, .seats, .steward, .extents, .keys, .mem, .coh, .fronds, .tables, .rings, .searches, .jobs, .nextId, .disp, .covs, .tally, .life, .log, .harvest, .regs, .wire, .freeCtr] ⊆ kl) (ke : execGuardedWrite p addr w s = .next kt)
    (kh : Keeps kl k0 s) : Keeps kl k0 kt := by
  refine Keeps.step ?_ kh km
  unfold execGuardedWrite at ke
  cases ke
  repeat' first
    | with_reducible exact Keeps.refl _ _
    | assumption
    | with_reducible refine write32_keeps (by decide) ?_

theorem execGuardedWriteTimeout_keeps {kl : List Piece} {k0 : State} {p : Place} {addr : BitVec 26} {s kt : State}
    (km : [.regs, .wire] ⊆ kl) (ke : execGuardedWriteTimeout p addr s = .next kt)
    (kh : Keeps kl k0 s) : Keeps kl k0 kt := by
  refine Keeps.step ?_ kh km
  unfold execGuardedWriteTimeout at ke
  cases ke
  repeat' first
    | with_reducible exact Keeps.refl _ _
    | assumption
    | with_reducible refine dropGuard_keeps (by decide) ?_
    | with_reducible refine Keeps.ite ?_ ?_
    | split

theorem execCfgRefWrite_keeps {kl : List Piece} {k0 : State} {p : Place} {addr : BitVec 26} {w : Word32} {s kt : State}
    (km : [.pins, .jtag, .fw, .boot, .store, .pkg, .clock, .ports, .lds, .mctp, .seats, .steward, .extents, .keys, .mem, .coh, .fronds, .tables, .rings, .searches, .jobs, .nextId, .disp, .covs, .tally, .life, .log, .harvest, .regs, .wire, .freeCtr] ⊆ kl) (ke : execCfgRefWrite p addr w s = .next kt)
    (kh : Keeps kl k0 s) : Keeps kl k0 kt := by
  refine Keeps.step ?_ kh km
  unfold execCfgRefWrite at ke
  cases ke
  repeat' first
    | with_reducible exact Keeps.refl _ _
    | assumption
    | with_reducible refine write32_keeps (by decide) ?_

theorem execCfgSigPass_keeps {kl : List Piece} {k0 : State} {page : BitVec 26} {s kt : State}
    (km : [.boot, .pkg, .lds, .life, .log, .regs, .wire] ⊆ kl) (ke : execCfgSigPass page s = .next kt)
    (kh : Keeps kl k0 s) : Keeps kl k0 kt := by
  refine Keeps.step ?_ kh km
  unfold execCfgSigPass at ke
  cases ke
  repeat' first
    | with_reducible exact Keeps.refl _ _
    | assumption
    | with_reducible refine modRegs_keeps (by decide) ?_
    | with_reducible refine setEvt_keeps (by decide) ?_
    | with_reducible refine event_keeps (by decide) ?_
    | with_reducible refine Keeps.ite ?_ ?_
    | split

theorem cfgFail_keeps {kl : List Piece} {k0 s : State} {pg : PageId}
    (km : [.pins, .boot, .store, .pkg, .ports, .lds, .seats, .steward, .extents, .mem, .coh, .fronds, .tables, .rings, .searches, .jobs, .disp, .covs, .tally, .life, .log, .harvest, .regs, .wire, .freeCtr] ⊆ kl)
    (kh : Keeps kl k0 s) : Keeps kl k0 (cfgFail s pg) := by
  refine Keeps.step ?_ kh km
  unfold cfgFail
  repeat' first
    | with_reducible exact Keeps.refl _ _
    | assumption
    | with_reducible refine event_keeps (by decide) ?_
    | with_reducible refine orReg_keeps (by decide) ?_
    | with_reducible refine disableRing_keeps (by decide) ?_
    | with_reducible refine setReg_keeps (by decide) ?_
    | with_reducible refine frondFails_keeps (by decide) ?_
    | with_reducible refine modFrond_keeps (by decide) ?_
    | with_reducible refine hubFails_keeps (by decide) ?_
    | with_reducible refine Keeps.ite ?_ ?_
    | split

theorem cfgRewrite_keeps {kl : List Piece} {k0 : State} {s : State} {pg : PageId} {fields : PageTy → Nat → Word} (km : [.regs] ⊆ kl)
    (kh : Keeps kl k0 s) : Keeps kl k0 (cfgRewrite s pg fields) := by
  refine Keeps.step ?_ kh km
  unfold cfgRewrite
  repeat' first
    | with_reducible exact Keeps.refl _ _
    | assumption
    | with_reducible refine setReg_keeps (by decide) ?_
    | with_reducible refine Keeps.getD ?_ (fun _ _ => ?_)
    | with_reducible refine Keeps.foldl ?_ (fun _ _ => ?_)
    | with_reducible refine Keeps.foldl1 ?_ (fun _ _ => ?_)

theorem execCfgRestore_keeps {kl : List Piece} {k0 : State} {page : BitVec 26} {s : State} {kt : State} (km : [.pins, .boot, .store, .pkg, .ports, .lds, .seats, .steward, .extents, .mem, .coh, .fronds, .tables, .rings, .searches, .jobs, .disp, .covs, .tally, .life, .log, .harvest, .regs, .wire, .freeCtr] ⊆ kl) (ke : execCfgRestore page s = .next kt)
    (kh : Keeps kl k0 s) : Keeps kl k0 kt := by
  refine Keeps.step ?_ kh km
  unfold execCfgRestore at ke
  cases ke
  repeat' first
    | with_reducible exact Keeps.refl _ _
    | assumption
    | with_reducible refine event_keeps (by decide) ?_
    | with_reducible refine cfgRewrite_keeps (by decide) ?_
    | with_reducible refine setEvt_keeps (by decide) ?_
    | with_reducible refine modRegs_keeps (by decide) ?_
    | with_reducible refine cfgFail_keeps (by decide) ?_
    | with_reducible refine Keeps.ite ?_ ?_
    | split
    | dsimp only
    | (with_reducible refine Keeps.put ?_ ?_; rotate_left 1
       · (refine Only.intro fun kp khp => ?_; cases kp <;> first | with_reducible exact rfl | exact absurd (by decide) khp))
    | (with_reducible refine Keeps.set ?_ ?_; rotate_left 1
       · (refine Only.intro fun kp khp => ?_; cases kp <;> first | with_reducible exact rfl | exact absurd (by decide) khp))
    | split

theorem execCfgVoteFix_keeps {kl : List Piece} {k0 : State} {addr : BitVec 26} {c0 : Word} {c1 : Word} {c2 : Word} {s : State} {kt : State} (km : [.pins, .boot, .store, .pkg, .ports, .lds, .seats, .steward, .extents, .mem, .coh, .fronds, .tables, .rings, .searches, .jobs, .disp, .covs, .tally, .life, .log, .harvest, .regs, .wire, .freeCtr] ⊆ kl) (ke : execCfgVoteFix addr c0 c1 c2 s = .next kt)
    (kh : Keeps kl k0 s) : Keeps kl k0 kt := by
  refine Keeps.step ?_ kh km
  unfold execCfgVoteFix at ke
  cases ke
  repeat' first
    | with_reducible exact Keeps.refl _ _
    | assumption
    | with_reducible refine setStaged_keeps (by decide) ?_
    | with_reducible refine setReg_keeps (by decide) ?_
    | with_reducible refine setEvt_keeps (by decide) ?_
    | with_reducible refine event_keeps (by decide) ?_
    | with_reducible refine cfgFail_keeps (by decide) ?_
    | with_reducible refine Keeps.ite ?_ ?_
    | with_reducible refine Keeps.foldl ?_ (fun _ _ => ?_)
    | with_reducible refine Keeps.foldl1 ?_ (fun _ _ => ?_)
    | split
    | dsimp only
    | (with_reducible refine Keeps.put ?_ ?_; rotate_left 1
       · (refine Only.intro fun kp khp => ?_; cases kp <;> first | with_reducible exact rfl | exact absurd (by decide) khp))
    | (with_reducible refine Keeps.set ?_ ?_; rotate_left 1
       · (refine Only.intro fun kp khp => ?_; cases kp <;> first | with_reducible exact rfl | exact absurd (by decide) khp))
    | split

theorem execArrReadArray_keeps {kl : List Piece} {k0 : State} {p : Place} {die : BitVec 3} {w : Word32} {s kt : State}
    (km : [.pins, .boot, .pkg, .lds, .seats, .fronds, .tally, .life, .log, .regs, .wire] ⊆ kl) (ke : execArrReadArray p die w s = .next kt)
    (kh : Keeps kl k0 s) : Keeps kl k0 kt := by
  refine Keeps.step ?_ kh km
  unfold execArrReadArray at ke
  cases ke
  repeat' first
    | with_reducible exact Keeps.refl _ _
    | assumption
    | with_reducible refine onGuard_keeps (by decide) (fun _ _ _ => ?_) ?_
    | with_reducible refine arrWrite_keeps (by decide) ?_

theorem execArrWriteSlice_keeps {kl : List Piece} {k0 : State} {p : Place} {die : BitVec 3} {w : Word32} {s kt : State}
    (km : [.pins, .boot, .pkg, .lds, .seats, .fronds, .tally, .life, .log, .regs, .wire] ⊆ kl) (ke : execArrWriteSlice p die w s = .next kt)
    (kh : Keeps kl k0 s) : Keeps kl k0 kt := by
  refine Keeps.step ?_ kh km
  unfold execArrWriteSlice at ke
  cases ke
  repeat' first
    | with_reducible exact Keeps.refl _ _
    | assumption
    | with_reducible refine onGuard_keeps (by decide) (fun _ _ _ => ?_) ?_
    | with_reducible refine arrWrite_keeps (by decide) ?_

theorem execArrReadShadow_keeps {kl : List Piece} {k0 : State} {p : Place} {die : BitVec 3} {w : Word32} {s kt : State}
    (km : [.pins, .boot, .pkg, .lds, .seats, .fronds, .tally, .life, .log, .regs, .wire] ⊆ kl) (ke : execArrReadShadow p die w s = .next kt)
    (kh : Keeps kl k0 s) : Keeps kl k0 kt := by
  refine Keeps.step ?_ kh km
  unfold execArrReadShadow at ke
  cases ke
  repeat' first
    | with_reducible exact Keeps.refl _ _
    | assumption
    | with_reducible refine onGuard_keeps (by decide) (fun _ _ _ => ?_) ?_
    | with_reducible refine arrWrite_keeps (by decide) ?_

theorem execArrClear_keeps {kl : List Piece} {k0 : State} {p : Place} {die : BitVec 3} {w : Word32} {s kt : State}
    (km : [.pins, .lds, .fronds, .tally, .regs, .wire] ⊆ kl) (ke : execArrClear p die w s = .next kt)
    (kh : Keeps kl k0 s) : Keeps kl k0 kt := by
  refine Keeps.step ?_ kh km
  unfold execArrClear at ke
  cases ke
  repeat' first
    | with_reducible exact Keeps.refl _ _
    | assumption
    | with_reducible refine onGuard_keeps (by decide) (fun _ _ _ => ?_) ?_
    | with_reducible refine arrClearWrite_keeps (by decide) ?_

theorem execDdrRate_keeps {kl : List Piece} {k0 : State} {p : Place} {hub : BitVec 1} {channel : BitVec 3} {w : Word32} {s kt : State}
    (km : [.pins, .store, .lds, .fronds, .tally, .life, .regs, .wire] ⊆ kl) (ke : execDdrRate p hub channel w s = .next kt)
    (kh : Keeps kl k0 s) : Keeps kl k0 kt := by
  refine Keeps.step ?_ kh km
  unfold execDdrRate at ke
  cases ke
  repeat' first
    | with_reducible exact Keeps.refl _ _
    | assumption
    | with_reducible refine onGuard_keeps (by decide) (fun _ _ _ => ?_) ?_
    | with_reducible refine rateWrite_keeps (by decide) ?_

theorem execWatripoEnable_keeps {kl : List Piece} {k0 : State} {p : Place} {w : Word32} {s kt : State}
    (km : [.pins, .jtag, .fw, .boot, .store, .pkg, .clock, .ports, .lds, .mctp, .seats, .steward, .extents, .keys, .mem, .coh, .fronds, .tables, .rings, .searches, .jobs, .nextId, .disp, .covs, .tally, .life, .log, .harvest, .regs, .wire, .freeCtr] ⊆ kl) (ke : execWatripoEnable p w s = .next kt)
    (kh : Keeps kl k0 s) : Keeps kl k0 kt := by
  refine Keeps.step ?_ kh km
  unfold execWatripoEnable at ke
  cases ke
  repeat' first
    | with_reducible exact Keeps.refl _ _
    | assumption
    | with_reducible refine write32_keeps (by decide) ?_

theorem execWSearch_keeps {kl : List Piece} {k0 : State} {p : Place} {addr : BitVec 16} {w : Word32} {s kt : State}
    (km : [.pins, .jtag, .fw, .boot, .store, .pkg, .clock, .ports, .lds, .mctp, .seats, .steward, .extents, .keys, .mem, .coh, .fronds, .tables, .rings, .searches, .jobs, .nextId, .disp, .covs, .tally, .life, .log, .harvest, .regs, .wire, .freeCtr] ⊆ kl) (ke : execWSearch p addr w s = .next kt)
    (kh : Keeps kl k0 s) : Keeps kl k0 kt := by
  refine Keeps.step ?_ kh km
  unfold execWSearch at ke
  cases ke
  repeat' first
    | with_reducible exact Keeps.refl _ _
    | assumption
    | with_reducible refine write32_keeps (by decide) ?_

theorem execWWriteSlice_keeps {kl : List Piece} {k0 : State} {p : Place} {addr : BitVec 16} {w : Word32} {s kt : State}
    (km : [.pins, .jtag, .fw, .boot, .store, .pkg, .clock, .ports, .lds, .mctp, .seats, .steward, .extents, .keys, .mem, .coh, .fronds, .tables, .rings, .searches, .jobs, .nextId, .disp, .covs, .tally, .life, .log, .harvest, .regs, .wire, .freeCtr] ⊆ kl) (ke : execWWriteSlice p addr w s = .next kt)
    (kh : Keeps kl k0 s) : Keeps kl k0 kt := by
  refine Keeps.step ?_ kh km
  unfold execWWriteSlice at ke
  cases ke
  repeat' first
    | with_reducible exact Keeps.refl _ _
    | assumption
    | with_reducible refine write32_keeps (by decide) ?_

theorem execWReadSlice_keeps {kl : List Piece} {k0 : State} {p : Place} {addr : BitVec 16} {w : Word32} {s kt : State}
    (km : [.pins, .jtag, .fw, .boot, .store, .pkg, .clock, .ports, .lds, .mctp, .seats, .steward, .extents, .keys, .mem, .coh, .fronds, .tables, .rings, .searches, .jobs, .nextId, .disp, .covs, .tally, .life, .log, .harvest, .regs, .wire, .freeCtr] ⊆ kl) (ke : execWReadSlice p addr w s = .next kt)
    (kh : Keeps kl k0 s) : Keeps kl k0 kt := by
  refine Keeps.step ?_ kh km
  unfold execWReadSlice at ke
  cases ke
  repeat' first
    | with_reducible exact Keeps.refl _ _
    | assumption
    | with_reducible refine write32_keeps (by decide) ?_

theorem execWValidate_keeps {kl : List Piece} {k0 : State} {p : Place} {addr : BitVec 16} {w : Word32} {s kt : State}
    (km : [.pins, .jtag, .fw, .boot, .store, .pkg, .clock, .ports, .lds, .mctp, .seats, .steward, .extents, .keys, .mem, .coh, .fronds, .tables, .rings, .searches, .jobs, .nextId, .disp, .covs, .tally, .life, .log, .harvest, .regs, .wire, .freeCtr] ⊆ kl) (ke : execWValidate p addr w s = .next kt)
    (kh : Keeps kl k0 s) : Keeps kl k0 kt := by
  refine Keeps.step ?_ kh km
  unfold execWValidate at ke
  cases ke
  repeat' first
    | with_reducible exact Keeps.refl _ _
    | assumption
    | with_reducible refine write32_keeps (by decide) ?_

theorem execWInvalidate_keeps {kl : List Piece} {k0 : State} {p : Place} {addr : BitVec 16} {w : Word32} {s kt : State}
    (km : [.pins, .jtag, .fw, .boot, .store, .pkg, .clock, .ports, .lds, .mctp, .seats, .steward, .extents, .keys, .mem, .coh, .fronds, .tables, .rings, .searches, .jobs, .nextId, .disp, .covs, .tally, .life, .log, .harvest, .regs, .wire, .freeCtr] ⊆ kl) (ke : execWInvalidate p addr w s = .next kt)
    (kh : Keeps kl k0 s) : Keeps kl k0 kt := by
  refine Keeps.step ?_ kh km
  unfold execWInvalidate at ke
  cases ke
  repeat' first
    | with_reducible exact Keeps.refl _ _
    | assumption
    | with_reducible refine write32_keeps (by decide) ?_

end Sys2Proof.Machine
end

