-- ==== Sys2Proof/Laws/Sideband.lean ====
section
/-!
SUPPORT. What the operations of Machine/Sideband.lean keep.
-/
set_option linter.unusedTactic false
set_option linter.unreachableTactic false
namespace Sys2Proof.Machine

theorem answer_keeps {kl : List Piece} {k0 s : State} {command status : Nat} {words : List (BitVec 64)}
    (km : [.wire] ⊆ kl)
    (kh : Keeps kl k0 s) : Keeps kl k0 (answer s command status words) := by
  refine Keeps.step ?_ kh km
  unfold answer
  repeat' first
    | with_reducible exact Keeps.refl _ _
    | assumption
    | with_reducible refine send_keeps (by decide) ?_

theorem fullCmd_keeps {kl : List Piece} {k0 s : State} {command : Nat} {f : State → State}
    (km : [.tally, .regs, .wire] ⊆ kl) (kf : ∀ t, Keeps kl k0 t → Keeps kl k0 (f t)) (kh : Keeps kl k0 s) : Keeps kl k0 (fullCmd s command f) := by
  unfold fullCmd
  exact Keeps.ite (kf _ (sideWake_keeps (List.Subset.trans (by decide) km) kh)) (answer_keeps (List.Subset.trans (by decide) km) kh)

theorem execStageQuery_keeps {kl : List Piece} {k0 : State} {s : State} {kt : State} (km : [.tally, .regs, .wire] ⊆ kl) (ke : execStageQuery s = .next kt)
    (kh : Keeps kl k0 s) : Keeps kl k0 kt := by
  refine Keeps.step ?_ kh km
  unfold execStageQuery at ke
  cases ke
  repeat' first
    | with_reducible exact Keeps.refl _ _
    | assumption
    | with_reducible refine answer_keeps (by decide) ?_
    | with_reducible refine sideWake_keeps (by decide) ?_
    | with_reducible refine Keeps.ite ?_ ?_
    | split
    | dsimp only
    | split

theorem execHealth_keeps {kl : List Piece} {k0 s kt : State}
    (km : [.tally, .regs, .wire] ⊆ kl) (ke : execHealth s = .next kt)
    (kh : Keeps kl k0 s) : Keeps kl k0 kt := by
  refine Keeps.step ?_ kh km
  unfold execHealth at ke
  cases ke
  repeat' first
    | with_reducible exact Keeps.refl _ _
    | assumption
    | with_reducible refine fullCmd_keeps (by decide) (fun _ _ => ?_) ?_
    | with_reducible refine answer_keeps (by decide) ?_

theorem execLedgerRead_keeps {kl : List Piece} {k0 : State} {id : Word} {s kt : State}
    (km : [.tally, .regs, .wire] ⊆ kl) (ke : execLedgerRead id s = .next kt)
    (kh : Keeps kl k0 s) : Keeps kl k0 kt := by
  refine Keeps.step ?_ kh km
  unfold execLedgerRead at ke
  cases ke
  repeat' first
    | with_reducible exact Keeps.refl _ _
    | assumption
    | with_reducible refine fullCmd_keeps (by decide) (fun _ _ => ?_) ?_
    | with_reducible refine answer_keeps (by decide) ?_
    | split

theorem execLogRead_keeps {kl : List Piece} {k0 : State} {seq : BitVec 48} {s kt : State}
    (km : [.tally, .log, .regs, .wire] ⊆ kl) (ke : execLogRead seq s = .next kt)
    (kh : Keeps kl k0 s) : Keeps kl k0 kt := by
  refine Keeps.step ?_ kh km
  unfold execLogRead at ke
  cases ke
  repeat' first
    | with_reducible exact Keeps.refl _ _
    | assumption
    | with_reducible refine fullCmd_keeps (by decide) (fun _ _ => ?_) ?_
    | with_reducible refine send_keeps (by decide) ?_
    | with_reducible refine answer_keeps (by decide) ?_
    | split
    | dsimp only
    | (with_reducible refine Keeps.set ?_ ?_ ?_ ?_ ?_ ?_ ?_ ?_ ?_ ?_ ?_ ?_ ?_; rotate_left 1
       · (refine Only.intro fun kp khp => ?_; cases kp <;> first | with_reducible exact rfl | exact absurd (by decide) khp)
       · with_reducible exact List.prefix_refl _
       · with_reducible exact Nat.le_refl _
       · with_reducible exact Nat.le_refl _
       · with_reducible exact Nat.le_refl _
       · with_reducible exact List.suffix_refl _
       · with_reducible exact fun x => x
       · with_reducible exact fun x => x
       · with_reducible exact fun x => x
       · with_reducible exact fun x => x
       · with_reducible exact fun x => x
       · with_reducible exact fun x => ⟨x.mode, x.bootMode, x.storeMode, x.sel, x.whole⟩)

theorem execOrderlyPd_keeps {kl : List Piece} {k0 s kt : State}
    (km : [.pins, .jtag, .fw, .boot, .store, .pkg, .clock, .ports, .lds, .mctp, .seats, .steward, .extents, .keys, .mem, .coh, .fronds, .tables, .rings, .searches, .jobs, .nextId, .disp, .covs, .tally, .life, .log, .harvest, .regs, .wire, .freeCtr] ⊆ kl) (ke : execOrderlyPd s = .next kt)
    (kh : Keeps kl k0 s) : Keeps kl k0 kt := by
  refine Keeps.step ?_ kh km
  unfold execOrderlyPd at ke
  cases ke
  repeat' first
    | with_reducible exact Keeps.refl _ _
    | with_reducible assumption
    | with_reducible refine fullCmd_keeps (by decide) (fun _ _ => ?_) ?_
    | with_reducible refine orderlyDown_keeps (by decide) ?_
    | with_reducible refine answer_keeps (by decide) ?_
    | with_reducible refine Keeps.ite ?_ ?_

theorem execEmergencyPd_keeps {kl : List Piece} {k0 : State} {confirm : BitVec 8} {s kt : State}
    (km : [.pins, .jtag, .fw, .boot, .store, .pkg, .clock, .ports, .lds, .mctp, .seats, .steward, .extents, .keys, .mem, .coh, .fronds, .tables, .rings, .searches, .jobs, .nextId, .disp, .covs, .tally, .life, .log, .harvest, .regs, .wire, .freeCtr] ⊆ kl) (ke : execEmergencyPd confirm s = .next kt)
    (kh : Keeps kl k0 s) : Keeps kl k0 kt := by
  refine Keeps.step ?_ kh km
  unfold execEmergencyPd at ke
  cases ke
  repeat' first
    | with_reducible exact Keeps.refl _ _
    | with_reducible assumption
    | with_reducible refine fullCmd_keeps (by decide) (fun _ _ => ?_) ?_
    | with_reducible refine emergencyDown_keeps (by decide) ?_
    | with_reducible refine answer_keeps (by decide) ?_
    | with_reducible refine Keeps.ite ?_ ?_

theorem execRestart_keeps {kl : List Piece} {k0 s kt : State}
    (km : [.pins, .jtag, .fw, .boot, .store, .pkg, .clock, .ports, .lds, .mctp, .seats, .steward, .extents, .keys, .mem, .coh, .fronds, .tables, .rings, .searches, .jobs, .nextId, .disp, .covs, .tally, .life, .log, .harvest, .regs, .wire, .freeCtr] ⊆ kl) (ke : execRestart s = .next kt)
    (kh : Keeps kl k0 s) : Keeps kl k0 kt := by
  refine Keeps.step ?_ kh km
  unfold execRestart at ke
  cases ke
  repeat' first
    | with_reducible exact Keeps.refl _ _
    | assumption
    | with_reducible refine beginStart_keeps (by decide) ?_
    | with_reducible refine answer_keeps (by decide) ?_
    | with_reducible refine Keeps.ite ?_ ?_

theorem execPldmFirmwareUpdate_keeps {kl : List Piece} {k0 : State} {hub : BitVec 1} {image : FwImage} {s : State} {kt : State} (km : [.fw, .tally, .regs, .wire] ⊆ kl) (ke : execPldmFirmwareUpdate hub image s = .next kt)
    (kh : Keeps kl k0 s) : Keeps kl k0 kt := by
  refine Keeps.step ?_ kh km
  unfold execPldmFirmwareUpdate at ke
  cases ke
  repeat' first
    | with_reducible exact Keeps.refl _ _
    | assumption
    | with_reducible refine send_keeps (by decide) ?_
    | with_reducible refine sideWake_keeps (by decide) ?_
    | with_reducible refine Keeps.ite ?_ ?_
    | with_reducible refine Keeps.getD ?_ (fun _ _ => ?_)
    | split
    | dsimp only
    | (with_reducible refine Keeps.put ?_ ?_; rotate_left 1
       · (refine Only.intro fun kp khp => ?_; cases kp <;> first | with_reducible exact rfl | exact absurd (by decide) khp))
    | (with_reducible refine Keeps.set ?_ ?_; rotate_left 1
       · (refine Only.intro fun kp khp => ?_; cases kp <;> first | with_reducible exact rfl | exact absurd (by decide) khp))
    | split

theorem execPldmPlatformMonitoring_keeps {kl : List Piece} {k0 : State} {sensor : PldmSensor} {s : State} {kt : State} (km : [.tally, .regs, .wire, .freeCtr] ⊆ kl) (ke : execPldmPlatformMonitoring sensor s = .next kt)
    (kh : Keeps kl k0 s) : Keeps kl k0 kt := by
  refine Keeps.step ?_ kh km
  unfold execPldmPlatformMonitoring at ke
  cases ke
  repeat' first
    | with_reducible exact Keeps.refl _ _
    | assumption
    | with_reducible refine fresh_keeps (by decide) ?_
    | with_reducible refine send_keeps (by decide) ?_
    | with_reducible refine sideWake_keeps (by decide) ?_
    | with_reducible refine Keeps.ite ?_ ?_
    | split
    | dsimp only
    | split

theorem execMctpControl_keeps {kl : List Piece} {k0 : State} {cmd : MctpCmd} {s : State} {kt : State} (km : [.mctp, .tally, .regs, .wire, .freeCtr] ⊆ kl) (ke : execMctpControl cmd s = .next kt)
    (kh : Keeps kl k0 s) : Keeps kl k0 kt := by
  refine Keeps.step ?_ kh km
  unfold execMctpControl at ke
  cases ke
  repeat' first
    | with_reducible exact Keeps.refl _ _
    | assumption
    | with_reducible refine send_keeps (by decide) ?_
    | with_reducible refine sideWake_keeps (by decide) ?_
    | with_reducible refine fresh_keeps (by decide) ?_
    | with_reducible refine Keeps.ite ?_ ?_
    | split
    | dsimp only
    | (with_reducible refine Keeps.put ?_ ?_; rotate_left 1
       · (refine Only.intro fun kp khp => ?_; cases kp <;> first | with_reducible exact rfl | exact absurd (by decide) khp))
    | (with_reducible refine Keeps.set ?_ ?_; rotate_left 1
       · (refine Only.intro fun kp khp => ?_; cases kp <;> first | with_reducible exact rfl | exact absurd (by decide) khp))
    | split

theorem setIr_keeps {kl : List Piece} {k0 s : State} {i : JtagIr}
    (km : [.jtag] ⊆ kl)
    (kh : Keeps kl k0 s) : Keeps kl k0 (setIr s i) := by
  refine Keeps.step ?_ kh km
  unfold setIr
  repeat' first
    | with_reducible exact Keeps.refl _ _
    | assumption
    | (with_reducible refine Keeps.put ?_ ?_; rotate_left 1
       · (refine Only.intro fun kp khp => ?_; cases kp <;> first | with_reducible exact rfl | exact absurd (by decide) khp))

theorem extestAs_keeps {kl : List Piece} {k0 s : State} {i : JtagIr}
    (km : [.jtag, .wire] ⊆ kl)
    (kh : Keeps kl k0 s) : Keeps kl k0 (extestAs s i) := by
  refine Keeps.step ?_ kh km
  unfold extestAs
  repeat' first
    | with_reducible exact Keeps.refl _ _
    | assumption
    | with_reducible refine send_keeps (by decide) ?_
    | with_reducible refine setIr_keeps (by decide) ?_
    | with_reducible refine Keeps.ite ?_ ?_
    | (with_reducible refine Keeps.put ?_ ?_; rotate_left 1
       · (refine Only.intro fun kp khp => ?_; cases kp <;> first | with_reducible exact rfl | exact absurd (by decide) khp))

theorem execBypass_keeps {kl : List Piece} {k0 s kt : State}
    (km : [.jtag, .wire] ⊆ kl) (ke : execBypass s = .next kt)
    (kh : Keeps kl k0 s) : Keeps kl k0 kt := by
  refine Keeps.step ?_ kh km
  unfold execBypass at ke
  cases ke
  repeat' first
    | with_reducible exact Keeps.refl _ _
    | assumption
    | with_reducible refine send_keeps (by decide) ?_
    | with_reducible refine setIr_keeps (by decide) ?_

theorem execIdcode_keeps {kl : List Piece} {k0 s kt : State}
    (km : [.jtag, .wire] ⊆ kl) (ke : execIdcode s = .next kt)
    (kh : Keeps kl k0 s) : Keeps kl k0 kt := by
  refine Keeps.step ?_ kh km
  unfold execIdcode at ke
  cases ke
  repeat' first
    | with_reducible exact Keeps.refl _ _
    | assumption
    | with_reducible refine send_keeps (by decide) ?_
    | with_reducible refine setIr_keeps (by decide) ?_

theorem execSamplePreload_keeps {kl : List Piece} {k0 : State} {preload : List (BitVec 13 × Bool)} {s kt : State}
    (km : [.jtag, .wire, .freeCtr] ⊆ kl) (ke : execSamplePreload preload s = .next kt)
    (kh : Keeps kl k0 s) : Keeps kl k0 kt := by
  refine Keeps.step ?_ kh km
  unfold execSamplePreload at ke
  cases ke
  repeat' first
    | with_reducible exact Keeps.refl _ _
    | assumption
    | with_reducible refine setIr_keeps (by decide) ?_
    | with_reducible refine fresh_keeps (by decide) ?_
    | with_reducible refine send_keeps (by decide) ?_
    | with_reducible refine Keeps.foldl ?_ (fun _ _ => ?_)
    | with_reducible refine Keeps.foldl1 ?_ (fun _ _ => ?_)
    | split
    | dsimp only
    | (with_reducible refine Keeps.put ?_ ?_; rotate_left 1
       · (refine Only.intro fun kp khp => ?_; cases kp <;> first | with_reducible exact rfl | exact absurd (by decide) khp))

theorem execExtest_keeps {kl : List Piece} {k0 s kt : State}
    (km : [.jtag, .wire] ⊆ kl) (ke : execExtest s = .next kt)
    (kh : Keeps kl k0 s) : Keeps kl k0 kt := by
  refine Keeps.step ?_ kh km
  unfold execExtest at ke
  cases ke
  repeat' first
    | with_reducible exact Keeps.refl _ _
    | assumption
    | with_reducible refine extestAs_keeps (by decide) ?_

theorem execExtestPulse_keeps {kl : List Piece} {k0 s kt : State}
    (km : [.jtag, .wire] ⊆ kl) (ke : execExtestPulse s = .next kt)
    (kh : Keeps kl k0 s) : Keeps kl k0 kt := by
  refine Keeps.step ?_ kh km
  unfold execExtestPulse at ke
  cases ke
  repeat' first
    | with_reducible exact Keeps.refl _ _
    | assumption
    | with_reducible refine extestAs_keeps (by decide) ?_

theorem execExtestTrain_keeps {kl : List Piece} {k0 s kt : State}
    (km : [.jtag, .wire] ⊆ kl) (ke : execExtestTrain s = .next kt)
    (kh : Keeps kl k0 s) : Keeps kl k0 kt := by
  refine Keeps.step ?_ kh km
  unfold execExtestTrain at ke
  cases ke
  repeat' first
    | with_reducible exact Keeps.refl _ _
    | assumption
    | with_reducible refine extestAs_keeps (by decide) ?_

end Sys2Proof.Machine
end

