-- ==== Sys2Proof/Laws/State.lean ====
section
/-!
SUPPORT. What each plain update leaves in every field of State.
-/
namespace Sys2Proof.Machine

@[simp] theorem send_chip (s : State) (o : Out) : (send s o).chip = s.chip := rfl
@[simp] theorem send_pins (s : State) (o : Out) : (send s o).pins = s.pins := rfl
@[simp] theorem send_jtag (s : State) (o : Out) : (send s o).jtag = s.jtag := rfl
@[simp] theorem send_fw (s : State) (o : Out) : (send s o).fw = s.fw := rfl
@[simp] theorem send_boot (s : State) (o : Out) : (send s o).boot = s.boot := rfl
@[simp] theorem send_store (s : State) (o : Out) : (send s o).store = s.store := rfl
@[simp] theorem send_pkg (s : State) (o : Out) : (send s o).pkg = s.pkg := rfl
@[simp] theorem send_clock (s : State) (o : Out) : (send s o).clock = s.clock := rfl
@[simp] theorem send_ports (s : State) (o : Out) : (send s o).ports = s.ports := rfl
@[simp] theorem send_lds (s : State) (o : Out) : (send s o).lds = s.lds := rfl
@[simp] theorem send_mctp (s : State) (o : Out) : (send s o).mctp = s.mctp := rfl
@[simp] theorem send_seats (s : State) (o : Out) : (send s o).seats = s.seats := rfl
@[simp] theorem send_steward (s : State) (o : Out) : (send s o).steward = s.steward := rfl
@[simp] theorem send_extents (s : State) (o : Out) : (send s o).extents = s.extents := rfl
@[simp] theorem send_keys (s : State) (o : Out) : (send s o).keys = s.keys := rfl
@[simp] theorem send_mem (s : State) (o : Out) : (send s o).mem = s.mem := rfl
@[simp] theorem send_coh (s : State) (o : Out) : (send s o).coh = s.coh := rfl
@[simp] theorem send_fronds (s : State) (o : Out) : (send s o).fronds = s.fronds := rfl
@[simp] theorem send_tables (s : State) (o : Out) : (send s o).tables = s.tables := rfl
@[simp] theorem send_rings (s : State) (o : Out) : (send s o).rings = s.rings := rfl
@[simp] theorem send_searches (s : State) (o : Out) : (send s o).searches = s.searches := rfl
@[simp] theorem send_jobs (s : State) (o : Out) : (send s o).jobs = s.jobs := rfl
@[simp] theorem send_nextId (s : State) (o : Out) : (send s o).nextId = s.nextId := rfl
@[simp] theorem send_disp (s : State) (o : Out) : (send s o).disp = s.disp := rfl
@[simp] theorem send_covs (s : State) (o : Out) : (send s o).covs = s.covs := rfl
@[simp] theorem send_tally (s : State) (o : Out) : (send s o).tally = s.tally := rfl
@[simp] theorem send_life (s : State) (o : Out) : (send s o).life = s.life := rfl
@[simp] theorem send_log (s : State) (o : Out) : (send s o).log = s.log := rfl
@[simp] theorem send_harvest (s : State) (o : Out) : (send s o).harvest = s.harvest := rfl
@[simp] theorem send_regs (s : State) (o : Out) : (send s o).regs = s.regs := rfl
@[simp] theorem send_wire (s : State) (o : Out) : (send s o).wire = o :: s.wire := rfl
@[simp] theorem send_freeCtr (s : State) (o : Out) : (send s o).freeCtr = s.freeCtr := rfl
@[simp] theorem send_pending (s : State) (o : Out) : (send s o).pending = s.pending := rfl

@[simp] theorem fresh_chip (s : State) : (fresh s).chip = s.chip := rfl
@[simp] theorem fresh_pins (s : State) : (fresh s).pins = s.pins := rfl
@[simp] theorem fresh_jtag (s : State) : (fresh s).jtag = s.jtag := rfl
@[simp] theorem fresh_fw (s : State) : (fresh s).fw = s.fw := rfl
@[simp] theorem fresh_boot (s : State) : (fresh s).boot = s.boot := rfl
@[simp] theorem fresh_store (s : State) : (fresh s).store = s.store := rfl
@[simp] theorem fresh_pkg (s : State) : (fresh s).pkg = s.pkg := rfl
@[simp] theorem fresh_clock (s : State) : (fresh s).clock = s.clock := rfl
@[simp] theorem fresh_ports (s : State) : (fresh s).ports = s.ports := rfl
@[simp] theorem fresh_lds (s : State) : (fresh s).lds = s.lds := rfl
@[simp] theorem fresh_mctp (s : State) : (fresh s).mctp = s.mctp := rfl
@[simp] theorem fresh_seats (s : State) : (fresh s).seats = s.seats := rfl
@[simp] theorem fresh_steward (s : State) : (fresh s).steward = s.steward := rfl
@[simp] theorem fresh_extents (s : State) : (fresh s).extents = s.extents := rfl
@[simp] theorem fresh_keys (s : State) : (fresh s).keys = s.keys := rfl
@[simp] theorem fresh_mem (s : State) : (fresh s).mem = s.mem := rfl
@[simp] theorem fresh_coh (s : State) : (fresh s).coh = s.coh := rfl
@[simp] theorem fresh_fronds (s : State) : (fresh s).fronds = s.fronds := rfl
@[simp] theorem fresh_tables (s : State) : (fresh s).tables = s.tables := rfl
@[simp] theorem fresh_rings (s : State) : (fresh s).rings = s.rings := rfl
@[simp] theorem fresh_searches (s : State) : (fresh s).searches = s.searches := rfl
@[simp] theorem fresh_jobs (s : State) : (fresh s).jobs = s.jobs := rfl
@[simp] theorem fresh_nextId (s : State) : (fresh s).nextId = s.nextId := rfl
@[simp] theorem fresh_disp (s : State) : (fresh s).disp = s.disp := rfl
@[simp] theorem fresh_covs (s : State) : (fresh s).covs = s.covs := rfl
@[simp] theorem fresh_tally (s : State) : (fresh s).tally = s.tally := rfl
@[simp] theorem fresh_life (s : State) : (fresh s).life = s.life := rfl
@[simp] theorem fresh_log (s : State) : (fresh s).log = s.log := rfl
@[simp] theorem fresh_harvest (s : State) : (fresh s).harvest = s.harvest := rfl
@[simp] theorem fresh_regs (s : State) : (fresh s).regs = s.regs := rfl
@[simp] theorem fresh_wire (s : State) : (fresh s).wire = s.wire := rfl
@[simp] theorem fresh_freeCtr (s : State) : (fresh s).freeCtr = s.freeCtr + 1 := rfl
@[simp] theorem fresh_pending (s : State) : (fresh s).pending = s.pending := rfl

@[simp] theorem assertFault_chip (s : State) : (assertFault s).chip = s.chip := rfl
@[simp] theorem assertFault_pins (s : State) : (assertFault s).pins = { s.pins with fault := true } := rfl
@[simp] theorem assertFault_jtag (s : State) : (assertFault s).jtag = s.jtag := rfl
@[simp] theorem assertFault_fw (s : State) : (assertFault s).fw = s.fw := rfl
@[simp] theorem assertFault_boot (s : State) : (assertFault s).boot = s.boot := rfl
@[simp] theorem assertFault_store (s : State) : (assertFault s).store = s.store := rfl
@[simp] theorem assertFault_pkg (s : State) : (assertFault s).pkg = s.pkg := rfl
@[simp] theorem assertFault_clock (s : State) : (assertFault s).clock = s.clock := rfl
@[simp] theorem assertFault_ports (s : State) : (assertFault s).ports = s.ports := rfl
@[simp] theorem assertFault_lds (s : State) : (assertFault s).lds = s.lds := rfl
@[simp] theorem assertFault_mctp (s : State) : (assertFault s).mctp = s.mctp := rfl
@[simp] theorem assertFault_seats (s : State) : (assertFault s).seats = s.seats := rfl
@[simp] theorem assertFault_steward (s : State) : (assertFault s).steward = s.steward := rfl
@[simp] theorem assertFault_extents (s : State) : (assertFault s).extents = s.extents := rfl
@[simp] theorem assertFault_keys (s : State) : (assertFault s).keys = s.keys := rfl
@[simp] theorem assertFault_mem (s : State) : (assertFault s).mem = s.mem := rfl
@[simp] theorem assertFault_coh (s : State) : (assertFault s).coh = s.coh := rfl
@[simp] theorem assertFault_fronds (s : State) : (assertFault s).fronds = s.fronds := rfl
@[simp] theorem assertFault_tables (s : State) : (assertFault s).tables = s.tables := rfl
@[simp] theorem assertFault_rings (s : State) : (assertFault s).rings = s.rings := rfl
@[simp] theorem assertFault_searches (s : State) : (assertFault s).searches = s.searches := rfl
@[simp] theorem assertFault_jobs (s : State) : (assertFault s).jobs = s.jobs := rfl
@[simp] theorem assertFault_nextId (s : State) : (assertFault s).nextId = s.nextId := rfl
@[simp] theorem assertFault_disp (s : State) : (assertFault s).disp = s.disp := rfl
@[simp] theorem assertFault_covs (s : State) : (assertFault s).covs = s.covs := rfl
@[simp] theorem assertFault_tally (s : State) : (assertFault s).tally = s.tally := rfl
@[simp] theorem assertFault_life (s : State) : (assertFault s).life = s.life := rfl
@[simp] theorem assertFault_log (s : State) : (assertFault s).log = s.log := rfl
@[simp] theorem assertFault_harvest (s : State) : (assertFault s).harvest = s.harvest := rfl
@[simp] theorem assertFault_regs (s : State) : (assertFault s).regs = s.regs := rfl
@[simp] theorem assertFault_wire (s : State) : (assertFault s).wire = s.wire := rfl
@[simp] theorem assertFault_freeCtr (s : State) : (assertFault s).freeCtr = s.freeCtr := rfl
@[simp] theorem assertFault_pending (s : State) : (assertFault s).pending = s.pending := rfl

@[simp] theorem setReg_chip (s : State) (a : Nat) (v : Word) : (setReg s a v).chip = s.chip := rfl
@[simp] theorem setReg_pins (s : State) (a : Nat) (v : Word) : (setReg s a v).pins = s.pins := rfl
@[simp] theorem setReg_jtag (s : State) (a : Nat) (v : Word) : (setReg s a v).jtag = s.jtag := rfl
@[simp] theorem setReg_fw (s : State) (a : Nat) (v : Word) : (setReg s a v).fw = s.fw := rfl
@[simp] theorem setReg_boot (s : State) (a : Nat) (v : Word) : (setReg s a v).boot = s.boot := rfl
@[simp] theorem setReg_store (s : State) (a : Nat) (v : Word) : (setReg s a v).store = s.store := rfl
@[simp] theorem setReg_pkg (s : State) (a : Nat) (v : Word) : (setReg s a v).pkg = s.pkg := rfl
@[simp] theorem setReg_clock (s : State) (a : Nat) (v : Word) : (setReg s a v).clock = s.clock := rfl
@[simp] theorem setReg_ports (s : State) (a : Nat) (v : Word) : (setReg s a v).ports = s.ports := rfl
@[simp] theorem setReg_lds (s : State) (a : Nat) (v : Word) : (setReg s a v).lds = s.lds := rfl
@[simp] theorem setReg_mctp (s : State) (a : Nat) (v : Word) : (setReg s a v).mctp = s.mctp := rfl
@[simp] theorem setReg_seats (s : State) (a : Nat) (v : Word) : (setReg s a v).seats = s.seats := rfl
@[simp] theorem setReg_steward (s : State) (a : Nat) (v : Word) : (setReg s a v).steward = s.steward := rfl
@[simp] theorem setReg_extents (s : State) (a : Nat) (v : Word) : (setReg s a v).extents = s.extents := rfl
@[simp] theorem setReg_keys (s : State) (a : Nat) (v : Word) : (setReg s a v).keys = s.keys := rfl
@[simp] theorem setReg_mem (s : State) (a : Nat) (v : Word) : (setReg s a v).mem = s.mem := rfl
@[simp] theorem setReg_coh (s : State) (a : Nat) (v : Word) : (setReg s a v).coh = s.coh := rfl
@[simp] theorem setReg_fronds (s : State) (a : Nat) (v : Word) : (setReg s a v).fronds = s.fronds := rfl
@[simp] theorem setReg_tables (s : State) (a : Nat) (v : Word) : (setReg s a v).tables = s.tables := rfl
@[simp] theorem setReg_rings (s : State) (a : Nat) (v : Word) : (setReg s a v).rings = s.rings := rfl
@[simp] theorem setReg_searches (s : State) (a : Nat) (v : Word) : (setReg s a v).searches = s.searches := rfl
@[simp] theorem setReg_jobs (s : State) (a : Nat) (v : Word) : (setReg s a v).jobs = s.jobs := rfl
@[simp] theorem setReg_nextId (s : State) (a : Nat) (v : Word) : (setReg s a v).nextId = s.nextId := rfl
@[simp] theorem setReg_disp (s : State) (a : Nat) (v : Word) : (setReg s a v).disp = s.disp := rfl
@[simp] theorem setReg_covs (s : State) (a : Nat) (v : Word) : (setReg s a v).covs = s.covs := rfl
@[simp] theorem setReg_tally (s : State) (a : Nat) (v : Word) : (setReg s a v).tally = s.tally := rfl
@[simp] theorem setReg_life (s : State) (a : Nat) (v : Word) : (setReg s a v).life = s.life := rfl
@[simp] theorem setReg_log (s : State) (a : Nat) (v : Word) : (setReg s a v).log = s.log := rfl
@[simp] theorem setReg_harvest (s : State) (a : Nat) (v : Word) : (setReg s a v).harvest = s.harvest := rfl
@[simp] theorem setReg_regs (s : State) (a : Nat) (v : Word) : (setReg s a v).regs = { s.regs with file := mput s.regs.file a v } := rfl
@[simp] theorem setReg_wire (s : State) (a : Nat) (v : Word) : (setReg s a v).wire = s.wire := rfl
@[simp] theorem setReg_freeCtr (s : State) (a : Nat) (v : Word) : (setReg s a v).freeCtr = s.freeCtr := rfl
@[simp] theorem setReg_pending (s : State) (a : Nat) (v : Word) : (setReg s a v).pending = s.pending := rfl

@[simp] theorem modSeat_chip (s : State) (n : Nat) (f : Seat → Seat) : (modSeat s n f).chip = s.chip := rfl
@[simp] theorem modSeat_pins (s : State) (n : Nat) (f : Seat → Seat) : (modSeat s n f).pins = s.pins := rfl
@[simp] theorem modSeat_jtag (s : State) (n : Nat) (f : Seat → Seat) : (modSeat s n f).jtag = s.jtag := rfl
@[simp] theorem modSeat_fw (s : State) (n : Nat) (f : Seat → Seat) : (modSeat s n f).fw = s.fw := rfl
@[simp] theorem modSeat_boot (s : State) (n : Nat) (f : Seat → Seat) : (modSeat s n f).boot = s.boot := rfl
@[simp] theorem modSeat_store (s : State) (n : Nat) (f : Seat → Seat) : (modSeat s n f).store = s.store := rfl
@[simp] theorem modSeat_pkg (s : State) (n : Nat) (f : Seat → Seat) : (modSeat s n f).pkg = s.pkg := rfl
@[simp] theorem modSeat_clock (s : State) (n : Nat) (f : Seat → Seat) : (modSeat s n f).clock = s.clock := rfl
@[simp] theorem modSeat_ports (s : State) (n : Nat) (f : Seat → Seat) : (modSeat s n f).ports = s.ports := rfl
@[simp] theorem modSeat_lds (s : State) (n : Nat) (f : Seat → Seat) : (modSeat s n f).lds = s.lds := rfl
@[simp] theorem modSeat_mctp (s : State) (n : Nat) (f : Seat → Seat) : (modSeat s n f).mctp = s.mctp := rfl
@[simp] theorem modSeat_seats (s : State) (n : Nat) (f : Seat → Seat) : (modSeat s n f).seats = mmod s.seats n f := rfl
@[simp] theorem modSeat_steward (s : State) (n : Nat) (f : Seat → Seat) : (modSeat s n f).steward = s.steward := rfl
@[simp] theorem modSeat_extents (s : State) (n : Nat) (f : Seat → Seat) : (modSeat s n f).extents = s.extents := rfl
@[simp] theorem modSeat_keys (s : State) (n : Nat) (f : Seat → Seat) : (modSeat s n f).keys = s.keys := rfl
@[simp] theorem modSeat_mem (s : State) (n : Nat) (f : Seat → Seat) : (modSeat s n f).mem = s.mem := rfl
@[simp] theorem modSeat_coh (s : State) (n : Nat) (f : Seat → Seat) : (modSeat s n f).coh = s.coh := rfl
@[simp] theorem modSeat_fronds (s : State) (n : Nat) (f : Seat → Seat) : (modSeat s n f).fronds = s.fronds := rfl
@[simp] theorem modSeat_tables (s : State) (n : Nat) (f : Seat → Seat) : (modSeat s n f).tables = s.tables := rfl
@[simp] theorem modSeat_rings (s : State) (n : Nat) (f : Seat → Seat) : (modSeat s n f).rings = s.rings := rfl
@[simp] theorem modSeat_searches (s : State) (n : Nat) (f : Seat → Seat) : (modSeat s n f).searches = s.searches := rfl
@[simp] theorem modSeat_jobs (s : State) (n : Nat) (f : Seat → Seat) : (modSeat s n f).jobs = s.jobs := rfl
@[simp] theorem modSeat_nextId (s : State) (n : Nat) (f : Seat → Seat) : (modSeat s n f).nextId = s.nextId := rfl
@[simp] theorem modSeat_disp (s : State) (n : Nat) (f : Seat → Seat) : (modSeat s n f).disp = s.disp := rfl
@[simp] theorem modSeat_covs (s : State) (n : Nat) (f : Seat → Seat) : (modSeat s n f).covs = s.covs := rfl
@[simp] theorem modSeat_tally (s : State) (n : Nat) (f : Seat → Seat) : (modSeat s n f).tally = s.tally := rfl
@[simp] theorem modSeat_life (s : State) (n : Nat) (f : Seat → Seat) : (modSeat s n f).life = s.life := rfl
@[simp] theorem modSeat_log (s : State) (n : Nat) (f : Seat → Seat) : (modSeat s n f).log = s.log := rfl
@[simp] theorem modSeat_harvest (s : State) (n : Nat) (f : Seat → Seat) : (modSeat s n f).harvest = s.harvest := rfl
@[simp] theorem modSeat_regs (s : State) (n : Nat) (f : Seat → Seat) : (modSeat s n f).regs = s.regs := rfl
@[simp] theorem modSeat_wire (s : State) (n : Nat) (f : Seat → Seat) : (modSeat s n f).wire = s.wire := rfl
@[simp] theorem modSeat_freeCtr (s : State) (n : Nat) (f : Seat → Seat) : (modSeat s n f).freeCtr = s.freeCtr := rfl
@[simp] theorem modSeat_pending (s : State) (n : Nat) (f : Seat → Seat) : (modSeat s n f).pending = s.pending := rfl

@[simp] theorem modLd_chip (s : State) (p : Place) (f : Ld → Ld) : (modLd s p f).chip = s.chip := rfl
@[simp] theorem modLd_pins (s : State) (p : Place) (f : Ld → Ld) : (modLd s p f).pins = s.pins := rfl
@[simp] theorem modLd_jtag (s : State) (p : Place) (f : Ld → Ld) : (modLd s p f).jtag = s.jtag := rfl
@[simp] theorem modLd_fw (s : State) (p : Place) (f : Ld → Ld) : (modLd s p f).fw = s.fw := rfl
@[simp] theorem modLd_boot (s : State) (p : Place) (f : Ld → Ld) : (modLd s p f).boot = s.boot := rfl
@[simp] theorem modLd_store (s : State) (p : Place) (f : Ld → Ld) : (modLd s p f).store = s.store := rfl
@[simp] theorem modLd_pkg (s : State) (p : Place) (f : Ld → Ld) : (modLd s p f).pkg = s.pkg := rfl
@[simp] theorem modLd_clock (s : State) (p : Place) (f : Ld → Ld) : (modLd s p f).clock = s.clock := rfl
@[simp] theorem modLd_ports (s : State) (p : Place) (f : Ld → Ld) : (modLd s p f).ports = s.ports := rfl
@[simp] theorem modLd_lds (s : State) (p : Place) (f : Ld → Ld) : (modLd s p f).lds = mput s.lds p.toNat (f (ld s p)) := rfl
@[simp] theorem modLd_mctp (s : State) (p : Place) (f : Ld → Ld) : (modLd s p f).mctp = s.mctp := rfl
@[simp] theorem modLd_seats (s : State) (p : Place) (f : Ld → Ld) : (modLd s p f).seats = s.seats := rfl
@[simp] theorem modLd_steward (s : State) (p : Place) (f : Ld → Ld) : (modLd s p f).steward = s.steward := rfl
@[simp] theorem modLd_extents (s : State) (p : Place) (f : Ld → Ld) : (modLd s p f).extents = s.extents := rfl
@[simp] theorem modLd_keys (s : State) (p : Place) (f : Ld → Ld) : (modLd s p f).keys = s.keys := rfl
@[simp] theorem modLd_mem (s : State) (p : Place) (f : Ld → Ld) : (modLd s p f).mem = s.mem := rfl
@[simp] theorem modLd_coh (s : State) (p : Place) (f : Ld → Ld) : (modLd s p f).coh = s.coh := rfl
@[simp] theorem modLd_fronds (s : State) (p : Place) (f : Ld → Ld) : (modLd s p f).fronds = s.fronds := rfl
@[simp] theorem modLd_tables (s : State) (p : Place) (f : Ld → Ld) : (modLd s p f).tables = s.tables := rfl
@[simp] theorem modLd_rings (s : State) (p : Place) (f : Ld → Ld) : (modLd s p f).rings = s.rings := rfl
@[simp] theorem modLd_searches (s : State) (p : Place) (f : Ld → Ld) : (modLd s p f).searches = s.searches := rfl
@[simp] theorem modLd_jobs (s : State) (p : Place) (f : Ld → Ld) : (modLd s p f).jobs = s.jobs := rfl
@[simp] theorem modLd_nextId (s : State) (p : Place) (f : Ld → Ld) : (modLd s p f).nextId = s.nextId := rfl
@[simp] theorem modLd_disp (s : State) (p : Place) (f : Ld → Ld) : (modLd s p f).disp = s.disp := rfl
@[simp] theorem modLd_covs (s : State) (p : Place) (f : Ld → Ld) : (modLd s p f).covs = s.covs := rfl
@[simp] theorem modLd_tally (s : State) (p : Place) (f : Ld → Ld) : (modLd s p f).tally = s.tally := rfl
@[simp] theorem modLd_life (s : State) (p : Place) (f : Ld → Ld) : (modLd s p f).life = s.life := rfl
@[simp] theorem modLd_log (s : State) (p : Place) (f : Ld → Ld) : (modLd s p f).log = s.log := rfl
@[simp] theorem modLd_harvest (s : State) (p : Place) (f : Ld → Ld) : (modLd s p f).harvest = s.harvest := rfl
@[simp] theorem modLd_regs (s : State) (p : Place) (f : Ld → Ld) : (modLd s p f).regs = s.regs := rfl
@[simp] theorem modLd_wire (s : State) (p : Place) (f : Ld → Ld) : (modLd s p f).wire = s.wire := rfl
@[simp] theorem modLd_freeCtr (s : State) (p : Place) (f : Ld → Ld) : (modLd s p f).freeCtr = s.freeCtr := rfl
@[simp] theorem modLd_pending (s : State) (p : Place) (f : Ld → Ld) : (modLd s p f).pending = s.pending := rfl

@[simp] theorem modLedger_chip (s : State) (f : Ledger → Ledger) : (modLedger s f).chip = s.chip := rfl
@[simp] theorem modLedger_pins (s : State) (f : Ledger → Ledger) : (modLedger s f).pins = s.pins := rfl
@[simp] theorem modLedger_jtag (s : State) (f : Ledger → Ledger) : (modLedger s f).jtag = s.jtag := rfl
@[simp] theorem modLedger_fw (s : State) (f : Ledger → Ledger) : (modLedger s f).fw = s.fw := rfl
@[simp] theorem modLedger_boot (s : State) (f : Ledger → Ledger) : (modLedger s f).boot = s.boot := rfl
@[simp] theorem modLedger_store (s : State) (f : Ledger → Ledger) : (modLedger s f).store = s.store := rfl
@[simp] theorem modLedger_pkg (s : State) (f : Ledger → Ledger) : (modLedger s f).pkg = s.pkg := rfl
@[simp] theorem modLedger_clock (s : State) (f : Ledger → Ledger) : (modLedger s f).clock = s.clock := rfl
@[simp] theorem modLedger_ports (s : State) (f : Ledger → Ledger) : (modLedger s f).ports = s.ports := rfl
@[simp] theorem modLedger_lds (s : State) (f : Ledger → Ledger) : (modLedger s f).lds = s.lds := rfl
@[simp] theorem modLedger_mctp (s : State) (f : Ledger → Ledger) : (modLedger s f).mctp = s.mctp := rfl
@[simp] theorem modLedger_seats (s : State) (f : Ledger → Ledger) : (modLedger s f).seats = s.seats := rfl
@[simp] theorem modLedger_steward (s : State) (f : Ledger → Ledger) : (modLedger s f).steward = s.steward := rfl
@[simp] theorem modLedger_extents (s : State) (f : Ledger → Ledger) : (modLedger s f).extents = s.extents := rfl
@[simp] theorem modLedger_keys (s : State) (f : Ledger → Ledger) : (modLedger s f).keys = s.keys := rfl
@[simp] theorem modLedger_mem (s : State) (f : Ledger → Ledger) : (modLedger s f).mem = s.mem := rfl
@[simp] theorem modLedger_coh (s : State) (f : Ledger → Ledger) : (modLedger s f).coh = s.coh := rfl
@[simp] theorem modLedger_fronds (s : State) (f : Ledger → Ledger) : (modLedger s f).fronds = s.fronds := rfl
@[simp] theorem modLedger_tables (s : State) (f : Ledger → Ledger) : (modLedger s f).tables = s.tables := rfl
@[simp] theorem modLedger_rings (s : State) (f : Ledger → Ledger) : (modLedger s f).rings = s.rings := rfl
@[simp] theorem modLedger_searches (s : State) (f : Ledger → Ledger) : (modLedger s f).searches = s.searches := rfl
@[simp] theorem modLedger_jobs (s : State) (f : Ledger → Ledger) : (modLedger s f).jobs = s.jobs := rfl
@[simp] theorem modLedger_nextId (s : State) (f : Ledger → Ledger) : (modLedger s f).nextId = s.nextId := rfl
@[simp] theorem modLedger_disp (s : State) (f : Ledger → Ledger) : (modLedger s f).disp = s.disp := rfl
@[simp] theorem modLedger_covs (s : State) (f : Ledger → Ledger) : (modLedger s f).covs = s.covs := rfl
@[simp] theorem modLedger_tally (s : State) (f : Ledger → Ledger) : (modLedger s f).tally = s.tally := rfl
@[simp] theorem modLedger_life (s : State) (f : Ledger → Ledger) : (modLedger s f).life = { s.life with now := f s.life.now } := rfl
@[simp] theorem modLedger_log (s : State) (f : Ledger → Ledger) : (modLedger s f).log = s.log := rfl
@[simp] theorem modLedger_harvest (s : State) (f : Ledger → Ledger) : (modLedger s f).harvest = s.harvest := rfl
@[simp] theorem modLedger_regs (s : State) (f : Ledger → Ledger) : (modLedger s f).regs = s.regs := rfl
@[simp] theorem modLedger_wire (s : State) (f : Ledger → Ledger) : (modLedger s f).wire = s.wire := rfl
@[simp] theorem modLedger_freeCtr (s : State) (f : Ledger → Ledger) : (modLedger s f).freeCtr = s.freeCtr := rfl
@[simp] theorem modLedger_pending (s : State) (f : Ledger → Ledger) : (modLedger s f).pending = s.pending := rfl

@[simp] theorem modTally_chip (s : State) (f : Tally → Tally) : (modTally s f).chip = s.chip := rfl
@[simp] theorem modTally_pins (s : State) (f : Tally → Tally) : (modTally s f).pins = s.pins := rfl
@[simp] theorem modTally_jtag (s : State) (f : Tally → Tally) : (modTally s f).jtag = s.jtag := rfl
@[simp] theorem modTally_fw (s : State) (f : Tally → Tally) : (modTally s f).fw = s.fw := rfl
@[simp] theorem modTally_boot (s : State) (f : Tally → Tally) : (modTally s f).boot = s.boot := rfl
@[simp] theorem modTally_store (s : State) (f : Tally → Tally) : (modTally s f).store = s.store := rfl
@[simp] theorem modTally_pkg (s : State) (f : Tally → Tally) : (modTally s f).pkg = s.pkg := rfl
@[simp] theorem modTally_clock (s : State) (f : Tally → Tally) : (modTally s f).clock = s.clock := rfl
@[simp] theorem modTally_ports (s : State) (f : Tally → Tally) : (modTally s f).ports = s.ports := rfl
@[simp] theorem modTally_lds (s : State) (f : Tally → Tally) : (modTally s f).lds = s.lds := rfl
@[simp] theorem modTally_mctp (s : State) (f : Tally → Tally) : (modTally s f).mctp = s.mctp := rfl
@[simp] theorem modTally_seats (s : State) (f : Tally → Tally) : (modTally s f).seats = s.seats := rfl
@[simp] theorem modTally_steward (s : State) (f : Tally → Tally) : (modTally s f).steward = s.steward := rfl
@[simp] theorem modTally_extents (s : State) (f : Tally → Tally) : (modTally s f).extents = s.extents := rfl
@[simp] theorem modTally_keys (s : State) (f : Tally → Tally) : (modTally s f).keys = s.keys := rfl
@[simp] theorem modTally_mem (s : State) (f : Tally → Tally) : (modTally s f).mem = s.mem := rfl
@[simp] theorem modTally_coh (s : State) (f : Tally → Tally) : (modTally s f).coh = s.coh := rfl
@[simp] theorem modTally_fronds (s : State) (f : Tally → Tally) : (modTally s f).fronds = s.fronds := rfl
@[simp] theorem modTally_tables (s : State) (f : Tally → Tally) : (modTally s f).tables = s.tables := rfl
@[simp] theorem modTally_rings (s : State) (f : Tally → Tally) : (modTally s f).rings = s.rings := rfl
@[simp] theorem modTally_searches (s : State) (f : Tally → Tally) : (modTally s f).searches = s.searches := rfl
@[simp] theorem modTally_jobs (s : State) (f : Tally → Tally) : (modTally s f).jobs = s.jobs := rfl
@[simp] theorem modTally_nextId (s : State) (f : Tally → Tally) : (modTally s f).nextId = s.nextId := rfl
@[simp] theorem modTally_disp (s : State) (f : Tally → Tally) : (modTally s f).disp = s.disp := rfl
@[simp] theorem modTally_covs (s : State) (f : Tally → Tally) : (modTally s f).covs = s.covs := rfl
@[simp] theorem modTally_tally (s : State) (f : Tally → Tally) : (modTally s f).tally = f s.tally := rfl
@[simp] theorem modTally_life (s : State) (f : Tally → Tally) : (modTally s f).life = s.life := rfl
@[simp] theorem modTally_log (s : State) (f : Tally → Tally) : (modTally s f).log = s.log := rfl
@[simp] theorem modTally_harvest (s : State) (f : Tally → Tally) : (modTally s f).harvest = s.harvest := rfl
@[simp] theorem modTally_regs (s : State) (f : Tally → Tally) : (modTally s f).regs = s.regs := rfl
@[simp] theorem modTally_wire (s : State) (f : Tally → Tally) : (modTally s f).wire = s.wire := rfl
@[simp] theorem modTally_freeCtr (s : State) (f : Tally → Tally) : (modTally s f).freeCtr = s.freeCtr := rfl
@[simp] theorem modTally_pending (s : State) (f : Tally → Tally) : (modTally s f).pending = s.pending := rfl

@[simp] theorem modMem_chip (s : State) (f : Mem → Mem) : (modMem s f).chip = s.chip := rfl
@[simp] theorem modMem_pins (s : State) (f : Mem → Mem) : (modMem s f).pins = s.pins := rfl
@[simp] theorem modMem_jtag (s : State) (f : Mem → Mem) : (modMem s f).jtag = s.jtag := rfl
@[simp] theorem modMem_fw (s : State) (f : Mem → Mem) : (modMem s f).fw = s.fw := rfl
@[simp] theorem modMem_boot (s : State) (f : Mem → Mem) : (modMem s f).boot = s.boot := rfl
@[simp] theorem modMem_store (s : State) (f : Mem → Mem) : (modMem s f).store = s.store := rfl
@[simp] theorem modMem_pkg (s : State) (f : Mem → Mem) : (modMem s f).pkg = s.pkg := rfl
@[simp] theorem modMem_clock (s : State) (f : Mem → Mem) : (modMem s f).clock = s.clock := rfl
@[simp] theorem modMem_ports (s : State) (f : Mem → Mem) : (modMem s f).ports = s.ports := rfl
@[simp] theorem modMem_lds (s : State) (f : Mem → Mem) : (modMem s f).lds = s.lds := rfl
@[simp] theorem modMem_mctp (s : State) (f : Mem → Mem) : (modMem s f).mctp = s.mctp := rfl
@[simp] theorem modMem_seats (s : State) (f : Mem → Mem) : (modMem s f).seats = s.seats := rfl
@[simp] theorem modMem_steward (s : State) (f : Mem → Mem) : (modMem s f).steward = s.steward := rfl
@[simp] theorem modMem_extents (s : State) (f : Mem → Mem) : (modMem s f).extents = s.extents := rfl
@[simp] theorem modMem_keys (s : State) (f : Mem → Mem) : (modMem s f).keys = s.keys := rfl
@[simp] theorem modMem_mem (s : State) (f : Mem → Mem) : (modMem s f).mem = f s.mem := rfl
@[simp] theorem modMem_coh (s : State) (f : Mem → Mem) : (modMem s f).coh = s.coh := rfl
@[simp] theorem modMem_fronds (s : State) (f : Mem → Mem) : (modMem s f).fronds = s.fronds := rfl
@[simp] theorem modMem_tables (s : State) (f : Mem → Mem) : (modMem s f).tables = s.tables := rfl
@[simp] theorem modMem_rings (s : State) (f : Mem → Mem) : (modMem s f).rings = s.rings := rfl
@[simp] theorem modMem_searches (s : State) (f : Mem → Mem) : (modMem s f).searches = s.searches := rfl
@[simp] theorem modMem_jobs (s : State) (f : Mem → Mem) : (modMem s f).jobs = s.jobs := rfl
@[simp] theorem modMem_nextId (s : State) (f : Mem → Mem) : (modMem s f).nextId = s.nextId := rfl
@[simp] theorem modMem_disp (s : State) (f : Mem → Mem) : (modMem s f).disp = s.disp := rfl
@[simp] theorem modMem_covs (s : State) (f : Mem → Mem) : (modMem s f).covs = s.covs := rfl
@[simp] theorem modMem_tally (s : State) (f : Mem → Mem) : (modMem s f).tally = s.tally := rfl
@[simp] theorem modMem_life (s : State) (f : Mem → Mem) : (modMem s f).life = s.life := rfl
@[simp] theorem modMem_log (s : State) (f : Mem → Mem) : (modMem s f).log = s.log := rfl
@[simp] theorem modMem_harvest (s : State) (f : Mem → Mem) : (modMem s f).harvest = s.harvest := rfl
@[simp] theorem modMem_regs (s : State) (f : Mem → Mem) : (modMem s f).regs = s.regs := rfl
@[simp] theorem modMem_wire (s : State) (f : Mem → Mem) : (modMem s f).wire = s.wire := rfl
@[simp] theorem modMem_freeCtr (s : State) (f : Mem → Mem) : (modMem s f).freeCtr = s.freeCtr := rfl
@[simp] theorem modMem_pending (s : State) (f : Mem → Mem) : (modMem s f).pending = s.pending := rfl

@[simp] theorem modCoh_chip (s : State) (f : Coh → Coh) : (modCoh s f).chip = s.chip := rfl
@[simp] theorem modCoh_pins (s : State) (f : Coh → Coh) : (modCoh s f).pins = s.pins := rfl
@[simp] theorem modCoh_jtag (s : State) (f : Coh → Coh) : (modCoh s f).jtag = s.jtag := rfl
@[simp] theorem modCoh_fw (s : State) (f : Coh → Coh) : (modCoh s f).fw = s.fw := rfl
@[simp] theorem modCoh_boot (s : State) (f : Coh → Coh) : (modCoh s f).boot = s.boot := rfl
@[simp] theorem modCoh_store (s : State) (f : Coh → Coh) : (modCoh s f).store = s.store := rfl
@[simp] theorem modCoh_pkg (s : State) (f : Coh → Coh) : (modCoh s f).pkg = s.pkg := rfl
@[simp] theorem modCoh_clock (s : State) (f : Coh → Coh) : (modCoh s f).clock = s.clock := rfl
@[simp] theorem modCoh_ports (s : State) (f : Coh → Coh) : (modCoh s f).ports = s.ports := rfl
@[simp] theorem modCoh_lds (s : State) (f : Coh → Coh) : (modCoh s f).lds = s.lds := rfl
@[simp] theorem modCoh_mctp (s : State) (f : Coh → Coh) : (modCoh s f).mctp = s.mctp := rfl
@[simp] theorem modCoh_seats (s : State) (f : Coh → Coh) : (modCoh s f).seats = s.seats := rfl
@[simp] theorem modCoh_steward (s : State) (f : Coh → Coh) : (modCoh s f).steward = s.steward := rfl
@[simp] theorem modCoh_extents (s : State) (f : Coh → Coh) : (modCoh s f).extents = s.extents := rfl
@[simp] theorem modCoh_keys (s : State) (f : Coh → Coh) : (modCoh s f).keys = s.keys := rfl
@[simp] theorem modCoh_mem (s : State) (f : Coh → Coh) : (modCoh s f).mem = s.mem := rfl
@[simp] theorem modCoh_coh (s : State) (f : Coh → Coh) : (modCoh s f).coh = f s.coh := rfl
@[simp] theorem modCoh_fronds (s : State) (f : Coh → Coh) : (modCoh s f).fronds = s.fronds := rfl
@[simp] theorem modCoh_tables (s : State) (f : Coh → Coh) : (modCoh s f).tables = s.tables := rfl
@[simp] theorem modCoh_rings (s : State) (f : Coh → Coh) : (modCoh s f).rings = s.rings := rfl
@[simp] theorem modCoh_searches (s : State) (f : Coh → Coh) : (modCoh s f).searches = s.searches := rfl
@[simp] theorem modCoh_jobs (s : State) (f : Coh → Coh) : (modCoh s f).jobs = s.jobs := rfl
@[simp] theorem modCoh_nextId (s : State) (f : Coh → Coh) : (modCoh s f).nextId = s.nextId := rfl
@[simp] theorem modCoh_disp (s : State) (f : Coh → Coh) : (modCoh s f).disp = s.disp := rfl
@[simp] theorem modCoh_covs (s : State) (f : Coh → Coh) : (modCoh s f).covs = s.covs := rfl
@[simp] theorem modCoh_tally (s : State) (f : Coh → Coh) : (modCoh s f).tally = s.tally := rfl
@[simp] theorem modCoh_life (s : State) (f : Coh → Coh) : (modCoh s f).life = s.life := rfl
@[simp] theorem modCoh_log (s : State) (f : Coh → Coh) : (modCoh s f).log = s.log := rfl
@[simp] theorem modCoh_harvest (s : State) (f : Coh → Coh) : (modCoh s f).harvest = s.harvest := rfl
@[simp] theorem modCoh_regs (s : State) (f : Coh → Coh) : (modCoh s f).regs = s.regs := rfl
@[simp] theorem modCoh_wire (s : State) (f : Coh → Coh) : (modCoh s f).wire = s.wire := rfl
@[simp] theorem modCoh_freeCtr (s : State) (f : Coh → Coh) : (modCoh s f).freeCtr = s.freeCtr := rfl
@[simp] theorem modCoh_pending (s : State) (f : Coh → Coh) : (modCoh s f).pending = s.pending := rfl

@[simp] theorem modRegs_chip (s : State) (f : Regs → Regs) : (modRegs s f).chip = s.chip := rfl
@[simp] theorem modRegs_pins (s : State) (f : Regs → Regs) : (modRegs s f).pins = s.pins := rfl
@[simp] theorem modRegs_jtag (s : State) (f : Regs → Regs) : (modRegs s f).jtag = s.jtag := rfl
@[simp] theorem modRegs_fw (s : State) (f : Regs → Regs) : (modRegs s f).fw = s.fw := rfl
@[simp] theorem modRegs_boot (s : State) (f : Regs → Regs) : (modRegs s f).boot = s.boot := rfl
@[simp] theorem modRegs_store (s : State) (f : Regs → Regs) : (modRegs s f).store = s.store := rfl
@[simp] theorem modRegs_pkg (s : State) (f : Regs → Regs) : (modRegs s f).pkg = s.pkg := rfl
@[simp] theorem modRegs_clock (s : State) (f : Regs → Regs) : (modRegs s f).clock = s.clock := rfl
@[simp] theorem modRegs_ports (s : State) (f : Regs → Regs) : (modRegs s f).ports = s.ports := rfl
@[simp] theorem modRegs_lds (s : State) (f : Regs → Regs) : (modRegs s f).lds = s.lds := rfl
@[simp] theorem modRegs_mctp (s : State) (f : Regs → Regs) : (modRegs s f).mctp = s.mctp := rfl
@[simp] theorem modRegs_seats (s : State) (f : Regs → Regs) : (modRegs s f).seats = s.seats := rfl
@[simp] theorem modRegs_steward (s : State) (f : Regs → Regs) : (modRegs s f).steward = s.steward := rfl
@[simp] theorem modRegs_extents (s : State) (f : Regs → Regs) : (modRegs s f).extents = s.extents := rfl
@[simp] theorem modRegs_keys (s : State) (f : Regs → Regs) : (modRegs s f).keys = s.keys := rfl
@[simp] theorem modRegs_mem (s : State) (f : Regs → Regs) : (modRegs s f).mem = s.mem := rfl
@[simp] theorem modRegs_coh (s : State) (f : Regs → Regs) : (modRegs s f).coh = s.coh := rfl
@[simp] theorem modRegs_fronds (s : State) (f : Regs → Regs) : (modRegs s f).fronds = s.fronds := rfl
@[simp] theorem modRegs_tables (s : State) (f : Regs → Regs) : (modRegs s f).tables = s.tables := rfl
@[simp] theorem modRegs_rings (s : State) (f : Regs → Regs) : (modRegs s f).rings = s.rings := rfl
@[simp] theorem modRegs_searches (s : State) (f : Regs → Regs) : (modRegs s f).searches = s.searches := rfl
@[simp] theorem modRegs_jobs (s : State) (f : Regs → Regs) : (modRegs s f).jobs = s.jobs := rfl
@[simp] theorem modRegs_nextId (s : State) (f : Regs → Regs) : (modRegs s f).nextId = s.nextId := rfl
@[simp] theorem modRegs_disp (s : State) (f : Regs → Regs) : (modRegs s f).disp = s.disp := rfl
@[simp] theorem modRegs_covs (s : State) (f : Regs → Regs) : (modRegs s f).covs = s.covs := rfl
@[simp] theorem modRegs_tally (s : State) (f : Regs → Regs) : (modRegs s f).tally = s.tally := rfl
@[simp] theorem modRegs_life (s : State) (f : Regs → Regs) : (modRegs s f).life = s.life := rfl
@[simp] theorem modRegs_log (s : State) (f : Regs → Regs) : (modRegs s f).log = s.log := rfl
@[simp] theorem modRegs_harvest (s : State) (f : Regs → Regs) : (modRegs s f).harvest = s.harvest := rfl
@[simp] theorem modRegs_regs (s : State) (f : Regs → Regs) : (modRegs s f).regs = f s.regs := rfl
@[simp] theorem modRegs_wire (s : State) (f : Regs → Regs) : (modRegs s f).wire = s.wire := rfl
@[simp] theorem modRegs_freeCtr (s : State) (f : Regs → Regs) : (modRegs s f).freeCtr = s.freeCtr := rfl
@[simp] theorem modRegs_pending (s : State) (f : Regs → Regs) : (modRegs s f).pending = s.pending := rfl

@[simp] theorem modRing_chip (s : State) (n : Nat) (f : Ring → Ring) : (modRing s n f).chip = s.chip := rfl
@[simp] theorem modRing_pins (s : State) (n : Nat) (f : Ring → Ring) : (modRing s n f).pins = s.pins := rfl
@[simp] theorem modRing_jtag (s : State) (n : Nat) (f : Ring → Ring) : (modRing s n f).jtag = s.jtag := rfl
@[simp] theorem modRing_fw (s : State) (n : Nat) (f : Ring → Ring) : (modRing s n f).fw = s.fw := rfl
@[simp] theorem modRing_boot (s : State) (n : Nat) (f : Ring → Ring) : (modRing s n f).boot = s.boot := rfl
@[simp] theorem modRing_store (s : State) (n : Nat) (f : Ring → Ring) : (modRing s n f).store = s.store := rfl
@[simp] theorem modRing_pkg (s : State) (n : Nat) (f : Ring → Ring) : (modRing s n f).pkg = s.pkg := rfl
@[simp] theorem modRing_clock (s : State) (n : Nat) (f : Ring → Ring) : (modRing s n f).clock = s.clock := rfl
@[simp] theorem modRing_ports (s : State) (n : Nat) (f : Ring → Ring) : (modRing s n f).ports = s.ports := rfl
@[simp] theorem modRing_lds (s : State) (n : Nat) (f : Ring → Ring) : (modRing s n f).lds = s.lds := rfl
@[simp] theorem modRing_mctp (s : State) (n : Nat) (f : Ring → Ring) : (modRing s n f).mctp = s.mctp := rfl
@[simp] theorem modRing_seats (s : State) (n : Nat) (f : Ring → Ring) : (modRing s n f).seats = s.seats := rfl
@[simp] theorem modRing_steward (s : State) (n : Nat) (f : Ring → Ring) : (modRing s n f).steward = s.steward := rfl
@[simp] theorem modRing_extents (s : State) (n : Nat) (f : Ring → Ring) : (modRing s n f).extents = s.extents := rfl
@[simp] theorem modRing_keys (s : State) (n : Nat) (f : Ring → Ring) : (modRing s n f).keys = s.keys := rfl
@[simp] theorem modRing_mem (s : State) (n : Nat) (f : Ring → Ring) : (modRing s n f).mem = s.mem := rfl
@[simp] theorem modRing_coh (s : State) (n : Nat) (f : Ring → Ring) : (modRing s n f).coh = s.coh := rfl
@[simp] theorem modRing_fronds (s : State) (n : Nat) (f : Ring → Ring) : (modRing s n f).fronds = s.fronds := rfl
@[simp] theorem modRing_tables (s : State) (n : Nat) (f : Ring → Ring) : (modRing s n f).tables = s.tables := rfl
@[simp] theorem modRing_rings (s : State) (n : Nat) (f : Ring → Ring) : (modRing s n f).rings = mmod s.rings n f := rfl
@[simp] theorem modRing_searches (s : State) (n : Nat) (f : Ring → Ring) : (modRing s n f).searches = s.searches := rfl
@[simp] theorem modRing_jobs (s : State) (n : Nat) (f : Ring → Ring) : (modRing s n f).jobs = s.jobs := rfl
@[simp] theorem modRing_nextId (s : State) (n : Nat) (f : Ring → Ring) : (modRing s n f).nextId = s.nextId := rfl
@[simp] theorem modRing_disp (s : State) (n : Nat) (f : Ring → Ring) : (modRing s n f).disp = s.disp := rfl
@[simp] theorem modRing_covs (s : State) (n : Nat) (f : Ring → Ring) : (modRing s n f).covs = s.covs := rfl
@[simp] theorem modRing_tally (s : State) (n : Nat) (f : Ring → Ring) : (modRing s n f).tally = s.tally := rfl
@[simp] theorem modRing_life (s : State) (n : Nat) (f : Ring → Ring) : (modRing s n f).life = s.life := rfl
@[simp] theorem modRing_log (s : State) (n : Nat) (f : Ring → Ring) : (modRing s n f).log = s.log := rfl
@[simp] theorem modRing_harvest (s : State) (n : Nat) (f : Ring → Ring) : (modRing s n f).harvest = s.harvest := rfl
@[simp] theorem modRing_regs (s : State) (n : Nat) (f : Ring → Ring) : (modRing s n f).regs = s.regs := rfl
@[simp] theorem modRing_wire (s : State) (n : Nat) (f : Ring → Ring) : (modRing s n f).wire = s.wire := rfl
@[simp] theorem modRing_freeCtr (s : State) (n : Nat) (f : Ring → Ring) : (modRing s n f).freeCtr = s.freeCtr := rfl
@[simp] theorem modRing_pending (s : State) (n : Nat) (f : Ring → Ring) : (modRing s n f).pending = s.pending := rfl

@[simp] theorem modFrond_chip (s : State) (die : Nat) (f : Frond → Frond) : (modFrond s die f).chip = s.chip := by unfold modFrond; split <;> rfl
@[simp] theorem modFrond_pins (s : State) (die : Nat) (f : Frond → Frond) : (modFrond s die f).pins = s.pins := by unfold modFrond; split <;> rfl
@[simp] theorem modFrond_jtag (s : State) (die : Nat) (f : Frond → Frond) : (modFrond s die f).jtag = s.jtag := by unfold modFrond; split <;> rfl
@[simp] theorem modFrond_fw (s : State) (die : Nat) (f : Frond → Frond) : (modFrond s die f).fw = s.fw := by unfold modFrond; split <;> rfl
@[simp] theorem modFrond_boot (s : State) (die : Nat) (f : Frond → Frond) : (modFrond s die f).boot = s.boot := by unfold modFrond; split <;> rfl
@[simp] theorem modFrond_store (s : State) (die : Nat) (f : Frond → Frond) : (modFrond s die f).store = s.store := by unfold modFrond; split <;> rfl
@[simp] theorem modFrond_pkg (s : State) (die : Nat) (f : Frond → Frond) : (modFrond s die f).pkg = s.pkg := by unfold modFrond; split <;> rfl
@[simp] theorem modFrond_clock (s : State) (die : Nat) (f : Frond → Frond) : (modFrond s die f).clock = s.clock := by unfold modFrond; split <;> rfl
@[simp] theorem modFrond_ports (s : State) (die : Nat) (f : Frond → Frond) : (modFrond s die f).ports = s.ports := by unfold modFrond; split <;> rfl
@[simp] theorem modFrond_lds (s : State) (die : Nat) (f : Frond → Frond) : (modFrond s die f).lds = s.lds := by unfold modFrond; split <;> rfl
@[simp] theorem modFrond_mctp (s : State) (die : Nat) (f : Frond → Frond) : (modFrond s die f).mctp = s.mctp := by unfold modFrond; split <;> rfl
@[simp] theorem modFrond_seats (s : State) (die : Nat) (f : Frond → Frond) : (modFrond s die f).seats = s.seats := by unfold modFrond; split <;> rfl
@[simp] theorem modFrond_steward (s : State) (die : Nat) (f : Frond → Frond) : (modFrond s die f).steward = s.steward := by unfold modFrond; split <;> rfl
@[simp] theorem modFrond_extents (s : State) (die : Nat) (f : Frond → Frond) : (modFrond s die f).extents = s.extents := by unfold modFrond; split <;> rfl
@[simp] theorem modFrond_keys (s : State) (die : Nat) (f : Frond → Frond) : (modFrond s die f).keys = s.keys := by unfold modFrond; split <;> rfl
@[simp] theorem modFrond_mem (s : State) (die : Nat) (f : Frond → Frond) : (modFrond s die f).mem = s.mem := by unfold modFrond; split <;> rfl
@[simp] theorem modFrond_coh (s : State) (die : Nat) (f : Frond → Frond) : (modFrond s die f).coh = s.coh := by unfold modFrond; split <;> rfl
@[simp] theorem modFrond_fronds (s : State) (die : Nat) (f : Frond → Frond) : (modFrond s die f).fronds = if 2 ≤ die then s.fronds.modify (die - 2) f else s.fronds := by unfold modFrond; split <;> rfl
@[simp] theorem modFrond_tables (s : State) (die : Nat) (f : Frond → Frond) : (modFrond s die f).tables = s.tables := by unfold modFrond; split <;> rfl
@[simp] theorem modFrond_rings (s : State) (die : Nat) (f : Frond → Frond) : (modFrond s die f).rings = s.rings := by unfold modFrond; split <;> rfl
@[simp] theorem modFrond_searches (s : State) (die : Nat) (f : Frond → Frond) : (modFrond s die f).searches = s.searches := by unfold modFrond; split <;> rfl
@[simp] theorem modFrond_jobs (s : State) (die : Nat) (f : Frond → Frond) : (modFrond s die f).jobs = s.jobs := by unfold modFrond; split <;> rfl
@[simp] theorem modFrond_nextId (s : State) (die : Nat) (f : Frond → Frond) : (modFrond s die f).nextId = s.nextId := by unfold modFrond; split <;> rfl
@[simp] theorem modFrond_disp (s : State) (die : Nat) (f : Frond → Frond) : (modFrond s die f).disp = s.disp := by unfold modFrond; split <;> rfl
@[simp] theorem modFrond_covs (s : State) (die : Nat) (f : Frond → Frond) : (modFrond s die f).covs = s.covs := by unfold modFrond; split <;> rfl
@[simp] theorem modFrond_tally (s : State) (die : Nat) (f : Frond → Frond) : (modFrond s die f).tally = s.tally := by unfold modFrond; split <;> rfl
@[simp] theorem modFrond_life (s : State) (die : Nat) (f : Frond → Frond) : (modFrond s die f).life = s.life := by unfold modFrond; split <;> rfl
@[simp] theorem modFrond_log (s : State) (die : Nat) (f : Frond → Frond) : (modFrond s die f).log = s.log := by unfold modFrond; split <;> rfl
@[simp] theorem modFrond_harvest (s : State) (die : Nat) (f : Frond → Frond) : (modFrond s die f).harvest = s.harvest := by unfold modFrond; split <;> rfl
@[simp] theorem modFrond_regs (s : State) (die : Nat) (f : Frond → Frond) : (modFrond s die f).regs = s.regs := by unfold modFrond; split <;> rfl
@[simp] theorem modFrond_wire (s : State) (die : Nat) (f : Frond → Frond) : (modFrond s die f).wire = s.wire := by unfold modFrond; split <;> rfl
@[simp] theorem modFrond_freeCtr (s : State) (die : Nat) (f : Frond → Frond) : (modFrond s die f).freeCtr = s.freeCtr := by unfold modFrond; split <;> rfl
@[simp] theorem modFrond_pending (s : State) (die : Nat) (f : Frond → Frond) : (modFrond s die f).pending = s.pending := by unfold modFrond; split <;> rfl

@[simp] theorem modCov_chip (s : State) (id : Nat) (f : Cov → Cov) : (modCov s id f).chip = s.chip := rfl
@[simp] theorem modCov_pins (s : State) (id : Nat) (f : Cov → Cov) : (modCov s id f).pins = s.pins := rfl
@[simp] theorem modCov_jtag (s : State) (id : Nat) (f : Cov → Cov) : (modCov s id f).jtag = s.jtag := rfl
@[simp] theorem modCov_fw (s : State) (id : Nat) (f : Cov → Cov) : (modCov s id f).fw = s.fw := rfl
@[simp] theorem modCov_boot (s : State) (id : Nat) (f : Cov → Cov) : (modCov s id f).boot = s.boot := rfl
@[simp] theorem modCov_store (s : State) (id : Nat) (f : Cov → Cov) : (modCov s id f).store = s.store := rfl
@[simp] theorem modCov_pkg (s : State) (id : Nat) (f : Cov → Cov) : (modCov s id f).pkg = s.pkg := rfl
@[simp] theorem modCov_clock (s : State) (id : Nat) (f : Cov → Cov) : (modCov s id f).clock = s.clock := rfl
@[simp] theorem modCov_ports (s : State) (id : Nat) (f : Cov → Cov) : (modCov s id f).ports = s.ports := rfl
@[simp] theorem modCov_lds (s : State) (id : Nat) (f : Cov → Cov) : (modCov s id f).lds = s.lds := rfl
@[simp] theorem modCov_mctp (s : State) (id : Nat) (f : Cov → Cov) : (modCov s id f).mctp = s.mctp := rfl
@[simp] theorem modCov_seats (s : State) (id : Nat) (f : Cov → Cov) : (modCov s id f).seats = s.seats := rfl
@[simp] theorem modCov_steward (s : State) (id : Nat) (f : Cov → Cov) : (modCov s id f).steward = s.steward := rfl
@[simp] theorem modCov_extents (s : State) (id : Nat) (f : Cov → Cov) : (modCov s id f).extents = s.extents := rfl
@[simp] theorem modCov_keys (s : State) (id : Nat) (f : Cov → Cov) : (modCov s id f).keys = s.keys := rfl
@[simp] theorem modCov_mem (s : State) (id : Nat) (f : Cov → Cov) : (modCov s id f).mem = s.mem := rfl
@[simp] theorem modCov_coh (s : State) (id : Nat) (f : Cov → Cov) : (modCov s id f).coh = s.coh := rfl
@[simp] theorem modCov_fronds (s : State) (id : Nat) (f : Cov → Cov) : (modCov s id f).fronds = s.fronds := rfl
@[simp] theorem modCov_tables (s : State) (id : Nat) (f : Cov → Cov) : (modCov s id f).tables = s.tables := rfl
@[simp] theorem modCov_rings (s : State) (id : Nat) (f : Cov → Cov) : (modCov s id f).rings = s.rings := rfl
@[simp] theorem modCov_searches (s : State) (id : Nat) (f : Cov → Cov) : (modCov s id f).searches = s.searches := rfl
@[simp] theorem modCov_jobs (s : State) (id : Nat) (f : Cov → Cov) : (modCov s id f).jobs = s.jobs := rfl
@[simp] theorem modCov_nextId (s : State) (id : Nat) (f : Cov → Cov) : (modCov s id f).nextId = s.nextId := rfl
@[simp] theorem modCov_disp (s : State) (id : Nat) (f : Cov → Cov) : (modCov s id f).disp = s.disp := rfl
@[simp] theorem modCov_tally (s : State) (id : Nat) (f : Cov → Cov) : (modCov s id f).tally = s.tally := rfl
@[simp] theorem modCov_life (s : State) (id : Nat) (f : Cov → Cov) : (modCov s id f).life = s.life := rfl
@[simp] theorem modCov_log (s : State) (id : Nat) (f : Cov → Cov) : (modCov s id f).log = s.log := rfl
@[simp] theorem modCov_harvest (s : State) (id : Nat) (f : Cov → Cov) : (modCov s id f).harvest = s.harvest := rfl
@[simp] theorem modCov_regs (s : State) (id : Nat) (f : Cov → Cov) : (modCov s id f).regs = s.regs := rfl
@[simp] theorem modCov_wire (s : State) (id : Nat) (f : Cov → Cov) : (modCov s id f).wire = s.wire := rfl
@[simp] theorem modCov_freeCtr (s : State) (id : Nat) (f : Cov → Cov) : (modCov s id f).freeCtr = s.freeCtr := rfl
@[simp] theorem modCov_pending (s : State) (id : Nat) (f : Cov → Cov) : (modCov s id f).pending = s.pending := rfl

@[simp] theorem modDisp_chip (s : State) (h : Nat) (f : Disp → Disp) : (modDisp s h f).chip = s.chip := rfl
@[simp] theorem modDisp_pins (s : State) (h : Nat) (f : Disp → Disp) : (modDisp s h f).pins = s.pins := rfl
@[simp] theorem modDisp_jtag (s : State) (h : Nat) (f : Disp → Disp) : (modDisp s h f).jtag = s.jtag := rfl
@[simp] theorem modDisp_fw (s : State) (h : Nat) (f : Disp → Disp) : (modDisp s h f).fw = s.fw := rfl
@[simp] theorem modDisp_boot (s : State) (h : Nat) (f : Disp → Disp) : (modDisp s h f).boot = s.boot := rfl
@[simp] theorem modDisp_store (s : State) (h : Nat) (f : Disp → Disp) : (modDisp s h f).store = s.store := rfl
@[simp] theorem modDisp_pkg (s : State) (h : Nat) (f : Disp → Disp) : (modDisp s h f).pkg = s.pkg := rfl
@[simp] theorem modDisp_clock (s : State) (h : Nat) (f : Disp → Disp) : (modDisp s h f).clock = s.clock := rfl
@[simp] theorem modDisp_ports (s : State) (h : Nat) (f : Disp → Disp) : (modDisp s h f).ports = s.ports := rfl
@[simp] theorem modDisp_lds (s : State) (h : Nat) (f : Disp → Disp) : (modDisp s h f).lds = s.lds := rfl
@[simp] theorem modDisp_mctp (s : State) (h : Nat) (f : Disp → Disp) : (modDisp s h f).mctp = s.mctp := rfl
@[simp] theorem modDisp_seats (s : State) (h : Nat) (f : Disp → Disp) : (modDisp s h f).seats = s.seats := rfl
@[simp] theorem modDisp_steward (s : State) (h : Nat) (f : Disp → Disp) : (modDisp s h f).steward = s.steward := rfl
@[simp] theorem modDisp_extents (s : State) (h : Nat) (f : Disp → Disp) : (modDisp s h f).extents = s.extents := rfl
@[simp] theorem modDisp_keys (s : State) (h : Nat) (f : Disp → Disp) : (modDisp s h f).keys = s.keys := rfl
@[simp] theorem modDisp_mem (s : State) (h : Nat) (f : Disp → Disp) : (modDisp s h f).mem = s.mem := rfl
@[simp] theorem modDisp_coh (s : State) (h : Nat) (f : Disp → Disp) : (modDisp s h f).coh = s.coh := rfl
@[simp] theorem modDisp_fronds (s : State) (h : Nat) (f : Disp → Disp) : (modDisp s h f).fronds = s.fronds := rfl
@[simp] theorem modDisp_tables (s : State) (h : Nat) (f : Disp → Disp) : (modDisp s h f).tables = s.tables := rfl
@[simp] theorem modDisp_rings (s : State) (h : Nat) (f : Disp → Disp) : (modDisp s h f).rings = s.rings := rfl
@[simp] theorem modDisp_searches (s : State) (h : Nat) (f : Disp → Disp) : (modDisp s h f).searches = s.searches := rfl
@[simp] theorem modDisp_jobs (s : State) (h : Nat) (f : Disp → Disp) : (modDisp s h f).jobs = s.jobs := rfl
@[simp] theorem modDisp_nextId (s : State) (h : Nat) (f : Disp → Disp) : (modDisp s h f).nextId = s.nextId := rfl
@[simp] theorem modDisp_covs (s : State) (h : Nat) (f : Disp → Disp) : (modDisp s h f).covs = s.covs := rfl
@[simp] theorem modDisp_tally (s : State) (h : Nat) (f : Disp → Disp) : (modDisp s h f).tally = s.tally := rfl
@[simp] theorem modDisp_life (s : State) (h : Nat) (f : Disp → Disp) : (modDisp s h f).life = s.life := rfl
@[simp] theorem modDisp_log (s : State) (h : Nat) (f : Disp → Disp) : (modDisp s h f).log = s.log := rfl
@[simp] theorem modDisp_harvest (s : State) (h : Nat) (f : Disp → Disp) : (modDisp s h f).harvest = s.harvest := rfl
@[simp] theorem modDisp_regs (s : State) (h : Nat) (f : Disp → Disp) : (modDisp s h f).regs = s.regs := rfl
@[simp] theorem modDisp_wire (s : State) (h : Nat) (f : Disp → Disp) : (modDisp s h f).wire = s.wire := rfl
@[simp] theorem modDisp_freeCtr (s : State) (h : Nat) (f : Disp → Disp) : (modDisp s h f).freeCtr = s.freeCtr := rfl
@[simp] theorem modDisp_pending (s : State) (h : Nat) (f : Disp → Disp) : (modDisp s h f).pending = s.pending := rfl

@[simp] theorem putTable_chip (s : State) (n : Nat) (t : Table) : (putTable s n t).chip = s.chip := rfl
@[simp] theorem putTable_pins (s : State) (n : Nat) (t : Table) : (putTable s n t).pins = s.pins := rfl
@[simp] theorem putTable_jtag (s : State) (n : Nat) (t : Table) : (putTable s n t).jtag = s.jtag := rfl
@[simp] theorem putTable_fw (s : State) (n : Nat) (t : Table) : (putTable s n t).fw = s.fw := rfl
@[simp] theorem putTable_boot (s : State) (n : Nat) (t : Table) : (putTable s n t).boot = s.boot := rfl
@[simp] theorem putTable_store (s : State) (n : Nat) (t : Table) : (putTable s n t).store = s.store := rfl
@[simp] theorem putTable_pkg (s : State) (n : Nat) (t : Table) : (putTable s n t).pkg = s.pkg := rfl
@[simp] theorem putTable_clock (s : State) (n : Nat) (t : Table) : (putTable s n t).clock = s.clock := rfl
@[simp] theorem putTable_ports (s : State) (n : Nat) (t : Table) : (putTable s n t).ports = s.ports := rfl
@[simp] theorem putTable_lds (s : State) (n : Nat) (t : Table) : (putTable s n t).lds = s.lds := rfl
@[simp] theorem putTable_mctp (s : State) (n : Nat) (t : Table) : (putTable s n t).mctp = s.mctp := rfl
@[simp] theorem putTable_seats (s : State) (n : Nat) (t : Table) : (putTable s n t).seats = s.seats := rfl
@[simp] theorem putTable_steward (s : State) (n : Nat) (t : Table) : (putTable s n t).steward = s.steward := rfl
@[simp] theorem putTable_extents (s : State) (n : Nat) (t : Table) : (putTable s n t).extents = s.extents := rfl
@[simp] theorem putTable_keys (s : State) (n : Nat) (t : Table) : (putTable s n t).keys = s.keys := rfl
@[simp] theorem putTable_mem (s : State) (n : Nat) (t : Table) : (putTable s n t).mem = s.mem := rfl
@[simp] theorem putTable_coh (s : State) (n : Nat) (t : Table) : (putTable s n t).coh = s.coh := rfl
@[simp] theorem putTable_fronds (s : State) (n : Nat) (t : Table) : (putTable s n t).fronds = s.fronds := rfl
@[simp] theorem putTable_tables (s : State) (n : Nat) (t : Table) : (putTable s n t).tables = mput s.tables n t := rfl
@[simp] theorem putTable_rings (s : State) (n : Nat) (t : Table) : (putTable s n t).rings = s.rings := rfl
@[simp] theorem putTable_searches (s : State) (n : Nat) (t : Table) : (putTable s n t).searches = s.searches := rfl
@[simp] theorem putTable_jobs (s : State) (n : Nat) (t : Table) : (putTable s n t).jobs = s.jobs := rfl
@[simp] theorem putTable_nextId (s : State) (n : Nat) (t : Table) : (putTable s n t).nextId = s.nextId := rfl
@[simp] theorem putTable_disp (s : State) (n : Nat) (t : Table) : (putTable s n t).disp = s.disp := rfl
@[simp] theorem putTable_covs (s : State) (n : Nat) (t : Table) : (putTable s n t).covs = s.covs := rfl
@[simp] theorem putTable_tally (s : State) (n : Nat) (t : Table) : (putTable s n t).tally = s.tally := rfl
@[simp] theorem putTable_life (s : State) (n : Nat) (t : Table) : (putTable s n t).life = s.life := rfl
@[simp] theorem putTable_log (s : State) (n : Nat) (t : Table) : (putTable s n t).log = s.log := rfl
@[simp] theorem putTable_harvest (s : State) (n : Nat) (t : Table) : (putTable s n t).harvest = s.harvest := rfl
@[simp] theorem putTable_regs (s : State) (n : Nat) (t : Table) : (putTable s n t).regs = s.regs := rfl
@[simp] theorem putTable_wire (s : State) (n : Nat) (t : Table) : (putTable s n t).wire = s.wire := rfl
@[simp] theorem putTable_freeCtr (s : State) (n : Nat) (t : Table) : (putTable s n t).freeCtr = s.freeCtr := rfl
@[simp] theorem putTable_pending (s : State) (n : Nat) (t : Table) : (putTable s n t).pending = s.pending := rfl

@[simp] theorem modHarvest_chip (s : State) (h : Nat) (f : Harvest → Harvest) : (modHarvest s h f).chip = s.chip := rfl
@[simp] theorem modHarvest_pins (s : State) (h : Nat) (f : Harvest → Harvest) : (modHarvest s h f).pins = s.pins := rfl
@[simp] theorem modHarvest_jtag (s : State) (h : Nat) (f : Harvest → Harvest) : (modHarvest s h f).jtag = s.jtag := rfl
@[simp] theorem modHarvest_fw (s : State) (h : Nat) (f : Harvest → Harvest) : (modHarvest s h f).fw = s.fw := rfl
@[simp] theorem modHarvest_boot (s : State) (h : Nat) (f : Harvest → Harvest) : (modHarvest s h f).boot = s.boot := rfl
@[simp] theorem modHarvest_store (s : State) (h : Nat) (f : Harvest → Harvest) : (modHarvest s h f).store = s.store := rfl
@[simp] theorem modHarvest_pkg (s : State) (h : Nat) (f : Harvest → Harvest) : (modHarvest s h f).pkg = s.pkg := rfl
@[simp] theorem modHarvest_clock (s : State) (h : Nat) (f : Harvest → Harvest) : (modHarvest s h f).clock = s.clock := rfl
@[simp] theorem modHarvest_ports (s : State) (h : Nat) (f : Harvest → Harvest) : (modHarvest s h f).ports = s.ports := rfl
@[simp] theorem modHarvest_lds (s : State) (h : Nat) (f : Harvest → Harvest) : (modHarvest s h f).lds = s.lds := rfl
@[simp] theorem modHarvest_mctp (s : State) (h : Nat) (f : Harvest → Harvest) : (modHarvest s h f).mctp = s.mctp := rfl
@[simp] theorem modHarvest_seats (s : State) (h : Nat) (f : Harvest → Harvest) : (modHarvest s h f).seats = s.seats := rfl
@[simp] theorem modHarvest_steward (s : State) (h : Nat) (f : Harvest → Harvest) : (modHarvest s h f).steward = s.steward := rfl
@[simp] theorem modHarvest_extents (s : State) (h : Nat) (f : Harvest → Harvest) : (modHarvest s h f).extents = s.extents := rfl
@[simp] theorem modHarvest_keys (s : State) (h : Nat) (f : Harvest → Harvest) : (modHarvest s h f).keys = s.keys := rfl
@[simp] theorem modHarvest_mem (s : State) (h : Nat) (f : Harvest → Harvest) : (modHarvest s h f).mem = s.mem := rfl
@[simp] theorem modHarvest_coh (s : State) (h : Nat) (f : Harvest → Harvest) : (modHarvest s h f).coh = s.coh := rfl
@[simp] theorem modHarvest_fronds (s : State) (h : Nat) (f : Harvest → Harvest) : (modHarvest s h f).fronds = s.fronds := rfl
@[simp] theorem modHarvest_tables (s : State) (h : Nat) (f : Harvest → Harvest) : (modHarvest s h f).tables = s.tables := rfl
@[simp] theorem modHarvest_rings (s : State) (h : Nat) (f : Harvest → Harvest) : (modHarvest s h f).rings = s.rings := rfl
@[simp] theorem modHarvest_searches (s : State) (h : Nat) (f : Harvest → Harvest) : (modHarvest s h f).searches = s.searches := rfl
@[simp] theorem modHarvest_jobs (s : State) (h : Nat) (f : Harvest → Harvest) : (modHarvest s h f).jobs = s.jobs := rfl
@[simp] theorem modHarvest_nextId (s : State) (h : Nat) (f : Harvest → Harvest) : (modHarvest s h f).nextId = s.nextId := rfl
@[simp] theorem modHarvest_disp (s : State) (h : Nat) (f : Harvest → Harvest) : (modHarvest s h f).disp = s.disp := rfl
@[simp] theorem modHarvest_covs (s : State) (h : Nat) (f : Harvest → Harvest) : (modHarvest s h f).covs = s.covs := rfl
@[simp] theorem modHarvest_tally (s : State) (h : Nat) (f : Harvest → Harvest) : (modHarvest s h f).tally = s.tally := rfl
@[simp] theorem modHarvest_life (s : State) (h : Nat) (f : Harvest → Harvest) : (modHarvest s h f).life = s.life := rfl
@[simp] theorem modHarvest_log (s : State) (h : Nat) (f : Harvest → Harvest) : (modHarvest s h f).log = s.log := rfl
@[simp] theorem modHarvest_harvest (s : State) (h : Nat) (f : Harvest → Harvest) : (modHarvest s h f).harvest = s.harvest.modify h f := rfl
@[simp] theorem modHarvest_regs (s : State) (h : Nat) (f : Harvest → Harvest) : (modHarvest s h f).regs = s.regs := rfl
@[simp] theorem modHarvest_wire (s : State) (h : Nat) (f : Harvest → Harvest) : (modHarvest s h f).wire = s.wire := rfl
@[simp] theorem modHarvest_freeCtr (s : State) (h : Nat) (f : Harvest → Harvest) : (modHarvest s h f).freeCtr = s.freeCtr := rfl
@[simp] theorem modHarvest_pending (s : State) (h : Nat) (f : Harvest → Harvest) : (modHarvest s h f).pending = s.pending := rfl

@[simp] theorem modPort_chip (s : State) (port : Nat) (f : Port → Port) : (modPort s port f).chip = s.chip := rfl
@[simp] theorem modPort_pins (s : State) (port : Nat) (f : Port → Port) : (modPort s port f).pins = s.pins := rfl
@[simp] theorem modPort_jtag (s : State) (port : Nat) (f : Port → Port) : (modPort s port f).jtag = s.jtag := rfl
@[simp] theorem modPort_fw (s : State) (port : Nat) (f : Port → Port) : (modPort s port f).fw = s.fw := rfl
@[simp] theorem modPort_boot (s : State) (port : Nat) (f : Port → Port) : (modPort s port f).boot = s.boot := rfl
@[simp] theorem modPort_store (s : State) (port : Nat) (f : Port → Port) : (modPort s port f).store = s.store := rfl
@[simp] theorem modPort_pkg (s : State) (port : Nat) (f : Port → Port) : (modPort s port f).pkg = s.pkg := rfl
@[simp] theorem modPort_clock (s : State) (port : Nat) (f : Port → Port) : (modPort s port f).clock = s.clock := rfl
@[simp] theorem modPort_ports (s : State) (port : Nat) (f : Port → Port) : (modPort s port f).ports = s.ports.modify port f := rfl
@[simp] theorem modPort_lds (s : State) (port : Nat) (f : Port → Port) : (modPort s port f).lds = s.lds := rfl
@[simp] theorem modPort_mctp (s : State) (port : Nat) (f : Port → Port) : (modPort s port f).mctp = s.mctp := rfl
@[simp] theorem modPort_seats (s : State) (port : Nat) (f : Port → Port) : (modPort s port f).seats = s.seats := rfl
@[simp] theorem modPort_steward (s : State) (port : Nat) (f : Port → Port) : (modPort s port f).steward = s.steward := rfl
@[simp] theorem modPort_extents (s : State) (port : Nat) (f : Port → Port) : (modPort s port f).extents = s.extents := rfl
@[simp] theorem modPort_keys (s : State) (port : Nat) (f : Port → Port) : (modPort s port f).keys = s.keys := rfl
@[simp] theorem modPort_mem (s : State) (port : Nat) (f : Port → Port) : (modPort s port f).mem = s.mem := rfl
@[simp] theorem modPort_coh (s : State) (port : Nat) (f : Port → Port) : (modPort s port f).coh = s.coh := rfl
@[simp] theorem modPort_fronds (s : State) (port : Nat) (f : Port → Port) : (modPort s port f).fronds = s.fronds := rfl
@[simp] theorem modPort_tables (s : State) (port : Nat) (f : Port → Port) : (modPort s port f).tables = s.tables := rfl
@[simp] theorem modPort_rings (s : State) (port : Nat) (f : Port → Port) : (modPort s port f).rings = s.rings := rfl
@[simp] theorem modPort_searches (s : State) (port : Nat) (f : Port → Port) : (modPort s port f).searches = s.searches := rfl
@[simp] theorem modPort_jobs (s : State) (port : Nat) (f : Port → Port) : (modPort s port f).jobs = s.jobs := rfl
@[simp] theorem modPort_nextId (s : State) (port : Nat) (f : Port → Port) : (modPort s port f).nextId = s.nextId := rfl
@[simp] theorem modPort_disp (s : State) (port : Nat) (f : Port → Port) : (modPort s port f).disp = s.disp := rfl
@[simp] theorem modPort_covs (s : State) (port : Nat) (f : Port → Port) : (modPort s port f).covs = s.covs := rfl
@[simp] theorem modPort_tally (s : State) (port : Nat) (f : Port → Port) : (modPort s port f).tally = s.tally := rfl
@[simp] theorem modPort_life (s : State) (port : Nat) (f : Port → Port) : (modPort s port f).life = s.life := rfl
@[simp] theorem modPort_log (s : State) (port : Nat) (f : Port → Port) : (modPort s port f).log = s.log := rfl
@[simp] theorem modPort_harvest (s : State) (port : Nat) (f : Port → Port) : (modPort s port f).harvest = s.harvest := rfl
@[simp] theorem modPort_regs (s : State) (port : Nat) (f : Port → Port) : (modPort s port f).regs = s.regs := rfl
@[simp] theorem modPort_wire (s : State) (port : Nat) (f : Port → Port) : (modPort s port f).wire = s.wire := rfl
@[simp] theorem modPort_freeCtr (s : State) (port : Nat) (f : Port → Port) : (modPort s port f).freeCtr = s.freeCtr := rfl
@[simp] theorem modPort_pending (s : State) (port : Nat) (f : Port → Port) : (modPort s port f).pending = s.pending := rfl

/-! Registers -/

@[simp] theorem rawReg_setReg_self (s : State) (a : Nat) (v d : Word) : rawReg (setReg s a v) a d = v := by
  simp [rawReg]

theorem rawReg_setReg_ne (s : State) {a b : Nat} (v d : Word) (h : b ≠ a) : rawReg (setReg s a v) b d = rawReg s b d := by
  simp [rawReg, mget_mput, h]

@[simp] theorem mget_modSeat_self (s : State) (n : Nat) (f : Seat → Seat) :
    mget (modSeat s n f).seats n = (mget s.seats n).map f := by simp [mget_mmod]

@[simp] theorem mget_modRing_self (s : State) (n : Nat) (f : Ring → Ring) :
    mget (modRing s n f).rings n = (mget s.rings n).map f := by simp [mget_mmod]

@[simp] theorem ld_modLd_self (s : State) (p : Place) (f : Ld → Ld) : ld (modLd s p f) p = f (ld s p) := by
  simp [ld]

end Sys2Proof.Machine
end

