-- ==== Sys2Proof/WellFormed.lean ====
section
/-!
DEFINITION. Well-formed commands: operands that name something some part of the family has. A command that names what this part
lacks is well formed and changes nothing, or is answered as the spec says.
-/
namespace Sys2Proof

/-- A place: port 0 to 5, bits [10:4] zero (R303). -/
def placeWf (p : Place) : Bool := decide ((p >>> 13).toNat < 6) && (p >>> 4).toNat % 128 == 0

/-- A frond die: 2 to 7 (R4). -/
def frondWf (d : BitVec 3) : Bool := decide (2 ≤ d.toNat)

/-- A hub die: 0 or 1 (R4). -/
def hubWf (d : BitVec 3) : Bool := decide (d.toNat < 2)

/-- A host port, a DDR channel of a hub or a frond number: 0 to 5. -/
def portWf (p : BitVec 3) : Bool := decide (p.toNat < 6)

/-- A coherence agent: 0 to 21 (R236). -/
def agentWf (a : BitVec 5) : Bool := decide (a.toNat < 22)

/-- A link rate code: 0 to 5 (Table 10.18). -/
def rateWf (r : BitVec 3) : Bool := decide (r.toNat < 6)

/-- A link width in lanes (Table 5.1). -/
def widthWf (w : BitVec 5) : Bool := [1, 2, 4, 8, 16].contains w.toNat

/-- An SPDM channel. -/
def chanWf : SpdmChan → Bool
  | .doe p => placeWf p
  | .mctp => true

/-- The measurements of an epoch name every die and frond once. -/
def epochWf (e : EpochIn) : Bool := e.tj.length == 8 && e.demand.length == 6 && e.hubLevel.length == 2

/-- A command is well formed. -/
def wellFormed : Instr → Bool
  | .submissionFetch _ => true
  | .searchShort _ => true
  | .searchLong _ => true
  | .fetchAdd _ => true
  | .swap _ => true
  | .cmpSwap _ => true
  | .localResult _ die _ => frondWf die
  | .farDataPrefetchFill _ _ => true
  | .nearDataRead _ die => frondWf die
  | .cascadeResolution _ => true
  | .cascadeTimeout _ => true
  | .hitCounterIncrement die => frondWf die
  | .crozierWake die _ => frondWf die
  | .tagRestore die _ => frondWf die
  | .rowRepairRecord die _ => frondWf die
  | .ringEnable ld _ _ => placeWf ld
  | .ringReady _ => true
  | .ringDisable ld _ _ => placeWf ld
  | .ringIdle _ => true
  | .sqTailWrite ld _ _ _ => placeWf ld
  | .cqHeadWrite ld _ _ _ => placeWf ld
  | .irqArmWrite ld _ _ _ => placeWf ld
  | .tableCreate _ => true
  | .tableDestroy _ => true
  | .tableDestroyDone _ => true
  | .tableRange _ => true
  | .entryInvalidate _ => true
  | .entryWrite _ => true
  | .entryValidate _ => true
  | .nearWrite _ => true
  | .entrySet _ => true
  | .entryRead _ => true
  | .sluiceSet _ => true
  | .rakeMove _ => true
  | .rakeMoveStart die => frondWf die
  | .rakeEntryStep die => frondWf die
  | .rakeQuery _ => true
  | .rakeCancel _ => true
  | .bulkLoad _ => true
  | .bulkLoadStep _ => true
  | .snapshot _ => true
  | .stats _ => true
  | .counterRead _ => true
  | .counterClear _ => true
  | .hostLinkTraining port _ rate width _ _ => portWf port && rateWf rate && widthWf width
  | .hostLinkDown port _ => portWf port
  | .ideCheckFail port _ => portWf port
  | .ideKeyManagement ld _ _ => placeWf ld
  | .mldPortBind _ ld => placeWf ld
  | .mldPortUnbind _ ld => placeWf ld
  | .hdmDecoderCommit ld _ _ => placeWf ld
  | .cxlMemEnableSet ld => placeWf ld
  | .cxlMemEnableClear ld => placeWf ld
  | .addDynamicCapacity _ _ => true
  | .releaseDynamicCapacity ld _ => placeWf ld
  | .forcedRelease _ _ _ => true
  | .cxlMemReadShared ld _ _ => placeWf ld.place
  | .cxlMemReadAny ld _ _ => placeWf ld.place
  | .cxlMemFullWrite ld _ _ _ => placeWf ld.place
  | .cxlMemPartialWrite ld _ _ _ _ => placeWf ld.place
  | .cxlMemCleanEvict ld _ => placeWf ld.place
  | .tierWindow _ => true
  | .pageColdAge _ _ => true
  | .pageMigrationSwitch _ _ => true
  | .pageCompression _ _ _ => true
  | .mediaWaitExpire _ => true
  | .keysZeroSlot ld _ => placeWf ld
  | .keysZeroAll ld _ => placeWf ld
  | .rds agent _ _ => agentWf agent
  | .rdown agent _ _ => agentWf agent
  | .upg agent _ => agentWf agent
  | .wbdata agent _ => agentWf agent
  | .evictclean agent _ => agentWf agent
  | .fwds agent _ => agentWf agent
  | .fwdown agent _ => agentWf agent
  | .inv agent _ => agentWf agent
  | .cohTransactionDone _ _ => true
  | .bisnpResponse _ _ _ => true
  | .cohBiTimeout _ _ => true
  | .cohRetryLong _ _ _ => true
  | .injRowData ld _ _ => placeWf ld
  | .injRowMask ld _ _ => placeWf ld
  | .injRowValid ld _ _ => placeWf ld
  | .injRowCheck ld _ _ => placeWf ld
  | .injNearData ld _ _ => placeWf ld
  | .injSluiceTag ld _ _ => placeWf ld
  | .injSramLine ld _ _ => placeWf ld
  | .injDirtyTwins ld _ _ => placeWf ld
  | .injDirectory ld _ _ => placeWf ld
  | .injDramOneDevice ld _ _ => placeWf ld
  | .injDramTwoDevices ld _ _ => placeWf ld
  | .injPoison ld _ _ => placeWf ld
  | .injShadowRecord ld _ _ => placeWf ld
  | .scrubSlot die => frondWf die
  | .patrolScrub _ _ _ _ => true
  | .repairFence ld die _ => placeWf ld && frondWf die
  | .repairRetire ld die _ => placeWf ld && frondWf die
  | .repairRetireNoSpare ld die _ => placeWf ld && frondWf die
  | .panSpareSwitch die => frondWf die
  | .panBistDone die _ => frondWf die
  | .memretGo ld die _ => placeWf ld && hubWf die
  | .dramRowRetired _ _ => true
  | .dramChannelLost _ channel => portWf channel
  | .sessChallenge _ => true
  | .sessOpen _ => true
  | .sessClose _ => true
  | .sessNonceExpire _ => true
  | .sessIdleExpire _ => true
  | .sessLockoutEnd ld => placeWf ld
  | .secretSet _ => true
  | .seatsSecretClr ld _ => placeWf ld
  | .stewardClaim ld _ => placeWf ld
  | .stewardTake _ => true
  | .stewardHandover _ => true
  | .grant _ => true
  | .revoke _ => true
  | .seatDetach _ => true
  | .seatLinkGraceExpire _ => true
  | .detachDrainDone _ => true
  | .detachFinish _ => true
  | .covenantSet _ => true
  | .covenantClear _ => true
  | .covenantQuery _ => true
  | .keyLoad _ => true
  | .fmTunnel _ _ => true
  | .tableOwner _ => true
  | .getDigests ch => chanWf ch
  | .getCertificate ch _ _ => chanWf ch
  | .challenge ch _ => chanWf ch
  | .getMeasurements ch _ => chanWf ch
  | .keyExchange ch _ => chanWf ch
  | .finish ch _ => chanWf ch
  | .tallyEpoch e => epochWf e
  | .covBreachEnd _ => true
  | .frondRelockDone die _ => frondWf die
  | .dieSleepDone _ => true
  | .dieWakeDone _ _ => true
  | .frondScrubDue die => frondWf die
  | .panRetentionEntry die _ => frondWf die
  | .tallyLend => true
  | .costRecalibrate _ _ => true
  | .thermTrip _ _ => true
  | .hpwrPadrel ld die _ => placeWf ld && hubWf die
  | .clkXtalFail _ => true
  | .clkXtalOk => true
  | .clkRefLost => true
  | .timeCalWrite ld _ => placeWf ld
  | .registerWrite ld _ => placeWf ld
  | .unimplementedAccess ld _ _ => placeWf ld
  | .rcRegisterRead ld _ => placeWf ld
  | .multiwordW0Read ld _ => placeWf ld
  | .stageCommit ld _ _ => placeWf ld
  | .stageCommitApply _ => true
  | .guardedWrite ld _ _ => placeWf ld
  | .guardedWriteTimeout ld _ => placeWf ld
  | .cfgRefWrite ld _ _ => placeWf ld
  | .cfgSigPass _ => true
  | .cfgRestore _ => true
  | .cfgVoteFix _ _ _ _ => true
  | .arrReadArray ld die _ => placeWf ld && frondWf die
  | .arrWriteSlice ld die _ => placeWf ld && frondWf die
  | .arrReadShadow ld die _ => placeWf ld && frondWf die
  | .arrClear ld die _ => placeWf ld && frondWf die
  | .pkgModeSel ld _ => placeWf ld
  | .pkgReinit ld _ => placeWf ld
  | .halfTakeOut ld _ => placeWf ld
  | .halfReturn ld _ => placeWf ld
  | .halfMakePrimary ld _ => placeWf ld
  | .pairResyncDone _ _ => true
  | .hportBif ld port _ => placeWf ld && portWf port
  | .hportDown ld port _ => placeWf ld && portWf port
  | .portDownDrainEnd port => portWf port
  | .hportUp ld port _ => placeWf ld && portWf port
  | .ddrRate ld _ channel _ => placeWf ld && portWf channel
  | .mramEraseConfig ld _ _ => placeWf ld
  | .mramEraseLog ld _ _ => placeWf ld
  | .ledgerSync ld _ => placeWf ld
  | .ledgerSelWrite ld _ => placeWf ld
  | .ledgerHourly => true
  | .lifeAccumulate => true
  | .railExcursionBegin _ _ => true
  | .railExcursion _ _ _ => true
  | .logSecondBoundary => true
  | .mramSectorRefresh _ _ => true
  | .logSelWrite ld _ => placeWf ld
  | .logRecordLoaded => true
  | .harvestDumpDone _ _ => true
  | .harvestTake ld _ => placeWf ld
  | .harvestRelease ld _ => placeWf ld
  | .harvestOfsWrite ld _ => placeWf ld
  | .fwFault _ _ _ => true
  | .frondSvcOut ld die _ => placeWf ld && frondWf die
  | .frondSvcIn ld die _ => placeWf ld && frondWf die
  | .watripoEnable ld _ => placeWf ld
  | .wSearch ld _ _ => placeWf ld
  | .wWriteSlice ld _ _ => placeWf ld
  | .wReadSlice ld _ _ => placeWf ld
  | .wValidate ld _ _ => placeWf ld
  | .wInvalidate ld _ _ => placeWf ld
  | .linkDown _ => true
  | .linkUp _ => true
  | .frondLost die => frondWf die
  | .hubLost _ => true
  | .porstNRelease _ _ _ _ _ => true
  | .porstNAssert => true
  | .pgHub _ => true
  | .pllLock _ => true
  | .firmwareVerified _ => true
  | .mramRecoveryDone _ _ => true
  | .pgFr f => portWf f
  | .selftestDone _ _ => true
  | .arrayFillDone _ _ => true
  | .dramTrainingDone _ _ => true
  | .dramFillDone _ _ => true
  | .stageLimitExpire _ => true
  | .fwWatchdog _ => true
  | .pgFall _ => true
  | .avsStepTimeout _ _ => true
  | .hostPerst port _ => portWf port
  | .orderlyPd => true
  | .emergencyPd _ => true
  | .epdN => true
  | .restart => true
  | .stageQuery => true
  | .health => true
  | .ledgerRead _ => true
  | .logRead _ => true
  | .pldmFirmwareUpdate _ _ => true
  | .pldmPlatformMonitoring _ => true
  | .mctpControl _ => true
  | .bypass => true
  | .idcode => true
  | .samplePreload _ => true
  | .extest => true
  | .extestPulse => true
  | .extestTrain => true
  | .pgIo _ => true
  | .writeBackDone _ => true
  | .addDynamicCapacityResponse ld _ _ => placeWf ld
  | .clearEventRecords ld _ _ => placeWf ld
  | .avsStepDone _ => true
  | .highTemperatureHoldEnd _ => true
  | .halfOutDrainEnd _ => true
  | .frondSvcInDone die _ => frondWf die
  | .snapshotStep _ => true
  | .statsStep _ => true

end Sys2Proof
end

