-- ==== Sys2Proof/Tests/Slice0.lean ====
section
/-!
SUPPORT. Tests: the smoke test of WellFormed, published vectors of the cryptography, the spec's worked examples, and for every
statement states and operands that meet its hypotheses.
-/
namespace Sys2Proof.Tests
open Sys2Proof.Machine
set_option Elab.async false

/-- A table of one-row entries in pan 0 of fronds 2 and 3, of seat 0. -/
def tab : Table :=
  { rows := 1, ranked := false, cnt := true, far := false, owner := some 0, ofs := 0,
    fronds := [⟨2, 0, 0, 1⟩, ⟨3, 1, 0, 1⟩], cbase := 0x1000000, fbase := 0, flimit := 0, flines := 0, closing := none,
    rights := [(0, (true, true))], lost := false, hist := [], stats := [] }

/-- A frond in service with pans 0 to 2 awake. -/
def upFrond : Frond :=
  { frondReset with dstate := 0, level := 2
                    arr := { arrayReset with awake := [(0, ⟨0, false⟩), (1, ⟨0, false⟩), (2, ⟨0, false⟩)] } }

/-- A link up in CXL mode. -/
def upLink : Link := { linkReset with up := true, rate := 5, width := 16, cxl := true }

/-- An LS8-15X in whole mode after start-up: one host at place 0, seat 0 and steward, with extent 0, ring 0 (submissions at 0x10000,
completions at 0x20000, doorbells at 0x30000, 64 entries each) enabled and ready, mailbox buffer at 0x40000, and table 0. -/
def live : State :=
  let r := State.reset
  { r with
    boot := { r.boot with stage := 0x0B, hubDone := [true, true] }
    pins := { r.pins with porstN := true, pgHub := [true, true], enHub := [true, true], pgIo := [true, true], enIo := [true, true],
                          pgFr := List.replicate 6 true, enFr := List.replicate 6 true }
    pkg := { r.pkg with half := [.serving, .serving], dies := 0xFF, memActive := [true, true], memInfo := true }
    clock := { r.clock with rc := false, xtalOk := true, tb := 1000 }
    ports := ⟨0, .up, [upLink, linkReset, linkReset, linkReset]⟩ :: List.replicate 5 ⟨0, .up, List.replicate 4 linkReset⟩
    lds := [(0, { ldReset with bound := true, memEn := true, seat := some 0
                               decoders := ⟨some ⟨0, 2 ^ 28, 1, 256, 0, true⟩, false⟩ :: List.replicate 7 ⟨none, false⟩ })]
    seats := [(0, { seatNew 0 with g := 10 ^ 9 })]
    steward := { r.steward with holder := some 0 }
    extents := [(0, { seats := [⟨0, true, true⟩], db := true, key := none, policy := 0, keyLost := false, granted := true })]
    mem := { r.mem with phys := [1000000, 1000000], installed := [2 ^ 36, 2 ^ 36], blocks := 100 }
    fronds := List.replicate 6 upFrond
    tables := [(0, tab)]
    rings := [(0, ringNew 0 0)]
    nextId := 1
    tally := { r.tally with q := 10 ^ 12, qLeft := 10 ^ 12, b := 10 ^ 12, slack := 1000000 }
    log := { r.log with scanned := true }
    regs := { r.regs with file := [(ringPage 0 + 8, 1), (ringPage 0 + 0xC, 4), (ringPage 0 + 0x40, 0x0606), (ringPage 0 + 0x54, 1),
      (ringPage 0 + 0x64, 2), (ringPage 0 + 0x74, 3), (mgmtPage 0 + 0xC, 0x0100), (mgmtPage 0 + 0x54, 4)] } }

theorem test_live : ringCfgOk live 0 = true ∧ mayFetch live 0 (ringNew 0 0) = true ∧ mailBuf live 0 = 0x40000 ∧ mailBufOk live 0 = true ∧ awake live 2 = true ∧ frondServes live 7 = true := by decide +kernel

/-- A submission of an opcode whose fields (width in bytes, value) follow from byte 0 on. -/
def sub (op : Nat) (items : List (Nat × Nat)) : Sub :=
  { id := 0, op := op, bytes := BitVec.ofNat 768 (packItems ((1, op) :: items)), tag := 7, poison := false, reserve := 1,
    started := false, members := 1, fetched := 0, early := false, asked := false }

/-- The submission is the only one of ring 0. -/
def withSub (s : State) (u : Sub) : State := { s with rings := [(0, { ringNew 0 0 with subs := [u] })] }

/-- The bytes of a number at an address. -/
def withBytes (s : State) (a v n : Nat) : State := { s with mem := { s.mem with bytes := writeNatMem s.mem.bytes a v n } }

/-- A register holds a word. -/
def withReg (s : State) (a : Nat) (v : Word) : State := setReg s a v

theorem sound_live : Sound live := by constructor <;> decide +kernel

theorem sound_of {s : State} (h : Memory.wf s.mem.bytes = true ∧ s.log.hist.length ≤ 64 ∧ s.log.circ.length ≤ 65472 ∧
    s.fronds.length = 6 ∧ s.ports.length = 6 ∧ s.pkg.mode = 0 ∧ s.boot.mode ≠ 3 ∧ s.store.mode ≠ 3 ∧ s.store.sel ≠ some 3) :
    Sound s := by
  obtain ⟨h1, h2, h3, h4, h5, h6, h7, h8, h9⟩ := h
  exact ⟨h1, h2, h3, h4, h5, by rw [h6]; decide, h7, h8, h9, fun _ => h6⟩

/-- A package in whole mode with no errors, where nothing was written under a key, is calm. -/
theorem calm_of {s : State} (h : inPair s = false ∧ s.mem.encBy = [] ∧ s.coh.spec = [] ∧ s.coh.damage = [] ∧ s.mem.damage = [] ∧
    s.mem.badMap = []) : Calm s := by
  obtain ⟨h1, h2, h4, h3⟩ := h
  exact ⟨fun p => absurd p (by simp [h1]), fun _ _ _ _ _ e => (by rw [h2] at e; cases e), h3, h4⟩

theorem media_for {s : State} {a n : Nat} (h : regionShort s a n = false ∧ ((a + n - 1) / 4096 ≤ a / 4096 ∨
    ∀ h < 2, capU8At s h + 8 * ((a + n + 4095) / 4096 - a / 4096) ≤ 8 * capPAt s h)) : MediaFor s a n := h

theorem calm_live : Calm live := calm_of (by decide +kernel)

/-- A row whose checks pass. -/
def goodRow (die row : Nat) (data mask : Plane) (valid : Bool) (near : Word64) : Row :=
  { data := data, mask := mask, valid := valid, check := rowCheck die row data mask valid, near := near,
    nchk := nearCheck die row near, prio := prioOf near, ppar := true, poison := false, rewritten := false, failed := false }

/-- A row and its good golden record. -/
def withRow (s : State) (die row : Nat) (data mask : Plane) (valid : Bool) (near : Word64) : State :=
  modArr s die fun a => { a with
    rows := mput a.rows row (goodRow die row data mask valid near)
    shadow := mput a.shadow row ⟨data, mask, near, recordCrc data mask near, valid, false, false⟩ }

/-- Whether a command answers a next state. -/
def runs (o : Res) : Bool := match o with
  | .next _ => true
  | _ => false

theorem runs_next {o : Res} (h : runs o = true) : ∃ t, o = .next t := by
  cases o with
  | next t => exact ⟨t, rfl⟩
  | fault _ => cases h
  | refused _ => cases h

/-- The state a command leaves. -/
def after (c : Instr) (s : State) : State := match exec c s with
  | .next t => t
  | _ => s

theorem mget_all {α : Type} {p : α → Bool} {m : SMap α} (h : (m.all fun e => p e.2) = true) {n : Nat} {x : α}
    (hx : mget m n = some x) : p x = true := by
  induction m with
  | nil => simp [mget] at hx
  | cons e t ih =>
    obtain ⟨k, v⟩ := e
    simp only [List.all_cons, Bool.and_eq_true] at h
    simp only [mget] at hx
    split at hx
    · cases hx; exact h.1
    · split at hx
      · cases hx
      · exact ih h.2 hx

/-- Every listed golden record reads good, so every record does. -/
theorem good_records {s : State} {d : Nat} (h : ((frond s d).arr.shadow.all fun e => recordGood e.2) = true) : GoodRecords s d := by
  intro r
  unfold shadowAt
  cases hx : mget (frond s d).arr.shadow r with
  | none => exact (by decide +kernel : recordGood fillRecord = true)
  | some x => exact mget_all h hx

/-- The table without hit counters. -/
def plainTab : Table := { tab with cnt := false }

/-- Seat 0, the steward, has a session, whose KW is the bytes 0 to 31. -/
def steward : State :=
  { live with seats := [(0, { seatNew 0 with g := 10 ^ 9, session := some ⟨1, 7, 0x1F1E1D1C1B1A191817161514131211100F0E0D0C0B0A09080706050403020100, 1000, 0⟩ })] }

/-- A command with its MAC under the session's key in bytes 12 to 19 (R315). -/
def signed (u : Sub) : Sub :=
  let b := bytesOf 96 u.bytes.toNat
  { u with bytes := u.bytes ||| BitVec.ofNat 768 (truncMac 7 (b.take 12 ++ b.drop 20) * 2 ^ 96) }

/-- An entry command at row 5 of frond 2, with bytes 6 and 7 and what follows byte 12. -/
def entryCmdAt (op b6 b7 : Nat) (rest : List (Nat × Nat)) : Sub :=
  sub op ([(1, 0), (2, 7), (2, 0), (1, b6), (1, b7), (4, posOf 2 5), (4, 0)] ++ rest)

/-- A whole plane of care cells. -/
def allCare : Plane := BitVec.allOnes 80

/-- Nothing stands in a line's way where no transaction runs and nothing is damaged. -/
theorem line_clear {s : State} {l h : Nat} (a : s.coh.txns = [] ∧ (s.coh.dir.all fun e => !e.2.bad) = true ∧
    (s.coh.filt.all fun e => !e.2.bad) = true ∧ s.coh.damage = [] ∧ s.mem.damage = [] ∧ s.mem.badMap = []) : LineClear s l h := by
  obtain ⟨h1, h2, h3, h4, h5, h6⟩ := a
  refine ⟨by rw [h1]; rfl, fun e he => ?_, fun e he => ?_, fun _ _ => by rw [h4]; rfl, by rw [h5]; rfl, by rw [h6]; rfl⟩
  · simpa using mget_all (p := fun e => !e.bad) h2 he
  · simpa using mget_all (p := fun e => !e.bad) h3 he

/-- Line 0x1400 of page 0x50, whose home is hub 0, held by agent 3 in a state of Table 6.2. -/
def agentHolds (st : CopySt) : State :=
  { live with coh := { live.coh with
      copies := [(copyKey 0x1400 0 3, st)]
      dir := [(hkey 0x1400 0, ⟨if st = .s then .s else .x, if st = .s then 0 else 3, vec [3], 0, false, []⟩)] } }

/-- The complement write of a guarded write: the same mask, the inverse data. -/
def compl (v : Word32) : Word32 := (v &&& 0xFFFF0000) ||| (~~~v &&& 0x0000FFFF)

/-- The first write of a guarded register waits for its complement. -/
def armed (s : State) (a : Nat) (v : Word32) : State :=
  { s with regs := { s.regs with guards := mput s.regs.guards (ldKey 0 (pageBase a)) ⟨a, v⟩ } }

/-- Whether the complement of an armed write takes effect. -/
def armedOk (s : State) (a : Nat) (v : Word32) : Bool :=
  (lookup s 0 a).any (fun x => decide (x.1 = a) && decide (x.2.2 = .write) && (guardAt x.2.1.ty (a % 4096)).isSome) &&
    decide (writeWaits s 0 a = false ∧ mget s.regs.guards (ldKey 0 (pageBase a)) = some ⟨a, v⟩ ∧ maskOf v ≠ 0 ∧ maskOf (compl v) = maskOf v ∧
      dataOf (compl v) = ~~~(dataOf v))

theorem takes_effect {s : State} {a : Nat} {v : Word32} (h : armedOk s a v = true) : TakesEffect s 0 a (compl v) v := by
  unfold armedOk at h
  rw [Bool.and_eq_true, decide_eq_true_iff] at h
  obtain ⟨h1, h2⟩ := h
  refine ⟨?_, h2⟩
  cases hl : lookup s 0 a with
  | none => rw [hl] at h1; simp at h1
  | some x =>
    rw [hl] at h1
    obtain ⟨b, pg, r⟩ := x
    simp only [Option.any_some, Bool.and_eq_true, decide_eq_true_iff] at h1
    obtain ⟨⟨rfl, rfl⟩, hg⟩ := h1
    exact ⟨pg, rfl, hg⟩

/-- Seat 0's buffer holds a request: code, body, and handle and MAC of its session (under key 7). -/
def request (s : State) (code : Nat) (body : List Nat) : State :=
  let head := bytesOf 2 code ++ bytesOf 2 body.length ++ bytesOf 4 1
  let mac := truncMac 7 (head ++ List.replicate 16 0 ++ body)
  withBytes s 0x40000 (ofBytes (head ++ bytesOf 8 mac ++ List.replicate 16 0 ++ body)) 256

/-- What a request needs to be answered. -/
def mailOk (s : State) (code : Nat) (body : List Nat) : Bool :=
  decide ((mhas s.seats 0 = true ∧ mailBusy s 0 = true ∧ mailBufOk s 0 = true ∧
    mailCut s 0 = false ∧ (s.rings.any fun e => e.2.revoke == some 0) = false ∧ needRegion s (mailBuf s 0) 256 true = none ∧
    needRegion s (mailBuf s 0 + 256) 256 false = none ∧ regionPoison s (mailBuf s 0) 256 = false ∧ (mailCode code).isSome = true ∧
    byteField (mailReq s 0) 0 2 = code ∧ mailCheck s 0 code (mailReq s 0) = none ∧
    body = ((mailReq s 0).drop 32).take (byteField (mailReq s 0) 2 2)) ∧
    inPair s = false ∧ s.mem.encBy = [] ∧ s.coh.spec = [] ∧ s.coh.damage = [] ∧ s.mem.damage = [] ∧ s.mem.badMap = [])

theorem mail_ready {s : State} {code : Nat} {body : List Nat} (h : mailOk s code body = true) : MailReady s 0 code body := by
  obtain ⟨⟨a, b, c, x, d, e, f, g, i, j, k, l⟩, q⟩ := of_decide_eq_true h
  exact ⟨a, b, c, x, d, e, f, g, calm_of q, i, j, k, l⟩

/-- Seat 0 holds line 0x1400 in A and has been asked for it. -/
def askedBack : State :=
  let s := hostHoldsLine
  { s with coh := { s.coh with
      txns := [(hkey 0x1400 0,
        { req := .device, cmds := [], ready := false, wait := [0], sent := 0, queue := [], data := false, fed := false,
          dirty := false, mirror := false, lock := false })] } }
where
  /-- Seat 0 holds the line. -/
  hostHoldsLine : State := { live with coh := { live.coh with filt := [(hkey 0x1400 0, ⟨true, [0], false, [], 0, false⟩)] } }

/-- Capacity is delegated to the external fabric manager. -/
def delegatedLive : State := withReg live (globalPage 3 + 0x4C) 1

/-- Page 0x50 with a page-map entry. -/
def withPage (p : Page) : State := setPage live 0x50 0 p

/-- A plain page last used long ago. -/
def oldPage : Page := { pageReset with st := .plain, count := 9 }

/-- The session of SPDM at place 0 is secure. -/
def secured : State := modLd live 0 fun l => { l with spdm := { l.spdm with secure := true } }

/-- The measurements of an epoch of an idle package at a junction of 40 °C. -/
def calm : EpochIn :=
  { tj := List.replicate 8 160, demand := List.replicate 6 0, overheadNs := 0, measured := [], pressure := 0, background := [],
    sleep := [], refusals := [], hubLevel := [3, 3], links := [] }

/-- Two seats attached, seat 0 the steward; table 0 without regions in DRAM. -/
def twoSeats : State :=
  { steward with
    seats := steward.seats ++ [(1, seatNew 0x2000)]
    store := { steward.store with secrets := [(0, ⟨5, 0, true⟩), (4, ⟨6, 0x2000, true⟩)] }
    lds := steward.lds ++ [(0x2000, { ldReset with bound := true, memEn := true, seat := some 1 })] }

/-- Ring 9 belongs to seat 1 and holds submissions. -/
def ringOfOne (l : List Sub) : State := { twoSeats with rings := twoSeats.rings ++ [(9, { ringNew 1 0 with subs := l })] }

/-- Frond 2 in a state of its own. -/
def frondAs (f : Frond → Frond) : State := modFrond live 2 f

/-- The register at an address is reached as said, on a page of this type. -/
def reached (s : State) (p : Place) (a : Nat) (ty : PageTy) (r : Reach) : Bool :=
  (lookup s p a).any fun x => x.1 == a && x.2.1.ty == ty && x.2.1.base == pageBase a && x.2.2 == r

/-! Ill-formed commands are refused, one for each check -/

theorem test_wf_place : wellFormed (.ringEnable 0xC000 0 0) = false ∧ wellFormed (.cxlMemEnableSet 0x0010) = false ∧
    wellFormed (.cxlMemEnableSet 0xA80F) = true := by decide

theorem test_wf_frond : wellFormed (.scrubSlot 1) = false ∧ wellFormed (.scrubSlot 2) = true := by decide

theorem test_wf_hub : wellFormed (.hpwrPadrel 0 2 0) = false ∧ wellFormed (.hpwrPadrel 0 1 0) = true := by decide

theorem test_wf_port : wellFormed (.hostPerst 6 false) = false ∧ wellFormed (.pgFr 6) = false ∧ wellFormed (.hostPerst 5 false) = true := by
  decide

theorem test_wf_agent : wellFormed (.rds 22 0 .good) = false ∧ wellFormed (.rds 21 0 .good) = true := by decide

theorem test_wf_rate_width : wellFormed (.hostLinkTraining 0 0 6 16 true ⟨false, true, none⟩) = false ∧
    wellFormed (.hostLinkTraining 0 0 5 3 true ⟨false, true, none⟩) = false ∧ wellFormed (.hostLinkTraining 0 0 5 16 true ⟨false, true, none⟩) = true := by decide

theorem test_wf_channel : wellFormed (.getDigests (.doe 0xE000)) = false ∧ wellFormed (.getDigests .mctp) = true := by decide

theorem test_wf_epoch : wellFormed (.tallyEpoch { calm with tj := [] }) = false ∧ wellFormed (.tallyEpoch calm) = true := by decide

/-- No row of the table gives bits. -/
theorem test_decode_none : decodeTableWord 16 0 = none ∧ State.reset.withFetchWord 16 0 = State.reset := by decide

/-! The named algorithms on published vectors -/

/-- FIPS 180-4: SHA-256 of "abc". -/
theorem test_sha256 : ofBytesBE (sha256 [0x61, 0x62, 0x63]) =
    0xba7816bf8f01cfea414140de5dae2223b00361a396177a9cb410ff61f20015ad := by decide +kernel

/-- RFC 4231, test case 2's form with a 32-byte key: the key "Jefe" padded with zeros is the same key. -/
theorem test_hmac : ofBytesBE (hmac ([0x4a, 0x65, 0x66, 0x65] ++ List.replicate 28 0)
    [0x77, 0x68, 0x61, 0x74, 0x20, 0x64, 0x6f, 0x20, 0x79, 0x61, 0x20, 0x77, 0x61, 0x6e, 0x74, 0x20, 0x66, 0x6f, 0x72, 0x20,
      0x6e, 0x6f, 0x74, 0x68, 0x69, 0x6e, 0x67, 0x3f]) =
    0x5bdcc146bf60754e6a042426089575c75a003f089d2739839dec58b964ec3843 := by decide +kernel

/-- FIPS 197, appendix C.3: AES-256 both ways. -/
theorem test_aes256 : ofBytesBE (aesEnc (List.range 32) ((List.range 16).map (17 * ·))) = 0x8ea2b7ca516745bfeafc49904b496089 ∧
    aesDec (List.range 32) (bytesBE 16 0x8ea2b7ca516745bfeafc49904b496089) = (List.range 16).map (17 * ·) := by decide +kernel

/-- IEEE 1619, XTS-AES-256 vector 10: the first 64 bytes of the unit. -/
theorem test_xts : ofBytesBE (xtsUnit (aesEnc (bytesBE 32 0x2718281828459045235360287471352662497757247093699959574966967627))
      (xtsTweaks (bytesBE 32 0x3141592653589793238462643383279502884197169399375105820974944592) 0xFF) (List.range 64)) =
    0x1c3b3a102f770386e4836c99e370cf9bea00803f5e482357a4ae12d414a3e63b5d31e276f8fe4a8d66b317f9ac683f44680a86ac35adfc3345befecb4bb188fd := by
  decide +kernel

/-! States and operands that meet the hypotheses of the statements, clause by clause -/

theorem witness_step_front : { live with pending := [.health, .tallyLend] }.pending = .health :: [.tallyLend] := rfl

theorem witness_idle : State.reset.pending = [] ∧ State.reset.boot.stage = 0 ∧ live.pending = [] ∧ live.boot.stage ≠ 0 ∧
    live.clock.refLost = false ∧ live.regs.late = [] ∧ live.regs.wcmd = none ∧ live.clock.fine + 1 < tickSteps live.clock.tb := by decide +kernel

theorem witness_idle_tick :
    (let s := { live with clock := { live.clock with fine := tickSteps 1000 - 1, calTick := 32767 } }
     s.boot.stage ≠ 0 ∧ s.regs.late = [] ∧ s.regs.wcmd = none ∧ tickSteps s.clock.tb ≤ s.clock.fine + 1 ∧ s.clock.tb + 1 < 2 ^ 64 ∧ s.clock.calTick = 32767) ∧
    (let s := { live with clock := { live.clock with fine := tickSteps 1000 - 1 } }
     tickSteps s.clock.tb ≤ s.clock.fine + 1 ∧ s.clock.tb + 1 < 2 ^ 64 ∧ s.clock.calTick ≠ 32767) ∧
    { live with clock := { live.clock with refLost := true } }.clock.refLost = true ∧
    (let s := { live with clock := { live.clock with tb := 2 ^ 64 - 1, fine := tickSteps (2 ^ 64 - 1) } }
     tickSteps s.clock.tb ≤ s.clock.fine + 1 ∧ 2 ^ 64 ≤ s.clock.tb + 1) := by decide +kernel

theorem witness_queued : { live with pending := [.tallyLend] }.pending ≠ [] := by decide

theorem witness_steps_sound : Sound live ∧ ∃ t, step live = .next t :=
  ⟨sound_live, runs_next (by decide +kernel)⟩

theorem witness_memory : Memory.wf [(3, 1), (4, 2)] = true ∧ Memory.wf [] = true ∧ (∀ a, readMem [] a = readMem [] a) :=
  ⟨by decide, by decide, fun _ => rfl⟩

theorem witness_finish :
    let u := sub 0x21 []
    let s := withSub live u
    let r := { ringNew 0 0 with subs := [u] }
    Sound s ∧ EntryFree s 0 r ∧ r.stopped = none ∧ u ∈ r.subs ∧ u.members = 1 ∧
      (∀ v ∈ r.subs, v.members ≠ 0 ∧ (v.id = u.id → v = u)) :=
  ⟨by constructor <;> decide +kernel, by
    constructor
    case home => exact calm_of (by decide +kernel)
    all_goals decide +kernel, by decide +kernel, by decide +kernel, by decide +kernel, by decide +kernel⟩

/-- Ring 0 holds one FETCH_ADD at slot 0, and SQ_TAIL stands at n. -/
def offered (op n : Nat) : State :=
  withBytes { live with rings := [(0, { ringNew 0 0 with sqTail := BitVec.ofNat 32 n })] } 0x10000 op 1

theorem witness_fetch_takes (op : Nat) (h : op = 0x21 ∨ op = 0x7F) :
    let s := offered op 3
    let r := { ringNew 0 0 with sqTail := 3 }
    Calm s ∧ mget s.rings 0 = some r ∧ mayFetch s 0 r = true ∧ 0 < (r.sqTail - r.sqHead).toNat ∧
      slotCut s 0 0 = false ∧ (∀ i < slotsOf op, slotCut s 0 i = false) ∧ (needRegion s (slotAddr s 0 0) 32 false).isNone = true ∧ (needTail s 0 0 (slotsOf op)).isNone = true ∧
      slotPoison s 0 0 = false ∧ (∀ i < slotsOf op, slotPoison s 0 i = false) ∧ devRead s (slotAddr s 0 0) 1 = op ∧
      slotsOf op ≤ 3 ∧ reservation op (subBytes s 0 0 (slotsOf op)) (ringEarly s 0) ≤ freeEntries s r 0 ∧
      (knownOp op = true ↔ op = 0x21) := by
  rcases h with rfl | rfl <;> exact ⟨calm_of (by decide +kernel), by decide +kernel⟩

/-- A three-slot command of which only two slots are written. -/
theorem witness_fetch_waits :
    let s := offered 0x40 2
    let r := { ringNew 0 0 with sqTail := 2 }
    mget s.rings 0 = some r ∧ mayFetch s 0 r = true ∧ 0 < (r.sqTail - r.sqHead).toNat ∧
      devRead s (slotAddr s 0 0) 1 = 0x40 ∧ (r.sqTail - r.sqHead).toNat < slotsOf 0x40 := by decide +kernel

/-- A submission of an unknown opcode that carries FENCE waits behind an earlier one. -/
theorem witness_fetch_fenced :
    let s := { withBytes (offered 0x7F 1) 0x10001 2 1 with
      rings := [(0, { ringNew 0 0 with sqTail := 1, subs := [sub 0x21 []] })] }
    let r := { ringNew 0 0 with sqTail := 1, subs := [sub 0x21 []] }
    mget s.rings 0 = some r ∧ mayFetch s 0 r = true ∧ knownOp 0x7F = false ∧ r.subs ≠ [] ∧
      fenced { sub 0x7F [] with bytes := subBytes s 0 0 1 } = true := by decide +kernel

/-- Ring 0 not enabled, with the completion ring's size given. -/
def unready (depth : Word) : State :=
  withReg (withReg (withReg live (ringPage 0 + 8) 0) (ringPage 0 + 0xC) 0) (ringPage 0 + 0x40) depth

theorem witness_ring_enable (d : Word) (h : d = 0x0606 ∨ d = 0x0611) :
    let s := unready d
    ((lookup s 0 (ringPage 0 + 8)).map fun x => x.2.2) = some .write ∧ mget s.regs.guards (ldKey 0 (ringPage 0)) = none ∧
      mget s.rings 0 = some (ringNew 0 0) ∧ ringEn s 0 = false ∧ (maskOf 0x00010001).getLsbD 0 = true ∧
      (dataOf 0x00010001).getLsbD 0 = true ∧ (ringCfgOk s 0 = true ↔ d = 0x0606) := by
  rcases h with rfl | rfl <;> decide +kernel

theorem witness_ring_checks : mget live.rings 0 = some (ringNew 0 0) ∧ (ringNew 0 0).holder = some 0 ∧ ¬ (sqLog live 0 < 6) ∧
    (let s := unready 0x0611; mget s.rings 0 = some (ringNew 0 0) ∧ 16 < sqLog s 0) := by decide +kernel

theorem witness_ring_ready :
    let s := withReg live (ringPage 0 + 0xC) 0
    Sound s ∧ Calm s ∧ MediaFor s (ringBase s 0 0x60) 1024 ∧ mget s.rings 0 = some (ringNew 0 0) ∧ ringEn s 0 = true ∧ ringReadyBit s 0 = false ∧
      needRegion s (ringBase s 0 0x60) 1024 false = none ∧ 16 * 2 ^ cqLog s 0 = 1024 ∧ ringBase s 0 0x60 % 64 = 0 ∧
      regionCut s (ringHub s 0) (ringBase s 0 0x60) 1024 = false ∧ ∀ k, ringBase s 0 0x60 ≤ k → k < ringBase s 0 0x60 + 1024 → keyAbsent s k = false := by
  have h : ∀ s : State, s = withReg live (ringPage 0 + 0xC) 0 → mget s.rings 0 = some (ringNew 0 0) ∧ ringEn s 0 = true ∧
      ringReadyBit s 0 = false ∧ needRegion s (ringBase s 0 0x60) 1024 false = none ∧ 16 * 2 ^ cqLog s 0 = 1024 ∧
      ringBase s 0 0x60 % 64 = 0 ∧ regionCut s (ringHub s 0) (ringBase s 0 0x60) 1024 = false :=
    fun s e => by subst e; decide +kernel
  obtain ⟨h1, h2, h3, h4, h5, h6, h7⟩ := h _ rfl
  refine ⟨by constructor <;> decide +kernel, calm_of (by decide +kernel), media_for (by decide +kernel), h1, h2, h3, h4, h5, h6, h7, ?_⟩
  intro k _ hk
  have h0 : k / 2 ^ 28 = 0 := Nat.div_eq_of_lt (lt_trans hk (by decide +kernel))
  unfold keyAbsent extentAt
  rw [h0]
  decide +kernel

/-- A host holds a line in A. -/
def hostHolds (s : State) (line hub seat : Nat) : State :=
  { s with coh := { s.coh with filt := mput s.coh.filt (hkey line hub) ⟨true, [seat], false, [], 0, false⟩ } }

theorem witness_ring_ready_waits :
    let s := hostHolds (withReg live (ringPage 0 + 0xC) 0) (0x20000 / 64) 0 0
    mget s.rings 0 = some (ringNew 0 0) ∧ ringEn s 0 = true ∧ ringReadyBit s 0 = false ∧
      (needRegion s (ringBase s 0 0x60) 1024 false).isSome = true := by decide +kernel

theorem witness_ring_disable : ((lookup live 0 (ringPage 0 + 8)).map fun x => x.2.2) = some .write ∧
    mget live.regs.guards (ldKey 0 (ringPage 0)) = none ∧ mget live.rings 0 = some (ringNew 0 0) ∧ ringEn live 0 = true ∧
    (maskOf 0x00010000).getLsbD 0 = true ∧ (dataOf 0x00010000).getLsbD 0 = false ∧ maskOf 0x00010000 &&& 6 = 0 ∧
    (maskOf 0x00030000).getLsbD 0 = true ∧ maskOf 0x00030000 &&& 6 ≠ 0 := by decide +kernel

theorem witness_ring_idle : (let r : Ring := { ringNew 0 0 with closing := true }
    r.closing = true ∧ r.revoke = none ∧ r.subs = [] ∧ r.owed = []) ∧
    ({ ringNew 0 0 with closing := true, subs := [sub 1 []] } : Ring).subs ≠ [] := by decide

theorem witness_doorbells :
    ringEn live 0 = true ∧ ringReadyBit live 0 = true ∧ seatOf live 0 = some 0 ∧ placeUp live 0 = true ∧
      reaches live 0 (ringBase live 0 0x70) true false = true ∧ (0xF : BitVec 4) ≠ 0 ∧
      (mergeBytes 0 0 0xF - (ringNew 0 0).sqHead).toNat = 0 ∧ 0 < (mergeBytes 0 1 0xF - (ringNew 0 0).sqHead).toNat ∧
      (mergeBytes 0 64 0xF - (ringNew 0 0).sqHead).toNat ≤ 2 ^ sqLog live 0 ∧
      2 ^ sqLog live 0 < (mergeBytes 0 65 0xF - (ringNew 0 0).sqHead).toNat ∧
      (let r : Ring := { ringNew 0 0 with cqTail := 2 }
       (mergeBytes 0 2 0xF - r.cqHead).toNat ≤ (r.cqTail - r.cqHead).toNat ∧
         (r.cqTail - r.cqHead).toNat < (mergeBytes 0 3 0xF - r.cqHead).toNat) := by decide +kernel

/-! Searches -/

/-- A short search of table 0 with a key of 80 bits. -/
def search (key : Nat) : Sub := sub 0x01 [(1, 0), (2, 7), (2, 0), (1, 5), (1, 1), (10, key)]

/-- A group of two members of tables 0 and 5, where table 5 does not exist. -/
def group (hits : Nat) : Sub := sub 0x02 [(1, 0), (2, 7), (2, 0), (1, 5), (1, hits), (2, 5), (4, 0), (1, 2), (1, 0), (10, 0)]

theorem witness_search_starts :
    let s := withSub live (search 0)
    let u := search 0
    nextSub s 0 0x01 = some (u, 0) ∧ dispatches s 0 = true ∧ singleCheck s 0 (subTable u) (subKeylen u) (subHits u) 10 = none ∧
      (needFronds s (tableDies s [subTable u])).isNone = true := by decide +kernel

theorem witness_search_refused :
    let u := sub 0x01 [(1, 0), (2, 7), (2, 9), (1, 5), (1, 1)]
    let s := withSub live u
    nextSub s 0 0x01 = some (u, 0) ∧ dispatches s 0 = true ∧
      singleCheck s 0 (subTable u) (subKeylen u) (subHits u) 10 = some stNoRight := by decide +kernel

theorem witness_group :
    (let u := group 8
     let s := withSub live u
     nextSub s 0 0x02 = some (u, 0) ∧ dispatches s 0 = true ∧ subGroup u = 2 ∧
       groupCheck s 0 (subKeylen u) (subHits u) (subGroup u) = none ∧
       (groupTables u).take 2 = [0, 5] ∧
       (needFronds s (tableDies s ([0, 5].filter fun x => (memberCheck s 0 x (subKeylen u)).isNone))).isNone = true) ∧
    (let u := group 9
     let s := withSub live u
     nextSub s 0 0x02 = some (u, 0) ∧ dispatches s 0 = true ∧ subGroup u = 2 ∧
       groupCheck s 0 (subKeylen u) (subHits u) (subGroup u) = some stBadCount) := by decide +kernel

theorem witness_member_admitted :
    let dies := searchDies live tab (inCompare live)
    tableIn live 0 = some tab ∧ (admitWork live 0 (searchCost live tab 1)).isSome = true ∧
      reachFault live 0 (dies.map fun x => x.1) = none ∧ (∀ x ∈ dies, 2 ≤ x.1 ∧ x.1 - 2 < live.fronds.length) ∧
      (dies.map fun x => x.1).Nodup := by decide +kernel

theorem witness_member_over_budget :
    let s := { live with tally := { live.tally with lent := true, qLeft := 0 } }
    tableIn s 0 = some tab ∧ (admitWork s 0 (searchCost s tab 1)).isNone = true := by decide +kernel

/-- Ring 0's search of key 0 under way, with one matching entry in frond 2 and its sluice tags open. -/
def searching : State :=
  let s := withRow live 2 5 0 0xFFFFFFFFFFFFFFFFFFFF true 0x1234
  let s := withReg (withReg (withReg (withReg s (tagAddr 2 0) 0) (tagAddr 2 0 + 4) 0) (tagAddr 3 0) 0) (tagAddr 3 0 + 4) 0
  after (.searchShort 0) (withSub s { search 0 with bytes := (search 0).bytes ||| 256 })

theorem test_search_dispatched : (mget searching.searches 1).map (fun q => (q.early, q.spec, q.res.map fun r => (r.die, r.lit))) =
    some (false, true, [(2, [0]), (3, [0])]) := by decide +kernel

/-- A frond's part of a search that has found the entry at row 5. -/
def found (s : State) (die : Nat) : FRes :=
  { die := die, rank := die - 2, lit := [0], done := true, hits := if die = 2 then [capture s 2 5 1] else [], prios := [], fault := 0,
    near := none, wake := false }

theorem witness_local_result :
    (mget searching.searches 1).any (fun q => decide (mget searching.tables q.table = some tab ∧ q.early = false ∧ q.ended = false ∧
      2 ≤ q.res.length ∧ (q.res.map fun x => x.die).Nodup) && q.res.any fun r =>
        decide (r.die = 2 ∧ r.done = false ∧ awake searching 2 = true ∧ (∀ p ∈ r.lit, p / 32 ∉ (frond searching 2).arr.bedDead) ∧
          matches_ searching 2 1 r.lit q.key = [5]) && (wakeLit searching 1 q r).isNone) = true := by decide +kernel

/-- Both fronds of the search have answered; frond 2 has a hit. -/
def answered : State := after (.localResult 1 3 .none) (after (.localResult 1 2 .none) searching)

theorem witness_near_data :
    (mget answered.searches 1).any (fun q => q.spec && q.res.any fun r =>
      decide (r.die = 2 ∧ r.done = true ∧ r.hits ≠ [] ∧ r.near = none ∧ halted answered (halfOf r.die) = false)) = true := by
  decide +kernel

theorem witness_prefetch :
    let s := answered
    let line := 0x100000
    mayPrefetch s line (devHub s line) = true ∧ mget s.coh.spec line ≠ some (some 0) ∧ homeCut s (dispHub s 0) line = false ∧
      (s.coh.spec.filter fun e => devHub s e.1 == devHub s line).length < 32768 ∧ hubServes s (devHub s line) = true := by
  decide +kernel

theorem witness_cascade :
    (mget answered.searches 1).any (fun q => decide (mget answered.tables q.table = some tab ∧ (answered.searches.Pairwise fun a b => a.1 < b.1) ∧
      q.ended = false ∧ 2 ≤ q.res.length ∧ q.compare = false ∧ ∀ r ∈ q.res, r.done = true ∧ halted answered (halfOf r.die) = false)) = true ∧
    (mget searching.searches 1).any (fun q => decide (mget searching.tables q.table = some tab ∧ (searching.searches.Pairwise fun a b => a.1 < b.1) ∧
      2 ≤ q.res.length ∧ ∃ r ∈ q.res, r.done = false ∧ halted searching (halfOf r.die) = false)) = true := by
  decide +kernel

/-- The winner's completion: HIT at row 5 of frond 2 with its near data. -/
theorem test_search_hit :
    devRead (after (.cascadeResolution 1) (after (.nearDataRead 1 2) answered)) 0x20000 16 =
      compNat (finalComp 7 stHit 0 (posOf 2 5) 0x1234) true := by decide +kernel

theorem witness_judge :
    (let res := [found searching 2, { found searching 3 with fault := stBedFault }]
     ∃ r ∈ res, r.fault ≠ 0) ∧
    (let res := [found searching 3]
     (∀ r ∈ res, r.fault = 0) ∧ merged false 1 res = []) ∧
    (let res := [found searching 2, found searching 3]
     (∀ r ∈ res, r.fault = 0) ∧ merged false 1 res ≠ [] ∧ (readHits searching 1 0 1 res (merged false 1 res)).2 = none) ∧
    (let res := [{ found searching 2 with near := some stRowCheck }]
     (∀ r ∈ res, r.fault = 0) ∧ merged false 1 res ≠ [] ∧
       ((readHits searching 1 0 1 res (merged false 1 res)).2.map fun x => (x.1.row, x.2)) = some (5, stRowCheck)) := by
  decide +kernel

/-- Frond 2 has an increment of entry 5's counter to make, in lines given copies. -/
def counting (copies : SMap CopySt) : State :=
  { live with fronds := { upFrond with hce := [(0, 5)] } :: List.replicate 5 upFrond, coh := { live.coh with copies := copies } }

theorem witness_hit_counter (st : Option CopySt) (h : st = none ∨ st = some .m ∨ st = some .e) :
    let word := tab.cbase + 8 * 5
    let line := word / 64
    let hub := agentHome live 2 line
    let s := counting (mset [] (copyKey line hub 2) st)
    Sound s ∧ Calm s ∧ (frond s 2).hce = [(0, 5)] ∧ serveDie s (baseDie s 2) = 2 ∧ awake s 2 = true ∧ mget s.tables 0 = some tab ∧
      ownerReaches s tab word true = true ∧ keyAbsent s word = false ∧ word % 8 = 0 ∧ needOthers s line hub = none ∧
      copyOf s line hub 2 = st ∧ devPoison s line = false ∧ writeShort s line false = false ∧
      devPoison (setPoison s line (devHub s line)) line = true := by
  rcases h with rfl | rfl | rfl <;> exact ⟨by constructor <;> decide +kernel, calm_of (by decide +kernel), by decide +kernel⟩

theorem witness_hit_counter_asks :
    let s := hostHolds (counting []) ((tab.cbase + 8 * 5) / 64) (agentHome live 2 ((tab.cbase + 8 * 5) / 64)) 0
    (ownLine s ((tab.cbase + 8 * 5) / 64) (agentHome s 2 ((tab.cbase + 8 * 5) / 64)) 2).2 = false ∧
      needOthers s ((tab.cbase + 8 * 5) / 64) (agentHome s 2 ((tab.cbase + 8 * 5) / 64)) = none := by decide +kernel

theorem witness_frond_recoveries :
    (let s := modArr live 2 fun a => { a with awake := [(0, ⟨0, true⟩)], tagBad := [(6, true)], repairing := [(8, [true])] }
     halted s (halfOf 2) = false ∧ mget (frond s 2).arr.awake 0 = some ⟨0, true⟩ ∧ mhas (frond s 2).arr.tagBad (2 * 3) = true ∧
       KeysRise (frond s 2).arr.tagBad ∧ KeysRise (frond s 2).arr.tagFlip ∧ KeysRise (frond s 2).arr.repairing ∧
       mget (frond s 2).arr.repairing 8 = some [true] ∧ recordGood (shadowAt s 2 8) = true) := by
  and_intros <;> first | decide +kernel | (unfold KeysRise; decide +kernel)

/-- An atomic on the word at 0x50000. -/
def atomic (op opnd cmp : Nat) : Sub := sub op [(1, 0), (2, 7), (4, 0), (8, 0x50000), (8, opnd), (8, cmp)]

theorem witness_atomics (op : Nat) (h : op = 0x21 ∨ op = 0x22 ∨ op = 0x23) :
    let u := atomic op 5 1
    let s := withSub live u
    let line := 0x50000 / 64
    let hub := devHub s line
    let s1 := (homeTakes s line hub).1
    nextSub s 0 op = some (u, 0) ∧ dispatches s 0 = true ∧ detaching s 0 = false ∧
      atomicTarget s 0 (field u.bytes 8 8) = (0x50000, none) ∧ keyAbsent s 0x50000 = false ∧ homeCut s (compHub s 0) line = false ∧
      hubServes s hub = true ∧ needOthers s line hub = none ∧ (homeTakes s line hub).2 = true ∧ homeOwns s1 line hub = true ∧
      Sound s1 ∧ Calm s1 ∧ keyAbsent s1 0x50000 = false ∧ devPoison s1 line = false ∧ writeShort s1 line false = false ∧
      (admitKnown (startSub s1 0 u.id 1) 0 (opCost s1 opAtomic 0 + opCost s1 opDispatch 0)).isSome = true ∧
      (devRead s1 0x50000 8 ≠ field u.bytes 24 8) := by
  intro u s line hub s1
  have hs : Sound s1 := by rcases h with rfl | rfl | rfl <;> exact sound_of (by decide +kernel)
  have hc : Calm s1 := by rcases h with rfl | rfl | rfl <;> exact calm_of (by decide +kernel)
  rcases h with rfl | rfl | rfl <;> and_intros <;> first | exact hs | exact hc | decide +kernel

/-- A host holds the atomic's line in A: the home asks for it back before anything else. -/
theorem witness_atomic_waits :
    (homeTakes (hostHolds live (0x50000 / 64) 0 0) (0x50000 / 64) (devHub live (0x50000 / 64))).2 = false := by decide +kernel

theorem test_fetch_add : devRead (after (.fetchAdd 0) (withSub (withBytes live 0x50000 (2 ^ 64 - 1) 8) (atomic 0x21 3 0))) 0x50000 8 = 2 := by
  decide +kernel

theorem test_cmp_swap : devRead (after (.cmpSwap 0) (withSub (withBytes live 0x50000 9 8) (atomic 0x23 7 9))) 0x50000 8 = 7 := by
  decide +kernel

/-! Tables and entries -/

/-- What makes an entry command at row 5 of frond 2 ready, all but the records. -/
theorem entry_ready {s : State} {op cost : Nat} {u : Sub} {t : Table}
    (h : nextSub s 0 op = some (u, 0) ∧ dispatches s 0 = true ∧ cmdCheck s u 0 true true = none ∧
      mget s.tables (subTable u) = some t ∧ posClean (subPos u 8) = true ∧ (posSlot s t (subPos u 8) false).isSome = true ∧
      entryBusy s (posDie (subPos u 8)) (subTable u) (posIndex t (posRow (subPos u 8))) = none ∧
      jobMeets s .snapshot (posDie (subPos u 8)) (subTable u) (posIndex t (posRow (subPos u 8)))
        (posIndex t (posRow (subPos u 8))) = false ∧
      copies s (posDie (subPos u 8)) = [2] ∧ underRepair s 2 (posRow (subPos u 8)) = false ∧
      tagsMoving s (posDie (subPos u 8)) (posRow (subPos u 8)) = false ∧ ((frond s 2).arr.shadow.all fun e => recordGood e.2) = true ∧
      frondServes s 2 = true ∧ s.fronds.length = 6 ∧ (needFronds s [2]).isNone = true ∧
      (admitWork s 0 (opCost s opDispatch 0 + cost)).isSome = true ∧ rowsAt s 2 (posRow (subPos u 8)) = t.rows ∧
      t.rows ∈ [1, 2, 4, 8]) : EntryReady s 0 op u 0 t cost := by
  obtain ⟨h1, h2, h3, h4, h5, h6, h7, h8, hc, h9, h10, h11, h12, h13, h14, h15, h16, h17⟩ := h
  refine ⟨⟨h1, h2⟩, h3, h4, h5, h6, h7, h8, h10, ?_, ?_, ?_, h17⟩
  · rw [hc]; intro d hd; cases List.mem_singleton.mp hd; exact ⟨h9, good_records h11⟩
  · rw [hc]
    refine ⟨by simp, ?_, Option.isNone_iff_eq_none.mp h14, h15⟩
    intro d hd; cases List.mem_singleton.mp hd; exact ⟨h12, le_refl _, by rw [h13]; decide⟩
  · rw [hc]; intro d hd; cases List.mem_singleton.mp hd; exact h16

/-- TABLE_CREATE of table 1: two pans of frond 4 from pan 0, one row per entry, owned by seat 0. -/
def create : Sub :=
  signed (sub 0x40 [(1, 0), (2, 7), (2, 1), (1, 1), (1, 0), (4, 1), (8, 0), (2, 0), (2, 0), (1, 1), (1, 0), (1, 4), (1, 0), (2, 0), (2, 2)])

theorem witness_table_create :
    let u := create
    let s := withSub steward u
    let t := createTable u
    nextSub s 0 0x40 = some (u, 0) ∧ dispatches s 0 = true ∧ detaching s 0 = false ∧ sessionOk s 0 u = true ∧ subTable u < 1024 ∧
      mget s.tables (subTable u) = none ∧ createCheck s u t = none ∧ (t.fronds.flatMap fun f => copies s f.die) = [4] ∧
      frondServes s 4 = true ∧ (needFronds s [4]).isNone = true ∧
      (admitWork s 0 (opCost s opDispatch 0 + 0)).isSome = true ∧
      ∀ f ∈ t.fronds, ∀ k < f.pans, panFree s f.die (f.first + k) = true := by decide +kernel

theorem test_table_create : (mget (after (.tableCreate 0) (withSub steward create)).tables 1).map (fun t => t.fronds) =
    some [⟨4, 0, 0, 2⟩] := by decide +kernel

/-- TABLE_RANGE of table 0 in frond 2: from pan 0 to pan 1. -/
def range : Sub :=
  signed (sub 0x42 [(1, 0), (2, 7), (2, 0), (1, 0), (1, 0), (4, 1), (8, 0), (1, 2), (1, 0), (2, 1), (2, 1)])

theorem witness_table_range :
    let u := range
    let s := withSub steward u
    let leave := ((List.range 1).map (0 + ·)).filter fun p => !((List.range 1).map (1 + ·)).contains p
    nextSub s 0 0x42 = some (u, 0) ∧ dispatches s 0 = true ∧ manageCheck s u 0 = none ∧ mget s.tables (subTable u) = some tab ∧
      field u.bytes 20 1 = 2 ∧ field u.bytes 22 2 = 1 ∧ field u.bytes 24 2 = 1 ∧ slotOfDie tab 2 = some ⟨2, 0, 0, 1⟩ ∧
      copies s 2 = [2] ∧ frondServes s 2 = true ∧ (needFronds s [2]).isNone = true ∧
      (admitWork s 0 (opCost s opDispatch 0 + 0)).isSome = true ∧ panFree s 2 1 = true ∧
      (∀ p ∈ leave, movePan s 2 p = false ∧ ∀ d ∈ copies s 2, validEntries s d p tab.rows = []) ∧
      ∀ e ∈ s.jobs, e.2.table ≠ subTable u := by decide +kernel

/-- TABLE_DESTROY of table 0. -/
def destroy : Sub := signed (sub 0x41 [(1, 0), (2, 7), (2, 0), (1, 0), (1, 0), (4, 1), (8, 0)])

theorem witness_table_destroy :
    let u := destroy
    let s := withSub steward u
    nextSub s 0 0x41 = some (u, 0) ∧ dispatches s 0 = true ∧ manageCheck s u 0 = none ∧ mget s.tables (subTable u) = some tab ∧
      (s.jobs.Pairwise fun a b => a.1 < b.1) ∧ s.fronds.length = 6 ∧
      (admitKnown s 0 (opCost s opDispatch 0)).isSome = true := by decide +kernel

theorem witness_table_destroy_done :
    let s := { withSub live destroy with tables := [(0, { tab with closing := some (0, 0) })] }
    (s.tables.Pairwise fun a b => a.1 < b.1) ∧ (∀ e ∈ s.searches, e.2.table ≠ 0) ∧
      (∀ f ∈ s.fronds, ∀ c ∈ f.hce, c.1 ≠ 0) ∧
      openSub s 0 0 = some destroy ∧
      ∀ f ∈ tab.fronds, ∀ d ∈ copies s f.die, 2 ≤ d ∧ d - 2 < s.fronds.length := by decide +kernel

theorem witness_entry_invalidate :
    let u := entryCmdAt 0x48 0 0 []
    let s := withSub (withRow live 2 5 0 allCare true 0) u
    EntryReady s 0 0x48 u 0 tab (arrayCost s (copies s 2) 0 1) := entry_ready (by decide +kernel)

theorem witness_entry_write :
    let u := entryCmdAt 0x49 0 1 [(10, 0x55), (10, 0xFF)]
    let s := withSub live u
    EntryReady s 0 0x49 u 0 tab (arrayCost s (copies s 2) 1 0) ∧ field u.bytes 6 1 + field u.bytes 7 1 ≤ tab.rows ∧
      (∀ d ∈ copies s 2, heldValid s d 5 tab.rows = false) ∧
      rowsCovered s 2 (5 / 8192) ((List.range 1).map (rowImage u)) 0 tab.ofs = true :=
  ⟨entry_ready (by decide +kernel), by decide +kernel⟩

theorem test_entry_write : (let r := rowAt (after (.entryWrite 0) (withSub live (entryCmdAt 0x49 0 1 [(10, 0x55), (10, 0xFF)]))) 2 5
    (r.data, r.mask, r.valid)) = (0x55, 0xFF, false) := by decide +kernel

theorem witness_entry_validate :
    let u := entryCmdAt 0x4A 0 0 []
    let s := withSub (withRow live 2 5 0 allCare false 0) u
    EntryReady s 0 0x4A u 0 tab (arrayCost s (copies s 2) 0 1) ∧ badRows s tab 2 5 = false ∧ entryCovered s tab 2 5 = true ∧
      ∀ d ∈ copies s 2, entryPoison s d 5 = false := ⟨entry_ready (by decide +kernel), by decide +kernel⟩

theorem witness_near_write :
    let u := entryCmdAt 0x4B 0 0 [(8, 0x1122334455667788)]
    let s := withSub live u
    EntryReady s 0 0x4B u 0 tab (arrayCost s (copies s 2) 1 0) ∧ field u.bytes 6 1 < tab.rows ∧
      nearGood 2 5 (rowAt s 2 5) = true := ⟨entry_ready (by decide +kernel), by decide +kernel⟩

/-- The priority value of a row is bytes 6 and 7 of its near data (R69). -/
theorem test_near_write_priority :
    (rowAt (after (.nearWrite 0) (withSub live (entryCmdAt 0x4B 0 0 [(8, 0x1122334455667788)]))) 2 5).prio = 0x1122 := by
  decide +kernel

/-- A good record of a valid row in BUF at 0x60000. -/
def withRecord (s : State) : State :=
  withBytes s 0x60000 (recordNat 0x55 0xFF 0x1234 (recordCrc 0x55 0xFF 0x1234) true false) 32

set_option maxRecDepth 10000 in
theorem witness_entry_set :
    let u := entryCmdAt 0x4C 0 0 [(8, 0x60000)]
    let s := withSub (withRecord live) u
    EntryReady s 0 0x4C u 0 tab (arrayCost s (copies s 2) 1 2) ∧ bufOk s 0 (subBuf u) 32 false = true ∧
      needRegion s (subBuf u) 32 true = none ∧ judgeRecords s tab 2 0 (subBuf u) = none ∧ bufCut s 0 (subBuf u) 32 = false ∧
      keyAbsent s (subBuf u) = false ∧ Calm s := by
  intros; and_intros <;> first | decide +kernel | exact entry_ready (by decide +kernel) | exact calm_of (by decide +kernel)

theorem key_present {s : State} {k : Nat} (hk : k < 2 ^ 28) (h : keyAbsent s 0 = false) : keyAbsent s k = false := by
  unfold keyAbsent extentAt at *
  rw [Nat.div_eq_of_lt hk]
  exact h

theorem witness_entry_read :
    let u := entryCmdAt 0x4D 0 0 [(8, 0x60000)]
    let s := withSub (withRow live 2 5 0 allCare true 0) u
    EntryReady s 0 0x4D u 0 tab 0 ∧ Sound s ∧ Calm s ∧ bufCut s 0 (subBuf u) 32 = false ∧ MediaFor s (subBuf u) 32 ∧ bufOk s 0 (subBuf u) 32 true = true ∧
      needRegion s (subBuf u) 32 false = none ∧ partPoison s (subBuf u) 32 = false ∧ serveDie s 2 ∈ copies s 2 ∧
      ∀ k, subBuf u ≤ k → k < subBuf u + 32 → keyAbsent s k = false :=
  ⟨entry_ready (by decide +kernel), sound_of (by decide +kernel), calm_of (by decide +kernel), by decide +kernel,
    media_for (by decide +kernel), by decide +kernel, by decide +kernel, by decide +kernel, by decide +kernel, fun _ _ hk => key_present (lt_trans hk (by decide +kernel)) (by decide +kernel)⟩

/-- SLUICE_SET of pan 0 of frond 2: all 16 cells care and match 0xABCD. -/
def sluice : Sub := sub 0x50 [(1, 0), (2, 7), (2, 0), (1, 1), (1, 2), (2, 0), (6, 0), (2, 0xABCD), (2, 0xFFFF)]

theorem witness_sluice_set :
    let u := sluice
    let s := withSub live u
    nextSub s 0 0x50 = some (u, 0) ∧ dispatches s 0 = true ∧ cmdCheck s u 0 true true = none ∧
      mget s.tables (subTable u) = some tab ∧ field u.bytes 6 1 = 1 ∧ field u.bytes 7 1 = 2 ∧ field u.bytes 8 2 = 0 ∧
      inRange tab 2 0 = true ∧ movePan s 2 0 = false ∧ copies s 2 = [2] ∧ frondServes s 2 = true ∧
      (needFronds s [2]).isNone = true ∧ (admitWork s 0 (opCost s opDispatch 0 + 0)).isSome = true ∧
      tagRefusal s 2 [(0, 0xABCD, 0xFFFF)] = none ∧ sluiceBlocked s (pageBase (tagAddr 2 0)) = false := by decide +kernel

theorem test_sluice_set : tagOf (after (.sluiceSet 0) (withSub live sluice)) 2 0 = (0xABCD, 0xFFFF) := by decide +kernel

/-! The rake and bulk work -/

/-- RAKE_MOVE: two entries of frond 2 from row 5 on, one place up. -/
def rake : Sub := sub 0x54 [(1, 0), (2, 7), (2, 0), (1, 0), (1, 0), (4, posOf 2 5), (4, 2)]

theorem witness_rake_move :
    let u := rake
    let s := withSub live u
    let mv : Move := { ring := some 0, sub := u.id, table := 0, down := false, start := 5, count := 2, moved := 0, seat := 0 }
    nextSub s 0 0x54 = some (u, 0) ∧ dispatches s 0 = true ∧ cmdCheck s u 0 true true = none ∧ field u.bytes 6 1 ≤ 1 ∧
      posClean (subPos u 8) = true ∧ mget s.tables (subTable u) = some tab ∧ field u.bytes 12 4 = 2 ∧
      (posSlot s tab (subPos u 8) true).isSome = true ∧ moveFits s tab 2 mv = true ∧ (∀ e ∈ s.jobs, e.2.table ≠ 0) ∧
      (admitKnown s 0 (opCost s opDispatch 0)).isSome = true ∧ copies s 2 = [2] ∧ frondServes s 2 = true ∧
      (frond s 2).moves.length < 8 := by decide +kernel

/-- Frond 2's rake holds a move of the entries at rows 5 and 6 up, queued or running. -/
def raking (running : Bool) : State :=
  let mv : Move := { ring := some 0, sub := 0, table := 0, down := false, start := 5, count := 2, moved := 0, seat := 0 }
  let s := withRow (withRow { withSub live rake with tables := [(0, plainTab)] } 2 5 1 allCare true 0xAA) 2 6 2 allCare true 0xBB
  modFrond s 2 fun f => if running then { f with move := some mv } else { f with moves := [mv] }

theorem witness_rake_start :
    let s := raking false
    (frond s 2).move = none ∧ (frond s 2).moves.length = 1 ∧ frondServes s 2 = true ∧ awake s 2 = true ∧
      tableIn s 0 = some plainTab ∧ (∀ e ∈ s.jobs, e.2.table ≠ 0) ∧
      (frond s 2).moves.all (fun mv => moveFits s plainTab (baseDie s 2) mv &&
        !entryValid s 2 (posRowOf plainTab (moveTarget mv)) 1 && !moveUncovered s plainTab 2 mv) = true := by decide +kernel

theorem witness_rake_step :
    let s := raking true
    frondServes s 2 = true ∧ awake s 2 = true ∧ mget s.tables 0 = some plainTab ∧ plainTab.cnt = false ∧
      arrayCost s [2] 1 2 ≤ s.tally.slack ∧ underRepair s 2 6 = false ∧ underRepair s 2 7 = false ∧
      tagsMoving s 2 6 = false ∧ tagsMoving s 2 7 = false ∧ rowWhole s 2 6 = true ∧ GoodRecords s 2 ∧ (rowAt s 2 7).valid = false ∧ rowsAt s 2 6 = 1 ∧ rowsAt s 2 7 = 1 ∧
      (frond s 2).move.any (fun mv => moveStep mv mv.moved == (6, 7) && decide (mv.moved + 1 < mv.count)) = true := by
  intros; and_intros <;>
    first | decide +kernel | exact good_records (by decide +kernel)

theorem test_rake_step : (let s := after (.rakeEntryStep 2) (raking true)
    ((rowAt s 2 7).near, (rowAt s 2 7).valid, (rowAt s 2 6).valid)) = (0xBB, true, false) := by decide +kernel

/-- RAKE_QUERY or RAKE_CANCEL of table 0 in frond 2. -/
def rakeAsk (op : Nat) : Sub := sub op [(1, 0), (2, 7), (2, 0), (1, 0), (1, 2)]

theorem witness_rake_query (op : Nat) (h : op = 0x55 ∨ op = 0x56) :
    let u := rakeAsk op
    let s := withSub (raking true) u
    nextSub s 0 op = some (u, 0) ∧ dispatches s 0 = true ∧ cmdCheck s u 0 (op == 0x56) true = none ∧
      mget s.tables (subTable u) = some plainTab ∧ (slotOfDie plainTab (field u.bytes 7 1)).isSome = true ∧
      (admitWork s 0 (opCost s opDispatch 0)).isSome = true ∧ copies s (field u.bytes 7 1) = [2] := by
  rcases h with rfl | rfl <;> decide +kernel

/-- A block command of table 0 at row 5 of frond 2, two entries, BUF at 0x60000. -/
def block (op : Nat) : Sub := entryCmdAt op 0 0 [] |> fun u =>
  { u with bytes := u.bytes ||| BitVec.ofNat 768 (2 * 2 ^ 96 + 0x60000 * 2 ^ 128) }

theorem witness_bulk_load :
    let u := block 0x58
    let s := withSub live u
    nextSub s 0 0x58 = some (u, 0) ∧ dispatches s 0 = true ∧
      (match blockCheck s u 0 true none false with | .ok x => decide (x = (tab, 2, 5)) | .error _ => false) = true ∧
      field u.bytes 12 4 = 2 ∧ bufOk s 0 (subBuf u) 64 false = true ∧ (∀ e ∈ s.jobs, e.2.table ≠ subTable u) ∧
      (admitWork s 0 (opCost s opDispatch 0 + arrayCost s (copies s 2) 2 4)).isSome = true ∧ copies s 2 = [2] ∧
      frondServes s 2 = true ∧ moveMeets s 2 0 5 6 = false := by decide +kernel

/-- BUF of so many bytes is reached, with its keys, on this side of the cross links, and clean, in a calm state. -/
structure RoomAt (s : State) (u : Sub) (len : Nat) : Prop where
  buf : bufOk s 0 (subBuf u) len true = true
  near : bufCut s 0 (subBuf u) len = false
  calm : Calm s
  keys : ∀ k, subBuf u ≤ k → k < subBuf u + len → keyAbsent s k = false
  clean : partPoison s (subBuf u) len = false

theorem room_at {s : State} {u : Sub} {len : Nat} (h : (bufOk s 0 (subBuf u) len true = true ∧ bufCut s 0 (subBuf u) len = false ∧
    subBuf u + len ≤ 2 ^ 28 ∧ keyAbsent s 0 = false ∧ partPoison s (subBuf u) len = false) ∧
    inPair s = false ∧ s.mem.encBy = [] ∧ s.coh.spec = [] ∧ s.coh.damage = [] ∧ s.mem.damage = [] ∧ s.mem.badMap = []) : RoomAt s u len :=
  ⟨h.1.1, h.1.2.1, calm_of h.2, fun _ _ hk => key_present (lt_of_lt_of_le hk h.1.2.2.1) h.1.2.2.2.1, h.1.2.2.2.2⟩

theorem witness_snapshot :
    let u := block 0x59
    let s := withSub live u
    nextSub s 0 0x59 = some (u, 0) ∧ dispatches s 0 = true ∧
      (match blockCheck s u 0 true none true with | .ok x => decide (x = (tab, 2, 5)) | .error _ => false) = true ∧
      (∀ e ∈ s.jobs, e.2.table ≠ subTable u) ∧ frondServes s (serveDie s 2) = true ∧
      (needFronds s [serveDie s 2]).isNone = true ∧ (admitWork s 0 (opCost s opDispatch 0)).isSome = true ∧
      moveMeets s 2 0 5 6 = false ∧ RoomAt s u 64 ∧ GoodRecords s (serveDie s 2) := by
  intros; and_intros <;>
    first | decide +kernel | exact good_records (by decide +kernel) | exact room_at (by decide +kernel)

theorem witness_stats (b6 : Nat) (h : b6 = 0 ∨ b6 = 1) :
    let u := sub 0x5A [(1, 0), (2, 7), (2, 0), (1, b6), (1, 2), (8, 0), (8, 0x60000)]
    let s := withSub live u
    nextSub s 0 0x5A = some (u, 0) ∧ dispatches s 0 = true ∧ cmdCheck s u 0 false true = none ∧ field u.bytes 6 1 = b6 ∧
      mget s.tables (subTable u) = some tab ∧ slotOfDie tab (field u.bytes 7 1) = some ⟨2, 0, 0, 1⟩ ∧
      frondServes s (serveDie s 2) = true ∧ (admitWork s 0 (opCost s opDispatch 0)).isSome = true ∧ RoomAt s u (96 + 16) := by
  rcases h with rfl | rfl <;> intros <;> and_intros <;> first | decide +kernel | exact room_at (by decide +kernel)

/-- A job of table 0 in frond 2 from row 5 on, of n entries. -/
def job (k : JobKind) (n : Nat) (checked : Bool) : Job :=
  { kind := k, ring := 0, sub := 0, seat := 0, table := 0, die := 2, start := 5, count := n, done := 0, buf := 0x60000, moment := 0,
    image := [], checked := checked, cost := 0, fromG := true, valids := 0 }

set_option maxRecDepth 10000 in
theorem witness_load_pass (n : Nat) (h : n = 1 ∨ n = 2) :
    let j := job .load n false
    let s := { withSub (withBytes (withRecord live) 0x60020 1 1) (block 0x58) with jobs := [(3, j)] }
    mget s.jobs 3 = some j ∧ mget s.tables j.table = some tab ∧ copies s j.die = [2] ∧ frondServes s 2 = true ∧
      halted s (halfOf 2) = false ∧ (needFronds s [2]).isNone = true ∧ needRegion s j.buf (32 * j.count) true = none ∧
      loadFault s tab j = (if n = 1 then none else some (1, stRecordCheck)) ∧ bufCut s 0 j.buf (32 * j.count) = false ∧
      (∀ k, j.buf ≤ k → k < j.buf + 32 * tab.rows * j.count → keyAbsent s k = false) ∧ Calm s := by
  rcases h with rfl | rfl <;> intros <;> and_intros  <;>
    first
    | exact fun _ _ hk => key_present (lt_trans hk (by decide +kernel)) (by decide +kernel)
    | exact calm_of (by decide +kernel)
    | decide +kernel

theorem witness_load_step :
    let x := recordNat 0x55 0xFF 0x1234 (recordCrc 0x55 0xFF 0x1234) true false
    let j := { job .load 2 true with image := [(0x60000, BitVec.ofNat 256 x), (0x60020, 0)] }
    let s := { withSub live (block 0x58) with jobs := [(3, j)] }
    mget s.jobs 3 = some j ∧ mget s.tables j.table = some tab ∧
      copies s j.die = [2] ∧ frondServes s 2 = true ∧ halted s (halfOf 2) = false ∧ (needFronds s [2]).isNone = true ∧
      tab.rows ≤ j.image.length ∧ tagsMoving s 2 5 = false ∧ underRepair s 2 5 = false ∧
      recordsCovered s tab j.die (5 / 8192) ((j.image.take tab.rows).map fun x => recordOf x.2) = true ∧
      GoodRecords s 2 ∧ rowsAt s 2 5 = 1 ∧ s.fronds.length = 6 ∧ j.done + 1 < j.count ∧ Calm s := by
  intros; and_intros <;>
    first | decide +kernel | exact good_records (by decide +kernel) | exact calm_of (by decide +kernel)

theorem witness_image_step (k : JobKind) (h : k = .snapshot ∨ k = .stats) :
    let j := { job k 2 true with image := [(0x60000, 1), (0x60020, 2)] }
    let s := { withSub live (block 0x59) with jobs := [(3, j)] }
    Sound s ∧ Calm s ∧ MediaFor s 0x60000 64 ∧ halted s (primary s) = false ∧ needRegion s 0x60000 64 false = none ∧
      bufCut s 0 0x60000 64 = false ∧ keyAbsent s 0x60000 = false := by
  rcases h with rfl | rfl <;>
    exact ⟨sound_of (by decide +kernel), calm_of (by decide +kernel), media_for (by decide +kernel), by decide +kernel⟩

theorem witness_counters (op : Nat) (h : op = 0x5C ∨ op = 0x5D) :
    let u := block op
    let s := withSub live u
    let a := counterWord s tab 2 (posRowOf tab 5)
    Sound s ∧ Calm s ∧ MediaFor s (if op = 0x5C then subBuf u else a) 16 ∧ bufCut s 0 a 16 = false ∧
      bufCut s 0 (subBuf u) 16 = false ∧ nextSub s 0 op = some (u, 0) ∧ dispatches s 0 = true ∧
      (match blockCheck s u 0 (op == 0x5D) (some 65536) true with | .ok x => decide (x = (tab, 2, 5)) | .error _ => false) = true ∧
      countersOut s tab a 16 = false ∧ field u.bytes 12 4 = 2 ∧ (admitWork s 0 (opCost s opDispatch 0)).isSome = true ∧
      bufOk s 0 (subBuf u) 16 true = true ∧ (∀ f ∈ s.fronds, ∀ c ∈ f.hce, c.1 ≠ subTable u) ∧ needRegion s a 16 true = none ∧
      needRegion s a 16 false = none ∧ needRegion s (subBuf u) 16 false = none ∧ partPoison s (subBuf u) 16 = false ∧
      (∀ k < 16, keyAbsent s (a + k) = false ∧ devPoison s ((a + k) / 64) = false) ∧
      ∀ k < 16, keyAbsent s (subBuf u + k) = false ∧ devPoison s ((subBuf u + k) / 64) = false := by
  rcases h with rfl | rfl <;>
    exact ⟨sound_of (by decide +kernel), calm_of (by decide +kernel), media_for (by decide +kernel), by decide +kernel⟩

/-! Coherence and host memory -/

/-- An agent may ask for line 0x1400 of a page that is not PACKED, at hub 0, with no request of its own waiting anywhere. -/
theorem agent_ready {s : State} {a : Nat} (c : LineClear s 0x1400 0)
    (h : agentMayHold s a 0x1400 = true ∧ hubServes s 0 = true ∧ Machine.asked s 0x1400 0 a = false ∧ keyAbsent s (64 * 0x1400) = false ∧
      s.coh.retry.getD 0 [] = [] ∧
      (dirWays s 0 0x1400).length < 16 ∧ (pageAtHub s (pageOfLine 0x1400) 0).st = .zero) : AgentReady s a 0x1400 0 := by
  obtain ⟨h1, h2, h3, h0, h4, h5, h6⟩ := h
  refine ⟨h1, h2, h3, h0, c, .inr ⟨fun _ _ _ => ?_, h5⟩, fun _ e => by rw [h6] at e; cases e⟩
  unfold setWaiters
  rw [h4]
  rfl

theorem witness_agent_grant :
    AgentReady live 2 0x1400 0 ∧ Calm live ∧ agentHome live 2 0x1400 = 0 ∧ copyOf live 0x1400 0 2 = none ∧
      agentRoom live 2 0x1400 = true ∧ hostsFor live 0x1400 0 false = [] ∧ hostsFor live 0x1400 0 true = [] ∧
      sharersOf live 0x1400 0 = [] ∧ twinUse live 2 < twinCap 2 :=
  ⟨agent_ready (line_clear (by decide +kernel)) (by decide +kernel), calm_live, by decide +kernel⟩

theorem witness_agent_shares :
    let s := agentHolds .s
    AgentReady s 2 0x1400 0 ∧ Calm s ∧ copyOf s 0x1400 0 2 = none ∧ agentRoom s 2 0x1400 = true ∧ hostsFor s 0x1400 0 false = [] ∧
      (∀ x ∈ sharersOf s 0x1400 0, copyOf s 0x1400 0 x = some .s ∨ copyOf s 0x1400 0 x = some .o) ∧ sharersOf s 0x1400 0 = [3] :=
  ⟨agent_ready (line_clear (by decide +kernel)) (by decide +kernel), calm_of (by decide +kernel), by decide +kernel⟩

theorem witness_agent_upgrades :
    let s := agentHolds .s
    AgentReady s 3 0x1400 0 ∧ Calm s ∧ copyOf s 0x1400 0 3 = some .s ∧ hostsFor s 0x1400 0 true = [] ∧
      (∀ x ∈ sharersOf s 0x1400 0, x = 3) ∧ twinUse s 3 < twinCap 3 :=
  ⟨agent_ready (line_clear (by decide +kernel)) (by decide +kernel), calm_of (by decide +kernel), by decide +kernel⟩

theorem witness_agent_commands (own : Bool) :
    let s := agentHolds .m
    AgentReady s 2 0x1400 0 ∧ Calm s ∧ copyOf s 0x1400 0 2 = none ∧ agentRoom s 2 0x1400 = true ∧ hostsFor s 0x1400 0 own = [] ∧
      cmdsFor s 0x1400 0 2 own false = [(3, if own then .fwdOwn else .fwdS)] := by
  cases own <;>
    exact ⟨agent_ready (line_clear (by decide +kernel)) (by decide +kernel), calm_of (by decide +kernel), by decide +kernel⟩

/-- An agent's request has met a modified copy of agent 3: the home's command is on its way. -/
def forwarding (c : Instr) : State := after c (agentHolds .m)

theorem test_read_of_dirty_line :
    (let s := after (.fwds 3 0x1400) (forwarding (.rds 2 0x1400 .good))
     (copyOf s 0x1400 0 3, copyOf s 0x1400 0 2)) = (some .o, some .s) := by decide +kernel

theorem witness_command_answered :
    (let s := forwarding (.rds 2 0x1400 .good)
     (s.coh.copies.Pairwise fun a b => a.1 < b.1) ∧ mget s.coh.damage (copyKey 0x1400 0 3) = none ∧ halted s 0 = false ∧
       twinUse s 0 < twinCap 0 ∧ (mget s.coh.txns (hkey 0x1400 0)).map (fun t => t.cmds) = some [(3, .fwdS)]) ∧
    (let s := forwarding (.rdown 2 0x1400 .good)
     (mget s.coh.txns (hkey 0x1400 0)).map (fun t => t.cmds) = some [(3, .fwdOwn)]) ∧
    (let s := { agentHolds .s with coh := { (agentHolds .s).coh with copies := [(copyKey 0x1400 0 2, .s), (copyKey 0x1400 0 3, .s)] } }
     let t := after (.upg 2 0x1400) s
     (mget t.coh.txns (hkey 0x1400 0)).map (fun t => t.cmds) = some [(3, .inv)] ∧ halted t 0 = false) := by decide +kernel

theorem witness_copy_given_up :
    (dirtySt (copyOf (agentHolds .m) 0x1400 0 3) = true ∧ mget (agentHolds .m).coh.txns (hkey 0x1400 0) = none ∧
      (mget (agentHolds .m).coh.dir (hkey 0x1400 0)).map (fun e => e.bad) = some false ∧ ((agentHolds .m).coh.copies.Pairwise fun a b => a.1 < b.1) ∧
      filtBad (agentHolds .m) 0x1400 0 = false ∧ twinUse (agentHolds .m) 0 < twinCap 0) ∧
    (copyOf (agentHolds .e) 0x1400 0 3 = some .e ∧ mget (agentHolds .e).coh.txns (hkey 0x1400 0) = none ∧
      filtBad (agentHolds .e) 0x1400 0 = false ∧ twinUse (agentHolds .e) 0 < twinCap 0) := by decide +kernel

theorem witness_transaction_done :
    let s := after (.fwds 3 0x1400) (forwarding (.rds 2 0x1400 .good))
    (mget s.coh.txns (hkey 0x1400 0)).map (fun t => t.ready) = some true ∧ halted s 0 = false ∧
      (mget (forwarding (.rds 2 0x1400 .good)).coh.txns (hkey 0x1400 0)).map (fun t => t.ready) = some false := by decide +kernel

theorem witness_write_back :
    let s := after (.wbdata 3 0x1400) (agentHolds .m)
    Calm s ∧ (pageAtHub s (pageOfLine 0x1400) 0).st = .zero ∧ hotHere s 0x1400 0 = false ∧ twinUse s 0 ≤ twinCap 0 ∧ s.coh.wb.find? (fun k => k % 2 == 0) = some (hkey 0x1400 0) ∧ (mget s.coh.dir (hkey 0x1400 0)).map (fun e => e.st) = some .wb ∧
      (s.coh.dir.Pairwise fun a b => a.1 < b.1) ∧ halted s 0 = false := ⟨calm_of (by decide +kernel), by decide +kernel⟩

theorem witness_host_answers :
    awaits askedBack 0x1400 0 0 = true ∧ halted askedBack 0 = false ∧ ownedAt askedBack 0x1400 0 0 = [0] ∧
      (awaits (answerAt askedBack 0x1400 0 0) 0x1400 1 0 = false) ∧
      (let e := event askedBack 0x4001 1 0xFF 0 [(8, 64 * 0x1400)] (.seat 0)
       awaits (answerAt e 0x1400 0 0) 0x1400 1 0 = false) ∧
      (askedBack.coh.filt.Pairwise fun a b => a.1 < b.1) ∧
      (mget askedBack.coh.txns (hkey 0x1400 0)).any (fun t => t.wait.contains 0 && decide (t.req = .device) && !t.mirror) = true := by decide +kernel

theorem witness_returned_data : Sound live ∧ Calm live ∧ keyAbsent live (64 * 0x1400) = false ∧ ∀ h ∈ [0], h ∈ homes live 0x1400 :=
  ⟨sound_live, calm_live, by decide +kernel⟩

theorem witness_long_retry :
    let s := { live with coh := { live.coh with retry := [[(0x1400, .device, 5)], []] } }
    (s.coh.retry.getD 0 []).find? (fun e => e.1 == 0x1400) = some (0x1400, .device, 5) := by decide +kernel

theorem witness_host_read (any : Bool) :
    let s := askedBack.hostHoldsLine
    Sound s ∧ Calm s ∧ hostAccess s 0 none 0x50000 false = .ok 0x1400 0 0 ∧ LineClear s 0x1400 0 ∧ FiltRoom s 0x1400 0 ∧
      (any = true ∨ heldA s 0x1400 0 = true → ∀ n ∈ holders s 0x1400 0, n = 0) ∧
      ((extentAt s (64 * 0x1400)).map fun e => e.db) = some true := by
  cases any <;>
    exact ⟨sound_of (by decide +kernel), calm_of (by decide +kernel), by decide +kernel, line_clear (by decide +kernel),
      .inl (by decide +kernel), fun _ => by decide +kernel, by decide +kernel⟩

theorem witness_host_read_host_coherent :
    let s := { live with extents := [(0, { seats := [⟨0, true, true⟩], db := false, key := none, policy := 0, keyLost := false,
                                           granted := true })] }
    Sound s ∧ Calm s ∧ hostAccess s 0 none 0x50000 false = .ok 0x1400 0 0 ∧ LineClear s 0x1400 0 ∧ FiltRoom s 0x1400 0 ∧
      ((extentAt s (64 * 0x1400)).map fun e => e.db) = some false :=
  ⟨sound_of (by decide +kernel), calm_of (by decide +kernel), by decide +kernel, line_clear (by decide +kernel),
    .inr ⟨fun _ _ _ _ => rfl, by decide +kernel⟩, by decide +kernel⟩

theorem witness_host_write :
    hostAccess live 0 none 0x50000 true = .ok 0x1400 0 0 ∧ 0 ∈ homes live 0x1400 ∧ homes live 0x1400 = [0] ∧
      (∀ h ∈ homes live 0x1400, LineClear live 0x1400 h ∧ ∀ n ∈ holders live 0x1400 h, n = 0) ∧
      writeShort live 0x1400 false = false ∧ capBreached live 0 = false ∧ poisonedAt live 0x1400 0 = false ∧
      (live.coh.filt.Pairwise fun a b => a.1 < b.1) := by
  and_intros <;> first | decide +kernel | exact fun _ _ => ⟨line_clear (by decide +kernel), by
    rw [show holders live 0x1400 _ = [] from rfl]; simp⟩

theorem test_partial_write :
    devRead (after (.cxlMemPartialWrite ⟨0, none⟩ 0x50000 0xAABBCCDD 0b0110 false) (withBytes live 0x50000 0x11223344 4)) 0x50000 4 =
      0x11BBCC44 := by decide +kernel

theorem witness_clean_evict :
    hostAccess askedBack.hostHoldsLine 0 none 0x50000 false = .ok 0x1400 0 0 ∧ (askedBack.hostHoldsLine.coh.filt.Pairwise fun a b => a.1 < b.1) ∧
      (mget askedBack.hostHoldsLine.coh.filt (hkey 0x1400 0)).map (fun e => e.all) = some false := by decide +kernel

/-- One extent of block 1 for seat 0. -/
def extra : ExtentReq := { base := 1, seats := [(0, true)], db := true, key := none, policy := 0 }

theorem witness_add_capacity :
    Sound delegatedLive ∧ delegated delegatedLive = true ∧ [extra] ≠ [] ∧ addOk delegatedLive [extra] = true ∧
      addOk delegatedLive [{ extra with base := 2 ^ 15 - 1 }] = false ∧ grantedAt delegatedLive (2 ^ 15 - 1) = false ∧
      grantedAt delegatedLive 0 = true ∧ delegated live = false :=
  ⟨by constructor <;> decide +kernel, by decide +kernel⟩

/-- Block 1 has been added for seat 0, and is not yet accepted. -/
def offeredBlock : State := after (.addDynamicCapacity .sideband [extra]) delegatedLive

theorem witness_capacity_answer :
    seatOf offeredBlock 0 = some 0 ∧ (mget offeredBlock.extents 1).any (fun e => e.seats.any fun x => x.seat == 0 && !x.accepted) = true ∧
      heldLines offeredBlock 0 1 = [] ∧ (offeredBlock.extents.Pairwise fun a b => a.1 < b.1) ∧ delegated offeredBlock = true ∧
      (mget offeredBlock.extents 1).map (fun e => e.granted) = some false := by decide +kernel

theorem witness_extent_dropped : Sound live ∧ (live.extents.Pairwise fun a b => a.1 < b.1) ∧
    (mget live.extents 0).any (fun e => e.seats.any fun x => x.seat == 0) = true := ⟨sound_live, by decide +kernel⟩

theorem witness_page_cold :
    let s := withPage oldPage
    Sound s ∧ Calm s ∧ halted s 0 = false ∧ s.tally.therm < 3 ∧ tierEn s 0 = true ∧ (pageAtHub s 0x50 0).st = .plain ∧
      pagePolicy s 0x50 = some 0 ∧ (pageAtHub s 0x50 0).retryTb ≤ s.clock.tb :=
  ⟨sound_of (by decide +kernel), calm_of (by decide +kernel), by decide +kernel⟩

theorem witness_page_moves :
    (let s := withPage { oldPage with move := some .promote }
     halted s 0 = false ∧ s.tally.therm < 3 ∧ (pageAtHub s 0x50 0).move = some .promote ∧ pageAdmit s 0 false (switchCost s .promote) = false ∧
       (hotPages s 0).length < 32256 ∧
       (let s := { s with tally := { s.tally with slackMove := 10 ^ 9 } }
        pageAdmit s 0 false (switchCost s .promote) = true ∧ pageAdmit s 0 false (switchCost s .unpack) = true)) ∧
    (pageAtHub (withPage { oldPage with move := some .demote, hot := true }) 0x50 0).move = some .demote ∧
    (let s := withPage { oldPage with st := .packed 3, move := some .unpack }
     (pageAtHub s 0x50 0).move = some .unpack ∧ mediaShort s 0 (8 - 3) = false) := by decide +kernel

theorem witness_page_compression :
    let s := withPage { oldPage with move := some .compress }
    (pageAtHub s 0x50 0).st = .plain ∧ (pageAtHub s 0x50 0).move = some .compress ∧ halted s 0 = false ∧ s.tally.therm < 3 ∧
      3584 < (3585 : BitVec 13).toNat ∧ (3584 : BitVec 13).toNat ≤ 3584 := by decide +kernel

/-- R218: a page of 512 × 7 bytes takes seven size classes, one byte more does not compress. -/
theorem test_page_class :
    (let s := withPage { oldPage with move := some .compress }
     ((pageAtHub (after (.pageCompression 0 0x50 3584) s) 0x50 0).st, (pageAtHub (after (.pageCompression 0 0x50 3585) s) 0x50 0).st)) =
      (.packed 7, .plain) := by decide +kernel

theorem witness_held_write :
    let s := { live with mem := { live.mem with held := [[⟨some 0, 0x1400, 5, BitVec.allOnes 64, false⟩], []] } }
    wakeHub s 0 = s ∧ s.tally.therm < 3 ∧ s.mem.held.getD 0 [] ≠ [] ∧ ((flushAll (retryHub 0 1 s)).mem.held.getD 0 []).length < 1 ∧
      ¬ ((flushAll (retryHub 0 1 { s with mem := { s.mem with phys := [0, 0] } })).mem.held.getD 0 []).length < 1 := by decide +kernel

/-! Links, injections, repairs, seats and the mailbox -/

/-- No port's balls are held or in PERST. -/
def free : State := { live with pins := { live.pins with perst := List.replicate 6 true, heldPort := List.replicate 6 false } }

theorem witness_training :
    free.ports[1]? = some ⟨0, .up, List.replicate 4 linkReset⟩ ∧ portTrains free 1 = true ∧ 0 < (splitOf 0).1 ∧
      16 ≤ (splitOf 0).2 ∧ (link free 1 0).up = false ∧
      (∀ k, 1 ≤ k → k < 16 → (ld free (placeOf 1 0 k)).bound = false) := by decide +kernel

theorem test_training :
    (let s := after (.hostLinkTraining 1 0 5 16 true ⟨false, true, none⟩) free
     ((link s 1 0).up, (ld s (placeOf 1 0 0)).bound)) = (true, true) := by decide +kernel

theorem witness_link_down : (link live 0 0).up = true ∧ linkSeats live 0 0 = [0] ∧ mget live.coh.txns (hkey 0x1400 0) = none ∧
    mget live.coh.txns (hkey 0x1400 1) = none := by
  decide +kernel

theorem test_surprise_removal_poisons :
    (let s := after (.hostLinkDown 0 0) askedBack.hostHoldsLine
     (poisonedAt s 0x1400 0, mget s.coh.filt (hkey 0x1400 0))) = (true, none) := by decide +kernel

theorem witness_ide_key : wireUp secured 0 = true ∧ (ld secured 0).spdm.secure = true := by decide +kernel

/-- Port 1's link 0 leads to a switch. -/
def switched : State :=
  { delegatedLive with ports := delegatedLive.ports.set 1 ⟨0, .up, [{ upLink with sw := true }, linkReset, linkReset, linkReset]⟩ }

theorem witness_mld_binding :
    delegated switched = true ∧
    (let p := placeOf 1 0 3
     placeOk switched p = true ∧ (link switched (portOf p) (linkOf p)).up = true ∧ (link switched (portOf p) (linkOf p)).cxl = true ∧
       (link switched (portOf p) (linkOf p)).sw = true ∧ (ld switched p).bound = false ∧ portBound switched (portOf p) < 16 ∧
       switched.seats.length < 64) ∧
    (let s := after (.mldPortBind .sideband (placeOf 1 0 3)) switched
     delegated s = true ∧ (ld s (placeOf 1 0 3)).bound = true ∧ (∀ n, seatOf s (placeOf 1 0 3) = some n → grantedTo s n = false)) ∧
    (seatOf delegatedLive 0 = some 0 ∧ grantedTo delegatedLive 0 = true) := by decide +kernel

theorem witness_memory_enable :
    placeUp live 0 = true ∧ (link live (portOf 0) (linkOf 0)).cxl = true ∧ (ld live 0).bound = true ∧ (ld live 0).memEn = true := by
  decide +kernel

theorem witness_attach :
    let s := after (.hostLinkTraining 1 0 5 16 true ⟨false, true, none⟩) free
    let p := placeOf 1 0 0
    let s := modLd s p fun l => { l with memEn := true }
    started s = true ∧ (ld s p).bound = true ∧ (ld s p).memEn = true ∧ placeUp s p = true ∧
      (link s (portOf p) (linkOf p)).cxl = true ∧ (ld s p).seat = none ∧ mget s.seats 1 = none ∧ (∀ k < 1, mhas s.seats k = true) := by
  decide +kernel

theorem witness_event_logs : (ld live 0).logs.length = 4 := by decide +kernel

/-- INJ of a die with a kind, GO and a target. -/
def injecting (die kind target : Nat) : State :=
  armed (withReg (withReg steward (injPage die + 0x40) (BitVec.ofNat 16 target)) (injPage die + 0x44) (BitVec.ofNat 16 (target / 65536)))
    (injPage die + 0x800) (BitVec.ofNat 32 (0xFFFF0000 + 16 * kind + 1))

theorem witness_injection :
    TakesEffect (injecting 2 1 5) 0 (injPage 2 + 0x800) (compl 0xFFFF0011) 0xFFFF0011 ∧
      (maskedWrite (0xFFFF0011 : Word32) 0xFFFF (reg (injecting 2 1 5) (injPage 2 + 0x800))).getLsbD 0 = true :=
  ⟨takes_effect (by decide +kernel), by decide +kernel⟩

theorem witness_injected_rows :
    live.fronds.length = 6 ∧ (5 % 4194304 + 1 ≤ 4194304) ∧ (5 % 4194304) / 8192 + 1 ≤ 512 ∧
      injKind 0 = none ∧ (shadowDie live 0 (posOf 2 5)).any (fun d => decide (2 ≤ d) && decide (d - 2 < live.fronds.length)) = true := by
  decide +kernel

theorem witness_injected_line :
    (sramCopy (agentHolds .m) 3 0x1400).any (fun x => x.2.2) = true ∧ (sramCopy (agentHolds .e) 3 0x1400).any (fun x => !x.2.2) = true ∧
      sramCopy live 3 0x1400 = none ∧ mhas (agentHolds .m).coh.dir (hkey 0x1400 0) = true ∧
      mget live.coh.dir (hkey 0x1400 0) = none ∧ 0 ∈ homes live 0x1400 ∧ 1 ∉ homes live 0x1400 ∧
      (live.coh.damage.Pairwise fun a b => a.1 < b.1) ∧ ((agentHolds .m).coh.damage.Pairwise fun a b => a.1 < b.1) := by decide +kernel

/-- R280, R292: a bit injected into a row's data is seen by the row's check and starts a repair. -/
theorem test_injected_row_is_repaired :
    (let s := withRow { steward with tables := [(0, plainTab)] } 2 5 0x1234 allCare true 0xAA
     let s := inject s 2 1 0 3 1 5
     underRepair (checkRow s 2 5) 2 5) = true := by decide +kernel

theorem witness_scrub_slot :
    (frondServes live 2 = true ∧ awake live 2 = true ∧ (frond live 2).arr.scrubReq = [] ∧ (frond live 2).scrubPos % 8 = 0 ∧
      (frond live 2).arr.tagBad = []) ∧
      (∀ pan, logicalPan live 2 ((frond live 2).scrubPos / 8192) = some pan → ∀ i < 8,
        let r := rowIndex pan ((frond live 2).scrubPos % 8192 + i)
        rowGood 2 r (rowAt live 2 r) = true ∧ nearGood 2 r (rowAt live 2 r) = true ∧ (rowAt live 2 r).ppar = true ∧
          (rowAt live 2 r).prio = prioOf (rowAt live 2 r).near ∧ validSplit live 2 r = false) := by
  refine ⟨by decide +kernel, fun pan h => ?_⟩
  rw [show logicalPan live 2 ((frond live 2).scrubPos / 8192) = some 0 from by decide +kernel] at h
  cases h
  decide +kernel

theorem witness_row_found_bad :
    let s := inject (withRow { steward with tables := [(0, plainTab)] } 2 5 0x1234 allCare true 0xAA) 2 1 0 3 1 5
    rowGood 2 5 (rowAt s 2 5) = false ∧ underRepair s 2 (firstRow s 2 5) = false ∧
      0 < rowsAt s 2 5 := by decide +kernel

/-- The harvest of both hubs holds a dump. -/
def holding : State :=
  { live with harvest := live.harvest.map fun x => { x with held := true } }

theorem witness_patrol :
    hubServes live 0 = true ∧ started live = true ∧ live.tally.therm < 3 ∧ 0 ∈ homes live 0x1400 ∧ mediaStale (withPage oldPage) 0x1400 0 = false ∧
      mediaError live 0x1400 0 = 0 ∧ patrolDue live 0 = true ∧ patrolDue { live with mem := { live.mem with patrol := [(10 ^ 18, 0), (0, 0)] } } 0 = false ∧
      recordGood (shadowAt (withRow live 2 5 0x1234 allCare true 0xAA) 2 (lineMate 5)) = true ∧ inPair live = false ∧ present live 2 = true ∧ halfOf 2 = 0 ∧
      0 < holding.harvest.length ∧ (harvestOf holding 0).held = true ∧
      arrayGood (withRow live 2 5 0x1234 allCare true 0xAA) 2 5 = true := by decide +kernel

/-- REPAIR of frond 2 with an operation on pan 1. -/
def repairing (op : Nat) (sweep : Bool) : State :=
  armed (withRow { steward with tables := [(0, plainTab)] } 2 5 0x1234 allCare true 0xAA) (diePage 2 0x22 + 0x800)
    (BitVec.ofNat 32 (0xC3FF0000 + 16384 * op + (if sweep then 512 else 0)))

/-- The guarded write of `repairing`. -/
def repairWord (op : Nat) (sweep : Bool) : Word32 := BitVec.ofNat 32 (0xC3FF0000 + 16384 * op + (if sweep then 512 else 0))

theorem witness_repair (op : Nat) (h : op = 1 ∨ op = 2 ∨ op = 3) (sweep : Bool) :
    TakesEffect (repairing op sweep) 0 (diePage 2 0x22 + 0x800) (compl (repairWord op sweep)) (repairWord op sweep) ∧
      (frond (repairing op sweep) 2).panOp = none ∧ (spareOf (repairing op sweep) 2 0).isSome = true ∧
      bits (maskedWrite (repairWord op sweep) 0xC3FF (reg (repairing op sweep) (diePage 2 0x22 + 0x800))) 15 14 = op ∧
      validEntries (repairing op sweep) 2 0 (rowsAt (repairing op sweep) 2 0) = [5] ∧
      ((frond (repairing op sweep) 2).arr.shadow.all fun e => recordGood e.2) = true := by
  obtain rfl | rfl | rfl := h <;> cases sweep <;>
    exact ⟨takes_effect (by decide +kernel), by decide +kernel⟩

theorem witness_no_spare :
    spareOf (modArr live 2 fun a => { a with spares := [] }) 2 0 = none := by decide +kernel

theorem witness_pan_operation (op : Nat) (h : op = 1 ∨ op = 2) (switched : Bool) :
    let o : PanOp := { op := op, pan := 0, old := 0, spare := 512, switched := switched }
    let s := modFrond live 2 fun f => { f with panOp := some o }
    (frond s 2).panOp = some o ∧ halted s (halfOf 2) = false ∧ GoodRecords s 2 := by
  obtain rfl | rfl := h <;> cases switched <;>
    exact ⟨by decide +kernel, by decide +kernel, good_records (by decide +kernel)⟩

/-- The block whose hubs have their DIMMs. -/
def fitted (s : State) : State := { s with mem := { s.mem with pop := [some ⟨6, 32, 1, 1, true⟩, none] } }

theorem witness_row_retirement :
    (let s := fitted (armed steward (diePage 0 0x14 + 0x800) 0xFFFF0001)
     TakesEffect s 0 (diePage 0 0x14 + 0x800) (compl 0xFFFF0001) 0xFFFF0001 ∧
       (maskedWrite (0xFFFF0001 : Word32) 1 (reg s (diePage 0 0x14 + 0x800))).getLsbD 0 = true ∧ 0 < s.mem.retiring.length ∧
       s.mem.retiring.getD 0 none = none ∧ rowInstalled s 0 0 = true ∧ (s.store.retired.getD 0 []).length < 1024) ∧
    rowInstalled live 0 (BitVec.ofNat 48 (2 ^ 48 - 1)) = false ∧
    (let s := { live with mem := { live.mem with retiring := [some 0, none] } }
     s.mem.retiring.getD 0 none = some 0 ∧ halted s 0 = false ∧ 0 < s.mem.phys.length ∧ 0 < s.store.retired.length ∧
       ∀ x ∈ s.store.retired.getD 0 [], x.1 ≠ 0) :=
  ⟨⟨takes_effect (by decide +kernel), by decide +kernel⟩, by decide +kernel, by decide +kernel⟩

theorem witness_row_list_full :
    let s := fitted { live with store := { live.store with retired := [List.replicate 1024 (7, 1), []] } }
    rowInstalled s 0 0 = true ∧ 1024 ≤ (s.store.retired.getD 0 []).length := by decide +kernel

/-! The mailbox -/

/-- RFC 3394, section 4.6: 256 bits wrapped under a 256-bit key. -/
theorem test_key_unwrap : keyUnwrap (List.range 32)
      (bytesBE 40 0x28C9F404C4B810F4CBCCB35CFB87F8263F5786E2D80ED326CBC7F0E71A99F43BFB988B9B7A02DD21) =
    some ((List.range 16).map (17 * ·) ++ List.range 16) := by decide +kernel

/-- A number's bytes, as a body. -/
def body4 (v : Nat) : List Nat := bytesOf 4 v

theorem witness_refused_request :
    let s := request steward 0x03 []
    (.sessClose 0, 0x03) ∈ mailRows 0 (.bind 0) ∧ mailCheck s 0 0x03 (mailReq s 0) = some mZeroLength ∧ (mhas s.seats 0 = true ∧ mailBusy s 0 = true ∧
      mailBufOk s 0 = true ∧ mailCut s 0 = false ∧ (s.rings.any fun e => e.2.revoke == some 0) = false ∧
      (needRegion s (mailBuf s 0) 256 true).isNone = true ∧ (needRegion s (mailBuf s 0 + 256) 256 false).isNone = true ∧
      regionPoison s (mailBuf s 0) 256 = false) ∧ byteField (mailReq s 0) 0 2 = 0x03 ∧ Calm s := by
  refine ⟨?_, by decide +kernel, by decide +kernel, by decide +kernel, calm_of (by decide +kernel)⟩
  simp [mailRows]

theorem witness_response : Sound live ∧ Calm live ∧ MediaFor live (mailBuf live 0 + 256) 256 ∧ mailBufOk live 0 = true ∧
    (∀ k, k < 256 → keyAbsent live (mailBuf live 0 + 256 + k) = false) :=
  ⟨sound_live, calm_live, media_for (by decide +kernel), by decide +kernel⟩

theorem witness_challenge :
    MailReady (request live 0x01 (body4 1)) 0 0x01 (body4 1) ∧ lockedOut (request live 0x01 (body4 1)) 0 = false ∧
      mhas (request live 0x01 (body4 1)).seats 0 = true :=
  ⟨mail_ready (by decide +kernel), by decide +kernel⟩

/-- Place 0's secret is 5, and seat 0 holds a challenge of nonce 3. -/
def challenged : State :=
  { live with seats := [(0, { seatNew 0 with g := 10 ^ 9, nonce := some (3, nowNs live) })],
              store := { live.store with secrets := [(0, ⟨5, 0, true⟩)] } }

/-- The nonce of the host. -/
def hostNonce : List Nat := List.range 32

/-- The host's proof over both nonces, the seat and its place. -/
def proof : List Nat := hmac (key32 5) (label "LLNO" ++ key32 3 ++ hostNonce ++ [0] ++ bytesOf 2 0)

theorem witness_session_open :
    let s := request challenged 0x02 (hostNonce ++ proof)
    MailReady s 0 0x02 (hostNonce ++ proof) ∧ secretSlot s 0 = some (0, ⟨5, 0, true⟩) ∧
      (mget s.seats 0).map (fun x => x.nonce) = some (some (3, nowNs s)) ∧
      hmac (key32 5) (label "LLNO" ++ (key32 3 ++ (hostNonce ++ proof).take 32) ++ [0] ++ bytesOf 2 0) = (hostNonce ++ proof).drop 32 ∧
      hmac (key32 5) (label "LLNO" ++ (key32 3 ++ (hostNonce ++ List.replicate 32 0).take 32) ++ [0] ++ bytesOf 2 0) ≠
        (hostNonce ++ List.replicate 32 0).drop 32 :=
  ⟨mail_ready (by decide +kernel), by decide +kernel⟩

theorem witness_refused_proof :
    let s := request challenged 0x02 (hostNonce ++ List.replicate 32 0)
    MailReady s 0 0x02 (hostNonce ++ List.replicate 32 0) ∧
      (let l := ((mget s.steward.fails 0).getD []).filter fun t => nowNs s < t + 1000000000
       l.length < 7) ∧
      (let s := { s with steward := { s.steward with fails := [(0, List.replicate 7 (nowNs s))] } }
       7 ≤ (((mget s.steward.fails 0).getD []).filter fun t => nowNs s < t + 1000000000).length) :=
  ⟨mail_ready (by decide +kernel), by decide +kernel⟩

theorem witness_session_close :
    MailReady (request steward 0x03 (body4 1)) 0 0x03 (body4 1) ∧ byteField (body4 1) 0 4 = 1 ∧ lockedOut steward 0 = false ∧
      ((mget steward.seats 0).bind fun x => x.session).isSome = true ∧ steward.steward.holder = some 0 :=
  ⟨mail_ready (by decide +kernel), by decide +kernel⟩

/-- Slot 4 for place 0x2000; its secret is wrapped by the session's KW as in `test_key_unwrap`. -/
def secretBody : List Nat :=
  [4, 1, 0, 0x20] ++ bytesBE 40 0x28C9F404C4B810F4CBCCB35CFB87F8263F5786E2D80ED326CBC7F0E71A99F43BFB988B9B7A02DD21 ++ body4 0

theorem unwrap_steward {code : Nat} {body c : List Nat} : unwrap (request steward code body) 0 c = keyUnwrap (List.range 32) c := by
  show keyUnwrap (key32 0x1F1E1D1C1B1A191817161514131211100F0E0D0C0B0A09080706050403020100) c = _
  rw [show key32 0x1F1E1D1C1B1A191817161514131211100F0E0D0C0B0A09080706050403020100 = List.range 32 from by decide +kernel]

theorem witness_secret_set :
    let s := request steward 0x10 secretBody
    MailReady s 0 0x10 secretBody ∧ placeOk s 0x2000 = true ∧ byteField secretBody 0 1 ≤ 63 ∧ byteField secretBody 1 1 ≤ 1 ∧
      byteField secretBody 44 4 = 0 ∧ (∀ e ∈ s.store.secrets, e.1 ≠ 4 → e.2.place ≠ 0x2000) ∧
      unwrap s 0 ((secretBody.drop 4).take 40) = some ((List.range 16).map (17 * ·) ++ List.range 16) := by
  refine ⟨mail_ready (by decide +kernel), by decide +kernel, by decide +kernel, by decide +kernel, by decide +kernel,
    by decide +kernel, ?_⟩
  rw [unwrap_steward]
  exact test_key_unwrap

theorem witness_secret_clear (slot : Nat) (h : slot = 0 ∨ slot = 4) :
    let v : Word32 := BitVec.ofNat 32 (0x003F0000 + slot)
    let s := armed { steward with store := { steward.store with secrets := [(0, ⟨5, 0, true⟩), (4, ⟨6, 0x2000, false⟩)] } }
      (globalPage 3 + 0x800) v
    TakesEffect s 0 (globalPage 3 + 0x800) (compl v) v ∧ (s.store.secrets.Pairwise fun a b => a.1 < b.1) ∧
      bits (maskedWrite v 0x3F (reg s (globalPage 3 + 0x800))) 5 0 = slot ∧
      (∀ e ∈ s.store.secrets, e.1 ≠ 0 → e.2.steward = false) := by
  obtain rfl | rfl := h <;> exact ⟨takes_effect (by decide +kernel), by decide +kernel⟩

theorem witness_steward_claim :
    let s := { secured with steward := { secured.steward with holder := none } }
    placeUp s 0 = true ∧ (ld s 0).spdm.secure = true ∧ started s = true ∧ seatOf s 0 = some 0 ∧ mhas s.store.secrets 0 = false ∧
      secretSlot s 0 = none ∧ s.steward.holder = none ∧ detaching s 0 = false ∧ mhas s.extents 0x7FFF = false ∧
      s.extents.length + 1 ≤ s.mem.blocks ∧ 16 * (65536 * (s.extents.length + 1)) ≤ capRatio s * capP s := by decide +kernel

/-- Seat 0 may be steward; seat 1 holds the role without a session, or nobody does. -/
def claimable (held : Bool) : State :=
  { steward with store := { steward.store with secrets := [(0, ⟨5, 0, true⟩)] },
                 seats := steward.seats ++ [(1, seatNew 0x2000)],
                 steward := { steward.steward with holder := if held then some 1 else none, idleFrom := 0 } }

theorem witness_steward_take :
    (MailReady (request (claimable false) 0x18 (body4 0xFF)) 0 0x18 (body4 0xFF) ∧
      eligible (request (claimable false) 0x18 (body4 0xFF)) 0 = true ∧ byteField (body4 0xFF) 0 1 = 0xFF) ∧
    (let s := { request (claimable true) 0x18 (body4 1) with clock := { (claimable true).clock with tb := 10 ^ 12 } }
     MailReady s 0 0x18 (body4 1) ∧ eligible s 0 = true ∧ s.steward.holder = some 1 ∧
       ((mget s.seats 1).bind fun x => x.session).isNone = true ∧
       s.steward.idleFrom + (reg s (globalPage 3 + 0x44)).toNat * 1000000000 ≤ nowNs s) :=
  ⟨⟨mail_ready (by decide +kernel), by decide +kernel⟩, mail_ready (by decide +kernel), by decide +kernel⟩

theorem witness_steward_handover :
    let s := request twoSeats 0x19 (body4 1)
    MailReady s 0 0x19 (body4 1) ∧ mhas s.seats 1 = true ∧ eligible s 1 = true ∧ detaching s 1 = false :=
  ⟨mail_ready (by decide +kernel), by decide +kernel⟩

/-- GRANT or REVOKE to seat 1: kind, object and right. -/
def grantBody (kind obj right : Nat) : List Nat := [1, kind] ++ bytesOf 2 obj ++ [right, 0, 0, 0]

theorem witness_grant :
    (let s := request twoSeats 0x20 (grantBody 1 0 3)
     MailReady s 0 0x20 (grantBody 1 0 3) ∧ grantCheck s (grantBody 1 0 3) false = none ∧ (tableIn s 0).isSome = true) ∧
    (let s := request twoSeats 0x20 (grantBody 2 9 0)
     MailReady s 0 0x20 (grantBody 2 9 0) ∧ grantCheck s (grantBody 2 9 0) false = none ∧
       ((mget s.rings 9).bind fun r => r.holder) = none ∧ (seatRings s 1).length < 16 ∧
       ∀ r ∈ seatRings s 1, ((mget s.rings r).map fun x => x.index) ≠ some 0) :=
  ⟨⟨mail_ready (by decide +kernel), by decide +kernel⟩, mail_ready (by decide +kernel), by decide +kernel⟩

theorem witness_revoke :
    (let s := request { twoSeats with tables := [(0, { tab with rights := [(0, (true, true)), (1, (true, true))] })] } 0x21 (grantBody 1 0 1)
     MailReady s 0 0x21 (grantBody 1 0 1) ∧ grantCheck s (grantBody 1 0 1) true = none ∧
       (mget s.tables 0).any (fun x => decide (mget x.rights 1 = some (true, true) ∧ x.rights.Pairwise fun a b => a.1 < b.1)) = true) ∧
    (let s := request (ringOfOne []) 0x21 (grantBody 2 0 0)
     MailReady s 0 0x21 (grantBody 2 0 0) ∧ grantCheck s (grantBody 2 0 0) true = none ∧
       ((mget s.rings 0).bind fun r => r.holder) ≠ some 1) :=
  ⟨⟨mail_ready (by decide +kernel), by decide +kernel⟩, mail_ready (by decide +kernel), by decide +kernel⟩

theorem witness_revoke_ring :
    (let s := request (withReg (ringOfOne []) (ringPage 9 + 8) 1) 0x21 (grantBody 2 9 0)
     MailReady s 0 0x21 (grantBody 2 9 0) ∧ grantCheck s (grantBody 2 9 0) true = none ∧ ringEn s 9 = true ∧
       (mget s.rings 9).any (fun r => r.holder == some 1) = true) ∧
    (let s := request (ringOfOne []) 0x21 (grantBody 2 9 0)
     MailReady s 0 0x21 (grantBody 2 9 0) ∧ grantCheck s (grantBody 2 9 0) true = none ∧ ringEn s 9 = false ∧
       (mget s.rings 9).any (fun r => r.holder == some 1 && !r.closing && r.subs.isEmpty && r.owed.isEmpty) = true) ∧
    (let s := request (ringOfOne [sub 0x21 []]) 0x21 (grantBody 2 9 0)
     MailReady s 0 0x21 (grantBody 2 9 0) ∧ grantCheck s (grantBody 2 9 0) true = none ∧ ringEn s 9 = false ∧
       (mget s.rings 9).any (fun r => r.holder == some 1 && !r.subs.isEmpty) = true) :=
  ⟨⟨mail_ready (by decide +kernel), by decide +kernel⟩, ⟨mail_ready (by decide +kernel), by decide +kernel⟩,
    mail_ready (by decide +kernel), by decide +kernel⟩

/-- TABLE_OWNER of table 0: the owner and its counter region. -/
def ownerBody : List Nat := [0, 0, 0, 1] ++ bytesOf 8 0x1000000 ++ bytesOf 8 0 ++ body4 0

theorem witness_table_owner :
    let s := request steward 0x48 ownerBody
    MailReady s 0 0x48 ownerBody ∧ tableIn s 0 = some tab ∧ tab.cnt = true ∧ byteField ownerBody 3 1 ≤ 3 ∧
      byteField ownerBody 20 4 = 0 ∧ mhas s.seats 0 = true ∧ regionsOk s tab 0 true false = true ∧
      byteField ownerBody 4 8 % 2 ^ 43 = tab.cbase :=
  ⟨mail_ready (by decide +kernel), by decide +kernel⟩

/-- The nine blocks of an unwrap in progress, from 72 bytes. -/
def blocks (v : Nat) : List Nat × List (List Nat) :=
  let b := bytesBE 72 v
  (b.take 8, (List.range 8).map fun i => (b.drop (8 * (i + 1))).take 8)

/-- Twelve of the 48 steps of an unwrap under KW, from step k. -/
def twelve (k : Nat) (v : List Nat × List (List Nat)) : List Nat × List (List Nat) :=
  ((List.range 12).map (k + ·)).foldl (fun st i => unwrapStep (List.range 32) st (48 - i)) v

theorem unwrap_in_parts {v : Nat} {l : List (List Nat)} (hn : (bytesBE 72 v).length / 8 - 1 = 8)
    (h : twelve 36 (twelve 24 (twelve 12 (twelve 0 (blocks v)))) = (List.replicate 8 0xA6, l)) :
    keyUnwrap (List.range 32) (bytesBE 72 v) = some l.flatten := by
  unfold keyUnwrap
  simp only [hn]
  rw [show List.range (6 * 8) = (List.range 12).map (0 + ·) ++ (List.range 12).map (12 + ·) ++ (List.range 12).map (24 + ·) ++
    (List.range 12).map (36 + ·) from by decide, List.foldl_append, List.foldl_append, List.foldl_append]
  simp only [twelve, blocks] at h
  simp only [h, if_true]

theorem unwrap_part0 : twelve 0
      (blocks 0xfd60da85910562b7128c68e8ef7d0d9c52181542a03c58d6f16a00e9f4bef9ed195ee89e3b724a701fcd74c1ce288cf8231e94a70f0b5b21de12f6d18a4b28522a19529842b7deeb) =
    blocks 0x276de89e71141507b01102617eaaeef5383bbad31de66ac56d2fb375dc3557edff0734b9b6adc9585c10a387745db59982c5be4ad6990ce592ba053d6b0289512791e1f30bcae0e9 := by
  decide +kernel

theorem unwrap_part1 : twelve 12
      (blocks 0x276de89e71141507b01102617eaaeef5383bbad31de66ac56d2fb375dc3557edff0734b9b6adc9585c10a387745db59982c5be4ad6990ce592ba053d6b0289512791e1f30bcae0e9) =
    blocks 0xc09d38fe50f3097918801ef93878cf8ce35d85c15d955f41f1a5a9d3c23949090b6902732599d1ecab2de7db782cc007c228f325ab0b27768d81c58626ef0342de4d8112535e58f9 := by
  decide +kernel

theorem unwrap_part2 : twelve 24
      (blocks 0xc09d38fe50f3097918801ef93878cf8ce35d85c15d955f41f1a5a9d3c23949090b6902732599d1ecab2de7db782cc007c228f325ab0b27768d81c58626ef0342de4d8112535e58f9) =
    blocks 0x9dc63d2b316a521459178d4838fce261b112d3c30dfc36ea903041d901c9691e654ccf3ad8095878424f3b40712bef5164d7e2bdfcda9f6fead0881e8fed3c37f2eb0627a0e3513f := by
  decide +kernel

theorem unwrap_part3 : twelve 36
      (blocks 0x9dc63d2b316a521459178d4838fce261b112d3c30dfc36ea903041d901c9691e654ccf3ad8095878424f3b40712bef5164d7e2bdfcda9f6fead0881e8fed3c37f2eb0627a0e3513f) =
    blocks 0xa6a6a6a6a6a6a6a6000102030405060708090a0b0c0d0e0f101112131415161718191a1b1c1d1e1f202122232425262728292a2b2c2d2e2f303132333435363738393a3b3c3d3e3f := by
  decide +kernel

/-- Slot 3 for seat 0, its 64 key bytes 0 to 63 wrapped by KW. -/
def keyBody : List Nat :=
  [3, 0, 0, 0] ++ bytesBE 72 0xfd60da85910562b7128c68e8ef7d0d9c52181542a03c58d6f16a00e9f4bef9ed195ee89e3b724a701fcd74c1ce288cf8231e94a70f0b5b21de12f6d18a4b28522a19529842b7deeb ++
    body4 0

theorem witness_key_load :
    let s := request steward 0x38 keyBody
    MailReady s 0 0x38 keyBody ∧ byteField keyBody 0 2 ≤ 127 ∧ byteField keyBody 2 2 ≤ 63 ∧ byteField keyBody 76 4 = 0 ∧
      mhas s.seats (byteField keyBody 2 2) = true ∧ (List.range 64).take 32 ≠ (List.range 64).drop 32 ∧
      slotBound s (byteField keyBody 0 2) = false ∧
      unwrap s 0 ((keyBody.drop 4).take 72) = some (List.range 64) := by
  suffices u : unwrap (request steward 0x38 keyBody) 0 ((keyBody.drop 4).take 72) = some (List.range 64) by
    refine ⟨mail_ready (by decide +kernel), ?_, ?_, ?_, ?_, ?_, ?_, u⟩ <;> decide +kernel
  rw [unwrap_steward]
  refine (unwrap_in_parts (l := (blocks (ofBytesBE (List.replicate 8 0xA6 ++ List.range 64))).2) (by decide +kernel) ?_).trans
    (by decide +kernel)
  rw [unwrap_part0, unwrap_part1, unwrap_part2, unwrap_part3]
  decide +kernel

theorem witness_fm_tunnel : MailReady (request steward 0x40 (List.replicate 8 0)) 0 0x40 (List.replicate 8 0) :=
  mail_ready (by decide +kernel)

theorem witness_keys_zero :
    let s := armed { steward with keys := [(3, ⟨9, some 0⟩)] } (globalPage 6 + 0x800)
    (TakesEffect (s 0x80FF0083) 0 (globalPage 6 + 0x800) (compl 0x80FF0083) 0x80FF0083 ∧
      ((s 0x80FF0083).keys.Pairwise fun a b => a.1 < b.1) ∧
      (maskedWrite (0x80FF0083 : Word32) 0x80FF (reg (s 0x80FF0083) (globalPage 6 + 0x800))).getLsbD 7 = true) ∧
    (TakesEffect (s 0x80FF8000) 0 (globalPage 6 + 0x800) (compl 0x80FF8000) 0x80FF8000 ∧
      (maskedWrite (0x80FF8000 : Word32) 0x80FF (reg (s 0x80FF8000) (globalPage 6 + 0x800))).getLsbD 15 = true) :=
  ⟨⟨takes_effect (by decide +kernel), by decide +kernel⟩, takes_effect (by decide +kernel), by decide +kernel⟩

theorem witness_seat_detach :
    let s := request twoSeats 0x28 (body4 1)
    MailReady s 0 0x28 (body4 1) ∧ mhas s.seats 1 = true := ⟨mail_ready (by decide +kernel), by decide +kernel⟩

theorem witness_detaching (d : DetachStep) :
    let x := { seatNew 0 with g := 10 ^ 9, detach := d }
    let s := { live with seats := [(0, x)], regs := { live.regs with file := live.regs.file.filter fun e => e.1 != mailStat 0 } }
    (mget s.seats 0).map (fun x => (x.detach, x.surprise)) = some (d, false) ∧ mailBusy s 0 = false ∧ placeUp live 0 = true ∧ placeUp { live with ports := [] } 0 = false ∧
      (s.searches.all fun e => e.2.seat != 0) = true ∧
      (∀ r ∈ seatRings s 0, (mget s.rings r).any (fun q => q.subs.isEmpty && q.owed.isEmpty && q.sqTail == q.sqHead && q.stopped.isNone) = true) := by
  cases d <;> decide +kernel

theorem witness_detach_finish :
    let x := { seatNew 0 with g := 10 ^ 9, detach := .snooping }
    let s := { live with seats := [(0, x)], steward := { live.steward with holder := none } }
    (s.rings.any fun e => e.2.revoke == some 0) = false ∧
      (∀ r ∈ seatRings s 0, (mget s.rings r).any (fun q => q.owed.isEmpty && q.sqTail == q.sqHead && q.subs.isEmpty) = true) ∧ seatClean s 0 = true ∧ (s.seats.Pairwise fun a b => a.1 < b.1) ∧
      (s.rings.Pairwise fun a b => a.1 < b.1) ∧ (s.extents.Pairwise fun a b => a.1 < b.1) ∧
      (s.covs.Pairwise fun a b => a.1 < b.1) ∧ s.steward.holder ≠ some 0 := by decide +kernel

/-- COVENANT_SET: identity, kind, seat 0, priority, object and amount. -/
def covBody (id kind prio object amount : Nat) : List Nat :=
  [id, kind, 0, prio] ++ bytesOf 2 object ++ bytesOf 2 0 ++ body4 amount

theorem witness_covenant_priority :
    let s := request steward 0x30 (covBody 192 1 9 0 0)
    MailReady s 0 0x30 (covBody 192 1 9 0 0) ∧ covFields s 192 (covOf (covBody 192 1 9 0 0)) 0 = none ∧
      (covOf (covBody 192 1 9 0 0)).kind = 1 := ⟨mail_ready (by decide +kernel), by decide +kernel⟩

/-- Covenant 4: 100 entries of table 0, kept or in breach. -/
def covenanted (breach : Bool) : State :=
  { steward with covs := [(4, { covOf (covBody 4 2 3 0 100) with breach := breach, okFrom := some 0 })] }

theorem witness_covenant_same :
    let s := request (covenanted false) 0x30 (covBody 4 2 9 0 100)
    let c := covOf (covBody 4 2 9 0 100)
    MailReady s 0 0x30 (covBody 4 2 9 0 100) ∧ covFields s 4 c 0 = none ∧
      (mget s.covs 4).any (fun o => decide ((o.kind, o.seat, o.object, o.amount) = (c.kind, c.seat, c.object, c.amount))) = true ∧
      (s.covs.Pairwise fun a b => a.1 < b.1) := ⟨mail_ready (by decide +kernel), by decide +kernel⟩

/-- A new covenant passes up to the checks against the table. -/
def newCov (s : State) (table amount : Nat) : Prop :=
  let b := covBody 7 2 9 table amount
  MailReady (request s 0x30 b) 0 0x30 b ∧ covFields (request s 0x30 b) 7 (covOf b) 0 = none ∧ mget s.covs 7 = none

theorem witness_covenant_new :
    (newCov steward 5 100 ∧ tableIn steward 5 = none) ∧
    (newCov (covenanted true) 0 100 ∧ drawsBreach (covenanted true) 7 (covOf (covBody 7 2 9 0 100)) = true) ∧
    (newCov steward 0 0xFFFFFFFF ∧ (let c := covOf (covBody 7 2 9 0 0xFFFFFFFF)
      drawsBreach steward 7 c = false ∧ covAdmits { steward with covs := mput steward.covs 7 c } c = false)) ∧
    (newCov steward 0 100 ∧ (let c := covOf (covBody 7 2 9 0 100)
      drawsBreach steward 7 c = false ∧ covAdmits { steward with covs := mput steward.covs 7 c } c = true)) :=
  ⟨⟨⟨mail_ready (by decide +kernel), by decide +kernel⟩, by decide +kernel⟩,
    ⟨⟨mail_ready (by decide +kernel), by decide +kernel⟩, by decide +kernel⟩,
    ⟨⟨mail_ready (by decide +kernel), by decide +kernel⟩, by decide +kernel⟩,
    ⟨⟨mail_ready (by decide +kernel), by decide +kernel⟩, by decide +kernel⟩⟩

theorem witness_covenant_clear :
    MailReady (request (covenanted false) 0x31 (body4 4)) 0 0x31 (body4 4) ∧
    (let s := request { steward with covs := [(192, capCov 0)] } 0x31 (body4 192)
     MailReady s 0 0x31 (body4 192) ∧ mhas s.covs 192 = true) ∧
    MailReady (request steward 0x31 (body4 256)) 0 0x31 (body4 256) :=
  ⟨mail_ready (by decide +kernel), ⟨mail_ready (by decide +kernel), by decide +kernel⟩, mail_ready (by decide +kernel)⟩

theorem witness_covenant_query :
    (let s := request (covenanted false) 0x32 (body4 4)
     MailReady s 0 0x32 (body4 4) ∧ (mget s.covs 4).any (fun c => c.kind != 1) = true ∧ s.steward.holder = some 0) ∧
    (let s := request { covenanted false with covs := [(4, { covOf (covBody 4 2 3 0 100) with seat := 1 })],
                                              steward := { steward.steward with holder := none } } 0x32 (body4 4)
     MailReady s 0 0x32 (body4 4) ∧ (mget s.covs 4).any (fun c => c.seat != 0) = true ∧ s.steward.holder ≠ some 0) :=
  ⟨⟨mail_ready (by decide +kernel), by decide +kernel⟩, mail_ready (by decide +kernel), by decide +kernel⟩

theorem witness_breach_end :
    (mget (covenanted true).covs 4).any (fun c => c.breach && c.okFrom.isSome) = true := by decide +kernel

/-! Tally, power, clocks and registers -/

theorem witness_epoch : started live = true ∧ 0 ∈ hubs live ∧ 0 < live.tally.hubLevel.length ∧ halted live 0 = false ∧
    live.tally.want.getD 6 0 ≠ 1 ∧ live.tally.hubTo.getD 0 none = none ∧ ((hubs live).any fun h => !halted live h) = true ∧ started State.reset = false := by
  decide +kernel

theorem test_epoch_derates :
    (let s := after (.tallyEpoch { calm with tj := List.replicate 8 440 }) live
     (s.tally.tj.toInt, s.tally.derate, s.tally.derateNext)) = (440, 0, 30000) := by decide +kernel

/-- A commit of a new envelope is pending. -/
def enveloping : State :=
  { live with regs := { live.regs with
      staged := mput live.regs.staged (globalPage 1 + 0x40) 100, commit := mput live.regs.commit (globalPage 1) 1 } }

theorem witness_envelope :
    committing live (globalPage 1) = false ∧ committing enveloping (globalPage 1) = true ∧
      (enveloping.regs.commit.Pairwise fun a b => a.1 < b.1) ∧ (enveloping.regs.staged.Pairwise fun a b => a.1 < b.1) ∧
      (stagedReg enveloping (globalPage 1 + 0x40)).toNat = 100 := by decide +kernel

/-- R338: the epoch that begins at the boundary after the commit uses the new envelope, 100 W for 100 µs. -/
theorem test_envelope_at_the_epoch :
    (let s := after (.tallyEpoch calm) enveloping
     (s.tally.b, committing s (globalPage 1))) = (10000000000, false) := by decide +kernel

theorem witness_lending :
    (tallyCtl live).getLsbD 2 = true ∧ live.tally.lent = false ∧
      started live = true ∧ ((hubs live).any fun h => !halted live h) = true ∧
      (let s := withReg live (globalPage 1 + 8) 0
       (tallyCtl s).getLsbD 2 = false ∧ started s = true ∧ ((hubs s).any fun h => !halted s h) = true) := by decide +kernel

theorem witness_recalibration :
    (let s := { live with tally := { live.tally with booked := [(6, (500, 100))] } }
     started s = true ∧ ((hubs s).any fun h => !halted s h) = true ∧ (s.tally.booked.Pairwise fun a b => a.1 < b.1) ∧ (tallyCtl s).getLsbD 1 = false ∧
       (costSel false 1 0 ∈ allSels ∧ 6 ∈ entryRails (costSel false 1 0) ∧ 500 + 100 ≤ 100 * 500)) ∧
    (tallyCtl (withReg live (globalPage 1 + 8) 2)).getLsbD 1 = true := by decide +kernel

theorem witness_levels :
    (let s := frondAs fun f => { f with levelTo := some 1 }
     (frond s 2).levelTo = some 1 ∧ 1 < (frond s 2).level ∧ halted s (halfOf 2) = false) ∧
    (let s := { live with tally := { live.tally with hubTo := [some 1, none] } }
     s.tally.hubTo.getD 0 none = some 1 ∧ halted s 0 = false) ∧
    (let s := frondAs fun f => { f with levelTo := some 1, relock := true }
     (frond s 2).levelTo = some 1 ∧ (frond s 2).relock = true ∧ halted s (halfOf 2) = false ∧ searchesDone s 2 = true) ∧
    (let s := frondAs fun f => { f with sleeping := some ⟨1⟩ }
     s.boot.stage ≠ 0 ∧ (frond s 2).sleeping = some ⟨1⟩) ∧ (frond live 2).sleeping = none ∧ (frond live 2).relock = false := by
  decide +kernel

theorem test_level_change_speeds_up :
    (let s := after (.frondRelockDone 2 500) (frondAs fun f => { f with levelTo := some 1, relock := true })
     ((frond s 2).level, (frond s 2).levelTo, (frond s 2).relock)) = (1, none, false) := by decide +kernel

theorem witness_frond_sleeps (target : Nat) (h : target = 1 ∨ target = 2 ∨ target = 3) :
    let s := frondAs fun f => { f with sleeping := some ⟨target⟩ }
    (s.coh.copies.Pairwise fun a b => a.1 < b.1) ∧ (frond s 2).sleeping = some ⟨target⟩ ∧ frondQuiet s 2 = true ∧
      halted s (halfOf 2) = false ∧ firstRefusal (frondRefusals s 2 target) = none ∧
      (let r := frondAs fun f => { f with sleeping := some ⟨target⟩, panOp := some ⟨1, 0, 0, 512, false⟩ }
       frondQuiet r 2 = true ∧ firstRefusal (frondRefusals r 2 target) = some (3, 1)) := by
  obtain rfl | rfl | rfl := h <;> decide +kernel

/-- Every frond of hub0 is asleep, its link in L1, and Doze is asked for it. -/
def dozing : State :=
  { live with
    fronds := List.replicate 6 { upFrond with dstate := 3 }
    ports := ⟨0, .up, [{ upLink with pwr := .l1 }, linkReset, linkReset, linkReset]⟩ :: live.ports.drop 1
    tally := { live.tally with want := live.tally.want.set 6 1 } }

theorem witness_hub_sleeps :
    (dozing.tally.want.getD 6 0 = 1 ∧ dozing.tally.hubDoze.length = 2 ∧ halted dozing 0 = false ∧ firstRefusal (hubRefusals dozing 0) = none) ∧
    (let s := { live with tally := { live.tally with hubDoze := [true, false] }, pins := { live.pins with heldDdr := [some true, none] } }
     s.tally.hubDoze.getD 0 false = true ∧ s.pins.heldDdr.getD 0 none = some true) := by decide +kernel

theorem witness_frond_wakes :
    (let s := frondAs fun f => { f with dstate := 2, waking := true }
     (frond s 2).waking = true ∧ frondServes s 2 = true ∧ halted s (halfOf 2) = false) ∧
    (let s := frondAs fun f => { f with dstate := 2 }
     frondServes s 2 = true ∧ 2 ≤ (frond s 2).dstate ∧ (frond s 2).waking = false ∧ halted s (halfOf 2) = false) := by decide +kernel

theorem witness_pan_retires :
    let s := { live with tally := { live.tally with epoch := 70000 } }
    (mget (frond s 2).arr.awake 1).any (fun u => panAged s 2 1 u) = true ∧
      (mget (frond live 2).arr.awake 1).any (fun u => !panAged live 2 1 u) = true ∧ awake s 2 = true ∧
      (keptOn s 2).all (fun c => !inRange c.2 (baseDie s 2) 1) = true ∧ (∀ e ∈ (frond s 2).arr.repairing, e.1 / 8192 ≠ 1) ∧
      ((frond s 2).arr.awake.Pairwise fun a b => a.1 < b.1) := by decide +kernel

theorem witness_clock_fails :
    live.boot.stage ≠ 0 ∧ live.clock.rc = false ∧ xtalOff 600 = true ∧
      { live with clock := { live.clock with rc := true } }.clock.rc = true := by decide +kernel

theorem witness_calendar_write :
    reached steward 0 (globalPage 7 + 0x60) .time .write = true ∧ maskOf 0xFFFF0005 ≠ 0 ∧ steward.regs.guards = [] ∧
      (steward.regs.hold.Pairwise fun a b => a.1 < b.1) := by decide +kernel

theorem witness_padrel :
    let s0 := { steward with pins := { steward.pins with heldDdr := [some true, none], heldPort := List.replicate 6 true } }
    let s := armed s0 (diePage 0 0x13 + 0x800) 0x00070007
    let d := armed { s0 with tally := { s0.tally with hubDoze := [true, false] } } (diePage 0 0x13 + 0x800) 0x00070003
    TakesEffect s 0 (diePage 0 0x13 + 0x800) (compl 0x00070007) 0x00070007 ∧ started s = true ∧
      (maskedWrite (0x00070007 : Word32) 7 (reg s (diePage 0 0x13 + 0x800))).toNat = 7 ∧
      (s.pins.heldDdr.getD 0 none).isSome = true ∧ s.tally.hubDoze.getD 0 false = false ∧ s.tally.want.getD 6 0 = 0 ∧
      (∀ port ∈ hubPorts 0, s.pins.heldPort.getD port false = true ∧ (s.ports[port]?).map (fun y => y.st) = some .up) ∧
      TakesEffect d 0 (diePage 0 0x13 + 0x800) (compl 0x00070003) 0x00070003 ∧
      d.tally.hubDoze.getD 0 false = true ∧ d.pins.heldDdr.getD 0 none = some true ∧
      (let q := { s0 with ports := s0.ports.set 1 ⟨0, .down, List.replicate 4 linkReset⟩ }
       (q.ports[1]?).map (fun y => y.st) ≠ some .up) :=
  ⟨takes_effect (by decide +kernel), by decide +kernel, by decide +kernel, by decide +kernel, by decide +kernel, by decide +kernel,
    by decide +kernel, takes_effect (by decide +kernel), by decide +kernel⟩

/-- A full-width access. -/
def access (a : Nat) (v : Word32) : Access := ⟨BitVec.ofNat 26 a, .one 0xF, v.setWidth 64⟩

/-- The plain register at an address, that a test picks, is reached as said. -/
def plainAt (s : State) (a : Nat) (r : Reach) (q : RegSpec → Bool) : Bool :=
  (lookup s 0 a).any fun x => x.1 == a && x.2.1.base == pageBase a && x.2.2 == r &&
    match slotAt x.2.1.ty (a % 4096) with
    | .plain f => q f && f.off == a % 4096
    | _ => false

theorem witness_register_write :
    let a := arrPage 2 + 0x48
    plainAt steward a .write (fun f => f.words == 1 && f.rws == 0) = true ∧ wakePage steward a = steward ∧
      inWindow a = false ∧ writeWaits steward 0 a = false ∧ lateFor steward 0 a = false ∧
      (let s := modFrond steward 2 fun f => { f with dstate := 2 }
       writeWaits s 0 a = true ∧ a / 0x00400000 < 8 ∧ lateFor (queueWrite s 0 a 0x00070003) 0 a = true) ∧
      (access a 0x00070003).addr.toNat = a ∧ maskOf ((access a 0x00070003).data.setWidth 32) ≠ 0 ∧
      maskOf ((access a 0x00000003).data.setWidth 32) = 0 ∧ steward.regs.guards = [] ∧
      a % 4096 ∉ [0x10, 0x18, 0x1C, 0x24, 0x28] := by decide +kernel

theorem test_masked_write :
    (let s := after (.registerWrite 0 (access (arrPage 2 + 0x48) 0x00050007)) (withReg steward (arrPage 2 + 0x48) 2)
     reg s (arrPage 2 + 0x48)) = 7 := by decide +kernel

theorem witness_refused_access :
    lookup live 0 (arrPage 2 + 0x48) = none ∧ reached (ringOfOne []) 0 (ringPage 9 + 8) .ring .read = true ∧
      writeWaits steward 0 (arrPage 2 + 0x3FC) = false ∧ lateFor steward 0 (arrPage 2 + 0x3FC) = false ∧
      (lookup steward 0 (arrPage 2 + 0x3FC)).any (fun x => decide (x.1 = arrPage 2 + 0x3FC) && x.2.2 == .write &&
        slotAt x.2.1.ty (x.1 % 4096) == .hole) = true := by decide +kernel

theorem witness_register_read :
    plainAt steward (arrPage 2 + 0x48) .write (fun f => f.words == 1 && f.rc == 0) = true ∧
      lateFor steward 0 (arrPage 2 + 0x48) = false ∧ lateFor (ringOfOne []) 0 (ringPage 9 + 0x10) = false ∧
      plainAt steward (arrPage 2 + 0x10) .write (fun f => f.words == 1 && f.rc != 0) = true ∧
      plainAt (ringOfOne []) (ringPage 9 + 0x10) .read (fun f => f.words == 1) = true ∧
      plainAt steward (globalPage 7 + 0x60) .write (fun f => decide (1 < f.words) && f.idx == 0) = true ∧
      (let s := { steward with regs := { steward.regs with latch := [(ldKey 0 (globalPage 7 + 0x60), 5)] } }
       plainAt s (globalPage 7 + 0x64) .write (fun f => decide (1 < f.words) && f.idx == 1) = true ∧
         (mget s.regs.latch (ldKey 0 (globalPage 7 + 0x64 - 4))).isSome = true) := by decide +kernel

/-- Frond 2's power page with its staged retention age at v, and a commit pending or not. -/
def stagedAge (v : Word) (pending : Bool) : State :=
  let a := diePage 2 0x23
  let s := setStaged steward (a + 0x40) v
  { s with regs := { s.regs with commit := if pending then [(a, 1)] else [] } }

theorem witness_commit :
    let a := diePage 2 0x23
    reached steward 0 (a + 0x28) .fpwr .write = true ∧ inWindow (a + 0x28) = false ∧ writeWaits steward 0 (a + 0x28) = false ∧ wakePage steward (a + 0x28) = steward ∧
      steward.regs.guards = [] ∧ (dataOf 0x00010001 &&& maskOf 0x00010001).getLsbD 0 = true ∧
      committing (stagedAge 9 true) a = true ∧ committing (stagedAge 9 false) a = false ∧
      (pageAt a).any (fun pg => stagedDiffers (stagedAge 9 false) a && commitOk (stagedAge 9 false) pg) = true ∧
      (pageAt a).any (fun pg => stagedDiffers (stagedAge 0 false) a && !commitOk (stagedAge 0 false) pg) = true := by
  decide +kernel

theorem witness_commit_applies :
    let a := diePage 2 0x23
    (pageAt a).any (fun pg => pg.ty == .fpwr && pg.base == a && commitOk (stagedAge 9 true) pg && !commitOk (stagedAge 0 true) pg) = true ∧
      committing (stagedAge 9 true) a = true ∧ committing (stagedAge 0 true) a = true ∧ committing steward a = false ∧
      stagedDiffers (stagedAge 9 true) a = true ∧ stagedDiffers (stagedAge 0 true) a = true ∧
      (let s := { steward with regs := { steward.regs with commit := [(a, 1)] } }
       committing s a = true ∧ stagedDiffers s a = false) ∧
      (∀ e ∈ pageStaged (stagedAge 9 true) a, e.1 ≠ a + 0x28) ∧
      ((stagedAge 9 true).regs.commit.Pairwise fun a b => a.1 < b.1) ∧
      ((stagedAge 9 true).regs.staged.Pairwise fun a b => a.1 < b.1) := by decide +kernel

/-- Frond 2's first sluice page has a new tag of pan 0, which covers all rows or demands what row 5 lacks, and a commit pending. -/
def stagedTag (mask : Word) : State :=
  let s := withRow steward 2 5 0 allCare true 0
  let s := setStaged (setStaged s (tagAddr 2 0) 1) (tagAddr 2 0 + 4) mask
  { s with regs := { s.regs with commit := [(diePage 2 0x10, 1)] } }

theorem witness_tag_commit :
    (pageAt (diePage 2 0x10)).any (fun pg => pg.ty == .sluice && tagsOk (stagedTag 0) pg && !tagsOk (stagedTag 1) pg &&
        (copies (stagedTag 0) pg.die).contains pg.die) = true ∧
      stagedDiffers (stagedTag 0) (diePage 2 0x10) = true ∧ stagedDiffers (stagedTag 1) (diePage 2 0x10) = true ∧
      committing (stagedTag 0) (diePage 2 0x10) = true ∧ committing (stagedTag 1) (diePage 2 0x10) = true := by decide +kernel

theorem witness_guarded_write :
    let a := diePage 2 0x22 + 0x800
    (lookup steward 0 a).any (fun x => decide (x.1 = a) && x.2.2 == .write && (match slotAt x.2.1.ty (a % 4096) with
      | .guarded _ => true
      | _ => false)) = true ∧ inWindow a = false ∧ writeWaits steward 0 a = false ∧ wakePage steward a = steward ∧
      (let s := armed steward a 0xC3FF8025
       (mget s.regs.guards (ldKey 0 (pageBase a))).any (fun g => g.addr == a) = true ∧
         (mget s.regs.guards (ldKey 0 (pageBase a))).any (fun g => g.addr != a + 4) = true ∧
         (s.regs.guards.Pairwise fun x y => x.1 < y.1) ∧ maskOf (0xC3FF8025 : Word32) ≠ 0 ∧
         dataOf (0xC3FF8025 : Word32) ≠ ~~~(dataOf (0xC3FF8025 : Word32))) := by decide +kernel

/-- R391: the write of 0xC3FF_8025 to REPAIR at 0x0082_2800, and its complement. -/
theorem test_guarded_pair : compl 0xC3FF8025 = 0xC3FF7FDA ∧ diePage 2 0x22 + 0x800 = 0x00822800 := by decide +kernel

theorem witness_signature :
    let a := diePage 2 0x23
    (reached steward 0 (a + 0x24) .fpwr .write = true ∧ writeWaits steward 0 (a + 0x24) = false ∧ wakePage steward (a + 0x24) = steward ∧
      { steward.chip with part := .ls4 }.part ≠ .ls8 ∧ coveredOffsets .fpwr ≠ []) ∧
    (let s := withReg { steward with regs := { steward.regs with armed := [a] } } (a + 0x24) 0x1234
     s.regs.armed.contains a = true ∧ cfgSig s .fpwr a ≠ reg s (a + 0x24) ∧ s.regs.restore.contains a = false) ∧
    (let s := { steward with regs := { steward.regs with restore := [a] }, chip := { steward.chip with part := .ls4 } }
     s.chip.part ≠ .ls8 ∧ s.regs.restore.contains a = true) ∧
    (pageAt (diePage 0 0x13)).any (fun pg => pageExists steward pg && (coveredOffsets pg.ty).any fun o => parityMask pg.ty o != 0) = true ∧
      steward.chip.part = .ls8 ∧ started steward = true := by decide +kernel

/-- Three copies differ in a field, and a value that two of them agree on. -/
def votedBad (c0 c1 c2 k : Word) : Bool := !decide (c0 &&& k = c1 &&& k ∧ c1 &&& k = c2 &&& k)
def votedWon (c0 c1 c2 k v : Word) : Bool :=
  decide ((c0 &&& k = v ∧ (c1 &&& k = v ∨ c2 &&& k = v)) ∨ (c1 &&& k = v ∧ c2 &&& k = v))

theorem witness_vote :
    (let a := diePage 2 0x23 + 0x40
     (pageAt (pageBase a)).any fun pg => pageExists steward pg && a != pg.base + 0x10 && votedFields pg.ty 0x40 == [0xFFFF]) = true ∧
      ((pageAt (globalPage 0)).any fun pg => pageExists steward pg && votedFields pg.ty 0x800 == [3, 0x10] &&
        votedFields pg.ty 0xC00 == [0x10]) = true ∧
      steward.chip.part = .ls8 ∧ started steward = true ∧
      votedBad 1 1 1 0xFFFF = false ∧ votedBad 1 1 2 0xFFFF = true ∧ votedWon 1 1 2 0xFFFF 1 = true ∧
      votedBad 0 1 2 3 = true ∧ votedBad 0 1 2 0x10 = false ∧ ([0, 1, 2, 3].any fun v => votedWon 0 1 2 3 v) = false ∧
      votedBad 0 1 0x12 0x10 = true ∧ votedWon 0 1 0x12 0x10 0 = true := by decide +kernel

theorem witness_ddr_rate (rate : Nat) (h : rate = 1 ∨ rate = 2) :
    let v : Word32 := BitVec.ofNat 32 (0x00030000 + rate)
    let s := armed steward (diePage 0 8 + 0x800) v
    TakesEffect s 0 (diePage 0 8 + 0x800) (compl v) v ∧ bits (maskedWrite v 3 (reg s (diePage 0 8 + 0x800))) 1 0 = rate := by
  obtain rfl | rfl := h <;> exact ⟨takes_effect (by decide +kernel), by decide +kernel⟩

/-- The window is bound to seat 0 and table 0, closed or open, at entry 5 of it and a slice. -/
def window (on : Bool) : State :=
  let s := withRow { steward with tables := [(0, plainTab)] } 2 5 0x1234 allCare false 0
  let s := withReg (withReg s (globalPage 0xB + 0x40) 0x8000) (globalPage 0xB + 0x44) 0
  let s := withReg (withReg (withReg s (winAddr 0x10) 5) (winAddr 0x18) 2) (winAddr 0x20) 0xABCD
  withReg (withReg s (winAddr 0x24) 0xFFFF) (globalPage 0xB + 8) (if on then 1 else 0)

theorem witness_window_opens :
    reached (window false) 0 (globalPage 0xB + 8) .watripo .write = true ∧ (window false).regs.guards = [] ∧
      (reg (window false) (globalPage 0xB + 8)).getLsbD 0 = false ∧ bindOk (window false) = true ∧
      bindOk (withReg (window false) (globalPage 0xB + 0x40) 0) = false ∧ (reg (window true) (globalPage 0xB + 8)).getLsbD 0 = true ∧
      (maskOf 0x00010001).getLsbD 0 = true ∧ (dataOf 0x00010001).getLsbD 0 = true ∧ (dataOf 0x00010000).getLsbD 0 = false := by
  decide +kernel

theorem witness_window_search :
    let s := window true
    let s0 := modRegs (wakeHub s (seatHub s 0)) fun g => { g with wcmd := some ⟨1, 0, 0⟩ }
    windowSeat s 0 = some 0 ∧ s.regs.wcmd = none ∧ (8 : BitVec 16).toNat % 4096 / 4 = 2 ∧
      maskOf 0x00070001 ≠ 0 ∧ bits (dataOf 0x00070001 &&& maskOf 0x00070001) 2 0 = 1 ∧
      singleCheck (withReg (window true) (globalPage 0xB + 0x44) 9) 0 9 5 1 40 ≠ none ∧ singleCheck (window true) 0 0 5 1 40 = none ∧
      singleCheck s0 0 0 5 1 40 = none ∧ hubServes s0 (seatHub s0 0) = true ∧ needFronds s0 (tableDies s0 [0]) = none ∧
      tableIn s0 0 = some plainTab ∧
      (launch s0 plainTab
        { ring := 0, sub := 0, member := 0, tag := 0, seat := 0, table := 0, key := winSearchKey s0 1, hits := 1,
          early := false, window := true, fetched := nowNs s0 }).2 = none ∧
      (let r := { s with pkg := { s.pkg with half := [.out, .serving] } }
       let r0 := modRegs (wakeHub r (seatHub r 0)) fun g => { g with wcmd := some ⟨1, 0, 0⟩ }
       windowSeat r 0 = some 0 ∧ singleCheck r0 0 0 5 1 40 = none ∧ hubServes r0 (seatHub r0 0) = false) := by decide +kernel

theorem win_ready {code cost : Nat} (h : code ∈ [2, 3, 4, 5])
    (hp : (admitWork (window true) 0 (opCost (window true) opDispatch 0 + cost)).isSome = true) :
    WinEntryReady (window true) 0 8 (BitVec.ofNat 32 (0x00070000 + code)) code 0 0 plainTab 2 5 cost := by
  constructor
  case pay => exact hp
  case cmd =>
    simp only [List.mem_cons, List.not_mem_nil, or_false] at h
    obtain rfl | rfl | rfl | rfl := h <;> decide +kernel
  case fronds =>
    intro d hd
    rw [show copies (window true) 2 = [2] from by decide +kernel, List.mem_singleton] at hd
    subst hd
    and_intros <;> first | decide +kernel | exact good_records (by decide +kernel)
  all_goals decide +kernel

theorem witness_window_entry :
    let s := window true
    let img := sliceRow s 2 5 2 (reg s (winAddr 0x20)) (reg s (winAddr 0x24))
    WinEntryReady s 0 8 0x00070002 2 0 0 plainTab 2 5 (arrayCost s (copies s 2) 1 0) ∧
      (∀ d ∈ copies s 2, entryValid s d 5 1 = false) ∧ (∀ d ∈ copies s 2, sliceCovered s d 5 1 0 5 img = true) ∧
      WinEntryReady s 0 8 0x00070003 3 0 0 plainTab 2 5 (arrayCost s (copies s 2) 0 0) ∧ serveDie s 2 ∈ copies s 2 ∧
      WinEntryReady s 0 8 0x00070004 4 0 0 plainTab 2 5 (arrayCost s (copies s 2) 0 1) ∧ entryCovered s plainTab 2 5 = true ∧
      (∀ d ∈ copies s 2, entryPoison s d 5 = false) ∧
      WinEntryReady s 0 8 0x00070005 5 0 0 plainTab 2 5 (arrayCost s (copies s 2) 0 1) :=
  ⟨win_ready (code := 2) (by decide) (by decide +kernel), by decide +kernel, by decide +kernel,
    win_ready (code := 3) (by decide) (by decide +kernel), by decide +kernel,
    win_ready (code := 4) (by decide) (by decide +kernel), by decide +kernel, by decide +kernel,
    win_ready (code := 5) (by decide) (by decide +kernel)⟩

/-- ARR of frond 2 at row 5, which is invalid or valid, with an operation armed. -/
def arrAt (op : Nat) (valid : Bool) : State :=
  let s := withRow { steward with tables := [(0, plainTab)] } 2 5 0x1234 allCare valid 0
  armed (withReg s (arrPage 2 + 0x40) 5) (arrPage 2 + 0x800) (BitVec.ofNat 32 (0x00030000 + op))

theorem witness_array_command (op : Nat) (h : op = 1 ∨ op = 2 ∨ op = 3) (valid : Bool) :
    let s := arrAt op valid
    let v : Word32 := BitVec.ofNat 32 (0x00030000 + op)
    TakesEffect s 0 (arrPage 2 + 0x800) (compl v) v ∧ bits (maskedWrite v 3 (reg s (arrPage 2 + 0x800))) 1 0 = op ∧
      firstRow s 2 5 = 5 ∧ tagsMoving s 2 5 = false ∧ underRepair s 2 5 = false ∧ GoodRecords s 2 ∧
      (∀ r ∈ entryRows 5 (rowsAt s 2 5), rowGood 2 r (rowAt s 2 r) = true) ∧ entryPoison s 2 5 = false ∧
      entryValid s 2 5 (rowsAt s 2 5) = valid ∧
      sliceCovered s 2 5 (rowsAt s 2 5) 0 5 (sliceRow s 2 5 (bits (reg s (arrPage 2 + 0x48)) 2 0) (reg s (arrPage 2 + 0x4C))
        (reg s (arrPage 2 + 0x50))) = true := by
  obtain rfl | rfl | rfl := h <;> cases valid <;>
    exact ⟨takes_effect (by decide +kernel), by decide +kernel, by decide +kernel, by decide +kernel, by decide +kernel,
      good_records (by decide +kernel), by decide +kernel⟩

theorem witness_array_slice_refused :
    entryPoison (modArr (arrAt 2 false) 2 fun a => { a with rows := mmod a.rows 5 fun r => { r with poison := true } }) 2 5 = true ∧
      (let s := withReg (withReg (arrAt 2 false) (tagAddr 2 0) 1) (tagAddr 2 0 + 4) 1
       sliceCovered s 2 5 1 0 5 (sliceRow s 2 5 0 0 0xFFFF) = false) ∧
      tagsMoving { arrAt 2 false with regs := { (arrAt 2 false).regs with
        staged := [(tagAddr 2 0, 1)], commit := [(diePage 2 0x10, 1)] } } 2 5 = true := by decide +kernel

theorem witness_array_clear (pan : Nat) (h : pan = 0 ∨ pan = 9) :
    let v : Word32 := BitVec.ofNat 32 (0x81FF8000 + pan)
    let s := armed steward (arrPage 2 + 0x804) v
    TakesEffect s 0 (arrPage 2 + 0x804) (compl v) v ∧ (maskedWrite v 0x81FF (reg s (arrPage 2 + 0x804))).getLsbD 15 = true ∧
      bits (maskedWrite v 0x81FF (reg s (arrPage 2 + 0x804))) 8 0 = pan ∧ (panOwner s 2 pan).isSome = (pan == 0) ∧
      panDead s 2 pan = false ∧ ((frond s 2).arr.rows.Pairwise fun a b => a.1 < b.1) := by
  obtain rfl | rfl := h <;> exact ⟨takes_effect (by decide +kernel), by decide +kernel⟩

/-! Halves, ports, fronds, logs, start-up and the sideband -/

theorem witness_mode_sel (sel : Nat) (h : sel = 1 ∨ sel = 3) :
    let v : Word32 := BitVec.ofNat 32 (0x00030000 + sel)
    let s := armed steward (globalPage 0 + 0x800) v
    TakesEffect s 0 (globalPage 0 + 0x800) (compl v) v ∧ s.chip.part = .ls8 ∧ maskOf v &&& 3 ≠ 0 ∧
      bits (maskedWrite v 3 (reg s (globalPage 0 + 0x800))) 1 0 = sel := by
  obtain rfl | rfl := h <;> exact ⟨takes_effect (by decide +kernel), by decide +kernel⟩

theorem witness_mode_sel_small :
    let s := armed { steward with chip := { steward.chip with part := .ls4 } } (globalPage 0 + 0x800) 0x00030001
    TakesEffect s 0 (globalPage 0 + 0x800) (compl 0x00030001) 0x00030001 ∧ s.chip.part ≠ .ls8 :=
  ⟨takes_effect (by decide +kernel), by decide +kernel⟩

/-- Pair mode, with the halves as said. -/
def paired (a b : HalfState) : State :=
  { steward with pkg := { steward.pkg with mode := 1, half := [a, b], primaryB := a != .serving } }

/-- PKG.HALF written with a half and an operation. -/
def halfWord (h op : Nat) : Word32 := BitVec.ofNat 32 (0x03010000 + 256 * op + h)

/-- A block with PKG.HALF armed. -/
def halfArmed (s : State) (h op : Nat) : State := armed s (globalPage 0 + 0x808) (halfWord h op)

theorem witness_half_command (op : Nat) (h : op = 0 ∨ op = 1 ∨ op = 2 ∨ op = 3) :
    let s := halfArmed (paired .serving .serving) 1 op
    TakesEffect s 0 (globalPage 0 + 0x808) (compl (halfWord 1 op)) (halfWord 1 op) ∧ inPair s = true ∧
      bits (maskedWrite (halfWord 1 op) 0x0301 (reg s (globalPage 0 + 0x808))) 9 8 = op ∧
      bits (maskedWrite (halfWord 1 op) 0x0301 (reg s (globalPage 0 + 0x808))) 0 0 = 1 ∧
      halfState s 0 = .serving ∧ halfState s 1 = .serving ∧ serving s 1 = true ∧
      (∀ port ∈ hubPorts 1, (s.ports[port]?).map (fun y => y.st) = some .up) := by
  obtain rfl | rfl | rfl | rfl := h <;> exact ⟨takes_effect (by decide +kernel), by decide +kernel⟩

theorem witness_half_refused :
    (let s := halfArmed steward 1 1
     TakesEffect s 0 (globalPage 0 + 0x808) (compl (halfWord 1 1)) (halfWord 1 1) ∧ inPair s = false) ∧
    (let s := halfArmed (paired .serving .out) 0 1
     TakesEffect s 0 (globalPage 0 + 0x808) (compl (halfWord 0 1)) (halfWord 0 1) ∧ inPair s = true ∧ halfState s 1 ≠ .serving) ∧
    (let s := halfArmed (paired .serving .out) 1 2
     TakesEffect s 0 (globalPage 0 + 0x808) (compl (halfWord 1 2)) (halfWord 1 2) ∧ halfState s 1 = .out ∧
       1 < s.pkg.half.length ∧ (harvestOf s 1).held = false ∧ serving s 1 = false) :=
  ⟨⟨takes_effect (by decide +kernel), by decide +kernel⟩, ⟨takes_effect (by decide +kernel), by decide +kernel⟩,
    takes_effect (by decide +kernel), by decide +kernel⟩

theorem witness_half_goes_out :
    (let s := paired .serving .draining
     inPair s = true ∧ halfState s 1 = .draining ∧ s.pkg.half.length = 2 ∧ s.ports.length = 6 ∧ serving s 0 = true) ∧
    (let s := { paired .serving .resync with pkg := { (paired .serving .resync).pkg with resync := some 1 } }
     inPair s = true ∧ halfState s 1 = .resync ∧ updatesDone s = true ∧ s.fronds.length = 6 ∧
       (∀ k < 3, ((frond s (2 + k)).arr.shadow.Pairwise fun a b => a.1 < b.1)) ∧
       (∀ k < 3, ((frond s (2 + k)).arr.shadow.all fun e => recordGood e.2) = true) ∧ firstRow s 2 5 = 5) ∧
    (let s := paired .serving .serving
     started s = true ∧ present s 1 = true ∧ dieIn s 1 = true ∧ inPair s = true ∧ halfState s 1 ≠ .out) ∧
    (started live = true ∧ present live 1 = true ∧ dieIn live 1 = true ∧ inPair live = false ∧ 1 < live.pkg.frozen.length ∧
      live.ports.length = 6 ∧ live.fronds.length = 6) ∧ dieIn { live with pkg := { live.pkg with dies := 0xFD } } 1 = false := by
  decide +kernel

theorem witness_port_commands (down : Nat) (h : down = 0 ∨ down = 1) :
    let v : Word32 := BitVec.ofNat 32 (0x00010000 + down)
    let s := armed steward (portPage 1 + 0x804) v
    TakesEffect s 0 (portPage 1 + 0x804) (compl v) v ∧ (s.ports[1]?).map (fun y => y.st) = some .up ∧
      (maskedWrite v 1 (reg s (portPage 1 + 0x804))).getLsbD 0 = (down == 1) ∧
      (let d := armed { steward with ports := steward.ports.set 1 ⟨0, .down, List.replicate 4 linkReset⟩ } (portPage 1 + 0x804) v
       TakesEffect d 0 (portPage 1 + 0x804) (compl v) v ∧ (d.ports[1]?).map (fun y => y.st) = some .down) := by
  obtain rfl | rfl := h <;>
    exact ⟨takes_effect (by decide +kernel), by decide +kernel, by decide +kernel, takes_effect (by decide +kernel), by decide +kernel⟩

theorem witness_port_split (split : Nat) (h : split = 2 ∨ split = 3) :
    let v : Word32 := BitVec.ofNat 32 (0x00030000 + split)
    let s := armed steward (portPage 1 + 0x800) v
    TakesEffect s 0 (portPage 1 + 0x800) (compl v) v ∧ bits (maskedWrite v 3 (reg s (portPage 1 + 0x800))) 1 0 = split := by
  obtain rfl | rfl := h <;> exact ⟨takes_effect (by decide +kernel), by decide +kernel⟩

theorem witness_port_drains :
    (({ live with ports := live.ports.set 1 ⟨0, .draining, List.replicate 4 linkReset⟩ }.ports[1]?).map fun y => y.st) = some .draining ∧
      ((live.ports[1]?).map fun y => (y.st, y.links.length)) = some (.up, 4) ∧ 1 < live.pins.heldPort.length := by decide +kernel

/-- SVC of a frond armed. -/
def svcArmed (s : State) (d out : Nat) : State := armed s (diePage d 0 + 0x800) (BitVec.ofNat 32 (0x00010000 + out))

theorem witness_frond_service :
    (let s := svcArmed steward 2 1
     TakesEffect s 0 (diePage 2 0 + 0x800) (compl 0x00010001) 0x00010001 ∧ (frond s 2).svcOut = false ∧ frondUsed s 2 = true ∧
       (maskedWrite (0x00010001 : Word32) 1 (reg s (diePage 2 0 + 0x800))).getLsbD 0 = true) ∧
    (let s := svcArmed steward 4 1
     TakesEffect s 0 (diePage 4 0 + 0x800) (compl 0x00010001) 0x00010001 ∧ frondUsed s 4 = false) ∧
    (let s := svcArmed (modFrond steward 4 fun f => { f with svcOut := true }) 4 0
     TakesEffect s 0 (diePage 4 0 + 0x800) (compl 0x00010000) 0x00010000 ∧ (frond s 4).svcOut = true ∧ (frond s 4).svcReturn = false ∧
       4 - 2 < s.pins.enFr.length ∧ (maskedWrite (0x00010000 : Word32) 1 (reg s (diePage 4 0 + 0x800))).getLsbD 0 = false) ∧
    (let s := svcArmed steward 4 0
     TakesEffect s 0 (diePage 4 0 + 0x800) (compl 0x00010000) 0x00010000 ∧ (frond s 4).svcOut = false) ∧
    (let s := modFrond live 4 fun f => { f with svcOut := true, svcReturn := true }
     (frond s 4).svcOut = true ∧ (frond s 4).svcReturn = true) :=
  by refine ⟨⟨takes_effect ?_, ?_⟩, ⟨takes_effect ?_, ?_⟩, ⟨takes_effect ?_, ?_⟩, ⟨takes_effect ?_, ?_⟩, ?_⟩ <;> decide +kernel

theorem witness_frond_lost :
    started live = true ∧ present live 2 = true ∧ (frond live 2).lost = false ∧ dieIn live 2 = true ∧ inPair live = false ∧
      inPair (paired .serving .serving) = true := by decide +kernel

theorem witness_links_change :
    (∀ k ∈ [2, 7, 0x10, 0x11, 0x20, 0x25], linkHere live k = true ∧ live.pkg.linksDown.contains k = false) ∧
      hopHalf (0x20 - 0x20) = some 0 ∧ linkHere (paired .serving .serving) 0x20 = true ∧
      (let s := { live with pkg := { live.pkg with linksDown := [2] } }
       linkHere { live with boot := { live.boot with stage := 2 } } 0x20 = true ∧ s.pkg.linksDown.contains 2 = true ∧ (frond s 2).lost = false ∧ (frond s 2).svcOut = false) := by decide +kernel

theorem witness_ledger :
    (let s := armed steward (globalPage 8 + 0x800) 0x00010001
     TakesEffect s 0 (globalPage 8 + 0x800) (compl 0x00010001) 0x00010001 ∧
       (maskedWrite (0x00010001 : Word32) 1 (reg s (globalPage 8 + 0x800))).getLsbD 0 = true) ∧
    managed live = true ∧ managed State.reset = false ∧ reached steward 0 (globalPage 8 + 0x40) .ledger .write = true ∧
      (ledgerField live 1).isSome = true ∧ ledgerField live 0xFFFF = none ∧ (live.pins.enHub.any id) = true :=
  ⟨⟨takes_effect (by decide +kernel), by decide +kernel⟩, by decide +kernel⟩

theorem witness_excursion :
    live.boot.stage ≠ 0 ∧ mhas live.life.excursions 2 = false ∧
      (let s := { live with life := { live.life with excursions := [(2, 700)] } }
       mhas s.life.excursions 2 = true ∧ (s.life.excursions.Pairwise fun a b => a.1 < b.1)) := by decide +kernel

/-- The log keeps record 20. -/
def logged : State :=
  { steward with log := { steward.log with
      circ := [⟨0x1001, 20, 0, 0, 0xFF, 0xFF, 0, 1, 0⟩], next := 21, loading := some 20, unread := [20] } }

theorem witness_log :
    reached steward 0 (globalPage 9 + 0x70) .log .write = true ∧ logged.log.loading = some 20 ∧ (findRecord logged 20).isSome = true ∧
      findRecord logged 17 = none := by decide +kernel

theorem witness_erase (what : Nat) (h : what = 1 ∨ what = 2) (rma : Bool) :
    let v : Word32 := BitVec.ofNat 32 (0x80038000 + what)
    let s := armed { logged with pins := { logged.pins with straps := { logged.pins.straps with rmaEn := rma } } }
      (diePage 0 0x16 + 0x800) v
    TakesEffect s 0 (diePage 0 0x16 + 0x800) (compl v) v ∧ s.pins.straps.rmaEn = rma ∧
      (maskedWrite v 0x8003 (reg s (diePage 0 0x16 + 0x800))).getLsbD 15 = true ∧
      bits (maskedWrite v 0x8003 (reg s (diePage 0 0x16 + 0x800))) 1 0 = what := by
  obtain rfl | rfl := h <;> cases rma <;> exact ⟨takes_effect (by decide +kernel), by decide +kernel⟩

theorem witness_sector :
    let s := { live with clock := { live.clock with tb := twoYears } }
    managed s = true ∧ present s 0 = true ∧ (mget s.life.sectorTb 7).getD 0 + twoYears ≤ s.clock.tb := by decide +kernel

theorem witness_harvest :
    (let s := { steward with harvest := steward.harvest.map fun x => { x with busy := true } }
     (harvestOf s 0).busy = true ∧ 0 < s.harvest.length) ∧
    (let s := armed steward (globalPage 0xA + 0x800) 0x00010001
     TakesEffect s 0 (globalPage 0xA + 0x800) (compl 0x00010001) 0x00010001 ∧ present s (harvestHub s) = true ∧
       (maskedWrite (0x00010001 : Word32) 1 (reg s (globalPage 0xA + 0x800))).getLsbD 0 = true) ∧
    (let s := armed { steward with harvest := [⟨true, false, true, false, 0, 0, 0⟩, ⟨false, false, false, false, 0, 0, 0⟩] }
       (globalPage 0xA + 0x804) 0x00010001
     TakesEffect s 0 (globalPage 0xA + 0x804) (compl 0x00010001) 0x00010001 ∧ (harvestOf s 0).held = true ∧
       (harvestOf s 0).busy = false ∧ (maskedWrite (0x00010001 : Word32) 1 (reg s (globalPage 0xA + 0x804))).getLsbD 0 = true ∧
       ∀ k < s.harvest.length, k ≠ 0 → (harvestOf s k).held = false) ∧
    reached steward 0 (globalPage 0xA + 0x44) .harvest .write = true ∧
    (inPair live = false ∧ ∀ h ∈ hubs live, dieIn live h = true ∧ (harvestOf live h).held = false ∧ h < live.harvest.length ∧
      h < live.pkg.frozen.length) :=
  ⟨by decide +kernel, ⟨takes_effect (by decide +kernel), by decide +kernel⟩, ⟨takes_effect (by decide +kernel), by decide +kernel⟩,
    by decide +kernel⟩

/-- Start-up runs a stage on both hubs. -/
def starting (k : Nat) : State :=
  { live with boot := { live.boot with stage := BitVec.ofNat 8 k, hubDone := [false, false] } }

theorem witness_release :
    State.reset.pins.porstN = false ∧ State.reset.boot.tripped = false ∧ State.reset.pins.straps.testMode.toNat < 2 ∧
      State.reset.pins.pgHub = [false, false] ∧ State.reset.pins.enHub = [false, false] ∧ live.pins.porstN = true ∧
      (let s := { State.reset with life := { State.reset.life with slots := [(3, (7, State.reset.life.now))] } }
       bestSlot (s.life.slots.filter fun e => !(([] : List (BitVec 4)).map fun x => x.toNat).contains e.1) = some (3, 7, s.life.now)) ∧
      { State.reset with boot := { State.reset.boot with tripped := true } }.boot.tripped = true ∧ 400 < (401 : Word).toInt := by
  decide +kernel

theorem witness_stages (k : Nat) (h : k ∈ [2, 3, 4, 5, 6, 7, 8, 9, 10]) :
    let s := starting k
    atStage s 0 k = true ∧ (∀ j < 12, j ≠ k → atStage s 0 j = false) ∧ returnsAt s 0 k = false ∧ 2 ≤ s.boot.stage.toNat ∧
      s.boot.stage.toNat ≤ 10 ∧ boardTest s = false ∧ startPair s = false ∧ returnsHub s 0 = false ∧
      (∃ g ∈ startHubs s, (s.boot.hubDone.set 0 true).getD g false = false) ∧
      (let t := { s with boot := { s.boot with hubDone := [false, true] } }
       ∀ g ∈ startHubs t, (t.boot.hubDone.set 0 true).getD g false = true) := by
  simp only [List.mem_cons, List.not_mem_nil, or_false] at h
  obtain rfl | rfl | rfl | rfl | rfl | rfl | rfl | rfl | rfl := h <;> decide +kernel

theorem witness_supplies :
    let s := { starting 2 with pins := { live.pins with pgHub := [false, false], pgIo := [false, false], pgFr := List.replicate 6 false } }
    s.pins.enHub.getD 0 false = true ∧ s.pins.pgHub.getD 0 true = false ∧ s.pins.enIo.getD 0 false = true ∧
      s.pins.pgIo.getD 0 true = false ∧ s.pins.enFr.getD 0 false = true ∧ s.pins.pgFr.getD 0 true = false := by decide +kernel

/-- Hub0 has an image in its other slot, pending, and is at stage 4. -/
def pendingImage : State :=
  { starting 4 with fw := [{ fwReset with slots := [⟨some ⟨1, 0, true⟩, false⟩, ⟨some ⟨2, 0, true⟩, true⟩] }, fwReset] }

theorem witness_images :
    (pendingImage.fw[0]?).map pendingSlot = some (some 1) ∧ atStage pendingImage 0 4 = true ∧
      ((starting 4).fw[0]?).map pendingSlot = some none ∧ 0 < pendingImage.fw.length ∧ returnsHub pendingImage 0 = false ∧
      (let s := { starting 7 with fw := [{ fwReset with asPending := true, loaded := some 0 }, fwReset] }
       ((s.fw[0]?).map fun f => f.asPending) = some true ∧ 4 ≤ s.boot.stage.toNat ∧ s.boot.stage.toNat ≤ 10) := by decide +kernel

theorem witness_self_test :
    let s := { starting 7 with pins := { live.pins with enIo := [false, false] } }
    atStage s 0 7 = true ∧ boardTest s = false ∧ s.pins.enIo.getD 0 true = false ∧ present s 0 = true := by decide +kernel

theorem witness_training_done :
    let pop : DramPop := ⟨6, 32, 1, 1, true⟩
    let s := { starting 9 with mem := { live.mem with pop := [none, some pop] } }
    atStage s 0 9 = true ∧ popOk pop = true ∧ popAlike s 0 pop = true ∧ 0 < s.mem.pop.length ∧ popOk { pop with ok := false } = false := by
  decide +kernel

theorem witness_stage_limits :
    (let s := starting 8
     atStage s (halfOf 2) 8 = true ∧ atStage s (halfOf 2) 6 = false ∧ 2 ∈ startFronds s (halfOf 2)) ∧
    atStage (starting 3) 0 3 = true ∧ atStage (starting 3) 0 2 = false ∧
    (let s := { starting 1 with boot := { (starting 1).boot with hold := true, tripped := true } }
     s.boot.stage = 1 ∧ s.boot.hold = true ∧ s.boot.tripped = true) ∧ (400 : Word).toInt ≤ 400 ∧
    (starting 5).log.next ≤ (70000 : BitVec 48).toNat ∧
    (let s := { live with pins := { live.pins with heldSb := some (0, true) } }
     s.pins.heldSb.isSome = true) := by decide +kernel

theorem witness_supply_falls :
    live.pins.pgHub.getD 0 false = true ∧ live.pins.pgFr.getD 0 false = true ∧ live.pins.pgIo.getD 0 false = true ∧
      (frond live 2).sleeping = none ∧ (frond (frondAs fun f => { f with sleeping := some ⟨3⟩ }) 2).sleeping = some ⟨3⟩ ∧
      State.reset.pins.pgHub.getD 0 false = false := by decide +kernel

theorem witness_trip :
    live.boot.stage ≠ 0 ∧ live.boot.stage ≠ 0x7F ∧ present live 3 = true ∧ 488 ≤ (488 : Word).toInt ∧ live.clock.refLost = false ∧
      started live = true ∧ ((live.ports[0]?).map fun y => y.links.length) = some 4 ∧
      3 ≤ (starting 5).boot.stage.toNat ∧ (starting 5).boot.stage.toNat ≤ 10 ∧ (starting 5).clock.refLost = false := by decide +kernel

theorem witness_reinit :
    let s := armed steward (globalPage 0 + 0x804) 0x00010001
    TakesEffect s 0 (globalPage 0 + 0x804) (compl 0x00010001) 0x00010001 ∧
      (maskedWrite (0x00010001 : Word32) 1 (reg s (globalPage 0 + 0x804))).getLsbD 0 = true :=
  ⟨takes_effect (by decide +kernel), by decide +kernel⟩

theorem witness_sideband :
    managed State.reset = false ∧ managed logged = true ∧ (findRecord logged 20).isSome = true ∧ findRecord logged 17 = none ∧
      (∀ h ∈ live.harvest, h.busy = false) ∧
      (∃ h ∈ live.harvest.map fun x => { x with busy := true }, h.busy = true) ∧
      ({ live with boot := { live.boot with stage := 0x7F } } : State).boot.stage = 0x7F ∧ live.boot.stage ≠ 0x7F ∧ live.boot.stage ≠ 0x7E := by
  decide +kernel

theorem witness_firmware_update :
    ((live.fw[0]?).map fun f => f.slots.length) = some 2 ∧ 0 ∈ hubs live ∧ managed live = true := by decide +kernel

theorem witness_spdm :
    spdmUp secured (.doe 0) = true ∧ spdmUp live .mctp = true ∧
      (let s := modLd live 0 fun l => { l with spdm := { l.spdm with exchanging := true } }
       (spdmOf s (.doe 0)).exchanging = true ∧ spdmUp s (.doe 0) = true) ∧ (spdmOf live (.doe 0)).exchanging = false := by
  decide +kernel

theorem witness_scan :
    { live with boot := { live.boot with stage := 0x7D } }.boot.stage = 0x7D ∧ live.boot.stage ≠ 0x7D ∧ (idcode live).getLsbD 0 = true := by
  decide +kernel

/-- R357: a sideband request wakes a hub that dozes. -/
theorem test_sideband_wakes :
    (let s := { live with tally := { live.tally with hubDoze := [true, true] } }
     (after .health s).tally.hubDoze) = [false, false] := by decide +kernel

theorem test_stage_query : (after .stageQuery live).wire.length = live.wire.length + 1 ∧
    (startupStat live).toNat % 256 = 0x0B := by decide +kernel

theorem witness_links_before_service :
    let s := { starting 6 with boot := { (starting 6).boot with mode := 1 } }
    linkHere s 5 = true ∧ s.pkg.linksDown.contains 5 = false ∧ startPair s = true ∧ linkHalf s 5 = some 1 ∧ linkHalf s 0x10 = none ∧
      (startHubs s).contains 1 = true ∧ startPair (starting 6) = false := by decide +kernel

/-- Half B of a pair returns. -/
def comingHalf : State :=
  { live with pkg := { live.pkg with mode := 1, half := [.serving, .returning] }, boot := { live.boot with returning := some (1, 5) } }

theorem witness_coming_back : comingBack comingHalf 1 = true ∧ comingBack live 1 = false := by decide +kernel

/-- The rails of an out half's fronds stand, so its return goes from stage 0x05 to stage 0x07 (R432, R451). -/
theorem test_return_with_standing_rails :
    (returnNext comingHalf 1 5).boot.returning = some (1, 7) ∧ (ioNext (returnNext comingHalf 1 5) 1).boot.returning = some (1, 8) := by
  decide +kernel

/-- A half whose frond is lost while it returns stays out (Table 1.7). -/
theorem test_lost_frond_ends_a_return :
    halfState (after (.frondLost 5) comingHalf) 1 = .out ∧ (after (.frondLost 5) comingHalf).boot.returning = none := by
  decide +kernel

/-! The spec's worked examples -/

/-- R53: key bit 100 compares with bit 11 of slice 1 in the entry's second row. Key bit 100 is bit 3 of byte 12, transmitted most
significant bit first (R16). -/
theorem test_key_bit_100 : keyRow (keyOfBytes (BitVec.ofNat 768 (2 ^ (8 * 12 + 3))) 0 10) 1 = BitVec.ofNat 80 (2 ^ (16 * 1 + 11)) := by
  decide +kernel

/-- Table 2.5: the hops of a walk. -/
theorem test_cascade_hops :
    [[2], [0, 1], [1, 4], [0, 2, 4], [0, 1, 2, 3, 4, 5]].map (fun l => (arcOf live l).2) = [0, 1, 3, 4, 5] := by decide +kernel

/-- *The Lookup Interface*: SQ_HEAD 0xFFFF_FFFE and SQ_TAIL 0 stand two slots apart. -/
theorem test_tail_wraps :
    (let s := withReg live (ringPage 0 + 0x40) 0x0808
     let s := { s with rings := [(0, { ringNew 0 0 with sqHead := 0xFFFFFFFE, sqTail := 0 })] }
     let s := withBytes s (slotAddr s 0 0xFFFFFFFE) 0x01 1
     (slotAddr s 0 0xFFFFFFFE, (mget (after (.submissionFetch 0) s).rings 0).map fun r => (r.sqHead, r.subs.length))) =
      (0x10000 + 8128, some (0xFFFFFFFF, 1)) := by decide +kernel

/-- *The Lookup Interface*: the completion of a hit at die 2, logical pan 1, row 1,000, on the second pass. -/
theorem test_completion_bytes :
    compNat (finalComp 0x0123 stHit 0 (posOf 2 (rowIndex 1 1000)) 0x8877665544332211) false = 0x8877665544332211008023E810000123 := by
  decide +kernel

/-- *Reset, Registers and Configuration*: pan 37 of frond2 is pan 5 of bed 1. -/
theorem test_tag_address : tagAddr 2 37 = 0x00811068 := by decide

/-- *The Tally*: 110 °C derates by 30 W and 107 °C by 12 W. -/
theorem test_derating : (derateOf 440, derateOf 428) = (30000, 12000) := by decide

end Sys2Proof.Tests
end

section
/-! Bits of a key's 16-bit pieces in transmission order (R16, R17): a piece that starts at key bit o lies across slices o / 16 and
o / 16 + 1 of the key, and o % 16 says how far into the first of them it starts. -/

namespace Sys2Proof
open Sys2Proof.Machine

/-- Within slice q the bit order is reversed: the first transmitted bit is the most significant (R16). -/
theorem keyBit_slice (key : Key) (q : Nat) {j : Nat} (hj : j < 16) :
    keyBit key (16 * q + j) = key.getLsbD (16 * q + (15 - j)) := by
  have hq : (16 * q + j) / 16 = q := by omega
  have hr : (16 * q + j) % 16 = j := by omega
  rw [keyBit, hq, hr]

/-- The low o % 16 bits of a piece are the top of the second slice it lies in, the others the bottom of the first. -/
theorem field16_getLsbD (key : Key) (o : Nat) {i : Nat} (hi : i < 16) :
    (field16 key o).getLsbD i =
      if i < o % 16 then key.getLsbD (16 * (o / 16 + 1) + (16 - o % 16 + i))
      else key.getLsbD (16 * (o / 16) + (i - o % 16)) := by
  have hr : o % 16 < 16 := Nat.mod_lt o (by decide)
  rw [field16, BitVec.getLsbD_setWidth, BitVec.getLsbD_ushiftRight, BitVec.getLsbD_append]
  split_ifs with hlow hcross hcross
  · have hidx : 16 - o % 16 + i < 16 := by omega
    simp [hi, hidx]
  · omega
  · omega
  · have hidx : 16 - o % 16 + i - 16 = i - o % 16 := by omega
    have hlt : i - o % 16 < 16 := by omega
    simp [hi, hidx, hlt]

/-- Settles O16: key bit o + k lies in the second slice of the piece exactly when k reaches past the first one's end. -/
theorem sluicePieceStandsByTransmissionOrder : Obligations.SluicePieceStandsByTransmissionOrder := by
  intro key o k _ hk
  rw [field16_getLsbD key o (by omega)]
  split_ifs with hcross
  · have hpos : o + k = 16 * (o / 16 + 1) + (o % 16 + k - 16) := by omega
    have hbit : 16 - o % 16 + (15 - k) = 15 - (o % 16 + k - 16) := by omega
    rw [hpos, keyBit_slice key _ (by omega), hbit]
  · have hpos : o + k = 16 * (o / 16) + (o % 16 + k) := by omega
    have hbit : 15 - k - o % 16 = 15 - (o % 16 + k) := by omega
    rw [hpos, keyBit_slice key _ (by omega), hbit]

end Sys2Proof
end

section
/-! Every step keeps the block sound: what one command may touch and keeps, for all commands at once, then a step, then reset. In these
sections theorems are elaborated one at a time: the stacks of many at once pass the check's memory. -/

namespace Sys2Proof.Machine
set_option Elab.async false

/-- The pieces of the state that a command may touch: every piece but the part's identity and the queue. -/
def commandPieces : List Piece :=
  [.pins, .jtag, .fw, .boot, .store, .pkg, .clock, .ports, .lds, .mctp, .seats, .steward, .extents, .keys, .mem, .coh, .fronds,
    .tables, .rings, .searches, .jobs, .nextId, .disp, .covs, .tally, .life, .log, .harvest, .regs, .wire, .freeCtr]

/-- The frame laws of all the meanings as one law of the dispatcher. -/
theorem exec_keeps : ∀ {c : Instr} {s t : State}, exec c s = .next t → Keeps commandPieces s t
  | .submissionFetch _, _, _, h => execSubmissionFetch_keeps (by decide) h (.refl _ _)
  | .searchShort _, _, _, h => execSearchShort_keeps (by decide) h (.refl _ _)
  | .searchLong _, _, _, h => execSearchLong_keeps (by decide) h (.refl _ _)
  | .fetchAdd _, _, _, h => execFetchAdd_keeps (by decide) h (.refl _ _)
  | .swap _, _, _, h => execSwap_keeps (by decide) h (.refl _ _)
  | .cmpSwap _, _, _, h => execCmpSwap_keeps (by decide) h (.refl _ _)
  | .localResult _ _ _, _, _, h => execLocalResult_keeps (by decide) h (.refl _ _)
  | .farDataPrefetchFill _ _, _, _, h => execFarDataPrefetchFill_keeps (by decide) h (.refl _ _)
  | .nearDataRead _ _, _, _, h => execNearDataRead_keeps (by decide) h (.refl _ _)
  | .cascadeResolution _, _, _, h => execCascadeResolution_keeps (by decide) h (.refl _ _)
  | .cascadeTimeout _, _, _, h => execCascadeTimeout_keeps (by decide) h (.refl _ _)
  | .hitCounterIncrement _, _, _, h => execHitCounterIncrement_keeps (by decide) h (.refl _ _)
  | .crozierWake _ _, _, _, h => execCrozierWake_keeps (by decide) h (.refl _ _)
  | .tagRestore _ _, _, _, h => execTagRestore_keeps (by decide) h (.refl _ _)
  | .rowRepairRecord _ _, _, _, h => execRowRepairRecord_keeps (by decide) h (.refl _ _)
  | .ringEnable _ _ _, _, _, h => execRingEnable_keeps (by decide) h (.refl _ _)
  | .ringReady _, _, _, h => execRingReady_keeps (by decide) h (.refl _ _)
  | .ringDisable _ _ _, _, _, h => execRingDisable_keeps (by decide) h (.refl _ _)
  | .ringIdle _, _, _, h => execRingIdle_keeps (by decide) h (.refl _ _)
  | .sqTailWrite _ _ _ _, _, _, h => execSqTailWrite_keeps (by decide) h (.refl _ _)
  | .cqHeadWrite _ _ _ _, _, _, h => execCqHeadWrite_keeps (by decide) h (.refl _ _)
  | .irqArmWrite _ _ _ _, _, _, h => execIrqArmWrite_keeps (by decide) h (.refl _ _)
  | .tableCreate _, _, _, h => execTableCreate_keeps (by decide) h (.refl _ _)
  | .tableDestroy _, _, _, h => execTableDestroy_keeps (by decide) h (.refl _ _)
  | .tableDestroyDone _, _, _, h => execTableDestroyDone_keeps (by decide) h (.refl _ _)
  | .tableRange _, _, _, h => execTableRange_keeps (by decide) h (.refl _ _)
  | .entryInvalidate _, _, _, h => execEntryInvalidate_keeps (by decide) h (.refl _ _)
  | .entryWrite _, _, _, h => execEntryWrite_keeps (by decide) h (.refl _ _)
  | .entryValidate _, _, _, h => execEntryValidate_keeps (by decide) h (.refl _ _)
  | .nearWrite _, _, _, h => execNearWrite_keeps (by decide) h (.refl _ _)
  | .entrySet _, _, _, h => execEntrySet_keeps (by decide) h (.refl _ _)
  | .entryRead _, _, _, h => execEntryRead_keeps (by decide) h (.refl _ _)
  | .sluiceSet _, _, _, h => execSluiceSet_keeps (by decide) h (.refl _ _)
  | .rakeMove _, _, _, h => execRakeMove_keeps (by decide) h (.refl _ _)
  | .rakeMoveStart _, _, _, h => execRakeMoveStart_keeps (by decide) h (.refl _ _)
  | .rakeEntryStep _, _, _, h => execRakeEntryStep_keeps (by decide) h (.refl _ _)
  | .rakeQuery _, _, _, h => execRakeQuery_keeps (by decide) h (.refl _ _)
  | .rakeCancel _, _, _, h => execRakeCancel_keeps (by decide) h (.refl _ _)
  | .bulkLoad _, _, _, h => execBulkLoad_keeps (by decide) h (.refl _ _)
  | .bulkLoadStep _, _, _, h => execBulkLoadStep_keeps (by decide) h (.refl _ _)
  | .snapshot _, _, _, h => execSnapshot_keeps (by decide) h (.refl _ _)
  | .stats _, _, _, h => execStats_keeps (by decide) h (.refl _ _)
  | .counterRead _, _, _, h => execCounterRead_keeps (by decide) h (.refl _ _)
  | .counterClear _, _, _, h => execCounterClear_keeps (by decide) h (.refl _ _)
  | .hostLinkTraining _ _ _ _ _ _, _, _, h => execHostLinkTraining_keeps (by decide) h (.refl _ _)
  | .hostLinkDown _ _, _, _, h => execHostLinkDown_keeps (by decide) h (.refl _ _)
  | .ideCheckFail _ _, _, _, h => execIdeCheckFail_keeps (by decide) h (.refl _ _)
  | .ideKeyManagement _ _ _, _, _, h => execIdeKeyManagement_keeps (by decide) h (.refl _ _)
  | .mldPortBind _ _, _, _, h => execMldPortBind_keeps (by decide) h (.refl _ _)
  | .mldPortUnbind _ _, _, _, h => execMldPortUnbind_keeps (by decide) h (.refl _ _)
  | .hdmDecoderCommit _ _ _, _, _, h => execHdmDecoderCommit_keeps (by decide) h (.refl _ _)
  | .cxlMemEnableSet _, _, _, h => execCxlMemEnableSet_keeps (by decide) h (.refl _ _)
  | .cxlMemEnableClear _, _, _, h => execCxlMemEnableClear_keeps (by decide) h (.refl _ _)
  | .addDynamicCapacity _ _, _, _, h => execAddDynamicCapacity_keeps (by decide) h (.refl _ _)
  | .releaseDynamicCapacity _ _, _, _, h => execReleaseDynamicCapacity_keeps (by decide) h (.refl _ _)
  | .forcedRelease _ _ _, _, _, h => execForcedRelease_keeps (by decide) h (.refl _ _)
  | .cxlMemReadShared _ _ _, _, _, h => execCxlMemReadShared_keeps (by decide) h (.refl _ _)
  | .cxlMemReadAny _ _ _, _, _, h => execCxlMemReadAny_keeps (by decide) h (.refl _ _)
  | .cxlMemFullWrite _ _ _ _, _, _, h => execCxlMemFullWrite_keeps (by decide) h (.refl _ _)
  | .cxlMemPartialWrite _ _ _ _ _, _, _, h => execCxlMemPartialWrite_keeps (by decide) h (.refl _ _)
  | .cxlMemCleanEvict _ _, _, _, h => execCxlMemCleanEvict_keeps (by decide) h (.refl _ _)
  | .tierWindow _, _, _, h => execTierWindow_keeps (by decide) h (.refl _ _)
  | .pageColdAge _ _, _, _, h => execPageColdAge_keeps (by decide) h (.refl _ _)
  | .pageMigrationSwitch _ _, _, _, h => execPageMigrationSwitch_keeps (by decide) h (.refl _ _)
  | .pageCompression _ _ _, _, _, h => execPageCompression_keeps (by decide) h (.refl _ _)
  | .mediaWaitExpire _, _, _, h => execMediaWaitExpire_keeps (by decide) h (.refl _ _)
  | .keysZeroSlot _ _, _, _, h => execKeysZeroSlot_keeps (by decide) h (.refl _ _)
  | .keysZeroAll _ _, _, _, h => execKeysZeroAll_keeps (by decide) h (.refl _ _)
  | .rds _ _ _, _, _, h => execRds_keeps (by decide) h (.refl _ _)
  | .rdown _ _ _, _, _, h => execRdown_keeps (by decide) h (.refl _ _)
  | .upg _ _, _, _, h => execUpg_keeps (by decide) h (.refl _ _)
  | .wbdata _ _, _, _, h => execWbdata_keeps (by decide) h (.refl _ _)
  | .evictclean _ _, _, _, h => execEvictclean_keeps (by decide) h (.refl _ _)
  | .fwds _ _, _, _, h => execFwds_keeps (by decide) h (.refl _ _)
  | .fwdown _ _, _, _, h => execFwdown_keeps (by decide) h (.refl _ _)
  | .inv _ _, _, _, h => execInv_keeps (by decide) h (.refl _ _)
  | .cohTransactionDone _ _, _, _, h => execCohTransactionDone_keeps (by decide) h (.refl _ _)
  | .bisnpResponse _ _ _, _, _, h => execBisnpResponse_keeps (by decide) h (.refl _ _)
  | .cohBiTimeout _ _, _, _, h => execCohBiTimeout_keeps (by decide) h (.refl _ _)
  | .cohRetryLong _ _ _, _, _, h => execCohRetryLong_keeps (by decide) h (.refl _ _)
  | .injRowData _ _ _, _, _, h => execInjRowData_keeps (by decide) h (.refl _ _)
  | .injRowMask _ _ _, _, _, h => execInjRowMask_keeps (by decide) h (.refl _ _)
  | .injRowValid _ _ _, _, _, h => execInjRowValid_keeps (by decide) h (.refl _ _)
  | .injRowCheck _ _ _, _, _, h => execInjRowCheck_keeps (by decide) h (.refl _ _)
  | .injNearData _ _ _, _, _, h => execInjNearData_keeps (by decide) h (.refl _ _)
  | .injSluiceTag _ _ _, _, _, h => execInjSluiceTag_keeps (by decide) h (.refl _ _)
  | .injSramLine _ _ _, _, _, h => execInjSramLine_keeps (by decide) h (.refl _ _)
  | .injDirtyTwins _ _ _, _, _, h => execInjDirtyTwins_keeps (by decide) h (.refl _ _)
  | .injDirectory _ _ _, _, _, h => execInjDirectory_keeps (by decide) h (.refl _ _)
  | .injDramOneDevice _ _ _, _, _, h => execInjDramOneDevice_keeps (by decide) h (.refl _ _)
  | .injDramTwoDevices _ _ _, _, _, h => execInjDramTwoDevices_keeps (by decide) h (.refl _ _)
  | .injPoison _ _ _, _, _, h => execInjPoison_keeps (by decide) h (.refl _ _)
  | .injShadowRecord _ _ _, _, _, h => execInjShadowRecord_keeps (by decide) h (.refl _ _)
  | .scrubSlot _, _, _, h => execScrubSlot_keeps (by decide) h (.refl _ _)
  | .patrolScrub _ _ _ _, _, _, h => execPatrolScrub_keeps (by decide) h (.refl _ _)
  | .repairFence _ _ _, _, _, h => execRepairFence_keeps (by decide) h (.refl _ _)
  | .repairRetire _ _ _, _, _, h => execRepairRetire_keeps (by decide) h (.refl _ _)
  | .repairRetireNoSpare _ _ _, _, _, h => execRepairRetireNoSpare_keeps (by decide) h (.refl _ _)
  | .panSpareSwitch _, _, _, h => execPanSpareSwitch_keeps (by decide) h (.refl _ _)
  | .panBistDone _ _, _, _, h => execPanBistDone_keeps (by decide) h (.refl _ _)
  | .memretGo _ _ _, _, _, h => execMemretGo_keeps (by decide) h (.refl _ _)
  | .dramRowRetired _ _, _, _, h => execDramRowRetired_keeps (by decide) h (.refl _ _)
  | .dramChannelLost _ _, _, _, h => execDramChannelLost_keeps (by decide) h (.refl _ _)
  | .sessChallenge _, _, _, h => execSessChallenge_keeps (by decide) h (.refl _ _)
  | .sessOpen _, _, _, h => execSessOpen_keeps (by decide) h (.refl _ _)
  | .sessClose _, _, _, h => execSessClose_keeps (by decide) h (.refl _ _)
  | .sessNonceExpire _, _, _, h => execSessNonceExpire_keeps (by decide) h (.refl _ _)
  | .sessIdleExpire _, _, _, h => execSessIdleExpire_keeps (by decide) h (.refl _ _)
  | .sessLockoutEnd _, _, _, h => execSessLockoutEnd_keeps (by decide) h (.refl _ _)
  | .secretSet _, _, _, h => execSecretSet_keeps (by decide) h (.refl _ _)
  | .seatsSecretClr _ _, _, _, h => execSeatsSecretClr_keeps (by decide) h (.refl _ _)
  | .stewardClaim _ _, _, _, h => execStewardClaim_keeps (by decide) h (.refl _ _)
  | .stewardTake _, _, _, h => execStewardTake_keeps (by decide) h (.refl _ _)
  | .stewardHandover _, _, _, h => execStewardHandover_keeps (by decide) h (.refl _ _)
  | .grant _, _, _, h => execGrant_keeps (by decide) h (.refl _ _)
  | .revoke _, _, _, h => execRevoke_keeps (by decide) h (.refl _ _)
  | .seatDetach _, _, _, h => execSeatDetach_keeps (by decide) h (.refl _ _)
  | .seatLinkGraceExpire _, _, _, h => execSeatLinkGraceExpire_keeps (by decide) h (.refl _ _)
  | .detachDrainDone _, _, _, h => execDetachDrainDone_keeps (by decide) h (.refl _ _)
  | .detachFinish _, _, _, h => execDetachFinish_keeps (by decide) h (.refl _ _)
  | .covenantSet _, _, _, h => execCovenantSet_keeps (by decide) h (.refl _ _)
  | .covenantClear _, _, _, h => execCovenantClear_keeps (by decide) h (.refl _ _)
  | .covenantQuery _, _, _, h => execCovenantQuery_keeps (by decide) h (.refl _ _)
  | .keyLoad _, _, _, h => execKeyLoad_keeps (by decide) h (.refl _ _)
  | .fmTunnel _ _, _, _, h => execFmTunnel_keeps (by decide) h (.refl _ _)
  | .tableOwner _, _, _, h => execTableOwner_keeps (by decide) h (.refl _ _)
  | .getDigests _, _, _, h => execGetDigests_keeps (by decide) h (.refl _ _)
  | .getCertificate _ offset _, _, _, h => execGetCertificate_keeps (_offset := offset) (by decide) h (.refl _ _)
  | .challenge _ nonce, _, _, h => execChallenge_keeps (_nonce := nonce) (by decide) h (.refl _ _)
  | .getMeasurements _ _, _, _, h => execGetMeasurements_keeps (by decide) h (.refl _ _)
  | .keyExchange _ random, _, _, h => execKeyExchange_keeps (_random := random) (by decide) h (.refl _ _)
  | .finish _ _, _, _, h => execFinish_keeps (by decide) h (.refl _ _)
  | .tallyEpoch _, _, _, h => execTallyEpoch_keeps (by decide) h (.refl _ _)
  | .covBreachEnd _, _, _, h => execCovBreachEnd_keeps (by decide) h (.refl _ _)
  | .frondRelockDone _ _, _, _, h => execFrondRelockDone_keeps (by decide) h (.refl _ _)
  | .dieSleepDone _, _, _, h => execDieSleepDone_keeps (by decide) h (.refl _ _)
  | .dieWakeDone _ _, _, _, h => execDieWakeDone_keeps (by decide) h (.refl _ _)
  | .frondScrubDue _, _, _, h => execFrondScrubDue_keeps (by decide) h (.refl _ _)
  | .panRetentionEntry _ _, _, _, h => execPanRetentionEntry_keeps (by decide) h (.refl _ _)
  | .tallyLend, _, _, h => execTallyLend_keeps (by decide) h (.refl _ _)
  | .costRecalibrate _ _, _, _, h => execCostRecalibrate_keeps (by decide) h (.refl _ _)
  | .thermTrip _ _, _, _, h => execThermTrip_keeps (by decide) h (.refl _ _)
  | .hpwrPadrel _ _ _, _, _, h => execHpwrPadrel_keeps (by decide) h (.refl _ _)
  | .clkXtalFail _, _, _, h => execClkXtalFail_keeps (by decide) h (.refl _ _)
  | .clkXtalOk, _, _, h => execClkXtalOk_keeps (by decide) h (.refl _ _)
  | .clkRefLost, _, _, h => execClkRefLost_keeps (by decide) h (.refl _ _)
  | .timeCalWrite _ _, _, _, h => execTimeCalWrite_keeps (by decide) h (.refl _ _)
  | .registerWrite _ _, _, _, h => execRegisterWrite_keeps (by decide) h (.refl _ _)
  | .unimplementedAccess _ _ _, _, _, h => execUnimplementedAccess_keeps (by decide) h (.refl _ _)
  | .rcRegisterRead _ _, _, _, h => execRcRegisterRead_keeps (by decide) h (.refl _ _)
  | .multiwordW0Read _ _, _, _, h => execMultiwordW0Read_keeps (by decide) h (.refl _ _)
  | .stageCommit _ _ _, _, _, h => execStageCommit_keeps (by decide) h (.refl _ _)
  | .stageCommitApply _, _, _, h => execStageCommitApply_keeps (by decide) h (.refl _ _)
  | .guardedWrite _ _ _, _, _, h => execGuardedWrite_keeps (by decide) h (.refl _ _)
  | .guardedWriteTimeout _ _, _, _, h => execGuardedWriteTimeout_keeps (by decide) h (.refl _ _)
  | .cfgRefWrite _ _ _, _, _, h => execCfgRefWrite_keeps (by decide) h (.refl _ _)
  | .cfgSigPass _, _, _, h => execCfgSigPass_keeps (by decide) h (.refl _ _)
  | .cfgRestore _, _, _, h => execCfgRestore_keeps (by decide) h (.refl _ _)
  | .cfgVoteFix _ _ _ _, _, _, h => execCfgVoteFix_keeps (by decide) h (.refl _ _)
  | .arrReadArray _ _ _, _, _, h => execArrReadArray_keeps (by decide) h (.refl _ _)
  | .arrWriteSlice _ _ _, _, _, h => execArrWriteSlice_keeps (by decide) h (.refl _ _)
  | .arrReadShadow _ _ _, _, _, h => execArrReadShadow_keeps (by decide) h (.refl _ _)
  | .arrClear _ _ _, _, _, h => execArrClear_keeps (by decide) h (.refl _ _)
  | .pkgModeSel _ _, _, _, h => execPkgModeSel_keeps (by decide) h (.refl _ _)
  | .pkgReinit _ _, _, _, h => execPkgReinit_keeps (by decide) h (.refl _ _)
  | .halfTakeOut _ _, _, _, h => execHalfTakeOut_keeps (by decide) h (.refl _ _)
  | .halfReturn _ _, _, _, h => execHalfReturn_keeps (by decide) h (.refl _ _)
  | .halfMakePrimary _ _, _, _, h => execHalfMakePrimary_keeps (by decide) h (.refl _ _)
  | .pairResyncDone _ _, _, _, h => execPairResyncDone_keeps (by decide) h (.refl _ _)
  | .hportBif _ _ _, _, _, h => execHportBif_keeps (by decide) h (.refl _ _)
  | .hportDown _ _ _, _, _, h => execHportDown_keeps (by decide) h (.refl _ _)
  | .portDownDrainEnd _, _, _, h => execPortDownDrainEnd_keeps (by decide) h (.refl _ _)
  | .hportUp _ _ _, _, _, h => execHportUp_keeps (by decide) h (.refl _ _)
  | .ddrRate _ _ _ _, _, _, h => execDdrRate_keeps (by decide) h (.refl _ _)
  | .mramEraseConfig _ _ _, _, _, h => execMramEraseConfig_keeps (by decide) h (.refl _ _)
  | .mramEraseLog _ _ _, _, _, h => execMramEraseLog_keeps (by decide) h (.refl _ _)
  | .ledgerSync _ _, _, _, h => execLedgerSync_keeps (by decide) h (.refl _ _)
  | .ledgerSelWrite _ _, _, _, h => execLedgerSelWrite_keeps (by decide) h (.refl _ _)
  | .ledgerHourly, _, _, h => execLedgerHourly_keeps (by decide) h (.refl _ _)
  | .lifeAccumulate, _, _, h => execLifeAccumulate_keeps (by decide) h (.refl _ _)
  | .railExcursionBegin _ _, _, _, h => execRailExcursionBegin_keeps (by decide) h (.refl _ _)
  | .railExcursion _ _ _, _, _, h => execRailExcursion_keeps (by decide) h (.refl _ _)
  | .logSecondBoundary, _, _, h => execLogSecondBoundary_keeps (by decide) h (.refl _ _)
  | .mramSectorRefresh _ _, _, _, h => execMramSectorRefresh_keeps (by decide) h (.refl _ _)
  | .logSelWrite _ _, _, _, h => execLogSelWrite_keeps (by decide) h (.refl _ _)
  | .logRecordLoaded, _, _, h => execLogRecordLoaded_keeps (by decide) h (.refl _ _)
  | .harvestDumpDone _ _, _, _, h => execHarvestDumpDone_keeps (by decide) h (.refl _ _)
  | .harvestTake _ _, _, _, h => execHarvestTake_keeps (by decide) h (.refl _ _)
  | .harvestRelease _ _, _, _, h => execHarvestRelease_keeps (by decide) h (.refl _ _)
  | .harvestOfsWrite _ _, _, _, h => execHarvestOfsWrite_keeps (by decide) h (.refl _ _)
  | .fwFault _ _ _, _, _, h => execFwFault_keeps (by decide) h (.refl _ _)
  | .frondSvcOut _ _ _, _, _, h => execFrondSvcOut_keeps (by decide) h (.refl _ _)
  | .frondSvcIn _ _ _, _, _, h => execFrondSvcIn_keeps (by decide) h (.refl _ _)
  | .watripoEnable _ _, _, _, h => execWatripoEnable_keeps (by decide) h (.refl _ _)
  | .wSearch _ _ _, _, _, h => execWSearch_keeps (by decide) h (.refl _ _)
  | .wWriteSlice _ _ _, _, _, h => execWWriteSlice_keeps (by decide) h (.refl _ _)
  | .wReadSlice _ _ _, _, _, h => execWReadSlice_keeps (by decide) h (.refl _ _)
  | .wValidate _ _ _, _, _, h => execWValidate_keeps (by decide) h (.refl _ _)
  | .wInvalidate _ _ _, _, _, h => execWInvalidate_keeps (by decide) h (.refl _ _)
  | .linkDown _, _, _, h => execLinkDown_keeps (by decide) h (.refl _ _)
  | .linkUp _, _, _, h => execLinkUp_keeps (by decide) h (.refl _ _)
  | .frondLost _, _, _, h => execFrondLost_keeps (by decide) h (.refl _ _)
  | .hubLost _, _, _, h => execHubLost_keeps (by decide) h (.refl _ _)
  | .porstNRelease _ _ _ _ _, _, _, h => execPorstNRelease_keeps (by decide) h (.refl _ _)
  | .porstNAssert, _, _, h => execPorstNAssert_keeps (by decide) h (.refl _ _)
  | .pgHub _, _, _, h => execPgHub_keeps (by decide) h (.refl _ _)
  | .pllLock _, _, _, h => execPllLock_keeps (by decide) h (.refl _ _)
  | .firmwareVerified _, _, _, h => execFirmwareVerified_keeps (by decide) h (.refl _ _)
  | .mramRecoveryDone _ _, _, _, h => execMramRecoveryDone_keeps (by decide) h (.refl _ _)
  | .pgFr _, _, _, h => execPgFr_keeps (by decide) h (.refl _ _)
  | .selftestDone _ _, _, _, h => execSelftestDone_keeps (by decide) h (.refl _ _)
  | .arrayFillDone _ _, _, _, h => execArrayFillDone_keeps (by decide) h (.refl _ _)
  | .dramTrainingDone _ _, _, _, h => execDramTrainingDone_keeps (by decide) h (.refl _ _)
  | .dramFillDone _ _, _, _, h => execDramFillDone_keeps (by decide) h (.refl _ _)
  | .stageLimitExpire _, _, _, h => execStageLimitExpire_keeps (by decide) h (.refl _ _)
  | .fwWatchdog _, _, _, h => execFwWatchdog_keeps (by decide) h (.refl _ _)
  | .pgFall _, _, _, h => execPgFall_keeps (by decide) h (.refl _ _)
  | .avsStepTimeout _ _, _, _, h => execAvsStepTimeout_keeps (by decide) h (.refl _ _)
  | .hostPerst _ _, _, _, h => execHostPerst_keeps (by decide) h (.refl _ _)
  | .orderlyPd, _, _, h => execOrderlyPd_keeps (by decide) h (.refl _ _)
  | .emergencyPd _, _, _, h => execEmergencyPd_keeps (by decide) h (.refl _ _)
  | .epdN, _, _, h => execEpdN_keeps (by decide) h (.refl _ _)
  | .restart, _, _, h => execRestart_keeps (by decide) h (.refl _ _)
  | .stageQuery, _, _, h => execStageQuery_keeps (by decide) h (.refl _ _)
  | .health, _, _, h => execHealth_keeps (by decide) h (.refl _ _)
  | .ledgerRead _, _, _, h => execLedgerRead_keeps (by decide) h (.refl _ _)
  | .logRead _, _, _, h => execLogRead_keeps (by decide) h (.refl _ _)
  | .pldmFirmwareUpdate _ _, _, _, h => execPldmFirmwareUpdate_keeps (by decide) h (.refl _ _)
  | .pldmPlatformMonitoring _, _, _, h => execPldmPlatformMonitoring_keeps (by decide) h (.refl _ _)
  | .mctpControl _, _, _, h => execMctpControl_keeps (by decide) h (.refl _ _)
  | .bypass, _, _, h => execBypass_keeps (by decide) h (.refl _ _)
  | .idcode, _, _, h => execIdcode_keeps (by decide) h (.refl _ _)
  | .samplePreload _, _, _, h => execSamplePreload_keeps (by decide) h (.refl _ _)
  | .extest, _, _, h => execExtest_keeps (by decide) h (.refl _ _)
  | .extestPulse, _, _, h => execExtestPulse_keeps (by decide) h (.refl _ _)
  | .extestTrain, _, _, h => execExtestTrain_keeps (by decide) h (.refl _ _)
  | .pgIo _, _, _, h => execPgIo_keeps (by decide) h (.refl _ _)
  | .writeBackDone _, _, _, h => execWriteBackDone_keeps (by decide) h (.refl _ _)
  | .addDynamicCapacityResponse _ _ _, _, _, h => execAddDynamicCapacityResponse_keeps (by decide) h (.refl _ _)
  | .clearEventRecords _ _ _, _, _, h => execClearEventRecords_keeps (by decide) h (.refl _ _)
  | .avsStepDone _, _, _, h => execAvsStepDone_keeps (by decide) h (.refl _ _)
  | .highTemperatureHoldEnd _, _, _, h => execHighTemperatureHoldEnd_keeps (by decide) h (.refl _ _)
  | .halfOutDrainEnd _, _, _, h => execHalfOutDrainEnd_keeps (by decide) h (.refl _ _)
  | .frondSvcInDone _ _, _, _, h => execFrondSvcInDone_keeps (by decide) h (.refl _ _)
  | .snapshotStep _, _, _, h => execSnapshotStep_keeps (by decide) h (.refl _ _)
  | .statsStep _, _, _, h => execStatsStep_keeps (by decide) h (.refl _ _)

/-- Taking the front command off the queue touches nothing that is held well formed. -/
theorem Sound.setPending {s : State} (h : Sound s) (rest : List Instr) : Sound { s with pending := rest } :=
  ⟨h.mem, h.hist, h.circ, h.fronds, h.ports, h.mode, h.bootMode, h.storeMode, h.sel, h.whole⟩

/-- A step is an idle step, or the front command on the queue's rest. -/
theorem step_cases {s t : State} (h : step s = .next t) :
    (s.pending = [] ∧ idleStep s = .next t) ∨
      ∃ c rest, s.pending = c :: rest ∧ exec c { s with pending := rest } = .next t := by
  unfold step at h
  split at h
  next hq => exact .inl ⟨hq, h⟩
  next c rest hq => exact .inr ⟨c, rest, hq, h⟩

/-- Settles O5: each of a step's two cases keeps what is well formed. -/
theorem everyStepKeepsTheBlockSound : Obligations.EveryStepKeepsTheBlockSound := by
  intro s t hs h
  obtain ⟨-, hidle⟩ | ⟨c, rest, -, hexec⟩ := step_cases h
  · exact (idleStep_keeps (kl := commandPieces) (by decide) hidle (.refl _ _)).sound hs
  · exact (exec_keeps hexec).sound (hs.setPending rest)

/-- Settles O6: the areas of the log are empty but for the births, and the part starts in whole mode. -/
theorem resetIsSound : Obligations.ResetIsSound where
  mem := by decide
  hist := by decide
  circ := by decide
  fronds := by decide
  ports := by decide
  mode := by decide
  bootMode := by decide
  storeMode := by decide
  sel := by decide
  whole := by decide

end Sys2Proof.Machine
end

section
/-! What the package's own work leaves in place. Deep inside a command or a failure only `raiseAt` writes `State.pkg`, and only its
last failure's code; no rake move, no held port ball changes. And once a half has been shut (its homes hold nothing and it mirrors
nothing), serving the other half's lines opens nothing at the shut half's homes again (R36, R432). -/

namespace Sys2Proof.Machine
set_option Elab.async false

/-- Nothing stands at a hub's homes: no copy, no filter entry, no transaction, and no twin but the home's own. -/
structure Bare (h : Nat) (c : Coh) : Prop where
  copies : ∀ e ∈ c.copies, e.1 / 32 % 2 ≠ h
  filt : ∀ e ∈ c.filt, e.1 % 2 ≠ h
  txns : ∀ e ∈ c.txns, e.1 % 2 ≠ h
  twin : ∀ x ∈ c.twin, x / 32 % 2 = h → x % 32 < 2

/-- A half is shut: its homes are bare, and in pair mode it applies no update. -/
structure Shut (h : Nat) (s : State) : Prop where
  idle : inPair s = true → mirrored s h = false
  bare : Bare h s.coh

/-- A frond's rake work. -/
def Frond.work (f : Frond) : Option Move × List Move := (f.move, f.moves)

/-- The package, the fronds' rake work and the held port balls stand as they were, but for the last failure's code, and a half that
may be named stays shut. -/
structure Steady (o : Option Nat) (s t : State) : Prop where
  pkg : t.pkg = { s.pkg with lastFail := t.pkg.lastFail }
  work : t.fronds.map Frond.work = s.fronds.map Frond.work
  balls : t.pins.heldPort = s.pins.heldPort
  bare : ∀ h, o = some h → Shut h s → Bare h t.coh

/-- A hub may be worked for while the named half is shut: it is another one. -/
def Open (o : Option Nat) (hub : Nat) : Prop := ∀ h, o = some h → hub < 2 ∧ hub ≠ h

theorem open_none (hub : Nat) : Open none hub := fun _ h => nomatch h

/-- A key of one home's map lies at that home. -/
theorem hkey_mod (line hub : Nat) : hkey line hub % 2 = hub % 2 := by unfold hkey; omega

theorem mem_of_mget {α : Type} {m : SMap α} {n : Nat} {v : α} (h : mget m n = some v) : (n, v) ∈ m := by
  induction m with
  | nil => cases h
  | cons e t ih =>
    simp only [mget] at h
    split at h
    · next hn => cases h; subst hn; exact List.mem_cons_self
    · split at h
      · cases h
      · exact List.mem_cons_of_mem _ (ih h)

theorem Bare.filt_none {h : Nat} {c : Coh} (hb : Bare h c) {line : Nat} {hub : Nat} (hh : hub % 2 = h) :
    mget c.filt (hkey line hub) = none := by
  by_contra hn
  obtain ⟨v, hv⟩ := Option.ne_none_iff_exists'.1 hn
  exact hb.filt _ (mem_of_mget hv) ((hkey_mod line hub).trans hh)

theorem Bare.txns_none {h : Nat} {c : Coh} (hb : Bare h c) {line : Nat} {hub : Nat} (hh : hub % 2 = h) :
    mget c.txns (hkey line hub) = none := by
  by_contra hn
  obtain ⟨v, hv⟩ := Option.ne_none_iff_exists'.1 hn
  exact hb.txns _ (mem_of_mget hv) ((hkey_mod line hub).trans hh)

/-- The pieces that Steady does not speak of. -/
def asidePieces : List Piece :=
  [.jtag, .fw, .boot, .store, .clock, .ports, .lds, .mctp, .seats, .steward, .extents, .keys, .mem, .tables, .rings, .searches,
    .jobs, .nextId, .disp, .covs, .tally, .life, .log, .harvest, .regs, .wire, .freeCtr]

section
variable {o : Option Nat} {k s t : State}

theorem Steady.refl (o : Option Nat) (s : State) : Steady o s s := ⟨rfl, rfl, rfl, fun _ _ h => h.bare⟩

theorem Steady.inPair (h : Steady o s t) : Machine.inPair t = Machine.inPair s := by
  unfold Machine.inPair; rw [h.pkg]

theorem Steady.mirrored (h : Steady o s t) (x : Nat) : Machine.mirrored t x = Machine.mirrored s x := by
  unfold Machine.mirrored serving; rw [h.pkg]

theorem Steady.shut (h : Steady o s t) {x : Nat} (hx : o = some x) (hs : Shut x s) : Shut x t :=
  ⟨fun hp => (h.mirrored x).trans (hs.idle (h.inPair.symm.trans hp)), h.bare x hx hs⟩

theorem Steady.trans {u : State} (h : Steady o s t) (g : Steady o t u) : Steady o s u :=
  ⟨by rw [g.pkg, h.pkg], g.work.trans h.work, g.balls.trans h.balls, fun x hx hs => g.bare x hx (h.shut hx hs)⟩

/-- An operation whose steadiness for a named half rests on that half being shut. -/
theorem Steady.of_shut (h : Steady o k s) (n : Steady none s t) (g : ∀ x, o = some x → Shut x s → Steady o s t) : Steady o k t :=
  h.trans ⟨n.pkg, n.work, n.balls, fun x hx hs => (g x hx hs).bare x hx hs⟩

theorem Steady.ite {c : Prop} [Decidable c] (h : Steady o k s) (g : Steady o k t) : Steady o k (if c then s else t) := by
  split <;> assumption

theorem Steady.foldl {α : Type} {f : State → α → State} {xs : List α} (h : Steady o k s)
    (hf : ∀ u, ∀ x ∈ xs, Steady o k u → Steady o k (f u x)) : Steady o k (xs.foldl f s) := by
  induction xs generalizing s with
  | nil => exact h
  | cons x xs ih => exact ih (hf s x List.mem_cons_self h) fun u y hy => hf u y (List.mem_cons_of_mem _ hy)

/-- A fold that carries a value beside the state. -/
theorem Steady.foldl_fst {α β : Type} {f : State × β → α → State × β} {xs : List α} {p : State × β} (h : Steady o k p.1)
    (hf : ∀ q, ∀ x ∈ xs, Steady o k q.1 → Steady o k (f q x).1) : Steady o k (xs.foldl f p).1 := by
  induction xs generalizing p with
  | nil => exact h
  | cons x xs ih => exact ih (hf p x List.mem_cons_self h) fun u y hy => hf u y (List.mem_cons_of_mem _ hy)

/-- An operation outside the package, the fronds, the pins and coherence. -/
theorem Steady.keep (h : Steady o k s) (e : Keeps asidePieces s t) : Steady o k t := by
  have hpkg : t.pkg = s.pkg := e.only .pkg (by decide)
  have hcoh : t.coh = s.coh := e.only .coh (by decide)
  have hfr : t.fronds = s.fronds := e.only .fronds (by decide)
  have hpins : t.pins = s.pins := e.only .pins (by decide)
  exact ⟨by rw [hpkg, h.pkg], by rw [hfr, h.work], by rw [hpins, h.balls], fun x hx hs => hcoh ▸ h.bare x hx hs⟩

/-- An update of fields outside the package, the fronds, the pins and coherence. -/
theorem Steady.same (h : Steady o k s) (hp : t.pkg = s.pkg := by rfl) (hf : t.fronds = s.fronds := by rfl)
    (hb : t.pins = s.pins := by rfl) (hc : t.coh = s.coh := by rfl) : Steady o k t :=
  h.trans ⟨by rw [hp], by rw [hf], by rw [hb], fun _ _ hs => hc ▸ hs.bare⟩

/-- A change of coherence that keeps a shut half's homes bare. -/
theorem Steady.coh (h : Steady o k s) {f : Coh → Coh} (hf : ∀ x, o = some x → Shut x s → Bare x (f s.coh)) :
    Steady o k (modCoh s f) :=
  h.trans ⟨rfl, rfl, rfl, hf⟩

/-- A change of coherence that adds no copy, filter entry, transaction or twin. -/
theorem Steady.coh_sub (h : Steady o k s) {f : Coh → Coh} (h1 : (f s.coh).copies ⊆ s.coh.copies := by exact fun _ x => x)
    (h2 : (f s.coh).filt ⊆ s.coh.filt := by exact fun _ x => x) (h3 : (f s.coh).txns ⊆ s.coh.txns := by exact fun _ x => x)
    (h4 : (f s.coh).twin ⊆ s.coh.twin := by exact fun _ x => x) : Steady o k (modCoh s f) :=
  h.coh fun _ _ hs => ⟨fun e m => hs.bare.copies e (h1 m), fun e m => hs.bare.filt e (h2 m), fun e m => hs.bare.txns e (h3 m),
    fun e m => hs.bare.twin e (h4 m)⟩

/-- What a change of one frond leaves of it, it leaves of all fronds. -/
theorem modFrond_map {α : Type} {g : Frond → α} {die : Nat} {f : Frond → Frond} (hg : ∀ x, g (f x) = g x) :
    (modFrond s die f).fronds.map g = s.fronds.map g := by
  rw [modFrond_fronds]
  split
  · refine List.ext_getElem (by simp) fun i _ _ => ?_
    simp only [List.getElem_map, List.getElem_modify]
    split
    · exact hg _
    · rfl
  · rfl

theorem frond_of_map {α : Type} {g : Frond → α} (h : t.fronds.map g = s.fronds.map g) (d : Nat) : g (frond t d) = g (frond s d) := by
  have hd := congrArg (fun l => l.getD (d - 2) (g frondReset)) h
  simpa only [List.getD_map, frond] using hd

/-- A change of a frond outside its rake work. -/
theorem Steady.frond (h : Steady o k s) (die : Nat) {f : Frond → Frond} (hf : ∀ x, (f x).work = x.work := by exact fun _ => rfl) :
    Steady o k (modFrond s die f) :=
  h.trans ⟨by simp, modFrond_map hf, by simp, fun _ _ hs => by simpa using hs.bare⟩

theorem Steady.arr (h : Steady o k s) (die : Nat) {f : FrondArray → FrondArray} : Steady o k (modArr s die f) := h.frond die

/-- A frond's enable. -/
theorem Steady.enFr (h : Steady o k s) (l : List Bool) : Steady o k { s with pins := { s.pins with enFr := l } } :=
  h.trans ⟨rfl, rfl, rfl, fun _ _ hs => hs.bare⟩

/-! Events -/

theorem Steady.raiseAt (h : Steady o k s) {tb code sev die seat extra count : Nat} {items : List (Nat × Nat)} {dst : Recip} :
    Steady o k (raiseAt s tb code sev die seat extra count items dst) := by
  have hd (r : EvRec) : Steady o k (deliver (logRecord s r) sev r dst) :=
    h.keep (deliver_keeps (by decide) (logRecord_keeps (by decide) (.refl _ _)))
  unfold Machine.raiseAt
  exact .ite ((hd _).trans ⟨rfl, rfl, rfl, fun _ _ hs => hs.bare⟩) (hd _)

theorem Steady.raiseFull (h : Steady o k s) {code sev die seat extra count : Nat} {items : List (Nat × Nat)} {dst : Recip} :
    Steady o k (raiseFull s code sev die seat extra count items dst) := h.raiseAt

theorem Steady.event (h : Steady o k s) {code sev die seat : Nat} {items : List (Nat × Nat)} {dst : Recip} :
    Steady o k (event s code sev die seat items dst) := h.raiseAt

end
end Sys2Proof.Machine
end

section
/-! Home storage, the line buffer and the device's own writes are steady (R246 to R283). -/

namespace Sys2Proof.Machine
set_option Elab.async false
section
variable {o : Option Nat} {k s t : State}

/-! Capacity and its covenants -/

theorem Steady.raiseKeyAbsent (h : Steady o k s) {a : Nat} : Steady o k (raiseKeyAbsent s a) := by
  unfold Machine.raiseKeyAbsent
  split
  · exact .ite h h.same.event
  · exact h

theorem Steady.covShort (h : Steady o k s) {id given short reason : Nat} : Steady o k (covShort s id given short reason) := by
  unfold Machine.covShort
  split
  · exact h
  · exact .ite h.same h.same.event

theorem Steady.covFull (h : Steady o k s) {id given : Nat} : Steady o k (covFull s id given) := h.same

theorem Steady.covEnd (h : Steady o k s) {id extra : Nat} : Steady o k (covEnd s id extra) := by
  unfold Machine.covEnd
  split
  · exact .ite h.same.raiseAt h
  · exact h

theorem Steady.capEvents (h : Steady o k s) : Steady o k (capEvents s) := by
  unfold Machine.capEvents
  exact (Steady.ite (Steady.ite h.event h).event (Steady.ite h.event h)).same

theorem Steady.capResolve (h : Steady o k s) : Steady o k (capResolve s) := by
  unfold Machine.capResolve
  exact (h.foldl fun _ _ _ g => .ite g.covEnd g).foldl fun _ _ _ g =>
    .ite (Steady.ite g g.same).covShort (Steady.ite g g.same).covFull

theorem Steady.capCheck (h : Steady o k s) : Steady o k (capCheck s) := h.capEvents.capResolve

/-! Back-invalidates -/

theorem Steady.openTxn (h : Steady o k s) {line hub : Nat} {req : CohReq} {wait : List Nat} {data : Bool}
    (hk : ∀ x, o = some x → hub % 2 ≠ x) : Steady o k (openTxn s line hub req wait data) := by
  unfold Machine.openTxn
  refine Steady.foldl (h.coh fun x hx hs => { hs.bare with txns := fun e he => ?_ }) fun _ _ _ g => g.same
  obtain rfl | he := mem_mput he
  · rw [hkey_mod]; exact hk x hx
  · exact hs.bare.txns e he

/-- A hub with a filter entry is not a shut half's. -/
theorem Shut.filt_apart {x : Nat} (hs : Shut x s) {line hub : Nat} {e : FiltEnt} (he : mget s.coh.filt (hkey line hub) = some e) :
    hub % 2 ≠ x := fun hh => by rw [hs.bare.filt_none hh] at he; cases he

/-- A hub with a transaction is not a shut half's. -/
theorem Shut.txns_apart {x : Nat} (hs : Shut x s) {line hub : Nat} {e : Txn} (he : mget s.coh.txns (hkey line hub) = some e) :
    hub % 2 ≠ x := fun hh => by rw [hs.bare.txns_none hh] at he; cases he

theorem Steady.putFilt (h : Steady o k s) {line hub : Nat} {e : FiltEnt} (hk : ∀ x, o = some x → hub % 2 ≠ x) :
    Steady o k (modCoh s fun c => { c with filt := mput c.filt (hkey line hub) e }) := by
  refine h.coh fun x hx hs => { hs.bare with filt := fun y hy => ?_ }
  obtain rfl | hy := mem_mput hy
  · rw [hkey_mod]; exact hk x hx
  · exact hs.bare.filt y hy

theorem Steady.dropFilt (h : Steady o k s) {key : Nat} : Steady o k (modCoh s fun c => { c with filt := mdel c.filt key }) :=
  h.coh_sub (h2 := fun _ he => mem_mdel he)

theorem Steady.filtCheck (h : Steady o k s) {line hub : Nat} : Steady o k (filtCheck s line hub) := by
  have key {p : Option Nat} (hk : ∀ x e, p = some x → mget s.coh.filt (hkey line hub) = some e → hub % 2 ≠ x) :
      Steady p s (Machine.filtCheck s line hub) := by
    unfold Machine.filtCheck
    split
    next e he =>
      have hk x (hx : p = some x) := hk x e hx he
      refine .ite (.refl _ _) ?_
      dsimp only
      split
      · exact ((Steady.refl p s).raiseFull.putFilt hk).dropFilt
      · exact ((Steady.refl p s).raiseFull.putFilt hk).openTxn hk
    · exact .refl _ _
  exact h.of_shut (key nofun) fun x hx hs => key fun y e hy he => by
    obtain rfl : x = y := Option.some.inj (hx.symm.trans hy)
    exact hs.filt_apart he

theorem Steady.needAt (h : Steady o k s) {line hub : Nat} {sOk : Bool} (e : needAt s line hub sOk = some t) : Steady o k t := by
  unfold Machine.needAt at e
  split_ifs at e with htxn hbad hheld
  · exact Option.some.inj e ▸ h
  · exact Option.some.inj e ▸ h.filtCheck
  · split at e
    · cases e
    · cases e
      obtain ⟨f, hf⟩ : ∃ f, mget s.coh.filt (hkey line hub) = some f := by
        rw [Bool.and_eq_true] at hheld
        exact Option.isSome_iff_exists.1 hheld.1
      exact h.of_shut ((Steady.refl none s).openTxn nofun) fun x hx hs => (Steady.refl o s).openTxn fun y hy => by
        obtain rfl : x = y := Option.some.inj (hx.symm.trans hy)
        exact hs.filt_apart hf

/-- A device need goes on from where its line's homes leave it. -/
theorem Steady.needLine (h : Steady o k s) {line : Nat} {sOk : Bool} : Steady o k ((needLine s line sOk).getD s) := by
  unfold Machine.needLine
  refine List.foldlRecOn (motive := fun r => Steady o k (Option.getD r s)) _ _ h fun r hr x _ => ?_
  split
  next e => exact hr.needAt e
  · exact hr

/-! Agents' copies -/

/-- A new copy stands at a home that is not shut. -/
theorem Steady.setCopy (h : Steady o k s) {line hub a : Nat} {c : Option CopySt}
    (hk : ∀ x, o = some x → c ≠ none → copyKey line hub a / 32 % 2 ≠ x) : Steady o k (setCopy s line hub a c) := by
  unfold Machine.setCopy
  refine h.coh fun x hx hs => { hs.bare with copies := fun e he => ?_, twin := fun y hy => ?_ }
  · cases c with
    | none => exact hs.bare.copies e (mem_mdel he)
    | some v =>
      obtain rfl | he := mem_mput he
      · exact hk x hx nofun
      · exact hs.bare.copies e he
  · split at hy
    next hd =>
      split at hy
      · exact hs.bare.twin y hy
      · obtain hy | hy := List.mem_append.1 hy
        · exact hs.bare.twin y hy
        · rw [List.mem_singleton.1 hy]
          refine fun hx' => absurd hx' (hk x hx ?_)
          rintro rfl
          cases hd
    · exact hs.bare.twin y (List.mem_of_mem_filter hy)

theorem Steady.dropCopy (h : Steady o k s) {line hub a : Nat} : Steady o k (Machine.setCopy s line hub a none) :=
  h.setCopy fun _ _ hc => absurd rfl hc

theorem Steady.setDir (h : Steady o k s) {line hub : Nat} : Steady o k (setDir s line hub) := by
  unfold Machine.setDir
  exact h.coh_sub

theorem Steady.dropSpec (h : Steady o k s) {line : Nat} : Steady o k (dropSpec s line) := h.coh_sub

theorem Steady.dropCopies (h : Steady o k s) {line hub : Nat} : Steady o k (dropCopies s line hub) :=
  h.coh_sub (h1 := List.filter_subset_self _) (h4 := List.filter_subset_self _)

theorem Steady.sendInv (h : Steady o k s) {line : Nat} {l : List Nat} : Steady o k (sendInv s line l) :=
  h.foldl fun _ _ _ g => g.same

theorem Steady.leave (h : Steady o k s) {line hub a : Nat} : Steady o k (leave s line hub a) := h.dropCopy.setDir

theorem Steady.setPoison (h : Steady o k s) {line hub : Nat} : Steady o k (setPoison s line hub) := h.same

theorem Steady.checkCopy (h : Steady o k s) {line hub a : Nat} {dirty : Bool} : Steady o k (checkCopy s line hub a dirty) := by
  unfold Machine.checkCopy
  dsimp only
  split
  · exact h
  · exact .ite h.coh_sub.setPoison.raiseFull h.coh_sub

theorem Steady.checkLine (h : Steady o k s) {line hub : Nat} : Steady o k (checkLine s line hub) :=
  h.checkCopy.foldl fun _ _ _ g => g.checkCopy

/-! The home's own copy, its write queue and the twins -/

theorem Steady.queueWb (h : Steady o k s) {line hub : Nat} : Steady o k (queueWb s line hub) := h.coh_sub

theorem Steady.mediaWrite (h : Steady o k s) {line hub : Nat} : Steady o k (mediaWrite s line hub) :=
  h.keep (mediaWrite_keeps (by decide) (.refl _ _))

theorem Steady.cleanHome (h : Steady o k s) {line hub : Nat} : Steady o k (cleanHome s line hub) := by
  unfold Machine.cleanHome
  exact (Steady.ite h.checkCopy.queueWb h.checkCopy.mediaWrite).coh_sub (h4 := List.filter_subset_self _)

theorem Steady.hubRoom (h : Steady o k s) {hub : Nat} : Steady o k (hubRoom s hub) := by
  unfold Machine.hubRoom
  refine .ite h ?_
  split
  · exact h.cleanHome
  · exact h

theorem Steady.toWb (h : Steady o k s) {line hub : Nat} : Steady o k (toWb s line hub) := h.hubRoom.queueWb

/-- An agent's dirty copy is cleaned at a home that is not shut. -/
theorem Steady.cleanCopy (h : Steady o k s) {x : Nat} (hk : ∀ y, o = some y → x / 32 % 2 = y → x % 32 < 2) :
    Steady o k (cleanCopy s x) := by
  unfold Machine.cleanCopy
  dsimp only
  split
  · exact h.cleanHome
  next ha =>
    refine (h.checkCopy.toWb.setCopy fun y hy _ hh => ha (hk y hy ?_)).setDir
    unfold copyKey hkey at hh
    omega

theorem Steady.twinRoom (h : Steady o k s) {x : Nat} : Steady o k (twinRoom s x) := by
  unfold Machine.twinRoom
  refine .ite h (.ite h.hubRoom ?_)
  split
  next y hy =>
    exact h.of_shut ((Steady.refl none s).cleanCopy nofun) fun z hz hs => (Steady.refl o s).cleanCopy fun w hw => by
      obtain rfl : z = w := Option.some.inj (hz.symm.trans hw)
      exact hs.bare.twin y (List.mem_of_find?_eq_some hy)
  · exact h

/-- A line is dirtied at a home that is not shut, or in the home's own copy. -/
theorem Steady.dirtied (h : Steady o k s) {x : Nat} (hk : ∀ y, o = some y → x / 32 % 2 = y → x % 32 < 2) :
    Steady o k (dirtied s x) := by
  unfold Machine.dirtied
  refine h.twinRoom.coh fun y hy hs => { hs.bare with twin := fun z hz => ?_ }
  obtain hz | hz := List.mem_append.1 hz
  · exact hs.bare.twin z (List.mem_of_mem_filter hz)
  · exact List.mem_singleton.1 hz ▸ hk y hy

theorem Steady.bufDrop (h : Steady o k s) {line hub : Nat} : Steady o k (bufDrop s line hub) := by
  unfold Machine.bufDrop
  dsimp only
  split
  · exact h
  · exact .ite (h.checkCopy.coh_sub (h4 := List.filter_subset_self _)).toWb (h.checkCopy.coh_sub (h4 := List.filter_subset_self _))

/-- The home's own copy is no agent's, so that dirtying it leaves a shut half bare. -/
theorem copyKey_home {hub : Nat} (hb : hub < 2) (line : Nat) : copyKey line hub hub % 32 < 2 := by
  unfold copyKey
  omega

theorem Steady.bufPut (h : Steady o k s) {line hub : Nat} {dirty : Bool} (hb : ∀ x, o = some x → hub < 2) :
    Steady o k (bufPut s line hub dirty) := by
  have room : Steady o k (if (s.coh.buf.filter fun e => e.1 % 2 == hub).length < 512 || mhas s.coh.buf (hkey line hub) then s
      else match (s.coh.buf.filter fun e => e.1 % 2 == hub).find? fun e => !e.2,
        (s.coh.buf.filter fun e => e.1 % 2 == hub).head? with
        | some e, _ => Machine.bufDrop s (e.1 / 2) hub
        | none, some e => Machine.bufDrop s (e.1 / 2) hub
        | none, none => s) := by
    refine .ite h ?_
    split
    · exact h.bufDrop
    · exact h.bufDrop
    · exact h
  unfold Machine.bufPut
  exact .ite (room.coh_sub.dirtied fun y hy _ => copyKey_home (hb y hy) line) room.coh_sub

theorem Steady.homeDrop (h : Steady o k s) {line hub : Nat} : Steady o k (homeDrop s line hub) := by
  unfold Machine.homeDrop
  exact .ite (h.bufDrop.checkCopy.coh_sub (h4 := List.filter_subset_self _)).toWb h.bufDrop

theorem Steady.dropEnginePage (h : Steady o k s) {page hub : Nat} : Steady o k (dropEnginePage s page hub) :=
  h.foldl fun _ _ _ g => g.leave

/-! What reads of the media meet -/

theorem Steady.poisonPage (h : Steady o k s) {page hub : Nat} : Steady o k (poisonPage s page hub) := by
  unfold Machine.poisonPage
  exact ((h.foldl fun _ _ _ g => g.setPoison).keep (makePlain_keeps (by decide) (.refl _ _))).dropEnginePage

theorem Steady.poisonMedia (h : Steady o k s) {line hub : Nat} : Steady o k (poisonMedia s line hub) := by
  unfold Machine.poisonMedia
  split
  · exact h.poisonPage
  · exact h.setPoison

theorem Steady.dramCe (h : Steady o k s) {hub line : Nat} {coord : BitVec 48} {injected : Bool} :
    Steady o k (dramCe s hub line coord injected) := by
  unfold Machine.dramCe dramCeAt
  have hl : Steady o k (if injected then s else modLedger s fun l => { l with dramCe := bump l.dramCe (rankIndex hub coord) 1 }) :=
    .ite h h.same
  exact .ite (hl.same).raiseFull hl.same

theorem Steady.dramUe (h : Steady o k s) {hub line : Nat} {coord : BitVec 48} {injected : Bool} :
    Steady o k (dramUe s hub line coord injected) := by
  unfold Machine.dramUe
  exact .ite h.raiseFull (.ite h h.raiseFull.poisonMedia)

theorem Steady.dramRead (h : Steady o k s) {line hub : Nat} {ecc : Ecc} {coord : BitVec 48} :
    Steady o k (dramRead s line hub ecc coord) := by
  unfold Machine.dramRead
  have hr : Steady o k (if mediaError s line hub = 0 then s else rewriteMedia s line hub) := .ite h h.same
  exact .ite hr.poisonMedia (.ite hr.dramUe (.ite hr.dramCe hr))

theorem Steady.pageMapLost (h : Steady o k s) {page hub : Nat} : Steady o k (pageMapLost s page hub) := by
  unfold Machine.pageMapLost
  exact (h.same.poisonPage).event

theorem Steady.homeSupply (h : Steady o k s) {line hub : Nat} {ecc : Ecc} : Steady o k (homeSupply s line hub ecc) := by
  unfold Machine.homeSupply
  have hm : Steady o k (if ecc = .mapLost then loseMap (Machine.checkCopy s line hub hub (homeDirty s line hub)) (pageOfLine line) hub
      else Machine.checkCopy s line hub hub (homeDirty s line hub)) := .ite h.checkCopy.same h.checkCopy
  exact .ite hm.pageMapLost (.ite hm.dramRead hm)

theorem Steady.supplyLine (h : Steady o k s) {line hub : Nat} : Steady o k (supplyLine s line hub) := by
  unfold Machine.supplyLine
  split
  · exact h.checkCopy
  · exact h.homeSupply

theorem Steady.dropOthers (h : Steady o k s) {line who : Nat} : Steady o k (dropOthers s line who) := by
  unfold Machine.dropOthers
  split
  · exact .ite h h.dropSpec
  · exact h

theorem Steady.readIn (h : Steady o k s) {who a n : Nat} : Steady o k (readIn s who a n) := by
  unfold Machine.readIn
  exact .ite h (h.foldl fun _ _ _ g => g.dropOthers.supplyLine)

/-! The device's own writes -/

theorem Steady.discardImage (h : Steady o k s) {page hub : Nat} : Steady o k (discardImage s page hub) := by
  unfold Machine.discardImage
  dsimp only
  generalize (match (pageAtHub s page hub).st with | .packed _ => true | _ => false) = packed
  have hp : Steady o k (if (pageAtHub s page hub).move = some .compress
      then setPage s page hub { pageAtHub s page hub with move := none } else s) := .ite h.same h
  exact .ite (Steady.ite hp.dramRead hp).dropEnginePage (.ite hp.dramRead hp)

theorem Steady.storeLine (h : Steady o k s) {line v be : Nat} : Steady o k (storeLine s line v be) := by
  have hs {u : State} (g : Steady o k u) : Steady o k (storeBytes u line v be) := by
    unfold storeBytes
    exact ((g.foldl fun _ _ _ g => g.keep (markKey_keeps (by decide) (pageWrite_keeps (by decide) (.refl _ _)))).same).dropSpec
  exact hs (h.foldl fun _ _ _ g => g.discardImage)

theorem Steady.clearDamage (h : Steady o k s) {line hub be : Nat} : Steady o k (clearDamage s line hub be) := by
  unfold Machine.clearDamage
  exact .ite h.coh_sub h

theorem Steady.dirEvent (h : Steady o k s) {line hub extra : Nat} : Steady o k (dirEvent s line hub extra) := by
  unfold Machine.dirEvent
  exact h.sendInv.raiseFull

theorem Steady.homeInv (h : Steady o k s) {line hub : Nat} : Steady o k (homeInv s line hub) := by
  unfold Machine.homeInv
  exact (Steady.ite h.dirEvent h).sendInv.dropCopies

theorem Steady.homeStore (h : Steady o k s) {line v be : Nat} : Steady o k (homeStore s line v be) := by
  unfold Machine.homeStore
  have hl : Steady o k ((homes s line).foldl (fun s x =>
      Machine.bufPut (Machine.clearDamage (Machine.homeInv (rekeyLine s line x) line x) line x be) line x true) s) :=
    h.foldl fun _ _ hx g => ((g.keep (rekeyLine_keeps (by decide) (.refl _ _))).homeInv.clearDamage).bufPut
      fun _ _ => homes_lt hx
  exact hl.storeLine.keep (wholeClear_keeps (by decide) (.refl _ _))

theorem Steady.homeWrite (h : Steady o k s) {line v be : Nat} : Steady o k (homeWrite s line v be) := by
  unfold Machine.homeWrite
  exact .ite h.same h.homeStore

theorem Steady.writeDevLine (h : Steady o k s) {who line v be : Nat} : Steady o k (writeDevLine s who line v be) := by
  unfold Machine.writeDevLine
  exact .ite h.raiseKeyAbsent (.ite h.homeWrite (.ite h.readIn h.readIn.homeWrite))

theorem Steady.devWrite (h : Steady o k s) {who a v n : Nat} : Steady o k (devWrite s who a v n) := by
  unfold Machine.devWrite
  exact (h.foldl fun _ _ _ g => g.writeDevLine).capCheck

/-! Completions -/

theorem Steady.writeComp (h : Steady o k s) {n : Nat} {c : Comp} : Steady o k (writeComp s n c) := by
  unfold Machine.writeComp
  split
  · exact h.devWrite.same.keep (ringVector_keeps (by decide) (.refl _ _))
  · exact h

theorem Steady.writeComps (h : Steady o k s) {n : Nat} {cs : List Comp} {ls : List Nat} :
    Steady o k (writeComps n cs s ls).1 := by
  induction cs generalizing s ls with
  | nil => exact h
  | cons c cs ih =>
    unfold Machine.writeComps
    dsimp only
    split
    · exact ih (h.keep (stopPoisoned_keeps (by decide) (.refl _ _)))
    · exact ih h.writeComp

theorem Steady.flushList (h : Steady o k s) {n : Nat} {cs : List (Nat × List Comp)} {ls : List Nat} :
    Steady o k (flushList n cs s ls).1 := by
  induction cs generalizing s ls with
  | nil => exact h
  | cons c cs ih =>
    unfold Machine.flushList
    dsimp only
    split
    · exact h
    · have hr := h.foldl (xs := stepLines s n c.2.length) (f := fun s l => Machine.readIn s (ringSeat s n) (64 * l) 64)
        fun _ _ _ g => g.readIn
      split
      · exact ih hr.writeComps
      · exact hr.foldl fun _ _ _ g => g.needLine

theorem Steady.poisonedEvent (h : Steady o k s) {n : Nat} : Steady o k (poisonedEvent s n) := by
  unfold Machine.poisonedEvent
  split
  · split
    · exact h.same.raiseFull
    · exact h
  · exact h

theorem Steady.flush (h : Steady o k s) {n : Nat} : Steady o k (flush s n) := by
  unfold Machine.flush
  split
  · exact ((h.flushList.same.foldl fun _ _ _ g => g.needLine).keep (reap_keeps (by decide) (.refl _ _))).poisonedEvent
  · exact h

theorem Steady.flushAll (h : Steady o k s) : Steady o k (flushAll s) := h.foldl fun _ _ _ g => g.flush

end
end Sys2Proof.Machine
end

section
/-! Serving requests at a home is steady: a named half stays shut while lines of the other half's homes are served (R255 to R263). -/

namespace Sys2Proof.Machine
set_option Elab.async false
section
variable {o : Option Nat} {k s t : State}

theorem Open.apart {hub : Nat} (ho : Open o hub) : ∀ x, o = some x → hub % 2 ≠ x := fun x hx => by
  have := ho x hx
  omega

theorem Open.lt {hub : Nat} (ho : Open o hub) : ∀ x, o = some x → hub < 2 := fun x hx => (ho x hx).1

/-- A copy of an agent's lies at the home whose line it is. -/
theorem Open.copyKey {hub a : Nat} (ho : Open o hub) (line : Nat) (ha : a < 32) :
    ∀ x, o = some x → copyKey line hub a / 32 % 2 ≠ x := fun x hx => by
  have := ho x hx
  unfold Machine.copyKey Machine.hkey
  omega

/-! Checks of the directory and the filter -/

theorem Steady.wakeDie (h : Steady o k s) {die : Nat} : Steady o k (wakeDie s die) := by
  unfold Machine.wakeDie
  extract_lets f u
  have hu : Steady o k u := by
    unfold u
    split
    · exact (h.frond die).keep (setSleepRes_keeps (by decide) (.refl _ _))
    · exact h
  refine .ite hu ?_
  have hw : Steady o k (modFrond (wakeHub u (halfOf die)) die fun f => { f with waking := true }) :=
    (hu.keep (wakeHub_keeps (by decide) (.refl _ _))).frond die
  split
  · exact hw.same
  · exact hw.enFr _
  · exact hw

theorem Steady.wakeHolders (h : Steady o k s) {line hub : Nat} : Steady o k (wakeHolders s line hub) :=
  h.foldl fun _ _ _ g => g.wakeDie

theorem Steady.invAll (h : Steady o k s) {line hub : Nat} {keep : Bool} : Steady o k (invAll s line hub keep) := by
  unfold Machine.invAll
  exact .ite h.wakeHolders.checkLine.sendInv.dropCopies.toWb h.wakeHolders.checkLine.sendInv.dropCopies

theorem Steady.settleDir (h : Steady o k s) {line hub : Nat} : Steady o k (settleDir s line hub) := by
  unfold Machine.settleDir dirCheck
  split
  · exact .ite h.dirEvent.invAll h
  · exact h

theorem Steady.settleFilt (h : Steady o k s) {line hub : Nat} : Steady o k (settleFilt s line hub) := .ite h.filtCheck h

/-! Transactions -/

theorem Steady.putTxn (h : Steady o k s) {line hub : Nat} {x : Txn} (hk : ∀ y, o = some y → hub % 2 ≠ y) :
    Steady o k (modCoh s fun c => { c with txns := mput c.txns (hkey line hub) x }) := by
  refine h.coh fun y hy hs => { hs.bare with txns := fun e he => ?_ }
  obtain rfl | he := mem_mput he
  · rw [hkey_mod]; exact hk y hy
  · exact hs.bare.txns e he

theorem Steady.dropTxn (h : Steady o k s) {key : Nat} : Steady o k (modCoh s fun c => { c with txns := mdel c.txns key }) :=
  h.coh_sub (h3 := fun _ he => mem_mdel he)

/-- A change of a transaction opens none. -/
theorem Steady.modTxn (h : Steady o k s) {line hub : Nat} {f : Txn → Txn} : Steady o k (modTxn s line hub f) := by
  refine h.coh fun y hy hs => { hs.bare with txns := fun e he => ?_ }
  simp only [mmod] at he
  split at he
  next x hx =>
    obtain rfl | he := mem_mput he
    · exact hs.bare.txns (hkey line hub, x) (mem_of_mget hx)
    · exact hs.bare.txns e he
  · exact hs.bare.txns e he

theorem Steady.enterRetry (h : Steady o k s) {hub line : Nat} {r : CohReq} {via : Via} (hk : ∀ y, o = some y → hub % 2 ≠ y) :
    Steady o k (enterRetry s hub line r via) := by
  have hr (l : List (Nat × CohReq × Nat)) : Steady o k (modCoh s fun c => { c with retry := c.retry.set hub l }) := h.coh_sub
  unfold Machine.enterRetry
  exact .ite h (.ite ((hr _).keep (setReg_keeps (by decide) (.refl _ _))) (.ite h (h.putTxn hk)))

theorem Steady.dirEntry (h : Steady o k s) {hub line : Nat} {r : CohReq} {via : Via} (hk : ∀ y, o = some y → hub % 2 ≠ y) :
    Steady o k (dirEntry s hub line r via).1 := by
  unfold Machine.dirEntry
  split
  · exact h
  · split
    · exact h.enterRetry hk
    · split
      · exact h
      · dsimp only
        exact h.invAll.coh_sub
      · exact h.enterRetry hk

theorem Steady.filtEntry (h : Steady o k s) {hub line : Nat} {r : CohReq} {via : Via} (hk : ∀ y, o = some y → hub % 2 ≠ y) :
    Steady o k (filtEntry s hub line r via).1 := by
  unfold Machine.filtEntry
  split
  · exact h
  · split
    · exact h.enterRetry hk
    · split
      · exact h
      · dsimp only
        split
        · exact h.coh_sub.dropFilt
        · exact (h.coh_sub.openTxn hk).enterRetry hk
      · exact h.enterRetry hk

theorem Steady.makeRoom (h : Steady o k s) {line hub : Nat} (e : makeRoom s line hub = some t) : Steady o k t := by
  unfold Machine.makeRoom at e
  split at e
  · exact Option.some.inj e ▸ h
  · split at e
    · cases e
    · split at e <;> cases e
      · exact h
      · exact h.invAll.coh_sub

/-! Agents' requests -/

/-- The engine that takes a page is one of its hub's. -/
theorem engineFor_lt {page hub a : Nat} (e : engineFor s page hub = some (t, a)) (hh : hub < 2) : a < 32 := by
  unfold engineFor at e
  dsimp only at e
  split at e
  next hf =>
    cases e
    have := List.mem_of_find?_eq_some hf
    simp only [List.mem_map, List.mem_range] at this
    omega
  · split at e
    · cases e; exact Nat.mod_lt _ (by decide)
    · cases e

theorem Steady.engineFor (h : Steady o k s) {page hub a : Nat} (e : engineFor s page hub = some (t, a)) : Steady o k t := by
  unfold Machine.engineFor at e
  dsimp only at e
  split at e
  · cases e; exact h
  · split at e
    · cases e; exact h.dropEnginePage
    · cases e

theorem Steady.bufferPage (h : Steady o k s) {line hub : Nat} (ho : Open o hub) : Steady o k (bufferPage s line hub) := by
  unfold Machine.bufferPage
  dsimp only
  split
  · exact h
  next u a e =>
    refine (h.engineFor e).foldl fun u l _ g => .ite g ?_
    split
    next v ev =>
      exact (((g.makeRoom ev).dropSpec).setCopy fun x hx _ => ho.copyKey l (engineFor_lt e (ho.lt x hx)) x hx).setDir
    · exact g

theorem Steady.supply (h : Steady o k s) {line hub : Nat} {ecc : Ecc} (ho : Open o hub) : Steady o k (supply s line hub ecc) := by
  unfold Machine.supply
  exact .ite (h.homeSupply.bufferPage ho) h.homeSupply

theorem Steady.grant (h : Steady o k s) {line hub a : Nat} {st : CopySt} (ho : Open o hub)
    (ha : ∀ x, o = some x → a < 32) : Steady o k (grant s line hub a st) := by
  unfold Machine.grant
  have hc : Steady o k (Machine.setDir (Machine.setCopy (if st = .m then Machine.twinRoom s (copyKey line hub a) else s) line hub a
      (some st)) line hub) :=
    ((Steady.ite h.twinRoom h).setCopy fun x hx _ => ho.copyKey line (ha x hx) x hx).setDir
  exact (Steady.ite hc hc.dropSpec.bufDrop).same

theorem Steady.openCmds (h : Steady o k s) {line hub : Nat} {req : CohReq} {cmds : List (Nat × CohCmd)}
    (hk : ∀ y, o = some y → hub % 2 ≠ y) : Steady o k (openCmds s line hub req cmds) := by
  unfold Machine.openCmds
  exact (h.putTxn hk).foldl fun _ _ _ g => .ite (g.same.wakeDie) g.same

theorem Steady.feed (h : Steady o k s) {line hub a : Nat} {ecc : Ecc} (ho : Open o hub) : Steady o k (feed s line hub a ecc) := by
  unfold Machine.feed
  split
  · exact h.checkCopy.same
  · exact h.supply ho

theorem Steady.agentGrant (h : Steady o k s) {line hub a : Nat} {own upg : Bool} (ho : Open o hub)
    (ha : ∀ x, o = some x → a < 32) : Steady o k (agentGrant s line hub a own upg) := by
  unfold Machine.agentGrant
  exact .ite (h.grant ho ha) ((h.grant ho ha).keep (countAccess_keeps (by decide) (.refl _ _)))

theorem Steady.dropHosts (h : Steady o k s) {line hub : Nat} {own : Bool} : Steady o k (dropHosts s line hub own) :=
  .ite h.dropFilt h

/-- An agent that may hold a line is one of Table 6.1. -/
theorem agentMayHold_lt {a line : Nat} (h : agentMayHold s a line = true) : a < 32 := by
  unfold agentMayHold at h
  simp only [Bool.and_eq_true, decide_eq_true_eq] at h
  omega

theorem Steady.agentServe (h : Steady o k s) {line hub a : Nat} {own upg : Bool} {ecc : Ecc} {via : Via} (ho : Open o hub) :
    Steady o k (agentServe s line hub a own upg ecc via) := by
  unfold Machine.agentServe
  dsimp only
  have hd := h.settleDir (line := line) (hub := hub)
  split
  · exact hd
  next hm =>
    have ha : a < 32 := agentMayHold_lt (by simpa using hm)
    refine .ite hd.raiseKeyAbsent (.ite (hd.openTxn ho.apart) ?_)
    have he := hd.dropHosts (line := line) (hub := hub) (own := own) |>.dirEntry (line := line) (r := .agent a own upg ecc)
      (via := via) ho.apart
    refine .ite he ?_
    split
    · exact (Steady.ite he (he.feed ho)).agentGrant ho fun _ _ => ha
    · exact (Steady.ite (he.supply ho) he).openCmds ho.apart

/-! The home's own ownership -/

theorem Steady.homeServe (h : Steady o k s) {line hub : Nat} (ho : Open o hub) : Steady o k (homeServe s line hub) := by
  unfold Machine.homeServe
  dsimp only
  split
  · have hd : Steady o k (Machine.dropHosts (Machine.settleDir s line hub) line hub true) := h.settleDir.dropHosts
    exact ((((Steady.ite (hd.supply ho) hd).wakeHolders.checkLine.dropSpec.foldl fun _ _ _ g => g.same).dropCopies).bufPut ho.lt).keep
      (countAccess_keeps (by decide) (.refl _ _))
  · exact h.settleDir.openTxn ho.apart

/-! Hosts' reads -/

theorem Steady.filtRecord (h : Steady o k s) {line hub seat : Nat} {a : Bool} (hk : ∀ y, o = some y → hub % 2 ≠ y) :
    Steady o k (filtRecord s line hub seat a) := by
  refine h.coh fun y hy hs => { hs.bare with filt := fun e he => ?_ }
  obtain rfl | he := mem_mput he
  · rw [hkey_mod]; exact hk y hy
  · exact hs.bare.filt e he

theorem mem_sharersOf {line hub a : Nat} (h : a ∈ sharersOf s line hub) : a < 32 := by
  have := List.mem_of_mem_filter h
  simp only [List.mem_map, List.mem_range] at this
  omega

theorem Steady.hostShare (h : Steady o k s) {line hub : Nat} (ho : Open o hub) : Steady o k (hostShare s line hub) := by
  unfold Machine.hostShare
  dsimp only
  split
  · exact h.wakeHolders.checkLine
  next l hl =>
    refine (h.wakeHolders.checkLine.foldl fun u a ha g => ?_).setDir
    have hk {c : Option CopySt} x (hx : o = some x) (_ : c ≠ none) := ho.copyKey line (mem_sharersOf ha) x hx
    split
    · exact g.setCopy hk
    · exact g.setCopy hk
    · exact g

theorem Steady.hostData (h : Steady o k s) {line hub recv : Nat} {seat : Option Nat} {ecc : Ecc} (ho : Open o hub) :
    Steady o k (hostData s line hub recv seat ecc) := by
  unfold Machine.hostData
  split
  · exact h.checkCopy.same
  · exact .ite h (h.supply ho)

theorem Steady.hostReadDone (h : Steady o k s) {line hub : Nat} {p : Place} {any : Bool} {hpa : BitVec 64} {ecc : Ecc}
    (ho : Open o hub) : Steady o k (hostReadDone s line hub p any hpa ecc) := by
  unfold Machine.hostReadDone
  extract_lets db seat s1 s2 s3 data s4 s5 s6
  have h3 : Steady o k s3 := (h.settleDir.dropOthers).hostData ho
  have h4 : Steady o k s4 := .ite h3.dropSpec.invAll.homeDrop (h3.hostShare ho)
  have h5 : Steady o k s5 := by
    unfold s5
    generalize seat = x
    cases x with
    | some n => exact .ite (h4.filtRecord ho.apart) h4
    | none => exact h4
  have h6 : Steady o k s6 := h5.keep (countAccess_keeps (by decide) (.refl _ _))
  exact .ite h6.same h6

theorem Steady.hostReadServe (h : Steady o k s) {line hub : Nat} {p : Place} {any : Bool} {hpa : BitVec 64} {ecc : Ecc} {via : Via}
    (ho : Open o hub) : Steady o k (hostReadServe s line hub p any hpa ecc via) := by
  unfold Machine.hostReadServe
  have ha : Steady o k (countAccess (Machine.raiseKeyAbsent s (64 * line)) (pageOfLine line) hub true) :=
    h.raiseKeyAbsent.keep (countAccess_keeps (by decide) (.refl _ _))
  exact .ite (.ite ha.same ha) (.ite (h.hostReadDone ho) (.ite (h.openTxn ho.apart)
    (.ite ((h.filtEntry ho.apart).hostReadDone ho) (h.filtEntry ho.apart))))

/-! Hosts' writes -/

theorem Steady.poisonWrite (h : Steady o k s) {seat dpa : Nat} : Steady o k (poisonWrite s seat dpa) := by
  unfold Machine.poisonWrite seatEvent
  split
  · exact .ite h.same.raiseFull h.same
  · exact h

theorem Steady.wholeWrite (h : Steady o k s) {line hub : Nat} (hb : ∀ x, o = some x → hub < 2) :
    Steady o k (wholeWrite s line hub) := by
  unfold Machine.wholeWrite
  have hc := h.coh_sub (f := fun c => { c with
    buf := mdel c.buf (hkey line hub), twin := c.twin.filter (· != copyKey line hub hub), damage := mdel c.damage (copyKey line hub hub) })
    (h4 := List.filter_subset_self _)
  exact .ite (hc.dirtied fun y hy _ => copyKey_home (hb y hy) line) (.ite hc.toWb hc.mediaWrite)

theorem Steady.hostStore (h : Steady o k s) {line hub : Nat} {data : Line} {be : BitVec 64} {poison full : Bool}
    (hb : ∀ x, o = some x → hub < 2) : Steady o k (hostStore s line hub data be poison full) := by
  unfold Machine.hostStore
  extract_lets s1 s2 s3 s4 s5
  have h1 : Steady o k s1 := h.foldl fun u x hx g => by
    have hf : Steady o k (modCoh (Machine.invAll (rekeyLine (Machine.settleDir u line x) line x) line x false) fun c =>
        { c with filt := mdel c.filt (hkey line x) }) :=
      ((g.settleDir.keep (rekeyLine_keeps (by decide) (.refl _ _))).invAll).dropFilt
    exact .ite hf (hf.clearDamage.bufPut fun _ _ => homes_lt hx)
  have h3 : Steady o k s3 := .ite ((h1.storeLine.wholeWrite hb).keep (clearPoison_keeps (by decide) (.refl _ _))) h1.storeLine
  have h4 : Steady o k s4 := .ite (h3.keep (setPoisonAll_keeps (by decide) (.refl _ _))) h3
  exact (h4.foldl fun _ _ _ g => g.keep (countAccess_keeps (by decide) (.refl _ _))).capCheck

theorem Steady.hostWriteNow (h : Steady o k s) {line hub : Nat} {p : Place} {data : Line} {be : BitVec 64} {poison full : Bool}
    (ho : Open o hub) : Steady o k (hostWriteNow s line hub p data be poison full).1 := by
  unfold Machine.hostWriteNow
  extract_lets seat zeros need zeroPage gone s1
  have hg {u : State} (g : Steady o k u) : Steady o k (gone u).1 := g.keep (countAccess_keeps (by decide) (.refl _ _))
  have h1 : Steady o k s1 := .ite h (h.hostData ho)
  split
  · exact hg h.raiseKeyAbsent
  · split
    · exact hg ((h1.keep (setPoisonAll_keeps (by decide) (.refl _ _))).keep (mediaEvent_keeps (by decide) (.refl _ _)))
    · split
      · exact hg h1.poisonWrite
      · split
        · exact h1.same
        · exact h1.hostStore ho.lt

theorem Steady.hostWriteDone (h : Steady o k s) {line hub : Nat} {p : Place} {data : Line} {be : BitVec 64} {poison full : Bool}
    (ho : Open o hub) : Steady o k (hostWriteDone s line hub p data be poison full) := by
  unfold Machine.hostWriteDone
  exact .ite (h.hostWriteNow ho).same (h.hostWriteNow ho)

end
end Sys2Proof.Machine
end

section
/-! Transactions, mirrored writes and departures are steady, and so is the end of what a lost half had asked of the other's homes
(R255 to R262, R432). -/

namespace Sys2Proof.Machine
set_option Elab.async false
section
variable {o : Option Nat} {k s t : State}

/-! Mirrored writes -/

theorem Steady.mirrorHold (h : Steady o k s) {line hub : Nat} (hk : ∀ x, o = some x → hub % 2 ≠ x) :
    Steady o k (mirrorHold s line hub) := .ite h (h.openTxn hk)

theorem Steady.holdMirrors (h : Steady o k s) {line : Nat} {hubs : List Nat} (ha : ∀ y ∈ hubs, ∀ x, o = some x → y % 2 ≠ x) :
    Steady o k (hubs.foldl (fun s h => Machine.mirrorHold s line h) s) := h.foldl fun _ _ hy g => g.mirrorHold (ha _ hy)

theorem Steady.mirrorData (h : Steady o k s) {line hub own : Nat} (hb : ∀ x, o = some x → hub < 2) :
    Steady o k (mirrorData s line hub own) := by
  unfold Machine.mirrorData
  dsimp only
  split
  · exact (h.settleDir.invAll.clearDamage.bufPut hb).dropFilt
  · exact (h.settleDir.invAll.clearDamage.bufPut hb).modTxn.foldl fun _ _ _ g => g.same

theorem Steady.mirrorTurn (h : Steady o k s) {line hub : Nat} (ho : Open o hub) : Steady o k (mirrorTurn s line hub) := by
  unfold Machine.mirrorTurn
  dsimp only
  split
  · split
    · split
      · exact (h.mirrorHold ho.apart).modTxn
      · exact (h.mirrorHold ho.apart).modTxn.mirrorData ho.lt
    · exact h
  · exact h

/-- Where some host must be asked before a write, the homes that mirror it hold the line: none of a shut half, whose filter names no host
(in whole mode) and which mirrors nothing (in pair mode). -/
theorem mirrorHomes_apart {x line hub h : Nat} (hs : Shut x s) (hx : hub < 2 ∧ hub ≠ x)
    (hw : ∃ n, n ∈ (homes s line).flatMap fun h => liveHolders s line h) (hh : h ∈ mirrorHomes s line hub) : h % 2 ≠ x := by
  rintro rfl
  have hm : h ∈ homes s line := List.mem_of_mem_filter hh
  have hh2 : h % 2 = h := Nat.mod_eq_of_lt (homes_lt hm)
  rw [hh2] at hs hx
  cases hp : inPair s with
  | true =>
    have hmir := hs.idle hp
    simp only [homes, hp, if_true, List.mem_filter] at hm
    simp [hmir] at hm
  | false =>
    simp only [homes, hp, Bool.false_eq_true, if_false, List.mem_singleton, List.flatMap_cons, List.flatMap_nil,
      List.append_nil] at hm hw
    rw [← hm] at hw
    obtain ⟨n, hn⟩ := hw
    have hn := List.mem_of_mem_filter hn
    simp [holders, hs.bare.filt_none hh2] at hn

theorem Steady.hostWriteServe (h : Steady o k s) {line hub : Nat} {p : Place} {data : Line} {be : BitVec 64} {poison full : Bool}
    (ho : Open o hub) : Steady o k (hostWriteServe s line hub p data be poison full) := by
  unfold Machine.hostWriteServe
  dsimp only
  split
  · exact (h.openTxn ho.apart).modTxn.modTxn
  · split
    · exact h.hostWriteDone ho
    next hw =>
      refine h.of_shut (((Steady.refl none s).openTxn nofun).modTxn.holdMirrors fun _ _ => nofun) fun x hx hs =>
        ((Steady.refl o s).openTxn ho.apart).modTxn.holdMirrors fun y hy z hz => ?_
      obtain rfl : x = z := Option.some.inj (hx.symm.trans hz)
      refine mirrorHomes_apart hs (ho x hx) ?_ hy
      obtain ⟨n, hn⟩ := List.exists_mem_of_ne_nil _ (mt List.isEmpty_iff.2 hw)
      exact ⟨n, List.mem_eraseDups.1 (List.mem_of_mem_filter hn)⟩

/-! Requests and their ends -/

theorem Steady.evictServe (h : Steady o k s) {line hub a : Nat} : Steady o k (evictServe s line hub a) := by
  unfold Machine.evictServe
  exact .ite h.settleDir.checkCopy.toWb.leave.dropSpec (.ite h.settleDir.leave h.settleDir)

theorem Steady.serveReq (h : Steady o k s) {line hub : Nat} {r : CohReq} {via : Via} (ho : Open o hub) :
    Steady o k (serveReq s line hub r via) := by
  cases r with
  | agent a own upg ecc => exact h.agentServe ho
  | hostRead p any hpa ecc => exact h.hostReadServe ho
  | home => exact h.homeServe ho
  | hostWrite p data be poison full => exact h.hostWriteServe ho
  | device => exact h
  | evict a => exact h.evictServe
  | mirror => exact h.mirrorTurn ho

theorem Steady.take (h : Steady o k s) {line hub : Nat} {r : CohReq} {via : Via} (ho : Open o hub) :
    Steady o k (take s line hub r via) := by
  unfold Machine.take
  dsimp only
  split
  · exact h.settleFilt.putTxn ho.apart
  · exact h.settleFilt.serveReq ho

theorem Steady.runQueue (h : Steady o k s) {line hub : Nat} {rs : List CohReq} (ho : Open o hub) :
    Steady o k (runQueue line hub rs s) := by
  induction rs generalizing s with
  | nil => exact h
  | cons r rs ih => exact ih (h.take ho)

theorem Steady.serveWaiter {x : State × Bool} (h : Steady o k x.1) {hub : Nat} {e : Nat × CohReq × Nat} (ho : Open o hub) :
    Steady o k (serveWaiter hub x e).1 := by
  obtain ⟨l, r, w⟩ := e
  obtain ⟨u, go⟩ := x
  unfold Machine.serveWaiter
  dsimp only
  rw [apply_ite Prod.fst, apply_ite Prod.fst]
  exact .ite h (.ite (h.take ho) ((h.take ho).coh_sub.keep (setReg_keeps (by decide) (.refl _ _))))

theorem Steady.serveRetry (h : Steady o k s) {line hub : Nat} (ho : Open o hub) : Steady o k (serveRetry s line hub) :=
  h.foldl fun u _ _ g => Steady.foldl_fst (p := (u, true)) g fun _ _ _ g => g.serveWaiter ho

theorem Steady.unpin (h : Steady o k s) {line hub : Nat} {queue : List CohReq} (ho : Open o hub) :
    Steady o k (unpin s line hub queue) := by
  unfold Machine.unpin
  exact (Steady.ite (h.runQueue ho) ((h.runQueue ho).serveRetry ho)).flushAll

/-- The other half's home holds no line while that half is shut. -/
theorem Steady.mirrorFree (h : Steady o k s) {line hub : Nat} (ho : Open o hub) : Steady o k (mirrorFree s line hub) := by
  unfold Machine.mirrorFree
  dsimp only
  split
  next t ht =>
    refine .ite (h.of_shut ((Steady.refl none s).dropTxn.unpin (open_none _)) fun x hx hs => ?_) h
    obtain ⟨hub2, hne⟩ := ho x hx
    have hx2 := hs.txns_apart ht
    refine (Steady.refl o s).dropTxn.unpin fun y hy => ?_
    obtain rfl : x = y := Option.some.inj (hx.symm.trans hy)
    omega
  · exact h

theorem Steady.fedGrant (h : Steady o k s) {line hub a : Nat} {own upg dirty : Bool} (ho : Open o hub) :
    Steady o k (fedGrant s line hub a own upg dirty) := by
  unfold Machine.fedGrant
  split
  next hm =>
    rw [Bool.and_eq_true] at hm
    exact h.agentGrant ho fun _ _ => agentMayHold_lt hm.1
  · exact (Steady.ite h.toWb h).setDir

theorem Steady.proceed (h : Steady o k s) {line hub : Nat} (ho : Open o hub) : Steady o k (proceed s line hub) := by
  unfold Machine.proceed
  split
  next t ht =>
    refine .ite h ?_
    extract_lets u n
    have hu : Steady o k u := h.dropTxn
    split
    · exact (hu.mirrorFree ho).unpin ho
    · exact hu.putTxn ho.apart
    · extract_lets v
      have hv : Steady o k v := by
        unfold v
        split
        · exact hu.fedGrant ho
        · exact hu.serveReq ho
      split
      · exact hv.putTxn ho.apart
      · exact .ite (hv.unpin ho) (hv.putTxn ho.apart)
  · exact h

theorem Steady.cmdDone (h : Steady o k s) {line hub a : Nat} {cmd : CohCmd} (ho : Open o hub) :
    Steady o k (cmdDone s line hub a cmd) := (h.modTxn (f := fun t => { t with cmds := t.cmds.erase (a, cmd) })).proceed ho

/-- What a shut half had asked of the other's home ends there. -/
theorem Steady.freeMirrors (h : Steady o k s) {hub : Nat} (ho : Open o hub) : Steady o k (freeMirrors s hub) := by
  refine h.foldl fun u e _ g => ?_
  split
  · exact .ite (g.dropTxn.unpin ho) (.ite (g.proceed ho) g)
  · exact g

/-! Hosts and agents that are gone -/

theorem Steady.filtRemove (h : Steady o k s) {line hub seat : Nat} : Steady o k (filtRemove s line hub seat) := by
  refine h.coh fun y hy hs => ?_
  extract_lets key
  split
  next e he =>
    extract_lets e2 names
    refine { hs.bare with filt := fun f hf => ?_ }
    cases hn : names.isEmpty <;> simp only [hn, Bool.false_eq_true, if_false, if_true] at hf
    · obtain rfl | hf := mem_mput hf
      · exact hs.bare.filt (key, e) (mem_of_mget he)
      · exact hs.bare.filt f hf
    · exact hs.bare.filt f (mem_mdel hf)
  · exact hs.bare

end

/-! Where no half need stay shut -/

section
variable {k s t : State}

theorem Steady.coh_any (h : Steady none k s) {f : Coh → Coh} : Steady none k (modCoh s f) := h.coh nofun

theorem Steady.answerAt (h : Steady none k s) {line hub seat : Nat} : Steady none k (answerAt s line hub seat) := by
  unfold Machine.answerAt
  split
  next t _ =>
    split
    · extract_lets w hs s1 s2
      have h2 : Steady none k s2 := by
        refine Steady.foldl (h.coh_any) fun u x _ g => .ite g.coh_any (.ite g.filtRemove.coh_any g.filtRemove)
      exact .ite (h2.proceed (open_none hub)) h2
    · exact h
  · exact h

theorem Steady.departLine (h : Steady none k s) {line hub seat : Nat} : Steady none k (departLine s line hub seat) := by
  unfold Machine.departLine
  refine Steady.filtRemove (Steady.foldl (Steady.ite h.setPoison h) fun u x _ g => ?_)
  split
  · exact .ite g.coh_any.answerAt g
  · exact g

theorem Steady.departSeat (h : Steady none k s) {seat : Nat} {test : Nat → Bool} : Steady none k (departSeat s seat test) :=
  h.foldl fun _ _ _ g => .ite g.departLine g

theorem Steady.linkLoss (h : Steady none k s) {port l : Nat} : Steady none k (linkLoss s port l) := by
  unfold Machine.linkLoss
  exact .ite (h.same.foldl fun _ _ _ g => g.departSeat) h

theorem Steady.loseAgent (h : Steady none k s) {a : Nat} {homes : List Nat} : Steady none k (loseAgent s a homes) := by
  have forget {u : State} {hub : Nat} (g : Steady none k u) : Steady none k (forgetAgent u a hub).1 := by
    unfold forgetAgent
    exact ((g.foldl fun _ _ _ g => g.setPoison).coh_any).foldl fun _ _ _ g => .ite g.setDir g
  have hat {hub : Nat} {x : State × Nat} (g : Steady none k x.1) : Steady none k (loseAgentAt a hub x).1 := by
    unfold loseAgentAt
    refine Steady.foldl (forget (Steady.foldl_fst g fun q e _ g => ?_)) fun u e _ g =>
      .ite (g.foldl fun _ _ _ g => g.cmdDone (open_none hub)) g
    dsimp only
    split
    · exact g.leave.setPoison
    · exact g.leave
  unfold Machine.loseAgent
  exact (Steady.foldl_fst (p := (s, 0)) h fun _ _ _ g => hat g).event

end
end Sys2Proof.Machine
end

section
/-! What ends the work of a lost die or half is steady: failed searches, moves and bulk operations, lost agents, flushed completions and
the covenants judged afterwards (R49, R84, R138, R262, R341). -/

namespace Sys2Proof.Machine
set_option Elab.async false
section
variable {o : Option Nat} {k s t : State}

/-! Array rows -/

theorem Steady.startRepair (h : Steady o k s) {die row : Nat} : Steady o k (startRepair s die row) := by
  unfold Machine.startRepair
  exact .ite h ((h.foldl fun _ _ _ g => g.arr die).arr die)

theorem Steady.poisonEntry (h : Steady o k s) {die row : Nat} : Steady o k (poisonEntry s die row) := by
  unfold Machine.poisonEntry
  exact .ite h ((h.foldl fun _ _ _ g => g.arr die).arr die).raiseFull

theorem Steady.countRepair (h : Steady o k s) {die row inj : Nat} : Steady o k (countRepair s die row inj) := by
  unfold Machine.countRepair
  exact .ite ((Steady.ite h.same h).arr die).raiseFull ((Steady.ite h.same h).arr die)

theorem Steady.takeInjected (h : Steady o k s) {die row : Nat} : Steady o k (takeInjected s die row).1 := by
  unfold Machine.takeInjected
  split
  · dsimp only
    exact h.arr die
  · exact h

theorem Steady.repairNear (h : Steady o k s) {die row : Nat} : Steady o k (repairNear s die row) := by
  unfold Machine.repairNear
  exact .ite (((h.takeInjected.arr die).arr die).keep (chargeRepair_keeps (by decide) (.refl _ _))).raiseFull.countRepair h.poisonEntry

theorem Steady.checkRow (h : Steady o k s) {die row : Nat} : Steady o k (checkRow s die row) :=
  .ite h.startRepair (.ite h.repairNear h)

/-! Searches -/

theorem Steady.judge (h : Steady o k s) {id : Nat} {q : Search} {t : Table} {res : List FRes} :
    Steady o k (judge s id q t res).1 := by
  have hr : Steady o k (readHits s id q.key t.rows res (merged t.ranked q.hits res)).1 :=
    h.keep (readHits_keeps (by decide) (.refl _ _))
  unfold Machine.judge
  split
  · exact h
  · dsimp only
    split
    · exact h
    · split
      · exact .ite (hr.foldl fun _ _ _ g => g.checkRow) hr
      · exact hr

theorem Steady.countStats (h : Steady o k s) {q : Search} : Steady o k (countStats s q) := by
  unfold Machine.countStats
  split
  · exact h.same
  · exact h

theorem Steady.queueCounts (h : Steady o k s) {q : Search} {t : Table} {hits : List Hit} : Steady o k (queueCounts s q t hits) := by
  unfold Machine.queueCounts
  exact .ite h (h.foldl fun _ _ _ g => g.frond _)

theorem Steady.squashRead (h : Steady o k s) {seat : Nat} {x : Hit} {st : BitVec 8} : Steady o k (squashRead s seat x st) := by
  unfold Machine.squashRead
  exact .ite h.same (h.same.arr x.die)

theorem Steady.squashReads (h : Steady o k s) {q : Search} {used : List Hit} : Steady o k (squashReads s q used).1 := by
  refine Steady.foldl_fst (p := (s, q)) h fun x r _ g => ?_
  split
  · split
    · exact g
    · split
      · exact g.squashRead
      · split
        · exact (g.keep (chargeSearch_keeps (by decide) (.refl _ _))).squashRead
        · exact g
  · exact g

theorem Steady.regionLost (h : Steady o k s) {n dpa : Nat} : Steady o k (regionLost s n dpa) := by
  unfold Machine.regionLost
  split
  · exact .ite h h.same.event
  · exact h

theorem Steady.squashFills (h : Steady o k s) {q : Search} : Steady o k (squashFills s q) :=
  (h.foldl fun _ _ _ g => .ite g.dropSpec g).same

theorem Steady.settlePred (h : Steady o k s) {q : Search} {winner : Option Hit} : Steady o k (settlePred s q winner) := by
  unfold Machine.settlePred
  split
  · exact h
  · refine .ite (Steady.foldl ?_ fun _ _ _ g => .ite (g.coh_sub.keep (countAccess_keeps (by decide) (.refl _ _))) g) h.squashFills
    split
    · split
      · exact h.regionLost
      · exact h
    · exact h

/-! Completions -/

theorem Steady.complete (h : Steady o k s) {n id : Nat} {c : Comp} : Steady o k (complete s n id c) :=
  (h.keep (endMember_keeps (by decide) (pushComp_keeps (by decide) (.refl _ _)))).flush

theorem Steady.finish (h : Steady o k s) {n : Nat} {u : Sub} {st : BitVec 8} {data : Word64} :
    Steady o k (finish s n u st data) := h.complete

theorem Steady.moveOver (h : Steady o k s) {m : Move} {st : BitVec 8} {data : Nat} : Steady o k (moveOver s m st data) := by
  unfold Machine.moveOver
  refine .ite h ?_
  split
  · split
    · exact h.finish
    · exact h
  · exact h

theorem Steady.jobOver (h : Steady o k s) {id : Nat} {j : Job} {st : BitVec 8} {data actual : Nat} :
    Steady o k (jobOver s id j st data actual) := by
  have hs : Steady o k (settle { s with jobs := mdel s.jobs id } j.seat j.cost actual j.fromG) :=
    h.same.keep (settle_keeps (by decide) (.refl _ _))
  unfold Machine.jobOver
  dsimp only
  split
  · exact hs.finish
  · exact hs

theorem Steady.jobsOver (h : Steady o k s) {js : List (Nat × Job)} {st : BitVec 8} :
    Steady o k (js.foldl (fun s e => Machine.jobOver s e.1 e.2 st (jobData e.2) (jobCost s e.2)) s) :=
  h.foldl fun _ _ _ g => g.jobOver

/-! Covenants -/

theorem Steady.roomResolve (h : Steady o k s) {reason : Nat} : Steady o k (roomResolve s reason) := by
  refine h.foldl fun u e _ g => .ite ?_ g
  split
  · exact .ite g.covShort g.covFull
  · exact g

theorem Steady.settleCov (h : Steady o k s) {id : Nat} {c : Cov} {given reason : Nat} : Steady o k (settleCov s id c given reason) :=
  .ite h.covShort h.covFull

theorem Steady.lacks (h : Steady o k s) {id : Nat} {energy slots : Bool} : Steady o k (lacks s id energy slots) :=
  h.keep (lacks_keeps (by decide) (.refl _ _))

theorem Steady.resolveCov (h : Steady o k s) {cs : List Claim} {reason id : Nat} {c : Cov} :
    Steady o k (resolveCov s cs reason id c) := by
  unfold Machine.resolveCov
  dsimp only
  split
  · split
    · exact (Steady.ite h.lacks h).settleCov
    · exact h
  · exact h.settleCov
  · split
    · exact .ite h.lacks.covShort (.ite h.lacks.covShort h.covFull)
    · exact h
  · exact (Steady.ite h.lacks h).settleCov
  · exact h

theorem Steady.resolveAll (h : Steady o k s) {reason : Nat} : Steady o k (resolveAll s reason) :=
  h.roomResolve.foldl fun _ _ _ g => g.resolveCov

theorem Steady.ledgerWrite (h : Steady o k s) {orderly : Bool} : Steady o k (ledgerWrite s orderly) :=
  h.keep (ledgerWrite_keeps (by decide) (.refl _ _))

end

/-! Searches that end, where no half need stay shut -/

section
variable {k s : State}

theorem Steady.farFill (h : Steady none k s) {who : Nat} {t : Table} {x : Hit} : Steady none k (farFill s who t x) := by
  refine h.foldl fun u line _ g => .ite ?_ g
  have hf : Steady none k (if poisonedAt (Machine.dropOthers u line who) line (agentHome u x.die line) then Machine.dropOthers u line who
      else Machine.feed (Machine.dropOthers u line who) line (agentHome u x.die line) x.die .good) :=
    .ite g.dropOthers (g.dropOthers.feed (open_none _))
  exact .ite hf ((hf.grant (open_none _) nofun).keep (countAccess_keeps (by decide) (.refl _ _)))

theorem Steady.finalise (h : Steady none k s) {id : Nat} {v : Verdict} {early : Bool} : Steady none k (finalise s id v early) := by
  unfold Machine.finalise
  split
  · exact h
  next q _ =>
    refine .ite (h.keep (dropOver_keeps (by decide) (.refl _ _))) ?_
    extract_lets hub fault winners
    split
    next s1 q1 hq =>
      have h1 : Steady none k s1 := by
        have hs := h.squashReads (q := q) (used := winners)
        rwa [hq] at hs
      extract_lets s2 s3 s4 s5 s6
      have h2 : Steady none k s2 := (h1.keep (retire_keeps (by decide) (.refl _ _))).settlePred
      have h3 : Steady none k s3 := by
        unfold s3
        split
        · exact .ite h2.same h2.same
        · exact h2
      have h5 : Steady none k s5 := (h3.keep (settle_keeps (by decide) (.refl _ _))).countStats
      have h6 : Steady none k s6 := by
        unfold s6
        split
        · extract_lets t1 t2
          have ht1 : Steady none k t1 := .ite h5 h5.queueCounts
          have ht2 : Steady none k t2 := by
            unfold t2
            split
            · exact ht1.farFill
            · exact ht1
          exact .ite (ht2.keep (winResult_keeps (by decide) (.refl _ _))) ht2
        · exact .ite (h5.keep (winStatus_keeps (by decide) (.refl _ _))) h5
      exact .ite h6 (h6.keep (endMember_keeps (by decide) (pushComps_keeps (by decide) (.refl _ _)))).flush

theorem Steady.failSearch (h : Steady none k s) {id : Nat} {st : BitVec 8} : Steady none k (failSearch s id st) := h.finalise

theorem Steady.failSearches (h : Steady none k s) {test : Search → Bool} {st : BitVec 8} : Steady none k (failSearches s test st) :=
  h.foldl fun _ _ _ g => g.failSearch

theorem Steady.halfLostSub (h : Steady none k s) {r : Nat} {u : Sub} : Steady none k (halfLostSub s r u) := by
  unfold Machine.halfLostSub
  extract_lets mine s1 qs moving s2 s3
  have h1 : Steady none k s1 := h.failSearches
  have h3 : Steady none k s3 := Steady.foldl (s := s2) h1.same fun _ _ _ g =>
    have hs := g.keep (settle_keeps (by decide) (.refl _ _))
    .ite hs hs.countStats
  split
  · exact h3.same.complete
  · exact h3

theorem Steady.halfLostRings (h : Steady none k s) {half : Nat} : Steady none k (halfLostRings s half) :=
  h.foldl fun _ _ _ g => (g.jobsOver.foldl fun _ _ _ g => g.halfLostSub).same

theorem Steady.soloSearches (h : Steady none k s) {half : Nat} : Steady none k (soloSearches s half) := by
  refine h.foldl fun u e _ g => ?_
  dsimp only
  split
  · split
    · exact .ite g.same.judge.finalise g.same
    · exact g.same
  · exact .ite g.failSearch g

end
end Sys2Proof.Machine
end

section
/-! A guarded write that takes effect is carried out on the state with the pending write taken and the page's die woken (R390, R394);
that state differs from the one before in no register but those of the wake. And events change nothing but their records. -/

namespace Sys2Proof.Machine
set_option Elab.async false
section
variable {s t : State} {p : Place} {a : Nat} {w v : Word32}

/-! The state that a guarded write is carried out on -/

/-- The pending write is taken, and the page's die woken. -/
def writeReady (s : State) (p : Place) (a : Nat) : State :=
  wakePage (modRegs s fun r => { r with guards := mdel r.guards (ldKey p (pageBase a)) }) a

theorem onGuard_takesEffect (h : TakesEffect s p a w v) (f : State → Word32 → State) : onGuard s p a w f = f (writeReady s p a) v := by
  obtain ⟨⟨pg, hl, hg⟩, hw, hm, hv, hmask, hdata⟩ := h
  obtain ⟨g, hg⟩ := Option.isSome_iff_exists.1 hg
  unfold onGuard guardEffect guardSecond
  simp only [hw, Bool.and_false, Bool.false_eq_true, if_false, hl, hg, hm, hmask, if_neg hv, hdata, decide_true, Bool.and_self, if_true]
  rfl

theorem writeReady_keeps : Keeps [.pins, .fronds, .tally, .regs, .wire] s (writeReady s p a) :=
  wakePage_keeps (by decide) (modRegs_keeps (by decide) (.refl _ _))

@[simp] theorem writeReady_pkg : (writeReady s p a).pkg = s.pkg := writeReady_keeps.only .pkg (by decide)
@[simp] theorem writeReady_chip : (writeReady s p a).chip = s.chip := writeReady_keeps.only .chip (by decide)
@[simp] theorem writeReady_store : (writeReady s p a).store = s.store := writeReady_keeps.only .store (by decide)
@[simp] theorem writeReady_ports : (writeReady s p a).ports = s.ports := writeReady_keeps.only .ports (by decide)
@[simp] theorem writeReady_tables : (writeReady s p a).tables = s.tables := writeReady_keeps.only .tables (by decide)
@[simp] theorem writeReady_harvest : (writeReady s p a).harvest = s.harvest := writeReady_keeps.only .harvest (by decide)

/-! Registers -/

@[simp] theorem reg_setReg_self (s : State) (a : Nat) (x : Word) : reg (setReg s a x) a = x := by simp [reg, setReg]

theorem reg_setReg_ne (s : State) {a b : Nat} (x : Word) (h : b ≠ a) : reg (setReg s a x) b = reg s b := by
  simp only [reg, setReg, mget_mput_ne _ _ h]

/-- Registers are the same where their pieces are. -/
theorem reg_congr (h : t.regs = s.regs) (b : Nat) : reg t b = reg s b := by unfold reg; rw [h]

theorem reg_covered (s : State) (a b : Nat) : reg (covered s a) b = reg s b := rfl

theorem reg_wakeHub (s : State) (h : Nat) {b : Nat} (hb : b ≠ sleepResAddr h) : reg (wakeHub s h) b = reg s b := by
  unfold wakeHub
  extract_lets n s1 phy
  have h1 : reg s1 b = reg s b := by
    unfold s1
    split
    · exact reg_setReg_ne _ _ hb
    · rfl
  exact h1

theorem reg_modFrond (s : State) (die : Nat) (f : Frond → Frond) (b : Nat) : reg (modFrond s die f) b = reg s b :=
  reg_congr ((modFrond_keeps (kl := [.fronds]) (by decide) (.refl _ _)).only .regs (by decide)) b

theorem reg_wakeDie (s : State) (d : Nat) {b : Nat} (hd : b ≠ sleepResAddr d) (hh : b ≠ sleepResAddr (halfOf d)) :
    reg (wakeDie s d) b = reg s b := by
  unfold wakeDie
  extract_lets f s1
  have h1 : reg s1 b = reg s b := by
    unfold s1
    split
    · exact (reg_setReg_ne _ _ hd).trans (reg_modFrond _ _ _ _)
    · rfl
  split
  · exact h1
  · have h2 : reg (modFrond (wakeHub s1 (halfOf d)) d fun f => { f with waking := true }) b = reg s b :=
      (reg_modFrond _ _ _ _).trans ((reg_wakeHub _ _ hh).trans h1)
    split <;> exact h2

/-- The wake of a page's die stores its sleep results alone. -/
theorem reg_writeReady {b : Nat} (hd : b ≠ sleepResAddr (a / 0x00400000)) (hh : b ≠ sleepResAddr (halfOf (a / 0x00400000))) :
    reg (writeReady s p a) b = reg s b := by
  unfold writeReady wakePage
  dsimp only
  split
  · rfl
  · split
    · exact reg_wakeHub _ _ hd
    · exact reg_wakeDie _ _ hd hh

theorem guardStore_plain (s : State) (a o : Nat) (m : Word) (w : Word32) :
    guardStore s a ⟨o, m, 0⟩ w = (setReg s a (maskedWrite w m (reg s a)), maskedWrite w m (reg s a)) := by
  unfold guardStore
  simp

/-! Words -/

theorem and_three_toNat (x : Word) : (x &&& 3).toNat = bits x 1 0 := by
  unfold bits
  rw [BitVec.toNat_and, show (3 : Word).toNat = 2 ^ 2 - 1 from rfl, Nat.and_two_pow_sub_one_eq_mod]
  omega

theorem and_three_eq (x : Word) : x &&& 3 = 3 ↔ bits x 1 0 = 3 := by
  rw [← and_three_toNat]
  exact ⟨fun h => by rw [h]; rfl, fun h => BitVec.eq_of_toNat_eq h⟩

theorem setWidth_and_three (x : Word) : (x &&& 3).setWidth 2 = BitVec.ofNat 2 (bits x 1 0) := by
  apply BitVec.eq_of_toNat_eq
  rw [BitVec.toNat_setWidth, and_three_toNat, BitVec.toNat_ofNat]

end

/-! Events -/

section
variable (s : State) (tb code sev die seat extra count : Nat) (items : List (Nat × Nat)) (dst : Recip)

theorem logRecord_boot (r : EvRec) :
    (logRecord s r).boot.stage = s.boot.stage ∧ (logRecord s r).boot.mode = s.boot.mode ∧
      (logRecord s r).boot.halfOut = s.boot.halfOut := by
  have put (u : State) (w : EvRec) : (appendRecord u w).boot = u.boot :=
    (appendRecord_keeps (kl := [.life, .log]) (by decide) (.refl _ _)).only .boot (by decide)
  have out (u : State) (w : EvRec) : (deliver u 1 w .steward).boot = u.boot :=
    (deliver_keeps (kl := [.lds]) (by decide) (.refl _ _)).only .boot (by decide)
  unfold logRecord
  dsimp only
  split
  · split <;> exact ⟨rfl, rfl, rfl⟩
  · split
    · exact ⟨rfl, rfl, rfl⟩
    · split
      · rw [put]; exact ⟨rfl, rfl, rfl⟩
      · refine List.foldlRecOn (motive := fun u : State => u.boot.stage = s.boot.stage ∧ u.boot.mode = s.boot.mode ∧
          u.boot.halfOut = s.boot.halfOut) _ _ ?_ fun u hu k _ => ?_
        · simp only [put, and_self]
        · rw [out]
          split
          · exact hu
          · rw [put]; exact hu

theorem raiseAt_boot :
    (raiseAt s tb code sev die seat extra count items dst).boot.stage = s.boot.stage ∧
    (raiseAt s tb code sev die seat extra count items dst).boot.mode = s.boot.mode ∧
    (raiseAt s tb code sev die seat extra count items dst).boot.halfOut = s.boot.halfOut := by
  have out (r : EvRec) : (deliver (logRecord s r) sev r dst).boot = (logRecord s r).boot :=
    (deliver_keeps (kl := [.lds]) (by decide) (.refl _ _)).only .boot (by decide)
  unfold raiseAt
  dsimp only
  split <;> exact out _ ▸ logRecord_boot s _

theorem event_only : Only [.boot, .pkg, .lds, .life, .log] s (event s code sev die seat items dst) :=
  (event_keeps (by decide) (.refl _ _)).only

@[simp] theorem event_pins : (event s code sev die seat items dst).pins = s.pins := event_only _ _ _ _ _ _ _ .pins (by decide)
@[simp] theorem event_ports : (event s code sev die seat items dst).ports = s.ports := event_only _ _ _ _ _ _ _ .ports (by decide)
@[simp] theorem event_regs : (event s code sev die seat items dst).regs = s.regs := event_only _ _ _ _ _ _ _ .regs (by decide)
@[simp] theorem event_fronds : (event s code sev die seat items dst).fronds = s.fronds :=
  event_only _ _ _ _ _ _ _ .fronds (by decide)

theorem event_pkg : (event s code sev die seat items dst).pkg =
    { s.pkg with lastFail := (event s code sev die seat items dst).pkg.lastFail } := ((Steady.refl none s).event).pkg

@[simp] theorem event_started : started (event s code sev die seat items dst) = started s := by
  unfold started event raiseFull; rw [(raiseAt_boot ..).1]

@[simp] theorem event_startPair : startPair (event s code sev die seat items dst) = startPair s := by
  unfold startPair event raiseFull; rw [(raiseAt_boot ..).2.1]

@[simp] theorem event_inPair : inPair (event s code sev die seat items dst) = inPair s := by unfold inPair; rw [event_pkg]
@[simp] theorem event_halfState (h : Nat) : halfState (event s code sev die seat items dst) h = halfState s h := by
  unfold halfState; rw [event_pkg]
@[simp] theorem event_dieIn (d : Nat) : dieIn (event s code sev die seat items dst) d = dieIn s d := by unfold dieIn; rw [event_pkg]
@[simp] theorem event_frond (d : Nat) : frond (event s code sev die seat items dst) d = frond s d := by
  unfold frond; rw [event_fronds]

end

end Sys2Proof.Machine
end

section
/-! What fronds, ports, links and PKG.DIES read after the updates of the service work. -/

namespace Sys2Proof.Machine
set_option Elab.async false
section
variable {o : Option Nat} {k s t : State}

/-! Fronds -/

theorem frond_modFrond_self {d : Nat} (h2 : 2 ≤ d) (hl : d - 2 < s.fronds.length) (f : Frond → Frond) :
    frond (modFrond s d f) d = f (frond s d) := by
  simp [frond, modFrond, h2, hl]

theorem frond_modFrond_ne {d e : Nat} (h2 : 2 ≤ e) (hne : e ≠ d) (f : Frond → Frond) : frond (modFrond s d f) e = frond s e := by
  unfold frond modFrond
  split
  · simp only [List.getD_eq_getElem?_getD]
    rw [List.getElem?_modify_ne _ _ (by omega)]
  · rfl

theorem frond_congr (h : t.fronds = s.fronds) (d : Nat) : frond t d = frond s d := by unfold frond; rw [h]

theorem modFrond_fronds_length (d : Nat) (f : Frond → Frond) : (modFrond s d f).fronds.length = s.fronds.length := by
  unfold modFrond
  split
  · simp
  · rfl

theorem Steady.fronds_length (h : Steady o s t) : t.fronds.length = s.fronds.length := by
  simpa using congrArg List.length h.work

theorem Steady.frond_work (h : Steady o s t) (d : Nat) : (Machine.frond t d).work = (Machine.frond s d).work :=
  frond_of_map h.work d

/-! PKG.DIES -/

theorem getLsbD_dieBit (d : Nat) {e : Nat} (he : e < 8) : (BitVec.ofNat 8 (2 ^ d)).getLsbD e = decide (e = d) := by
  rw [BitVec.getLsbD_ofNat, Nat.testBit_two_pow]
  simp [he, eq_comm]

theorem dieIn_setDie_self {d : Nat} (hd : d < 8) (on : Bool) : dieIn (setDie s d on) d = on := by
  unfold dieIn setDie
  cases on <;> simp [getLsbD_dieBit d hd, hd, -BitVec.ofNat_pow]

theorem dieIn_setDie_off {d e : Nat} (h : dieIn s e = false) : dieIn (setDie s d false) e = false := by
  unfold dieIn setDie at *
  simp [h]

theorem Steady.dieIn (h : Steady o s t) (d : Nat) : Machine.dieIn t d = Machine.dieIn s d := by unfold Machine.dieIn; rw [h.pkg]

/-- Dies taken out of PKG.DIES, one after the other. -/
def diesOut (s : State) (ds : List Nat) : State := ds.foldl (fun s d => setDie s d false) s

theorem dieIn_diesOut_of_out {ds : List Nat} {e : Nat} (h : dieIn s e = false) : dieIn (diesOut s ds) e = false := by
  induction ds generalizing s with
  | nil => exact h
  | cons d ds ih => exact ih (dieIn_setDie_off h)

theorem dieIn_diesOut {ds : List Nat} {e : Nat} (he : e < 8) (hm : e ∈ ds) : dieIn (diesOut s ds) e = false := by
  induction ds generalizing s with
  | nil => cases hm
  | cons d ds ih =>
    obtain rfl | hm := List.mem_cons.1 hm
    · exact dieIn_diesOut_of_out (s := setDie s e false) (dieIn_setDie_self he false)
    · exact ih hm

theorem mem_halfDies {d h : Nat} (hd : d < 8) (hh : halfOf d = h) : d ∈ halfDies h := by
  unfold halfDies
  simp [hd, hh]

/-! Ports and links -/

/-- The state of a port. -/
def portSt (s : State) (port : Nat) : Option PortState := (s.ports[port]?).map fun x => x.st

theorem modPort_self {n : Nat} {y : Port} (hy : s.ports[n]? = some y) (f : Port → Port) : (modPort s n f).ports[n]? = some (f y) := by
  simp [modPort, hy]

theorem modPort_ne {n m : Nat} (h : m ≠ n) (f : Port → Port) : (modPort s n f).ports[m]? = s.ports[m]? := by
  simp only [modPort]
  exact List.getElem?_modify_ne _ _ (Ne.symm h)

theorem link_congr (h : t.ports = s.ports) (p l : Nat) : link t p l = link s p l := by unfold link; rw [h]

/-- A port's change outside its links. -/
theorem link_modPort (p n l : Nat) {f : Port → Port} (hf : ∀ x, (f x).links = x.links) : link (modPort s p f) n l = link s n l := by
  unfold link modPort
  simp only [List.getElem?_modify]
  cases s.ports[n]? with
  | none => simp
  | some y => by_cases hn : p = n <;> simp [hn, hf]

theorem departSeat_ports (seat : Nat) (test : Nat → Bool) : (departSeat s seat test).ports = s.ports :=
  (departSeat_keeps (kl := [.pins, .boot, .pkg, .lds, .seats, .extents, .mem, .coh, .fronds, .rings, .covs, .tally, .life, .log, .regs,
    .wire]) (by decide) (.refl _ _)).only .ports (by decide)

theorem linkLoss_ports (p l : Nat) : (linkLoss s p l).ports =
    if (link s p l).up then (modLink s p l fun x => { x with up := false, downTb := s.clock.tb }).ports else s.ports := by
  unfold linkLoss
  split
  · refine List.foldlRecOn (motive := fun u : State => u.ports = _) _ _ rfl fun u hu _ _ => ?_
    rw [departSeat_ports, hu]
  · rfl

theorem linkLoss_up (p l : Nat) : (link (linkLoss s p l) p l).up = false := by
  have hp := linkLoss_ports (s := s) p l
  split at hp
  · rw [link_congr hp]
    unfold link modLink
    cases hy : s.ports[p]? with
    | none => simp [hy, linkReset]
    | some y => cases hl : y.links[l]? <;> simp [hy, hl, linkReset, List.getD_eq_getElem?_getD]
  next hu => rw [link_congr hp]; exact Bool.eq_false_iff.2 hu

theorem linkLoss_down {p l j : Nat} (hj : (link s p j).up = false) : (link (linkLoss s p l) p j).up = false := by
  by_cases hjl : l = j
  · exact hjl ▸ linkLoss_up p l
  · have hp := linkLoss_ports (s := s) p l
    split at hp
    · rw [link_congr hp]
      unfold link modLink at *
      cases hy : s.ports[p]? with
      | none => simp [hy, linkReset]
      | some y =>
        simp only [hy] at hj
        simpa [hy, List.getD_eq_getElem?_getD, hjl] using hj
    · rw [link_congr hp]; exact hj

theorem linkLoss_other {p l m : Nat} (hm : m ≠ p) : (linkLoss s p l).ports[m]? = s.ports[m]? := by
  rw [linkLoss_ports]
  split
  · exact List.getElem?_modify_ne _ _ (Ne.symm hm)
  · rfl

theorem linkLoss_length {p l : Nat} : (linkLoss s p l).ports.length = s.ports.length := by
  rw [linkLoss_ports]
  split
  · exact List.length_modify _ _ _
  · rfl

/-- The links of a port go down one after the other. -/
def linksLost (s : State) (p : Nat) (ls : List Nat) : State := ls.foldl (fun s l => linkLoss s p l) s

theorem linksLost_down {p j : Nat} {ls : List Nat} (hj : (link s p j).up = false) : (link (linksLost s p ls) p j).up = false := by
  induction ls generalizing s with
  | nil => exact hj
  | cons l ls ih => exact ih (linkLoss_down hj)

theorem linksLost_up {p j : Nat} {ls : List Nat} (hj : j ∈ ls) : (link (linksLost s p ls) p j).up = false := by
  induction ls generalizing s with
  | nil => cases hj
  | cons l ls ih =>
    obtain rfl | hj := List.mem_cons.1 hj
    · exact linksLost_down (s := linkLoss s p j) (linkLoss_up p j)
    · exact ih hj

theorem linksLost_other {p m : Nat} {ls : List Nat} (hm : m ≠ p) : (linksLost s p ls).ports[m]? = s.ports[m]? := by
  induction ls generalizing s with
  | nil => rfl
  | cons l ls ih => exact ih.trans (linkLoss_other hm)

theorem linksLost_length {p : Nat} {ls : List Nat} : (linksLost s p ls).ports.length = s.ports.length := by
  induction ls generalizing s with
  | nil => rfl
  | cons l ls ih => exact ih.trans linkLoss_length

theorem Steady.linksLost (h : Steady none k s) {p : Nat} {ls : List Nat} : Steady none k (linksLost s p ls) :=
  h.foldl fun _ _ _ g => g.linkLoss

/-! A port that is cut -/

/-- A port's links are down and its balls held. -/
def portHeld (s : State) (port : Nat) : State :=
  let s := modPort (linksLost s port (List.range 4)) port fun x => { x with st := .down }
  { s with pins := { s.pins with heldPort := s.pins.heldPort.set port true } }

theorem link_portHeld (port n l : Nat) : link (portHeld s port) n l = link (linksLost s port (List.range 4)) n l :=
  link_modPort (s := linksLost s port (List.range 4)) port n l (f := fun x => { x with st := .down }) fun _ => rfl

theorem portHeld_heldPort (port : Nat) : (portHeld s port).pins.heldPort = s.pins.heldPort.set port true :=
  congrArg (·.set port true) ((Steady.refl none s).linksLost (p := port) (ls := List.range 4)).balls

theorem cutPort_of_down {port how : Nat} (h : portSt s port = some .down) : cutPort s port how = s := by
  unfold cutPort
  rw [if_pos]
  exact beq_iff_eq.2 h

theorem cutPort_of_up {port how : Nat} (h : portSt s port ≠ some .down) :
    cutPort s port how = event (portHeld s port) 0x9003 0 (portHub port) 0xFF [(1, port), (1, how)] .steward := by
  unfold cutPort
  rw [if_neg]
  · rfl
  · exact mt beq_iff_eq.1 h

theorem cutPort_other {port how m : Nat} (hm : m ≠ port) : (cutPort s port how).ports[m]? = s.ports[m]? := by
  by_cases h : portSt s port = some .down
  · rw [cutPort_of_down h]
  · rw [cutPort_of_up h, event_ports]
    exact (modPort_ne hm _).trans (linksLost_other hm)

theorem cutPort_length {port how : Nat} : (cutPort s port how).ports.length = s.ports.length := by
  by_cases h : portSt s port = some .down
  · rw [cutPort_of_down h]
  · rw [cutPort_of_up h, event_ports]
    exact (List.length_modify _ _ _).trans linksLost_length

/-- A port that is cut is down. -/
theorem cutPort_st {port how : Nat} (hl : port < s.ports.length) : portSt (cutPort s port how) port = some .down := by
  by_cases h : portSt s port = some .down
  · rw [cutPort_of_down h, h]
  · rw [cutPort_of_up h]
    unfold portSt
    rw [event_ports]
    have hy := List.getElem?_eq_getElem (l := (linksLost s port (List.range 4)).ports) (i := port) (linksLost_length.symm ▸ hl)
    exact congrArg _ (modPort_self hy _)

theorem cutPort_st_of_down {port how m : Nat} (h : portSt s m = some .down) : portSt (cutPort s port how) m = some .down := by
  by_cases hm : m = port
  · subst hm; rw [cutPort_of_down h, h]
  · unfold portSt at *; rw [cutPort_other hm, h]

/-- Ports are cut one after the other. -/
def portsCut (s : State) (how : Nat) (ps : List Nat) : State := ps.foldl (fun s p => cutPort s p how) s

theorem portsCut_st_of_down {how m : Nat} {ps : List Nat} (h : portSt s m = some .down) :
    portSt (portsCut s how ps) m = some .down := by
  induction ps generalizing s with
  | nil => exact h
  | cons p ps ih => exact ih (cutPort_st_of_down h)

theorem portsCut_st {how m : Nat} {ps : List Nat} (hl : m < s.ports.length) (hm : m ∈ ps) :
    portSt (portsCut s how ps) m = some .down := by
  induction ps generalizing s with
  | nil => cases hm
  | cons p ps ih =>
    obtain rfl | hm := List.mem_cons.1 hm
    · exact portsCut_st_of_down (s := cutPort s m how) (cutPort_st hl)
    · exact ih (cutPort_length.symm ▸ hl) hm

theorem mem_hubPorts_lt {port h : Nat} (hh : h < 2) (hp : port ∈ hubPorts h) : port < 6 := by
  simp only [hubPorts, List.mem_cons, List.not_mem_nil, or_false] at hp
  omega

/-- A port that is cut changes no package field but the last failure's code. -/
theorem cutPort_pkg {port how : Nat} :
    (cutPort s port how).pkg = { s.pkg with lastFail := (cutPort s port how).pkg.lastFail } := by
  by_cases h : portSt s port = some .down
  · rw [cutPort_of_down h]
  · have hl : (portHeld s port).pkg = { s.pkg with lastFail := (portHeld s port).pkg.lastFail } :=
      ((Steady.refl none s).linksLost (p := port) (ls := List.range 4)).pkg
    rw [cutPort_of_up h, event_pkg, hl]

theorem portsCut_pkg {how : Nat} {ps : List Nat} :
    (portsCut s how ps).pkg = { s.pkg with lastFail := (portsCut s how ps).pkg.lastFail } := by
  induction ps generalizing s with
  | nil => rfl
  | cons p ps ih => exact ih.trans (by rw [cutPort_pkg]; rfl)

end
end Sys2Proof.Machine
end

section
/-! Ports, fronds and links: one lemma per clause of the obligation (R187, R431, R435, Table 1.7). -/

namespace Sys2Proof.Machine
set_option Elab.async false
section
variable {s : State} {p : Place} {w v : Word32}

/-! Ports -/

/-- No register of the wake of a port's hub is a guarded register of its page. -/
theorem portReg_apart : ∀ n < 8, ∀ o ∈ [0x800, 0x804], portPage n + o ≠ sleepResAddr ((portPage n + o) / 0x00400000) ∧
    portPage n + o ≠ sleepResAddr (halfOf ((portPage n + o) / 0x00400000)) := by decide

theorem reg_portReady {n o : Nat} (hn : n < 8) (ho : o ∈ [0x800, 0x804]) :
    reg (writeReady s p (portPage n + o)) (portPage n + o) = reg s (portPage n + o) :=
  reg_writeReady (portReg_apart n hn o ho).1 (portReg_apart n hn o ho).2

theorem bifWrite_eq (n : Nat) (u : State) (w : Word32) :
    let a := portPage n + 0x800
    let x := maskedWrite w 3 (reg u a)
    bifWrite n u w = if bits x 1 0 = 3 then setReg (setReg u a x) a (reg u a)
      else covered (storeWrite { setReg u a x with
        store := { u.store with bifMode := u.store.bifMode.set n (BitVec.ofNat 2 (bits x 1 0)) } }) a := by
  unfold bifWrite
  simp only [guardStore_plain, and_three_eq, setWidth_and_three]
  rfl

theorem hportBif_kept (port : BitVec 3) :
    let n := port.toNat
    let a := portPage n + 0x800
    let x := maskedWrite v 3 (reg s a)
    TakesEffect s p a w v →
    ∃ m, exec (.hportBif p port w) s = .next m ∧ m.ports = s.ports ∧
      (bits x 1 0 = 3 → reg m a = reg s a ∧ m.store = s.store) ∧
      (bits x 1 0 ≠ 3 → reg m a = x ∧ m.store.bifMode = s.store.bifMode.set n (BitVec.ofNat 2 (bits x 1 0))) := by
  intro n a x he
  have hr : reg (writeReady s p a) a = reg s a := reg_portReady port.isLt (by decide)
  refine ⟨bifWrite n (writeReady s p a) v, congrArg _ (onGuard_takesEffect he _), ?_⟩
  rw [show bifWrite n (writeReady s p a) v = _ from bifWrite_eq _ _ _, hr]
  by_cases h3 : bits x 1 0 = 3
  · rw [if_pos h3]
    exact ⟨writeReady_ports, fun _ => ⟨reg_setReg_self _ _ _, writeReady_store⟩, fun hn => absurd h3 hn⟩
  · have hk {u : State} : Only [.life] u (storeWrite u) := (storeWrite_keeps (by decide) (.refl _ _)).only
    rw [if_neg h3]
    refine ⟨(hk .ports (by decide)).trans writeReady_ports, fun h => absurd h h3, fun _ => ⟨?_, ?_⟩⟩
    · exact (reg_covered _ _ _).trans ((reg_congr (hk .regs (by decide)) _).trans (reg_setReg_self (writeReady s p a) a x))
    · refine (congrArg Store.bifMode (hk .store (by decide))).trans ?_
      simp only [writeReady_store, x]

theorem hportDown_exec (port : BitVec 3) {c : Instr} (hc : c = .hportDown p port w ∨ c = .hportUp p port w)
    (he : TakesEffect s p (portPage port.toNat + 0x804) w v) :
    exec c s = .next (downWrite port.toNat (writeReady s p (portPage port.toNat + 0x804)) v) := by
  obtain rfl | rfl := hc <;> exact congrArg _ (onGuard_takesEffect he _)

/-- The state on which HPORT.DOWN acts: its word is stored. -/
def downStored (s : State) (p : Place) (n : Nat) (x : Word) : State := setReg (writeReady s p (portPage n + 0x804)) (portPage n + 0x804) x

theorem downWrite_ready {n : Nat} (hn : n < 8) {y : Port} (hy : s.ports[n]? = some y) :
    let x := maskedWrite v 1 (reg s (portPage n + 0x804))
    let u := downStored s p n x
    downWrite n (writeReady s p (portPage n + 0x804)) v =
      if x.getLsbD 0 then (if y.st = .up then modPort u n fun z => { z with st := .draining } else u)
      else match y.st with
        | .up => u
        | .draining => modPort u n fun z => { z with st := .up }
        | .down => event (bringUp u n) 0x9004 0 (portHub n) 0xFF [(1, n), (1, (s.store.bifMode.getD n 0).toNat)] .steward := by
  unfold downWrite
  dsimp only
  rw [guardStore_plain, reg_portReady hn (by decide)]
  dsimp only
  rw [setReg_ports, writeReady_ports, hy, setReg_store, writeReady_store]
  rfl

/-- The wake of a port's hub and the stored word leave HPWR.CTL as it was. -/
theorem autoRel_apart : ∀ n < 8, diePage (portHub n) 0x13 + 8 ≠ portPage n + 0x804 ∧
    diePage (portHub n) 0x13 + 8 ≠ sleepResAddr ((portPage n + 0x804) / 0x00400000) ∧
    diePage (portHub n) 0x13 + 8 ≠ sleepResAddr (halfOf ((portPage n + 0x804) / 0x00400000)) := by decide

theorem autoRel_downStored {n : Nat} (hn : n < 8) {x : Word} : autoRel (downStored s p n x) (portHub n) = autoRel s (portHub n) := by
  obtain ⟨h1, h2, h3⟩ := autoRel_apart n hn
  unfold autoRel downStored
  rw [reg_setReg_ne _ _ h1, reg_writeReady h2 h3]

theorem getD_set_self_false (l : List Bool) (n : Nat) : (l.set n false).getD n false = false := by
  simp only [List.getD_eq_getElem?_getD, List.getElem?_set_self']
  cases l[n]? <;> rfl

theorem hportDown_changes (port : BitVec 3) (c : Instr) (y : Port) :
    let n := port.toNat
    let a := portPage n + 0x804
    let x := maskedWrite v 1 (reg s a)
    c = .hportDown p port w ∨ c = .hportUp p port w → TakesEffect s p a w v → s.ports[n]? = some y →
      (x.getLsbD 0 = true → ∃ m, exec c s = .next m ∧
        (m.ports[n]?).map (fun z => z.st) = some (if y.st = .up then .draining else y.st)) ∧
      (x.getLsbD 0 = false → y.st ≠ .down → ∃ m, exec c s = .next m ∧ (m.ports[n]?).map (fun z => z.st) = some .up) ∧
      (x.getLsbD 0 = false → y.st = .down →
        ∃ m, exec c s = .next (event m 0x9004 0 (portHub n) 0xFF [(1, n), (1, (s.store.bifMode.getD n 0).toNat)] .steward) ∧
          m.ports[n]? = some { y with st := .up, bifMode := s.store.bifMode.getD n 0 } ∧
          (autoRel s (portHub n) = true → m.pins.heldPort.getD n false = false)) := by
  intro n a x hc he hy
  have hu : (downStored s p n x).ports[n]? = some y := by
    unfold downStored; rw [setReg_ports, writeReady_ports, hy]
  have hstore : (downStored s p n x).store = s.store := writeReady_store
  rw [hportDown_exec port hc he, downWrite_ready port.isLt hy]
  refine ⟨fun hx => ⟨_, rfl, ?_⟩, fun hx hst => ⟨_, rfl, ?_⟩, fun hx hst => ?_⟩
  · rw [if_pos hx]
    split
    · rw [modPort_self hu]; rfl
    · rw [hu]; rfl
  · rw [if_neg (Bool.eq_false_iff.1 hx)]
    cases hys : y.st with
    | up => exact (congrArg _ hu).trans (congrArg some hys)
    | draining => rw [modPort_self hu]; rfl
    | down => exact absurd hys hst
  · refine ⟨bringUp (downStored s p n x) n, ?_, ?_, fun ha => ?_⟩
    · rw [if_neg (Bool.eq_false_iff.1 hx), hst]
    · unfold bringUp
      dsimp only
      rw [hstore]
      split <;> exact modPort_self hu _
    · have ha' : autoRel (modPort (downStored s p n x) n fun z => { z with st := .up, bifMode := s.store.bifMode.getD n 0 })
          (portHub n) = true := (autoRel_downStored port.isLt).trans ha
      unfold bringUp
      dsimp only
      rw [hstore, if_pos ha']
      exact getD_set_self_false _ _

/-! A port that drains -/

theorem portDownDrainEnd_cuts (port : BitVec 3) (y : Port) : s.ports[port.toNat]? = some y →
    (y.st = .draining → exec (.portDownDrainEnd port) s = .next (if (drainPort s port.toNat).2
      then cutPort (drainPort s port.toNat).1 port.toNat 0 else (drainPort s port.toNat).1)) ∧
    (y.st ≠ .draining → exec (.portDownDrainEnd port) s = .next s) ∧
    (∀ how, y.st ≠ .down → y.links.length = 4 → port.toNat < s.pins.heldPort.length →
      let m := cutPort s port.toNat how;
      (m.ports[port.toNat]?).map (fun z => z.st) = some .down ∧ (∀ l < 4, (link m port.toNat l).up = false) ∧
        m.pins.heldPort.getD port.toNat false = true ∧ ∀ k, k ≠ port.toNat → m.ports[k]? = s.ports[k]?) := by
  intro hy
  have he : exec (.portDownDrainEnd port) s = execPortDownDrainEnd port s := rfl
  have hst : (s.ports[port.toNat]?).map (fun x => x.st) = some y.st := by rw [hy]; rfl
  refine ⟨fun hd => ?_, fun hd => ?_, fun how hd _ hheld => ⟨?_, ?_, ?_, fun k hk => cutPort_other hk⟩⟩
  · rw [he, execPortDownDrainEnd, hst, hd]
    rfl
  · rw [he, execPortDownDrainEnd, hst, if_neg]
    simpa using hd
  · exact cutPort_st (List.getElem?_eq_some_iff.1 hy).1
  · intro l hl
    have hup : portSt s port.toNat ≠ some .down := fun h => hd (Option.some.inj (hst.symm.trans h))
    rw [cutPort_of_up hup, link_congr (event_ports ..), link_portHeld]
    exact linksLost_up (List.mem_range.2 hl)
  · have hup : portSt s port.toNat ≠ some .down := fun h => hd (Option.some.inj (hst.symm.trans h))
    rw [cutPort_of_up hup, event_pins, portHeld_heldPort]
    simp [List.getD_eq_getElem?_getD, hheld]

end
end Sys2Proof.Machine
end

section
/-! Fronds leave service and return, and fail: one lemma per clause of the obligation (R48, R49, R290, R435, Table 1.7). -/

namespace Sys2Proof.Machine
set_option Elab.async false
section
variable {s : State} {p : Place} {w v : Word32}

/-! Service -/

/-- What FROND.SVC reads of a frond. -/
def Frond.svc (f : Frond) : FrondArray × Bool × Bool := (f.arr, f.svcOut, f.svcReturn)

theorem wakeDie_svc (d : Nat) : (wakeDie s d).fronds.map Frond.svc = s.fronds.map Frond.svc := by
  have hub {u : State} (h : Nat) : (wakeHub u h).fronds = u.fronds :=
    (wakeHub_keeps (kl := [.tally, .regs]) (by decide) (.refl _ _)).only .fronds (by decide)
  unfold wakeDie
  extract_lets f u u2
  have hu : u.fronds.map Frond.svc = s.fronds.map Frond.svc := by
    unfold u
    split
    · exact modFrond_map fun _ => rfl
    · rfl
  split
  · exact hu
  · have hw : u2.fronds.map Frond.svc = s.fronds.map Frond.svc := 
        (modFrond_map (s := wakeHub u (halfOf d)) (f := fun f => { f with waking := true }) fun _ => rfl).trans
          (by rw [hub (halfOf d), hu])
    split <;> exact hw

theorem wakeDie_enFr (d : Nat) : (wakeDie s d).pins.enFr.length = s.pins.enFr.length := by
  have hub {u : State} (h : Nat) : (wakeHub u h).pins = u.pins :=
    (wakeHub_keeps (kl := [.tally, .regs]) (by decide) (.refl _ _)).only .pins (by decide)
  unfold wakeDie
  extract_lets f u u2
  have hu : u.pins = s.pins := by
    unfold u
    split
    · simp [setSleepRes]
    · rfl
  split
  · rw [hu]
  · have hu2 : u2.pins = s.pins := by simp only [u2, modFrond_pins, hub, hu]
    split <;> simp [hu2]

theorem writeReady_svc (a : Nat) : (writeReady s p a).fronds.map Frond.svc = s.fronds.map Frond.svc := by
  unfold writeReady wakePage
  dsimp only
  split
  · rfl
  · split
    · exact congrArg _ ((wakeHub_keeps (kl := [.tally, .regs]) (by decide) (.refl _ _)).only .fronds (by decide))
    · exact wakeDie_svc _

theorem writeReady_enFr (a : Nat) : (writeReady s p a).pins.enFr.length = s.pins.enFr.length := by
  unfold writeReady wakePage
  dsimp only
  split
  · rfl
  · split
    · exact congrArg (fun x : Pins => x.enFr.length)
        ((wakeHub_keeps (kl := [.tally, .regs]) (by decide) (.refl _ _)).only .pins (by decide))
    · exact wakeDie_enFr _

/-- No register of the wake of a frond is its FROND.SVC. -/
theorem svcReg_apart : ∀ d < 8, diePage d 0 + 0x800 ≠ sleepResAddr ((diePage d 0 + 0x800) / 0x00400000) ∧
    diePage d 0 + 0x800 ≠ sleepResAddr (halfOf ((diePage d 0 + 0x800) / 0x00400000)) := by decide

/-- The state on which FROND.SVC acts: its word is stored. -/
def svcStored (s : State) (p : Place) (d : Nat) (x : Word) : State := setReg (writeReady s p (diePage d 0 + 0x800)) (diePage d 0 + 0x800) x

/-- A frond taken out: its cache empty, its rail off. -/
def svcTaken (s : State) (d : Nat) : State :=
  let s := setDie (emptyCache s d) d false
  let s := modFrond s d fun f => { f with svcOut := true, svcReturn := false, dstate := 3, sleeping := none, waking := false }
  { s with pins := { s.pins with enFr := s.pins.enFr.set (d - 2) false } }

/-- A frond powered for its return. -/
def svcPowered (s : State) (d : Nat) : State :=
  let s := modFrond s d fun f => { f with svcReturn := true }
  { s with pins := { s.pins with enFr := s.pins.enFr.set (d - 2) true } }

theorem svcPowered_enFr {d : Nat} (hl : d - 2 < s.pins.enFr.length) : (svcPowered s d).pins.enFr.getD (d - 2) false = true := by
  simp [svcPowered, hl]

theorem svcWrite_ready {d : Nat} (hd : d < 8) :
    let x := maskedWrite v 1 (reg s (diePage d 0 + 0x800))
    let u := svcStored s p d x
    svcWrite d (writeReady s p (diePage d 0 + 0x800)) v =
      if x.getLsbD 0 then
        if (frond u d).svcOut then u
        else if frondUsed u d then orReg u (diePage d 0 + 0xC) 1
        else resolveAll (event (svcTaken u d) 0x9009 0 d 0xFF [(1, d), (1, 0)] .steward) 1
      else if (frond u d).svcOut && !(frond u d).svcReturn then svcPowered u d
      else u := by
  unfold svcWrite
  dsimp only
  rw [guardStore_plain, reg_writeReady (svcReg_apart d hd).1 (svcReg_apart d hd).2]
  rfl

theorem frondUsed_svcStored (d : Nat) (x : Word) : frondUsed (svcStored s p d x) d = frondUsed s d := by
  have hp : (svcStored s p d x).pkg = s.pkg := writeReady_pkg
  have ht : (svcStored s p d x).tables = s.tables := writeReady_tables
  unfold frondUsed tableOn baseDie inPair
  rw [hp, ht]

theorem frond_svcStored (d e : Nat) (x : Word) : (frond (svcStored s p d x) e).svc = (frond s e).svc :=
  frond_of_map (writeReady_svc _) e

theorem svcTaken_emptyCache_fronds (d : Nat) : (emptyCache s d).fronds = s.fronds :=
  (emptyCache_keeps (kl := [.boot, .pkg, .lds, .mem, .coh, .life, .log]) (by decide) (.refl _ _)).only .fronds (by decide)

theorem frond_svcTaken {d : Nat} (h2 : 2 ≤ d) (hl : d - 2 < s.fronds.length) : frond (svcTaken s d) d =
    { frond s d with svcOut := true, svcReturn := false, dstate := 3, sleeping := none, waking := false } := by
  have hf : (setDie (emptyCache s d) d false).fronds = s.fronds := svcTaken_emptyCache_fronds d
  exact (frond_modFrond_self (s := setDie (emptyCache s d) d false) h2 (hf ▸ hl) _).trans (by rw [frond_congr hf])

theorem dieIn_svcTaken {d : Nat} (hd : d < 8) : dieIn (svcTaken s d) d = false := by
  have hp : (svcTaken s d).pkg = (setDie (emptyCache s d) d false).pkg := modFrond_pkg _ _ _
  unfold dieIn
  rw [hp]
  exact dieIn_setDie_self hd false

theorem frondSvc_exec (die : BitVec 3) {c : Instr} (hc : c = .frondSvcOut p die w ∨ c = .frondSvcIn p die w)
    (he : TakesEffect s p (diePage die.toNat 0 + 0x800) w v) :
    exec c s = .next (svcWrite die.toNat (writeReady s p (diePage die.toNat 0 + 0x800)) v) := by
  obtain rfl | rfl := hc <;> exact congrArg _ (onGuard_takesEffect he _)

theorem frondSvc_changes (die : BitVec 3) (c : Instr) :
    let d := die.toNat
    let a := diePage d 0 + 0x800
    let x := maskedWrite v 1 (reg s a)
    c = .frondSvcOut p die w ∨ c = .frondSvcIn p die w → TakesEffect s p a w v → 2 ≤ d → d - 2 < s.fronds.length →
      (x.getLsbD 0 = true → (frond s d).svcOut = false →
        (frondUsed s d = true → ∃ m, exec c s = .next m ∧ (frond m d).svcOut = false ∧ (frond m d).arr = (frond s d).arr ∧
          (reg m (diePage d 0 + 0xC)).getLsbD 0 = true ∧
          m.pkg = s.pkg) ∧
        (frondUsed s d = false → ∃ m, exec c s = .next (resolveAll (event m 0x9009 0 d 0xFF [(1, d), (1, 0)] .steward) 1) ∧
          dieIn m d = false ∧ (frond m d).svcOut = true ∧ (frond m d).dstate = 3 ∧ m.pins.enFr.getD (d - 2) false = false)) ∧
      (x.getLsbD 0 = false → (frond s d).svcOut = true → (frond s d).svcReturn = false → d - 2 < s.pins.enFr.length →
        ∃ m, exec c s = .next m ∧ (frond m d).svcReturn = true ∧ (frond m d).svcOut = true ∧
          m.pins.enFr.getD (d - 2) false = true) ∧
      (x.getLsbD 0 = false → (frond s d).svcOut = false → ∃ m, exec c s = .next m ∧ (frond m d).svcOut = false ∧
        (frond m d).arr = (frond s d).arr ∧ m.pkg = s.pkg) := by
  intro d a x hc he h2 hl
  have hs := frond_svcStored (s := s) (p := p) d d x
  have harr : (frond (svcStored s p d x) d).arr = (frond s d).arr := congrArg (·.1) hs
  have hout : (frond (svcStored s p d x) d).svcOut = (frond s d).svcOut := congrArg (·.2.1) hs
  have hret : (frond (svcStored s p d x) d).svcReturn = (frond s d).svcReturn := congrArg (·.2.2) hs
  have hpkg : (svcStored s p d x).pkg = s.pkg := writeReady_pkg
  have hul : d - 2 < (svcStored s p d x).fronds.length := by
    have hlen := congrArg List.length (writeReady_svc (s := s) (p := p) a)
    rw [List.length_map, List.length_map] at hlen
    exact hlen.symm ▸ hl
  rw [frondSvc_exec die hc he, svcWrite_ready die.isLt]
  refine ⟨fun hx h0 => ⟨fun hused => ⟨_, rfl, ?_⟩, fun hfree => ⟨svcTaken (svcStored s p d x) d, ?_, ?_⟩⟩,
    fun hx h1 hr hen => ⟨_, rfl, ?_⟩, fun hx h0 => ⟨_, rfl, ?_⟩⟩
  · rw [if_pos hx, hout, h0, if_neg nofun, frondUsed_svcStored, if_pos hused]
    refine ⟨hout.trans h0, harr, ?_, hpkg⟩
    unfold orReg
    rw [reg_setReg_self]
    simp
  · rw [if_pos hx, hout, h0, if_neg nofun, frondUsed_svcStored, hfree, if_neg nofun]
  · rw [frond_svcTaken h2 hul]
    exact ⟨dieIn_svcTaken die.isLt, rfl, rfl, getD_set_self_false _ _⟩
  · rw [if_neg (Bool.eq_false_iff.1 hx), hout, h1, hret, hr, Bool.not_false, Bool.and_true, if_pos rfl]
    have hf : frond (svcPowered (svcStored s p d x) d) d = { frond (svcStored s p d x) d with svcReturn := true } :=
      frond_modFrond_self h2 hul _
    have hen' : d - 2 < (svcStored s p d x).pins.enFr.length := (writeReady_enFr (s := s) (p := p) a).symm ▸ hen
    rw [hf]
    exact ⟨rfl, hout.trans h1, svcPowered_enFr hen'⟩
  · rw [if_neg (Bool.eq_false_iff.1 hx), hout, h0, Bool.false_and, if_neg nofun]
    exact ⟨hout.trans h0, harr, hpkg⟩

end
end Sys2Proof.Machine
end

section
/-! Fronds that return or are lost, and rhizoid links: one lemma per clause of the obligation (R28, R48, R49, R290, Table 1.7). -/

namespace Sys2Proof.Machine
set_option Elab.async false
section
variable {s : State}

/-! A frond's return -/

/-- A frond whose fill and self-test passed: an empty array, dark tags, in service where its hub link is up. -/
def svcReturned (s : State) (d : Nat) : State :=
  let t := darkTags (modFrond s d fun f => { f with
    arr := refill f.arr, svcOut := false, svcReturn := false, dstate := 0, level := 4, levelTo := none, relock := false,
    hce := [], scrubPos := 0, scrubFrom := nowNs s, scrubLate := false, panOp := none }) d
  setDie t d (!t.pkg.linksDown.contains d)

theorem svcReturned_fronds (d : Nat) : (svcReturned s d).fronds = (modFrond s d fun f => { f with
    arr := refill f.arr, svcOut := false, svcReturn := false, dstate := 0, level := 4, levelTo := none, relock := false,
    hce := [], scrubPos := 0, scrubFrom := nowNs s, scrubLate := false, panOp := none }).fronds := rfl

theorem frond_svcReturned {d : Nat} (h2 : 2 ≤ d) (hl : d - 2 < s.fronds.length) : frond (svcReturned s d) d = { frond s d with
    arr := refill (frond s d).arr, svcOut := false, svcReturn := false, dstate := 0, level := 4, levelTo := none, relock := false,
    hce := [], scrubPos := 0, scrubFrom := nowNs s, scrubLate := false, panOp := none } :=
  (frond_congr (svcReturned_fronds d) d).trans (frond_modFrond_self h2 hl _)

theorem dieIn_svcReturned {d : Nat} (hd : d < 8) : dieIn (svcReturned s d) d = !s.pkg.linksDown.contains d := by
  have hp (f : Frond → Frond) : (darkTags (modFrond s d f) d).pkg = s.pkg := modFrond_pkg _ _ _
  exact (dieIn_setDie_self hd _).trans (by rw [hp])

theorem frond_foldl_selftestFail (l : List (BitVec 3 × Word × Word)) (d : Nat) : frond (l.foldl selftestFail s) d = frond s d :=
  List.foldlRecOn (motive := fun u => frond u d = frond s d) l selftestFail rfl fun _ hu _ _ => (event_frond ..).trans hu

theorem frondSvcInDone_changes (die : BitVec 3) (out : SelftestOut) :
    let d := die.toNat
    2 ≤ d → d - 2 < s.fronds.length → (frond s d).svcOut = true → (frond s d).svcReturn = true →
      ((∀ x ∈ out.failed, x.1 ≠ die) →
        ∃ m, exec (.frondSvcInDone die out) s = .next (resolveAll (event m 0x9009 0 d 0xFF [(1, d), (1, 1)] .steward) 1) ∧
          dieIn m d = !s.pkg.linksDown.contains d ∧ (frond m d).svcOut = false ∧ (frond m d).dstate = 0 ∧
          (∀ row, rowAt m d row = fillRow d row) ∧
          ∀ k, 2 ≤ k → k ≠ d → frond m k = frond s k) ∧
      ((∃ x ∈ out.failed, x.1 = die) →
        ∃ m, exec (.frondSvcInDone die out) s = .next m ∧ frond m d = { frond s d with svcReturn := false }) := by
  intro d h2 hl h1 hr
  have hcond : ((frond s d).svcOut && (frond s d).svcReturn) = true := by rw [h1, hr]; rfl
  have he : exec (.frondSvcInDone die out) s = execFrondSvcInDone die out s := rfl
  refine ⟨fun hok => ⟨svcReturned s d, ?_, dieIn_svcReturned die.isLt, ?_⟩, fun ⟨x, hx, hxd⟩ => ?_⟩
  · have hbad : (out.failed.filter fun x => x.1 == die).isEmpty = true := by
      simpa [List.isEmpty_iff, List.filter_eq_nil_iff] using hok
    rw [he, execFrondSvcInDone, if_pos hcond, if_pos hbad]
    rfl
  · have hf := frond_svcReturned h2 hl
    refine ⟨by rw [hf], by rw [hf], fun row => ?_, fun k hk hne => ?_⟩
    · unfold rowAt
      rw [hf]
      rfl
    · exact (frond_congr (svcReturned_fronds d) k).trans (frond_modFrond_ne hk hne _)
  · have hbad : ¬ (out.failed.filter fun x => x.1 == die).isEmpty = true := by
      rw [List.isEmpty_iff, List.filter_eq_nil_iff]
      exact fun hn => hn x hx (beq_iff_eq.2 hxd)
    rw [he, execFrondSvcInDone, if_pos hcond, if_neg hbad]
    exact ⟨_, rfl, (frond_foldl_selftestFail _ d).trans (frond_modFrond_self h2 hl _)⟩

/-! A frond's failure -/

theorem frondFails_whole {d cause : Nat} (h : inPair s = false) : frondFails s d cause = frondGone s d cause :=
  if_neg (Bool.eq_false_iff.1 h)

theorem frondFails_pair {d cause : Nat} (h : inPair s = true) :
    let u := event s 0x9008 2 d 0xFF [(1, d), (1, cause)] .steward
    frondFails s d cause = if halfState s (halfOf d) = .out then u else halfOut u (halfOf d) 1 := by
  unfold frondFails
  rw [if_pos h]
  dsimp only
  rw [event_halfState]

theorem frondLost_fails (die : BitVec 3) :
    let d := die.toNat
    2 ≤ d → d - 2 < s.fronds.length → started s = true → present s d = true → (frond s d).lost = false → dieIn s d = true →
    let t := modFrond s d fun f => { f with lost := true };
      (inPair s = false → exec (.frondLost die) s = .next (frondGone t d 0)) ∧
      (inPair s = true → let u := event t 0x9008 2 d 0xFF [(1, d), (1, 0)] .steward
        exec (.frondLost die) s = .next (if halfState s (halfOf d) = .out then u else halfOut u (halfOf d) 1)) := by
  intro d h2 _ hst hpr hlost hin t
  have he : exec (.frondLost die) s = .next (frondFails t d 0) := by
    have hc : (started s && decide (2 ≤ d) && present s d && !(frond s d).lost && (dieIn s d || comingBack s (halfOf d))) = true := by
      simp [hst, h2, hpr, hlost, hin]
    exact congrArg _ (if_pos hc)
  have ht : t.pkg = s.pkg := modFrond_pkg _ _ _
  have hp : inPair t = inPair s := by unfold inPair; rw [ht]
  have hh : halfState t (halfOf d) = halfState s (halfOf d) := by unfold halfState; rw [ht]
  refine ⟨fun h => ?_, fun h => ?_⟩
  · rw [he, frondFails_whole (hp.trans h)]
  · rw [he, frondFails_pair (hp.trans h), hh]

/-- Rake moves of the given fronds are dropped. -/
def movesDropped (s : State) (ds : List Nat) : State :=
  ds.foldl (fun s d => modFrond s d fun f => { f with move := none, moves := [], paused := false }) s

theorem dropMoves_steady {ds : List Nat} {st : BitVec 8} : Steady none (movesDropped s ds) (dropMoves s ds st) :=
  (Steady.refl none _).foldl fun _ _ _ g => g.moveOver

/-- A frond that is gone, before its moves are dropped: out of PKG.DIES, its searches ended. -/
def frondCut (s : State) (d : Nat) : State := failSearches (setDie s d false) (fun q => q.res.any fun r => r.die == d) stFrondLost

/-- After its moves are dropped: its bulk operations and its cache are gone. -/
def frondSpent (s : State) (d : Nat) : State :=
  let s := dropMoves (frondCut s d) [d] stFrondLost
  let s := (s.jobs.filter fun e : Nat × Job => e.2.die == d).foldl (fun s e =>
    jobOver s e.1 e.2 stFrondLost (jobData e.2) (jobCost s e.2)) s
  loseAgent s d (hubs s)

theorem frondGone_eq (d cause : Nat) : frondGone s d cause =
    resolveAll (event (modFrond (frondSpent s d) d fun f => { f with hce := [] }) 0x9008 2 d 0xFF [(1, d), (1, cause)] .steward) 6 := rfl

theorem frondCut_steady (d : Nat) : Steady none (setDie s d false) (frondCut s d) := (Steady.refl none _).failSearches

theorem frondSpent_steady (d : Nat) : Steady none (movesDropped (frondCut s d) [d]) (frondSpent s d) :=
  Steady.loseAgent (dropMoves_steady.jobsOver)

theorem frondGone_after (d cause : Nat) : 2 ≤ d → d < 8 → d - 2 < s.fronds.length →
    let m := frondGone s d cause
    dieIn m d = false ∧ (frond m d).move = none ∧ (frond m d).moves = [] ∧ (frond m d).hce = [] := by
  intro h2 h8 hl m
  have hcut : d - 2 < (frondCut s d).fronds.length := (frondCut_steady d).fronds_length.symm ▸ hl
  have hspent : d - 2 < (frondSpent s d).fronds.length := by
    rw [(frondSpent_steady d).fronds_length]
    exact (modFrond_fronds_length d _).symm ▸ hcut
  have hlast : Steady none (frondSpent s d) m := by
    unfold m
    rw [frondGone_eq]
    exact ((Steady.refl none _).frond d).event.resolveAll
  have hdie : dieIn m d = false := by
    have hpkg : (movesDropped (frondCut s d) [d]).pkg = (frondCut s d).pkg := modFrond_pkg _ _ _
    rw [hlast.dieIn, (frondSpent_steady d).dieIn, dieIn, hpkg]
    exact ((frondCut_steady d).dieIn d).trans (dieIn_setDie_self h8 false)
  have hwork : (frond m d).work = (none, []) := by
    rw [hlast.frond_work, (frondSpent_steady d).frond_work]
    exact congrArg Frond.work (frond_modFrond_self h2 hcut _)
  have hhce : (frond m d).hce = [] := by
    have hm : m.fronds = (modFrond (frondSpent s d) d fun f => { f with hce := [] }).fronds :=
      ((resolveAll_keeps (kl := [.boot, .pkg, .lds, .covs, .life, .log]) (by decide) (.refl _ _)).only .fronds (by decide)).trans
        (event_fronds ..)
    rw [frond_congr hm, frond_modFrond_self h2 hspent]
  exact ⟨hdie, congrArg (·.1) hwork, congrArg (·.2) hwork, hhce⟩

/-! Links -/

/-- A link is recorded as down. -/
def linkMarked (s : State) (k : Nat) : State := { s with pkg := { s.pkg with linksDown := k :: s.pkg.linksDown } }

/-- A link is recorded as down, with LINK_DOWN. -/
def linkNoted (s : State) (k : Nat) : State := event (linkMarked s k) 0x9001 2 (if k < 8 then k else 0xFF) 0xFF [(1, k)] .steward

theorem linkDown_exec (l : BitVec 8) (hh : linkHere s l.toNat = true) (hd : s.pkg.linksDown.contains l.toNat = false)
    (h2 : 2 ≤ s.boot.stage.toNat) (hb : s.boot.stage.toNat ≤ 0x0B) :
    exec (.linkDown l) s = .next (if started s then linkEffect (linkNoted s l.toNat) l.toNat
      else linkStart (linkNoted s l.toNat) l.toNat) := by
  have hc : (linkHere s l.toNat && !s.pkg.linksDown.contains l.toNat && decide (2 ≤ s.boot.stage.toNat) &&
      decide (s.boot.stage.toNat ≤ 0x0B)) = true := by simp only [hh, hd, h2, hb]; rfl
  have hs : started (linkNoted s l.toNat) = started s := event_started ..
  refine (congrArg _ (if_pos hc)).trans ?_
  exact hs ▸ rfl

theorem started_stage (h : started s = true) : s.boot.stage.toNat = 0x0B := by
  unfold started at h
  rw [eq_of_beq h]
  rfl

theorem comingBack_linkNoted (k h : Nat) : comingBack (linkNoted s k) h = comingBack s h := by
  unfold comingBack linkNoted
  rw [event_inPair, event_halfState]
  rfl

theorem crossCut_linkNoted (k : Nat) : crossCut (linkNoted s k) = crossCut (linkMarked s k) := by
  unfold crossCut linkNoted
  rw [event_pkg]

/-- What a link that goes down takes with it in service (Table 1.7). -/
theorem linkDown_inService (l : BitVec 8) :
    let k := l.toNat
    let u := linkNoted s k
    linkHere s k = true → s.pkg.linksDown.contains k = false → started s = true →
      (k < 8 → exec (.linkDown l) s = .next (if dieIn s k || comingBack s (halfOf k) then frondFails u k 1 else u)) ∧
      (k = 0x10 ∨ k = 0x11 → exec (.linkDown l) s = .next (if crossCut (linkMarked s k) then crossLost u else u)) ∧
      (0x20 ≤ k → inPair s = false →
        exec (.linkDown l) s = .next (failSearches u (fun q => arcBroken u (q.res.map fun r => r.die - 2)) stCascadeBroken)) ∧
      (∀ h, 0x20 ≤ k → inPair s = true → hopHalf (k - 0x20) = some h → halfState s h ≠ .out →
        exec (.linkDown l) s = .next (halfOut u h 1)) ∧
      (0x20 ≤ k → inPair s = true → (∀ h, hopHalf (k - 0x20) = some h → halfState s h = .out) →
        exec (.linkDown l) s = .next u) := by
  intro k u hh hd hs
  have hstage := started_stage hs
  have he : exec (.linkDown l) s = .next (linkEffect u k) := by
    rw [linkDown_exec l hh hd (by omega) (by omega), if_pos hs]
  have hp : inPair u = inPair s := event_inPair ..
  have hst (h : Nat) : halfState u h = halfState s h := event_halfState ..
  rw [he]
  unfold linkEffect
  refine ⟨fun hk => ?_, fun hk => ?_, fun hk hw => ?_, fun h hk hw hop hne => ?_, fun hk hw hno => ?_⟩
  · have hin : dieIn u k = dieIn s k := event_dieIn ..
    rw [if_pos hk, hin, comingBack_linkNoted]
  · rw [if_neg (by omega), if_pos (by omega), crossCut_linkNoted]
  · rw [if_neg (by omega), if_neg (by omega), hp, hw, if_neg nofun]
  · rw [if_neg (by omega), if_neg (by omega), hp, if_pos hw, hop]
    dsimp only
    rw [hst, if_neg hne]
  · rw [if_neg (by omega), if_neg (by omega), hp, if_pos hw]
    split
    next h hop => rw [hst, if_pos (hno h hop)]
    · rfl

/-- What a link that goes down takes with it in a start-up. -/
theorem linkDown_inStart (l : BitVec 8) :
    let k := l.toNat
    let u := linkNoted s k
    linkHere s k = true → s.pkg.linksDown.contains k = false → 2 ≤ s.boot.stage.toNat → s.boot.stage.toNat ≤ 10 →
      (startPair s = false → exec (.linkDown l) s = .next u) ∧
      (∀ h, startPair s = true → linkHalf u k = some h →
        exec (.linkDown l) s = .next (if (startHubs u).contains h then startHalfOut u h else u)) ∧
      (startPair s = true → linkHalf u k = none → exec (.linkDown l) s = .next u) := by
  intro k u hh hd h2 h10
  have hs : ¬ started s = true := fun h => by
    have := started_stage h
    omega
  have he : exec (.linkDown l) s = .next (linkStart u k) := by
    rw [linkDown_exec l hh hd h2 (by omega), if_neg hs]
  have hp : startPair u = startPair s := event_startPair ..
  rw [he]
  unfold linkStart
  refine ⟨fun h => ?_, fun x h hx => ?_, fun h hn => ?_⟩
  · rw [hp, h]
    rfl
  · rw [hp, h, hx]
    rfl
  · rw [hp, h, hn]
    rfl

theorem linkDown_again (l : BitVec 8) (hd : s.pkg.linksDown.contains l.toNat = true) : exec (.linkDown l) s = .next s := by
  have hc : ¬ (linkHere s l.toNat && !s.pkg.linksDown.contains l.toNat && decide (2 ≤ s.boot.stage.toNat) &&
      decide (s.boot.stage.toNat ≤ 0x0B)) = true := by rw [hd]; simp
  exact congrArg _ (if_neg hc)

theorem linkUp_of_up (l : BitVec 8) (hd : s.pkg.linksDown.contains l.toNat = false) : exec (.linkUp l) s = .next s :=
  congrArg _ (if_neg (Bool.eq_false_iff.1 hd))

/-- A link that has trained again, with LINK_UP. -/
def linkBack (s : State) (k : Nat) : State :=
  event { s with pkg := { s.pkg with linksDown := s.pkg.linksDown.filter (· != k) } } 0x9002 0 (if k < 8 then k else 0xFF) 0xFF
    [(1, k)] .steward

theorem linkBack_linksDown (k j : Nat) : (linkBack s k).pkg.linksDown.contains j = (s.pkg.linksDown.contains j && j != k) := by
  unfold linkBack
  rw [event_pkg]
  simp only [List.contains_eq_mem, List.mem_filter]
  exact (Bool.decide_and _ _).trans (by rw [Bool.decide_eq_true])

theorem linkUp_exec (l : BitVec 8) (hd : s.pkg.linksDown.contains l.toNat = true) :
    let k := l.toNat
    exec (.linkUp l) s = .next (if started s && k < 8 && !inPair s && !(frond s k).lost && !(frond s k).svcOut
      then resolveAll (setDie (linkBack s k) k true) 6 else linkBack s k) := by
  intro k
  have h1 : started (linkBack s k) = started s := event_started ..
  have h2 : inPair (linkBack s k) = inPair s := event_inPair ..
  have h3 : frond (linkBack s k) k = frond s k := event_frond ..
  have he : exec (.linkUp l) s = .next (if started (linkBack s k) && k < 8 && !inPair (linkBack s k) && !(frond (linkBack s k) k).lost &&
      !(frond (linkBack s k) k).svcOut then resolveAll (setDie (linkBack s k) k true) 6 else linkBack s k) := congrArg _ (if_pos hd)
  rw [he, h1, h2, h3]

theorem linkUp_changes (l : BitVec 8) :
    let k := l.toNat
    s.pkg.linksDown.contains k = true →
      ∃ m, (∀ j, m.pkg.linksDown.contains j = (s.pkg.linksDown.contains j && j != k)) ∧
        (started s = true → k < 8 → inPair s = false → (frond s k).lost = false → (frond s k).svcOut = false →
          exec (.linkUp l) s = .next (resolveAll (setDie m k true) 6)) ∧
        (started s = false ∨ 8 ≤ k ∨ inPair s = true → exec (.linkUp l) s = .next m) := by
  intro k hd
  refine ⟨linkBack s k, linkBack_linksDown k, fun hs h8 hp hl ho => ?_, fun hc => ?_⟩ <;> rw [linkUp_exec l hd]
  · rw [if_pos]
    change (started s && decide (k < 8) && !inPair s && !(frond s k).lost && !(frond s k).svcOut) = true
    rw [hs, hp, hl, ho, decide_eq_true h8]
    rfl
  · rw [if_neg]
    simp only [Bool.and_eq_true, decide_eq_true_eq, Bool.not_eq_true']
    rintro ⟨⟨⟨⟨hs, h8⟩, hp⟩, _⟩, _⟩
    rw [hs, hp] at hc
    obtain h | h | h := hc
    · cases h
    · exact absurd h8 (Nat.not_lt.2 h)
    · cases h

end

/-- Settles O57: each clause is the equation of its command on the state that its guard, its drain or its event leaves; a frond that is
gone keeps nothing because what follows the drop of its moves is steady. -/
theorem portsFrondsAndLinksChange : Obligations.PortsFrondsAndLinksChange := by
  unfold Obligations.PortsFrondsAndLinksChange
  exact ⟨fun s p port w v => hportBif_kept port, fun s p port w v c y => hportDown_changes port c y,
    fun s port y => portDownDrainEnd_cuts port y, fun s p die w v c => frondSvc_changes die c,
    fun s die out => frondSvcInDone_changes die out, fun s die => frondLost_fails die, fun s d cause => frondGone_after d cause,
    fun s l => ⟨linkDown_inService l, linkDown_inStart l, linkDown_again l, linkUp_changes l, linkUp_of_up l⟩⟩

end Sys2Proof.Machine
end

section
/-! PKG.MODE and PKG.HALFCTL: one lemma per clause of the obligation (R34, R38, R42, R432, Table 11.8). -/

namespace Sys2Proof.Machine
set_option Elab.async false
section
variable {s : State} {p : Place} {w v : Word32}

/-! PKG.MODE -/

/-- A page of no die wakes none. -/
theorem reg_writeReady_global {a : Nat} (ha : 8 ≤ a / 0x00400000) (b : Nat) : reg (writeReady s p a) b = reg s b := by
  unfold writeReady wakePage
  dsimp only
  rw [if_pos ha]
  rfl

theorem reg_reject_ne (s : State) {base bit ofs b : Nat} (h1 : b ≠ base + 0x18) (h2 : b ≠ base + 0x1C) (h3 : b ≠ base + 0x10) :
    reg (reject s base bit ofs) b = reg s b := by
  have evt (u : State) (k : Nat) : reg (setEvt u base k) b = reg u b := by
    have hs (x : Word) : reg (setReg u (base + 0x10) x) b = reg u b := reg_setReg_ne _ _ h3
    unfold setEvt
    extract_lets old u'
    split
    · split
      · exact hs _
      · exact hs _
    · exact hs _
  unfold reject
  dsimp only
  split
  · rw [evt, reg_setReg_ne _ _ h2, reg_setReg_ne _ _ h1]
  · exact reg_setReg_ne _ _ h1

theorem reg_guardStore (s : State) {a : Nat} (g : GuardSpec) (w : Word32) (h : 0x1C < a % 4096) :
    reg (guardStore s a g w).1 a = maskedWrite w g.rwg (reg s a) := by
  have hb : pageBase a + a % 4096 = a := by unfold pageBase; omega
  have hx := reg_setReg_self s a (maskedWrite w g.rwg (reg s a))
  unfold guardStore
  dsimp only
  split
  · exact hx
  · split
    · rw [reg_reject_ne _ (by omega) (by omega) (by omega)]
      exact hx
    · exact hx

theorem guardStore_snd (s : State) (a : Nat) (g : GuardSpec) (w : Word32) : (guardStore s a g w).2 = maskedWrite w g.rwg (reg s a) := rfl

theorem modeWrite_ls8 {u : State} (hp : u.chip.part = .ls8) (hm : maskOf v &&& 3 ≠ 0) :
    let a := globalPage 0 + 0x800
    let x := maskedWrite v 3 (reg u a)
    let g := (guardStore u a ⟨0x800, 3, 0x10⟩ v).1
    modeWrite u v = covered (storeWrite { g with
      store := { g.store with sel := if bits x 1 0 = 3 then none else some (BitVec.ofNat 2 (bits x 1 0)) } }) a := by
  intro a x g
  have h3 : BitVec.ofNat 2 (bits x 1 0) = 3 ↔ bits x 1 0 = 3 := by
    rw [← setWidth_and_three, ← and_three_eq]
    constructor <;> intro h
    · have ht := congrArg BitVec.toNat h
      rw [BitVec.toNat_setWidth, and_three_toNat] at ht
      refine BitVec.eq_of_toNat_eq ((and_three_toNat x).trans ?_)
      have hlt : bits x 1 0 < 4 := Nat.mod_lt _ (by decide)
      exact (Nat.mod_eq_of_lt hlt).symm.trans ht
    · rw [h]; rfl
  unfold modeWrite
  rw [if_neg (by simp [hp])]
  dsimp only
  rw [if_neg hm, guardStore_snd]
  simp only [setWidth_and_three]
  rw [show BitVec.ofNat 2 (bits (maskedWrite v 3 (reg u (globalPage 0 + 0x800))) 1 0) = BitVec.ofNat 2 (bits x 1 0) from rfl]
  simp only [h3]
  rfl

theorem pkgMode_kept :
    let a := globalPage 0 + 0x800
    let x := maskedWrite v 3 (reg s a)
    TakesEffect s p a w v →
      (s.chip.part = .ls8 → maskOf v &&& 3 ≠ 0 →
        ∃ m, exec (.pkgModeSel p w) s = .next m ∧ m.pkg = s.pkg ∧ reg m a = x ∧
          m.store.sel = if bits x 1 0 = 3 then none else some (BitVec.ofNat 2 (bits x 1 0))) ∧
      (s.chip.part ≠ .ls8 → ∃ m, exec (.pkgModeSel p w) s = .next m ∧ m.store = s.store ∧ reg m a = reg s a) := by
  intro a x he
  have hx : exec (.pkgModeSel p w) s = .next (modeWrite (writeReady s p a) v) := congrArg _ (onGuard_takesEffect he _)
  have hr : reg (writeReady s p a) a = reg s a := reg_writeReady_global (by decide) a
  refine ⟨fun hp hm => ⟨_, hx, ?_⟩, fun hp => ⟨_, hx, ?_⟩⟩
  · have hk {u : State} : Only [.life] u (storeWrite u) := (storeWrite_keeps (by decide) (.refl _ _)).only
    have hg : Only [.regs, .wire] (writeReady s p a) (guardStore (writeReady s p a) a ⟨0x800, 3, 0x10⟩ v).1 :=
      (guardStore_keeps (by decide) (.refl _ _)).only
    rw [show modeWrite (writeReady s p a) v = _ from modeWrite_ls8 (by rw [writeReady_chip, hp]) hm, hr]
    refine ⟨?_, ?_, congrArg Store.sel (hk .store (by decide))⟩
    · exact (hk .pkg (by decide)).trans ((hg .pkg (by decide)).trans writeReady_pkg)
    · refine (reg_covered _ _ _).trans ((reg_congr (hk .regs (by decide)) _).trans ?_)
      exact (reg_guardStore (writeReady s p a) ⟨0x800, 3, 0x10⟩ v (by decide)).trans (by rw [hr])
  · have hn : modeWrite (writeReady s p a) v = writeReady s p a := by
      unfold modeWrite
      exact if_pos (by simpa using hp)
    rw [hn]
    exact ⟨writeReady_store, hr⟩

end
end Sys2Proof.Machine
end

section
/-! PKG.HALFCTL and the end of a half's drain: one lemma per operation (R38, R432, Table 11.8). -/

namespace Sys2Proof.Machine
set_option Elab.async false
section
variable {s t : State} {p : Place} {w v : Word32}

theorem inPair_congr (h : t.pkg = s.pkg) : inPair t = inPair s := by unfold inPair; rw [h]
theorem halfState_of (h : t.pkg.half = s.pkg.half) (x : Nat) : halfState t x = halfState s x := by unfold halfState; rw [h]
theorem halfState_congr (h : t.pkg = s.pkg) (x : Nat) : halfState t x = halfState s x := halfState_of (congrArg _ h) x
theorem primary_of (h : t.pkg.primaryB = s.pkg.primaryB) : primary t = primary s := by unfold primary; rw [h]
theorem primary_congr (h : t.pkg = s.pkg) : primary t = primary s := primary_of (congrArg _ h)
theorem serving_congr (h : t.pkg = s.pkg) (x : Nat) : serving t x = serving s x := by unfold serving; rw [h]

/-! The primary half -/

theorem handCounts_only (l : List Nat) : Only [.fronds] s (l.foldl handCounts s) :=
  (Keeps.foldl (.refl _ _) fun _ _ => handCounts_keeps (by decide) (.refl _ _)).only

theorem makePrimary_pkg (h : Nat) : (makePrimary s h).pkg = { s.pkg with
    primaryB := if primary s = h then s.pkg.primaryB else h == 1, lastFail := (makePrimary s h).pkg.lastFail } := by
  unfold makePrimary
  split
  · rfl
  · dsimp only
    rw [handCounts_only _ .pkg (by decide), event_pkg]

theorem primary_makePrimary {h : Nat} (h2 : h < 2) : primary (makePrimary s h) = h := by
  have hp := congrArg Pkg.primaryB (makePrimary_pkg (s := s) h)
  by_cases hs : primary s = h
  · unfold makePrimary
    rw [if_pos hs, hs]
  · rw [if_neg hs] at hp
    unfold primary
    rw [show (makePrimary s h).pkg.primaryB = (h == 1) from hp]
    interval_cases h <;> rfl

theorem makePrimary_half (h : Nat) : (makePrimary s h).pkg.half = s.pkg.half := by rw [makePrimary_pkg]

theorem makePrimary_only (h : Nat) : Only [.boot, .pkg, .lds, .fronds, .life, .log] s (makePrimary s h) :=
  (makePrimary_keeps (by decide) (.refl _ _)).only

theorem halfState_makePrimary (h x : Nat) : halfState (makePrimary s h) x = halfState s x := by
  unfold halfState
  rw [makePrimary_half]

/-! Half states and drains -/

theorem halfState_setHalf_self {h : Nat} (hl : h < s.pkg.half.length) (x : HalfState) : halfState (setHalf s h x) h = x := by
  simp [halfState, setHalf, hl]

theorem halfState_setHalf_ne {h k : Nat} (hk : k ≠ h) (x : HalfState) : halfState (setHalf s h x) k = halfState s k := by
  simp [halfState, setHalf, List.getD_eq_getElem?_getD, hk.symm]

/-- A half that is not out has its place in the list. -/
theorem halfState_lt {h : Nat} (hs : halfState s h ≠ .out) : h < s.pkg.half.length := by
  by_contra hn
  exact hs (by simp [halfState, List.getD_eq_getElem?_getD, List.getElem?_eq_none (Nat.le_of_not_lt hn)])

/-- Ports begin to drain. -/
def portsDraining (s : State) (ps : List Nat) : State :=
  ps.foldl (fun s p => modPort s p fun x => if x.st = .up then { x with st := .draining } else x) s

theorem portsDraining_pkg (ps : List Nat) : (portsDraining s ps).pkg = s.pkg :=
  List.foldlRecOn (motive := fun u : State => u.pkg = s.pkg) ps _ rfl fun _ hu _ _ => hu

theorem portSt_modPort_drain (n m : Nat) : portSt (modPort s n fun x => if x.st = .up then { x with st := .draining } else x) m =
    if m = n ∧ portSt s m = some .up then some .draining else portSt s m := by
  unfold portSt modPort
  dsimp only
  by_cases hn : m = n
  · subst hn
    rw [List.getElem?_modify_eq]
    cases s.ports[m]? with
    | none => simp
    | some y => by_cases hu : y.st = .up <;> simp [hu]
  · rw [List.getElem?_modify_ne _ _ (Ne.symm hn), if_neg fun hc => hn hc.1]

theorem portsDraining_st_of_draining {m : Nat} {ps : List Nat} (h : portSt s m = some .draining) :
    portSt (portsDraining s ps) m = some .draining := by
  induction ps generalizing s with
  | nil => exact h
  | cons n ps ih =>
    refine ih (s := modPort s n _) ?_
    rw [portSt_modPort_drain, h, if_neg fun hc => nomatch hc.2]

theorem portsDraining_st {m : Nat} {ps : List Nat} (hm : m ∈ ps) (h : portSt s m = some .up) :
    portSt (portsDraining s ps) m = some .draining := by
  induction ps generalizing s with
  | nil => cases hm
  | cons n ps ih =>
    by_cases hn : m = n
    · refine portsDraining_st_of_draining (s := modPort s n _) ?_
      rw [portSt_modPort_drain, if_pos ⟨hn, h⟩]
    · refine ih (s := modPort s n _) ((List.mem_cons.1 hm).resolve_left hn) ?_
      rw [portSt_modPort_drain, if_neg fun hc => hn hc.1, h]

/-! The operations -/

theorem halfRefused_stat : (reg (halfRefused s) (globalPage 0 + 0xC)).getLsbD 0 = true := by
  unfold halfRefused orReg
  rw [reg_setReg_self]
  simp

theorem takeHalfOut_refused {h : Nat} (hn : halfState s (1 - h) ≠ .serving) : takeHalfOut s h = halfRefused s := by
  unfold takeHalfOut
  exact if_pos (by simpa using hn)

theorem takeHalfOut_drains {h : Nat} (h2 : h < 2) (h1 : halfState s (1 - h) = .serving) (h0 : halfState s h = .serving) :
    halfState (takeHalfOut s h) h = .draining ∧ halfState (takeHalfOut s h) (1 - h) = .serving ∧
      primary (takeHalfOut s h) = 1 - h ∧
      ∀ port ∈ hubPorts h, portSt s port = some .up → portSt (takeHalfOut s h) port = some .draining := by
  have he : takeHalfOut s h = portsDraining (setHalf (makePrimary s (1 - h)) h .draining) (hubPorts h) := by
    unfold takeHalfOut
    rw [h1, h0]
    rfl
  have hpkg := portsDraining_pkg (s := setHalf (makePrimary s (1 - h)) h .draining) (hubPorts h)
  have hlen : h < (makePrimary s (1 - h)).pkg.half.length := by
    rw [makePrimary_half]
    exact halfState_lt (by rw [h0]; nofun)
  rw [he]
  refine ⟨?_, ?_, ?_, fun port hp hup => portsDraining_st hp ?_⟩
  · rw [halfState_congr hpkg, halfState_setHalf_self hlen]
  · rw [halfState_congr hpkg, halfState_setHalf_ne (by omega), halfState_makePrimary, h1]
  · rw [primary_congr hpkg]
    exact primary_makePrimary (by omega)
  · have hports : (makePrimary s (1 - h)).ports = s.ports := makePrimary_only _ .ports (by decide)
    have : portSt (setHalf (makePrimary s (1 - h)) h .draining) port = portSt s port := by
      unfold portSt
      exact congrArg (fun l : List Port => (l[port]?).map fun x => x.st) hports
    rw [this, hup]

/-- Fronds that were lost are so no longer. -/
def frondsFound (s : State) (ds : List Nat) : State := ds.foldl (fun s d => modFrond s d fun f => { f with lost := false }) s

theorem frondsFound_pkg (ds : List Nat) : (frondsFound s ds).pkg = s.pkg :=
  List.foldlRecOn (motive := fun u : State => u.pkg = s.pkg) ds _ rfl fun _ hu _ _ => (modFrond_pkg _ _ _).trans hu

theorem returnHalf_starts {h : Nat} (hl : h < s.pkg.half.length) (ho : halfState s h = .out) (hd : (harvestOf s h).held = false) :
    halfState (returnHalf s h) h = .returning ∧ ((returnHalf s h).boot.returning.map (·.1)) = some h ∧
      primary (returnHalf s h) = primary s := by
  have hheld : ((s.harvest[h]?).map fun x => x.held).getD false = false := by
    unfold harvestOf at hd
    rw [List.getD_eq_getElem?_getD] at hd
    cases hx : s.harvest[h]? with
    | none => rfl
    | some y => rw [hx] at hd; exact hd
  have hpkg := frondsFound_pkg (s := setHalf s h .returning) (halfDies h)
  have hhalf := congrArg Pkg.half hpkg
  have hprim := congrArg Pkg.primaryB hpkg
  have he : returnHalf s h = (let u := frondsFound (setHalf s h .returning) (halfDies h)
      { u with pkg := { u.pkg with frozen := u.pkg.frozen.set h false }
               boot := { u.boot with returning := some (h, if s.pins.pgHub.getD h false then 3 else 2) } }) := by
    unfold returnHalf
    rw [ho]
    dsimp only
    rw [hheld]
    rfl
  rw [he]
  refine ⟨?_, rfl, ?_⟩
  · exact (halfState_of hhalf h).trans (halfState_setHalf_self hl .returning)
  · exact primary_of hprim

theorem returnHalf_refused {h : Nat} (hs : halfState s h ∈ [.serving, .draining]) : returnHalf s h = halfRefused s := by
  unfold returnHalf
  simp only [List.mem_cons, List.not_mem_nil, or_false] at hs
  obtain hs | hs := hs <;> rw [hs]

/-- The word that PKG.HALFCTL takes. -/
def halfWord (s : State) (v : Word32) : Word := maskedWrite v 0x0301 (reg s (globalPage 0 + 0x808))

/-- The state on which PKG.HALFCTL acts: its word is stored. -/
def halfStored (s : State) (p : Place) (x : Word) : State := setReg (writeReady s p (globalPage 0 + 0x808)) (globalPage 0 + 0x808) x

theorem halfStored_pkg (x : Word) : (halfStored s p x).pkg = s.pkg := writeReady_pkg

theorem halfCtl_ready : halfCtl (writeReady s p (globalPage 0 + 0x808)) v =
    let u := halfStored s p (halfWord s v)
    let h := bits (halfWord s v) 0 0
    match bits (halfWord s v) 9 8 with
      | 0 => u
      | 1 => if inPair s then takeHalfOut u h else halfRefused u
      | 2 => if inPair s then returnHalf u h else halfRefused u
      | _ => if inPair s && serving s h then makePrimary u h else halfRefused u := by
  have hp (x : Word) : inPair (halfStored s p x) = inPair s := inPair_congr (halfStored_pkg x)
  have hs (x : Word) (k : Nat) : serving (halfStored s p x) k = serving s k := serving_congr (halfStored_pkg x) k
  unfold halfCtl
  dsimp only
  rw [guardStore_plain, reg_writeReady_global (by decide), ← hp (halfWord s v), ← hs (halfWord s v)]
  rfl

theorem halfCtl_idle (h0 : bits (halfWord s v) 9 8 = 0) :
    halfCtl (writeReady s p (globalPage 0 + 0x808)) v = halfStored s p (halfWord s v) := by
  rw [halfCtl_ready, h0]
  rfl

theorem halfCtl_whole (hn : bits (halfWord s v) 9 8 ≠ 0) (hp : inPair s = false) :
    halfCtl (writeReady s p (globalPage 0 + 0x808)) v = halfRefused (halfStored s p (halfWord s v)) := by
  rw [halfCtl_ready, hp]
  dsimp only
  split
  next h0 => exact absurd h0 hn
  all_goals rfl

theorem halfCtl_takeOut (h1 : bits (halfWord s v) 9 8 = 1) (hp : inPair s = true) :
    halfCtl (writeReady s p (globalPage 0 + 0x808)) v = takeHalfOut (halfStored s p (halfWord s v)) (bits (halfWord s v) 0 0) := by
  rw [halfCtl_ready, h1]
  exact if_pos hp

theorem halfCtl_return (h2 : bits (halfWord s v) 9 8 = 2) (hp : inPair s = true) :
    halfCtl (writeReady s p (globalPage 0 + 0x808)) v = returnHalf (halfStored s p (halfWord s v)) (bits (halfWord s v) 0 0) := by
  rw [halfCtl_ready, h2]
  exact if_pos hp

theorem halfCtl_primary (h3 : bits (halfWord s v) 9 8 = 3) (hp : inPair s = true) :
    halfCtl (writeReady s p (globalPage 0 + 0x808)) v = if serving s (bits (halfWord s v) 0 0)
      then makePrimary (halfStored s p (halfWord s v)) (bits (halfWord s v) 0 0)
      else halfRefused (halfStored s p (halfWord s v)) := by
  rw [halfCtl_ready, h3, hp]
  rfl

theorem halfCtl_exec {c : Instr} (hc : c ∈ [.halfTakeOut p w, .halfReturn p w, .halfMakePrimary p w])
    (he : TakesEffect s p (globalPage 0 + 0x808) w v) :
    exec c s = .next (halfCtl (writeReady s p (globalPage 0 + 0x808)) v) := by
  simp only [List.mem_cons, List.not_mem_nil, or_false] at hc
  obtain rfl | rfl | rfl := hc <;> exact congrArg _ (onGuard_takesEffect he _)

theorem halfCtl_changes (c : Instr) :
    let a := globalPage 0 + 0x808
    let x := maskedWrite v 0x0301 (reg s a)
    let h := bits x 0 0
    let op := bits x 9 8
    c ∈ [.halfTakeOut p w, .halfReturn p w, .halfMakePrimary p w] → TakesEffect s p a w v →
    ∃ m, exec c s = .next m ∧ (op = 0 → m.pkg = s.pkg) ∧
      (op ≠ 0 → inPair s = false → m.pkg = s.pkg ∧ (reg m (globalPage 0 + 0xC)).getLsbD 0 = true) ∧
      (inPair s = true →
        (op = 1 → halfState s (1 - h) = .serving → halfState s h = .serving →
          halfState m h = .draining ∧ halfState m (1 - h) = .serving ∧ primary m = 1 - h ∧
          ∀ port ∈ hubPorts h, (s.ports[port]?).map (fun y => y.st) = some .up →
            (m.ports[port]?).map (fun y => y.st) = some .draining) ∧
        (op = 1 → halfState s (1 - h) ≠ .serving → m.pkg = s.pkg ∧ (reg m (globalPage 0 + 0xC)).getLsbD 0 = true) ∧
        (op = 2 → halfState s h = .out → h < s.pkg.half.length → (harvestOf s h).held = false →
          halfState m h = .returning ∧ (m.boot.returning.map (·.1)) = some h ∧ primary m = primary s) ∧
        (op = 2 → halfState s h ∈ [.serving, .draining] → m.pkg = s.pkg ∧ (reg m (globalPage 0 + 0xC)).getLsbD 0 = true) ∧
        (op = 3 → serving s h = true → primary m = h ∧ m.pkg.half = s.pkg.half) ∧
        (op = 3 → serving s h = false → m.pkg = s.pkg ∧ (reg m (globalPage 0 + 0xC)).getLsbD 0 = true)) := by
  intro a x h op hc he
  have hu : (halfStored s p x).pkg = s.pkg := halfStored_pkg x
  have hst (k : Nat) : halfState (halfStored s p x) k = halfState s k := halfState_congr hu k
  have hh : h < 2 := Nat.mod_lt _ (by decide)
  have href : (halfRefused (halfStored s p x)).pkg = s.pkg ∧
      (reg (halfRefused (halfStored s p x)) (globalPage 0 + 0xC)).getLsbD 0 = true :=
    ⟨hu, halfRefused_stat⟩
  refine ⟨_, halfCtl_exec hc he, fun h0 => ?_, fun hn hw => ?_, fun hw => ⟨fun h1 ho hm => ?_, fun h1 ho => ?_, fun h2 ho hl hd => ?_,
    fun h2 ho => ?_, fun h3 ho => ?_, fun h3 ho => ?_⟩⟩
  · rw [halfCtl_idle h0]
    exact hu
  · rw [halfCtl_whole hn hw]
    exact href
  · have hd := takeHalfOut_drains hh ((hst _).trans ho) ((hst _).trans hm)
    unfold portSt at hd
    rw [show (halfStored s p x).ports = s.ports from writeReady_ports] at hd
    rw [halfCtl_takeOut h1 hw]
    exact hd
  · rw [halfCtl_takeOut h1 hw]
    rw [takeHalfOut_refused (s := halfStored s p (halfWord s v)) (h := bits (halfWord s v) 0 0) fun e => ho ((hst _).symm.trans e)]
    exact href
  · have hheld : (harvestOf (halfStored s p x) h).held = false := by
      unfold harvestOf at hd ⊢
      rwa [show (halfStored s p x).harvest = s.harvest from writeReady_harvest]
    obtain ⟨hr, hb, hpr⟩ := returnHalf_starts (hu.symm ▸ hl) ((hst h).trans ho) hheld
    rw [halfCtl_return h2 hw]
    exact ⟨hr, hb, hpr.trans (primary_congr hu)⟩
  · rw [halfCtl_return h2 hw, returnHalf_refused ((hst h).symm ▸ ho)]
    exact href
  · rw [halfCtl_primary h3 hw, if_pos (show serving s (bits (halfWord s v) 0 0) = true from ho)]
    exact ⟨primary_makePrimary hh, (makePrimary_half _).trans (congrArg Pkg.half hu)⟩
  · rw [halfCtl_primary h3 hw, if_neg (Bool.eq_false_iff.1 (show serving s (bits (halfWord s v) 0 0) = false from ho))]
    exact href

theorem halfOutDrainEnd_exec (half : BitVec 1) (hp : inPair s = true) (hd : halfState s half.toNat = .draining) :
    let x := (hubPorts half.toNat).foldl (fun (x : State × Bool) p => ((drainPort x.1 p).1, x.2 && (drainPort x.1 p).2)) (s, true)
    exec (.halfOutDrainEnd half) s = .next (if x.2 then halfOut x.1 half.toNat 0 else x.1) := by
  intro x
  have hc : (inPair s && halfState s half.toNat == .draining) = true := by rw [hp, hd]; rfl
  have he : exec (.halfOutDrainEnd half) s = execHalfOutDrainEnd half s := rfl
  rw [he]
  unfold execHalfOutDrainEnd
  rw [if_pos hc]

end
end Sys2Proof.Machine
end

section
/-! A half that goes out: what it leaves in the package, at its ports and at its homes (R138, R432). -/

namespace Sys2Proof.Machine
set_option Elab.async false
section
variable {o : Option Nat} {s t : State} {half how : Nat}

/-! What the outside reads of the package -/

/-- The mode, the halves and the dies in service. -/
def Pkg.seen (k : Pkg) : BitVec 2 × Bool × List HalfState × BitVec 8 × Option Nat := (k.mode, k.primaryB, k.half, k.dies, k.resync)

theorem Steady.seen (h : Steady o s t) : t.pkg.seen = s.pkg.seen := by rw [h.pkg]; rfl

theorem mode_of_seen (h : t.pkg.seen = s.pkg.seen) : t.pkg.mode = s.pkg.mode := congrArg (·.1) h
theorem primary_of_seen (h : t.pkg.seen = s.pkg.seen) : primary t = primary s := primary_of (congrArg (·.2.1) h)
theorem half_of_seen (h : t.pkg.seen = s.pkg.seen) : t.pkg.half = s.pkg.half := congrArg (·.2.2.1) h
theorem resync_of_seen (h : t.pkg.seen = s.pkg.seen) : t.pkg.resync = s.pkg.resync := congrArg (·.2.2.2.2) h
theorem halfState_of_seen (h : t.pkg.seen = s.pkg.seen) (x : Nat) : halfState t x = halfState s x := halfState_of (half_of_seen h) x
theorem dieIn_of_seen (h : t.pkg.seen = s.pkg.seen) (d : Nat) : dieIn t d = dieIn s d :=
  congrArg (fun x : BitVec 2 × Bool × List HalfState × BitVec 8 × Option Nat => x.2.2.2.1.getLsbD d) h

/-! The half is taken out of the package -/

/-- The half is set out, its ports are cut and its dies out of service. -/
def halfCut (s : State) (half how : Nat) : State :=
  let s := diesOut (portsCut (setHalf s half .out) how (hubPorts half)) (halfDies half)
  { s with
    pkg := { s.pkg with memActive := s.pkg.memActive.set half false
                        resync := if s.pkg.resync = some half then none else s.pkg.resync }
    boot := { s.boot with returning := if s.boot.returning.map (·.1) = some half then none else s.boot.returning } }

/-- The fronds of a half. -/
def halfFronds (half : Nat) : List Nat := (halfDies half).filter fun d => 2 ≤ d

/-- What ran in the half is over: its rings, its searches, its moves and its queued counts. -/
def halfStopped (s : State) (half : Nat) : State :=
  (halfFronds half).foldl (fun s d => modFrond s d fun f => { f with hce := [] })
    (dropMoves (soloSearches (halfLostRings s half) half) (halfFronds half) stCmdDone)

/-- The package roles stand at the other hub. -/
def rolesMoved (s : State) (half : Nat) : State :=
  if s.pkg.roleHub = half then endSessions { s with pkg := { s.pkg with roleHub := 1 - half } } else s

/-- The loss of the half is noted. -/
def halfNoted (s : State) (half how : Nat) : State :=
  let s := raiseFull (rolesMoved s half) 0x9005 1 0xFF 0xFF (halfFlag half) 0 [(1, half), (1, how)] .steward
  resolveAll (ledgerWrite s false) 6

theorem comingBack_of_serving (h : serving s half = true) : comingBack s half = false := by
  unfold serving at h
  unfold comingBack halfState
  cases hs : s.pkg.half.getD half .out <;> simp_all

/-- All that follows the move of the primary. -/
def halfGoes (s : State) (half how : Nat) (was : Bool) : State :=
  halfNoted (freeMirrors (dropHome (halfStopped (halfCut s half how) half) half was) (1 - half)) half how

theorem halfOut_eq (h : serving s (1 - half) = true) :
    halfOut s half how = halfGoes (makePrimary s (1 - half)) half how (primary s == half) := by
  have he : halfOut s half how = halfGoes
      (let u := if comingBack s (1 - half) then endReturn s (1 - half) else s
       if serving u (1 - half) then makePrimary u (1 - half) else u) half how (primary s == half) := rfl
  rw [he, if_neg (Bool.eq_false_iff.1 (comingBack_of_serving h))]
  exact congrArg (halfGoes · half how (primary s == half)) (if_pos h)

theorem diesOut_pkg (ds : List Nat) : (diesOut s ds).pkg = { s.pkg with dies := (diesOut s ds).pkg.dies } := by
  induction ds generalizing s with
  | nil => rfl
  | cons d ds ih => exact ih (s := setDie s d false)

theorem diesOut_only (ds : List Nat) : Only [.pkg] s (diesOut s ds) :=
  (Keeps.foldl (.refl _ _) fun _ _ => setDie_keeps (by decide) (.refl _ _)).only

theorem halfCut_ports_pkg : (portsCut (setHalf s half .out) how (hubPorts half)).pkg = { s.pkg with
    half := s.pkg.half.set half .out, lastFail := (portsCut (setHalf s half .out) how (hubPorts half)).pkg.lastFail } := portsCut_pkg

theorem halfCut_pkg : (diesOut (portsCut (setHalf s half .out) how (hubPorts half)) (halfDies half)).pkg = { s.pkg with
    half := s.pkg.half.set half .out
    dies := (diesOut (portsCut (setHalf s half .out) how (hubPorts half)) (halfDies half)).pkg.dies
    lastFail := (portsCut (setHalf s half .out) how (hubPorts half)).pkg.lastFail } := by
  rw [diesOut_pkg, halfCut_ports_pkg]

theorem halfCut_half : (halfCut s half how).pkg.half = s.pkg.half.set half .out := congrArg Pkg.half halfCut_pkg

theorem halfCut_mode : (halfCut s half how).pkg.mode = s.pkg.mode := by
  have hm := congrArg Pkg.mode (halfCut_pkg (s := s) (half := half) (how := how))
  exact hm

theorem primary_halfCut : primary (halfCut s half how) = primary s := by
  have hp := congrArg Pkg.primaryB (halfCut_pkg (s := s) (half := half) (how := how))
  exact primary_of hp

theorem dieIn_halfCut {d : Nat} (hd : d < 8) (hh : halfOf d = half) : dieIn (halfCut s half how) d = false :=
  dieIn_diesOut (s := portsCut _ how (hubPorts half)) hd (mem_halfDies hd hh)

theorem halfCut_resync : (halfCut s half how).pkg.resync ≠ some half := by
  unfold halfCut
  dsimp only
  split
  · nofun
  next h => exact h

theorem halfCut_portSt (h2 : half < 2) (hp : s.ports.length = 6) {port : Nat} (hm : port ∈ hubPorts half) :
    portSt (halfCut s half how) port = some .down := by
  have hd : (halfCut s half how).ports = (portsCut (setHalf s half .out) how (hubPorts half)).ports := diesOut_only _ .ports (by decide)
  unfold portSt
  rw [hd]
  exact portsCut_st (s := setHalf s half .out) (hp.symm ▸ mem_hubPorts_lt h2 hm) hm

/-! Its work is over -/

theorem frondsOut_only (ds : List Nat) {f : Frond → Frond} : Only [.fronds] s (ds.foldl (fun s d => modFrond s d f) s) :=
  (Keeps.foldl (.refl _ _) fun _ _ => modFrond_keeps (by decide) (.refl _ _)).only

theorem halfStopped_seen : (halfStopped s half).pkg.seen = s.pkg.seen := by
  have hs : Steady none s (soloSearches (halfLostRings s half) half) := (Steady.refl none s).halfLostRings.soloSearches
  have hm : (movesDropped (soloSearches (halfLostRings s half) half) (halfFronds half)).pkg =
      (soloSearches (halfLostRings s half) half).pkg := frondsOut_only _ .pkg (by decide)
  have hd := (dropMoves_steady (s := soloSearches (halfLostRings s half) half) (ds := halfFronds half) (st := stCmdDone)).seen
  unfold halfStopped
  rw [show (List.foldl _ _ _ : State).pkg = _ from frondsOut_only _ .pkg (by decide), hd, hm, hs.seen]

theorem halfStopped_ports : (halfStopped s half).ports = s.ports := by
  have hk : Keeps [.pins, .boot, .pkg, .lds, .seats, .extents, .mem, .coh, .fronds, .tables, .rings, .searches, .jobs, .disp, .covs,
      .tally, .life, .log, .regs, .wire] s (dropMoves (soloSearches (halfLostRings s half) half) (halfFronds half) stCmdDone) :=
    dropMoves_keeps (by decide) (soloSearches_keeps (by decide) (halfLostRings_keeps (by decide) (.refl _ _)))
  exact (frondsOut_only _ .ports (by decide)).trans (hk.only .ports (by decide))

/-! Its homes are bare -/

theorem bare_dropHome (was : Bool) : Bare half (dropHome s half was).coh := by
  refine ⟨fun e he => ?_, fun e he => ?_, fun e he => ?_, fun x hx hh => ?_⟩
  · simpa using (List.mem_filter.1 he).2
  · simpa using (List.mem_filter.1 he).2
  · simpa using (List.mem_filter.1 he).2
  · exact absurd hh (by simpa using (List.mem_filter.1 hx).2)

theorem dropHome_only (was : Bool) : Only [.mem, .coh] s (dropHome s half was) := (dropHome_keeps (by decide) (.refl _ _)).only

/-- A half that is out and not copied to applies no update. -/
theorem mirrored_of_out (ho : halfState s half = .out) (hr : s.pkg.resync ≠ some half) : mirrored s half = false := by
  unfold halfState at ho
  unfold mirrored serving
  rw [ho]
  simpa using hr

theorem shut_dropHome {was : Bool} (ho : halfState s half = .out) (hr : s.pkg.resync ≠ some half) :
    Shut half (dropHome s half was) := by
  have hp : (dropHome s half was).pkg = s.pkg := dropHome_only was .pkg (by decide)
  exact ⟨fun _ => mirrored_of_out ((halfState_congr hp half).trans ho) (hp.symm ▸ hr), bare_dropHome was⟩

/-- The serving half's lines open nothing at the homes of the half that is out. -/
theorem freeMirrors_steady (h2 : half < 2) : Steady (some half) s (freeMirrors s (1 - half)) :=
  (Steady.refl _ s).freeMirrors fun x hx => by
    obtain rfl := Option.some.inj hx
    omega

theorem endSessions_only : Only [.seats, .steward] s (endSessions s) := (endSessions_keeps (by decide) (.refl _ _)).only

theorem rolesMoved_seen : (rolesMoved s half).pkg.seen = s.pkg.seen := by
  unfold rolesMoved
  split
  · rw [endSessions_only .pkg (by decide)]
    rfl
  · rfl

theorem rolesMoved_coh : (rolesMoved s half).coh = s.coh := by
  unfold rolesMoved
  split
  · exact endSessions_only .coh (by decide)
  · rfl

theorem rolesMoved_ports : (rolesMoved s half).ports = s.ports := by
  unfold rolesMoved
  split
  · exact endSessions_only .ports (by decide)
  · rfl

theorem halfNoted_only : Only [.boot, .store, .pkg, .lds, .covs, .life, .log] (rolesMoved s half) (halfNoted s half how) :=
  (resolveAll_keeps (by decide) (ledgerWrite_keeps (by decide) (raiseFull_keeps (by decide) (.refl _ _)))).only

theorem halfNoted_seen : (halfNoted s half how).pkg.seen = s.pkg.seen :=
  ((Steady.refl none (rolesMoved s half)).raiseFull.ledgerWrite.resolveAll).seen.trans rolesMoved_seen

/-! The whole -/

theorem halfGoes_seen (h2 : half < 2) {was : Bool} : (halfGoes s half how was).pkg.seen = (halfCut s half how).pkg.seen := by
  unfold halfGoes
  rw [halfNoted_seen, (freeMirrors_steady h2).seen, dropHome_only _ .pkg (by decide), halfStopped_seen]

theorem halfGoes_ports {was : Bool} : (halfGoes s half how was).ports = (halfCut s half how).ports := by
  have hf (u : State) : (freeMirrors u (1 - half)).ports = u.ports :=
    (freeMirrors_keeps (kl := [.pins, .boot, .pkg, .lds, .seats, .extents, .mem, .coh, .fronds, .rings, .covs, .tally, .life, .log,
      .regs, .wire]) (by decide) (.refl _ _)).only .ports (by decide)
  unfold halfGoes
  rw [halfNoted_only .ports (by decide), rolesMoved_ports, hf, dropHome_only _ .ports (by decide), halfStopped_ports]

theorem bare_halfGoes (h2 : half < 2) (hl : s.pkg.half.length = 2) {was : Bool} : Bare half (halfGoes s half how was).coh := by
  have hseen := halfStopped_seen (s := halfCut s half how) (half := half)
  have ho : halfState (halfStopped (halfCut s half how) half) half = .out := by
    rw [halfState_of_seen hseen]
    unfold halfState
    rw [halfCut_half]
    simp [hl, h2]
  have hr : (halfStopped (halfCut s half how) half).pkg.resync ≠ some half :=
    fun hc => halfCut_resync ((resync_of_seen hseen).symm.trans hc)
  unfold halfGoes
  rw [halfNoted_only .coh (by decide), rolesMoved_coh]
  exact (freeMirrors_steady h2).bare half rfl (shut_dropHome ho hr)

theorem halfOut_leaves (s : State) (half how : Nat) : half < 2 → s.pkg.half.length = 2 → s.ports.length = 6 →
    serving s (1 - half) = true →
    let m := halfOut s half how
    halfState m half = .out ∧ halfState m (1 - half) = halfState s (1 - half) ∧ primary m = 1 - half ∧
      (∀ d < 8, halfOf d = half → dieIn m d = false) ∧ (∀ e ∈ m.coh.copies, e.1 / 32 % 2 ≠ half) ∧
      (∀ port ∈ hubPorts half, (m.ports[port]?).map (fun y => y.st) = some .down) ∧ m.pkg.mode = s.pkg.mode := by
  intro h2 hl hp h m
  have hm : m = halfGoes (makePrimary s (1 - half)) half how (primary s == half) := halfOut_eq h
  have hseen : m.pkg.seen = (halfCut (makePrimary s (1 - half)) half how).pkg.seen := hm ▸ halfGoes_seen h2
  have hports : m.ports = (halfCut (makePrimary s (1 - half)) half how).ports := hm ▸ halfGoes_ports
  have hhalf (x : Nat) : halfState m x = (s.pkg.half.set half .out).getD x .out := by
    rw [halfState_of_seen hseen, halfState, halfCut_half, makePrimary_half]
  refine ⟨?_, ?_, ?_, fun d hd hh => (dieIn_of_seen hseen d).trans (dieIn_halfCut hd hh), ?_, fun port hport => ?_, ?_⟩
  · simp [hhalf, hl, h2]
  · rw [hhalf, halfState, List.getD_eq_getElem?_getD, List.getElem?_set_ne (by omega), List.getD_eq_getElem?_getD]
  · exact (primary_of_seen hseen).trans (primary_halfCut.trans (primary_makePrimary (by omega)))
  · exact (hm ▸ bare_halfGoes h2 ((congrArg List.length (makePrimary_half _)).trans hl) : Bare half m.coh).copies
  · rw [hports]
    exact halfCut_portSt h2 ((congrArg List.length (makePrimary_only _ .ports (by decide))).trans hp) hport
  · rw [mode_of_seen hseen, halfCut_mode, makePrimary_pkg]

end
end Sys2Proof.Machine
end

section
/-! A hub that fails takes its half out, or in whole mode freezes it and makes the other hub dump (R24, R48, Table 1.7). -/

namespace Sys2Proof.Machine
set_option Elab.async false
section
variable {s : State} {h : Nat}

/-! Fronds that are lost -/

/-- Fronds are lost one after the other. -/
def frondsLost (s : State) (ds : List Nat) : State := ds.foldl (fun s d => modFrond s d fun f => { f with lost := true }) s

theorem frond_lost_modFrond {d e : Nat} (h2 : 2 ≤ e) (hl : (frond s e).lost = true) :
    (frond (modFrond s d fun f => { f with lost := true }) e).lost = true := by
  by_cases he : e = d
  · subst he
    unfold frond at hl ⊢
    rw [modFrond_fronds, if_pos h2, List.getD_eq_getElem?_getD, List.getElem?_modify_eq]
    rw [List.getD_eq_getElem?_getD] at hl
    cases hx : s.fronds[e - 2]? with
    | none => rw [hx] at hl; exact hl
    | some f => rfl
  · rw [frond_modFrond_ne h2 he]
    exact hl

theorem frondsLost_of_lost {ds : List Nat} {e : Nat} (h2 : 2 ≤ e) (hl : (frond s e).lost = true) :
    (frond (frondsLost s ds) e).lost = true := by
  induction ds generalizing s with
  | nil => exact hl
  | cons d ds ih => exact ih (frond_lost_modFrond h2 hl)

theorem frondsLost_lost {ds : List Nat} {e : Nat} (h2 : 2 ≤ e) (hl : e - 2 < s.fronds.length) (hm : e ∈ ds) :
    (frond (frondsLost s ds) e).lost = true := by
  induction ds generalizing s with
  | nil => cases hm
  | cons d ds ih =>
    obtain rfl | hm := List.mem_cons.1 hm
    · refine frondsLost_of_lost (s := modFrond s e fun f => { f with lost := true }) h2 ?_
      rw [frond_modFrond_self h2 hl]
    · exact ih ((modFrond_fronds_length d _).symm ▸ hl) hm

theorem cutPort_fronds_length {port how : Nat} : (cutPort s port how).fronds.length = s.fronds.length := by
  by_cases hd : portSt s port = some .down
  · rw [cutPort_of_down hd]
  · rw [cutPort_of_up hd, event_fronds]
    exact ((Steady.refl none s).linksLost (p := port) (ls := List.range 4)).fronds_length

theorem portsCut_fronds_length {how : Nat} {ps : List Nat} : (portsCut s how ps).fronds.length = s.fronds.length := by
  induction ps generalizing s with
  | nil => rfl
  | cons p ps ih => exact (ih (s := cutPort s p how)).trans cutPort_fronds_length

/-! In whole mode -/

/-- The hub's ports are cut, its dies out of service and its fronds lost. -/
def hubCut (s : State) (h : Nat) : State := frondsLost (diesOut (portsCut s 1 (hubPorts h)) (halfDies h)) (halfDies h)

/-- The hub's half is frozen, its memory inactive, and the package roles stand at the other hub. -/
def hubFrozen (s : State) (h : Nat) : State :=
  let s := hubCut s h
  { s with pkg := { s.pkg with frozen := s.pkg.frozen.set h true, memActive := s.pkg.memActive.set h false
                               roleHub := if present s (1 - h) then 1 - h else s.pkg.roleHub } }

theorem hubFails_whole (hp : inPair s = false) : hubFails s h = harvestCause (hubFrozen s h) (1 - h) 0x900A h [(1, h)] :=
  if_neg (Bool.eq_false_iff.1 hp)

theorem hubFails_pair (hp : inPair s = true) (ho : halfState s h ≠ .out) :
    hubFails s h = halfOut (event s 0x900A 3 h 0xFF [(1, h)] .steward) h 1 :=
  (if_pos hp).trans (if_neg (by rw [event_halfState]; exact ho))

theorem hubCut_pkg : (hubCut s h).pkg = (diesOut (portsCut s 1 (hubPorts h)) (halfDies h)).pkg := frondsOut_only _ .pkg (by decide)

theorem hubFrozen_frozen (hl : h < s.pkg.frozen.length) : halted (hubFrozen s h) h = true := by
  have hf : (hubCut s h).pkg.frozen = s.pkg.frozen := by
    rw [hubCut_pkg, diesOut_pkg, portsCut_pkg]
  unfold halted hubFrozen
  dsimp only
  rw [hf]
  simp [List.getD_eq_getElem?_getD, hl]

theorem hubFrozen_lost {d : Nat} (hl : s.fronds.length = 6) (h2 : 2 ≤ d) (h8 : d < 8) (hh : halfOf d = h) :
    (frond (hubFrozen s h) d).lost = true := by
  have hd : (diesOut (portsCut s 1 (hubPorts h)) (halfDies h)).fronds = (portsCut s 1 (hubPorts h)).fronds :=
    diesOut_only _ .fronds (by decide)
  refine frondsLost_lost (s := diesOut (portsCut s 1 (hubPorts h)) (halfDies h)) h2 ?_ (mem_halfDies h8 hh)
  rw [hd, portsCut_fronds_length, hl]
  omega

theorem hubFrozen_dieIn {d : Nat} (hd : d < 8) (hh : halfOf d = h) : dieIn (hubFrozen s h) d = false := by
  have hp := congrArg Pkg.dies (hubCut_pkg (s := s) (h := h))
  have hout := dieIn_diesOut (s := portsCut s 1 (hubPorts h)) hd (mem_halfDies hd hh)
  unfold dieIn at hout ⊢
  rw [← hp] at hout
  exact hout

theorem hubFrozen_portSt (h2 : h < 2) (hl : s.ports.length = 6) {port : Nat} (hm : port ∈ hubPorts h) :
    portSt (hubFrozen s h) port = some .down := by
  have hp : (hubFrozen s h).ports = (portsCut s 1 (hubPorts h)).ports :=
    (frondsOut_only (s := diesOut (portsCut s 1 (hubPorts h)) (halfDies h)) _ .ports (by decide)).trans (diesOut_only _ .ports (by decide))
  unfold portSt
  rw [hp]
  exact portsCut_st (hl.symm ▸ mem_hubPorts_lt h2 hm) hm

/-! The command -/

theorem hubLost_exec (hub : BitVec 1) (hs : started s = true) (hp : present s hub.toNat = true) (hd : dieIn s hub.toNat = true) :
    exec (.hubLost hub) s = .next (hubFails s hub.toNat) := by
  have hc : (started s && present s hub.toNat && (dieIn s hub.toNat || comingBack s hub.toNat)) = true := by rw [hs, hp, hd]; rfl
  exact congrArg _ (if_pos hc)

theorem hubLost_changes (s : State) (hub : BitVec 1) :
    let h := hub.toNat
    (started s = true → present s h = true → dieIn s h = true →
      (inPair s = true → halfState s h ≠ .out →
        exec (.hubLost hub) s = .next (halfOut (event s 0x900A 3 h 0xFF [(1, h)] .steward) h 1)) ∧
      (inPair s = false → h < s.pkg.frozen.length → s.ports.length = 6 → s.fronds.length = 6 →
        ∃ m, exec (.hubLost hub) s = .next (harvestCause m (1 - h) 0x900A h [(1, h)]) ∧ halted m h = true ∧
          (∀ d, 2 ≤ d → d < 8 → halfOf d = h → (frond m d).lost = true) ∧ (∀ d < 8, halfOf d = h → dieIn m d = false) ∧
          (∀ port ∈ hubPorts h, (m.ports[port]?).map (fun y => y.st) = some .down))) ∧
    (dieIn s h = false → comingBack s h = false → exec (.hubLost hub) s = .next s) := by
  intro h
  refine ⟨fun hs hp hd => ⟨fun hw ho => ?_,
    fun hw hf hports hfr => ⟨hubFrozen s h, ?_, hubFrozen_frozen hf, ?_, ?_, ?_⟩⟩, fun hd hc => ?_⟩
  · rw [hubLost_exec hub hs hp hd, hubFails_pair hw ho]
  · rw [hubLost_exec hub hs hp hd, hubFails_whole hw]
  · exact fun d h2 h8 hh => hubFrozen_lost hfr h2 h8 hh
  · exact fun d h8 hh => hubFrozen_dieIn h8 hh
  · exact fun port hm => hubFrozen_portSt hub.isLt hports hm
  · have hn : ¬ (started s && present s h && (dieIn s h || comingBack s h)) = true := by rw [hd, hc]; simp
    exact congrArg _ (if_neg hn)

end
end Sys2Proof.Machine
end

section
/-! A returning frond's array is a copy of its partner's (R44): a good golden shadow record gives its row, and the partner's array stands
as it was where every record of it is good. -/

namespace Sys2Proof.Machine
set_option Elab.async false
section
variable {o : Option Nat} {k s t : State} {src dst die row : Nat}

/-! One array's rows and records -/

theorem frond_modArr_ne {d : Nat} (h2 : 2 ≤ d) (hne : d ≠ die) (f : FrondArray → FrondArray) : frond (modArr s die f) d = frond s d :=
  frond_modFrond_ne h2 hne _

theorem arr_modArr {d : Nat} (h2 : 2 ≤ d) (hl : d - 2 < s.fronds.length) (f : FrondArray → FrondArray) :
    (frond (modArr s d f) d).arr = f (frond s d).arr := by
  unfold modArr
  rw [frond_modFrond_self h2 hl]

theorem shadowAt_congr (h : (frond t die).arr.shadow = (frond s die).arr.shadow) (row : Nat) : shadowAt t die row = shadowAt s die row := by
  unfold shadowAt; rw [h]

theorem rowAt_putRow {d r : Nat} (h2 : 2 ≤ d) (hl : d - 2 < s.fronds.length) (x : Row) (q : Nat) :
    rowAt (putRow s d r x) d q = if q = r then x else rowAt s d q := by
  unfold rowAt putRow
  rw [arr_modArr h2 hl]
  dsimp only
  rw [mget_mput]
  split <;> rfl

theorem modArr_fronds_length (f : FrondArray → FrondArray) : (modArr s die f).fronds.length = s.fronds.length :=
  modFrond_fronds_length _ _

theorem firstRow_congr (ht : t.tables = s.tables) (hp : inPair t = inPair s) (d r : Nat) : firstRow t d r = firstRow s d r := by
  unfold firstRow rowsAt panOwner baseDie
  rw [ht, hp]

/-! Records that fail are rebuilt -/

/-- What a change keeps of the fronds it is not about, and of the records it finds good. -/
structure KeepsGood (die : Nat) (s t : State) : Prop where
  others : ∀ d, 2 ≤ d → d ≠ die → frond t d = frond s d
  good : ∀ r, recordGood (shadowAt s die r) = true → shadowAt t die r = shadowAt s die r
  steady : Steady none s t
  tables : t.tables = s.tables

theorem KeepsGood.refl (die : Nat) (s : State) : KeepsGood die s s := ⟨fun _ _ _ => rfl, fun _ _ => rfl, .refl _ _, rfl⟩

theorem KeepsGood.trans {u : State} (h : KeepsGood die s t) (g : KeepsGood die t u) : KeepsGood die s u :=
  ⟨fun d h2 hne => (g.others d h2 hne).trans (h.others d h2 hne),
    fun r hr => (g.good r (by rw [h.good r hr]; exact hr)).trans (h.good r hr), h.steady.trans g.steady, g.tables.trans h.tables⟩

theorem KeepsGood.foldl {α : Type} {f : State → α → State} {xs : List α} (hf : ∀ u x, KeepsGood die u (f u x)) :
    KeepsGood die s (xs.foldl f s) :=
  List.foldlRecOn (motive := fun u => KeepsGood die s u) xs f (.refl _ _) fun _ hu x _ => hu.trans (hf _ x)

/-- A change of one array outside its records. -/
theorem KeepsGood.arr {f : FrondArray → FrondArray} (hf : ∀ x, (f x).shadow = x.shadow := by exact fun _ => rfl) :
    KeepsGood die s (modArr s die f) :=
  ⟨fun _ h2 hne => frond_modArr_ne h2 hne f,
    fun r _ => shadowAt_congr (frond_of_map (g := fun x => x.arr.shadow) (modFrond_map fun x => hf x.arr) die) r,
    (Steady.refl none s).arr die, (modFrond_keeps (kl := [.fronds]) (by decide) (.refl _ _)).only .tables (by decide)⟩

theorem KeepsGood.raiseFull {code sev die' seat extra count : Nat} {items : List (Nat × Nat)} {dst : Recip} :
    KeepsGood die s (raiseFull s code sev die' seat extra count items dst) := by
  have hk : Only [.boot, .pkg, .lds, .life, .log] s (Machine.raiseFull s code sev die' seat extra count items dst) :=
    (raiseFull_keeps (by decide) (.refl _ _)).only
  have hf := hk .fronds (by decide)
  exact ⟨fun d _ _ => frond_congr hf d, fun r _ => shadowAt_congr (congrArg (fun f : Frond => f.arr.shadow) (frond_congr hf die)) r,
    (Steady.refl none s).raiseFull, hk .tables (by decide)⟩

theorem KeepsGood.poisonEntry (r : Nat) : KeepsGood die s (poisonEntry s die r) := by
  unfold Machine.poisonEntry
  dsimp only
  split
  · exact .refl _ _
  · exact ((KeepsGood.foldl fun _ _ => KeepsGood.arr).trans KeepsGood.arr).trans KeepsGood.raiseFull

/-- A record that fails gives place to another. -/
theorem KeepsGood.putShadow {r : Nat} (hr : recordGood (shadowAt s die r) = false) (x : Shadow) :
    KeepsGood die s (putShadow s die r x) := by
  have hk : Only [.fronds] s (Machine.putShadow s die r x) := (putShadow_keeps (by decide) (.refl _ _)).only
  refine ⟨fun _ h2 hne => frond_modArr_ne h2 hne _, fun q hq => ?_, (Steady.refl none s).arr die, hk .tables (by decide)⟩
  have hqr : q ≠ r := by
    rintro rfl
    rw [hr] at hq
    cases hq
  unfold Machine.putShadow shadowAt modArr modFrond
  split
  · unfold frond
    simp only [List.getD_eq_getElem?_getD, List.getElem?_modify_eq]
    cases s.fronds[die - 2]? with
    | none => rfl
    | some y => exact congrArg (·.getD fillRecord) (mget_mput_ne _ _ hqr)
  · rfl

theorem KeepsGood.rebuildOne (r : Nat) : KeepsGood die s (rebuildOne s die r) := by
  unfold Machine.rebuildOne
  split
  · exact .refl _ _
  next hr =>
    split
    · exact (KeepsGood.putShadow (Bool.eq_false_iff.2 hr) _).trans KeepsGood.raiseFull
    · exact KeepsGood.poisonEntry r

theorem KeepsGood.rebuildRecord (r : Nat) : KeepsGood die s (rebuildRecord s die r) := by
  unfold Machine.rebuildRecord
  split
  · exact .refl _ _
  · exact (KeepsGood.rebuildOne r).trans (KeepsGood.rebuildOne _)

theorem rebuildRecord_of_good (h : recordGood (shadowAt s die row) = true) : rebuildRecord s die row = s := if_pos h

theorem rebuildRecords_of_good (h : GoodRecords s die) (rows : List Nat) : rows.foldl (fun s r => rebuildRecord s die r) s = s := by
  induction rows with
  | nil => rfl
  | cons r rows ih => rw [List.foldl_cons, rebuildRecord_of_good (h r)]; exact ih

/-! A row is copied -/

/-- The row and the record that the partner's give. -/
def copyRow (src dst : Nat) (s : State) (row : Nat) : State :=
  let g := shadowAt s src row
  let r := rowAt s src row
  let good := recordGood g
  let first := firstRow s src row
  let v := if recordGood (shadowAt s src first) then (shadowAt s src first).valid else entryValid s src first (rowsAt s src row)
  let d := if good then g.data else r.data
  let m := if good then g.mask else r.mask
  let n := if good then g.near else r.near
  let s := putRow s dst row
    { data := d, mask := m, valid := v, check := rowCheck dst row d m v, near := n, nchk := nearCheck dst row n,
      prio := prioOf n, ppar := true, poison := r.poison, rewritten := r.rewritten,
      failed := r.failed }
  putShadow s dst row { g with valid := v, injected := false }

/-- A row holds what its partner's good record says; the first row of an entry its VALID too. -/
def RowCopied (s : State) (src : Nat) (row : Nat) (r : Row) : Prop :=
  let g := shadowAt s src row
  recordGood g = true → r.data = g.data ∧ r.mask = g.mask ∧ (firstRow s src row = row → r.valid = g.valid)

theorem RowCopied.congr {r : Row} (h : RowCopied t src row r) (hs : shadowAt t src row = shadowAt s src row)
    (hf : firstRow t src row = firstRow s src row) : RowCopied s src row r := by
  unfold RowCopied at *
  rwa [hs, hf] at h

theorem copyRow_only : Only [.fronds] s (copyRow src dst s row) :=
  (putShadow_keeps (by decide) (putRow_keeps (by decide) (.refl _ _))).only

theorem copyRow_other {d : Nat} (h2 : 2 ≤ d) (hne : d ≠ dst) : frond (copyRow src dst s row) d = frond s d :=
  (frond_modArr_ne h2 hne _).trans (frond_modArr_ne h2 hne _)

theorem copyRow_fronds_length : (copyRow src dst s row).fronds.length = s.fronds.length :=
  (modArr_fronds_length _).trans (modArr_fronds_length _)

theorem rowAt_putShadow (r : Nat) (x : Shadow) (q : Nat) : rowAt (putShadow s dst r x) dst q = rowAt s dst q := by
  have h := frond_of_map (g := fun y => y.arr.rows) (modFrond_map (s := s) (die := dst)
    (f := fun y => { y with arr := { y.arr with shadow := mput y.arr.shadow r x } }) fun _ => rfl) dst
  exact congrArg (fun m : SMap Row => (mget m q).getD (fillRow dst q)) h

theorem rowAt_copyRow_ne (h2 : 2 ≤ dst) (hl : dst - 2 < s.fronds.length) {q : Nat} (hq : q ≠ row) :
    rowAt (copyRow src dst s row) dst q = rowAt s dst q := by
  unfold copyRow
  dsimp only
  rw [rowAt_putShadow, rowAt_putRow h2 hl, if_neg hq]

theorem rowAt_copyRow_self (h2 : 2 ≤ dst) (hl : dst - 2 < s.fronds.length) :
    RowCopied s src row (rowAt (copyRow src dst s row) dst row) := by
  intro hg
  unfold copyRow
  dsimp only
  rw [rowAt_putShadow, rowAt_putRow h2 hl, if_pos rfl]
  refine ⟨if_pos hg, if_pos hg, fun hf => ?_⟩
  dsimp only
  rw [hf]
  exact if_pos hg

/-! The rows of an array are copied -/

theorem copyRows_only (rows : List Nat) : Only [.fronds] s (rows.foldl (copyRow src dst) s) :=
  List.foldlRecOn (motive := fun u => Only [.fronds] s u) rows _ (.refl _ _) fun _ hu _ _ => hu.trans copyRow_only

theorem copyRows_other {d : Nat} (h2 : 2 ≤ d) (hne : d ≠ dst) (rows : List Nat) :
    frond (rows.foldl (copyRow src dst) s) d = frond s d :=
  List.foldlRecOn (motive := fun u => frond u d = frond s d) rows _ rfl fun _ hu _ _ => (copyRow_other h2 hne).trans hu

theorem rowAt_copyRows_ne (h2 : 2 ≤ dst) (hl : dst - 2 < s.fronds.length) {rows : List Nat} {q : Nat} (hq : q ∉ rows) :
    rowAt (rows.foldl (copyRow src dst) s) dst q = rowAt s dst q := by
  induction rows generalizing s with
  | nil => rfl
  | cons r rows ih =>
    obtain ⟨hqr, hq⟩ := not_or.1 (mt List.mem_cons.2 hq)
    exact (ih (copyRow_fronds_length.symm ▸ hl) hq).trans (rowAt_copyRow_ne h2 hl hqr)

theorem rowAt_copyRows (h2 : 2 ≤ dst) (hl : dst - 2 < s.fronds.length) (hs2 : 2 ≤ src) (hne : src ≠ dst) {rows : List Nat} {q : Nat}
    (hq : q ∈ rows) : RowCopied s src q (rowAt (rows.foldl (copyRow src dst) s) dst q) := by
  induction rows generalizing s with
  | nil => cases hq
  | cons r rows ih =>
    have hl' : dst - 2 < (copyRow src dst s r).fronds.length := copyRow_fronds_length.symm ▸ hl
    by_cases hm : q ∈ rows
    · refine (ih hl' hm).congr (shadowAt_congr ?_ q) (firstRow_congr (copyRow_only .tables (by decide)) ?_ _ _)
      · exact congrArg (fun f : Frond => f.arr.shadow) (copyRow_other hs2 hne)
      · exact inPair_congr (copyRow_only .pkg (by decide))
    · obtain rfl := (List.mem_cons.1 hq).resolve_right hm
      rw [List.foldl_cons, rowAt_copyRows_ne h2 hl' hm]
      exact rowAt_copyRow_self h2 hl

/-! The array -/

/-- The rows that have a record of their own. -/
def recordRows (s : State) (src : Nat) : List Nat := (frond s src).arr.shadow.map fun e : Nat × Shadow => e.1

/-- The partner's records that fail are rebuilt. -/
def recordsRebuilt (s : State) (src : Nat) : State := (recordRows s src).foldl (fun s row => rebuildRecord s src row) s

theorem recordsRebuilt_keepsGood : KeepsGood src s (recordsRebuilt s src) := KeepsGood.foldl fun _ r => KeepsGood.rebuildRecord r

/-- The partner's records are rebuilt, and the array of the returning frond is empty. -/
def arrayCleared (s : State) (src dst : Nat) : State := modArr (recordsRebuilt s src) dst fun b => { b with rows := [], shadow := [] }

/-- The tags follow. -/
def tagsCopied (s : State) (src dst : Nat) : State :=
  (List.range 512).foldl (fun s pan =>
    [0, 4].foldl (fun s o => match mget s.regs.file (tagAddr src pan + o) with
      | some v => covered (setReg s (tagAddr dst pan + o) v) (tagAddr dst pan + o)
      | none => s) s) s

theorem rebuildArray_eq : rebuildArray s src dst =
    tagsCopied ((recordRows s src).foldl (copyRow src dst) (arrayCleared s src dst)) src dst := rfl

theorem tagsCopied_keeps {kl : List Piece} (km : [.regs] ⊆ kl) : Keeps kl s (tagsCopied s src dst) := by
  refine Keeps.step (Keeps.foldl (.refl _ _) fun u pan => Keeps.foldl (.refl _ _) fun u o => ?_) (.refl _ _) km
  split
  · exact covered_keeps (by decide) (setReg_keeps (by decide) (.refl _ _))
  · exact .refl _ _

/-- What a rebuild gives the returning frond: a copy of its partner's good records. -/
def ArrayCopied (s m : State) (src dst : Nat) : Prop := ∀ row, RowCopied s src row (rowAt m dst row)

/-- The fronds of a rebuild stand apart, and the returning one is there. -/
structure Partners (s : State) (src dst : Nat) : Prop where
  src2 : 2 ≤ src
  dst2 : 2 ≤ dst
  ne : src ≠ dst
  len : dst - 2 < s.fronds.length

theorem arrayCleared_good (hp : Partners s src dst) {r : Nat} (hr : recordGood (shadowAt s src r) = true) :
    shadowAt (arrayCleared s src dst) src r = shadowAt s src r := by
  exact (shadowAt_congr (congrArg (fun f : Frond => f.arr.shadow) (frond_modArr_ne hp.src2 hp.ne _)) r).trans
    (recordsRebuilt_keepsGood.good r hr)

theorem arrayCleared_steady : Steady none s (arrayCleared s src dst) := recordsRebuilt_keepsGood.steady.arr dst

theorem arrayCleared_tables : (arrayCleared s src dst).tables = s.tables :=
  ((modFrond_keeps (kl := [.fronds]) (by decide) (.refl _ _)).only .tables (by decide)).trans recordsRebuilt_keepsGood.tables

theorem arrayCleared_other {d : Nat} (h2 : 2 ≤ d) (hs : d ≠ src) (hd : d ≠ dst) :
    frond (arrayCleared s src dst) d = frond s d :=
  (frond_modArr_ne h2 hd _).trans (recordsRebuilt_keepsGood.others d h2 hs)

theorem copyRow_steady (h : Steady o k s) : Steady o k (copyRow src dst s row) := by
  unfold copyRow
  exact (h.arr dst).arr dst

theorem rebuildArray_steady : Steady none s (rebuildArray s src dst) := by
  rw [rebuildArray_eq]
  exact (arrayCleared_steady.foldl fun _ _ _ h => copyRow_steady h).keep (tagsCopied_keeps (by decide))

theorem rebuildArray_fronds : (rebuildArray s src dst).fronds =
    ((recordRows s src).foldl (copyRow src dst) (arrayCleared s src dst)).fronds := by
  rw [rebuildArray_eq]
  exact (tagsCopied_keeps (kl := [.regs]) (by decide)).only .fronds (by decide)

theorem rebuildArray_tables : (rebuildArray s src dst).tables = s.tables := by
  rw [rebuildArray_eq, (tagsCopied_keeps (kl := [.regs]) (by decide)).only .tables (by decide), copyRows_only _ .tables (by decide),
    arrayCleared_tables]

theorem rebuildArray_other {d : Nat} (h2 : 2 ≤ d) (hs : d ≠ src) (hd : d ≠ dst) : frond (rebuildArray s src dst) d = frond s d := by
  rw [frond_congr rebuildArray_fronds, copyRows_other h2 hd, arrayCleared_other h2 hs hd]

/-- Where every record reads good, the partner's array stands as it was. -/
theorem rebuildArray_src (hp : Partners s src dst) (hg : GoodRecords s src) : frond (rebuildArray s src dst) src = frond s src := by
  rw [frond_congr rebuildArray_fronds, copyRows_other hp.src2 hp.ne]
  unfold arrayCleared recordsRebuilt
  rw [rebuildRecords_of_good hg, frond_modArr_ne hp.src2 hp.ne]

/-- A record that no key names is the fill's, and so is the row. -/
theorem rowCopied_fillRow {q : Nat} (hq : shadowAt s src q = fillRecord) : RowCopied s src q (fillRow dst q) := by
  intro _
  rw [hq]
  exact ⟨rfl, rfl, fun _ => rfl⟩

theorem rebuildArray_copies (hp : Partners s src dst) : ArrayCopied s (rebuildArray s src dst) src dst := by
  intro q
  have hlen : dst - 2 < (arrayCleared s src dst).fronds.length := arrayCleared_steady.fronds_length.symm ▸ hp.len
  have hrow : rowAt (rebuildArray s src dst) dst q = rowAt ((recordRows s src).foldl
      (copyRow src dst) (arrayCleared s src dst)) dst q := by
    unfold rowAt
    rw [frond_congr rebuildArray_fronds]
  rw [hrow]
  by_cases hq : q ∈ recordRows s src
  · have hc := rowAt_copyRows hp.dst2 hlen hp.src2 hp.ne hq
    intro hg
    have hs := arrayCleared_good hp hg
    exact hc.congr hs (firstRow_congr arrayCleared_tables arrayCleared_steady.inPair _ _) hg
  · rw [rowAt_copyRows_ne hp.dst2 hlen hq]
    have hnone : mget (frond s src).arr.shadow q = none := by
      by_contra hn
      obtain ⟨v, hv⟩ := Option.ne_none_iff_exists'.1 hn
      exact hq (List.mem_map.2 ⟨(q, v), mem_of_mget hv, rfl⟩)
    have hfill : rowAt (arrayCleared s src dst) dst q = fillRow dst q := by
      have hlen' : dst - 2 < (recordsRebuilt s src).fronds.length := recordsRebuilt_keepsGood.steady.fronds_length.symm ▸ hp.len
      unfold rowAt arrayCleared
      rw [arr_modArr hp.dst2 hlen']
      rfl
    rw [hfill]
    refine rowCopied_fillRow ?_
    unfold shadowAt
    rw [hnone]
    rfl

end
end Sys2Proof.Machine
end

section
/-! A resynchronisation ends (R44, R432): the three arrays are rebuilt, then the half joins, and the obligation follows from its
clauses. -/

namespace Sys2Proof.Machine
set_option Elab.async false
section
variable {o : Option Nat} {k s t : State} {h : Nat}

/-! The three arrays -/

/-- The serving half's frond k of three. -/
def srcDie (h k : Nat) : Nat := 2 + k + 3 * (1 - h)

/-- The returning half's. -/
def dstDie (h k : Nat) : Nat := 2 + k + 3 * h

theorem partners (h2 : h < 2) {k : Nat} (hk : k < 3) (hl : s.fronds.length = 6) : Partners s (srcDie h k) (dstDie h k) := by
  unfold srcDie dstDie
  constructor <;> omega

/-- Arrays are rebuilt one after the other. -/
def arraysRebuilt (s : State) (h : Nat) (ks : List Nat) : State := ks.foldl (fun s k => rebuildArray s (srcDie h k) (dstDie h k)) s

theorem arraysRebuilt_cons (j : Nat) (js : List Nat) :
    arraysRebuilt s h (j :: js) = arraysRebuilt (rebuildArray s (srcDie h j) (dstDie h j)) h js := List.foldl_cons ..

theorem foldl_rebuildArray (s : State) (h : Nat) (ks : List Nat) :
    ks.foldl (fun s k => rebuildArray s (2 + k + 3 * (1 - h)) (2 + k + 3 * h)) s = arraysRebuilt s h ks := rfl

theorem Steady.arraysRebuilt {ks : List Nat} : Steady none s (arraysRebuilt s h ks) :=
  (Steady.refl none s).foldl fun _ _ _ g => g.trans rebuildArray_steady

/-- A frond of another place in the halves stands as it was. -/
theorem arraysRebuilt_other {d : Nat} (h2 : 2 ≤ d) {ks : List Nat} (hd : ∀ k ∈ ks, d ≠ srcDie h k ∧ d ≠ dstDie h k) :
    frond (arraysRebuilt s h ks) d = frond s d := by
  induction ks generalizing s with
  | nil => rfl
  | cons j js ih =>
    have hj := hd j List.mem_cons_self
    rw [arraysRebuilt_cons, ih fun k hk => hd k (List.mem_cons_of_mem _ hk)]
    exact rebuildArray_other h2 hj.1 hj.2

theorem arraysRebuilt_copies (h2 : h < 2) (hl : s.fronds.length = 6) {ks : List Nat} (hn : ks.Nodup) (h3 : ∀ k ∈ ks, k < 3) {k : Nat}
    (hk : k ∈ ks) : ArrayCopied s (arraysRebuilt s h ks) (srcDie h k) (dstDie h k) := by
  induction ks generalizing s with
  | nil => cases hk
  | cons j js ih =>
    obtain ⟨hj, hn⟩ := List.nodup_cons.1 hn
    have hj3 := h3 j List.mem_cons_self
    have hl' : (rebuildArray s (srcDie h j) (dstDie h j)).fronds.length = 6 := rebuildArray_steady.fronds_length.trans hl
    intro row
    rw [arraysRebuilt_cons]
    by_cases hkj : k = j
    · subst hkj
      have hlater : frond (arraysRebuilt (rebuildArray s (srcDie h k) (dstDie h k)) h js) (dstDie h k) =
          frond (rebuildArray s (srcDie h k) (dstDie h k)) (dstDie h k) :=
        arraysRebuilt_other (partners h2 hj3 hl).dst2 fun i hi => by
          have hne : k ≠ i := fun e => hj (e ▸ hi)
          have := h3 i (List.mem_cons_of_mem _ hi)
          unfold srcDie dstDie
          omega
      have hrow : rowAt (arraysRebuilt (rebuildArray s (srcDie h k) (dstDie h k)) h js) (dstDie h k) row =
          rowAt (rebuildArray s (srcDie h k) (dstDie h k)) (dstDie h k) row :=
        congrArg (fun f : Frond => (mget f.arr.rows row).getD (fillRow (dstDie h k) row)) hlater
      rw [hrow]
      exact rebuildArray_copies (partners h2 hj3 hl) row
    · have hk := (List.mem_cons.1 hk).resolve_left hkj
      have hk3 := h3 k (List.mem_cons_of_mem _ hk)
      have hsrc : frond (rebuildArray s (srcDie h j) (dstDie h j)) (srcDie h k) = frond s (srcDie h k) :=
        rebuildArray_other (partners h2 hk3 hl).src2 (by unfold srcDie; omega) (by unfold srcDie dstDie; omega)
      exact (ih hl' hn (fun i hi => h3 i (List.mem_cons_of_mem _ hi)) hk row).congr
        (shadowAt_congr (congrArg (fun f : Frond => f.arr.shadow) hsrc) row)
        (firstRow_congr rebuildArray_tables rebuildArray_steady.inPair _ _)

theorem arraysRebuilt_src (h2 : h < 2) (hl : s.fronds.length = 6) {ks : List Nat} (h3 : ∀ k ∈ ks, k < 3)
    (hg : ∀ k < 3, GoodRecords s (srcDie h k)) {k : Nat} (hk : k < 3) :
    frond (arraysRebuilt s h ks) (srcDie h k) = frond s (srcDie h k) := by
  induction ks generalizing s with
  | nil => rfl
  | cons j js ih =>
    have hj3 := h3 j List.mem_cons_self
    have hsame {i : Nat} (hi : i < 3) : frond (rebuildArray s (srcDie h j) (dstDie h j)) (srcDie h i) = frond s (srcDie h i) := by
      by_cases hij : i = j
      · exact hij ▸ rebuildArray_src (partners h2 hi hl) (hg i hi)
      · exact rebuildArray_other (partners h2 hi hl).src2 (by unfold srcDie; omega) (by unfold srcDie dstDie; omega)
    rw [arraysRebuilt_cons, ih (rebuildArray_steady.fronds_length.trans hl) (fun i hi => h3 i (List.mem_cons_of_mem _ hi)) ?_]
    · exact hsame hk
    intro i hi r
    rw [shadowAt_congr (congrArg (fun f : Frond => f.arr.shadow) (hsame hi))]
    exact hg i hi r

/-! The half joins -/

/-- The half serves, its dies in service, the copy over. -/
def halfJoined (s : State) (h : Nat) : State :=
  let s := (halfDies h).foldl (fun s d => setDie s d true) (setHalf (catchUpLog s h) h .serving)
  let s := { s with pkg := { s.pkg with resync := none, memActive := s.pkg.memActive.set h true } }
  modMem s fun m => { m with patrol := m.patrol.set h (nowNs s, 0) }

/-- Ports that are down come up. -/
def portsUp (s : State) (ps : List Nat) : State :=
  ps.foldl (fun s p => if ((s.ports[p]?).map fun x => x.st) == some .down then bringUp s p else s) s

/-- Its ports come up, its firmware is active, and the return is noted. -/
def joinNoted (s : State) (h ms : Nat) : State :=
  let s := activateFw (portsUp s (hubPorts h)) h
  let s := raiseFull s 0x9006 0 0xFF 0xFF (halfFlag h) 0 [(1, h), (4, ms)] .steward
  resolveAll (ledgerWrite s false) 6

theorem Steady.activateFw (g : Steady o k s) : Steady o k (activateFw s h) := by
  unfold Machine.activateFw
  split
  · split
    · extract_lets n src s1 old s2 s3
      have h2 : Steady o k s2 := g.same
      have h3 : Steady o k s3 := (h2.keep (storeWrite_keeps (by decide) (.refl _ _))).same
      exact h3.event.ledgerWrite
    · exact g.same
    · exact g
  · exact g

theorem diesIn_pkg (ds : List Nat) : (ds.foldl (fun s d => setDie s d true) s).pkg =
    { s.pkg with dies := (ds.foldl (fun s d => setDie s d true) s).pkg.dies } := by
  induction ds generalizing s with
  | nil => rfl
  | cons d ds ih => exact ih (s := setDie s d true)

theorem halfJoined_pkg : (halfJoined s h).pkg = { s.pkg with
    half := s.pkg.half.set h .serving, resync := none, dies := (halfJoined s h).pkg.dies, memActive := s.pkg.memActive.set h true } := by
  have hc : (catchUpLog s h).pkg = s.pkg := (catchUpLog_keeps (kl := [.life, .log]) (by decide) (.refl _ _)).only .pkg (by decide)
  have hd := diesIn_pkg (s := setHalf (catchUpLog s h) h .serving) (halfDies h)
  unfold halfJoined
  dsimp only
  rw [modMem_pkg, hd]
  unfold setHalf
  rw [hc]

theorem halfJoined_fronds : (halfJoined s h).fronds = s.fronds := by
  have hd : ((halfDies h).foldl (fun s d => setDie s d true) (setHalf (catchUpLog s h) h .serving)).fronds = (catchUpLog s h).fronds :=
    (Keeps.foldl (l := [.pkg]) (.refl _ _) fun _ _ => setDie_keeps (by decide) (.refl _ _)).only .fronds (by decide)
  exact hd.trans ((catchUpLog_keeps (kl := [.life, .log]) (by decide) (.refl _ _)).only .fronds (by decide))

theorem portsUp_only (ps : List Nat) : Only [.pins, .ports] s (portsUp s ps) :=
  (Keeps.foldl (.refl _ _) fun _ _ => .ite (bringUp_keeps (by decide) (.refl _ _)) (.refl _ _)).only

theorem joinNoted_seen (ms : Nat) : (joinNoted s h ms).pkg.seen = s.pkg.seen := by
  unfold joinNoted
  refine ((Steady.refl none _).activateFw.raiseFull.ledgerWrite.resolveAll).seen.trans ?_
  rw [portsUp_only _ .pkg (by decide)]

theorem joinNoted_fronds (ms : Nat) : (joinNoted s h ms).fronds = s.fronds := by
  have hk : Only [.fw, .boot, .store, .pkg, .lds, .covs, .life, .log] (portsUp s (hubPorts h)) (joinNoted s h ms) :=
    (resolveAll_keeps (by decide) (ledgerWrite_keeps (by decide)
      (raiseFull_keeps (by decide) (activateFw_keeps (by decide) (.refl _ _))))).only
  exact (hk .fronds (by decide)).trans (portsUp_only (hubPorts h) .fronds (by decide))

/-! The command -/

theorem pairResyncDone_exec (half : BitVec 1) (ms : BitVec 32) (hp : inPair s = true) (hr : halfState s half.toNat = .resync)
    (hu : updatesDone s = true) : exec (.pairResyncDone half ms) s = .next (joinNoted (halfJoined
      (arraysRebuilt (copyMemory s (1 - half.toNat) half.toNat) half.toNat [0, 1, 2]) half.toNat) half.toNat ms.toNat) := by
  have hc : (inPair s && halfState s half.toNat == .resync && updatesDone s) = true := by rw [hp, hr, hu]; rfl
  have he : exec (.pairResyncDone half ms) s = execPairResyncDone half ms s := rfl
  rw [he, ← foldl_rebuildArray]
  unfold execPairResyncDone
  extract_lets +onlyGivenNames h s1 s2
  rw [if_pos hc]
  change _ = Host.Outcome.next (joinNoted (halfJoined s2 half.toNat) half.toNat ms.toNat)
  clear_value s2
  rfl

theorem copyMemory_only (src dst : Nat) : Only [.mem] s (copyMemory s src dst) := (copyMemory_keeps (by decide) (.refl _ _)).only

/-- What the rebuilt arrays hold when the half joins. -/
theorem resynced_arrays (h2 : h < 2) (hl : s.fronds.length = 6) :
    let u := arraysRebuilt (copyMemory s (1 - h) h) h [0, 1, 2]
    u.pkg.seen = s.pkg.seen ∧ (∀ k < 3, ArrayCopied s u (srcDie h k) (dstDie h k)) ∧
      ((∀ k < 3, GoodRecords s (srcDie h k)) → ∀ k < 3, frond u (srcDie h k) = frond s (srcDie h k)) := by
  have hcm := copyMemory_only (s := s) (1 - h) h
  generalize copyMemory s (1 - h) h = c at hcm
  have hf : c.fronds = s.fronds := hcm .fronds (by decide)
  have hp : c.pkg = s.pkg := hcm .pkg (by decide)
  have ht : c.tables = s.tables := hcm .tables (by decide)
  have hsh (d row : Nat) : shadowAt c d row = shadowAt s d row :=
    shadowAt_congr (congrArg (fun f : Frond => f.arr.shadow) (frond_congr hf d)) row
  refine ⟨Steady.arraysRebuilt.seen.trans (congrArg Pkg.seen hp), fun k hk row => ?_, fun hg k hk => ?_⟩
  · exact (arraysRebuilt_copies h2 (hf ▸ hl) (by decide) (by decide) (List.mem_range.2 hk) row).congr (hsh _ row)
      (firstRow_congr ht (inPair_congr hp) _ _)
  · refine (arraysRebuilt_src h2 (hf ▸ hl) (by decide) (fun i hi r => ?_) hk).trans (frond_congr hf _)
    rw [hsh]
    exact hg i hi r

/-- What the package and the arrays read once the half has joined. -/
theorem joined_reads {u : State} (ms : Nat) (hr : halfState s h = .resync) (hpk : u.pkg.seen = s.pkg.seen)
    (hcopy : ∀ k < 3, ArrayCopied s u (srcDie h k) (dstDie h k))
    (hsrc : (∀ k < 3, GoodRecords s (srcDie h k)) → ∀ k < 3, frond u (srcDie h k) = frond s (srcDie h k)) :
    let m := joinNoted (halfJoined u h) h ms
    halfState m h = .serving ∧ m.pkg.resync = none ∧ primary m = primary s ∧
      (∀ k < 3, ∀ row, let g := shadowAt s (2 + k + 3 * (1 - h)) row
        let r := rowAt m (2 + k + 3 * h) row
        recordGood g = true → r.data = g.data ∧ r.mask = g.mask ∧
          (firstRow s (2 + k + 3 * (1 - h)) row = row → r.valid = g.valid)) ∧
      ((∀ k < 3, GoodRecords s (2 + k + 3 * (1 - h))) →
        ∀ k < 3, (frond m (2 + k + 3 * (1 - h))).arr = (frond s (2 + k + 3 * (1 - h))).arr) := by
  intro m
  have hseen : m.pkg.seen = (halfJoined u h).pkg.seen := joinNoted_seen ms
  have hfr : m.fronds = u.fronds := (joinNoted_fronds ms).trans halfJoined_fronds
  clear_value m
  have hhalf : (halfJoined u h).pkg.half = s.pkg.half.set h .serving := by rw [halfJoined_pkg, half_of_seen hpk]
  refine ⟨?_, ?_, ?_, fun k hk row => ?_, fun hg k hk => ?_⟩
  · have hlt : h < s.pkg.half.length := halfState_lt (by rw [hr]; nofun)
    rw [halfState_of_seen hseen, halfState, hhalf]
    simp [hlt]
  · rw [resync_of_seen hseen, halfJoined_pkg]
  · refine (primary_of_seen hseen).trans ((primary_of ?_).trans (primary_of_seen hpk))
    rw [halfJoined_pkg]
  · have hrow : rowAt m (dstDie h k) row = rowAt u (dstDie h k) row := by
      unfold rowAt
      rw [frond_congr hfr]
    have hc := hcopy k hk row
    rwa [← hrow] at hc
  · exact congrArg Frond.arr ((frond_congr hfr _).trans (hsrc hg k hk))

theorem pairResyncDone_joins (s : State) (half : BitVec 1) (ms : BitVec 32) :
    let h := half.toNat
    inPair s = true → halfState s h = .resync → updatesDone s = true → s.fronds.length = 6 →
    (∀ k < 3, KeysRise (frond s (2 + k + 3 * (1 - h))).arr.shadow) →
    ∃ m, exec (.pairResyncDone half ms) s = .next m ∧ halfState m h = .serving ∧ m.pkg.resync = none ∧ primary m = primary s ∧
      (∀ k < 3, ∀ row, let g := shadowAt s (2 + k + 3 * (1 - h)) row
        let r := rowAt m (2 + k + 3 * h) row
        recordGood g = true → r.data = g.data ∧ r.mask = g.mask ∧
          (firstRow s (2 + k + 3 * (1 - h)) row = row → r.valid = g.valid)) ∧
      ((∀ k < 3, GoodRecords s (2 + k + 3 * (1 - h))) →
        ∀ k < 3, (frond m (2 + k + 3 * (1 - h))).arr = (frond s (2 + k + 3 * (1 - h))).arr) :=
  fun hp hr hu hl _ =>
    have ⟨hpk, hcopy, hsrc⟩ := resynced_arrays half.isLt hl
    ⟨_, pairResyncDone_exec half ms hp hr hu, joined_reads ms.toNat hr hpk hcopy hsrc⟩

end

/-- Settles O56: each clause is the equation of its command; a half that went out stays bare because the serving half's homes open
nothing at its own, and a rebuilt array is the partner's row by row. -/
theorem halvesGoOutAndReturn : Obligations.HalvesGoOutAndReturn := by
  unfold Obligations.HalvesGoOutAndReturn
  exact ⟨fun s p w v => pkgMode_kept, fun s p w v c => halfCtl_changes c, fun s half => halfOutDrainEnd_exec half, halfOut_leaves,
    pairResyncDone_joins, hubLost_changes⟩

end Sys2Proof.Machine
end

section
/-! What a cell, a row, an entry and a pan's sluice tag match (Table 2.1, R50 to R63, R269, R297). -/

namespace Sys2Proof.Machine

/-! Cells -/

/-- No cell of a row mismatches exactly when every cell does what Table 2.1 says. -/
theorem mismatch_eq_zero_iff {w : Nat} (data mask key : BitVec w) :
    mismatch data mask key = 0 ↔ ∀ i < w, CellMatches (mask.getLsbD i) (data.getLsbD i) (key.getLsbD i) := by
  have hbit (i : Nat) (hi : i < w) : (mismatch data mask key).getLsbD i = false ↔
      CellMatches (mask.getLsbD i) (data.getLsbD i) (key.getLsbD i) := by
    unfold mismatch CellMatches
    rw [BitVec.getLsbD_or, BitVec.getLsbD_and, BitVec.getLsbD_xor, BitVec.getLsbD_and, BitVec.getLsbD_not, decide_eq_true hi]
    cases mask.getLsbD i <;> cases data.getLsbD i <;> cases key.getLsbD i <;> decide
  constructor
  · intro h i hi
    rw [← hbit i hi, h]
    exact BitVec.getLsbD_zero
  · intro h
    exact BitVec.eq_of_getLsbD_eq fun i hi => by rw [(hbit i hi).2 (h i hi)]; exact BitVec.getLsbD_zero.symm

/-- A never cell matches no key. -/
theorem mismatch_ne_zero_of_hasNever {w : Nat} {data mask : BitVec w} (h : hasNever data mask = true) (key : BitVec w) :
    mismatch data mask key ≠ 0 := by
  intro hm
  have hcells := (mismatch_eq_zero_iff data mask key).1 hm
  have hzero : ~~~mask &&& data = 0 := BitVec.eq_of_getLsbD_eq fun i hi => by
    rw [BitVec.getLsbD_and, BitVec.getLsbD_not, decide_eq_true hi]
    refine Eq.trans ?_ BitVec.getLsbD_zero.symm
    cases hmask : mask.getLsbD i with
    | true => rfl
    | false => rw [(hcells i hi).2 hmask]; rfl
  unfold hasNever at h
  rw [hzero] at h
  simp at h

/-! Entries -/

/-- The cell of a row that key bit c of its 80 meets: slice c / 16, bit 15 - c mod 16 (R16). -/
def cellOf (c : Nat) : Nat := 16 * (c / 16) + (15 - c % 16)

theorem cellOf_mod (b : Nat) : 16 * (b % 80 / 16) + (15 - b % 16) = cellOf (b % 80) := by unfold cellOf; omega

theorem cellOf_lt {c : Nat} (h : c < 80) : cellOf c < 80 := by unfold cellOf; omega

theorem cellOf_cellOf (c : Nat) : cellOf (cellOf c) = c := by unfold cellOf; omega

theorem keyRow_getLsbD (key : Key) (i : Nat) {j : Nat} (hj : j < 80) : (keyRow key i).getLsbD j = key.getLsbD (80 * i + j) := by
  rw [keyRow, BitVec.getLsbD_setWidth, BitVec.getLsbD_ushiftRight, decide_eq_true hj, Bool.true_and]

/-- A key bit is the bit of its row's piece of the key that its cell meets. -/
theorem keyBit_eq (key : Key) (b : Nat) : keyBit key b = (keyRow key (b / 80)).getLsbD (cellOf (b % 80)) := by
  have hidx : 16 * (b / 16) + (15 - b % 16) = 80 * (b / 80) + cellOf (b % 80) := by unfold cellOf; omega
  rw [keyRow_getLsbD key _ (cellOf_lt (Nat.mod_lt b (by decide))), keyBit, hidx]

theorem rowsMatch_iff (key : Key) (rows : List Row) : rowsMatch key rows = true ↔
    (∀ r ∈ rows, r.valid = true) ∧ ∀ i row, rows[i]? = some row → mismatch row.data row.mask (keyRow key i) = 0 := by
  unfold rowsMatch
  rw [Bool.and_eq_true, List.all_eq_true, List.all_eq_true]
  refine and_congr_right fun _ => ⟨fun h i row hi => ?_, fun h i _ => ?_⟩
  · have hlt : i < rows.length := (List.getElem?_eq_some_iff.1 hi).1
    simpa [hi] using h i (List.mem_range.2 hlt)
  · cases hi : rows[i]? with
    | none => rfl
    | some row => simpa using h i row hi

/-- Settles O15: a row offset and a cell of that row are one key bit. -/
theorem entryMatchesByItsCells : Obligations.EntryMatchesByItsCells := by
  intro key rows _
  rw [rowsMatch_iff]
  refine and_congr_right fun _ => ⟨fun h b row _ hrow => ?_, fun h i row hrow => (mismatch_eq_zero_iff _ _ _).2 fun j hj => ?_⟩
  · rw [keyBit_eq, cellOf_mod]
    exact (mismatch_eq_zero_iff _ _ _).1 (h _ row hrow) _ (cellOf_lt (Nat.mod_lt b (by decide)))
  · have hlt : i < rows.length := (List.getElem?_eq_some_iff.1 hrow).1
    have hc : cellOf j < 80 := cellOf_lt hj
    have hdiv : (80 * i + cellOf j) / 80 = i := by omega
    have hmod : (80 * i + cellOf j) % 80 = cellOf j := by omega
    have hcell := h (80 * i + cellOf j) row (by omega) (by rw [hdiv]; exact hrow)
    rwa [keyBit_eq, cellOf_mod, hdiv, hmod, cellOf_cellOf] at hcell

/-! Sluice tags -/

theorem tagMatch_iff (t : Word × Word) (f : Word) :
    tagMatch t f = true ↔ ∀ i < 16, CellMatches (t.2.getLsbD i) (t.1.getLsbD i) (f.getLsbD i) := by
  rw [tagMatch, beq_iff_eq]
  exact mismatch_eq_zero_iff _ _ _

theorem mem_litPans {s : State} {die : Nat} {f : FrondSlot} {fb : Word} {p : Nat} : p ∈ litPans s die f fb ↔
    (f.first ≤ p ∧ p < f.first + f.pans) ∧ p ∉ (frond s die).arr.dead ∧
      (tagMatch (tagOf s die p) fb = true ∨ mhas (frond s die).arr.tagBad (2 * p) = true ∨
        mhas (frond s die).arr.tagBad (2 * p + 1) = true) := by
  have hrange : p ∈ (List.range f.pans).map (f.first + ·) ↔ f.first ≤ p ∧ p < f.first + f.pans := by
    rw [List.mem_map]
    constructor
    · rintro ⟨k, hk, rfl⟩
      have := List.mem_range.1 hk
      omega
    · rintro ⟨hlo, hhi⟩
      exact ⟨p - f.first, List.mem_range.2 (by omega), by omega⟩
  have hdead : (!panDead s die p) = true ↔ p ∉ (frond s die).arr.dead := by simp [panDead]
  unfold litPans
  rw [List.mem_filter, hrange, Bool.and_eq_true, hdead, Bool.or_eq_true, Bool.or_eq_true]
  tauto

/-- Settles O17: what lights a pan, and that a never cell keeps a tag dark. -/
theorem sluiceLightsPans : Obligations.SluiceLightsPans := by
  refine ⟨fun s die f fb p => ?_, fun t fb hdark => ?_⟩
  · rw [mem_litPans, tagMatch_iff]
  · rw [tagMatch, beq_eq_false_iff_ne]
    exact mismatch_ne_zero_of_hasNever hdark fb

end Sys2Proof.Machine
end

section
/-! A search at the front of its ring is checked and starts its members (R79, R103, R104, R135). -/

namespace Sys2Proof.Machine
section
variable {s : State} {n seat : Nat} {u : Sub} {st : BitVec 8}

theorem startSub_finish_only (k : Nat) (data : Word64) :
    Only [.boot, .pkg, .lds, .extents, .mem, .coh, .rings, .covs, .life, .log, .regs, .wire] s
      (finish (startSub s n u.id k) n u st data) :=
  (finish_keeps (by decide) (startSub_keeps (by decide) (.refl _ _))).only

/-! Single searches -/

theorem startSingle_refused {ofs limit : Nat} (h : singleCheck s seat (subTable u) (subKeylen u) (subHits u) limit = some st) :
    startSingle s n u seat ofs limit = finish (startSub s n u.id 1) n u st 0 := by
  unfold startSingle
  extract_lets tb k
  rw [h]

theorem startSingle_passed {ofs limit : Nat} (h : singleCheck s seat (subTable u) (subKeylen u) (subHits u) limit = none)
    (ha : needFronds s (tableDies s [subTable u]) = none) : startSingle s n u seat ofs limit =
      startMember (startSub s n u.id 1) n u seat 0 (subTable u) (keyOfBytes u.bytes ofs (subKeylen u)) none := by
  unfold startSingle
  extract_lets tb k
  rw [h]
  dsimp only
  rw [ha]

theorem exec_searchShort {ring : BitVec 10} (h : nextSub s ring.toNat 0x01 = some (u, seat)) (hd : dispatches s ring.toNat = true) :
    exec (.searchShort ring) s = .next (startSingle s ring.toNat u seat 8 10) := by
  change execSearchShort ring s = _
  unfold execSearchShort
  simp only [h, hd, if_true]

theorem exec_searchLong_single {ring : BitVec 10} (h : nextSub s ring.toNat 0x02 = some (u, seat))
    (hd : dispatches s ring.toNat = true) (hg : subGroup u = 1) :
    exec (.searchLong ring) s = .next (startSingle s ring.toNat u seat 16 40) := by
  change execSearchLong ring s = _
  unfold execSearchLong
  simp [h, hd, hg]

/-- Both forms of a single search start it alike; they differ in the key's first byte and its greatest length. -/
theorem exec_single {ring : BitVec 10} {long : Bool} (h : nextSub s ring.toNat (if long then 0x02 else 0x01) = some (u, seat))
    (hd : dispatches s ring.toNat = true) (hg : long = false ∨ subGroup u = 1) :
    exec (if long then .searchLong ring else .searchShort ring) s =
      .next (startSingle s ring.toNat u seat (if long then 16 else 8) (if long then 40 else 10)) := by
  cases long with
  | false => exact exec_searchShort h hd
  | true => exact exec_searchLong_single h hd (hg.resolve_left nofun)

/-! Groups -/

/-- The state in which a group's members have all been started or answered. -/
def groupStarted (s : State) (n : Nat) (u : Sub) (seat : Nat) : State :=
  let tables := (groupTables u).take (subGroup u)
  (List.range (subGroup u)).foldl (fun m i =>
    startMember m n u seat i (tables.getD i 0) (keyOfBytes u.bytes 16 (subKeylen u)) (memberCheck s seat (tables.getD i 0) (subKeylen u)))
    (startSub s n u.id (subGroup u))

theorem groupCheck_le {keylen hits group : Nat} (h : groupCheck s seat keylen hits group = none) : group ≤ 4 := by
  unfold groupCheck at h
  by_contra hg
  have hcount : (decide (8 < hits) || decide (4 < group)) = true := by simp [show 4 < group by omega]
  rw [hcount] at h
  split_ifs at h with _ _ _ hgt
  exact hgt rfl

theorem filterMap_zip_map {α β : Type} (l : List α) (f : α → Option β) :
    ((l.zip (l.map f)).filterMap fun x => if x.2.isNone then some x.1 else none) = l.filter fun x => (f x).isNone := by
  induction l with
  | nil => rfl
  | cons x l ih =>
    rw [List.map_cons, List.zip_cons_cons, List.filterMap_cons, List.filter_cons, ih]
    cases (f x).isNone <;> rfl

theorem exec_group_refused {ring : BitVec 10} (h : nextSub s ring.toNat 0x02 = some (u, seat)) (hd : dispatches s ring.toNat = true)
    (hg : subGroup u ≠ 1) (hc : groupCheck s seat (subKeylen u) (subHits u) (subGroup u) = some st) :
    exec (.searchLong ring) s = .next (finish (startSub s ring.toNat u.id 1) ring.toNat u st 0) := by
  change execSearchLong ring s = _
  unfold execSearchLong
  simp [h, hd, hg, hc]

theorem exec_group_started {ring : BitVec 10} (h : nextSub s ring.toNat 0x02 = some (u, seat)) (hd : dispatches s ring.toNat = true)
    (hg : subGroup u ≠ 1) (hc : groupCheck s seat (subKeylen u) (subHits u) (subGroup u) = none)
    (ha : needFronds s (tableDies s (((groupTables u).take (subGroup u)).filter fun x =>
      (memberCheck s seat x (subKeylen u)).isNone)) = none) :
    exec (.searchLong ring) s = .next (groupStarted s ring.toNat u seat) := by
  have hlen : ((groupTables u).take (subGroup u)).length = subGroup u := by
    have := groupCheck_le hc
    simp [groupTables, this]
  change execSearchLong ring s = _
  unfold execSearchLong
  simp only [h, hd, hg, hc, filterMap_zip_map, ha, Bool.not_true, Bool.false_eq_true, if_false]
  refine congrArg _ (List.foldl_ext _ _ _ fun m i hi => ?_)
  have hlt := List.mem_range.1 hi
  congr 1
  rw [List.getD_eq_getElem _ _ (by rw [List.length_map, hlen]; exact hlt), List.getElem_map,
    List.getD_eq_getElem _ _ (by rw [hlen]; exact hlt)]

end

/-- Settles O19: a single search of either form, then a group, each refused by its first failing check or started. -/
theorem searchSubmissionsStart : Obligations.SearchSubmissionsStart := by
  intro s ring u seat long n c ofs limit k hnext hd
  refine ⟨fun hg => ⟨fun st hst => ?_, fun hpass ha => ?_⟩, fun hlong hg => ⟨fun st hst => ?_, fun hpass => ?_⟩⟩
  · exact ⟨_, (exec_single hnext hd hg).trans (congrArg _ (startSingle_refused hst)), rfl, startSub_finish_only 1 0⟩
  · exact (exec_single hnext hd hg).trans (congrArg _ (startSingle_passed hpass ha))
  · subst hlong
    exact exec_group_refused hnext hd hg hst
  · subst hlong
    intro tables ha
    exact exec_group_started hnext hd hg hpass ha

end Sys2Proof.Machine
end

section
/-! A member of a search is admitted and lights its pans, or is over the budget and lights none (R76, R81). -/

namespace Sys2Proof.Machine
section
variable {s t m : State} {a : Ask} {tb : Table} {hub d b : Nat}

/-! What a charge leaves of a state -/

theorem eq_of_only_charges (h : Only [.seats, .rings, .tally] s t) :
    t = { s with seats := t.seats, rings := t.rings, tally := t.tally } := by
  have same (p : Piece) (hp : p ∉ [Piece.seats, Piece.rings, Piece.tally]) := h p hp
  cases s
  cases t
  simp only [State.mk.injEq]
  exact ⟨same .chip (by decide), same .pins (by decide), same .jtag (by decide), same .fw (by decide), same .boot (by decide),
    same .store (by decide), same .pkg (by decide), same .clock (by decide), same .ports (by decide), same .lds (by decide),
    same .mctp (by decide), trivial, same .steward (by decide), same .extents (by decide), same .keys (by decide),
    same .mem (by decide), same .coh (by decide), same .fronds (by decide), same .tables (by decide), trivial,
    same .searches (by decide), same .jobs (by decide), same .nextId (by decide), same .disp (by decide), same .covs (by decide),
    trivial, same .life (by decide), same .log (by decide), same .harvest (by decide), same .regs (by decide),
    same .wire (by decide), same .freeCtr (by decide), same .pending (by decide)⟩

theorem reachFault_of_only_charges (h : Only [.seats, .rings, .tally] s t) (hub : Nat) (dies : List Nat) :
    reachFault t hub dies = reachFault s hub dies := by
  rw [eq_of_only_charges h]
  rfl

theorem litPans_of_only_charges (h : Only [.seats, .rings, .tally] s t) (die : Nat) (f : FrondSlot) (w : Word) :
    litPans t die f w = litPans s die f w := by
  rw [eq_of_only_charges h]
  rfl

/-! The fronds count their searches -/

/-- A frond's share of a search's start: its work booked, its counters moved. -/
def lightFrond (n : Nat) (s : State) (x : Nat × FrondSlot × List Nat) : State :=
  modFrond (bookOp s (coreRail x.1) (x.2.2.length * n * opCost s opLit (frond s x.1).level)) x.1 fun f =>
    { f with searches := f.searches + 1, lit := f.lit + BitVec.ofNat 64 (x.2.2.length * n) }

variable {n : Nat} {x : Nat × FrondSlot × List Nat} {xs : List (Nat × FrondSlot × List Nat)}

theorem frond_bookOp (rail pj d : Nat) : frond (bookOp s rail pj) d = frond s d := rfl

theorem lightFrond_length : (lightFrond n s x).fronds.length = s.fronds.length := modFrond_fronds_length _ _

theorem frond_lightFrond_ne (h2 : 2 ≤ d) (hne : d ≠ x.1) : frond (lightFrond n s x) d = frond s d :=
  frond_modFrond_ne h2 hne _

theorem frond_lightFrond_self (h2 : 2 ≤ x.1) (hl : x.1 - 2 < s.fronds.length) :
    (frond (lightFrond n s x) x.1).searches = (frond s x.1).searches + 1 := by
  unfold lightFrond
  rw [frond_modFrond_self h2 (by exact hl)]
  rfl

theorem frond_lightFronds_ne (h2 : 2 ≤ d) (hne : d ∉ xs.map fun x => x.1) : frond (xs.foldl (lightFrond n) s) d = frond s d := by
  induction xs generalizing s with
  | nil => rfl
  | cons x xs ih =>
    rw [List.map_cons, List.mem_cons, not_or] at hne
    rw [List.foldl_cons, ih hne.2, frond_lightFrond_ne h2 hne.1]

theorem frond_lightFronds_mem (hn : (xs.map fun x => x.1).Nodup) (hd : ∀ x ∈ xs, 2 ≤ x.1 ∧ x.1 - 2 < s.fronds.length) (hx : x ∈ xs) :
    (frond (xs.foldl (lightFrond n) s) x.1).searches = (frond s x.1).searches + 1 := by
  induction xs generalizing s with
  | nil => cases hx
  | cons y ys ih =>
    obtain ⟨hy, hys⟩ := List.nodup_cons.1 hn
    obtain ⟨h2, hl⟩ := hd x hx
    rw [List.foldl_cons]
    rcases List.mem_cons.1 hx with rfl | hmem
    · rw [frond_lightFronds_ne h2 hy, frond_lightFrond_self h2 hl]
    · have hne : x.1 ≠ y.1 := fun he => hy (List.mem_map.2 ⟨x, hmem, he⟩)
      rw [ih hys (fun z hz => lightFrond_length.symm ▸ hd z (.tail _ hz)) hmem, frond_lightFrond_ne h2 hne]

theorem lightFronds_only : Only [.fronds, .tally] s (xs.foldl (lightFrond n) s) :=
  (Keeps.foldl (l := [.fronds, .tally]) (.refl _ _) fun _ _ => modFrond_keeps (by decide) (bookOp_keeps (by decide) (.refl _ _))).only

/-! A launch -/

theorem launch_refused (h : admitWork s a.seat (searchCost s tb a.hits) = none) :
    launch s tb a = (countRefused s, some stOverBudget) := by
  unfold launch
  extract_lets compare dies c hub
  rw [h]

/-- A search that begins: its record under the next identity, the rest being a state. -/
def launched (s : State) (q : Search) : State := { s with searches := mput s.searches s.nextId q, nextId := s.nextId + 1 }

theorem launched_only {q : Search} : Only [.searches, .nextId] s (launched s q) :=
  Only.intro fun p hp => by cases p <;> first | rfl | exact absurd (by decide) hp

/-- What the record of a search that begins holds of the submission, the table and its fronds' lit pans. -/
structure Recorded (s : State) (tb : Table) (a : Ask) (q : Search) : Prop where
  ring : q.ring = a.ring
  sub : q.sub = a.sub
  member : q.member = a.member
  tag : q.tag = a.tag
  seat : q.seat = a.seat
  table : q.table = a.table
  key : q.key = a.key
  hits : q.hits = a.hits
  cost : q.cost = searchCost s tb a.hits
  res : q.res = (searchDies s tb (inCompare s)).map fun x =>
    { die := x.1, rank := x.2.rank, lit := litPans s x.1 x.2 (field16 a.key tb.ofs), done := false, hits := [],
      prios := [], fault := 0, near := none, wake := false }

/-- The lit pans of each frond of a search. -/
def litOf (s : State) (tb : Table) (key : Key) : List (Nat × FrondSlot × List Nat) :=
  (searchDies s tb (inCompare s)).map fun x => (x.1, x.2, litPans s x.1 x.2 (field16 key tb.ofs))

theorem launch_admitted {g : Bool} (h : admitWork s a.seat (searchCost s tb a.hits) = some (m, g))
    (hr : reachFault s (((seatPlace s a.seat).map placeHub).getD 0) ((searchDies s tb (inCompare s)).map fun x => x.1) = none) :
    ∃ u q, Only [.seats, .tally] s u ∧ Recorded s tb a q ∧
      launch s tb a = (launched ((litOf s tb a.key).foldl (lightFrond (slotsOfSearch tb a.hits)) u) q, none) := by
  have hm : Only [.seats, .tally] s m := (admitWork_keeps (kl := [.seats, .tally]) (by decide) h (.refl _ _)).only
  unfold launch
  extract_lets compare dies c hub fb slots
  have hhub : hub = ((seatPlace s a.seat).map placeHub).getD 0 := by dsimp only [hub]; cases seatPlace s a.seat <;> rfl
  rw [← hhub] at hr
  clear_value hub
  have hbook : Only [.seats, .tally] s (bookOp m (2 + hub) (opCost m opDispatch 0)) :=
    hm.trans (bookOp_keeps (kl := [.seats, .tally]) (by decide) (.refl _ _)).only
  simp only [h, reachFault_of_only_charges (hbook.mono (by decide)), litPans_of_only_charges (hbook.mono (by decide)), compare, dies, c, hr]
  exact ⟨_, _, hbook, ⟨rfl, rfl, rfl, rfl, rfl, rfl, rfl, rfl, rfl, List.map_map⟩, rfl⟩

/-! A member -/

variable {u : Sub} {seat member table : Nat} {key : Key}

/-- What a member asks of its table. -/
def memberAsk (n : Nat) (u : Sub) (seat member table : Nat) (key : Key) : Ask :=
  { ring := n, sub := u.id, member := member, tag := u.tag, seat := seat, table := table, key := key,
    hits := subHits u, early := u.early && !noEarly u, window := false, fetched := u.fetched }

theorem startMember_launches {m : State} (h : tableIn s table = some tb) (hl : launch s tb (memberAsk n u seat member table key) = (m, none)) :
    startMember s n u seat member table key none = m := by
  unfold startMember
  unfold memberAsk at hl
  simp only [h, hl]

theorem startMember_refused (h : tableIn s table = some tb) (ha : admitWork s seat (searchCost s tb (subHits u)) = none) :
    startMember s n u seat member table key none = memberDone (countRefused s) n u member stOverBudget := by
  have hl := launch_refused (a := memberAsk n u seat member table key) ha
  unfold startMember
  unfold memberAsk at hl
  simp only [h, hl, if_true]

end

/-- Settles O20: a member that is admitted is recorded and lights its pans; one over the budget only counts as refused. -/
theorem searchMemberRunsOrIsOverBudget : Obligations.SearchMemberRunsOrIsOverBudget := by
  intro s n u seat member tb key t ht cost dies hub
  refine ⟨fun m g ha hr hd hn => ?_, fun ha => ?_⟩
  · intro r
    obtain ⟨v, q, hv, hq, hl⟩ := launch_admitted (a := memberAsk n u seat member tb key) ha hr
    let lit := litOf s t key
    let w := lit.foldl (lightFrond (slotsOfSearch t (subHits u))) v
    have hr : r = launched w q := startMember_launches ht hl
    have hw : Only [.seats, .fronds, .tally] s w := (hv.mono (by decide)).trans (lightFronds_only.mono (by decide))
    have hsearch : w.searches = s.searches := hw .searches (by decide)
    have hid : w.nextId = s.nextId := hw .nextId (by decide)
    have hf (d : Nat) : frond v d = frond s d := frond_congr (hv .fronds (by decide)) d
    have hdies : lit.map (fun x => x.1) = dies.map fun x => x.1 := List.map_map
    rw [hr]
    refine ⟨⟨q, ?_, hq.ring, hq.sub, hq.member, hq.tag, hq.seat, hq.table, hq.key, hq.hits, hq.cost, hq.res⟩,
      congrArg (· + 1) hid, fun i hi => ?_, fun x hx => ?_, fun d hd h2 => ?_, ?_⟩
    · exact hid ▸ mget_mput_self _ _ _
    · exact (mget_mput_ne _ _ (hid ▸ hi)).trans (congrArg (mget · i) hsearch)
    · rw [← hf]
      refine frond_lightFronds_mem (x := (x.1, x.2, _)) (hdies ▸ hn) (fun y hy => ?_) (List.mem_map_of_mem hx)
      obtain ⟨z, hz, rfl⟩ := List.mem_map.1 hy
      exact (congrArg List.length (hv .fronds (by decide))).symm ▸ hd z hz
    · exact (frond_lightFronds_ne h2 (hdies ▸ hd)).trans (hf d)
    · exact (hw.mono (by decide)).trans (launched_only.mono (by decide))
  · intro r
    have hr : r = memberDone (countRefused s) n u member stOverBudget := startMember_refused ht ha
    have hk := (memberDone_keeps (kl := [.boot, .pkg, .lds, .extents, .mem, .coh, .rings, .covs, .life, .log, .regs, .wire])
      (n := n) (u := u) (member := member) (st := stOverBudget) (by decide) (.refl _ (countRefused s))).only
    rw [hr]
    exact ⟨hk .fronds (by decide), hk .seats (by decide), hk .searches (by decide), hk .tally (by decide), rfl⟩

end Sys2Proof.Machine
end

section
/-! A search on a frond: its local matches, the check of its winner's near data and the far data fetched ahead (R56, R59, R74, R87, R88). -/

namespace Sys2Proof.Machine
section
variable {s t : State} {id die : Nat} {q : Search} {tb : Table} {r : FRes} {hits : List Hit}

/-! A search's fronds -/

theorem find_part (hn : (q.res.map fun r => r.die).Nodup) (hr : r ∈ q.res) : (q.res.find? fun x => x.die == r.die) = some r := by
  obtain ⟨x, hx⟩ := Option.isSome_iff_exists.1 (List.find?_isSome (p := fun x : FRes => x.die == r.die).2 ⟨r, hr, beq_self_eq_true _⟩)
  have hdie : x.die = r.die := by simpa using List.find?_some hx
  rw [hx, List.inj_on_of_nodup_map hn (List.mem_of_find?_eq_some hx) hr hdie]

theorem mem_modRes_self {f : FRes → FRes} (hr : r ∈ q.res) : f r ∈ (modRes q r.die f).res :=
  List.mem_map.2 ⟨r, hr, if_pos rfl⟩

theorem mem_modRes_other {f : FRes → FRes} {x : FRes} (hx : x ∈ q.res) (hne : x.die ≠ die) : x ∈ (modRes q die f).res :=
  List.mem_map.2 ⟨x, hx, if_neg hne⟩

theorem modRes_length {f : FRes → FRes} : (modRes q die f).res.length = q.res.length := List.length_map _

theorem earlyCheck_of_late (hq : mget s.searches id = some q) (he : q.early = false) : earlyCheck s id = s := by
  unfold earlyCheck
  rw [hq]
  simp only [he, Bool.not_false, if_true]

/-! What the start of a frond's part leaves of its array -/

/-- The rows and the dead beds of every frond are the same in two states. -/
def RowsKept (s t : State) : Prop :=
  t.fronds.map (fun f => (f.arr.rows, f.arr.bedDead)) = s.fronds.map fun f => (f.arr.rows, f.arr.bedDead)

namespace RowsKept

theorem rows (h : RowsKept s t) (d : Nat) : (frond t d).arr.rows = (frond s d).arr.rows :=
  congrArg Prod.fst (frond_of_map (g := fun f => (f.arr.rows, f.arr.bedDead)) h d)

theorem bedDead (h : RowsKept s t) (d : Nat) : (frond t d).arr.bedDead = (frond s d).arr.bedDead :=
  congrArg Prod.snd (frond_of_map (g := fun f => (f.arr.rows, f.arr.bedDead)) h d)

theorem rowAt (h : RowsKept s t) (d row : Nat) : rowAt t d row = rowAt s d row := by
  unfold Machine.rowAt
  rw [h.rows]

theorem rowsOf (h : RowsKept s t) (d first n : Nat) : rowsOf t d first n = rowsOf s d first n :=
  List.map_congr_left fun row _ => h.rowAt d row

theorem matches_ (h : RowsKept s t) (d n : Nat) (lit : List Nat) (key : Key) : matches_ t d n lit key = matches_ s d n lit key := by
  unfold Machine.matches_
  simp only [h.rows, h.rowsOf]

theorem capture (h : RowsKept s t) (d first n : Nat) : capture t d first n = capture s d first n := by
  unfold Machine.capture
  rw [h.rowAt, h.rowsOf]

theorem modArr {o : State} (h : RowsKept o s) {f : FrondArray → FrondArray} (hf : ∀ a, (f a).rows = a.rows ∧ (f a).bedDead = a.bedDead) :
    RowsKept o (modArr s die f) :=
  (modFrond_map fun x => Prod.ext (hf x.arr).1 (hf x.arr).2).trans h

theorem tagChecks (lit : List Nat) : RowsKept s (tagChecks s die lit) := by
  unfold RowsKept
  rw [(tagChecks_keeps (kl := [.boot, .pkg, .lds, .life, .log, .regs, .wire]) (by decide) (.refl _ _)).only .fronds (by decide)]

theorem usePans {o : State} (h : RowsKept o s) (lit : List Nat) : RowsKept o (lit.foldl (fun s p => usePan s die p) s) :=
  List.foldlRecOn lit _ h fun _ hs _ _ => hs.modArr fun _ => ⟨rfl, rfl⟩

theorem bedCount {o : State} (h : RowsKept o s) (lit : List Nat) : RowsKept o (bedCount s die lit none) := by
  unfold Machine.bedCount
  refine List.foldlRecOn _ _ h fun u hu b _ => ?_
  dsimp only
  split
  · exact hu
  · rw [if_neg nofun]
    exact hu.modArr fun _ => ⟨rfl, rfl⟩

end RowsKept

/-! LOCAL_RESULT -/

/-- A frond's part of a search has checked its tags, used its pans and found its beds good. -/
def searched (s : State) (r : FRes) : State :=
  bedCount (r.lit.foldl (fun s p => usePan s r.die p) (tagChecks s r.die r.lit)) r.die r.lit none

theorem searched_rowsKept : RowsKept s (searched s r) := ((RowsKept.tagChecks _).usePans _).bedCount _

theorem searched_only : Only [.boot, .pkg, .lds, .fronds, .life, .log, .regs, .wire] s (searched s r) :=
  (bedCount_keeps (by decide) (.foldl (tagChecks_keeps (by decide) (.refl _ _)) fun _ _ => usePan_keeps (by decide) (.refl _ _))).only

/-- A frond's matches in the table's order. -/
def localHits (s : State) (q : Search) (tb : Table) (r : FRes) : List Hit :=
  ((matches_ s r.die tb.rows r.lit q.key).map fun f => capture s r.die f tb.rows).foldl (fun l h => hitInsert tb.ranked h l) []

theorem localHits_of_rowsKept (h : RowsKept s t) : localHits t q tb r = localHits s q tb r := by
  unfold localHits
  rw [h.matches_]
  simp only [h.capture]

/-- A frond's report of the hits it found, without a fault. -/
def reported (q : Search) (die : Nat) (all : List Hit) : Search :=
  modRes q die fun r => { r with done := true, hits := all.take q.hits, prios := all.map fun h => h.prio, fault := 0 }

/-- The far data of a frond's first hit is predicted. -/
def predicted (s : State) (q : Search) (tb : Table) : List Hit → State × Search
  | h :: _ => predict s q tb h
  | [] => (s, q)

/-- A prediction changes no report, and of the state only what was fetched ahead before. -/
structure Predicted (s : State) (q : Search) (x : State × Search) : Prop where
  res : x.2.res = q.res
  key : x.2.key = q.key
  hits : x.2.hits = q.hits
  early : x.2.early = q.early
  ended : x.2.ended = q.ended
  only : Only [.coh, .disp] s x.1
  still : q.fills = [] → x.1 = s

theorem predict_predicted (h : Hit) : Predicted s q (predict s q tb h) := by
  unfold predict
  extract_lets better squashed
  split
  · split
    · exact ⟨rfl, rfl, rfl, rfl, rfl, .refl _ _, fun _ => rfl⟩
    · exact ⟨rfl, rfl, rfl, rfl, rfl, (Keeps.ite (.refl _ _) (squashFills_keeps (by decide) (.refl _ _))).only,
        fun hf => if_pos (List.isEmpty_iff.2 hf)⟩
  · exact ⟨rfl, rfl, rfl, rfl, rfl, .refl _ _, fun _ => rfl⟩

theorem predicted_predicted (hits : List Hit) : Predicted s q (predicted s q tb hits) := by
  cases hits with
  | nil => exact ⟨rfl, rfl, rfl, rfl, rfl, .refl _ _, fun _ => rfl⟩
  | cons h hits => exact predict_predicted h

theorem localSearch_found (he : q.ended = false) (h2 : 2 ≤ q.res.length) (hb : ∀ p ∈ r.lit, p / 32 ∉ (frond s r.die).arr.bedDead)
    (hp : tb.ranked = true → ∀ f ∈ matches_ s r.die tb.rows r.lit q.key, (rowAt s r.die f).ppar = true) :
    localSearch s id q r tb .none =
      let x := predicted (searched s r) (reported q r.die (localHits s q tb r)) tb ((localHits s q tb r).take q.hits)
      earlyCheck (putSearch x.1 id x.2) id := by
  extract_lets x
  have hx : Predicted (searched s r) (reported q r.die (localHits s q tb r)) x := predicted_predicted _
  have hk : RowsKept s (searched s r) := searched_rowsKept
  have hdead : (r.lit.any fun p => (frond (r.lit.foldl (fun s p => usePan s r.die p) (tagChecks s r.die r.lit))
      r.die).arr.bedDead.contains (p / 32)) = false := by
    rw [((RowsKept.tagChecks r.lit).usePans r.lit).bedDead]
    simpa using hb
  have hprio : (if tb.ranked = true then (matches_ s r.die tb.rows r.lit q.key).filter fun f =>
      !(rowAt s r.die f).ppar || false else []) = [] := by
    split
    · next hrank => simpa using hp hrank
    · rfl
  have hend (f : FRes → FRes) : (modRes q r.die f).ended = false := he
  unfold localSearch
  change RowsKept s (bedCount _ _ _ _) at hk
  simp only [hdead, hk.matches_, hk.rowAt, hk.capture, hprio, hend, Option.isSome_none, Bool.or_self, List.isEmpty_nil, Bool.not_true,
    Bool.false_eq_true, if_false, if_true, List.append_nil, fixPrio, List.foldl_nil]
  refine Eq.trans (if_neg (c := x.2.ended = true) (by rw [hx.ended]; exact Bool.eq_false_iff.1 he)) (if_neg (c := (_ && _) = true) ?_)
  have hlen : x.2.res.length ≠ 1 := by rw [hx.res, reported, modRes_length]; omega
  exact fun hc => hlen (of_decide_eq_true (Bool.and_eq_true_iff.1 hc).1)

theorem localResult_finds (hq : mget s.searches id = some q) (ht : mget s.tables q.table = some tb)
    (hn : (q.res.map fun r => r.die).Nodup) (hr : r ∈ q.res) (hd : r.done = false) (ha : awake s r.die = true)
    (hw : wakeLit s id q r = none) : localResult s id r.die .none = localSearch s id q r tb .none := by
  have hwork : working s r.die = true := by
    unfold awake at ha
    unfold working
    simp only [Bool.and_eq_true] at ha ⊢
    obtain ⟨⟨⟨⟨hstate, -⟩, hwaking⟩, -⟩, hhalt⟩ := ha
    exact ⟨⟨hstate, hwaking⟩, hhalt⟩
  unfold localResult
  simp only [hq, find_part hn hr, ht, hd, hwork, hw, Bool.not_true, Bool.or_self, Bool.false_eq_true, if_false]

/-! NEAR_DATA_READ -/

/-- The check of a frond's winner, noted in its part and charged. -/
def winnerRead (s : State) (q : Search) (r : FRes) (h : Hit) (n : Nat) : Search :=
  modRes (chargeSearch s q r.die opNear 1).2 r.die fun r => { r with near := some (winnerCheck q.key h n) }

theorem nearDataRead_checks {h : Hit} {l : List Hit} (hq : mget s.searches id = some q) (ht : mget s.tables q.table = some tb)
    (hn : (q.res.map fun r => r.die).Nodup) (hr : r ∈ q.res) (hlate : q.early = false) (he : q.ended = false)
    (h2 : 2 ≤ q.res.length) (hd : r.done = true) (hh : halted s (halfOf r.die) = false) (hnear : r.near = none)
    (hspec : q.spec = true) (hhits : r.hits = h :: l) : nearDataRead s id r.die =
      putSearch (chargeSearch s q r.die opNear 1).1 id (winnerRead s q r h tb.rows) := by
  have hlen : (winnerRead s q r h tb.rows).res.length ≠ 1 := by rw [winnerRead, modRes_length]; exact (Nat.ne_of_lt h2).symm
  have hend : (winnerRead s q r h tb.rows).ended = false := he
  have hcheck : earlyCheck (putSearch (chargeSearch s q r.die opNear 1).1 id (winnerRead s q r h tb.rows)) id = _ :=
    earlyCheck_of_late (mget_mput_self _ _ _) hlate
  unfold nearDataRead
  simp only [hq, find_part hn hr, ht, hhits, hd, hh, hnear, hspec, Option.isSome_none, Bool.not_true, Bool.false_and, Bool.or_self,
    Bool.false_eq_true, if_false]
  exact (if_neg (c := (winnerRead s q r h tb.rows).ended = true) (by simp [hend])).trans
    ((if_neg (c := (winnerRead s q r h tb.rows).res.length = 1) hlen).trans hcheck)

/-! FAR_DATA_PREFETCH_FILL -/

theorem mdel_sublist {α : Type} (m : SMap α) (n : Nat) : (mdel m n).Sublist m := by
  induction m with
  | nil => exact .slnil
  | cons e m ih =>
    unfold mdel
    split
    · exact .cons _ (.refl _)
    · split
      · exact .refl _
      · exact .cons_cons _ ih

theorem specRoom_dropSpec {line hub : Nat} (h : (s.coh.spec.filter fun e => devHub s e.1 == hub).length < 32768) :
    specRoom (dropSpec s line) hub = some (dropSpec s line) := by
  have hfewer := ((mdel_sublist s.coh.spec line).filter fun e => devHub s e.1 == hub).length_le
  exact if_pos (Nat.lt_of_le_of_lt hfewer h)

/-- A line that is fetched ahead comes from another die's copy or from its hub's DRAM. -/
def lineFetched (s : State) (line hub c : Nat) : State :=
  match supplier s line hub hub 64 with
  | some x => send s (.cohMsg x line 1)
  | none => bookOp s (14 + hub) c

theorem lineFetched_only {line hub c : Nat} : Only [.tally, .wire] s (lineFetched s line hub c) := by
  unfold lineFetched
  split
  · exact (send_keeps (by decide) (.refl _ _)).only
  · exact (bookOp_keeps (by decide) (.refl _ _)).only

/-- A search's charge and list of lines fetched ahead, with one line more. -/
def fillNoted (s : State) (q : Search) (line : Nat) : Search :=
  { q with charge := q.charge + opCost s opDram 0, fills := q.fills ++ [line] }

/-- A line fetched ahead stands in the speculation area for the search's seat. -/
def lineMarked (s : State) (id : Nat) (q : Search) (line : Nat) : State :=
  let m := dropSpec s line
  modCoh (lineFetched (putSearch m id (fillNoted m q line)) line (devHub s line) (opCost m opDram 0)) fun x =>
    { x with spec := mput x.spec line (some q.seat) }

theorem farDataPrefetchFill_marks {i : BitVec 32} {k : BitVec 2} {die row line : Nat} {l : List Nat}
    (hq : mget s.searches i.toNat = some q) (he : q.ended = false) (hp : q.pred = some (die, row, l)) (hl : l[k.toNat]? = some line)
    (hm : mayPrefetch s line (devHub s line) = true) (hs : mget s.coh.spec line ≠ some (some q.seat))
    (hc : homeCut s (dispHub s q.seat) line = false)
    (hr : (s.coh.spec.filter fun e => devHub s e.1 == devHub s line).length < 32768) (hv : hubServes s (devHub s line) = true) :
    exec (.farDataPrefetchFill i k) s = .next (lineMarked s i.toNat q line) := by
  change execFarDataPrefetchFill i k s = _
  unfold execFarDataPrefetchFill
  have hline : (q.pred.bind fun p => p.2.2[k.toNat]?) = some line := by rw [hp]; exact hl
  have hmay : (!q.ended && mayPrefetch s line (devHub s line) && mget s.coh.spec line != some (some q.seat) &&
      hubServes s (devHub s line) && !homeCut s (dispHub s q.seat) line) = true := by
    rw [he, hm, hc, hv, bne_iff_ne.2 hs]
    rfl
  simp only [hq, hline, hmay, specRoom_dropSpec hr, if_true]
  rfl

end

/-- Settles O21: a frond's local result, the check of its winner, then a line fetched ahead. -/
theorem frondSearchesItsLitPans : Obligations.FrondSearchesItsLitPans := by
  intro s id q t hq ht hlate he h2 hn
  refine ⟨fun die r hr hdie => ⟨fun hd ha hw hb => ?_, fun h l hd hh hnear hspec hhits => ?_⟩,
    fun k die row line l hp hl hm hs hc hroom hv => ?_⟩
  · intro ms hprio
    let all := localHits s q t r
    let x := predicted (searched s r) (reported q r.die all) t (all.take q.hits)
    have hx : Predicted (searched s r) (reported q r.die all) x := predicted_predicted _
    have hfound : localResult s id.toNat die.toNat .none = putSearch x.1 id.toNat x.2 := by
      rw [← hdie, localResult_finds hq ht hn hr hd ha hw, localSearch_found he h2 hb hprio]
      exact earlyCheck_of_late (mget_mput_self _ _ _) (hx.early.trans hlate)
    have honly : Only [.boot, .pkg, .lds, .coh, .fronds, .disp, .life, .log, .regs, .wire] s x.1 :=
      (searched_only.mono (by decide)).trans (hx.only.mono (by decide))
    refine ⟨_, x.2, { r with done := true, hits := all.take q.hits, prios := all.map fun h => h.prio, fault := 0 },
      congrArg Host.Outcome.next hfound, mget_mput_self _ _ _, ?_, rfl, fun y hy hne => ?_, hx.key, hx.hits,
      congrArg List.length (honly .tables (by decide)), honly .rings (by decide), honly .mem (by decide), fun hf => ?_⟩
    · rw [hx.res]
      exact mem_modRes_self hr
    · rw [hx.res]
      exact mem_modRes_other hy hne
    · exact (congrArg State.coh (hx.still hf)).trans (searched_only .coh (by decide))
  · have hread := nearDataRead_checks (id := id.toNat) hq ht hn hr hlate he h2 hd hh hnear hspec hhits
    rw [hdie] at hread
    refine ⟨_, winnerRead s q r h t.rows, congrArg Host.Outcome.next hread, mget_mput_self _ _ _, mem_modRes_self hr,
      fun y hy hne => mem_modRes_other hy hne, ?_, (putSearch_keeps (by decide) (chargeSearch_keeps (by decide) (.refl _ _))).only⟩
    exact congrArg (q.charge + ·) (Nat.one_mul _)
  · have hfetch (m : State) := lineFetched_only (s := m) (line := line) (hub := devHub s line) (c := opCost (dropSpec s line) opDram 0)
    have hcoh := hfetch (putSearch (dropSpec s line) id.toNat (fillNoted (dropSpec s line) q line)) .coh (by decide)
    have hcopies := congrArg (fun c => c.copies) hcoh
    have hdir := congrArg (fun c => c.dir) hcoh
    exact ⟨_, _, farDataPrefetchFill_marks hq he hp hl hm hs hc hroom hv, mget_mput_self _ _ _,
      (congrArg (mget · id.toNat) (hfetch _ .searches (by decide))).trans (mget_mput_self _ _ _), rfl, rfl,
      hfetch _ .mem (by decide), hcopies, hdir⟩

end Sys2Proof.Machine
end

section
/-! The verdict on a search's fronds (R70, R72, R95, R117), and the end of a search, after which it is gone (R84, R94). -/

namespace Sys2Proof.Machine
section
variable {s t : State} {id : Nat} {q : Search} {tb : Table} {res : List FRes} {v : Verdict} {early : Bool}

/-! The verdict -/

theorem judge_of_fault (h : ∃ r ∈ res, r.fault ≠ 0) : ∃ r ∈ res, r.fault ≠ 0 ∧ (judge s id q tb res).2 = ⟨r.fault, [], none⟩ := by
  obtain ⟨r0, hr0, hf0⟩ := h
  have hsome : (res.find? fun r => r.fault != 0).isSome = true := List.find?_isSome.2 ⟨r0, hr0, by simpa using hf0⟩
  obtain ⟨r, hr⟩ := Option.isSome_iff_exists.1 hsome
  have hfault := List.find?_some hr
  refine ⟨r, List.mem_of_find?_eq_some hr, by simpa using hfault, ?_⟩
  unfold judge
  rw [hr]
  rfl

section
variable (hf : ∀ r ∈ res, r.fault = 0)
include hf

theorem no_fault_found : (res.find? fun r => r.fault != 0) = none :=
  List.find?_eq_none.2 fun r hr => by simp [hf r hr]

theorem judge_of_miss (hl : merged tb.ranked q.hits res = []) : (judge s id q tb res).2 = ⟨stMiss, [], none⟩ := by
  unfold judge
  rw [no_fault_found hf, hl]
  rfl

theorem judge_of_good {u : State} (hl : merged tb.ranked q.hits res ≠ [])
    (hr : readHits s id q.key tb.rows res (merged tb.ranked q.hits res) = (u, none)) :
    (judge s id q tb res).2 =
      let good := (merged tb.ranked q.hits res).takeWhile fun h => !h.poison
      ⟨if good.isEmpty then stPoisoned else if q.hits = 1 then stHit else stMulti, good,
        (merged tb.ranked q.hits res).find? fun h => h.poison⟩ := by
  unfold judge
  rw [no_fault_found hf]
  dsimp only [Option.map_none]
  rw [if_neg (by simpa using hl), hr]

theorem judge_of_bad {u : State} {h : Hit} {st : BitVec 8} (hl : merged tb.ranked q.hits res ≠ [])
    (hr : readHits s id q.key tb.rows res (merged tb.ranked q.hits res) = (u, some (h, st))) :
    (judge s id q tb res).2 = ⟨st, [], some { h with tie := false }⟩ := by
  unfold judge
  rw [no_fault_found hf]
  dsimp only [Option.map_none]
  rw [if_neg (by simpa using hl), hr]

end

/-- A list of hits begins with a poisoned one exactly when nothing stands before its first poisoned hit. -/
theorem takeWhile_good_isEmpty {l : List Hit} (hl : l ≠ []) :
    (l.takeWhile fun h => !h.poison).isEmpty = (l.head?.map fun h => h.poison).getD false := by
  cases l with
  | nil => exact absurd rfl hl
  | cons h l => cases hp : h.poison <;> simp [hp]

/-- A failed winner's one completion carries its status and row fields, and no near data. -/
theorem verdictComps_bad {h : Hit} {st : BitVec 8} (hp : q.prov = none) :
    verdictComps q ⟨st, [], some { h with tie := false }⟩ early =
      [{ tag := q.tag, status := st, flags := flLast ||| flagIf q.moving flMoving,
         pos := BitVec.ofNat 32 (posMember q.member 0 + posOf h.die h.row), data := 0 }] := by
  unfold verdictComps hitComp
  rw [hp]
  simp [flagIf]

/-! What the end of a search leaves -/

/-- A search under its identity, among searches in order. -/
structure InFlight (id : Nat) (q : Search) (s : State) : Prop where
  rises : Rising 0 s.searches
  here : ∃ x, mget s.searches id = some x ∧ x.res = q.res ∧ x.ended = q.ended

theorem InFlight.congr (h : InFlight id q s) (hs : t.searches = s.searches) : InFlight id q t :=
  ⟨hs ▸ h.rises, hs ▸ h.here⟩

/-- The check of one hit's near data: what NEAR_DATA_READ has found of it, or a read that is charged now. -/
def readHit (s : State) (id : Nat) (key : Key) (n : Nat) (res : List FRes) (h : Hit) : State × BitVec 8 :=
  match (res.find? fun r => r.die == h.die).bind fun r =>
    if (r.hits.head?.map fun x : Hit => x.row) = some h.row then r.near else none with
  | some st => (s, st)
  | none =>
    match mget s.searches id with
    | some q =>
      let (s, q) := chargeSearch s q h.die opNear 1
      (putSearch s id q, winnerCheck key h n)
    | none => (s, winnerCheck key h n)

theorem readHits_cons (key : Key) (n : Nat) (h : Hit) (hits : List Hit) : readHits s id key n res (h :: hits) =
    if h.poison then (s, none)
    else if (readHit s id key n res h).2 != 0 then ((readHit s id key n res h).1, some (h, (readHit s id key n res h).2))
    else readHits (readHit s id key n res h).1 id key n res hits := rfl

theorem InFlight.charge (h : InFlight id q s) {x : Search} (hx : mget s.searches id = some x) (die e n : Nat) :
    InFlight id q (putSearch (chargeSearch s x die e n).1 id (chargeSearch s x die e n).2) := by
  obtain ⟨y, hy, hres, hend⟩ := h.here
  obtain rfl : x = y := Option.some.inj (hx.symm.trans hy)
  exact ⟨h.rises.mput _ (Nat.zero_le _), _, mget_mput_self _ _ _, hres, hend⟩

theorem InFlight.readHit (h : InFlight id q s) (key : Key) (n : Nat) (x : Hit) : InFlight id q (readHit s id key n res x).1 := by
  unfold Machine.readHit
  split
  · exact h
  · split
    · next y hy => exact h.charge hy x.die opNear 1
    · exact h

theorem InFlight.readHits (h : InFlight id q s) (key : Key) (n : Nat) (hits : List Hit) :
    InFlight id q (readHits s id key n res hits).1 := by
  induction hits generalizing s with
  | nil => exact h
  | cons x hits ih =>
    rw [readHits_cons]
    split
    · exact h
    · split
      · exact h.readHit key n x
      · exact ih (h.readHit key n x)

theorem InFlight.judge (h : InFlight id q s) (q' : Search) : InFlight id q (judge s id q' tb res).1 := by
  unfold Machine.judge
  split
  · exact h
  · extract_lets l
    split
    · exact h
    · have hr := h.readHits (res := res) q'.key tb.rows l
      split
      next u bad hu =>
        rw [hu] at hr
        split
        · refine hr.congr ?_
          dsimp only
          split
          · exact (Keeps.foldl (.refl _ _) fun u r => checkRow_keeps (kl := [.boot, .pkg, .lds, .fronds, .tally, .life, .log])
              (by decide) (.refl _ _)).only .searches (by decide)
          · rfl
        · exact hr

theorem InFlight.rankDupEvent (h : InFlight id q s) (q' : Search) (l : List FRes) : InFlight id q (rankDupEvent s q' l) :=
  h.congr ((rankDupEvent_keeps (kl := [.boot, .pkg, .lds, .life, .log, .regs]) (by decide) (.refl _ _)).only .searches (by decide))

/-! A search ends -/

/-- What the local winners' reads under way come to when a search ends. -/
def readsOver (s : State) (q : Search) (v : Verdict) : State × Search := squashReads s q (globalWinners s q v)

/-- A provisional answer is confirmed or retracted. -/
def provJudged (s : State) (q : Search) (v : Verdict) (hub : Nat) : State :=
  match q.prov with
  | some p =>
    if (v.hits.head?.map fun h => h.die == p.die && h.row == p.row).getD false then
      modDisp s hub fun d => { d with confirm := d.confirm + 1 }
    else modDisp s hub fun d => { d with retract := d.retract + 1 }
  | none => s

/-- A final result's counts, far data and, where the window asked, its registers. -/
def resultUsed (s : State) (q : Search) (v : Verdict) : State :=
  match mget s.tables q.table with
  | some t =>
    let s := if decide (0xC0 ≤ v.st.toNat) then s else queueCounts s q t v.hits
    let s := match v.hits with
      | h :: _ => farFill s q.seat t h
      | [] => s
    if q.window then winResult s t v else s
  | none => if q.window then winStatus s stBadTable false else s

/-- The completions of a search that a ring asked for. -/
def resultSent (s : State) (q : Search) (v : Verdict) (early : Bool) : State :=
  if q.window then s
  else flush (endMember (pushComps s q.ring q.sub (verdictComps q v early)) q.ring q.sub) q.ring

/-- What follows once a search has been taken out: its prediction, its charges and counts, its completions. -/
def concluded (s : State) (q : Search) (v : Verdict) (early : Bool) (hub : Nat) (winner : Option Hit) : State :=
  let s := provJudged (settlePred s q winner) q v hub
  resultSent (resultUsed (countStats (settle s q.seat q.cost q.charge q.fromG) q) q v) q v early

theorem finalise_eq {x : Search} (hx : mget s.searches id = some x) (he : x.ended = false) : finalise s id v early =
    concluded (retire (readsOver s x v).1 id (readsOver s x v).2 (decide (0xC0 ≤ v.st.toNat))) (readsOver s x v).2 v early
      (dispHub s x.seat) (globalWinners s x v).head? := by
  unfold finalise
  rw [hx]
  dsimp only
  rw [he]
  rfl

/-! Local winners' reads -/

/-- What the reads that are given up change: neither the fronds' waiting counts nor which fronds have reported. -/
structure Squashed (s : State) (q : Search) (x : State × Search) : Prop where
  hce : x.1.fronds.map (fun f => f.hce) = s.fronds.map fun f => f.hce
  done : x.2.res.map (fun r => r.done) = q.res.map fun r => r.done

theorem modRes_done (die : Nat) {f : FRes → FRes} (hf : ∀ r, (f r).done = r.done) :
    (modRes q die f).res.map (fun r => r.done) = q.res.map fun r => r.done := by
  unfold modRes
  rw [List.map_map]
  refine List.map_congr_left fun r _ => ?_
  dsimp only [Function.comp_apply]
  split
  · exact hf r
  · rfl

theorem squashRead_hce (seat : Nat) (h : Hit) (st : BitVec 8) :
    (squashRead s seat h st).fronds.map (fun f => f.hce) = s.fronds.map fun f => f.hce := by
  unfold squashRead
  dsimp only
  split
  · rfl
  · exact modFrond_map fun _ => rfl

theorem squashReads_squashed (used : List Hit) : Squashed s q (squashReads s q used) := by
  unfold squashReads
  refine List.foldlRecOn (motive := Squashed s q) q.res _ ⟨rfl, rfl⟩ fun x hx r _ => ?_
  split
  · next h _ =>
    split
    · exact hx
    · split
      · exact ⟨(squashRead_hce _ _ _).trans hx.hce, hx.done⟩
      · split
        · exact ⟨(squashRead_hce _ _ _).trans hx.hce, Eq.trans (modRes_done (f := fun r => { r with near := some _ }) _ fun _ => rfl) hx.done⟩
        · exact hx
  · exact hx

theorem readsOver_searches : (readsOver s q v).1.searches = s.searches :=
  (squashReads_keeps (kl := [.fronds, .disp, .tally]) (by decide) (.refl _ _)).only .searches (by decide)

/-! Gone -/

/-- A search ended early is kept only while a frond has yet to report. -/
theorem retire_gone (hr : Rising 0 s.searches) {fault : Bool} (h : fault = true ∨ ∀ r ∈ q.res, r.done = true) :
    mget (retire s id q fault).searches id = none := by
  have hc : ¬ (q.early && !fault && q.res.any fun r => !r.done) = true := by
    rcases h with rfl | h
    · simp
    · have : (q.res.any fun r => !r.done) = false := List.any_eq_false.2 fun r hr => by simp [h r hr]
      simp [this]
  unfold retire
  rw [if_neg hc]
  exact (mget_mdel _ _ _ hr).trans (if_pos rfl)

theorem countStats_only : Only [.tables] s (countStats s q) := by
  unfold countStats
  split
  · exact Only.intro fun p hp => by cases p <;> first | rfl | exact absurd (by decide) hp
  · exact .refl _ _

theorem provJudged_only {hub : Nat} : Only [.disp] s (provJudged s q v hub) := by
  have hmod (f : Disp → Disp) : Only [.disp] s (modDisp s hub f) := (modDisp_keeps (by decide) (.refl _ _)).only
  unfold provJudged
  split
  · split
    · exact hmod _
    · exact hmod _
  · exact .refl _ _

theorem resultSent_only : Only [.boot, .pkg, .lds, .extents, .mem, .coh, .rings, .covs, .life, .log, .regs, .wire] s
    (resultSent s q v early) := by
  unfold resultSent
  split
  · exact .refl _ _
  · exact (flush_keeps (by decide) (endMember_keeps (by decide) (pushComps_keeps (by decide) (.refl _ _)))).only

theorem resultUsed_searches : (resultUsed s q v).searches = s.searches := by
  let l : List Piece := [.pins, .boot, .pkg, .lds, .mem, .coh, .fronds, .tally, .life, .log, .regs, .wire]
  have hwin (u : State) (t : Table) (k : Keeps l s u) : Keeps l s (if q.window then winResult u t v else u) :=
    .ite (winResult_keeps (by decide) k) k
  have hfill (u : State) (t : Table) (k : Keeps l s u) :
      Keeps l s (match v.hits with | h :: _ => farFill u q.seat t h | [] => u) := by
    split
    · exact farFill_keeps (by decide) k
    · exact k
  have hall : Keeps l s (resultUsed s q v) := by
    unfold resultUsed
    split
    · exact hwin _ _ (hfill _ _ (.ite (.refl _ _) (queueCounts_keeps (by decide) (.refl _ _))))
    · exact .ite (winStatus_keeps (by decide) (.refl _ _)) (.refl _ _)
  exact hall.only .searches (by decide)

/-- A fault counts nothing and fetches nothing. -/
theorem resultUsed_fronds (hv : 0xC0 ≤ v.st.toNat) (hh : v.hits = []) : (resultUsed s q v).fronds = s.fronds := by
  unfold resultUsed
  rw [hh, decide_eq_true hv]
  split
  · exact (Keeps.ite (winResult_keeps (kl := [.regs]) (by decide) (.refl _ _)) (.refl _ _)).only .fronds (by decide)
  · exact (Keeps.ite (winStatus_keeps (kl := [.regs]) (by decide) (.refl _ _)) (.refl _ _)).only .fronds (by decide)

/-- What stands before a final result's use. -/
theorem countedOver_only {hub : Nat} {winner : Option Hit} :
    Only [.boot, .pkg, .lds, .seats, .mem, .coh, .tables, .disp, .tally, .life, .log] s
      (countStats (settle (provJudged (settlePred s q winner) q v hub) q.seat q.cost q.charge q.fromG) q) :=
  (((settlePred_keeps (kl := [.boot, .pkg, .lds, .mem, .coh, .tables, .disp, .life, .log]) (by decide) (.refl _ _)).only.mono
      (by decide)).trans (provJudged_only.mono (by decide))).trans
    (((settle_keeps (kl := [.seats, .tally]) (by decide) (.refl _ _)).only.mono (by decide)).trans (countStats_only.mono (by decide)))

theorem concluded_searches {hub : Nat} {winner : Option Hit} : (concluded s q v early hub winner).searches = s.searches :=
  (resultSent_only .searches (by decide)).trans (resultUsed_searches.trans (countedOver_only .searches (by decide)))

theorem concluded_fronds {hub : Nat} {winner : Option Hit} (hv : 0xC0 ≤ v.st.toNat) (hh : v.hits = []) :
    (concluded s q v early hub winner).fronds = s.fronds :=
  (resultSent_only .fronds (by decide)).trans ((resultUsed_fronds hv hh).trans (countedOver_only .fronds (by decide)))

/-- A search that ends with a fault, or once every frond has reported, is gone. -/
theorem finalise_gone (h : InFlight id q s) (he : q.ended = false) (hd : 0xC0 ≤ v.st.toNat ∨ ∀ r ∈ q.res, r.done = true) :
    mget (finalise s id v early).searches id = none := by
  obtain ⟨x, hx, hres, hend⟩ := h.here
  rw [finalise_eq hx (hend.trans he), concluded_searches]
  refine retire_gone (readsOver_searches.symm ▸ h.rises) (hd.imp (decide_eq_true ·) fun hall r hr => ?_)
  have hdone : (readsOver s x v).2.res.map (fun r => r.done) = x.res.map fun r => r.done := (squashReads_squashed _).done
  rw [hres] at hdone
  obtain ⟨r', hr', hrr⟩ := List.mem_map.1 (hdone ▸ List.mem_map_of_mem hr)
  exact hrr.symm.trans (hall r' hr')

/-- A search that ends with a fault moves no hit counter. -/
theorem finalise_fault_hce (h : InFlight id q s) (he : q.ended = false) (hv : 0xC0 ≤ v.st.toNat) (hh : v.hits = []) (d : Nat) :
    (frond (finalise s id v early) d).hce = (frond s d).hce := by
  obtain ⟨x, hx, -, hend⟩ := h.here
  rw [finalise_eq hx (hend.trans he)]
  refine frond_of_map (g := fun f => f.hce) ?_ d
  rw [concluded_fronds hv hh]
  have hret : (retire (readsOver s x v).1 id (readsOver s x v).2 (decide (0xC0 ≤ v.st.toNat))).fronds = (readsOver s x v).1.fronds :=
    (retire_keeps (kl := [.searches]) (by decide) (.refl _ _)).only .fronds (by decide)
  rw [hret]
  exact (squashReads_squashed _).hce

/-! The rows of a search's end -/

theorem KeysRise.rising {α : Type} {m : SMap α} (h : KeysRise m) : ∀ {lo : Nat}, (∀ e ∈ m, lo ≤ e.1) → Rising lo m := by
  induction m with
  | nil => exact fun _ => trivial
  | cons e m ih =>
    intro lo hlo
    obtain ⟨hhead, htail⟩ := List.pairwise_cons.1 h
    exact ⟨hlo e List.mem_cons_self, ih htail fun x hx => hhead x hx⟩

theorem inFlight_of_keysRise (hs : KeysRise s.searches) (hq : mget s.searches id = some q) : InFlight id q s :=
  ⟨KeysRise.rising hs fun _ _ => Nat.zero_le _, q, hq, rfl, rfl⟩

/-- Once every frond has reported, the search ends with the verdict on them all. -/
theorem cascadeResolution_judged {i : BitVec 32} (hq : mget s.searches i.toNat = some q) (ht : mget s.tables q.table = some tb)
    (he : q.ended = false) (h2 : 2 ≤ q.res.length) (hc : q.compare = false)
    (hd : ∀ r ∈ q.res, r.done = true ∧ halted s (halfOf r.die) = false) : exec (.cascadeResolution i) s =
      .next (finalise (judge (rankDupEvent s q q.res) i.toNat q tb q.res).1 i.toNat
        (judge (rankDupEvent s q q.res) i.toNat q tb q.res).2 false) := by
  have hall : (q.res.all fun r => r.done && !halted s (halfOf r.die)) = true :=
    List.all_eq_true.2 fun r hr => by rw [(hd r hr).1, (hd r hr).2]; rfl
  change Host.Outcome.next (cascadeResolution s i.toNat) = _
  unfold cascadeResolution
  simp only [hq, ht, he, hall, hc, Nat.not_lt.2 h2, decide_false, Bool.or_false, Bool.not_true, Bool.false_eq_true, if_false]

/-- While a frond has not reported, the walk names nobody. -/
theorem cascadeResolution_waits {i : BitVec 32} (hq : mget s.searches i.toNat = some q) (h : ∃ r ∈ q.res, r.done = false) :
    exec (.cascadeResolution i) s = .next s := by
  obtain ⟨r, hr, hd⟩ := h
  have hall : (q.res.all fun r => r.done && !halted s (halfOf r.die)) = false :=
    List.all_eq_false.2 ⟨r, hr, by simp [hd]⟩
  change Host.Outcome.next (cascadeResolution s i.toNat) = _
  unfold cascadeResolution
  simp only [hq, hall, Bool.not_false, Bool.or_true, if_true]
  split <;> rfl

theorem cascadeTimeout_ends {i : BitVec 32} (hq : mget s.searches i.toNat = some q)
    (h : ∃ r ∈ q.res, r.done = false ∧ halted s (halfOf r.die) = false) :
    exec (.cascadeTimeout i) s = .next (finalise s i.toNat ⟨stCascadeTimeout, [], none⟩ false) := by
  obtain ⟨r, hr, hd, hh⟩ := h
  have hall : (q.res.all fun r => r.done || halted s (halfOf r.die)) = false :=
    List.all_eq_false.2 ⟨r, hr, by simp [hd, hh]⟩
  have hst : pendingFault s q stCascadeTimeout = stCascadeTimeout := by
    unfold pendingFault
    split <;> rfl
  change execCascadeTimeout i s = _
  unfold execCascadeTimeout failSearch
  simp only [hq, hall, Option.map_some, hst, Option.getD_some, Bool.false_eq_true, if_false]

end

/-- Settles O22: the three rows of a search's end, then the verdict. -/
theorem cascadeNamesTheWinner : Obligations.CascadeNamesTheWinner := by
  refine ⟨fun s id q t hq ht hs he h2 => ?_, fun s id q t res => ?_⟩
  · have hin := inFlight_of_keysRise hs hq
    refine ⟨fun hc hd => ?_, cascadeResolution_waits hq, fun hp => ?_⟩
    · exact ⟨_, _, cascadeResolution_judged hq ht he h2 hc hd, rfl, rfl,
        finalise_gone ((hin.rankDupEvent q q.res).judge q) he (.inr fun r hr => (hd r hr).1)⟩
    · exact ⟨_, cascadeTimeout_ends hq hp, rfl, finalise_gone hin he (.inl (by decide)),
        finalise_fault_hce hin he (by decide) rfl⟩
  · refine ⟨judge_of_fault, fun hf => ⟨judge_of_miss hf, fun hl hr => ?_, fun h st hl hr => ?_⟩⟩
    · rw [judge_of_good hf hl (Prod.ext rfl hr)]
      exact ⟨rfl, rfl, by rw [← takeWhile_good_isEmpty hl]⟩
    · have hj := judge_of_bad (q := q) (s := s) (id := id) hf hl (Prod.ext rfl hr)
      exact ⟨hj, fun hp early => by rw [hj]; exact verdictComps_bad hp⟩

end Sys2Proof.Machine
end

section
/-! The entry commands that write the array (R157 to R160, R164): what is booked before the work, what a step on one frond's array leaves
of the rest, and the writes of an entry's rows in every copy of it. -/

namespace Sys2Proof.Machine
section
variable {s t u : State} {d die row n : Nat}

/-! One frond's array -/

/-- A frond that stands with good records. -/
structure Standing (s : State) (d : Nat) : Prop where
  two : 2 ≤ d
  here : d - 2 < s.fronds.length
  good : GoodRecords s d

/-- A step on one frond's array: the other fronds and the good records stay. -/
structure ArrayStep (d : Nat) (s t : State) : Prop where
  only : Only [.seats, .fronds, .tally] s t
  length : t.fronds.length = s.fronds.length
  others : ∀ e, 2 ≤ e → e ≠ d → frond t e = frond s e
  good : GoodRecords s d → GoodRecords t d

theorem ArrayStep.refl (d : Nat) (s : State) : ArrayStep d s s := ⟨.refl _ _, rfl, fun _ _ _ => rfl, id⟩

theorem ArrayStep.trans (h : ArrayStep d s t) (g : ArrayStep d t u) : ArrayStep d s u :=
  ⟨h.only.trans g.only, g.length.trans h.length, fun e h2 hne => (g.others e h2 hne).trans (h.others e h2 hne), g.good ∘ h.good⟩

theorem goodRecords_congr (h : frond t d = frond s d) (hg : GoodRecords s d) : GoodRecords t d := fun r => by
  rw [shadowAt_congr (congrArg (fun f : Frond => f.arr.shadow) h) r]
  exact hg r

theorem rowAt_congr (h : frond t d = frond s d) (q : Nat) : rowAt t d q = rowAt s d q := by
  unfold rowAt
  rw [h]

namespace Standing

theorem step (h : Standing s d) (hs : ArrayStep d s t) : Standing t d := ⟨h.two, hs.length.symm ▸ h.here, hs.good h.good⟩

theorem other {e : Nat} (h : Standing s e) (hs : ArrayStep d s t) (hne : e ≠ d) : Standing t e :=
  ⟨h.two, hs.length.symm ▸ h.here, goodRecords_congr (hs.others e h.two hne) h.good⟩

theorem congr (h : Standing s d) (hf : t.fronds = s.fronds) : Standing t d :=
  ⟨h.two, hf.symm ▸ h.here, goodRecords_congr (frond_congr hf d) h.good⟩

end Standing

/-- A change of an array outside its records. -/
theorem ArrayStep.arr {f : FrondArray → FrondArray} (hf : ∀ a, (f a).shadow = a.shadow) : ArrayStep d s (modArr s d f) :=
  ⟨(modFrond_keeps (by decide) (.refl _ _)).only, modArr_fronds_length _, fun _ h2 hne => frond_modArr_ne h2 hne f, fun hg r => by
    have hmap := modFrond_map (s := s) (die := d) (g := fun x => x.arr.shadow) (f := fun x => { x with arr := f x.arr }) fun x => hf x.arr
    have hsame : shadowAt (modArr s d f) d r = shadowAt s d r := shadowAt_congr (frond_of_map (g := fun x => x.arr.shadow) hmap d) r
    rw [hsame]
    exact hg r⟩

theorem rowAt_modArr {f : FrondArray → FrondArray} (hf : ∀ a, (f a).rows = a.rows) (q : Nat) :
    rowAt (modArr s d f) d q = rowAt s d q := by
  have hmap := modFrond_map (s := s) (die := d) (g := fun x => x.arr.rows) (f := fun x => { x with arr := f x.arr }) fun x => hf x.arr
  exact congrArg (fun m : SMap Row => (mget m q).getD (fillRow d q)) (frond_of_map (g := fun x => x.arr.rows) hmap d)

theorem putRow_step (r : Nat) (x : Row) : ArrayStep d s (putRow s d r x) := .arr fun _ => rfl

theorem usePan_step (pan : Nat) : ArrayStep d s (usePan s d pan) := .arr fun _ => rfl

theorem rowAt_usePan (pan q : Nat) : rowAt (usePan s d pan) d q = rowAt s d q :=
  rowAt_modArr (f := fun a => { a with awake := mput a.awake pan ⟨s.tally.epoch, false⟩ }) (fun _ => rfl) q

/-- A pan that a write finds retained is woken, which books and charges. -/
def wakeCharged (s : State) (d pan : Nat) (seat : Option Nat) : State := if retained s d pan then frondOp s d opWake 1 seat else s

theorem wakeCharged_only (pan : Nat) (seat : Option Nat) : Only [.seats, .tally] s (wakeCharged s d pan seat) :=
  (Keeps.ite (frondOp_keeps (by decide) (.refl _ _)) (.refl _ _)).only

theorem writePan_step (pan : Nat) (seat : Option Nat) : ArrayStep d s (writePan s d pan seat) := by
  have honly := wakeCharged_only (s := s) (d := d) pan seat
  have hf := honly .fronds (by decide)
  exact ArrayStep.trans ⟨honly.mono (by decide), congrArg List.length hf, fun e _ _ => frond_congr hf e,
    goodRecords_congr (frond_congr hf d)⟩ (usePan_step pan)

theorem rowAt_writePan (pan : Nat) (seat : Option Nat) (q : Nat) : rowAt (writePan s d pan seat) d q = rowAt s d q :=
  (rowAt_usePan pan q).trans (rowAt_congr (frond_congr (wakeCharged_only pan seat .fronds (by decide)) d) q)

/-! A row's record -/

theorem shadowAt_putShadow (h2 : 2 ≤ d) (hl : d - 2 < s.fronds.length) (r : Nat) (x : Shadow) (q : Nat) :
    shadowAt (putShadow s d r x) d q = if q = r then x else shadowAt s d q := by
  unfold shadowAt putShadow
  rw [arr_modArr h2 hl]
  dsimp only
  rw [mget_mput]
  split <;> rfl

/-- The record that a write of a row's contents leaves. -/
def writtenRecord (data mask : Plane) (near : Word64) (valid : Bool) : Shadow :=
  { data := data, mask := mask, near := near, rcrc := recordCrc data mask near, valid := valid, lost := false, injected := false }

theorem recordGood_writtenRecord (data mask : Plane) (near : Word64) (valid : Bool) :
    recordGood (writtenRecord data mask near valid) = true := by
  simp [recordGood, writtenRecord]

theorem goodRecords_putShadow (h : Standing s d) {r : Nat} {x : Shadow} (hx : recordGood x = true) : GoodRecords (putShadow s d r x) d := by
  intro q
  rw [shadowAt_putShadow h.two h.here]
  split
  · exact hx
  · exact h.good q

variable (data mask : Plane) (near : Word64) (valid : Bool) (r : Nat)

theorem putRecord_of_good (h : Standing s d) :
    putRecord s d r data mask near valid = putShadow s d r (writtenRecord data mask near valid) :=
  if_pos (goodRecords_putShadow h (recordGood_writtenRecord data mask near valid) (lineMate r))

theorem putRecord_step (h : Standing s d) : ArrayStep d s (putRecord s d r data mask near valid) := by
  rw [putRecord_of_good data mask near valid r h]
  exact ⟨(putShadow_keeps (by decide) (.refl _ _)).only, modArr_fronds_length _, fun _ h2 hne => frond_modArr_ne h2 hne _,
    fun _ => goodRecords_putShadow h (recordGood_writtenRecord _ _ _ _)⟩

theorem rowAt_putRecord (h : Standing s d) (q : Nat) : rowAt (putRecord s d r data mask near valid) d q = rowAt s d q := by
  rw [putRecord_of_good data mask near valid r h]
  exact rowAt_putShadow r _ q

theorem readRecord_of_good (h : GoodRecords s d) : readRecord s d r = (s, shadowAt s d r) := by
  unfold readRecord
  rw [rebuildRecord_of_good (h r)]
  exact if_pos (h r)

variable {data mask near valid r}

/-! Rows of one array are written -/

/-- The rows of a list are written, each as P says; of the others what φ sees stays. -/
structure Wrote (d : Nat) (φ : Nat → Row → Row) (P : Nat → Row → Row → Prop) (l : List Nat) (s t : State) : Prop where
  step : ArrayStep d s t
  unwritten : ∀ q, q ∉ l → φ q (rowAt t d q) = φ q (rowAt s d q)
  written : ∀ q ∈ l, P q (φ q (rowAt s d q)) (φ q (rowAt t d q))

variable {φ : Nat → Row → Row} {l : List Nat}

theorem Wrote.cons {P : Nat → Row → Row → Prop} {q : Nat} (h : Wrote d φ P [q] s t) (g : Wrote d φ P l t u) (hq : q ∉ l) :
    Wrote d φ P (q :: l) s u := by
  refine ⟨h.step.trans g.step, fun r hr => ?_, fun r hr => ?_⟩
  · obtain ⟨hne, hl⟩ := not_or.1 (mt List.mem_cons.2 hr)
    exact (g.unwritten r hl).trans (h.unwritten r (mt List.mem_singleton.1 hne))
  · by_cases hl : r ∈ l
    · have hne : r ≠ q := fun he => hq (he ▸ hl)
      have hw := g.written r hl
      rwa [h.unwritten r (mt List.mem_singleton.1 hne)] at hw
    · obtain rfl := (List.mem_cons.1 hr).resolve_right hl
      have hw := h.written r List.mem_cons_self
      rwa [← g.unwritten r hl] at hw

theorem Wrote.foldl {β : Type} {ρ : β → Nat} {g : State → β → State} {P : Nat → Row → Row → Prop} {xs : List β} (hs : Standing s d)
    (hn : (xs.map ρ).Nodup) (hg : ∀ u, Standing u d → ArrayStep d s u → ∀ x ∈ xs, Wrote d φ P [ρ x] u (g u x)) :
    Wrote d φ P (xs.map ρ) s (xs.foldl g s) := by
  induction xs generalizing s with
  | nil => exact ⟨.refl _ _, fun _ _ => rfl, fun _ h => (List.not_mem_nil h).elim⟩
  | cons x xs ih =>
    obtain ⟨hx, hxs⟩ := List.nodup_cons.1 hn
    have hhead := hg s hs (.refl _ _) x List.mem_cons_self
    exact hhead.cons (ih (hs.step hhead.step) hxs fun u hu hstep y hy => hg u hu (hhead.step.trans hstep) y (.tail _ hy)) hx

theorem Wrote.unchanged {P : Nat → Row → Row → Prop} (h : ∀ q ∈ l, P q (φ q (rowAt s d q)) (φ q (rowAt s d q))) : Wrote d φ P l s s :=
  ⟨.refl _ _, fun _ _ => rfl, h⟩

/-- What follows a write and shows φ nothing new. -/
theorem Wrote.after {P : Nat → Row → Row → Prop} (h : Wrote d φ P l s t) (hs : ArrayStep d t u)
    (hr : ∀ q, φ q (rowAt u d q) = φ q (rowAt t d q)) : Wrote d φ P l s u :=
  ⟨h.step.trans hs, fun q hq => (hr q).trans (h.unwritten q hq), fun q hq => (hr q).symm ▸ h.written q hq⟩

theorem putRow_wrote {P : Nat → Row → Row → Prop} (h : Standing s d) {x : Row} (hx : P r (φ r (rowAt s d r)) (φ r x)) :
    Wrote d φ P [r] s (putRow s d r x) := by
  refine ⟨putRow_step r x, fun q hq => ?_, fun q hq => ?_⟩
  · rw [rowAt_putRow h.two h.here, if_neg (mt List.mem_singleton.2 hq)]
  · obtain rfl := List.mem_singleton.1 hq
    rwa [rowAt_putRow h.two h.here, if_pos rfl]

/-- A row's contents and its record are written. -/
theorem putRecord_putRow_wrote {P : Nat → Row → Row → Prop} (h : Standing s d) {x : Row} (hx : P r (φ r (rowAt s d r)) (φ r x)) :
    Wrote d φ P [r] s (putRecord (putRow s d r x) d r data mask near valid) := by
  have hrow := putRow_wrote h hx
  have hstand := h.step hrow.step
  exact hrow.after (putRecord_step _ _ _ _ _ hstand) fun q => congrArg (φ q) (rowAt_putRecord _ _ _ _ _ hstand q)

/-! Poison that a row's writes settle -/

/-- A row as it is but for the poison of the listed ones. -/
def poisonBlind (l : List Nat) (q : Nat) (x : Row) : Row := if q ∈ l then { x with poison := false } else x

theorem poisonBlind_of_mem {q : Nat} (h : q ∈ l) (x : Row) : poisonBlind l q x = { x with poison := false } := if_pos h

theorem poisonBlind_of_not_mem {q : Nat} (h : q ∉ l) (x : Row) : poisonBlind l q x = x := if_neg h

theorem settlePoison_eq : settlePoison s d r = s ∨
    settlePoison s d r = putRow s d (firstRow s d r) { rowAt s d (firstRow s d r) with poison := false } := by
  unfold settlePoison
  extract_lets n first f
  split
  · exact .inr rfl
  · exact .inl rfl

theorem settlePoison_step : ArrayStep d s (settlePoison s d r) := by
  rcases settlePoison_eq (s := s) (d := d) (r := r) with h | h
  · rw [h]
    exact .refl _ _
  · rw [h]
    exact putRow_step _ _

theorem rowAt_settlePoison (h : Standing s d) (hf : firstRow s d r ∈ l) (q : Nat) :
    poisonBlind l q (rowAt (settlePoison s d r) d q) = poisonBlind l q (rowAt s d q) := by
  rcases settlePoison_eq (s := s) (d := d) (r := r) with he | he
  · rw [he]
  · rw [he, rowAt_putRow h.two h.here]
    split
    · next hq =>
      subst hq
      rw [poisonBlind_of_mem hf, poisonBlind_of_mem hf]
    · rfl

/-! Rows of every copy are written -/

/-- The rows of a list are written in each of some fronds, and the other fronds stay. -/
structure CopiesWrote (ds : List Nat) (φ : Nat → Row → Row) (P : Nat → Nat → Row → Row → Prop) (l : List Nat) (s t : State) : Prop where
  others : ∀ e, 2 ≤ e → e ∉ ds → frond t e = frond s e
  unwritten : ∀ d ∈ ds, ∀ q, q ∉ l → φ q (rowAt t d q) = φ q (rowAt s d q)
  written : ∀ d ∈ ds, ∀ q ∈ l, P d q (φ q (rowAt s d q)) (φ q (rowAt t d q))

variable {P : Nat → Nat → Row → Row → Prop}

theorem CopiesWrote.congr {ds : List Nat} {s' t' : State} (h : CopiesWrote ds φ P l s t) (hs : s.fronds = s'.fronds)
    (ht : t'.fronds = t.fronds) : CopiesWrote ds φ P l s' t' := by
  have hbefore (d q : Nat) : rowAt s d q = rowAt s' d q := rowAt_congr (frond_congr hs d) q
  have hafter (d q : Nat) : rowAt t' d q = rowAt t d q := rowAt_congr (frond_congr ht d) q
  refine ⟨fun e h2 he => (frond_congr ht e).trans ((h.others e h2 he).trans (frond_congr hs e)), fun d hd q hq => ?_, fun d hd q hq => ?_⟩
  · rw [hafter, ← hbefore]
    exact h.unwritten d hd q hq
  · rw [hafter, ← hbefore]
    exact h.written d hd q hq

/-- One write in each copy, whose pan is woken first. -/
theorem copies_wrote {pan seat : Nat} {f : State → Nat → State} {ds : List Nat} (hn : ds.Nodup) (hs : ∀ d ∈ ds, Standing s d)
    (hf : ∀ u, Only [.seats, .fronds, .tally] s u → ∀ d ∈ ds, Standing u d → Wrote d φ (P d) l u (f u d)) :
    let t := ds.foldl (fun s d => f (writePan s d pan (some seat)) d) s
    Only [.seats, .fronds, .tally] s t ∧ CopiesWrote ds φ P l s t := by
  induction ds generalizing s with
  | nil => exact ⟨.refl _ _, fun _ _ _ => rfl, fun _ h => (List.not_mem_nil h).elim, fun _ h => (List.not_mem_nil h).elim⟩
  | cons d ds ih =>
    obtain ⟨hd, hds⟩ := List.nodup_cons.1 hn
    have hstand := hs d List.mem_cons_self
    have hpan : ArrayStep d s (writePan s d pan (some seat)) := writePan_step pan _
    have hw := hf _ hpan.only d List.mem_cons_self (hstand.step hpan)
    have hstep := hpan.trans hw.step
    have hne (e : Nat) (he : e ∈ ds) : e ≠ d := fun h => hd (h ▸ he)
    obtain ⟨honly, ht⟩ := ih hds (fun e he => (hs e (.tail _ he)).other hstep (hne e he))
      fun u hu e he => hf u (hstep.only.trans hu) e (.tail _ he)
    have hlater (q : Nat) := rowAt_congr (ht.others d hstand.two hd) q
    have hearlier (e : Nat) (he : e ∈ ds) (q : Nat) := rowAt_congr (hstep.others e (hs e (.tail _ he)).two (hne e he)) q
    refine ⟨hstep.only.trans honly, fun e h2 he => ?_, fun e he q hq => ?_, fun e he q hq => ?_⟩
    · obtain ⟨hed, hein⟩ := not_or.1 (mt List.mem_cons.2 he)
      exact (ht.others e h2 hein).trans (hstep.others e h2 hed)
    · rcases List.mem_cons.1 he with rfl | he
      · have := hw.unwritten q hq
        rw [rowAt_writePan] at this
        exact (congrArg (φ q) (hlater q)).trans this
      · exact (ht.unwritten e he q hq).trans (congrArg (φ q) (hearlier e he q))
    · rcases List.mem_cons.1 he with rfl | he
      · have := hw.written q hq
        rw [rowAt_writePan] at this
        exact (hlater q).symm ▸ this
      · exact hearlier e he q ▸ ht.written e he q hq

theorem copies_nodup (s : State) (die : Nat) : (copies s die).Nodup := by
  unfold copies
  split
  · exact List.Nodup.filter _ (by simp)
  · exact List.nodup_singleton _

/-! The writes of an entry's rows in one copy -/

/-- An entry stands in a frond: its first row is its table's, and all its rows are in one pan. -/
structure EntryAt (s : State) (d row n : Nat) : Prop where
  size : n ∈ [1, 2, 4, 8]
  aligned : row % n = 0
  table : rowsAt s d row = n

variable {first : Nat}

theorem EntryAt.firstRow (h : EntryAt s d row n) {q : Nat} (hq : q ∈ entryRows row n) : firstRow s d q = row := by
  obtain ⟨j, hj, rfl⟩ := List.mem_map.1 hq
  have hlt := List.mem_range.1 hj
  obtain ⟨hsize, haligned, htable⟩ := h
  have hpan : (row + j) / 8192 = row / 8192 ∧ (row + j) / n * n = row := by
    simp only [List.mem_cons, List.not_mem_nil, or_false] at hsize
    rcases hsize with rfl | rfl | rfl | rfl <;> omega
  have hrows : rowsAt s d (row + j) = rowsAt s d row := by
    unfold rowsAt
    rw [hpan.1]
  unfold Machine.firstRow
  rw [hrows, htable, hpan.2]

theorem EntryAt.first_mem (h : EntryAt s d row n) : row ∈ entryRows row n := by
  have hpos : 0 < n := by
    have hsize := h.size
    simp only [List.mem_cons, List.not_mem_nil, or_false] at hsize
    omega
  exact List.mem_map.2 ⟨0, List.mem_range.2 hpos, rfl⟩

theorem EntryAt.congr (h : EntryAt s d row n) (ht : t.tables = s.tables) (hp : t.pkg = s.pkg) : EntryAt t d row n := by
  refine ⟨h.size, h.aligned, Eq.trans ?_ h.table⟩
  unfold rowsAt panOwner baseDie
  rw [ht, inPair_congr hp]

theorem EntryAt.step (h : EntryAt s d row n) (hs : ArrayStep d s t) : EntryAt t d row n :=
  h.congr (hs.only .tables (by decide)) (hs.only .pkg (by decide))

theorem entryRows_nodup (first n : Nat) : (entryRows first n).Nodup :=
  List.nodup_range.map fun _ _ h => Nat.add_left_cancel h

theorem Wrote.foldl_rows {g : State → Nat → State} {P : Nat → Row → Row → Prop} {xs : List Nat} (hs : Standing s d) (hn : xs.Nodup)
    (hg : ∀ u, Standing u d → ArrayStep d s u → ∀ x ∈ xs, Wrote d φ P [x] u (g u x)) : Wrote d φ P xs s (xs.foldl g s) := by
  have h := Wrote.foldl (ρ := id) hs (by rwa [List.map_id]) hg
  rwa [List.map_id] at h

@[simp] theorem poisonBlind_data (q : Nat) (x : Row) : (poisonBlind l q x).data = x.data := by unfold poisonBlind; split <;> rfl
@[simp] theorem poisonBlind_mask (q : Nat) (x : Row) : (poisonBlind l q x).mask = x.mask := by unfold poisonBlind; split <;> rfl
@[simp] theorem poisonBlind_valid (q : Nat) (x : Row) : (poisonBlind l q x).valid = x.valid := by unfold poisonBlind; split <;> rfl
@[simp] theorem poisonBlind_near (q : Nat) (x : Row) : (poisonBlind l q x).near = x.near := by unfold poisonBlind; split <;> rfl
@[simp] theorem poisonBlind_check (q : Nat) (x : Row) : (poisonBlind l q x).check = x.check := by unfold poisonBlind; split <;> rfl

@[simp] theorem rowGood_poisonBlind (q r : Nat) (x : Row) : rowGood d r (poisonBlind l q x) = rowGood d r x := by simp [rowGood]

/-- ENTRY_INVALIDATE. -/
theorem invalidateEntry_wrote (h : Standing s d) :
    Wrote d (poisonBlind l) (fun _ _ c => c.valid = false) (entryRows row n) s (invalidateEntry s d row n) := by
  unfold invalidateEntry
  rw [rebuildRecords_of_good h.good]
  refine Wrote.foldl_rows h (entryRows_nodup _ _) fun u hu _ i _ => ?_
  exact putRecord_putRow_wrote hu (poisonBlind_valid _ _)

/-- ENTRY_VALIDATE. -/
theorem setValid_wrote (h : Standing s d) (he : EntryAt s d row n) :
    Wrote d (poisonBlind (entryRows row n)) (fun _ a c => c.valid = true ∧ c.data = a.data ∧ c.mask = a.mask) (entryRows row n) s
      (setValid s d row n true) := by
  have hw := Wrote.foldl_rows (φ := poisonBlind (entryRows row n)) (P := fun _ a c => c.valid = true ∧ c.data = a.data ∧ c.mask = a.mask)
    (g := fun s i => let (s, rec0) := readRecord s d i
      let r := rowAt s d i
      let s := putRow s d i { r with valid := true, check := rowCheck d i r.data r.mask true }
      putRecord s d i rec0.data rec0.mask rec0.near true) h (entryRows_nodup row n) fun u hu _ i _ => by
    rw [readRecord_of_good i hu.good]
    refine putRecord_putRow_wrote hu ⟨poisonBlind_valid _ _, ?_, ?_⟩
    · rw [poisonBlind_data, poisonBlind_data]
    · rw [poisonBlind_mask, poisonBlind_mask]
  have hfirst := (he.step hw.step).firstRow he.first_mem
  exact hw.after settlePoison_step fun q => rowAt_settlePoison (h.step hw.step) (hfirst.symm ▸ he.first_mem) q

/-- One row of an ENTRY_WRITE. -/
theorem writeRow_wrote (h : Standing s d) (he : EntryAt s d row n) {r : Nat} (hr : r ∈ entryRows row n) (data mask : Plane) :
    Wrote d (poisonBlind (entryRows row n)) (fun q _ c => c.data = data ∧ c.mask = mask ∧ c.valid = false ∧ rowGood d q c = true) [r] s
      (writeRow s d r data mask none) := by
  unfold writeRow
  dsimp only
  rw [readRecord_of_good r h.good]
  dsimp only
  have hrow := putRow_wrote (φ := poisonBlind (entryRows row n))
    (P := fun q _ c => c.data = data ∧ c.mask = mask ∧ c.valid = false ∧ rowGood d q c = true) (r := r)
    (x := { rowAt s d r with
      data := data, mask := mask, valid := false, check := rowCheck d r data mask false, rewritten := true, failed := false }) h (by
    rw [poisonBlind_of_mem hr]
    exact ⟨rfl, rfl, rfl, beq_self_eq_true _⟩)
  have hclear := hrow.after (.arr (f := fun a => { a with injected := mdel a.injected r }) fun _ => rfl) fun q =>
    congrArg _ (rowAt_modArr (f := fun a => { a with injected := mdel a.injected r }) (fun _ => rfl) q)
  have hstand := h.step hclear.step
  have hrecord := hclear.after (putRecord_step data mask (shadowAt s d r).near false r hstand) fun q =>
    congrArg _ (rowAt_putRecord data mask (shadowAt s d r).near false r hstand q)
  have hfirst := (he.step hrecord.step).firstRow hr
  exact hrecord.after settlePoison_step fun q => rowAt_settlePoison (h.step hrecord.step) (hfirst.symm ▸ he.first_mem) q

theorem zipIdx_map_range {β : Type} (f : Nat → β) (n : Nat) : ((List.range n).map f).zipIdx = (List.range n).map fun j => (f j, j) :=
  List.ext_getElem (by simp) (by simp)

theorem entryRows_subset {count : Nat} (h : first + count ≤ n) : entryRows (row + first) count ⊆ entryRows row n := by
  intro q hq
  obtain ⟨j, hj, rfl⟩ := List.mem_map.1 hq
  have hlt := List.mem_range.1 hj
  exact List.mem_map.2 ⟨first + j, List.mem_range.2 (by omega), (Nat.add_assoc _ _ _).symm⟩

/-- What a row holds that an image has been written to. -/
def HoldsImage (img : Plane × Plane) (d q : Nat) (x : Row) : Prop :=
  x.data = img.1 ∧ x.mask = img.2 ∧ x.valid = false ∧ rowGood d q x = true

/-- ENTRY_WRITE. -/
theorem writeRows_wrote (h : Standing s d) (he : EntryAt s d row n) (img : Nat → Plane × Plane) {count : Nat} (hc : first + count ≤ n) :
    Wrote d (poisonBlind (entryRows row n)) (fun q _ c => HoldsImage (img (q - (row + first))) d q c) (entryRows (row + first) count) s
      (((List.range count).map img).zipIdx.foldl (fun s x => writeRow s d (row + first + x.2) x.1.1 x.1.2 none) s) := by
  rw [zipIdx_map_range, List.foldl_map]
  refine Wrote.foldl (ρ := (row + first + ·)) h (entryRows_nodup _ _) fun u hu hs j hj => ?_
  have hin : row + first + j ∈ entryRows row n := entryRows_subset hc (List.mem_map_of_mem hj)
  have hw := writeRow_wrote hu (he.step hs) hin (img j).1 (img j).2
  refine ⟨hw.step, hw.unwritten, fun q hq => ?_⟩
  have himg : img (q - (row + first)) = img j := by
    rw [List.mem_singleton.1 hq, Nat.add_sub_cancel_left]
  rw [himg]
  exact hw.written q hq

/-- NEAR_WRITE. -/
theorem writeNear_wrote (h : Standing s d) (r : Nat) (v : Word64) :
    Wrote d (poisonBlind []) (fun q a c => c = { a with near := v, nchk := nearCheck d q v, prio := prioOf v, ppar := true }) [r] s
      (writeNear s d r v) := by
  unfold writeNear
  rw [readRecord_of_good r h.good]
  exact putRecord_putRow_wrote h rfl

/-! A command that nothing keeps waiting -/

section
variable {k c seat w v tb : Nat} {sub : Sub} {dies : List Nat} {data : Word64} {tab : Table} {Q : State → State → Prop}

/-- What stands before a command's work: its submission has started, its seat and the tally have paid. -/
def Booked (s b : State) : Prop := Only [.seats, .rings, .tally] s b

theorem pay_done {work : State → State × Nat × BitVec 8 × Word64} (ha : (admitWork s seat (opCost s opDispatch 0 + c)).isSome = true)
    (hw : ∀ b, Booked s b → ∃ m actual, work b = (m, actual, stCmdDone, data) ∧ Q b m) :
    ∃ b m m', Booked s b ∧ Q b m ∧ Only [.seats, .tally] m m' ∧ pay s k sub seat c work = finish m' k sub stCmdDone data := by
  obtain ⟨⟨a, g⟩, ha⟩ := Option.isSome_iff_exists.1 ha
  have hb : Booked s (bookOp (startSub a k sub.id 1) (2 + ringHub a k) (opCost s opDispatch 0)) :=
    (bookOp_keeps (by decide) (startSub_keeps (by decide) (admitWork_keeps (by decide) ha (.refl _ _)))).only
  obtain ⟨m, actual, hwork, hq⟩ := hw _ hb
  refine ⟨_, m, settle m seat (opCost s opDispatch 0 + c) (opCost s opDispatch 0 + actual) g, hb, hq,
    (settle_keeps (by decide) (.refl _ _)).only, ?_⟩
  unfold pay
  simp only [ha, hwork]

theorem payArray_done {work : State → State × Except (BitVec 8 × Word64) (Nat × Nat × Word64)}
    (hp : Payable s seat dies (arrayCost s dies w v))
    (hw : ∀ b, Booked s b → ∃ m w v, work b = (m, .ok (w, v, data)) ∧ Q b m) :
    ∃ b m m', Booked s b ∧ Q b m ∧ Only [.seats, .tally] m m' ∧
      payArray s k sub seat dies w v work = finish m' k sub stCmdDone data := by
  obtain ⟨hne, hd, hneed, ha⟩ := hp
  have hserve : (dies.isEmpty || dies.any fun d => !frondServes s d) = false := by
    rw [Bool.or_eq_false_iff, List.isEmpty_eq_false_iff, List.any_eq_false]
    exact ⟨hne, fun d hm => by simp [(hd d hm).1]⟩
  have hbook (m : State) (w v : Nat) : Only [.seats, .tally] m (bookArray m dies w v) := (bookArray_keeps (by decide) (.refl _ _)).only
  unfold payArray
  rw [hserve, hneed]
  obtain ⟨b, m, m', hb, ⟨m0, hq, h0⟩, hm, hpay⟩ := pay_done (k := k) (sub := sub) (data := data)
    (Q := fun b m => ∃ m0, Q b m0 ∧ Only [.seats, .tally] m0 m) (work := fun s => match work s with
        | (s', .ok (w, v, data)) => (bookArray s' dies w v, arrayCost s dies w v, stCmdDone, data)
        | (s', .error (st, data)) => (s', 0, st, data)) ha fun b hb => by
    obtain ⟨m, w, v, hwork, hq⟩ := hw b hb
    exact ⟨_, _, by rw [hwork], m, hq, hbook m w v⟩
  exact ⟨b, m0, m', hb, hq, h0.trans hm, hpay⟩

theorem Booked.fronds {b : State} (h : Booked s b) : b.fronds = s.fronds := h .fronds (by decide)

theorem Booked.copies {b : State} (h : Booked s b) (die : Nat) : copies b die = copies s die := by
  rw [eq_of_only_charges h]
  rfl

theorem Booked.heldValid {b : State} (h : Booked s b) (d first n : Nat) : heldValid b d first n = heldValid s d first n := by
  rw [eq_of_only_charges h]
  rfl

theorem Booked.entryBusy {b : State} (h : Booked s b) (d table q : Nat) : entryBusy b d table q = entryBusy s d table q := by
  rw [eq_of_only_charges h]
  rfl

/-- An entry command that nothing keeps busy does its work and completes. -/
theorem entryCmd_done {op : Nat} {form needFree : Bool} {counts : Table → Option (BitVec 8)} {writes valids : Table → Nat}
    {work : Table → Nat → Nat → State → State × Except (BitVec 8 × Word64) (Nat × Nat × Word64)}
    (h : EntryReady s k op sub seat tab (arrayCost s (copies s (posDie (subPos sub 8))) (writes tab) (valids tab)))
    (hform : form = true) (hcounts : counts tab = none)
    (hfree : needFree = true → ∀ d ∈ copies s (posDie (subPos sub 8)), heldValid s d (posRow (subPos sub 8)) tab.rows = false)
    (hw : ∀ b, Booked s b → ∃ m w v, work tab (posDie (subPos sub 8)) (posRow (subPos sub 8)) b = (m, .ok (w, v, data)) ∧ Q b m) :
    ∃ b m m', Booked s b ∧ Q b m ∧ Only [.seats, .tally] m m' ∧
      entryCmd s k sub seat form counts true needFree (fun _ => none) writes valids work = finish m' k sub stCmdDone data := by
  obtain ⟨f, hf⟩ := Option.isSome_iff_exists.1 h.place
  have hrepair : ((copies s (posDie (subPos sub 8))).any fun d => underRepair s d (posRow (subPos sub 8))) = false :=
    List.any_eq_false.2 fun d hd => by simp [(h.free d hd).1]
  have hheld (b : State) (hb : Booked s b) : (needFree && (copies b (posDie (subPos sub 8))).any fun d =>
      heldValid b d (posRow (subPos sub 8)) tab.rows) = false := by
    simp only [hb.copies, hb.heldValid]
    cases needFree with
    | false => rfl
    | true => exact List.any_eq_false.2 fun d hd => by simp [hfree rfl d hd]
  unfold entryCmd entryCmd.run
  simp only [hform, h.clean, Bool.and_self, h.check, h.table, hcounts, hf, h.snapshot, h.tags, hrepair, Bool.or_self, Bool.and_false,
    Bool.false_eq_true, if_false]
  refine payArray_done h.pay fun b hb => ?_
  obtain ⟨m, w, v, hwork, hq⟩ := hw b hb
  refine ⟨m, w, v, ?_, hq⟩
  simp only [hheld b hb, hb.entryBusy, h.busy, Option.map_none, Option.getD_none, Bool.false_eq_true, if_false, hwork]

theorem standing_of_entryReady {op cost : Nat} (h : EntryReady s k op sub seat tab cost) :
    ∀ d ∈ copies s (posDie (subPos sub 8)), Standing s d := fun d hd => by
  obtain ⟨-, hserve, -, -⟩ := h.pay
  obtain ⟨-, h2, hl⟩ := hserve d hd
  exact ⟨h2, hl, (h.free d hd).2⟩

theorem posSlot_aligned {p : Nat} {dead : Bool} (h : (posSlot s tab p dead).isSome = true) : posRow p % tab.rows = 0 := by
  unfold posSlot at h
  split at h
  · extract_lets pan at h
    split at h
    · next hc =>
      simp only [Bool.and_eq_true, beq_iff_eq] at hc
      exact hc.1.2
    · cases h
  · cases h

theorem entryAt_of_entryReady {op cost : Nat} (h : EntryReady s k op sub seat tab cost) :
    ∀ d ∈ copies s (posDie (subPos sub 8)), EntryAt s d (posRow (subPos sub 8)) tab.rows := fun d hd =>
  ⟨h.rows, posSlot_aligned h.place, h.whole d hd⟩

theorem rows_le_of_entryReady {op cost : Nat} (h : EntryReady s k op sub seat tab cost) : tab.rows ≤ 8 := by
  have hmem := h.rows
  simp only [List.mem_cons, List.not_mem_nil, or_false] at hmem
  omega

theorem onCopies_wrote {pan : Nat} {f : State → Nat → State} (hs : ∀ d ∈ copies s die, Standing s d)
    (hf : ∀ u, Only [.seats, .fronds, .tally] s u → ∀ d ∈ copies s die, Standing u d → Wrote d φ (P d) l u (f u d)) :
    Only [.seats, .fronds, .tally] s (onCopies s die pan seat f) ∧ CopiesWrote (copies s die) φ P l s (onCopies s die pan seat f) :=
  copies_wrote (copies_nodup s die) hs hf

theorem runCmd_ready {op cost : Nat} {f : State → Sub → Nat → State} (h : EntryReady s k op sub seat tab cost) :
    runCmd s k op f = f s sub seat := by
  obtain ⟨hnext, hdisp⟩ := h.next
  unfold runCmd
  rw [hnext, hdisp]
  rfl

/-- An entry command whose work writes rows of every copy. -/
theorem entryCmd_writes {op : Nat} {form needFree : Bool} {counts : Table → Option (BitVec 8)} {writes valids : Table → Nat}
    {work : Table → Nat → Nat → State → State × Except (BitVec 8 × Word64) (Nat × Nat × Word64)}
    (h : EntryReady s k op sub seat tab (arrayCost s (copies s (posDie (subPos sub 8))) (writes tab) (valids tab)))
    (hform : form = true) (hcounts : counts tab = none)
    (hfree : needFree = true → ∀ d ∈ copies s (posDie (subPos sub 8)), heldValid s d (posRow (subPos sub 8)) tab.rows = false)
    (hw : ∀ b, Booked s b → ∃ m w v, work tab (posDie (subPos sub 8)) (posRow (subPos sub 8)) b = (m, .ok (w, v, data)) ∧
      Only [.seats, .fronds, .tally] b m ∧ CopiesWrote (copies s (posDie (subPos sub 8))) φ P l b m) :
    ∃ m, entryCmd s k sub seat form counts true needFree (fun _ => none) writes valids work = finish m k sub stCmdDone data ∧
      CopiesWrote (copies s (posDie (subPos sub 8))) φ P l s m ∧ Only [.seats, .fronds, .rings, .tally] s m := by
  obtain ⟨b, m, m', hb, ⟨honly, hwrote⟩, hm, hcmd⟩ := entryCmd_done h hform hcounts hfree hw
  refine ⟨m', hcmd, hwrote.congr hb.fronds (hm .fronds (by decide)), ?_⟩
  exact (hb.mono (by decide)).trans ((honly.mono (by decide)).trans (hm.mono (by decide)))

/-- The write of one copy, done in each copy of a booked state. -/
theorem onCopies_wrote_of_entryReady {op cost pan : Nat} {f : State → Nat → State} {b : State} (h : EntryReady s k op sub seat tab cost)
    (hb : Booked s b)
    (hf : ∀ u d, Standing u d → EntryAt u d (posRow (subPos sub 8)) tab.rows → Wrote d φ (P d) l u (f u d)) :
    Only [.seats, .fronds, .tally] b (onCopies b (posDie (subPos sub 8)) pan seat f) ∧
      CopiesWrote (copies s (posDie (subPos sub 8))) φ P l b (onCopies b (posDie (subPos sub 8)) pan seat f) := by
  rw [← hb.copies]
  refine onCopies_wrote (fun d hd => (standing_of_entryReady h d (hb.copies _ ▸ hd)).congr hb.fronds) fun u hu d hd hs => hf u d hs ?_
  have he := (entryAt_of_entryReady h d (hb.copies _ ▸ hd)).congr (hb .tables (by decide)) (hb .pkg (by decide))
  exact he.congr (hu .tables (by decide)) (hu .pkg (by decide))

theorem CopiesWrote.sameRowsBut {l' rows : List Nat} (h : CopiesWrote dies (poisonBlind l') P l s t) (hl : l ⊆ rows) (hl' : l' ⊆ rows) :
    SameRowsBut s t dies rows := by
  refine ⟨h.others, fun d hd q hq => ?_⟩
  have hsame := h.unwritten d hd q (mt (@hl q) hq)
  rwa [poisonBlind_of_not_mem (mt (@hl' q) hq), poisonBlind_of_not_mem (mt (@hl' q) hq)] at hsame

/-! The four commands -/

variable {ring : BitVec 10}

theorem entryInvalidate_writes
    (h : EntryReady s ring.toNat 0x48 sub seat tab (arrayCost s (copies s (posDie (subPos sub 8))) 0 1)) :
    ∃ m, exec (.entryInvalidate ring) s = .next (finish m ring.toNat sub stCmdDone (BitVec.ofNat 64 (nowNs s))) ∧
      CopiesWrote (copies s (posDie (subPos sub 8))) (poisonBlind []) (fun _ _ _ c => c.valid = false)
        (entryRows (posRow (subPos sub 8)) tab.rows) s m ∧ Only [.seats, .fronds, .rings, .tally] s m := by
  change ∃ m, execEntryInvalidate ring s = _ ∧ _
  unfold execEntryInvalidate
  rw [runCmd_ready h]
  simp only [Host.Outcome.next.injEq]
  refine entryCmd_writes h rfl rfl (fun hf => absurd hf Bool.false_ne_true) fun b hb => ?_
  have hstamp : stamp b = BitVec.ofNat 64 (nowNs s) := by
    rw [eq_of_only_charges hb]
    rfl
  refine ⟨_, 0, 1, by rw [hstamp], onCopies_wrote_of_entryReady h hb fun u d hs _ => ?_⟩
  split
  · exact invalidateEntry_wrote hs
  · next hany =>
    refine .unchanged fun q hq => ?_
    have hq := List.any_eq_false.1 (Bool.eq_false_iff.2 hany) q hq
    rw [poisonBlind_valid]
    simp only [Bool.or_eq_true, not_or] at hq
    exact Bool.eq_false_iff.2 hq.1

theorem entryWrite_writes
    (h : EntryReady s ring.toNat 0x49 sub seat tab (arrayCost s (copies s (posDie (subPos sub 8))) (field sub.bytes 7 1) 0))
    (hpos : 0 < field sub.bytes 7 1) (hmax : field sub.bytes 7 1 ≤ 4) (hfit : field sub.bytes 6 1 + field sub.bytes 7 1 ≤ tab.rows)
    (hfree : ∀ d ∈ copies s (posDie (subPos sub 8)), heldValid s d (posRow (subPos sub 8)) tab.rows = false)
    (hcover : rowsCovered s (posDie (subPos sub 8)) (posRow (subPos sub 8) / 8192) ((List.range (field sub.bytes 7 1)).map (rowImage sub))
      (field sub.bytes 6 1) tab.ofs = true) :
    ∃ m, exec (.entryWrite ring) s = .next (finish m ring.toNat sub stCmdDone 0) ∧
      CopiesWrote (copies s (posDie (subPos sub 8))) (poisonBlind (entryRows (posRow (subPos sub 8)) tab.rows))
        (fun d q _ c => HoldsImage (rowImage sub (q - (posRow (subPos sub 8) + field sub.bytes 6 1))) d q c)
        (entryRows (posRow (subPos sub 8) + field sub.bytes 6 1) (field sub.bytes 7 1)) s m ∧
      Only [.seats, .fronds, .rings, .tally] s m := by
  have hrows := rows_le_of_entryReady h
  have hcounts : (if field sub.bytes 7 1 = 0 then some stZeroLength else if 4 < field sub.bytes 7 1 then some stBadCount
      else if tab.rows < field sub.bytes 6 1 + field sub.bytes 7 1 then some stBadPosition else none) = none := by
    rw [if_neg (by omega), if_neg (by omega), if_neg (by omega)]
  change ∃ m, execEntryWrite ring s = _ ∧ _
  unfold execEntryWrite
  rw [runCmd_ready h]
  simp only [Host.Outcome.next.injEq]
  refine entryCmd_writes h (decide_eq_true (by omega)) hcounts (fun _ => hfree) fun b hb => ?_
  have hcovered : rowsCovered b (posDie (subPos sub 8)) (posRow (subPos sub 8) / 8192)
      ((List.range (field sub.bytes 7 1)).map (rowImage sub)) (field sub.bytes 6 1) tab.ofs = true := by
    rw [eq_of_only_charges hb]
    exact hcover
  rw [hcovered]
  exact ⟨_, _, _, rfl, onCopies_wrote_of_entryReady h hb fun u d hs he => writeRows_wrote hs he (rowImage sub) hfit⟩

theorem nearWrite_writes
    (h : EntryReady s ring.toNat 0x4B sub seat tab (arrayCost s (copies s (posDie (subPos sub 8))) 1 0))
    (hlt : field sub.bytes 6 1 < tab.rows)
    (hgood : nearGood (serveDie s (posDie (subPos sub 8))) (posRow (subPos sub 8) + field sub.bytes 6 1)
      (rowAt s (serveDie s (posDie (subPos sub 8))) (posRow (subPos sub 8) + field sub.bytes 6 1)) = true) :
    ∃ m, exec (.nearWrite ring) s = .next (finish m ring.toNat sub stCmdDone
        (rowAt s (serveDie s (posDie (subPos sub 8))) (posRow (subPos sub 8) + field sub.bytes 6 1)).near) ∧
      CopiesWrote (copies s (posDie (subPos sub 8))) (poisonBlind [])
        (fun d q a c => c = { a with near := BitVec.ofNat 64 (field sub.bytes 16 8),
                                     nchk := nearCheck d q (BitVec.ofNat 64 (field sub.bytes 16 8)),
                                     prio := prioOf (BitVec.ofNat 64 (field sub.bytes 16 8)), ppar := true })
        [posRow (subPos sub 8) + field sub.bytes 6 1] s m ∧ Only [.seats, .fronds, .rings, .tally] s m := by
  have hrows := rows_le_of_entryReady h
  change ∃ m, execNearWrite ring s = _ ∧ _
  unfold execNearWrite
  rw [runCmd_ready h]
  simp only [Host.Outcome.next.injEq]
  refine entryCmd_writes h (decide_eq_true (by omega)) (if_neg (by omega)) (fun hf => absurd hf Bool.false_ne_true) fun b hb => ?_
  have hserve : serveDie b (posDie (subPos sub 8)) = serveDie s (posDie (subPos sub 8)) := by
    rw [eq_of_only_charges hb]
    rfl
  have hrow (d q : Nat) : rowAt b d q = rowAt s d q := rowAt_congr (frond_congr hb.fronds d) q
  simp only [hserve, hrow, hgood, Bool.true_or, if_true]
  exact ⟨_, _, _, rfl, onCopies_wrote_of_entryReady h hb fun u d hs _ => writeNear_wrote hs _ _⟩

/-! ENTRY_VALIDATE -/

theorem entryValid_rows {d : Nat} (hr : underRepair s d row = false) (hv : entryValid s d row n = true) :
    ∀ q ∈ entryRows row n, (rowAt s d q).valid = true := by
  unfold underRepair mhas at hr
  unfold entryValid at hv
  rw [Option.isSome_eq_false_iff.1 hr |> Option.isNone_iff_eq_none.1] at hv
  exact List.all_eq_true.1 hv

theorem poisonAny_of_clean {op cost : Nat} (h : EntryReady s k op sub seat tab cost)
    (hclean : ∀ d ∈ copies s (posDie (subPos sub 8)), entryPoison s d (posRow (subPos sub 8)) = false) :
    poisonAny s tab (posDie (subPos sub 8)) (posRow (subPos sub 8)) = false := by
  refine List.any_eq_false.2 fun d hd => ?_
  have he := entryAt_of_entryReady h d hd
  have hpoison := hclean d hd
  unfold entryPoison at hpoison
  rw [he.firstRow he.first_mem] at hpoison
  unfold poisonStands
  simp [hpoison]

/-- What a validated row is. -/
def Validated (a c : Row) : Prop := c.valid = true ∧ c.data = a.data ∧ c.mask = a.mask

theorem entryValidate_writes
    (h : EntryReady s ring.toNat 0x4A sub seat tab (arrayCost s (copies s (posDie (subPos sub 8))) 0 1))
    (hgood : badRows s tab (posDie (subPos sub 8)) (posRow (subPos sub 8)) = false)
    (hcover : entryCovered s tab (posDie (subPos sub 8)) (posRow (subPos sub 8)) = true)
    (hclean : ∀ d ∈ copies s (posDie (subPos sub 8)), entryPoison s d (posRow (subPos sub 8)) = false) :
    ∃ m, exec (.entryValidate ring) s = .next (finish m ring.toNat sub stCmdDone (BitVec.ofNat 64 (nowNs s))) ∧
      CopiesWrote (copies s (posDie (subPos sub 8))) (poisonBlind (entryRows (posRow (subPos sub 8)) tab.rows))
        (fun _ _ a c => Validated a c) (entryRows (posRow (subPos sub 8)) tab.rows) s m ∧
      Only [.seats, .fronds, .rings, .tally] s m := by
  change ∃ m, execEntryValidate ring s = _ ∧ _
  unfold execEntryValidate
  rw [runCmd_ready h]
  simp only [Host.Outcome.next.injEq, h.clean, h.check, h.table, hgood, Bool.and_false, Bool.false_and, Bool.false_eq_true, if_false]
  unfold execEntryValidate.go
  refine entryCmd_writes h rfl rfl (fun hf => absurd hf Bool.false_ne_true) fun b hb => ?_
  have hstamp : stamp b = BitVec.ofNat 64 (nowNs s) := by
    rw [eq_of_only_charges hb]
    rfl
  have hcovered : entryCovered b tab (posDie (subPos sub 8)) (posRow (subPos sub 8)) = true := by
    rw [eq_of_only_charges hb]
    exact hcover
  have hpoison : poisonAny b tab (posDie (subPos sub 8)) (posRow (subPos sub 8)) = false := by
    have hnone := poisonAny_of_clean h hclean
    rw [eq_of_only_charges hb]
    exact hnone
  unfold validateStep
  simp only [hstamp, hcovered, hpoison, Bool.not_true, Bool.false_eq_true, if_false]
  split
  · next m hm =>
    refine ⟨m, 0, 1, rfl, ?_⟩
    split at hm
    · next hall =>
      cases hm
      refine ⟨.refl _ _, fun _ _ _ => rfl, fun _ _ _ _ => rfl, fun d hd q hq => ⟨?_, rfl, rfl⟩⟩
      have hvalid := List.all_eq_true.1 hall d (hb.copies _ ▸ hd)
      have hrepair : underRepair b d (posRow (subPos sub 8)) = false := by
        rw [eq_of_only_charges hb]
        exact (h.free d hd).1
      rw [poisonBlind_valid]
      exact entryValid_rows hrepair hvalid q hq
    · cases hm
      exact onCopies_wrote_of_entryReady h hb fun u d hs he => setValid_wrote hs he
  · next st hm =>
    split at hm
    · cases hm
    · cases hm

end

end

/-- Settles O27: the four commands, each by what its work writes in every copy. -/
theorem entryStepsWriteTheArray : Obligations.EntryStepsWriteTheArray := by
  intro s ring u seat t n die row dies rows
  refine ⟨fun h => ?_, ?_, fun h hgood hcover hclean => ?_, ?_⟩
  · obtain ⟨m, hexec, hw, honly⟩ := entryInvalidate_writes h
    refine ⟨m, hexec, fun d hd r hr => ?_, hw.sameRowsBut (List.Subset.refl _) (List.nil_subset _), honly⟩
    rw [← poisonBlind_valid]
    exact hw.written d hd r hr
  · intro first count h hpos hmax hfit hfree hcover
    obtain ⟨m, hexec, hw, honly⟩ := entryWrite_writes h hpos hmax hfit hfree hcover
    refine ⟨m, hexec, fun d hd j hj => ?_, fun d hd r hr => ?_, hw.sameRowsBut (entryRows_subset hfit) (List.Subset.refl _), honly⟩
    · obtain ⟨hdata, hmask, hvalid, hgood⟩ := hw.written d hd (row + first + j) (List.mem_map_of_mem (List.mem_range.2 hj))
      rw [Nat.add_sub_cancel_left] at hdata hmask
      rw [poisonBlind_data] at hdata
      rw [poisonBlind_mask] at hmask
      rw [poisonBlind_valid] at hvalid
      rw [rowGood_poisonBlind] at hgood
      exact ⟨hdata, hmask, hvalid, hgood⟩
    · have hsame := hw.unwritten d hd r hr
      have same {α : Type} (g : Row → α) (hg : ∀ x, g (poisonBlind (entryRows row t.rows) r x) = g x) :
          g (rowAt m d r) = g (rowAt s d r) := (hg _).symm.trans ((congrArg g hsame).trans (hg _))
      exact ⟨same _ (poisonBlind_data r), same _ (poisonBlind_mask r), same _ (poisonBlind_valid r), same _ (poisonBlind_near r)⟩
  · obtain ⟨m, hexec, hw, honly⟩ := entryValidate_writes h hgood hcover hclean
    refine ⟨m, hexec, fun d hd r hr => ?_, hw.sameRowsBut (List.Subset.refl _) (List.Subset.refl _), honly⟩
    obtain ⟨hvalid, hdata, hmask⟩ := hw.written d hd r hr
    rw [poisonBlind_valid] at hvalid
    rw [poisonBlind_data, poisonBlind_data] at hdata
    rw [poisonBlind_mask, poisonBlind_mask] at hmask
    exact ⟨hvalid, hdata, hmask⟩
  · intro r v h hlt hgood
    obtain ⟨m, hexec, hw, honly⟩ := nearWrite_writes h hlt hgood
    refine ⟨m, hexec, fun d hd => ?_, hw.sameRowsBut (List.Subset.refl _) (List.nil_subset _), honly⟩
    have hwritten := hw.written d hd r List.mem_cons_self
    rwa [poisonBlind_of_not_mem List.not_mem_nil, poisonBlind_of_not_mem List.not_mem_nil] at hwritten

end Sys2Proof.Machine
end

section
/-! A retired DRAM row and an image under a replaced key (R225, R277, R279, R300). The retirement reads the media of the row's pages. A
PACKED page whose media are lost is poisoned and becomes PLAIN, and what its lines read as under the key of the moment is then written:
of a line last written under another key that is not what memory held. -/

namespace Sys2Proof.Machine
section
variable {s : State} {line page hub : Nat}

/-! What a read of media meets -/

theorem mediaRead_of_undamaged (h : s.mem.damage = []) (line hub : Nat) (coord : BitVec 48) :
    mediaRead s line hub .good coord = s := by
  have herr : mediaError s line hub = 0 := by unfold mediaError; rw [h]; rfl
  have hlost : mediaLost s line hub = false := by unfold mediaLost; rw [h]; rfl
  have hread : dramRead s line hub .good coord = s := by unfold dramRead; rw [herr, hlost]; rfl
  have hstale : staleRead s line hub .good coord = s := by unfold staleRead; rw [herr, hlost]; rfl
  unfold mediaRead
  rw [hread, hstale]
  split
  · rfl
  · rfl
  · exact ite_self s

theorem moveFrame_bytes : (moveFrame s page hub).mem.bytes = ((List.range 64).foldl
    (fun s i => mediaRead s (64 * page + i) hub .good (lineCoord s (64 * page + i) hub)) s).mem.bytes := by
  unfold moveFrame modMem
  dsimp only

theorem foldl_mediaRead_of_undamaged (h : s.mem.damage = []) (offsets : List Nat) :
    offsets.foldl (fun s i => mediaRead s (64 * page + i) hub .good (lineCoord s (64 * page + i) hub)) s = s := by
  induction offsets with
  | nil => rfl
  | cons i offsets ih => rw [List.foldl_cons, mediaRead_of_undamaged h]; exact ih

/-- A PACKED page whose image is lost is poisoned whole. -/
theorem mediaRead_lost_image {cls : Nat} (hp : (pageAtHub s (pageOfLine line) hub).st = .packed cls)
    (hl : mediaLost s line hub = true) (coord : BitVec 48) :
    mediaRead s line hub .good coord = poisonPage (rewriteMedia s line hub) (pageOfLine line) hub := by
  have herr : mediaError s line hub = 2 := by
    unfold mediaLost at hl
    unfold mediaError
    split
    · next e he =>
      rw [he] at hl
      exact if_pos hl
    · next he =>
      rw [he] at hl
      cases hl
  have hpage : (pageAtHub (rewriteMedia s line hub) (pageOfLine line) hub).st = .packed cls := hp
  unfold mediaRead dramRead
  rw [hp, herr, hl]
  change poisonMedia (rewriteMedia s line hub) line hub = _
  unfold poisonMedia
  rw [hpage]

/-! A page that is poisoned becomes PLAIN -/

theorem setPoisons_eq (lines : List Nat) :
    ∃ p, lines.foldl (fun s l => setPoison s l hub) s = { s with mem := { s.mem with poison := p } } := by
  induction lines generalizing s with
  | nil => exact ⟨_, rfl⟩
  | cons l lines ih =>
    obtain ⟨p, hp⟩ := ih (s := setPoison s l hub)
    exact ⟨p, hp⟩

theorem poisonPage_mem : (poisonPage s page hub).mem =
    (makePlain ((List.range 64).foldl (fun s i => setPoison s (64 * page + i) hub) s) page hub).mem :=
  (dropEnginePage_keeps (kl := [.coh]) (by decide) (.refl _ _)).only .mem (by decide)

theorem makePlain_packed {k : BitVec 512} {cls : Nat} (hk : keyOf s (page * 4096) = some k)
    (hp : (pageAtHub s page hub).st = .packed cls) : (makePlain s page hub).mem.bytes = (rewriteKeys s page hub).mem.bytes ∧
      (makePlain s page hub).mem.damage = (rewriteKeys s page hub).mem.damage := by
  unfold makePlain
  simp only [hk, hp]
  generalize rewriteKeys s page hub = u
  exact ⟨rfl, rfl⟩

/-! Lines are written anew under the key of the moment -/

theorem rekeyLine_unkeyed (h : mget s.mem.encBy (hkey line hub) = none) : rekeyLine s line hub = s := by
  unfold rekeyLine
  rw [h]
  split
  · next he => cases he
  · rfl

theorem rekeyLine_stale {k k1 : BitVec 512} (hk : keyOf s (64 * line) = some k) (he : mget s.mem.encBy (hkey line hub) = some k1)
    (hne : k1 ≠ k) : rekeyLine s line hub = modMem s fun m => { m with
      bytes := writeLineMem m.bytes (64 * line) (lineAt s line (devHub s line)).toNat (2 ^ 64 - 1) 64
      encBy := (hub :: devHub s line :: homes s line).foldl (fun e h => mput e (hkey line h) k) m.encBy } := by
  unfold rekeyLine
  rw [hk, he]
  exact if_neg hne

theorem lineAt_stale_image {k k1 : BitVec 512} {cls : Nat} (hk : keyOf s (64 * line) = some k)
    (he : mget s.mem.encBy (hkey line hub) = some k1) (hne : k1 ≠ k) (ho : onPackage s line hub = false)
    (hp : (pageAtHub s (pageOfLine line) hub).st = .packed cls) : lineAt s line hub = freePacked line := by
  unfold lineAt
  simp [hk, he, hne, ho, hp]

/-- A page whose first line alone has been written under a key: that line is written anew. -/
theorem rewriteKeys_first {k k1 : BitVec 512} (hub2 : hub < 2) (hk : keyOf s (64 * (64 * page)) = some k)
    (he : mget s.mem.encBy (hkey (64 * page) hub) = some k1) (hne : k1 ≠ k)
    (hrest : ∀ i, 0 < i → mget s.mem.encBy (hkey (64 * page + i) hub) = none) :
    rewriteKeys s page hub = rekeyLine s (64 * page) hub := by
  have hkept : ∀ i, 0 < i → mget (rekeyLine s (64 * page) hub).mem.encBy (hkey (64 * page + i) hub) = none := by
    intro i hi
    rw [rekeyLine_stale hk he hne, ← hrest i hi]
    refine mget_foldl_mput.trans (if_neg fun hm => ?_)
    obtain ⟨g, hg, hkey⟩ := List.mem_map.1 hm
    have hg2 : g < 2 := by
      rcases List.mem_cons.1 hg with rfl | hg
      · exact hub2
      · rcases List.mem_cons.1 hg with rfl | hg
        · exact devHub_lt _ _
        · exact homes_lt hg
    have := (hkey_inj hg2 hub2 hkey).1
    omega
  have hfixed : ∀ (l : List Nat), (∀ i ∈ l, 0 < i) →
      l.foldl (fun s i => rekeyLine s (64 * page + i) hub) (rekeyLine s (64 * page) hub) = rekeyLine s (64 * page) hub := by
    intro l hl
    induction l with
    | nil => rfl
    | cons i l ih =>
      rw [List.foldl_cons, rekeyLine_unkeyed (hkept i (hl i List.mem_cons_self))]
      exact ih fun j hj => hl j (List.mem_cons_of_mem i hj)
  unfold rewriteKeys
  rw [show List.range 64 = 0 :: (List.range 63).map Nat.succ from List.range_succ_eq_map, List.foldl_cons]
  refine hfixed _ fun i hi => ?_
  obtain ⟨j, -, rfl⟩ := List.mem_map.1 hi
  exact Nat.succ_pos j

/-! The retirement -/

theorem event_mem (code sev die seat : Nat) (items : List (Nat × Nat)) (dst : Recip) :
    (event s code sev die seat items dst).mem = s.mem := event_only _ _ _ _ _ _ _ .mem (by decide)

theorem capCheck_bytes : (capCheck s).mem.bytes = s.mem.bytes := by
  have hresolve (u : State) : (capResolve u).mem = u.mem :=
    (capResolve_keeps (kl := [.boot, .pkg, .lds, .covs, .life, .log]) (by decide) (.refl _ _)).only .mem (by decide)
  unfold capCheck capEvents
  rw [hresolve]
  simp only [modMem, apply_ite State.mem, event_mem, ite_self]

theorem overPromise_bytes : (overPromise s).mem.bytes = s.mem.bytes := by
  unfold overPromise
  simp only [modMem, apply_ite State.mem, event_mem, ite_self]

/-- The retirement of a row writes what the move of its pages writes. -/
theorem dramRowRetired_bytes {h : BitVec 1} {frames : BitVec 8} {c : BitVec 48} (hc : s.mem.retiring.getD h.toNat none = some c)
    (hh : halted s h.toNat = false) : ∃ m, exec (.dramRowRetired h frames) s = .next m ∧
      m.mem.bytes = ((rowPages s h.toNat c).foldl (fun s p => moveFrame s p h.toNat) s).mem.bytes := by
  have hledger (u : State) : (ledgerWrite u false).mem = u.mem :=
    (ledgerWrite_keeps (kl := [.store, .life]) (by decide) (.refl _ _)).only .mem (by decide)
  have hstore (u : State) : (storeWrite u).mem = u.mem :=
    (storeWrite_keeps (kl := [.life]) (by decide) (.refl _ _)).only .mem (by decide)
  change ∃ m, execDramRowRetired h frames s = .next m ∧ _
  unfold execDramRowRetired
  simp only [hc, hh, Bool.false_eq_true, if_false]
  refine ⟨_, rfl, ?_⟩
  rw [overPromise_bytes, capCheck_bytes, hledger, event_mem]
  unfold setMemret
  rw [setReg_mem, hstore]
  rfl
end

/-! The counterexample -/

/-- A page whose image is PACKED. -/
def packedPage : Page := { pageReset with st := .packed 1 }

/-- Memory whose first byte is not what the first line's image reads as under another key. -/
def otherBytes : List Host.Cell := if (freePacked 0).toNat % 256 = 0 then [(0, 1)] else []

/-- Memory whose first page is PACKED: its first line was written under key 2 and is lost in the media, and its extent's slot holds key
1. -/
def lostImage : State :=
  { State.reset with
    extents := [(0, { seats := [], db := false, key := some 0, policy := 0, keyLost := false, granted := true })]
    keys := [(0, { key := 1, owner := none })]
    mem := { memReset with
      bytes := otherBytes, encBy := [(0, 2)], pages := [(0, packedPage)], damage := [(0, { armed := 0, present := 0, lost := true })] } }

/-- The DRAM row in which the first line stands is being retired. -/
def lostRow : State := { lostImage with mem := { lostImage.mem with retiring := [some (lineCoord lostImage 0 0), none] } }

theorem rowPages_lostRow : rowPages lostRow 0 (lineCoord lostImage 0 0) = [0] := by
  have hrow : pageInRow lostRow 0 0 (lineCoord lostImage 0 0) = true :=
    List.any_eq_true.2 ⟨0, by decide, beq_iff_eq.2 rfl⟩
  have hpages : lostRow.mem.pages = [(0, packedPage)] := rfl
  unfold rowPages
  rw [hpages]
  simp [hrow, packedPage]

/-- The image's media are lost: the page's lines are poisoned before the image is given up. -/
def poisonedImage (p : SMap Bool) : State := { rewriteMedia lostRow 0 0 with mem := { (rewriteMedia lostRow 0 0).mem with poison := p } }

theorem keyOf_poisonedImage (p : SMap Bool) : keyOf (poisonedImage p) 0 = some 1 := rfl

theorem bytes_poisonedImage (p : SMap Bool) : (poisonedImage p).mem.bytes = otherBytes := rfl

theorem damage_poisonedImage (p : SMap Bool) : (poisonedImage p).mem.damage = [] := rfl

theorem encBy_poisonedImage (p : SMap Bool) : (poisonedImage p).mem.encBy = [(0, 2)] := rfl

/-- The first read poisons the page and writes its first line anew. -/
theorem mediaRead_lostRow (coord : BitVec 48) : (mediaRead lostRow 0 0 .good coord).mem.damage = [] ∧
    (mediaRead lostRow 0 0 .good coord).mem.bytes = writeLineMem otherBytes 0 (freePacked 0).toNat (2 ^ 64 - 1) 64 := by
  obtain ⟨p, hp⟩ := setPoisons_eq (s := rewriteMedia lostRow 0 0) (hub := 0) ((List.range 64).map (64 * 0 + ·))
  rw [List.foldl_map] at hp
  have hne : (2 : BitVec 512) ≠ 1 := by simp
  have henc : mget (poisonedImage p).mem.encBy (hkey 0 0) = some 2 := by rw [encBy_poisonedImage]; rfl
  have hrekey : rewriteKeys (poisonedImage p) 0 0 = rekeyLine (poisonedImage p) 0 0 :=
    rewriteKeys_first (page := 0) (by decide) (keyOf_poisonedImage p) henc hne fun i hi => by
      have hpos : hkey (64 * 0 + i) 0 ≠ 0 := by unfold hkey; omega
      rw [encBy_poisonedImage, mget, if_neg hpos, if_neg (Nat.not_lt_zero _), mget]
  have hread : (mediaRead lostRow 0 0 .good coord).mem = (makePlain (poisonedImage p) 0 0).mem := by
    have hpage : pageOfLine 0 = 0 := rfl
    rw [mediaRead_lost_image (cls := 1) rfl rfl, hpage, poisonPage_mem, hp]
    rfl
  rw [hread]
  obtain ⟨hb, hd⟩ := makePlain_packed (page := 0) (hub := 0) (cls := 1) (keyOf_poisonedImage p) rfl
  have hdev : devHub (poisonedImage p) 0 = 0 := rfl
  have hline : lineAt (poisonedImage p) 0 0 = freePacked 0 := lineAt_stale_image (cls := 1) (keyOf_poisonedImage p) henc hne rfl rfl
  rw [hb, hd, hrekey, rekeyLine_stale (keyOf_poisonedImage p) henc hne, hdev, hline]
  simp only [modMem, Nat.mul_zero]
  exact ⟨damage_poisonedImage p, congrArg (writeLineMem · 0 (freePacked 0).toNat (2 ^ 64 - 1) 64) (bytes_poisonedImage p)⟩

theorem moveFrame_lostRow : (moveFrame lostRow 0 0).mem.bytes =
    writeLineMem otherBytes 0 (freePacked 0).toNat (2 ^ 64 - 1) 64 := by
  obtain ⟨hdamage, hbytes⟩ := mediaRead_lostRow (lineCoord lostRow 0 0)
  rw [moveFrame_bytes, show List.range 64 = 0 :: (List.range 63).map Nat.succ from List.range_succ_eq_map, List.foldl_cons]
  exact (congrArg (·.mem.bytes) (foldl_mediaRead_of_undamaged hdamage _)).trans hbytes

theorem readMem_rewritten : readMem (writeLineMem otherBytes 0 (freePacked 0).toNat (2 ^ 64 - 1) 64) 0 ≠ readMem otherBytes 0 := by
  have hwf : Memory.wf otherBytes = true := by unfold otherBytes; split <;> decide
  have hread : readMem (writeLineMem otherBytes 0 (freePacked 0).toNat (2 ^ 64 - 1) 64) 0 = BitVec.ofNat 8 (freePacked 0).toNat := by
    have h := readMem_writeLineMem_at (a := 0) (v := (freePacked 0).toNat) (be := 2 ^ 64 - 1) (n := 64) (i := 0) hwf (by decide)
    simpa using h
  rw [hread]
  unfold otherBytes
  split
  · next h0 =>
    intro h
    have := congrArg BitVec.toNat h
    rw [BitVec.toNat_ofNat, h0] at this
    exact absurd this (by decide)
  · next h0 =>
    intro h
    have := congrArg BitVec.toNat h
    rw [BitVec.toNat_ofNat] at this
    exact h0 this

/-- Refutes O41: retiring the row of a PACKED page whose image is lost and whose first line stands under a replaced key changes the
line's bytes. -/
theorem not_pansAndRowsAreRetired : ¬ Obligations.PansAndRowsAreRetired := by
  intro h
  obtain ⟨-, -, -, hrow⟩ := h
  obtain ⟨m, hm, -, -, -, -, -, hbytes, -⟩ := hrow lostRow 0 0 (lineCoord lostImage 0 0) rfl rfl (by decide) (by decide) nofun
  obtain ⟨m', hm', hwritten⟩ := dramRowRetired_bytes (s := lostRow) (h := 0) (frames := 0) (c := lineCoord lostImage 0 0) rfl rfl
  obtain rfl : m = m' := Host.Outcome.next.inj (hm.symm.trans hm')
  have hzero : (0 : BitVec 1).toNat = 0 := rfl
  rw [hzero, rowPages_lostRow, List.foldl_cons, List.foldl_nil, moveFrame_lostRow, hbytes] at hwritten
  exact readMem_rewritten (congrArg (readMem · 0) hwritten.symm)

end Sys2Proof.Machine
end

section
/-! A ring's registers and doorbells: what a change of the ring, of RING.STAT, or a wake of its hub leaves (R100, R109 to R115). -/

namespace Sys2Proof.Machine
section
variable {s t : State} {p : Place} {n : Nat} {r : Ring} {w : Word32}

/-! Rings and registers -/

theorem mget_modRing_ne (s : State) (f : Ring → Ring) {m : Nat} (h : m ≠ n) : mget (modRing s n f).rings m = mget s.rings m := by
  rw [modRing_rings, mget_mmod, if_neg h]

theorem mget_modRing_of (h : mget s.rings n = some r) (f : Ring → Ring) : mget (modRing s n f).rings n = some (f r) := by
  rw [mget_modRing_self, h]
  rfl

theorem mget_setReg_ne (s : State) {a b : Nat} (x : Word) (h : b ≠ a) : mget (setReg s a x).regs.file b = mget s.regs.file b := by
  rw [setReg_regs]
  exact mget_mput_ne _ _ h

theorem modRing_only (s : State) (n : Nat) (f : Ring → Ring) : Only [.rings] s (modRing s n f) :=
  (modRing_keeps (by decide) (.refl _ _)).only

theorem setReg_only (s : State) (a : Nat) (x : Word) : Only [.regs] s (setReg s a x) :=
  (setReg_keeps (by decide) (.refl _ _)).only

theorem reject_only (s : State) (base bit ofs : Nat) : Only [.regs, .wire] s (reject s base bit ofs) :=
  (reject_keeps (by decide) (.refl _ _)).only

/-! RING.CTL -/

theorem pageBase_ringCtl (n : Nat) : pageBase (ringPage n + 8) = ringPage n := by unfold pageBase ringPage; omega

/-- A write of RING.CTL by a logical device that may write the page, with no guarded write pending there, is judged at once. -/
theorem ringCtlAccess_judged {ring : BitVec 10} {a : Nat} {pg : PageId}
    (hl : lookup s p (ringPage ring.toNat + 8) = some (a, pg, .write))
    (hg : mget s.regs.guards (ldKey p (ringPage ring.toNat)) = none) (hm : (maskOf w).getLsbD 0 = true) :
    ringCtlAccess p ring w s = ringCtlWrite s ring.toNat w := by
  have hm0 : maskOf w ≠ 0 := fun h => by simp [h] at hm
  unfold ringCtlAccess dropGuard
  simp only [hl, if_neg hm0, pageBase_ringCtl, hg]

/-- EN is written 0 while it is 1: the ring is disabled, and a write that names EARLY or IRQ is rejected. -/
theorem ringCtlWrite_disable (he : ringEn s n = true) (hm : (maskOf w).getLsbD 0 = true) (hd : (dataOf w).getLsbD 0 = false) :
    ringCtlWrite s n w = if maskOf w &&& 6 = 0 then disableRing s n else reject (disableRing s n) (ringPage n) 0 8 := by
  have he : (reg s (ringPage n + 8)).getLsbD 0 = true := he
  unfold ringCtlWrite
  simp only [he, hm, hd, if_true, Bool.false_eq_true, if_false]

theorem reg_disableRing (s : State) (n : Nat) : reg (disableRing s n) (ringPage n + 8) = reg s (ringPage n + 8) &&& 0xFFFE :=
  reg_setReg_self ..

theorem mget_disableRing (h : mget s.rings n = some r) :
    mget (disableRing s n).rings n = some { r with closing := true, old := some (compRing s n) } :=
  mget_modRing_of (s := setReg s (ringPage n + 8) (reg s (ringPage n + 8) &&& 0xFFFE)) h _

theorem disableRing_only (s : State) (n : Nat) : Only [.regs, .rings] s (disableRing s n) :=
  (disableRing_keeps (by decide) (.refl _ _)).only

theorem mayFetch_closing (h : r.closing = true) : mayFetch s n r = false := by
  unfold mayFetch
  simp [h]

/-- The register of rejects holds the bit of a reject just made. -/
theorem reg_reject_bit (s : State) (n ofs : Nat) : (reg (reject s (ringPage n) 0 ofs) (ringPage n + 0x18)).getLsbD 0 = true := by
  have hbit (x : Word) : (x ||| BitVec.ofNat 16 (2 ^ 0)).getLsbD 0 = true := by simp
  have hevt (u : State) (k : Nat) : reg (setEvt u (ringPage n) k) (ringPage n + 0x18) = reg u (ringPage n + 0x18) := by
    have hne : ringPage n + 0x18 ≠ ringPage n + 0x10 := by omega
    unfold setEvt
    extract_lets old u'
    have hu : reg u' (ringPage n + 0x18) = reg u (ringPage n + 0x18) := reg_setReg_ne _ _ hne
    split
    · split
      · exact hu
      · exact hu
    · exact hu
  unfold reject
  extract_lets old u
  have hu : (reg u (ringPage n + 0x18)).getLsbD 0 = true := by
    unfold u
    rw [reg_setReg_self]
    exact hbit old
  split
  · rw [hevt, reg_setReg_ne _ _ (by omega)]
    exact hu
  · exact hu

/-- Clearing EN ends fetching, and what was fetched completes into the completion ring as it stands. -/
theorem ringDisable_closes {ring : BitVec 10} {a : Nat} {pg : PageId}
    (hl : lookup s p (ringPage ring.toNat + 8) = some (a, pg, .write))
    (hg : mget s.regs.guards (ldKey p (ringPage ring.toNat)) = none) (hr : mget s.rings ring.toNat = some r)
    (he : ringEn s ring.toNat = true) (hm : (maskOf w).getLsbD 0 = true) (hd : (dataOf w).getLsbD 0 = false) :
    ∃ t r', exec (.ringDisable p ring w) s = .next t ∧
      reg t (ringPage ring.toNat + 8) = reg s (ringPage ring.toNat + 8) &&& 0xFFFE ∧
      mget t.rings ring.toNat = some r' ∧ r' = { r with closing := true, old := some (compRing s ring.toNat) } ∧
      mayFetch t ring.toNat r' = false ∧
      (maskOf w &&& 6 ≠ 0 → (reg t (ringPage ring.toNat + 0x18)).getLsbD 0 = true) ∧
      (maskOf w &&& 6 = 0 → SameRegsBut s t [ringPage ring.toNat + 8]) ∧
      SameRingsBut s t ring.toNat ∧ Only [.regs, .rings, .wire] s t := by
  have hrings (k : Nat) (hk : k ≠ ring.toNat) : mget (disableRing s ring.toNat).rings k = mget s.rings k :=
    mget_modRing_ne _ _ hk
  have honly := (disableRing_only s ring.toNat).mono (m := [.regs, .rings, .wire]) (by decide)
  refine ⟨ringCtlWrite s ring.toNat w, { r with closing := true, old := some (compRing s ring.toNat) },
    congrArg Host.Outcome.next (ringCtlAccess_judged hl hg hm), ?_⟩
  rw [ringCtlWrite_disable he hm hd]
  split
  · next h6 =>
    refine ⟨reg_disableRing s _, mget_disableRing hr, rfl, mayFetch_closing rfl, absurd h6, fun _ b hb => ?_, hrings, honly⟩
    exact mget_setReg_ne _ _ (List.ne_of_not_mem_cons hb)
  · next h6 =>
    have hrej := reject_only (disableRing s ring.toNat) (ringPage ring.toNat) 0 8
    have hr' : (reject (disableRing s ring.toNat) (ringPage ring.toNat) 0 8).rings = (disableRing s ring.toNat).rings :=
      hrej .rings (by decide)
    refine ⟨(reg_reject_ne _ (by omega) (by omega) (by omega)).trans (reg_disableRing s _), hr' ▸ mget_disableRing hr, rfl,
      mayFetch_closing rfl, fun _ => reg_reject_bit _ _ _, fun h => absurd h h6, fun k hk => hr' ▸ hrings k hk,
      honly.trans (hrej.mono (by decide))⟩

/-- A closing ring that no revocation waits for, with nothing fetched and nothing owed. -/
theorem execRingIdle_done {ring : BitVec 10} (hr : mget s.rings ring.toNat = some r) (hc : r.closing = true) (hv : r.revoke = none)
    (hs : r.subs = []) (ho : r.owed = []) : exec (.ringIdle ring) s = .next (setReg (modRing s ring.toNat fun x =>
      { x with closing := false }) (ringPage ring.toNat + 0xC) (ringStat s ring.toNat ||| rstIdle)) := by
  change execRingIdle ring s = _
  unfold execRingIdle
  simp only [hr, hc, hs, ho, hv, List.isEmpty_nil, Bool.and_self, if_true]

theorem execRingIdle_waits {ring : BitVec 10} (hr : mget s.rings ring.toNat = some r) (h : r.subs ≠ [] ∨ r.owed ≠ []) :
    exec (.ringIdle ring) s = .next s := by
  have hn : ¬ (r.closing && r.subs.isEmpty && r.owed.isEmpty) = true := fun hd => by
    simp only [Bool.and_eq_true, List.isEmpty_iff] at hd
    exact h.elim (absurd hd.1.2) (absurd hd.2)
  change execRingIdle ring s = _
  unfold execRingIdle
  simp only [hr, if_neg hn]

/-- RING_IDLE waits for the last fetched submission, and then sets IDLE. -/
theorem ringIdle_closes {ring : BitVec 10} (hr : mget s.rings ring.toNat = some r) (hc : r.closing = true) (hv : r.revoke = none) :
    (r.subs ≠ [] ∨ r.owed ≠ [] → exec (.ringIdle ring) s = .next s) ∧
    (r.subs = [] → r.owed = [] →
      ∃ t, exec (.ringIdle ring) s = .next t ∧ ringStat t ring.toNat = ringStat s ring.toNat ||| rstIdle ∧
        mget t.rings ring.toNat = some { r with closing := false } ∧ SameRegsBut s t [ringPage ring.toNat + 0xC] ∧
        SameRingsBut s t ring.toNat ∧ Only [.regs, .rings] s t) :=
  ⟨execRingIdle_waits hr, fun hs ho => ⟨_, execRingIdle_done hr hc hv hs ho, reg_setReg_self .., mget_modRing_of hr _,
    fun _ hb => mget_setReg_ne _ _ (List.ne_of_not_mem_cons hb), fun _ hk => mget_modRing_ne _ _ hk,
    ((modRing_only _ _ _).mono (by decide)).trans ((setReg_only _ _ _).mono (by decide))⟩⟩

/-! Doorbells -/

theorem sleepResAddr_hub_lt {h : Nat} (hh : h < 2) : sleepResAddr h < 0x02000000 := by
  unfold sleepResAddr diePage
  rw [if_pos hh]
  omega

theorem ringHub_lt (s : State) (n : Nat) : ringHub s n < 2 := by
  unfold ringHub placeHub
  repeat' split
  all_goals omega

theorem wakeHub_only (s : State) (h : Nat) : Only [.tally, .regs] s (wakeHub s h) :=
  (wakeHub_keeps (by decide) (.refl _ _)).only

/-- A ring's registers stand through a wake of a hub. -/
theorem reg_wakeHub_ring {h : Nat} (hh : h < 2) (n ofs : Nat) : reg (wakeHub s h) (ringPage n + ofs) = reg s (ringPage n + ofs) := by
  have hlt := sleepResAddr_hub_lt hh
  exact reg_wakeHub s h (by unfold ringPage; omega)

/-- A ring whose doorbell is rung: its hub is woken. -/
def rung (s : State) (n : Nat) : State := wakeHub s (ringHub s n)

theorem rung_rings (s : State) (n : Nat) : (rung s n).rings = s.rings := wakeHub_only _ _ .rings (by decide)
theorem rung_log (s : State) (n : Nat) : (rung s n).log = s.log := wakeHub_only _ _ .log (by decide)
theorem rung_mem (s : State) (n : Nat) : (rung s n).mem = s.mem := wakeHub_only _ _ .mem (by decide)
theorem rung_coh (s : State) (n : Nat) : (rung s n).coh = s.coh := wakeHub_only _ _ .coh (by decide)

theorem ringStat_rung (s : State) (n : Nat) : ringStat (rung s n) n = ringStat s n := reg_wakeHub_ring (ringHub_lt s n) n 0xC

theorem sqLog_rung (s : State) (n : Nat) : sqLog (rung s n) n = sqLog s n :=
  congrArg (bits · 4 0) (reg_wakeHub_ring (ringHub_lt s n) n 0x40)

/-- A write of some bytes of a doorbell line by a host that reaches it, to a ring that takes it. -/
structure RingsBell (s : State) (p : Place) (ring : BitVec 10) (be : BitVec 4) (r : Ring) (seat : Nat) : Prop where
  listed : mget s.rings ring.toNat = some r
  en : ringEn s ring.toNat = true
  ready : ringReadyBit s ring.toNat = true
  attached : seatOf s p = some seat
  up : placeUp s p = true
  reach : reaches s seat (ringBase s ring.toNat 0x70) true false = true
  bytes : be ≠ 0

theorem hostBell_reached {ring : BitVec 10} {be : BitVec 4} {v : Word32} {seat : Nat} (h : RingsBell s p ring be r seat) (b : Bell) :
    hostBell p ring b be v s = bellWrite s ring.toNat b be v := by
  unfold hostBell
  simp only [h.attached]
  rw [if_pos (by rw [h.up, h.reach]; rfl)]

theorem hostBell_rung {ring : BitVec 10} {be : BitVec 4} {v : Word32} {seat : Nat} (h : RingsBell s p ring be r seat) (b : Bell) :
    hostBell p ring b be v s =
      match b with
      | .sqTail => sqTailWrite (rung s ring.toNat) ring.toNat (mergeBytes r.sqTail v be)
      | .cqHead => cqHeadWrite (rung s ring.toNat) ring.toNat (mergeBytes r.cqHead v be)
      | .irqArm => irqArmWrite (rung s ring.toNat) ring.toNat (mergeBytes 0 v be) := by
  have hw : mget (wakeHub s (ringHub s ring.toNat)).rings ring.toNat = some r := (rung_rings s _).symm ▸ h.listed
  have ho : doorbellOpen s ring.toNat = true := by unfold doorbellOpen; rw [h.en, h.ready]; rfl
  have hb : ¬ (decide (be = 0) || !doorbellOpen s ring.toNat) = true := by rw [ho, decide_eq_false h.bytes]; decide
  rw [hostBell_reached h]
  unfold bellWrite
  rw [if_neg hb]
  simp only [hw]
  cases b <;> rfl

/-- A ring that SQ_TAIL has overrun, before the event. -/
def overran (s : State) (n : Nat) : State :=
  setReg (modRing s n fun r => { r with overrun := true }) (ringPage n + 0xC) (ringStat s n ||| rstOverrun)

theorem overran_log (s : State) (n : Nat) : (overran s n).log = s.log := rfl

theorem mget_overran (h : mget s.rings n = some r) : mget (overran s n).rings n = some { r with overrun := true } :=
  mget_modRing_of h _

theorem ringStat_overran (s : State) (n : Nat) : ringStat (overran s n) n = ringStat s n ||| rstOverrun := reg_setReg_self ..

theorem sqTailWrite_eq {v : Word32} (hr : mget s.rings n = some r) : sqTailWrite s n v =
    if (v - r.sqHead).toNat = 0 then s
    else if (v - r.sqHead).toNat ≤ 2 ^ sqLog s n then modRing s n fun r => { r with sqTail := v }
    else event (overran s n) 0x2001 1 0xFF (r.holder.getD 0xFF) [(2, n), (4, r.sqHead.toNat), (4, v.toNat)]
      (.seat (r.holder.getD 0xFF)) := by
  unfold sqTailWrite
  simp only [hr]
  rfl

theorem cqHeadWrite_eq {v : Word32} (hr : mget s.rings n = some r) : cqHeadWrite s n v =
    if (v - r.cqHead).toNat ≤ (r.cqTail - r.cqHead).toNat then modRing s n fun r => { r with cqHead := v }
    else event s 0x2002 1 0xFF (r.holder.getD 0xFF) [(2, n), (4, v.toNat), (4, r.cqTail.toNat)] (.seat (r.holder.getD 0xFF)) := by
  unfold cqHeadWrite
  simp only [hr]

/-- Nothing of a ring's memory, lines or events has changed, nor any other ring. -/
structure BellKept (s t : State) (n : Nat) : Prop where
  rings : SameRingsBut s t n
  mem : t.mem = s.mem
  coh : t.coh = s.coh

theorem bellKept_rung (s : State) (n : Nat) : BellKept s (rung s n) n := ⟨fun _ _ => by rw [rung_rings], rung_mem s n, rung_coh s n⟩

theorem BellKept.modRing (h : BellKept s t n) (f : Ring → Ring) : BellKept s (modRing t n f) n :=
  ⟨fun k hk => (mget_modRing_ne _ f hk).trans (h.rings k hk), h.mem, h.coh⟩

theorem BellKept.overran (h : BellKept s t n) : BellKept s (overran t n) n :=
  ⟨fun k hk => (mget_modRing_ne t _ hk).trans (h.rings k hk), h.mem, h.coh⟩

theorem BellKept.event (h : BellKept s t n) {code sev die seat : Nat} {items : List (Nat × Nat)} {dst : Recip} :
    BellKept s (event t code sev die seat items dst) n := by
  have he := event_only t code sev die seat items dst
  exact ⟨fun k hk => by rw [he .rings (by decide)]; exact h.rings k hk, (he .mem (by decide)).trans h.mem,
    (he .coh (by decide)).trans h.coh⟩

theorem sqTailWrite_rung {v : Word32} (hr : mget s.rings n = some r) {t : State} (ht : t = sqTailWrite (rung s n) n v) :
    BellKept s t n ∧
      ((v - r.sqHead).toNat = 0 → mget t.rings n = some r ∧ t.log = s.log) ∧
      (0 < (v - r.sqHead).toNat → (v - r.sqHead).toNat ≤ 2 ^ sqLog s n →
        mget t.rings n = some { r with sqTail := v } ∧ t.log = s.log) ∧
      (2 ^ sqLog s n < (v - r.sqHead).toNat → mget t.rings n = some { r with overrun := true } ∧
        ringStat t n = ringStat s n ||| rstOverrun ∧
        ∃ m, m.log = s.log ∧ t = event m 0x2001 1 0xFF (r.holder.getD 0xFF) [(2, n), (4, r.sqHead.toNat), (4, v.toNat)]
          (.seat (r.holder.getD 0xFF))) := by
  have hw : mget (rung s n).rings n = some r := (rung_rings s n).symm ▸ hr
  have hk := bellKept_rung s n
  have hpos : 0 < 2 ^ sqLog s n := Nat.two_pow_pos _
  rw [sqTailWrite_eq hw, sqLog_rung] at ht
  split at ht
  · next h0 =>
    subst ht
    exact ⟨hk, fun _ => ⟨hw, rung_log s n⟩, fun h => absurd h0 h.ne', fun h => absurd h0 (hpos.trans h).ne'⟩
  · next h0 =>
    split at ht
    · next hle =>
      subst ht
      exact ⟨hk.modRing _, fun h => absurd h h0, fun _ _ => ⟨mget_modRing_of hw _, rung_log s n⟩, fun h => absurd hle h.not_ge⟩
    · next hgt =>
      have hlog : (overran (rung s n) n).log = s.log := (overran_log _ _).trans (rung_log s n)
      refine ⟨ht ▸ hk.overran.event, fun h => absurd h h0, fun _ h => absurd h hgt, fun _ => ⟨?_, ?_, _, hlog, ht⟩⟩
      · rw [ht, event_only _ _ _ _ _ _ _ .rings (by decide)]
        exact mget_overran hw
      · rw [ht, ringStat, reg_congr (event_regs _ _ _ _ _ _ _)]
        exact (ringStat_overran _ _).trans (congrArg (· ||| rstOverrun) (ringStat_rung s n))

theorem cqHeadWrite_rung {v : Word32} (hr : mget s.rings n = some r) {t : State} (ht : t = cqHeadWrite (rung s n) n v) :
    BellKept s t n ∧
      ((v - r.cqHead).toNat ≤ (r.cqTail - r.cqHead).toNat → mget t.rings n = some { r with cqHead := v } ∧ t.log = s.log) ∧
      ((r.cqTail - r.cqHead).toNat < (v - r.cqHead).toNat → mget t.rings n = some r ∧
        ∃ m, m.log = s.log ∧ t = event m 0x2002 1 0xFF (r.holder.getD 0xFF) [(2, n), (4, v.toNat), (4, r.cqTail.toNat)]
          (.seat (r.holder.getD 0xFF))) := by
  have hw : mget (rung s n).rings n = some r := (rung_rings s n).symm ▸ hr
  have hk := bellKept_rung s n
  rw [cqHeadWrite_eq hw] at ht
  split at ht
  · next hle =>
    subst ht
    exact ⟨hk.modRing _, fun _ => ⟨mget_modRing_of hw _, rung_log s n⟩, fun h => absurd hle h.not_ge⟩
  · next hgt =>
    refine ⟨ht ▸ hk.event, fun h => absurd h hgt, fun _ => ⟨?_, _, rung_log s n, ht⟩⟩
    rw [ht, event_only _ _ _ _ _ _ _ .rings (by decide)]
    exact hw

theorem irqArmWrite_rung {v : Word32} (hr : mget s.rings n = some r) {t : State} (ht : t = irqArmWrite (rung s n) n v) :
    BellKept s t n ∧ t.log = s.log ∧ mget t.rings n = some (if v = 1 then { r with armed := true } else r) := by
  have hw : mget (rung s n).rings n = some r := (rung_rings s n).symm ▸ hr
  have hk := bellKept_rung s n
  unfold irqArmWrite at ht
  split at ht
  · next h1 =>
    subst ht
    rw [if_pos h1]
    exact ⟨hk.modRing _, rung_log s n, mget_modRing_of hw _⟩
  · next h1 =>
    subst ht
    rw [if_neg h1]
    exact ⟨hk, rung_log s n, hw⟩

end

/-- Settles O13: a disable closes the ring, and RING_IDLE ends the closing once nothing fetched is outstanding. -/
theorem ringDisableEndsFetching : Obligations.RingDisableEndsFetching := by
  unfold Obligations.RingDisableEndsFetching
  exact ⟨fun _ _ _ _ _ _ _ hl hg hr he hm hd => ringDisable_closes hl hg hr he hm hd, fun _ _ _ hr hc hv => ringIdle_closes hr hc hv⟩

/-- Settles O14: each doorbell write wakes the hub and then moves its own counter, by the cases of R111, R114 and R115. -/
theorem doorbellWritesMoveTheCounters : Obligations.DoorbellWritesMoveTheCounters := by
  unfold Obligations.DoorbellWritesMoveTheCounters
  intro s p ring be v r seat n sq cq hring hen hready hseat hup hreach hbe
  have h : RingsBell s p ring be r seat := ⟨hring, hen, hready, hseat, hup, hreach, hbe⟩
  obtain ⟨hsq, hsame, htaken, hover⟩ := sqTailWrite_rung hring rfl (v := sq)
  obtain ⟨hcq, hin, hbad⟩ := cqHeadWrite_rung hring rfl (v := cq)
  obtain ⟨hirq, hlog, harm⟩ := irqArmWrite_rung hring rfl (v := mergeBytes 0 v be)
  exact ⟨⟨_, congrArg Host.Outcome.next (hostBell_rung h .sqTail), hsq.rings, hsq.mem, hsq.coh, hsame, htaken, hover⟩,
    ⟨_, congrArg Host.Outcome.next (hostBell_rung h .cqHead), hcq.rings, hcq.mem, hcq.coh, hin, hbad⟩,
    ⟨_, congrArg Host.Outcome.next (hostBell_rung h .irqArm), hirq.rings, hirq.mem, hirq.coh, hlog, harm⟩⟩

end Sys2Proof.Machine
end

section
/-! A device write asks no host: the snoop filter and the transactions in progress stand through it (R246 to R283). What the hosts hold
of a line is settled before the write (R250), so that none of its parts opens or ends anything there. -/

namespace Sys2Proof.Machine
section
variable {k s t : State}

/-- The snoop filter and the transactions in progress. -/
def hostLines (s : State) : SMap FiltEnt × SMap Txn := (s.coh.filt, s.coh.txns)

/-- No host's line and no transaction has changed. -/
def HostsKept (k s : State) : Prop := hostLines s = hostLines k

namespace HostsKept

theorem refl (s : State) : HostsKept s s := rfl

theorem same (h : HostsKept k s) (e : hostLines t = hostLines s := by rfl) : HostsKept k t := e.trans h

theorem ite {c : Prop} [Decidable c] (h : HostsKept k s) (g : HostsKept k t) : HostsKept k (if c then s else t) := by
  split <;> assumption

theorem foldl {α : Type} {f : State → α → State} {xs : List α} (h : HostsKept k s)
    (hf : ∀ u, ∀ x ∈ xs, HostsKept k u → HostsKept k (f u x)) : HostsKept k (xs.foldl f s) :=
  List.foldlRecOn xs f h fun u hu x hx => hf u x hx hu

/-- An operation outside coherence. -/
theorem keep {l : List Piece} (h : HostsKept k s) (e : Keeps l s t) (hl : Piece.coh ∉ l := by decide) : HostsKept k t :=
  h.same (congrArg (fun c : Coh => (c.filt, c.txns)) (e.only .coh hl))

theorem raiseFull (h : HostsKept k s) {code sev die seat extra count : Nat} {items : List (Nat × Nat)} {dst : Recip} :
    HostsKept k (raiseFull s code sev die seat extra count items dst) :=
  h.keep (raiseFull_keeps (kl := [.boot, .pkg, .lds, .life, .log]) (by decide) (.refl _ _))

/-! Agents' copies and the home's own -/

theorem setDir (h : HostsKept k s) {line hub : Nat} : HostsKept k (setDir s line hub) := h.same

theorem setCopy (h : HostsKept k s) {line hub a : Nat} {c : Option CopySt} : HostsKept k (setCopy s line hub a c) := h.same

theorem queueWb (h : HostsKept k s) {line hub : Nat} : HostsKept k (queueWb s line hub) := h.same

theorem leave (h : HostsKept k s) {line hub a : Nat} : HostsKept k (leave s line hub a) := h.same

theorem checkCopy (h : HostsKept k s) {line hub a : Nat} {dirty : Bool} : HostsKept k (checkCopy s line hub a dirty) := by
  unfold Machine.checkCopy
  dsimp only
  split
  · exact h
  · exact .ite h.same.raiseFull h.same

theorem cleanHome (h : HostsKept k s) {line hub : Nat} : HostsKept k (cleanHome s line hub) := by
  unfold Machine.cleanHome
  dsimp only
  have hw : HostsKept k (mediaWrite (Machine.checkCopy s line hub hub true) line hub) :=
    h.checkCopy.keep (mediaWrite_keeps (kl := [.mem]) (by decide) (.refl _ _))
  exact (HostsKept.ite h.checkCopy.queueWb hw).same

theorem toWb (h : HostsKept k s) {line hub : Nat} : HostsKept k (toWb s line hub) := by
  have hroom : HostsKept k (hubRoom s hub) := by
    unfold hubRoom
    refine .ite h ?_
    split
    · exact h.cleanHome
    · exact h
  exact hroom.same

theorem cleanCopy (h : HostsKept k s) {x : Nat} : HostsKept k (cleanCopy s x) := by
  unfold Machine.cleanCopy
  exact .ite h.cleanHome h.checkCopy.toWb.setCopy.setDir

theorem dirtied (h : HostsKept k s) {x : Nat} : HostsKept k (dirtied s x) := by
  have hroom : HostsKept k (twinRoom s x) := by
    unfold twinRoom hubRoom
    refine .ite h (.ite (.ite h ?_) ?_)
    · split
      · exact h.cleanHome
      · exact h
    · split
      · exact h.cleanCopy
      · exact h
  exact hroom.same

theorem bufDrop (h : HostsKept k s) {line hub : Nat} : HostsKept k (bufDrop s line hub) := by
  unfold Machine.bufDrop
  dsimp only
  split
  · exact h
  · exact .ite h.checkCopy.same.toWb h.checkCopy.same

theorem bufPut (h : HostsKept k s) {line hub : Nat} {dirty : Bool} : HostsKept k (bufPut s line hub dirty) := by
  unfold Machine.bufPut
  extract_lets key mine u d v
  have hu : HostsKept k u := by
    unfold u
    refine .ite h ?_
    split
    · exact h.bufDrop
    · exact h.bufDrop
    · exact h
  exact .ite hu.same.dirtied hu.same

theorem dropEnginePage (h : HostsKept k s) {page hub : Nat} : HostsKept k (dropEnginePage s page hub) :=
  h.foldl fun _ _ _ g => g.leave

/-! The device's own writes -/

theorem dramRead (h : HostsKept k s) {line hub : Nat} {ecc : Ecc} {coord : BitVec 48} : HostsKept k (dramRead s line hub ecc coord) := by
  have poison {u : State} (g : HostsKept k u) : HostsKept k (poisonMedia u line hub) := by
    unfold poisonMedia
    split
    · exact ((g.foldl fun _ _ _ g => g.same).keep (makePlain_keeps (kl := [.mem]) (by decide) (.refl _ _))).dropEnginePage
    · exact g.same
  have ue {u : State} (g : HostsKept k u) (c : BitVec 48) (i : Bool) : HostsKept k (dramUe u hub line c i) := by
    unfold dramUe
    exact .ite g.raiseFull (.ite g (poison g.raiseFull))
  have ce {u : State} (g : HostsKept k u) (c : BitVec 48) (i : Bool) : HostsKept k (dramCe u hub line c i) :=
    g.keep (dramCe_keeps (kl := [.boot, .pkg, .lds, .mem, .life, .log]) (by decide) (.refl _ _))
  unfold Machine.dramRead
  have hr : HostsKept k (if mediaError s line hub = 0 then s else rewriteMedia s line hub) := .ite h h.same
  exact .ite (poison hr) (.ite (ue hr _ _) (.ite (ce hr _ _) hr))

theorem discardImage (h : HostsKept k s) {page hub : Nat} : HostsKept k (discardImage s page hub) := by
  unfold Machine.discardImage
  extract_lets p packed s1 s2
  have h1 : HostsKept k s1 := .ite h.same h
  have h2 : HostsKept k s2 := .ite h1.dramRead h1
  exact .ite h2.dropEnginePage h2

theorem storeLine (h : HostsKept k s) {line v be : Nat} : HostsKept k (storeLine s line v be) := by
  unfold Machine.storeLine storeBytes
  exact ((h.foldl fun _ _ _ g => g.discardImage).foldl fun _ _ _ g =>
    g.keep (markKey_keeps (kl := [.mem]) (by decide) (pageWrite_keeps (by decide) (.refl _ _)))).same

theorem homeInv (h : HostsKept k s) {line hub : Nat} : HostsKept k (homeInv s line hub) := by
  unfold Machine.homeInv
  have he : HostsKept k (if ((mget s.coh.dir (hkey line hub)).map fun e : DirEnt => e.bad).getD false
      then dirEvent s line hub flagInjected else s) :=
    .ite (h.keep (dirEvent_keeps (kl := [.boot, .pkg, .lds, .life, .log, .wire]) (by decide) (.refl _ _))) h
  exact (he.keep (sendInv_keeps (kl := [.wire]) (by decide) (.refl _ _))).same

theorem homeStore (h : HostsKept k s) {line v be : Nat} : HostsKept k (homeStore s line v be) := by
  unfold Machine.homeStore
  have clear {u : State} (g : HostsKept k u) (x : Nat) : HostsKept k (clearDamage u line x be) := .ite g.same g
  have hl : HostsKept k ((homes s line).foldl (fun s x =>
      Machine.bufPut (clearDamage (Machine.homeInv (rekeyLine s line x) line x) line x be) line x true) s) :=
    h.foldl fun _ _ _ g => (clear (g.keep (rekeyLine_keeps (kl := [.mem]) (by decide) (.refl _ _))).homeInv _).bufPut
  exact hl.storeLine.keep (wholeClear_keeps (kl := [.mem]) (by decide) (.refl _ _))

theorem homeWrite (h : HostsKept k s) {line v be : Nat} : HostsKept k (homeWrite s line v be) := by
  unfold Machine.homeWrite
  exact .ite h.same h.homeStore

end HostsKept

/-! One line's bytes -/

/-- A write of a line whose key is present leaves the extents, and a part of it that reads no error is refused or made whole. -/
theorem writeDevLine_cases {who line v be : Nat} (hk : keyAbsent s (64 * line) = false)
    (he : s.coh.damage = [] ∧ s.mem.damage = [] ∧ s.mem.badMap = [] ∧ s.coh.spec = []) :
    writeDevLine s who line v be = homeWrite s line v be ∨ writeDevLine s who line v be = s := by
  obtain ⟨hc, hm, hb, hs⟩ := he
  unfold writeDevLine
  rw [if_neg (by rw [hk]; decide), readIn_clean _ _ _ hc hm hb hs]
  dsimp only
  split
  · exact .inl rfl
  · split
    · exact .inr rfl
    · exact .inl rfl

/-- A device write inside one line is that line's write, or nothing, and then what follows a fall of the free media. -/
theorem devWrite_oneLine {who a v n : Nat} (hn : 0 < n) (hl : a % 64 + n ≤ 64) :
    ∃ w be, devWrite s who a v n = capCheck (writeDevLine s who (a / 64) w be) := by
  unfold devWrite
  rw [show (a + n + 63) / 64 - a / 64 = 1 by omega]
  exact ⟨_, _, rfl⟩

/-- What a device write inside one line of a present key may touch. -/
theorem devWrite_oneLine_kept {who a v n : Nat} (hk : keyAbsent s (64 * (a / 64)) = false) (hn : 0 < n) (hl : a % 64 + n ≤ 64)
    (he : s.coh.damage = [] ∧ s.mem.damage = [] ∧ s.mem.badMap = [] ∧ s.coh.spec = []) :
    Keeps [.boot, .pkg, .lds, .mem, .coh, .covs, .life, .log, .wire] s (devWrite s who a v n) ∧
      HostsKept s (devWrite s who a v n) := by
  obtain ⟨w, be, hw⟩ := devWrite_oneLine (s := s) (who := who) (v := v) hn hl
  have hcap {u : State} (h : HostsKept s u) : HostsKept s (capCheck u) :=
    h.keep (capCheck_keeps (kl := [.boot, .pkg, .lds, .mem, .covs, .life, .log]) (by decide) (.refl _ _))
  rw [hw]
  rcases writeDevLine_cases (who := who) (v := w) (be := be) hk he with h | h
  · rw [h]
    exact ⟨capCheck_keeps (by decide) (homeWrite_keeps (by decide) (.refl _ _)), hcap (HostsKept.refl s).homeWrite⟩
  · rw [h]
    exact ⟨capCheck_keeps (by decide) (.refl _ _), hcap (HostsKept.refl s)⟩

/-- A device need meets nothing at a line that no host holds and no transaction is open for. -/
theorem needLine_unheld {line : Nat} {sOk : Bool}
    (h : ∀ x ∈ homes s line, mhas s.coh.filt (hkey line x) = false ∧ mhas s.coh.txns (hkey line x) = false) :
    needLine s line sOk = none := by
  have at_ {x : Nat} (hx : x ∈ homes s line) : needAt s line x sOk = none := by
    obtain ⟨hf, ht⟩ := h x hx
    have hbad : filtBad s line x = false := by
      unfold filtBad
      rw [Option.not_isSome_iff_eq_none.1 (ne_true_of_eq_false hf)]
      rfl
    unfold needAt
    simp only [ht, hbad, hf, Bool.false_and, Bool.false_eq_true, if_false]
  unfold needLine
  refine List.foldlRecOn (motive := fun r => r = none) _ _ rfl fun r hr x hx => ?_
  subst hr
  simp only [Option.getD_none, at_ hx]

end
end Sys2Proof.Machine
end

section
/-! A finished submission's completion entry is written whole at CQ_TAIL (R119). First what a ring's entry and hub read of a state whose
rings alone differ, then the flush of one owed completion, then the finish. -/

namespace Sys2Proof.Machine
section
variable {s t : State} {n k : Nat} {r r' : Ring} {u : Sub} {c : Comp}

/-! A state whose rings alone differ -/

theorem ringHub_congr {R : SMap Ring} (hr : mget s.rings n = some r) (hr' : mget R n = some r') (hh : r'.holder = r.holder) :
    ringHub { s with rings := R } n = ringHub s n := by
  have hp : (mget R n).bind (fun x => x.holder.bind (seatPlace s)) = (mget s.rings n).bind fun x => x.holder.bind (seatPlace s) := by
    rw [hr, hr', Option.bind_some, Option.bind_some, hh]
  unfold ringHub
  exact congrArg (fun o : Option Place => match o with | some p => placeHub p | none => 0) hp

theorem compHub_congr {R : SMap Ring} (hr : mget s.rings n = some r) (hr' : mget R n = some r') (hh : r'.holder = r.holder) :
    compHub { s with rings := R } n = compHub s n := by
  unfold compHub ringHalfOut
  rw [ringHub_congr hr hr' hh]
  rfl

theorem compRing_congr {R : SMap Ring} (hr : mget s.rings n = some r) (hr' : mget R n = some r') (ho : r'.old = r.old) :
    compRing { s with rings := R } n = compRing s n := by
  have hb : (mget R n).bind (fun x => x.old) = (mget s.rings n).bind fun x => x.old := by
    rw [hr, hr', Option.bind_some, Option.bind_some, ho]
  unfold compRing
  exact congrArg (fun o : Option (Nat × Nat) => o.getD (ringBase s n 0x60, cqLog s n)) hb

/-! The next entry -/

/-- Nothing holds up the completion entry of count k. -/
structure EntryOpen (s : State) (n k : Nat) : Prop where
  runs : halted s (compHub s n) = false
  clean : compPoison s n (lineOf (compAddr s n k)) = false ∧
    poisonedAt s (lineOf (compAddr s n k)) (devHub s (lineOf (compAddr s n k))) = false
  near : homeCut s (compHub s n) (lineOf (compAddr s n k)) = false
  media : writeShort s (lineOf (compAddr s n k)) false = false
  unheld : ∀ h ∈ homes s (lineOf (compAddr s n k)), mhas s.coh.filt (hkey (lineOf (compAddr s n k)) h) = false ∧
    mhas s.coh.txns (hkey (lineOf (compAddr s n k)) h) = false
  keyed : keyAbsent s (compAddr s n k) = false
  home : Calm s
  aligned : compAddr s n k % 16 = 0

theorem entryOpen_of_free (h : EntryFree s n r) : EntryOpen s n r.cqTail.toNat :=
  ⟨h.runs, h.clean, h.near, h.media, h.unheld, h.keyed, h.home, h.aligned⟩

theorem compAddr_congr {R : SMap Ring} (hr : mget s.rings n = some r) (hr' : mget R n = some r') (ho : r'.old = r.old) (k : Nat) :
    compAddr { s with rings := R } n k = compAddr s n k := by
  unfold compAddr
  rw [compRing_congr hr hr' ho]

theorem EntryOpen.congr {R : SMap Ring} (h : EntryOpen s n k) (hr : mget s.rings n = some r) (hr' : mget R n = some r')
    (hh : r'.holder = r.holder) (ho : r'.old = r.old) : EntryOpen { s with rings := R } n k := by
  have ha := compAddr_congr hr hr' ho k
  have hc := compHub_congr hr hr' hh
  have hp : compPoison { s with rings := R } n = compPoison s n := by
    funext l
    unfold compPoison
    rw [hc]
    rfl
  refine ⟨?_, ?_, ?_, ?_, ?_, ?_, ⟨h.home.primary, h.home.keys, h.home.errors, h.home.marked⟩, ?_⟩
  · rw [hc]; exact h.runs
  · rw [hp, ha]; exact h.clean
  · rw [hc, ha]; exact h.near
  · rw [ha]; exact h.media
  · rw [ha]; exact h.unheld
  · rw [ha]; exact h.keyed
  · rw [ha]; exact h.aligned

theorem fresh_of_calm (h : Calm s) : Fresh s := fun line x k k1 _ hk h1 => h.keys line x k k1 hk h1

/-- A need of no more of a page than one that finds its media finds it too. -/
theorem writeShort_of_part {line : Nat} (h : writeShort s line false = false) (zeros : Bool) : writeShort s line zeros = false := by
  have hneed (x : Nat) : mediaNeed s line x zeros = mediaNeed s line x false ∨ mediaNeed s line x zeros = 0 := by
    unfold mediaNeed
    split
    · cases zeros
      · exact .inl rfl
      · exact .inr rfl
    · exact .inl rfl
    · exact .inl rfl
  unfold writeShort at h ⊢
  rw [List.any_eq_false] at h ⊢
  intro x hx
  rcases hneed x with hn | hn
  · rw [hn]
    exact h x hx
  · rw [hn]
    simp [mediaShort]

theorem EntryOpen.errors (h : EntryOpen s n k) : s.coh.damage = [] ∧ s.mem.damage = [] ∧ s.mem.badMap = [] ∧ s.coh.spec = [] :=
  ⟨h.home.errors.1, h.home.errors.2.1, h.home.errors.2.2, h.home.marked⟩

theorem keyAbsent_lineOf (s : State) (a : Nat) : keyAbsent s (64 * (a / 64)) = keyAbsent s a := by
  unfold keyAbsent extentAt
  rw [show 64 * (a / 64) / 2 ^ 28 = a / 2 ^ 28 by omega]

/-- An entry that nothing holds up is written whole: its 16 bytes, and no other byte. -/
theorem EntryOpen.written (h : EntryOpen s n k) (hw : Memory.wf s.mem.bytes = true) (who v : Nat) :
    Fresh (devWrite s who (compAddr s n k) v 16) ∧
      ∀ x, devRead (devWrite s who (compAddr s n k) v 16) x 1 =
        if compAddr s n k ≤ x ∧ x < compAddr s n k + 16 then v / 256 ^ (x - compAddr s n k) % 256 else devRead s x 1 :=
  devWrite_reads (fresh_of_calm h.home) hw ((keyAbsent_lineOf s _).trans h.keyed) (by decide) (by have := h.aligned; omega)
    h.errors (writeShort_of_part h.media) (.inr h.clean.2)

theorem EntryOpen.kept (h : EntryOpen s n k) (who v : Nat) :
    Keeps [.boot, .pkg, .lds, .mem, .coh, .covs, .life, .log, .wire] s (devWrite s who (compAddr s n k) v 16) ∧
      HostsKept s (devWrite s who (compAddr s n k) v 16) :=
  devWrite_oneLine_kept ((keyAbsent_lineOf s _).trans h.keyed) (by decide) (by have := h.aligned; omega) h.errors

/-! One owed completion -/

/-- The vector of a ring disarms it at most. -/
theorem ringVector_ring (hr : mget s.rings n = some r) :
    (∃ b, mget (ringVector s n).rings n = some { r with armed := b }) ∧ SameRingsBut s (ringVector s n) n := by
  unfold ringVector
  simp only [hr]
  split
  · have hself := mget_modRing_of hr fun r => { r with armed := false }
    have hothers : SameRingsBut s (modRing s n fun r => { r with armed := false }) n := fun _ hm => mget_modRing_ne s _ hm
    split
    · split
      · exact ⟨⟨false, hself⟩, hothers⟩
      · exact ⟨⟨false, hself⟩, hothers⟩
    · exact ⟨⟨false, hself⟩, hothers⟩
  · exact ⟨⟨r.armed, hr⟩, fun _ _ => rfl⟩

/-- The line of an entry's count. -/
theorem compLine_zero (hr : mget s.rings n = some r) : compLine s n 0 = lineOf (compAddr s n r.cqTail.toNat) := by
  unfold compLine
  rw [hr]
  rfl

theorem EntryOpen.stays (h : EntryOpen s n k) : compWaits s n (lineOf (compAddr s n k)) = false := by
  unfold compWaits
  rw [h.near, h.media, Bool.false_or, Bool.false_or, List.any_eq_false]
  intro x hx
  obtain ⟨hf, ht⟩ := h.unheld x hx
  have ha : heldA s (lineOf (compAddr s n k)) x = false := by
    unfold heldA
    rw [Option.not_isSome_iff_eq_none.1 (ne_true_of_eq_false hf)]
    rfl
  rw [ha, ht]
  decide

/-- A completion that nothing holds up is written. -/
theorem flushList_one (hr : mget s.rings n = some r) (h : EntryOpen s n r.cqTail.toNat) (id : Nat) (c : Comp) :
    flushList n [(id, [c])] s [] = (writeComp s n c, [lineOf (compAddr s n r.cqTail.toNat)], []) := by
  obtain ⟨hc, hm, hb, hs⟩ := h.errors
  have hl := compLine_zero hr
  have hlines : stepLines s n 1 = [lineOf (compAddr s n r.cqTail.toNat)] := by
    unfold stepLines
    rw [List.range_one, List.map_singleton, hl]
    rfl
  unfold flushList
  simp only [h.runs, Bool.false_eq_true, if_false, List.length_singleton, hlines, List.foldl_cons, List.foldl_nil,
    readIn_clean _ _ _ hc hm hb hs, List.filter_cons, h.clean.1, h.stays, Bool.not_false, if_true, List.filter_nil, writeComps, hl,
    flushList]

/-- A ring that is not stopped by poison raises no RING_POISONED. -/
theorem poisonedEvent_running (hr : mget s.rings n = some r) (hs : r.stopped = none) : poisonedEvent s n = s := by
  unfold poisonedEvent
  simp only [hr, hs]

/-- Only the homes of a line and what hosts hold there decide a device need. -/
theorem homes_congr (h : Steady none s t) (hc : t.chip = s.chip) (line : Nat) : homes t line = homes s line := by
  have hm : mirrored t = mirrored s := funext h.mirrored
  unfold homes homeHub
  rw [h.inPair, hm, hc]

/-- The state in which a ring's next entry has been written, before the ring moves on. -/
def entryWritten (s : State) (n k : Nat) (c : Comp) : State :=
  devWrite s (ringSeat s n) (compAddr s n k) (compNat c (phaseOf s n k)) 16

theorem writeComp_eq (hr : mget s.rings n = some r) : writeComp s n c =
    ringVector (modRing (entryWritten s n r.cqTail.toNat c) n fun r => { r with cqTail := r.cqTail + 1 }) n := by
  unfold writeComp
  simp only [hr]
  rfl

/-- The ring moves past an entry written. -/
theorem writeComp_moves (hr : mget s.rings n = some r) : Keeps [.rings, .wire] (entryWritten s n r.cqTail.toNat c) (writeComp s n c) :=
  writeComp_eq hr ▸ ringVector_keeps (by decide) (modRing_keeps (by decide) (.refl _ _))

theorem writeComp_rings (hr : mget s.rings n = some r) (h : EntryOpen s n r.cqTail.toNat) :
    (∃ b, mget (writeComp s n c).rings n = some { r with cqTail := r.cqTail + 1, armed := b }) ∧
      SameRingsBut s (writeComp s n c) n := by
  have hw : (entryWritten s n r.cqTail.toNat c).rings = s.rings := (h.kept _ _).1.only .rings (by decide)
  have hm := mget_modRing_of (hw ▸ hr) fun r => { r with cqTail := r.cqTail + 1 }
  obtain ⟨hself, hothers⟩ := ringVector_ring hm
  rw [writeComp_eq hr]
  exact ⟨hself, fun m hne => (hothers m hne).trans ((mget_modRing_ne _ _ hne).trans (by rw [hw]))⟩

theorem writeComp_kept (hr : mget s.rings n = some r) (h : EntryOpen s n r.cqTail.toNat) :
    Keeps [.boot, .pkg, .lds, .mem, .coh, .rings, .covs, .life, .log, .wire] s (writeComp s n c) :=
  (writeComp_moves hr).step ((h.kept _ _).1.step (.refl _ _) (by decide)) (by decide)

/-- With its only owed completion written, a ring owes nothing, and what has no completion left to come is gone. -/
theorem flush_one (hr : mget s.rings n = some r) (h : EntryOpen s n r.cqTail.toNat) {id : Nat} (ho : r.owed = [(id, [c])])
    (hs : r.stopped = none) : flush s n = reap (modRing (writeComp s n c) n fun r => { r with owed := [] }) n := by
  obtain ⟨⟨b, hself⟩, -⟩ := writeComp_rings (c := c) hr h
  have hm := mget_modRing_of hself fun r => { r with owed := [] }
  have hk := writeComp_kept (c := c) hr h
  have hhomes := homes_congr ((Steady.refl none s).writeComp (n := n) (c := c)) hk.grows.chip
    (lineOf (compAddr s n r.cqTail.toNat))
  have hhosts : HostsKept s (writeComp s n c) := (h.kept _ _).2.keep (writeComp_moves hr)
  have hfilt : (writeComp s n c).coh.filt = s.coh.filt := congrArg Prod.fst hhosts
  have htxns : (writeComp s n c).coh.txns = s.coh.txns := congrArg Prod.snd hhosts
  have hneed : needLine (modRing (writeComp s n c) n fun r => { r with owed := [] }) (lineOf (compAddr s n r.cqTail.toNat)) false =
      none := by
    refine needLine_unheld fun x hx => ?_
    rw [modRing_coh, hfilt, htxns]
    exact h.unheld x (hhomes ▸ hx)
  unfold flush
  simp only [hr, ho, flushList_one hr h]
  rw [show [lineOf (compAddr s n r.cqTail.toNat)].eraseDups = [lineOf (compAddr s n r.cqTail.toNat)] from rfl, List.foldl_cons,
    List.foldl_nil, hneed, Option.getD_none]
  exact poisonedEvent_running (mget_modRing_of hm _) hs

/-- A ring whose only owed completion has been written. -/
def ringFlushed (r : Ring) (armed : Bool) : Ring :=
  { r with cqTail := r.cqTail + 1, armed := armed, owed := [], subs := r.subs.filter fun v => v.members != 0 }

theorem flush_one_rings (hr : mget s.rings n = some r) (h : EntryOpen s n r.cqTail.toNat) {id : Nat} (ho : r.owed = [(id, [c])])
    (hs : r.stopped = none) : (∃ b, mget (flush s n).rings n = some (ringFlushed r b)) ∧ SameRingsBut s (flush s n) n := by
  obtain ⟨⟨b, hself⟩, hothers⟩ := writeComp_rings (c := c) hr h
  have hreap := mget_modRing_of (mget_modRing_of hself fun r => { r with owed := [] }) fun r =>
    { r with subs := r.subs.filter fun v => v.members != 0 || r.owed.any fun e => e.1 == v.id }
  simp only [List.any_nil, Bool.or_false] at hreap
  rw [flush_one hr h ho hs]
  exact ⟨⟨b, hreap⟩, fun m hne => (mget_modRing_ne _ _ hne).trans ((mget_modRing_ne _ _ hne).trans (hothers m hne))⟩

theorem flush_one_moves (hr : mget s.rings n = some r) (h : EntryOpen s n r.cqTail.toNat) {id : Nat} (ho : r.owed = [(id, [c])])
    (hs : r.stopped = none) : Keeps [.rings, .wire] (entryWritten s n r.cqTail.toNat c) (flush s n) :=
  flush_one hr h ho hs ▸ reap_keeps (by decide) (modRing_keeps (by decide) (writeComp_moves hr))

theorem flush_one_kept (hr : mget s.rings n = some r) (h : EntryOpen s n r.cqTail.toNat) {id : Nat} (ho : r.owed = [(id, [c])])
    (hs : r.stopped = none) : Only [.boot, .pkg, .lds, .mem, .coh, .rings, .covs, .life, .log, .wire] s (flush s n) :=
  (((h.kept _ _).1.step (.refl _ _) (by decide)).trans
    ((flush_one_moves hr h ho hs).step (.refl _ _) (by decide))).only

/-- What the device then reads. -/
theorem flush_one_reads (hr : mget s.rings n = some r) (h : EntryOpen s n r.cqTail.toNat) {id : Nat} (ho : r.owed = [(id, [c])])
    (hs : r.stopped = none) (hw : Memory.wf s.mem.bytes = true) (x : Nat) : devRead (flush s n) x 1 =
      if compAddr s n r.cqTail.toNat ≤ x ∧ x < compAddr s n r.cqTail.toNat + 16
      then compNat c (phaseOf s n r.cqTail.toNat) / 256 ^ (x - compAddr s n r.cqTail.toNat) % 256 else devRead s x 1 := by
  obtain ⟨hfresh, hbytes⟩ := h.written hw (ringSeat s n) (compNat c (phaseOf s n r.cqTail.toNat))
  have hview := Views.of_keeps (flush_one_moves hr h ho hs) (by decide)
  rw [hview.devRead hfresh]
  exact hbytes x

/-! The finish -/

/-- A one-completion submission that has its completion ready goes, and every other stays. -/
theorem filter_of_ended {l : List Sub} (hu : u.members = 1) (hl : ∀ v ∈ l, v.members ≠ 0 ∧ (v.id = u.id → v = u)) (d : Nat) :
    ((l.map fun v => if v.id = u.id then { v with reserve := v.reserve - d } else v).map fun v =>
        if v.id = u.id then { v with members := v.members - 1 } else v).filter (fun v => v.members != 0) =
      l.filter fun v => v.id != u.id := by
  induction l with
  | nil => rfl
  | cons v l ih =>
    obtain ⟨hne, hid⟩ := hl v List.mem_cons_self
    have ih := ih fun x hx => hl x (List.mem_cons_of_mem _ hx)
    by_cases h : v.id = u.id
    · have hm : v.members = 1 := by rw [hid h]; exact hu
      simpa [h, hm] using ih
    · simpa [h, hne] using ih

/-- The state in which a submission's last completion is owed. -/
def endOwed (s : State) (n : Nat) (u : Sub) (c : Comp) : State := endMember (pushComp s n u.id c) n u.id

/-- The ring in which a submission's last completion is owed, where it owed none. -/
def ringOwed (r : Ring) (u : Sub) (c : Comp) : Ring :=
  { r with
    owed := [(u.id, [c])]
    subs := (r.subs.map fun v => if v.id = u.id then { v with reserve := v.reserve - 1 } else v).map fun v =>
      if v.id = u.id then { v with members := v.members - 1 } else v }

theorem endOwed_eq (s : State) (n : Nat) (u : Sub) (c : Comp) : endOwed s n u c = { s with rings := (endOwed s n u c).rings } := rfl

theorem mget_endOwed (hr : mget s.rings n = some r) (ho : r.owed = []) :
    mget (endOwed s n u c).rings n = some (ringOwed r u c) ∧ SameRingsBut s (endOwed s n u c) n := by
  have h1 := mget_modRing_of hr fun r => { r with
    owed := r.owed ++ [(u.id, [c])]
    subs := r.subs.map fun v => if v.id = u.id then { v with reserve := v.reserve - 1 } else v }
  have h2 := mget_modRing_of h1 fun r => { r with
    subs := r.subs.map fun v => if v.id = u.id then { v with members := v.members - 1 } else v }
  refine ⟨h2.trans ?_, fun m hne => (mget_modRing_ne _ _ hne).trans (mget_modRing_ne _ _ hne)⟩
  rw [ho]
  rfl

/-- What the finish of a one-completion submission leaves, where nothing holds the next entry up. -/
theorem finish_writes {st : BitVec 8} {data : Word64} (hs : Sound s) (h : EntryFree s n r) (hr : r.stopped = none)
    (hu : u.members = 1) (hl : ∀ v ∈ r.subs, v.members ≠ 0 ∧ (v.id = u.id → v = u)) :
    (∀ i < 16, devRead (finish s n u st data) (compAddr s n r.cqTail.toNat + i) 1 =
      compNat (finalComp u.tag st 0 0 data) (r.cqTail.toNat / 2 ^ (compRing s n).2 % 2 == 0) / 256 ^ i % 256) ∧
    SameReadsBut s (finish s n u st data) (compAddr s n r.cqTail.toNat) 16 ∧
    (∃ r', mget (finish s n u st data).rings n = some r' ∧ r'.cqTail = r.cqTail + 1 ∧ r'.owed = [] ∧
      r'.subs = r.subs.filter (fun v => v.id != u.id) ∧ r'.sqHead = r.sqHead ∧ r'.sqTail = r.sqTail ∧
      r'.cqHead = r.cqHead ∧ r'.holder = r.holder) ∧
    SameRingsBut s (finish s n u st data) n ∧
    Only [.boot, .pkg, .lds, .mem, .coh, .rings, .covs, .life, .log, .wire] s (finish s n u st data) := by
  have hfin : finish s n u st data = flush (endOwed s n u (finalComp u.tag st 0 0 data)) n := rfl
  generalize finalComp u.tag st 0 0 data = c at hfin ⊢
  rw [hfin]
  obtain ⟨hself, hothers⟩ := mget_endOwed (u := u) (c := c) h.ring h.owed
  have hopen : EntryOpen (endOwed s n u c) n (ringOwed r u c).cqTail.toNat := (entryOpen_of_free h).congr h.ring hself rfl rfl
  have haddr : compAddr (endOwed s n u c) n r.cqTail.toNat = compAddr s n r.cqTail.toNat := compAddr_congr h.ring hself rfl _
  have hphase : phaseOf (endOwed s n u c) n r.cqTail.toNat = phaseOf s n r.cqTail.toNat := by
    unfold phaseOf
    rw [show compRing (endOwed s n u c) n = compRing s n from compRing_congr h.ring hself rfl]
  have howed : Keeps [.rings] s (endOwed s n u c) := modRing_keeps (by decide) (modRing_keeps (by decide) (.refl _ _))
  have hread (x : Nat) : devRead (flush (endOwed s n u c) n) x 1 =
      if compAddr s n r.cqTail.toNat ≤ x ∧ x < compAddr s n r.cqTail.toNat + 16
      then compNat c (phaseOf s n r.cqTail.toNat) / 256 ^ (x - compAddr s n r.cqTail.toNat) % 256 else devRead s x 1 := by
    have hx := flush_one_reads hself hopen rfl hr hs.mem x
    rw [(Views.of_keeps howed (by decide)).devRead (fresh_of_calm h.home)] at hx
    exact haddr ▸ hphase ▸ hx
  obtain ⟨⟨b, hring⟩, hkept⟩ := flush_one_rings hself hopen rfl hr
  refine ⟨fun i hi => ?_, fun x hx => ?_, ⟨_, hring, rfl, rfl, filter_of_ended hu hl 1, rfl, rfl, rfl, rfl⟩,
    fun m hne => (hkept m hne).trans (hothers m hne), ?_⟩
  · rw [hread, if_pos ⟨Nat.le_add_right _ _, Nat.add_lt_add_left hi _⟩, Nat.add_sub_cancel_left]
    rfl
  · rw [hread, if_neg (by omega)]
  · exact (howed.only.mono (by decide)).trans (flush_one_kept hself hopen rfl hr)

end

/-- Settles O9: the one owed completion is flushed into the next entry, and the submission goes. -/
theorem finishWritesOneCompletion : Obligations.FinishWritesOneCompletion := by
  unfold Obligations.FinishWritesOneCompletion
  intro s n r u st data hs h hr _ hu hl
  exact finish_writes hs h hr hu hl

end Sys2Proof.Machine
end

section
/-! A memory atomic reads, changes and writes one 64-bit word that its home owns (R107, R108, R252). First what a word reads, then what the
booking of the work leaves of it, then the operation. -/

namespace Sys2Proof.Machine
section
variable {s t : State} {n seat a hub op : Nat} {u : Sub}

/-! Words -/

/-- Numbers agree modulo 256 ^ n where their first n bytes do. -/
theorem mod_eq_of_bytes {v w : Nat} (h : ∀ i < n, v / 256 ^ i % 256 = w / 256 ^ i % 256) : v % 256 ^ n = w % 256 ^ n := by
  induction n with
  | zero => rw [Nat.pow_zero, Nat.mod_one, Nat.mod_one]
  | succ n ih => rw [Nat.mod_pow_succ, Nat.mod_pow_succ, ih fun i hi => h i (by omega), h n (by omega)]

/-- An aligned word lies in one line. -/
theorem devRead_word (ha : a % 8 = 0) :
    devRead s a 8 = (lineAt s (a / 64) (devHub s (a / 64))).toNat / 256 ^ (a % 64) % 256 ^ 8 := by
  unfold devRead
  simp only [if_neg (by decide : ¬ (8 : Nat) = 0)]
  rw [show (a + 8 + 63) / 64 - a / 64 = 1 by omega]
  simp only [List.range_one, List.foldl_cons, List.foldl_nil, Nat.add_zero, Nat.mul_zero, Nat.pow_zero, Nat.mul_one, Nat.zero_add]
  rw [show a - 64 * (a / 64) = a % 64 by omega]

/-- An aligned word reads as its eight bytes. -/
theorem devRead_word_of_bytes {v : Nat} (ha : a % 8 = 0) (h : ∀ i < 8, devRead s (a + i) 1 = v / 256 ^ i % 256) :
    devRead s a 8 = v % 256 ^ 8 := by
  rw [devRead_word ha]
  refine mod_eq_of_bytes fun i hi => ?_
  rw [← h i hi, devRead_one, show (a + i) / 64 = a / 64 by omega, show (a + i) % 64 = a % 64 + i by omega, Nat.pow_add,
    Nat.div_div_eq_div_mul]

/-! Media and the counting of an access -/

/-- A change of one key's value that keeps a measure, which an unlisted key has as 0, keeps its sum. -/
theorem foldl_measure_mput {α : Type} {m : SMap α} {k : Nat} {x d : α} {f : α → Nat} {q : Nat × α → Bool}
    (hq : ∀ e e' : Nat × α, e.1 = e'.1 → q e = q e') (hd : f d = 0) (hx : f x = f ((mget m k).getD d)) (acc : Nat) :
    ((mput m k x).filter q).foldl (fun n e => n + f e.2) acc = (m.filter q).foldl (fun n e => n + f e.2) acc := by
  have hnew (hm : mget m k = none) : f x = 0 := by rw [hx, hm]; exact hd
  induction m generalizing acc with
  | nil =>
    have h0 := hnew rfl
    rw [mput, List.filter_singleton]
    cases hk : q (k, x)
    · rfl
    · exact congrArg (acc + ·) h0
  | cons e m ih =>
    obtain ⟨b, v⟩ := e
    have hcons (w : α) (l : List (Nat × α)) (z : Nat) : (((b, w) :: l).filter q).foldl (fun n e => n + f e.2) z =
        (l.filter q).foldl (fun n e => n + f e.2) (z + if q (b, v) then f w else 0) := by
      rw [List.filter_cons, hq (b, w) (b, v) rfl]
      cases q (b, v) <;> rfl
    by_cases hkb : k = b
    · subst hkb
      have hv : f x = f v := by simpa [mget] using hx
      rw [mput, if_pos rfl, hcons, hcons, hv]
    · by_cases hlt : k < b
      · have h0 : f x = 0 := hnew (by rw [mget, if_neg hkb, if_pos hlt])
        rw [mput, if_neg hkb, if_pos hlt, List.filter_cons]
        split
        · rw [List.foldl_cons, h0, Nat.add_zero]
        · rfl
      · have hget : mget ((b, v) :: m) k = mget m k := by rw [mget, if_neg hkb, if_neg hlt]
        rw [mput, if_neg hkb, if_neg hlt, hcons, hcons]
        exact ih (hget ▸ hx) _ fun hm => hnew (hget.trans hm)

theorem consumedHub_setPage {page x : Nat} {p : Page} (hp : p.st = (pageAtHub s page hub).st) :
    consumedHub (setPage s page hub p) x = consumedHub s x := by
  refine foldl_measure_mput (d := pageReset) (f := mediaOf) (fun e e' he => ?_) rfl ?_ 0
  · exact congrArg (fun k => k % 2 == x) he
  · have hm : mediaOf p = mediaOf (pageAtHub s page hub) := by unfold mediaOf; rw [hp]
    exact hm

theorem pageAtHub_setPage {page line x : Nat} {p : Page} (hp : p.st = (pageAtHub s page hub).st) :
    (pageAtHub (setPage s page hub p) line x).st = (pageAtHub s line x).st := by
  have hget : mget (setPage s page hub p).mem.pages (hkey line x) =
      if hkey line x = hkey page hub then some p else mget s.mem.pages (hkey line x) := mget_mput ..
  unfold pageAtHub at hp ⊢
  rw [hget]
  split
  · next he =>
    rw [he]
    exact hp
  · rfl

/-- A change of a page that leaves its state leaves the free media. -/
theorem writeShort_setPage {page line : Nat} {p : Page} {zeros : Bool} (hp : p.st = (pageAtHub s page hub).st) :
    writeShort (setPage s page hub p) line zeros = writeShort s line zeros := by
  have hcap (x : Nat) : capU8At (setPage s page hub p) x = capU8At s x := by
    unfold capU8At
    rw [consumedHub_setPage hp, consumedHub_setPage hp, consumedHub_setPage hp]
    rfl
  have hneed (x : Nat) : mediaNeed (setPage s page hub p) line x zeros = mediaNeed s line x zeros := by
    unfold mediaNeed
    rw [pageAtHub_setPage hp]
  have hshort (x : Nat) : mediaShort (setPage s page hub p) x (mediaNeed (setPage s page hub p) line x zeros) =
      mediaShort s x (mediaNeed s line x zeros) := by
    unfold mediaShort
    rw [hcap, hneed]
    rfl
  unfold writeShort
  simp only [hshort]
  rfl

/-! A word that may be written -/

/-- A word whose line a device write finds as it must be: its key present, no error, no poison, and media there. -/
structure WordOpen (s : State) (a : Nat) : Prop where
  wf : Memory.wf s.mem.bytes = true
  fresh : Fresh s
  keyed : keyAbsent s (64 * (a / 64)) = false
  errors : s.coh.damage = [] ∧ s.mem.damage = [] ∧ s.mem.badMap = [] ∧ s.coh.spec = []
  media : ∀ zeros, writeShort s (a / 64) zeros = false
  clean : poisonedAt s (a / 64) (devHub s (a / 64)) = false

/-- What a charge leaves of a word. -/
theorem WordOpen.charged (h : WordOpen s a) (ht : Only [.seats, .rings, .tally] s t) :
    WordOpen t a ∧ ∀ k, devRead t k 1 = devRead s k 1 := by
  have hview : Views s t := by
    have he := eq_of_only_charges ht
    generalize t.seats = x, t.rings = y, t.tally = z at he
    subst he
    exact Views.of rfl rfl rfl rfl rfl rfl rfl rfl rfl
  have hword : WordOpen t a := by
    have he := eq_of_only_charges ht
    generalize t.seats = x, t.rings = y, t.tally = z at he
    subst he
    exact ⟨h.wf, hview.fresh h.fresh, h.keyed, h.errors, h.media, h.clean⟩
  exact ⟨hword, fun k => hview.devRead h.fresh k⟩

/-- What the counting of an access leaves of a word. -/
theorem WordOpen.counted (h : WordOpen s a) (page : Nat) (read : Bool) :
    WordOpen (countAccess s page hub read) a ∧ ∀ k, devRead (countAccess s page hub read) k 1 = devRead s k 1 := by
  have hview := countAccess_views s page hub read
  refine ⟨⟨hview.wf h.fresh h.wf, hview.fresh h.fresh, h.keyed, h.errors, fun zeros => ?_, h.clean⟩,
    fun k => hview.devRead h.fresh k⟩
  have hshort : writeShort (countAccess s page hub read) (a / 64) zeros = writeShort s (a / 64) zeros := by
    unfold countAccess
    exact writeShort_setPage rfl
  exact hshort.trans (h.media zeros)

/-- A write of an aligned word that may be written leaves the word, and every other byte as it was. -/
theorem WordOpen.written (h : WordOpen s a) (ha : a % 8 = 0) {v : Nat} (hv : v < 256 ^ 8) (who : Nat) :
    devRead (devWrite s who a v 8) a 8 = v ∧ SameReadsBut s (devWrite s who a v 8) a 8 := by
  obtain ⟨-, hbytes⟩ := devWrite_reads (who := who) (v := v) (n := 8) h.fresh h.wf h.keyed (by decide) (by omega) h.errors h.media
    (.inr h.clean)
  refine ⟨?_, fun k hk => ?_⟩
  · rw [devRead_word_of_bytes (v := v) ha, Nat.mod_eq_of_lt hv]
    intro i hi
    rw [hbytes, if_pos ⟨Nat.le_add_right _ _, Nat.add_lt_add_left hi _⟩, Nat.add_sub_cancel_left]
  · rw [hbytes, if_neg (by omega)]

/-! The operation -/

/-- A copy is checked for nothing where no error stands. -/
theorem checkLine_undamaged (h : s.coh.damage = []) (line : Nat) : checkLine s line hub = s := by
  have hcopy (x : Nat) (dirty : Bool) : checkCopy s line hub x dirty = s := by
    unfold checkCopy
    rw [h]
    rfl
  unfold checkLine
  simp only [hcopy]
  exact List.foldlRecOn (motive := fun t => t = s) _ _ rfl fun t ht x _ => by rw [ht, hcopy]

/-- The state of an atomic that is charged, before its write. -/
def atomicCharged (s : State) (hub a c : Nat) : State := countAccess (bookOp s (2 + hub) c) (a / 64 / 64) hub false

theorem atomicNow_eq {s2 : State} (hd : s.coh.damage = []) (hp : devPoison s (a / 64) = false) (hm : writeShort s (a / 64) false = false)
    (hs : admitKnown (startSub s n u.id 1) seat (opCost s opAtomic 0 + opCost s opDispatch 0) = some s2) :
    atomicNow s n u seat a hub =
      match atomicNew u.op (devRead s a 8) (field u.bytes 16 8) (field u.bytes 24 8) with
      | some v => finish (devWrite (atomicCharged s2 hub a (opCost s opAtomic 0 + opCost s opDispatch 0)) seat a v 8) n u stAtomicDone
          (BitVec.ofNat 64 (devRead s a 8))
      | none => finish (atomicCharged s2 hub a (opCost s opAtomic 0 + opCost s opDispatch 0)) n u stCmpFail
          (BitVec.ofNat 64 (devRead s a 8)) := by
  unfold atomicNow lineOf
  simp only [checkLine_undamaged hd, hp, hm, hs, Bool.and_false, Bool.false_eq_true, if_false]
  rfl

/-- The new value of an atomic fits its word. -/
theorem atomicNew_some {old opnd cmpv : Nat} (hop : op = 0x21 ∨ op = 0x22 ∨ op = 0x23) (h : ¬ (op = 0x23 ∧ old ≠ cmpv)) :
    atomicNew op old opnd cmpv = some (if op = 0x21 then (old + opnd) % 2 ^ 64 else opnd) := by
  unfold atomicNew
  rcases hop with rfl | rfl | rfl
  · rfl
  · rfl
  · have heq : old = cmpv := by simpa using h
    simp [heq]

theorem atomicNew_none {old opnd cmpv : Nat} (hop : op = 0x23) (h : old ≠ cmpv) : atomicNew op old opnd cmpv = none := by
  subst hop
  unfold atomicNew
  simp [h]

theorem atomicCharged_word {s2 : State} {c1 c2 : Nat} (h : WordOpen s a) (hs : admitKnown (startSub s n u.id 1) seat c1 = some s2) :
    WordOpen (atomicCharged s2 hub a c2) a ∧ ∀ k, devRead (atomicCharged s2 hub a c2) k 1 = devRead s k 1 := by
  have honly : Only [.seats, .rings, .tally] s (bookOp s2 (2 + hub) c2) :=
    (bookOp_keeps (by decide) (admitKnown_keeps (by decide) hs (startSub_keeps (by decide) (.refl _ _)))).only
  obtain ⟨hword, hread⟩ := h.charged honly
  obtain ⟨hcount, hsame⟩ := hword.counted (hub := hub) (a / 64 / 64) false
  exact ⟨hcount, fun k => (hsame k).trans (hread k)⟩

/-- An atomic whose word's home owns the line, with nothing in its way. -/
theorem atomicNow_acts {s2 : State} (hop : u.op = 0x21 ∨ u.op = 0x22 ∨ u.op = 0x23) (ha : a % 8 = 0) (hsound : Sound s) (hcalm : Calm s)
    (hk : keyAbsent s a = false) (hp : devPoison s (a / 64) = false) (hm : writeShort s (a / 64) false = false)
    (hs : admitKnown (startSub s n u.id 1) seat (opCost s opAtomic 0 + opCost s opDispatch 0) = some s2) :
    ∃ m, (u.op = 0x23 ∧ devRead s a 8 ≠ field u.bytes 24 8 →
        atomicNow s n u seat a hub = finish m n u stCmpFail (BitVec.ofNat 64 (devRead s a 8)) ∧ SameReadsBut s m 0 0) ∧
      (¬ (u.op = 0x23 ∧ devRead s a 8 ≠ field u.bytes 24 8) →
        atomicNow s n u seat a hub = finish m n u stAtomicDone (BitVec.ofNat 64 (devRead s a 8)) ∧ SameReadsBut s m a 8 ∧
        devRead m a 8 = if u.op = 0x21 then (devRead s a 8 + field u.bytes 16 8) % 2 ^ 64 else field u.bytes 16 8) := by
  have hclean : poisonedAt s (a / 64) (devHub s (a / 64)) = false := (Bool.or_eq_false_iff.1 hp).1
  have hword : WordOpen s a := ⟨hsound.mem, fresh_of_calm hcalm, (keyAbsent_lineOf s a).trans hk,
    ⟨hcalm.errors.1, hcalm.errors.2.1, hcalm.errors.2.2, hcalm.marked⟩, writeShort_of_part hm, hclean⟩
  have heq := atomicNow_eq (hub := hub) hcalm.errors.1 hp hm hs
  obtain ⟨hopen, hsame⟩ := atomicCharged_word (hub := hub) (c2 := opCost s opAtomic 0 + opCost s opDispatch 0) hword hs
  by_cases h : u.op = 0x23 ∧ devRead s a 8 ≠ field u.bytes 24 8
  · rw [atomicNew_none h.1 h.2] at heq
    exact ⟨_, fun _ => ⟨heq, fun k _ => hsame k⟩, fun hn => absurd h hn⟩
  · have hlt : (if u.op = 0x21 then (devRead s a 8 + field u.bytes 16 8) % 2 ^ 64 else field u.bytes 16 8) < 256 ^ 8 := by
      split
      · exact Nat.mod_lt _ (by decide)
      · exact Nat.mod_lt _ (by decide)
    rw [atomicNew_some hop h] at heq
    obtain ⟨hnew, hothers⟩ := hopen.written ha hlt seat
    exact ⟨_, fun hn => absurd hn h, fun _ => ⟨heq, fun k hk => (hothers k hk).trans (hsame k), hnew⟩⟩

/-! The command -/

theorem nextSub_op (h : nextSub s n op = some (u, seat)) : u.op = op := by
  obtain ⟨v, -, hv⟩ := Option.bind_eq_some_iff.1 h
  split at hv
  · next ho =>
    obtain ⟨_, -, he⟩ := Option.map_eq_some_iff.1 hv
    cases he
    exact ho
  · cases hv

/-- An atomic command runs the next submission of its ring as an atomic of its opcode. -/
theorem exec_atomic {ring : BitVec 10} {c : Instr}
    (hc : (c = .fetchAdd ring ∧ op = 0x21) ∨ (c = .swap ring ∧ op = 0x22) ∨ (c = .cmpSwap ring ∧ op = 0x23))
    (hn : nextSub s ring.toNat op = some (u, seat)) (hd : dispatches s ring.toNat = true) :
    exec c s = .next (atomic s ring.toNat u seat) := by
  have hrun : runAtomic s ring.toNat op = atomic s ring.toNat u seat := by
    unfold runAtomic
    rw [hn]
    exact if_pos hd
  rcases hc with ⟨rfl, rfl⟩ | ⟨rfl, rfl⟩ | ⟨rfl, rfl⟩
  · exact congrArg Host.Outcome.next hrun
  · exact congrArg Host.Outcome.next hrun
  · exact congrArg Host.Outcome.next hrun

/-- An atomic that passes its checks, at a word that no host holds at another home, takes the line first. -/
theorem atomic_takes (hdet : detaching s seat = false) (ht : atomicTarget s seat (field u.bytes 8 8) = (a, none))
    (hk : keyAbsent s a = false) (hcut : homeCut s (compHub s n) (a / 64) = false)
    (hserve : hubServes s (devHub s (a / 64)) = true) (hneed : needOthers s (a / 64) (devHub s (a / 64)) = none) :
    atomic s n u seat =
      if (homeTakes s (a / 64) (devHub s (a / 64))).2 then
        atomicNow (homeTakes s (a / 64) (devHub s (a / 64))).1 n u seat a (devHub s (a / 64))
      else askedSub (homeTakes s (a / 64) (devHub s (a / 64))).1 n u.id := by
  unfold atomic lineOf
  simp only [hdet, ht, hk, hcut, hserve, hneed, Bool.false_and, Bool.false_eq_true, if_false, Bool.not_true]

theorem homeTakes_of_owns {line : Nat} (h : homeOwns s line hub = true) : homeTakes s line hub = (s, true) := by
  unfold homeTakes
  simp only [h, Bool.true_or, if_true]

end

/-- Settles O25: the line is taken first; once the home owns it, the word is read, changed and written, or compares otherwise and stays. -/
theorem atomicsAreReadModifyWrite : Obligations.AtomicsAreReadModifyWrite := by
  unfold Obligations.AtomicsAreReadModifyWrite
  intro s ring u seat a op c n line hub hc hn hd hdet ht ha hk hcut hserve hneed s1
  have hrun := exec_atomic hc hn hd
  rw [atomic_takes hdet ht hk hcut hserve hneed] at hrun
  have hu : u.op = op := nextSub_op hn
  have hop : u.op = 0x21 ∨ u.op = 0x22 ∨ u.op = 0x23 := hu ▸ hc.imp And.right (Or.imp And.right And.right)
  refine ⟨fun h => ?_, fun h => ?_, fun h hsound hcalm hkey hp hm s2 hs => ?_⟩
  · have htakes := homeTakes_of_owns h
    exact ⟨congrArg Prod.fst htakes, congrArg Prod.snd htakes⟩
  · rw [hrun, if_neg (by rw [h]; decide)]
  · rw [if_pos h] at hrun
    obtain ⟨m, hfail, hdone⟩ := atomicNow_acts (hub := hub) hop ha hsound hcalm hkey hp hm hs
    rw [hu] at hfail hdone
    refine ⟨m, fun hf => ?_, fun hf => ?_⟩
    · obtain ⟨he, hreads⟩ := hfail hf
      exact ⟨hrun.trans (congrArg Host.Outcome.next he), hreads⟩
    · obtain ⟨he, hreads⟩ := hdone hf
      exact ⟨hrun.trans (congrArg Host.Outcome.next he), hreads⟩

end Sys2Proof.Machine
end

section
/-! Three statements about rings that do not hold. A state after start-up with one host, one seat and one ring is given for each, and the
model's command is run on it (R98, R99, R112). -/

namespace Sys2Proof.Machine

/-! One host and its ring -/

/-- What the state of a command's answer shows. -/
def answered {α : Type} (f : State → α) : Res → Option α
  | .next t => some (f t)
  | _ => none

theorem answered_next {α : Type} {f : State → α} {o : Res} {t : State} (h : o = .next t) : answered f o = some (f t) := by rw [h]; rfl

/-- A host's port whose first link is up in CXL mode. -/
def hostPort : Port := ⟨0, .up, { linkReset with up := true, cxl := true } :: List.replicate 3 linkReset⟩

/-- An extent of seat 0 under a key slot, or under none. -/
def seatExtent (key : Option Nat) : Extent :=
  { seats := [⟨0, true, true⟩], db := true, key := key, policy := 0, keyLost := false, granted := true }

/-- A part in whole mode after start-up: a host at place 0 with seat 0 and extent 0, and its ring 0 with 64 entries each way: submissions
at an address, completions at 0x20000 and doorbells at 0x30000. -/
def oneRing (ctl stat sqLow sqHigh : Word) (r : Ring) : State :=
  { State.reset with
    boot := { State.reset.boot with stage := 0x0B }
    pkg := { State.reset.pkg with half := [.serving, .serving] }
    ports := hostPort :: List.replicate 5 ⟨0, .up, List.replicate 4 linkReset⟩
    lds := [(0, { ldReset with seat := some 0 })]
    seats := [(0, seatNew 0)]
    extents := [(0, seatExtent none)]
    mem := { memReset with phys := [1000, 1000] }
    rings := [(0, r)]
    log := { State.reset.log with scanned := true }
    regs := { regsReset with file := [(ringPage 0 + 8, ctl), (ringPage 0 + 0xC, stat), (ringPage 0 + 0x40, 0x0606),
      (ringPage 0 + 0x50, sqLow), (ringPage 0 + 0x54, sqHigh), (ringPage 0 + 0x64, 2), (ringPage 0 + 0x74, 3)] } }

theorem calm_oneRing {s : State} {ctl stat sqLow sqHigh : Word} {r : Ring} {c : Coh} {e : SMap Extent}
    (hs : s = { oneRing ctl stat sqLow sqHigh r with coh := c, extents := e }) (hd : c.damage = []) (hp : c.spec = []) : Calm s := by
  subst hs
  exact { primary := (fun h => nomatch h)
          keys := (fun _ _ _ _ _ h => nomatch h)
          errors := And.intro hd (And.intro rfl rfl)
          marked := hp }

/-! A submission slot that is not aligned -/

/-- A ring with one submission to fetch, and no completion entry free for it. -/
def fullRing : Ring := { ringNew 0 0 with sqTail := 1, cqTail := 64 }

/-- The submission ring begins 16 bytes before the end of extent 0: its first slot reaches into extent 1, whose key is absent. -/
def slotAstride : State :=
  { oneRing 1 4 0xFFF0 0x0FFF fullRing with coh := cohReset, extents := [(0, seatExtent none), (1, seatExtent (some 0))] }

/-- The slot's read finds the absent key, and KEY_ABSENT marks the extent, before the reservation is looked at. -/
theorem slotAstride_fetch_loses_key : answered (fun t => (mget t.extents 1).map (·.keyLost)) (exec (.submissionFetch 0) slotAstride) =
    some (some true) := by decide +kernel

theorem slotAstride_slots : slotsOf (devRead slotAstride (slotAddr slotAstride 0 0) 1) = 1 := by decide +kernel

theorem slotAstride_tail : needTail slotAstride 0 0 (slotsOf (devRead slotAstride (slotAddr slotAstride 0 0) 1)) = none := by
  rw [slotAstride_slots]
  rfl

theorem slotAstride_clean : slotCut slotAstride 0 0 = false ∧ slotPoison slotAstride 0 0 = false := by decide

/-- Refutes O10: a fetch for which too few completion entries are free still reads its slot's bytes, and where a slot that is not
aligned reaches into an extent whose key is absent, that read raises KEY_ABSENT and marks the extent. R98 enables no ring at such a
base, and the statement does not ask that the base is aligned. -/
theorem not_fetchTakesTheNextSubmission : ¬ Obligations.FetchTakesTheNextSubmission := by
  unfold Obligations.FetchTakesTheNextSubmission
  intro h
  obtain ⟨cut, poison⟩ := slotAstride_clean
  have one : ∀ {f : Nat → Bool}, f 0 = false → ∀ i < slotsOf (devRead slotAstride (slotAddr slotAstride 0 0) 1), f i = false := by
    intro f h0 i hi
    rw [slotAstride_slots, Nat.lt_one_iff] at hi
    rw [hi, h0]
  obtain ⟨short, -⟩ := h slotAstride 0 fullRing rfl (by decide) (by decide) (calm_oneRing rfl rfl rfl) cut (one cut) rfl
    slotAstride_tail poison (one poison)
  have stays := short (.inr (by decide +kernel))
  have lost := slotAstride_fetch_loses_key
  rw [answered_next stays] at lost
  exact nomatch lost

/-! A filter entry that cannot be -/

/-- A ring to be enabled, where the first line of its completion ring has an entry in the filter whose CHECK field fails. -/
def badEntry : State :=
  { oneRing 0 0 0 1 (ringNew 0 0) with
    coh := { cohReset with filt := [(4096, ⟨false, [0], false, [], 0, true⟩)] }, extents := [(0, seatExtent none)] }

/-- Dropping the engines' copies of the ring's lines looks the entry up and reports it. -/
theorem badEntry_enable_logs : answered (fun t => t.log.next) (exec (.ringEnable 0 0 0x00010001) badEntry) = some 17 := by
  decide +kernel

/-- Refutes O11: at an enable the filter entry of a line of the ring may be found bad, and COH_ENTRY_CHECK is then logged, though no
damage to a directory is pending. -/
theorem not_ringEnableChecksTheConfiguration : ¬ Obligations.RingEnableChecksTheConfiguration := by
  unfold Obligations.RingEnableChecksTheConfiguration
  intro h
  obtain ⟨t, ran, -, -, passes, -⟩ := h.1 badEntry 0 0 0x00010001 37748744 ⟨.ring, 255, 1024, 0⟩ (ringNew 0 0) (by decide +kernel)
    rfl rfl (by decide) (by decide) (by decide)
  obtain ⟨-, calm, -⟩ := passes (by decide +kernel)
  have same : t.log = badEntry.log := (calm rfl).1 .log (by decide)
  have logs := badEntry_enable_logs
  rw [answered_next ran, same] at logs
  exact absurd logs (by decide)

/-! An engine's copy of a line of the completion ring -/

/-- An enabled ring that is not ready, where compression engine 8 holds the first line of its completion ring. -/
def engineHolds : State :=
  { oneRing 1 0 0 1 (ringNew 0 0) with
    coh := { cohReset with copies := [(32 * 4096 + 8, .e)], dir := [(4096, ⟨.x, 8, 256, 0, false, []⟩)] }
    extents := [(0, seatExtent none)] }

/-- The home's Inv goes out to the engine. -/
theorem engineHolds_ready_sends : answered (fun t => t.wire.length) (exec (.ringReady 0) engineHolds) = some 1 := by decide +kernel

theorem engineHolds_sound : Sound engineHolds where
  mem := rfl
  hist := by decide
  circ := by decide
  fronds := rfl
  ports := rfl
  mode := by decide
  bootMode := by decide
  storeMode := by decide
  sel := by decide
  whole := by decide

/-- The completion ring lies in extent 0, which has no key. -/
theorem engineHolds_keyed (k : Nat) (h : k < ringBase engineHolds 0 0x60 + 16 * 2 ^ cqLog engineHolds 0) :
    keyAbsent engineHolds k = false := by
  rw [show ringBase engineHolds 0 0x60 + 16 * 2 ^ cqLog engineHolds 0 = 0x20000 + 1024 by decide] at h
  have first : extentAt engineHolds k = some (seatExtent none) := by
    unfold extentAt
    rw [show k / 2 ^ 28 = 0 by omega]
    rfl
  unfold keyAbsent
  rw [first]
  rfl

theorem engineHolds_media : MediaFor engineHolds (ringBase engineHolds 0 0x60) (16 * 2 ^ cqLog engineHolds 0) :=
  ⟨by decide +kernel, .inl (by decide)⟩

/-- Refutes O12: where an engine holds a line of the completion ring, zeroing it takes the copy by an Inv, which is sent: what was sent
does not stay as it was. -/
theorem not_ringReadyZeroesTheCompletionRing : ¬ Obligations.RingReadyZeroesTheCompletionRing := by
  unfold Obligations.RingReadyZeroesTheCompletionRing
  intro h
  obtain ⟨-, ready⟩ := h engineHolds 0 (ringNew 0 0) engineHolds_sound (calm_oneRing rfl rfl rfl) rfl (by decide) (by decide) rfl rfl
    (by decide +kernel)
  obtain ⟨t, ran, -, -, -, -, -, -, only⟩ := ready (by decide +kernel) (by decide) (by decide) engineHolds_media
    fun k _ hk => engineHolds_keyed k hk
  have same : t.wire = engineHolds.wire := only .wire (by decide)
  have sent := engineHolds_ready_sends
  rw [answered_next ran, same] at sent
  exact absurd sent (by decide)

end Sys2Proof.Machine
end

section
/-! Memory and finite maps in canonical form: equal reads are equal lists (R198, R205). -/

namespace Sys2Proof.Machine

/-- Two maps whose keys rise are equal where they read alike. -/
theorem Rising.ext {α : Type} {lo lo' : Nat} {m n : SMap α} (hm : Rising lo m) (hn : Rising lo' n) (h : ∀ k, mget m k = mget n k) :
    m = n := by
  induction m generalizing n lo lo' with
  | nil =>
    cases n with
    | nil => rfl
    | cons e u => have := h e.1; simp [mget] at this
  | cons e t ih =>
    obtain ⟨a, v⟩ := e
    cases n with
    | nil => have := h a; simp [mget] at this
    | cons f u =>
      obtain ⟨b, w⟩ := f
      have below {c : Nat} {x : α} {r : SMap α} (hr : Rising (c + 1) r) {k : Nat} (hk : k < c) : mget ((c, x) :: r) k = none :=
        mget_lt (lo := c) ⟨Nat.le_refl c, hr⟩ hk
      have hab : a = b := by
        rcases Nat.lt_trichotomy a b with hlt | heq | hgt
        · have := h a; rw [below hn.2 hlt] at this; simp [mget] at this
        · exact heq
        · have := h b; rw [below hm.2 hgt] at this; simp [mget] at this
      subst hab
      have hvw : v = w := by simpa [mget] using h a
      subst hvw
      have tails : ∀ k, mget t k = mget u k := fun k => by
        by_cases hk : a < k
        · simpa [mget, Nat.ne_of_gt hk, Nat.not_lt_of_gt hk] using h k
        · rw [mget_lt hm.2 (by omega), mget_lt hn.2 (by omega)]
      rw [ih hm.2 hn.2 tails]

/-- In canonical memory a byte that is listed is not 0, so a read tells what is listed. -/
theorem mget_of_readMem {m n : List Host.Cell} {a : Nat} (hm : ∀ e ∈ m, e.2 ≠ 0) (hn : ∀ e ∈ n, e.2 ≠ 0)
    (h : readMem m a = readMem n a) : mget m a = mget n a := by
  unfold readMem at h
  rcases e : mget m a with _ | v <;> rcases f : mget n a with _ | w <;> simp only [e, f, Option.getD_none, Option.getD_some] at h
  · rfl
  · exact absurd h.symm (hn _ (mem_of_mget f))
  · exact absurd h (hm _ (mem_of_mget e))
  · rw [h]

/-- Canonical memories that read alike are the same list. -/
theorem wf_ext {m n : List Host.Cell} (hm : Memory.wf m = true) (hn : Memory.wf n = true) (h : ∀ a, readMem m a = readMem n a) :
    m = n := by
  obtain ⟨hm, zm⟩ := wfFrom_iff.1 hm
  obtain ⟨hn, zn⟩ := wfFrom_iff.1 hn
  exact hm.ext hn fun a => mget_of_readMem zm zn (h a)

/-- Settles O8: what a store leaves of memory's reads and form, and that the canonical form is fixed by the reads. -/
theorem memoryReadsWhatWasWritten : Obligations.MemoryReadsWhatWasWritten :=
  ⟨fun _ _ _ hm => ⟨(readMem_writeMem hm).trans (if_pos rfl), fun _ hk => (readMem_writeMem hm).trans (if_neg hk), writeMem_wf hm⟩,
    fun _ _ => wf_ext, fun _ => rfl⟩

end Sys2Proof.Machine
end

section
/-! A host's whole write clears one entry of the map of poisoned lines. The statement about host requests asks that the filter's keys
rise and not that the poison map's do: where that map lists the line twice, the line still reads as poison (R203, R283). -/

namespace Sys2Proof.Machine

/-- The first page of memory is PLAIN, and the map of poisoned lines lists line 0 twice. Its host reaches it through decoder 0. -/
def poisonedTwice : State :=
  { oneRing 0 0 0 0 (ringNew 0 0) with
    lds := [(0, { ldReset with
      bound := true
      memEn := true
      seat := some 0
      decoders := [⟨some { base := 0, size := 0x10000000, ways := 1, gran := 256, skip := 0, bi := true }, false⟩] })]
    rings := []
    mem := { memReset with phys := [1000, 1000], pages := [(0, { pageReset with st := .plain })], poison := [(0, false), (0, false)] } }

theorem poisonedTwice_sound : Sound poisonedTwice where
  mem := rfl
  hist := by decide
  circ := by decide
  fronds := rfl
  ports := rfl
  mode := by decide
  bootMode := by decide
  storeMode := by decide
  sel := by decide
  whole := by decide

theorem poisonedTwice_calm : Calm poisonedTwice where
  primary := (fun h => nomatch h)
  keys := (fun _ _ _ _ _ h => nomatch h)
  errors := ⟨rfl, rfl, rfl⟩
  marked := rfl

theorem poisonedTwice_reaches : hostAccess poisonedTwice 0 none 0 true = .ok 0 0 0 := by decide +kernel

theorem poisonedTwice_homes : homes poisonedTwice 0 = [0] := rfl

theorem poisonedTwice_clear (h : Nat) : LineClear poisonedTwice 0 h := ⟨rfl, nofun, nofun, fun _ _ => rfl, rfl, rfl⟩

/-- After a whole write that carries no poison the line is still listed. -/
theorem poisonedTwice_stays : answered (fun t => poisonedAt t 0 0) (exec (.cxlMemFullWrite ⟨0, none⟩ 0 0 false) poisonedTwice) =
    some true := by decide +kernel

/-- Refutes O35: a whole write removes a line's poison as a canonical map lists it, once; in a map that lists the line twice it stays
poisoned. -/
theorem not_hostMemoryRequests : ¬ Obligations.HostMemoryRequests := by
  unfold Obligations.HostMemoryRequests
  rintro ⟨-, write, -⟩
  have ready : ∀ h ∈ homes poisonedTwice 0, LineClear poisonedTwice 0 h ∧ ∀ n ∈ holders poisonedTwice 0 h, n = 0 :=
    fun h _ => ⟨poisonedTwice_clear h, nofun⟩
  obtain ⟨t, ran, -, -, -, cleared, -⟩ := write poisonedTwice 0 none 0 0 0 false true 0 0 0 poisonedTwice_sound poisonedTwice_calm
    List.Pairwise.nil poisonedTwice_reaches (by rw [poisonedTwice_homes]; exact List.mem_singleton_self 0) ready (by decide +kernel)
    (.inl (by decide +kernel)) (.inl rfl)
  obtain ⟨clean, -⟩ := cleared 0 (by rw [poisonedTwice_homes]; exact List.mem_singleton_self 0)
  have stays := poisonedTwice_stays
  rw [answered_next (if_pos rfl ▸ ran), clean] at stays
  exact absurd stays (by decide)

end Sys2Proof.Machine
end

section
/-! What serving memory leaves of the extents: each keeps its seats (R200, R207). While requests are served, answered and waited for, an
extent changes in one thing alone, that its absent key has been reported (R230). -/

namespace Sys2Proof.Machine
set_option Elab.async false

/-- Every extent stands for the seats it stood for, and the blocks stay in order. -/
structure ExtentsKept (k s : State) : Prop where
  seats : ∀ b, (mget s.extents b).map (fun e => e.seats) = (mget k.extents b).map fun e => e.seats
  rise : Rising 0 k.extents → Rising 0 s.extents

/-- The pieces that ExtentsKept does not speak of. -/
def besideExtents : List Piece :=
  [.pins, .boot, .pkg, .lds, .seats, .mem, .coh, .fronds, .rings, .searches, .jobs, .disp, .covs, .tally, .life, .log, .regs, .wire]

section
variable {k s t : State}

theorem ExtentsKept.refl (s : State) : ExtentsKept s s := ⟨fun _ => rfl, id⟩

theorem ExtentsKept.trans {u : State} (h : ExtentsKept s t) (g : ExtentsKept t u) : ExtentsKept s u :=
  ⟨fun b => (g.seats b).trans (h.seats b), fun r => g.rise (h.rise r)⟩

theorem ExtentsKept.ite {c : Prop} [Decidable c] (h : ExtentsKept k s) (g : ExtentsKept k t) : ExtentsKept k (if c then s else t) := by
  split <;> assumption

theorem ExtentsKept.foldl {α : Type} {f : State → α → State} {xs : List α} (h : ExtentsKept k s)
    (hf : ∀ u x, ExtentsKept k u → ExtentsKept k (f u x)) : ExtentsKept k (xs.foldl f s) := by
  induction xs generalizing s with
  | nil => exact h
  | cons x xs ih => exact ih (hf s x h)

/-- An update of other fields. -/
theorem ExtentsKept.same (h : ExtentsKept k s) (e : t.extents = s.extents := by rfl) : ExtentsKept k t :=
  h.trans ⟨fun b => by rw [e], fun r => e ▸ r⟩

/-- An operation of other pieces. -/
theorem ExtentsKept.keep (h : ExtentsKept k s) (e : Keeps besideExtents s t) : ExtentsKept k t := h.same (e.only .extents (by decide))

theorem ExtentsKept.raiseKeyAbsent (h : ExtentsKept k s) {a : Nat} : ExtentsKept k (raiseKeyAbsent s a) := by
  unfold Machine.raiseKeyAbsent
  split
  next e he =>
    refine .ite h (ExtentsKept.keep (h.trans ?_) (event_keeps (by decide) (.refl _ _)))
    refine ⟨fun b => ?_, fun r => r.mput _ (Nat.zero_le _)⟩
    dsimp only
    rw [mget_mput]
    split
    next hb => subst hb; exact (congrArg (Option.map fun e : Extent => e.seats) he).symm
    · rfl
  · exact h

/-! The device's own writes and completions -/

theorem ExtentsKept.writeDevLine (h : ExtentsKept k s) {who line v be : Nat} : ExtentsKept k (writeDevLine s who line v be) := by
  have hw {u : State} (g : ExtentsKept k u) : ExtentsKept k (homeWrite u line v be) := g.keep (homeWrite_keeps (by decide) (.refl _ _))
  have hr : ExtentsKept k (readIn s who (64 * line) 64) := h.keep (readIn_keeps (by decide) (.refl _ _))
  unfold Machine.writeDevLine
  exact .ite h.raiseKeyAbsent (.ite (hw h) (.ite hr (hw hr)))

theorem ExtentsKept.devWrite (h : ExtentsKept k s) {who a v n : Nat} : ExtentsKept k (devWrite s who a v n) := by
  unfold Machine.devWrite
  exact (h.foldl fun _ _ g => g.writeDevLine).keep (capCheck_keeps (by decide) (.refl _ _))

theorem ExtentsKept.writeComp (h : ExtentsKept k s) {n : Nat} {c : Comp} : ExtentsKept k (writeComp s n c) := by
  unfold Machine.writeComp
  split
  · exact h.devWrite.same.keep (ringVector_keeps (by decide) (.refl _ _))
  · exact h

theorem ExtentsKept.writeComps (h : ExtentsKept k s) {n : Nat} {cs : List Comp} {ls : List Nat} :
    ExtentsKept k (writeComps n cs s ls).1 := by
  induction cs generalizing s ls with
  | nil => exact h
  | cons c cs ih =>
    unfold Machine.writeComps
    dsimp only
    split
    · exact ih (h.keep (stopPoisoned_keeps (by decide) (.refl _ _)))
    · exact ih h.writeComp

/-- A need of a line touches no extent. -/
theorem ExtentsKept.needLine (h : ExtentsKept k s) {line : Nat} {sOk : Bool} : ExtentsKept k ((needLine s line sOk).getD s) :=
  h.keep (Keeps.getD (.refl _ _) fun _ e => needLine_keeps (by decide) e (.refl _ _))

theorem ExtentsKept.flushList (h : ExtentsKept k s) {n : Nat} {cs : List (Nat × List Comp)} {ls : List Nat} :
    ExtentsKept k (flushList n cs s ls).1 := by
  induction cs generalizing s ls with
  | nil => exact h
  | cons c cs ih =>
    unfold Machine.flushList
    dsimp only
    split
    · exact h
    · have hr := h.foldl (xs := stepLines s n c.2.length) (f := fun s l => readIn s (ringSeat s n) (64 * l) 64)
        fun _ _ g => g.keep (readIn_keeps (by decide) (.refl _ _))
      split
      · exact ih hr.writeComps
      · exact hr.foldl fun _ _ g => g.needLine

theorem ExtentsKept.flush (h : ExtentsKept k s) {n : Nat} : ExtentsKept k (flush s n) := by
  unfold Machine.flush
  split
  · exact ((h.flushList.same.foldl fun _ _ g => g.needLine).keep (reap_keeps (by decide) (.refl _ _))).keep
      (poisonedEvent_keeps (by decide) (.refl _ _))
  · exact h

theorem ExtentsKept.flushAll (h : ExtentsKept k s) : ExtentsKept k (flushAll s) := h.foldl fun _ _ g => g.flush

/-! Requests -/

theorem ExtentsKept.agentServe (h : ExtentsKept k s) {line hub a : Nat} {own upg : Bool} {ecc : Ecc} {via : Via} :
    ExtentsKept k (agentServe s line hub a own upg ecc via) := by
  have hd : ExtentsKept k (settleDir s line hub) := h.keep (settleDir_keeps (by decide) (.refl _ _))
  unfold Machine.agentServe
  dsimp only
  refine .ite hd (.ite hd.raiseKeyAbsent (.ite (hd.keep (openTxn_keeps (by decide) (.refl _ _))) ?_))
  have he : ExtentsKept k (dirEntry (dropHosts (settleDir s line hub) line hub own) hub line (.agent a own upg ecc) via).1 :=
    hd.keep (dirEntry_keeps (by decide) (dropHosts_keeps (by decide) (.refl _ _)))
  refine .ite he ?_
  split
  · exact (ExtentsKept.ite he (he.keep (feed_keeps (by decide) (.refl _ _)))).keep (agentGrant_keeps (by decide) (.refl _ _))
  · exact (ExtentsKept.ite (he.keep (supply_keeps (by decide) (.refl _ _))) he).keep (openCmds_keeps (by decide) (.refl _ _))

theorem ExtentsKept.hostReadServe (h : ExtentsKept k s) {line hub : Nat} {p : Place} {any : Bool} {hpa : BitVec 64} {ecc : Ecc}
    {via : Via} : ExtentsKept k (hostReadServe s line hub p any hpa ecc via) := by
  have hk : ExtentsKept k (countAccess (Machine.raiseKeyAbsent s (64 * line)) (pageOfLine line) hub true) := h.raiseKeyAbsent.same
  have hr {u : State} (g : ExtentsKept k u) : ExtentsKept k (hostReadDone u line hub p any hpa ecc) :=
    g.keep (hostReadDone_keeps (by decide) (.refl _ _))
  have hf : ExtentsKept k (filtEntry s hub line (.hostRead p any hpa ecc) via).1 := h.keep (filtEntry_keeps (by decide) (.refl _ _))
  unfold Machine.hostReadServe
  exact .ite (.ite hk.same hk) (.ite (hr h) (.ite (h.keep (openTxn_keeps (by decide) (.refl _ _))) (.ite (hr hf) hf)))

theorem ExtentsKept.hostWriteNow (h : ExtentsKept k s) {line hub : Nat} {p : Place} {data : Line} {be : BitVec 64}
    {poison full : Bool} : ExtentsKept k (hostWriteNow s line hub p data be poison full).1 := by
  unfold Machine.hostWriteNow
  extract_lets seat zeros need zeroPage gone s1
  have h1 : ExtentsKept k s1 := .ite h (h.keep (hostData_keeps (by decide) (.refl _ _)))
  split
  · exact h.raiseKeyAbsent.same
  · split
    · exact (h1.keep (mediaEvent_keeps (by decide) (setPoisonAll_keeps (by decide) (.refl _ _)))).same
    · split
      · exact (h1.keep (poisonWrite_keeps (by decide) (.refl _ _))).same
      · split
        · exact h1.same
        · exact h1.keep (hostStore_keeps (by decide) (.refl _ _))

theorem ExtentsKept.hostWriteDone (h : ExtentsKept k s) {line hub : Nat} {p : Place} {data : Line} {be : BitVec 64}
    {poison full : Bool} : ExtentsKept k (hostWriteDone s line hub p data be poison full) := by
  unfold Machine.hostWriteDone
  exact .ite h.hostWriteNow.same h.hostWriteNow

theorem ExtentsKept.hostWriteServe (h : ExtentsKept k s) {line hub : Nat} {p : Place} {data : Line} {be : BitVec 64}
    {poison full : Bool} : ExtentsKept k (hostWriteServe s line hub p data be poison full) := by
  have open' {req : CohReq} {wait : List Nat} : ExtentsKept k (openTxn s line hub req wait false) :=
    h.keep (openTxn_keeps (by decide) (.refl _ _))
  unfold Machine.hostWriteServe
  dsimp only
  split
  · exact open'.same
  · exact .ite h.hostWriteDone (ExtentsKept.foldl open'.same fun _ _ g => g.keep (mirrorHold_keeps (by decide) (.refl _ _)))

theorem ExtentsKept.serveReq (h : ExtentsKept k s) {line hub : Nat} {r : CohReq} {via : Via} :
    ExtentsKept k (serveReq s line hub r via) := by
  cases r with
  | agent a own upg ecc => exact h.agentServe
  | hostRead p any hpa ecc => exact h.hostReadServe
  | home => exact h.keep (homeServe_keeps (by decide) (.refl _ _))
  | hostWrite p data be poison full => exact h.hostWriteServe
  | device => exact h
  | evict a => exact h.keep (evictServe_keeps (by decide) (.refl _ _))
  | mirror => exact h.keep (mirrorTurn_keeps (by decide) (.refl _ _))

theorem ExtentsKept.take (h : ExtentsKept k s) {line hub : Nat} {r : CohReq} {via : Via} : ExtentsKept k (take s line hub r via) := by
  have hf : ExtentsKept k (settleFilt s line hub) := h.keep (settleFilt_keeps (by decide) (.refl _ _))
  unfold Machine.take
  dsimp only
  split
  · exact hf.same
  · exact hf.serveReq

/-! Transactions and their ends -/

theorem ExtentsKept.runQueue (h : ExtentsKept k s) {line hub : Nat} {rs : List CohReq} : ExtentsKept k (runQueue line hub rs s) := by
  induction rs generalizing s with
  | nil => exact h
  | cons r rs ih => exact ih h.take

theorem ExtentsKept.serveWaiter {x : State × Bool} (h : ExtentsKept k x.1) {hub : Nat} {e : Nat × CohReq × Nat} :
    ExtentsKept k (serveWaiter hub x e).1 := by
  obtain ⟨l, r, w⟩ := e
  obtain ⟨u, go⟩ := x
  unfold Machine.serveWaiter
  dsimp only
  rw [apply_ite Prod.fst, apply_ite Prod.fst]
  exact .ite h (.ite h.take h.take.same)

theorem ExtentsKept.serveRetry (h : ExtentsKept k s) {line hub : Nat} : ExtentsKept k (serveRetry s line hub) :=
  h.foldl fun _ _ g => List.foldlRecOn (motive := fun x : State × Bool => ExtentsKept k x.1) _ _ g fun _ g _ _ => g.serveWaiter

theorem ExtentsKept.unpin (h : ExtentsKept k s) {line hub : Nat} {queue : List CohReq} : ExtentsKept k (unpin s line hub queue) := by
  unfold Machine.unpin
  exact (ExtentsKept.ite h.runQueue h.runQueue.serveRetry).flushAll

theorem ExtentsKept.mirrorFree (h : ExtentsKept k s) {line hub : Nat} : ExtentsKept k (mirrorFree s line hub) := by
  unfold Machine.mirrorFree
  dsimp only
  split
  · exact .ite h.same.unpin h
  · exact h

theorem ExtentsKept.proceed (h : ExtentsKept k s) {line hub : Nat} : ExtentsKept k (proceed s line hub) := by
  unfold Machine.proceed
  split
  · refine .ite h ?_
    extract_lets u n
    have hu : ExtentsKept k u := h.same
    split
    · exact hu.mirrorFree.unpin
    · exact hu.same
    · extract_lets v
      have hv : ExtentsKept k v := by
        unfold v
        split
        · exact hu.keep (fedGrant_keeps (by decide) (.refl _ _))
        · exact hu.serveReq
      split
      · exact hv.same
      · exact .ite hv.unpin hv.same
  · exact h

theorem ExtentsKept.answerAt (h : ExtentsKept k s) {line hub seat : Nat} : ExtentsKept k (answerAt s line hub seat) := by
  unfold Machine.answerAt
  split
  next x _ =>
    refine .ite ?_ h
    extract_lets w hs s1 s2
    have h2 : ExtentsKept k s2 := ExtentsKept.foldl h.same fun _ _ g => .ite g.same (ExtentsKept.ite g.same g.same)
    exact .ite h2.proceed h2
  · exact h

/-! Hosts that are gone, and what waits for media -/

theorem ExtentsKept.departLine (h : ExtentsKept k s) {line hub seat : Nat} : ExtentsKept k (departLine s line hub seat) := by
  unfold Machine.departLine
  extract_lets s1 s2
  have h1 : ExtentsKept k s1 := .ite h.same h
  have h2 : ExtentsKept k s2 := ExtentsKept.foldl h1 fun _ _ g => by
    split
    · exact .ite g.same.answerAt g
    · exact g
  exact h2.same

theorem ExtentsKept.departSeat (h : ExtentsKept k s) {seat : Nat} {test : Nat → Bool} : ExtentsKept k (departSeat s seat test) :=
  h.foldl fun _ _ g => .ite g.departLine g

theorem ExtentsKept.heldGoesOn (h : ExtentsKept k s) {hub : Nat} {w : HeldWrite} : ExtentsKept k (heldGoesOn s hub w) := by
  unfold Machine.heldGoesOn
  split
  · exact h.take
  · exact .ite h.raiseKeyAbsent (h.keep (homeStore_keeps (by decide) (.refl _ _)))

theorem ExtentsKept.retryHub (h : ExtentsKept k s) {hub n : Nat} : ExtentsKept k (retryHub hub n s) := by
  induction n generalizing s with
  | zero => exact h
  | succ n ih =>
    unfold Machine.retryHub
    split
    · exact h
    next w _ _ =>
      refine .ite h (.ite ?_ (ih h.same.heldGoesOn))
      exact h.keep (Keeps.getD (.refl _ _) fun _ e => heldNeeds_keeps (by decide) e (.refl _ _))

theorem ExtentsKept.mediaFreed (h : ExtentsKept k s) : ExtentsKept k (mediaFreed s) := by
  have hr : ExtentsKept k (retryHeld s) := h.foldl fun _ _ g => g.retryHub
  unfold Machine.mediaFreed
  exact hr.flushAll.keep (overPromise_keeps (by decide) (capCheck_keeps (by decide) (.refl _ _)))

end
end Sys2Proof.Machine
end

section
/-! Extents come and go (R205 to R208): what an added extent leaves in the map, in memory and on the wire, what a seat's departure from an
extent leaves, and that a forced release takes a seat from the extents named and from no other. -/

namespace Sys2Proof.Machine
section
variable {s t : State} {n b : Nat}

/-! Lists and maps -/

theorem eraseDups_length_le : ∀ l : List Nat, l.eraseDups.length ≤ l.length
  | [] => Nat.le_refl _
  | a :: l => by
    rw [List.eraseDups_cons, List.length_cons, List.length_cons]
    have := eraseDups_length_le (l.filter fun b => !b == a)
    have := List.length_filter_le (fun b => !b == a) l
    omega
  termination_by l => l.length
  decreasing_by exact Nat.lt_succ_of_le (List.length_filter_le _ _)

/-- A list that loses nothing with its repeats has none. -/
theorem nodup_of_eraseDups {l : List Nat} (h : l.eraseDups.length = l.length) : l.Nodup := by
  induction l with
  | nil => exact List.nodup_nil
  | cons a l ih =>
    rw [List.eraseDups_cons, List.length_cons, List.length_cons] at h
    have h1 := eraseDups_length_le (l.filter fun b => !b == a)
    have h2 := List.length_filter_le (fun b => !b == a) l
    have apart : ∀ b ∈ l, (!b == a) = true := List.length_filter_eq_length_iff.1 (by omega)
    rw [List.filter_eq_self.2 apart] at h
    refine List.nodup_cons.2 ⟨fun ha => ?_, ih (by omega)⟩
    simpa using apart a ha

/-- What a filter by key leaves of an ordered map. -/
theorem mget_filter {α : Type} {m : SMap α} {lo : Nat} (hm : Rising lo m) (p : Nat → Bool) (k : Nat) :
    mget (m.filter fun e => p e.1) k = if p k then mget m k else none := by
  induction m generalizing lo with
  | nil => split <;> rfl
  | cons e m ih =>
    obtain ⟨a, v⟩ := e
    have tail := ih hm.2
    rw [List.filter_cons]
    by_cases hk : k = a
    · subst hk
      cases p k
      · rw [if_neg (by simp), tail, mget_lt hm.2 (Nat.lt_succ_self k)]
        split <;> rfl
      · simp [mget]
    · have below : k < a → mget m k = none := fun h => mget_lt hm.2 (by omega)
      have skip : mget ((a, v) :: m) k = mget m k := by simpa [mget, hk] using fun h => (below h).symm
      rw [skip, ← tail]
      split
      · simp only [mget, if_neg hk]
        split
        · next h => rw [tail, below h]; split <;> rfl
        · rfl
      · rfl

/-- No entry of a filtered map has a key that fails the filter. -/
theorem mget_filter_none {α : Type} (m : SMap α) {p : Nat → Bool} {k : Nat} (h : p k = false) :
    mget (m.filter fun e => p e.1) k = none := by
  by_contra hn
  obtain ⟨v, hv⟩ := Option.ne_none_iff_exists'.1 hn
  have := List.of_mem_filter (mem_of_mget hv)
  simp [h] at this

/-- What every step of a fold keeps sending stays sent, and what one step sends is sent. -/
theorem mem_wire_foldl {α : Type} {f : State → α → State} {x : α} {o : Out} {l : List α} (hx : x ∈ l)
    (ho : ∀ u, o ∈ (f u x).wire) (hg : ∀ u y, u.wire ⊆ (f u y).wire) : ∀ {s : State}, o ∈ (l.foldl f s).wire := by
  have stays : ∀ (l : List α) (u : State), o ∈ u.wire → o ∈ (l.foldl f u).wire := fun l => by
    induction l with
    | nil => exact fun _ h => h
    | cons y l ih => exact fun u h => ih _ (hg u y h)
  induction l with
  | nil => cases hx
  | cons y l ih =>
    intro s
    rcases List.mem_cons.1 hx with rfl | hx
    · exact stays l _ (ho s)
    · exact ih hx

/-! Events and blocks -/

/-- A capacity event goes to each seat it is for. -/
theorem capacityEvent_sends {seats : List Nat} (h : n ∈ seats) (kind base : Nat) :
    .dcEvent n kind base ∈ (capacityEvent s seats kind base).wire := by
  unfold capacityEvent
  refine mem_wire_foldl (List.mem_eraseDups.2 (List.mem_append_left _ h)) (fun _ => List.mem_cons_self) fun u y => ?_
  show u.wire ⊆ _ :: State.wire _
  split <;> exact List.subset_cons_self _ _

/-- A zeroed block reads 0, and the bytes of other blocks stand. -/
theorem zeroBlock_reads (w : Memory.wf s.mem.bytes = true) (base a : Nat) :
    readMem (zeroBlock s base).mem.bytes a = if a / 2 ^ 28 = base then 0 else readMem s.mem.bytes a := by
  have h := mget_filter (wfFrom_iff.1 w).1 (fun k => k / 2 ^ 28 != base) a
  refine (congrArg (·.getD 0) h).trans ?_
  by_cases hb : a / 2 ^ 28 = base
  · rw [if_pos hb, if_neg (by simpa using hb)]
    rfl
  · rw [if_neg hb, if_pos (by simpa using hb)]
    rfl

/-- No line of a zeroed block is poisoned. -/
theorem mem_zeroBlock_poison {base : Nat} {x : Nat × Bool} (h : x ∈ (zeroBlock s base).mem.poison) :
    x ∈ s.mem.poison ∧ x.1 / 2 / 2 ^ 22 ≠ base :=
  ⟨List.mem_of_mem_filter h, by simpa using List.of_mem_filter h⟩

/-! Extents are added -/

/-- The extent that a request asks for, offered to its seats. -/
def offered (e : ExtentReq) (granted : Bool) : Extent :=
  { seats := e.seats.map fun x => ⟨x.1.toNat, x.2, false⟩, db := e.db, key := e.key.map fun k => k.toNat, policy := e.policy,
    keyLost := false, granted := granted }

/-- One extent of a request is added. -/
def addOne (granted : Bool) (s : State) (e : ExtentReq) : State :=
  capacityEvent { zeroBlock s e.base.toNat with extents := mput s.extents e.base.toNat (offered e granted) }
    ((offered e granted).seats.map fun x => x.seat) 0 e.base.toNat

theorem addExtents_eq (exts : List ExtentReq) (granted : Bool) : addExtents s exts granted = exts.foldl (addOne granted) s := rfl

section
variable {exts : List ExtentReq} {e : ExtentReq} {g : Bool}

theorem addOne_extents : (addOne g s e).extents = mput s.extents e.base.toNat (offered e g) :=
  (capacityEvent_keeps (kl := [.lds, .wire]) (by decide) (.refl _ _)).only .extents (by decide)

theorem addOne_mem : (addOne g s e).mem = (zeroBlock s e.base.toNat).mem :=
  (capacityEvent_keeps (kl := [.lds, .wire]) (by decide) (.refl _ _)).only .mem (by decide)

theorem addOne_wire : s.wire ⊆ (addOne g s e).wire :=
  (Keeps.grows (t := addOne g s e) (capacityEvent_keeps (kl := [.lds, .wire]) (by decide) (.refl _ _))).wire.subset

theorem addOne_sends {y : BitVec 6 × Bool} (hy : y ∈ e.seats) : .dcEvent y.1.toNat 0 e.base.toNat ∈ (addOne g s e).wire :=
  capacityEvent_sends (List.mem_map.2 ⟨_, List.mem_map_of_mem hy, rfl⟩) _ _

theorem addExtents_extent_ne (h : ∀ e ∈ exts, b ≠ e.base.toNat) : mget (addExtents s exts g).extents b = mget s.extents b := by
  rw [addExtents_eq]
  induction exts generalizing s with
  | nil => rfl
  | cons e exts ih =>
    rw [List.foldl_cons, ih fun e he => h e (List.mem_cons_of_mem _ he), addOne_extents, mget_mput_ne _ _ (h e List.mem_cons_self)]

/-- Where no block is named twice, each extent stands as it was asked for. -/
theorem addExtents_extent (hn : (exts.map fun e => e.base.toNat).Nodup) (he : e ∈ exts) :
    mget (addExtents s exts g).extents e.base.toNat = some (offered e g) := by
  induction exts generalizing s with
  | nil => cases he
  | cons x exts ih =>
    obtain ⟨hx, hn⟩ := List.nodup_cons.1 hn
    rcases List.mem_cons.1 he with rfl | he
    · have apart : ∀ y ∈ exts, e.base.toNat ≠ y.base.toNat := fun y hy h => hx (List.mem_map.2 ⟨y, hy, h.symm⟩)
      exact (addExtents_extent_ne (s := addOne g s e) apart).trans (by rw [addOne_extents, mget_mput_self])
    · exact ih (s := addOne g s x) hn he

theorem addExtents_reads (w : Memory.wf s.mem.bytes = true) (a : Nat) : readMem (addExtents s exts g).mem.bytes a =
    if ∃ e ∈ exts, a / 2 ^ 28 = e.base.toNat then 0 else readMem s.mem.bytes a := by
  rw [addExtents_eq]
  induction exts generalizing s with
  | nil => simp
  | cons e exts ih =>
    rw [List.foldl_cons, ih (by rw [addOne_mem]; exact filter_wf w), addOne_mem, zeroBlock_reads w]
    simp only [List.exists_mem_cons_iff]
    by_cases rest : ∃ e ∈ exts, a / 2 ^ 28 = e.base.toNat
    · rw [if_pos rest, if_pos (.inr rest)]
    · rw [if_neg rest]
      exact if_congr (or_iff_left rest).symm rfl rfl

theorem mem_addExtents_poison {x : Nat × Bool} (h : x ∈ (addExtents s exts g).mem.poison) :
    x ∈ s.mem.poison ∧ ∀ e ∈ exts, x.1 / 2 / 2 ^ 22 ≠ e.base.toNat := by
  rw [addExtents_eq] at h
  induction exts generalizing s with
  | nil => exact ⟨h, nofun⟩
  | cons e exts ih =>
    obtain ⟨hx, apart⟩ := ih h
    rw [addOne_mem] at hx
    obtain ⟨hx, he⟩ := mem_zeroBlock_poison hx
    exact ⟨hx, List.forall_mem_cons.2 ⟨he, apart⟩⟩

theorem addExtents_clean (he : e ∈ exts) {a h : Nat} (ha : a / 2 ^ 28 = e.base.toNat) (h2 : h < 2) :
    poisonedAt (addExtents s exts g) (a / 64) h = false := by
  rw [← Bool.not_eq_true]
  intro hp
  obtain ⟨v, hv⟩ := Option.isSome_iff_exists.1 hp
  have := (mem_addExtents_poison (mem_of_mget hv)).2 e he
  unfold hkey at this
  omega

theorem addExtents_sends (he : e ∈ exts) {y : BitVec 6 × Bool} (hy : y ∈ e.seats) :
    .dcEvent y.1.toNat 0 e.base.toNat ∈ (addExtents s exts g).wire :=
  mem_wire_foldl he (fun _ => addOne_sends hy) fun _ _ => addOne_wire

/-! Requests to add -/

/-- A request that may be added names no block twice. -/
theorem addOk_nodup (h : addOk s exts = true) : (exts.map fun e => e.base.toNat).Nodup := by
  unfold addOk at h
  simp only [Bool.and_eq_true, beq_iff_eq] at h
  exact nodup_of_eraseDups h.1.1.1.2

/-- A request that may be added names free blocks, which the steward has not granted. -/
theorem addOk_not_granted (h : addOk s exts = true) (he : e ∈ exts) : grantedAt s e.base = false := by
  unfold addOk at h
  simp only [Bool.and_eq_true] at h
  have free := List.all_eq_true.1 h.1.1.1.1 e he
  unfold extentOk mhas at free
  simp only [Bool.and_eq_true, Bool.not_eq_true', Option.isSome_eq_false_iff, Option.isNone_iff_eq_none] at free
  unfold grantedAt
  rw [free.1.1.1.1.1.2]
  rfl

theorem addRequest_ok (hne : exts ≠ []) (h : addOk s exts = true) : addRequest s exts g = (addExtents s exts g, true) := by
  unfold addRequest
  rw [if_neg (by simpa using hne), if_pos h]

theorem addRequest_refused (hne : exts ≠ []) (h : addOk s exts = false) : addRequest s exts g = (s, false) := by
  unfold addRequest
  rw [if_neg (by simpa using hne), if_neg (by simp [h])]

/-- A delegated fabric manager's request that claims nothing of the steward's is done and answered. -/
theorem exec_add (src : FmSource) (hd : delegated s = true) (hg : ∀ e ∈ exts, grantedAt s e.base = false) :
    exec (.addDynamicCapacity src exts) s =
      .next (send (addRequest s exts false).1 (.fmAnswer (addRequest s exts false).2)) := by
  have claims : exts.any (fun e => grantedAt s e.base) = false := List.any_eq_false.2 fun e he => by simp [hg e he]
  show Host.Outcome.next (if _ then _ else _) = _
  rw [if_neg (by simp [hd, claims])]

theorem add_settles (src : FmSource) (hs : Sound s) (hd : delegated s = true) (hne : exts ≠ []) (ok : addOk s exts = true) :
    ∃ m, exec (.addDynamicCapacity src exts) s = .next m ∧ m.wire.head? = some (.fmAnswer true) ∧
      (∀ e ∈ exts, (∃ x, mget m.extents e.base.toNat = some x ∧ x.db = e.db ∧ x.key = e.key.map (fun k => k.toNat) ∧
          x.seats = e.seats.map (fun y => ⟨y.1.toNat, y.2, false⟩)) ∧
        (∀ y ∈ e.seats, .dcEvent y.1.toNat 0 e.base.toNat ∈ m.wire) ∧
        ∀ a, a / 2 ^ 28 = e.base.toNat → readMem m.mem.bytes a = 0 ∧ ∀ h < 2, poisonedAt m (a / 64) h = false) ∧
      (∀ b, (∀ e ∈ exts, b ≠ e.base.toNat) → mget m.extents b = mget s.extents b ∧
        ∀ a, a / 2 ^ 28 = b → readMem m.mem.bytes a = readMem s.mem.bytes a) ∧ Only [.extents, .mem, .coh, .wire, .lds] s m := by
  refine ⟨send (addExtents s exts false) (.fmAnswer true), ?_, rfl, fun e he => ⟨?_, fun y hy => ?_, fun a ha => ⟨?_, fun h h2 => ?_⟩⟩,
    fun b hb => ⟨addExtents_extent_ne hb, fun a ha => ?_⟩, ?_⟩
  · rw [exec_add src hd fun e => addOk_not_granted ok, addRequest_ok hne ok]
  · exact ⟨_, addExtents_extent (addOk_nodup ok) he, rfl, rfl, rfl⟩
  · exact List.mem_cons_of_mem _ (addExtents_sends he hy)
  · exact (addExtents_reads hs.mem a).trans (if_pos ⟨e, he, ha⟩)
  · exact addExtents_clean he ha h2
  · exact (addExtents_reads hs.mem a).trans (if_neg fun ⟨e, he, h⟩ => hb e he (ha.symm.trans h))
  · exact (send_keeps (by decide) (addExtents_keeps (kl := [.extents, .mem, .coh, .wire, .lds]) (by decide) (.refl _ _))).only

end

end
end Sys2Proof.Machine
end

section
/-! Extents leave their seats (R205 to R208): an offer is answered, a host gives an extent up, or an extent is taken back by force. -/

namespace Sys2Proof.Machine
section
variable {k s t : State} {n b : Nat} {e : Extent}

/-! A seat's part of an extent -/

/-- A seat's part of an extent ends: the extent goes with its last seat and its block is zeroed, or it stands for the others. -/
theorem dropExtent_of (he : mget s.extents b = some e) (hn : ∃ x ∈ e.seats, x.seat = n) :
    dropExtent s n b = if e.seats.filter (fun x => x.seat != n) = []
      then mediaFreed (zeroBlock { s with extents := mdel s.extents b } b)
      else capCheck { s with extents := mput s.extents b { e with seats := e.seats.filter fun x => x.seat != n } } := by
  unfold dropExtent
  rw [he]
  dsimp only
  rw [if_pos (by simpa using hn)]
  split
  next h => rw [if_pos h]
  next h => rw [if_neg h]

theorem hasPart_iff : hasPart s n b = true ↔ ∃ e, mget s.extents b = some e ∧ ∃ x ∈ e.seats, x.seat = n := by
  unfold hasPart
  cases mget s.extents b <;> simp

theorem ExtentsKept.hasPart (h : ExtentsKept s t) : hasPart t n b = hasPart s n b := by
  have same := congrArg (Option.map fun l : List ExtSeat => l.any fun x => x.seat == n) (h.seats b)
  rw [Option.map_map, Option.map_map] at same
  exact congrArg (·.getD false) same

/-- After a seat has left an extent it has no part in it, and its parts in others stand. -/
theorem dropExtent_hasPart (r : Rising 0 s.extents) (hp : hasPart s n b = true) (c : Nat) :
    hasPart (dropExtent s n b) n c = (decide (c ≠ b) && hasPart s n c) := by
  obtain ⟨e, he, hn⟩ := hasPart_iff.1 hp
  rw [dropExtent_of he hn]
  split
  · rw [((ExtentsKept.refl _).mediaFreed).hasPart]
    show ((mget (mdel s.extents b) c).map _).getD false = _
    rw [mget_mdel _ _ _ r]
    by_cases h : c = b <;> simp [h, Machine.hasPart]
  · rw [((ExtentsKept.refl _).keep (capCheck_keeps (by decide) (.refl _ _))).hasPart]
    show ((mget (mput s.extents b _) c).map _).getD false = _
    rw [mget_mput]
    by_cases h : c = b <;> simp [h, Machine.hasPart]

theorem dropExtent_rise (r : Rising 0 s.extents) : Rising 0 (dropExtent s n b).extents := by
  by_cases hp : hasPart s n b = true
  · obtain ⟨e, he, hn⟩ := hasPart_iff.1 hp
    rw [dropExtent_of he hn]
    split
    · exact ((ExtentsKept.refl _).mediaFreed).rise r.mdel
    · exact ((ExtentsKept.refl _).keep (capCheck_keeps (by decide) (.refl _ _))).rise (r.mput _ (Nat.zero_le _))
  · unfold dropExtent
    split
    next e he =>
      rw [if_neg fun h => hp (hasPart_iff.2 ⟨e, he, by simpa using h⟩)]
      exact r
    · exact r

/-! Forced releases -/

/-- A forced release of an extent the seat has no part in does nothing. -/
theorem forceRelease_other (h : hasPart s n b = false) : forceRelease s n b = s := if_neg (by simp [h])

/-- The state that a forced release tells the seat of. -/
theorem forceRelease_part (h : hasPart s n b = true) : forceRelease s n b =
    capacityEvent (dropExtent (departSeat s n fun l => l / 2 ^ 22 == b) n b) [n] 2 b := if_pos h

theorem capacityEvent_extents (l : List Nat) (kind base : Nat) : ExtentsKept s (capacityEvent s l kind base) :=
  (ExtentsKept.refl s).same ((capacityEvent_keeps (kl := [.lds, .wire]) (by decide) (.refl _ _)).only .extents (by decide))

/-- A forced release takes the seat's part of the extent, and no other part. -/
theorem forceRelease_hasPart (r : Rising 0 s.extents) (c : Nat) :
    hasPart (forceRelease s n b) n c = (decide (c ≠ b) && hasPart s n c) := by
  have gone : ExtentsKept s (departSeat s n fun l => l / 2 ^ 22 == b) := (ExtentsKept.refl s).departSeat
  cases h : hasPart s n b
  · rw [forceRelease_other h]
    by_cases hc : c = b <;> simp [hc, h]
  · rw [forceRelease_part h, (capacityEvent_extents _ _ _).hasPart, dropExtent_hasPart (gone.rise r) (gone.hasPart.trans h), gone.hasPart]

theorem forceRelease_rise (r : Rising 0 s.extents) : Rising 0 (forceRelease s n b).extents := by
  cases h : hasPart s n b
  · rw [forceRelease_other h]
    exact r
  · rw [forceRelease_part h]
    exact (capacityEvent_extents _ _ _).rise (dropExtent_rise ((ExtentsKept.refl s).departSeat.rise r))

theorem forceRelease_wire : s.wire ⊆ (forceRelease s n b).wire :=
  (forceRelease_keeps (kl := commandPieces) (by decide) (.refl _ _)).grows.wire.subset

/-- Extents taken back one after another. -/
def forcedAll (s : State) (n : Nat) (bases : List (BitVec 15)) : State := bases.foldl (fun s b => forceRelease s n b.toNat) s

theorem forcedAll_hasPart {bases : List (BitVec 15)} (r : Rising 0 s.extents) (c : BitVec 15) :
    hasPart (forcedAll s n bases) n c.toNat = (decide (c ∉ bases) && hasPart s n c.toNat) := by
  unfold forcedAll
  induction bases generalizing s with
  | nil => simp
  | cons b bases ih =>
    rw [List.foldl_cons, ih (forceRelease_rise r), forceRelease_hasPart r]
    by_cases hb : c = b <;> simp [hb, BitVec.toNat_inj]

theorem forcedAll_wire {bases : List (BitVec 15)} : s.wire ⊆ (forcedAll s n bases).wire := by
  unfold forcedAll
  induction bases generalizing s with
  | nil => exact List.Subset.refl _
  | cons b bases ih => exact List.Subset.trans forceRelease_wire ih

/-- The seat is told of every extent that is taken from it. -/
theorem forcedAll_sends {bases : List (BitVec 15)} (r : Rising 0 s.extents) {c : BitVec 15} (hc : c ∈ bases)
    (hp : hasPart s n c.toNat = true) : .dcEvent n 2 c.toNat ∈ (forcedAll s n bases).wire := by
  induction bases generalizing s with
  | nil => cases hc
  | cons b bases ih =>
    by_cases hb : c = b
    · subst hb
      refine forcedAll_wire (s := forceRelease s n c.toNat) ?_
      rw [forceRelease_part hp]
      exact capacityEvent_sends (List.mem_singleton_self n) _ _
    · refine ih (forceRelease_rise r) ((List.mem_cons.1 hc).resolve_left hb) ?_
      rw [forceRelease_hasPart r, hp]
      simpa [BitVec.toNat_inj] using hb

theorem force_settles (src : FmSource) (seat : BitVec 6) (bases : List (BitVec 15)) (hr : KeysRise s.extents) (hd : delegated s = true)
    (hg : ∀ b ∈ bases, grantedAt s b = false) :
    ∃ m, exec (.forcedRelease src seat bases) s = .next m ∧ m.wire.head? = some (.fmAnswer true) ∧
      ∀ b ∈ bases, (∀ e, mget m.extents b.toNat = some e → ∀ x ∈ e.seats, x.seat ≠ seat.toNat) ∧
        ∀ e, mget s.extents b.toNat = some e → (∃ x ∈ e.seats, x.seat = seat.toNat) → .dcEvent seat.toNat 2 b.toNat ∈ m.wire := by
  have r : Rising 0 s.extents := KeysRise.rising hr fun _ _ => Nat.zero_le _
  refine ⟨send (forcedAll s seat.toNat bases) (.fmAnswer true), ?_, rfl, fun b hb => ⟨fun e he x hx hs => ?_, fun e he hp => ?_⟩⟩
  · have claims : bases.any (grantedAt s) = false := List.any_eq_false.2 fun b hb => by simp [hg b hb]
    show Host.Outcome.next (if _ then _ else _) = _
    rw [if_neg (by simp [hd, claims])]
    rfl
  · have part := forcedAll_hasPart (n := seat.toNat) (bases := bases) r b
    have stays : hasPart (forcedAll s seat.toNat bases) seat.toNat b.toNat = true := hasPart_iff.2 ⟨e, he, x, hx, hs⟩
    rw [stays] at part
    simp [hb] at part
  · exact List.mem_cons_of_mem _ (forcedAll_sends r hb (hasPart_iff.2 ⟨e, he, hp⟩))

/-! Answers to offers, and releases -/

/-- The extent as a seat has accepted it. -/
def acceptedBy (n : Nat) (e : Extent) : Extent :=
  { e with seats := e.seats.map fun x => if x.seat = n then { x with accepted := true } else x }

theorem response_settles {p : Place} {base : BitVec 15} (hs : seatOf s p = some n) (he : mget s.extents base.toNat = some e)
    (hn : ∃ x ∈ e.seats, x.seat = n ∧ x.accepted = false) :
    exec (.addDynamicCapacityResponse p base true) s =
      .next (capCheck { s with extents := mput s.extents base.toNat (acceptedBy n e) }) ∧
    exec (.addDynamicCapacityResponse p base false) s = .next (dropExtent s n base.toNat) := by
  have waits : (e.seats.any fun x => x.seat == n && !x.accepted) = true := by simpa using hn
  constructor
  all_goals
    show Host.Outcome.next (match seatOf s p, mget s.extents base.toNat with | some n, some e => _ | _, _ => _) = _
    rw [hs, he]
    dsimp only
    rw [if_pos waits]
    rfl

theorem only_extents (x : SMap Extent) : Only [.extents] s { s with extents := x } := fun p hp => by
  cases p
  case extents => exact absurd (List.mem_singleton_self _) hp
  all_goals rfl

/-- The last seat of an extent takes its contents with it; the others keep it. -/
theorem drop_settles (hs : Sound s) (hr : KeysRise s.extents) (he : mget s.extents b = some e) (hn : ∃ x ∈ e.seats, x.seat = n) :
    let left := e.seats.filter fun x => x.seat != n
    ∃ m, dropExtent s n b = (if left = [] then mediaFreed m else capCheck m) ∧
      mget m.extents b = (if left = [] then none else some { e with seats := left }) ∧
      (left = [] → ∀ a, a / 2 ^ 28 = b → readMem m.mem.bytes a = 0) ∧ (left ≠ [] → Only [.extents] s m) ∧
      (∀ k, k ≠ b → mget m.extents k = mget s.extents k) ∧ (∀ a, a / 2 ^ 28 ≠ b → readMem m.mem.bytes a = readMem s.mem.bytes a) := by
  intro left
  have r : Rising 0 s.extents := KeysRise.rising hr fun _ _ => Nat.zero_le _
  by_cases hl : left = []
  · have reads := zeroBlock_reads (s := { s with extents := mdel s.extents b }) hs.mem b
    refine ⟨zeroBlock { s with extents := mdel s.extents b } b, ?_, ?_, fun _ a ha => ?_, absurd hl, fun k hk => ?_,
      fun a ha => ?_⟩
    · rw [dropExtent_of he hn, if_pos hl, if_pos hl]
    · rw [if_pos hl]
      exact (mget_mdel _ _ _ r).trans (if_pos rfl)
    · exact (reads a).trans (if_pos ha)
    · exact (mget_mdel _ _ _ r).trans (if_neg hk)
    · exact (reads a).trans (if_neg ha)
  · refine ⟨{ s with extents := mput s.extents b { e with seats := left } }, ?_, ?_, fun h => absurd h hl, fun _ => only_extents _,
      fun k hk => mget_mput_ne _ _ hk, fun _ _ => rfl⟩
    · rw [dropExtent_of he hn, if_neg hl, if_neg hl]
    · rw [if_neg hl]
      exact mget_mput_self _ _ _

/-- One extent of a release: its seat's lines are asked back, or it leaves the seat. -/
def releaseOne (n : Nat) (s : State) (b : BitVec 15) : State := (releaseSnoop s n b.toNat).getD (dropExtent s n b.toNat)

theorem exec_release {p : Place} (hs : seatOf s p = some n) (bases : List (BitVec 15)) :
    exec (.releaseDynamicCapacity p bases) s = .next (bases.foldl (releaseOne n) s) := by
  show Host.Outcome.next (match seatOf s p with | some n => _ | none => _) = _
  rw [hs]
  dsimp only
  congr 2
  funext s b
  unfold releaseOne
  cases releaseSnoop s n b.toNat <;> rfl

theorem release_settles {p : Place} (hs : seatOf s p = some n) (b : BitVec 15) (l : List (BitVec 15)) :
    (heldLines s n b.toNat = [] → exec (.releaseDynamicCapacity p [b]) s = .next (dropExtent s n b.toNat)) ∧
    (∀ m, exec (.releaseDynamicCapacity p [b]) s = .next m → seatOf m p = some n →
      exec (.releaseDynamicCapacity p (b :: l)) s = exec (.releaseDynamicCapacity p l) m) ∧
    exec (.releaseDynamicCapacity p []) s = .next s := by
  refine ⟨fun free => ?_, fun m ran hm => ?_, exec_release hs []⟩
  · rw [exec_release hs, List.foldl_cons, List.foldl_nil]
    unfold releaseOne releaseSnoop
    rw [free]
    rfl
  · rw [exec_release hs] at ran
    cases ran
    rw [exec_release hs, exec_release hm]
    rfl

end

/-- Settles O36: a request's extents are added one by one; forced releases go through the model's coherence, which changes no extent's
seats. -/
theorem dynamicCapacityMoves : Obligations.DynamicCapacityMoves := by
  refine ⟨fun s src exts hs => ⟨add_settles src hs, fun hd hne no hg => ?_, fun refused => ⟨0x5604, ?_⟩⟩,
    fun s p base n e hs he hn => response_settles hs he hn, fun s n b e hs hr he hn => drop_settles hs hr he hn,
    fun s p n b l hs => release_settles hs b l, fun s src seat bases => force_settles src seat bases⟩
  · rw [exec_add src hd hg, addRequest_refused hne no]
  · show Host.Outcome.next (if _ then _ else _) = _
    rw [if_pos (by simpa using refused)]
    rfl

end Sys2Proof.Machine
end

section
/-! A detach that begins binds no logical device and unbinds none (R305, R306). What it does to logical devices is done by events, deep inside
the completions that it writes, and an event only adds to the event logs (R233). -/

namespace Sys2Proof.Machine
set_option Elab.async false

/-- Every logical device is bound or not as it was. -/
def BoundKept (k s : State) : Prop := ∀ p, (ld s p).bound = (ld k p).bound

/-- The pieces that BoundKept does not speak of. -/
def besideLds : List Piece :=
  [.boot, .pkg, .seats, .steward, .extents, .mem, .coh, .fronds, .rings, .jobs, .nextId, .disp, .covs, .tally, .life, .log, .regs, .wire]

section
variable {k s t : State}

theorem BoundKept.refl (s : State) : BoundKept s s := fun _ => rfl

theorem BoundKept.trans {u : State} (h : BoundKept s t) (g : BoundKept t u) : BoundKept s u := fun p => (g p).trans (h p)

theorem BoundKept.ite {c : Prop} [Decidable c] (h : BoundKept k s) (g : BoundKept k t) : BoundKept k (if c then s else t) := by
  split <;> assumption

theorem BoundKept.foldl {α : Type} {f : State → α → State} {xs : List α} (h : BoundKept k s)
    (hf : ∀ u x, BoundKept k u → BoundKept k (f u x)) : BoundKept k (xs.foldl f s) := by
  induction xs generalizing s with
  | nil => exact h
  | cons x xs ih => exact ih (hf s x h)

/-- An update of other fields. -/
theorem BoundKept.same (h : BoundKept k s) (e : t.lds = s.lds := by rfl) : BoundKept k t := fun p => by
  rw [← h p, ld, ld, e]

/-- An operation of other pieces. -/
theorem BoundKept.keep (h : BoundKept k s) (e : Keeps besideLds s t) : BoundKept k t := h.same (e.only .lds (by decide))

/-- A logical device after a change of one. -/
theorem ld_modLd (p q : Place) (f : Ld → Ld) : ld (modLd s p f) q = if q = p then f (ld s p) else ld s q := by
  unfold ld modLd
  dsimp only
  rw [mget_mput]
  by_cases h : q = p
  · rw [if_pos (congrArg _ h), if_pos h]
    rfl
  · rw [if_neg fun e => h (BitVec.eq_of_toNat_eq e), if_neg h]

theorem ld_modLd_ne {p q : Place} (f : Ld → Ld) (h : q ≠ p) : ld (modLd s p f) q = ld s q := (ld_modLd p q f).trans (if_neg h)

/-- A change of a logical device that keeps it bound or unbound. -/
theorem BoundKept.modLd (h : BoundKept k s) (p : Place) {f : Ld → Ld} (hf : ∀ l, (f l).bound = l.bound) :
    BoundKept k (modLd s p f) := fun q => by
  rw [← h q, ld_modLd]
  split
  next e => rw [hf, e]
  · rfl

theorem ldRecord_bound (sev : Nat) (r : EvRec) (l : Ld) : (ldRecord sev r l).bound = l.bound := by
  unfold ldRecord
  split <;> rfl

/-! Events -/

theorem BoundKept.deliver (h : BoundKept k s) {sev : Nat} {r : EvRec} {dst : Recip} : BoundKept k (deliver s sev r dst) :=
  h.foldl fun _ _ g => by
    split
    · exact g.modLd _ (ldRecord_bound sev r)
    · exact g

theorem BoundKept.logRecord (h : BoundKept k s) {r : EvRec} : BoundKept k (logRecord s r) := by
  have append {u : State} (g : BoundKept k u) (r : EvRec) : BoundKept k (appendRecord u r) :=
    g.keep (appendRecord_keeps (by decide) (.refl _ _))
  unfold Machine.logRecord
  dsimp only
  refine .ite (.ite h.same h.same) (.ite h.same ?_)
  split
  · exact append h r
  · exact BoundKept.foldl (append h r).same fun _ _ g => (BoundKept.ite g.same (append g _)).deliver

theorem BoundKept.raiseAt (h : BoundKept k s) {tb code sev die seat extra count : Nat} {items : List (Nat × Nat)} {dst : Recip} :
    BoundKept k (raiseAt s tb code sev die seat extra count items dst) := by
  unfold Machine.raiseAt
  exact .ite h.logRecord.deliver.same h.logRecord.deliver

theorem BoundKept.raiseFull (h : BoundKept k s) {code sev die seat extra count : Nat} {items : List (Nat × Nat)} {dst : Recip} :
    BoundKept k (raiseFull s code sev die seat extra count items dst) := h.raiseAt

theorem BoundKept.event (h : BoundKept k s) {code sev die seat : Nat} {items : List (Nat × Nat)} {dst : Recip} :
    BoundKept k (event s code sev die seat items dst) := h.raiseAt

/-! Capacity and keys -/

theorem BoundKept.raiseKeyAbsent (h : BoundKept k s) {a : Nat} : BoundKept k (raiseKeyAbsent s a) := by
  unfold Machine.raiseKeyAbsent
  split
  · exact .ite h h.same.event
  · exact h

theorem BoundKept.covShort (h : BoundKept k s) {id given short reason : Nat} : BoundKept k (covShort s id given short reason) := by
  unfold Machine.covShort
  split
  · exact h
  · exact .ite h.same h.same.event

theorem BoundKept.covEnd (h : BoundKept k s) {id extra : Nat} : BoundKept k (covEnd s id extra) := by
  unfold Machine.covEnd
  split
  · exact .ite h.same.raiseAt h
  · exact h

theorem BoundKept.covFull (h : BoundKept k s) {id given : Nat} : BoundKept k (covFull s id given) := h.same

theorem BoundKept.capCheck (h : BoundKept k s) : BoundKept k (capCheck s) := by
  have he : BoundKept k (capEvents s) := by
    unfold capEvents
    exact (BoundKept.ite (BoundKept.ite h.event h).event (BoundKept.ite h.event h)).same
  unfold Machine.capCheck capResolve
  exact (he.foldl fun _ _ g => .ite g.covEnd g).foldl fun _ _ g =>
    .ite (BoundKept.ite g g.same).covShort (BoundKept.ite g g.same).covFull

/-! Back-invalidates -/

theorem BoundKept.filtCheck (h : BoundKept k s) {line hub : Nat} : BoundKept k (filtCheck s line hub) := by
  unfold Machine.filtCheck
  split
  · refine .ite h ?_
    dsimp only
    split
    · exact h.raiseFull.same
    · exact h.raiseFull.keep (openTxn_keeps (by decide) (modCoh_keeps (by decide) (.refl _ _)))
  · exact h

theorem BoundKept.needAt (h : BoundKept k s) {line hub : Nat} {sOk : Bool} (e : needAt s line hub sOk = some t) : BoundKept k t := by
  unfold Machine.needAt at e
  split_ifs at e
  · exact Option.some.inj e ▸ h
  · exact Option.some.inj e ▸ h.filtCheck
  · split at e <;> cases e
    exact h.keep (openTxn_keeps (by decide) (.refl _ _))

theorem BoundKept.needLine (h : BoundKept k s) {line : Nat} {sOk : Bool} : BoundKept k ((needLine s line sOk).getD s) := by
  unfold Machine.needLine
  refine List.foldlRecOn (motive := fun r => BoundKept k (Option.getD r s)) _ _ h fun r hr x _ => ?_
  split
  next e => exact hr.needAt e
  · exact hr

theorem BoundKept.needRegion (h : BoundKept k s) {a n : Nat} {sOk : Bool} (e : needRegion s a n sOk = some t) : BoundKept k t := by
  suffices g : BoundKept k ((Machine.needRegion s a n sOk).getD s) by rw [e] at g; exact g
  unfold Machine.needRegion
  rw [apply_ite (Option.getD · s)]
  refine .ite h (List.foldlRecOn (motive := fun r => BoundKept k (Option.getD r s)) _ _ h fun r hr x _ => ?_)
  have step := hr.needLine (line := a / 64 + x) (sOk := sOk)
  split
  next e => rw [e] at step; exact step
  · exact hr

/-! Copies and home storage -/

theorem BoundKept.checkCopy (h : BoundKept k s) {line hub a : Nat} {dirty : Bool} : BoundKept k (checkCopy s line hub a dirty) := by
  unfold Machine.checkCopy
  dsimp only
  split
  · exact h
  · exact .ite (BoundKept.raiseFull h.same) h.same

theorem BoundKept.cleanHome (h : BoundKept k s) {line hub : Nat} : BoundKept k (cleanHome s line hub) := by
  unfold Machine.cleanHome
  extract_lets key s1 s2
  have h2 : BoundKept k s2 := .ite h.checkCopy.same (h.checkCopy.keep (mediaWrite_keeps (by decide) (.refl _ _)))
  exact h2.same

theorem BoundKept.hubRoom (h : BoundKept k s) {hub : Nat} : BoundKept k (hubRoom s hub) := by
  unfold Machine.hubRoom
  refine .ite h ?_
  split
  · exact h.cleanHome
  · exact h

theorem BoundKept.toWb (h : BoundKept k s) {line hub : Nat} : BoundKept k (toWb s line hub) := h.hubRoom.same

theorem BoundKept.cleanCopy (h : BoundKept k s) {x : Nat} : BoundKept k (cleanCopy s x) := by
  unfold Machine.cleanCopy
  exact .ite h.cleanHome (h.checkCopy.toWb.keep (setDir_keeps (by decide) (setCopy_keeps (by decide) (.refl _ _))))

theorem BoundKept.dirtied (h : BoundKept k s) {x : Nat} : BoundKept k (dirtied s x) := by
  have room : BoundKept k (twinRoom s x) := by
    unfold twinRoom
    refine .ite h (.ite h.hubRoom ?_)
    split
    · exact h.cleanCopy
    · exact h
  exact room.same

theorem BoundKept.bufDrop (h : BoundKept k s) {line hub : Nat} : BoundKept k (bufDrop s line hub) := by
  unfold Machine.bufDrop
  dsimp only
  split
  · exact h
  · exact .ite (BoundKept.toWb h.checkCopy.same) h.checkCopy.same

theorem BoundKept.bufPut (h : BoundKept k s) {line hub : Nat} {dirty : Bool} : BoundKept k (bufPut s line hub dirty) := by
  unfold Machine.bufPut
  extract_lets key mine u d v
  have hv : BoundKept k v := by
    refine BoundKept.same (s := u) ?_
    unfold u
    refine .ite h ?_
    split
    · exact h.bufDrop
    · exact h.bufDrop
    · exact h
  exact .ite hv.dirtied hv

/-! What the device's reads meet -/

theorem BoundKept.dramCe (h : BoundKept k s) {hub line : Nat} {coord : BitVec 48} {injected : Bool} :
    BoundKept k (dramCe s hub line coord injected) := by
  unfold Machine.dramCe dramCeAt
  have hl : BoundKept k (if injected then s else modLedger s fun l => { l with dramCe := bump l.dramCe (rankIndex hub coord) 1 }) :=
    .ite h h.same
  exact .ite (BoundKept.raiseFull hl.same) hl.same

theorem BoundKept.dramUe (h : BoundKept k s) {hub line : Nat} {coord : BitVec 48} {injected : Bool} :
    BoundKept k (dramUe s hub line coord injected) := by
  unfold Machine.dramUe
  exact .ite h.raiseFull (.ite h (h.raiseFull.keep (poisonMedia_keeps (by decide) (.refl _ _))))

theorem BoundKept.dramRead (h : BoundKept k s) {line hub : Nat} {ecc : Ecc} {coord : BitVec 48} :
    BoundKept k (dramRead s line hub ecc coord) := by
  unfold Machine.dramRead
  have hr : BoundKept k (if mediaError s line hub = 0 then s else rewriteMedia s line hub) := .ite h h.same
  exact .ite (hr.keep (poisonMedia_keeps (by decide) (.refl _ _))) (.ite hr.dramUe (.ite hr.dramCe hr))

theorem BoundKept.pageMapLost (h : BoundKept k s) {page hub : Nat} : BoundKept k (pageMapLost s page hub) :=
  have hm : BoundKept k (modMem s fun m => { m with badMap := mdel m.badMap (hkey page hub) }) := h.same
  (hm.keep (poisonPage_keeps (by decide) (.refl _ _))).event

theorem BoundKept.homeSupply (h : BoundKept k s) {line hub : Nat} {ecc : Ecc} : BoundKept k (homeSupply s line hub ecc) := by
  unfold Machine.homeSupply
  have hm : BoundKept k (if ecc = .mapLost then loseMap (Machine.checkCopy s line hub hub (homeDirty s line hub)) (pageOfLine line) hub
      else Machine.checkCopy s line hub hub (homeDirty s line hub)) := .ite h.checkCopy.same h.checkCopy
  exact .ite hm.pageMapLost (.ite hm.dramRead hm)

theorem BoundKept.supplyLine (h : BoundKept k s) {line hub : Nat} : BoundKept k (supplyLine s line hub) := by
  unfold Machine.supplyLine
  split
  · exact h.checkCopy
  · exact h.homeSupply

theorem BoundKept.readIn (h : BoundKept k s) {who a n : Nat} : BoundKept k (readIn s who a n) := by
  unfold Machine.readIn
  exact .ite h (h.foldl fun _ _ g => BoundKept.supplyLine (g.keep (dropOthers_keeps (by decide) (.refl _ _))))

theorem BoundKept.meetRegion (h : BoundKept k s) {who a n : Nat} : BoundKept k (meetRegion s who a n) := by
  unfold Machine.meetRegion meetKeys
  exact h.readIn.foldl fun _ _ g => .ite g.raiseKeyAbsent g

/-! The device's own writes -/

theorem BoundKept.storeLine (h : BoundKept k s) {line v be : Nat} : BoundKept k (storeLine s line v be) := by
  have image {u : State} (g : BoundKept k u) (page hub : Nat) : BoundKept k (discardImage u page hub) := by
    unfold discardImage
    dsimp only
    have hp : BoundKept k (if (pageAtHub u page hub).move = some .compress
        then setPage u page hub { pageAtHub u page hub with move := none } else u) := .ite g.same g
    generalize (match (pageAtHub u page hub).st with | .packed _ => true | _ => false) = packed
    exact .ite (BoundKept.keep (BoundKept.ite hp.dramRead hp) (dropEnginePage_keeps (by decide) (.refl _ _))) (.ite hp.dramRead hp)
  unfold Machine.storeLine
  exact (h.foldl fun _ _ g => image g _ _).keep (storeBytes_keeps (by decide) (.refl _ _))

theorem BoundKept.homeInv (h : BoundKept k s) {line hub : Nat} : BoundKept k (homeInv s line hub) := by
  have hd : BoundKept k (dirEvent s line hub flagInjected) := by
    unfold dirEvent
    exact (h.keep (sendInv_keeps (by decide) (.refl _ _))).raiseFull
  unfold Machine.homeInv
  exact (BoundKept.ite hd h).keep (dropCopies_keeps (by decide) (sendInv_keeps (by decide) (.refl _ _)))

theorem BoundKept.homeWrite (h : BoundKept k s) {line v be : Nat} : BoundKept k (homeWrite s line v be) := by
  have hl : BoundKept k ((homes s line).foldl (fun s x =>
      Machine.bufPut (clearDamage (Machine.homeInv (rekeyLine s line x) line x) line x be) line x true) s) :=
    h.foldl fun _ _ g => ((BoundKept.homeInv (g.keep (rekeyLine_keeps (by decide) (.refl _ _)))).keep
      (clearDamage_keeps (by decide) (.refl _ _))).bufPut
  unfold Machine.homeWrite homeStore
  exact .ite h.same (hl.storeLine.keep (wholeClear_keeps (by decide) (.refl _ _)))

theorem BoundKept.devWrite (h : BoundKept k s) {who a v n : Nat} : BoundKept k (devWrite s who a v n) := by
  have one {u : State} (g : BoundKept k u) (line v be : Nat) : BoundKept k (writeDevLine u who line v be) := by
    unfold writeDevLine
    exact .ite g.raiseKeyAbsent (.ite g.homeWrite (.ite g.readIn g.readIn.homeWrite))
  unfold Machine.devWrite
  exact (h.foldl fun _ _ g => one g _ _ _).capCheck

/-! Completions -/

theorem BoundKept.writeComps (h : BoundKept k s) {n : Nat} {cs : List Comp} {ls : List Nat} : BoundKept k (writeComps n cs s ls).1 := by
  induction cs generalizing s ls with
  | nil => exact h
  | cons c cs ih =>
    unfold Machine.writeComps
    dsimp only
    split
    · exact ih (h.keep (stopPoisoned_keeps (by decide) (.refl _ _)))
    · refine ih ?_
      unfold writeComp
      split
      · exact BoundKept.keep h.devWrite.same (ringVector_keeps (by decide) (.refl _ _))
      · exact h

theorem BoundKept.flushList (h : BoundKept k s) {n : Nat} {cs : List (Nat × List Comp)} {ls : List Nat} :
    BoundKept k (flushList n cs s ls).1 := by
  induction cs generalizing s ls with
  | nil => exact h
  | cons c cs ih =>
    unfold Machine.flushList
    dsimp only
    split
    · exact h
    · have hr := h.foldl (xs := stepLines s n c.2.length) (f := fun s l => Machine.readIn s (ringSeat s n) (64 * l) 64)
        fun _ _ g => g.readIn
      split
      · exact ih hr.writeComps
      · exact hr.foldl fun _ _ g => g.needLine

theorem BoundKept.poisonedEvent (h : BoundKept k s) {n : Nat} : BoundKept k (poisonedEvent s n) := by
  unfold Machine.poisonedEvent
  split
  · split
    · exact BoundKept.raiseFull h.same
    · exact h
  · exact h

theorem BoundKept.flush (h : BoundKept k s) {n : Nat} : BoundKept k (flush s n) := by
  unfold Machine.flush
  split
  · exact BoundKept.poisonedEvent ((BoundKept.foldl h.flushList.same fun _ _ g => g.needLine).keep (reap_keeps (by decide) (.refl _ _)))
  · exact h

theorem BoundKept.finish (h : BoundKept k s) {n : Nat} {u : Sub} {st : BitVec 8} {data : Word64} : BoundKept k (finish s n u st data) :=
  BoundKept.flush h.same

/-! The work of a detaching seat -/

theorem BoundKept.moveOver (h : BoundKept k s) {m : Move} {st : BitVec 8} {data : Nat} : BoundKept k (moveOver s m st data) := by
  unfold Machine.moveOver
  refine .ite h ?_
  split
  · split
    · exact h.finish
    · exact h
  · exact h

theorem BoundKept.jobOver (h : BoundKept k s) {id : Nat} {j : Job} {st : BitVec 8} {data actual : Nat} :
    BoundKept k (jobOver s id j st data actual) := by
  have paid : BoundKept k (settle { s with jobs := mdel s.jobs id } j.seat j.cost actual j.fromG) :=
    BoundKept.keep h.same (settle_keeps (by decide) (.refl _ _))
  unfold Machine.jobOver
  dsimp only
  split
  · exact paid.finish
  · exact paid

theorem BoundKept.takeRefused (h : BoundKept k s) {n head avail : Nat} : BoundKept k (takeRefused s n head avail).1 := by
  unfold Machine.takeRefused
  extract_lets u bad c v
  rw [apply_ite Prod.fst]
  exact .ite h.meetRegion (BoundKept.finish (h.meetRegion.keep (takeSub_keeps (by decide) (.refl _ _))))

theorem BoundKept.takeDetaching (h : BoundKept k s) {n : Nat} {r : Ring} : BoundKept k (takeDetaching s n r).1 := by
  unfold Machine.takeDetaching
  split
  · exact h
  · split
    next e => exact h.needRegion e
    · exact h.takeRefused

theorem BoundKept.drainRing (h : BoundKept k s) {n c : Nat} : BoundKept k (drainRing n c s) := by
  induction c generalizing s with
  | zero => exact h
  | succ c ih =>
    unfold Machine.drainRing
    split
    next r _ =>
      have step := h.takeDetaching (n := n) (r := r)
      exact .ite (ih step) step
    · exact h

theorem BoundKept.drainAll (h : BoundKept k s) {n : Nat} : BoundKept k (drainAll s n) := by
  unfold Machine.drainAll
  split
  · exact h.drainRing
  · exact h

theorem BoundKept.dropFetched (h : BoundKept k s) {r : Nat} : BoundKept k (dropFetched s r) := h.foldl fun _ _ g => .ite g.finish g

theorem BoundKept.dropQueued (h : BoundKept k s) {rs : List Nat} : BoundKept k (dropQueued s rs) :=
  BoundKept.foldl h.same fun _ _ g => g.moveOver

theorem BoundKept.stopJobs (h : BoundKept k s) {n : Nat} : BoundKept k (stopJobs s n) := h.foldl fun _ _ g => g.jobOver

/-- A detach begins: every logical device stays bound or unbound. -/
theorem BoundKept.beginDetach (h : BoundKept k s) {n cause : Nat} : BoundKept k (beginDetach s n cause) := by
  unfold Machine.beginDetach
  split
  · refine .ite h ?_
    extract_lets up s1 s2 rs s3 s4
    have h2 : BoundKept k s2 := BoundKept.same (h.keep (endSession_keeps (by decide) (.refl _ _)))
    have h3 : BoundKept k s3 := h2.foldl fun _ _ g => g.same
    have h4 : BoundKept k s4 := (h3.foldl fun _ _ g => g.dropFetched).dropQueued.stopJobs
    exact h4.foldl fun _ _ g => g.drainAll
  · exact h

end
end Sys2Proof.Machine
end

section
/-! The links and the binding of logical devices (R187 to R199, R302 to R305). -/

namespace Sys2Proof.Machine
set_option Elab.async false

section
variable {s : State}

/-! A change of a link -/

/-- The changed link of a port that has it. -/
theorem link_modLink {port l : Nat} {x : Port} (f : Link → Link) (hx : s.ports[port]? = some x) (hl : l < x.links.length) :
    link (modLink s port l f) port l = f (link s port l) := by
  simp [link, modLink, hx, hl]

theorem only_modLink (s : State) (port l : Nat) (f : Link → Link) : Only [.ports] s (modLink s port l f) :=
  (modLink_keeps (by decide) (.refl _ _)).only

/-- A link as training leaves it (R188, R189). -/
def trained (rate : BitVec 3) (width : BitVec 5) (cxl : Bool) (partner : Partner) (x : Link) : Link :=
  { x with
    up := true, rate := rate, width := width, cxl := cxl, sw := partner.sw, pwr := .l0,
    flit256 := partner.flit256 || rate == 5, pid := partner.pid }

/-- A link that is up is a link of a port. -/
theorem port_of_up {port l : Nat} (h : (link s port l).up = true) : ∃ x, s.ports[port]? = some x ∧ l < x.links.length := by
  unfold link at h
  split at h
  next x hx =>
    refine ⟨x, hx, Nat.lt_of_not_le fun hl => ?_⟩
    rw [List.getD_eq_default _ _ hl] at h
    exact absurd h (by decide)
  · exact absurd h (by decide)

/-! Unbinding -/

theorem dropLd_eq (s : State) (p : Place) : dropLd s p =
    match seatOf s p with
    | some n => beginDetach (modLd s p fun l => { l with bound := false, memEn := false }) n 1
    | none => modLd s p fun l => { l with bound := false, memEn := false } := by
  unfold dropLd seatOf
  dsimp only
  rw [ld_modLd_self] <;> rfl

/-- A dropped logical device is unbound, the others are bound or not as before. -/
theorem dropLd_bound (s : State) (p q : Place) : (ld (dropLd s p) q).bound = (!decide (q = p) && (ld s q).bound) := by
  have hm : (ld (modLd s p fun l => { l with bound := false, memEn := false }) q).bound = (!decide (q = p) && (ld s q).bound) := by
    rw [ld_modLd]
    by_cases h : q = p <;> simp [h]
  rw [← hm]
  unfold dropLd
  dsimp only
  split
  · exact BoundKept.beginDetach (.refl _) q
  · rfl

/-- The logical devices of a list, dropped where they are bound: none of them is bound. -/
theorem dropBound_bound (f : Nat → Place) (xs : List Nat) (s : State) (q : Place) :
    (ld (xs.foldl (fun s k => if (ld s (f k)).bound then dropLd s (f k) else s) s) q).bound =
      (!decide (q ∈ xs.map f) && (ld s q).bound) := by
  induction xs generalizing s with
  | nil => simp
  | cons x xs ih =>
    have step : (ld (if (ld s (f x)).bound then dropLd s (f x) else s) q).bound = (!decide (q = f x) && (ld s q).bound) := by
      split
      · exact dropLd_bound s (f x) q
      next hb =>
        by_cases h : q = f x
        · subst h
          simpa using hb
        · simp [h]
    rw [List.foldl_cons, ih, step]
    simp [Bool.and_left_comm, Bool.and_assoc]

/-- None is dropped where none is bound. -/
theorem dropBound_eq (f : Nat → Place) (xs : List Nat) (h : ∀ k ∈ xs, (ld s (f k)).bound = false) :
    xs.foldl (fun s k => if (ld s (f k)).bound then dropLd s (f k) else s) s = s := by
  induction xs with
  | nil => rfl
  | cons x xs ih =>
    rw [List.forall_mem_cons] at h
    rw [List.foldl_cons, h.1]
    exact ih h.2

/-- The places of a link's sixteen logical devices differ. -/
theorem placeOf_ne {port l j k : Nat} (hj : j < 16) (hk : k < 16) (h : j ≠ k) :
    placeOf port l j ≠ placeOf port l k := fun e => by
  have := congrArg BitVec.toNat e
  simp only [placeOf, BitVec.toNat_ofNat] at this
  omega

/-- Of a link directly to a host the logical devices 1 to 15 are not bound (R194). -/
theorem directLd_unbound {port l k : Nat} (h1 : 1 ≤ k) (hk : k < 16) :
    (ld (directLd s port l) (placeOf port l k)).bound = false := by
  have dropped := dropBound_bound (fun j => placeOf port l (j + 1)) (List.range 15) s (placeOf port l k)
  have listed : placeOf port l k ∈ (List.range 15).map fun j => placeOf port l (j + 1) :=
    List.mem_map.2 ⟨k - 1, List.mem_range.2 (by omega), by rw [Nat.sub_add_cancel h1]⟩
  rw [decide_eq_true listed] at dropped
  unfold directLd
  dsimp only
  split
  · rw [ld_modLd_ne _ (placeOf_ne hk (by decide) (by omega))]
    exact dropped
  · exact dropped

/-! A host that is gone -/

/-- A host is gone for a line that no transaction holds. -/
theorem departLine_idle {line hub seat : Nat} (h : mget s.coh.txns (hkey line hub) = none)
    (g : mget s.coh.txns (hkey line (1 - hub)) = none) : departLine s line hub seat =
      filtRemove (if heldA s line hub = true ∧ seat ∈ holders s line hub then setPoison s line hub else s) line hub seat := by
  have hc : (if heldA s line hub = true ∧ seat ∈ holders s line hub then setPoison s line hub else s).coh = s.coh := by
    split
    · exact (setPoison_keeps (kl := [.mem]) (by decide) (.refl _ _)).only .coh (by decide)
    · rfl
  unfold departLine
  simp only [Bool.and_eq_true, List.contains_iff_mem, List.foldl_cons, List.foldl_nil, hc, h, g]

/-! Attaching -/

/-- The first number that no seat has. -/
theorem find_free {n : Nat} (hn : n < 64) (free : mget s.seats n = none) (below : ∀ k < n, mhas s.seats k = true) :
    (List.range 64).find? (fun n => !mhas s.seats n) = some n := by
  rw [List.find?_range_eq_some]
  refine ⟨?_, List.mem_range.2 hn, fun k hk => ?_⟩
  · simp [mhas, free]
  · simp [below k hk]

/-- The state of a device that has taken its seat, before its event. -/
def seated (s : State) (p : Place) (n : Nat) : State :=
  modLd (resetPage { s with seats := mput s.seats n (seatNew p) } (mgmtPage n)) p fun l => { l with seat := some n }

theorem seated_keeps (s : State) (p : Place) (n : Nat) :
    Keeps [.lds, .regs] { s with seats := mput s.seats n (seatNew p) } (seated s p n) :=
  modLd_keeps (by decide) (resetPage_keeps (by decide) (.refl _ _))

theorem seated_seats (s : State) (p : Place) (n : Nat) : (seated s p n).seats = mput s.seats n (seatNew p) :=
  (seated_keeps s p n).only .seats (by decide)

theorem seated_only (s : State) (p : Place) (n : Nat) : Only [.seats, .lds, .regs] s (seated s p n) := fun x hx => by
  have h := (seated_keeps s p n).only x fun hm => hx (List.mem_cons_of_mem _ hm)
  cases x with
  | seats | lds | regs => exact absurd (by decide) hx
  | _ => exact h

/-- A bound logical device of a CXL link with CXL.mem enabled takes the first free number. -/
theorem attachIf_free {p : Place} {n : Nat} (hs : started s = true) (hb : (ld s p).bound = true) (he : (ld s p).memEn = true)
    (hu : placeUp s p = true) (hc : (link s (portOf p) (linkOf p)).cxl = true) (hl : (ld s p).seat = none) (hn : n < 64)
    (free : mget s.seats n = none) (below : ∀ k < n, mhas s.seats k = true) :
    attachIf s p = bootExtents (event (seated s p n) 0x6001 0 0xFF n [(2, p.toNat)] .steward) p n := by
  unfold attachIf
  simp only [hs, hb, he, hu, hc, hl, find_free hn free below]
  rfl

/-! The event logs of a logical device -/

theorem getD_set {α : Type} (xs : List α) (d v : α) {k : Nat} (j : Nat) (hk : k < xs.length) :
    (xs.set k v).getD j d = if j = k then v else xs.getD j d := by
  simp only [List.getD_eq_getElem?_getD, List.getElem?_set]
  by_cases h : k = j
  · subst h
    simp [hk]
  · simp [h, Ne.symm h]

/-- The oldest n records of a log go; an emptied log's overflow resets. -/
def clearRecords (k n : Nat) (l : Ld) : Ld :=
  let rest := (l.logs.getD k []).drop n
  { l with logs := l.logs.set k rest
           overflow := if rest.isEmpty then l.overflow.set k false else l.overflow }

theorem execClear_eq {p : Place} {log : BitVec 2} {n : BitVec 7} (hb : (ld s p).bound = true) (hu : placeUp s p = true) :
    exec (.clearEventRecords p log n) s = .next (if n = 0 then s else modLd s p (clearRecords log.toNat n.toNat)) := by
  show execClearEventRecords p log n s = _
  unfold execClearEventRecords
  rw [hb, hu]
  by_cases hn : n = 0
  · subst hn
    rfl
  · rw [if_neg hn, if_pos (by simpa using hn)]
    rfl

/-- Clearing takes the oldest records of the one log. -/
theorem execClear_spec (p : Place) (log : BitVec 2) (n : BitVec 7) (hb : (ld s p).bound = true) (hu : placeUp s p = true)
    (hlen : (ld s p).logs.length = 4) :
    ∃ m, exec (.clearEventRecords p log n) s = .next m ∧ Only [.lds] s m ∧ (∀ q, q ≠ p → ld m q = ld s q) ∧
      (ld m p).logs.getD log.toNat [] = ((ld s p).logs.getD log.toNat []).drop n.toNat ∧
      (∀ k, k ≠ log.toNat → (ld m p).logs.getD k [] = (ld s p).logs.getD k []) := by
  refine ⟨_, execClear_eq hb hu, ?_⟩
  split
  next hn =>
    subst hn
    exact ⟨Only.refl _ _, fun _ _ => rfl, rfl, fun _ _ => rfl⟩
  · have set (k : Nat) := getD_set (ld s p).logs [] (((ld s p).logs.getD log.toNat []).drop n.toNat) k (hlen.symm ▸ log.isLt : log.toNat < _)
    refine ⟨(modLd_keeps (by decide) (.refl _ _)).only, fun q h => ld_modLd_ne _ h, ?_, fun k hk => ?_⟩
    · rw [ld_modLd_self]
      exact (set _).trans (if_pos rfl)
    · rw [ld_modLd_self]
      exact (set k).trans (if_neg hk)

end

/-- Settles O38: each command is its own definition in the case it speaks of; that the devices 1 to 15 of a direct link stay unbound rests
on a detach binding nothing (`BoundKept`). -/
theorem linksAndBinding : Obligations.LinksAndBinding := by
  unfold Obligations.LinksAndBinding
  refine ⟨?training, ?direct, ?down, fun s line hub seat h g => departLine_idle h g, ?ide, ?binding, ?memEnable, ?attach, ?decoder,
    fun s p log n hb hu hlen => execClear_spec p log n hb hu hlen⟩
  case training =>
    intro s port l rate width cxl sw flit pid x split hx hlen htr hl hw hws hr hr5 hup
    refine ⟨_, link_modLink (trained rate width cxl ⟨sw, flit, pid⟩) hx (Nat.lt_of_lt_of_eq l.isLt hlen.symm), only_modLink _ _ _ _,
      (?_ : execHostLinkTraining port l rate width cxl _ s = _)⟩
    have hsplit : splitOf (((s.ports[port.toNat]?).map fun x => x.bifMode).getD 0) = split := by rw [hx]; rfl
    unfold execHostLinkTraining
    dsimp only
    rw [hsplit, htr, hup, decide_eq_true hl, List.contains_iff_mem.2 hw, decide_eq_true hws, decide_eq_true hr, decide_eq_true hr5]
    cases cxl <;> rfl
  case direct =>
    refine fun s port l _ _ => ⟨fun k h1 hk => directLd_unbound h1 hk, fun h => ?_⟩
    have none := dropBound_eq (s := s) (fun k => placeOf port l (k + 1)) (List.range 15) fun k hk =>
      h (k + 1) (Nat.succ_pos k) (Nat.succ_lt_succ (List.mem_range.1 hk))
    unfold directLd
    rw [none]
    simp only [Bool.or_eq_true, decide_eq_true_eq]
  case down =>
    rintro s port l c (rfl | rfl) hup
    all_goals
      obtain ⟨x, hx, hl⟩ := port_of_up hup
      exact ⟨_, link_modLink (fun x => { x with up := false, downTb := s.clock.tb }) hx hl, only_modLink _ _ _ _,
        congrArg Host.Outcome.next (if_pos hup)⟩
  case ide =>
    intro s p stream key skid hw hsec hstream
    show execIdeKeyManagement p stream ⟨key, skid⟩ s = _
    simp only [execIdeKeyManagement, hw, hsec, hstream, decide_true, Bool.and_self, if_true]
  case binding =>
    refine fun s src p hd => ⟨fun hp hu hc hs hb hport hseats => ?_, ?_, fun hb hs hg => ?_⟩
    · show execMldPortBind src p s = _
      simp [execMldPortBind, fmDo, bindLd, hd, hp, hu, hc, hs, hb, hport, hseats]
    · rintro ⟨n, hn, hg⟩
      show execMldPortUnbind src p s = _
      simp [execMldPortUnbind, hn, hg]
    · have free : ((seatOf s p).map (grantedTo s)).getD false = false := by
        cases hn : seatOf s p with
        | none => rfl
        | some n => exact hg n hn
      show execMldPortUnbind src p s = _
      unfold execMldPortUnbind fmDo unbindLd
      dsimp only
      rw [free, hd, hb, hs, dropLd_eq]
      rfl
  case memEnable =>
    refine fun s p hu => ⟨fun hc hb => ?_, fun he => ?_⟩
    · show execCxlMemEnableSet p s = _
      simp only [execCxlMemEnableSet, hu, hc, hb, Bool.and_self, if_true]
    · show execCxlMemEnableClear p s = _
      simp only [execCxlMemEnableClear, hu, he, seatOf, ld_modLd_self]
      rfl
  case attach =>
    intro s p n hs hb he hu hc hl hn free below
    refine ⟨seated s p n, attachIf_free hs hb he hu hc hl hn free below, ?_, ?_, fun k hk => ?_, seated_only s p n⟩
    · rw [seatOf, seated, ld_modLd_self]
    · rw [seated_seats, mget_mput, if_pos rfl]
    · rw [seated_seats, mget_mput, if_neg hk]
  case decoder =>
    intro s p idx set hb hu hc
    show execHdmDecoderCommit p idx set s = _
    simp only [execHdmDecoderCommit, hb, hu, hc, Bool.and_self, if_true]

end Sys2Proof.Machine
end

section
/-! Requests of a seat's mailbox that pass every check (R318, R319), and what the steward's requests then do (R228 to R230, R320 to R323). -/

namespace Sys2Proof.Machine
set_option Elab.async false

section
variable {s t u : State} {n code : Nat} {body : List Nat}

/-! A request that passes every check -/

/-- An address's block has the address's key. -/
theorem keyAbsent_block (s : State) (a : Nat) : keyAbsent s (a / 2 ^ 28 * 2 ^ 28) = keyAbsent s a := by
  unfold keyAbsent extentAt
  rw [Nat.mul_div_cancel _ (by decide)]

theorem mailBuf_aligned (h : MailReady s n code body) : mailBuf s n % 512 = 0 := by
  have hb := h.buf
  unfold mailBufOk at hb
  simpa using And.left (Bool.and_eq_true_iff.1 hb)

theorem mailBuf_keyed (h : MailReady s n code body) : keyAbsent s (mailBuf s n) = false := by
  have ha := mailBuf_aligned h
  have hp : devPoison s (mailBuf s n / 64 + 0) = false := by
    have hc := h.clean
    unfold regionPoison at hc
    exact Bool.eq_false_iff.2 (List.any_eq_false.1 hc 0 (List.mem_range.2 (by omega)))
  have hk := (Bool.or_eq_false_iff.1 hp).2
  rwa [Nat.add_zero, Nat.mul_div_cancel' (by omega)] at hk

/-- The keys of a request are met in one block. -/
theorem meetKeys_keyed {a : Nat} (ha : a % 512 = 0) (hk : keyAbsent s a = false) : meetKeys s a 256 = s := by
  have one : (a + 256 - 1) / 2 ^ 28 + 1 - a / 2 ^ 28 = 1 := by omega
  have h := keyAbsent_block s a
  rw [hk] at h
  unfold meetKeys
  rw [one, List.range_one, List.foldl_cons, List.foldl_nil, Nat.add_zero]
  exact if_neg (by rw [h]; decide)

/-- The device's read of the request meets nothing. -/
theorem meetRegion_request (h : MailReady s n code body) : meetRegion s n (mailBuf s n) 256 = s := by
  obtain ⟨hc, hm, hb⟩ := h.calm.errors
  unfold meetRegion
  rw [readIn_clean _ _ _ hc hm hb h.calm.marked, meetKeys_keyed (mailBuf_aligned h) (mailBuf_keyed h)]

/-- A code whose requests need a session. -/
def Sessioned (code : Nat) : Prop := ((mailCode code).map fun c => c.2.2.1).getD false = true

/-- What runs is the request's own function, and its answer follows. -/
theorem runMail_ready (h : MailReady s n code body) (f : State → List Nat → Answer) (after : State → List Nat → State) :
    runMail s n code f after = match f s body with
      | (t, some (r, out)) =>
        if r = mOk then
          after (respond (if ((mailCode code).map fun c => c.2.2.1).getD false then touchSession t n else t) n code r out) body
        else respond t n code r out
      | (t, none) => touchSession t n := by
  have known : (mailCode code).isNone = false := Option.isNone_eq_false_iff.2 h.known
  unfold runMail
  simp only [h.seat, h.busy, h.buf, h.near, h.quiet, h.req, h.resp, meetRegion_request h, h.clean, h.names, h.pass, known,
    Bool.and_self, Bool.not_true, Bool.or_self, Bool.false_eq_true, if_false, bne_self_eq_false, h.body] <;> rfl

/-- A request that is granted is answered OK, its session's idle time restarted; what comes after the response comes last. -/
theorem runMail_okay (h : MailReady s n code body) (hs : Sessioned code) {f : State → List Nat → Answer}
    (after : State → List Nat → State) (hf : f s body = okay t) :
    runMail s n code f after = after (respond (touchSession t n) n code mOk []) body := by
  rw [runMail_ready h, hf]
  simp only [okay, if_pos (show _ = true from hs), if_pos]

/-- A request whose answer has to wait. -/
theorem runMail_none (h : MailReady s n code body) {f : State → List Nat → Answer} (after : State → List Nat → State)
    (hf : f s body = (t, none)) : runMail s n code f after = touchSession t n := by
  rw [runMail_ready h, hf]

theorem touchSession_only (s : State) (n : Nat) : Only [.seats] s (touchSession s n) :=
  (touchSession_keeps (by decide) (.refl _ _)).only

/-- The frame of a request: what its function changes, and its session. -/
theorem only_touched {l : List Piece} (h : Only l s t) : Only (l ++ [.seats]) s (touchSession t n) :=
  (h.mono (List.subset_append_left _ _)).trans ((touchSession_only t n).mono (List.subset_append_right _ _))

/-! GRANT and REVOKE -/

section
variable {b : List Nat} {r : Ring}

theorem grantReq_table {x : Table} (h : grantCheck s b false = none) (hk : byteField b 1 1 = 1)
    (hx : tableIn s (byteField b 2 2) = some x) :
    let right := byteField b 4 1
    let old := (mget x.rights (byteField b 0 1)).getD (false, false)
    grantReq s b = okay (putTable s (byteField b 2 2)
      { x with rights := mput x.rights (byteField b 0 1) (old.1 || right % 2 == 1, old.2 || right / 2 % 2 == 1) }) := by
  unfold grantReq
  simp only [h, hk, if_true, hx]

/-- A free ring as a grant leaves it. -/
def ringGranted (s : State) (who obj index : Nat) : State :=
  resetLatches { s with rings := mput s.rings obj (ringNew who index) } (ringPage obj)

theorem grantReq_ring (h : grantCheck s b false = none) (hk : byteField b 1 1 = 2)
    (free : ((mget s.rings (byteField b 2 2)).bind fun r => r.holder) = none)
    (few : (seatRings s (byteField b 0 1)).length < 16)
    (new : ∀ r ∈ seatRings s (byteField b 0 1), ((mget s.rings r).map fun x => x.index) ≠ some (byteField b 4 1)) :
    grantReq s b = okay (ringGranted s (byteField b 0 1) (byteField b 2 2) (byteField b 4 1)) := by
  have unused : ((seatRings s (byteField b 0 1)).any fun r =>
      ((mget s.rings r).map fun x : Ring => x.index) == some (byteField b 4 1)) = false :=
    List.any_eq_false.2 fun r hr => by simpa using new r hr
  unfold grantReq
  simp only [h, hk, free, unused, Nat.not_le.2 few, Option.isSome_none, Bool.false_eq_true, if_false, show ¬(2 : Nat) = 1 by decide]
  rfl

theorem revokeReq_table (h : grantCheck s b true = none) (hk : byteField b 1 1 = 1) : revokeReq n s b = okay s := by
  unfold revokeReq
  simp only [h, hk, if_true]

theorem revokeReq_unheld (h : grantCheck s b true = none) (hk : byteField b 1 1 = 2)
    (hh : ((mget s.rings (byteField b 2 2)).bind fun r => r.holder) ≠ some (byteField b 0 1)) : revokeReq n s b = okay s := by
  unfold revokeReq
  simp only [h, hk, show ¬(2 : Nat) = 1 by decide, if_false]
  cases hr : mget s.rings (byteField b 2 2) with
  | none => rfl
  | some r =>
    rw [hr] at hh
    exact if_pos (bne_iff_ne.2 hh)

/-- The ring that a REVOKE ends, disabled. -/
def ringStopped (s : State) (obj : Nat) : State := if ringEn s obj then disableRing s obj else s

/-- A held ring's REVOKE frees it where nothing is outstanding, and waits else. -/
theorem revokeReq_held (h : grantCheck s b true = none) (hk : byteField b 1 1 = 2) (hr : mget s.rings (byteField b 2 2) = some r)
    (hh : r.holder = some (byteField b 0 1)) :
    revokeReq n s b =
      if ((mget (ringStopped s (byteField b 2 2)).rings (byteField b 2 2)).map
          fun x : Ring => x.closing || !x.subs.isEmpty || !x.owed.isEmpty).getD false
        then (modRing (ringStopped s (byteField b 2 2)) (byteField b 2 2) fun x => { x with revoke := some n }, none)
        else okay (freeRing (ringStopped s (byteField b 2 2)) (byteField b 2 2)) := by
  unfold revokeReq
  simp only [h, hk, show ¬(2 : Nat) = 1 by decide, if_false, hr, hh, bne_self_eq_false, Bool.false_eq_true]
  rfl

/-- A ring with nothing outstanding is freed. -/
theorem revokeReq_idle (h : grantCheck s b true = none) (hk : byteField b 1 1 = 2) (hr : mget s.rings (byteField b 2 2) = some r)
    (hh : r.holder = some (byteField b 0 1)) (he : ringEn s (byteField b 2 2) = false) (hc : r.closing = false) (hs : r.subs = [])
    (ho : r.owed = []) : revokeReq n s b = okay (freeRing s (byteField b 2 2)) := by
  rw [revokeReq_held h hk hr hh]
  simp [ringStopped, he, hr, hc, hs, ho]

/-- A disabled ring with work outstanding waits. -/
theorem revokeReq_busy (h : grantCheck s b true = none) (hk : byteField b 1 1 = 2) (hr : mget s.rings (byteField b 2 2) = some r)
    (hh : r.holder = some (byteField b 0 1)) (he : ringEn s (byteField b 2 2) = false)
    (hb : r.closing = true ∨ r.subs ≠ [] ∨ r.owed ≠ []) :
    revokeReq n s b = (modRing s (byteField b 2 2) fun x => { x with revoke := some n }, none) := by
  have wait : (r.closing || !r.subs.isEmpty || !r.owed.isEmpty) = true := by
    simpa [or_assoc] using hb
  rw [revokeReq_held h hk hr hh]
  simp [ringStopped, he, hr, wait]

/-- An enabled ring is disabled, and waits. -/
theorem revokeReq_enabled (h : grantCheck s b true = none) (hk : byteField b 1 1 = 2) (hr : mget s.rings (byteField b 2 2) = some r)
    (hh : r.holder = some (byteField b 0 1)) (he : ringEn s (byteField b 2 2) = true) :
    revokeReq n s b =
      (modRing (disableRing s (byteField b 2 2)) (byteField b 2 2) fun x => { x with revoke := some n }, none) := by
  rw [revokeReq_held h hk hr hh]
  simp [ringStopped, he, mget_disableRing hr]

/-! A ring that returns to the free state -/

theorem freeRing_rings (s : State) (n : Nat) : (freeRing s n).rings = mmod s.rings n fun x => { x with
    holder := none, armed := false, detaching := false, closing := false, subs := [], owed := [], revoke := none } := rfl

theorem freeRing_ring (hr : mget s.rings n = some r) :
    ((mget (freeRing s n).rings n).map fun x => (x.holder, x.subs, x.owed)) = some (none, [], []) := by
  rw [freeRing_rings, mget_mmod, if_pos rfl, hr]
  rfl

theorem freeRing_ring_ne {m : Nat} (h : m ≠ n) : mget (freeRing s n).rings m = mget s.rings m := by
  rw [freeRing_rings, mget_mmod, if_neg h]

/-! Rights to a table -/

/-- What a REVOKE leaves of a seat's rights to a table. -/
def cutRights (who right : Nat) (t : Table) : Table :=
  match mget t.rights who with
  | some r =>
    let r := (r.1 && right % 2 == 0, r.2 && right / 2 % 2 == 0)
    { t with rights := if r.1 || r.2 then mput t.rights who r else mdel t.rights who }
  | none => t

theorem revokeRights_table (h : byteField b 1 1 = 1) : revokeRights s b =
    { s with tables := mmod s.tables (byteField b 2 2) (cutRights (byteField b 0 1) (byteField b 4 1)) } := by
  unfold revokeRights
  rw [if_pos h]
  rfl

theorem cutRights_spec {x : Table} {who right : Nat} {r : Bool × Bool} (h : mget x.rights who = some r) (hr : KeysRise x.rights) :
    let r' := (r.1 && right % 2 == 0, r.2 && right / 2 % 2 == 0)
    mget (cutRights who right x).rights who = (if r' = (false, false) then none else some r') ∧
      (∀ k, k ≠ who → mget (cutRights who right x).rights k = mget x.rights k) ∧
      cutRights who right x = { x with rights := (cutRights who right x).rights } := by
  intro r'
  have rising : Rising 0 x.rights := KeysRise.rising hr fun _ _ => Nat.zero_le _
  have rights : (cutRights who right x).rights = if r'.1 || r'.2 then mput x.rights who r' else mdel x.rights who := by
    unfold cutRights
    rw [h]
  refine ⟨?_, fun k hk => ?_, ?_⟩
  · rw [rights]
    obtain ⟨_ | _, _ | _⟩ := r' <;> simp [mget_mdel _ _ _ rising]
  · rw [rights]
    split
    · exact mget_mput_ne _ _ hk
    · rw [mget_mdel _ _ _ rising, if_neg hk]
  · unfold cutRights
    rw [h]

end

end
end Sys2Proof.Machine
end

section
/-! The steward's other requests (R196, R228, R229, R320), KEYS.ZERO (R230), and what they settle. -/

namespace Sys2Proof.Machine
set_option Elab.async false

section
variable {s t : State} {n : Nat} {b : List Nat}

theorem revokeRights_tables (h : byteField b 1 1 = 1) :
    (revokeRights s b).tables = mmod s.tables (byteField b 2 2) (cutRights (byteField b 0 1) (byteField b 4 1)) := by
  rw [revokeRights_table h]

theorem revokeRights_only (s : State) (b : List Nat) : Only [.tables] s (revokeRights s b) :=
  (revokeRights_keeps (by decide) (.refl _ _)).only

theorem revokeRights_other (h : byteField b 1 1 ≠ 1) : revokeRights s b = s := if_neg h

/-! TABLE_OWNER and KEY_LOAD -/

/-- The bases that a TABLE_OWNER gives a table. -/
def rebased (x : Table) (b : List Nat) : Table :=
  { x with cbase := if byteField b 3 1 % 2 == 1 then byteField b 4 8 % 2 ^ 43 else x.cbase,
           fbase := if byteField b 3 1 / 2 % 2 == 1 then byteField b 12 8 % 2 ^ 43 else x.fbase }

/-- A table's rights under a new owner: the old one keeps both as grants. -/
def keptRights (x : Table) (owner : Nat) : SMap (Bool × Bool) :=
  match x.owner with
  | some o => if o = owner then x.rights else mput x.rights o (true, true)
  | none => x.rights

theorem keptRights_old {x : Table} {o owner : Nat} (h : x.owner = some o) (ho : o ≠ owner) :
    mget (keptRights x owner) o = some (true, true) := by
  unfold keptRights
  rw [h]
  dsimp only
  rw [if_neg ho, mget_mput_self]

theorem tableOwner_okay {x : Table} (hx : tableIn s (byteField b 0 2) = some x) (hf : byteField b 3 1 ≤ 3) (hz : byteField b 20 4 = 0)
    (hc : (byteField b 3 1 % 2 == 1) = true → x.cnt = true) (hr : (byteField b 3 1 / 2 % 2 == 1) = true → x.far = true)
    (ho : byteField b 2 1 ≤ 63) (hs : mhas s.seats (byteField b 2 1) = true)
    (hreg : regionsOk s (rebased x b) (byteField b 2 1) (byteField b 3 1 % 2 == 1) (byteField b 3 1 / 2 % 2 == 1) = true) :
    tableOwner s b = okay (putTable s (byteField b 0 2)
      { rebased x b with owner := some (byteField b 2 1), rights := keptRights x (byteField b 2 1) }) := by
  have counted : (byteField b 3 1 % 2 == 1 && !x.cnt) = false := by
    cases h : byteField b 3 1 % 2 == 1 with
    | false => rfl
    | true => rw [hc h]; rfl
  have afar : (byteField b 3 1 / 2 % 2 == 1 && !x.far) = false := by
    cases h : byteField b 3 1 / 2 % 2 == 1 with
    | false => rfl
    | true => rw [hr h]; rfl
  unfold rebased at hreg
  unfold tableOwner
  simp only [hx, hz, counted, afar, hs, hreg, Nat.not_lt.2 hf, Nat.not_lt.2 ho, decide_false, bne_self_eq_false, Bool.or_self,
    Bool.not_true, Bool.false_eq_true, if_false]
  rfl

/-- The slot that a KEY_LOAD fills. -/
def slotOf (k : List Nat) (owner : Nat) : KeySlot :=
  ⟨BitVec.ofNat 512 (ofBytes (k.take 32) * 2 ^ 256 + ofBytes (k.drop 32)), some owner⟩

theorem keyLoad_okay {k : List Nat} (hslot : byteField b 0 2 ≤ 127) (ho : byteField b 2 2 ≤ 63) (hz : byteField b 76 4 = 0)
    (hs : mhas s.seats (byteField b 2 2) = true) (hk : unwrap s n ((b.drop 4).take 72) = some k) (hne : k.take 32 ≠ k.drop 32)
    (hb : slotBound s (byteField b 0 2) = false) :
    keyLoad n s b = okay { s with keys := mput s.keys (byteField b 0 2) (slotOf k (byteField b 2 2)) } := by
  unfold keyLoad
  simp only [hz, hs, hk, hb, if_neg hne, Nat.not_lt.2 hslot, Nat.not_lt.2 ho, decide_false, bne_self_eq_false, Bool.or_self,
    Bool.not_true, Bool.false_eq_true, if_false]
  rfl

theorem mget_disableRing_ne (s : State) {j : Nat} (h : j ≠ n) : mget (disableRing s n).rings j = mget s.rings j :=
  mget_modRing_ne (setReg s (ringPage n + 8) (reg s (ringPage n + 8) &&& 0xFFFE)) _ h

/-- The pieces that a request's response may touch. -/
def respondPieces : List Piece :=
  [.boot, .pkg, .lds, .seats, .extents, .mem, .coh, .covs, .life, .log, .regs, .wire]

/-! FM_TUNNEL -/

theorem BoundKept.capacityEvent {k : State} (h : BoundKept k s) {seats : List Nat} {kind base : Nat} :
    BoundKept k (capacityEvent s seats kind base) :=
  h.foldl fun u x g => by
    refine BoundKept.same (s := match seatPlace u x with
      | some p => Machine.modLd u p (ldRecord 0 _)
      | none => u) ?_
    split
    · exact g.modLd _ (ldRecord_bound _ _)
    · exact g

theorem BoundKept.addExtents {k : State} (h : BoundKept k s) {exts : List ExtentReq} {g : Bool} :
    BoundKept k (addExtents s exts g) :=
  h.foldl fun u e hu =>
    (BoundKept.same (hu.keep (zeroBlock_keeps (base := e.base.toNat) (by decide) (.refl _ _)))).capacityEvent

/-- A seat that attaches leaves every logical device bound or unbound as it was. -/
theorem BoundKept.attachIf {k : State} (h : BoundKept k s) {p : Place} : BoundKept k (attachIf s p) := by
  unfold Machine.attachIf
  refine .ite h ?_
  split
  · exact h.event
  next n _ =>
    have seat : BoundKept k (seated s p n) :=
      BoundKept.modLd (BoundKept.keep h.same (resetPage_keeps (by decide) (.refl _ _))) p fun _ => rfl
    exact seat.event.foldl fun _ _ g => .ite (.ite g g.addExtents) g

/-- A logical device is bound exactly where its port, link and number allow it. -/
theorem bindLd_ok (s : State) (p : Place) : (bindLd s p).2 = true ↔ placeOk s p = true ∧ (link s (portOf p) (linkOf p)).up = true ∧
    (link s (portOf p) (linkOf p)).cxl = true ∧ (link s (portOf p) (linkOf p)).sw = true ∧ (ld s p).bound = false ∧
    portBound s (portOf p) < 16 ∧ s.seats.length < 64 := by
  unfold bindLd
  dsimp only
  split
  next h =>
    simp only [Bool.and_eq_true, Bool.not_eq_true', decide_eq_true_eq, and_assoc] at h
    exact iff_of_true rfl h
  next h =>
    simp only [Bool.and_eq_true, Bool.not_eq_true', decide_eq_true_eq, and_assoc] at h
    exact iff_of_false Bool.false_ne_true h

theorem bindLd_bound {p : Place} (h : (bindLd s p).2 = true) : (ld (bindLd s p).1 p).bound = true := by
  unfold bindLd at h ⊢
  dsimp only at h ⊢
  split at h
  next hc =>
    rw [if_pos hc, (BoundKept.attachIf (.refl _)) p, ld_modLd_self]
  · exact absurd h Bool.false_ne_true

theorem unbindLd_unbound {p : Place} (h : (unbindLd s p).2 = true) : (ld (unbindLd s p).1 p).bound = false := by
  unfold unbindLd at h ⊢
  split at h
  next hc =>
    rw [if_pos hc, dropLd_bound]
    simp
  · exact absurd h Bool.false_ne_true

theorem addRequest_ok_iff (s : State) (exts : List ExtentReq) (g : Bool) :
    (addRequest s exts g).2 = true ↔ exts = [] ∨ addOk s exts = true := by
  cases exts with
  | nil => exact iff_of_true rfl (.inl rfl)
  | cons e exts =>
    cases h : addOk s (e :: exts) with
    | true => rw [addRequest_ok (List.cons_ne_nil _ _) h]; simp
    | false => rw [addRequest_refused (List.cons_ne_nil _ _) h]; simp

theorem addRequest_false {exts : List ExtentReq} {g : Bool} (h : (addRequest s exts g).2 = false) : (addRequest s exts g).1 = s := by
  obtain ⟨hne, hok⟩ := not_or.1 fun ok => Bool.false_ne_true (h.symm.trans ((addRequest_ok_iff s exts g).2 ok))
  rw [addRequest_refused hne (Bool.eq_false_iff.2 hok)]

/-- What the steward adds is a steward grant (R196). -/
theorem addRequest_granted {exts : List ExtentReq} {e : ExtentReq} {g : Bool} (h : (addRequest s exts g).2 = true) (he : e ∈ exts) :
    ((mget (addRequest s exts g).1.extents e.base.toNat).map fun x => x.granted) = some g := by
  have hne : exts ≠ [] := List.ne_nil_of_mem he
  have ok : addOk s exts = true := ((addRequest_ok_iff s exts g).1 h).resolve_left hne
  rw [addRequest_ok hne ok, addExtents_extent (addOk_nodup ok) he]
  rfl

/-! KEYS.ZERO -/

/-- A pending write of KEYS.ZERO is taken. -/
def pendingTaken (s : State) (p : Place) : State :=
  modRegs s fun r => { r with guards := mdel r.guards (ldKey p (pageBase (globalPage 6 + 0x800))) }

theorem pendingTaken_only (s : State) (p : Place) : Only [.keys, .regs] s (pendingTaken s p) :=
  (modRegs_keeps (by decide) (.refl _ _)).only

theorem keysZero_takesEffect {p : Place} {w v : Word32} (h : TakesEffect s p (globalPage 6 + 0x800) w v) :
    keysZero p w s = zeroWrite (pendingTaken s p) v := by
  obtain ⟨⟨pg, hl, hg⟩, -, hm, hv, hmask, hdata⟩ := h
  obtain ⟨g, hg⟩ := Option.isSome_iff_exists.1 hg
  unfold keysZero guardEffect guardSecond
  simp only [hl, hg, hm, hmask, if_neg hv, hdata, decide_true, Bool.and_self, if_true]
  rfl

theorem zeroWrite_only (s : State) (w : Word32) : Only [.keys, .regs] s (zeroWrite s w) :=
  (zeroWrite_keeps (by decide) (.refl _ _)).only

/-- The keys that a word of KEYS.ZERO leaves. -/
theorem zeroWrite_keys (s : State) (w : Word32) :
    (zeroWrite s w).keys =
      if (maskedWrite w 0x80FF (reg s (globalPage 6 + 0x800))).getLsbD 15 then []
      else if (maskedWrite w 0x80FF (reg s (globalPage 6 + 0x800))).getLsbD 7
        then mdel s.keys (bits (maskedWrite w 0x80FF (reg s (globalPage 6 + 0x800))) 6 0)
        else s.keys := by
  unfold zeroWrite
  dsimp only
  split
  · rfl
  · split <;> rfl

/-! The commands -/

section
variable {seat : BitVec 6} {body : List Nat}

theorem exec_grant (h : MailReady s seat.toNat 0x20 body) (hf : grantReq s body = okay t) :
    exec (.grant seat) s = .next (respond (touchSession t seat.toNat) seat.toNat 0x20 mOk []) := by
  show execGrant seat s = _
  unfold execGrant
  rw [runMail_okay h rfl noAfter hf, noAfter]

theorem exec_revoke (h : MailReady s seat.toNat 0x21 body) (hf : revokeReq seat.toNat s body = okay t) :
    exec (.revoke seat) s = .next (revokeRights (respond (touchSession t seat.toNat) seat.toNat 0x21 mOk []) body) := by
  show execRevoke seat s = _
  unfold execRevoke
  rw [runMail_okay h rfl revokeRights hf]

theorem exec_revoke_wait (h : MailReady s seat.toNat 0x21 body) (hf : revokeReq seat.toNat s body = (t, none)) :
    exec (.revoke seat) s = .next (touchSession t seat.toNat) := by
  show execRevoke seat s = _
  unfold execRevoke
  rw [runMail_none h revokeRights hf]

theorem exec_tableOwner (h : MailReady s seat.toNat 0x48 body) (hf : tableOwner s body = okay t) :
    exec (.tableOwner seat) s = .next (respond (touchSession t seat.toNat) seat.toNat 0x48 mOk []) := by
  show execTableOwner seat s = _
  unfold execTableOwner
  rw [runMail_okay h rfl noAfter hf, noAfter]

theorem exec_keyLoad (h : MailReady s seat.toNat 0x38 body) (hf : keyLoad seat.toNat s body = okay t) :
    exec (.keyLoad seat) s = .next (respond (touchSession t seat.toNat) seat.toNat 0x38 mOk []) := by
  show execKeyLoad seat s = _
  unfold execKeyLoad
  rw [runMail_okay h rfl noAfter hf, noAfter]

theorem exec_fmTunnel (cmd : FmCmd) (h : MailReady s seat.toNat 0x40 body) :
    let x := fmSteward (respond (touchSession s seat.toNat) seat.toNat 0x40 mOk []) cmd
    exec (.fmTunnel seat cmd) s = .next (send x.1 (.fmAnswer x.2)) := by
  show execFmTunnel seat cmd s = _
  unfold execFmTunnel
  rw [runMail_okay h rfl _ rfl]

/-- What a tunnelled command's answer says of it. -/
def TunnelAnswers (m t : State) (ok : Bool) (cmd : FmCmd) : Prop :=
  (∀ exts, cmd = .add exts → (ok = true ↔ exts = [] ∨ addOk m exts = true) ∧ (ok = false → Only [.wire] m t) ∧
    (ok = true → ∀ e ∈ exts, ((mget t.extents e.base.toNat).map fun x => x.granted) = some true)) ∧
  (∀ who bases forced, cmd = .release who bases forced → ok = true) ∧
  (∀ p, cmd = .bind p → (ok = true ↔ placeOk m p = true ∧ (link m (portOf p) (linkOf p)).up = true ∧
    (link m (portOf p) (linkOf p)).cxl = true ∧ (link m (portOf p) (linkOf p)).sw = true ∧ (ld m p).bound = false ∧
    portBound m (portOf p) < 16 ∧ m.seats.length < 64) ∧ (ok = true → (ld t p).bound = true)) ∧
  (∀ p, cmd = .unbind p → (ok = true → (ld t p).bound = false))

theorem send_only (s : State) (o : Out) : Only [.wire] s (send s o) := (send_keeps (by decide) (.refl _ _)).only

theorem fmSteward_answers (m : State) (cmd : FmCmd) :
    TunnelAnswers m (send (fmSteward m cmd).1 (.fmAnswer (fmSteward m cmd).2)) (fmSteward m cmd).2 cmd := by
  refine ⟨?_, ?_, ?_, ?_⟩
  · rintro exts rfl
    refine ⟨addRequest_ok_iff m exts true, fun h => ?_, fun h e he => addRequest_granted h he⟩
    have same : (fmSteward m (.add exts)).1 = m := addRequest_false h
    rw [same]
    exact send_only _ _
  · rintro who bases forced rfl
    rfl
  · rintro p rfl
    exact ⟨bindLd_ok m p, bindLd_bound⟩
  · rintro p rfl
    exact unbindLd_unbound

end

end

/-- Settles O45: each request passes its checks by the hypotheses, so its own function runs, and its session is touched; FM_TUNNEL's command
follows the response. -/
theorem grantsKeysAndOwners : Obligations.GrantsKeysAndOwners := by
  unfold Obligations.GrantsKeysAndOwners
  refine ⟨fun s seat body => ?_, ?keysZero⟩
  · intro n who obj right
    refine ⟨fun h hc => ⟨fun x hk hx => ?grantTable, fun hk free few new => ?grantRing⟩,
      fun h hc => ⟨fun hk => ?revokeTable, fun hk hh => ?revokeNone, fun r hk hr hh =>
        ⟨fun he hcl hs ho => ?revokeIdle, fun he hb => ?revokeBusy, fun he => ?revokeEnabled⟩⟩, ?owner,
      fun k h hslot ho hz hs hk hne hb => ?key, fun cmd h => ?tunnel⟩
    case grantTable =>
      exact ⟨_, exec_grant h (grantReq_table hc hk hx), mget_mput_self _ _ _, fun j hj => mget_mput_ne _ _ hj,
        only_touched (l := [.tables]) (putTable_keeps (by decide) (.refl _ _)).only⟩
    case grantRing =>
      refine ⟨_, exec_grant h (grantReq_ring hc hk free few new), mget_mput_self _ _ _, fun j hj => mget_mput_ne _ _ hj,
        fun _ _ => rfl, only_touched (l := [.rings, .regs]) fun p hp => ?_⟩
      cases p with
      | rings | regs => exact absurd (by decide) hp
      | _ => rfl
    case revokeTable =>
      have tables : (respond (touchSession s n) n 0x21 mOk []).tables = s.tables :=
        (respond_keeps (by decide) (touchSession_keeps (by decide) (Keeps.refl respondPieces s))).only .tables (by decide)
      have left (j : Nat) := congrArg (mget · j) ((revokeRights_tables hk).trans (congrArg (mmod · _ _) tables))
      refine ⟨_, _, exec_revoke h (revokeReq_table hc hk), touchSession_only _ _, revokeRights_only _ _,
        fun j hj => (left j).trans ((mget_mmod _ _ _ _).trans (if_neg hj)),
        fun x r hx hr hrise => ⟨cutRights who right x, (left obj).trans ?_, cutRights_spec hr hrise⟩⟩
      exact (mget_mmod _ _ _ _).trans ((if_pos rfl).trans (congrArg _ hx))
    case revokeNone =>
      have run := exec_revoke h (revokeReq_unheld hc hk hh)
      rw [revokeRights_other (by rw [hk]; decide)] at run
      exact ⟨_, run, touchSession_only _ _⟩
    case revokeIdle =>
      have run := exec_revoke h (revokeReq_idle hc hk hr hh he hcl hs ho)
      rw [revokeRights_other (by rw [hk]; decide)] at run
      exact ⟨_, run, freeRing_ring hr, fun j hj => freeRing_ring_ne hj⟩
    case revokeBusy =>
      exact ⟨_, exec_revoke_wait h (revokeReq_busy hc hk hr hh he hb), mget_modRing_of hr _, fun j hj => mget_modRing_ne _ _ hj,
        only_touched (modRing_only _ _ _)⟩
    case revokeEnabled =>
      refine ⟨_, _, exec_revoke_wait h (revokeReq_enabled hc hk hr hh he), ?_, mget_modRing_of (mget_disableRing hr) _, rfl,
        fun j hj => ?_, only_touched (l := [.rings, .regs]) ?_⟩
      · have off : reg (disableRing s obj) (ringPage obj + 8) = reg s (ringPage obj + 8) &&& 0xFFFE := reg_disableRing s obj
        show (reg (disableRing s obj) (ringPage obj + 8)).getLsbD 0 = false
        rw [off]
        simp
      · exact (mget_modRing_ne _ _ hj).trans (mget_disableRing_ne s hj)
      · exact ((disableRing_only s obj).mono (by decide)).trans ((modRing_only _ _ _).mono (by decide))
    case owner =>
      intro x h hx hf hz owner newc newf t1 hcnt hfar ho hs hreg
      exact ⟨_, _, exec_tableOwner h (tableOwner_okay hx hf hz hcnt hfar ho hs hreg), mget_mput_self _ _ _, rfl, rfl, rfl, rfl,
        fun o h ho => keptRights_old h ho, fun j hj => mget_mput_ne _ _ hj,
        only_touched (l := [.tables]) (putTable_keeps (by decide) (.refl _ _)).only⟩
    case key =>
      refine ⟨_, exec_keyLoad h (keyLoad_okay hslot ho hz hs hk hne hb), mget_mput_self _ _ _, fun j hj => mget_mput_ne _ _ hj,
        only_touched (l := [.keys]) fun p hp => ?_⟩
      cases p with
      | keys => exact absurd (by decide) hp
      | _ => rfl
    case tunnel =>
      exact ⟨_, _, _, touchSession_only _ _, exec_fmTunnel cmd h, rfl, fmSteward_answers _ cmd⟩
  case keysZero =>
    intro s p w v c a x hc ht hr
    have run : exec c s = .next (zeroWrite (pendingTaken s p) v) := by
      rcases hc with rfl | rfl <;> exact congrArg Host.Outcome.next (keysZero_takesEffect ht)
    have keys : (zeroWrite (pendingTaken s p) v).keys =
        if x.getLsbD 15 then [] else if x.getLsbD 7 then mdel s.keys (bits x 6 0) else s.keys := zeroWrite_keys _ v
    refine ⟨_, run, (pendingTaken_only s p).trans (zeroWrite_only _ _), fun h => ?_, fun h g => ⟨?_, fun j hj => ?_⟩, fun h g => ?_⟩
    · rw [keys, if_pos h]
    · rw [keys, h, g]
      exact (mget_mdel _ _ _ (KeysRise.rising hr fun _ _ => Nat.zero_le _)).trans (if_pos rfl)
    · rw [keys, h, g]
      exact (mget_mdel _ _ _ (KeysRise.rising hr fun _ _ => Nat.zero_le _)).trans (if_neg hj)
    · rw [keys, h, g]
      rfl

end Sys2Proof.Machine
end

section
/-! What background work on a page leaves as it was (R214 to R218): where no error waits to be met, a snapshot, a move and the lines it
writes back change no byte that the device reads and no other page. -/

namespace Sys2Proof.Machine
set_option Elab.async false

/-- No injected error waits to be met (R290 to R292). -/
structure ErrorFree (s : State) : Prop where
  copies : s.coh.damage = []
  media : s.mem.damage = []
  maps : s.mem.badMap = []

/-- Every byte reads as before, pages are as before, and no error has come. -/
structure Stands (s t : State) : Prop where
  views : Views s t
  pages : t.mem.pages = s.mem.pages
  clean : ErrorFree t

/-- What stands where no error waited before. -/
def Still (s t : State) : Prop := ErrorFree s → Stands s t

section
variable {s t u : State} {line hub a page : Nat}

theorem Still.refl (s : State) : Still s s := fun e => ⟨Views.refl s, rfl, e⟩

theorem Still.trans (h : Still s t) (g : Still t u) : Still s u := fun e =>
  have k := g (h e).clean
  ⟨(h e).views.trans k.views, k.pages.trans (h e).pages, k.clean⟩

theorem Still.ite {c : Prop} [Decidable c] (h : Still s t) (g : Still s u) : Still s (if c then t else u) := by
  split <;> assumption

theorem Still.foldl {α : Type} {f : State → α → State} {xs : List α} (h : Still s t) (hf : ∀ u x, Still u (f u x)) :
    Still s (xs.foldl f t) := by
  induction xs generalizing t with
  | nil => exact h
  | cons x xs ih => exact ih (h.trans (hf t x))

/-- An operation outside memory, copies, keys, extents and the mode. -/
theorem Still.of_keeps {l : List Piece} (k : Keeps l s t)
    (h : Piece.mem ∉ l ∧ Piece.keys ∉ l ∧ Piece.extents ∉ l ∧ Piece.pkg ∉ l) (hc : Piece.coh ∉ l) : Still s t := fun e =>
  have hm := k.only .mem h.1
  ⟨Views.of_keeps k h, congrArg _ hm, (congrArg _ (k.only .coh hc)).trans e.copies, (congrArg _ hm).trans e.media,
    (congrArg _ hm).trans e.maps⟩

/-- A change of copies that brings no error. -/
theorem Still.modCoh (s : State) {f : Coh → Coh} (h : s.coh.damage = [] → (f s.coh).damage = []) : Still s (modCoh s f) := fun e =>
  ⟨modCoh_views s f, rfl, h e.copies, e.media, e.maps⟩

/-! Copies and write-backs -/

theorem checkCopy_clean (e : ErrorFree s) (dirty : Bool) : checkCopy s line hub a dirty = s := by
  unfold checkCopy
  rw [e.copies]
  rfl

theorem checkCopy_still (dirty : Bool) : Still s (checkCopy s line hub a dirty) := fun e => by
  rw [checkCopy_clean e]
  exact Still.refl s e

theorem writeDamage_clean (e : ErrorFree s) : writeDamage s line hub = s := by
  unfold writeDamage
  rw [e.media]
  rfl

theorem writeDamage_still : Still s (writeDamage s line hub) := fun e => by
  rw [writeDamage_clean e]
  exact Still.refl s e

theorem mediaWrite_still (h2 : hub < 2) : Still s (mediaWrite s line hub) := fun e => by
  unfold mediaWrite
  rw [writeDamage_clean e]
  dsimp only
  split
  next k hk => exact ⟨markOne_views h2 hk, rfl, e.copies, e.media, e.maps⟩
  · exact Still.refl s e

theorem queueWb_still : Still s (queueWb s line hub) := by
  unfold queueWb
  exact .modCoh s id

theorem cleanHome_still (h2 : hub < 2) : Still s (cleanHome s line hub) := by
  unfold cleanHome
  exact ((checkCopy_still true).trans (.ite queueWb_still (mediaWrite_still h2))).trans (.modCoh _ id)

theorem hubRoom_still (h2 : hub < 2) : Still s (hubRoom s hub) := by
  unfold hubRoom
  refine .ite (.refl s) ?_
  split
  · exact cleanHome_still h2
  · exact .refl s

theorem toWb_still (h2 : hub < 2) : Still s (toWb s line hub) := (hubRoom_still h2).trans queueWb_still

theorem setDir_still : Still s (setDir s line hub) := by
  unfold setDir
  exact .modCoh s id

theorem setCopy_still (c : Option CopySt) : Still s (setCopy s line hub a c) := by
  unfold setCopy
  refine .modCoh s fun h => ?_
  dsimp only
  rw [h]
  split <;> rfl

theorem cleanCopy_still (k : Nat) : Still s (cleanCopy s k) := by
  have h2 : k / 32 % 2 < 2 := Nat.mod_lt _ (by decide)
  unfold cleanCopy
  exact .ite (cleanHome_still h2)
    ((((checkCopy_still true).trans (toWb_still h2)).trans (setCopy_still _)).trans setDir_still)

theorem dropEnginePage_still : Still s (dropEnginePage s page hub) :=
  Still.foldl (.refl s) fun _ _ => (setCopy_still none).trans setDir_still

/-! A line for an engine -/

theorem checkLine_still : Still s (checkLine s line hub) :=
  Still.foldl (checkCopy_still _) fun _ _ => checkCopy_still _

theorem wakeHolders_still : Still s (wakeHolders s line hub) :=
  Still.of_keeps (l := [.pins, .fronds, .tally, .regs, .wire]) (wakeHolders_keeps (by decide) (.refl _ _)) (by decide) (by decide)

theorem hostShare_still : Still s (hostShare s line hub) := by
  have woken : Still s (checkLine (wakeHolders s line hub) line hub) := wakeHolders_still.trans checkLine_still
  unfold hostShare
  dsimp only
  split
  · exact woken
  · refine (Still.foldl woken fun u x => ?_).trans setDir_still
    split
    · exact setCopy_still _
    · exact setCopy_still _
    · exact .refl u

theorem invAll_still (h2 : hub < 2) (keep : Bool) : Still s (invAll s line hub keep) := by
  have dropped : Still s (dropCopies (sendInv (checkLine (wakeHolders s line hub) line hub) line
      (sharersOf (checkLine (wakeHolders s line hub) line hub) line hub)) line hub) :=
    ((wakeHolders_still.trans checkLine_still).trans
      (.of_keeps (l := [.wire]) (sendInv_keeps (by decide) (.refl _ _)) (by decide) (by decide))).trans
      (.modCoh _ fun h => by dsimp only; rw [h]; rfl)
  unfold invAll
  exact .ite (dropped.trans (toWb_still h2)) dropped

theorem makeRoom_still (h2 : hub < 2) (h : makeRoom s line hub = some t) : Still s t := by
  unfold makeRoom at h
  split at h
  · exact Option.some.inj h ▸ .refl s
  · split at h
    · cases h
    · split at h <;> cases h
      · exact .refl s
      · exact (invAll_still h2 true).trans (.modCoh _ id)

theorem engineTake_still (h2 : hub < 2) (h : engineTake s line hub a = some t) : Still s t := by
  unfold engineTake at h
  split at h
  · cases h
  · obtain ⟨v, hv, rfl⟩ := Option.map_eq_some_iff.1 h
    exact ((((makeRoom_still h2 hv).trans (.modCoh _ id)).trans hostShare_still).trans (setCopy_still _)).trans setDir_still

/-- An engine's lines are taken one after another, or not at all. -/
theorem engineTakes_still (h2 : hub < 2) (f : Nat → Nat) {xs : List Nat} {o : Option State} (ho : ∀ u, o = some u → Still s u) :
    ∀ u, xs.foldl (fun o i => o.bind fun s => engineTake s (f i) hub a) o = some u → Still s u := by
  induction xs generalizing o with
  | nil => exact ho
  | cons x xs ih =>
    refine ih fun u hu => ?_
    obtain ⟨v, hv, hu⟩ := Option.bind_eq_some_iff.1 hu
    exact (ho v hv).trans (engineTake_still h2 hu)

theorem engineFor_still (h : engineFor s page hub = some (t, a)) : Still s t := by
  unfold engineFor at h
  dsimp only at h
  split at h
  · cases h
    exact .refl s
  · split at h <;> cases h
    exact dropEnginePage_still

/-! Reads that meet nothing -/

theorem supplyLine_clean (e : ErrorFree s) : supplyLine s line hub = s := by
  unfold supplyLine
  split
  · exact checkCopy_clean e _
  · unfold homeSupply
    have error : mediaError s line hub = 0 := by unfold mediaError; rw [e.media]; rfl
    have lost : mediaLost s line hub = false := by unfold mediaLost; rw [e.media]; rfl
    have read (c : BitVec 48) : dramRead s line hub .good c = s := by
      unfold dramRead
      simp [error, lost]
    have mapped : mhas s.mem.badMap (hkey (pageOfLine line) hub) = false := by rw [e.maps]; rfl
    simp only [checkCopy_clean e, mapped, read, reduceCtorEq, Bool.false_eq_true, if_false, ite_self]

theorem readPage_clean (e : ErrorFree s) : readPage s page hub = s := by
  unfold readPage
  rw [e.copies, e.media, e.maps]
  rfl

/-- No line of a page is stale: it is kept as it is. -/
theorem rewriteKeys_fresh (h2 : hub < 2) (f : Fresh s) : rewriteKeys s page hub = s := by
  unfold rewriteKeys
  generalize List.range 64 = xs
  induction xs with
  | nil => rfl
  | cons x xs ih => rw [List.foldl_cons, rekeyLine_fresh h2 f, ih]

end
end Sys2Proof.Machine
end

section
/-! The pages that background work changes (R213 to R218, R224). -/

namespace Sys2Proof.Machine
set_option Elab.async false

section
variable {s t u : State} {h n : Nat}

/-! The page map -/

theorem mget_setPage (s : State) (n h : Nat) (p : Page) (k : Nat) :
    mget (setPage s n h p).mem.pages k = if k = hkey n h then some p else mget s.mem.pages k := mget_mput ..

@[simp] theorem pageAtHub_setPage_self (s : State) (n h : Nat) (p : Page) : pageAtHub (setPage s n h p) n h = p := by
  unfold pageAtHub
  rw [mget_setPage, if_pos rfl]
  rfl

theorem pageAtHub_congr (e : t.mem.pages = s.mem.pages) (q k : Nat) : pageAtHub t q k = pageAtHub s q k := by
  unfold pageAtHub
  rw [e]

/-- A map whose values change where the keys pass a test. -/
theorem mget_map_where {α : Type} (m : SMap α) (c : Nat → Prop) [DecidablePred c] (f : α → α) (k : Nat) :
    mget (m.map fun e => if c e.1 then (e.1, f e.2) else e) k = if c k then (mget m k).map f else mget m k := by
  induction m with
  | nil => simp [mget]
  | cons e m ih =>
    obtain ⟨a, v⟩ := e
    have head : (if c a then (a, f v) else (a, v)) = (a, if c a then f v else v) := by split <;> rfl
    rw [List.map_cons, head]
    unfold mget
    rw [ih]
    by_cases h1 : k = a
    · subst h1
      by_cases hc : c k <;> simp [hc]
    · by_cases h2 : k < a <;> by_cases hc : c k <;> simp [h1, h2, hc]

theorem hkey_ne {q k : Nat} (hk : k < 2) (h2 : h < 2) (hne : k ≠ h) : hkey q k ≠ hkey n h := fun e => hne (hkey_inj hk h2 e).2

theorem capCheck_pages (s : State) : (capCheck s).mem.pages = s.mem.pages := by
  have resolved (u : State) : (capResolve u).mem = u.mem :=
    (capResolve_keeps (kl := [.boot, .pkg, .lds, .covs, .life, .log]) (by decide) (.refl _ _)).only .mem (by decide)
  unfold capCheck capEvents
  rw [resolved]
  simp only [modMem, apply_ite State.mem, event_mem, ite_self]

/-! Candidates and snapshots -/

/-- A snapshot leaves everything, or marks its page alone (R216, R239). -/
theorem takeSnapshot_spec (h2 : h < 2) (e : ErrorFree s) : ∃ t, Stands s t ∧
    (takeSnapshot s n h = t ∨ takeSnapshot s n h = setPage t n h { pageAtHub s n h with move := some .compress }) := by
  unfold takeSnapshot
  split
  · exact ⟨s, Still.refl s e, .inl rfl⟩
  next u a hu =>
    have paid : Stands s (payPage u true (2 + h) (opCost u opCompress 0)) :=
      (engineFor_still hu).trans (.of_keeps (l := [.tally]) (payPage_keeps (by decide) (.refl _ _)) (by decide) (by decide)) e
    have read (xs : List Nat) : xs.foldl (fun s i => supplyLine s (64 * n + i) h) (payPage u true (2 + h) (opCost u opCompress 0)) =
        payPage u true (2 + h) (opCost u opCompress 0) :=
      List.foldlRecOn (motive := fun v => v = payPage u true (2 + h) (opCost u opCompress 0)) xs _ rfl fun v hv _ _ => by
        rw [hv, supplyLine_clean paid.clean]
    dsimp only
    rw [read]
    split
    · split
      next v hv =>
        have taken := engineTakes_still h2 _ (fun u hu => Option.some.inj hu ▸ .refl _) v hv paid.clean
        refine ⟨v, ⟨paid.views.trans taken.views, taken.pages.trans paid.pages, taken.clean⟩, .inr ?_⟩
        rw [pageAtHub_congr (taken.pages.trans paid.pages)]
      · exact ⟨_, paid, .inl rfl⟩
    · exact ⟨_, paid, .inl rfl⟩

/-- A page that becomes a candidate is marked, and its snapshot may be taken; no other page changes. -/
theorem coldPage_spec (h2 : h < 2) (e : ErrorFree s) : Views s (coldPage s n h) ∧ ErrorFree (coldPage s n h) ∧
    ∃ mv, (mv = (pageAtHub s n h).move ∨ mv = some .compress) ∧ ∀ k, mget (coldPage s n h).mem.pages k =
      if k = hkey n h then some { pageAtHub s n h with cold := true, move := mv } else mget s.mem.pages k := by
  have marked := mget_setPage s n h { pageAtHub s n h with cold := true }
  have e1 : ErrorFree (setPage s n h { pageAtHub s n h with cold := true }) := ⟨e.copies, e.media, e.maps⟩
  unfold coldPage
  dsimp only
  split
  · obtain ⟨t, ht, hs | hs⟩ := takeSnapshot_spec (n := n) h2 e1
    · rw [hs]
      exact ⟨(setPage_views ..).trans ht.views, ht.clean, _, .inl rfl, fun k => by rw [ht.pages]; exact marked k⟩
    · rw [hs]
      refine ⟨((setPage_views ..).trans ht.views).trans (setPage_views ..), ⟨ht.clean.copies, ht.clean.media, ht.clean.maps⟩,
        _, .inr rfl, fun k => ?_⟩
      rw [mget_setPage, ht.pages, marked, pageAtHub_setPage_self]
      split <;> rfl
  · exact ⟨setPage_views .., e1, _, .inl rfl, marked⟩

/-- What the marks of one hub's candidates leave. -/
structure Aged (h : Nat) (s t : State) : Prop where
  views : Views s t
  clean : ErrorFree t
  form : ∀ q, (pageAtHub t q h).count = (pageAtHub s q h).count ∧ (pageAtHub t q h).st = (pageAtHub s q h).st ∧
    (pageAtHub t q h).hot = (pageAtHub s q h).hot
  other : ∀ q k, k < 2 → k ≠ h → pageAtHub t q k = pageAtHub s q k

theorem Aged.coldPage (h2 : h < 2) (a : Aged h s t) : Aged h s (coldPage t n h) := by
  obtain ⟨views, clean, mv, -, pages⟩ := coldPage_spec (n := n) h2 a.clean
  have page (q k : Nat) : pageAtHub (Machine.coldPage t n h) q k =
      if hkey q k = hkey n h then { pageAtHub t n h with cold := true, move := mv } else pageAtHub t q k := by
    unfold pageAtHub
    rw [pages]
    split <;> rfl
  refine ⟨a.views.trans views, clean, fun q => ?_, fun q k hk hne => ?_⟩
  · rw [← (a.form q).1, ← (a.form q).2.1, ← (a.form q).2.2, page]
    split
    next e =>
      rw [(hkey_inj h2 h2 e).1]
      exact ⟨rfl, rfl, rfl⟩
    · exact ⟨rfl, rfl, rfl⟩
  · rw [page, if_neg (hkey_ne hk h2 hne), a.other q k hk hne]

/-! Moves -/

theorem payMove_still (s : State) (h n : Nat) : Still s (payMove s h n) :=
  .of_keeps (l := [.tally]) (payMove_keeps (by decide) (.refl _ _)) (by decide) (by decide)

/-- A page leaves the hot tier. -/
theorem demote_spec (e : ErrorFree s) :
    ∃ t, Stands s t ∧ demote s n h = setPage t n h { pageAtHub s n h with hot := false, move := none } := by
  have still : Still s ((pageTwins s n h).foldl cleanCopy (payMove s h (pageTwins s n h).length)) :=
    Still.foldl (payMove_still _ _ _) fun _ _ => cleanCopy_still _
  refine ⟨_, still e, ?_⟩
  unfold demote
  dsimp only
  rw [pageAtHub_congr (still e).pages]

/-- A page enters the hot tier. -/
def entered (s : State) (n h : Nat) : State :=
  let s := rewriteKeys (readPage (payMove s h 64) n h) n h
  setPage s n h { pageAtHub s n h with hot := true, move := none }

theorem entered_spec (h2 : h < 2) (e : ErrorFree s) (f : Fresh s) : Views s (entered s n h) ∧
    pageAtHub (entered s n h) n h = { pageAtHub s n h with hot := true, move := none } := by
  have paid := payMove_still s h 64 e
  unfold entered
  rw [readPage_clean paid.clean, rewriteKeys_fresh h2 (paid.views.fresh f)]
  exact ⟨paid.views.trans (setPage_views ..), by rw [pageAtHub_setPage_self, pageAtHub_congr paid.pages]⟩

theorem promote_eq (s : State) (n h : Nat) : promote s n h =
    if (hotPages s h).length < 32256 then entered s n h
    else match coldestHot s h with
      | some e =>
        if tierReg s h 0x44 ≤ e.2.count.toNat then setPage s n h { pageAtHub s n h with move := none }
        else entered (demote s (e.1 / 2) h) n h
      | none => entered s n h := rfl

theorem promote_spec (h2 : h < 2) (e : ErrorFree s) (f : Fresh s) : Views s (promote s n h) ∧
    (pageAtHub (promote s n h) n h).move = none ∧
    ((hotPages s h).length < 32256 → (pageAtHub (promote s n h) n h).hot = true) := by
  obtain ⟨v, hp⟩ := entered_spec (n := n) h2 e f
  rw [promote_eq]
  split
  · exact ⟨v, congrArg Page.move hp, fun _ => congrArg Page.hot hp⟩
  next full =>
    cases coldestHot s h with
    | none => exact ⟨v, congrArg Page.move hp, fun room => absurd room full⟩
    | some x =>
      dsimp only
      split
      · exact ⟨setPage_views .., congrArg Page.move (pageAtHub_setPage_self ..), fun room => absurd room full⟩
      · obtain ⟨t, ht, hd⟩ := demote_spec (n := x.1 / 2) (h := h) e
        have left : Views s (demote s (x.1 / 2) h) := hd ▸ ht.views.trans (setPage_views ..)
        have clean : ErrorFree (demote s (x.1 / 2) h) := hd ▸ ⟨ht.clean.copies, ht.clean.media, ht.clean.maps⟩
        obtain ⟨v, hp⟩ := entered_spec (n := n) h2 clean (left.fresh f)
        exact ⟨left.trans v, congrArg Page.move hp, fun room => absurd room full⟩

/-- The eighths of media that a page needs more as PLAIN. -/
def plainNeed : PageState → Nat
  | .packed c => 8 - c
  | _ => 0

/-- A page is stored PLAIN. -/
def unpacked (s : State) (n h : Nat) : State :=
  let s := dropEnginePage (rewriteKeys (readPage (payPage s false (2 + h) (opCost s opDecompress 0)) n h) n h) n h
  let p := pageAtHub s n h
  capCheck (setPage s n h { p with st := if p.st == .zero then .zero else .plain, move := none })

theorem unpack_eq (s : State) (n h : Nat) : unpack s n h =
    if mediaShort s h (plainNeed (pageAtHub s n h).st) then setPage s n h { pageAtHub s n h with move := none }
    else unpacked s n h := rfl

theorem unpacked_spec (h2 : h < 2) (e : ErrorFree s) (f : Fresh s) : Views s (unpacked s n h) ∧
    pageAtHub (unpacked s n h) n h = { pageAtHub s n h with
      st := if (pageAtHub s n h).st == .zero then .zero else .plain, move := none } := by
  have paid : Stands s (payPage s false (2 + h) (opCost s opDecompress 0)) :=
    Still.of_keeps (l := [.tally]) (payPage_keeps (by decide) (.refl _ _)) (by decide) (by decide) e
  have left := dropEnginePage_still (page := n) (hub := h) paid.clean
  unfold unpacked
  rw [readPage_clean paid.clean, rewriteKeys_fresh h2 (paid.views.fresh f)]
  dsimp only
  rw [pageAtHub_congr (capCheck_pages _), pageAtHub_setPage_self, pageAtHub_congr (left.pages.trans paid.pages)]
  exact ⟨((paid.views.trans left.views).trans (setPage_views ..)).trans (capCheck_views _), rfl⟩

/-- An unpacking that media admits leaves the page PLAIN. -/
theorem unpack_spec (h2 : h < 2) (e : ErrorFree s) (f : Fresh s) : Views s (unpack s n h) ∧
    (pageAtHub (unpack s n h) n h).move = none ∧
    ∀ c, (pageAtHub s n h).st = .packed c → mediaShort s h (8 - c) = false → (pageAtHub (unpack s n h) n h).st = .plain := by
  obtain ⟨v, hp⟩ := unpacked_spec (n := n) h2 e f
  rw [unpack_eq]
  split
  next short =>
    refine ⟨setPage_views .., by rw [pageAtHub_setPage_self], fun c hc enough => ?_⟩
    rw [hc] at short
    exact absurd (short.symm.trans enough) Bool.true_eq_false.mp
  · refine ⟨v, by rw [hp], fun c hc _ => ?_⟩
    rw [hp, hc]
    rfl

/-! Compression -/

/-- The home's own lines of a page that is stored PACKED: its media is written, and holds what they held. -/
def imaged (s : State) (n h : Nat) : State :=
  (pageTwins ((List.range 64).foldl (fun s i => writeDamage s (64 * n + i) h) (rewriteKeys s n h)) n h).foldl
    (fun s k => modCoh s fun c => { c with twin := c.twin.filter (· != k), buf := mmod c.buf (hkey (k / 64) h) fun _ => false })
    ((List.range 64).foldl (fun s i => writeDamage s (64 * n + i) h) (rewriteKeys s n h))

theorem storeImage_eq (s : State) (n h size : Nat) : storeImage s n h size =
    mediaFreed (setPage (imaged s n h) n h { pageAtHub (imaged s n h) n h with
      st := .packed (max 1 ((size + 511) / 512)), move := none, cold := false, reads := 0 }) := rfl

theorem imaged_stands (h2 : h < 2) (e : ErrorFree s) (f : Fresh s) : Stands s (imaged s n h) := by
  unfold imaged
  rw [rewriteKeys_fresh h2 f]
  exact Still.foldl (Still.foldl (.refl s) fun _ _ => writeDamage_still) (fun _ _ => .modCoh _ id) e

theorem imaged_keeps (s : State) (n h : Nat) : Keeps [.mem, .coh] s (imaged s n h) := by
  have written : Keeps [.mem, .coh] s ((List.range 64).foldl (fun s i => writeDamage s (64 * n + i) h) (rewriteKeys s n h)) :=
    Keeps.foldl (rewriteKeys_keeps (by decide) (.refl _ _)) fun _ _ => writeDamage_keeps (by decide) (.refl _ _)
  exact written.foldl fun _ _ => modCoh_keeps (by decide) (.refl _ _)

/-! The commands -/

theorem errorFree_of_calm (c : Calm s) : ErrorFree s := by
  obtain ⟨copies, media, maps⟩ := c.errors
  exact ⟨copies, media, maps⟩

/-- What the device reads, tables, rings and extents stand. -/
theorem reads_stand {l : List Piece} (f : Fresh s) (v : Views s t) (k : Keeps l s t)
    (hl : Piece.tables ∉ l ∧ Piece.rings ∉ l ∧ Piece.extents ∉ l) :
    SameReadsBut s t 0 0 ∧ t.tables = s.tables ∧ t.rings = s.rings ∧ t.extents = s.extents :=
  ⟨fun a _ => v.devRead f a, k.only .tables hl.1, k.only .rings hl.2.1, k.only .extents hl.2.2⟩

/-- The pages of a hub as a window ends: each count halves, and reads begin at 0. -/
def windowed (s : State) (h : Nat) : State :=
  modMem s fun m => { m with
    pages := m.pages.map fun e => if e.1 % 2 = h then (e.1, { e.2 with count := e.2.count >>> 1, reads := 0 }) else e }

theorem pageAtHub_windowed (s : State) {k : Nat} (hk : k < 2) (q : Nat) : pageAtHub (windowed s h) q k =
    if k = h then { pageAtHub s q k with count := (pageAtHub s q k).count >>> 1, reads := 0 } else pageAtHub s q k := by
  have key : hkey q k % 2 = h ↔ k = h := by unfold hkey; omega
  unfold pageAtHub windowed modMem
  dsimp only
  rw [mget_map_where s.mem.pages (· % 2 = h) fun p => { p with count := p.count >>> 1, reads := 0 }, if_congr key rfl rfl]
  split
  · cases mget s.mem.pages (hkey q k) <;> rfl
  · rfl

theorem wakeHub_still (s : State) (h : Nat) : Still s (wakeHub s h) :=
  .of_keeps (l := [.tally, .regs]) (wakeHub_keeps (by decide) (.refl _ _)) (by decide) (by decide)

/-- A window halves counts; what it marks or compresses keeps its state, its tier and its bytes (R214, R222). -/
theorem tierWindow_spec (hub : BitVec 1) (e : ErrorFree s) (hh : halted s hub.toNat = false) :
    ∃ m, exec (.tierWindow hub) s = .next m ∧ Aged hub.toNat (windowed s hub.toNat) m := by
  have h2 : hub.toNat < 2 := hub.isLt
  have e1 : ErrorFree (windowed s hub.toNat) := ⟨e.copies, e.media, e.maps⟩
  have woken := wakeHub_still (windowed s hub.toNat) hub.toNat e1
  have start : Aged hub.toNat (windowed s hub.toNat) (wakeHub (windowed s hub.toNat) hub.toNat) :=
    ⟨woken.views, woken.clean, fun q => by rw [pageAtHub_congr woken.pages]; exact ⟨rfl, rfl, rfl⟩,
      fun q k _ _ => pageAtHub_congr woken.pages q k⟩
  refine ⟨_, (rfl : execTierWindow hub s = _), ?_⟩
  rw [if_neg (by rw [hh]; decide)]
  split
  · refine List.foldlRecOn (motive := fun u => Aged hub.toNat (windowed s hub.toNat) u) _ _ start fun u hu x _ => ?_
    split
    · exact hu.coldPage h2
    · exact hu
  · exact start

/-- What a move of a page does. -/
def moved (s : State) (n h : Nat) : MoveKind → State
  | .promote => promote s n h
  | .demote => demote s n h
  | .unpack => unpack s n h
  | .compress => s

theorem exec_switch {hub : BitVec 1} {page : BitVec 31} {k : MoveKind}
    (hk : (pageAtHub s page.toNat hub.toNat).move = some k) (hh : halted s hub.toNat = false) :
    exec (.pageMigrationSwitch hub page) s = .next (if pageAdmit s hub.toNat false (switchCost s k) = true
      then moved s page.toNat hub.toNat k else s) := by
  show execPageMigrationSwitch hub page s = _
  unfold execPageMigrationSwitch
  cases hadm : pageAdmit s hub.toNat false (switchCost s k)
  · simp [hk, hadm]
  · simp only [hk, hh, hadm, Bool.not_true, Bool.or_self, Bool.false_eq_true, if_false, if_true]
    cases k <;> rfl

/-- A page whose image no class holds. -/
def spared (s : State) (h : Nat) (p : Page) : Page :=
  { p with move := none, cold := false, retryTb := s.clock.tb + 4 * tierReg s h 0x4C * 32768 }

/-- A page whose image is stored. -/
def packed (size : Nat) (p : Page) : Page :=
  { p with st := .packed (max 1 ((size + 511) / 512)), move := none, cold := false, reads := 0 }

/-- The image of a page whose snapshot stands is stored, or found too large. -/
theorem exec_compression {hub : BitVec 1} {page : BitVec 31} {size : BitVec 13} (hh : halted s hub.toNat = false)
    (cool : s.tally.therm < 3) (hst : (pageAtHub s page.toNat hub.toNat).st = .plain)
    (hm : (pageAtHub s page.toNat hub.toNat).move = some .compress) :
    exec (.pageCompression hub page size) s = .next (if 3584 < size.toNat
      then setPage (dropEnginePage s page.toNat hub.toNat) page.toNat hub.toNat
        (spared s hub.toNat (pageAtHub s page.toNat hub.toNat))
      else storeImage (dropEnginePage s page.toNat hub.toNat) page.toNat hub.toNat size.toNat) := by
  have kept : Keeps [.coh] s (dropEnginePage s page.toNat hub.toNat) := dropEnginePage_keeps (by decide) (.refl _ _)
  have hclock : (dropEnginePage s page.toNat hub.toNat).clock = s.clock := kept.only .clock (by decide)
  have htier : tierReg (dropEnginePage s page.toNat hub.toNat) hub.toNat 0x4C = tierReg s hub.toNat 0x4C :=
    congrArg BitVec.toNat (reg_congr (kept.only .regs (by decide)) _)
  have snap : snapshotDue s page.toNat hub.toNat = false := by
    unfold snapshotDue
    dsimp only
    rw [hm]
    rfl
  show execPageCompression hub page size s = _
  unfold execPageCompression
  simp only [spared, hh, snap, hm, hst, hclock, htier, decide_eq_false (Nat.not_le.2 cool), Bool.false_and, Bool.and_false, Bool.or_self,
    Bool.false_eq_true, if_false, bne_self_eq_false, Bool.or_false, decide_eq_true_eq]

/-- A hub's waiting writes are made, or none is and it is harvested (R224). -/
theorem exec_mediaWait {hub : BitVec 1} (hh : halted s hub.toNat = false) (hw : s.mem.held.getD hub.toNat [] ≠ []) :
    let m := flushAll (retryHub hub.toNat (s.mem.held.getD hub.toNat []).length (wakeHub s hub.toNat))
    exec (.mediaWaitExpire hub) s = .next (if (m.mem.held.getD hub.toNat []).length < (s.mem.held.getD hub.toNat []).length ∨
        heldShort m hub.toNat = false then m
      else harvestCause m hub.toNat 0x300D hub.toNat [(4, capU m), (4, capP m)]) := by
  have waiting : (s.mem.held.getD hub.toNat []).length ≠ 0 := fun h0 => hw (List.length_eq_zero_iff.1 h0)
  have nonzero : ((s.mem.held.getD hub.toNat []).length != 0) = true := bne_iff_ne.2 waiting
  show execMediaWaitExpire hub s = _
  unfold execMediaWaitExpire
  simp only [hh, nonzero, eq_false waiting, decide_false, Bool.false_and, Bool.or_false, Bool.false_eq_true, if_false, Bool.true_or,
    Bool.and_true, Bool.or_eq_true, decide_eq_true_eq, Bool.not_eq_true']

end

/-- Settles O37: background work keeps every byte (`Views`) and the page map (`Stands`) until it stores its own page, for no error stands
where it could meet one. -/
theorem pagesChangeForm : Obligations.PagesChangeForm := by
  unfold Obligations.PagesChangeForm
  intro s hub page h n p same sound calm runs cool
  have h2 : h < 2 := hub.isLt
  have e : ErrorFree s := errorFree_of_calm calm
  have f : Fresh s := fresh_of_calm calm
  refine ⟨?window, fun hen hst hpol hretry => ?cold, fun k hk hne => ⟨fun wait => ?waits, fun admitted => ?moves⟩,
    fun size hst hmove => ⟨fun large => ?large, fun fits => ?fits⟩, ?expire⟩
  case window =>
    obtain ⟨m, run, aged⟩ := tierWindow_spec hub e runs
    have views : Views s m := (modMem_views rfl rfl : Views s (windowed s h)).trans aged.views
    refine ⟨m, run, fun q => ?_, fun q k hk hne => ?_, views.bytes f,
      reads_stand f views (execTierWindow_keeps (fun _ h => h) run (.refl _ s)) (by decide)⟩
    · have form := aged.form q
      rw [pageAtHub_windowed s h2, if_pos rfl] at form
      exact form
    · rw [aged.other q k hk hne, pageAtHub_windowed s hk, if_neg hne]
  case cold =>
    have run : exec (.pageColdAge hub page) s = .next (coldPage (wakeHub s h) n h) := by
      refine congrArg Host.Outcome.next (if_pos ?_ : _ = coldPage (wakeHub s h) n h)
      show (!halted s h && tierEn s h && p.st == .plain && pagePolicy s n == some 0 && decide (p.retryTb ≤ s.clock.tb)) = true
      rw [runs, hen, hst, hpol, decide_eq_true hretry]
      rfl
    have woken := wakeHub_still s h e
    obtain ⟨views, -, mv, moved, pages⟩ := coldPage_spec (n := n) h2 woken.clean
    rw [pageAtHub_congr woken.pages, woken.pages] at pages
    rw [pageAtHub_congr woken.pages] at moved
    have page : pageAtHub (coldPage (wakeHub s h) n h) n h = { p with cold := true, move := mv } := by
      unfold pageAtHub
      rw [pages, if_pos rfl]
      rfl
    have all := woken.views.trans views
    refine ⟨_, run, by rw [page], by rw [page]; exact hst, by rw [page]; exact moved, fun k hk => by rw [pages, if_neg hk],
      all.bytes f, reads_stand f all (execPageColdAge_keeps (fun _ h => h) run (.refl _ s)) (by decide)⟩
  case waits =>
    rw [exec_switch hk runs, wait]
    rfl
  case moves =>
    have run := exec_switch hk runs
    rw [if_pos admitted] at run
    have stand (v : Views s (moved s n h k)) := reads_stand f v
      (execPageMigrationSwitch_keeps (fun _ h => h) run (.refl _ s)) (by decide)
    refine ⟨_, run, ?_⟩
    cases k with
    | promote =>
      obtain ⟨v, hm, hot⟩ := promote_spec (n := n) h2 e f
      exact ⟨hm, stand v, fun _ => hot, nofun, nofun⟩
    | demote =>
      obtain ⟨t, ht, hd⟩ := demote_spec (n := n) (h := h) e
      have v : Views s (demote s n h) := hd ▸ ht.views.trans (setPage_views ..)
      have page : pageAtHub (demote s n h) n h = { p with hot := false, move := none } := by
        rw [hd, pageAtHub_setPage_self]
      exact ⟨congrArg Page.move page, stand v, nofun, fun _ => congrArg Page.hot page, nofun⟩
    | unpack =>
      obtain ⟨v, hm, plain⟩ := unpack_spec (n := n) h2 e f
      exact ⟨hm, stand v, nofun, nofun, fun _ => plain⟩
    | compress => exact absurd rfl hne
  case large =>
    have run := exec_compression (size := size) runs cool hst hmove
    rw [if_pos large] at run
    have left := dropEnginePage_still (page := n) (hub := h) e
    have kept : Keeps [.mem, .coh] s (dropEnginePage s n h) := dropEnginePage_keeps (by decide) (.refl _ _)
    have views := left.views.trans (setPage_views (dropEnginePage s n h) n h (spared s h p))
    have keeps : Keeps [.mem, .coh] s (setPage (dropEnginePage s n h) n h (spared s h p)) := setPage_keeps (by decide) kept
    exact ⟨_, run, pageAtHub_setPage_self .., views.bytes f, reads_stand f views keeps (by decide), keeps.only⟩
  case fits =>
    have run := exec_compression (size := size) runs cool hst hmove
    rw [if_neg (Nat.not_lt.2 fits), storeImage_eq] at run
    have left := dropEnginePage_still (page := n) (hub := h) e
    have stored := imaged_stands (n := n) h2 left.clean (left.views.fresh f)
    have pages := stored.pages.trans left.pages
    rw [pageAtHub_congr pages] at run
    have views := (left.views.trans stored.views).trans (setPage_views (imaged (dropEnginePage s n h) n h) n h (packed size.toNat p))
    have keeps : Keeps [.mem, .coh] s (setPage (imaged (dropEnginePage s n h) n h) n h (packed size.toNat p)) :=
      setPage_keeps (by decide) (Keeps.trans (dropEnginePage_keeps (by decide) (.refl _ _)) (imaged_keeps _ n h))
    exact ⟨_, run, pageAtHub_setPage_self .., fun k hk => by rw [mget_setPage, if_neg hk, pages],
      reads_stand f views keeps (by decide), keeps.only⟩
  case expire =>
    intro w m hw
    exact exec_mediaWait runs hw

end Sys2Proof.Machine
end
